-- ==== Sys2Proof/Word.lean ====
section
/-! DEFINITION. The plain words of the NQ-7260: bytes, sequencer words, element words and register names (R3, R302). -/

namespace Sys2Proof

/-- A byte of any store (R3: memory is little-endian bytes). -/
abbrev Byte := BitVec 8

/-- A sequencer register, address or control register (R302, R325). -/
abbrev Word := BitVec 64

/-- A Trellis datum, tile element or instruction word (R214, R302). -/
abbrev W32 := BitVec 32

/-- A register field of a sequencer word: `s0` to `s31` (R302). -/
abbrev Reg := BitVec 5

/-- A list of addressed things in rising address order. -/
abbrev Map (α : Type) := List (Nat × α)

end Sys2Proof
end

