-- ==== Sys2Proof/Syntax.lean ====
section
/-! DEFINITION. The syntax of every step of the NQ-7260: sequencer instructions (R302–R316), element operations
(R317–R323), and the events of the module, its host, its Lodge and its cells (spec/95_what_each_step_holds.md).
The constructors of `Instr` follow spec/opcode_table.json row by row. -/

namespace Sys2Proof

/-- The four scopes of an ordering operation, codes 0 to 3 (R170). -/
inductive Scope where
  | cell | part | dev | pod
  deriving DecidableEq, Repr

/-- The order field of an atomic, codes 0 to 3 (R310). -/
inductive Order where
  | relaxed | acquire | release | acqRel
  deriving DecidableEq, Repr

/-- FKIND of `FENCE`, codes 0 to 2 (R309). -/
inductive FenceKind where
  | acquire | release | full
  deriving DecidableEq, Repr

/-- The four rounding modes, codes 0 to 3 (R200). -/
inductive Rnd where
  | rne | rtz | rup | rdn
  deriving DecidableEq, Repr

/-- The eight conditions of `FCMP`, codes 0 to 7 (R312). -/
inductive Cond where
  | eq | ne | lt | le | gt | ge | un | ord
  deriving DecidableEq, Repr

/-- The eight conversion kinds of `FCVT`, codes 0 to 7 (R312, R349). -/
inductive Cvk where
  | wide | narrow | toi | ton | fromi | fromn | tobf | frombf
  deriving DecidableEq, Repr

/-- The eight source codes of an element record (R318). -/
inductive Src where
  | n | e | s | w | c0 | c1 | imm | carry
  deriving DecidableEq, Repr

/-- The eight types of an element record, codes 0 to 7 (R319). -/
inductive ElTy where
  | i32 | n32 | f32 | bf16x2 | i16x2 | i8x4 | n8x4 | b8x4
  deriving DecidableEq, Repr

/-- The 64-bit element record of R317 less its opcode, which the constructor of `Instr` names. -/
structure ElemRec where
  /-- D, bit 31 of the op word: the dual form. -/
  d    : Bool
  srcA : Src
  srcB : Src
  srcC : Src
  ty   : ElTy
  /-- var, bits [11:10] (R320). -/
  var  : BitVec 2
  /-- lvl, bits [9:8] (R320). -/
  lvl  : BitVec 2
  imm8 : Byte
  /-- The switch word: four output selects N, E, S, W from the top (R321). -/
  sw   : BitVec 16
  /-- The link word: the slot count of each output, in the same nibble order (R321). -/
  link : BitVec 16
  deriving DecidableEq, Repr

/-- Where a register write of a function lands: an offset of its BAR 0, the address of BAR 0 or BAR 2, or the location of
its MSI-X table (R22, R25). -/
inductive RegPlace where
  | bar0 (off : Nat)
  | barAddress (bar : Nat)
  | msixLocation
  deriving DecidableEq, Repr

/-- A host or peer request (R19, R20, R22, R26): a configuration read, of the boot status in the DVSEC or of another register,
a BAR read or write, or a request that names a physical address. -/
inductive HostReq where
  | readConfig (dvsec : Bool)
  | readBar (bar off size : Nat)
  | writeBar (bar off : Nat) (data : List Byte)
  | touch (pa : Nat) (write : Bool)
  deriving DecidableEq, Repr

/-- What a peer Lodge shows when a link session is set up (R34). -/
structure LinkPeer where
  module    : Nat
  fwVersion : Nat
  genuine   : Bool
  deriving DecidableEq, Repr

/-- A remote access as it arrives at the home module (R36, R443); `clear` empties an FE word for CLEARFE (R132). -/
inductive RemoteOp where
  | load (size : Nat)
  | store (data : List Byte)
  | atomic (op : BitVec 4) (dbl : Bool) (v : Word) (cmp : Word)
  | ldfe
  | stfe (v : W32)
  | fepeek
  | clear
  deriving DecidableEq, Repr

/-- A message of a pod launch (R37, R38) with the virtual function that its target runs it for; statuses by their codes (R100). -/
inductive PodMsg where
  | prepare (fn mask gen digest parts : Nat)
  | ready
  | refuse (status : Nat)
  | start (fn gen t : Nat) (node : List Byte) (args : List Word)
  | abort (fn gen : Nat)
  | done (gen status cause : Nat)
  deriving DecidableEq, Repr

/-- The payload of a pod flit (R32, R36, R141): bytes that this module only passes on, a remote access of a cell with the class of
its page (R443), its answer, the acknowledgement of an `LDFE` that waits at its home, or a message of a pod launch. -/
inductive FlitBody where
  | other (payload : List Byte)
  | request (cell world pa cls : Nat) (op : RemoteOp)
  | reply (cell pa : Nat) (data : List Byte) (refused : Bool)
  | deferred (cell pa : Nat)
  | pod (m : PodMsg)
  deriving DecidableEq, Repr

/-- A pod flit (R32) with what the receiver's checks of its CRC and tag find (R33): flit type, virtual channel, destination and
source module, link sequence number, and its payload in plaintext. -/
structure Flit where
  crcOk : Bool
  tagOk : Bool
  kind  : Nat
  vc    : Nat
  dest  : Nat
  src   : Nat
  seq   : W32
  body  : FlitBody
  deriving DecidableEq, Repr

/-- A pod member: its module number and certificate digest (R35). -/
structure PodMember where
  module : Nat
  digest : Nat
  deriving DecidableEq, Repr

/-- What one remote member brings to a collective (R387, R388); `lost` when its link session is gone. -/
structure RelayPart where
  module : Nat
  /-- 0 `CAR`, 1 `CBC`, 2 `CAG`. -/
  kind   : Nat
  mask   : Nat
  bytes  : Nat
  op     : BitVec 8
  root   : Byte
  data   : List Byte
  lost   : Bool
  deriving DecidableEq, Repr

/-- Where an uncorrectable error is found (R275). -/
inductive ErrSite where
  | cellStore (cell : Nat)
  | linkSlot (cell : Nat)
  | arbourGroup (cell : Nat)
  | hbmLine (pa part ctx : Nat)
  | l1Line (cell line : Nat)
  | commonsTag (line : Nat)
  | bandstand (die : Nat)
  | gardener (die : Nat)
  deriving DecidableEq, Repr

/-- Every step of spec/opcode_table.json, one constructor each: the sequencer's
instructions, the element operations, and then the events of the other agents. A sequencer constructor holds
its operand fields (`gate = some w` is the deferred form, R315), an element constructor its record, and an event
constructor what its agent brings to it. -/
inductive Instr where
  /-- R328: d := a + b modulo 2^64. -/
  | add (d a b : Reg)
  /-- R328: d := a − b. -/
  | sub (d a b : Reg)
  /-- R328: Low 64 bits of a × b. -/
  | mul (d a b : Reg)
  /-- R328: High 64 bits of the signed product. -/
  | mulh (d a b : Reg)
  /-- R328: High 64 bits of the unsigned product. -/
  | mulhn (d a b : Reg)
  /-- R328: Signed quotient truncated toward zero, with defined results for b = 0 and overflow. -/
  | div (d a b : Reg)
  /-- R328: Unsigned quotient; all ones for b = 0. -/
  | divn (d a b : Reg)
  /-- R328: Signed remainder with the sign of a. -/
  | rem (d a b : Reg)
  /-- R328: Unsigned remainder; a for b = 0. -/
  | remn (d a b : Reg)
  /-- R328: Bitwise AND. -/
  | and (d a b : Reg)
  /-- R328: Bitwise OR. -/
  | or (d a b : Reg)
  /-- R328: Bitwise XOR. -/
  | xor (d a b : Reg)
  /-- R328: a AND NOT b. -/
  | andn (d a b : Reg)
  /-- R328: Shift left by b[5:0]. -/
  | shl (d a b : Reg)
  /-- R328: Logical shift right by b[5:0]. -/
  | shr (d a b : Reg)
  /-- R328: Arithmetic shift right by b[5:0]. -/
  | sha (d a b : Reg)
  /-- R328: Rotate right by b[5:0]. -/
  | rot (d a b : Reg)
  /-- R328: Signed minimum. -/
  | min (d a b : Reg)
  /-- R328: Signed maximum. -/
  | max (d a b : Reg)
  /-- R328: Unsigned minimum. -/
  | minn (d a b : Reg)
  /-- R328: Unsigned maximum. -/
  | maxn (d a b : Reg)
  /-- R328: 1 if a < b signed. -/
  | slt (d a b : Reg)
  /-- R328: 1 if a < b unsigned. -/
  | sltn (d a b : Reg)
  /-- R328: 1 if a = b. -/
  | seq (d a b : Reg)
  /-- R328: Count of leading zeros of a. -/
  | clz (d a : Reg)
  /-- R328: Count of trailing zeros of a. -/
  | ctz (d a : Reg)
  /-- R328: Count of one bits of a. -/
  | popc (d a : Reg)
  /-- R328: d := a if b ≠ 0, else d, with a dual form that passes tangents. -/
  | sel (d a b : Reg)
  /-- R330: a + sign-extended imm16. -/
  | addi (d a : Reg) (i : BitVec 16)
  /-- R330: a AND zero-extended imm16. -/
  | andi (d a : Reg) (i : BitVec 16)
  /-- R330: a OR zero-extended imm16; ORI s0, s0, 0 is NOP. -/
  | ori (d a : Reg) (i : BitVec 16)
  /-- R330: a XOR zero-extended imm16. -/
  | xori (d a : Reg) (i : BitVec 16)
  /-- R330: Shift left by an immediate amount. -/
  | shlImmediate (d a : Reg) (n : BitVec 6)
  /-- R330: Logical shift right by an immediate amount. -/
  | shrImmediate (d a : Reg) (n : BitVec 6)
  /-- R330: Arithmetic shift right by an immediate amount. -/
  | shaImmediate (d a : Reg) (n : BitVec 6)
  /-- R330: Rotate right by an immediate amount. -/
  | rotImmediate (d a : Reg) (n : BitVec 6)
  /-- R330: 1 if a < sign-extended imm16. -/
  | slti (d a : Reg) (i : BitVec 16)
  /-- R330: 1 if a < zero-extended imm16, unsigned. -/
  | sltni (d a : Reg) (i : BitVec 16)
  /-- R331: d := imm16 placed at halfword h, other bits zero. -/
  | lui (d : Reg) (h : BitVec 2) (i : BitVec 16)
  /-- R331: Replaces halfword h of d with imm16. -/
  | movk (d : Reg) (h : BitVec 2) (i : BitVec 16)
  /-- R332: Branch if a = b. -/
  | beq (a b : Reg) (o : BitVec 16)
  /-- R332: Branch if a ≠ b. -/
  | bne (a b : Reg) (o : BitVec 16)
  /-- R332: Branch if a < b signed. -/
  | blt (a b : Reg) (o : BitVec 16)
  /-- R332: Branch if a ≥ b signed. -/
  | bge (a b : Reg) (o : BitVec 16)
  /-- R332: Branch if a < b unsigned. -/
  | bltn (a b : Reg) (o : BitVec 16)
  /-- R332: Branch if a ≥ b unsigned. -/
  | bgen (a b : Reg) (o : BitVec 16)
  /-- R333: Decrements a and branches if the result is non-zero. -/
  | dbnz (a : Reg) (o : BitVec 16)
  /-- R334: Unconditional relative jump. -/
  | jmp (o : BitVec 26)
  /-- R334: Relative jump writing the return address to s31. -/
  | call (o : BitVec 26)
  /-- R334: Jumps to the address in a. -/
  | jr (a : Reg)
  /-- R334: Jumps to the address in a and writes the return address to s31. -/
  | jrLink (a : Reg)
  /-- R337: Loads a sign-extended byte. -/
  | ldb (d a : Reg) (o : BitVec 16)
  /-- R337: Loads a sign-extended halfword. -/
  | ldh (d a : Reg) (o : BitVec 16)
  /-- R337: Loads a sign-extended word, with a dual form that reads tangents. -/
  | ldw (d a : Reg) (o : BitVec 16)
  /-- R337: Loads a doubleword, with a dual form; also reads queue events in DEV pages. -/
  | ldd (d a : Reg) (o : BitVec 16)
  /-- R337: Loads a zero-extended byte. -/
  | ldbn (d a : Reg) (o : BitVec 16)
  /-- R337: Loads a zero-extended halfword. -/
  | ldhn (d a : Reg) (o : BitVec 16)
  /-- R337: Loads a zero-extended word. -/
  | ldwn (d a : Reg) (o : BitVec 16)
  /-- R339: Loads 8 bytes from scratch. -/
  | lds (d a : Reg) (o : BitVec 16)
  /-- R338: Stores a byte. -/
  | stb (d a : Reg) (o : BitVec 16)
  /-- R338: Stores a halfword. -/
  | sth (d a : Reg) (o : BitVec 16)
  /-- R338: Stores a word, with a dual form that writes tangents. -/
  | stw (d a : Reg) (o : BitVec 16)
  /-- R338: Stores a doubleword, or adds to a queue event on DEV. -/
  | std (d a : Reg) (o : BitVec 16)
  /-- R339: Stores 8 bytes to scratch. -/
  | sts (d a : Reg) (o : BitVec 16)
  /-- R342: Load with acquire at the named scope. -/
  | ldaq (d a : Reg) (c : Scope) (dbl : Bool)
  /-- R342: Store with release at the named scope. -/
  | strl (a b : Reg) (c : Scope) (dbl : Bool)
  /-- R343: Acquire, release or full fence at the named scope. -/
  | fence (k : FenceKind) (c : Scope)
  /-- R344: Atomic add returning the old value. -/
  | aadd (d a b : Reg) (c : Scope) (o : Order) (dbl : Bool)
  /-- R344: Atomic signed minimum. -/
  | amin (d a b : Reg) (c : Scope) (o : Order) (dbl : Bool)
  /-- R344: Atomic signed maximum. -/
  | amax (d a b : Reg) (c : Scope) (o : Order) (dbl : Bool)
  /-- R344: Atomic unsigned minimum. -/
  | aminn (d a b : Reg) (c : Scope) (o : Order) (dbl : Bool)
  /-- R344: Atomic unsigned maximum. -/
  | amaxn (d a b : Reg) (c : Scope) (o : Order) (dbl : Bool)
  /-- R344: Atomic AND. -/
  | aand (d a b : Reg) (c : Scope) (o : Order) (dbl : Bool)
  /-- R344: Atomic OR. -/
  | aor (d a b : Reg) (c : Scope) (o : Order) (dbl : Bool)
  /-- R344: Atomic XOR. -/
  | axor (d a b : Reg) (c : Scope) (o : Order) (dbl : Bool)
  /-- R344: Atomic exchange. -/
  | axchg (d a b : Reg) (c : Scope) (o : Order) (dbl : Bool)
  /-- R345: Atomic compare-and-swap against d. -/
  | acas (d a b : Reg) (c : Scope) (o : Order) (dbl : Bool)
  /-- R344: Atomic f32 add, rounded to nearest even. -/
  | afadd (d a b : Reg) (c : Scope) (o : Order)
  /-- R346: Waits until an FE word is full and returns it as an acquire. -/
  | ldfe (d a : Reg) (c : Scope)
  /-- R346: Fills an empty FE word as a release, or traps FEDUP on a full word. -/
  | stfe (a b : Reg) (c : Scope)
  /-- R346: Reports the presence bit and value of an FE word without waiting. -/
  | fepeek (d a : Reg) (c : Scope)
  /-- R348: Floating add in f32 or f64. -/
  | fadd (d a b : Reg) (r : Rnd) (w : Bool)
  /-- R348: Floating subtract. -/
  | fsub (d a b : Reg) (r : Rnd) (w : Bool)
  /-- R348: Floating multiply. -/
  | fmul (d a b : Reg) (r : Rnd) (w : Bool)
  /-- R348: Fused a × b + d with one rounding. -/
  | ffma (d a b : Reg) (r : Rnd) (w : Bool)
  /-- R348: Floating minimum under R201. -/
  | fmin (d a b : Reg) (w : Bool)
  /-- R348: Floating maximum under R201. -/
  | fmax (d a b : Reg) (w : Bool)
  /-- R348: Floating compare writing 1 or 0. -/
  | fcmp (d a b : Reg) (c : Cond) (w : Bool)
  /-- R349: Conversion by kind among f32, f64, bf16 and 64-bit integers. -/
  | fcvt (d a : Reg) (k : Cvk) (r : Rnd) (w : Bool)
  /-- R348: Correctly rounded square root. -/
  | fsqrt (d a : Reg) (r : Rnd) (w : Bool)
  /-- R348: Correctly rounded reciprocal. -/
  | frcp (d a : Reg) (r : Rnd) (w : Bool)
  /-- R351: Reads a control register. -/
  | ctlrd (d : Reg) (n : BitVec 9)
  /-- R351: Writes a control register. -/
  | ctlwr (a : Reg) (n : BitVec 9)
  /-- R351: ORs bits into a control register. -/
  | ctlset (a : Reg) (n : BitVec 9)
  /-- R351: Clears bits in a control register. -/
  | ctlclr (a : Reg) (n : BitVec 9)
  /-- R352: Retires with no effect. -/
  | snop
  /-- R352: Raises SOFT precisely with a code. -/
  | trap (c : BitVec 7)
  /-- R353: Waits until a named event line is set or a counter is reached. -/
  | waitev (x : Reg)
  /-- R354: Marks the cell yielding, expiring the quantum once every running cell has yielded. -/
  | yield
  /-- R355: Returns from the handler to kfpc. -/
  | kret
  /-- R352: Begins a debug stop if a debugger is attached, otherwise retires as SNOP with a trace record. -/
  | brk
  /-- R356: Waits for the phase, engines and queues to drain, cancels armed commands and ends the cell program, completing the launch after the last cell. -/
  | halt
  /-- R316: Prefix making the following instruction compute tangents. -/
  | dual
  /-- R364: Starts or arms a shaped copy to memory, scratch or a STIN port. -/
  | scopy (x y z : Reg) (gate : Option Reg)
  /-- R364: Streams into an operand FIFO. -/
  | sfeed (x y z : Reg) (gate : Option Reg)
  /-- R364: Streams a tile or STOUT port out to memory or scratch. -/
  | sdrain (x y z : Reg) (gate : Option Reg)
  /-- R364: Gathers rows through an index list into a FIFO, memory or scratch. -/
  | sgath (x y z : Reg) (gate : Option Reg)
  /-- R364: Scatters through an index list. -/
  | sscat (x y z : Reg) (gate : Option Reg)
  /-- R366: Waits until a stream identifier is idle. -/
  | swait (st : BitVec 4)
  /-- R366: Cancels an armed or running stream. -/
  | scancel (st : BitVec 4)
  /-- R365: Carries bundle chunks through the Lodge into the current sealed region. -/
  | sunseal (x y z : Reg) (gate : Option Reg)
  /-- R364: Fills a shaped destination with a repeated 32-bit value. -/
  | stfill (x y z : Reg) (gate : Option Reg)
  /-- R369: Queues a matrix multiply of FIFO rows by B into a tile. -/
  | mma (t : BitVec 3) (bsel asel : Bool) (z : Reg) (gate : Option Reg)
  /-- R369: Queues a grouped matrix multiply. -/
  | mmag (t : BitVec 3) (bsel asel : Bool) (z : Reg) (gate : Option Reg)
  /-- R370: Clears a tile to +0. -/
  | aclr (t : BitVec 3) (gate : Option Reg)
  /-- R370: Scales a tile by an f32 factor. -/
  | ascale (t : BitVec 3) (y : Reg) (gate : Option Reg)
  /-- R371: Converts a tile into the B register's back half. -/
  | atob (t : BitVec 3) (y : Reg) (gate : Option Reg)
  /-- R370: Copies one tile to another. -/
  | acpy (t u : BitVec 3) (gate : Option Reg)
  /-- R373: Waits until every issued Arbour operation has completed. -/
  | mwait
  /-- R372: Discards FIFO slots and, for a B FIFO, the front B half. -/
  | bdrop (q : BitVec 2) (y : Reg) (gate : Option Reg)
  /-- R374: Initialises a barrier's counts and event line. -/
  | binit (b : BitVec 5) (y z : Reg)
  /-- R374: Lowers a barrier's arrival count. -/
  | barrive (b : BitVec 5) (gate : Option Reg)
  /-- R374: Adds expected bytes to a barrier. -/
  | bexpect (b : BitVec 5) (y : Reg) (gate : Option Reg)
  /-- R374: Waits until a barrier is complete. -/
  | bwaitb (b : BitVec 5)
  /-- R374: Reads whether a barrier is complete. -/
  | btest (x : Reg) (b : BitVec 5)
  /-- R375: Loads a gate term from two words. -/
  | evsetTerm (g : BitVec 4) (y z : Reg)
  /-- R375: Loads an event counter's source line and threshold. -/
  | evsetCounter (c : BitVec 4) (y : Reg)
  /-- R375: Loads or stops the e23 timer period. -/
  | evsetTimer (y : Reg)
  /-- R376: Clears lines and counter counts. -/
  | evclr (x : Reg)
  /-- R376: Sets one of lines e24 to e31. -/
  | evfire (e : BitVec 3) (gate : Option Reg)
  /-- R376: Reads the lines and the counters' reached flags. -/
  | evread (x : Reg)
  /-- R377: Starts a thread phase. -/
  | brun (x y z : Reg) (gate : Option Reg)
  /-- R378: Waits for the phase's Done and returns its error count. -/
  | bwait (x : Reg)
  /-- R378: Checks and binds a block image to a block number. -/
  | bcfg (x y : Reg)
  /-- R378: Reads a thread's error word. -/
  | bstat (x y : Reg)
  /-- R378: Ends a running phase, aborting tokens and parking threads. -/
  | bkill
  /-- R159: Issues a map command making the lowest free handle live. -/
  | kvalloc (x : Reg) (gate : Option Reg)
  /-- R160: Issues a map command appending positions to sequences. -/
  | kvapp (x : Reg) (gate : Option Reg)
  /-- R159: Issues a map command forking a sequence into n handles. -/
  | kvfork (x : Reg) (gate : Option Reg)
  /-- R159: Issues a map command releasing a sequence. -/
  | kvrel (x : Reg) (gate : Option Reg)
  /-- R159: Issues a map command returning block-table or shadow entries. -/
  | kvlook (x : Reg) (gate : Option Reg)
  /-- R162: Issues a map command allocating shadow pages for drafts. -/
  | kvdraft (x : Reg) (gate : Option Reg)
  /-- R163: Issues a map command accepting j drafts. -/
  | kvswap (x : Reg) (gate : Option Reg)
  /-- R164: Issues a map command inserting or adopting a prefix. -/
  | kvpfx (x : Reg) (gate : Option Reg)
  /-- R164: Issues a map command removing a prefix entry. -/
  | kvdrop (x : Reg) (gate : Option Reg)
  /-- R383: Decrypts a session request record into scratch through the Lodge. -/
  | sopen (x y z : Reg) (gate : Option Reg)
  /-- R384: Seals scratch plaintext as a prompt or certified reply. -/
  | sseal (x y z : Reg) (gate : Option Reg)
  /-- R386: Adds 1 to the partition's requests-served counter. -/
  | smeter
  /-- R386: Reads the highest epoch closed clean. -/
  | sepoch (x : Reg)
  /-- R388: Starts an all-reduce through the relay. -/
  | car (x : Reg) (gate : Option Reg)
  /-- R388: Starts a broadcast from the root. -/
  | cbc (x : Reg) (gate : Option Reg)
  /-- R388: Starts an all-gather. -/
  | cag (x : Reg) (gate : Option Reg)
  /-- R389: Waits for the last collective and returns its status. -/
  | cwait (x : Reg)
  /-- R390: Combines a scratch vector into memory word by word at the bank ALUs. -/
  | bkop (x y z : Reg) (gate : Option Reg)
  /-- R391: Reduces a memory range to one value in scratch. -/
  | bkred (x y z : Reg) (gate : Option Reg)
  /-- R392: Pins the current generation of a weight set for the cell. -/
  | wpin (x y : Reg)
  /-- R392: Releases the cell's pin of a weight set. -/
  | wunpin (x : Reg)
  /-- R392: Reads the current generation of a weight set. -/
  | wgen (x y : Reg)
  /-- R397: Element passes its operand bit for bit. -/
  | elemMov (r : ElemRec)
  /-- R397: Element emits a constant per trigger token. -/
  | elemConst (r : ElemRec)
  /-- R397: Element emits the trigger token's thread number. -/
  | elemTid (r : ElemRec)
  /-- R399: Lane-wise integer add, wrapping or saturating. -/
  | elemAdd (r : ElemRec)
  /-- R399: Lane-wise integer subtract. -/
  | elemSub (r : ElemRec)
  /-- R399: Lane-wise integer multiply. -/
  | elemMul (r : ElemRec)
  /-- R399: High half of the lane product. -/
  | elemMulhi (r : ElemRec)
  /-- R399: Lane-wise a × b + c. -/
  | elemMad (r : ElemRec)
  /-- R399: Lane-wise minimum. -/
  | elemMin (r : ElemRec)
  /-- R399: Lane-wise maximum. -/
  | elemMax (r : ElemRec)
  /-- R399: Lane-wise absolute value. -/
  | elemAbs (r : ElemRec)
  /-- R399: Lane-wise negation. -/
  | elemNeg (r : ElemRec)
  /-- R399: Bitwise AND. -/
  | elemAnd (r : ElemRec)
  /-- R399: Bitwise OR. -/
  | elemOr (r : ElemRec)
  /-- R399: Bitwise XOR. -/
  | elemXor (r : ElemRec)
  /-- R399: Lane-wise shift left. -/
  | elemShl (r : ElemRec)
  /-- R399: Lane-wise logical shift right. -/
  | elemShr (r : ElemRec)
  /-- R399: Lane-wise arithmetic shift right. -/
  | elemSha (r : ElemRec)
  /-- R399: Leading zero count per lane. -/
  | elemClz (r : ElemRec)
  /-- R399: One-bit count per lane. -/
  | elemPopc (r : ElemRec)
  /-- R399: Bit-field extract. -/
  | elemBfx (r : ElemRec)
  /-- R400: Lane-wise integer compare. -/
  | elemCmp (r : ElemRec)
  /-- R400: Selects v or u by a 32-bit condition. -/
  | elemSel (r : ElemRec)
  /-- R401: Floating add. -/
  | elemFadd (r : ElemRec)
  /-- R401: Floating subtract. -/
  | elemFsub (r : ElemRec)
  /-- R401: Floating multiply. -/
  | elemFmul (r : ElemRec)
  /-- R401: Fused multiply-add. -/
  | elemFma (r : ElemRec)
  /-- R401: Floating minimum. -/
  | elemFmin (r : ElemRec)
  /-- R401: Floating maximum. -/
  | elemFmax (r : ElemRec)
  /-- R401: Clears the sign bit. -/
  | elemFabs (r : ElemRec)
  /-- R401: Inverts the sign bit. -/
  | elemFneg (r : ElemRec)
  /-- R401: Floating compare. -/
  | elemFcmp (r : ElemRec)
  /-- R402: Correctly rounded reciprocal. -/
  | elemRcp (r : ElemRec)
  /-- R402: Correctly rounded square root. -/
  | elemSqrt (r : ElemRec)
  /-- R402: Correctly rounded reciprocal square root. -/
  | elemRsq (r : ElemRec)
  /-- R402: Correctly rounded 2^x. -/
  | elemExp2 (r : ElemRec)
  /-- R402: Correctly rounded log2. -/
  | elemLog2 (r : ElemRec)
  /-- R402: Correctly rounded tanh. -/
  | elemTanh (r : ElemRec)
  /-- R402: Correctly rounded sine. -/
  | elemSin (r : ElemRec)
  /-- R402: Correctly rounded cosine. -/
  | elemCos (r : ElemRec)
  /-- R403: Converts between the type and a format code. -/
  | elemCvt (r : ElemRec)
  /-- R404: Packs a narrow code into a word. -/
  | elemPack (r : ElemRec)
  /-- R404: Decodes the low narrow code of a word to f32. -/
  | elemUnpk (r : ElemRec)
  /-- R405: Quantises with a scale to a narrow format. -/
  | elemQnt (r : ElemRec)
  /-- R405: Dequantises a code with a scale to f32. -/
  | elemDqnt (r : ElemRec)
  /-- R406: Accumulates a sum, emitted at markers or pass end. -/
  | elemRsum (r : ElemRec)
  /-- R406: Accumulates a maximum. -/
  | elemRmax (r : ElemRec)
  /-- R406: Accumulates a minimum. -/
  | elemRmin (r : ElemRec)
  /-- R406: Counts non-zero values. -/
  | elemRcnt (r : ElemRec)
  /-- R407: Forwards its input and emits a level marker after each non-zero token. -/
  | elemLvl (r : ElemRec)
  /-- R409: Reads a live slot of the issued thread. -/
  | elemLin (r : ElemRec)
  /-- R409: Queues a live-slot write for the thread's commit. -/
  | elemLout (r : ElemRec)
  /-- R411: Loads a word at firing. -/
  | elemLd (r : ElemRec)
  /-- R411: Loads a word as an acquire. -/
  | elemLdaq (r : ElemRec)
  /-- R411: Loads a full FE word, or poisons the token and sets a watch. -/
  | elemLdfe (r : ElemRec)
  /-- R412: Queues a store performed at commit. -/
  | elemSt (r : ElemRec)
  /-- R412: Queues a release store. -/
  | elemStrl (r : ElemRec)
  /-- R412: Queues an FE fill performed at commit. -/
  | elemStfe (r : ElemRec)
  /-- R413: Queues an atomic at the bank, with the old value delivered at commit. -/
  | elemAtm (r : ElemRec)
  /-- R414: Reads 4 bytes of scratch. -/
  | elemLds (r : ElemRec)
  /-- R414: Queues a scratch store. -/
  | elemSts (r : ElemRec)
  /-- R414: Speculatively fills a line. -/
  | elemPft (r : ElemRec)
  /-- R416: Reads an accumulator tile element. -/
  | elemAcrd (r : ElemRec)
  /-- R416: Writes an accumulator tile element at commit. -/
  | elemAcwr (r : ElemRec)
  /-- R417: Builds A rows into an operand FIFO from committed values. -/
  | elemAfpush (r : ElemRec)
  /-- R418: Takes the next stream element as the issued thread's token. -/
  | elemStin (r : ElemRec)
  /-- R419: Hands committed values to a draining stream. -/
  | elemStout (r : ElemRec)
  /-- R420: Adds a value to a memory word at the bank at commit. -/
  | elemBkadd (r : ElemRec)
  /-- R421: At the thread's commit performs its queued entries and sends it to a successor block or parks it. -/
  | elemNext (r : ElemRec)
  /-- R421: Commits the thread and parks it without error. -/
  | elemPark (r : ElemRec)
  /-- R421: Arrives at a barrier at commit. -/
  | elemBarv (r : ElemRec)
  /-- R421: Poisons the token with SOFT when its condition is non-zero. -/
  | elemTrapx (r : ElemRec)
  /-- R303: The sequencer meets a word that fails decoding (0x0000_0000, a reserved major, function or sub value, a non-zero must-be-zero field, or a misplaced DUAL prefix) and traps ILL precisely. -/
  | illegalInstructionWord (w : W32)
  /-- R110: The block scheduler chooses an eligible block, takes its thread set, loads its configuration and issues its tokens and the pass-end marker. -/
  | blockChoice (cell : Nat)
  /-- R219: The pass-end marker reaches every control node, reducing passes commit, counters update and samples are written. -/
  | passEnd (cell : Nat)
  /-- R266: An asynchronous program error is delivered at the next instruction boundary, entering the handler, queuing, or ending the launch. -/
  | asyncReportDelivery (cell : Nat)
  /-- R238: A streamer issues one line request per cycle for its next active identifier. -/
  | streamRequestIssue (cell st : Nat)
  /-- R246: A stream element lands in memory, scratch, a FIFO or a STIN port, its barrier count falls, and the stream completes after the last. -/
  | streamElementLand (cell st : Nat)
  /-- R437: After resume, discarded FIFO elements are refetched in their original order without a new stream. -/
  | fifoRefetch (cell fifo : Nat)
  /-- R250: When a B half is free and 96 slots are present, the Arbour loads that half from the B FIFO. -/
  | arbourBLoad (cell fifo : Nat)
  /-- R253: An Arbour row is consumed when present with B in place, shadowed and accumulated, or FORMAT or STREAM is raised. -/
  | arbourRowConsume (cell : Nat)
  /-- R256: An Arbour operation completes, releases its shadow, pulses e16 and releases MWAIT. -/
  | arbourOpComplete (cell : Nat)
  /-- R261: A true gate term holding an armed command starts it, clears its lines and lowers its counters. -/
  | gateTermFire (cell term : Nat)
  /-- R259: The timer period loaded for e23 expires and sets e23. -/
  | eventTimer (cell : Nat)
  /-- R139: A bank ALU performs an atomic, bank or FE operation on a line in arrival order, filling it if absent. -/
  | bankOperation (cell : Nat)
  /-- R388: The relay completes a collective, writing every participant's destination and pulsing e21. -/
  | collectiveComplete (cell : Nat) (parts : List RelayPart)
  /-- R158: The Espalier takes a map command record, checks it in order and performs it whole, writing status and result. -/
  | mapCommandExecute (world : Nat)
  /-- R288: The n-th data token on a breakpoint link stops in its slot and a debug stop begins. -/
  | breakpointHit (cell bp : Nat)
  /-- R217: A route output passes an input token through unchanged when its output has a free slot. -/
  | elemRoute
  /-- R17: Power-on or deassertion of PCIe PERST# erases every key, ends every world, starts new partition generations and runs the boot sequence from stage 1. -/
  | coldReset
  /-- R17: A conventional reset of the PCIe physical function erases every key, ends every world and reruns the boot sequence from stage 1. -/
  | moduleReset
  /-- R18: A boot stage ends; on success the next stage starts, and on failure the sequence halts with FAIL, STAGE and UNIT recorded in the boot status register. -/
  | bootStageComplete (failed : Option Nat)
  /-- R15: Every 100 µs the Lodge measures module power and lowers the core clock by 100 MHz while the 1 ms average exceeds the limit. -/
  | powerSample (avgW : Nat)
  /-- R15: Once per millisecond while the average is below 95 % of the limit, the Lodge raises the core clock one step toward 1.6 GHz. -/
  | clockRaiseStep (avgW : Nat)
  /-- R16: A die junction reaching 100 °C makes the Lodge pin the core clock at 0.8 GHz. -/
  | thermalThrottle
  /-- R16: The junction temperature falls below 95 °C and the clock pin is released. -/
  | thermalThrottleRelease
  /-- R16: A die reaching 110 °C ends every world with MCHK, erases all keys and leaves the module as after a cold reset stopped at stage 1. -/
  | thermalStop
  /-- R85: A host write of a queue tail makes ring entries available, or clears EN, sets OVR and posts an OVERRUN record when it overfills the ring. -/
  | qtailWrite (fn q : Nat) (v : Word)
  /-- R84: A host write of CHEAD frees completion slots, and a value below the previous one or above CTAIL is ignored. -/
  | qstatCheadWrite (fn q : Nat) (v : Word)
  /-- R83: Setting EN in QCTL zeroes QHEAD, QTAIL and the completion counts, clears OVR and enables the queue. -/
  | qctlEnable (fn q : Nat) (v : Word)
  /-- R83: Clearing EN stops fetching, and IDLE is set once the graph in progress has completed. -/
  | qctlDisable (fn q : Nat) (v : Word)
  /-- R90: A write of the event doorbell adds the value to the named queue event as a release at DEV. -/
  | qevdbWrite (fn : Nat) (v : Word)
  /-- R94: A VF writes VFCTL PAUSE_ACK, acknowledging the firmware-update pause. -/
  | pauseAck (fn : Nat)
  /-- R96: A write of the fault-ring control register sets LOGSIZE and EN, or is ignored whole if a field is invalid. -/
  | fqctlWrite (v : Word)
  /-- R96: The hypervisor writes the count of consumed fault records, freeing fault-ring slots. -/
  | fqheadWrite (v : Word)
  /-- R82: A write to a BAR register without behaviour of its own, such as QBASE, QCBASE, MBADDR or FQBASE, stores its value, subject to the EN lock. -/
  | registerWrite (fn : Nat) (place : RegPlace) (v : Word)
  /-- R26: A host or peer request to a BAR is served, and one that would touch world memory, the Orangery, an OPD page or unallocated staging completes with Unsupported Request. -/
  | hostRequest (fn : Nat) (req : HostReq)
  /-- R24: A TLP fails its IDE check, is discarded, and moves its stream to Insecure. -/
  | ideCheckFailure (fn : Nat)
  /-- R24: The host's IDE key manager sends KEY_PROG over the DOE mailbox and the Lodge takes the key material for the stream. -/
  | ideKmKeyProg (fn : Nat) (key : Nat)
  /-- R24: K_SET_GO makes the Lodge install the new keys, after which the stream leaves Insecure. -/
  | ideKmKSetGo (fn : Nat)
  /-- R25: The TDISP message moves a VF's TDI from CONFIG_UNLOCKED to CONFIG_LOCKED. -/
  | lockInterface (fn : Nat)
  /-- R25: Returns the interface report listing the VF's BARs, MSI-X table and measurements. -/
  | getDeviceInterfaceReport (fn : Nat)
  /-- R25: Moves the TDI to RUN. -/
  | startInterface (fn : Nat)
  /-- R25: Scrubs every partition of the VF, ends every world bound to it and returns the TDI to CONFIG_UNLOCKED. -/
  | stopInterface (fn : Nat)
  /-- R93: A VF's function-level reset discards its queues, events and launches and short-scrubs its partitions, or applies R25 when its TDI is locked. -/
  | functionLevelReset (fn : Nat)
  /-- R48: SPDM request for the supported versions. -/
  | getVersion (port : Nat)
  /-- R48: SPDM request for capabilities. -/
  | getCapabilities (port : Nat)
  /-- R48: SPDM negotiation settling on ECDSA P-384 with SHA-384 and AES-256-GCM. -/
  | negotiateAlgorithms (port : Nat) (offer : Bool)
  /-- R48: SPDM request for certificate-chain digests. -/
  | getDigests (port : Nat)
  /-- R48: Returns the certificate chain of slot 0, from the Nuold root to the alias certificate. -/
  | getCertificate (port slot : Nat)
  /-- R48: SPDM challenge answered with a signature by the alias key. -/
  | challenge (port nonce : Nat)
  /-- R49: Returns the measurement blocks, signed and bound to the verifier's nonce when one is supplied. -/
  | getMeasurements (port index : Nat) (nonce : Option Nat)
  /-- R34: SPDM key exchange that, on a pod port, starts a link session with mutual authentication and hybrid ML-KEM/X25519. -/
  | keyExchange (port : Nat) (peer : LinkPeer)
  /-- R48: SPDM FINISH completes session establishment. -/
  | finishSession (port : Nat)
  /-- R34: SPDM KEY_UPDATE replaces a link session's keys without losing a flit. -/
  | keyUpdate (port : Nat)
  /-- R48: Ends an SPDM session. -/
  | endSession (port : Nat)
  /-- R51: Vendor-defined request returning an ML-DSA-87 signature over the current transcript hash. -/
  | pqsig (port : Nat)
  /-- R51: Vendor-defined request returning the ML-DSA-87 certificate chain. -/
  | pqchain (port : Nat)
  /-- R51: Vendor-defined request returning a signed meter report for one partition. -/
  | getmeter (port part : Nat)
  /-- R51: Returns a signed record of a world's highest epoch closed clean, with the timebase. -/
  | getepoch (port world : Nat)
  /-- R51: Returns the revocation records of worlds ended since the last reset. -/
  | getrevoke (port : Nat)
  /-- R34: 2^32 flits or one hour on a link session expires, and a key update is made. -/
  | linkKeyUpdateDue (port : Nat)
  /-- R33: A pod flit arrives; CRC failures are retried, a failed tag closes the session, and flits for other members are forwarded or discarded. -/
  | flitReceive (port : Nat) (flit : Flit)
  /-- R35: The pod manager gives a Lodge the pod's member list and routing table. -/
  | podMemberList (members : List PodMember) (routes : List (Nat × Nat))
  /-- R38: A target answers a pod PREPARE with READY and a reservation, or with REFUSE(MISSING, NOPART, STALE or BUSY). -/
  | preparePod (origin fn : Nat) (mask gen digest parts : Nat)
  /-- R37: When READY has arrived from every target, the origin chooses t and sends START. -/
  | readyPod (target : Nat)
  /-- R37: A refusal makes the origin send ABORT, discard any local launch and complete the node with the refusal status or BUSY. -/
  | refusePod (target : Nat) (status : Nat)
  /-- R38: A target receives START, ends its reservation and schedules its local launch at t, or answers REFUSE(BUSY) if the reservation lapsed. -/
  | startPod (origin fn gen : Nat) (t : Nat) (node : List Byte) (args : List Word)
  /-- R38: A target ends its reservation and discards any started part of the pod launch. -/
  | abortPod (origin fn gen : Nat)
  /-- R37: The origin records a target's part status, and completes the pod node once all parts and the local launch are done. -/
  | donePod (target gen status cause : Nat)
  /-- R37: 100 µs passes without a reply from some target, and the origin aborts with UNREACHABLE. -/
  | podPrepareTimeout
  /-- R38: 200 µs after READY with no START or ABORT, the target's reservation ends. -/
  | podReservationLapse (fn gen : Nat)
  /-- R39: The anchor time reaches t and the module begins its local launch. -/
  | podStartTime
  /-- R37: The link session to a target ends before its DONE, and its part is recorded as UNREACHABLE. -/
  | podTargetSessionEnd (target : Nat)
  /-- R36: A remote access without a response within 1 ms completes with MCHK to its context. -/
  | remoteAccessTimeout (cell : Nat)
  /-- R29: A poisoned second-tier read ends the owning context with MCHK. -/
  | cxlPoisonRead (part ctx : Nat)
  /-- R29: A CXL port down for more than 1 ms ends the contexts that access it with MCHK. -/
  | cxlPortDown (port : Nat) (victims : List (Nat × Nat))
  /-- R87: When the queue's previous graph has completed and its completion ring has room, the Bandstand fetches the next graph, checks it and completes it MALFORMED or starts its walk. -/
  | graphFetch (fn q : Nat)
  /-- R89: A dispatched node finishes, successor counts fall or the failure is noted, ready nodes are dispatched, and the graph posts its completion record once nothing remains. -/
  | nodeComplete (fn q node : Nat)
  /-- R91: A graph with a ready, undispatched node past the escalation time rises one level. -/
  | escalationTimeout (fn q : Nat)
  /-- R102: A LAUNCH node builds a launch image for each partition in its mask and injects it, or resumes a pre-empted launch. -/
  | launch (fn q node : Nat)
  /-- R37: A LAUNCH with the pod flag makes the origin send PREPARE to every target and enter Gathering. -/
  | podLaunch (fn q node : Nat)
  /-- R104: A cell's launch records arrive, its registers take their launch values, and it executes its first instruction. -/
  | cellStart (launch cell : Nat)
  /-- R88: A COPY node moves bytes between staging, host or world memory, or completes POLICY for an OPD page. -/
  | copyNode (fn q node : Nat)
  /-- R157: A KVMAP node sends a map command record to the Espalier of the world's home partition. -/
  | kvmap (fn q node : Nat)
  /-- R153: Creates a world's KV map, reserving metadata, with every sequence free and the free list holding every page. -/
  | mapcreate (fn q node : Nat)
  /-- R168: Removes the world's map, or completes BUSY while any hold exists. -/
  | mapdestroy (fn q node : Nat)
  /-- R73: A METER node writes a signed 5,011-byte meter report for a partition. -/
  | meterNode (fn q node : Nat)
  /-- R67: Checks the world policy record, assigns a world number, generates its keys and returns its Kwelia public keys. -/
  | createWorld (fn q node : Nat)
  /-- R78: Creates a context on a partition bound to a world, reserving its save area, under the debug-consent rules. -/
  | bindContext (fn q node : Nat)
  /-- R78: Ends a context after its launches, writing back and invalidating its Commons lines and freeing its save area. -/
  | unbindContext (fn q node : Nat)
  /-- R55: Checks the bundle policy, opens the bundle key by HPKE and moves the world to Sealing. -/
  | loadSeal (fn q node : Nat)
  /-- R44: Moves the world to Ending, discarding its launches and closing its sessions. -/
  | destroyWorld (fn q node : Nat)
  /-- R62: Opens a Kwelia session, derives its keys, binds its reply ring and answers ACCEPT with the identifier and confirmation HMAC. -/
  | openSession (fn q node : Nat)
  /-- R66: Closes a session and erases its keys, releasing held certified replies as their epochs close clean. -/
  | closeSession (fn q node : Nat)
  /-- R68: Under the session lock, derives fresh keys and identifier, resetting the request counter and the reply counter. -/
  | rekey (fn q node : Nat)
  /-- R58: Makes a Sopel package resident for a world and writes its data segments, or completes SEAL or POLICY. -/
  | pkgload (fn q node : Nat)
  /-- R90: Adds to or sets a queue event as a release at DEV. -/
  | signalNode (fn q node : Nat)
  /-- R90: A WAIT node completes OK once its event reaches the threshold. -/
  | waitNode (fn q node : Nat)
  /-- R90: A WAIT node's timeout elapses and it completes TIMEOUT. -/
  | waitTimeout (fn q node : Nat)
  /-- R76: Creates a partition for a VF with a new generation, zeroed meters and assigned ways, then scrubs it. -/
  | createPartition (fn q node : Nat)
  /-- R76: Discards every launch of the partition, posts the final meter report, ends its contexts and short-scrubs it. -/
  | destroyPartition (fn q node : Nat)
  /-- R91: SET_POLICY item 0 sets the escalation time. -/
  | setEscalationTime (fn q node : Nat)
  /-- R79: SET_POLICY item 1 sets the scheduling quantum. -/
  | setQuantum (fn q node : Nat)
  /-- R94: SET_POLICY item 2 sets the firmware quiesce deadline. -/
  | setQuiesceDeadline (fn q node : Nat)
  /-- R171: SET_POLICY item 3 writes the scope policy word, or completes MALFORMED. -/
  | setScopePolicy (fn q node : Nat)
  /-- R94: Passes a firmware image to the Lodge for verification against the Nuold root key. -/
  | fwStage (fn q node : Nat)
  /-- R94: Stops fetching and posts a pause event to every enabled VF. -/
  | fwActivate (fn q node : Nat)
  /-- R94: When every VF has acknowledged or the quiesce deadline expires, running copies finish, launches are saved and activation starts. -/
  | quiesce
  /-- R94: The new firmware starts or fails; measurements update or the old firmware returns, and resume events follow. -/
  | fwActivationResult (ok : Bool)
  /-- R132: Checks and writes a leaf, zeroing a page new to the world under its key. -/
  | mapPage (fn : Nat)
  /-- R132: Clears a leaf after shootdown, folds the page into HR, zeroes it and frees it. -/
  | unmapPage (fn : Nat)
  /-- R132: Changes a leaf's W after shootdown. -/
  | protect (fn : Nat)
  /-- R151: Seals a 16 KiB NORM page to host memory under a new eviction version and frees it. -/
  | evict (fn : Nat)
  /-- R152: Verifies a sealed page and writes it back at pa, resuming held accesses, or ends the world with VERSION. -/
  | returnPage (fn : Nat)
  /-- R132: Makes each word of an FE range empty with value 0. -/
  | clearfe (fn : Nat)
  /-- R132: Requests pairing of a world with a remote world, which takes effect once both modules' PF 0 have requested it. -/
  | pair (fn : Nat)
  /-- R131: Answers a posted fault so that each held access takes PERM. -/
  | nomap (fn : Nat)
  /-- R23: Grows or shrinks a function's staging memory all-or-nothing, after checks in order. -/
  | stageMem (fn : Nat)
  /-- R15: Sets the module power limit between 1,200 W and 2,800 W. -/
  | powerLimit (fn : Nat)
  /-- R279: Returns a partition's Belvedere counter slot, or BUSY while the partition is owned. -/
  | bvread (fn : Nat)
  /-- R284: Gives a partition's Belvedere a trace ring, head register, sample enables and probe elements. -/
  | tracecfg (fn : Nat)
  /-- R286: Attaches a debugger to a context, or completes POLICY without consent or BUSY if another debugger holds it. -/
  | attach (fn : Nat)
  /-- R289: Clears the breakpoints and resumes the partition if it is stopped. -/
  | detach (fn : Nat)
  /-- R287: Sets a breakpoint on a link with an ordinal n. -/
  | setbp (fn : Nat)
  /-- R98: Clears a breakpoint. -/
  | clrbp (fn : Nat)
  /-- R288: Stops the partition's fabric with a cut marker and returns the stop number. -/
  | debugStop (fn : Nat)
  /-- R289: Discards the cut markers and resumes every unit at its cut. -/
  | debugResume (fn : Nat)
  /-- R289: Reads registers, slots, tiles, scratch or memory of a stopped partition, refused for OPD or marked state. -/
  | debugRead (fn : Nat)
  /-- R289: Writes the same spaces as READ while the partition is stopped. -/
  | debugWrite (fn : Nat)
  /-- R272: Returns the world-end records of the VF's worlds ended since the last WORLDEND. -/
  | worldend (fn : Nat)
  /-- R99: When the fault ring has room, the gardener core writes a fault record, advances FQTAIL and signals vector 8. -/
  | faultRecordPost (k : Nat)
  /-- R79: A running launch's quantum ends and it is pre-empted if another context's launch is ready at the same level. -/
  | quantumExpiry (part : Nat)
  /-- R116: The Bandstand requests pre-emption, and within 256 cycles every cell halts, tokens drop, tiles are restored and streams record progress. -/
  | preemptRequest (part reason : Nat)
  /-- R119: A cell finishes writing its encrypted save image. -/
  | cellSaveComplete (cell : Nat)
  /-- R92: A launch's budget expires and it is halted, discarded, scrubbed and reset, with a WATCHDOG record posted. -/
  | watchdogExpiry (launch : Nat)
  /-- R76: A partition's scrub finishes and it becomes Ready or Unowned, recording the completion time. -/
  | partitionScrubComplete (part : Nat)
  /-- R44: 10 s without a chunk while Sealing erases the bundle key, zeroes the written regions and completes with TIMEOUT. -/
  | sealingTimeout (world : Nat)
  /-- R44: Every partition of an Ending world is scrubbed, so its keys are erased, its world-end record posted and any revocation published. -/
  | worldScrubComplete (world : Nat)
  /-- R69: A world's epoch period elapses, the next epoch begins with its period in force, and the sweep of the ended epoch starts. -/
  | epochEnd (world : Nat)
  /-- R148: A slice's sweep of an epoch finishes, the epoch closes clean or raises INTEG, and the world ends. -/
  | sweepComplete (world slice : Nat)
  /-- R70: A held certified reply whose epochs have closed clean is written to the ring once a slot is free. -/
  | certifiedReplyRelease (world session : Nat)
  /-- R74: The bundle policy's meter interval elapses and a signed report is produced. -/
  | meterIntervalExpiry (world : Nat)
  /-- R275: An uncorrectable error in a cell store, link slot, Arbour group, HBM line, Commons tag or control state ends the owning contexts with MCHK. -/
  | uncorrectableError (site : ErrSite)
  /-- R276: An uncorrectable error in a dirty Commons line ends the owner context, retires the 64 KiB group and quarantines the way. -/
  | dirtyLineError (pa : Nat)
  /-- R150: An uncorrectable error in a clean line refills it from HBM under the stamp and fill check, counting it in counter 9. -/
  | cleanLineError (pa : Nat)
  /-- R214: A link slot or beat fails parity in the cycle it is read and raises MCHK for the running context. -/
  | tokenParityError (cell site dir : Nat)
  /-- R257: A mod-7 residue mismatch in an Arbour row group raises MCHK. -/
  | arbourResidueError (cell : Nat)
  /-- R97: A write of 1 to MBDOOR submits the mailbox request at MBADDR, setting BUSY; it is ignored while one is outstanding, and completes MALFORMED for a bad code, a short body or a buffer outside staging memory. -/
  | mbdoorWrite (fn : Nat) (v : Word)
  /-- R21: The physical function enables its 16 virtual functions through SR-IOV NumVFs, zeroing each VF's 1,024 queue events and setting up its IDE stream. -/
  | vfEnable
  /-- R341: The oldest entry of the sequencer's 16-entry write buffer performs its store to memory, freeing a slot and releasing loads, fences or engine commands that wait on it. -/
  | writeBufferPerform (cell : Nat)
  /-- R275: A Bandstand or gardener core that suffered a control-state error finishes reloading from its verified image, and the graphs that waited resume. -/
  | unitReloadComplete (unit : Nat)
  /-- R33: A pod port that retrained after sixteen consecutive CRC failures of one flit finishes training and carries traffic again. -/
  | portRetrainComplete (port : Nat)
  deriving DecidableEq, Repr

end Sys2Proof
end

