-- ==== Sys2Proof/WellFormed.lean ====
section
/-! DEFINITION. Which instructions an encoding stands for: the combinations that decoding refuses (R303, R312, R236). -/

namespace Sys2Proof

/-- The control-register numbers that R236 assigns. -/
def assignedCtl : List Nat :=
  [0x000, 0x001, 0x002, 0x003, 0x004, 0x005, 0x006, 0x007, 0x008, 0x009,
   0x010, 0x011, 0x012, 0x013, 0x014, 0x020, 0x021, 0x022, 0x030, 0x031]

/-- R236: a control-register number names a register. -/
def ctlAssigned (n : BitVec 9) : Bool := assignedCtl.contains n.toNat

/-- R312, R349: kinds 0, 1, 6 and 7 have WIDTH 0, and RND is 0 for the exact kinds 0 and 7. -/
def fcvtOk (k : Cvk) (r : Rnd) (w : Bool) : Bool :=
  match k with
  | .wide | .frombf => !w && r == .rne
  | .narrow | .tobf => !w
  | .toi | .ton | .fromi | .fromn => true

/-- An instruction that some word or record encodes: the layout of `ADD s0, s0, s0` is the word 0, which traps
(R303 check 1); control numbers are assigned (R236); `FCVT` fields agree (R312). Events have no encoding and an
illegal word is no instruction. -/
def Instr.wellFormed : Instr → Bool
  | .add d a b => !(d == 0 && a == 0 && b == 0)
  | .fcvt _ _ k r w => fcvtOk k r w
  | .ctlrd _ n => ctlAssigned n
  | .ctlwr _ n => ctlAssigned n
  | .ctlset _ n => ctlAssigned n
  | .ctlclr _ n => ctlAssigned n
  | _ => true

end Sys2Proof
end

