-- ==== Sys2Proof/Decode.lean ====
section
/-! DEFINITION. The decoder and the encoder of sequencer words (R302–R316) and element records (R317–R322), written
from the same tables of spec/15_encodings.md. Decoding is total: a refused word is refused by the check of R303 that
it fails. -/

namespace Sys2Proof

/-- The checks of R303 that a word can fail, in their order. -/
inductive DecodeError where
  /-- Check 1: the word is 0x0000_0000. -/
  | zeroWord
  /-- Check 2: the major is reserved (R304). -/
  | reservedMajor
  /-- Check 3: the function or sub value is reserved in its group. -/
  | reservedFunction
  /-- Check 4: a bit that the group's table marks zero is not, or a resource field names no resource (R358). -/
  | nonZeroField
  /-- Check 5: a register field that the entry does not use is not zero. -/
  | unusedRegister
  /-- Check 6: a DUAL prefix with a non-zero bit in [25:0] (R316). -/
  | badPrefix
  deriving DecidableEq, Repr

/-! ### Field codes -/

def Scope.ofBits (b : BitVec 2) : Scope := if b = 0 then .cell else if b = 1 then .part else if b = 2 then .dev else .pod
def Scope.toBits : Scope → BitVec 2
  | .cell => 0 | .part => 1 | .dev => 2 | .pod => 3
def Order.ofBits (b : BitVec 2) : Order :=
  if b = 0 then .relaxed else if b = 1 then .acquire else if b = 2 then .release else .acqRel
def Order.toBits : Order → BitVec 2
  | .relaxed => 0 | .acquire => 1 | .release => 2 | .acqRel => 3
def Rnd.ofBits (b : BitVec 2) : Rnd := if b = 0 then .rne else if b = 1 then .rtz else if b = 2 then .rup else .rdn
def Rnd.toBits : Rnd → BitVec 2
  | .rne => 0 | .rtz => 1 | .rup => 2 | .rdn => 3
/-- FKIND (R309); code 3 is reserved and refused before this is read. -/
def FenceKind.ofBits (b : BitVec 2) : FenceKind := if b = 0 then .acquire else if b = 1 then .release else .full
def FenceKind.toBits : FenceKind → BitVec 2
  | .acquire => 0 | .release => 1 | .full => 2
def Cond.ofBits (b : BitVec 3) : Cond :=
  if b = 0 then .eq else if b = 1 then .ne else if b = 2 then .lt else if b = 3 then .le
  else if b = 4 then .gt else if b = 5 then .ge else if b = 6 then .un else .ord
def Cond.toBits : Cond → BitVec 3
  | .eq => 0 | .ne => 1 | .lt => 2 | .le => 3 | .gt => 4 | .ge => 5 | .un => 6 | .ord => 7
def Cvk.ofBits (b : BitVec 3) : Cvk :=
  if b = 0 then .wide else if b = 1 then .narrow else if b = 2 then .toi else if b = 3 then .ton
  else if b = 4 then .fromi else if b = 5 then .fromn else if b = 6 then .tobf else .frombf
def Cvk.toBits : Cvk → BitVec 3
  | .wide => 0 | .narrow => 1 | .toi => 2 | .ton => 3 | .fromi => 4 | .fromn => 5 | .tobf => 6 | .frombf => 7
def Src.ofBits (b : BitVec 3) : Src :=
  if b = 0 then .n else if b = 1 then .e else if b = 2 then .s else if b = 3 then .w
  else if b = 4 then .c0 else if b = 5 then .c1 else if b = 6 then .imm else .carry
def Src.toBits : Src → BitVec 3
  | .n => 0 | .e => 1 | .s => 2 | .w => 3 | .c0 => 4 | .c1 => 5 | .imm => 6 | .carry => 7
def ElTy.ofBits (b : BitVec 3) : ElTy :=
  if b = 0 then .i32 else if b = 1 then .n32 else if b = 2 then .f32 else if b = 3 then .bf16x2
  else if b = 4 then .i16x2 else if b = 5 then .i8x4 else if b = 6 then .n8x4 else .b8x4
def ElTy.toBits : ElTy → BitVec 3
  | .i32 => 0 | .n32 => 1 | .f32 => 2 | .bf16x2 => 3 | .i16x2 => 4 | .i8x4 => 5 | .n8x4 => 6 | .b8x4 => 7
/-- A one-bit field as a Bool. -/
def boolOf (b : BitVec 1) : Bool := b == 1
/-- A Bool as a one-bit field. -/
def bitOf (b : Bool) : BitVec 1 := BitVec.ofBool b

/-! ### Fields of a word (R302, R358) -/

def fMajor (w : W32) : BitVec 6 := w.extractLsb' 26 6
/-- Bits [25:21]: d of form A and I, a of form B, x of form E. -/
def fX (w : W32) : Reg := w.extractLsb' 21 5
/-- Bits [20:16]: a of form A and I, b of form B, y of form E. -/
def fY (w : W32) : Reg := w.extractLsb' 16 5
/-- Bits [15:11]: b of form A, z of form E. -/
def fZ (w : W32) : Reg := w.extractLsb' 11 5
/-- Bits [10:6]: w of form E. -/
def fW (w : W32) : Reg := w.extractLsb' 6 5
/-- Bits [5:0]: sub of form E. -/
def fSub (w : W32) : BitVec 6 := w.extractLsb' 0 6
def fImm (w : W32) : BitVec 16 := w.extractLsb' 0 16
def fOff26 (w : W32) : BitVec 26 := w.extractLsb' 0 26

/-- Refuse with `e` unless `c` holds. -/
def need (c : Bool) (e : DecodeError) (k : Except DecodeError Instr) : Except DecodeError Instr :=
  if c then k else .error e

/-! ### The groups -/

/-- OPR (R308): op in bits [5:0], bits [10:6] zero, b zero for `CLZ`, `CTZ`, `POPC`. -/
def decodeOpr (w : W32) : Except DecodeError Instr :=
  let z := need (fW w == 0) .nonZeroField
  let un := fun k => z (need (fZ w == 0) .unusedRegister k)
  match (fSub w).toNat with
  | 0 => z (.ok (.add (fX w) (fY w) (fZ w)))
  | 1 => z (.ok (.sub (fX w) (fY w) (fZ w)))
  | 2 => z (.ok (.mul (fX w) (fY w) (fZ w)))
  | 3 => z (.ok (.mulh (fX w) (fY w) (fZ w)))
  | 4 => z (.ok (.mulhn (fX w) (fY w) (fZ w)))
  | 5 => z (.ok (.div (fX w) (fY w) (fZ w)))
  | 6 => z (.ok (.divn (fX w) (fY w) (fZ w)))
  | 7 => z (.ok (.rem (fX w) (fY w) (fZ w)))
  | 8 => z (.ok (.remn (fX w) (fY w) (fZ w)))
  | 9 => z (.ok (.and (fX w) (fY w) (fZ w)))
  | 10 => z (.ok (.or (fX w) (fY w) (fZ w)))
  | 11 => z (.ok (.xor (fX w) (fY w) (fZ w)))
  | 12 => z (.ok (.andn (fX w) (fY w) (fZ w)))
  | 13 => z (.ok (.shl (fX w) (fY w) (fZ w)))
  | 14 => z (.ok (.shr (fX w) (fY w) (fZ w)))
  | 15 => z (.ok (.sha (fX w) (fY w) (fZ w)))
  | 16 => z (.ok (.rot (fX w) (fY w) (fZ w)))
  | 17 => z (.ok (.min (fX w) (fY w) (fZ w)))
  | 18 => z (.ok (.max (fX w) (fY w) (fZ w)))
  | 19 => z (.ok (.minn (fX w) (fY w) (fZ w)))
  | 20 => z (.ok (.maxn (fX w) (fY w) (fZ w)))
  | 21 => z (.ok (.slt (fX w) (fY w) (fZ w)))
  | 22 => z (.ok (.sltn (fX w) (fY w) (fZ w)))
  | 23 => z (.ok (.seq (fX w) (fY w) (fZ w)))
  | 24 => un (.ok (.clz (fX w) (fY w)))
  | 25 => un (.ok (.ctz (fX w) (fY w)))
  | 26 => un (.ok (.popc (fX w) (fY w)))
  | 27 => z (.ok (.sel (fX w) (fY w) (fZ w)))
  | _ => .error .reservedFunction

/-- SHI (R305): kind in [15:14], [13:6] zero, amount in [5:0]. -/
def decodeShi (w : W32) : Except DecodeError Instr :=
  need (w.extractLsb' 6 8 == 0) .nonZeroField <|
    match (w.extractLsb' 14 2).toNat with
    | 0 => .ok (.shlImmediate (fX w) (fY w) (fSub w))
    | 1 => .ok (.shrImmediate (fX w) (fY w) (fSub w))
    | 2 => .ok (.shaImmediate (fX w) (fY w) (fSub w))
    | _ => .ok (.rotImmediate (fX w) (fY w) (fSub w))

/-- ORD (R309). -/
def decodeOrd (w : W32) : Except DecodeError Instr :=
  let sc := Scope.ofBits (w.extractLsb' 4 2)
  let szOk := boolOf (w.extractLsb' 3 1)
  let dbl := boolOf (w.extractLsb' 2 1)
  let top := w.extractLsb' 8 3 == 0
  let fk := w.extractLsb' 6 2
  match (w.extractLsb' 0 2).toNat with
  | 0 => need szOk .reservedFunction <| need (top && fk == 0) .nonZeroField <| need (fZ w == 0) .unusedRegister <|
      .ok (.ldaq (fX w) (fY w) sc dbl)
  | 1 => need szOk .reservedFunction <| need (top && fk == 0) .nonZeroField <| need (fX w == 0) .unusedRegister <|
      .ok (.strl (fY w) (fZ w) sc dbl)
  | 2 => need (fk != 3) .reservedFunction <| need (top && w.extractLsb' 2 2 == 0) .nonZeroField <|
      need (fX w == 0 && fY w == 0 && fZ w == 0) .unusedRegister <| .ok (.fence (FenceKind.ofBits fk) sc)
  | _ => .error .reservedFunction

/-- ATOM (R310). -/
def decodeAtom (w : W32) : Except DecodeError Instr :=
  let sc := Scope.ofBits (w.extractLsb' 7 2)
  let od := Order.ofBits (w.extractLsb' 5 2)
  let dbl := boolOf (w.extractLsb' 4 1)
  let z := need (w.extractLsb' 9 2 == 0) .nonZeroField
  match (w.extractLsb' 0 4).toNat with
  | 0 => z (.ok (.aadd (fX w) (fY w) (fZ w) sc od dbl))
  | 1 => z (.ok (.amin (fX w) (fY w) (fZ w) sc od dbl))
  | 2 => z (.ok (.amax (fX w) (fY w) (fZ w) sc od dbl))
  | 3 => z (.ok (.aminn (fX w) (fY w) (fZ w) sc od dbl))
  | 4 => z (.ok (.amaxn (fX w) (fY w) (fZ w) sc od dbl))
  | 5 => z (.ok (.aand (fX w) (fY w) (fZ w) sc od dbl))
  | 6 => z (.ok (.aor (fX w) (fY w) (fZ w) sc od dbl))
  | 7 => z (.ok (.axor (fX w) (fY w) (fZ w) sc od dbl))
  | 8 => z (.ok (.axchg (fX w) (fY w) (fZ w) sc od dbl))
  | 9 => z (.ok (.acas (fX w) (fY w) (fZ w) sc od dbl))
  | 10 => need (!dbl) .reservedFunction (z (.ok (.afadd (fX w) (fY w) (fZ w) sc od)))
  | _ => .error .reservedFunction

/-- FEM (R311). -/
def decodeFem (w : W32) : Except DecodeError Instr :=
  let sc := Scope.ofBits (w.extractLsb' 2 2)
  let z := need (w.extractLsb' 4 7 == 0) .nonZeroField
  match (w.extractLsb' 0 2).toNat with
  | 0 => z <| need (fZ w == 0) .unusedRegister <| .ok (.ldfe (fX w) (fY w) sc)
  | 1 => z <| need (fX w == 0) .unusedRegister <| .ok (.stfe (fY w) (fZ w) sc)
  | 2 => z <| need (fZ w == 0) .unusedRegister <| .ok (.fepeek (fX w) (fY w) sc)
  | _ => .error .reservedFunction

/-- FPO (R312, R348, R349). -/
def decodeFpo (w : W32) : Except DecodeError Instr :=
  let cc := w.extractLsb' 7 3
  let rb := w.extractLsb' 5 2
  let r := Rnd.ofBits rb
  let wd := boolOf (w.extractLsb' 4 1)
  let top := w.extractLsb' 10 1 == 0
  let d := fX w
  let a := fY w
  let b := fZ w
  match (w.extractLsb' 0 4).toNat with
  | 0 => need (top && cc == 0) .nonZeroField (.ok (.fadd d a b r wd))
  | 1 => need (top && cc == 0) .nonZeroField (.ok (.fsub d a b r wd))
  | 2 => need (top && cc == 0) .nonZeroField (.ok (.fmul d a b r wd))
  | 3 => need (top && cc == 0) .nonZeroField (.ok (.ffma d a b r wd))
  | 4 => need (top && cc == 0 && rb == 0) .nonZeroField (.ok (.fmin d a b wd))
  | 5 => need (top && cc == 0 && rb == 0) .nonZeroField (.ok (.fmax d a b wd))
  | 6 => need (top && rb == 0) .nonZeroField (.ok (.fcmp d a b (Cond.ofBits cc) wd))
  | 7 => need top .nonZeroField <| need (fcvtOk (Cvk.ofBits cc) r wd) .nonZeroField <|
      need (b == 0) .unusedRegister (.ok (.fcvt d a (Cvk.ofBits cc) r wd))
  | 8 => need (top && cc == 0) .nonZeroField <| need (b == 0) .unusedRegister (.ok (.fsqrt d a r wd))
  | 9 => need (top && cc == 0) .nonZeroField <| need (b == 0) .unusedRegister (.ok (.frcp d a r wd))
  | _ => .error .reservedFunction

/-- CTL (R313, R236): an unassigned number is refused. -/
def decodeCtl (w : W32) : Except DecodeError Instr :=
  let n := w.extractLsb' 2 9
  let k (i : Instr) (z : Reg) :=
    need (ctlAssigned n) .reservedFunction <| need (z == 0 && fZ w == 0) .unusedRegister (.ok i)
  match (w.extractLsb' 0 2).toNat with
  | 0 => k (.ctlrd (fX w) n) (fY w)
  | 1 => k (.ctlwr (fY w) n) (fX w)
  | 2 => k (.ctlset (fY w) n) (fX w)
  | _ => k (.ctlclr (fY w) n) (fX w)

/-- SYS (R314, R352). -/
def decodeSys (w : W32) : Except DecodeError Instr :=
  let code := w.extractLsb' 4 7
  let none0 (i : Instr) := need (code == 0) .nonZeroField <|
    need (fX w == 0 && fY w == 0 && fZ w == 0) .unusedRegister (.ok i)
  match (w.extractLsb' 0 4).toNat with
  | 0 => none0 .snop
  | 1 => need (fX w == 0 && fY w == 0 && fZ w == 0) .unusedRegister (.ok (.trap code))
  | 2 => need (code == 0) .nonZeroField <| need (fX w == 0 && fZ w == 0) .unusedRegister (.ok (.waitev (fY w)))
  | 3 => none0 .yield
  | 4 => none0 .kret
  | 5 => none0 .brk
  | 6 => none0 .halt
  | _ => .error .reservedFunction

/-! ### Form E (R315, R358) -/

/-- The gate operand of a deferrable operation: immediate with w zero, or deferred by register w (R315). -/
def withGate (w : W32) (k : Option Reg → Instr) : Except DecodeError Instr :=
  if boolOf (w.extractLsb' 5 1) then .ok (k (some (fW w)))
  else need (fW w == 0) .unusedRegister (.ok (k none))

/-- An operation that cannot be deferred: bit 5 clear (R315), w unused. -/
def notDeferred (w : W32) (i : Instr) : Except DecodeError Instr :=
  need (!boolOf (w.extractLsb' 5 1)) .reservedFunction <| need (fW w == 0) .unusedRegister (.ok i)

def op5 (w : W32) : BitVec 5 := w.extractLsb' 0 5
/-- A tile in a five-bit field (R358). -/
def isTile (r : Reg) : Bool := r.extractLsb' 3 2 == 0
def tileOf (r : Reg) : BitVec 3 := r.extractLsb' 0 3
/-- A stream identifier or gate term in a five-bit field. -/
def isSixteen (r : Reg) : Bool := r.extractLsb' 4 1 == 0
def sixteenOf (r : Reg) : BitVec 4 := r.extractLsb' 0 4
/-- A FIFO code in a five-bit field. -/
def isFifo (r : Reg) : Bool := r.extractLsb' 2 3 == 0
def fifoOf (r : Reg) : BitVec 2 := r.extractLsb' 0 2

def decodeStrm (w : W32) : Except DecodeError Instr :=
  let x := fX w
  let y := fY w
  let z := fZ w
  match (op5 w).toNat with
  | 0 => withGate w (.scopy x y z)
  | 1 => withGate w (.sfeed x y z)
  | 2 => withGate w (.sdrain x y z)
  | 3 => withGate w (.sgath x y z)
  | 4 => withGate w (.sscat x y z)
  | 5 => need (isSixteen x) .nonZeroField <| need (y == 0 && z == 0) .unusedRegister <|
      notDeferred w (.swait (sixteenOf x))
  | 6 => need (isSixteen x) .nonZeroField <| need (y == 0 && z == 0) .unusedRegister <|
      notDeferred w (.scancel (sixteenOf x))
  | 7 => withGate w (.sunseal x y z)
  | 8 => withGate w (.stfill x y z)
  | _ => .error .reservedFunction

def decodeMxop (w : W32) : Except DecodeError Instr :=
  let x := fX w
  let y := fY w
  let z := fZ w
  match (op5 w).toNat with
  | 0 => need (isTile x && y.extractLsb' 2 3 == 0) .nonZeroField <|
      withGate w (.mma (tileOf x) (boolOf (y.extractLsb' 1 1)) (boolOf (y.extractLsb' 0 1)) z)
  | 1 => need (isTile x && y.extractLsb' 2 3 == 0) .nonZeroField <|
      withGate w (.mmag (tileOf x) (boolOf (y.extractLsb' 1 1)) (boolOf (y.extractLsb' 0 1)) z)
  | 2 => need (isTile x) .nonZeroField <| need (y == 0 && z == 0) .unusedRegister <| withGate w (.aclr (tileOf x))
  | 3 => need (isTile x) .nonZeroField <| need (z == 0) .unusedRegister <| withGate w (.ascale (tileOf x) y)
  | 4 => need (isTile x) .nonZeroField <| need (z == 0) .unusedRegister <| withGate w (.atob (tileOf x) y)
  | 5 => need (isTile x && isTile y) .nonZeroField <| need (z == 0) .unusedRegister <|
      withGate w (.acpy (tileOf x) (tileOf y))
  | 6 => need (x == 0 && y == 0 && z == 0) .unusedRegister <| notDeferred w .mwait
  | 7 => need (isFifo x) .nonZeroField <| need (z == 0) .unusedRegister <| withGate w (.bdrop (fifoOf x) y)
  | _ => .error .reservedFunction

def decodeBar (w : W32) : Except DecodeError Instr :=
  let x := fX w
  let y := fY w
  let z := fZ w
  match (op5 w).toNat with
  | 0 => notDeferred w (.binit x y z)
  | 1 => need (y == 0 && z == 0) .unusedRegister <| withGate w (.barrive x)
  | 2 => need (z == 0) .unusedRegister <| withGate w (.bexpect x y)
  | 3 => need (y == 0 && z == 0) .unusedRegister <| notDeferred w (.bwaitb x)
  | 4 => need (z == 0) .unusedRegister <| notDeferred w (.btest x y)
  | _ => .error .reservedFunction

/-- EVX (R375, R376): `EVSET` keeps its kind in the w field; kind 3 and targets out of range are refused. -/
def decodeEvx (w : W32) : Except DecodeError Instr :=
  let x := fX w
  let y := fY w
  let z := fZ w
  match (op5 w).toNat with
  | 0 => need (!boolOf (w.extractLsb' 5 1)) .reservedFunction <|
      match (fW w).toNat with
      | 0 => need (isSixteen x) .nonZeroField <| .ok (.evsetTerm (sixteenOf x) y z)
      | 1 => need (isSixteen x) .nonZeroField <| need (z == 0) .unusedRegister <| .ok (.evsetCounter (sixteenOf x) y)
      | 2 => need (x == 23) .nonZeroField <| need (z == 0) .unusedRegister <| .ok (.evsetTimer y)
      | _ => .error .nonZeroField
  | 1 => need (y == 0 && z == 0) .unusedRegister <| notDeferred w (.evclr x)
  | 2 => need (x.extractLsb' 3 2 == 3) .nonZeroField <| need (y == 0 && z == 0) .unusedRegister <|
      withGate w (.evfire (x.extractLsb' 0 3))
  | 3 => need (y == 0 && z == 0) .unusedRegister <| notDeferred w (.evread x)
  | _ => .error .reservedFunction

def decodePhase (w : W32) : Except DecodeError Instr :=
  let x := fX w
  let y := fY w
  let z := fZ w
  match (op5 w).toNat with
  | 0 => withGate w (.brun x y z)
  | 1 => need (y == 0 && z == 0) .unusedRegister <| notDeferred w (.bwait x)
  | 2 => need (z == 0) .unusedRegister <| notDeferred w (.bcfg x y)
  | 3 => need (z == 0) .unusedRegister <| notDeferred w (.bstat x y)
  | 4 => need (x == 0 && y == 0 && z == 0) .unusedRegister <| notDeferred w .bkill
  | _ => .error .reservedFunction

def decodeKvm (w : W32) : Except DecodeError Instr :=
  let x := fX w
  let k (f : Reg → Option Reg → Instr) :=
    need (fY w == 0 && fZ w == 0) .unusedRegister <| withGate w (f x)
  match (op5 w).toNat with
  | 0 => k .kvalloc
  | 1 => k .kvapp
  | 2 => k .kvfork
  | 3 => k .kvrel
  | 4 => k .kvlook
  | 5 => k .kvdraft
  | 6 => k .kvswap
  | 7 => k .kvpfx
  | 8 => k .kvdrop
  | _ => .error .reservedFunction

def decodeSess (w : W32) : Except DecodeError Instr :=
  let x := fX w
  let y := fY w
  let z := fZ w
  match (op5 w).toNat with
  | 0 => withGate w (.sopen x y z)
  | 1 => withGate w (.sseal x y z)
  | 2 => need (x == 0 && y == 0 && z == 0) .unusedRegister <| notDeferred w .smeter
  | 3 => need (y == 0 && z == 0) .unusedRegister <| notDeferred w (.sepoch x)
  | _ => .error .reservedFunction

def decodeColl (w : W32) : Except DecodeError Instr :=
  let x := fX w
  let k (f : Reg → Option Reg → Instr) :=
    need (fY w == 0 && fZ w == 0) .unusedRegister <| withGate w (f x)
  match (op5 w).toNat with
  | 0 => k .car
  | 1 => k .cbc
  | 2 => k .cag
  | 3 => need (fY w == 0 && fZ w == 0) .unusedRegister <| notDeferred w (.cwait x)
  | _ => .error .reservedFunction

def decodeBank (w : W32) : Except DecodeError Instr :=
  match (op5 w).toNat with
  | 0 => withGate w (.bkop (fX w) (fY w) (fZ w))
  | 1 => withGate w (.bkred (fX w) (fY w) (fZ w))
  | _ => .error .reservedFunction

def decodeWset (w : W32) : Except DecodeError Instr :=
  let x := fX w
  let y := fY w
  let z := fZ w
  match (op5 w).toNat with
  | 0 => need (z == 0) .unusedRegister <| notDeferred w (.wpin x y)
  | 1 => need (y == 0 && z == 0) .unusedRegister <| notDeferred w (.wunpin x)
  | 2 => need (z == 0) .unusedRegister <| notDeferred w (.wgen x y)
  | _ => .error .reservedFunction

/-- The decoder of one sequencer word (R303 checks 1 to 5, and check 6 as far as the prefix word alone shows it). -/
def decode (w : W32) : Except DecodeError Instr :=
  if w = 0 then .error .zeroWord else
  match (fMajor w).toNat with
  | 0x00 => decodeOpr w
  | 0x1 => .ok (.addi (fX w) (fY w) (fImm w))
  | 0x2 => .ok (.andi (fX w) (fY w) (fImm w))
  | 0x3 => .ok (.ori (fX w) (fY w) (fImm w))
  | 0x4 => .ok (.xori (fX w) (fY w) (fImm w))
  | 0x05 => decodeShi w
  | 0x06 => .ok (.slti (fX w) (fY w) (fImm w))
  | 0x07 => .ok (.sltni (fX w) (fY w) (fImm w))
  | 0x08 => need (w.extractLsb' 18 3 == 0) .nonZeroField (.ok (.lui (fX w) (w.extractLsb' 16 2) (fImm w)))
  | 0x09 => need (w.extractLsb' 18 3 == 0) .nonZeroField (.ok (.movk (fX w) (w.extractLsb' 16 2) (fImm w)))
  | 0x10 => .ok (.beq (fX w) (fY w) (fImm w))
  | 0x11 => .ok (.bne (fX w) (fY w) (fImm w))
  | 0x12 => .ok (.blt (fX w) (fY w) (fImm w))
  | 0x13 => .ok (.bge (fX w) (fY w) (fImm w))
  | 0x14 => .ok (.bltn (fX w) (fY w) (fImm w))
  | 0x15 => .ok (.bgen (fX w) (fY w) (fImm w))
  | 0x16 => need (fY w == 0) .unusedRegister (.ok (.dbnz (fX w) (fImm w)))
  | 0x17 => .ok (.jmp (fOff26 w))
  | 0x18 => .ok (.call (fOff26 w))
  | 0x19 => need (w.extractLsb' 1 10 == 0) .nonZeroField <| need (fX w == 0 && fZ w == 0) .unusedRegister <|
      .ok (if boolOf (w.extractLsb' 0 1) then .jrLink (fY w) else .jr (fY w))
  | 0x20 => .ok (.ldb (fX w) (fY w) (fImm w))
  | 0x21 => .ok (.ldh (fX w) (fY w) (fImm w))
  | 0x22 => .ok (.ldw (fX w) (fY w) (fImm w))
  | 0x23 => .ok (.ldd (fX w) (fY w) (fImm w))
  | 0x24 => .ok (.ldbn (fX w) (fY w) (fImm w))
  | 0x25 => .ok (.ldhn (fX w) (fY w) (fImm w))
  | 0x26 => .ok (.ldwn (fX w) (fY w) (fImm w))
  | 0x27 => .ok (.lds (fX w) (fY w) (fImm w))
  | 0x28 => .ok (.stb (fX w) (fY w) (fImm w))
  | 0x29 => .ok (.sth (fX w) (fY w) (fImm w))
  | 0x2a => .ok (.stw (fX w) (fY w) (fImm w))
  | 0x2b => .ok (.std (fX w) (fY w) (fImm w))
  | 0x2c => .ok (.sts (fX w) (fY w) (fImm w))
  | 0x2d => decodeOrd w
  | 0x2e => decodeAtom w
  | 0x2f => decodeFem w
  | 0x30 => decodeFpo w
  | 0x31 => decodeCtl w
  | 0x32 => decodeSys w
  | 0x33 => decodeStrm w
  | 0x34 => decodeMxop w
  | 0x35 => decodeBar w
  | 0x36 => decodeEvx w
  | 0x37 => decodePhase w
  | 0x38 => decodeKvm w
  | 0x39 => decodeSess w
  | 0x3a => decodeColl w
  | 0x3b => decodeBank w
  | 0x3c => decodeWset w
  | 0x3f => need (fOff26 w == 0) .badPrefix (.ok .dual)
  | _ => .error .reservedMajor

/-- The instructions with a dual form (R316). -/
def Instr.hasDual : Instr → Bool
  | .fadd .. | .fsub .. | .fmul .. | .ffma .. | .fmin .. | .fmax .. | .fcmp .. | .fcvt .. | .fsqrt .. | .frcp .. => true
  | .sel .. | .ldw .. | .ldd .. | .stw .. | .std .. => true
  | .scopy .. | .sfeed .. | .sgath .. | .sdrain .. | .sscat .. => true
  | .mma .. | .mmag .. | .aclr .. | .ascale .. | .atob .. | .acpy .. => true
  | _ => false

/-- A dual instruction by its second word (R316): the groups of the table, with the operands that the pair takes. -/
inductive DualForm where
  | fadd (d a b : Reg) (r : Rnd) (w : Bool)
  | fsub (d a b : Reg) (r : Rnd) (w : Bool)
  | fmul (d a b : Reg) (r : Rnd) (w : Bool)
  | ffma (d a b : Reg) (r : Rnd) (w : Bool)
  | fmin (d a b : Reg) (w : Bool)
  | fmax (d a b : Reg) (w : Bool)
  | fcmp (d a b : Reg) (c : Cond) (w : Bool)
  | fcvt (d a : Reg) (k : Cvk) (r : Rnd) (w : Bool)
  | fsqrt (d a : Reg) (r : Rnd) (w : Bool)
  | frcp (d a : Reg) (r : Rnd) (w : Bool)
  | sel (d a b : Reg)
  | ldw (d a : Reg) (o : BitVec 16)
  | ldd (d a : Reg) (o : BitVec 16)
  | stw (d a : Reg) (o : BitVec 16)
  | std (d a : Reg) (o : BitVec 16)
  | scopy (x y z : Reg) (gate : Option Reg)
  | sfeed (x y z : Reg) (gate : Option Reg)
  | sdrain (x y z : Reg) (gate : Option Reg)
  | sgath (x y z : Reg) (gate : Option Reg)
  | sscat (x y z : Reg) (gate : Option Reg)
  | mma (t : BitVec 3) (bsel asel : Bool) (z : Reg) (gate : Option Reg)
  | mmag (t : BitVec 3) (bsel asel : Bool) (z : Reg) (gate : Option Reg)
  | aclr (t : BitVec 3) (gate : Option Reg)
  | ascale (t : BitVec 3) (y : Reg) (gate : Option Reg)
  | atob (t : BitVec 3) (y : Reg) (gate : Option Reg)
  | acpy (t u : BitVec 3) (gate : Option Reg)
  deriving DecidableEq, Repr

/-- The plain instruction of a dual form. -/
def DualForm.plain : DualForm → Instr
  | .fadd d a b r w => .fadd d a b r w
  | .fsub d a b r w => .fsub d a b r w
  | .fmul d a b r w => .fmul d a b r w
  | .ffma d a b r w => .ffma d a b r w
  | .fmin d a b w => .fmin d a b w
  | .fmax d a b w => .fmax d a b w
  | .fcmp d a b c w => .fcmp d a b c w
  | .fcvt d a k r w => .fcvt d a k r w
  | .fsqrt d a r w => .fsqrt d a r w
  | .frcp d a r w => .frcp d a r w
  | .sel d a b => .sel d a b
  | .ldw d a o => .ldw d a o
  | .ldd d a o => .ldd d a o
  | .stw d a o => .stw d a o
  | .std d a o => .std d a o
  | .scopy x y z g => .scopy x y z g
  | .sfeed x y z g => .sfeed x y z g
  | .sdrain x y z g => .sdrain x y z g
  | .sgath x y z g => .sgath x y z g
  | .sscat x y z g => .sscat x y z g
  | .mma t b a z g => .mma t b a z g
  | .mmag t b a z g => .mmag t b a z g
  | .aclr t g => .aclr t g
  | .ascale t y g => .ascale t y g
  | .atob t y g => .atob t y g
  | .acpy t u g => .acpy t u g

/-- The dual form of an instruction of the OPR or FPO group. -/
def dualOfScalar : Instr → Option DualForm
  | .fadd d a b r w => some (.fadd d a b r w)
  | .fsub d a b r w => some (.fsub d a b r w)
  | .fmul d a b r w => some (.fmul d a b r w)
  | .ffma d a b r w => some (.ffma d a b r w)
  | .fmin d a b w => some (.fmin d a b w)
  | .fmax d a b w => some (.fmax d a b w)
  | .fcmp d a b c w => some (.fcmp d a b c w)
  | .fcvt d a k r w => some (.fcvt d a k r w)
  | .fsqrt d a r w => some (.fsqrt d a r w)
  | .frcp d a r w => some (.frcp d a r w)
  | .sel d a b => some (.sel d a b)
  | _ => none

/-- The gate operand of a form E word, none when the word is refused (R315). -/
def gateField (w : W32) : Option (Option Reg) :=
  if boolOf (w.extractLsb' 5 1) then some (some (fW w)) else if fW w == 0 then some none else none

/-- The second word of a dual pair: none when the word is refused or has no dual form (R303, R316). -/
def decodeDual (w : W32) : Option DualForm :=
  let x := fX w
  let y := fY w
  let z := fZ w
  let g := gateField w
  match (fMajor w).toNat with
  | 0x00 => match decodeOpr w with
    | .ok i => if w = 0 then none else dualOfScalar i
    | .error _ => none
  | 0x30 => match decodeFpo w with
    | .ok i => dualOfScalar i
    | .error _ => none
  | 0x22 => some (.ldw x y (fImm w))
  | 0x23 => some (.ldd x y (fImm w))
  | 0x2a => some (.stw x y (fImm w))
  | 0x2b => some (.std x y (fImm w))
  | 0x33 => match (op5 w).toNat with
    | 0 => g.map (.scopy x y z)
    | 1 => g.map (.sfeed x y z)
    | 2 => g.map (.sdrain x y z)
    | 3 => g.map (.sgath x y z)
    | 4 => g.map (.sscat x y z)
    | _ => none
  | 0x34 =>
    if !isTile x then none
    else match (op5 w).toNat with
    | 0 => if y.extractLsb' 2 3 == 0 then g.map (.mma (tileOf x) (boolOf (y.extractLsb' 1 1)) (boolOf (y.extractLsb' 0 1)) z)
        else none
    | 1 => if y.extractLsb' 2 3 == 0 then g.map (.mmag (tileOf x) (boolOf (y.extractLsb' 1 1)) (boolOf (y.extractLsb' 0 1)) z)
        else none
    | 2 => if y == 0 && z == 0 then g.map (.aclr (tileOf x)) else none
    | 3 => if z == 0 then g.map (.ascale (tileOf x) y) else none
    | 4 => if z == 0 then g.map (.atob (tileOf x) y) else none
    | 5 => if isTile y && z == 0 then g.map (.acpy (tileOf x) (tileOf y)) else none
    | _ => none
  | _ => none

/-! ### The encoder -/

/-- Form A (R302). -/
def encA (m : BitVec 6) (d a b : Reg) (f : BitVec 11) : W32 := (m ++ d ++ a ++ b ++ f : BitVec (6 + 5 + 5 + 5 + 11))
/-- Forms I and B (R302). -/
def encI (m : BitVec 6) (d a : Reg) (i : BitVec 16) : W32 := (m ++ d ++ a ++ i : BitVec (6 + 5 + 5 + 16))
/-- Form J (R302). -/
def encJ (m : BitVec 6) (o : BitVec 26) : W32 := (m ++ o : BitVec (6 + 26))
/-- Form E (R358). -/
def encE (m : BitVec 6) (x y z w : Reg) (def_ : BitVec 1) (op : BitVec 5) : W32 :=
  (m ++ x ++ y ++ z ++ w ++ def_ ++ op : BitVec (6 + 5 + 5 + 5 + 5 + 1 + 5))
/-- Form E with its gate (R315). -/
def encG (m : BitVec 6) (x y z : Reg) (g : Option Reg) (op : BitVec 5) : W32 :=
  match g with
  | none => encE m x y z 0 0 op
  | some w => encE m x y z w 1 op
/-- The function field of FPO (R312). -/
def fpoFn (cc : BitVec 3) (r : BitVec 2) (w : Bool) (op : BitVec 4) : BitVec 11 :=
  (0#1 ++ cc ++ r ++ bitOf w ++ op : BitVec (1 + 3 + 2 + 1 + 4))
/-- The function field of ATOM (R310). -/
def atomFn (c : Scope) (o : Order) (dbl : Bool) (op : BitVec 4) : BitVec 11 :=
  (0#2 ++ c.toBits ++ o.toBits ++ bitOf dbl ++ op : BitVec (2 + 2 + 2 + 1 + 4))
/-- The function field of ORD (R309). -/
def ordFn (fk : BitVec 2) (c : Scope) (size kind : BitVec 2) : BitVec 11 :=
  (0#3 ++ fk ++ c.toBits ++ size ++ kind : BitVec (3 + 2 + 2 + 2 + 2))
/-- The SIZE code of ORD: 0b10 a word, 0b11 a doubleword (R309). -/
def sizeCode (dbl : Bool) : BitVec 2 := if dbl then 3 else 2
def tileReg (t : BitVec 3) : Reg := (0#2 ++ t : BitVec (2 + 3))
def sixteenReg (t : BitVec 4) : Reg := (0#1 ++ t : BitVec (1 + 4))
def fifoReg (t : BitVec 2) : Reg := (0#3 ++ t : BitVec (3 + 2))
/-- The A and B FIFO selects of `MMA` (R368). -/
def fifoSel (bsel asel : Bool) : Reg := (0#3 ++ bitOf bsel ++ bitOf asel : BitVec (3 + 1 + 1))

/-- The word of a sequencer instruction; none for an event, an element operation or an illegal word. -/
def encode : Instr → Option W32
  | .add d a b => some (encA 0x00 d a b 0)
  | .sub d a b => some (encA 0x00 d a b 1)
  | .mul d a b => some (encA 0x00 d a b 2)
  | .mulh d a b => some (encA 0x00 d a b 3)
  | .mulhn d a b => some (encA 0x00 d a b 4)
  | .div d a b => some (encA 0x00 d a b 5)
  | .divn d a b => some (encA 0x00 d a b 6)
  | .rem d a b => some (encA 0x00 d a b 7)
  | .remn d a b => some (encA 0x00 d a b 8)
  | .and d a b => some (encA 0x00 d a b 9)
  | .or d a b => some (encA 0x00 d a b 10)
  | .xor d a b => some (encA 0x00 d a b 11)
  | .andn d a b => some (encA 0x00 d a b 12)
  | .shl d a b => some (encA 0x00 d a b 13)
  | .shr d a b => some (encA 0x00 d a b 14)
  | .sha d a b => some (encA 0x00 d a b 15)
  | .rot d a b => some (encA 0x00 d a b 16)
  | .min d a b => some (encA 0x00 d a b 17)
  | .max d a b => some (encA 0x00 d a b 18)
  | .minn d a b => some (encA 0x00 d a b 19)
  | .maxn d a b => some (encA 0x00 d a b 20)
  | .slt d a b => some (encA 0x00 d a b 21)
  | .sltn d a b => some (encA 0x00 d a b 22)
  | .seq d a b => some (encA 0x00 d a b 23)
  | .clz d a => some (encA 0x00 d a 0 24)
  | .ctz d a => some (encA 0x00 d a 0 25)
  | .popc d a => some (encA 0x00 d a 0 26)
  | .sel d a b => some (encA 0x00 d a b 27)
  | .addi d a i => some (encI 0x1 d a i)
  | .andi d a i => some (encI 0x2 d a i)
  | .ori d a i => some (encI 0x3 d a i)
  | .xori d a i => some (encI 0x4 d a i)
  | .shlImmediate d a n => some (encI 0x05 d a (0#2 ++ 0#8 ++ n : BitVec (2 + 8 + 6)))
  | .shrImmediate d a n => some (encI 0x05 d a (1#2 ++ 0#8 ++ n : BitVec (2 + 8 + 6)))
  | .shaImmediate d a n => some (encI 0x05 d a (2#2 ++ 0#8 ++ n : BitVec (2 + 8 + 6)))
  | .rotImmediate d a n => some (encI 0x05 d a (3#2 ++ 0#8 ++ n : BitVec (2 + 8 + 6)))
  | .slti d a i => some (encI 0x06 d a i)
  | .sltni d a i => some (encI 0x07 d a i)
  | .lui d h i => some (encI 0x08 d (0#3 ++ h : BitVec (3 + 2)) i)
  | .movk d h i => some (encI 0x09 d (0#3 ++ h : BitVec (3 + 2)) i)
  | .beq a b o => some (encI 0x10 a b o)
  | .bne a b o => some (encI 0x11 a b o)
  | .blt a b o => some (encI 0x12 a b o)
  | .bge a b o => some (encI 0x13 a b o)
  | .bltn a b o => some (encI 0x14 a b o)
  | .bgen a b o => some (encI 0x15 a b o)
  | .dbnz a o => some (encI 0x16 a 0 o)
  | .jmp o => some (encJ 0x17 o)
  | .call o => some (encJ 0x18 o)
  | .jr a => some (encA 0x19 0 a 0 0)
  | .jrLink a => some (encA 0x19 0 a 0 1)
  | .ldb d a o => some (encI 0x20 d a o)
  | .ldh d a o => some (encI 0x21 d a o)
  | .ldw d a o => some (encI 0x22 d a o)
  | .ldd d a o => some (encI 0x23 d a o)
  | .ldbn d a o => some (encI 0x24 d a o)
  | .ldhn d a o => some (encI 0x25 d a o)
  | .ldwn d a o => some (encI 0x26 d a o)
  | .lds d a o => some (encI 0x27 d a o)
  | .stb d a o => some (encI 0x28 d a o)
  | .sth d a o => some (encI 0x29 d a o)
  | .stw d a o => some (encI 0x2a d a o)
  | .std d a o => some (encI 0x2b d a o)
  | .sts d a o => some (encI 0x2c d a o)
  | .ldaq d a c dbl => some (encA 0x2d d a 0 (ordFn 0 c (sizeCode dbl) 0))
  | .strl a b c dbl => some (encA 0x2d 0 a b (ordFn 0 c (sizeCode dbl) 1))
  | .fence k c => some (encA 0x2d 0 0 0 (ordFn k.toBits c 0 2))
  | .aadd d a b c o dbl => some (encA 0x2e d a b (atomFn c o dbl 0))
  | .amin d a b c o dbl => some (encA 0x2e d a b (atomFn c o dbl 1))
  | .amax d a b c o dbl => some (encA 0x2e d a b (atomFn c o dbl 2))
  | .aminn d a b c o dbl => some (encA 0x2e d a b (atomFn c o dbl 3))
  | .amaxn d a b c o dbl => some (encA 0x2e d a b (atomFn c o dbl 4))
  | .aand d a b c o dbl => some (encA 0x2e d a b (atomFn c o dbl 5))
  | .aor d a b c o dbl => some (encA 0x2e d a b (atomFn c o dbl 6))
  | .axor d a b c o dbl => some (encA 0x2e d a b (atomFn c o dbl 7))
  | .axchg d a b c o dbl => some (encA 0x2e d a b (atomFn c o dbl 8))
  | .acas d a b c o dbl => some (encA 0x2e d a b (atomFn c o dbl 9))
  | .afadd d a b c o => some (encA 0x2e d a b (atomFn c o false 10))
  | .ldfe d a c => some (encA 0x2f d a 0 (0#7 ++ c.toBits ++ 0#2 : BitVec (7 + 2 + 2)))
  | .stfe a b c => some (encA 0x2f 0 a b (0#7 ++ c.toBits ++ 1#2 : BitVec (7 + 2 + 2)))
  | .fepeek d a c => some (encA 0x2f d a 0 (0#7 ++ c.toBits ++ 2#2 : BitVec (7 + 2 + 2)))
  | .fadd d a b r w => some (encA 0x30 d a b (fpoFn 0 r.toBits w 0))
  | .fsub d a b r w => some (encA 0x30 d a b (fpoFn 0 r.toBits w 1))
  | .fmul d a b r w => some (encA 0x30 d a b (fpoFn 0 r.toBits w 2))
  | .ffma d a b r w => some (encA 0x30 d a b (fpoFn 0 r.toBits w 3))
  | .fmin d a b w => some (encA 0x30 d a b (fpoFn 0 0 w 4))
  | .fmax d a b w => some (encA 0x30 d a b (fpoFn 0 0 w 5))
  | .fcmp d a b c w => some (encA 0x30 d a b (fpoFn c.toBits 0 w 6))
  | .fcvt d a k r w => some (encA 0x30 d a 0 (fpoFn k.toBits r.toBits w 7))
  | .fsqrt d a r w => some (encA 0x30 d a 0 (fpoFn 0 r.toBits w 8))
  | .frcp d a r w => some (encA 0x30 d a 0 (fpoFn 0 r.toBits w 9))
  | .ctlrd d n => some (encA 0x31 d 0 0 (n ++ 0#2 : BitVec (9 + 2)))
  | .ctlwr a n => some (encA 0x31 0 a 0 (n ++ 1#2 : BitVec (9 + 2)))
  | .ctlset a n => some (encA 0x31 0 a 0 (n ++ 2#2 : BitVec (9 + 2)))
  | .ctlclr a n => some (encA 0x31 0 a 0 (n ++ 3#2 : BitVec (9 + 2)))
  | .snop => some (encA 0x32 0 0 0 0)
  | .trap c => some (encA 0x32 0 0 0 (c ++ 1#4 : BitVec (7 + 4)))
  | .waitev a => some (encA 0x32 0 a 0 2)
  | .yield => some (encA 0x32 0 0 0 3)
  | .kret => some (encA 0x32 0 0 0 4)
  | .brk => some (encA 0x32 0 0 0 5)
  | .halt => some (encA 0x32 0 0 0 6)
  | .dual => some (encJ 0x3f 0)
  | .scopy x y z g => some (encG 0x33 x y z g 0)
  | .sfeed x y z g => some (encG 0x33 x y z g 1)
  | .sdrain x y z g => some (encG 0x33 x y z g 2)
  | .sgath x y z g => some (encG 0x33 x y z g 3)
  | .sscat x y z g => some (encG 0x33 x y z g 4)
  | .swait st => some (encE 0x33 (sixteenReg st) 0 0 0 0 5)
  | .scancel st => some (encE 0x33 (sixteenReg st) 0 0 0 0 6)
  | .sunseal x y z g => some (encG 0x33 x y z g 7)
  | .stfill x y z g => some (encG 0x33 x y z g 8)
  | .mma t bs as z g => some (encG 0x34 (tileReg t) (fifoSel bs as) z g 0)
  | .mmag t bs as z g => some (encG 0x34 (tileReg t) (fifoSel bs as) z g 1)
  | .aclr t g => some (encG 0x34 (tileReg t) 0 0 g 2)
  | .ascale t y g => some (encG 0x34 (tileReg t) y 0 g 3)
  | .atob t y g => some (encG 0x34 (tileReg t) y 0 g 4)
  | .acpy t u g => some (encG 0x34 (tileReg t) (tileReg u) 0 g 5)
  | .mwait => some (encE 0x34 0 0 0 0 0 6)
  | .bdrop q y g => some (encG 0x34 (fifoReg q) y 0 g 7)
  | .binit b y z => some (encE 0x35 b y z 0 0 0)
  | .barrive b g => some (encG 0x35 b 0 0 g 1)
  | .bexpect b y g => some (encG 0x35 b y 0 g 2)
  | .bwaitb b => some (encE 0x35 b 0 0 0 0 3)
  | .btest x b => some (encE 0x35 x b 0 0 0 4)
  | .evsetTerm t y z => some (encE 0x36 (sixteenReg t) y z 0 0 0)
  | .evsetCounter c y => some (encE 0x36 (sixteenReg c) y 0 1 0 0)
  | .evsetTimer y => some (encE 0x36 23 y 0 2 0 0)
  | .evclr x => some (encE 0x36 x 0 0 0 0 1)
  | .evfire e g => some (encG 0x36 (3#2 ++ e : BitVec (2 + 3)) 0 0 g 2)
  | .evread x => some (encE 0x36 x 0 0 0 0 3)
  | .brun x y z g => some (encG 0x37 x y z g 0)
  | .bwait x => some (encE 0x37 x 0 0 0 0 1)
  | .bcfg x y => some (encE 0x37 x y 0 0 0 2)
  | .bstat x y => some (encE 0x37 x y 0 0 0 3)
  | .bkill => some (encE 0x37 0 0 0 0 0 4)
  | .kvalloc x g => some (encG 0x38 x 0 0 g 0)
  | .kvapp x g => some (encG 0x38 x 0 0 g 1)
  | .kvfork x g => some (encG 0x38 x 0 0 g 2)
  | .kvrel x g => some (encG 0x38 x 0 0 g 3)
  | .kvlook x g => some (encG 0x38 x 0 0 g 4)
  | .kvdraft x g => some (encG 0x38 x 0 0 g 5)
  | .kvswap x g => some (encG 0x38 x 0 0 g 6)
  | .kvpfx x g => some (encG 0x38 x 0 0 g 7)
  | .kvdrop x g => some (encG 0x38 x 0 0 g 8)
  | .sopen x y z g => some (encG 0x39 x y z g 0)
  | .sseal x y z g => some (encG 0x39 x y z g 1)
  | .smeter => some (encE 0x39 0 0 0 0 0 2)
  | .sepoch x => some (encE 0x39 x 0 0 0 0 3)
  | .car x g => some (encG 0x3a x 0 0 g 0)
  | .cbc x g => some (encG 0x3a x 0 0 g 1)
  | .cag x g => some (encG 0x3a x 0 0 g 2)
  | .cwait x => some (encE 0x3a x 0 0 0 0 3)
  | .bkop x y z g => some (encG 0x3b x y z g 0)
  | .bkred x y z g => some (encG 0x3b x y z g 1)
  | .wpin x y => some (encE 0x3c x y 0 0 0 0)
  | .wunpin x => some (encE 0x3c x 0 0 0 0 1)
  | .wgen x y => some (encE 0x3c x y 0 0 0 2)
  | _ => none

/-! ### Element records (R317–R322) -/

/-- The operand fields of a record. -/
def recOf (r : BitVec 64) : ElemRec where
  d := boolOf (r.extractLsb' 63 1)
  srcA := Src.ofBits (r.extractLsb' 53 3)
  srcB := Src.ofBits (r.extractLsb' 50 3)
  srcC := Src.ofBits (r.extractLsb' 47 3)
  ty := ElTy.ofBits (r.extractLsb' 44 3)
  var := r.extractLsb' 42 2
  lvl := r.extractLsb' 40 2
  imm8 := r.extractLsb' 32 8
  sw := r.extractLsb' 16 16
  link := r.extractLsb' 0 16

/-- The opcode of a record, bits [30:24] of its op word. -/
def recOpcode (r : BitVec 64) : BitVec 7 := r.extractLsb' 56 7

/-- The element opcode map (R322). A routing record has an op word of zeros; every reserved opcode is refused. -/
def decodeElem (r : BitVec 64) : Except DecodeError Instr :=
  let e := recOf r
  match (recOpcode r).toNat with
  | 0x00 => need (r.extractLsb' 32 32 == 0) .nonZeroField (.ok .elemRoute)
  | 0x1 => .ok (.elemMov e)
  | 0x2 => .ok (.elemConst e)
  | 0x3 => .ok (.elemTid e)
  | 0x8 => .ok (.elemAdd e)
  | 0x9 => .ok (.elemSub e)
  | 0xa => .ok (.elemMul e)
  | 0xb => .ok (.elemMulhi e)
  | 0xc => .ok (.elemMad e)
  | 0xd => .ok (.elemMin e)
  | 0xe => .ok (.elemMax e)
  | 0xf => .ok (.elemAbs e)
  | 0x10 => .ok (.elemNeg e)
  | 0x11 => .ok (.elemAnd e)
  | 0x12 => .ok (.elemOr e)
  | 0x13 => .ok (.elemXor e)
  | 0x14 => .ok (.elemShl e)
  | 0x15 => .ok (.elemShr e)
  | 0x16 => .ok (.elemSha e)
  | 0x17 => .ok (.elemClz e)
  | 0x18 => .ok (.elemPopc e)
  | 0x19 => .ok (.elemBfx e)
  | 0x1a => .ok (.elemCmp e)
  | 0x1b => .ok (.elemSel e)
  | 0x20 => .ok (.elemFadd e)
  | 0x21 => .ok (.elemFsub e)
  | 0x22 => .ok (.elemFmul e)
  | 0x23 => .ok (.elemFma e)
  | 0x24 => .ok (.elemFmin e)
  | 0x25 => .ok (.elemFmax e)
  | 0x26 => .ok (.elemFabs e)
  | 0x27 => .ok (.elemFneg e)
  | 0x28 => .ok (.elemFcmp e)
  | 0x29 => .ok (.elemRcp e)
  | 0x2a => .ok (.elemSqrt e)
  | 0x2b => .ok (.elemRsq e)
  | 0x2c => .ok (.elemExp2 e)
  | 0x2d => .ok (.elemLog2 e)
  | 0x2e => .ok (.elemTanh e)
  | 0x2f => .ok (.elemSin e)
  | 0x30 => .ok (.elemCos e)
  | 0x38 => .ok (.elemCvt e)
  | 0x39 => .ok (.elemPack e)
  | 0x3a => .ok (.elemUnpk e)
  | 0x3b => .ok (.elemQnt e)
  | 0x3c => .ok (.elemDqnt e)
  | 0x40 => .ok (.elemRsum e)
  | 0x41 => .ok (.elemRmax e)
  | 0x42 => .ok (.elemRmin e)
  | 0x43 => .ok (.elemRcnt e)
  | 0x44 => .ok (.elemLvl e)
  | 0x50 => .ok (.elemLin e)
  | 0x51 => .ok (.elemLout e)
  | 0x58 => .ok (.elemLd e)
  | 0x59 => .ok (.elemSt e)
  | 0x5a => .ok (.elemLdaq e)
  | 0x5b => .ok (.elemStrl e)
  | 0x5c => .ok (.elemAtm e)
  | 0x5d => .ok (.elemLdfe e)
  | 0x5e => .ok (.elemStfe e)
  | 0x5f => .ok (.elemLds e)
  | 0x60 => .ok (.elemSts e)
  | 0x61 => .ok (.elemPft e)
  | 0x68 => .ok (.elemAcrd e)
  | 0x69 => .ok (.elemAcwr e)
  | 0x6a => .ok (.elemAfpush e)
  | 0x6b => .ok (.elemStin e)
  | 0x6c => .ok (.elemStout e)
  | 0x6d => .ok (.elemBkadd e)
  | 0x78 => .ok (.elemNext e)
  | 0x79 => .ok (.elemPark e)
  | 0x7a => .ok (.elemBarv e)
  | 0x7b => .ok (.elemTrapx e)
  | _ => .error .reservedFunction

/-- The record of an element operation with its opcode (R317). -/
def encRec (op : BitVec 7) (e : ElemRec) : BitVec 64 :=
  (bitOf e.d ++ op ++ e.srcA.toBits ++ e.srcB.toBits ++ e.srcC.toBits ++ e.ty.toBits ++ e.var ++ e.lvl ++ e.imm8
    ++ e.sw ++ e.link : BitVec (1 + 7 + 3 + 3 + 3 + 3 + 2 + 2 + 8 + 16 + 16))

/-- The opcode and record of an element operation. -/
def Instr.elemFields : Instr → Option (BitVec 7 × ElemRec)
  | .elemMov r => some (0x1, r)
  | .elemConst r => some (0x2, r)
  | .elemTid r => some (0x3, r)
  | .elemAdd r => some (0x8, r)
  | .elemSub r => some (0x9, r)
  | .elemMul r => some (0xa, r)
  | .elemMulhi r => some (0xb, r)
  | .elemMad r => some (0xc, r)
  | .elemMin r => some (0xd, r)
  | .elemMax r => some (0xe, r)
  | .elemAbs r => some (0xf, r)
  | .elemNeg r => some (0x10, r)
  | .elemAnd r => some (0x11, r)
  | .elemOr r => some (0x12, r)
  | .elemXor r => some (0x13, r)
  | .elemShl r => some (0x14, r)
  | .elemShr r => some (0x15, r)
  | .elemSha r => some (0x16, r)
  | .elemClz r => some (0x17, r)
  | .elemPopc r => some (0x18, r)
  | .elemBfx r => some (0x19, r)
  | .elemCmp r => some (0x1a, r)
  | .elemSel r => some (0x1b, r)
  | .elemFadd r => some (0x20, r)
  | .elemFsub r => some (0x21, r)
  | .elemFmul r => some (0x22, r)
  | .elemFma r => some (0x23, r)
  | .elemFmin r => some (0x24, r)
  | .elemFmax r => some (0x25, r)
  | .elemFabs r => some (0x26, r)
  | .elemFneg r => some (0x27, r)
  | .elemFcmp r => some (0x28, r)
  | .elemRcp r => some (0x29, r)
  | .elemSqrt r => some (0x2a, r)
  | .elemRsq r => some (0x2b, r)
  | .elemExp2 r => some (0x2c, r)
  | .elemLog2 r => some (0x2d, r)
  | .elemTanh r => some (0x2e, r)
  | .elemSin r => some (0x2f, r)
  | .elemCos r => some (0x30, r)
  | .elemCvt r => some (0x38, r)
  | .elemPack r => some (0x39, r)
  | .elemUnpk r => some (0x3a, r)
  | .elemQnt r => some (0x3b, r)
  | .elemDqnt r => some (0x3c, r)
  | .elemRsum r => some (0x40, r)
  | .elemRmax r => some (0x41, r)
  | .elemRmin r => some (0x42, r)
  | .elemRcnt r => some (0x43, r)
  | .elemLvl r => some (0x44, r)
  | .elemLin r => some (0x50, r)
  | .elemLout r => some (0x51, r)
  | .elemLd r => some (0x58, r)
  | .elemSt r => some (0x59, r)
  | .elemLdaq r => some (0x5a, r)
  | .elemStrl r => some (0x5b, r)
  | .elemAtm r => some (0x5c, r)
  | .elemLdfe r => some (0x5d, r)
  | .elemStfe r => some (0x5e, r)
  | .elemLds r => some (0x5f, r)
  | .elemSts r => some (0x60, r)
  | .elemPft r => some (0x61, r)
  | .elemAcrd r => some (0x68, r)
  | .elemAcwr r => some (0x69, r)
  | .elemAfpush r => some (0x6a, r)
  | .elemStin r => some (0x6b, r)
  | .elemStout r => some (0x6c, r)
  | .elemBkadd r => some (0x6d, r)
  | .elemNext r => some (0x78, r)
  | .elemPark r => some (0x79, r)
  | .elemBarv r => some (0x7a, r)
  | .elemTrapx r => some (0x7b, r)
  | _ => none

/-- The element record of an element operation; none for anything else (a routing record's switch and link words stand
in the configuration, not in the step). -/
def encodeElem (i : Instr) : Option (BitVec 64) := i.elemFields.map fun p => encRec p.1 p.2

/-- What the decoder reads from an instruction whose bits are `w`: a 32-bit sequencer word, or a 64-bit element
record. -/
def decodeTableWord (nbits w : Nat) : Option Instr :=
  if nbits = 64 then (decodeElem (BitVec.ofNat 64 w)).toOption
  else (decode (BitVec.ofNat 32 w)).toOption

end Sys2Proof
end

