-- ==== Sys2Proof/Machine/CellState.lean ====
section
/-! DEFINITION. The state of one cell (R9, R12): its sequencer, phase, Trellis, streamers, operand FIFOs, Arbour,
barriers, events and engine commands in flight, as plain data. -/

namespace Sys2Proof.Machine

/-- The cause codes of R262. -/
inductive Cause where
  | ill | align | xlate | perm | opd | fedup | scope | format | combo | config | sealFail | integ | version | mchk
  | watchdog | soft | stream | barrier | preempt | debug
  deriving DecidableEq, Repr

/-- The statuses of R100 (codes 0x00 to 0x23). -/
inductive Status where
  | ok | busy | policy | sealFail | tag | replay | length | closed | full | limit | timeout
  | malformed | nopart | missing | stale | unreachable | noway | overrun | short
  | error | watchdog | ended | destroyed
  deriving DecidableEq, Repr

/-- The two bytes of a descriptor: format code and scale exponent (R143, R195, R197). -/
structure Desc where
  fmt   : Byte
  scale : Byte
  deriving DecidableEq, Repr

/-! ### Streams (R238–R246, R362–R367) -/

/-- The stream commands of STRM (R362, R365). -/
inductive StreamOp where
  | scopy | sfeed | sdrain | sgath | sscat | sunseal | stfill
  deriving DecidableEq, Repr

/-- One dimension of a shape record (R239, R240). -/
structure Dim where
  ext   : Nat
  str   : Int
  off   : Int
  wrap  : Bool
  level : Nat
  deriving DecidableEq, Repr

/-- A shape record as a command has snapshotted it (R239, R246). -/
structure Shape where
  base  : Word
  etype : Byte
  desc  : Bool
  tan   : Bool
  kv    : Bool
  kvseq : Nat
  dims  : List Dim
  deriving DecidableEq, Repr

/-- The other side of a stream, by OKIND (R363). -/
inductive Other where
  | mem (va : Word)
  | scratch (sa : Nat)
  | fifo (q : Nat)
  | tile (t row : Nat)
  | port (ring : Nat)
  | value (v : W32)
  deriving DecidableEq, Repr

/-- A KV snapshot: the pool geometry, length and pages that a stream holds (R168, R245). -/
structure KvSnap where
  pool   : Nat
  pageB  : Nat
  len    : Nat
  pages  : List Nat
  deriving DecidableEq, Repr

/-- An accepted stream command with everything it read at issue or arming (R246, R364). -/
structure StreamCmd where
  op       : StreamOp
  shape    : Shape
  other    : Other
  sscr     : Bool
  rscr     : Bool
  /-- The address of the index list of `SGATH` and `SSCAT` (R362). -/
  list     : Option Word
  /-- The barrier that counts the stream, unless NOBAR. -/
  bar      : Option Nat
  /-- T when the command is dual and T > 0, else 0 (R244). -/
  tw       : Nat
  /-- `kdesc`, `kdbase`, `ktstride` as taken at issue (R143, R145). -/
  kdesc    : Word
  kdbase   : Word
  ktstride : Word
  /-- The weight set and generation bound at issue, for an OPD source (R248). -/
  wgen     : Option (Nat × Nat)
  snap     : Option KvSnap
  /-- The command's scope (R184). -/
  scope    : Scope
  /-- Elements E, the product of the extents (R240); for `SUNSEAL` the chunks. -/
  count    : Nat
  /-- Element size in half bytes (R240). -/
  half     : Nat
  /-- Issue order of streams in the cell (R243). -/
  serial   : Nat
  deriving DecidableEq, Repr

/-- A fetched source element: its position, data bits, tangents, descriptor, whether it came from OPD, the list row it
belongs to (R185, R136, R444), and the bytes that its request has cost: partition, meter index and count (R72). -/
structure Fetched where
  idx     : Nat
  bits    : W32
  tans    : List W32
  desc    : Desc
  /-- Where the descriptor was read, 0 without a descriptor plane (R265). -/
  daddr   : Word
  opd     : Bool
  row     : Option Nat
  cost    : List (Nat × Nat × Nat)
  deriving DecidableEq, Repr

/-- One stream identifier: its command and progress (R238, R246). -/
structure StreamSt where
  cmd      : StreamCmd
  /-- The gate term it waits on, while armed (R360). -/
  armed    : Option Nat
  issued   : Nat
  inflight : List Fetched
  landed   : Nat
  /-- The list entries read, each once: row by top index (R444). -/
  rows     : Map Nat
  /-- `SCANCEL` has stopped its requests (R366). -/
  cancelled : Bool
  deriving DecidableEq, Repr

/-- A slot of an operand FIFO (R243): 128 bytes, two descriptors, a marker bit and the operand-only mark (R136). -/
structure FifoSlot where
  data    : List Byte
  d0      : Desc
  d1      : Desc
  /-- Where the two descriptors were read, 0 for one that was not (R265). -/
  a0      : Word
  a1      : Word
  marker  : Bool
  opd     : Bool
  /-- The slot is part of a tangent row (R244). -/
  tangent : Bool
  /-- False for a slot whose bytes pre-emption discarded and which waits for its refetch (R117, R437). -/
  present : Bool
  /-- The stream that filled it, its first element and the list row of each of its elements; none for a slot of `AFPUSH` (R417,
  R444). -/
  origin  : Option (StreamCmd × Nat × List (Option Nat))
  deriving DecidableEq, Repr

/-- The partly filled slot at the end of a FIFO (R243). -/
structure FifoFill where
  elems   : List W32
  d0      : Desc
  d1      : Desc
  a0      : Word
  a1      : Word
  opd     : Bool
  first   : Nat
  rows    : List (Option Nat)
  tans    : List (List W32)
  deriving DecidableEq, Repr

/-- An operand FIFO of 512 slots (R243). -/
structure Fifo where
  slots : List FifoSlot
  fill  : Option FifoFill
  deriving DecidableEq, Repr

/-! ### The Arbour (R249–R257, R368–R373) -/

/-- The queued operations of the Arbour. -/
inductive ArbKind where
  | mma | mmag | aclr | ascale | atob | acpy | bdrop
  deriving DecidableEq, Repr

/-- A half of the B register: 96 slots, whether `ATOB` wrote it, and its mark (R250, R136). -/
structure BHalf where
  slots    : List FifoSlot
  fromAtob : Bool
  marked   : Bool
  deriving DecidableEq, Repr

/-- One tile row as the shadow store keeps it (R255). -/
structure ShadowRow where
  tile : Nat
  row  : Nat
  vals : List W32
  deriving DecidableEq, Repr

/-- An issued or armed Arbour operation and its progress (R253–R256). -/
structure ArbOp where
  kind    : ArbKind
  tile    : Nat
  tile2   : Nat
  aFifo   : Nat
  bFifo   : Nat
  /-- The matrix control word, scale factor, conversion word or count (R251, R370–R372). -/
  ctl     : Word
  /-- f′_k of a dual `ASCALE` (R370). -/
  ftans   : List W32
  tw      : Nat
  /-- The instruction word, for reports (R360). -/
  word    : W32
  /-- Issue order, counted with the streams of the cell (R187). -/
  serial  : Nat
  started : Bool
  /-- Primal rows consumed, rows with their tangent rows (R72), groups closed, and B operands taken (R253, R254). -/
  rows    : Nat
  beats   : Nat
  groups  : Nat
  bTaken  : Nat
  shadow  : List ShadowRow
  /-- FIFO slots taken so far with their FIFO, oldest first, for the replay (R255). -/
  eaten   : List (Nat × FifoSlot)
  /-- The B halves as they stood before the operation began (R118). -/
  bBefore : Option (Option BHalf × Option BHalf)
  deriving DecidableEq, Repr

/-- The Arbour of a cell. -/
structure Arbour where
  queue : List ArbOp
  front : Option BHalf
  back  : Option BHalf
  /-- The FIFO whose 96 slots the back half took, so that a replay can return them (R118, R250). -/
  backFifo : Nat
  deriving DecidableEq, Repr

/-! ### Barriers and events (R247, R258–R261) -/

/-- A barrier: pending bytes P, arrivals A, the complete bit, its event line (R247), and the widest scope among the streams
that it counts (R186). -/
structure Barrier where
  p        : Nat
  a        : Nat
  complete : Bool
  line     : Option Nat
  scope    : Scope
  deriving DecidableEq, Repr

/-- A loaded event counter (R259, R375). -/
structure Counter where
  line      : Nat
  threshold : Nat
  count     : Nat
  deriving DecidableEq, Repr

/-- A command that waits armed on a gate term, other than a stream, with the operands read at arming (R360). -/
inductive Armed where
  | stream (st : Nat)
  | arb (op : ArbOp)
  | barrive (b : Nat)
  | bexpect (b : Nat) (n : Word)
  | evfire (line : Nat)
  | brun (n base flags : Word)
  | kvm (op : Nat) (addr : Word)
  | sopen (x y z : Word)
  | sseal (x y z : Word)
  | coll (op : Nat) (record : List Byte)
  | bkop (x y z : Word)
  | bkred (x y z : Word)
  deriving DecidableEq, Repr

/-- A gate term: its two words, and the armed command with its instruction word (R260, R261, R360). -/
structure Gate where
  lo    : Word
  hi    : Word
  armed : Option (Armed × W32)
  deriving DecidableEq, Repr

/-! ### The Trellis (R213–R233) -/

/-- The token kinds of R215. -/
inductive Kind where
  | data | passEnd | l1 | l2 | l3 | config | abort | cut
  deriving DecidableEq, Repr

/-- A token of a link slot (R214) with its tangent beats; `pass` is the pass it belongs to, `origin` the marker source of
a level marker (R396), and `atm` the ring position whose old value an `ATM` result stands for until the commit (R413). -/
structure Tok where
  pass   : Nat
  kind   : Kind
  thread : Nat
  value  : W32
  poison : Bool
  tans   : List W32
  origin : Nat
  atm    : Option Nat
  deriving DecidableEq, Repr

/-- The tokens of one output, and the consumers that have taken the head (R217). -/
structure Link where
  q     : List Tok
  taken : List Nat
  deriving DecidableEq, Repr

/-- The record configured at one site: opcode, fields and constants (R216, R224). -/
structure SiteRec where
  op  : BitVec 7
  r   : ElemRec
  c0  : W32
  c1  : W32
  deriving DecidableEq, Repr

/-- A parsed block image (R223–R225): the sites are 0–255 for element (x, y) at 16y + x and 256 + p for ring
position p. -/
structure Image where
  ident   : W32
  block   : Nat
  livein  : BitVec 64
  liveout : BitVec 64
  succ    : List (BitVec 10)
  gate    : Bool
  stores  : Bool
  atomics : Bool
  bytes   : Nat
  sites   : List (Nat × SiteRec)
  /-- Sites whose own outputs lead back to one of their named inputs (log 25). -/
  loops   : List Nat
  deriving DecidableEq, Repr

/-- A carry register with its tangents and empty flag (R216, R406). -/
structure Carry where
  val    : W32
  tans   : List W32
  empty  : Bool
  thread : Nat
  deriving DecidableEq, Repr

/-- What a store-queue entry does at commit (R232). -/
inductive SqKind where
  | store (pas : List Nat) (vals : List W32) (scope : Option Scope)
  | stfe (pa : Nat) (va : Nat) (v : W32) (scope : Scope)
  | atm (pa : Nat) (op : BitVec 4) (v : W32) (order : Order) (scope : Scope)
  | bkadd (pa : Nat) (f32 : Bool) (v : W32)
  | sts (sa : Nat) (v : W32)
  | acwr (tile idx : Nat) (vals : List W32)
  | afpush (site fifo : Nat) (desc : Desc) (tanSlots : Nat) (v : W32)
  | afmark (site fifo : Nat) (desc : Desc) (tanSlots : Nat) (passEnd : Bool)
  | stout (ring : Nat) (vals : List W32)
  | barv (b : Nat)
  | lout (slot : Nat) (v : W32) (tans : List W32) (atm : Option Nat)
  deriving DecidableEq, Repr

/-- An entry of the store queue: thread, ring position and effect, in firing order (R232); `cone` marks an entry of
the emission cone (R408). -/
structure SqEntry where
  pass   : Nat
  thread : Nat
  ring   : Nat
  kind   : SqKind
  cone   : Bool
  deriving DecidableEq, Repr

/-- Why a thread's token is poisoned (R233): cause, fault address and ring position; `watch` for an `LDFE` that found its
word empty, at the physical address `addr` (R141). -/
structure Poison where
  pass   : Nat
  thread : Nat
  watch  : Bool
  cause  : Cause
  addr   : Nat
  ring   : Nat
  detail : BitVec 16
  cone   : Bool
  deriving DecidableEq, Repr

/-- A pass in flight (R110): its number in the phase, its image, its threads, what each west or stream port has still
to issue, and how its threads have ended. -/
structure Pass where
  id      : Nat
  image   : Image
  threads : List Nat
  /-- Threads and then the pass-end marker that each issuing port has issued so far, by site. -/
  issued  : List (Nat × Nat)
  /-- Threads that have committed, parked or gone back to wait. -/
  gone    : List Nat
  /-- Threads whose control node has fired in a block that commits at pass end, with the value it read (R180). -/
  done    : List (Nat × W32)
  /-- The pass-end has reached the control node. -/
  ended   : Bool
  /-- Timebase at the choice, for samples (R285). -/
  start   : Nat
  deriving DecidableEq, Repr

/-- The phase states of R109. -/
inductive PhaseState where
  | idle | running | done
  deriving DecidableEq, Repr

/-- The thread phase of a cell: R107, R109, R110, R113, R234. -/
structure Phase where
  st      : PhaseState
  n       : Nat
  entry   : Nat
  lmax    : Nat
  gap     : Nat
  passmax : Nat
  errs    : Nat
  /-- Wait vectors by block; bit i is thread i. -/
  wait    : Map (BitVec 4096)
  faultPending : BitVec 4096
  parked  : BitVec 4096
  skip    : Map Nat
  cursor  : Map Nat
  errWord : Map W32
  /-- Block at which each thread last waited, for R234. -/
  lastBlock : Map Nat
  /-- FE watches: thread and physical address (R141). -/
  watches : List (Nat × Nat)
  /-- Threads whose access NOMAP has denied, with the page (R131). -/
  denied  : List (Nat × Nat)
  nextPass : Nat
  deriving DecidableEq, Repr

/-- How the elements of a port token count when a firing takes it: as the landing of a stream, as bytes of a cancelled
stream, or as bytes delivered once more (R366, R418). -/
inductive StinMode where
  | live | cut | again
  deriving DecidableEq, Repr

/-- A token that a stream has given a `STIN` port (R242, R418): its word, tangents, the levels of the markers after it (R241), and
the stream, its scope (R185), elements, barrier and bytes it counts for. -/
structure StinItem where
  word  : W32
  tans  : List W32
  levels : List Nat
  st    : Nat
  scope : Scope
  elems : Nat
  bar   : Option Nat
  bytes : Nat
  mode  : StinMode
  deriving DecidableEq, Repr

/-- The fabric: links by 4 × site + direction (N 0, E 1, S 2, W 3), carry registers, eras, the store queue (R232),
poison reports, and the buffers of `AFPUSH`, `STIN` and `STOUT` (R417–R419). -/
structure Fabric where
  links  : Map Link
  carry  : Map Carry
  /-- The pass whose record a site runs under (R219). -/
  era    : Map Nat
  /-- The consumers of a site on a loop that have passed the pass-end on (log 25). -/
  marked : Map (List Nat)
  passes : List Pass
  sq     : List SqEntry
  poison : List Poison
  /-- Row buffers of `AFPUSH` nodes by site: the bytes gathered. -/
  rows   : Map (List Byte)
  /-- Tokens delivered for a `STIN` port and not taken. -/
  stin   : Map (List StinItem)
  /-- Tokens that ports have given out: pass, port and token, oldest first (R418). -/
  stinKept : List (Nat × Nat × StinItem)
  /-- Committed words of a `STOUT` port, each with its tangents. -/
  stout  : Map (List (W32 × List W32))
  /-- Element operations of each thread's token since its issue (R72 index 3). -/
  opsDone : Map Nat
  /-- Fills and misses of threads' loads, which count at the commit: thread, partition, and 0 for HBM, 1 for the second
  tier, 2 for the L1 (R72, R281). -/
  specFills : List (Nat × Nat × Nat)
  deriving DecidableEq, Repr

/-! ### Engine commands in flight -/

/-- A map command on its way to the Espalier (R379). -/
structure KvmCmd where
  op   : Nat
  addr : Word
  deriving DecidableEq, Repr

/-- A bank command (R390, R391): what each line has still to perform, by its place in the range, as physical word addresses
with the source words of `BKOP`, and the results of the lines that `BKRED` has reduced. -/
structure BankCmd where
  red    : Bool
  op     : Nat
  ty     : Nat
  /-- Where `BKRED` writes in scratch. -/
  dest   : Nat
  lines  : Map (List (Nat × W32))
  parts  : Map Word
  scope  : Scope
  deriving DecidableEq, Repr

/-- The collective of a cell (R387–R389). -/
structure CollCmd where
  op     : Nat
  record : List Byte
  src    : List Byte
  dest   : List Nat
  destScr : Bool
  destAddr : Nat
  refused : Bool
  deriving DecidableEq, Repr

/-- A remote access of a cell (R36): physical and virtual address, time of the request, whether an agent waits for the answer,
whether the home has acknowledged its deferral (R141), and the answer, true for a refusal. -/
structure RemoteAcc where
  pa     : Nat
  va     : Nat
  since  : Nat
  waits  : Bool
  held   : Bool
  answer : Option Bool
  deriving DecidableEq, Repr

/-! ### The sequencer -/

/-- An asynchronous report that waits for a boundary (R264, R267). -/
structure Report where
  cause : Cause
  addr  : Word
  info  : Word
  deriving DecidableEq, Repr

/-- An entry of the write buffer (R341): the bytes it stores, by physical address, or an addition to a queue event of a
device window (R128). -/
inductive WbEntry where
  | bytes (cells : List (Nat × Byte)) (scope : Scope)
  | event (fn ev : Nat) (v : Word)
  deriving DecidableEq, Repr

/-- The sequencer: registers, shadows, pc, control registers and its queues (R236, R266, R324–R356). -/
structure Seq where
  regs     : Vector Word 32
  /-- Shadow `sN.dk` at 4N + k − 1 (R325). -/
  shadows  : Vector Word 128
  pc       : Word
  handlerActive : Bool
  reports  : List Report
  kvec     : Word
  kfpc     : Word
  kfcause  : Word
  kfaddr   : Word
  kfinfo   : Word
  kdesc    : Word
  kdbase   : Word
  ktstride : Word
  kcycle   : Word
  yielded  : Bool
  wb       : List WbEntry
  /-- A waiting `LDFE`: the word whose deferral entry the slice holds (R141), and the value of the fill that has completed it
  (R140). -/
  deferral : Option (Nat × Option W32)
  /-- Pages whose fault NOMAP has answered for this sequencer (R131). -/
  denied   : List Nat
  deriving DecidableEq, Repr

/-- What a launch gives its cells (R102, R104). -/
structure Ident where
  part   : Nat
  vf     : Nat
  world  : Nat
  ctx    : Nat
  gen    : W32
  tw     : Nat
  handle : Nat
  kernel : Nat
  launch : Nat
  deriving DecidableEq, Repr

/-- Whether a cell runs: idle, running its program, halted by `HALT`, frozen by a debug stop, or writing its save image
after pre-emption, each with whether `HALT` has retired (R101, R106, R116, R288). -/
inductive Run where
  | idle | running | halted | stopped (halted : Bool) | saving (halted : Bool)
  deriving DecidableEq, Repr

/-- One cell. -/
structure Cell where
  run     : Run
  ident   : Ident
  /-- The kernel's code segment from 0x0000_0000_0001_0000 (R301, R324). -/
  code    : List W32
  seq     : Seq
  /-- Block bindings of the launch (R378). -/
  bound   : Map Image
  /-- The configuration cache: identifier and size, oldest load first (R227). -/
  cache   : List (W32 × Nat)
  phase   : Phase
  /-- Errored threads of the phases before the present one (R106). -/
  errDone : Nat
  fabric  : Fabric
  /-- Live-value store by word index, and the written masks (R228). -/
  lvs     : Map W32
  written : Map (BitVec 64)
  /-- Scratch by byte address (R123). -/
  scratch : Map Byte
  /-- Tiles by 12,288 × tile + 96 × row + column, and the tiles written since launch (R118). -/
  tiles   : Map W32
  tileWritten : List Nat
  fifos   : Map Fifo
  arb     : Arbour
  streams : Map StreamSt
  nextSerial : Nat
  /-- The identifier that each streamer served last (R238). -/
  served  : Map Nat
  /-- The scope of the last stream of each identifier, which an `SWAIT` acquires (R366). -/
  lastScopes : Map Scope
  barriers : Map Barrier
  lines   : BitVec 32
  counters : Map Counter
  /-- The `e23` timer: its period and the time counted of the current one, in ns (R259, R375). -/
  timer   : Option (Nat × Nat)
  gates   : Map Gate
  /-- The term after the one that fired last, and the lines and counters as that firing left them (R261). -/
  gateScan : Option (Nat × W32 × Map Counter)
  kvm     : List KvmCmd
  coll    : Option CollCmd
  /-- Status of the last collective (R389). -/
  collStatus : Option Status
  bank    : List BankCmd
  /-- Weight-set pins: set and generation (R392). -/
  pins    : List (Nat × Nat)
  /-- L1 lines by line address: the bytes as they were filled (R138). -/
  l1      : Map (List Byte)
  /-- Remote accesses that have no answer yet, or whose answer has not been taken (R36). -/
  remote  : List RemoteAcc
  /-- When the cycle classes were last added to the window (R280, R282). -/
  classFrom : Nat
  /-- Breakpoints 0–3: link number, ordinal and tokens counted (R287). -/
  bps     : Map (Nat × Nat × Nat)
  deriving DecidableEq, Repr

/-! ### Values at reset and launch -/

def Fifo.reset : Fifo := { slots := [], fill := none }
def Arbour.reset : Arbour := { queue := [], front := none, back := none, backFifo := 2 }
/-- R247: at launch P = 0, A = 0, not complete, no line. -/
def Barrier.reset : Barrier := { p := 0, a := 0, complete := false, line := none, scope := .cell }
/-- R260: an unloaded term has only unused inputs. -/
def Gate.reset : Gate := { lo := 0x0000FFFFFFFFFFFF, hi := 0x0000FFFFFFFFFFFF, armed := none }
def Phase.reset : Phase where
  st := .idle
  n := 0
  entry := 0
  lmax := 0
  gap := 8
  passmax := 0
  errs := 0
  wait := []
  faultPending := 0
  parked := 0
  skip := []
  cursor := []
  errWord := []
  lastBlock := []
  watches := []
  denied := []
  nextPass := 0
def Fabric.reset : Fabric where
  links := []
  carry := []
  era := []
  marked := []
  passes := []
  sq := []
  poison := []
  rows := []
  stin := []
  stinKept := []
  stout := []
  opsDone := []
  specFills := []
def Seq.reset : Seq where
  regs := Vector.replicate 32 0
  shadows := Vector.replicate 128 0
  pc := 0
  handlerActive := false
  reports := []
  kvec := 0
  kfpc := 0
  kfcause := 0
  kfaddr := 0
  kfinfo := 0
  kdesc := 0
  kdbase := 0
  ktstride := 0
  kcycle := 0
  yielded := false
  wb := []
  deferral := none
  denied := []
def Ident.reset : Ident where
  part := 0
  vf := 0
  world := 0
  ctx := 0
  gen := 0
  tw := 0
  handle := 0
  kernel := 0
  launch := 0
/-- A cell after the zeroing of boot stage 7 (R18), before any launch. -/
def Cell.reset : Cell where
  run := .idle
  ident := Ident.reset
  code := []
  seq := Seq.reset
  bound := []
  cache := []
  phase := Phase.reset
  errDone := 0
  fabric := Fabric.reset
  lvs := []
  written := []
  scratch := []
  tiles := []
  tileWritten := []
  fifos := []
  arb := Arbour.reset
  streams := []
  nextSerial := 0
  served := []
  lastScopes := []
  barriers := []
  lines := 0
  counters := []
  timer := none
  gates := []
  gateScan := none
  kvm := []
  coll := none
  collStatus := none
  bank := []
  pins := []
  l1 := []
  remote := []
  classFrom := 0
  bps := []

end Sys2Proof.Machine
end

