-- ==== Sys2Proof/Machine/ModuleState.lean ====
section
/-! DEFINITION. The state of the module beside its cells: boot, clocks, functions and queues, partitions, worlds and
their memory, the Lodge, the pod links, and what the module has sent out, as plain data. -/

namespace Sys2Proof.Machine

/-- The boot status register (R19). -/
structure Boot where
  stage : Nat
  fail  : Bool
  unit  : Nat
  deriving DecidableEq, Repr

/-- Power and clocks (R14–R16): core clock in MHz, power limit in W, thermal pin. -/
structure Clock where
  mhz    : Nat
  limitW : Nat
  pinned : Bool
  deriving DecidableEq, Repr

/-! ### Functions and queues (R22–R27, R82–R91) -/

/-- How far a graph's node has come (R89). -/
inductive NodeSt where
  | idle | dispatched | finished
  deriving DecidableEq, Repr

/-- What a node completed with: status, cause byte and detail (R86). -/
structure NodeResult where
  status : Status
  cause  : Nat
  detail : Nat
  deriving DecidableEq, Repr

/-- A graph in progress (R85, R87, R89, R91). -/
structure Graph where
  tag       : Word
  /-- The 64 bytes of each node. -/
  nodes     : List (List Byte)
  remaining : List Nat
  st        : List NodeSt
  /-- Results of nodes that have done their work and not yet been taken by NODE_COMPLETE. -/
  results   : Map NodeResult
  failed    : Option (Nat × NodeResult)
  /-- Detail of the last node that gave one, such as a package handle (R88). -/
  detail    : Nat
  level     : Nat
  waitSince : Nat
  /-- Timebase at which each node became ready, and then at which it was dispatched (R88, R91). -/
  started   : Map Nat
  deriving DecidableEq, Repr

/-- A completion record that waits for a slot of the ring (R86): tag, QHEAD, status, failing node, cause, detail and
the timebase at completion. -/
structure Post where
  tag    : Word
  head   : Nat
  status : Status
  node   : Nat
  cause  : Nat
  detail : Nat
  time   : Nat
  deriving DecidableEq, Repr

/-- A queue with its registers (R82–R86); IDLE is the absence of a graph in progress. -/
structure Queue where
  qbase   : Word
  qcbase  : Word
  wdog    : Nat
  weight  : Nat
  logsize : Nat
  prio    : Nat
  en      : Bool
  qtail   : BitVec 16
  qhead   : BitVec 16
  ctail   : BitVec 16
  chead   : BitVec 16
  ovr     : Bool
  graph   : Option Graph
  /-- Completion records to be written, oldest first. -/
  posts   : List Post
  /-- Dispatches left in this turn of the round robin (R91). -/
  credit  : Nat
  deriving DecidableEq, Repr

/-- TDISP states (R25). -/
inductive Tdi where
  | configUnlocked | configLocked | run | error
  deriving DecidableEq, Repr

/-- A Selective IDE stream: its key, the key programmed and not yet installed, and whether it is Insecure (R24). -/
structure Ide where
  key     : Nat
  staged  : Option Nat
  insecure : Bool
  deriving DecidableEq, Repr

/-- Function 0 (the physical function) or a virtual function 1 to 16. -/
structure Func where
  enabled : Bool
  /-- 64 queues; queue 0 of function 0 is the administration queue (R76, R96). -/
  queues  : Map Queue
  /-- Queue events (R90). -/
  events  : Map Word
  vfevent : Nat
  mbaddr  : Word
  mbBusy  : Bool
  mbDone  : Bool
  mbStatus : Nat
  pauseAck : Bool
  /-- Staging memory: its partition and the physical address of each 2 MiB unit in window order (R23). -/
  stagePart : Nat
  staging : List Nat
  tdi     : Tdi
  ide     : Ide
  /-- Addresses of BAR 0 and BAR 2 (R22), and the MSI-X table location. -/
  bar0    : Word
  bar2    : Word
  msixLoc : Word
  deriving DecidableEq, Repr

/-! ### Launches and partitions (R76–R81, R92, R101–R120) -/

/-- The state of a module launch. -/
inductive LaunchSt where
  | waiting | starting | running | preempted
  deriving DecidableEq, Repr

/-- A module launch: its node, its common record (R102), its watchdog count (R92) and its saved cells (R118). -/
structure Launch where
  fn      : Nat
  q       : Nat
  node    : Nat
  vf      : Nat
  world   : Nat
  ctx     : Nat
  handle  : Nat
  kernel  : Nat
  parts   : List Nat
  gen     : W32
  tw      : Nat
  /-- Up to 16 configuration identifiers for the kernel's first blocks. -/
  configs : List W32
  args    : List Word
  /-- Watchdog budget and time used, in ns. -/
  budget  : Nat
  used    : Nat
  /-- Time held since it was last dispatched, in ns (R79). -/
  held    : Nat
  level   : Nat
  st      : LaunchSt
  started : List Nat
  /-- Save images by cell (R118), and the cells whose image holds scratch, added at a cross-world switch (R79). -/
  images  : Map Cell
  withScratch : List Nat
  /-- Core cycles in which a cell held the launch, for meter 8 (R72, R427). -/
  cycles  : Nat
  /-- A pre-emption that waits until every cell has started (R115), with its reason. -/
  wantPreempt : Option Nat
  /-- The part of a pod launch: origin module and pod generation (R37, R38). -/
  pod     : Option (Nat × Nat)
  deriving DecidableEq, Repr

/-- Where the end of a launch of a context of a world is told: the node at function, queue and index, or, for a part of a pod
launch, its origin module and generation (R37, R38, R86). -/
structure Ending where
  world : Nat
  ctx   : Nat
  fn    : Nat
  q     : Nat
  node  : Nat
  pod   : Option (Nat × Nat)
  deriving DecidableEq, Repr

/-- The partition states of R76. -/
inductive PartSt where
  | unowned | scrubbing | ready | running | resetting | destroying
  deriving DecidableEq, Repr

/-- A context of a partition (R46, R78). -/
structure Context where
  world   : Nat
  debug   : Bool
  /-- The VF's debugger is attached (R286). -/
  attached : Bool
  /-- The Bandstand took the partition while it was stopped (R288). -/
  preemptedNote : Bool
  deriving DecidableEq, Repr

/-- Trace set-up of TRACECFG (R284, R285, R98). -/
structure Trace where
  ring   : Word
  logn   : Nat
  head   : Word
  mask   : BitVec 32
  probes : List Byte
  tail   : Nat
  deriving DecidableEq, Repr

/-- The probe element of a cell of the partition, by its number 16 × y + x (R98, R285). -/
def Trace.probe (t : Trace) (i : Nat) : Nat :=
  let b := (t.probes.getD i 0).toNat
  16 * (b % 16) + b / 16

/-- A partition with its meters (R72) and its Belvedere (R279–R289). -/
structure Part where
  vf       : Nat
  lastVf   : Nat
  st       : PartSt
  gen      : Nat
  ways     : List Nat
  ctxs     : Map Context
  /-- Committed counters 0–9 and aborted counters 0–8. -/
  committed : List Nat
  aborted  : List Nat
  meterSeq : Nat
  lastScrub : Nat
  running  : Option Nat
  /-- The world whose launch last ran, while its stores stand in the cells (R79, R81). -/
  lastWorld : Option Nat
  /-- The launch that holds the partition or held it last, while it can resume (R79). -/
  lastLaunch : Option Nat
  /-- Event counters 0–15, cycle-class totals by 5 × cell index + k, and the time of the last update (R280, R281). -/
  counters : Map Word
  classTotals : Map Word
  /-- Events that the cells have not contributed yet, by 16 × cell index + i (R280). -/
  pending : Map Nat
  lastUpdate : Nat
  trace    : Option Trace
  /-- Stop number while stopped (R288), and the last number given. -/
  stop     : Option Nat
  stops    : Nat
  /-- What completes with WATCHDOG once every partition of its launch is reset (R92). -/
  resetOf  : Option Ending
  deriving DecidableEq, Repr

/-! ### Worlds (R44–R71, R129–R168) -/

/-- The world states of R44; Free is the absence of a world. -/
inductive WorldSt where
  | opened | sealing | sealed | ending
  deriving DecidableEq, Repr

/-- Page classes (R130, R134). -/
inductive PageClass where
  | norm | opd | fe | dev
  deriving DecidableEq, Repr

/-- A leaf entry (R129, R130), by the virtual address it maps from: level, physical address, class, W, G, and the
eviction version while EV = 1. -/
structure Leaf where
  level : Nat
  pa    : Nat
  cls   : PageClass
  w     : Bool
  g     : Bool
  evicted : Option Nat
  deriving DecidableEq, Repr

/-- States of a sealed-region entry (R135). -/
inductive RegionSt where
  | loading | active | retired
  deriving DecidableEq, Repr

/-- A sealed-region entry (R135). -/
structure Region where
  base   : Nat
  chunks : Nat
  set    : Nat
  gen    : Nat
  st     : RegionSt
  deriving DecidableEq, Repr

/-- A bundle policy (R54) and its digest. -/
structure Bundle where
  minVersion : Nat
  floor      : Nat
  chunks     : Nat
  root       : Nat
  kernels    : List Nat
  regions    : List (Nat × Nat × Nat)
  interval   : Nat
  digest     : Nat
  deriving DecidableEq, Repr

/-- A bundle that is loading (R44, R56): its policy and key, the state to return to, the next chunk, when the last one
came, and the LOAD_SEAL node. -/
structure Loading where
  bundle : Bundle
  key    : Nat
  prev   : WorldSt
  next   : Nat
  last   : Nat
  fn     : Nat
  q      : Nat
  node   : Nat
  deriving DecidableEq, Repr

/-- A kernel of a resident package (R57, R301): its digest, entry, code words and the block images it may bind. -/
structure Kernel where
  digest : Nat
  entry  : Nat
  code   : List W32
  codeDigest : Nat
  deriving DecidableEq, Repr

/-- A resident package (R57, R58). -/
structure Package where
  digest  : Nat
  /-- The library root its signature chains to, if it has a valid one. -/
  root    : Option Nat
  kernels : List Kernel
  blocks  : List (List Byte)
  blockDigest : Nat
  datas   : List (Nat × List Byte)
  deriving DecidableEq, Repr

/-- A segment of a package (R57, R301): its kind, the load address of a data segment, its bytes and the digest it carries. -/
inductive SegKind where
  | code | block | data
  deriving DecidableEq, Repr

structure PackageSeg where
  kind   : SegKind
  addr   : Nat
  bytes  : List Byte
  digest : Nat
  deriving DecidableEq, Repr

/-- An entry of a kernel table (R57): the bytes that the kernel digest covers, the index of its code segment, and the digest. -/
structure PackageEntry where
  bytes   : List Byte
  segment : Nat
  digest  : Nat
  deriving DecidableEq, Repr

/-- A signature block (R57): the bytes before it, the signing certificate and the two signatures. -/
structure PackageSig where
  covered : Nat
  cert    : List Byte
  ecdsa   : List Byte
  mldsa   : List Byte
  deriving DecidableEq, Repr

/-- A package in its parts (R57): kernel table, segments, the images of the block segment in order, and the signature block. -/
structure PackageParts where
  kernels : List PackageEntry
  segs    : List PackageSeg
  images  : List (List Byte)
  sig     : Option PackageSig
  deriving DecidableEq, Repr

/-- A Kwelia session (R60–R66). -/
structure Session where
  ident   : Nat
  /-- The secret prk from which the request, reply and confirm keys expand (R62); none once they are erased. -/
  keys    : Option (List Byte)
  reqCtr  : Nat
  repCtr  : Nat
  ring    : Nat
  slots   : Nat
  slotSize : Nat
  produced : Nat
  consumed : Nat
  /-- Certified replies in the hold area: epoch and record, oldest first (R70). -/
  held    : List (Nat × List Byte)
  /-- Timebase until which a request holds the session's lock (R65). -/
  lock    : Nat
  deriving DecidableEq, Repr

/-- A sequence of the KV map (R155). -/
structure KvSeq where
  len    : Nat
  k      : Nat
  table  : List Nat
  shadow : List Nat
  deriving DecidableEq, Repr

/-- An entry of the prefix index (R164). -/
structure KvPrefix where
  hash  : Word
  len   : Nat
  pages : List Nat
  deriving DecidableEq, Repr

/-- Who issued a map command: a cell for a launch, or a KVMAP node (R157). -/
inductive KvFrom where
  | cell (c launch : Nat)
  | node (fn q n : Nat)
  deriving DecidableEq, Repr

/-- A map command that has reached the Espalier's queue (R158): its source, the operation of a KVM instruction, the record's
address, and the partition and context it comes from. -/
structure KvReq where
  src  : KvFrom
  op   : Option Nat
  addr : Word
  part : Nat
  ctx  : Nat
  deriving DecidableEq, Repr

/-- A KV page map (R153–R156, R164). The free list is `free` followed by the pages from `fresh` up. -/
structure KvMap where
  units  : Nat
  pool   : Nat
  np     : Nat
  smax   : Nat
  lmax   : Nat
  x      : Nat
  seqs   : Map KvSeq
  counts : Map Nat
  holds  : Map Nat
  free   : List Nat
  fresh  : Nat
  prefixes : List KvPrefix
  deriving DecidableEq, Repr

/-- The hashes of one memory slice for one world: the stamp counter, and the read and write hashes of the current
epoch and the next (R148). -/
structure SliceHash where
  ctr : BitVec 40
  hr  : BitVec 128
  hw  : BitVec 128
  hrNext : BitVec 128
  hwNext : BitVec 128
  deriving DecidableEq, Repr

/-- The keys of a world (R45): its memory key, its ha-ha key and the seed of its Kwelia key pair. -/
structure WorldKeys where
  memory : Nat
  haha   : Nat
  kwelia : Nat
  deriving DecidableEq, Repr

/-- A world (R44–R46, R67–R71). -/
structure World where
  st      : WorldSt
  vf      : Nat
  /-- The world policy record (R67): unsigned packages allowed, home partition, sweep divisor, period in ms. -/
  unsigned : Bool
  home    : Nat
  divisor : Nat
  periodMs : Nat
  policyDigest : Nat
  /-- The world's keys; none once erased (R45). -/
  keys    : Option WorldKeys
  /-- Epochs (R69): creation time, number, start and period in force of the current one, highest closed clean. -/
  t0      : Nat
  epoch   : Nat
  epochStart : Nat
  periodNs : Nat
  clean   : Option Nat
  /-- Slices whose sweep of the previous epoch is still to pass (R148, R149). -/
  sweeping : List Nat
  hashes  : Map SliceHash
  leaves  : Map Leaf
  evictCtr : Nat
  bundle  : Option Bundle
  loading : Option Loading
  regions : List Region
  /-- Current generation of each weight set (R248). -/
  current : Map Nat
  packages : Map Package
  /-- Next package handle (R294). -/
  nextHandle : Nat
  sessions : Map Session
  kv      : Option KvMap
  kvq     : List KvReq
  /-- Pairings requested for this world: remote module and remote world (R132). -/
  pairs   : List (Nat × Nat)
  /-- Held by a firmware version below its minimum (R94). -/
  held    : Bool
  /-- Cause, detection cell, first revoked epoch and time, once Ending (R271, R272). -/
  endCause : Nat
  endCell  : Nat
  endEpoch : Nat
  endTime  : Nat
  /-- Partitions whose scrub the end still waits for. -/
  scrubs  : List Nat
  /-- Time of the last automatic meter report (R74). -/
  lastMeter : Nat
  deriving DecidableEq, Repr

/-! ### Physical memory (R125–R127, R138, R146, R148, R276) -/

/-- Who owns a physical range: a world's page, a function's staging unit, a save area, or map metadata. -/
inductive Owner where
  | world (w : Nat)
  | staging (fn : Nat)
  | saveArea (part ctx : Nat)
  | kvMeta (w : Nat)
  deriving DecidableEq, Repr

/-- A range of the owner table: base, length, owner and the page version (R146). -/
structure OwnRange where
  base  : Nat
  len   : Nat
  owner : Owner
  /-- Home partition, as named when a second-tier page was mapped (R127). -/
  home  : Nat
  version : W32
  deriving DecidableEq, Repr

/-- The tag of a resident Commons line (R138): partition and way that hold it, context, class, dirty bit and owner,
stamp and fill check. -/
structure LineTag where
  part  : Nat
  way   : Nat
  ctx   : Nat
  opd   : Bool
  fe    : Bool
  dirty : Bool
  owner : Nat
  stamp : BitVec 48
  check : BitVec 64
  deriving DecidableEq, Repr

/-- A recoverable fault that waits (R99, R131): page, world, partition, first cell, access kind, context, whether its
record is posted, its time, and every access held on it: cell, and thread if a thread's. -/
structure FaultRec where
  va     : Nat
  world  : Nat
  part   : Nat
  cell   : Nat
  kind   : Nat
  ctx    : Nat
  posted : Bool
  time   : Nat
  holders : List (Nat × Option Nat)
  /-- COPY nodes whose range waits for the page: function, queue and node. -/
  nodes   : List (Nat × Nat × Nat)
  deriving DecidableEq, Repr

/-- The fault ring registers (R96, R99). -/
structure FaultRing where
  base    : Word
  logsize : Nat
  en      : Bool
  tail    : BitVec 16
  head    : BitVec 16
  deriving DecidableEq, Repr

/-! ### The Lodge, the pod and the outside (R32–R41, R48–R52, R94, R97) -/

/-- An SPDM connection on the DOE mailbox or a pod port (R48): how far it has negotiated, its transcript, which is the bytes
of the messages so far, and its session. -/
structure Spdm where
  version    : Bool
  caps       : Bool
  algorithms : Bool
  transcript : List Byte
  handshake  : Bool
  session    : Bool
  deriving DecidableEq, Repr

/-- One pod port (R32–R34): the link session with its peer and the serials of its two keys, the flits that they have carried and
their start, whether a session must be made anew, consecutive CRC failures and retraining, the next link sequence number of
each direction, and the replay buffer, oldest first. -/
structure Link3 where
  peer     : Option Nat
  txKey    : Nat
  rxKey    : Nat
  flits    : Nat
  keyStart : Nat
  closed   : Bool
  crcFails : Nat
  retraining : Bool
  txSeq    : W32
  rxSeq    : W32
  replay   : List Flit
  deriving DecidableEq, Repr

/-- States of a pod launch at its origin (R37). -/
inductive PodSt where
  | gathering | starting | running
  deriving DecidableEq, Repr

/-- A pod launch at its origin (R37). -/
structure PodLaunch where
  fn     : Nat
  q      : Nat
  node   : Nat
  mask   : Nat
  gen    : Nat
  digest : Nat
  args   : List Word
  st     : PodSt
  since  : Nat
  t      : Nat
  ready  : List Nat
  /-- Parts that have ended: module, status, cause. -/
  parts  : List (Nat × Status × Nat)
  /-- Errored threads of the local part (R106). -/
  detail : Nat
  deriving DecidableEq, Repr

/-- A reservation at a target (R38). -/
structure Reservation where
  origin : Nat
  fn     : Nat
  gen    : Nat
  parts  : List Nat
  since  : Nat
  /-- The start time t once START has come (R39). -/
  t      : Option Nat
  /-- The package digest of PREPARE, and the node and arguments that came with START. -/
  digest : Nat
  node   : List Byte
  args   : List Word
  deriving DecidableEq, Repr

/-- Pod state (R35, R37–R39). -/
structure Pod where
  /-- `kmod`: this module's number (R31). -/
  self    : Nat
  members : List PodMember
  routes  : List (Nat × Nat)
  ports   : Map Link3
  launch  : Option PodLaunch
  reservations : List Reservation
  /-- Highest pod generation started, by VF (R38). -/
  highest : Map Nat
  /-- Offset to the anchor's timebase (R39). -/
  offset  : Int
  /-- `LDFE`s of other modules that wait at this module's slices: the module, its cell and the word (R141). -/
  deferred : List (Nat × Nat × Nat)
  /-- Flits for which no route carries traffic now, oldest first (R33). -/
  waiting : List Flit
  deriving DecidableEq, Repr

/-- A firmware image staged by FW_STAGE (R94): version and digest. -/
structure FwImage where
  version : Nat
  digest  : Nat
  deriving DecidableEq, Repr

/-- States of a firmware update (R94). -/
inductive FwSt where
  | running | pausing | quiesced | activating
  deriving DecidableEq, Repr

/-- A mailbox request as the Lodge took it at submission (R97): function, buffer address, code and body. -/
structure MbReq where
  fn   : Nat
  addr : Word
  code : Nat
  body : List Byte
  deriving DecidableEq, Repr

/-- The keys that the Lodge holds from boot (R18, R45, R52, R147): the device identity key, the alias key, the sealing seed of the
firmware's version, the memory-encryption root key, and the ha-ha root key of the module's own traffic. -/
structure LodgeKeys where
  identity : Nat
  alias_   : Nat
  seed     : List Byte
  memory   : Nat
  haha     : Nat
  deriving DecidableEq, Repr

/-- The Lodge: firmware, keys, SPDM connections, mailbox order and records (R45, R48–R52, R71, R94, R97). -/
structure Lodge where
  fwVersion : Nat
  fwDigest  : Nat
  romDigest : Nat
  gardenerDigest : Nat
  /-- The keys made at boot (R45); none when erased. -/
  keys      : Option LodgeKeys
  spdm      : Map Spdm
  /-- Outstanding requests in mailbox order (R97). -/
  inbox     : List MbReq
  /-- Measurement responses of worlds that a verifier's nonce has bound, newest first: world, nonce and response (R49, R62). -/
  evidence  : List (Nat × Nat × List Byte)
  revocations : List (List Byte)
  /-- World-end records by VF not yet read by WORLDEND (R272, R98). -/
  worldEnds : List (Nat × List Byte)
  staged    : Option FwImage
  fw        : FwSt
  fwSince   : Nat
  fwNode    : Option (Nat × Nat × Nat)
  /-- Library roots in force, by VF (R49, R55). -/
  roots     : Map (List Nat)
  /-- The last page version given by a MAP (R146). -/
  pageVersion : W32
  deriving DecidableEq, Repr

/-- Values PF 0 sets with SET_POLICY (R79, R91, R94, R171). -/
structure Policy where
  escalationUs : Nat
  quantumUs    : Nat
  quiesceUs    : Nat
  scopeWord    : Word
  deriving DecidableEq, Repr

/-- What the module has sent to the outside, oldest first. -/
inductive Out where
  | msix (fn vec : Nat)
  | spdm (port : Nat) (reply : List Byte)
  | tdisp (fn : Nat) (reply : List Byte)
  | meterReport (part : Nat) (report : List Byte)
  /-- A flit on a pod port, its payload encrypted under the key of this serial (R32, R34). -/
  | flit (port key : Nat) (f : Flit)
  | hostData (fn : Nat) (data : List Byte)
  | configData (fn : Nat) (v : W32)
  /-- Configuration Request Retry Status (R20). -/
  | configRetry (fn : Nat)
  | unsupported (fn : Nat)
  deriving DecidableEq, Repr

/-- The cell, site and output that the step in hand concerns. -/
structure Focus where
  cell : Nat
  site : Nat
  out  : Nat
  deriving DecidableEq, Repr

/-- What the schedule lets happen next: a sequencer's next instruction, a firing or route of an element, any other
step of the table, the passing of time, the loss of a cached line, a write at another module, or what the peer of a pod port
does with a flit. -/
inductive Move where
  | seq (cell : Nat)
  | fire (cell site : Nat)
  | route (cell site out : Nat)
  | event (i : Instr)
  | elapse (ns : Nat)
  | evictL1 (cell line : Nat)
  | evictLine (line : Nat)
  | remoteWrite (pa : Nat) (data : List Byte)
  /-- The peer of a pod port has taken its oldest flit, or asks for it once more (R33). -/
  | flitTaken (port : Nat)
  | flitRetry (port : Nat)
  /-- A single fault in an SRAM store, or in HBM, has been corrected (R274). -/
  | corrected (hbm : Bool)
  deriving DecidableEq, Repr

end Sys2Proof.Machine
end

