-- ==== Sys2Proof/Config.lean ====
section
/-! DEFINITION. What one machine fixes and the spec does not: free values and uninterpreted functions. None has a body,
so nothing can be proved of a value. -/

namespace Sys2Proof.Config

open Sys2Proof.Machine

/-! ### Free values (log 3) -/

/-- The value of a quantity that the spec leaves open, for the n-th time one is taken. -/
opaque freeNat : Nat → Nat

/-! ### Placement the spec leaves open (R138, log 15) -/

/-- The slice (taken modulo 48) that the hash of R138 gives a line. -/
opaque sliceHash : Nat → Nat
/-- The set within a slice's way (taken modulo 4,096). -/
opaque setHash : Nat → Nat
/-- Which of the candidate ways the pseudo-LRU replacement takes, by free count. -/
opaque victim : Nat → Nat

/-- The page of the page-table area that holds a table: world, level, index of the range that it maps (R129). -/
opaque tablePage : Nat → Nat → Nat → Nat

/-! ### Cryptography (R45–R73, R146–R152, log 13) -/

/-- SHA-384 of some bytes, and HMAC-SHA-384 of a key and a message. -/
opaque sha384 : List Byte → BitVec 384
opaque hmac384 : List Byte → List Byte → BitVec 384
/-- The multiset-hash term of a line (R148): integrity key, address, stamp, value and presence bits. -/
opaque mh : Nat → Nat → BitVec 48 → List Byte → List Bool → BitVec 128
/-- Byte i of the key stream of AES-256-GCM for a key and a nonce, and the tag over associated data and ciphertext. -/
opaque gcmStream : Nat → Nat → Nat → Byte
opaque gcmTag : Nat → Nat → List Byte → List Byte → BitVec 128
/-- AES-256-XTS of one 64-byte line, byte by byte: key, tweak, plaintext (R146). -/
opaque xtsByte : Nat → Nat → List Byte → Nat → Byte
/-- Byte i of the AES-256 counter-mode stream of a counter block: key, flow and flow counter (R147). -/
opaque ctrStream : Nat → Nat → Nat → Nat → Byte
/-- The n-th fresh key (R18, R45). -/
opaque freshKey : Nat → Nat
/-- The integrity key that derives from a world memory key (R148). -/
opaque integrityKey : Nat → Nat
/-- What die 0's fuses hold: the seed of the device identity key and seed(255) of the sealing chain (R45, R52). -/
opaque deviceKey : Nat
opaque fuseSeed : List Byte
/-- The label under which HKDF derives the sealing key pair from a seed (R52), and the KEM identifier of the hybrid KEM (R53). -/
opaque sealLabel : List Byte
opaque kemIdent : List Byte
/-- The shared secrets of ML-KEM-1024 and X25519: key, ciphertext or public key (R53, R62). -/
opaque mlkemSecret : Nat → List Byte → List Byte
opaque x25519Secret : Nat → List Byte → List Byte
/-- Byte i of an ML-KEM-1024 and of an X25519 public key: key. -/
opaque mlkemPublicByte : Nat → Nat → Byte
opaque x25519PublicByte : Nat → Nat → Byte
/-- Byte i of an ECDSA P-384 signature over SHA-384 of a message and of an ML-DSA-87 signature with a context string. -/
opaque ecdsaByte : Nat → List Byte → Nat → Byte
opaque mldsaByte : Nat → List Byte → List Byte → Nat → Byte
/-- Whether an ECDSA P-384 and an ML-DSA-87 signature verify under a certificate: certificate, digest, signature. -/
opaque ecdsaOk : List Byte → BitVec 384 → List Byte → Bool
opaque mldsaOk : List Byte → BitVec 384 → List Byte → Bool
/-- The certificates of slot 0 (R48): the Nuold root, the device identity of a key, and the alias of a key with the Lodge firmware
digest and security version; and the ML-DSA-87 chain of an alias key. -/
opaque rootCertificate : List Byte
opaque identityCertificate : Nat → List Byte
opaque aliasCertificate : Nat → Nat → Nat → List Byte
opaque mldsaChain : Nat → List Byte

/-! ### Formats whose bytes the spec does not lay out (log 14) -/

/-- The parts of a Sopel package as its header, kernel table, segments and signature block lay them out (R57); none when they do
not. -/
opaque packageParts : List Byte → Option PackageParts
/-- The library root that a signing certificate chains to, by its digest (R57, R58). -/
opaque chainedRoot : List Byte → Option Nat
/-- A firmware image that verifies against the Nuold root key (R94). -/
opaque parseFirmware : List Byte → Option FwImage
/-- An SPDM request and a response whose layout the spec does not give: message code and the data that it carries. -/
opaque spdmRequest : Nat → List Nat → List Byte
opaque spdmReply : Nat → List Nat → List Byte

/-! ### Other modules -/

/-- Whether the home module of a remote page grants an access: page, class of the leaf, time (R443, log 18). -/
opaque homeGrants : Nat → Nat → Nat → Bool
/-- The lowest Lodge firmware security version that this module takes for a link session (R34). -/
opaque peerMinimum : Nat

/-! ### Arithmetic -/

/-- The rounding of a function value whose enclosure does not decide it: function, argument, mode (R203). -/
opaque undecided : Nat → W32 → Nat → W32

end Sys2Proof.Config
end

