-- ==== Sys2Proof/Machine/Maps.lean ====
section
/-! DEFINITION. Addressed lists: lookup, replacement and removal, and the canonical form in which no entry equals the
default. Every register bank, store and table of the model is read and written through these. -/

namespace Sys2Proof.Machine

/-- The entry at a key. -/
def Map.get? {α : Type} : Map α → Nat → Option α
  | [], _ => none
  | (j, v) :: r, k => if j = k then some v else Map.get? r k

/-- The entry at a key, or what an unlisted key reads as. -/
def Map.get {α : Type} (d : α) (m : Map α) (k : Nat) : α := (Map.get? m k).getD d

/-- Remove a key. -/
def Map.erase {α : Type} (m : Map α) (k : Nat) : Map α := m.filter fun e => e.1 != k

/-- Insert into a list that rises, before the first greater key. -/
def Map.insert {α : Type} (k : Nat) (v : α) : Map α → Map α
  | [] => [(k, v)]
  | (j, w) :: r => if k < j then (k, v) :: (j, w) :: r else (j, w) :: Map.insert k v r

/-- Put an entry at a key. -/
def Map.put {α : Type} (m : Map α) (k : Nat) (v : α) : Map α := Map.insert k v (Map.erase m k)

/-- Write an entry, keeping no entry that equals the default. -/
def Map.set {α : Type} [DecidableEq α] (d : α) (m : Map α) (k : Nat) (v : α) : Map α :=
  if v = d then Map.erase m k else Map.put m k v

/-- Change the entry at a key. -/
def Map.modify {α : Type} (d : α) (m : Map α) (k : Nat) (f : α → α) : Map α := Map.put m k (f (Map.get d m k))

/-- Addresses strictly rising, and no entry equal to the default. -/
def Map.wf {α : Type} [DecidableEq α] (d : α) : Map α → Bool
  | [] => true
  | [(_, v)] => v ≠ d
  | (j, v) :: (k, w) :: r => decide (v ≠ d) && decide (j < k) && Map.wf d ((k, w) :: r)

/-- Write a list of entries from a key up. -/
def Map.setList {α : Type} [DecidableEq α] (d : α) (m : Map α) (k : Nat) : List α → Map α
  | [] => m
  | v :: r => Map.setList d (Map.set d m k v) (k + 1) r

/-- Read n entries from a key up. -/
def Map.getList {α : Type} (d : α) (m : Map α) (k : Nat) : Nat → List α
  | 0 => []
  | n + 1 => Map.get d m k :: Map.getList d m (k + 1) n

/-! ### Little-endian values (R3) -/

/-- The number that bytes hold, lowest first. -/
def leNat : List Byte → Nat
  | [] => 0
  | b :: r => b.toNat + 256 * leNat r

/-- The n low bytes of a number, lowest first. -/
def leBytes (n v : Nat) : List Byte :=
  match n with
  | 0 => []
  | k + 1 => BitVec.ofNat 8 v :: leBytes k (v / 256)

/-- n bytes of `l` from offset `o`, as a number; missing bytes read 0. -/
def leAt (l : List Byte) (o n : Nat) : Nat := leNat ((l.drop o).take n)

/-- Whether n bytes of `l` from offset `o` are all zero. -/
def zeroAt (l : List Byte) (o n : Nat) : Bool := leAt l o n == 0

/-- `f 0`, …, `f (n − 1)` in a list. -/
def tabulate {α : Type} (n : Nat) (f : Nat → α) : List α := (List.range n).map f

/-- The lines that a range of virtual addresses touches. -/
def lineStarts (va len : Nat) : List Nat :=
  if len = 0 then [] else tabulate ((va + len - 1) / 64 - va / 64 + 1) fun i => max va ((va / 64 + i) * 64)

/-- Insert before the first element that it does not follow. -/
def insertBy {α : Type} (le : α → α → Bool) (x : α) : List α → List α
  | [] => [x]
  | y :: r => if le x y then x :: y :: r else y :: insertBy le x r

/-- A stable sort. -/
def sortBy {α : Type} (le : α → α → Bool) (l : List α) : List α := l.foldr (insertBy le) []

/-- ⌈a ÷ b⌉. -/
def ceilDiv (a b : Nat) : Nat := (a + b - 1) / b

end Sys2Proof.Machine
end

