-- ==== Sys2Proof/Machine/CellOps.lean ====
section
/-! DEFINITION. Operations on one cell: registers and shadows (R302, R325), FIFOs, barriers, events, the abandoning of a
pass and the restoring of Arbour tiles (R117). -/

namespace Sys2Proof.Machine

/-! ### Codes -/

/-- The cause codes of R262. -/
def Cause.code : Cause → Nat
  | .ill => 0x01 | .align => 0x02 | .xlate => 0x03 | .perm => 0x04 | .opd => 0x05 | .fedup => 0x06 | .scope => 0x07
  | .format => 0x08 | .combo => 0x09 | .config => 0x0A | .sealFail => 0x0B | .integ => 0x0C | .version => 0x0D
  | .mchk => 0x0E | .watchdog => 0x0F | .soft => 0x10 | .stream => 0x11 | .barrier => 0x12 | .preempt => 0x13
  | .debug => 0x14

/-- The status codes of R100. -/
def Status.code : Status → Nat
  | .ok => 0x00 | .busy => 0x01 | .policy => 0x02 | .sealFail => 0x03 | .tag => 0x04 | .replay => 0x05
  | .length => 0x06 | .closed => 0x07 | .full => 0x08 | .limit => 0x09 | .timeout => 0x0A | .malformed => 0x10
  | .nopart => 0x11 | .missing => 0x12 | .stale => 0x13 | .unreachable => 0x14 | .noway => 0x15 | .overrun => 0x16
  | .short => 0x17 | .error => 0x20 | .watchdog => 0x21 | .ended => 0x22 | .destroyed => 0x23

/-- The status that a code names; an unused code reads as ERROR. -/
def Status.ofCode (n : Nat) : Status :=
  ([Status.ok, .busy, .policy, .sealFail, .tag, .replay, .length, .closed, .full, .limit, .timeout, .malformed, .nopart, .missing,
    .stale, .unreachable, .noway, .overrun, .short, .error, .watchdog, .ended, .destroyed].find? fun x => x.code == n).getD .error

/-- The security causes, which end the world (R262, R271). -/
def Cause.isSecurity : Cause → Bool
  | .opd | .sealFail | .integ | .version => true
  | _ => false

/-! ### Registers (R302, R325) -/

/-- A register read: `s0` reads zero. -/
def Cell.reg (c : Cell) (r : Reg) : Word := if r = 0 then 0 else c.seq.regs[r.toNat]

/-- Shadow k (1 ≤ k ≤ 4) of a register; shadows of `s0` read zero. -/
def Cell.shadow (c : Cell) (r : Reg) (k : Nat) : Word :=
  if r = 0 then 0 else c.seq.shadows.getD (4 * r.toNat + (k - 1)) 0

/-- The T shadows of a register. -/
def Cell.tangents (c : Cell) (r : Reg) : List Word := tabulate c.ident.tw fun k => c.shadow r (k + 1)

/-- Write shadow k of a register. -/
def Cell.setShadow (c : Cell) (r : Reg) (k : Nat) (v : Word) : Cell :=
  if r = 0 then c
  else { c with seq := { c.seq with shadows := c.seq.shadows.setIfInBounds (4 * r.toNat + (k - 1)) v } }

/-- Write the shadows k, k + 1, … of a register. -/
def Cell.setShadows (c : Cell) (r : Reg) (k : Nat) : List Word → Cell
  | [] => c
  | v :: vs => (c.setShadow r k v).setShadows r (k + 1) vs

/-- Write a register and leave its shadows; a write of `s0` is discarded. -/
def Cell.putReg (c : Cell) (r : Reg) (v : Word) : Cell :=
  if r = 0 then c else { c with seq := { c.seq with regs := c.seq.regs.set r.toNat v } }

/-- A register write of an instruction without the prefix: the shadows become zero (R325). -/
def Cell.setReg (c : Cell) (r : Reg) (v : Word) : Cell := (c.putReg r v).setShadows r 1 [0, 0, 0, 0]

/-- A register write of a dual instruction, with its tangents (R325). -/
def Cell.setRegDual (c : Cell) (r : Reg) (v : Word) (ts : List Word) : Cell := (c.putReg r v).setShadows r 1 ts

/-- Move the program counter on by n bytes. -/
def Cell.advance (c : Cell) (n : Nat) : Cell := { c with seq := { c.seq with pc := c.seq.pc + BitVec.ofNat 64 n } }

/-- Where the code segment begins (R301, R324). -/
def codeBase : Word := 0x10000

/-- An address lies in the code segment (R324). -/
def Cell.inCode (c : Cell) (a : Word) : Bool :=
  decide (codeBase.toNat ≤ a.toNat) && decide (a.toNat < codeBase.toNat + 4 * c.code.length)

/-- The code word at an address, 0 outside the segment. -/
def Cell.codeWord (c : Cell) (a : Word) : W32 := c.code.getD ((a.toNat - codeBase.toNat) / 4) 0

/-! ### Events, counters and barriers (R247, R258, R259) -/

/-- An event on a line: the flag is set and each counter with that source line rises by one, saturating (R259). -/
def Cell.pulse (c : Cell) (line : Nat) : Cell :=
  { c with
    lines := c.lines ||| BitVec.ofNat 32 (2 ^ line)
    counters := c.counters.map fun e =>
      (e.1, if e.2.line = line then { e.2 with count := min 65535 (e.2.count + 1) } else e.2) }

/-- Line n is set. -/
def Cell.lineSet (c : Cell) (n : Nat) : Bool := c.lines.getLsbD n

/-- Counter i is reached; an unloaded counter never is (R259). -/
def Cell.reached (c : Cell) (i : Nat) : Bool :=
  match Map.get? c.counters i with
  | some k => decide (k.threshold ≤ k.count)
  | none => false

def Cell.barrier (c : Cell) (b : Nat) : Barrier := Map.get Barrier.reset c.barriers b
def Cell.setBarrier (c : Cell) (b : Nat) (v : Barrier) : Cell :=
  { c with barriers := Map.set Barrier.reset c.barriers b v }

/-- The scopes from narrow to wide (R170), and the wider of two. -/
def scopeRank : Scope → Nat
  | .cell => 0 | .part => 1 | .dev => 2 | .pod => 3
def widerScope (a b : Scope) : Scope := if scopeRank a < scopeRank b then b else a

/-- An acquire of a scope in a cell: PART or wider empties its L1, CELL does not (R178). -/
def Cell.acquire (c : Cell) (sc : Scope) : Cell := if sc = .cell then c else { c with l1 := [] }

/-- An engine's completion pulses its event line. What the command wrote must not be hidden behind an older L1 line once the
line has been observed, so it acquires at the command's scope (R186, R188). -/
def Cell.pulseDone (c : Cell) (line : Nat) (sc : Scope := .part) : Cell := (c.pulse line).acquire sc

/-- After P or A of a barrier has been lowered: if both are 0 the barrier completes and pulses its line (R247). -/
def Cell.barrierLowered (c : Cell) (b : Nat) (v : Barrier) : Cell :=
  if v.p = 0 ∧ v.a = 0 then
    let c := c.setBarrier b { v with complete := true }
    match v.line with
    | some l => c.pulseDone l v.scope
    | none => c
  else c.setBarrier b v

/-- Landing, or subtraction of undelivered bytes: P falls by n (R247). -/
def Cell.barrierLand (c : Cell) (bar : Option Nat) (n : Nat) : Cell :=
  match bar with
  | none => c
  | some b =>
    let v := c.barrier b
    if n = 0 ∨ v.complete then c else c.barrierLowered b { v with p := v.p - n }

/-- Whether n more bytes may be declared on a barrier: BARRIER if it is complete or P would pass 2^56 − 1 (R247). -/
def Cell.barrierMayAdd (c : Cell) (b n : Nat) : Bool :=
  let v := c.barrier b
  !v.complete && decide (v.p + n ≤ 2 ^ 56 - 1)

/-- Declare n more bytes, that an agent of a scope will land (R186, R247). -/
def Cell.barrierAdd (c : Cell) (bar : Option Nat) (n : Nat) (sc : Scope := .part) : Cell :=
  match bar with
  | none => c
  | some b =>
    let v := c.barrier b
    c.setBarrier b { v with p := v.p + n, scope := widerScope v.scope sc }

/-- Bytes added back after pre-emption: not a new issue, and nothing to a complete barrier (R247, R437). -/
def Cell.barrierGiveBack (c : Cell) (bar : Option Nat) (n : Nat) : Cell :=
  match bar with
  | none => c
  | some b => if (c.barrier b).complete then c else c.barrierAdd (some b) n .cell

/-- An arrival may be made: BARRIER if A = 0 or the barrier is complete (R247). -/
def Cell.mayArrive (c : Cell) (b : Nat) : Bool :=
  let v := c.barrier b
  !v.complete && decide (v.a ≠ 0)

/-- `BARRIVE` and `BARV`: A falls by one (R247). -/
def Cell.arrive (c : Cell) (b : Nat) : Cell :=
  let v := c.barrier b
  c.barrierLowered b { v with a := v.a - 1 }

/-! ### FIFOs, tiles, scratch -/

def Cell.fifo (c : Cell) (q : Nat) : Fifo := Map.get Fifo.reset c.fifos q
def Cell.setFifo (c : Cell) (q : Nat) (f : Fifo) : Cell := { c with fifos := Map.set Fifo.reset c.fifos q f }

/-- Scratch bytes from an address (R123). -/
def Cell.scratchRead (c : Cell) (a n : Nat) : List Byte := Map.getList 0 c.scratch a n
def Cell.scratchWrite (c : Cell) (a : Nat) (l : List Byte) : Cell := { c with scratch := Map.setList 0 c.scratch a l }

def tileKey (t row col : Nat) : Nat := 12288 * t + 96 * row + col
/-- A tile row of 96 words (R249). -/
def Cell.tileRow (c : Cell) (t row : Nat) : List W32 := Map.getList 0 c.tiles (tileKey t row 0) 96
def Cell.setTileRow (c : Cell) (t row : Nat) (l : List W32) : Cell :=
  { c with
    tiles := Map.setList 0 c.tiles (tileKey t row 0) l
    tileWritten := if c.tileWritten.contains t then c.tileWritten else t :: c.tileWritten }

/-! ### Live slots (R228, R229) -/

/-- The LVS word of slot s, word k of thread i: R228's byte divided by 4. -/
def Cell.lvsIndex (c : Cell) (i s k : Nat) : Nat := (i * (c.phase.lmax + 1) + s) * (1 + c.ident.tw) + k

def Cell.writtenMask (c : Cell) (i : Nat) : BitVec 64 := Map.get 0 c.written i

/-- Slot s of thread i with its tangents: zeros when its mask bit is clear (R229). -/
def Cell.liveSlot (c : Cell) (i s : Nat) : List W32 :=
  if (c.writtenMask i).getLsbD s then Map.getList 0 c.lvs (c.lvsIndex i s 0) (1 + c.ident.tw)
  else List.replicate (1 + c.ident.tw) 0

def Cell.setLiveSlot (c : Cell) (i s : Nat) (l : List W32) : Cell :=
  { c with
    lvs := Map.setList 0 c.lvs (c.lvsIndex i s 0) (l.take (1 + c.ident.tw))
    written := Map.set 0 c.written i (c.writtenMask i ||| BitVec.ofNat 64 (2 ^ s)) }

/-! ### Thread sets (R109, R110) -/

def bitOn (v : BitVec 4096) (i : Nat) : BitVec 4096 := v ||| BitVec.ofNat 4096 (2 ^ i)
def bitOff (v : BitVec 4096) (i : Nat) : BitVec 4096 := v &&& ~~~ BitVec.ofNat 4096 (2 ^ i)
def bitsOff (v : BitVec 4096) (l : List Nat) : BitVec 4096 := l.foldl bitOff v

def Phase.waitOf (p : Phase) (b : Nat) : BitVec 4096 := Map.get 0 p.wait b

/-- A thread begins to wait at a block. -/
def Phase.enqueue (p : Phase) (b i : Nat) : Phase :=
  { p with wait := Map.set 0 p.wait b (bitOn (p.waitOf b) i), lastBlock := Map.put p.lastBlock i b }

/-- Set or clear a fault-pending mark (R112). -/
def Phase.markFault (p : Phase) (i : Nat) : Phase := { p with faultPending := bitOn p.faultPending i }
def Phase.clearFault (p : Phase) (i : Nat) : Phase := { p with faultPending := bitOff p.faultPending i }

/-- The error word of R234. -/
def errWordOf (detail : BitVec 16) (block : Nat) (cause : Nat) : W32 :=
  (detail ++ 0#2 ++ BitVec.ofNat 6 block ++ BitVec.ofNat 8 cause : BitVec (16 + 2 + 6 + 8))

/-- Park a thread at a block: its word tells the block and the cause, 0 without an error; with one the error count rises
(R233, R234). -/
def Phase.park (p : Phase) (i block : Nat) (err : Option (BitVec 16 × Cause)) : Phase :=
  { p with
    parked := bitOn p.parked i, faultPending := bitOff p.faultPending i
    errWord := Map.put p.errWord i (match err with
      | none => errWordOf 0 block 0
      | some (d, cz) => errWordOf d block cz.code)
    errs := if err.isSome then p.errs + 1 else p.errs }

/-- Park threads for one reason. -/
def Phase.parkAll (p : Phase) (l : List Nat) (block : Nat → Nat) (err : Option (BitVec 16 × Cause)) : Phase :=
  l.foldl (fun p i => p.park i (block i) err) p

/-- The block at which a thread waits, or waited last. -/
def Phase.blockOf (p : Phase) (i : Nat) : Nat := Map.get 0 p.lastBlock i

/-- The unparked threads, ascending. -/
def Phase.unparked (p : Phase) : List Nat := (List.range p.n).filter fun i => !p.parked.getLsbD i

/-- The waiting, not fault-pending threads of a block, ascending (R110, R112). -/
def Phase.ready (p : Phase) (b : Nat) : List Nat :=
  (List.range p.n).filter fun i => (p.waitOf b).getLsbD i && !p.faultPending.getLsbD i

def Cell.withPhase (c : Cell) (f : Phase → Phase) : Cell := { c with phase := f c.phase }
def Cell.withFabric (c : Cell) (f : Fabric → Fabric) : Cell := { c with fabric := f c.fabric }
def Cell.withSeq (c : Cell) (f : Seq → Seq) : Cell := { c with seq := f c.seq }

/-! ### Abandoning a pass, restoring tiles (R117, R182, R255) -/

/-- The threads of a pass that are in flight. -/
def Pass.inFlight (p : Pass) : List Nat := p.threads.filter fun i => !p.gone.contains i

/-- Give the tokens that the ports gave out in abandoned passes back to the ports, in order; their bytes join the barriers
again (R418). -/
def Cell.giveBackStin (c : Cell) (lost : Nat → Bool) : Cell :=
  let back := c.fabric.stinKept.filter fun e => lost e.1
  let c := back.foldl (fun c e => c.barrierGiveBack e.2.2.bar e.2.2.bytes) c
  { c with fabric := { c.fabric with
      stin := back.foldr (fun e m => Map.put m e.2.1 ({ e.2.2 with mode := .again } :: Map.get [] m e.2.1)) c.fabric.stin
      stinKept := c.fabric.stinKept.filter fun e => !lost e.1 } }

/-- The threads in flight in the fabric. -/
def Fabric.inFlight (f : Fabric) : List Nat := f.passes.flatMap Pass.inFlight

/-- The fabric with every pass abandoned: no token, queue entry, poison report, reservation or carry is left. -/
def Fabric.abandoned (f : Fabric) : Fabric :=
  { f with links := [], carry := [], era := [], marked := [], passes := [], sq := [], poison := [], opsDone := [], specFills := [] }

/-- Abandon every pass as pre-emption does: each uncommitted thread waits again at its block, not fault-pending. -/
def Cell.abandonPasses (c : Cell) : Cell :=
  let c := c.giveBackStin fun _ => true
  let back := c.fabric.passes.flatMap fun p => p.inFlight.map fun i => (p.image.block, i)
  { c with
    phase := { back.foldl (fun p e => p.enqueue e.1 e.2) c.phase with nextPass := 0 }
    fabric := c.fabric.abandoned }

/-- Element operations of the tokens that an abandoned fabric loses, for the aborted meter (R72). -/
def Fabric.lostOps (f : Fabric) : Nat := f.opsDone.foldl (fun n e => n + e.2) 0

/-- Write shadowed rows back. -/
def Cell.restoreRows (c : Cell) (l : List ShadowRow) : Cell :=
  l.foldl (fun c r => { c with tiles := Map.setList 0 c.tiles (tileKey r.tile r.row 0) r.vals }) c

/-- Put taken slots back at the head of their FIFOs, in order. -/
def Cell.returnSlots (c : Cell) (l : List (Nat × FifoSlot)) : Cell :=
  l.foldr (fun e c => c.setFifo e.1 { c.fifo e.1 with slots := e.2 :: (c.fifo e.1).slots }) c

def ArbOp.fresh (o : ArbOp) : ArbOp :=
  { o with started := false, rows := 0, beats := 0, groups := 0, bTaken := 0, shadow := [], eaten := [], bBefore := none }

/-- Undo an operation in flight: its tile rows, its slots and the B halves stand as before its start (R117, R255). -/
def Cell.undoArb (c : Cell) (o : ArbOp) : Cell :=
  let c := (c.restoreRows o.shadow).returnSlots o.eaten
  match o.bBefore with
  | some (f, b) => { c with arb := { c.arb with front := f, back := b } }
  | none => c

/-- Undo every operation in flight, youngest first; all replay from their starts in issue order. -/
def Cell.restoreArbour (c : Cell) : Cell :=
  let q := c.arb.queue
  let c := (q.filter (·.started)).foldr (fun o c => c.undoArb o) c
  { c with arb := { c.arb with queue := q.map ArbOp.fresh } }

end Sys2Proof.Machine
end

