-- ==== Sys2Proof/Machine/Crypto.lean ====
section
/-! DEFINITION. The cryptography that the rules put together from the primitives of Config (R45 to R48, R52, R53, R56, R57,
R62, R63, R71, R73, R146, R147, R151): digests, HKDF, AES-GCM records, HPKE, signatures, line and flit ciphers. -/

namespace Sys2Proof.Machine

/-! ### Digests and HKDF (R53, R62, log 13) -/

/-- The 48 bytes of a digest. -/
def digestBytes (d : BitVec 384) : List Byte := leBytes 48 d.toNat

/-- The bytes of an ASCII string. -/
def ascii (s : String) : List Byte := s.toList.map fun c => BitVec.ofNat 8 c.toNat

/-- HKDF-Extract with SHA-384. -/
def hkdfExtract (salt ikm : List Byte) : List Byte := digestBytes (Config.hmac384 salt ikm)

/-- Block i of HKDF-Expand with SHA-384. -/
def hkdfBlock (prk info : List Byte) : Nat → List Byte
  | 0 => []
  | i + 1 => digestBytes (Config.hmac384 prk (hkdfBlock prk info i ++ info ++ leBytes 1 (i + 1)))

/-- HKDF-Expand with SHA-384 to n bytes. -/
def hkdfExpand (prk info : List Byte) (n : Nat) : List Byte :=
  ((List.range (ceilDiv n 48)).flatMap fun i => hkdfBlock prk info (i + 1)).take n

/-! ### AES-256-GCM (R56, R63, R151) -/

/-- Bytes under the key stream of a key and a nonce: plaintext to ciphertext and back. -/
def gcmCrypt (key nonce : Nat) (l : List Byte) : List Byte := l.mapIdx fun i b => b ^^^ Config.gcmStream key nonce i

/-- The ciphertext and the tag of a plaintext. -/
def gcmSeal (key nonce : Nat) (aad plain : List Byte) : List Byte × BitVec 128 :=
  let c := gcmCrypt key nonce plain
  (c, Config.gcmTag key nonce aad c)

/-- The plaintext of a ciphertext whose tag verifies. -/
def gcmOpen (key nonce : Nat) (aad body : List Byte) (tag : BitVec 128) : Option (List Byte) :=
  if Config.gcmTag key nonce aad body = tag then some (gcmCrypt key nonce body) else none

/-! ### Sealing (R52, R53) -/

/-- seed(v − k) from seed(v): each step down the chain is one SHA-384. -/
def seedBelow (seed : List Byte) : Nat → List Byte
  | 0 => seed
  | k + 1 => digestBytes (Config.sha384 (seedBelow seed k))

/-- seed(v), as the mask ROM hands it to firmware of version v. -/
def seedOf (v : Nat) : List Byte := seedBelow Config.fuseSeed (255 - v)

/-- The secret of the ML-KEM-1024 and X25519 sealing key pair of a seed. -/
def sealingKey (seed : List Byte) : Nat := leNat (hkdfExpand (hkdfExtract [] seed) Config.sealLabel 96)

/-- The 1,568 and 32 bytes of the public keys of a key pair. -/
def publicKeys (key : Nat) : List Byte := tabulate 1568 (Config.mlkemPublicByte key) ++ tabulate 32 (Config.x25519PublicByte key)

/-- The shared secret of the hybrid KEM for an encapsulation. -/
def kemSecret (key : Nat) (enc : List Byte) : List Byte :=
  let ct := enc.take 1568
  let pk := (enc.drop 1568).take 32
  hkdfExtract (ascii "nq hybrid kem") (Config.mlkemSecret key ct ++ Config.x25519Secret key pk ++ ct ++ pk)

/-- The suite of RFC 9180: the KEM, KDF HKDF-SHA-384 and AEAD AES-256-GCM. -/
def hpkeSuite : List Byte := ascii "HPKE" ++ Config.kemIdent ++ [0, 2, 0, 2]

/-- LabeledExtract and LabeledExpand of RFC 9180. -/
def hpkeExtract (salt : List Byte) (label : String) (ikm : List Byte) : List Byte :=
  hkdfExtract salt (ascii "HPKE-v1" ++ hpkeSuite ++ ascii label ++ ikm)
def hpkeExpand (prk : List Byte) (label : String) (info : List Byte) (n : Nat) : List Byte :=
  hkdfExpand prk ((leBytes 2 n).reverse ++ ascii "HPKE-v1" ++ hpkeSuite ++ ascii label ++ info) n

/-- The 32 bytes that base mode opens under one sealing key, with the policy digest as associated data and no info. -/
def hpkeOpenWith (key : Nat) (enc cipher aad : List Byte) : Option (List Byte) :=
  let context := 0 :: hpkeExtract [] "psk_id_hash" [] ++ hpkeExtract [] "info_hash" []
  let secret := hpkeExtract (kemSecret key enc) "secret" []
  gcmOpen (leNat (hpkeExpand secret "key" context 32)) (leNat (hpkeExpand secret "base_nonce" context 12)) aad (cipher.take 32)
    (BitVec.ofNat 128 (leAt cipher 32 16))

/-- The bundle key: firmware of version v reaches the sealing keys of v and of every lower version (R52). -/
def hpkeOpen (seed : List Byte) (v : Nat) (enc cipher : List Byte) (digest : BitVec 384) : Option Nat :=
  (List.range (v + 1)).findSome? fun k =>
    (hpkeOpenWith (sealingKey (seedBelow seed k)) enc cipher (digestBytes digest)).map leNat

/-! ### Keys (R45, R62, R148, R151) -/

def Lodge.aliasKey (l : Lodge) : Nat := (l.keys.map (·.alias_)).getD 0

/-- The digest of the module's identity certificate (R35, R71, R73). -/
def Lodge.identityDigest (l : Lodge) : BitVec 384 := Config.sha384 (Config.identityCertificate ((l.keys.map (·.identity)).getD 0))

/-- Certificate slot 0 (R48). -/
def Lodge.chain (l : Lodge) : List Byte :=
  Config.rootCertificate ++ Config.identityCertificate ((l.keys.map (·.identity)).getD 0)
    ++ Config.aliasCertificate l.aliasKey l.fwDigest l.fwVersion

/-- Measurement 0x07 (R49). -/
def Lodge.sealingPublic (l : Lodge) : List Byte := publicKeys (sealingKey ((l.keys.map (·.seed)).getD []))

def World.memoryKey (v : World) : Nat := (v.keys.map (·.memory)).getD 0
def World.kweliaKey (v : World) : Nat := (v.keys.map (·.kwelia)).getD 0
/-- The integrity key of a world (R148). -/
def World.integrityKey (v : World) : Nat := Config.integrityKey v.memoryKey
/-- The eviction key of a world (R151). -/
def World.evictKey (v : World) : Nat := leNat (hkdfExpand (leBytes 64 v.memoryKey) (ascii "nq evict") 32)

/-- The secret prk of a session (R62). -/
def sessionSecret (key : Nat) (evidence record : List Byte) : List Byte :=
  hkdfExtract (digestBytes (Config.sha384 (evidence ++ record)))
    (Config.mlkemSecret key ((record.drop 8).take 1568) ++ Config.x25519Secret key ((record.drop 1576).take 32))

def requestKey (prk : List Byte) : Nat := leNat (hkdfExpand prk (ascii "kwelia req") 32)
def replyKey (prk : List Byte) : Nat := leNat (hkdfExpand prk (ascii "kwelia rep") 32)
def confirmKey (prk : List Byte) : List Byte := hkdfExpand prk (ascii "kwelia cfm") 32
def sessionIdent (prk : List Byte) : Nat := leNat (hkdfExpand prk (ascii "kwelia id") 8)

/-! ### Signatures (R71, R73) -/

/-- A record with its ECDSA and ML-DSA signatures, the latter with a context string. -/
def signRecord (key : Nat) (context body : List Byte) : List Byte :=
  body ++ tabulate 96 (Config.ecdsaByte key body) ++ tabulate 4627 (Config.mldsaByte key context body)

/-! ### Packages (R57, R301) -/

/-- The kernel digest: its table entry, then the digests of its code segment, the block segment and every data segment. -/
def kernelDigest (p : PackageParts) (e : PackageEntry) : BitVec 384 :=
  let of (k : SegKind) := p.segs.filter fun x => x.kind = k
  Config.sha384 (e.bytes ++ ((p.segs[e.segment]?).toList ++ of .block ++ of .data).flatMap fun x => leBytes 48 x.digest)

/-- The words of a code segment. -/
def codeWords (l : List Byte) : List W32 := tabulate (l.length / 4) fun i => BitVec.ofNat 32 (leAt l (4 * i) 4)

/-- The library root of a package whose two signatures over SHA-384 of everything before the block verify (R57). -/
def signedRoot (l : List Byte) (g : PackageSig) : Option Nat :=
  let d := Config.sha384 (l.take g.covered)
  if Config.ecdsaOk g.cert d g.ecdsa && Config.mldsaOk g.cert d g.mldsa then Config.chainedRoot g.cert else none

/-- A well-formed package: its magic, every segment with its digest, one block segment at most, which is its images, every kernel
with a code segment of at most 256 KiB and its digest; a signature block that is there verifies (R57, R301). -/
def parsePackage (l : List Byte) : Option Package :=
  (Config.packageParts l).bind fun p =>
    let blocks := p.segs.filter fun x => x.kind = .block
    let good := l.take 4 == ascii "SOPL" && decide (64 ≤ l.length)
      && (p.segs.all fun x => (Config.sha384 x.bytes).toNat == x.digest)
      && decide (blocks.length ≤ 1) && p.images.flatten == blocks.flatMap (fun x => x.bytes)
      && (p.kernels.all fun e => (kernelDigest p e).toNat == e.digest
        && (p.segs[e.segment]?).any fun x => x.kind = .code && decide (x.bytes.length ≤ 262144))
      && p.sig.all fun g => (signedRoot l g).isSome
    if good then some {
      digest := (Config.sha384 l).toNat
      root := p.sig.bind (signedRoot l)
      kernels := p.kernels.map fun e =>
        let x := p.segs.getD e.segment { kind := .code, addr := 0, bytes := [], digest := 0 }
        { digest := e.digest, entry := codeBase.toNat, code := codeWords x.bytes, codeDigest := x.digest }
      blocks := p.images
      blockDigest := (Config.sha384 p.images.flatten).toNat
      datas := (p.segs.filter fun x => x.kind = .data).map fun x => (x.addr, x.bytes) }
    else none

end Sys2Proof.Machine
end

