-- ==== Sys2Proof/Machine/State.lean ====
section
/-! DEFINITION. The machine state of the NQ-7260, its faults and refusals, and the state after reset. -/

namespace Sys2Proof.Machine

/-- Reasons for which a step stops with a fault. The spec gives every happening of the module a next state (a trap, a
status, a world end), so no step raises one: the type is empty, which is safe. -/
inductive Fault where
  deriving DecidableEq, Repr

/-- Reasons for which a step is refused. -/
inductive Refusal where
  /-- Raised by the dispatcher for an instruction that has no meaning yet. Safe: the machine stops where hardware goes
  on. -/
  | notModelled (mnemonic : String)
  deriving DecidableEq, Repr

/-- The whole module. -/
structure State where
  boot     : Boot
  /-- Module timebase in ns (R14). -/
  timebase : Nat
  clock    : Clock
  /-- Functions 0 to 16 (R21). -/
  funcs    : Map Func
  /-- The virtual function served last (R91). -/
  lastVf   : Nat
  /-- Hypervisor counters (R96). -/
  hyper    : Map Word
  fring    : FaultRing
  faults   : List FaultRec
  parts    : Map Part
  launches : Map Launch
  nextLaunch : Nat
  worlds   : Map World
  lodge    : Lodge
  policy   : Policy
  pod      : Pod
  /-- HBM, Orangery, second tier and remote bytes by 52-bit physical address (R30); an unlisted byte is 0 (R18). -/
  mem      : List Host.Cell
  /-- Host memory reached by DMA (R26). -/
  hostMem  : List Host.Cell
  /-- The owner table (R23, R125, R146). -/
  owners   : List OwnRange
  /-- 16 KiB physical pages that hold bytes written by `SUNSEAL` (R131). -/
  opdBacked : List Nat
  /-- Full words of FE pages by word address (R140). -/
  full     : Map Bool
  /-- Stamps of world lines by line number (R148). -/
  stamps   : Map (BitVec 48)
  /-- Resident Commons lines by line number (R138). -/
  lines    : Map LineTag
  /-- Flits that each flow of the on-die network has carried, its counter of the ha-ha cipher (R147). -/
  flows    : Map Nat
  /-- Retired 64 KiB groups, in order of retirement (R50, R276). -/
  retired  : List Nat
  /-- Quarantined ways in order: die, slice, way, partition (R50, R276). -/
  quarantined : List (Nat × Nat × Nat × Nat)
  /-- Installed second-tier capacity of each CXL port, in bytes, and ports that are down (R28, R29). -/
  cxl0     : Nat
  cxl1     : Nat
  cxlDown  : List Nat
  /-- Bandstands (0–3) and gardener cores (4–7) that reload their image (R275). -/
  reloading : List Nat
  cells    : Map Cell
  out      : List Out
  /-- The model's own schedule of what happens next. -/
  agenda   : List Move
  /-- The model's own count of free values taken. -/
  free     : Nat
  focus    : Focus
  deriving DecidableEq, Repr

/-- A queue register block after reset (R83, R84). -/
def Queue.reset : Queue where
  qbase := 0
  qcbase := 0
  wdog := 0
  weight := 1
  logsize := 4
  prio := 3
  en := false
  qtail := 0
  qhead := 0
  ctail := 0
  chead := 0
  ovr := false
  graph := none
  posts := []
  credit := 0

/-- A function after reset. -/
def Func.reset : Func where
  enabled := false
  queues := []
  events := []
  vfevent := 0
  mbaddr := 0
  mbBusy := false
  mbDone := false
  mbStatus := 0
  pauseAck := false
  stagePart := 0
  staging := []
  tdi := .configUnlocked
  ide := { key := 0, staged := none, insecure := false }
  bar0 := 0
  bar2 := 0
  msixLoc := 0

/-- A partition after reset: Unowned (R18, R76). -/
def Part.reset : Part where
  vf := 0
  lastVf := 0
  st := .unowned
  gen := 0
  ways := []
  ctxs := []
  committed := List.replicate 10 0
  aborted := List.replicate 9 0
  meterSeq := 0
  lastScrub := 0
  running := none
  lastWorld := none
  lastLaunch := none
  counters := []
  classTotals := []
  pending := []
  lastUpdate := 0
  trace := none
  stop := none
  stops := 0
  resetOf := none

def SliceHash.reset : SliceHash := { ctr := 0, hr := 0, hw := 0, hrNext := 0, hwNext := 0 }
def Spdm.reset : Spdm :=
  { version := false, caps := false, algorithms := false, transcript := [], handshake := false, session := false }
def Link3.reset : Link3 :=
  { peer := none, txKey := 0, rxKey := 0, flits := 0, keyStart := 0, closed := false, crcFails := 0, retraining := false
    txSeq := 0, rxSeq := 0, replay := [] }
def Pod.reset : Pod :=
  { self := 0, members := [], routes := [], ports := [], launch := none, reservations := [], highest := [],
    offset := 0, deferred := [], waiting := [] }
def Lodge.reset : Lodge where
  fwVersion := 0
  fwDigest := 0
  romDigest := 0
  gardenerDigest := 0
  keys := none
  spdm := []
  inbox := []
  evidence := []
  revocations := []
  worldEnds := []
  staged := none
  fw := .running
  fwSince := 0
  fwNode := none
  roots := []
  pageVersion := 0

/-- The module right after a cold reset: boot stage 1 runs (R17–R19), no partition exists, and nothing is listed in
memory. -/
def State.reset : State where
  boot := { stage := 1, fail := false, unit := 0 }
  timebase := 0
  clock := { mhz := 1600, limitW := 2800, pinned := false }
  funcs := []
  lastVf := 0
  hyper := []
  fring := { base := 0, logsize := 4, en := false, tail := 0, head := 0 }
  faults := []
  parts := []
  launches := []
  nextLaunch := 1
  worlds := []
  lodge := Lodge.reset
  policy := { escalationUs := 2000, quantumUs := 10000, quiesceUs := 500000, scopeWord := 0 }
  pod := Pod.reset
  mem := []
  hostMem := []
  owners := []
  opdBacked := []
  full := []
  stamps := []
  lines := []
  flows := []
  retired := []
  quarantined := []
  cxl0 := 0
  cxl1 := 0
  cxlDown := []
  reloading := []
  cells := []
  out := []
  agenda := []
  free := 0
  focus := { cell := 0, site := 0, out := 0 }

end Sys2Proof.Machine
end

