-- ==== Sys2Proof/Machine/Ops.lean ====
section
/-! DEFINITION. The named operations over the module's state: accessors, physical, host and staging memory, outputs,
counters and trace, the end of a launch and of a world, and taking a trap and returning from it (R266 to R268). -/

namespace Sys2Proof.Machine

/-! ### Accessors -/

def State.cell (s : State) (n : Nat) : Cell := Map.get Cell.reset s.cells n
def State.setCell (s : State) (n : Nat) (c : Cell) : State := { s with cells := Map.put s.cells n c }
def State.onCell (s : State) (n : Nat) (f : Cell → Cell) : State := s.setCell n (f (s.cell n))
/-- The cell whose step this is. -/
def State.cur (s : State) : Cell := s.cell s.focus.cell
def State.setCur (s : State) (c : Cell) : State := s.setCell s.focus.cell c
def State.onCur (s : State) (f : Cell → Cell) : State := s.setCur (f s.cur)

def State.part (s : State) (p : Nat) : Part := Map.get Part.reset s.parts p
def State.setPart (s : State) (p : Nat) (v : Part) : State := { s with parts := Map.put s.parts p v }
def State.onPart (s : State) (p : Nat) (f : Part → Part) : State := s.setPart p (f (s.part p))

def State.func (s : State) (f : Nat) : Func := Map.get Func.reset s.funcs f
def State.setFunc (s : State) (f : Nat) (v : Func) : State := { s with funcs := Map.put s.funcs f v }
def State.onFunc (s : State) (n : Nat) (f : Func → Func) : State := s.setFunc n (f (s.func n))
def Func.queue (f : Func) (q : Nat) : Queue := Map.get Queue.reset f.queues q
def State.queue (s : State) (f q : Nat) : Queue := (s.func f).queue q
def State.setQueue (s : State) (f q : Nat) (v : Queue) : State :=
  s.onFunc f fun x => { x with queues := Map.put x.queues q v }
def State.onQueue (s : State) (f q : Nat) (g : Queue → Queue) : State := s.setQueue f q (g (s.queue f q))

def State.world? (s : State) (w : Nat) : Option World := Map.get? s.worlds w
def State.setWorld (s : State) (w : Nat) (v : World) : State := { s with worlds := Map.put s.worlds w v }
def State.onWorld (s : State) (w : Nat) (f : World → World) : State :=
  match s.world? w with
  | none => s
  | some v => s.setWorld w (f v)

def State.onLodge (s : State) (f : Lodge → Lodge) : State := { s with lodge := f s.lodge }
def State.onPod (s : State) (f : Pod → Pod) : State := { s with pod := f s.pod }

/-- Cell number of partition cell index i of partition p (R9). -/
def cellOf (p i : Nat) : Nat :=
  let q := p % 4
  let row := i / 6 + (if q ≥ 2 then 4 else 0)
  let col := i % 6 + (if q % 2 = 1 then 6 else 0)
  (p / 4) * 96 + row * 12 + col

/-- Partition number of a cell (R9). -/
def partOfCell (n : Nat) : Nat :=
  let l := n % 96
  (n / 96) * 4 + (if l / 12 ≥ 4 then 2 else 0) + (if l % 12 ≥ 6 then 1 else 0)

/-- Partition cell index of a cell (R9). -/
def cellIndex (n : Nat) : Nat := ((n % 96 / 12) % 4) * 6 + (n % 12) % 6

/-- The 24 cells of a partition in ascending partition cell index. -/
def cellsOfPart (p : Nat) : List Nat := tabulate 24 (cellOf p)

/-- Take one free value (log 3). -/
def State.takeFree (s : State) : Nat × State := (Config.freeNat s.free, { s with free := s.free + 1 })

/-! ### Outputs (R27, R95) -/

def State.emit (s : State) (o : Out) : State := { s with out := s.out ++ [o] }
/-- Signal an MSI-X vector of a function. -/
def State.signal (s : State) (fn vec : Nat) : State := s.emit (.msix fn vec)

/-! ### Physical, host and staging memory (R23, R26, R30) -/

/-- The byte at a physical address. -/
def readMem (m : List Host.Cell) (a : Nat) : Byte := Map.get 0 m a
/-- Write bytes from a physical address up. -/
def writeMem (m : List Host.Cell) (a : Nat) (l : List Byte) : List Host.Cell := Map.setList 0 m a l
def readBytes (m : List Host.Cell) (a n : Nat) : List Byte := Map.getList 0 m a n
/-- The canonical form of a memory: addresses strictly rising, and no entry equal to what an unlisted address reads as. -/
def Memory.wf (m : List Host.Cell) : Bool := Map.wf 0 m

/-- A value of n bytes at a physical address, little-endian (R3). -/
def State.load (s : State) (a n : Nat) : Nat := leNat (readBytes s.mem a n)
def State.store (s : State) (a : Nat) (l : List Byte) : State := { s with mem := writeMem s.mem a l }

/-- Where a packet or register address lies: staging memory of the function at a physical address, or host memory;
none when it names neither (R23). -/
inductive DevAddr where
  | staging (pa : Nat)
  | host (a : Nat)
  deriving DecidableEq, Repr

/-- Resolve one byte address of a function (R23). -/
def Func.resolve (f : Func) (a : Word) : Option DevAddr :=
  if a.extractLsb' 60 4 = 0xF then
    if a.extractLsb' 28 32 = 0 then
      let off := (a.extractLsb' 0 28).toNat
      match f.staging[off / 0x200000]? with
      | some base => some (.staging (base + off % 0x200000))
      | none => none
    else none
  else some (.host a.toNat)

/-- The n bytes at a packet or register address; none where some byte is outside the function's memory. -/
def State.devRead (s : State) (fn : Nat) (a : Word) : Nat → Option (List Byte)
  | 0 => some []
  | n + 1 =>
    match (s.func fn).resolve a, s.devRead fn (a + 1) n with
    | some (.staging pa), some r => some (readMem s.mem pa :: r)
    | some (.host h), some r => some (readMem s.hostMem h :: r)
    | _, _ => none

/-- Whether n bytes at a packet or register address lie in the function's memory. -/
def State.devOk (s : State) (fn : Nat) (a : Word) (n : Nat) : Bool := (s.devRead fn a n).isSome

/-- Write bytes at a packet or register address, as far as they resolve. -/
def State.devWrite (s : State) (fn : Nat) (a : Word) : List Byte → State
  | [] => s
  | b :: r =>
    let s' := match (s.func fn).resolve a with
      | some (.staging pa) => { s with mem := writeMem s.mem pa [b] }
      | some (.host h) => { s with hostMem := writeMem s.hostMem h [b] }
      | none => s
    s'.devWrite fn (a + 1) r

/-! ### Pod flits (R32 to R36) -/

/-- A pod port. -/
def State.link (s : State) (port : Nat) : Link3 := Map.get Link3.reset s.pod.ports port
def State.onLink (s : State) (port : Nat) (f : Link3 → Link3) : State :=
  s.onPod fun p => { p with ports := Map.put p.ports port (f (Map.get Link3.reset p.ports port)) }

/-- A port carries traffic: its link session is in force and it does not retrain (R33, R34). -/
def State.linkOpen (s : State) (port : Nat) : Bool :=
  let l := s.link port
  l.peer.isSome && !l.closed && !l.retraining

/-- The first port that carries traffic on a route to a module (R35). -/
def State.routeTo (s : State) (m : Nat) : Option Nat := (s.pod.routes.find? fun r => r.1 == m && s.linkOpen r.2).map (·.2)

/-- Send a flit out of a port: under the key and the next sequence number of its session, and kept for replay (R32 to R34). -/
def State.transmit (s : State) (port : Nat) (f : Flit) : State :=
  let l := s.link port
  let f := { f with seq := l.txSeq }
  (s.onLink port fun l => { l with txSeq := l.txSeq + 1, flits := l.flits + 1, replay := l.replay ++ [f] }).emit
    (.flit port l.txKey f)

/-- Send a flit towards its destination, or keep it until a route carries traffic (R33, R35). -/
def State.sendFlit (s : State) (f : Flit) : State :=
  match s.routeTo f.dest with
  | some port => s.transmit port f
  | none => s.onPod fun p => { p with waiting := p.waiting ++ [f] }

/-- Send the flits that wait for a route, as far as routes carry traffic again. -/
def State.sendWaiting (s : State) : State :=
  s.pod.waiting.foldl State.sendFlit (s.onPod fun p => { p with waiting := [] })

/-- A flit of this module; its type and virtual channel are open (log 28). -/
def State.newFlit (s : State) (dest : Nat) (body : FlitBody) : Flit :=
  { crcOk := true, tagOk := true, kind := 0, vc := 0, dest := dest, src := s.pod.self, seq := 0, body := body }

/-- Send a message of a pod launch to a module (R37, R38). -/
def State.tellPod (s : State) (m : Nat) (msg : PodMsg) : State := s.sendFlit (s.newFlit m (.pod msg))

/-! ### Counters, meters and trace (R72, R96, R281, R283, R284) -/

/-- Add to a hypervisor counter; vector 4 signals a counter whose bit 63 becomes set (R96). -/
def State.hyperAdd (s : State) (i n : Nat) : State :=
  let old := Map.get 0 s.hyper i
  let new := old + BitVec.ofNat 64 n
  let s := { s with hyper := Map.set 0 s.hyper i new }
  if !old.msb && new.msb then s.signal 0 4 else s

/-- The sum over every partition of Belvedere event counter i, as hypervisor counter 64 + i shows it (R96). -/
def State.eventSum (s : State) (i : Nat) : Word := s.parts.foldl (fun n p => n + Map.get 0 p.2.counters i) 0

/-- What a hypervisor counter reads (R96). -/
def State.hyperWord (s : State) (i : Nat) : Word :=
  if 64 ≤ i ∧ i < 80 then s.eventSum (i - 64) else Map.get 0 s.hyper i

/-- Add to Belvedere event counter i of a partition; vector 4 signals a sum whose bit 63 becomes set (R96, R281). -/
def State.countEvent (s : State) (p i n : Nat) : State :=
  let t := s.onPart p fun v =>
    { v with counters := Map.set 0 v.counters i (Map.get 0 v.counters i + BitVec.ofNat 64 n), lastUpdate := s.timebase }
  if !(s.eventSum i).msb && (t.eventSum i).msb then t.signal 0 4 else t

/-- An event of cell n waits with the cell's contribution, until a pass of the cell ends or the cell halts (R280). -/
def State.countCell (s : State) (n i k : Nat) : State :=
  s.onPart (partOfCell n) fun v => { v with
    pending := Map.set 0 v.pending (16 * cellIndex n + i) (Map.get 0 v.pending (16 * cellIndex n + i) + k) }

/-- The contribution of cell n is added in one step (R280). -/
def State.flushCell (s : State) (n : Nat) : State :=
  let p := partOfCell n
  let mine := (s.part p).pending.filter fun e => e.1 / 16 == cellIndex n
  let s := s.onPart p fun v => { v with
    pending := v.pending.filter fun e => e.1 / 16 != cellIndex n, lastUpdate := s.timebase }
  mine.foldl (fun s e => s.countEvent p (e.1 % 16) e.2) s

/-- Saturating addition to a meter counter (R72). -/
def meterAdd (l : List Nat) (i n : Nat) : List Nat := l.set i (min (2 ^ 64 - 1) (l.getD i 0 + n))

/-- Add to a committed meter of a partition. -/
def State.meter (s : State) (p i n : Nat) : State := s.onPart p fun v => { v with committed := meterAdd v.committed i n }
/-- Add to an aborted meter of a partition. -/
def State.meterLost (s : State) (p i n : Nat) : State := s.onPart p fun v => { v with aborted := meterAdd v.aborted i n }

/-- Write a trace record of a partition and a context, or drop it and count event 15 when the ring is full or absent (R283,
R284). -/
def State.traceOf (s : State) (p ctx kind cell flags : Nat) (payload : List Byte) : State :=
  let v := s.part p
  match v.trace with
  | none => s.countEvent p 15 1
  | some t =>
    let head := match s.devRead v.vf t.head 8 with
      | some l => leNat l
      | none => 0
    if t.tail - head ≥ 2 ^ t.logn then s.countEvent p 15 1
    else
      let bytes := leBytes 8 s.timebase ++ leBytes 1 kind ++ leBytes 1 p ++ leBytes 2 cell ++ leBytes 1 ctx
        ++ leBytes 1 flags ++ leBytes 2 0 ++ ((payload ++ List.replicate 48 0).take 48)
      let s := s.devWrite v.vf (t.ring + BitVec.ofNat 64 (64 * (t.tail % 2 ^ t.logn))) bytes
      s.onPart p fun v => { v with trace := some { t with tail := t.tail + 1 } }

/-- A trace record of the context that runs on a partition. -/
def State.trace (s : State) (p kind cell flags : Nat) (payload : List Byte) : State :=
  let ctx := match (s.part p).running with
    | some l => ((Map.get? s.launches l).map (·.ctx)).getD 0
    | none => 0
  s.traceOf p ctx kind cell flags payload

/-- A secondary error stands in the Belvedere only; the cell is 0xFFFF where no cell is named (R268, R278, R283). -/
def State.secondary (s : State) (p ctx cell : Nat) (cause : Cause) : State :=
  s.traceOf p ctx 8 cell 0 (leBytes 8 cause.code ++ leBytes 8 cell)

/-! ### Nodes and launches (R86, R89, R106, R268) -/

/-- Record what a node that has not finished completed with; NODE_COMPLETE takes it (R89). -/
def Graph.put (g : Graph) (n : Nat) (r : NodeResult) : Graph :=
  match g.st[n]? with
  | some .idle | some .dispatched => { g with st := g.st.set n .dispatched, results := Map.put g.results n r }
  | _ => g

/-- The same for a node of a queue. -/
def State.finishNode (s : State) (fn q n : Nat) (r : NodeResult) : State :=
  s.onQueue fn q fun v => { v with graph := v.graph.map fun g => g.put n r }

/-- Node with a plain status. -/
def State.finishStatus (s : State) (fn q n : Nat) (st : Status) (detail : Nat := 0) : State :=
  s.finishNode fn q n { status := st, cause := 0, detail := detail }

/-! ### KV holds and weight-set generations (R156, R168, R248) -/

/-- Page n of a map loses a hold; with none left and no reference it is pushed onto the free list (R156). -/
def KvMap.unhold (m : KvMap) (n : Nat) : KvMap :=
  let h := Map.get 0 m.holds n - 1
  let m := { m with holds := Map.set 0 m.holds n h }
  if h = 0 ∧ Map.get 0 m.counts n = 0 then { m with free := n :: m.free } else m

/-- End the holds of a stream's snapshot (R168). -/
def State.endHolds (s : State) (w : Nat) (snap : Option KvSnap) : State :=
  match snap with
  | none => s
  | some k => s.onWorld w fun v => { v with kv := v.kv.map fun m => k.pages.foldl KvMap.unhold m }

/-- Whether a pin or an issued or armed stream of a cell of the world binds a generation of a set (R248). -/
def State.genBound (s : State) (w set gen : Nat) : Bool :=
  let uses (c : Cell) := c.ident.world = w &&
    (c.pins.contains (set, gen) || c.streams.any fun e => e.2.cmd.wgen == some (set, gen))
  s.cells.any (fun e => uses e.2) || s.launches.any fun l => l.2.images.any fun e => uses e.2

/-- Active regions whose generation is not current and which nothing binds become retired (R135, R248). -/
def State.settleGens (s : State) (w : Nat) : State :=
  s.onWorld w fun v =>
    { v with regions := v.regions.map fun r =>
        if r.st = .active ∧ Map.get? v.current r.set ≠ some r.gen ∧ s.genBound w r.set r.gen = false
        then { r with st := .retired } else r }

/-! ### Ending a launch (R37, R92 steps 1 and 2, R268) -/

def Launch.ending (l : Launch) : Ending := { world := l.world, ctx := l.ctx, fn := l.fn, q := l.q, node := l.node, pod := l.pod }

/-- A pod node completes once every part has ended: OK, or the status of the lowest-numbered module whose part did not (R37). -/
def State.podSettle (s : State) : State :=
  match s.pod.launch with
  | none => s
  | some p =>
    if p.st = .running ∧ (List.range 64).all (fun m => !p.mask.testBit m || p.parts.any fun e => e.1 == m) then
      let bad := (List.range 64).findSome? fun m => p.parts.find? fun e => e.1 == m && e.2.1 != .ok
      let r : NodeResult := match bad with
        | none => { status := .ok, cause := 0, detail := p.detail }
        | some e => { status := e.2.1, cause := e.2.2, detail := 0 }
      (s.onPod fun v => { v with launch := none }).finishNode p.fn p.q p.node r
    else s

/-- Record the end of a module's part of the pod launch that starts here (R37); the first record of a module stands. -/
def State.podPart (s : State) (m : Nat) (st : Status) (cause detail : Nat) : State :=
  (s.onPod fun v => { v with launch := v.launch.map fun p =>
    if (p.parts.any fun e => e.1 == m) then p
    else { p with parts := p.parts ++ [(m, st, cause)], detail := if m = v.self then detail else p.detail } }).podSettle

/-- Tell the end of a launch (R37, R38, R86). -/
def State.launchEnded (s : State) (e : Ending) (st : Status) (cause detail : Nat) : State :=
  match e.pod with
  | none => s.finishNode e.fn e.q e.node { status := st, cause := cause, detail := detail }
  | some (origin, gen) =>
    if origin = s.pod.self then s.podPart origin st cause detail
    else s.tellPod origin (.done gen st.code cause)

/-- What a discarded launch leaves in a cell: its stores, with Arbour tiles restored, and nothing running. -/
def Cell.discard (c : Cell) : Cell :=
  let c := c.restoreArbour
  { Cell.reset with scratch := c.scratch, tiles := c.tiles, lvs := c.lvs, fifos := c.fifos, bps := c.bps }

/-- MACs of a row by format class (R72, R249). -/
def macsPerRow (cls : Nat) : Nat := if cls = 0 then 12288 else if cls = 1 then 24576 else 6144

/-- The format class in a matrix control word (R251). -/
def ctlClass (ctl : Word) : Nat := (ctl.extractLsb' 9 2).toNat

/-- Add the rows that a cell's unfinished products have consumed to the aborted meters of its partition (R72). -/
def State.loseMacs (s : State) (p : Nat) (c : Cell) : State :=
  c.arb.queue.foldl (fun s o =>
    match o.kind with
    | .mma | .mmag => s.meterLost p (ctlClass o.ctl) (o.beats * macsPerRow (ctlClass o.ctl))
    | _ => s) s

/-- Add the bytes of requests whose elements will not land to the aborted meters. Which bytes an aborted stream's work is, is
open: the model takes those, and leaves out the fills of index 5, which count when they happen (R72, log 28). -/
def State.loseFetched (s : State) (l : List Fetched) : State :=
  l.foldl (fun s f => f.cost.foldl (fun s x => s.meterLost x.1 x.2.1 x.2.2) s) s

/-- Add the requests in flight of a cell's streams to the aborted meters (R72). -/
def State.loseStreams (s : State) (c : Cell) : State := c.streams.foldl (fun s e => s.loseFetched e.2.inflight) s

/-- Add a cell's unfinished work to the aborted meters of its partition (R72). -/
def State.loseWork (s : State) (p : Nat) (c : Cell) : State := ((s.meterLost p 3 c.fabric.lostOps).loseMacs p c).loseStreams c

/-- A cell's accesses no longer wait on their faults: the sequencer's alone, or its threads' too. -/
def State.dropHolders (s : State) (n : Nat) (threads : Bool) : State :=
  { s with faults := s.faults.map fun f =>
      { f with holders := f.holders.filter fun h => !(h.1 == n && (threads || h.2.isNone)) } }

/-- Discard the cells of a partition that a launch holds. -/
def State.discardPart (s : State) (p : Nat) : State :=
  (cellsOfPart p).foldl (fun s n =>
    let c := s.cell n
    if c.run = .idle then s
    else
      let s := ((s.loseWork p c).countCell n 2 c.fabric.inFlight.length).flushCell n
      let s := c.streams.foldl (fun s e => s.endHolds c.ident.world e.2.cmd.snap) s
      ((s.setCell n c.discard).dropHolders n true).settleGens c.ident.world) s

/-- A partition that no launch holds or waits for is Ready (R76). -/
def State.settlePart (s : State) (p : Nat) : State :=
  if (s.part p).st = .running ∧ (s.part p).running.isNone ∧ !(s.launches.any fun l => l.2.parts.contains p) then
    s.onPart p fun v => { v with st := .ready }
  else s

/-- Stop and discard a launch, running or saved: its work goes to the aborted meters, its partitions are free (R92
steps 1 and 2, R427). -/
def State.discardLaunch (s : State) (id : Nat) : State :=
  match Map.get? s.launches id with
  | none => s
  | some l =>
    let s := l.parts.foldl (fun s p =>
      if (s.part p).running = some id then
        (s.discardPart p).onPart p fun v => { v with running := none, lastLaunch := none, stop := none }
      else s) s
    let s := l.parts.foldl (fun s p => s.meterLost p 8 l.cycles) s
    let s := l.images.foldl (fun s e =>
      let s := s.loseWork (partOfCell e.1) e.2
      e.2.streams.foldl (fun s x => s.endHolds l.world x.2.cmd.snap) s) s
    let s : State := { s with launches := Map.erase s.launches id }
    (l.parts.foldl State.settlePart s).settleGens l.world

/-- End a launch and complete its node (R106, R268, R272). -/
def State.endLaunch (s : State) (id : Nat) (st : Status) (cause : Nat) : State :=
  match Map.get? s.launches id with
  | none => s
  | some l => (s.discardLaunch id).launchEnded l.ending st cause 0

/-- A cell that is due to end its launch: a report waits, no handler is set, and none runs (R266 to R268). -/
def Cell.endsWith (c : Cell) : Option Cause :=
  if c.run = .running ∧ c.seq.kvec = 0 ∧ c.seq.handlerActive = false then c.seq.reports.head?.map (·.cause) else none

/-- A program error without a handler ends the launch of the focus cell (R268); what other cells of it are due to end it with
stands in the Belvedere only. A cell that no launch record holds only stops. -/
def State.endLaunchOf (s : State) (n : Nat) (cause : Cause) : State :=
  let id := (s.cell n).ident.launch
  match Map.get? s.launches id with
  | none => s.onCell n Cell.discard
  | some l =>
    let s := (l.parts.flatMap cellsOfPart).foldl (fun s m =>
      match if m = n then none else (s.cell m).endsWith with
      | none => s
      | some cz => s.secondary (partOfCell m) l.ctx m cz) s
    s.endLaunch id .error cause.code

/-! ### Traps (R264 to R268) -/

/-- The `kfinfo` word of R265. -/
def kfinfoOf (async : Bool) (unit index : Nat) (detail : W32) : Word :=
  (bitOf async ++ 0#7 ++ BitVec.ofNat 8 unit ++ BitVec.ofNat 8 index ++ 0#8 ++ detail
    : BitVec (1 + 7 + 8 + 8 + 8 + 32))

/-- Enter the handler: the saved registers are written and the pc goes to `kvec` (R266). -/
def Cell.enterHandler (c : Cell) (at_ : Word) (cause : Cause) (addr info : Word) : Cell :=
  c.withSeq fun q =>
    { q with kfpc := at_, kfcause := BitVec.ofNat 64 cause.code, kfaddr := addr, kfinfo := info,
             handlerActive := true, pc := q.kvec }

/-- `take_trap` for a precise cause in cell n: the handler at `kvec`, or the end of the launch (R266, R268). -/
def State.takeTrap (s : State) (n : Nat) (cause : Cause) (addr : Word) (info : W32) : State :=
  let c := s.cell n
  if c.seq.kvec = 0 ∨ c.seq.handlerActive = true then s.endLaunchOf n cause
  else s.setCell n (c.enterHandler c.seq.pc cause addr (kfinfoOf false 0 0 info))

/-- An asynchronous report: written to the Belvedere, counted, and queued for the next boundary; a 17th waiting report
ends the launch (R264, R267). -/
def State.report (s : State) (n : Nat) (r : Report) : State :=
  let c := s.cell n
  let p := partOfCell n
  let s := s.countCell n 5 1
  let s := s.trace p 3 n 0 (leBytes 8 r.cause.code ++ leBytes 8 r.info.toNat ++ leBytes 8 r.addr.toNat)
  let waiting := c.seq.reports.length - (if c.seq.handlerActive then 0 else 1)
  if waiting ≥ 16 then s.endLaunchOf n r.cause
  else s.onCell n fun c => c.withSeq fun q => { q with reports := q.reports ++ [r] }

/-- Delivery at an instruction boundary (R266, R267): the oldest report waits while the handler runs; it enters the handler,
or ends the launch when no handler is set. -/
def State.deliverReport (s : State) (n : Nat) : State :=
  let c := s.cell n
  match c.seq.reports with
  | [] => s
  | r :: rest =>
    if c.seq.handlerActive then s
    else if c.seq.kvec = 0 then s.endLaunchOf n r.cause
    else
      let c := c.withSeq fun q => { q with reports := rest }
      s.setCell n (c.enterHandler c.seq.pc r.cause r.addr r.info)

/-- `KRET` once its checks have passed: handler_active falls and the pc is `kfpc` (R266, R355). -/
def Cell.returnFromHandler (c : Cell) : Cell :=
  c.withSeq fun q => { q with handlerActive := false, pc := q.kfpc }

/-! ### World end (R44, R71, R271, R272) -/

/-- The signed revocation record of R71. The rule lists its fields only; their order and widths, which make it 4,843 bytes, and an
ML-DSA signature without a context string are the model's choice (log 14). -/
def State.revocation (s : State) (w : Nat) (v : World) (e : Nat) : List Byte :=
  signRecord s.lodge.aliasKey [] (digestBytes s.lodge.identityDigest ++ leBytes 8 w ++ leBytes 48 v.policyDigest
    ++ leBytes 8 e ++ leBytes 8 s.timebase)

/-- The retry-after in µs that a request gets while another holds the session's lock (R65). -/
def State.lockWait (s : State) (v : Session) : Option Nat :=
  if s.timebase < v.lock then some (ceilDiv (v.lock - s.timebase) 1000) else none

/-- Take a session's lock, for a time that no rule gives (R65, log 23). -/
def State.takeLock (s : State) (v : Session) : Session × State :=
  let (d, s) := s.takeFree
  ({ v with lock := s.timebase + d }, s)

/-- Seal a reply record for a session (R63): header, ciphertext, tag. -/
def sealReply (v : Session) (mode epoch : Nat) (plain : List Byte) : List Byte :=
  let ctr := v.repCtr + 1
  let header := leBytes 8 v.ident ++ leBytes 8 ctr ++ leBytes 4 plain.length ++ leBytes 1 mode ++ leBytes 3 0
    ++ leBytes 8 epoch
  let (body, tag) := gcmSeal (replyKey (v.keys.getD [])) (2 * 2 ^ 64 + ctr) header plain
  header ++ body ++ leBytes 16 tag.toNat

/-- Write a record to the next slot of a session's ring and then advance the produced count (R61). -/
def State.ringWrite (s : State) (fn : Nat) (v : Session) (record : List Byte) : State × Session :=
  let slot := v.ring + 64 + (v.produced % v.slots) * v.slotSize
  let s := s.devWrite fn (BitVec.ofNat 64 slot) record
  let v := { v with produced := v.produced + 1 }
  (s.devWrite fn (BitVec.ofNat 64 (v.ring + 8)) (leBytes 8 v.produced), v)

/-- The consumed count as the host has last validly written it (R61). -/
def State.ringConsumed (s : State) (fn : Nat) (v : Session) : Nat :=
  match s.devRead fn (BitVec.ofNat 64 v.ring) 8 with
  | some l => if v.consumed ≤ leNat l ∧ leNat l ≤ v.produced then leNat l else v.consumed
  | none => v.consumed

/-- R71: held replies are dropped, a revocation is signed and kept, and each open session's ring receives a notice. The epoch
in a notice's header is open, since no `SSEAL` commits it: the model puts the world's current epoch. A notice that is longer
than a slot runs on into the bytes after it (log 14). -/
def State.revoke (s : State) (w e : Nat) : State :=
  match s.world? w with
  | none => s
  | some v =>
    let rec_ := s.revocation w v e
    let s := v.sessions.foldl (fun s x =>
      if x.2.keys.isSome then
        let (s, _) := s.ringWrite v.vf x.2 (sealReply x.2 2 v.epoch rec_)
        s
      else s) s
    s.onLodge fun l => { l with revocations := l.revocations ++ [rec_] }

/-- The launches of a world whose partitions are being reset: their nodes complete with this status, each once, and no WATCHDOG
record follows (R76, R273). -/
def State.endResets (s : State) (hit : Ending → Bool) (st : Status) (cause : Nat) : State :=
  let l := ((s.parts.filterMap fun p => p.2.resetOf).filter hit).eraseDups
  let s : State := { s with
    parts := s.parts.map fun p => if p.2.resetOf.any hit then (p.1, { p.2 with resetOf := none }) else p }
  l.foldl (fun s e => s.launchEnded e st cause 0) s

/-- The transition to Ending (R44, R271): the first cause decides (R273); every launch and waiting node of the world completes
ENDED, other worlds' launches on its partitions are to be pre-empted, its sessions lose their keys, and the scrubs are
owed. -/
def State.endWorld (s : State) (w : Nat) (cause cell epoch : Nat) : State :=
  match s.world? w with
  | none => s
  | some v =>
    if v.st = .ending then s
    else
      let s := if cause = Cause.integ.code then s.revoke w epoch else s
      let s := match v.loading with
        | some l => s.finishNode l.fn l.q l.node { status := .ended, cause := cause, detail := 0 }
        | none => s
      let s := (s.faults.filter fun f => f.world == w).foldl (fun s f =>
        f.nodes.foldl (fun s n => s.finishNode n.1 n.2.1 n.2.2 { status := .ended, cause := cause, detail := 0 }) s) s
      let s : State := { s with faults := s.faults.filter fun f => f.world != w }
      let s := v.kvq.foldl (fun s r => match r.src with
        | .node fn q n => s.finishNode fn q n { status := .ended, cause := cause, detail := 0 }
        | .cell .. => s) s
      let v := (s.world? w).getD v
      let parts := (s.parts.filter fun p => p.2.ctxs.any fun c => c.2.world == w).map (·.1)
      let s := s.setWorld w { v with
        st := .ending, loading := none, kvq := [], endCause := cause, endCell := cell, endEpoch := epoch
        endTime := s.timebase, scrubs := parts
        sessions := v.sessions.map fun x => (x.1, { x.2 with keys := none, held := [] }) }
      let s := (s.launches.filter fun l => l.2.world == w).foldl (fun s l => s.endLaunch l.1 .ended cause) s
      let s := s.endResets (fun e => e.world == w) .ended cause
      { s with launches := s.launches.map fun l =>
          if l.2.st ≠ .preempted ∧ l.2.st ≠ .waiting ∧ l.2.parts.any parts.contains
          then (l.1, { l.2 with wantPreempt := some 5 }) else l }

/-- A security cause raised in a cell ends its world (R271). -/
def State.endWorldOf (s : State) (n : Nat) (cause : Cause) : State :=
  s.endWorld (s.cell n).ident.world cause.code n 0

/-- Release every token, tile and register of a partition's cells: the cell phase of a scrub (R80). -/
def State.scrubCells (s : State) (p : Nat) : State :=
  (cellsOfPart p).foldl (fun s n => s.onCell n fun c => { Cell.reset with bps := c.bps }) s

end Sys2Proof.Machine
end

