-- ==== Sys2Proof/Machine/Operands.lean ====
section
/-! DEFINITION. Operand forms of the sequencer (R302, R305 to R307, R315, R358): immediates, addresses, branch targets and
gate operands, and how an instruction retires. -/

namespace Sys2Proof.Machine

/-- The immediate of `ADDI` and `SLTI`, and a load's or store's offset (R305, R307). -/
def immS (i : BitVec 16) : Word := i.signExtend 64
/-- The immediate of `ANDI`, `ORI`, `XORI` and `SLTNI` (R305). -/
def immZ (i : BitVec 16) : Word := i.zeroExtend 64
/-- Halfword h of a constant (R331). -/
def halfShift (h : BitVec 2) : Nat := 16 * h.toNat

/-- s[a] + sign_extend(offset16), modulo 2^64 (R336). -/
def Cell.addr (c : Cell) (a : Reg) (o : BitVec 16) : Word := c.reg a + immS o

/-- The target of a form B branch at the pc (R306, R332). -/
def branchTarget (pc : Word) (o : BitVec 16) : Word := pc + (o.signExtend 64 <<< 2)
/-- The target of a form J jump at the pc (R306, R334). -/
def jumpTarget (pc : Word) (o : BitVec 26) : Word := pc + (o.signExtend 64 <<< 2)

/-- The bytes an instruction takes: 4, or 8 for a dual pair (R316). -/
def instrBytes (du : Bool) : Nat := if du then 8 else 4

/-- The word of the instruction at the pc: for a dual pair the second word (R316). -/
def Cell.instrWord (c : Cell) (du : Bool) : W32 := c.codeWord (if du then c.seq.pc + 4 else c.seq.pc)

/-- Retire the instruction: the pc moves past its words. -/
def Cell.retire (c : Cell) (du : Bool) : Cell := c.advance (instrBytes du)

/-- The number of tangents an instruction carries: T for a dual pair, none otherwise (R316). -/
def Cell.dualT (c : Cell) (du : Bool) : Nat := if du then c.ident.tw else 0

/-- The gate term that a deferred form names: bits [3:0] of s[w] (R315). -/
def Cell.gateOf (c : Cell) (w : Reg) : Nat := ((c.reg w).extractLsb' 0 4).toNat

/-- A trap at the instruction in hand (R266). -/
def trapNow (s : State) (du : Bool) (cause : Cause) (addr : Word := 0) : Host.Outcome State Fault Refusal :=
  .next (s.takeTrap s.focus.cell cause addr (s.cur.instrWord du))

end Sys2Proof.Machine
end

