-- ==== Sys2Proof/Machine/Access.lean ====
section
/-! DEFINITION. Memory access: physical addresses (R30, R31, R125 to R128), translation and page classes (R131, R134),
Commons lines, stamps and hashes (R138, R148), the L1 (R138, R178), the write buffer (R341), bank operations (R139, R344)
and full-empty words (R140). -/

namespace Sys2Proof.Machine

/-! ### Physical addresses (R30, R31, R125 to R128) -/

def pageBytes : Nat := 16384

/-- The class field of a leaf entry and of a MAP body (R129, R132). -/
def PageClass.code : PageClass → Nat
  | .norm => 0 | .opd => 1 | .fe => 2 | .dev => 3

/-- The module field and the local address (R30). -/
def paModule (pa : Nat) : Nat := pa / 2 ^ 46
def paLocal (pa : Nat) : Nat := pa % 2 ^ 46
def orangeryBase : Nat := 0x010000000000
def tierBase : Nat := 0x020000000000
def devBase : Nat := 0x3F0000000000
def bvBase : Nat := 0x3F0001000000
def isHbm (l : Nat) : Bool := decide (l < 0x00C000000000)
def isOrangery (l : Nat) : Bool := decide (orangeryBase ≤ l) && decide (l < orangeryBase + 0x10000000)
def isTier (l : Nat) : Bool := decide (tierBase ≤ l) && decide (l < 0x060000000000)
def isDev (l : Nat) : Bool := decide (devBase ≤ l) && decide (l < 2 ^ 46)

/-- The VF and event index of a queue-event address (R128). -/
def eventWindow (l : Nat) : Option (Nat × Nat) :=
  let o := l - devBase
  let v := o / 0x4000
  if isDev l ∧ 1 ≤ v ∧ v ≤ 16 ∧ o % 0x4000 < 0x2000 then some (v, o % 0x4000 / 8) else none

/-- The partition and window offset of a Belvedere window address (R128). -/
def counterWindow (l : Nat) : Option (Nat × Nat) :=
  let o := l - bvBase
  if bvBase ≤ l ∧ o / 0x10000 < 16 then some (o / 0x10000, o % 0x10000) else none

/-- A local address that the map of R30 gives contents, within the installed second tier (R31). -/
def State.localOk (s : State) (l : Nat) : Bool :=
  isHbm l || isOrangery l || (isTier l && decide (l - tierBase < s.cxl0 + s.cxl1))
    || (eventWindow l).isSome || (counterWindow l).isSome

/-- A local address in no range of R30's table. -/
def reservedLocal (l : Nat) : Bool := !(isHbm l || isOrangery l || isTier l || isDev l)

/-- An address of another member of the pod that is not reserved (R31). -/
def State.memberAt (s : State) (pa : Nat) : Bool :=
  paModule pa != s.pod.self && !reservedLocal (paLocal pa) && s.pod.members.any fun m => m.module == paModule pa

/-- The partition that owns an HBM address (R125). -/
def hbmPart (l : Nat) : Nat := (l / 2 ^ 36 / 3) * 4 + l % 2 ^ 36 / 2 ^ 34
/-- The owner-table range that holds an address. -/
def State.ownerOf (s : State) (pa : Nat) : Option OwnRange :=
  s.owners.find? fun o => decide (o.base ≤ pa) && decide (pa < o.base + o.len)
/-- The world that owns an address. -/
def State.worldOf (s : State) (pa : Nat) : Option Nat :=
  match s.ownerOf pa with
  | none => none
  | some o => match o.owner with
    | .world w => some w
    | .kvMeta w => some w
    | .staging _ => none
    | .saveArea _ _ => none
/-- The home partition of a local address (R127). -/
def State.homePart (s : State) (pa : Nat) : Nat :=
  let l := paLocal pa
  if isHbm l then hbmPart l
  else if isOrangery l then (l - orangeryBase) / 0x1000000
  else ((s.ownerOf pa).map (·.home)).getD 0

/-- The memory slice that serves an address for the hashes of R148: 12 per partition by pseudo-channel, and one per
partition for the second tier (log 16). -/
def State.memSlice (s : State) (pa : Nat) : Nat :=
  let l := paLocal pa
  if isHbm l then hbmPart l * 12 + (l / 2 ^ 36 % 3) * 4 + (l % 2 ^ 34 / 256 % 16) / 4
  else 192 + s.homePart pa

/-! ### Stamps, hashes and Commons lines (R138, R148) -/

/-- The epoch whose hashes a slice of a world still collects: the one before the current while its sweep is owed. -/
def World.baseEpoch (v : World) (slice : Nat) : Nat := if v.sweeping.contains slice then v.epoch - 1 else v.epoch

def State.lineBytes (s : State) (line : Nat) : List Byte := readBytes s.mem (64 * line) 64
/-- Presence bits of the 16 words of a line (R140). -/
def State.linePresence (s : State) (line : Nat) : List Bool :=
  tabulate 16 fun i => Map.get false s.full (64 * line + 4 * i)

/-- The multiset-hash term of the HBM copy of a line (R148). -/
def State.term (s : State) (v : World) (line : Nat) (stamp : BitVec 48) : BitVec 128 :=
  Config.mh v.integrityKey line stamp (s.lineBytes line) (s.linePresence line)

/-- Epoch field of a stamp. -/
def stampEpoch (t : BitVec 48) : Nat := (t.extractLsb' 40 8).toNat
def stampOf (epoch : Nat) (ctr : BitVec 40) : BitVec 48 := (BitVec.ofNat 8 epoch ++ ctr : BitVec (8 + 40))

/-- Add a term to HR or HW of an epoch at a slice. -/
def World.addHash (v : World) (slice epoch : Nat) (read : Bool) (t : BitVec 128) : World :=
  let h := Map.get SliceHash.reset v.hashes slice
  let first := epoch = v.baseEpoch slice
  let h := if read then (if first then { h with hr := h.hr + t } else { h with hrNext := h.hrNext + t })
    else (if first then { h with hw := h.hw + t } else { h with hwNext := h.hwNext + t })
  { v with hashes := Map.put v.hashes slice h }

/-- Write-back of a line at the current epoch: a new stamp, its term folded into HW (R148). -/
def State.stampWrite (s : State) (w line : Nat) : State :=
  match s.world? w with
  | none => s
  | some v =>
    let slice := s.memSlice (64 * line)
    let h := Map.get SliceHash.reset v.hashes slice
    let ctr := h.ctr + 1
    let st := stampOf v.epoch ctr
    let v := { v with hashes := Map.put v.hashes slice { h with ctr := ctr } }
    let s := { s with stamps := Map.put s.stamps line st }
    s.setWorld w (v.addHash slice v.epoch false (s.term v line st))

/-- Reading a line's HBM copy into HR; none when the stamp's epoch is neither of the two that collect, which fails the
epoch (R148). -/
def State.foldRead (s : State) (w line : Nat) : Option State :=
  match s.world? w with
  | none => some s
  | some v =>
    let slice := s.memSlice (64 * line)
    let e := v.baseEpoch slice
    let st := Map.get 0 s.stamps line
    if stampEpoch st = e % 256 then some (s.setWorld w (v.addHash slice e true (s.term v line st)))
    else if stampEpoch st = (e + 1) % 256 then some (s.setWorld w (v.addHash slice (e + 1) true (s.term v line st)))
    else none

/-- Lines that the hashes protect: world lines in local HBM or the second tier (R148). -/
def State.protectedWorld (s : State) (line : Nat) : Option Nat :=
  let l := paLocal (64 * line)
  if isHbm l || isTier l then s.worldOf (64 * line) else none

/-- The die of a partition. -/
def dieOfPart (p : Nat) : Nat := p / 4
/-- The slice of a line within its home die (R138, log 15). -/
def sliceOf (line : Nat) : Nat := Config.sliceHash line % 48
def setOf (line : Nat) : Nat := Config.setHash line % 4096

/-! ### Flows of the on-die network (R147) -/

/-- A flow: its source port and its destination port. -/
def flowOf (src dst : Nat) : Nat := src * 65536 + dst

/-- Ports: the cells by number, the Commons slices, the Orangery banks, the memory slices, and the units of the module. -/
def cellPort (n : Nat) : Nat := n
def slicePort (die slice : Nat) : Nat := 384 + 48 * die + slice
def bankPort (p : Nat) : Nat := 576 + p
def memPort (slice : Nat) : Nat := 592 + slice
def unitPort : Nat := 800

/-- A flit goes from a port to another: the flow's counter moves on, so that no value comes twice under one key. How many flits an
access takes is open: the model takes one each way (log 28). -/
def State.countFlit (s : State) (src dst : Nat) : State := { s with flows := Map.modify 0 s.flows (flowOf src dst) (· + 1) }

/-- The port that serves a local address, from a requester's side. -/
def State.servePort (s : State) (pa : Nat) : Nat :=
  let l := paLocal pa
  if isOrangery l then bankPort (s.homePart pa) else slicePort (dieOfPart (s.homePart pa)) (sliceOf (pa / 64))

/-- The request and the answer of an access to a local line. -/
def State.countAccess (s : State) (src pa : Nat) : State :=
  if paModule pa = s.pod.self ∧ paLocal pa < devBase then (s.countFlit src (s.servePort pa)).countFlit (s.servePort pa) src else s

/-- A line goes between its Commons slice and its memory slice. -/
def State.countLine (s : State) (line : Nat) (fill : Bool) : State :=
  let a := s.servePort (64 * line)
  let b := memPort (s.memSlice (64 * line))
  if fill then (s.countFlit a b).countFlit b a else s.countFlit a b

/-- A resident line leaves the Commons by write-back (R148, R150). -/
def State.evictLine (s : State) (line : Nat) : State :=
  match Map.get? s.lines line with
  | none => s
  | some t =>
    let s := ({ s with lines := Map.erase s.lines line } : State).countLine line false
    let s := match s.protectedWorld line with
      | some w => s.stampWrite w line
      | none => s
    if t.dirty then s.meter t.part (if isHbm (paLocal (64 * line)) then 4 else 7) 64 else s

/-- The ways of a line's home partition that are not quarantined in its slice (R138, R276). -/
def State.usableWays (s : State) (p line : Nat) : List Nat :=
  (s.part p).ways.filter fun w => !s.quarantined.any fun q => q.1 == dieOfPart p && q.2.1 == sliceOf line && q.2.2.1 == w

/-- The resident line in a way of the set where a line would go. -/
def State.lineInWay (s : State) (p line w : Nat) : Option Nat :=
  (s.lines.find? fun e => e.2.part / 4 == dieOfPart p && e.2.way == w && sliceOf e.1 == sliceOf line
    && setOf e.1 == setOf line).map (·.1)

/-- The way number of a line in the one-line buffer of its slice, which belongs to no way (R138). -/
def bufferWay : Nat := 16

/-- An operation on a line that no way takes has ended: the buffer writes the line back (R138). -/
def State.endUncached (s : State) : State :=
  ((s.lines.filter fun e => e.2.way == bufferWay).map (·.1)).foldl State.evictLine s

/-- Place a line that has just been filled: a free way, else the victim's after its write-back. With no usable way or no
context to tag it with, the line of a read is written back at once, and that of another operation stays in the buffer until
`endUncached` (R138). -/
def State.placeLine (s : State) (p line : Nat) (tag : LineTag) (ctx : Option Nat) : State :=
  let ways := s.usableWays p line
  match ctx, ways with
  | some c, w0 :: _ =>
    let free := ways.filter fun w => (s.lineInWay p line w).isNone
    match free with
    | w :: _ => { s with lines := Map.put s.lines line { tag with way := w, ctx := c } }
    | [] =>
      let w := ways.getD (Config.victim s.free % ways.length) w0
      let s := { s with free := s.free + 1 }
      let s := match s.lineInWay p line w with
        | some old => s.evictLine old
        | none => s
      { s with lines := Map.put s.lines line { tag with way := w, ctx := c } }
  | _, _ =>
    if tag.dirty then { s with lines := Map.put s.lines line { tag with way := bufferWay } }
    else match s.protectedWorld line with
      | some w => s.stampWrite w line
      | none => s

/-- The context tag for an access of a world from a context of partition p: its own at home, else the lowest context of
the world bound to the home partition (R138). -/
def State.tagCtx (s : State) (home p ctx w : Nat) : Option Nat :=
  if home = p then some ctx
  else ((s.part home).ctxs.find? fun e => e.2.world == w).map (·.1)

/-- One access to a line at its slice: a hit moves the line to the context, a miss fills it. None when a stamp fails the
epoch. `spec` leaves the meters to the commit of the access (R72, R138, R139, R148, R235). -/
def State.touchLine (s : State) (p ctx w : Nat) (cls : PageClass) (line : Nat) (write spec : Bool) : Option State :=
  let l := paLocal (64 * line)
  if !(isHbm l || isTier l) then some s
  else
    let home := s.homePart (64 * line)
    let tag := s.tagCtx home p ctx w
    match Map.get? s.lines line with
    | some t =>
      let c := tag.getD t.ctx
      let t := { t with ctx := c, dirty := t.dirty || write, owner := if write then c else t.owner }
      some { s with lines := Map.put s.lines line t }
    | none =>
      let s := s.countLine line true
      let s' := match s.protectedWorld line with
        | some pw => s.foldRead pw line
        | none => some s
      s'.map fun s =>
        let st := Map.get 0 s.stamps line
        let check := match s.protectedWorld line with
          | some pw => match s.world? pw with
            | some v => (s.term v line st).extractLsb' 0 64
            | none => 0
          | none => 0
        let s := if spec then s else (s.meter home (if isHbm l then 4 else 7) 64).meter home 5 64
        s.placeLine home line
          { part := home, way := 0, ctx := 0, opd := cls == .opd, fe := cls == .fe, dirty := write,
            owner := tag.getD 0, stamp := st, check := check } tag

/-! ### Translation (R129 to R137) -/

/-- The kinds of access that R134 tells apart; `dual` is the primal word of a dual access, `tangent` a tangent word
(R128, R145), each a write or a read. -/
inductive Access where
  | load | store | atomic | bankRead | feRead | feWrite | streamSrc | streamDst | kvRecord | dual (w : Bool)
  | tangent (w : Bool)
  deriving DecidableEq, Repr

def Access.isWrite : Access → Bool
  | .store | .atomic | .feWrite | .streamDst | .kvRecord => true
  | .dual w => w
  | .tangent w => w
  | _ => false

/-- What a check answers: a value, a precise trap with its fault address, a hold on the page of an address, or the end of the
world. -/
inductive Chk (α : Type) where
  | ok (a : α)
  | trap (c : Cause) (addr : Word)
  | hold (va : Nat)
  | endWorld (c : Cause)
  deriving DecidableEq, Repr

/-- Go on with a check that has passed. -/
def Chk.andThen {α β : Type} (x : Chk α) (f : α → Chk β) : Chk β :=
  match x with
  | .ok a => f a
  | .trap c a => .trap c a
  | .hold va => .hold va
  | .endWorld c => .endWorld c

/-- The faulting address of a scratch range that passes the end: its first byte outside (R123, R265). -/
def pastScratch (a : Word) : Word := BitVec.ofNat 64 (max a.toNat 0x100000)

/-- Pass when the condition holds, else trap. -/
def Chk.need (b : Bool) (c : Cause) (addr : Word) : Chk Unit := if b then .ok () else .trap c addr

/-- Where an access goes: physical address and class of its page. -/
structure Loc where
  pa  : Nat
  cls : PageClass
  deriving DecidableEq, Repr

/-- Bytes that a leaf of a level maps (R129). -/
def leafBytes (level : Nat) : Nat := 2 ^ (14 + 11 * level)

/-- The leaf that covers a virtual address, with its own virtual address. -/
def World.leafAt (v : World) (va : Nat) : Option (Nat × Leaf) :=
  v.leaves.find? fun e => decide (e.1 ≤ va) && decide (va < e.1 + leafBytes e.2.level)

/-- The sealed-region entry that covers a virtual address (R131, R135). -/
def World.regionAt (v : World) (va : Nat) : Option Region :=
  v.regions.find? fun r => decide (r.base ≤ va) && decide (va < r.base + 65536 * r.chunks)

/-- Whether the page at a physical address holds bytes that `SUNSEAL` wrote (R131). -/
def State.opdBackedAt (s : State) (pa : Nat) : Bool := s.opdBacked.contains (pa / pageBytes)

/-- The agreement of a leaf with the Orangery and the sealed-region table (R131). -/
def State.agrees (s : State) (v : World) (va pa : Nat) (l : Leaf) : Bool :=
  let st := (v.regionAt va).map (·.st)
  !(isOrangery (paLocal pa) && l.cls != .opd)
    && !((st == some .loading || st == some .active) && l.cls != .opd)
    && !(l.cls == .opd && s.opdBackedAt pa && st.isNone)

/-- The page-class table (R134, R128) for an access of a size. A stream's OPD endpoints pass here: their own checks come
after the whole translation (R246 items 3 and 4). -/
def checkClass (cls : PageClass) (k : Access) (size : Nat) (pa : Nat) (va : Word) : Chk Unit :=
  match cls, k with
  | .norm, .feRead | .norm, .feWrite => .trap .perm va
  | .norm, _ => .ok ()
  | .opd, .streamSrc | .opd, .streamDst => .ok ()
  | .opd, .tangent _ => .trap .perm va
  | .opd, _ => .endWorld .opd
  | .fe, .load | .fe, .dual false | .fe, .feRead | .fe, .feWrite => .ok ()
  | .fe, _ => .trap .perm va
  | .dev, .load => .need (size == 8) .align va
  | .dev, .store =>
    if size ≠ 8 then .trap .align va
    else .need (counterWindow (paLocal pa)).isNone .perm va
  | .dev, _ => .trap .perm va

/-- `translate` of R131 for a world: the leaf's checks, its class and W. -/
def State.translate (s : State) (w : Nat) (k : Access) (size : Nat) (va : Word) : Chk Loc :=
  match s.world? w with
  | none => .hold va.toNat
  | some v =>
    match v.leafAt va.toNat with
    | none => .hold va.toNat
    | some (base, l) =>
      if l.evicted.isSome then .hold va.toNat
      else
        let pa := l.pa + (va.toNat - base)
        if !s.agrees v va.toNat pa l then .endWorld .opd
        else if s.retired.contains (pa / 65536) then .hold va.toNat
        else (checkClass l.cls k size pa va).andThen fun _ =>
          if k.isWrite && !l.w then .trap .perm va else .ok { pa := pa, cls := l.cls }

/-- DEVOK and PODOK of a VF in the scope policy word (R171). -/
def State.devOkVf (s : State) (vf : Nat) : Bool := s.policy.scopeWord.getLsbD (vf - 1)
def State.podOkVf (s : State) (vf : Nat) : Bool := s.policy.scopeWord.getLsbD (16 + vf - 1)

/-- A named scope against the policy (R172). -/
def State.scopeOk (s : State) (vf : Nat) : Option Scope → Bool
  | some .dev => s.devOkVf vf
  | some .pod => s.podOkVf vf
  | _ => true

/-- The last checks of R336: a reserved or uninstalled address, and the rules of a remote one (R31, R172, R443). -/
def State.checkModule (s : State) (vf : Nat) (sc : Option Scope) (va : Word) (l : Loc) : Chk Loc :=
  if paModule l.pa = s.pod.self then
    if s.localOk (paLocal l.pa) then .ok l else .trap .perm va
  else if !s.memberAt l.pa then .trap .perm va
  else if !s.podOkVf vf || (sc.isSome && sc != some .pod) then .trap .scope va
  else if !Config.homeGrants (l.pa / pageBytes) l.cls.code s.timebase then .trap .perm va
  else .ok l

/-- The Commons holds the line of an address with an OPD tag (R137, R138). -/
def State.opdTagged (s : State) (pa : Nat) : Bool := (Map.get? s.lines (pa / 64)).any (·.opd)

/-- An access by another class than OPD hits an OPD-tagged line: the world ends (R137). -/
def State.tagOk (s : State) (l : Loc) : Chk Unit :=
  if l.cls != .opd && paModule l.pa == s.pod.self && s.opdTagged l.pa then .endWorld .opd else .ok ()

/-- A stream reads only the bank of its own partition (R126). -/
def State.bankOk (s : State) (n : Nat) (k : Access) (l : Loc) : Bool :=
  !(k == .streamSrc && isOrangery (paLocal l.pa) && s.homePart l.pa != partOfCell n)

/-- `access` of R336 and the checks of R410, in their order, for an access of cell n. -/
def State.access (s : State) (n : Nat) (k : Access) (size : Nat) (va : Word) (sc : Option Scope) : Chk Loc :=
  let c := s.cell n
  let vf := c.ident.vf
  (Chk.need (s.scopeOk vf sc) .scope va).andThen fun _ =>
  (Chk.need (va.extractLsb' 58 6 == 0) .perm va).andThen fun _ =>
  (Chk.need (va.toNat % size == 0) .align va).andThen fun _ =>
  (s.translate c.ident.world k size va).andThen fun l =>
  (Chk.need (s.bankOk n k l) .perm va).andThen fun _ =>
  (s.checkModule vf sc va l).andThen fun l =>
  (s.tagOk l).andThen fun _ => .ok l

/-- Check every page of a range of n bytes, as engine commands do at issue (R131, R246). -/
def State.accessRange (s : State) (n : Nat) (k : Access) (align : Nat) (va : Word) (sc : Option Scope) (len : Nat) :
    Chk Loc :=
  (s.access n k align va sc).andThen fun first =>
    let start := va.toNat / pageBytes
    let pages := (va.toNat + len - 1) / pageBytes - start
    if len = 0 then .ok first
    else if va.toNat + len > 2 ^ 58 then .trap .perm va
    else
    (List.range pages).foldl (fun r i =>
      r.andThen fun _ =>
        (s.access n k align (BitVec.ofNat 64 ((start + i + 1) * pageBytes)) sc).andThen fun _ => .ok first) (.ok first)

/-- Physical address of a byte of a range that has been checked. -/
def State.paOf (s : State) (w : Nat) (va : Nat) : Nat :=
  match s.world? w with
  | none => 0
  | some v => match v.leafAt va with
    | none => 0
    | some (base, l) => l.pa + (va - base)

/-- The page of an address is mapped, on this module outside a retired group. -/
def State.mapped (s : State) (w va : Nat) : Bool :=
  match (s.world? w).bind fun v => v.leafAt va with
  | some (b, l) => l.evicted.isNone && !s.retired.contains ((l.pa + (va - b)) / 65536)
  | none => false

/-! ### Recoverable faults (R99, R131, R270) -/

/-- A fault stands on the page of an address of a world. -/
def FaultRec.on (f : FaultRec) (w va : Nat) : Bool := f.world == w && f.va / pageBytes == va / pageBytes

/-- A fault on a page is recorded once; a further one joins its holders (R99). -/
def State.addFault (s : State) (n : Nat) (kind va : Nat) (thread : Option Nat) : State :=
  let c := s.cell n
  let s := s.countCell n 10 1
  if s.faults.any fun f => f.on c.ident.world va then
    { s with faults := s.faults.map fun f =>
        if f.on c.ident.world va ∧ !f.holders.contains (n, thread) then { f with holders := f.holders ++ [(n, thread)] } else f }
  else { s with faults := s.faults ++ [{
      va := va, world := c.ident.world, part := c.ident.part, cell := n, kind := kind
      ctx := c.ident.ctx, posted := false, time := s.timebase, holders := [(n, thread)], nodes := [] }] }

/-- A fault of cell n on a page that NOMAP has not answered is counted also while the fault ring is off (R99, R281). -/
def State.countDenied (s : State) (n : Nat) (answered : Bool) : State := if answered then s else s.countCell n 10 1

/-- The sequencer or an engine command of a cell waits already on the page of an address. -/
def State.waitsOn (s : State) (n va : Nat) : Bool :=
  s.faults.any fun f => f.on (s.cell n).ident.world va && f.holders.contains (n, none)

/-- A NOMAP answer to a page is used up. -/
def Cell.useDenial (c : Cell) (va : Nat) : Cell :=
  c.withSeq fun q => { q with denied := q.denied.filter (· != va / pageBytes) }

/-- XLATE of a sequencer access: PERM where NOMAP has answered or the fault ring is off, else the instruction is held
(R99, R131). -/
def State.heldOutcome (s : State) (n : Nat) (word : W32) (kind va : Nat) : State :=
  let answered := (s.cell n).seq.denied.contains (va / pageBytes)
  if !s.fring.en || answered then
    ((s.countDenied n answered).onCell n fun c => c.useDenial va).takeTrap n .perm (BitVec.ofNat 64 va) word
  else if s.waitsOn n va then s
  else s.addFault n kind va none

/-- The payload bytes of a pod flit (R32), which meter index 6 counts (R72). -/
def flitPayload : Nat := 224

/-- Send an access of cell n to the home module of its page (R36, R72). -/
def State.sendRemote (s : State) (n : Nat) (l : Loc) (va : Nat) (waits : Bool) (op : RemoteOp) : State :=
  let r : RemoteAcc := { pa := l.pa, va := va, since := s.timebase, waits := waits, held := false, answer := none }
  let w := (s.cell n).ident.world
  let s := (s.onCell n fun c => { c with remote := c.remote ++ [r] }).meter (partOfCell n) 6 flitPayload
  s.sendFlit (s.newFlit (paModule l.pa) (.request n w l.pa l.cls.code op))

/-- The leaf of a world that maps a physical address, with its virtual base. -/
def World.mapsPa (v : World) (pa : Nat) : Option (Nat × Leaf) :=
  v.leaves.find? fun e => e.2.evicted.isNone && decide (e.2.pa ≤ pa) && decide (pa < e.2.pa + leafBytes e.2.level)
def World.leafOfPa (v : World) (pa : Nat) : Option Leaf := (v.mapsPa pa).map (·.2)

/-- The virtual address of a physical address in a cell's world; 0 where the world maps it no more. -/
def State.vaOf (s : State) (n pa : Nat) : Nat :=
  match (s.world? (s.cell n).ident.world).bind fun v => v.mapsPa pa with
  | some (b, l) => b + (pa - l.pa)
  | none => 0

/-- Send a store, an atomic of a thread or another access whose agent does not wait, when its page is another module's. -/
def State.postRemote (s : State) (n : Nat) (cls : PageClass) (pa : Nat) (op : RemoteOp) : State :=
  if paModule pa = s.pod.self then s else s.sendRemote n { pa := pa, cls := cls } (s.vaOf n pa) false op

/-- The access of cell n to a place that waits for its answer or has it. -/
def Cell.remoteOf (c : Cell) (pa : Nat) : Option RemoteAcc := c.remote.find? fun r => r.waits && r.pa == pa

/-- What the accesses of one operation that wait for an answer come to (R36). -/
inductive Turn where
  | go | wait
  | refused (va : Nat)
  deriving DecidableEq, Repr

/-- The turn of operations at some places with their virtual addresses: on this module they go on; what lies on another is asked
for first, and once every answer is there they go on, or are refused (R36, R443, log 18). -/
def State.remoteTurn (s : State) (n : Nat) (l : List (Loc × Nat × RemoteOp)) : State × Turn :=
  let far := l.filter fun x => paModule x.1.pa != s.pod.self
  match far with
  | [] => (s, .go)
  | _ :: _ =>
    let s := far.foldl (fun s x => if ((s.cell n).remoteOf x.1.pa).isNone then s.sendRemote n x.1 x.2.1 true x.2.2 else s) s
    let answers := far.map fun x => (((s.cell n).remoteOf x.1.pa).bind (·.answer), x)
    if answers.any fun a => a.1.isNone then (s, .wait)
    else
      let s := s.onCell n fun c => { c with remote := c.remote.filter fun r => !(r.waits && far.any fun x => x.1.pa == r.pa) }
      match answers.find? fun a => a.1 == some true with
      | some a => (s, .refused a.2.2.1)
      | none => (s, .go)

/-- A sequencer's accesses at checked places, once their answers are there: they go on, or a refusal is a precise PERM (R443). -/
def State.withReplies (s : State) (n : Nat) (l : List (Loc × Nat)) (word : W32) (op : RemoteOp)
    (k : State → Host.Outcome State Fault Refusal) : Host.Outcome State Fault Refusal :=
  match s.remoteTurn n (l.map fun x => (x.1, x.2, op)) with
  | (s, .wait) => .next s
  | (s, .go) => k s
  | (s, .refused va) => .next (s.takeTrap n .perm (BitVec.ofNat 64 va) word)

/-- The same for one place. -/
def State.withReply (s : State) (n : Nat) (l : Loc) (va : Word) (word : W32) (op : RemoteOp)
    (k : State → Host.Outcome State Fault Refusal) : Host.Outcome State Fault Refusal :=
  s.withReplies n [(l, va.toNat)] word op k

/-- Answer an access of another module, at the cost of the partition of its page (R36, R72). -/
def State.answerRemote (s : State) (dest cell pa : Nat) (data : List Byte) (refused : Bool) : State :=
  let s := if refused then s else s.meter (s.homePart pa) 6 flitPayload
  s.sendFlit (s.newFlit dest (.reply cell pa data refused))

/-- Go on with the result of a sequencer's check, or take what it answers. -/
def State.withChk {α : Type} (s : State) (n : Nat) (word : W32) (kind : Nat) (r : Chk α)
    (k : α → Host.Outcome State Fault Refusal) : Host.Outcome State Fault Refusal :=
  match r with
  | .ok a => k a
  | .trap c a => .next (s.takeTrap n c a word)
  | .hold va => .next (s.heldOutcome n word kind va)
  | .endWorld c => .next (s.endWorldOf n c)

/-! ### Freeing ranges, and the end of a context (R78, R132, R275) -/

/-- The bytes of a physical range read as an unlisted address does. -/
def State.zeroRange (s : State) (pa len : Nat) : State :=
  let out := fun (a : Nat) => decide (a < pa) || decide (pa + len ≤ a)
  { s with
    mem := s.mem.filter fun e => out e.1
    full := s.full.filter fun e => out e.1 }

/-- The resident lines of a physical range are dropped without write-back. -/
def State.dropRange (s : State) (pa len : Nat) : State :=
  { s with lines := s.lines.filter fun e => !(decide (pa / 64 ≤ e.1) && decide (e.1 < (pa + len) / 64)) }

/-- Remove a range from the owner table, leaving what of an owner's range lies outside it. -/
def cutOwner (o : OwnRange) (pa len : Nat) : List OwnRange :=
  if o.base + o.len ≤ pa ∨ pa + len ≤ o.base then [o]
  else
    (if o.base < pa then [{ o with len := pa - o.base }] else [])
      ++ (if pa + len < o.base + o.len then [{ o with base := pa + len, len := o.base + o.len - (pa + len) }] else [])

/-- Zero a range and free its ownership: lines, stamps, presence bits and SUNSEAL marks go with it. -/
def State.freeRange (s : State) (pa len : Nat) : State :=
  let s := (s.dropRange pa len).zeroRange pa len
  { s with
    stamps := s.stamps.filter fun e => !(decide (pa / 64 ≤ e.1) && decide (e.1 < (pa + len) / 64))
    owners := s.owners.flatMap fun o => cutOwner o pa len
    opdBacked := s.opdBacked.filter fun p => !(decide (pa / pageBytes ≤ p) && decide (p < (pa + len) / pageBytes)) }

/-- A context goes: its lines leave by write-back, and its save area is freed. -/
def State.endContext (s : State) (p ctx : Nat) : State :=
  let s := ((s.lines.filter fun e => e.2.part == p && e.2.ctx == ctx).map (·.1)).foldl State.evictLine s
  let s := (s.owners.filter fun o => o.owner == .saveArea p ctx).foldl (fun s o => s.freeRange o.base o.len) s
  s.onPart p fun v => { v with ctxs := Map.erase v.ctxs ctx }

/-- End a context with MCHK (R275): its launches complete ERROR, the cells it held are scrubbed in their cell phase, its
images go, and it is unbound; vector 7 signals. Where the watchdog has expired for the same launch, the sequence detected
first runs and the other error is recorded only (R278). -/
def State.machineCheck (s : State) (p ctx : Nat) : State :=
  if (Map.get? (s.part p).ctxs ctx).isNone then s
  else if (s.part p).resetOf.any fun e => e.ctx == ctx then s.secondary p ctx 0xFFFF .mchk
  else
  let s := (s.hyperAdd 8 1).signal 0 7
  let mine := s.launches.filter fun l => l.2.ctx == ctx && l.2.parts.contains p
  let s := mine.foldl (fun s l =>
    if (l.2.st = .running ∨ l.2.st = .starting) ∧ l.2.budget ≤ l.2.used then s.secondary p ctx 0xFFFF .watchdog else s) s
  let s := mine.foldl (fun s l =>
    let s := s.endLaunch l.1 .error Cause.mchk.code
    if l.2.st = .running ∨ l.2.st = .starting then l.2.parts.foldl State.scrubCells s else s) s
  s.endContext p ctx

/-- A machine check of the context that runs on a cell, or whose launch the watchdog has just discarded from it (R278). -/
def State.checkCell (s : State) (n : Nat) : State :=
  let c := s.cell n
  if c.run = .idle then
    match (s.part (partOfCell n)).resetOf with
    | none => s
    | some e => s.secondary (partOfCell n) e.ctx n .mchk
  else s.machineCheck c.ident.part c.ident.ctx

/-- The CXL port that a second-tier address reaches (R28): interleaved at 4 KiB where both ports hold as much, else port 0
first. -/
def State.tierPort (s : State) (l : Nat) : Nat :=
  let o := l - tierBase
  if s.cxl0 = s.cxl1 then o / 4096 % 2 else if o < s.cxl0 then 0 else 1

/-- An access to an address would reach a second-tier port that is down (R29). -/
def State.portDown (s : State) (pa : Nat) : Bool :=
  isTier (paLocal pa) && (Map.get? s.lines (pa / 64)).isNone && s.cxlDown.contains (s.tierPort (paLocal pa))

/-! ### The write buffer and the L1 (R138, R178, R341) -/

/-- Update a present L1 line of a cell with bytes being written (R138). -/
def Cell.l1Update (c : Cell) (a : Nat) (b : Byte) : Cell :=
  match Map.get? c.l1 (a / 64) with
  | none => c
  | some l => { c with l1 := Map.put c.l1 (a / 64) (l.set (a % 64) b) }

/-- Write bytes to memory for cell n: a present L1 line of the cell is updated. -/
def State.writeCells (s : State) (n : Nat) (l : List (Nat × Byte)) : State :=
  l.foldl (fun s e =>
    let s := { s with mem := writeMem s.mem e.1 [e.2] }
    match Map.get? (s.cell n).l1 (e.1 / 64) with
    | none => s
    | some _ => s.onCell n fun c => c.l1Update e.1 e.2) s

/-- An access of this module's HBM or second tier finds no line in the Commons. -/
def State.misses (s : State) (pa : Nat) : Bool :=
  decide (paModule pa = s.pod.self) && (isHbm (paLocal pa) || isTier (paLocal pa)) && (Map.get? s.lines (pa / 64)).isNone

/-- Touch a line for an access of a world from a context of partition p; a failed epoch ends the world that owns the line
(R148), one that needs a CXL port that is down ends the context (R29), and a hit on an OPD-tagged line by another class ends the
accessing world (R137). -/
def State.touchFor (s : State) (p ctx w : Nat) (cls : PageClass) (pa : Nat) (write spec : Bool) : State :=
  if paModule pa ≠ s.pod.self then s
  else if cls != .opd && s.opdTagged pa then s.endWorld w Cause.opd.code 0xFFFF 0
  else if s.portDown pa then s.machineCheck p ctx
  else match s.touchLine p ctx w cls (pa / 64) write spec with
  | some s => s
  | none =>
    let v := (s.worldOf pa).getD w
    let e := ((s.world? v).map fun x => x.baseEpoch (s.memSlice pa)).getD 0
    s.endWorld v Cause.integ.code 0xFFFF e

/-- Touch a line for an access of a unit that is no cell: a committed miss is event 12 of its partition, at once (R281). -/
def State.touchAs (s : State) (p ctx w : Nat) (cls : PageClass) (pa : Nat) (write spec : Bool) : State :=
  let t := s.touchFor p ctx w cls pa write spec
  if !spec && s.misses pa && !t.misses pa && decide (p < 16) then t.countEvent p 12 1 else t

/-- Touch a line for an access of cell n; a committed miss is the cell's event 12 (R281). -/
def State.touch (s : State) (n : Nat) (cls : PageClass) (pa : Nat) (write spec : Bool) : State :=
  let c := s.cell n
  let t := (s.countAccess (cellPort n) pa).touchFor (partOfCell n) c.ident.ctx c.ident.world cls pa write spec
  if !spec && s.misses pa && !t.misses pa then t.countCell n 12 1 else t

/-- Perform one write-buffer entry (R341). -/
def State.performWb (s : State) (n : Nat) (e : WbEntry) : State :=
  match e with
  | .bytes cells _ =>
    ((cells.map fun e => e.1 / 64).dedup.foldl (fun s l =>
      let mine := cells.filter fun e => e.1 / 64 == l
      (s.postRemote n .norm (mine.headD (0, 0)).1 (.store (mine.map (·.2)))).touch n .norm (64 * l) true false) s).writeCells n cells |>.endUncached
  | .event fn ev v => s.onFunc fn fun f => { f with events := Map.set 0 f.events ev (Map.get 0 f.events ev + v) }

/-- The oldest entry of the write buffer performs (R341). -/
def State.performOldest (s : State) (n : Nat) : State :=
  match (s.cell n).seq.wb with
  | [] => s
  | e :: r => (s.onCell n fun c => c.withSeq fun q => { q with wb := r }).performWb n e

/-- Every buffered store performs, in order. -/
def State.drain (s : State) (n : Nat) : State :=
  (s.cell n).seq.wb.foldl (fun s _ => s.performOldest n) s

/-- A store enters the buffer; with 16 entries in it the oldest performs first (R341). -/
def State.buffer (s : State) (n : Nat) (e : WbEntry) : State :=
  let s := if (s.cell n).seq.wb.length ≥ 16 then s.performOldest n else s
  s.onCell n fun c => c.withSeq fun q => { q with wb := q.wb ++ [e] }

/-- Lines that the L1 of a cell holds: 256 KiB (R12). -/
def l1Lines : Nat := 4096

/-- Fill an L1 line of cell n from memory. A full L1 gives up a line first; which one is open (R12, R138, log 3). -/
def State.l1Fill (s : State) (n line : Nat) : State :=
  let (v, s) := s.takeFree
  let bytes := s.lineBytes line
  s.onCell n fun c =>
    { c with l1 := Map.put (if l1Lines ≤ (Map.erase c.l1 line).length then c.l1.eraseIdx (v % c.l1.length) else c.l1) line bytes }

/-- The youngest buffered byte at an address. -/
def wbByte (wb : List WbEntry) (a : Nat) : Option Byte :=
  wb.foldl (fun r e => match e with
    | .bytes l _ => match (l.find? fun x => x.1 == a) with
      | some x => some x.2
      | none => r
    | .event .. => r) none

/-- What the buffer gives for n bytes: all of them, none, or a partial overlap (R341). -/
def Cell.forward (c : Cell) (a n : Nat) : Option (List Byte) × Bool :=
  let l := tabulate n fun i => wbByte c.seq.wb (a + i)
  if l.all (·.isSome) then (some (l.filterMap id), true) else (none, l.any (·.isSome))

/-- An acquire of a scope by an agent of cell n (R178). -/
def State.acquire (s : State) (n : Nat) (sc : Scope) : State :=
  match sc with
  | .cell => s
  | _ => s.onCell n fun c => c.acquire sc

/-- Read n bytes of a NORM or FE page for cell n: from the write buffer, the L1, or memory, which fills a NORM line
(R138, R337, R341). -/
def State.readNorm (s : State) (n : Nat) (l : Loc) (size : Nat) : State × Nat :=
  match (s.cell n).forward l.pa size with
  | (some b, _) => (s, leNat b)
  | (none, part) =>
    let s := if part then s.drain n else s
    match Map.get? (s.cell n).l1 (l.pa / 64) with
    | some line => (s, leAt line (l.pa % 64) size)
    | none =>
      let s := (s.touch n l.cls l.pa false false).countCell n 11 1
      let v := s.load l.pa size
      (if l.cls = .norm then s.l1Fill n (l.pa / 64) else s, v)

/-- The 8 bytes of the counter window at an offset (R280): generation, update time, event counters, class totals. -/
def State.windowWord (s : State) (p off : Nat) : Word :=
  let v := s.part p
  let o := off - (0x2000 + 0xC00 * p)
  if off < 0x2000 + 0xC00 * p ∨ o ≥ 0x480 then 0
  else if o = 0 then BitVec.ofNat 64 v.gen
  else if o = 8 then BitVec.ofNat 64 v.lastUpdate
  else if o < 0x40 then 0
  else if o < 0xC0 then Map.get 0 v.counters ((o - 0x40) / 8)
  else Map.get 0 v.classTotals ((o - 0xC0) / 8)

/-- A doubleword load of a device window by a cell of a VF: the Belvedere of a partition that the VF does not own reads zero
(R128, R279, R280). -/
def State.readDev (s : State) (vf pa : Nat) : Word :=
  match eventWindow (paLocal pa), counterWindow (paLocal pa) with
  | some (f, e), _ => Map.get 0 (s.func f).events e
  | none, some (p, off) => if (s.part p).vf = vf then s.windowWord p off else 0
  | none, none => 0

/-- A load of cell n at a checked place (R337, R342). DEV accesses take effect in program order, after the buffered
stores; one of a queue event is an acquire at DEV (R191). -/
def State.readLoc (s : State) (n : Nat) (l : Loc) (size : Nat) : State × Nat :=
  match l.cls with
  | .dev =>
    let s := s.drain n
    (if (eventWindow (paLocal l.pa)).isSome then s.acquire n .dev else s, (s.readDev (s.cell n).ident.vf l.pa).toNat)
  | _ => s.readNorm n l size

/-! ### Bank operations (R139, R344, R390, R413) -/

/-- The new value of an atomic on w-bit words, ops 0 to 9 (R344); op 10 is `AFADD`. -/
def atomicNew (w : Nat) (fadd : BitVec w → BitVec w → BitVec w) (op : Nat) (m v cmp : BitVec w) : BitVec w :=
  match op with
  | 0 => m + v
  | 1 => if v.toInt < m.toInt then v else m
  | 2 => if m.toInt < v.toInt then v else m
  | 3 => if v.toNat < m.toNat then v else m
  | 4 => if m.toNat < v.toNat then v else m
  | 5 => m &&& v
  | 6 => m ||| v
  | 7 => m ^^^ v
  | 8 => v
  | 9 => if m = cmp then v else m
  | _ => fadd m v

/-- Perform a read-modify-write at the bank for cell n and return the old value; the cell's own L1 line goes (R344). An
operation that writes nothing on the old value reads the line only (R345). -/
def State.bankRmw (s : State) (n : Nat) (pa size : Nat) (writes : Nat → Bool) (f : Nat → Nat) : State × Nat :=
  let s := s.touch n .norm pa (writes (s.load pa size)) false
  let old := s.load pa size
  let s := (s.store pa (leBytes size (f old))).endUncached
  (s.onCell n fun c => { c with l1 := Map.erase c.l1 (pa / 64) }, old)

/-! ### Full-empty words (R140 to R142) -/

def State.isFull (s : State) (pa : Nat) : Bool := Map.get false s.full pa
def State.setFull (s : State) (pa : Nat) (b : Bool) : State := { s with full := Map.set false s.full pa b }

/-- The words whose deferral entries the slices hold: of waiting loads, of thread watches, and of loads of other modules
(R141). -/
def State.deferrals (s : State) : List Nat :=
  s.cells.flatMap (fun e => (e.2.seq.deferral.filter fun x => x.2.isNone).toList.map (·.1) ++ e.2.phase.watches.map (·.2))
    ++ s.launches.flatMap (fun l => l.2.images.flatMap fun e => e.2.phase.watches.map (·.2))
    ++ s.pod.deferred.map fun x => x.2.2

/-- One of the 256 deferral entries of a word's slice is free (R141). -/
def State.deferralFree (s : State) (pa : Nat) : Bool :=
  let slice (a : Nat) : Nat × Nat := (dieOfPart (s.homePart a), sliceOf (a / 64))
  decide ((s.deferrals.filter fun a => paModule a == paModule pa && slice a == slice pa).length < 256)

/-- A word is filled with a value: the cell's waiting load has it, and its watches on the word end, whose threads' fault-pending
marks clear. -/
def Cell.wake (c : Cell) (pa : Nat) (v : W32) : Cell :=
  let woken := (c.phase.watches.filter fun x => x.2 == pa).map (·.1)
  let p := woken.foldl Phase.clearFault c.phase
  { c with
    phase := { p with watches := c.phase.watches.filter fun x => x.2 != pa }
    seq := { c.seq with deferral := if c.seq.deferral = some (pa, none) then some (pa, some v) else c.seq.deferral } }

/-- A fill of an FE word completes every load that waits on it, of this module and of others, and wakes its watchers, in cells and
saved images (R140, R141). -/
def State.wake (s : State) (pa : Nat) : State :=
  let v := BitVec.ofNat 32 (s.load pa 4)
  let s : State := { s with
    cells := s.cells.map fun e => (e.1, e.2.wake pa v)
    launches := s.launches.map fun l => (l.1, { l.2 with images := l.2.images.map fun e => (e.1, e.2.wake pa v) }) }
  let mine := s.pod.deferred.filter fun x => x.2.2 == pa
  let s := s.onPod fun p => { p with deferred := p.deferred.filter fun x => x.2.2 != pa }
  mine.foldl (fun s x => s.answerRemote x.1 x.2.1 pa (readBytes s.mem pa 4) false) s

/-- `STFE` at the slice: fills an empty word; false for a full one (R140). -/
def State.fillWord (s : State) (n pa : Nat) (v : W32) : State × Bool :=
  let s := s.touch n .fe pa true false
  if s.isFull pa then (s.endUncached, false)
  else ((((s.store pa (leBytes 4 v.toNat)).setFull pa true).wake pa).endUncached, true)

/-- Change the focus cell and go on, unless the access has ended its launch or world. -/
def State.settle (s : State) (f : Cell → Cell) : State := if s.cur.run = .idle then s else s.onCur f

end Sys2Proof.Machine
end

