-- ==== Sys2Proof/Machine/Boot.lean ====
section
/-! DEFINITION. Resets and the boot sequence (R17 to R20), power, cooling and clocks (R14 to R16), and the enabling of the
virtual functions (R21). -/

namespace Sys2Proof.Machine

/-! ### Resets (R17) -/

/-- The module as both resets leave it at stage 1: every key erased, every world ended, new generations for all partitions.
What is outside it stays: host memory, the fitted second tier and the installed firmware; memory holds its bytes until
stage 7. -/
def State.restart (s : State) : State :=
  { State.reset with
    timebase := s.timebase, mem := s.mem, hostMem := s.hostMem, cxl0 := s.cxl0, cxl1 := s.cxl1, free := s.free
    agenda := s.agenda, focus := s.focus, out := s.out
    parts := tabulate 16 fun p => (p, { Part.reset with gen := (s.part p).gen + 1 })
    lodge := { Lodge.reset with
      fwVersion := s.lodge.fwVersion, fwDigest := s.lodge.fwDigest, romDigest := s.lodge.romDigest
      gardenerDigest := s.lodge.gardenerDigest } }

/-- The 32-byte world-end record (R272). -/
def World.endRecord (v : World) (w : Nat) : List Byte :=
  leBytes 1 w ++ leBytes 1 v.endCause ++ leBytes 2 v.endCell ++ leBytes 4 v.endEpoch ++ leBytes 8 v.endTime ++ leBytes 16 0

/-! ### The boot sequence (R18 to R20) -/

/-- Boot is complete: the module answers its BARs and takes commands. -/
def State.booted (s : State) : Bool := s.boot.stage == 8 && !s.boot.fail

/-- The units that a stage can report (R18). -/
def bootUnits (stage : Nat) : Nat :=
  match stage with
  | 1 | 2 => 1
  | 3 => 4
  | 4 => 12
  | _ => 4

/-- Local HBM and the Orangery, which stage 7 zeroes (R18). -/
def State.bootZeroes (s : State) (pa : Nat) : Bool :=
  paModule pa == s.pod.self && (isHbm (paLocal pa) || isOrangery (paLocal pa))

/-- The worlds that a module reset has ended are scrubbed by the zeroing: each leaves its record and is Free (R44, R272). -/
def State.freeEnded (s : State) : State :=
  { s with
    worlds := s.worlds.filter fun w => w.2.st != .ending
    lodge := { s.lodge with worldEnds := s.lodge.worldEnds
      ++ (s.worlds.filter fun w => w.2.st == .ending).map fun w => (w.2.vf, w.2.endRecord w.1) } }

/-- The work of a stage that software can see: stage 2 makes the root keys and starts the timebase, stage 7 zeroes the stores
of the module. -/
def State.bootWork (s : State) (stage : Nat) : State :=
  match stage with
  | 2 =>
    { s with
      timebase := 0, free := s.free + 3
      lodge := { s.lodge with keys := some {
        identity := Config.deviceKey, alias_ := Config.freshKey s.free, seed := seedOf s.lodge.fwVersion
        memory := Config.freshKey (s.free + 1), haha := Config.freshKey (s.free + 2) } } }
  | 7 => State.freeEnded { s with
      mem := s.mem.filter fun e => !s.bootZeroes e.1
      full := s.full.filter fun e => !s.bootZeroes e.1
      stamps := [], lines := [], cells := [], opdBacked := [] }
  | _ => s

/-- BOOT_STAGE_COMPLETE: the next stage, or the end of the sequence with the failing unit. -/
def execBootStageComplete (failed : Option Nat) (s : State) : Host.Outcome State Fault Refusal :=
  let b := s.boot
  if b.fail ∨ 8 ≤ b.stage then .next s
  else
    match failed with
    | some u =>
      if u < bootUnits b.stage then .next (({ s with boot := { b with fail := true, unit := u } } : State).signal 0 2) else .next s
    | none => .next (({ s.bootWork b.stage with boot := { b with stage := b.stage + 1 } } : State).signal 0 2)

/-! ### Clocks (R15, R16) -/

/-- The Lodge runs its firmware: stage 1 has passed. -/
def State.lodgeUp (s : State) : Bool := decide (2 ≤ s.boot.stage)

/-- A clock step: counted, and logged in every Belvedere. -/
def State.clockTo (s : State) (mhz : Nat) : State :=
  let old := s.clock.mhz
  if mhz = old then s
  else
    let s := ({ s with clock := { s.clock with mhz := mhz } } : State).hyperAdd 4 1
    (List.range 16).foldl (fun s p => s.trace p 1 0xFFFF 0 (leBytes 2 old ++ leBytes 2 mhz)) s

/-- POWER_SAMPLE: one step down while the average exceeds the limit, to the floor of 800 MHz; a pinned clock stays. -/
def execPowerSample (avgW : Nat) (s : State) : Host.Outcome State Fault Refusal :=
  if s.lodgeUp && !s.clock.pinned && decide (s.clock.limitW < avgW) && decide (900 ≤ s.clock.mhz) then
    .next (s.clockTo (s.clock.mhz - 100))
  else .next s

/-- CLOCK_RAISE_STEP: one step up while the average is below 95 % of the limit. -/
def execClockRaiseStep (avgW : Nat) (s : State) : Host.Outcome State Fault Refusal :=
  if s.lodgeUp && !s.clock.pinned && decide (100 * avgW < 95 * s.clock.limitW) && decide (s.clock.mhz ≤ 1500) then
    .next (s.clockTo (s.clock.mhz + 100))
  else .next s

/-- THERMAL_THROTTLE. -/
def execThermalThrottle (s : State) : Host.Outcome State Fault Refusal :=
  if s.lodgeUp then
    let t := s.clockTo 800
    .next { t with clock := { t.clock with pinned := true } }
  else .next s

/-- THERMAL_THROTTLE_RELEASE: R15 raises the clock again from where it is. -/
def execThermalThrottleRelease (s : State) : Host.Outcome State Fault Refusal :=
  .next { s with clock := { s.clock with pinned := false } }

/-! ### Virtual functions (R21, R90) -/

/-- VF_ENABLE: functions 1 to 16 with zero queue events and fresh IDE streams. -/
def execVfEnable (s : State) : Host.Outcome State Fault Refusal :=
  if s.booted then
    .next ((List.range 16).foldl (fun s i =>
      if (s.func (i + 1)).enabled then s else s.setFunc (i + 1) { Func.reset with enabled := true }) s)
  else .next s

end Sys2Proof.Machine
end

