-- ==== Sys2Proof/Machine/Flags.lean ====
section
/-! DEFINITION. Conditions. The part has no flag register and no exception flags (R199): a comparison yields a value at once,
under the eight conditions of R312. -/

namespace Sys2Proof.Machine

/-- How two values compare; `un` is a comparison with a NaN. -/
inductive Ordered where
  | lt | eq | gt | un
  deriving DecidableEq, Repr

/-- A condition of R312 on a comparison: a NaN makes all false but not-equal and unordered (R201). -/
def condHolds : Cond → Ordered → Bool
  | .eq, o => o == .eq
  | .ne, o => o != .eq
  | .lt, o => o == .lt
  | .le, o => o == .lt || o == .eq
  | .gt, o => o == .gt
  | .ge, o => o == .gt || o == .eq
  | .un, o => o == .un
  | .ord, o => o != .un

/-- Comparison of integers. -/
def intOrder (a b : Int) : Ordered := if a < b then .lt else if a = b then .eq else .gt

/-- 1 or 0 as a word of any width. -/
def flagWord (w : Nat) (b : Bool) : BitVec w := if b then 1 else 0

/-- R328, R330: signed and unsigned less-than on 64-bit words. -/
def ltS (a b : Word) : Bool := decide (a.toInt < b.toInt)
def ltU (a b : Word) : Bool := decide (a.toNat < b.toNat)

end Sys2Proof.Machine
end

