-- ==== Sys2Proof/Machine/Float.lean ====
section
/-! DEFINITION. Exact arithmetic and rounding (R199 to R203, R206): values as a sign, a natural significand and a power of
two, the four rounding modes, the IEEE formats, and the correctly rounded functions. -/

namespace Sys2Proof.Machine

/-! ### Values -/

/-- An extended real with a signed zero: (−1)^neg × m × 2^e, or an infinity, or not a number. -/
inductive Val where
  | nan
  | inf (neg : Bool)
  | fin (neg : Bool) (m : Nat) (e : Int)
  deriving DecidableEq, Repr

def Val.isNan : Val → Bool
  | .nan => true
  | _ => false

def Val.neg : Val → Val
  | .nan => .nan
  | .inf s => .inf (!s)
  | .fin s m e => .fin (!s) m e

/-- The sign, set for negative values and −0. -/
def Val.sign : Val → Bool
  | .nan => false
  | .inf s => s
  | .fin s _ _ => s

/-- Multiply by 2^k, exactly. -/
def Val.scale (k : Int) : Val → Val
  | .fin s m e => .fin s m (e + k)
  | v => v

/-- m × 2^e as an integer multiple of 2^b, for b ≤ e. -/
def align (neg : Bool) (m : Nat) (e b : Int) : Int :=
  let x : Int := m * 2 ^ (e - b).toNat
  if neg then -x else x

/-- The value of an integer times 2^e; a zero takes the sign given. -/
def Val.ofInt (x e : Int) (zeroNeg : Bool) : Val :=
  if x = 0 then .fin zeroNeg 0 0 else .fin (decide (x < 0)) x.natAbs e

/-- The exact sum, with the zero sign of R200. -/
def Val.add (mode : Rnd) (a b : Val) : Val :=
  match a, b with
  | .nan, _ => .nan
  | _, .nan => .nan
  | .inf s, .inf t => if s = t then .inf s else .nan
  | .inf s, _ => .inf s
  | _, .inf t => .inf t
  | .fin s m e, .fin t n f =>
    if m = 0 ∧ n = 0 ∧ s = t then .fin s 0 0
    else
      let c := min e f
      Val.ofInt (align s m e c + align t n f c) c (mode == .rdn)

/-- The exact product; 0 × ∞ is not a number. -/
def Val.mul (a b : Val) : Val :=
  match a, b with
  | .nan, _ => .nan
  | _, .nan => .nan
  | .inf s, .inf t => .inf (s != t)
  | .inf s, .fin t n _ => if n = 0 then .nan else .inf (s != t)
  | .fin s m _, .inf t => if m = 0 then .nan else .inf (s != t)
  | .fin s m e, .fin t n f => .fin (s != t) (m * n) (e + f)

/-- a × b + c with no rounding between. -/
def Val.fma (mode : Rnd) (a b c : Val) : Val := (a.mul b).add mode c

/-- Order of two values, −0 equal to +0. -/
def Val.order (a b : Val) : Ordered :=
  match a, b with
  | .nan, _ => .un
  | _, .nan => .un
  | .inf s, .inf t => if s = t then .eq else if s then .lt else .gt
  | .inf s, _ => if s then .lt else .gt
  | _, .inf t => if t then .gt else .lt
  | .fin s m e, .fin t n f => intOrder (align s m e (min e f)) (align t n f (min e f))

/-- A significand m with a mark that the true value lies strictly between m and m + 1, in halves. -/
def sticky (m : Nat) (inexact : Bool) : Nat := 2 * m + (if inexact then 1 else 0)

/-- The quotient, to 70 bits and a sticky bit (R203). -/
def Val.div (a b : Val) : Val :=
  match a, b with
  | .nan, _ => .nan
  | _, .nan => .nan
  | .inf _, .inf _ => .nan
  | .inf s, .fin t _ _ => .inf (s != t)
  | .fin s _ _, .inf t => .fin (s != t) 0 0
  | .fin s m e, .fin t n f =>
    if n = 0 then (if m = 0 then .nan else .inf (s != t))
    else if m = 0 then .fin (s != t) 0 0
    else
      let k := 70 + Nat.log2 n
      .fin (s != t) (sticky (m * 2 ^ k / n) (m * 2 ^ k % n != 0)) (e - f - k - 1)

/-- ⌊√x⌋ for a result of at most n bits, from its highest bit down. -/
def isqrt (x : Nat) : Nat → Nat → Nat
  | 0, r => r
  | n + 1, r => isqrt x n (if (r + 2 ^ n) * (r + 2 ^ n) ≤ x then r + 2 ^ n else r)

/-- The square root, to at least 70 bits and a sticky bit. -/
def Val.sqrt : Val → Val
  | .nan => .nan
  | .inf s => if s then .nan else .inf false
  | .fin s m e =>
    if m = 0 then .fin s 0 0
    else if s then .nan
    else
      let k : Nat := 140 + (if (e - 140) % 2 = 0 then 0 else 1)
      let x := m * 2 ^ k
      let r := isqrt x (Nat.log2 x / 2 + 1) 0
      .fin false (sticky r (r * r != x)) ((e - k) / 2 - 1)

/-- The reciprocal square root: ⌊√(2^2K ÷ m)⌋ with a sticky bit. -/
def Val.rsqrt : Val → Val
  | .nan => .nan
  | .inf s => if s then .nan else .fin false 0 0
  | .fin s m e =>
    if m = 0 then .inf s
    else if s then .nan
    else
      let m' := if e % 2 = 0 then m else 2 * m
      let e' := if e % 2 = 0 then e else e - 1
      let k := 70 + Nat.log2 m'
      let x := 2 ^ (2 * k) / m'
      let r := isqrt x (Nat.log2 x / 2 + 1) 0
      .fin false (sticky r (r * r * m' != 2 ^ (2 * k))) (-k - e' / 2 - 1)

/-! ### Rounding (R200) -/

/-- Whether rounding moves a magnitude up: its code's parity, the remainder and half a unit, and the sign. -/
def roundsUp (mode : Rnd) (neg odd : Bool) (r half : Nat) : Bool :=
  match mode with
  | .rne => decide (half < r) || (r == half && odd)
  | .rtz => false
  | .rup => r != 0 && !neg
  | .rdn => r != 0 && neg

/-- The magnitude code of m × 2^e rounded to precision P with bias B, the exponent unbounded above: the exponent field
above P − 1 trailing bits, so that codes order as magnitudes and a tie goes to the even code. -/
def roundMag (P : Nat) (B : Int) (mode : Rnd) (neg : Bool) (m : Nat) (e : Int) : Nat :=
  if m = 0 then 0
  else
    let l : Int := Nat.log2 m + e
    let q : Int := max l (1 - B) - (P - 1 : Nat)
    let top := (max (l + B) 1 - 1).toNat * 2 ^ (P - 1)
    if q ≤ e then top + m * 2 ^ (e - q).toNat
    else
      let sh := (q - e).toNat
      let n := top + m / 2 ^ sh
      -- twice the remainder against the unit, so that a half needs no fraction
      if roundsUp mode neg (n % 2 == 1) (2 * (m % 2 ^ sh)) (2 ^ sh) then n + 1 else n

/-- The magnitude of a code. -/
def magVal (P : Nat) (B : Int) (neg : Bool) (n : Nat) : Val :=
  let f := n / 2 ^ (P - 1)
  let t := n % 2 ^ (P - 1)
  if f = 0 then .fin neg t (1 - B - (P - 1 : Nat)) else .fin neg (t + 2 ^ (P - 1)) (f - B - (P - 1 : Nat))

/-- Whether overflow gives the largest finite magnitude in a mode. -/
def overflowStays (mode : Rnd) (neg : Bool) : Bool :=
  match mode with
  | .rne => false
  | .rtz => true
  | .rup => neg
  | .rdn => !neg

/-! ### IEEE formats (R199) -/

/-- An IEEE binary format: width, precision, bias. -/
structure FFmt where
  w : Nat
  p : Nat
  b : Nat
  deriving DecidableEq, Repr

def f32F : FFmt := { w := 32, p := 24, b := 127 }
def f64F : FFmt := { w := 64, p := 53, b := 1023 }
def bf16F : FFmt := { w := 16, p := 8, b := 127 }

/-- The code of +∞. -/
def FFmt.infCode (f : FFmt) : Nat := (2 ^ (f.w - f.p) - 1) * 2 ^ (f.p - 1)
/-- The canonical NaN. -/
def FFmt.nanCode (f : FFmt) : Nat := f.infCode + 2 ^ (f.p - 2)

/-- The value of a code. -/
def FFmt.val (f : FFmt) (n : Nat) : Val :=
  let neg := n / 2 ^ (f.w - 1) % 2 == 1
  let mag := n % 2 ^ (f.w - 1)
  if f.infCode < mag then .nan else if mag = f.infCode then .inf neg else magVal f.p f.b neg mag

/-- The sign bit of a format. -/
def FFmt.signed (f : FFmt) (neg : Bool) (mag : Nat) : Nat := (if neg then 2 ^ (f.w - 1) else 0) + mag

/-- The code of a value rounded in a mode; overflow as R200 states. -/
def FFmt.round (f : FFmt) (mode : Rnd) : Val → Nat
  | .nan => f.nanCode
  | .inf s => f.signed s f.infCode
  | .fin s m e =>
    let n := roundMag f.p f.b mode s m e
    if n < f.infCode then f.signed s n
    else f.signed s (if overflowStays mode s then f.infCode - 1 else f.infCode)

/-- Value of an f32 word, and a value rounded to an f32 word. -/
def f32Val (x : W32) : Val := f32F.val x.toNat
def f32Of (mode : Rnd) (v : Val) : W32 := BitVec.ofNat 32 (f32F.round mode v)

/-- f32 addition, multiplication and fused multiply-add, to nearest even, as tangents, banks and the Arbour use them
(R200). -/
def f32Add (a b : W32) : W32 := f32Of .rne ((f32Val a).add .rne (f32Val b))
def f32Mul (a b : W32) : W32 := f32Of .rne ((f32Val a).mul (f32Val b))
def f32Fma (a b c : W32) : W32 := f32Of .rne ((f32Val a).fma .rne (f32Val b) (f32Val c))

/-! ### Integers (R206) -/

/-- A value rounded to an integer; infinities and NaN give none. -/
def Val.toInt? (mode : Rnd) : Val → Option Int
  | .fin s m e =>
    let n : Nat :=
      if 0 ≤ e then m * 2 ^ e.toNat
      else
        let sh := (-e).toNat
        let q := m / 2 ^ sh
        if roundsUp mode s (q % 2 == 1) (2 * (m % 2 ^ sh)) (2 ^ sh) then q + 1 else q
    some (if s then -n else n)
  | _ => none

/-- Conversion to an integer range: NaN gives 0, out of range the nearer limit. -/
def Val.toRange (mode : Rnd) (lo hi : Int) (v : Val) : Int :=
  match v with
  | .nan => 0
  | .inf s => if s then lo else hi
  | _ => match v.toInt? mode with
    | some x => max lo (min hi x)
    | none => 0

/-- An integer as a value; zero is +0. -/
def intVal (x : Int) : Val := Val.ofInt x 0 false

/-! ### Minimum and maximum (R201) -/

/-- Order of R201: −0 below +0. -/
def Val.below (a b : Val) : Bool :=
  match a.order b with
  | .lt => true
  | .eq => a.sign && !b.sign
  | _ => false

/-- Which operand `FMIN` or `FMAX` returns: the first, the second, or the canonical NaN. A tie returns the first
(R212). -/
def minMaxPick (isMax : Bool) (a b : Val) : Option Bool :=
  match a.isNan, b.isNan with
  | true, true => none
  | true, false => some false
  | false, true => some true
  | false, false => some (if isMax then !a.below b else !b.below a)

/-! ### Functions (R203)

A function value is enclosed between two fixed-point numbers; where both round to one code that code is the correctly
rounded result, which decides every argument but exact ones, which are taken apart first. -/

/-- Fraction bits of the fixed-point enclosures. -/
def fixBits : Nat := 640
def fixOne : Nat := 2 ^ fixBits

/-- Σ z^(2k+1) ÷ (2k+1) over the fixed-point powers z, n terms; `alt` alternates the signs. -/
def oddSeries (alt : Bool) (zz : Nat) : Nat → Nat → Nat → Int
  | 0, _, _ => 0
  | n + 1, k, z =>
    let t : Int := (z / (2 * k + 1) : Nat)
    (if alt && k % 2 == 1 then -t else t) + oddSeries alt zz n (k + 1) (z * zz / fixOne)

/-- ln 2 = 2 artanh(1/3). -/
def fixLn2 : Nat := (2 * oddSeries false (fixOne / 9) 220 0 (fixOne / 3)).toNat
/-- π = 16 arctan(1/5) − 4 arctan(1/239). -/
def fixPi : Nat :=
  (16 * oddSeries true (fixOne / 25) 150 0 (fixOne / 5) - 4 * oddSeries true (fixOne / 57121) 50 0 (fixOne / 239)).toNat

/-- Σ y^k ÷ k! from a term on, n terms. -/
def expSeries (y : Nat) : Nat → Nat → Nat → Nat
  | 0, _, _ => 0
  | n + 1, k, t => t + expSeries y n (k + 1) (t * y / fixOne / (k + 1))

/-- e^y for a fixed-point y below 1. -/
def fixExp (y : Nat) : Nat := expSeries y 140 0 fixOne

/-- Σ (−1)^k y^(2k+j) ÷ (2k+j)!: sine for j = 1, cosine for j = 0, n terms. -/
def trigSeries (yy : Nat) : Nat → Nat → Bool → Nat → Int
  | 0, _, _, _ => 0
  | n + 1, j, neg, t =>
    (if neg then -(t : Int) else t) + trigSeries yy n (j + 2) (!neg) (t * yy / fixOne / ((j + 1) * (j + 2)))

def fixSin (y : Nat) : Int := trigSeries (y * y / fixOne) 80 1 false y
def fixCos (y : Nat) : Int := trigSeries (y * y / fixOne) 80 0 false fixOne

/-- Bound of the accumulated error of an enclosure, in units of 2^−640. -/
def fixSlack : Int := 2 ^ 160

/-- The code of a value x × 2^e enclosed within the slack, x in fixed point; undecided where its ends round apart. -/
def enclosed (fn : Nat) (arg : W32) (mode : Rnd) (x : Int) (e : Int) : W32 :=
  let at_ (y : Int) := f32Of mode (Val.ofInt y (e - fixBits) false)
  let lo := at_ (x - fixSlack)
  if lo = at_ (x + fixSlack) then lo else Config.undecided fn arg (match mode with
    | .rne => 0 | .rtz => 1 | .rup => 2 | .rdn => 3)

/-- A value just below m × 2^e in magnitude, m > 0. -/
def justBelow (neg : Bool) (m : Nat) (e : Int) : Val := .fin neg (m * 2 ^ 50 - 1) (e - 50)

/-- m × 2^e in fixed point. -/
def toFix (m : Nat) (e : Int) : Nat :=
  if 0 ≤ e + fixBits then m * 2 ^ (e + fixBits).toNat else m / 2 ^ (-(e + fixBits)).toNat

/-- 2^x. -/
def f32Exp2 (mode : Rnd) (x : W32) : W32 :=
  match f32Val x with
  | .nan => f32Of mode .nan
  | .inf s => f32Of mode (if s then .fin false 0 0 else .inf false)
  | .fin s m e =>
    if m = 0 then f32Of mode (.fin false 1 0)
    else if 10 < (Nat.log2 m : Int) + e then f32Of mode (.fin false 1 (if s then -400 else 400))
    else
      let y : Int := if s then -(toFix m e) else toFix m e
      let n := y / fixOne
      let f := (y % fixOne).toNat
      if f = 0 then f32Of mode (.fin false 1 n)
      else enclosed 0 x mode (fixExp (f * fixLn2 / fixOne)) n

/-- log₂ x. -/
def f32Log2 (mode : Rnd) (x : W32) : W32 :=
  match f32Val x with
  | .nan => f32Of mode .nan
  | .inf s => f32Of mode (if s then .nan else .inf false)
  | .fin s m e =>
    if m = 0 then f32Of mode (.inf true)
    else if s then f32Of mode .nan
    else
      let l := Nat.log2 m
      let k : Int := l + e
      if m = 2 ^ l then f32Of mode (Val.ofInt k 0 false)
      else
        let z := (m - 2 ^ l) * fixOne / (m + 2 ^ l)
        let ln := 2 * oddSeries false (z * z / fixOne) 220 0 z
        enclosed 1 x mode (k * fixOne + ln * fixOne / fixLn2) 0

/-- tanh x. -/
def f32Tanh (mode : Rnd) (x : W32) : W32 :=
  match f32Val x with
  | .nan => f32Of mode .nan
  | .inf s => f32Of mode (.fin s 1 0)
  | .fin s m e =>
    if m = 0 then x
    else if (Nat.log2 m : Int) + e < -40 then f32Of mode (justBelow s m e)
    else if 5 < (Nat.log2 m : Int) + e then f32Of mode (justBelow s 1 0)
    else
      let y := 2 * toFix m e
      let n := y / fixLn2
      let ex := fixExp (y % fixLn2) * 2 ^ n
      let t : Int := ((ex - fixOne) * fixOne / (ex + fixOne) : Nat)
      enclosed 2 x mode (if s then -t else t) 0

/-- Sine (`co` clear) or cosine of a finite argument, its multiple of π/2 taken out exactly. -/
def f32SinCos (co : Bool) (mode : Rnd) (x : W32) : W32 :=
  match f32Val x with
  | .nan => f32Of mode .nan
  | .inf _ => f32Of mode .nan
  | .fin s m e =>
    if m = 0 then (if co then f32Of mode (.fin false 1 0) else x)
    else if (Nat.log2 m : Int) + e < -40 then f32Of mode (if co then justBelow false 1 0 else justBelow s m e)
    else
      let y := toFix m e
      let half := fixPi / 2
      let k := y / half
      let r := y % half
      let v : Int := match (k + (if co then 1 else 0)) % 4 with
        | 0 => fixSin r
        | 1 => fixCos r
        | 2 => -fixSin r
        | _ => -fixCos r
      enclosed (if co then 4 else 3) x mode (if s && !co then -v else v) 0

end Sys2Proof.Machine
end

