-- ==== Sys2Proof/Machine/Formats.lean ====
section
/-! DEFINITION. Format codes, their decoding and conversion into them (R192 to R197, R205, R206). -/

namespace Sys2Proof.Machine

/-- The families of a format code (R195). -/
inductive Family where
  | p3109 | integer | pass | reserved
  deriving DecidableEq, Repr

def fmtFamily (c : Byte) : Family :=
  match (c.extractLsb' 6 2).toNat with
  | 0 => .p3109
  | 1 => .integer
  | 2 => .pass
  | _ => .reserved

/-- K of a code: 8 or 4 bits for a P3109 or integer code. -/
def fmtK (c : Byte) : Nat := if c.getLsbD 5 then 4 else 8
def fmtSigned (c : Byte) : Bool := c.getLsbD 4
def fmtInf (c : Byte) : Bool := c.getLsbD 3
def fmtP (c : Byte) : Nat := (c.extractLsb' 0 3).toNat

/-- The reserved codes of R195. -/
def fmtReserved (c : Byte) : Bool :=
  match fmtFamily c with
  | .reserved => true
  | .p3109 => fmtP c == 0 || decide (fmtK c ≤ fmtP c)
  | .integer => c.extractLsb' 0 4 != 0
  | .pass => c.extractLsb' 0 5 != 0

def fmtBf16 : Byte := 0x80
def fmtF32 : Byte := 0xA0

/-- Bits of one element of a format. -/
def fmtBits (c : Byte) : Nat :=
  match fmtFamily c with
  | .pass => if c.getLsbD 5 then 32 else 16
  | _ => fmtK c

/-- Bits of a code's magnitude: all but a sign. -/
def fmtMagBits (c : Byte) : Nat := if fmtSigned c then fmtK c - 1 else fmtK c
/-- The bias B = 2^(W − 1) (R193, R194). -/
def fmtBias (c : Byte) : Int := 2 ^ (fmtMagBits c + 1 - fmtP c - 1)
/-- The NaN code. -/
def fmtNan (c : Byte) : Nat := if fmtSigned c then 2 ^ (fmtK c - 1) else 2 ^ fmtK c - 1
/-- The greatest magnitude code that is a number: unsigned formats end in the NaN code. -/
def fmtTop (c : Byte) : Nat := if fmtSigned c then 2 ^ (fmtK c - 1) - 1 else 2 ^ fmtK c - 2
/-- The greatest finite magnitude code. -/
def fmtMaxFinite (c : Byte) : Nat := if fmtInf c then fmtTop c - 1 else fmtTop c

/-- Decode a P3109 code (R193, R194). -/
def decodeP3109 (c : Byte) (x : Nat) : Val :=
  let neg := fmtSigned c && x / 2 ^ (fmtK c - 1) % 2 == 1
  let mag := x % 2 ^ fmtMagBits c
  if x = fmtNan c then .nan
  else if fmtInf c && mag == fmtTop c then .inf neg
  else magVal (fmtP c) (fmtBias c) neg mag

/-- Two's complement of the low k bits. -/
def signedOf (k x : Nat) : Int := if x % 2 ^ k < 2 ^ (k - 1) then (x % 2 ^ k : Nat) else (x % 2 ^ k : Nat) - (2 ^ k : Nat)

/-- The value of an element's bits under a format (R193 to R196); a reserved code gives NaN, but no path reads one. -/
def decodeFmt (c : Byte) (x : Nat) : Val :=
  match fmtFamily c with
  | .p3109 => decodeP3109 c (x % 2 ^ fmtK c)
  | .integer => intVal (if fmtSigned c then signedOf (fmtK c) x else (x % 2 ^ fmtK c : Nat))
  | .pass => if c.getLsbD 5 then f32F.val (x % 2 ^ 32) else bf16F.val (x % 2 ^ 16)
  | .reserved => .nan

/-- A descriptor's scale (R197): none marks a NaN block. -/
def scaleOf (s : Byte) : Option Int := if s = 0x80 then none else some s.toInt

/-- The value of an element under a descriptor (R197). -/
def descVal (d : Desc) (x : Nat) : Val :=
  match scaleOf d.scale with
  | none => .nan
  | some k => (decodeFmt d.fmt x).scale k

/-- The code of a signed magnitude. -/
def codeOf (c : Byte) (neg : Bool) (mag : Nat) : Nat := if fmtSigned c && neg && mag != 0 then 2 ^ (fmtK c - 1) + mag else mag

/-- `to_p3109` of R205; `ovf` is the overflow mode OVF. -/
def toP3109 (c : Byte) (mode : Rnd) (ovf : Bool) (v : Val) : Nat :=
  let finish (neg : Bool) (n : Nat) (big : Bool) : Nat :=
    if !fmtSigned c && neg && (big || n != 0) then (if ovf then fmtNan c else 0)
    else if !big && decide (n ≤ fmtMaxFinite c) then codeOf c neg n
    else if !ovf || mode == .rtz || (mode == .rup && neg) || (mode == .rdn && !neg) then codeOf c neg (fmtMaxFinite c)
    else if fmtInf c then codeOf c neg (fmtTop c)
    else fmtNan c
  match v with
  | .nan => fmtNan c
  | .inf s => finish s 0 true
  | .fin s m e => finish s (roundMag (fmtP c) (fmtBias c) mode s m e) false

/-- Conversion into an integer format code (R205). -/
def toIntFmt (c : Byte) (mode : Rnd) (ovf : Bool) (v : Val) : Nat :=
  let k := fmtK c
  let lo : Int := if fmtSigned c then -(2 ^ (k - 1)) else 0
  let hi : Int := if fmtSigned c then 2 ^ (k - 1) - 1 else 2 ^ k - 1
  let out : Int := if ovf then lo else v.toRange mode lo hi
  let x : Int := match v with
    | .nan => 0
    | _ => match v.toInt? mode with
      | some x => if lo ≤ x ∧ x ≤ hi then x else out
      | none => out
  (x % 2 ^ k).toNat

/-- A value converted into a format's code (R205, R206). -/
def encodeFmt (c : Byte) (mode : Rnd) (ovf : Bool) (v : Val) : Nat :=
  match fmtFamily c with
  | .p3109 => toP3109 c mode ovf v
  | .integer => toIntFmt c mode ovf v
  | .pass => if c.getLsbD 5 then f32F.round mode v else bf16F.round mode v
  | .reserved => 0

end Sys2Proof.Machine
end

