-- ==== Sys2Proof/Machine/Blocks.lean ====
section
/-! DEFINITION. Block configuration images: the opcode table of R322 and R395, links and sites (R213, R318), the routed graph
(R220, R396, R408), reading an image (R223 to R225) and the checks of its load (R221, R222, R226, R323). -/

namespace Sys2Proof.Machine

/-! ### Opcodes (R322, R395) -/

/-- Where an operation may stand (R222, R322). -/
inductive Place where
  | grid | west | north | east | south
  deriving DecidableEq, Repr

/-- What the D bit may be: never set, set on any listed type but `bf16x2` and `b8x4`, or set on `f32` alone (R211, R395). -/
inductive DRule where
  | never | plain | f32
  deriving DecidableEq, Repr

/-- A row of the element opcode map. -/
structure OpRow where
  op    : Nat
  arity : Nat
  types : List ElTy
  place : Place
  dual  : DRule

def allTypes : List ElTy := [.i32, .n32, .f32, .bf16x2, .i16x2, .i8x4, .n8x4, .b8x4]
def noB8 : List ElTy := [.i32, .n32, .f32, .bf16x2, .i16x2, .i8x4, .n8x4]
def intTypes : List ElTy := [.i32, .n32, .i16x2, .i8x4, .n8x4]
def wordTypes : List ElTy := [.i32, .n32]
def floatTypes : List ElTy := [.f32, .bf16x2]
def sumTypes : List ElTy := [.i32, .n32, .f32]
def packTypes : List ElTy := [.f32, .b8x4]

/-- A run of opcodes that share a row. -/
def rowsOf (lo hi arity : Nat) (types : List ElTy) (place : Place) (dual : DRule) : List OpRow :=
  tabulate (hi + 1 - lo) fun i => { op := lo + i, arity := arity, types := types, place := place, dual := dual }

def gridRows : List OpRow :=
  rowsOf 0x00 0x00 0 [.i32] .grid .never ++ rowsOf 0x01 0x01 1 allTypes .grid .plain
    ++ rowsOf 0x02 0x02 2 allTypes .grid .plain ++ rowsOf 0x03 0x03 1 wordTypes .grid .plain
    ++ rowsOf 0x08 0x0B 2 intTypes .grid .plain ++ rowsOf 0x0C 0x0C 3 intTypes .grid .plain
    ++ rowsOf 0x0D 0x0E 2 intTypes .grid .plain ++ rowsOf 0x0F 0x10 1 intTypes .grid .plain
    ++ rowsOf 0x11 0x16 2 intTypes .grid .plain ++ rowsOf 0x17 0x18 1 intTypes .grid .plain
    ++ rowsOf 0x19 0x19 3 wordTypes .grid .plain ++ rowsOf 0x1A 0x1A 2 intTypes .grid .plain
    ++ rowsOf 0x1B 0x1B 3 allTypes .grid .plain

def floatRows : List OpRow :=
  rowsOf 0x20 0x22 2 floatTypes .grid .plain ++ rowsOf 0x23 0x23 3 floatTypes .grid .plain
    ++ rowsOf 0x24 0x25 2 floatTypes .grid .plain ++ rowsOf 0x26 0x27 1 floatTypes .grid .plain
    ++ rowsOf 0x28 0x28 2 floatTypes .grid .plain ++ rowsOf 0x29 0x30 1 [.f32] .grid .plain
    ++ rowsOf 0x38 0x38 1 noB8 .grid .plain ++ rowsOf 0x39 0x39 2 packTypes .grid .never
    ++ rowsOf 0x3A 0x3A 1 packTypes .grid .never ++ rowsOf 0x3B 0x3C 2 packTypes .grid .f32
    ++ rowsOf 0x40 0x42 2 sumTypes .grid .plain ++ rowsOf 0x43 0x43 2 wordTypes .grid .plain
    ++ rowsOf 0x44 0x44 1 sumTypes .grid .never

def edgeRows : List OpRow :=
  rowsOf 0x50 0x50 0 noB8 .west .plain ++ rowsOf 0x51 0x51 1 noB8 .west .plain
    ++ rowsOf 0x58 0x58 2 noB8 .north .plain ++ rowsOf 0x59 0x59 3 noB8 .north .plain
    ++ rowsOf 0x5A 0x5A 2 noB8 .north .plain ++ rowsOf 0x5B 0x5B 3 noB8 .north .plain
    ++ rowsOf 0x5C 0x5C 3 sumTypes .north .never ++ rowsOf 0x5D 0x5D 2 noB8 .north .never
    ++ rowsOf 0x5E 0x5E 3 noB8 .north .never ++ rowsOf 0x5F 0x5F 1 noB8 .north .never
    ++ rowsOf 0x60 0x60 2 noB8 .north .never ++ rowsOf 0x61 0x61 2 noB8 .north .never
    ++ rowsOf 0x68 0x68 1 [.f32] .east .plain ++ rowsOf 0x69 0x69 2 [.f32] .east .plain
    ++ rowsOf 0x6A 0x6A 1 [.bf16x2, .i8x4, .n8x4, .b8x4] .east .plain
    ++ rowsOf 0x6B 0x6B 0 noB8 .east .plain ++ rowsOf 0x6C 0x6C 1 noB8 .east .plain
    ++ rowsOf 0x6D 0x6D 3 sumTypes .east .never
    ++ rowsOf 0x78 0x7B 1 [.i32] .south .never

def opRows : List OpRow := gridRows ++ floatRows ++ edgeRows

/-- The row of an opcode; none for a reserved one. -/
def opRow (op : Nat) : Option OpRow := opRows.find? fun r => r.op == op
def opArity (op : Nat) : Nat := ((opRow op).map (·.arity)).getD 0

def isReduction (op : Nat) : Bool := decide (0x40 ≤ op) && decide (op ≤ 0x43)
/-- The opcodes whose imm8 has a use of its own (R322). -/
def immUse (op : Nat) : Bool :=
  [0x38, 0x39, 0x3A, 0x3B, 0x3C, 0x50, 0x51, 0x5C, 0x68, 0x69, 0x6A, 0x78, 0x7A, 0x7B].contains op
/-- The edge opcodes that take code 6 as the high address half (R322, R410, R420). -/
def highImm (op : Nat) : Bool := [0x58, 0x59, 0x5A, 0x5B, 0x5D, 0x5E, 0x61, 0x6D].contains op
/-- Store-class north nodes and the others that set STORES (R223). -/
def setsStores (op : Nat) : Bool := [0x59, 0x5B, 0x5E, 0x60, 0x5C, 0x69, 0x6A, 0x6C, 0x51].contains op
def setsAtomics (op : Nat) : Bool := [0x5C, 0x6D, 0x5A, 0x5B].contains op
/-- Operations without a result (R394): `PFT`, `NEXT` and `PARK`. -/
def noResult (op : Nat) : Bool := [0x61, 0x78, 0x79].contains op

/-! ### Sites and links (R213, R318) -/

/-- The link of an output of a site: directions N 0, E 1, S 2, W 3. -/
def linkOf (site dir : Nat) : Nat := 4 * site + dir
def edgeSite (ring : Nat) : Nat := 256 + ring
def placeOf (site : Nat) : Place :=
  if site < 256 then .grid
  else if site < 272 then .west else if site < 288 then .north else if site < 304 then .east else .south
/-- The facing output's direction of an edge node: inward. -/
def facing (site : Nat) : Nat :=
  match placeOf site with
  | .west => 1 | .north => 2 | .east => 3 | _ => 0

/-- The link that feeds input `code` (N 0, E 1, S 2, W 3) of a grid element. -/
def gridIn (site code : Nat) : Nat :=
  let x := site % 16
  let y := site / 16
  match code with
  | 0 => if y = 0 then linkOf (edgeSite (16 + x)) 2 else linkOf (site - 16) 2
  | 1 => if x = 15 then linkOf (edgeSite (32 + y)) 3 else linkOf (site + 1) 3
  | 2 => if y = 15 then linkOf (edgeSite (48 + x)) 0 else linkOf (site + 16) 0
  | _ => if x = 0 then linkOf (edgeSite y) 1 else linkOf (site - 1) 1

/-- Element number at (x, y). -/
def elemAt (x y : Nat) : Nat := 16 * y + x

/-- The link that source `code` of an edge node reads (R318). -/
def edgeIn (site code : Nat) : Option Nat :=
  let i := (site - 256) % 16
  let at_ (lower same upper : Nat) (f : Nat → Nat) : Option Nat :=
    if code = same then some (f i)
    else if code = lower then (if i = 0 then none else some (f (i - 1)))
    else if code = upper then (if i = 15 then none else some (f (i + 1)))
    else none
  match placeOf site with
  | .west => at_ 0 3 2 fun y => linkOf (elemAt 0 y) 3
  | .north => at_ 3 0 1 fun x => linkOf (elemAt x 0) 0
  | .east => at_ 0 1 2 fun y => linkOf (elemAt 15 y) 1
  | .south => at_ 3 2 1 fun x => linkOf (elemAt x 15) 2
  | .grid => none

/-- The link of an input code of a site. -/
def inLink (site code : Nat) : Option Nat := if site < 256 then some (gridIn site code) else edgeIn site code

/-! ### Fields of a record -/

def Src.input : Src → Option Nat
  | .n => some 0 | .e => some 1 | .s => some 2 | .w => some 3
  | .c0 | .c1 | .imm | .carry => none

/-- The source fields up to the arity (R317). -/
def srcsOf (r : ElemRec) (arity : Nat) : List Src := [r.srcA, r.srcB, r.srcC].take arity

/-- Output select of a direction (R321). -/
def selOf (r : ElemRec) (dir : Nat) : Nat := (r.sw.extractLsb' (4 * (3 - dir)) 4).toNat
/-- Slot count of an output. -/
def slotsOf (r : ElemRec) (dir : Nat) : Nat := (r.link.extractLsb' (4 * (3 - dir)) 4).toNat

/-- The input codes that the sources name. -/
def SiteRec.aluCodes (x : SiteRec) : List Nat :=
  ((srcsOf x.r (opArity x.op.toNat)).filterMap Sys2Proof.Machine.Src.input).dedup
/-- The directions whose output passes an input through, with the input's code. -/
def SiteRec.routes (x : SiteRec) : List (Nat × Nat) :=
  (List.range 4).filterMap fun d =>
    let s := selOf x.r d
    if 2 ≤ s ∧ s ≤ 5 then some (d, s - 2) else none
/-- The named inputs (R217). -/
def SiteRec.named (x : SiteRec) : List Nat := (x.aluCodes ++ x.routes.map (·.2)).dedup
/-- The directions whose output carries the result, or the carry. -/
def SiteRec.outsWith (x : SiteRec) (sel : Nat) : List Nat := (List.range 4).filter fun d => selOf x.r d == sel
/-- The directions whose output carries anything. -/
def SiteRec.outsUsed (x : SiteRec) : List Nat := (List.range 4).filter fun d => selOf x.r d != 0

def linksIn (site : Nat) (codes : List Nat) : List Nat := codes.filterMap (inLink site)

/-! ### The routed graph (R220, R396, R408) -/

/-- The links that a token on a link goes on to through one site. -/
def SiteRec.onward (x : SiteRec) (site link : Nat) : List Nat :=
  let viaAlu := (linksIn site x.aluCodes).contains link
  let r := (x.routes.filter fun e => inLink site e.2 == some link).map fun e => linkOf site e.1
  let a := if viaAlu then (x.outsWith 1 ++ x.outsWith 6).map (linkOf site) else []
  r ++ a

/-- The links that a token on a link goes on to. -/
def Image.onward (m : Image) (link : Nat) : List Nat := m.sites.flatMap fun e => e.2.onward e.1 link

/-- Every link that carries anything. -/
def Image.links (m : Image) : List Nat := m.sites.flatMap fun e => e.2.outsUsed.map (linkOf e.1)

/-- Add to a set of links those that one more step reaches, as often as the fuel says. -/
def closureOf (onward : Nat → List Nat) : Nat → List Nat → List Nat
  | 0, l => l
  | n + 1, l =>
    let l' := (l ++ l.flatMap onward).dedup
    if l'.length = l.length then l else closureOf onward n l'

/-- Every link downstream of some links, themselves included. -/
def Image.reach (m : Image) (l : List Nat) : List Nat := closureOf m.onward m.links.length l

/-- The links that routes alone take a token on a link to. -/
def Image.routed (m : Image) (link : Nat) : List Nat :=
  m.sites.flatMap fun e => (e.2.routes.filter fun q => inLink e.1 q.2 == some link).map fun q => linkOf e.1 q.1

/-- Add to a set of links every output of the sites that some of them enter, as often as the fuel says. -/
def Image.spread (m : Image) : Nat → List Nat → List Nat
  | 0, l => l
  | n + 1, l =>
    let l' := (l ++ (m.sites.filter fun e => (linksIn e.1 e.2.named).any l.contains).flatMap fun e =>
      e.2.outsUsed.map (linkOf e.1)).dedup
    if l'.length = l.length then l else m.spread n l'

/-- The outputs of a site lead back to one of its named inputs. -/
def Image.onLoop (m : Image) (e : Nat × SiteRec) : Bool :=
  (linksIn e.1 e.2.named).any (m.spread m.sites.length (e.2.outsUsed.map (linkOf e.1))).contains

/-- The image with its sites on loops. -/
def Image.withLoops (m : Image) : Image := { m with loops := (m.sites.filter m.onLoop).map (·.1) }

/-- The result links of a site. -/
def SiteRec.resultLinks (x : SiteRec) (site : Nat) : List Nat := (x.outsWith 1 ++ x.outsWith 6).map (linkOf site)

/-- A site that names some link as a source. -/
def SiteRec.reads (x : SiteRec) (site : Nat) (l : List Nat) : Bool := (linksIn site x.aluCodes).any l.contains

/-- The links downstream of a marker source (R396). -/
def Image.below (m : Image) (site : Nat) : List Nat :=
  match Map.get? m.sites site with
  | none => []
  | some x => m.reach (x.resultLinks site)

/-- The links that carry a reduction's emission, and those downstream of them. -/
def Image.coneLinks (m : Image) : List Nat :=
  m.reach (m.sites.flatMap fun e => (e.2.outsWith 6).map (linkOf e.1))

/-- The emission cone: the nodes that such a link feeds (R408). -/
def Image.cone (m : Image) : List Nat :=
  let l := m.coneLinks
  (m.sites.filter fun e => e.2.reads e.1 l).map (·.1)

def Image.ops (m : Image) : List Nat := m.sites.map fun e => e.2.op.toNat
/-- A block that holds a reduction (R180). -/
def Image.reducing (m : Image) : Bool := m.ops.any isReduction
def Image.hasStin (m : Image) : Bool := m.ops.contains 0x6B
/-- The threads of a pass commit together at its end (R180, R418). -/
def Image.together (m : Image) : Bool := m.reducing || m.hasStin

/-- The ports that issue tokens: `LIN` and `STIN` nodes, in ascending site. -/
def Image.ports (m : Image) : List Nat :=
  (m.sites.filter fun e => e.2.op.toNat == 0x50 || e.2.op.toNat == 0x6B).map (·.1)

/-! ### Checks of one record (R317 to R323, R394 to R421) -/

/-- A source code is accepted at position k of an opcode (R318, R322, R397, R405, R406, R413). -/
def srcOk (op site k : Nat) : Src → Bool
  | .imm => if op = 0x02 then k == 1 else if highImm op then k == 1
      else decide (site < 256) && !immUse op && !isReduction op && op != 0x01
      && op != 0x03
  | .carry => isReduction op && k == 1
  | .c0 | .c1 => decide (site < 256) && !(isReduction op) && op != 0x01 && op != 0x03 && !(op == 0x02 && k == 0)
  | src => match Sys2Proof.Machine.Src.input src with
    | some c => (inLink site c).isSome && !(isReduction op && k == 1) && !(op == 0x02 && k == 1)
    | none => false

/-- D on an opcode and type (R211, R395). -/
def dualOk (row : OpRow) (r : ElemRec) : Bool :=
  !r.d || (match row.dual with
    | .never => false
    | .plain => r.ty != .bf16x2 && r.ty != .b8x4
    | .f32 => r.ty == .f32)

/-- The saturating integer operations (R399). -/
def saturates (op : Nat) : Bool := [0x08, 0x09, 0x0A, 0x0C, 0x0F, 0x10, 0x14].contains op

/-- The fields var and lvl (R320). -/
def varOk (op : Nat) (r : ElemRec) : Bool :=
  let v := r.var.toNat
  let l := r.lvl.toNat
  if op = 0x1A then decide (4 * v + l < 6)
  else if op = 0x28 then decide (v < 2)
  else if 0x20 ≤ op ∧ op ≤ 0x30 then l == 0
  else if 0x08 ≤ op ∧ op ≤ 0x16 then l == 0 && (v == 0 || (v == 1 && saturates op))
  else if op = 0x38 then l == 0 || (l == 1 && r.ty == .f32)
  else if op = 0x3B then decide (l < 2)
  else if op = 0x3C then l == 0
  else if isReduction op then v == 0
  else if op = 0x44 then v == 0 && l != 0
  else if op = 0x5C then true
  else if (0x5A ≤ op ∧ op ≤ 0x5E) ∨ op = 0x6D then l == 0
  else v == 0 && l == 0

/-- A narrow format code for `PACK`, `UNPK`, `QNT`, `DQNT`. -/
def narrowCode (c : Byte) : Bool := !fmtReserved c && c != fmtF32

/-- The field imm8 (R322, R403 to R421). -/
def imm8Ok (op : Nat) (r : ElemRec) : Bool :=
  let i := r.imm8.toNat
  if op = 0x38 then (if r.ty = .f32 then narrowCode r.imm8 else r.imm8 == fmtF32)
  else if 0x39 ≤ op ∧ op ≤ 0x3C then narrowCode r.imm8
  else if op = 0x50 then decide (i < 64)
  else if op = 0x51 then decide (0 < i) && decide (i < 64)
  else if op = 0x5C then
    decide (i < 16) && (if r.ty = .f32 then i == 10 else decide (i < 9))
  else if op = 0x68 ∨ op = 0x69 then decide (i < 8)
  else if op = 0x6A then decide (i < 2)
  else if op = 0x78 then decide (i / 16 < 8) && decide (i % 16 < 8)
  else if op = 0x7A then decide (i < 32)
  else if op = 0x7B then true
  else i == 0 || (srcsOf r (opArity op)).contains .imm

/-- The switch and link words (R216, R217, R221, R321, R394). -/
def switchOk (op site : Nat) (r : ElemRec) : Bool :=
  (List.range 4).all fun d =>
    let s := selOf r d
    (s != 0 || slotsOf r d == 0)
      && (if site < 256 then
            decide (s ≤ 6) && (s != 6 || isReduction op) && !(s == 1 && (isReduction op || op == 0))
          else if d = facing site then s == 0 || (s == 1 && !noResult op)
          else s == 0)

/-- A record is accepted at a site (R221, R323, R394, R396). -/
def recOk (site : Nat) (x : SiteRec) : Bool :=
  let op := x.op.toNat
  match opRow op with
  | none => false
  | some row =>
    let src := srcsOf x.r row.arity
    row.place == placeOf site && row.types.contains x.r.ty && dualOk row x.r
      && (src.mapIdx fun k x => srcOk op site k x).all id
      && (([x.r.srcA, x.r.srcB, x.r.srcC].drop row.arity).all fun x => x == .n)
      && varOk op x.r && imm8Ok op x.r && switchOk op site x.r
      && (op == 0 || op == 0x50 || op == 0x6B || !x.aluCodes.isEmpty)
      && (op != 0 || !x.r.d)

/-! ### Reading an image (R223 to R225) -/

/-- The bits of a 64-bit element record in some bytes. -/
def recordAt (l : List Byte) (o : Nat) : BitVec 64 := BitVec.ofNat 64 (leAt l o 8)

/-- The sites of a rectangle word, row by row; none where it is upside down. -/
def rectSites (w : Nat) : Option (List Nat) :=
  let x0 := w / 4096
  let y0 := w / 256 % 16
  let x1 := w / 16 % 16
  let y1 := w % 16
  if x1 < x0 ∨ y1 < y0 then none
  else some ((List.range (y1 - y0 + 1)).flatMap fun j => (List.range (x1 - x0 + 1)).map fun i => elemAt (x0 + i) (y0 + j))

/-- The sites of the rectangles of a pattern record. -/
def rectsAt (l : List Byte) (o : Nat) : Nat → Option (List Nat)
  | 0 => some []
  | n + 1 => match rectSites (leAt l o 2), rectsAt l (o + 2) n with
    | some a, some b => some (a ++ b)
    | _, _ => none

/-- The record with its constants; the op word of a routing record must be zero (R323). -/
def siteRecOf (r : BitVec 64) (c0 c1 : Nat) : Option SiteRec :=
  if recOpcode r = 0 ∧ r.extractLsb' 32 32 ≠ 0 then none
  else some { op := recOpcode r, r := recOf r, c0 := BitVec.ofNat 32 c0, c1 := BitVec.ofNat 32 c1 }

/-- One pattern record: the sites it covers, its record, and its length. -/
def patternAt (l : List Byte) (o : Nat) : Option (List (Nat × SiteRec) × Nat) :=
  let h := leAt l o 2
  let n := h % 256 + 1
  let ext := h / 256 % 2 = 1
  let o2 := o + (if ext then 24 else 16)
  let len := ceilDiv (o2 + 2 * n - o) 8 * 8
  if h ≥ 512 ∨ !zeroAt l (o + 2) 6 ∨ l.length < o + len ∨ !zeroAt l (o2 + 2 * n) (o + len - (o2 + 2 * n)) then none
  else
    match rectsAt l o2 n, siteRecOf (recordAt l (o + 8)) (if ext then leAt l (o + 16) 4 else 0)
        (if ext then leAt l (o + 20) 4 else 0) with
    | some ss, some r => some (ss.map fun s => (s, r), len)
    | _, _ => none

/-- The pattern records from an offset, and where they end. -/
def patternsAt (l : List Byte) (o : Nat) : Nat → Option (List (Nat × SiteRec) × Nat)
  | 0 => some ([], o)
  | n + 1 => match patternAt l o with
    | none => none
    | some (a, len) => (patternsAt l (o + len) n).map fun r => (a ++ r.1, r.2)

/-- The edge records that a mask names, from an offset, and where they end. -/
def edgesAt (l : List Byte) (mask : Nat) : List Nat → Nat → Option (List (Nat × SiteRec) × Nat)
  | [], o => some ([], o)
  | p :: r, o =>
    if mask / 2 ^ p % 2 = 1 then
      match siteRecOf (recordAt l o) 0 0, edgesAt l mask r (o + 8) with
      | some x, some t => some ((edgeSite p, x) :: t.1, t.2)
      | _, _ => none
    else edgesAt l mask r o

/-- Read an image under its identifier; none where its form is wrong (R226). -/
def parseImage (ident : W32) (l : List Byte) : Option Image :=
  let h := leAt l 0 32
  let bits (hi lo : Nat) : Nat := h / 2 ^ lo % 2 ^ (hi + 1 - lo)
  match patternsAt l 32 (bits 48 41 + 1) with
  | none => none
  | some (grid, o) =>
    if l.length < 32 ∨ 16384 < l.length ∨ bits 31 0 ≠ 0x4B4C4251 then none
    else match edgesAt l (leAt l o 8) (List.range 64) (o + 8) with
      | none => none
      | some (edge, e) =>
        if e ≠ l.length then none
        else some <| Image.withLoops {
          ident := ident
          block := bits 37 32
          livein := BitVec.ofNat 64 (bits 255 192)
          liveout := BitVec.ofNat 64 (2 * bits 191 129)
          succ := tabulate 8 fun j => BitVec.ofNat 10 (bits (58 + 10 * j) (49 + 10 * j))
          gate := bits 38 38 == 1
          stores := bits 39 39 == 1
          atomics := bits 40 40 == 1
          bytes := l.length
          sites := sortBy (fun a b => decide (a.1 ≤ b.1)) (grid ++ edge)
          loops := [] }

/-! ### Checks of a whole image (R222, R226, R396, R408, R413, R416) -/

/-- A successor entry holds a block or park (R223). -/
def succOk (e : BitVec 10) : Bool := decide (e.toNat < 64) || e == 0x3FF

/-- The entries that a `NEXT` can take. -/
def SiteRec.nextEntries (x : SiteRec) : List Nat := [x.r.imm8.toNat / 16, x.r.imm8.toNat % 16]

/-- The slots that the nodes of an opcode name. -/
def Image.slots (m : Image) (op : Nat) : List Nat :=
  (m.sites.filter fun e => e.2.op.toNat == op).map fun e => e.2.r.imm8.toNat

def Image.control (m : Image) : List (Nat × SiteRec) :=
  m.sites.filter fun e => e.2.op.toNat == 0x78 || e.2.op.toNat == 0x79

/-- Nodes that must have a path to the control node (R222). -/
def needsPath (op : Nat) : Bool :=
  [0x59, 0x5B, 0x5C, 0x5E, 0x60, 0x69, 0x6A, 0x6B, 0x6C, 0x6D, 0x51, 0x7A, 0x7B].contains op

/-- No link is downstream of itself (R220). -/
def Image.acyclic (m : Image) : Bool := m.links.all fun l => !(m.reach (m.onward l)).contains l

/-- The rules of the emission cone (R408). -/
def Image.coneOk (m : Image) : Bool :=
  let ls := m.coneLinks
  m.cone.all fun site => match Map.get? m.sites site with
    | none => false
    | some x => (linksIn site x.aluCodes).all ls.contains && x.op != 0x78 && x.op != 0x79

/-- The marker sources of a block (R396). -/
def Image.markSources (m : Image) : List Nat :=
  (m.sites.filter fun e => e.2.op.toNat == 0x44 || e.2.op.toNat == 0x6B).map (·.1)

/-- R396: where the inputs of an element do not all lie downstream of the same sources, each input that lies outside one
carries the issued threads, and so none is fed by a reduction. -/
def Image.markersOk (m : Image) : Bool :=
  let cone := m.coneLinks
  m.markSources.all fun src =>
    let below := m.below src
    m.sites.all fun e =>
      let ins := linksIn e.1 e.2.named
      !ins.any below.contains || ins.all fun l => below.contains l || !cone.contains l

/-- The output of an `ATM` reaches only `LOUT` nodes, through routes (R413). -/
def Image.atmOk (m : Image) : Bool :=
  m.sites.all fun e => e.2.op.toNat != 0x5C ||
    (let l := closureOf m.routed m.links.length (e.2.resultLinks e.1)
     m.sites.all fun f => !(f.2.reads f.1 l) || f.2.op.toNat == 0x51)

/-- Each node that R222 names has a path to the control node; a cone node is exempt (R408). -/
def Image.pathsOk (m : Image) : Bool :=
  let cone := m.cone
  m.sites.all fun e => !needsPath e.2.op.toNat || cone.contains e.1 ||
    (let l := m.reach (e.2.resultLinks e.1)
     m.control.any fun c => c.2.reads c.1 l)

/-- The checks of R226 but for LMAX, under the launch's T (R416). -/
def Image.ok (m : Image) (tw : Nat) : Bool :=
  let lins := m.slots 0x50
  let louts := m.slots 0x51
  (m.sites.all fun e => recOk e.1 e.2)
    && (m.sites.map (·.1)).dedup.length == m.sites.length
    && m.acyclic && m.control.length == 1 && !lins.isEmpty
    && lins.all (fun s => m.livein.getLsbD s) && louts.all (fun s => m.liveout.getLsbD s)
    && louts.dedup.length == louts.length
    && (List.range 64).all (fun s => !m.liveout.getLsbD s || louts.contains s)
    && m.stores == m.ops.any setsStores && m.atomics == m.ops.any setsAtomics
    && m.succ.all succOk
    && (m.control.all fun e => e.2.op != 0x78 || e.2.nextEntries.all fun k =>
        decide (k < 8) && (!m.gate || m.succ.getD k 0 == 0x3FF || (m.succ.getD k 0).toNat == m.block))
    && m.pathsOk && m.coneOk && m.markersOk && m.atmOk
    && (m.sites.all fun e => !((e.2.op == 0x68 || e.2.op == 0x69) && e.2.r.d) || decide (e.2.r.imm8.toNat + tw ≤ 7))

/-- A live-in or live-out slot above LMAX (R107, R226). -/
def Image.slotAbove (m : Image) (lmax : Nat) : Bool :=
  (List.range 64).any fun s => decide (lmax < s) && (m.livein.getLsbD s || m.liveout.getLsbD s)

end Sys2Proof.Machine
end

