-- ==== Sys2Proof/Machine/Scalar.lean ====
section
/-! DEFINITION. The integer instructions of the sequencer: register operations (R328, R329), immediates and constants
(R330, R331), branches and jumps (R332 to R335). -/

namespace Sys2Proof.Machine

/-! ### Arithmetic (R328) -/

/-- The most negative 64-bit integer. -/
def min64 : Word := 0x8000000000000000

/-- High half of the signed and unsigned products. -/
def mulHighS (a b : Word) : Word := BitVec.ofInt 64 (a.toInt * b.toInt / 2 ^ 64)
def mulHighU (a b : Word) : Word := BitVec.ofNat 64 (a.toNat * b.toNat / 2 ^ 64)

/-- `DIV`: truncated toward zero; all ones for b = 0; MIN64 ÷ −1 = MIN64. -/
def divS (a b : Word) : Word := if b = 0 then BitVec.allOnes 64 else BitVec.ofInt 64 (a.toInt.tdiv b.toInt)
/-- `DIVN`. -/
def divU (a b : Word) : Word := if b = 0 then BitVec.allOnes 64 else BitVec.ofNat 64 (a.toNat / b.toNat)
/-- `REM`: the sign of a; a for b = 0. -/
def remS (a b : Word) : Word := if b = 0 then a else BitVec.ofInt 64 (a.toInt.tmod b.toInt)
/-- `REMN`. -/
def remU (a b : Word) : Word := if b = 0 then a else BitVec.ofNat 64 (a.toNat % b.toNat)

/-- The shift amount b[5:0]. -/
def shiftAmount (b : Word) : Nat := (b.extractLsb' 0 6).toNat

/-- Number of zero bits above the highest one bit, and below the lowest, of a w-bit word; w for zero. -/
def leadingZeros {w : Nat} (a : BitVec w) : Nat := ((List.range w).takeWhile fun i => !a.getMsbD i).length
def trailingZeros {w : Nat} (a : BitVec w) : Nat := ((List.range w).takeWhile fun i => !a.getLsbD i).length
/-- Number of one bits. -/
def popCount {w : Nat} (a : BitVec w) : Nat := ((List.range w).filter fun i => a.getLsbD i).length

/-! ### Shared operations -/

/-- Write a result to d and retire (R324, R325). -/
def writeResult (s : State) (d : Reg) (v : Word) : Host.Outcome State Fault Refusal :=
  .next (s.onCur fun c => (c.setReg d v).retire false)

/-- An OPR instruction of two sources (R328). -/
def opr (s : State) (d a b : Reg) (f : Word → Word → Word) : Host.Outcome State Fault Refusal :=
  writeResult s d (f (s.cur.reg a) (s.cur.reg b))

/-- A form I instruction (R330). -/
def opi (s : State) (d a : Reg) (f : Word → Word) : Host.Outcome State Fault Refusal := writeResult s d (f (s.cur.reg a))

/-- `SEL` (R328, R329). -/
def selReg (s : State) (du : Bool) (d a b : Reg) : Host.Outcome State Fault Refusal :=
  let c := s.cur
  let take := c.reg b ≠ 0
  let v := if take then c.reg a else c.reg d
  if c.dualT du = 0 then .next (s.onCur fun c => (c.setReg d v).retire du)
  else if take then .next (s.onCur fun c => (c.setRegDual d v (c.tangents a)).retire du)
  else .next (s.onCur fun c => c.retire du)

/-- Whether a transfer may go to a target: ALIGN, then PERM (R335). -/
def Cell.targetFault (c : Cell) (t : Word) : Option Cause :=
  if t.toNat % 4 ≠ 0 then some .align else if c.inCode t then none else some .perm

/-- A taken transfer: the target is checked before any register is written, then `link` is done and the pc set. -/
def jumpTo (s : State) (t : Word) (link : Cell → Cell) : Host.Outcome State Fault Refusal :=
  match s.cur.targetFault t with
  | some cz => trapNow s false cz t
  | none => .next (s.onCur fun c => (link c).withSeq fun q => { q with pc := t })

/-- A conditional branch (R332). -/
def branchIf (s : State) (taken : Bool) (o : BitVec 16) : Host.Outcome State Fault Refusal :=
  if taken then jumpTo s (branchTarget s.cur.seq.pc o) id else .next (s.onCur fun c => c.retire false)

/-- Write the return address to `s31` (R334). -/
def Cell.linkReturn (c : Cell) : Cell := c.setReg 31 (c.seq.pc + 4)

/-! ### OPR (R328, R329) -/

def execAdd (d a b : Reg) (s : State) : Host.Outcome State Fault Refusal := opr s d a b fun a b => a + b
def execSub (d a b : Reg) (s : State) : Host.Outcome State Fault Refusal := opr s d a b fun a b => a - b
def execMul (d a b : Reg) (s : State) : Host.Outcome State Fault Refusal := opr s d a b fun a b => a * b
def execMulh (d a b : Reg) (s : State) : Host.Outcome State Fault Refusal := opr s d a b fun a b => mulHighS a b
def execMulhn (d a b : Reg) (s : State) : Host.Outcome State Fault Refusal := opr s d a b fun a b => mulHighU a b
def execDiv (d a b : Reg) (s : State) : Host.Outcome State Fault Refusal := opr s d a b fun a b => divS a b
def execDivn (d a b : Reg) (s : State) : Host.Outcome State Fault Refusal := opr s d a b fun a b => divU a b
def execRem (d a b : Reg) (s : State) : Host.Outcome State Fault Refusal := opr s d a b fun a b => remS a b
def execRemn (d a b : Reg) (s : State) : Host.Outcome State Fault Refusal := opr s d a b fun a b => remU a b
def execAnd (d a b : Reg) (s : State) : Host.Outcome State Fault Refusal := opr s d a b fun a b => a &&& b
def execOr (d a b : Reg) (s : State) : Host.Outcome State Fault Refusal := opr s d a b fun a b => a ||| b
def execXor (d a b : Reg) (s : State) : Host.Outcome State Fault Refusal := opr s d a b fun a b => a ^^^ b
def execAndn (d a b : Reg) (s : State) : Host.Outcome State Fault Refusal := opr s d a b fun a b => a &&& ~~~b
def execShl (d a b : Reg) (s : State) : Host.Outcome State Fault Refusal := opr s d a b fun a b => a <<< shiftAmount b
def execShr (d a b : Reg) (s : State) : Host.Outcome State Fault Refusal := opr s d a b fun a b => a >>> shiftAmount b
def execSha (d a b : Reg) (s : State) : Host.Outcome State Fault Refusal := opr s d a b fun a b => a.sshiftRight (shiftAmount b)
def execRot (d a b : Reg) (s : State) : Host.Outcome State Fault Refusal := opr s d a b fun a b => a.rotateRight (shiftAmount b)
def execMin (d a b : Reg) (s : State) : Host.Outcome State Fault Refusal := opr s d a b fun a b => if ltS a b then a else b
def execMax (d a b : Reg) (s : State) : Host.Outcome State Fault Refusal := opr s d a b fun a b => if ltS a b then b else a
def execMinn (d a b : Reg) (s : State) : Host.Outcome State Fault Refusal := opr s d a b fun a b => if ltU a b then a else b
def execMaxn (d a b : Reg) (s : State) : Host.Outcome State Fault Refusal := opr s d a b fun a b => if ltU a b then b else a
def execSlt (d a b : Reg) (s : State) : Host.Outcome State Fault Refusal := opr s d a b fun a b => flagWord 64 (ltS a b)
def execSltn (d a b : Reg) (s : State) : Host.Outcome State Fault Refusal := opr s d a b fun a b => flagWord 64 (ltU a b)
def execSeq (d a b : Reg) (s : State) : Host.Outcome State Fault Refusal := opr s d a b fun a b => flagWord 64 (a == b)
def execClz (d a : Reg) (s : State) : Host.Outcome State Fault Refusal := opi s d a fun a => BitVec.ofNat 64 (leadingZeros a)
def execCtz (d a : Reg) (s : State) : Host.Outcome State Fault Refusal := opi s d a fun a => BitVec.ofNat 64 (trailingZeros a)
def execPopc (d a : Reg) (s : State) : Host.Outcome State Fault Refusal := opi s d a fun a => BitVec.ofNat 64 (popCount a)
def execSel (d a b : Reg) (s : State) : Host.Outcome State Fault Refusal := selReg s false d a b

/-! ### Immediates and constants (R330, R331) -/

def execAddi (d a : Reg) (i : BitVec 16) (s : State) : Host.Outcome State Fault Refusal :=
  opi s d a fun a => a + immS i
def execAndi (d a : Reg) (i : BitVec 16) (s : State) : Host.Outcome State Fault Refusal :=
  opi s d a fun a => a &&& immZ i
def execOri (d a : Reg) (i : BitVec 16) (s : State) : Host.Outcome State Fault Refusal :=
  opi s d a fun a => a ||| immZ i
def execXori (d a : Reg) (i : BitVec 16) (s : State) : Host.Outcome State Fault Refusal :=
  opi s d a fun a => a ^^^ immZ i
def execSlti (d a : Reg) (i : BitVec 16) (s : State) : Host.Outcome State Fault Refusal :=
  opi s d a fun a => flagWord 64 (ltS a (immS i))
def execSltni (d a : Reg) (i : BitVec 16) (s : State) : Host.Outcome State Fault Refusal :=
  opi s d a fun a => flagWord 64 (ltU a (immZ i))
def execShlImmediate (d a : Reg) (n : BitVec 6) (s : State) : Host.Outcome State Fault Refusal :=
  opi s d a fun a => a <<< n.toNat
def execShrImmediate (d a : Reg) (n : BitVec 6) (s : State) : Host.Outcome State Fault Refusal :=
  opi s d a fun a => a >>> n.toNat
def execShaImmediate (d a : Reg) (n : BitVec 6) (s : State) : Host.Outcome State Fault Refusal :=
  opi s d a fun a => a.sshiftRight n.toNat
def execRotImmediate (d a : Reg) (n : BitVec 6) (s : State) : Host.Outcome State Fault Refusal :=
  opi s d a fun a => a.rotateRight n.toNat
def execLui (d : Reg) (h : BitVec 2) (i : BitVec 16) (s : State) : Host.Outcome State Fault Refusal :=
  writeResult s d (immZ i <<< halfShift h)
/-- Replace halfword h of a word. -/
def setHalf (v : Word) (h : BitVec 2) (i : BitVec 16) : Word :=
  (v &&& ~~~((0xFFFF : Word) <<< halfShift h)) ||| (immZ i <<< halfShift h)
def execMovk (d : Reg) (h : BitVec 2) (i : BitVec 16) (s : State) : Host.Outcome State Fault Refusal :=
  opi s d d fun v => setHalf v h i

/-! ### Branches and jumps (R332 to R335) -/

def execBeq (a b : Reg) (o : BitVec 16) (s : State) : Host.Outcome State Fault Refusal :=
  branchIf s ((s.cur.reg a) == (s.cur.reg b)) o
def execBne (a b : Reg) (o : BitVec 16) (s : State) : Host.Outcome State Fault Refusal :=
  branchIf s ((s.cur.reg a) != (s.cur.reg b)) o
def execBlt (a b : Reg) (o : BitVec 16) (s : State) : Host.Outcome State Fault Refusal :=
  branchIf s (ltS (s.cur.reg a) (s.cur.reg b)) o
def execBge (a b : Reg) (o : BitVec 16) (s : State) : Host.Outcome State Fault Refusal :=
  branchIf s (!ltS (s.cur.reg a) (s.cur.reg b)) o
def execBltn (a b : Reg) (o : BitVec 16) (s : State) : Host.Outcome State Fault Refusal :=
  branchIf s (ltU (s.cur.reg a) (s.cur.reg b)) o
def execBgen (a b : Reg) (o : BitVec 16) (s : State) : Host.Outcome State Fault Refusal :=
  branchIf s (!ltU (s.cur.reg a) (s.cur.reg b)) o
def execDbnz (a : Reg) (o : BitVec 16) (s : State) : Host.Outcome State Fault Refusal :=
  let t := s.cur.reg a - 1
  if t ≠ 0 then jumpTo s (branchTarget s.cur.seq.pc o) fun c => c.setReg a t
  else .next (s.onCur fun c => (c.setReg a t).retire false)
def execJmp (o : BitVec 26) (s : State) : Host.Outcome State Fault Refusal :=
  jumpTo s (jumpTarget s.cur.seq.pc o) id
def execCall (o : BitVec 26) (s : State) : Host.Outcome State Fault Refusal :=
  jumpTo s (jumpTarget s.cur.seq.pc o) Cell.linkReturn
def execJr (a : Reg) (s : State) : Host.Outcome State Fault Refusal := jumpTo s (s.cur.reg a) id
def execJrLink (a : Reg) (s : State) : Host.Outcome State Fault Refusal := jumpTo s (s.cur.reg a) Cell.linkReturn

end Sys2Proof.Machine
end

