-- ==== Sys2Proof/Machine/FloatOps.lean ====
section
/-! DEFINITION. The floating-point instructions of the sequencer, with their dual forms (R211, R212, R348 to R350). -/

namespace Sys2Proof.Machine

/-! ### Operations on codes of one format -/

def FFmt.add (f : FFmt) (r : Rnd) (a b : Nat) : Nat := f.round r ((f.val a).add r (f.val b))
/-- a − b: the negation of a NaN is a NaN, so the sum with −b rounds the same. -/
def FFmt.sub (f : FFmt) (r : Rnd) (a b : Nat) : Nat := f.round r ((f.val a).add r (f.val b).neg)
def FFmt.mul (f : FFmt) (r : Rnd) (a b : Nat) : Nat := f.round r ((f.val a).mul (f.val b))
def FFmt.fma (f : FFmt) (r : Rnd) (a b c : Nat) : Nat := f.round r ((f.val a).fma r (f.val b) (f.val c))
/-- `FMIN` and `FMAX` (R201). -/
def FFmt.minMax (f : FFmt) (isMax : Bool) (a b : Nat) : Nat :=
  match minMaxPick isMax (f.val a) (f.val b) with
  | none => f.nanCode
  | some true => a
  | some false => b
/-- Whether the tangent of `FMIN` or `FMAX` is a's (R212, log 17). -/
def FFmt.minMaxTan (f : FFmt) (isMax : Bool) (a b : Nat) : Bool :=
  match (f.val a).order (f.val b), minMaxPick isMax (f.val a) (f.val b) with
  | .eq, _ => true
  | _, none => true
  | _, some t => t
def FFmt.one (_ : FFmt) : Val := .fin false 1 0
def FFmt.rcp (f : FFmt) (r : Rnd) (a : Nat) : Nat := f.round r (f.one.div (f.val a))
def FFmt.sqrt (f : FFmt) (r : Rnd) (a : Nat) : Nat := f.round r (f.val a).sqrt
/-- The tangent of `SQRT`: a′ ÷ 2y (R212). -/
def FFmt.sqrtTan (f : FFmt) (y a' : Nat) : Nat := f.round .rne ((f.val a').div ((f.val y).scale 1))
/-- The tangent of `RCP`: −rnd(rnd(y × y) × a′); a NaN stays the canonical one (R199, log 17). -/
def FFmt.rcpTan (f : FFmt) (y a' : Nat) : Nat := f.round .rne (f.val (f.mul .rne (f.mul .rne y y) a')).neg
/-- The tangent of `FMUL`. -/
def FFmt.mulTan (f : FFmt) (a b a' b' : Nat) : Nat := f.fma .rne a' b (f.mul .rne a b')
/-- The tangent of `FFMA`. -/
def FFmt.fmaTan (f : FFmt) (a b a' b' c' : Nat) : Nat := f.fma .rne a' b (f.fma .rne a b' c')

/-! ### Shared operations -/

/-- The format of a width bit, and an operand or tangent read in it. -/
def fmtOf (wide : Bool) : FFmt := if wide then f64F else f32F
def inFmt (f : FFmt) (x : Word) : Nat := x.toNat % 2 ^ f.w

/-- Write an FPO result, with its tangents when dual (R325, R350). -/
def fpoWrite (s : State) (du : Bool) (d : Reg) (v : Nat) (tan : Nat → Nat) : Host.Outcome State Fault Refusal :=
  .next (s.onCur fun c =>
    let t := c.dualT du
    let y := BitVec.ofNat 64 v
    (if t = 0 then c.setReg d y else c.setRegDual d y (tabulate t fun k => BitVec.ofNat 64 (tan (k + 1)))).retire du)

/-- Tangent k of a register in a format. -/
def Cell.tanIn (c : Cell) (f : FFmt) (r : Reg) (k : Nat) : Nat := inFmt f (c.shadow r k)

/-- `FADD` and `FSUB`. -/
def fpoAdd (s : State) (du : Bool) (d a b : Reg) (r : Rnd) (w : Bool) (neg : Bool) : Host.Outcome State Fault Refusal :=
  let c := s.cur
  let f := fmtOf w
  let op := fun r x y => if neg then f.sub r x y else f.add r x y
  fpoWrite s du d (op r (inFmt f (c.reg a)) (inFmt f (c.reg b))) fun k => op .rne (c.tanIn f a k) (c.tanIn f b k)

def fpoMul (s : State) (du : Bool) (d a b : Reg) (r : Rnd) (w : Bool) : Host.Outcome State Fault Refusal :=
  let c := s.cur
  let f := fmtOf w
  let x := inFmt f (c.reg a)
  let y := inFmt f (c.reg b)
  fpoWrite s du d (f.mul r x y) fun k => f.mulTan x y (c.tanIn f a k) (c.tanIn f b k)

def fpoFma (s : State) (du : Bool) (d a b : Reg) (r : Rnd) (w : Bool) : Host.Outcome State Fault Refusal :=
  let c := s.cur
  let f := fmtOf w
  let x := inFmt f (c.reg a)
  let y := inFmt f (c.reg b)
  fpoWrite s du d (f.fma r x y (inFmt f (c.reg d))) fun k =>
    f.fmaTan x y (c.tanIn f a k) (c.tanIn f b k) (c.tanIn f d k)

def fpoMinMax (s : State) (du : Bool) (d a b : Reg) (w isMax : Bool) : Host.Outcome State Fault Refusal :=
  let c := s.cur
  let f := fmtOf w
  let x := inFmt f (c.reg a)
  let y := inFmt f (c.reg b)
  fpoWrite s du d (f.minMax isMax x y) fun k =>
    if f.minMaxTan isMax x y then c.tanIn f a k else c.tanIn f b k

def fpoCmp (s : State) (du : Bool) (d a b : Reg) (k : Cond) (w : Bool) : Host.Outcome State Fault Refusal :=
  let c := s.cur
  let f := fmtOf w
  let o := (f.val (inFmt f (c.reg a))).order (f.val (inFmt f (c.reg b)))
  fpoWrite s du d (if condHolds k o then 1 else 0) fun _ => 0

def fpoSqrt (s : State) (du : Bool) (d a : Reg) (r : Rnd) (w : Bool) : Host.Outcome State Fault Refusal :=
  let c := s.cur
  let f := fmtOf w
  let y := f.sqrt r (inFmt f (c.reg a))
  fpoWrite s du d y fun k => f.sqrtTan y (c.tanIn f a k)

def fpoRcp (s : State) (du : Bool) (d a : Reg) (r : Rnd) (w : Bool) : Host.Outcome State Fault Refusal :=
  let c := s.cur
  let f := fmtOf w
  let y := f.rcp r (inFmt f (c.reg a))
  fpoWrite s du d y fun k => f.rcpTan y (c.tanIn f a k)

/-- An integer as a 64-bit code. -/
def word64 (x : Int) : Nat := (x % 2 ^ 64).toNat

/-- The conversions of `FCVT` (R349): kind, width and mode, from the bits of a; kind 7 moves the
bits of a bf16, which is the upper half of an f32 (R199). -/
def fcvtBits (k : Cvk) (r : Rnd) (w : Bool) (a : Word) : Nat :=
  let f := fmtOf w
  match k with
  | .wide => f64F.round .rne (f32F.val (inFmt f32F a))
  | .narrow => f32F.round r (f64F.val a.toNat)
  | .toi => word64 ((f.val (inFmt f a)).toRange r (-(2 ^ 63)) (2 ^ 63 - 1))
  | .ton => word64 ((f.val (inFmt f a)).toRange r 0 (2 ^ 64 - 1))
  | .fromi => f.round r (intVal a.toInt)
  | .fromn => f.round r (intVal a.toNat)
  | .tobf => bf16F.round r (f32F.val (inFmt f32F a))
  | .frombf => inFmt bf16F a * 65536

/-- Tangents of `FCVT` (R350): kinds 0, 1, 6 and 7 convert to the result's tangent width, the others give zero. -/
def fcvtTan (k : Cvk) (t : Word) : Nat :=
  match k with
  | .wide => f64F.round .rne (f32F.val (inFmt f32F t))
  | .narrow => f32F.round .rne (f64F.val t.toNat)
  | .tobf | .frombf => f32F.round .rne (f32F.val (inFmt f32F t))
  | .toi | .ton | .fromi | .fromn => 0

def fpoCvt (s : State) (du : Bool) (d a : Reg) (k : Cvk) (r : Rnd) (w : Bool) : Host.Outcome State Fault Refusal :=
  let c := s.cur
  fpoWrite s du d (fcvtBits k r w (c.reg a)) fun i => fcvtTan k (c.shadow a i)

/-! ### The instructions -/

def execFadd (d a b : Reg) (r : Rnd) (w : Bool) (s : State) : Host.Outcome State Fault Refusal := fpoAdd s false d a b r w false
def execFsub (d a b : Reg) (r : Rnd) (w : Bool) (s : State) : Host.Outcome State Fault Refusal := fpoAdd s false d a b r w true
def execFmul (d a b : Reg) (r : Rnd) (w : Bool) (s : State) : Host.Outcome State Fault Refusal := fpoMul s false d a b r w
def execFfma (d a b : Reg) (r : Rnd) (w : Bool) (s : State) : Host.Outcome State Fault Refusal := fpoFma s false d a b r w
def execFmin (d a b : Reg) (w : Bool) (s : State) : Host.Outcome State Fault Refusal := fpoMinMax s false d a b w false
def execFmax (d a b : Reg) (w : Bool) (s : State) : Host.Outcome State Fault Refusal := fpoMinMax s false d a b w true
def execFcmp (d a b : Reg) (c : Cond) (w : Bool) (s : State) : Host.Outcome State Fault Refusal := fpoCmp s false d a b c w
def execFcvt (d a : Reg) (k : Cvk) (r : Rnd) (w : Bool) (s : State) : Host.Outcome State Fault Refusal :=
  fpoCvt s false d a k r w
def execFsqrt (d a : Reg) (r : Rnd) (w : Bool) (s : State) : Host.Outcome State Fault Refusal := fpoSqrt s false d a r w
def execFrcp (d a : Reg) (r : Rnd) (w : Bool) (s : State) : Host.Outcome State Fault Refusal := fpoRcp s false d a r w

end Sys2Proof.Machine
end

