-- ==== Sys2Proof/Machine/ElemAlu.lean ====
section
/-! DEFINITION. What element operations compute on words: lanes and integer operations (R398 to R400), floating operations
(R401, R402), conversions (R403 to R405), reductions (R406) and the tangents of each (R211, R212). -/

namespace Sys2Proof.Machine

/-- An operand of an element: its word and its tangents. -/
structure Opnd where
  v : W32
  t : List W32
  deriving DecidableEq, Repr

/-- Tangent k of an operand, counted from 0; an absent one is zero. -/
def Opnd.tan (x : Opnd) (k : Nat) : W32 := x.t.getD k 0

/-! ### Lanes (R398) -/

def laneBits : ElTy → Nat
  | .i32 | .n32 | .f32 => 32
  | .bf16x2 | .i16x2 => 16
  | .i8x4 | .n8x4 | .b8x4 => 8
def laneSigned : ElTy → Bool
  | .i32 | .i16x2 | .i8x4 => true
  | _ => false
/-- The lanes of a word, lane 0 from the low bits. -/
def lanesOf (w : Nat) (v : W32) : List Nat := tabulate (32 / w) fun i => v.toNat / 2 ^ (w * i) % 2 ^ w
def ofLanes (w : Nat) (l : List Nat) : W32 := BitVec.ofNat 32 (l.foldr (fun x r => x % 2 ^ w + 2 ^ w * r) 0)
/-- Lane i of a word. -/
def laneAt (w : Nat) (v : W32) (i : Nat) : Nat := v.toNat / 2 ^ (w * i) % 2 ^ w

/-- An operation on the raw lanes of up to three words. -/
def laneMap (ty : ElTy) (f : Nat → Nat → Nat → Nat) (a b c : W32) : W32 :=
  let w := laneBits ty
  ofLanes w (tabulate (32 / w) fun i => f (laneAt w a i) (laneAt w b i) (laneAt w c i))

/-- A lane as an integer, signed or unsigned by type. -/
def laneInt (ty : ElTy) (x : Nat) : Int := if laneSigned ty then signedOf (laneBits ty) x else (x : Int)

/-- The exact result of a lane reduced by wrapping or saturation. -/
def reduceLane (ty : ElTy) (sat : Bool) (x : Int) : Nat :=
  let w := laneBits ty
  let lo : Int := if laneSigned ty then -(2 ^ (w - 1)) else 0
  let hi : Int := if laneSigned ty then 2 ^ (w - 1) - 1 else 2 ^ w - 1
  ((if sat then max lo (min hi x) else x) % 2 ^ w).toNat

/-- An integer operation with its exact result lane by lane. -/
def intMap (ty : ElTy) (sat : Bool) (f : Int → Int → Int → Int) (a b c : W32) : W32 :=
  laneMap ty (fun x y z => reduceLane ty sat (f (laneInt ty x) (laneInt ty y) (laneInt ty z))) a b c

/-! ### Integer operations (R399, R400) -/

def laneAdd (r : ElemRec) (a b : W32) : W32 := intMap r.ty (r.var == 1) (fun x y _ => x + y) a b 0
def laneSub (r : ElemRec) (a b : W32) : W32 := intMap r.ty (r.var == 1) (fun x y _ => x - y) a b 0
def laneMul (r : ElemRec) (a b : W32) : W32 := intMap r.ty (r.var == 1) (fun x y _ => x * y) a b 0
def laneMulhi (r : ElemRec) (a b : W32) : W32 :=
  intMap r.ty false (fun x y _ => x * y / 2 ^ laneBits r.ty) a b 0
def laneMad (r : ElemRec) (a b c : W32) : W32 := intMap r.ty (r.var == 1) (fun x y z => x * y + z) a b c
def laneMin (r : ElemRec) (a b : W32) : W32 := intMap r.ty false (fun x y _ => min x y) a b 0
def laneMax (r : ElemRec) (a b : W32) : W32 := intMap r.ty false (fun x y _ => max x y) a b 0
def laneAbs (r : ElemRec) (a : W32) : W32 := intMap r.ty (r.var == 1) (fun x _ _ => x.natAbs) a 0 0
def laneNeg (r : ElemRec) (a : W32) : W32 := intMap r.ty (r.var == 1) (fun x _ _ => -x) a 0 0
def laneShl (r : ElemRec) (a b : W32) : W32 :=
  laneMap r.ty (fun x y _ => reduceLane r.ty (r.var == 1) (laneInt r.ty x * 2 ^ (y % laneBits r.ty))) a b 0
def laneShr (r : ElemRec) (a b : W32) : W32 := laneMap r.ty (fun x y _ => x / 2 ^ (y % laneBits r.ty)) a b 0
def laneSha (r : ElemRec) (a b : W32) : W32 :=
  laneMap r.ty (fun x y _ => reduceLane r.ty false (laneInt r.ty x / 2 ^ (y % laneBits r.ty))) a b 0

/-- Leading zero bits of a w-bit lane; w for 0. -/
def laneZeros (w x : Nat) : Nat := if x = 0 then w else w - 1 - Nat.log2 x
/-- One bits of the low w bits. -/
def onesOf (w x : Nat) : Nat := (List.range w).foldl (fun n i => n + x / 2 ^ i % 2) 0
def laneClz (r : ElemRec) (a : W32) : W32 := laneMap r.ty (fun x _ _ => laneZeros (laneBits r.ty) x) a 0 0
def lanePopc (r : ElemRec) (a : W32) : W32 := laneMap r.ty (fun x _ _ => onesOf (laneBits r.ty) x) a 0 0

/-- `BFX`: bits above 31 read as the sign for `i32` and as zero for `n32`. -/
def bitField (r : ElemRec) (v p n : W32) : W32 :=
  let n := min 32 (n.toNat % 64)
  let field : Nat := (laneInt r.ty v.toNat / 2 ^ (p.toNat % 32) % 2 ^ n).toNat
  BitVec.ofInt 32 (if laneSigned r.ty then signedOf n field else (field : Int))

/-- The condition of `CMP` and `FCMP`, bits [10:8] of the op word (R320). -/
def elemCond (r : ElemRec) : Cond := Cond.ofBits (r.var.extractLsb' 0 1 ++ r.lvl : BitVec (1 + 2))
def laneCmp (r : ElemRec) (a b : W32) : W32 :=
  laneMap r.ty (fun x y _ => if condHolds (elemCond r) (intOrder (laneInt r.ty x) (laneInt r.ty y)) then 1 else 0) a b 0

/-! ### Floating operations (R199, R401, R402) -/

def elemRnd (r : ElemRec) : Rnd := Rnd.ofBits r.var

/-- The format of a lane of a floating type. -/
def elemFmt (ty : ElTy) : FFmt := if ty = .bf16x2 then bf16F else f32F

/-- A floating operation lane by lane, each lane rounded once. -/
def floatMap (r : ElemRec) (f : Val → Val → Val → Val) (a b c : W32) : W32 :=
  let g := elemFmt r.ty
  laneMap r.ty (fun x y z => g.round (elemRnd r) (f (g.val x) (g.val y) (g.val z))) a b c

def floatAdd (r : ElemRec) (a b : W32) : W32 := floatMap r (fun x y _ => x.add (elemRnd r) y) a b 0
def floatSub (r : ElemRec) (a b : W32) : W32 := floatMap r (fun x y _ => x.add (elemRnd r) y.neg) a b 0
def floatMul (r : ElemRec) (a b : W32) : W32 := floatMap r (fun x y _ => x.mul y) a b 0
def floatFma (r : ElemRec) (a b c : W32) : W32 := floatMap r (fun x y z => x.fma (elemRnd r) y z) a b c
def floatMinMax (r : ElemRec) (isMax : Bool) (a b : W32) : W32 :=
  let g := elemFmt r.ty
  laneMap r.ty (fun x y _ => match minMaxPick isMax (g.val x) (g.val y) with
    | none => g.nanCode
    | some t => if t then x else y) a b 0
/-- Sign bit cleared and sign bit inverted, on bits. -/
def floatAbs (r : ElemRec) (a : W32) : W32 := laneMap r.ty (fun x _ _ => x % 2 ^ (laneBits r.ty - 1)) a 0 0
def floatNeg (r : ElemRec) (a : W32) : W32 :=
  laneMap r.ty (fun x _ _ => (x + 2 ^ (laneBits r.ty - 1)) % 2 ^ laneBits r.ty) a 0 0
def floatCmp (r : ElemRec) (a b : W32) : W32 :=
  let g := elemFmt r.ty
  laneMap r.ty (fun x y _ => if condHolds (elemCond r) ((g.val x).order (g.val y)) then 1 else 0) a b 0

def f32Rcp (m : Rnd) (a : W32) : W32 := f32Of m ((Val.fin false 1 0).div (f32Val a))
def f32Sqrt (m : Rnd) (a : W32) : W32 := f32Of m (f32Val a).sqrt
def f32Rsq (m : Rnd) (a : W32) : W32 := f32Of m (f32Val a).rsqrt

/-! ### Tangents of f32 operations (R212) -/

/-- −x on the bits of a tangent, as `FNEG` and `FABS` act (R199). -/
def tanNeg (x : W32) : W32 := x ^^^ 0x80000000
/-- −x of a computed value: a NaN stays the canonical one (R199, log 17). -/
def negRnd (x : W32) : W32 := f32Of .rne (f32Val x).neg
def f32Sub (a b : W32) : W32 := f32Of .rne ((f32Val a).add .rne (f32Val b).neg)
def f32Div (a b : W32) : W32 := f32Of .rne ((f32Val a).div (f32Val b))
/-- LN2 and one half in f32. -/
def ln2F : W32 := 0x3F317218
def halfF : W32 := 0x3F000000
def oneF : W32 := 0x3F800000

def tanMul (a b a' b' : W32) : W32 := f32Fma a' b (f32Mul a b')
def tanFma (a b a' b' c' : W32) : W32 := f32Fma a' b (f32Fma a b' c')
def tanAbs (a a' : W32) : W32 := if a.msb then tanNeg a' else a'
/-- Whether `FMIN` or `FMAX` takes a's tangent: ties and two NaNs take it. -/
def picksFirst (isMax : Bool) (a b : W32) : Bool := f32F.minMaxTan isMax a.toNat b.toNat
def tanRcp (y a' : W32) : W32 := negRnd (f32Mul (f32Mul y y) a')
def tanSqrt (y a' : W32) : W32 := f32Of .rne ((f32Val a').div ((f32Val y).scale 1))
def tanRsq (y a' : W32) : W32 := negRnd (f32Mul (f32Mul a' (f32Mul y (f32Mul y y))) halfF)
def tanExp2 (y a' : W32) : W32 := f32Mul (f32Mul y a') ln2F
def tanLog2 (a a' : W32) : W32 := f32Div a' (f32Mul a ln2F)
def tanTanh (y a' : W32) : W32 := f32Mul (f32Of .rne ((f32Val y).neg.fma .rne (f32Val y) (f32Val oneF))) a'
def tanSin (a a' : W32) : W32 := f32Mul (f32SinCos true .rne a) a'
def tanCos (a a' : W32) : W32 := negRnd (f32Mul (f32SinCos false .rne a) a')

/-! ### Conversion and quantisation (R403 to R405) -/

/-- `CVT`: the result token's bits. A bf16 lane is the upper half of its f32, exact for a NaN as well (R199, log 17). -/
def elemConvert (r : ElemRec) (a : W32) : W32 :=
  match r.ty with
  | .f32 => BitVec.ofNat 32 (encodeFmt r.imm8 (elemRnd r) (r.lvl == 1) (f32Val a))
  | .bf16x2 => a <<< 16
  | t => f32Of (elemRnd r) (intVal (laneInt t (laneAt (laneBits t) a 0)))

/-- Whether the tangent passes a `CVT` with D: float to float. -/
def convertPasses (r : ElemRec) : Bool := r.ty == .f32 && fmtFamily r.imm8 != .integer

/-- `PACK` and `UNPK`. -/
def packWord (r : ElemRec) (a b : W32) : W32 :=
  BitVec.ofNat 32 (b.toNat * 2 ^ fmtBits r.imm8 + encodeFmt r.imm8 .rne false (f32Val a))
def unpackWord (r : ElemRec) (a : W32) : W32 := f32Of .rne (decodeFmt r.imm8 (a.toNat % 2 ^ fmtBits r.imm8))

/-- `QNT` and `DQNT` with a signed 32-bit scale. -/
def quantise (r : ElemRec) (x s : W32) : W32 :=
  BitVec.ofNat 32 (encodeFmt r.imm8 (elemRnd r) (r.lvl == 1) ((f32Val x).scale (-s.toInt)))
def dequantise (r : ElemRec) (q s : W32) : W32 :=
  f32Of (elemRnd r) ((decodeFmt r.imm8 (q.toNat % 2 ^ fmtBits r.imm8)).scale s.toInt)

/-! ### Immediates (R204, R319) -/

/-- The value of imm8 under a type. -/
def immValue (ty : ElTy) (i : Byte) : W32 :=
  match ty with
  | .i32 => i.signExtend 32
  | .n32 => i.zeroExtend 32
  | .f32 => f32Of .rne (decodeFmt 0x14 i.toNat)
  | .bf16x2 => let l := bf16F.round .rne (decodeFmt 0x14 i.toNat); ofLanes 16 [l, l]
  | .i16x2 => let l := (i.signExtend 16).toNat; ofLanes 16 [l, l]
  | .i8x4 | .n8x4 | .b8x4 => ofLanes 8 (List.replicate 4 i.toNat)

/-! ### Reductions (R406) -/

/-- The carry of `RSUM` after one more value. -/
def redSum (ty : ElTy) (c v : W32) : W32 := if ty = .f32 then f32Add c v else c + v
/-- Whether a value replaces the carry of `RMAX` or `RMIN`: greater or smaller, never equal. -/
def redBeats (ty : ElTy) (isMax : Bool) (c v : W32) : Bool :=
  if ty = .f32 then
    match minMaxPick isMax (f32Val c) (f32Val v) with
    | some t => !t
    | none => false
  else if isMax then decide (laneInt ty c.toNat < laneInt ty v.toNat) else decide (laneInt ty v.toNat < laneInt ty c.toNat)

end Sys2Proof.Machine
end

