-- ==== Sys2Proof/Machine/Pages.lean ====
section
/-! DEFINITION. Physical pages and sealed regions: writing, zeroing and freeing pages (R132, R146, R148, R150), the bundle that
is loading (R44, R56) and one `SUNSEAL` chunk. -/

namespace Sys2Proof.Machine

/-- Two ranges overlap, and by how many bytes. -/
def rangesMeet (a al b bl : Nat) : Bool := decide (a < b + bl) && decide (b < a + al)
def overlapBytes (a al b bl : Nat) : Nat := min (a + al) (b + bl) - max a b

/-- The line numbers of a physical range. -/
def linesOf (pa len : Nat) : List Nat := tabulate (len / 64) fun i => pa / 64 + i

/-- The resident lines of a physical range are written back and leave the Commons. -/
def State.flushRange (s : State) (pa len : Nat) : State :=
  ((s.lines.filter fun e => decide (pa / 64 ≤ e.1) && decide (e.1 < (pa + len) / 64)).map (·.1)).foldl State.evictLine s

/-- Each protected line of a range is stamped and folded into HW, as a write (R148). -/
def State.stampRange (s : State) (pa len : Nat) : State :=
  (linesOf pa len).foldl (fun s l => match s.protectedWorld l with
    | some w => s.stampWrite w l
    | none => s) s

/-- Each protected line of a range is folded into HR as a sweep does, without restamping; a stamp of a wrong epoch fails the epoch
that the line's slice still collects, and ends the world (R71, R148). -/
def State.foldRange (s : State) (pa len : Nat) : State :=
  (linesOf pa len).foldl (fun s l => match s.protectedWorld l with
    | some w => match s.foldRead w l with
      | some s => s
      | none => s.endWorld w Cause.integ.code 0xFFFF (((s.world? w).map fun v => v.baseEpoch (s.memSlice (64 * l))).getD 0)
    | none => s) s

/-- No byte of a range is owned. -/
def State.unownedRange (s : State) (pa len : Nat) : Bool :=
  s.owners.all fun o => decide (o.base + o.len ≤ pa) || decide (pa + len ≤ o.base)

/-! ### Taking free pages (R23, R118, R154) -/

/-- The bases of the partition's three HBM ranges of 16 GiB (R125). -/
def hbmRanges (self p : Nat) : List Nat := tabulate 3 fun i => self * 2 ^ 46 + (3 * (p / 4) + i) * 2 ^ 36 + (p % 4) * 2 ^ 34

/-- The partition's three HBM ranges less the reserved area (R125), as (base, length). -/
def partRanges (self p : Nat) : List (Nat × Nat) :=
  (hbmRanges self p).mapIdx fun i b => if i = 0 then (b + 0x4000000, 2 ^ 34 - 0x4000000) else (b, 2 ^ 34)

/-- The lowest start, a multiple of `unit` from `b`, at which a unit of the range is free; each taken range or retired group
is passed at the cost of one of the fuel. -/
def State.firstFree (s : State) (unit : Nat) : Nat → Nat → Nat → Option Nat
  | 0, _, _ => none
  | n + 1, b, e =>
    if e < b + unit then none
    else
      match s.owners.find? fun o => !(decide (o.base + o.len ≤ b) || decide (b + unit ≤ o.base)) with
      | none =>
        match s.retired.find? fun r => decide (b / 65536 ≤ r) && decide (r ≤ (b + unit - 1) / 65536) with
        | some r => s.firstFree unit n (ceilDiv (65536 * (r + 1)) unit * unit) e
        | none => some b
      | some o => s.firstFree unit n (ceilDiv (o.base + o.len) unit * unit) e

/-- The lowest free unit of a partition's HBM. -/
def State.freeUnit (s : State) (p unit : Nat) : Option Nat :=
  (partRanges s.pod.self p).findSome? fun r =>
    s.firstFree unit (s.owners.length + s.retired.length + 1) (ceilDiv r.1 unit * unit) (r.1 + r.2)

/-- Take k units of a partition's HBM for an owner, or none of them; the bases in ascending order of taking. -/
def State.takeUnits (s : State) (p unit : Nat) (o : Owner) : Nat → Option (State × List Nat)
  | 0 => some (s, [])
  | k + 1 =>
    match s.freeUnit p unit with
    | none => none
    | some b =>
      let r : OwnRange := { base := b, len := unit, owner := o, home := p, version := 0 }
      match ({ s with owners := s.owners ++ [r] } : State).takeUnits p unit o k with
      | none => none
      | some (s, l) => some (s, b :: l)

/-- Where the free run that begins at a free page of a partition ends: the next taken or retired address, or the end of its
range. -/
def State.freeEnd (s : State) (p b : Nat) : Nat :=
  let e := (partRanges s.pod.self p).foldl (fun e r => if r.1 ≤ b ∧ b < r.1 + r.2 then r.1 + r.2 else e) (b + pageBytes)
  let e := s.owners.foldl (fun e o => if b < o.base then min e o.base else e) e
  s.retired.foldl (fun e r => if b < 65536 * r then min e (65536 * r) else e) e

/-- Take n bytes of a partition's HBM for an owner from its free pages, the lowest first, or none of them; each run taken costs
one of the fuel. -/
def State.takeRuns (s : State) (p : Nat) (o : Owner) : Nat → Nat → Option (State × List (Nat × Nat))
  | 0, n => if n = 0 then some (s, []) else none
  | k + 1, n =>
    if n = 0 then some (s, [])
    else match s.freeUnit p pageBytes with
      | none => none
      | some b =>
        let len := min n (s.freeEnd p b - b)
        let r : OwnRange := { base := b, len := len, owner := o, home := p, version := 0 }
        match ({ s with owners := s.owners ++ [r] } : State).takeRuns p o k (n - len) with
        | none => none
        | some (s, l) => some (s, (b, len) :: l)

def State.takeBytes (s : State) (p : Nat) (o : Owner) (n : Nat) : Option (State × List (Nat × Nat)) :=
  s.takeRuns p o (s.owners.length + s.retired.length + 4) n

/-! ### Loading a bundle (R44, R56) -/

/-- Release a page of a world: its leaf goes, its lines are zeroed and its ownership freed. -/
def State.dropLeaf (s : State) (w : Nat) (e : Nat × Leaf) : State :=
  let s := s.onWorld w fun v => { v with leaves := Map.erase v.leaves e.1 }
  if e.2.evicted.isSome then s else s.freeRange e.2.pa (leafBytes e.2.level)

/-- The leaves of a world that meet a region. -/
def World.leavesIn (v : World) (r : Region) : List (Nat × Leaf) :=
  v.leaves.filter fun e => rangesMeet e.1 (leafBytes e.2.level) r.base (65536 * r.chunks)

/-- A leaf meets a region of which the bundle that loads is not the owner. -/
def World.leafShared (v : World) (e : Nat × Leaf) : Bool :=
  v.regions.any fun r => r.st != .loading && rangesMeet e.1 (leafBytes e.2.level) r.base (65536 * r.chunks)

/-- The bytes of a region in a leaf are zeroed, and their lines stamped anew; the leaf stays (R44, R148). -/
def State.zeroPart (s : State) (e : Nat × Leaf) (r : Region) : State :=
  let lo := max e.1 r.base
  let pa := e.2.pa + (lo - e.1)
  let len := overlapBytes e.1 (leafBytes e.2.level) r.base (65536 * r.chunks)
  (((s.flushRange pa len).foldRange pa len).zeroRange pa len).stampRange pa len

/-- The Sealing-failure transition (R44): the key goes, the regions of the bundle are zeroed and unmapped, the world returns
to its previous state and the LOAD_SEAL node completes. A page that a region shares with a region that is not loading keeps its
mapping, and only the bytes of the loading region are zeroed (log 28). -/
def State.sealingFails (s : State) (w : Nat) (r : NodeResult) : State :=
  match s.world? w with
  | none => s
  | some v => match v.loading with
    | none => s
    | some l =>
      let mine := v.regions.filter fun x => x.st == .loading
      let s := mine.foldl (fun s x => (v.leavesIn x).foldl (fun s e =>
        if !(s.world? w).any fun v => (Map.get? v.leaves e.1).isSome then s
        else if v.leafShared e then s.zeroPart e x
        else ((s.flushRange e.2.pa (leafBytes e.2.level)).foldRange e.2.pa (leafBytes e.2.level)).dropLeaf w e) s) s
      let s := s.onWorld w fun v =>
        { v with loading := none, st := if v.st = .ending then .ending else l.prev
                 held := v.bundle.any fun b => decide (s.lodge.fwVersion < b.minVersion)
                 regions := v.regions.filter fun x => x.st != .loading }
      s.finishNode l.fn l.q l.node r

/-- The virtual address at which chunk i of a bundle lands. -/
def Bundle.chunkAt (b : Bundle) (i : Nat) : Option Nat :=
  (b.regions.foldl (fun (r : Nat × Option Nat) x =>
    if i < r.1 ∨ r.1 + x.2.1 ≤ i then (r.1 + x.2.1, r.2) else (r.1 + x.2.1, some (x.1 + 65536 * (i - r.1)))) (0, none)).2

/-- Write the 64 KiB of a chunk into the OPD pages of its region. -/
def State.writeChunk (s : State) (n w va : Nat) (l : List Byte) : State :=
  (List.range 1024).foldl (fun s i =>
    if !s.mapped w (va + 64 * i) then s
    else
    let pa := s.paOf w (va + 64 * i)
    let s := s.touch n .opd pa true false
    let s := s.store pa ((l.drop (64 * i)).take 64)
    { s with opdBacked := if s.opdBacked.contains (pa / pageBytes) then s.opdBacked else pa / pageBytes :: s.opdBacked }) s

/-- The last chunk has landed: the world is Sealed, the bundle's regions are active and its sets have a new current
generation (R44, R248). It is held where the firmware has meanwhile become older than its minimum (R54, R94). -/
def State.sealDone (s : State) (w : Nat) : State :=
  match s.world? w with
  | none => s
  | some v => match v.loading with
    | none => s
    | some l =>
      let gens := (v.regions.filter fun x => x.st == .loading).map fun x => (x.set, x.gen)
      let s := s.setWorld w { v with
        st := .sealed, loading := none, bundle := some l.bundle, held := decide (s.lodge.fwVersion < l.bundle.minVersion)
        regions := v.regions.map fun x => if x.st = .loading then { x with st := .active } else x
        current := gens.foldl (fun m g => Map.put m g.1 g.2) v.current }
      (s.settleGens w).finishStatus l.fn l.q l.node .ok

/-- One chunk carried by `SUNSEAL` (R56): its tag under the policy digest, its number and the final flag; false when it fails
and the world has left Sealing. -/
def State.sunsealChunk (s : State) (n : Nat) (chunk : List Byte) : State × Bool :=
  let w := (s.cell n).ident.world
  match s.world? w with
  | none => (s, false)
  | some v => match v.loading with
    | none => (s, false)
    | some l =>
      let i := l.next
      let last := i + 1 = l.bundle.chunks
      let aad := leBytes 48 l.bundle.digest ++ leBytes 4 i ++ leBytes 1 (if last then 1 else 0)
      let body := chunk.take 65536
      let tag := BitVec.ofNat 128 (leAt chunk 65536 16)
      match gcmOpen l.key i aad body tag, l.bundle.chunkAt i with
      | some plain, some va =>
        let s := s.writeChunk n w va plain
        let s := s.onWorld w fun v =>
          { v with loading := v.loading.map fun l => { l with next := i + 1, last := s.timebase } }
        (if last then s.sealDone w else s, true)
      | _, _ => (s.sealingFails w { status := .tag, cause := 0, detail := 0 }, false)

end Sys2Proof.Machine
end

