-- ==== Sys2Proof/Machine/Shapes.lean ====
section
/-! DEFINITION. Shape records and the addresses a stream touches (R239 to R245, R363). -/

namespace Sys2Proof.Machine

/-! ### The record (R239, R240) -/

/-- A signed 32-bit field of a record. -/
def recInt (l : List Byte) (o : Nat) : Int := signedOf 32 (leAt l o 4)

/-- Dimension d of a record. -/
def recDim (l : List Byte) (d : Nat) : Dim where
  ext := (recInt l (16 + 4 * d)).toNat
  str := recInt l (36 + 4 * d)
  off := signedOf 8 (leAt l (56 + d) 1)
  wrap := leAt l 11 1 / 2 ^ d % 2 == 1
  level := leAt l 12 2 / 4 ^ d % 4

/-- A dimension below RANK is in range: extent 1 to 2^24, an offset only with wrap. -/
def recDimOk (l : List Byte) (d : Nat) : Bool :=
  decide (1 ≤ recInt l (16 + 4 * d)) && decide (recInt l (16 + 4 * d) ≤ 2 ^ 24)
    && ((recDim l d).wrap || (recDim l d).off == 0)

/-- A dimension at or above RANK has every field zero. -/
def recDimZero (l : List Byte) (d : Nat) : Bool :=
  zeroAt l (16 + 4 * d) 4 && zeroAt l (36 + 4 * d) 4 && zeroAt l (56 + d) 1 && !(recDim l d).wrap
    && (recDim l d).level == 0

/-- Half bytes of an element of a format. -/
def fmtHalf (c : Byte) : Nat := fmtBits c / 4

/-- Elements of a shape: the product of its extents. -/
def Shape.count (p : Shape) : Nat := p.dims.foldl (fun n d => n * d.ext) 1

/-- The COMBO checks of R240, R243 and R245 that the record alone decides. -/
def shapeOk (l : List Byte) (p : Shape) : Bool :=
  let rank := leAt l 9 1
  let d0 := recDim l 0
  let d1 := recDim l 1
  decide (1 ≤ rank) && decide (rank ≤ 5) && decide (leAt l 10 1 < 8) && decide (leAt l 11 1 < 32)
    && decide (leAt l 12 2 < 1024) && zeroAt l 61 3 && !fmtReserved p.etype && (p.kv || zeroAt l 14 2)
    && (List.range 5).all (fun d => if d < rank then recDimOk l d else recDimZero l d)
    && decide (p.count ≤ 2 ^ 40)
    && (fmtBits p.etype != 4 || (d0.str == 1 && d0.ext % 2 == 0
          && (List.range 4).all fun d => (recDim l (d + 1)).str % 2 == 0))
    && (!p.desc || p.kv || (p.base.toNat % 64 == 0 && d0.str == 1 && d0.ext * fmtHalf p.etype % 128 == 0))
    && (!p.kv || (decide (2 ≤ rank) && d1.str == 0 && !d1.wrap && !p.desc))

/-- Parse a shape record; none where a check of R240 traps COMBO. -/
def parseShape (l : List Byte) : Option Shape :=
  let p : Shape := {
    base := BitVec.ofNat 64 (leAt l 0 8)
    etype := BitVec.ofNat 8 (leAt l 8 1)
    desc := leAt l 10 1 % 2 == 1
    tan := leAt l 10 1 / 2 % 2 == 1
    kv := leAt l 10 1 / 4 % 2 == 1
    kvseq := leAt l 14 2
    dims := tabulate (min 5 (leAt l 9 1)) (recDim l) }
  if shapeOk l p then some p else none

/-! ### Addresses (R240, R245, R166) -/

/-- The index j_d of each dimension for element n, dimension 0 fastest. -/
def coords : List Dim → Nat → List Nat
  | [], _ => []
  | d :: r, n => n % d.ext :: coords r (n / d.ext)

/-- The index of a dimension after its wrap. -/
def Dim.index (d : Dim) (j : Nat) : Int := if d.wrap then ((j : Int) + d.off) % d.ext else j

/-- The term of R240 over dimensions and indices, in elements; `top` replaces the index of the last dimension. -/
def termOf : List Dim → List Nat → Option Nat → Int
  | d :: [], j :: _, top => (match top with
    | some i => (i : Int)
    | none => d.index j) * d.str
  | d :: r, j :: js, top => d.index j * d.str + termOf r js top
  | _, _, _ => 0

/-- The address of a position's record in a snapshot (R166). -/
def KvSnap.posAddr (k : KvSnap) (p : Nat) : Nat :=
  k.pool + k.pages.getD (p / 16) 0 * k.pageB + p % 16 * (k.pageB / 16)

/-- The index of dimension 1, which is the listed row where dimension 1 is the top dimension of a listed stream (R242, R245). -/
def Shape.index1 (p : Shape) (n : Nat) (top : Option Nat) : Nat :=
  match top with
  | some i => if p.dims.length = 2 then i else (coords p.dims n).getD 1 0
  | none => (coords p.dims n).getD 1 0

/-- The address of element n of the shaped side in half bytes; in KV mode the position names the page. -/
def Shape.addr2 (p : Shape) (snap : Option KvSnap) (n : Nat) (top : Option Nat) : Int :=
  let js := coords p.dims n
  let t := termOf p.dims js top * fmtHalf p.etype
  match p.kv, snap with
  | true, some k =>
    let pos := (p.base.extractLsb' 32 18).toNat + p.index1 n top
    2 * ((k.posAddr pos : Int) + (p.base.extractLsb' 0 32).toNat) + t
  | _, _ => 2 * (p.base.toNat : Int) + t

/-- The byte address of a half-byte address as a word: negative and large ones fail the test of bits [63:58]. -/
def vaOf (a2 : Int) : Word := BitVec.ofInt 64 (a2 / 2)

/-- The largest marker level among the dimensions that element n completes (R241); 0 for none. -/
def levelAfter : List Dim → Nat → Nat
  | [], _ => 0
  | d :: r, n => if n % d.ext + 1 = d.ext then max d.level (levelAfter r (n / d.ext)) else 0

/-- Bytes counted for the first n elements (R240). -/
def StreamCmd.bytesTo (c : StreamCmd) (n : Nat) : Nat :=
  if c.op = .sunseal then 65536 * n else n * c.half / 2 + (if c.shape.tan then 4 * c.tw * n else 0)

/-- Bytes of an element, at least one. -/
def StreamCmd.esz (c : StreamCmd) : Nat := max 1 (c.half / 2)

/-- Tangent planes that the stream moves: T with TAN set, else none (R244). -/
def StreamCmd.planes (c : StreamCmd) : Nat := if c.shape.tan then c.tw else 0

/-- Tangent address k of a side that starts at byte b, of an element at a2 (R244). -/
def StreamCmd.tanAddr (c : StreamCmd) (b : Int) (a2 : Int) (k : Nat) : Int :=
  b + k * c.ktstride.toNat + 4 * ((a2 - 2 * b) / c.half)

/-- The shaped side is the destination (R242). -/
def StreamOp.shapedDst : StreamOp → Bool
  | .sdrain | .sscat | .stfill => true
  | _ => false

/-- The stream goes by an index list (R242). -/
def StreamOp.listed : StreamOp → Bool
  | .sgath | .sscat => true
  | _ => false

/-- The top dimension's extent, and how many elements share one top index. -/
def Shape.topExt (p : Shape) : Nat := (p.dims.getLast?.map (·.ext)).getD 1
def Shape.perTop (p : Shape) : Nat := p.count / p.topExt

/-- Every half-byte address of the shaped side's declared range: for a listed stream every row below the top extent. -/
def StreamCmd.range2 (c : StreamCmd) : List Int :=
  if c.op.listed then
    (List.range c.count).map fun n => c.shape.addr2 c.snap n (some (n / c.shape.perTop))
  else (List.range c.count).map fun n => c.shape.addr2 c.snap n none

/-- The half-byte address of element n of a contiguous side. -/
def StreamCmd.contig2 (c : StreamCmd) (b : Nat) (n : Nat) : Int := 2 * b + n * c.half

/-! ### Descriptor addresses (R143) -/

/-- The address of the 64-byte block that holds a half-byte address, and its descriptor's. -/
def blockOf (a2 : Int) : Int := a2 / 2 / 64 * 64
def StreamCmd.descAddr (c : StreamCmd) (a2 : Int) : Int := c.kdesc.toNat + (blockOf a2 - c.kdbase.toNat) / 32

/-- The memory addresses that element n touches on both sides, with its tangents and descriptor; for `SUNSEAL` one in each page of
the chunk. -/
def StreamCmd.elemVas (c : StreamCmd) (n : Nat) (row : Option Nat) : List Int :=
  let a2 := c.shape.addr2 c.snap n row
  let tans (b a2 : Int) := tabulate (if c.wgen.isSome then 0 else c.planes) fun k => c.tanAddr b a2 (k + 1)
  let shaped := if c.sscr || c.op == .sunseal then []
    else a2 / 2 :: tans c.shape.base.toNat a2 ++ (if c.shape.desc then [c.descAddr a2] else [])
  let other := match c.op, c.other with
    | .sunseal, .mem va => tabulate 9 fun k => (va.toNat + 65552 * n + min 65551 (8192 * k) : Int)
    | _, .mem va => c.contig2 va.toNat n / 2 :: tans va.toNat (c.contig2 va.toNat n)
    | _, _ => []
  shaped ++ other

/-- Every memory address of the command: its elements' and its index list. -/
def StreamCmd.vas (c : StreamCmd) : List Int :=
  (List.range c.count).flatMap (fun n => c.elemVas n (if c.op.listed then some (n / c.shape.perTop) else none))
    ++ (match c.list with
      | some a => (List.range c.shape.topExt).map fun (i : Nat) => (a.toNat : Int) + 4 * i
      | none => [])

end Sys2Proof.Machine
end

