-- ==== Sys2Proof/Machine/Streams.lean ====
section
/-! DEFINITION. Streams: issue and its checks (R246, R359 to R365), requests, landing and completion (R238, R241 to R246),
waiting and cancelling (R366). -/

namespace Sys2Proof.Machine

/-! ### The operation of a stream command -/

/-- The other sides that R363 allows an operation. -/
def okindOk : StreamOp → Nat → Bool
  | .scopy, k => k == 0 || k == 1 || k == 4
  | .sgath, k => k == 0 || k == 1 || k == 2
  | .sscat, k => k == 0 || k == 1 || k == 4
  | .sfeed, k => k == 2
  | .sdrain, k => k == 3 || k == 4
  | .stfill, k => k == 5
  | .sunseal, _ => false

/-- The other side that s[y] names, none where R363 traps COMBO. -/
def otherOf (k : Nat) (y : Word) : Option Other :=
  match k with
  | 0 => some (.mem y)
  | 1 => if y.toNat < 2 ^ 20 then some (.scratch y.toNat) else none
  | 2 => if y.toNat < 4 then some (.fifo y.toNat) else none
  | 3 => if y &&& ~~~(0x7F07 : Word) = 0 then some (.tile (y.extractLsb' 0 3).toNat (y.extractLsb' 8 7).toNat) else none
  | 4 => if 32 ≤ y.toNat ∧ y.toNat < 48 then some (.port y.toNat) else none
  | 5 => if y.toNat < 2 ^ 32 then some (.value (y.setWidth 32)) else none
  | _ => none

/-- The combinations of R242, R244, R363 and R367 that depend on both sides. -/
def sidesOk (c : StreamCmd) (dualT : Nat) : Bool :=
  let p := c.shape
  (!p.kv || !c.sscr)
    && (dualT == 0 || (c.ktstride != 0 && c.ktstride.toNat % 64 == 0)) && (!p.tan || dualT != 0)
    && (match c.other with
      | .fifo q => !(p.tan && decide (2 ≤ q))
      | .port _ => (c.op.shapedDst || c.count * c.half % 8 == 0) && (!p.tan || p.etype == fmtF32)
      | .tile t r => p.etype == fmtF32 && decide (c.count ≤ (128 - r) * 96) && (!p.tan || decide (t + c.tw ≤ 7))
      | .value _ => p.etype == fmtF32
      | _ => true)

/-! ### Translation of ranges (R246 item 3) -/

/-- The first address of each page that a list of byte addresses touches. -/
def pageFirsts (l : List Int) : List Int :=
  (l.foldl (fun (r : List Int) a => if r.any fun b => b / pageBytes == a / pageBytes then r else a :: r) []).reverse

/-- Translate every page of a list of byte addresses. -/
def State.accessAll (s : State) (n : Nat) (k : Access) (size : Nat) (l : List Int) : Chk (List Loc) :=
  (pageFirsts l).foldl (fun r a => r.andThen fun ls =>
    (s.access n k size (BitVec.ofInt 64 a) none).andThen fun x => .ok (ls ++ [x])) (.ok [])

/-- A scratch range: every address below 0x10_0000, and every one aligned (R123). -/
def scratchRange (size : Nat) (l : List Int) : Chk (List Loc) :=
  match l.find? fun (a : Int) => decide (a < 0) || decide (0x100000 < a + size) with
  | some a => .trap .perm (BitVec.ofInt 64 (if a < 0 then a else max a 0x100000))
  | none => match l.find? fun (a : Int) => a % size != 0 with
    | some a => .trap .align (BitVec.ofInt 64 a)
    | none => .ok []

/-- Byte addresses of a contiguous side. -/
def StreamCmd.contigBytes (c : StreamCmd) (b : Nat) : List Int := (List.range c.count).map fun n => c.contig2 b n / 2

/-- The place is on an operand-only page. -/
def Loc.isOpd (l : Loc) : Bool := l.cls == .opd

/-- The half-byte addresses of the shaped side that are known: in KV mode only a snapshot gives them. -/
def StreamCmd.known2 (c : StreamCmd) : List Int := if c.shape.kv && c.snap.isNone then [] else c.range2

/-- The pages that a stream's addresses lie on: of the shaped side, of the other side, of the list, and of the tangent planes. -/
structure StreamPages where
  shaped : List Loc
  other  : List Loc
  list   : List Loc
  tans   : List Loc

/-- Every address of the stream's sides, list and tangent planes, translated and checked (R246 item 3). -/
def State.streamPages (s : State) (n : Nat) (c : StreamCmd) : Chk StreamPages :=
  let dst := c.op.shapedDst
  let kS : Access := if dst then .streamDst else .streamSrc
  let kO : Access := if dst then .streamSrc else .streamDst
  let r := c.known2
  let shaped := if c.sscr then scratchRange c.esz (r.map (· / 2))
    else s.accessAll n kS c.esz (r.map (· / 2))
  shaped.andThen fun (ls : List Loc) =>
  (match c.list with
    | some a => s.accessAll n .streamSrc 4 ((List.range c.shape.topExt).map fun (i : Nat) => (a.toNat : Int) + 4 * i)
    | none => .ok []).andThen fun ll =>
  (match c.other with
    | .mem va => s.accessAll n kO c.esz (c.contigBytes va.toNat)
    | .scratch sa => scratchRange c.esz (c.contigBytes sa)
    | _ => .ok []).andThen fun lo =>
  let planes := List.range c.planes
  let plain := ls.any Loc.isOpd || c.planes == 0
  ((if plain then .ok []
    else
      let ts := planes.flatMap fun k => r.map fun a => c.tanAddr c.shape.base.toNat a (k + 1)
      if c.sscr then scratchRange 4 ts else s.accessAll n (.tangent dst) 4 ts) : Chk (List Loc)).andThen fun lt =>
  ((if plain then .ok []
    else
      let to_ (b : Nat) := planes.flatMap fun k => (List.range c.count).map fun i =>
        c.tanAddr b (c.contig2 b i) (k + 1)
      match c.other with
      | .mem va => s.accessAll n (.tangent (!dst)) 4 (to_ va.toNat)
      | .scratch sa => scratchRange 4 (to_ sa)
      | _ => .ok []) : Chk (List Loc)).andThen fun lu => .ok { shaped := ls, other := lo, list := ll, tans := lt ++ lu }

/-! ### Operand-only checks (R136, R144, R248) -/

/-- The generation of a weight set that a stream of a cell binds to (R248). -/
def World.boundGen (v : World) (c : Cell) (set : Nat) : Option Nat :=
  match c.pins.find? fun p => p.1 == set with
  | some p => some p.2
  | none => Map.get? v.current set

/-- The active region of the bound generation that holds a byte range. -/
def World.sealedFor (v : World) (c : Cell) (lo hi : Int) : Option Region :=
  v.regions.find? fun r => r.st == .active && decide ((r.base : Int) ≤ lo) && decide (hi ≤ r.base + 65536 * r.chunks)
    && v.boundGen c r.set == some r.gen

/-- The lowest and the end of the bytes a list of addresses touches. -/
def spanOf (size : Nat) (l : List Int) : Int × Int :=
  (l.foldl min (l.headD 0), l.foldl max (l.headD 0) + size)

/-- R246 item 4: an OPD source must feed an operand FIFO from one active region of the bound generation; nothing else may
touch OPD. Answers the binding. -/
def State.opdCheck (s : State) (n : Nat) (c : StreamCmd) (pages : StreamPages) : Chk (Option (Nat × Nat)) :=
  let end_ : Chk (Option (Nat × Nat)) := .endWorld .opd
  let ls := pages.shaped
  if pages.other.any Loc.isOpd || pages.list.any Loc.isOpd then end_
  else if !ls.any Loc.isOpd then .ok none
  else
    match c.op, c.other, s.world? (s.cell n).ident.world with
    | .sfeed, .fifo _, some v | .sgath, .fifo _, some v =>
      if !ls.all Loc.isOpd then end_
      else
        let (a, b) := spanOf c.esz (c.range2.map (· / 2))
        match v.sealedFor (s.cell n) a b with
        | some r => .ok (some (r.set, r.gen))
        | none => end_
    | _, _, _ => end_

/-- Descriptors (R143, R144): of the class of their data, in its region for OPD, none below `kdbase`; answers their pages. -/
def State.descCheck (s : State) (n : Nat) (c : StreamCmd) (marked : Bool) : Chk (List Loc) :=
  if !c.shape.desc then .ok []
  else
    let r := c.range2
    let good := r.filter fun a => decide ((c.kdbase.toNat : Int) ≤ blockOf a)
    let low : Chk Unit := if good.length = r.length then .ok () else .trap .stream 0
    if c.sscr then (scratchRange 2 (good.map c.descAddr)).andThen fun _ => low.andThen fun _ => .ok []
    else if good.isEmpty then low.andThen fun _ => .ok []
    else
      (s.accessAll n .streamSrc 2 (good.map c.descAddr)).andThen fun ds =>
      let opd := ds.any Loc.isOpd
      let same := if marked then
          match s.world? (s.cell n).ident.world with
          | some v =>
            let (a, b) := spanOf c.esz (r.map (· / 2))
            let (x, y) := spanOf 2 (good.map c.descAddr)
            ds.all Loc.isOpd
              && (match v.sealedFor (s.cell n) a b with
                | some g => decide ((g.base : Int) ≤ x) && decide (y ≤ g.base + 65536 * g.chunks)
                | none => false)
          | none => false
        else !opd
      if same then low.andThen fun _ => .ok ds
      else if marked || opd then .endWorld .opd
      else .trap .perm (BitVec.ofInt 64 ((good.map c.descAddr).headD 0))

/-! ### KV snapshots (R168, R245) -/

/-- The snapshot of a sequence: none where the sequence is not live, or a position or a record offset is out of range. -/
def KvMap.snapshot (m : KvMap) (c : StreamCmd) : Option KvSnap :=
  match Map.get? m.seqs c.shape.kvseq with
  | none => none
  | some q =>
    let p0 := (c.shape.base.extractLsb' 32 18).toNat
    let pageB := 16384 * m.units
    let k : KvSnap := { pool := m.pool, pageB := pageB, len := q.len, pages := q.table.take (ceilDiv q.len 16) }
    let last := p0 + ((c.shape.dims.getD 1 { ext := 1, str := 0, off := 0, wrap := false, level := 0 }).ext - 1)
    let terms := (List.range c.count).map fun n => termOf c.shape.dims (coords c.shape.dims n) none * c.half / 2
    let top := (c.shape.base.extractLsb' 0 32).toNat + terms.foldl max 0
    if last < q.len ∧ top < pageB / 16 then some k else none

/-- No hold on a page of a snapshot would pass 255 (R156, R168). -/
def State.mayHold (s : State) (w : Nat) (snap : Option KvSnap) : Bool :=
  match snap, (s.world? w).bind (·.kv) with
  | some k, some m => k.pages.all fun p => decide (Map.get 0 m.holds p < 255)
  | _, _ => true

/-- Take one hold on every page of a snapshot. -/
def State.takeHolds (s : State) (w : Nat) (snap : Option KvSnap) : State :=
  match snap with
  | none => s
  | some k => s.onWorld w fun v => { v with kv := v.kv.map fun m =>
      { m with holds := k.pages.foldl (fun h p => Map.set 0 h p (Map.get 0 h p + 1)) m.holds } }

/-! ### Arming (R260, R261, R360) -/

def Cell.gate (c : Cell) (g : Nat) : Gate := Map.get Gate.reset c.gates g
def Cell.setGate (c : Cell) (g : Nat) (v : Gate) : Cell := { c with gates := Map.put c.gates g v }

/-- A deferred command may be armed on its term: it holds none yet. -/
def Cell.mayArm (c : Cell) (gate : Option Reg) : Bool :=
  match gate with
  | none => true
  | some w => (c.gate (c.gateOf w)).armed.isNone

/-- Arm a command on a term. -/
def Cell.arm (c : Cell) (g : Nat) (a : Armed) (word : W32) : Cell := c.setGate g { c.gate g with armed := some (a, word) }

/-! ### Issue (R364) -/

/-- The scope of a stream: POD where an address lies on another module, CELL where its sides and its list stay in the cell, else
PART (R184). The record, which the command reads at issue, is not counted among what the stream touches (log 12). -/
def StreamCmd.scopeOf (s : State) (c : StreamCmd) (pages : List Loc) : Scope :=
  if pages.any fun l => paModule l.pa != s.pod.self then .pod
  else
    match c.other with
    | .mem _ => .part
    | _ => if c.sscr && c.list.isNone then .cell else .part

/-- An engine command waits for the stores before it (R184, R341). -/
def State.release (s : State) (n : Nat) : State := s.drain n

/-- Read a record of n bytes for a command: scratch (R339) or NORM memory (R336). -/
def State.readRecord (s : State) (n : Nat) (scr : Bool) (a : Word) (size len : Nat) : Chk (List Byte) :=
  if scr then
    if 0x100000 < a.toNat + len then .trap .perm (pastScratch a)
    else if a.toNat % size ≠ 0 then .trap .align a
    else .ok ((s.cell n).scratchRead a.toNat len)
  else (s.access n .bankRead size a none).andThen fun l => .ok (readBytes s.mem l.pa len)

/-- The command of a stream instruction before its checks; none where a field of it traps COMBO. -/
def streamCmdOf (c : Cell) (op : StreamOp) (dualT : Nat) (ctl y : Word) (record : List Byte) (list : Option Word) :
    Option StreamCmd :=
  let k := (ctl.extractLsb' 11 3).toNat
  match parseShape record, otherOf k y, okindOk op k with
  | some p, some o, true =>
    some {
      op := op, shape := p, other := o, sscr := ctl.getLsbD 14, rscr := ctl.getLsbD 15, list := list
      bar := if ctl.getLsbD 10 then none else some (ctl.extractLsb' 5 5).toNat
      tw := dualT, kdesc := c.seq.kdesc, kdbase := c.seq.kdbase, ktstride := c.seq.ktstride
      wgen := none, snap := none, scope := .part, count := p.count, half := fmtHalf p.etype, serial := 0 }
  | _, _, _ => none

/-- The control-word checks of R364 and R365. -/
def streamCtlOk (ctl : Word) : Bool :=
  ctl.extractLsb' 16 48 == 0 && !ctl.getLsbD 4 && !(ctl.getLsbD 10 && ctl.extractLsb' 5 5 != 0)

/-- The barrier of a command may take its bytes (R247). -/
def Cell.barOk (c : Cell) (bar : Option Nat) (n : Nat) : Bool :=
  match bar with
  | none => true
  | some b => c.barrierMayAdd b n

/-- Mark the identifier busy: the byte count joins the barrier, and the stream starts or is armed (R364). -/
def Cell.startStream (c : Cell) (st : Nat) (gate : Option Nat) (word : W32) (cmd : StreamCmd) : Cell :=
  let cmd := { cmd with serial := c.nextSerial }
  let c := (c.barrierAdd cmd.bar (cmd.bytesTo cmd.count) cmd.scope)
  let c := { c with
    streams := Map.put c.streams st
      { cmd := cmd, armed := gate, issued := 0, inflight := [], landed := 0, rows := [], cancelled := false }
    nextSerial := c.nextSerial + 1 }
  match gate with
  | none => c
  | some g => c.arm g (.stream st) word

/-- A command in KV mode with the snapshot of its sequence, where it can be taken (R245). It says which addresses the stream
has. -/
def State.withSnap (s : State) (n : Nat) (c : StreamCmd) : StreamCmd :=
  if c.shape.kv then { c with snap := ((s.world? (s.cell n).ident.world).bind (·.kv)).bind fun m => m.snapshot c } else c

/-- The first address of a stream that lies on another module: its scope is POD, which the policy must allow (R172, R246 item
2). -/
def State.farAddr (s : State) (n : Nat) (c : StreamCmd) : Option Int :=
  (if c.shape.kv && c.snap.isNone then [] else c.vas).find? fun a =>
    match (s.world? (s.cell n).ident.world).bind fun v => v.leafAt a.toNat with
    | some (b, l) => l.evicted.isNone && paModule (l.pa + (a.toNat - b)) != s.pod.self
    | none => false

/-- The checks of R246 items 2 to 6 on a formed command. -/
def State.streamChecks (s : State) (n : Nat) (c : StreamCmd) : Chk StreamCmd :=
  let c := s.withSnap n c
  let far := (s.farAddr n c).filter fun _ => !s.podOkVf (s.cell n).ident.vf
  (Chk.need far.isNone .scope (BitVec.ofInt 64 (far.getD 0))).andThen fun _ =>
  (s.streamPages n c).andThen fun pages =>
  (s.opdCheck n c pages).andThen fun bound =>
  (s.descCheck n c bound.isSome).andThen fun ds =>
  (Chk.need (!c.shape.kv || c.snap.isSome) .stream 0).andThen fun _ =>
  (Chk.need (s.mayHold (s.cell n).ident.world c.snap) .stream 0).andThen fun _ =>
  (Chk.need ((s.cell n).barOk c.bar (c.bytesTo c.count)) .barrier 0).andThen fun _ =>
  .ok { c with
    wgen := bound, scope := StreamCmd.scopeOf s c (pages.shaped ++ pages.other ++ pages.list ++ pages.tans ++ ds) }

/-- A stream instruction (R362 to R364, R367). -/
def streamOp (s : State) (du : Bool) (op : StreamOp) (x y z : Reg) (gate : Option Reg) : Host.Outcome State Fault Refusal :=
  let n := s.focus.cell
  let c := s.cur
  let ctl := c.reg x
  let st := (ctl.extractLsb' 0 4).toNat
  let word := c.instrWord du
  if !streamCtlOk ctl || !c.mayArm gate then trapNow s du .combo
  else if (Map.get? c.streams st).isSome then .next s
  else
    let s := s.release n
    if s.cur.run = .idle then .next s
    else
    let r := (s.readRecord n (ctl.getLsbD 15) (c.reg z) 64 64).andThen fun record =>
      (if op.listed then
        (s.readRecord n (ctl.getLsbD 15) (c.reg z + 64) 8 8).andThen fun l => .ok (some (BitVec.ofNat 64 (leNat l)))
      else .ok none).andThen fun list =>
      match streamCmdOf c op (c.dualT du) ctl (c.reg y) record list with
      | none => .trap .combo 0
      | some cmd => if sidesOk cmd (c.dualT du) then s.streamChecks n cmd else .trap .combo 0
    s.withChk n word 4 r fun cmd =>
      let s := s.takeHolds c.ident.world cmd.snap
      .next (s.onCur fun c => (c.startStream st (gate.map c.gateOf) word cmd).retire du)

def execScopy (x y z : Reg) (gate : Option Reg) (s : State) : Host.Outcome State Fault Refusal :=
  streamOp s false .scopy x y z gate
def execSfeed (x y z : Reg) (gate : Option Reg) (s : State) : Host.Outcome State Fault Refusal :=
  streamOp s false .sfeed x y z gate
def execSdrain (x y z : Reg) (gate : Option Reg) (s : State) : Host.Outcome State Fault Refusal :=
  streamOp s false .sdrain x y z gate
def execSgath (x y z : Reg) (gate : Option Reg) (s : State) : Host.Outcome State Fault Refusal :=
  streamOp s false .sgath x y z gate
def execSscat (x y z : Reg) (gate : Option Reg) (s : State) : Host.Outcome State Fault Refusal :=
  streamOp s false .sscat x y z gate
def execStfill (x y z : Reg) (gate : Option Reg) (s : State) : Host.Outcome State Fault Refusal :=
  streamOp s false .stfill x y z gate

/-- The shape of a `SUNSEAL`: it has none of its own, and its source is the chunks (R365). -/
def unsealCmd (c : Cell) (bar : Option Nat) (src : Word) (n : Nat) : StreamCmd where
  op := .sunseal
  shape := { base := src, etype := 0x40, desc := false, tan := false, kv := false, kvseq := 0, dims := [] }
  other := .mem src
  sscr := false
  rscr := false
  list := none
  bar := bar
  tw := 0
  kdesc := c.seq.kdesc
  kdbase := c.seq.kdbase
  ktstride := c.seq.ktstride
  wgen := none
  snap := none
  scope := .part
  count := n
  half := 2
  serial := 0

/-- The chunks' source range, NORM memory (R365). -/
def State.unsealRange (s : State) (n : Nat) (va : Word) (chunks : Nat) : Chk (List Loc) :=
  (s.accessAll n .bankRead 16 ((List.range (ceilDiv (65552 * chunks) 16)).map fun (i : Nat) => (va.toNat : Int) + 16 * i))

/-- `SUNSEAL` (R365): outside Sealing nothing moves and the stream completes at once. -/
def execSunseal (x y z : Reg) (gate : Option Reg) (s : State) : Host.Outcome State Fault Refusal :=
  let n := s.focus.cell
  let c := s.cur
  let ctl := c.reg x
  let st := (ctl.extractLsb' 0 4).toNat
  let k := (c.reg z).toNat
  let word := c.instrWord false
  if !streamCtlOk ctl || ctl.extractLsb' 11 5 != 0 || !decide (1 ≤ k ∧ k ≤ 4096) || !c.mayArm gate then trapNow s false .combo
  else if (Map.get? c.streams st).isSome then .next s
  else
    let s := s.release n
    if s.cur.run = .idle then .next s else
    let bar := if ctl.getLsbD 10 then none else some (ctl.extractLsb' 5 5).toNat
    let cmd := unsealCmd c bar (c.reg y) k
    s.withChk n word 4 ((s.unsealRange n (c.reg y) k).andThen fun _ =>
        let sealing := (s.world? c.ident.world).any fun v => v.st == .sealing
        (Chk.need (!sealing || c.barOk bar (65536 * k)) .barrier 0).andThen fun _ => .ok sealing) fun sealing =>
      match sealing, gate with
      | false, none => .next (s.onCur fun c => (c.pulse st).retire false)
      | false, some _ => .next (s.onCur fun c =>
          (c.startStream st (gate.map c.gateOf) word { cmd with bar := none }).retire false)
      | true, _ => .next (s.onCur fun c => (c.startStream st (gate.map c.gateOf) word cmd).retire false)

/-! ### Requests (R238, R185) -/

/-- Whether the cell's engines run: its launch holds it and no stop or save is in hand (R116, R288). -/
def Cell.enginesRun (c : Cell) : Bool := c.run == .running || c.run == .halted

/-- An element's bits at a half-byte address of some bytes read by `get`. -/
def elemBits (half : Nat) (get : Nat → Nat → Nat) (a2 : Int) : W32 :=
  let a := (a2 / 2).toNat
  if half = 1 then BitVec.ofNat 32 (get a 1 / (if a2 % 2 = 0 then 1 else 16) % 16)
  else BitVec.ofNat 32 (get a (half / 2))

/-- Read bytes of a virtual address that has been translated. -/
def State.vaLoad (s : State) (n : Nat) (va len : Nat) : Nat := s.load (s.paOf (s.cell n).ident.world va) len
/-- Read scratch as a number. -/
def Cell.scrLoad (c : Cell) (a len : Nat) : Nat := leNat (c.scratchRead a len)
def State.spaceLoad (s : State) (n : Nat) (scr : Bool) : Nat → Nat → Nat :=
  if scr then (s.cell n).scrLoad else s.vaLoad n

/-- The list entry that rules element i: its address, and its value as read before or read now (R444). -/
def State.listEntry (s : State) (n : Nat) (x : StreamSt) (i : Nat) : Option (Word × Nat) :=
  let t := i / x.cmd.shape.perTop
  x.cmd.list.map fun a =>
    let e := a + BitVec.ofNat 64 (4 * t)
    (e, (Map.get? x.rows t).getD (s.vaLoad n e.toNat 4))

/-- Elements that one 4-byte port token carries. -/
def StreamCmd.perToken (c : StreamCmd) : Nat := 8 / c.half

/-- The tangents of a source element at a2 of a side that starts at b; OPD planes are never read (R137). -/
def State.srcTans (s : State) (n : Nat) (c : StreamCmd) (scr : Bool) (b a2 : Int) : List W32 :=
  tabulate c.planes fun k =>
    if c.wgen.isSome then 0 else BitVec.ofNat 32 (s.spaceLoad n scr (c.tanAddr b a2 (k + 1)).toNat 4)

/-- The descriptor of a source element and where it lies (R143, R243). -/
def State.srcDesc (s : State) (n : Nat) (c : StreamCmd) (a2 : Int) : Desc × Word :=
  if c.shape.desc then
    let v := s.spaceLoad n c.sscr (c.descAddr a2).toNat 2
    ({ fmt := BitVec.ofNat 8 v, scale := BitVec.ofNat 8 (v / 256) }, BitVec.ofInt 64 (c.descAddr a2))
  else ({ fmt := c.shape.etype, scale := 0 }, 0)

/-- An earlier queued Arbour operation names a tile that a drain is to read (R187, R363). -/
def Cell.tileAwaited (c : Cell) (serial lo hi : Nat) : Bool :=
  c.arb.queue.any fun o =>
    decide (o.serial < serial) && o.kind != .bdrop
      && (decide (o.tile ≤ hi ∧ lo ≤ o.tile + o.tw) || (o.kind == .acpy && decide (o.tile2 ≤ hi ∧ lo ≤ o.tile2 + o.tw))
        || (o.kind == .atob && decide (o.tile2 ≤ hi ∧ lo ≤ o.tile2)))

/-- What the source gives for element i; none where it has nothing yet. -/
def State.fetchElem (s : State) (n : Nat) (c : StreamCmd) (i : Nat) (row : Option Nat) : Option Fetched :=
  let cell := s.cell n
  let plain : Desc × Word := ({ fmt := c.shape.etype, scale := 0 }, 0)
  let mk (bits : W32) (tans : List W32) (d : Desc × Word) : Fetched :=
    { idx := i, bits := bits, tans := tans, desc := d.1, daddr := d.2, opd := c.wgen.isSome, row := row, cost := [] }
  let word (v : W32) : W32 :=
    BitVec.ofNat 32 (v.toNat / 2 ^ (4 * c.half * (i % c.perToken)) % 2 ^ (4 * c.half))
  if c.op = .sunseal then some (mk 0 [] plain)
  else if !c.op.shapedDst then
    let a2 := c.shape.addr2 c.snap i row
    some (mk (elemBits c.half (s.spaceLoad n c.sscr) a2) (s.srcTans n c c.sscr c.shape.base.toNat a2) (s.srcDesc n c a2))
  else
    match c.other with
    | .value v => some (mk v [] plain)
    | .mem va =>
      let a2 := c.contig2 va.toNat i
      some (mk (elemBits c.half (s.spaceLoad n false) a2) (s.srcTans n c false va.toNat a2) plain)
    | .scratch sa =>
      let a2 := c.contig2 sa i
      some (mk (elemBits c.half (s.spaceLoad n true) a2) (s.srcTans n c true sa a2) plain)
    | .tile t r =>
      if cell.tileAwaited c.serial t (t + c.planes) then none
      else
        let at_ (t : Nat) := Map.get 0 cell.tiles (tileKey t (r + i / 96) (i % 96))
        some (mk (at_ t) (tabulate c.planes fun k => at_ (t + k + 1)) plain)
    | .port p => (Map.get [] cell.fabric.stout p).head?.map fun t =>
        mk (word t.1) (t.2 ++ List.replicate c.planes 0 |>.take c.planes) plain
    | .fifo _ => none

/-- After element i of a `STOUT` source its token goes when its last element has been read. -/
def Cell.takeStout (c : Cell) (cmd : StreamCmd) (i : Nat) : Cell :=
  match cmd.other with
  | .port p =>
    if cmd.op.shapedDst && (i % cmd.perToken + 1 == cmd.perToken || i + 1 == cmd.count) then
      c.withFabric fun f => { f with stout := Map.set [] f.stout p (Map.get [] f.stout p).tail }
    else c
  | _ => c

/-- End a stream (R246, R264, R366): the identifier is free, its holds end, its line pulses, and an observation of it acquires at
its scope (R185). -/
def State.endStream (s : State) (n st : Nat) (x : StreamSt) : State :=
  let w := (s.cell n).ident.world
  let s := s.endHolds w x.cmd.snap
  let s := s.onCell n fun c =>
    ({ c with streams := Map.erase c.streams st, lastScopes := Map.put c.lastScopes st x.cmd.scope } : Cell).pulseDone st x.cmd.scope
  s.settleGens w

/-- The tokens that a stream has given a port go on without it (R366). -/
def Cell.cutPort (c : Cell) (st : Nat) (o : Other) : Cell :=
  match o with
  | .port p => c.withFabric fun f => { f with stin := f.stin.map fun e =>
      (e.1, if e.1 = p then e.2.map fun i => if i.st = st ∧ i.mode = .live then { i with mode := .cut } else i else e.2) }
  | _ => c

/-- The stream delivers to a `STIN` port. -/
def StreamCmd.toPort (c : StreamCmd) : Bool := !c.op.shapedDst && (match c.other with
  | .port _ => true
  | _ => false)

/-- Fetched elements too few to go on to where they land: none, or less than one port token. -/
def StreamSt.drained (x : StreamSt) : Bool := decide (x.inflight.length < if x.cmd.toPort then x.cmd.perToken else 1)

/-! ### Slots that elements fill (R243, R244) -/

/-- Elements of a 128-byte slot, and tangent slots that follow it. -/
def StreamCmd.perSlot (c : StreamCmd) : Nat := 256 / c.half
def StreamCmd.tanSlots (c : StreamCmd) : Nat := c.planes * (c.perSlot * 4 / 128)

/-- Pack codes of a width in half bytes, the first lowest, into n bytes. -/
def packElems (half n : Nat) (l : List W32) : List Byte :=
  leBytes n (l.foldr (fun v r => v.toNat % 2 ^ (4 * half) + 2 ^ (4 * half) * r) 0)

/-- Cut bytes into slots of 128, n of them. -/
def cutSlots (l : List Byte) (n : Nat) : List (List Byte) :=
  tabulate n fun i => ((l.drop (128 * i)).take 128 ++ List.replicate 128 0).take 128

/-- The slots that a closed fill makes: the primal, padded with zeros, and its tangent rows. -/
def closeSlots (c : StreamCmd) (f : FifoFill) : List FifoSlot :=
  let o := some (c, f.first, f.rows)
  let primal : FifoSlot := {
    data := packElems c.half 128 f.elems, d0 := f.d0, d1 := f.d1, a0 := f.a0, a1 := f.a1, marker := false, opd := f.opd, tangent := false
    present := true, origin := o }
  let rows := (List.range c.planes).flatMap fun k =>
    (List.range c.perSlot).flatMap fun i => leBytes 4 (((f.tans.getD i []).getD k 0)).toNat
  primal :: (cutSlots rows c.tanSlots).map fun b => { primal with data := b, tangent := true }

/-- An earlier started stream to the same FIFO or port has not entered in full (R243). -/
def Cell.streamAhead (c : Cell) (x : StreamSt) : Bool :=
  c.streams.any fun e => e.2.armed.isNone && decide (e.2.cmd.serial < x.cmd.serial) && (match e.2.cmd.other, x.cmd.other with
    | .fifo a, .fifo b => a == b && !e.2.cmd.op.shapedDst
    | .port a, .port b => a == b && e.2.cmd.op == x.cmd.op
    | _, _ => false)

/-- The end of a stream closes the slot that it has partly filled (R243). -/
def Cell.closeFill (c : Cell) (x : StreamSt) : Cell :=
  match x.cmd.other, x.cmd.op.shapedDst with
  | .fifo q, false => match (c.fifo q).fill with
    | some g => if c.streamAhead x then c else c.setFifo q { slots := (c.fifo q).slots ++ closeSlots x.cmd g, fill := none }
    | none => c
  | _, _ => c

/-- A stream ends early: its undelivered bytes leave the barrier, the slot that it has partly filled closes, and its requests in
flight are lost (R72, R243, R264, R366). What stands in a port still lands there. -/
def State.cutStream (s : State) (n st : Nat) (x : StreamSt) : State :=
  let port := x.cmd.toPort
  let left := x.cmd.bytesTo x.cmd.count - x.cmd.bytesTo (if port then x.issued - x.inflight.length else x.landed)
  ((s.loseFetched x.inflight).onCell n fun c =>
    (if port then c.cutPort st x.cmd.other else c.closeFill x).barrierLand x.cmd.bar left).endStream n st x

/-- A place in memory that a stream reads: physical and virtual address, and bytes. -/
structure SrcPlace where
  pa   : Nat
  va   : Nat
  size : Nat
  deriving DecidableEq, Repr

/-- The places that element i of a stream reads in memory at its source: its own, its tangents' and its descriptor's (R143, R145),
or the lines of a chunk while the world is Sealing (R365). -/
def State.srcPlaces (s : State) (n : Nat) (c : StreamCmd) (i : Nat) (row : Option Nat) : List SrcPlace :=
  let w := (s.cell n).ident.world
  let place (size : Nat) (va : Int) : SrcPlace := { pa := s.paOf w va.toNat, va := va.toNat, size := size }
  let side (b a2 : Int) : List SrcPlace :=
    place c.esz (a2 / 2) :: tabulate (if c.wgen.isSome then 0 else c.planes) fun k => place 4 (c.tanAddr b a2 (k + 1))
  match c.op, c.other with
  | .sunseal, .mem va =>
    if (s.world? w).any fun v => v.st == .sealing then
      let a := va.toNat + 65552 * i
      (lineStarts a 65552).map fun x => place (min (a + 65552) ((x / 64 + 1) * 64) - x) x
    else []
  | .sunseal, _ => []
  | _, o =>
    if !c.op.shapedDst then
      if c.sscr then []
      else
        let a2 := c.shape.addr2 c.snap i row
        side c.shape.base.toNat a2 ++ (if c.shape.desc then [place 2 (c.descAddr a2)] else [])
    else match o with
      | .mem va => side va.toNat (c.contig2 va.toNat i)
      | _ => []

/-- Replace the state of a stream. -/
def Cell.setStream (c : Cell) (st : Nat) (x : StreamSt) : Cell := { c with streams := Map.put c.streams st x }

/-- An address of element n of a stream whose page is mapped no more (R430). -/
def State.lostPage (s : State) (n : Nat) (c : StreamCmd) (i : Nat) (row : Option Nat) : Option Nat :=
  ((c.elemVas i row).find? fun a => !s.mapped (s.cell n).ident.world a.toNat).map fun a => a.toNat

/-- An issued stream waits on a page: its fault is recorded once; NOMAP, or a fault ring that is off, ends it with PERM (R131,
R430). -/
def State.streamFault (s : State) (n st : Nat) (x : StreamSt) (va : Nat) : State :=
  let answered := (s.cell n).seq.denied.contains (va / pageBytes)
  if !s.fring.en || answered then
    let s := (s.countDenied n answered).onCell n fun c => c.useDenial va
    (s.cutStream n st x).report n {
      cause := .perm, addr := BitVec.ofNat 64 va, info := kfinfoOf true 1 st (BitVec.ofNat 32 x.issued) }
  else if s.waitsOn n va then s
  else s.addFault n 4 va none

/-- The home module refuses an element of a stream at a virtual address: it ends with PERM (R265, R443). -/
def State.refuseStream (s : State) (n st : Nat) (x : StreamSt) (va : Nat) : State :=
  (s.cutStream n st x).report n { cause := .perm, addr := BitVec.ofNat 64 va, info := kfinfoOf true 1 st (BitVec.ofNat 32 x.issued) }

/-- The list entry that the next element needs and that has not been read: each is read once, in element order (R444). -/
def State.listPlace (s : State) (n : Nat) (x : StreamSt) : Option SrcPlace :=
  let t := x.issued / x.cmd.shape.perTop
  if (Map.get? x.rows t).isSome then none
  else x.cmd.list.map fun a =>
    let va := (a + BitVec.ofNat 64 (4 * t)).toNat
    { pa := s.paOf (s.cell n).ident.world va, va := va, size := 4 }

/-- No place of a request waits for an answer of another module. -/
def State.answered (s : State) (n : Nat) (l : List SrcPlace) : Bool :=
  l.all fun p => ((s.cell n).remoteOf p.pa).all fun r => r.answer.isSome

/-- The turn of a request of a streamer at its places (R36, R238). -/
def State.requestTurn (s : State) (n : Nat) (l : List SrcPlace) : State × Turn :=
  s.remoteTurn n (l.map fun p => ({ pa := p.pa, cls := .norm }, p.va, .load p.size))

/-- A streamer's reads touch the lines of its places. -/
def State.touchPlaces (s : State) (n : Nat) (cls : PageClass) (l : List SrcPlace) : State :=
  l.foldl (fun s p => s.touch n cls p.pa false false) s

/-- A stream can make its next request, for a list entry or an element: it runs, its pages are there, its source has the element,
and no answer of another module is awaited. -/
def State.mayRequest (s : State) (n st : Nat) : Bool :=
  match Map.get? (s.cell n).streams st with
  | none => false
  | some x =>
    let row := (s.listEntry n x x.issued).map (·.2)
    x.armed.isNone && !x.cancelled && decide (x.issued < x.cmd.count)
      && (match s.listPlace n x with
        | some p => s.mapped (s.cell n).ident.world p.va && s.answered n [p]
        | none => row.all (fun r => decide (r < x.cmd.shape.topExt))
          && (s.lostPage n x.cmd x.issued row).isNone && (s.fetchElem n x.cmd x.issued row).isSome
          && s.answered n (s.srcPlaces n x.cmd x.issued row))

/-- The identifier of a streamer whose turn it is: in ascending order from the one after the last served (R238). -/
def State.nextStream (s : State) (n streamer : Nat) : Option Nat :=
  let last := Map.get streamer (s.cell n).served streamer
  let order := ((List.range 16).filter (· % 2 == streamer)).map fun i => (last + 2 + (i - streamer)) % 16
  order.find? (s.mayRequest n)

/-- The request for the list entry of a stream's next element, at its place (R444). -/
def State.readEntry (s : State) (n st : Nat) (x : StreamSt) (p : SrcPlace) : State :=
  if !s.mapped (s.cell n).ident.world p.va then s.streamFault n st x p.va
  else if s.nextStream n (st % 2) ≠ some st then s
  else match s.requestTurn n [p] with
    | (s, .wait) => s
    | (s, .refused va) => s.refuseStream n st x va
    | (s, .go) =>
      let s := s.touchPlaces n .norm [p]
      let v := s.vaLoad n p.va p.size
      s.onCell n fun c => if c.run = .idle then c else
        ({ c with served := Map.put c.served (st % 2) st } : Cell).setStream st { x with
          rows := Map.put x.rows (x.issued / x.cmd.shape.perTop) v }

/-- The bytes that a request costs: the line that it fills, or the flits that it exchanges with another module (R72). -/
def State.requestCost (s : State) (n pa : Nat) : List (Nat × Nat × Nat) :=
  let l := paLocal pa
  if paModule pa ≠ s.pod.self then [(partOfCell n, 6, 2 * flitPayload)]
  else if (Map.get? s.lines (pa / 64)).isSome || !(isHbm l || isTier l) then []
  else [(s.homePart pa, if isHbm l then 4 else 7, 64)]

/-- The costs of a request's places: a line that it fills once, and every access of another module. -/
def State.placeCosts (s : State) (n : Nat) (l : List SrcPlace) : List (Nat × Nat × Nat) :=
  let far := l.filter fun p => paModule p.pa != s.pod.self
  let near := l.filter fun p => paModule p.pa == s.pod.self
  (far.map SrcPlace.pa ++ (near.map fun (p : SrcPlace) => p.pa / 64 * 64).dedup).flatMap (s.requestCost n)

/-- One request of a stream whose turn it is at its streamer: the list entry of its next element is read, or the element; an index
out of range ends the stream once every earlier element has landed (R238, R242, R444). -/
def execStreamRequestIssue (cell st : Nat) (s : State) : Host.Outcome State Fault Refusal :=
  let c := s.cell cell
  match Map.get? c.streams st with
  | none => .next s
  | some x =>
    if !c.enginesRun || x.armed.isSome || x.cancelled || x.issued ≥ x.cmd.count then .next s
    else match s.listPlace cell x with
    | some p => .next (s.readEntry cell st x p)
    | none =>
      let e := s.listEntry cell x x.issued
      let row := e.map (·.2)
      match e.filter fun e => decide (x.cmd.shape.topExt ≤ e.2) with
      | some e =>
        if x.inflight ≠ [] then .next s
        else .next ((s.cutStream cell st x).report cell {
          cause := .stream, addr := e.1
          info := kfinfoOf true 1 st (BitVec.ofNat 32 (x.issued / x.cmd.shape.perTop)) })
      | none =>
        match s.lostPage cell x.cmd x.issued row, s.fetchElem cell x.cmd x.issued row with
        | some va, _ => .next (s.streamFault cell st x va)
        | none, none => .next s
        | none, some f =>
          if s.nextStream cell (st % 2) ≠ some st then .next s
          else
          let places := s.srcPlaces cell x.cmd x.issued row
          match s.requestTurn cell places with
          | (s, .wait) => .next s
          | (s, .refused va) => .next (s.refuseStream cell st x va)
          | (s, .go) =>
          let f := { f with cost := s.placeCosts cell places }
          let s := s.touchPlaces cell (if f.opd then .opd else .norm) places
          .next (s.onCell cell fun c => if c.run = .idle then c else
            (({ c with served := Map.put c.served (st % 2) st } : Cell).takeStout x.cmd x.issued).setStream st { x with
              issued := x.issued + 1, inflight := x.inflight ++ [f] })

end Sys2Proof.Machine
end

