-- ==== Sys2Proof/Machine/StreamLand.lean ====
section
/-! DEFINITION. Landing of stream elements in memory, scratch, operand FIFOs and ports (R241 to R246), waiting for and
cancelling a stream (R366), and the refetch after pre-emption (R437). -/

namespace Sys2Proof.Machine

/-! ### Operand FIFOs (R243, R244) -/

/-- A marker slot. -/
def markerSlot : FifoSlot where
  data := List.replicate 128 0
  d0 := { fmt := 0, scale := 0 }
  d1 := { fmt := 0, scale := 0 }
  a0 := 0
  a1 := 0
  marker := true
  opd := false
  tangent := false
  present := true
  origin := none

/-- Slots in use: those filled and those a partial one will take. -/
def Fifo.used (f : Fifo) (tanSlots : Nat) : Nat := f.slots.length + (if f.fill.isSome then 1 + tanSlots else 0)

/-- The fill after one more element. -/
def FifoFill.push (c : StreamCmd) (f : Option FifoFill) (e : Fetched) : FifoFill :=
  match f with
  | none => {
      elems := [e.bits], d0 := e.desc, d1 := e.desc, a0 := e.daddr, a1 := e.daddr, opd := e.opd, first := e.idx
      rows := [e.row], tans := [e.tans] }
  | some f => {
      elems := f.elems ++ [e.bits], d0 := f.d0, d1 := if 128 ≤ f.elems.length * c.half then e.desc else f.d1
      a0 := f.a0, a1 := if 128 ≤ f.elems.length * c.half then e.daddr else f.a1
      opd := f.opd || e.opd, first := f.first, rows := f.rows ++ [e.row], tans := f.tans ++ [e.tans] }

/-- An element enters a FIFO: it closes a full slot, and a marker or the end of the stream closes a partial one; none when
the FIFO has no room (R243). -/
def Fifo.push (f : Fifo) (c : StreamCmd) (e : Fetched) : Option Fifo :=
  let lv := levelAfter c.shape.dims e.idx
  let need := (if f.fill.isSome then 0 else 1 + c.tanSlots) + (if lv = 0 then 0 else 1)
  if 512 < f.used c.tanSlots + need then none
  else
    let g := FifoFill.push c f.fill e
    if g.elems.length = c.perSlot ∨ lv ≠ 0 ∨ e.idx + 1 = c.count then
      some { slots := f.slots ++ closeSlots c g ++ (if lv = 0 then [] else [markerSlot]), fill := none }
    else some { f with fill := some g }

/-! ### Destinations -/

/-- Write an element at a half-byte address of memory bytes. -/
def elemBytes (half : Nat) (old : Byte) (a2 : Int) (v : W32) : List Byte :=
  if half = 1 then
    [if a2 % 2 = 0 then (old &&& 0xF0) ||| (v.setWidth 8 &&& 0x0F) else (old &&& 0x0F) ||| ((v.setWidth 8) <<< 4)]
  else leBytes (half / 2) v.toNat

/-- Store bytes at a translated virtual address of a cell's world, through the Commons; nothing where its page has gone. -/
def State.vaStore (s : State) (n : Nat) (va : Nat) (l : List Byte) : State :=
  let pa := s.paOf (s.cell n).ident.world va
  if s.mapped (s.cell n).ident.world va then
    ((s.postRemote n .norm pa (.store l)).touch n .norm pa true false).store pa l |>.endUncached
  else s

/-- Store an element and its tangents on a side in memory or scratch (R244). -/
def State.putElem (s : State) (n : Nat) (c : StreamCmd) (scr : Bool) (b a2 : Int) (e : Fetched) : State :=
  let a := (a2 / 2).toNat
  let put (s : State) (a : Nat) (l : List Byte) : State :=
    if scr then s.onCell n fun c => c.scratchWrite a l else s.vaStore n a l
  let old := BitVec.ofNat 8 (s.spaceLoad n scr a 1)
  let s := put s a (elemBytes c.half old a2 e.bits)
  (e.tans.zipIdx.take c.planes).foldl (fun s t => put s (c.tanAddr b a2 (t.2 + 1)).toNat (leBytes 4 t.1.toNat)) s

/-- Where a landed element goes; none while its FIFO is full. -/
def State.landElem (s : State) (n : Nat) (c : StreamCmd) (e : Fetched) : Option State :=
  if c.op.shapedDst then
    some (s.putElem n c c.sscr c.shape.base.toNat (c.shape.addr2 c.snap e.idx e.row) e)
  else
    match c.other with
    | .mem va => some (s.putElem n c false va.toNat (c.contig2 va.toNat e.idx) e)
    | .scratch sa => some (s.putElem n c true sa (c.contig2 sa e.idx) e)
    | .fifo q => (((s.cell n).fifo q).push c e).map fun f => s.onCell n fun c => c.setFifo q f
    | _ => some s

/-- k elements of a stream have landed: the barrier falls, event 13 counts, and the last completes the stream (R246, R247). -/
def State.landed (s : State) (n st : Nat) (x : StreamSt) (k : Nat) : State :=
  let b := x.cmd.bytesTo (x.landed + k) - x.cmd.bytesTo x.landed
  let x := { x with landed := x.landed + k }
  let s := (s.onCell n fun c => (c.setStream st x).barrierLand x.cmd.bar b).countCell n 13 b
  if x.landed = x.cmd.count then s.endStream n st x
  else if x.cancelled && x.drained then s.cutStream n st x
  else s

/-- The elements of one port token as a word, with its tangents and the markers after them, one for each element that completes a
levelled sweep (R241, R242, R418). -/
def portToken (st : Nat) (c : StreamCmd) (l : List Fetched) : StinItem where
  word := BitVec.ofNat 32 (leNat (packElems c.half 4 (l.map (·.bits))))
  tans := (l.head?.map (·.tans)).getD []
  levels := (l.map fun e => levelAfter c.shape.dims e.idx).filter (· != 0)
  st := st
  scope := c.scope
  elems := l.length
  bar := c.bar
  bytes := (l.map fun e => c.bytesTo (e.idx + 1) - c.bytesTo e.idx).foldl (· + ·) 0
  mode := .live

/-- The chunk that a `SUNSEAL` reads (R365). -/
def State.chunkBytes (s : State) (n : Nat) (va i : Nat) : List Byte :=
  (List.range 4097).flatMap fun k => readBytes s.mem (s.paOf (s.cell n).ident.world (va + 65552 * i + 16 * k)) 16

/-- One landing of a stream: its oldest fetched element, the elements of one port token, or one chunk (R246, R365). -/
def State.landNext (s : State) (n st : Nat) (x : StreamSt) : State :=
  let c := s.cell n
  match x.inflight with
  | [] => s
  | e :: r =>
    match x.cmd.op, x.cmd.other with
    | .sunseal, .mem va =>
      let sealing := (s.world? c.ident.world).any fun v => v.st == .sealing
      if !sealing then s.cutStream n st { x with landed := x.cmd.count }
      else
        let (s, ok) := s.sunsealChunk n (s.chunkBytes n va.toNat e.idx)
        if ok then s.landed n st { x with inflight := r } 1 else s.cutStream n st x
    | .scopy, .port p =>
      let k := x.cmd.perToken
      if x.inflight.length < k ∨ c.streamAhead x then s
      else
        let t := portToken st x.cmd (x.inflight.take k)
        s.onCell n fun c => (c.setStream st { x with inflight := x.inflight.drop k }).withFabric fun f =>
          { f with stin := Map.set [] f.stin p (Map.get [] f.stin p ++ [t]) }
    | _, _ =>
      if c.streamAhead x then s
      else match s.landElem n x.cmd e with
        | none => s
        | some s => if (s.cell n).run = .idle then s else s.landed n st { x with inflight := r } 1

def execStreamElementLand (cell st : Nat) (s : State) : Host.Outcome State Fault Refusal :=
  let c := s.cell cell
  match Map.get? c.streams st with
  | none => .next s
  | some x =>
    if !c.enginesRun || x.armed.isSome then .next s
    else match x.inflight.head?.bind fun e => s.lostPage cell x.cmd e.idx e.row with
      | some va => .next (s.streamFault cell st x va)
      | none => .next (s.landNext cell st x)

/-! ### Waiting and cancelling (R366) -/

/-- `SWAIT`: an observation of the stream's landed writes, at the scope of the identifier's last stream, when it returns. -/
def execSwait (st : BitVec 4) (s : State) : Host.Outcome State Fault Refusal :=
  if (Map.get? s.cur.streams st.toNat).isSome then .next s
  else .next ((s.acquire s.focus.cell (Map.get .cell s.cur.lastScopes st.toNat)).onCur fun c => c.retire false)

/-- Disarm whatever a term holds. -/
def Cell.disarm (c : Cell) (g : Nat) : Cell := c.setGate g { c.gate g with armed := none }

/-- `SCANCEL`: an armed stream is disarmed and its bytes leave the barrier; a running one requests no more, what it has
requested lands, and the rest of its bytes leave the barrier. -/
def State.cancelStream (s : State) (n st : Nat) : State :=
  match Map.get? (s.cell n).streams st with
  | none => s
  | some x =>
    match x.armed with
    | some g =>
      let w := (s.cell n).ident.world
      let s := s.endHolds w x.cmd.snap
      let s := s.onCell n fun c =>
        { (c.disarm g).barrierLand x.cmd.bar (x.cmd.bytesTo x.cmd.count) with streams := Map.erase c.streams st }
      s.settleGens w
    | none =>
      if x.drained then s.cutStream n st x
      else s.onCell n fun c => c.setStream st { x with cancelled := true }

/-- `SCANCEL` retires once the stream is gone; until then it holds the sequencer (R366). -/
def execScancel (st : BitVec 4) (s : State) : Host.Outcome State Fault Refusal :=
  let s := s.cancelStream s.focus.cell st.toNat
  if (Map.get? s.cur.streams st.toNat).isSome then .next s else .next (s.onCur fun c => c.retire false)

/-! ### Refetch (R117, R120, R437) -/

/-- The first group of slots of a FIFO whose bytes pre-emption discarded: how many slots stand before it and its origin. -/
def Fifo.hole (f : Fifo) : Option (Nat × StreamCmd × Nat × List (Option Nat)) :=
  match f.slots.findIdx? fun x => !x.present, f.slots.find? fun x => !x.present with
  | some i, some x => x.origin.map fun o => (i, o)
  | _, _ => none

/-- The slots that a discarded group of elements fills when they are fetched again, each at the row that its list entry gave
(R136, R444). -/
def State.refetched (s : State) (n : Nat) (cmd : StreamCmd) (first : Nat) (rows : List (Option Nat)) : List FifoSlot :=
  match rows.zipIdx.filterMap fun r => s.fetchElem n cmd (first + r.2) r.1 with
  | [] => []
  | e :: r =>
    match r.foldl (fun f e => some (FifoFill.push cmd f e)) (some (FifoFill.push cmd none e)) with
    | none => []
    | some g => closeSlots cmd g

/-- The lines that a refetch reads. -/
def State.touchSources (s : State) (n : Nat) (cmd : StreamCmd) (first : Nat) (rows : List (Option Nat)) : State :=
  rows.zipIdx.foldl (fun s r =>
    s.touchPlaces n (if cmd.wgen.isSome then .opd else .norm) (s.srcPlaces n cmd (first + r.2) r.1)) s

/-- A group of slots in place of a discarded one. -/
def replaceSlots (l new : List FifoSlot) (i : Nat) : List FifoSlot := l.take i ++ new ++ l.drop (i + new.length)

/-- A slot of the front half whose bytes a save left out, of a B that came from this FIFO (R118, R250). -/
def Arbour.hole (a : Arbour) (q : Nat) : Option (Nat × StreamCmd × Nat × List (Option Nat)) :=
  match a.front.bind fun f => (Fifo.hole { slots := f.slots, fill := none }) with
  | some (i, c, r) => if c.other = .fifo q then some (i, c, r) else none
  | none => none

/-- Fetch the elements of a discarded slot again and put them in its place: first in a kept B, then in the FIFO, where the
bytes land in their barrier once more. -/
def execFifoRefetch (cell fifo : Nat) (s : State) : Host.Outcome State Fault Refusal :=
  let c := s.cell cell
  if !c.enginesRun then .next s
  else
    match c.arb.hole fifo, (c.fifo fifo).hole with
    | some (i, cmd, first, rows), _ =>
      let new := s.refetched cell cmd first rows
      .next ((s.touchSources cell cmd first rows).onCell cell fun c => if c.run = .idle then c else
        { c with arb := { c.arb with front := c.arb.front.map fun f => { f with slots := replaceSlots f.slots new i } } })
    | none, some (i, cmd, first, rows) =>
      let new := s.refetched cell cmd first rows
      .next ((s.touchSources cell cmd first rows).onCell cell fun c => if c.run = .idle then c else
        (c.setFifo fifo { c.fifo fifo with slots := replaceSlots (c.fifo fifo).slots new i }).barrierLand cmd.bar
          (cmd.bytesTo (first + rows.length) - cmd.bytesTo first))
    | none, none => .next s

end Sys2Proof.Machine
end

