-- ==== Sys2Proof/Machine/Fabric.lean ====
section
/-! DEFINITION. The fabric: which pass a site runs (R219), link slots (R214, R217), how tokens meet at a site (R218, R219, R396),
and the firing of an element, a route and a reduction (R217, R231, R406, R407). -/

namespace Sys2Proof.Machine

/-! ### The pass of a site (R219) -/

def Pass.rec? (p : Pass) (site : Nat) : Option SiteRec := Map.get? p.image.sites site

/-- Every port has issued its threads and the pass-end marker. -/
def Pass.issuedAll (p : Pass) : Bool := p.image.ports.all fun q => Map.get 0 p.issued q == p.threads.length + 1

/-- A site that names no input has passed the pass-end once the scheduler has issued it. -/
def Pass.skips (p : Pass) (site : Nat) : Bool :=
  p.issuedAll && (match p.rec? site with
    | none => true
    | some x => x.named.isEmpty && !p.image.ports.contains site)

/-- The pass under whose record a site fires. -/
def Fabric.passAt (f : Fabric) (site : Nat) : Option Pass :=
  f.passes.find? fun p => decide (Map.get 0 f.era site ≤ p.id) && !p.skips site

/-- A site has passed the pass-end of a pass. -/
def Fabric.hasPassed (f : Fabric) (p : Pass) (site : Nat) : Bool := decide (p.id < Map.get 0 f.era site) || p.skips site

def Fabric.setPass (f : Fabric) (p : Pass) : Fabric :=
  { f with passes := f.passes.map fun q => if q.id = p.id then p else q }

/-! ### Links (R214, R217) -/

/-- The consumers of a link: a site's ALU or node, and its routes by direction. -/
def useAlu (site : Nat) : Nat := 8 * site
def useRoute (site d : Nat) : Nat := 8 * site + 1 + d
def Image.users (m : Image) (link : Nat) : List Nat :=
  m.sites.flatMap fun e =>
    (if (linksIn e.1 e.2.aluCodes).contains link then [useAlu e.1] else [])
      ++ e.2.routes.filterMap fun q => if inLink e.1 q.2 = some link then some (useRoute e.1 q.1) else none
/-- The consumers of a link that belong to a site. -/
def Image.usesOf (m : Image) (site link : Nat) : List Nat := (m.users link).filter fun u => u / 8 == site

def Link.reset : Link := { q := [], taken := [] }
def Cell.link (c : Cell) (l : Nat) : Link := Map.get Link.reset c.fabric.links l
def Cell.setLink (c : Cell) (l : Nat) (v : Link) : Cell :=
  c.withFabric fun f => { f with links := Map.set Link.reset f.links l v }

/-- A breakpoint holds the head of a link: it is the n-th data token written since SETBP (R287). -/
def Cell.bpHolds (c : Cell) (l : Nat) : Bool :=
  let q := (c.link l).q
  let data := (q.filter fun t => t.kind == .data).length
  (q.head?.any fun t => t.kind == .data) && c.bps.any fun e => e.2.1 == l && e.2.2.1 + data == e.2.2.2 + 1

/-- The head of a link that a consumer of a pass has not yet taken. -/
def Cell.linkHead (c : Cell) (p : Pass) (l use : Nat) : Option Tok :=
  match (c.link l).q with
  | [] => none
  | t :: _ => if t.pass = p.id ∧ (c.link l).taken.contains use = false ∧ c.bpHolds l = false then some t else none

/-- A consumer takes the head; the token leaves once every consumer has taken it. -/
def Cell.takeHead (c : Cell) (p : Pass) (l use : Nat) : Cell :=
  let v := c.link l
  let t := use :: v.taken
  c.setLink l (if (p.image.users l).all t.contains then { q := v.q.tail, taken := [] } else { v with taken := t })

/-- An output has a free slot. A link of 0 slots passes one token on at a time. -/
def Cell.room (c : Cell) (x : SiteRec) (site d : Nat) : Bool :=
  decide ((c.link (linkOf site d)).q.length < max 1 (slotsOf x.r d))

/-- Write a token to an output: a breakpoint on the link counts a data token; a token that nothing consumes is gone. -/
def Cell.emit (c : Cell) (p : Pass) (site d : Nat) (t : Tok) : Cell :=
  let l := linkOf site d
  let c := if t.kind = .data then
      { c with bps := c.bps.map fun (e : Nat × Nat × Nat × Nat) =>
          (e.1, e.2.1, e.2.2.1, if e.2.1 = l then e.2.2.2 + 1 else e.2.2.2) }
    else c
  if (p.image.users l).isEmpty then c else c.setLink l { c.link l with q := (c.link l).q ++ [t] }

/-! ### What a site meets (R218, R219, R396) -/

/-- A site in a cell with the pass and the record it fires under. -/
structure At where
  n    : Nat
  site : Nat
  p    : Pass
  x    : SiteRec

/-- The site in focus; none while nothing runs there. -/
def State.atSite (s : State) (op : BitVec 7) (r : ElemRec) : Option At :=
  let c := s.cur
  if !c.enginesRun || c.phase.st != .running then none
  else (c.fabric.passAt s.focus.site).map fun p =>
    let x := p.rec? s.focus.site
    { n := s.focus.cell, site := s.focus.site, p := p
      x := { op := op, r := r, c0 := (x.map (·.c0)).getD 0, c1 := (x.map (·.c1)).getD 0 } }

/-- What passes a marker on together: the named inputs that it waits for, the outputs it writes, and the consumers that take the
marker. -/
structure Act where
  links : List Nat
  outs  : List Nat
  uses  : List Nat

/-- The activities of a site: a marker passes all of them at once when it has arrived on every named input (R219). On a site
whose outputs lead back to one of its own inputs that cannot come about; there its ALU and each of its routes pass a marker on
when it has arrived on their own inputs. Mark: DEDUCED (log 25). -/
def At.looped (a : At) : Bool := a.p.image.loops.contains a.site
def At.whole (a : At) : Act where
  links := linksIn a.site a.x.named
  outs := a.x.outsUsed
  uses := useAlu a.site :: a.x.routes.map fun e => useRoute a.site e.1
def At.aluAct (a : At) : Act :=
  if a.looped then
    { links := linksIn a.site a.x.aluCodes, outs := a.x.outsWith 1 ++ a.x.outsWith 6, uses := [useAlu a.site] }
  else a.whole
def At.routeAct (a : At) (d k : Nat) : Act :=
  if a.looped then { links := linksIn a.site [k], outs := [d], uses := [useRoute a.site d] } else a.whole

/-- The links on which an activity awaits a marker: all its inputs for a pass-end, those downstream of its source for a level
marker (R396). -/
def At.awaits (a : At) (act : Act) (t : Tok) : List Nat :=
  if t.kind = .passEnd then act.links else act.links.filter (a.p.image.below t.origin).contains

/-- The consumers of an activity on a link. -/
def At.usesOn (a : At) (act : Act) (l : Nat) : List Nat := (a.p.image.usesOf a.site l).filter act.uses.contains

def At.head (a : At) (act : Act) (c : Cell) (l : Nat) : Option Tok :=
  c.linkHead a.p l ((a.usesOn act l).headD (useAlu a.site))

/-- A marker that has arrived on every input of an activity that awaits it. -/
def At.marker (a : At) (act : Act) (c : Cell) : Option (Tok × List Nat) :=
  act.links.findSome? fun l =>
    match a.head act c l with
    | none => none
    | some t =>
      if t.kind = .data then none
      else if (a.awaits act t).all fun k => (a.head act c k).any fun u => u.kind == t.kind then some (t, a.awaits act t)
      else none

/-- What the ALU or node of a site meets: nothing yet, inputs that disagree, a marker with its links, or a data token for each
of its source inputs. -/
inductive View where
  | wait
  | clash
  | marker (t : Tok) (links : List Nat)
  | data (toks : List (Nat × Tok))

/-- Two heads of one firing disagree in kind or thread. -/
def At.disagree (a : At) (k l : Nat) (t u : Tok) : Bool :=
  match t.kind, u.kind with
  | .data, .data => t.thread != u.thread
  | .data, _ => (a.awaits a.aluAct u).contains k
  | _, .data => (a.awaits a.aluAct t).contains l
  | _, _ => t.kind != u.kind && (a.awaits a.aluAct t).contains l && (a.awaits a.aluAct u).contains k

/-- The source inputs of a site: code, link and head. -/
def At.heads (a : At) (c : Cell) : List (Nat × Nat × Option Tok) :=
  a.x.aluCodes.map fun k => match inLink a.site k with
    | none => (k, 0, none)
    | some l => (k, l, c.linkHead a.p l (useAlu a.site))

def At.view (a : At) (c : Cell) : View :=
  match a.marker a.aluAct c with
  | some (t, ls) => .marker t ls
  | none =>
    let hs := a.heads c
    let ts := hs.filterMap fun h => h.2.2.map fun t => (h.1, h.2.1, t)
    if ts.length < hs.length then .wait
    else if ts.any fun x => ts.any fun y => a.disagree x.2.1 y.2.1 x.2.2 y.2.2 then .clash
    else if ts.all fun x => x.2.2.kind == .data then .data (ts.map fun x => (x.1, x.2.2))
    else .wait

/-- Disagreement (R218): every pass is abandoned, every unparked thread parks with CONFIG, the phase is Done, and the cell
receives an asynchronous report. -/
def State.clash (s : State) (n block : Nat) : State :=
  let p := partOfCell n
  let c := s.cell n
  let lost := c.fabric.inFlight.length
  let s := (s.meterLost p 3 c.fabric.lostOps).countCell n 2 lost
  let c := c.abandonPasses
  let un := c.phase.unparked
  let ph := c.phase.parkAll un c.phase.blockOf (some (0, .config))
  let ph := { ph with st := .done, wait := [], faultPending := 0, watches := [] }
  let s := (s.setCell n (({ c with phase := ph } : Cell).pulse 18)).countCell n 3 un.length
  s.report n { cause := .config, addr := 0, info := kfinfoOf true 3 0 (BitVec.ofNat 32 block) }

/-- The step of a site: it waits, clashes, meets a marker, or takes its data tokens. -/
def fireSite (s : State) (op : BitVec 7) (r : ElemRec) (mark : At → Tok → List Nat → State)
    (data : At → List (Nat × Tok) → State) : Host.Outcome State Fault Refusal :=
  match s.atSite op r with
  | none => .next s
  | some a =>
    match a.view s.cur with
    | .wait => .next s
    | .clash => .next (s.clash a.n a.p.image.block)
    | .marker t ls => .next (mark a t ls)
    | .data ts => .next (data a ts)

/-! ### Tokens (R214, R231, R233) -/

/-- A token of a thread without poison. -/
def At.tok (a : At) (kind : Kind) (thread : Nat) (v : W32) (tans : List W32) : Tok where
  pass := a.p.id
  kind := kind
  thread := thread
  value := v
  poison := false
  tans := tans
  origin := a.site
  atm := none

/-- Outputs a site writes its result to. -/
def At.outs (a : At) : List Nat := a.x.outsWith 1
def At.mayWrite (a : At) (c : Cell) (l : List Nat) : Bool := l.all fun d => c.room a.x a.site d
def At.write (a : At) (c : Cell) (l : List Nat) (t : Tok) : Cell := l.foldl (fun c d => c.emit a.p a.site d t) c
/-- The node takes its source inputs. -/
def At.take (a : At) (c : Cell) : Cell :=
  (linksIn a.site a.x.aluCodes).foldl (fun c l => c.takeHead a.p l (useAlu a.site)) c

/-- T tangents: those given when D is set on `f32`, else zeros (R211, R231). -/
def At.tans (a : At) (tw : Nat) (f : Nat → W32) : List W32 :=
  if a.x.r.d && a.x.r.ty == .f32 then tabulate tw f else List.replicate tw 0

/-- A poisoned token passes on every output; the value it carries is not stated (R233, log 3). -/
def State.passPoison (s : State) (a : At) (thread : Nat) : State :=
  let (v, s) := s.takeFree
  s.onCell a.n fun c =>
    a.write c a.outs { a.tok .data thread (BitVec.ofNat 32 v) (List.replicate c.ident.tw (BitVec.ofNat 32 v)) with poison := true }

/-- The outputs on which an activity passes a marker on: all of them, for a level marker those downstream of its source; a site
that the pass-end has passed takes its next record (R219, R396). -/
def At.outsFor (a : At) (act : Act) (t : Tok) : List Nat :=
  if t.kind = .passEnd then act.outs
  else act.outs.filter fun d => (a.p.image.below t.origin).contains (linkOf a.site d)
/-- The outputs on which the ALU or node passes a marker on. -/
def At.markOuts (a : At) (t : Tok) : List Nat := a.outsFor a.aluAct t

def At.takeMarkerOf (a : At) (act : Act) (c : Cell) (ls : List Nat) : Cell :=
  ls.foldl (fun c l => (a.usesOn act l).foldl (fun c u => c.takeHead a.p l u) c) c
def At.takeMarker (a : At) (c : Cell) (ls : List Nat) : Cell := a.takeMarkerOf a.aluAct c ls

/-- The site has passed the pass-end. -/
def At.close (a : At) (c : Cell) : Cell :=
  c.withFabric fun f => { f with
    era := Map.put f.era a.site (a.p.id + 1), carry := Map.erase f.carry a.site, marked := Map.erase f.marked a.site }

/-- Consumers of a site that have passed the pass-end on; the site has passed it when all of them have. -/
def At.markPassed (a : At) (act : Act) (c : Cell) : Cell :=
  let m := act.uses ++ Map.get [] c.fabric.marked a.site
  let all := (if a.x.op = 0 then [] else [useAlu a.site]) ++ a.x.routes.map fun e => useRoute a.site e.1
  if all.all m.contains then a.close c else c.withFabric fun f => { f with marked := Map.put f.marked a.site m }

def At.passMarkerOf (a : At) (act : Act) (c : Cell) (t : Tok) (ls : List Nat) : Cell :=
  if a.mayWrite c (a.outsFor act t) then
    let c := a.write (a.takeMarkerOf act c ls) (a.outsFor act t) t
    if t.kind = .passEnd then a.markPassed act c else c
  else c

/-- The ALU or node passes a marker on. -/
def State.passMarker (s : State) (a : At) (t : Tok) (ls : List Nat) : State :=
  s.onCell a.n fun c => a.passMarkerOf a.aluAct c t ls

/-! ### Operands -/

/-- The value of a source (R318, R319). -/
def At.operand (a : At) (ts : List (Nat × Tok)) (src : Src) : Opnd :=
  match Sys2Proof.Machine.Src.input src with
  | some k => match Map.get? ts k with
    | some t => { v := t.value, t := t.tans }
    | none => { v := 0, t := [] }
  | none => match src with
    | .c0 => { v := a.x.c0, t := [] }
    | .c1 => { v := a.x.c1, t := [] }
    | .imm => { v := immValue a.x.r.ty a.x.r.imm8, t := [] }
    | _ => { v := 0, t := [] }

/-- What an ALU reads in one firing. -/
structure AluIn where
  thread : Nat
  a : Opnd
  b : Opnd
  c : Opnd

def At.input (a : At) (ts : List (Nat × Tok)) : AluIn where
  thread := (ts.head?.map fun t => t.2.thread).getD 0
  a := a.operand ts a.x.r.srcA
  b := a.operand ts a.x.r.srcB
  c := a.operand ts a.x.r.srcC

def anyPoison (ts : List (Nat × Tok)) : Bool := ts.any fun t => t.2.poison

/-! ### Elements (R217, R231) -/

/-- One element operation of a thread's token, and one per tangent that it computes (R72 index 3). -/
def Cell.countOp (c : Cell) (thread n : Nat) : Cell :=
  c.withFabric fun f => { f with opsDone := Map.put f.opsDone thread (Map.get 0 f.opsDone thread + n) }

/-- An ALU firing: the result and its tangents go to every output that selects 1. -/
def State.aluFire (s : State) (a : At) (ts : List (Nat × Tok)) (f : AluIn → W32) (g : AluIn → W32 → Nat → W32) : State :=
  let c := s.cell a.n
  let x := a.input ts
  if !a.mayWrite c a.outs then s
  else if anyPoison ts then (s.setCell a.n (a.take c)).passPoison a x.thread
  else
    let tw := c.ident.tw
    let c := a.write (a.take c) a.outs (a.tok .data x.thread (f x) (a.tans tw (g x (f x))))
    s.setCell a.n (c.countOp x.thread (1 + if a.x.r.d then tw else 0))

/-- The step of an element with an ALU operation. -/
def aluStep (s : State) (op : BitVec 7) (r : ElemRec) (f : AluIn → W32) (g : AluIn → W32 → Nat → W32) :
    Host.Outcome State Fault Refusal :=
  fireSite s op r s.passMarker fun a ts => s.aluFire a ts f g

/-- An operation whose tangents are zero. -/
def noTan (_ : AluIn) (_ : W32) (_ : Nat) : W32 := 0

/-- A route passes a token unchanged; an element without an ALU operation passes markers here (R216, R217, R219). -/
def execElemRoute (s : State) : Host.Outcome State Fault Refusal :=
  let c := s.cur
  let d := s.focus.out
  match (c.fabric.passAt s.focus.site).bind fun p => (p.rec? s.focus.site).map fun x => (p, x) with
  | none => .next s
  | some (p, x) =>
    match s.atSite x.op x.r with
    | none => .next s
    | some a =>
      match x.routes.find? fun e => e.1 == d with
      | none => .next s
      | some (_, k) =>
        match (inLink a.site k).bind fun l => (c.linkHead p l (useRoute a.site d)).map fun t => (l, t) with
        | none => .next s
        | some (l, t) =>
          if t.kind = .data then
            if c.room x a.site d then .next (s.setCur ((c.takeHead p l (useRoute a.site d)).emit p a.site d t)) else .next s
          else if x.op = 0 ∨ a.looped then
            match a.marker (a.routeAct d k) c with
            | some (m, ls) => .next (s.setCur (a.passMarkerOf (a.routeAct d k) c m ls))
            | none => .next s
          else .next s

/-! ### Reductions and level markers (R406, R407) -/

def Carry.reset : Carry := { val := 0, tans := [], empty := true, thread := 0 }
def Cell.carry (c : Cell) (site : Nat) : Carry := Map.get Carry.reset c.fabric.carry site
def Cell.setCarry (c : Cell) (site : Nat) (v : Carry) : Cell :=
  c.withFabric fun f => { f with carry := Map.set Carry.reset f.carry site v }

def kindLevel : Kind → Nat
  | .l1 => 1 | .l2 => 2 | .l3 => 3 | _ => 0
def levelKind (n : Nat) : Kind := if n = 1 then .l1 else if n = 2 then .l2 else .l3

/-- A marker makes a reduction of a level emit. -/
def emitsAt (lvl : Nat) (t : Tok) : Bool := t.kind == .passEnd || (lvl != 0 && decide (lvl ≤ kindLevel t.kind))

/-- A reduction meets a marker: it first emits a carry that is not empty, on the outputs that select 6. -/
def State.redMarker (s : State) (a : At) (t : Tok) (ls : List Nat) : State :=
  let c := s.cell a.n
  let v := c.carry a.site
  if emitsAt a.x.r.lvl.toNat t && !v.empty then
    if a.mayWrite c (a.x.outsWith 6) then
      s.setCell a.n ((a.write c (a.x.outsWith 6) (a.tok .data v.thread v.val v.tans)).setCarry a.site Carry.reset)
    else s
  else s.passMarker a t ls

/-- A reduction takes a token: `step` gives the new carry from the old one, `first` from an empty one. -/
def State.redTake (s : State) (a : At) (ts : List (Nat × Tok)) (first : Opnd → Opnd) (step : Opnd → Opnd → Opnd) : State :=
  s.onCell a.n fun c =>
    let x := a.input ts
    let v := c.carry a.site
    let c := a.take c
    if anyPoison ts then c
    else
      let o := if v.empty then first x.a else step { v := v.val, t := v.tans } x.a
      c.setCarry a.site { val := o.v, tans := a.tans c.ident.tw o.tan, empty := false, thread := x.thread }

def redStep (s : State) (op : BitVec 7) (r : ElemRec) (first : Opnd → Opnd) (step : Opnd → Opnd → Opnd) :
    Host.Outcome State Fault Refusal :=
  fireSite s op r s.redMarker fun a ts => s.redTake a ts first step

/-- A marker source puts its next pending level marker on its result outputs before anything else (R407, R418). -/
def State.putLevel (s : State) (a : At) : State :=
  s.onCell a.n fun c =>
    let v := c.carry a.site
    if a.mayWrite c a.outs then
      (a.write c a.outs (a.tok (levelKind v.val.toNat) v.thread 0 [])).setCarry a.site (match v.tans with
        | [] => Carry.reset
        | l :: r => { v with val := l, tans := r })
    else c

/-- Markers of some levels wait, in order, to follow the token of a thread. -/
def Cell.pendLevels (c : Cell) (site : Nat) (levels : List Nat) (thread : Nat) : Cell :=
  match levels.map (BitVec.ofNat 32) with
  | [] => c
  | l :: r => c.setCarry site { val := l, tans := r, empty := false, thread := thread }

/-- A marker of a level waits to follow the token of a thread. -/
def Cell.pendLevel (c : Cell) (site level thread : Nat) : Cell := c.pendLevels site [level] thread

end Sys2Proof.Machine
end

