-- ==== Sys2Proof/Machine/MemOps.lean ====
section
/-! DEFINITION. The memory instructions of the sequencer: loads, stores and scratch (R336 to R341), ordered accesses and
fences (R342, R343), atomics (R344, R345) and full-empty operations (R346, R347). -/

namespace Sys2Proof.Machine

/-! ### Shared operations -/

/-- How a load extends its value. -/
def extend (size : Nat) (sgn : Bool) (v : Nat) : Word :=
  if sgn then (BitVec.ofNat (8 * size) v).signExtend 64 else BitVec.ofNat 64 v

/-- A plain load (R336, R337), also as the second word of a dual pair with T = 0 (R316). -/
def loadOp (s : State) (du : Bool) (d a : Reg) (o : BitVec 16) (size : Nat) (sgn : Bool) : Host.Outcome State Fault Refusal :=
  let n := s.focus.cell
  s.withChk n (s.cur.instrWord du) 0 (s.access n .load size (s.cur.addr a o) none) fun l =>
  s.withReply n l (s.cur.addr a o) (s.cur.instrWord du) (.load size) fun s =>
    let (s, v) := s.readLoc n l size
    .next (s.settle fun c => (c.setReg d (extend size sgn v)).retire du)

/-- The write-buffer entry of a store at a checked place: bytes, or an addition to a queue event (R128). -/
def storeEntry (l : Loc) (size : Nat) (v : Word) (sc : Scope) : WbEntry :=
  match l.cls, eventWindow (paLocal l.pa) with
  | .dev, some (f, e) => .event f e v
  | _, _ => .bytes ((leBytes size v.toNat).mapIdx fun i b => (l.pa + i, b)) sc

/-- A plain store (R336, R338). -/
def storeOp (s : State) (du : Bool) (d a : Reg) (o : BitVec 16) (size : Nat) : Host.Outcome State Fault Refusal :=
  let n := s.focus.cell
  s.withChk n (s.cur.instrWord du) 1 (s.access n .store size (s.cur.addr a o) none) fun l =>
    .next ((s.buffer n (storeEntry l size (s.cur.reg d) .cell)).settle fun c => c.retire du)

/-- The address of the primal of a dual access, for 0, or of its k-th tangent (R145, R340). -/
def State.dualVa (s : State) (n : Nat) (va : Word) (k : Nat) : Word := va + BitVec.ofNat 64 k * (s.cell n).seq.ktstride

/-- The places of a dual access: the primal and the T tangents, all checked in order (R340). -/
def State.dualLocs (s : State) (n : Nat) (write : Bool) (size : Nat) (va : Word) : Chk (List Loc) :=
  let q := (s.cell n).seq
  let stride := q.ktstride
  (Chk.need (stride != 0 && stride.toNat % 64 == 0) .combo 0).andThen fun _ =>
  (s.access n (.dual write) size va none).andThen fun l0 =>
  (List.range (s.cell n).ident.tw).foldl (fun r k =>
    r.andThen fun ls =>
      (s.access n (.tangent write) size (s.dualVa n va (k + 1)) none).andThen fun l => .ok (ls ++ [l]))
    (.ok [l0])

/-- A dual load (R340): `LDW` sign-extends the primal and zero-extends the tangents. -/
def dualLoad (s : State) (d a : Reg) (o : BitVec 16) (size : Nat) : Host.Outcome State Fault Refusal :=
  let n := s.focus.cell
  if s.cur.ident.tw = 0 then loadOp s true d a o size true else
  s.withChk n (s.cur.instrWord true) 0 (s.dualLocs n false size (s.cur.addr a o)) fun ls =>
  s.withReplies n (ls.zipIdx.map fun x => (x.1, (s.dualVa n (s.cur.addr a o) x.2).toNat)) (s.cur.instrWord true) (.load size) fun s =>
    let r := ls.foldl (fun (x : State × List Nat) l =>
      let (s, v) := x.1.readLoc n l size
      (s, x.2 ++ [v])) (s, [])
    .next (r.1.settle fun c =>
      (c.setRegDual d (extend size true (r.2.headD 0)) (r.2.tail.map (BitVec.ofNat 64))).retire true)

/-- A dual store (R181, R340): one indivisible entry, the primal and then the tangents. -/
def dualStore (s : State) (d a : Reg) (o : BitVec 16) (size : Nat) : Host.Outcome State Fault Refusal :=
  let n := s.focus.cell
  if s.cur.ident.tw = 0 then storeOp s true d a o size else
  s.withChk n (s.cur.instrWord true) 1 (s.dualLocs n true size (s.cur.addr a o)) fun ls =>
    let vals := s.cur.reg d :: s.cur.tangents d
    let cells := (ls.zip vals).flatMap fun e => (leBytes size e.2.toNat).mapIdx fun i b => (e.1.pa + i, b)
    .next ((s.buffer n (.bytes cells .part)).settle fun c => c.retire true)

/-- The scratch address of `LDS` and `STS`, checked (R339). -/
def scratchChk (sa : Word) : Chk Nat :=
  if sa.toNat ≥ 0x100000 then .trap .perm sa else if sa.toNat % 8 ≠ 0 then .trap .align sa else .ok sa.toNat

/-! ### Loads and stores -/

def execLdb (d a : Reg) (o : BitVec 16) (s : State) : Host.Outcome State Fault Refusal := loadOp s false d a o 1 true
def execLdh (d a : Reg) (o : BitVec 16) (s : State) : Host.Outcome State Fault Refusal := loadOp s false d a o 2 true
def execLdw (d a : Reg) (o : BitVec 16) (s : State) : Host.Outcome State Fault Refusal := loadOp s false d a o 4 true
def execLdd (d a : Reg) (o : BitVec 16) (s : State) : Host.Outcome State Fault Refusal := loadOp s false d a o 8 true
def execLdbn (d a : Reg) (o : BitVec 16) (s : State) : Host.Outcome State Fault Refusal := loadOp s false d a o 1 false
def execLdhn (d a : Reg) (o : BitVec 16) (s : State) : Host.Outcome State Fault Refusal := loadOp s false d a o 2 false
def execLdwn (d a : Reg) (o : BitVec 16) (s : State) : Host.Outcome State Fault Refusal := loadOp s false d a o 4 false
def execStb (d a : Reg) (o : BitVec 16) (s : State) : Host.Outcome State Fault Refusal := storeOp s false d a o 1
def execSth (d a : Reg) (o : BitVec 16) (s : State) : Host.Outcome State Fault Refusal := storeOp s false d a o 2
def execStw (d a : Reg) (o : BitVec 16) (s : State) : Host.Outcome State Fault Refusal := storeOp s false d a o 4
def execStd (d a : Reg) (o : BitVec 16) (s : State) : Host.Outcome State Fault Refusal := storeOp s false d a o 8

def execLds (d a : Reg) (o : BitVec 16) (s : State) : Host.Outcome State Fault Refusal :=
  let c := s.cur
  s.withChk s.focus.cell (c.instrWord false) 0 (scratchChk (c.addr a o)) fun sa =>
    .next (s.onCur fun c => (c.setReg d (BitVec.ofNat 64 (leNat (c.scratchRead sa 8)))).retire false)

def execSts (d a : Reg) (o : BitVec 16) (s : State) : Host.Outcome State Fault Refusal :=
  let c := s.cur
  s.withChk s.focus.cell (c.instrWord false) 0 (scratchChk (c.addr a o)) fun sa =>
    .next (s.onCur fun c => (c.scratchWrite sa (leBytes 8 (c.reg d).toNat)).retire false)

/-! ### Ordered accesses and fences (R342, R343) -/

/-- Bytes of a size bit. -/
def sizeOf (dbl : Bool) : Nat := if dbl then 8 else 4

/-- `LDAQ`: at PART or wider the L1 is left empty, so that this and every later load reads memory (R178). -/
def execLdaq (d a : Reg) (c : Scope) (dbl : Bool) (s : State) : Host.Outcome State Fault Refusal :=
  let n := s.focus.cell
  s.withChk n (s.cur.instrWord false) 0 (s.access n .load (sizeOf dbl) (s.cur.reg a) (some c)) fun l =>
  s.withReply n l (s.cur.reg a) (s.cur.instrWord false) (.load (sizeOf dbl)) fun s =>
    let (s, v) := (s.acquire n c).readLoc n l (sizeOf dbl)
    .next ((s.acquire n c).settle fun x => (x.setReg d (extend (sizeOf dbl) true v)).retire false)

/-- `STRL`: every buffered store performs first, and then the store enters the buffer (R341, R342). -/
def execStrl (a b : Reg) (c : Scope) (dbl : Bool) (s : State) : Host.Outcome State Fault Refusal :=
  let n := s.focus.cell
  s.withChk n (s.cur.instrWord false) 1 (s.access n .store (sizeOf dbl) (s.cur.reg a) (some c)) fun l =>
    .next (((s.drain n).buffer n (storeEntry l (sizeOf dbl) (s.cur.reg b) c)).settle fun x => x.retire false)

/-- An acquire or full fence waits for every earlier bank command of its scope or a narrower one (R390). -/
def Cell.fenceWaits (x : Cell) (k : FenceKind) (c : Scope) : Bool :=
  k != .release && x.bank.any fun (b : BankCmd) => decide (scopeRank b.scope ≤ scopeRank c)

def execFence (k : FenceKind) (c : Scope) (s : State) : Host.Outcome State Fault Refusal :=
  let n := s.focus.cell
  if !s.scopeOk s.cur.ident.vf (some c) then trapNow s false .scope
  else if s.cur.fenceWaits k c then .next s
  else
    let s := match k with
      | .acquire => s.acquire n c
      | .release => s.drain n
      | .full => (s.drain n).acquire n c
    .next (s.settle fun x => x.retire false)

/-! ### Atomics (R344, R345) -/

/-- Whether an order releases, and whether it acquires. -/
def Order.releases : Order → Bool
  | .release | .acqRel => true
  | _ => false
def Order.acquires : Order → Bool
  | .acquire | .acqRel => true
  | _ => false

/-- f32 addition at a bank (R139); only word operations reach it. -/
def bankFadd {w : Nat} (a b : BitVec w) : BitVec w := (f32Add (a.setWidth 32) (b.setWidth 32)).setWidth w

/-- The new value of an atomic of a size on memory bits, as bits. -/
def atomicBits (dbl : Bool) (op : Nat) (m v cmp : Word) : Nat :=
  if dbl then (atomicNew 64 bankFadd op m v cmp).toNat
  else (atomicNew 32 bankFadd op (m.setWidth 32) (v.setWidth 32) (cmp.setWidth 32)).toNat

/-- An atomic writes, unless it is an `ACAS` whose comparison fails (R345). -/
def atomicWrites (dbl : Bool) (op : Nat) (cmp : Word) (m : Nat) : Bool :=
  op != 9 || m == cmp.toNat % (if dbl then 2 ^ 64 else 2 ^ 32)

/-- An atomic: buffered stores that it follows or overlaps perform first, then the bank makes the change. -/
def atomicOp (s : State) (op : Nat) (sgn : Bool) (d a b : Reg) (c : Scope) (o : Order) (dbl : Bool) :
    Host.Outcome State Fault Refusal :=
  let n := s.focus.cell
  let size := sizeOf dbl
  s.withChk n (s.cur.instrWord false) 1 (s.access n .atomic size (s.cur.reg a) (some c)) fun l =>
    let v := s.cur.reg b
    let cmp := s.cur.reg d
    let near := (tabulate size fun i => wbByte s.cur.seq.wb (l.pa + i)).any (·.isSome)
    let s := if Sys2Proof.Machine.Order.releases o || near then s.drain n else s
    s.withReply n l (s.cur.reg a) (s.cur.instrWord false) (.atomic (BitVec.ofNat 4 op) dbl v cmp) fun s =>
    let (s, old) := s.bankRmw n l.pa size (atomicWrites dbl op cmp) fun m => atomicBits dbl op (BitVec.ofNat 64 m) v cmp
    let s := if Sys2Proof.Machine.Order.acquires o then s.acquire n c else s
    .next (s.settle fun x => (x.setReg d (extend size (sgn || dbl) old)).retire false)

def execAadd (d a b : Reg) (c : Scope) (o : Order) (dbl : Bool) (s : State) : Host.Outcome State Fault Refusal :=
  atomicOp s 0 true d a b c o dbl
def execAmin (d a b : Reg) (c : Scope) (o : Order) (dbl : Bool) (s : State) : Host.Outcome State Fault Refusal :=
  atomicOp s 1 true d a b c o dbl
def execAmax (d a b : Reg) (c : Scope) (o : Order) (dbl : Bool) (s : State) : Host.Outcome State Fault Refusal :=
  atomicOp s 2 true d a b c o dbl
def execAminn (d a b : Reg) (c : Scope) (o : Order) (dbl : Bool) (s : State) : Host.Outcome State Fault Refusal :=
  atomicOp s 3 false d a b c o dbl
def execAmaxn (d a b : Reg) (c : Scope) (o : Order) (dbl : Bool) (s : State) : Host.Outcome State Fault Refusal :=
  atomicOp s 4 false d a b c o dbl
def execAand (d a b : Reg) (c : Scope) (o : Order) (dbl : Bool) (s : State) : Host.Outcome State Fault Refusal :=
  atomicOp s 5 true d a b c o dbl
def execAor (d a b : Reg) (c : Scope) (o : Order) (dbl : Bool) (s : State) : Host.Outcome State Fault Refusal :=
  atomicOp s 6 true d a b c o dbl
def execAxor (d a b : Reg) (c : Scope) (o : Order) (dbl : Bool) (s : State) : Host.Outcome State Fault Refusal :=
  atomicOp s 7 true d a b c o dbl
def execAxchg (d a b : Reg) (c : Scope) (o : Order) (dbl : Bool) (s : State) : Host.Outcome State Fault Refusal :=
  atomicOp s 8 true d a b c o dbl
def execAcas (d a b : Reg) (c : Scope) (o : Order) (dbl : Bool) (s : State) : Host.Outcome State Fault Refusal :=
  atomicOp s 9 true d a b c o dbl
def execAfadd (d a b : Reg) (c : Scope) (o : Order) (s : State) : Host.Outcome State Fault Refusal :=
  atomicOp s 10 false d a b c o false

/-! ### Full-empty operations (R346, R347) -/

/-- `LDFE` returns a word's value, as an acquire. -/
def State.endLdfe (s : State) (n : Nat) (d : Reg) (c : Scope) (v : W32) : State :=
  (s.acquire n c).settle fun x => ((x.withSeq fun q => { q with deferral := none }).setReg d (v.setWidth 64)).retire false

/-- The fill that has completed the cell's waiting load of a word. -/
def Seq.filled (q : Seq) (pa : Nat) : Option W32 :=
  q.deferral.bind fun x => if x.1 = pa then x.2 else none

/-- `LDFE`: waits, with a deferral entry at the slice, until the word is filled; without a free entry it is only tried again. -/
def execLdfe (d a : Reg) (c : Scope) (s : State) : Host.Outcome State Fault Refusal :=
  let n := s.focus.cell
  s.withChk n (s.cur.instrWord false) 1 (s.access n .feRead 4 (s.cur.reg a) (some c)) fun l =>
  s.withReply n l (s.cur.reg a) (s.cur.instrWord false) .ldfe fun s =>
    match s.cur.seq.filled l.pa with
    | some v => .next (s.endLdfe n d c v)
    | none =>
      if s.cur.seq.deferral = some (l.pa, none) then .next s
      else
        let s := s.touch n .fe l.pa false false
        if s.isFull l.pa then .next (s.endLdfe n d c (BitVec.ofNat 32 (s.load l.pa 4)))
        else if !s.deferralFree l.pa then .next s
        else
          .next ((s.countCell n 9 1).settle fun x => x.withSeq fun q => { q with deferral := some (l.pa, none) })

/-- `STFE`: a release; FEDUP on a full word. -/
def execStfe (a b : Reg) (c : Scope) (s : State) : Host.Outcome State Fault Refusal :=
  let n := s.focus.cell
  s.withChk n (s.cur.instrWord false) 1 (s.access n .feWrite 4 (s.cur.reg a) (some c)) fun l =>
  (s.drain n).withReply n l (s.cur.reg a) (s.cur.instrWord false) (.stfe ((s.cur.reg b).setWidth 32)) fun s =>
    let (s, ok) := s.fillWord n l.pa ((s.cur.reg b).setWidth 32)
    if s.cur.run = .idle then .next s
    else if ok then .next (s.onCur fun x => x.retire false)
    else trapNow s false .fedup (s.cur.reg a)

/-- `FEPEEK`: bit 32 is the presence bit; a full word acquires. -/
def execFepeek (d a : Reg) (c : Scope) (s : State) : Host.Outcome State Fault Refusal :=
  let n := s.focus.cell
  s.withChk n (s.cur.instrWord false) 1 (s.access n .feRead 4 (s.cur.reg a) (some c)) fun l =>
  s.withReply n l (s.cur.reg a) (s.cur.instrWord false) .fepeek fun s =>
    let s := s.touch n .fe l.pa false false
    if s.isFull l.pa then
      let v := 2 ^ 32 + s.load l.pa 4
      .next ((s.acquire n c).settle fun x => (x.setReg d (BitVec.ofNat 64 v)).retire false)
    else .next (s.settle fun x => (x.setReg d 0).retire false)

end Sys2Proof.Machine
end

