-- ==== Sys2Proof/Machine/Commit.lean ====
section
/-! DEFINITION. The store queue and commit (R179, R180, R232), what poison does to a thread (R141, R233, R234), the end of a
pass (R219, R281 to R285), and when a phase is Done (R109). -/

namespace Sys2Proof.Machine

/-! ### The store queue (R232) -/

/-- Entries of 8 bytes that a queue entry takes: a dual store takes 1 + T. -/
def SqKind.weight : SqKind → Nat
  | .store _ vals _ => vals.length
  | _ => 1
def Fabric.sqUsed (f : Fabric) : Nat := f.sq.foldl (fun n e => n + e.kind.weight) 0
def Fabric.sqFits (f : Fabric) (k : SqKind) : Bool := decide (f.sqUsed + k.weight ≤ 2048)

/-! ### Rows of `AFPUSH` (R417) -/

/-- A slot of committed values, padded with zeros, and its tangent rows of zeros. -/
def rowSlots (desc : Desc) (tanSlots : Nat) (l : List Byte) : List FifoSlot :=
  let x : FifoSlot := { markerSlot with
    data := (l ++ List.replicate 128 0).take 128, d0 := desc, d1 := desc, marker := false }
  x :: List.replicate tanSlots { x with data := List.replicate 128 0, tangent := true }

def Cell.rowOf (c : Cell) (site : Nat) : List Byte := Map.get [] c.fabric.rows site
def Cell.setRow (c : Cell) (site : Nat) (l : List Byte) : Cell :=
  c.withFabric fun f => { f with rows := Map.set [] f.rows site l }

/-- Tangent slots that the partly filled slot of a FIFO will take. -/
def Cell.fillTan (c : Cell) (q : Nat) : Nat :=
  (((c.streams.map (·.2)).find? fun x => x.armed.isNone && x.cmd.other == .fifo q && !x.cmd.op.shapedDst).map
    fun x => x.cmd.tanSlots).getD 0
/-- Whether n more slots fit in a FIFO. -/
def Cell.fifoFits (c : Cell) (q n : Nat) : Bool := decide ((c.fifo q).used (c.fillTan q) + n ≤ 512)

def Cell.pushSlots (c : Cell) (q : Nat) (l : List FifoSlot) : Cell :=
  c.setFifo q { c.fifo q with slots := (c.fifo q).slots ++ l }

/-- A committed value joins its row; 32 of them make a slot. -/
def Cell.pushValue (c : Cell) (site fifo : Nat) (desc : Desc) (tanSlots : Nat) (v : W32) : Cell :=
  let l := c.rowOf site ++ leBytes 4 v.toNat
  if l.length < 128 then c.setRow site l else (c.setRow site []).pushSlots fifo (rowSlots desc tanSlots l)

/-- The slots that a marker makes: the partly filled row, and a marker slot for a level marker. -/
def Cell.markSlots (c : Cell) (site : Nat) (desc : Desc) (tanSlots : Nat) (passEnd : Bool) : List FifoSlot :=
  (if (c.rowOf site).isEmpty then [] else rowSlots desc tanSlots (c.rowOf site)) ++ (if passEnd then [] else [markerSlot])

/-- Marker entries at the head of the queue perform, as far as their FIFOs have room. -/
def Cell.drainMarks (c : Cell) : Nat → Cell
  | 0 => c
  | n + 1 => match c.fabric.sq with
    | [] => c
    | e :: r => match e.kind with
      | .afmark site q desc t pe =>
        let l := c.markSlots site desc t pe
        if c.fifoFits q l.length then
          ((((c.setRow site []).pushSlots q l).withFabric fun f => { f with sq := r })).drainMarks n
        else c
      | _ => c
def Cell.drainQueue (c : Cell) : Cell := c.drainMarks c.fabric.sq.length
/-- A marker at the head of the queue that has no room holds every commit. -/
def Cell.markHolds (c : Cell) : Bool := c.fabric.sq.head?.any fun e => match e.kind with
  | .afmark .. => true
  | _ => false

/-! ### Performing entries (R179, R181, R412 to R421) -/

/-- Old values that `ATM` nodes have returned, by thread and ring position. -/
abbrev Olds := List ((Nat × Nat) × W32)

/-- Write words at physical addresses for cell n. -/
def State.storeWords (s : State) (n : Nat) (pas : List Nat) (vals : List W32) : State :=
  (pas.zip vals).foldl (fun s e =>
    ((s.postRemote n .norm e.1 (.store (leBytes 4 e.2.toNat))).touch n .norm e.1 true false).writeCells n
      ((leBytes 4 e.2.toNat).mapIdx fun i b => (e.1 + i, b)) |>.endUncached) s

/-- Write the words of an element in consecutive tiles. -/
def Cell.writeTiles (c : Cell) (t idx : Nat) : List W32 → Cell
  | [] => c
  | v :: r =>
    ({ c with
      tiles := Map.set 0 c.tiles (tileKey t 0 idx) v
      tileWritten := if c.tileWritten.contains t then c.tileWritten else t :: c.tileWritten } : Cell).writeTiles (t + 1) idx r

/-- Perform one entry: the state, the cause of a failure, and the old values so far. -/
def State.performEntry (s : State) (n : Nat) (olds : Olds) (e : SqEntry) : State × Option Cause × Olds :=
  match e.kind with
  | .store pas vals _ => (s.storeWords n pas vals, none, olds)
  | .stfe pa _ v _ =>
    let (s, ok) := (s.postRemote n .fe pa (.stfe v)).fillWord n pa v
    (s, if ok then none else some .fedup, olds)
  | .atm pa op v order sc =>
    let s := s.postRemote n .norm pa (.atomic op false (v.zeroExtend 64) 0)
    let (s, old) := s.bankRmw n pa 4 (fun _ => true) fun m => atomicBits false op.toNat (BitVec.ofNat 64 m) (v.zeroExtend 64) 0
    (if Sys2Proof.Machine.Order.acquires order then s.acquire n sc else s, none, ((e.thread, e.ring), BitVec.ofNat 32 old) :: olds)
  | .bkadd pa f v =>
    let s := s.postRemote n .norm pa (.atomic (if f then 10 else 0) false (v.zeroExtend 64) 0)
    let (s, _) := s.bankRmw n pa 4 (fun _ => true) fun m => atomicBits false (if f then 10 else 0) (BitVec.ofNat 64 m) (v.zeroExtend 64) 0
    (s, none, olds)
  | .sts sa v => (s.onCell n fun c => c.scratchWrite sa (leBytes 4 v.toNat), none, olds)
  | .acwr t i vals => (s.onCell n fun c => c.writeTiles t i vals, none, olds)
  | .afpush site q d t v => (s.onCell n fun c => c.pushValue site q d t v, none, olds)
  | .afmark .. => (s, none, olds)
  | .stout ring vals =>
    (s.onCell n fun c => c.withFabric fun f =>
      { f with stout := Map.set [] f.stout ring (Map.get [] f.stout ring ++ [(vals.headD 0, vals.tail)]) }, none, olds)
  | .barv b =>
    if (s.cell n).mayArrive b then (s.onCell n fun c => c.arrive b, none, olds) else (s, some .barrier, olds)
  | .lout slot v tans atm =>
    let v := match atm with
      | none => v
      | some ring => ((olds.find? fun o => o.1 == (e.thread, ring)).map (·.2)).getD v
    (s.onCell n fun c => c.setLiveSlot e.thread slot (v :: tans), none, olds)

/-- Perform entries in order; the first failure is kept with its ring position, the rest stands. -/
def State.performAll (s : State) (n : Nat) (l : List SqEntry) : State × Option (Nat × Cause × Nat) × Olds :=
  l.foldl (fun (x : State × Option (Nat × Cause × Nat) × Olds) e =>
    let (s, err, olds) := x.1.performEntry n x.2.2 e
    (s, x.2.1.orElse fun _ => err.map fun c => (e.ring, c, e.thread), olds)) (s, none, [])

/-- The order of a commit: ascending ring position, and the live-outs after the accesses, whose old values they take. -/
def commitOrder (l : List SqEntry) : List SqEntry :=
  let out (e : SqEntry) : Bool := match e.kind with
    | .lout .. => true
    | _ => false
  let sorted := sortBy (fun a b => decide (a.ring ≤ b.ring)) l
  sorted.filter (fun e => !out e) ++ sorted.filter out

/-- Whether the rows that some values complete fit their FIFOs (R417). -/
def Cell.rowsFit (c : Cell) (l : List SqEntry) : Bool :=
  (List.range 2).all fun q =>
    let need := l.foldl (fun (x : List (Nat × Nat) × Nat) e => match e.kind with
      | .afpush site f _ t _ =>
        if f = q then
          let k := Map.get 0 x.1 site + 4
          let full := (c.rowOf site).length + k
          (Map.put x.1 site (if full % 128 = 0 then k - 128 else k), x.2 + (if full % 128 = 0 then 1 + t else 0))
        else x
      | _ => x) ([], 0)
    c.fifoFits q need.2

/-! ### What a thread leaves behind (R72, R232, R233, R281) -/

/-- The meters and counters that fills of a committed thread add to. -/
def State.settleFills (s : State) (n thread : Nat) : State :=
  let s := ((s.cell n).fabric.specFills.filter fun e => e.1 == thread).foldl (fun s e =>
    match e.2.2 with
    | 0 => ((s.meter e.2.1 4 64).meter e.2.1 5 64).countCell n 12 1
    | 1 => ((s.meter e.2.1 7 64).meter e.2.1 5 64).countCell n 12 1
    | _ => s.countCell n 11 1) s
  s.onCell n fun c => c.withFabric fun f => { f with specFills := f.specFills.filter fun e => e.1 != thread }

/-- Drop a thread from its pass: its entries, reports, operations and fills are gone, and it is no longer in flight. -/
def Cell.leavePass (c : Cell) (p : Pass) (thread : Nat) : Cell :=
  c.withFabric fun f =>
    let q := (f.passes.find? fun q => q.id == p.id).getD p
    { f.setPass { q with gone := thread :: q.gone } with
      sq := f.sq.filter fun e => !(e.pass == p.id && e.thread == thread && !e.cone)
        || (match e.kind with
          | .afmark .. => true
          | _ => false)
      poison := f.poison.filter fun e => !(e.pass == p.id && e.thread == thread && !e.cone)
      opsDone := Map.erase f.opsDone thread
      specFills := f.specFills.filter fun e => e.1 != thread }

/-- Where `NEXT` sends a thread: a block, or none to park (R223, R421). -/
def nextOf (p : Pass) (x : SiteRec) (v : W32) : Option Nat :=
  if x.op = 0x79 then none
  else
    let k := if v = 0 then x.r.imm8.toNat % 16 else x.r.imm8.toNat / 16
    let e := p.image.succ.getD k 0x3FF
    if e = 0x3FF then none else some e.toNat

/-- Park or requeue a committed thread (R226, R232, R412, R421). -/
def Cell.sendOn (c : Cell) (thread block ring : Nat) (next : Option Nat) (err : Option (Nat × Cause × Nat)) : Cell × Bool :=
  match err, next with
  | some (r, cz, _), _ => (c.withPhase fun p => p.park thread block (some (BitVec.ofNat 16 r, cz)), true)
  | none, none => (c.withPhase fun p => p.park thread block none, false)
  | none, some b =>
    if (Map.get? c.bound b).isSome then (c.withPhase fun p => p.enqueue b thread, false)
    else (c.withPhase fun p => p.park thread block (some (BitVec.ofNat 16 ring, .config)), true)

/-- A thread's entries in the queue. -/
def Fabric.entriesOf (f : Fabric) (p : Pass) (thread : Nat) : List SqEntry :=
  f.sq.filter fun e => e.pass == p.id && e.thread == thread && !e.cone && (match e.kind with
    | .afmark .. => false
    | _ => true)

/-- The commit of a thread whose control node has read a value; held while a row has no room (R232, R417). -/
def State.commitThread (s : State) (n : Nat) (p : Pass) (x : SiteRec) (ring thread : Nat) (v : W32) : Option State :=
  let s := s.onCell n Cell.drainQueue
  let c := s.cell n
  let es := commitOrder (c.fabric.entriesOf p thread)
  if c.markHolds || !c.rowsFit es then none
  else
    let (s, err, _) := s.performAll n es
    if (s.cell n).run = .idle then some s
    else
      let s := (s.meter (partOfCell n) 3 (Map.get 0 c.fabric.opsDone thread)).settleFills n thread
      let (c, bad) := ((s.cell n).leavePass p thread).sendOn thread p.image.block ring (nextOf p x v) err
      let s := s.setCell n c.drainQueue
      some (if bad then s.countCell n 3 1 else s)

/-! ### Poison (R141, R233) -/

/-- The classes of R233. -/
def Poison.rank (p : Poison) : Nat := if p.watch || p.cause == .xlate then 1 else if p.cause.isSecurity then 3 else 2

/-- The report that decides: the highest class, then the earliest. -/
def worstOf (l : List Poison) : Option Poison :=
  l.foldl (fun b x => match b with
    | none => some x
    | some y => if y.rank < x.rank then some x else some y) none

/-- A page would still hold an access of a cell's world. -/
def State.pageAbsent (s : State) (n page : Nat) : Bool :=
  match s.world? (s.cell n).ident.world with
  | none => true
  | some v => match v.leafAt (page * pageBytes) with
    | none => true
    | some (b, l) => l.evicted.isSome || s.retired.contains ((l.pa + (page * pageBytes - b)) / 65536)

/-- The access kind of a thread's fault (R99): 2 a load, 3 a store or atomic. -/
def Pass.faultKind (p : Pass) (ring : Nat) : Nat :=
  match p.rec? (edgeSite ring) with
  | some x => if x.op = 0x58 ∨ x.op = 0x5A ∨ x.op = 0x5D then 2 else 3
  | none => 3

/-- The recoverable outcome: the thread waits at its block again, fault-pending until the page or the word is there. -/
def State.recover (s : State) (n : Nat) (p : Pass) (x : Poison) : State :=
  let s := s.onCell n fun c => c.withPhase fun ph => ph.enqueue p.image.block x.thread
  if x.watch then
    let s := s.touch n .fe x.addr false false
    if !s.deferralFree x.addr then s
    else
    let s := s.countCell n 9 1
    if s.isFull x.addr then s
    else (s.postRemote n .fe x.addr .ldfe).onCell n fun c => c.withPhase fun ph =>
      { ph.markFault x.thread with watches := ph.watches ++ [(x.thread, x.addr)] }
  else if s.pageAbsent n (x.addr / pageBytes) then
    (s.onCell n fun c => c.withPhase fun ph => ph.markFault x.thread).addFault n (p.faultKind x.ring) x.addr (some x.thread)
  else s

/-- A thread's work is lost: aborted operations and event 2 (R72, R281). -/
def State.loseThread (s : State) (n : Nat) (p : Pass) (thread : Nat) : State :=
  let k := Map.get 0 (s.cell n).fabric.opsDone thread
  ((s.meterLost (partOfCell n) 3 k).countCell n 2 1).onCell n fun c => c.leavePass p thread

/-- What a poisoned thread's reports do to it. -/
def State.poisoned (s : State) (n : Nat) (p : Pass) (thread : Nat) (x : Poison) : State :=
  let s := s.loseThread n p thread
  match x.rank with
  | 3 => s.endWorldOf n x.cause
  | 2 => ((s.onCell n fun c => c.withPhase fun ph => ph.park thread p.image.block (some (x.detail, x.cause))).countCell
      n 3 1).onCell n Cell.drainQueue
  | _ => (s.recover n p { x with thread := thread }).onCell n Cell.drainQueue

def Fabric.reportsOf (f : Fabric) (p : Pass) (thread : Nat) : List Poison :=
  f.poison.filter fun e => e.pass == p.id && e.thread == thread && !e.cone

/-! ### When a phase is Done (R109, R112) -/

def Phase.finish (p : Phase) : Phase := { p with st := .done, wait := [], faultPending := 0, watches := [] }

/-- A gate block is eligible when every unparked thread waits at it without a fault and none is in flight. -/
def Cell.gateReady (c : Cell) (b : Nat) : Bool :=
  let un := c.phase.unparked
  c.fabric.inFlight.isEmpty && !un.isEmpty && un.all fun i => (c.phase.waitOf b).getLsbD i && !c.phase.faultPending.getLsbD i

/-- The blocks where threads wait. -/
def Cell.waitBlocks (c : Cell) : List Nat := (List.range 64).filter fun b => c.phase.waitOf b != 0

def Cell.isGate (c : Cell) (b : Nat) : Bool := (Map.get? c.bound b).any (·.gate)

/-- Every unparked thread waits, without a fault, at a gate block, and no gate block is eligible. -/
def Cell.gateStuck (c : Cell) : Bool :=
  let bs := c.waitBlocks
  !c.phase.unparked.isEmpty && c.phase.faultPending == 0 && bs.all c.isGate && !bs.any c.gateReady
    && c.phase.unparked.all fun i => bs.any fun b => (c.phase.waitOf b).getLsbD i

/-- The phase is over when nothing waits or flies, or when its threads are stuck at gates. -/
def State.settlePhase (s : State) (n : Nat) : State :=
  let c := s.cell n
  if c.phase.st ≠ .running ∨ c.fabric.passes ≠ [] ∨ c.fabric.sq ≠ [] then s
  else if c.phase.unparked.isEmpty then s.setCell n ((c.withPhase Phase.finish).pulse 18)
  else if c.gateStuck then
    let un := c.phase.unparked
    let ph := c.phase.parkAll un c.phase.blockOf (some (0, .barrier))
    (s.setCell n (({ c with phase := ph.finish } : Cell).pulse 18)).countCell n 3 un.length
  else s

/-! ### The end of a pass (R180, R219, R408, R418) -/

/-- Every site has passed the pass-end. -/
def Fabric.allPassed (f : Fabric) (p : Pass) : Bool :=
  p.ended && p.issuedAll && p.image.sites.all fun e => f.hasPassed p e.1

/-- Element cycles by class: of a number of elements over some cycles each is in one class, and those that no image uses are idle.
How the used ones' cycles fall into the first four classes is timing: free amounts, the rest idle (R282, log 3). -/
def State.takeClasses (s : State) (elems used cycles : Nat) : List Nat × State :=
  let x (k : Nat) : Nat := Config.freeNat (s.free + k)
  let busy := used * cycles
  let c0 := x 0 % (busy + 1)
  let c1 := x 1 % (busy - c0 + 1)
  let c2 := x 2 % (busy - c0 - c1 + 1)
  let c3 := x 3 % (busy - c0 - c1 - c2 + 1)
  ([c0, c1, c2, c3, elems * cycles - (c0 + c1 + c2 + c3)], { s with free := s.free + 4 })

/-- Core cycles since a time (R15). -/
def State.cyclesSince (s : State) (t : Nat) : Nat := (s.timebase - t) * s.clock.mhz / 1000

/-- Elements that an image configures. -/
def Image.elements (m : Image) : List Nat := (m.sites.map (·.1)).filter fun x => decide (x < 256)

/-- Elements that an image bound in a cell, or one in flight, configures. -/
def Cell.usedElements (c : Cell) : List Nat :=
  ((c.bound.map fun (e : Nat × Image) => e.2.elements).flatten ++ (c.fabric.passes.map fun p => p.image.elements).flatten).dedup

/-- A cell's contribution to its partition's window: its events, and the class totals of its 256 elements since the last one,
all at once (R280, R282). -/
def State.contribute (s : State) (n : Nat) : State :=
  let c := s.cell n
  let (cls, s) := s.takeClasses 256 c.usedElements.length (s.cyclesSince c.classFrom)
  let s := (s.flushCell n).onCell n fun c => { c with classFrom := s.timebase }
  s.onPart (partOfCell n) fun v => { v with
    classTotals := (List.range 5).foldl (fun m k =>
      Map.set 0 m (5 * cellIndex n + k) (Map.get 0 m (5 * cellIndex n + k) + BitVec.ofNat 64 (cls.getD k 0))) v.classTotals }

/-- The sample of a pass, if its cell is enabled: the classes of the cell and of its probe element over the pass (R285). -/
def State.samplePass (s : State) (n : Nat) (p : Pass) (aborted : Bool) : State :=
  let part := partOfCell n
  match (s.part part).trace with
  | none => s
  | some t =>
    if t.mask.getLsbD (cellIndex n) then
      let cycles := s.cyclesSince p.start
      let (cls, s) := s.takeClasses 256 p.image.elements.length cycles
      let (probe, s) := s.takeClasses 1 (if p.image.elements.contains (t.probe (cellIndex n)) then 1 else 0) cycles
      let (port, s) := s.takeFree
      s.trace part 4 n (if aborted then 1 else 0) (leBytes 1 p.image.block ++ leBytes 2 p.threads.length ++ leBytes 4 cycles
        ++ cls.flatMap (leBytes 4) ++ probe.flatMap (leBytes 4) ++ leBytes 1 (port % 4))
    else s

/-- Remove a pass, with what its ports keep. -/
def Cell.removePass (c : Cell) (p : Pass) : Cell :=
  c.withFabric fun f => { f with
    passes := f.passes.filter fun q => q.id != p.id
    sq := f.sq.filter fun e => e.pass != p.id
    poison := f.poison.filter fun e => e.pass != p.id
    stinKept := f.stinKept.filter fun e => e.1 != p.id }

/-- A pass has ended: event 0, the cell's contribution and the sample (R280, R281, R285). -/
def State.finishPass (s : State) (n : Nat) (p : Pass) : State :=
  let s := ((s.countCell n 0 1).contribute n).onCell n fun c => c.removePass p
  (s.samplePass n p false).settlePhase n

/-- A pass whose entries have all performed ends. -/
def State.closePass (s : State) (n : Nat) (p : Pass) : State :=
  if (s.cell n).fabric.sq.any fun e => e.pass == p.id then s else s.finishPass n p

/-- A pass is abandoned as pre-emption does: its uncommitted threads wait again and its port tokens go back (R117, R408,
R418). -/
def State.abandonPass (s : State) (n : Nat) (p : Pass) : State :=
  let fl := p.inFlight
  let s := fl.foldl (fun s i => s.loseThread n p i) s
  let s := s.onCell n fun c =>
    (((c.giveBackStin fun id => id == p.id).withPhase fun ph => fl.foldl (fun ph i => ph.enqueue p.image.block i) ph)).removePass p
  s.samplePass n p true

/-- Cone entries in the order in which their nodes fired (R408). -/
def Fabric.coneEntries (f : Fabric) (p : Pass) : List SqEntry :=
  f.sq.filter fun e => e.pass == p.id && e.cone && (match e.kind with
    | .afmark .. => false
    | _ => true)

/-- Every thread of a pass parks with one cause and the pass commits nothing (R408). -/
def State.parkPass (s : State) (n : Nat) (p : Pass) (cause : Cause) (detail : BitVec 16) : State :=
  let fl := p.inFlight
  let s := fl.foldl (fun s i => s.loseThread n p i) s
  (s.onCell n fun c => c.withPhase fun ph => ph.parkAll fl (fun _ => p.image.block) (some (detail, cause))).countCell n 3 fl.length

/-- Commit or settle the threads of a pass in ascending order, as far as rows have room; true when all are settled. -/
def State.commitPass (s : State) (n : Nat) (p : Pass) (x : SiteRec) (ring : Nat) : List Nat → State × Bool
  | [] => (s, true)
  | i :: r =>
    match worstOf ((s.cell n).fabric.reportsOf p i) with
    | some e => (s.poisoned n p i e).commitPass n p x ring r
    | none => match s.commitThread n p x ring i (Map.get 0 p.done i) with
      | none => (s, false)
      | some s => if (s.cell n).run = .idle then (s, false) else s.commitPass n p x ring r

/-- The cone's entries perform after every thread's; held while a row has no room. -/
def State.commitCone (s : State) (n : Nat) (p : Pass) : Option (State × Option (Nat × Cause × Nat)) :=
  let s := s.onCell n Cell.drainQueue
  let es := (s.cell n).fabric.coneEntries p
  if (s.cell n).markHolds || !(s.cell n).rowsFit es then none
  else
    let (s, err, _) := s.performAll n es
    some ((s.onCell n fun c => (c.withFabric fun f => { f with sq := f.sq.filter fun e => !(e.pass == p.id && e.cone)
      || (match e.kind with
        | .afmark .. => true
        | _ => false) }).drainQueue), err)

/-- The cone commits and the pass ends. An entry that fails in it parks the thread of its token: its cause stands for the
whole pass, whose other commits have performed. -/
def State.endCone (s : State) (n : Nat) (p : Pass) : State :=
  match s.commitCone n p with
  | none => s
  | some (s, none) => s.closePass n p
  | some (s, some (r, cz, i)) =>
    ((s.onCell n fun c => c.withPhase fun ph =>
      { ph with wait := ph.wait.map fun (e : Nat × BitVec 4096) => (e.1, bitOff e.2 i) }.park i
        p.image.block (some (BitVec.ofNat 16 r, cz))).countCell n 3 1).closePass n p

/-- A cone entry that will fail at the commit of a whole pass: its ring position, cause and thread. -/
def State.coneFails (s : State) (n : Nat) (p : Pass) (x : SiteRec) (ring : Nat) : Option (Nat × Cause × Nat) :=
  let (t, all) := s.commitPass n p x ring p.inFlight
  if all && p.gone.isEmpty then (t.commitCone n p).bind (·.2) else none

/-- The pass of a block whose threads commit together has reached its end (R180, R408, R418). -/
def State.endTogether (s : State) (n : Nat) (p : Pass) : State :=
  match p.image.control with
  | [] => s
  | (site, x) :: _ =>
    let c := s.cell n
    let ring := site - 256
    let fl := p.inFlight
    let worst := fl.filterMap fun i => worstOf (c.fabric.reportsOf p i)
    let cone := worstOf (c.fabric.poison.filter fun e => e.pass == p.id && e.cone)
    match (worst ++ cone.toList).find? fun e => e.rank == 3 with
    | some e => s.endWorldOf n e.cause
    | none =>
      if p.image.hasStin && worst.any fun e => e.rank == 1 then
        (worst.filter fun e => e.rank == 1).foldl (fun s e => s.recover n p e) (s.abandonPass n p)
      else match cone.map fun e => (e.rank, e) with
        | some (2, e) => (s.parkPass n p e.cause e.detail).finishPass n p
        | some (_, e) => (s.abandonPass n p).recover n p e
        | none =>
          match s.coneFails n p x ring with
          | some (r, cz, _) => (s.parkPass n p cz (BitVec.ofNat 16 r)).finishPass n p
          | none =>
          let (t, all) := s.commitPass n p x ring fl
          if all then t.endCone n p else t

/-- The oldest pass ends once the pass-end has passed every site and its commits have performed. -/
def execPassEnd (cell : Nat) (s : State) : Host.Outcome State Fault Refusal :=
  let c := s.cell cell
  if !c.enginesRun || c.phase.st != .running then .next s
  else
    let s := s.onCell cell Cell.drainQueue
    let c := s.cell cell
    match c.fabric.passes with
    | [] => .next s
    | p :: _ =>
      if !c.fabric.allPassed p then .next s
      else if !p.image.together then .next (if p.inFlight.isEmpty then s.closePass cell p else s)
      else if p.inFlight.isEmpty then .next (s.endCone cell p)
      else .next (s.endTogether cell p)

end Sys2Proof.Machine
end

