-- ==== Sys2Proof/Machine/Residency.lean ====
section
/-! DEFINITION. Resident packages in the cells: the digest check at each entry (R59, R271), the configuration cache (R227,
R448) and the configurations that a launch lists (R102, R103). -/

namespace Sys2Proof.Machine

/-! ### Digests (R59) -/

/-- The block segment of a package agrees with its digest. -/
def Package.blocksOk (v : Package) : Bool := (Config.sha384 v.blocks.flatten).toNat == v.blockDigest

/-- The kernel's code agrees with its digest. -/
def Kernel.codeOk (k : Kernel) : Bool :=
  (Config.sha384 (k.code.flatMap fun w => leBytes 4 w.toNat)).toNat == k.codeDigest

/-- A resident package of a world. -/
def State.package? (s : State) (w handle : Nat) : Option Package := (s.world? w).bind fun v => Map.get? v.packages handle

/-- A segment of a package has failed its digest in a cell: the package is removed and its world ends (R59, R271). -/
def State.packageBroken (s : State) (w handle cell : Nat) : State :=
  (s.onWorld w fun v => { v with packages := Map.erase v.packages handle }).endWorld w Cause.sealFail.code cell 0

/-- The package that a configuration identifier names for a cell: the running one. -/
def State.ownPackage (s : State) (c : Cell) (ident : W32) : Option Package :=
  let h := (ident.extractLsb' 16 16).toNat
  if h = 0 ∨ h = c.ident.handle then s.package? c.ident.world c.ident.handle else none

/-- The blocks of the package that a cell runs agree with their digest. -/
def State.blocksOk (s : State) (n : Nat) : Bool :=
  let i := (s.cell n).ident
  (s.package? i.world i.handle).all Package.blocksOk

/-! ### The configuration cache (R227, R448) -/

/-- Drop the least recently loaded images, other than those to keep, until n more bytes and one more image fit; the fuel is the
number of images. -/
def trimCache (keep : List W32) (n : Nat) : Nat → List (W32 × Nat) → List (W32 × Nat)
  | 0, l => l
  | k + 1, l =>
    if l.length < 16 ∧ (l.map (·.2)).sum + n ≤ 65536 then l
    else match l.find? fun e => !keep.contains e.1 with
      | some e => trimCache keep n k (l.erase e)
      | none => l

def Cell.cacheHas (c : Cell) (ident : W32) : Bool := c.cache.any fun e => e.1 == ident

/-- An image enters the cache unless it is there. The current block's image stays: that of the pass chosen last. Since an image is
at most 16 KiB, the two fit, and the limits of 16 images and 64 KiB hold. -/
def Cell.cacheLoad (c : Cell) (m : Image) : Cell :=
  if c.cacheHas m.ident then c
  else
    let keep := (c.fabric.passes.getLast?.map fun p => p.image.ident).toList
    { c with cache := trimCache keep m.bytes (c.cache.length + 1) c.cache ++ [(m.ident, m.bytes)] }

/-! ### The configurations of a launch (R102, R103) -/

/-- The identifiers of the first 16 images of a package's block segment (log 28). -/
def Package.configs (k : Package) (handle : Nat) : List W32 :=
  tabulate (min 16 k.blocks.length) fun i => BitVec.ofNat 16 handle ++ BitVec.ofNat 16 i

/-- A started cell fetches the configurations that its launch lists; an image whose form is wrong does not enter. -/
def Cell.prefetch (c : Cell) (k : Package) (configs : List W32) : Cell :=
  configs.foldl (fun c ident =>
    match (k.blocks[(ident.extractLsb' 0 16).toNat]?).bind (parseImage ident) with
    | some m => c.cacheLoad m
    | none => c) c

end Sys2Proof.Machine
end

