-- ==== Sys2Proof/Machine/Scheduler.lean ====
section
/-! DEFINITION. The block scheduler: the choice of a block (R110 to R113), and the issue of tokens and of the pass-end marker
through the live-slot ports and the stream ports of a block (R110, R215, R230, R418). -/

namespace Sys2Proof.Machine

/-! ### The choice of a block (R110 to R113) -/

/-- An eligible block: a gate whose threads all wait, or an ordinary block with a ready thread (R112). -/
def Cell.eligible (c : Cell) (b : Nat) : Bool := if c.isGate b then c.gateReady b else !(c.phase.ready b).isEmpty

/-- The block with the largest measure, ties to the lowest number. -/
def largest (f : Nat → Nat) : List Nat → Option Nat
  | [] => none
  | b :: r => match largest f r with
    | none => some b
    | some c => if f b < f c then some c else some b

/-- `choose_block` of R113: the chosen block among the eligible ones. -/
def Phase.choose (p : Phase) (elig : List Nat) : Option Nat :=
  let starved := elig.filter fun b => decide (p.gap ≤ Map.get 0 p.skip b)
  if starved.isEmpty then largest (fun b => (p.ready b).length) elig else largest (fun b => Map.get 0 p.skip b) starved

/-- The skip counts after a choice, saturating at 65,535. -/
def Phase.skipOthers (p : Phase) (elig : List Nat) (c : Nat) : Phase :=
  { p with skip := Map.set 0 ((elig.filter (· != c)).foldl (fun m b => Map.set 0 m b (min 65535 (Map.get 0 m b + 1))) p.skip) c 0 }

/-- The threads that a pass takes, in cyclic order from the cursor under a pass-size limit (R110). -/
def Phase.passThreads (p : Phase) (b : Nat) (gate : Bool) : List Nat :=
  let ready := p.ready b
  if gate ∨ p.passmax = 0 then ready
  else
    let cur := Map.get 0 p.cursor b
    ((ready.filter fun i => decide (cur ≤ i)) ++ ready.filter fun i => decide (i < cur)).take p.passmax

/-- Take a pass's threads from the wait vector and move the cursor. -/
def Phase.takeThreads (p : Phase) (b : Nat) (gate : Bool) (l : List Nat) : Phase :=
  { p with
    wait := Map.set 0 p.wait b (bitsOff (p.waitOf b) l)
    cursor := if gate ∨ p.passmax = 0 then p.cursor else Map.set 0 p.cursor b ((l.getLastD 0 + 1) % 4096)
    nextPass := p.nextPass + 1 }

/-- A new pass of an image, its threads in ascending number. -/
def newPass (id : Nat) (m : Image) (l : List Nat) (start : Nat) : Pass where
  id := id
  image := m
  threads := sortBy (fun a b => decide (a ≤ b)) l
  issued := []
  gone := []
  done := []
  ended := false
  start := start

/-- The scheduler starts a pass of a block. -/
def Cell.startPass (c : Cell) (elig : List Nat) (b : Nat) (m : Image) (now : Nat) : Cell :=
  let l := c.phase.passThreads b m.gate
  let id := c.phase.nextPass
  let c := c.cacheLoad m
  { c with
    phase := (c.phase.skipOthers elig b).takeThreads b m.gate l
    fabric := { c.fabric with passes := c.fabric.passes ++ [newPass id m l now] } }

/-- The block that would be chosen now. -/
def Cell.eligibles (c : Cell) : List Nat := (List.range 64).filter c.eligible
def Cell.choice (c : Cell) : Option Nat := c.phase.choose c.eligibles

/-- A chosen block runs, if it is bound. An image that enters the cache again is checked against its digest (R59). -/
def State.startBlock (s : State) (cell b : Nat) : State :=
  let c := s.cell cell
  match Map.get? c.bound b with
  | none => s
  | some m =>
    if c.cacheHas m.ident then s.setCell cell (c.startPass c.eligibles b m s.timebase)
    else if !s.blocksOk cell then s.packageBroken c.ident.world c.ident.handle cell
    else
      let s := s.countCell cell 8 1
      s.setCell cell ((s.cell cell).startPass c.eligibles b m s.timebase)

/-! ### Ports (R230, R409, R418) -/

def At.ring (a : At) : Nat := a.site - 256

/-- The ports that issue together with one of them: every `LIN` and `STIN` of its block. -/
def At.ports (a : At) : List At :=
  a :: (a.p.image.ports.filter (· != a.site)).filterMap fun q => (a.p.rec? q).map fun x => { a with site := q, x := x }

/-- How much the ports of a pass have issued: its threads, and then the pass-end. -/
def At.issued (a : At) : Nat := Map.get 0 a.p.issued a.site
def At.countIssue (a : At) (c : Cell) : Cell :=
  c.withFabric fun f => f.setPass { a.p with issued := a.ports.foldl (fun m b => Map.put m b.site (a.issued + 1)) a.p.issued }

def At.isStin (a : At) : Bool := a.x.op == 0x6B

/-- A port can issue: its outputs have room, no marker waits on it, and a token of its stream is there where one is needed. -/
def At.mayIssue (b : At) (c : Cell) (data : Bool) : Bool :=
  b.mayWrite c b.outs && (c.carry b.site).empty && !(data && b.isStin && (Map.get [] c.fabric.stin b.ring).isEmpty)

/-- The elements of a port token land when it is taken: in their stream, or in the barrier alone (R246, R366, R418). -/
def State.landItem (s : State) (n : Nat) (x : StinItem) : State :=
  match x.mode, Map.get? (s.cell n).streams x.st with
  | .live, some st => s.landed n x.st st x.elems
  | _, _ => s.onCell n fun c => c.barrierLand x.bar x.bytes

/-- A port issues for thread i: the slot of a `LIN`, or the next token of a `STIN`, which acquires at the stream's scope and whose
markers follow it (R185, R228, R241, R418). -/
def State.issuePort (s : State) (b : At) (i : Nat) : State :=
  if b.isStin then
    match Map.get [] (s.cell b.n).fabric.stin b.ring with
    | [] => s
    | x :: rest =>
      (s.onCell b.n fun c =>
        let c := c.withFabric fun f => { f with
          stin := Map.set [] f.stin b.ring rest, stinKept := f.stinKept ++ [(b.p.id, b.ring, x)] }
        let c := b.write c b.outs (b.tok .data i x.word (b.tans c.ident.tw fun k => x.tans.getD k 0))
        (c.pendLevels b.site x.levels i).acquire x.scope).landItem b.n x
  else s.onCell b.n fun c =>
    let l := c.liveSlot i (b.x.r.imm8.toNat % 64)
    b.write c b.outs (b.tok .data i (l.headD 0) (b.tans c.ident.tw fun k => l.tail.getD k 0))

/-- The token of a thread issues at every port of the block in one cycle (R230, R281 event 1). -/
def State.issueToken (s : State) (a : At) (i : Nat) : State :=
  (a.ports.foldl (fun s b => s.issuePort b i) (s.onCell a.n a.countIssue)).countCell a.n 1 1

/-- The pass-end marker enters at every port, with the number of the next block where one is eligible. -/
def At.issueEnd (a : At) (c : Cell) : Cell :=
  let v := BitVec.ofNat 32 (c.choice.getD 0)
  a.ports.foldl (fun c b => b.close (b.write c b.outs (b.tok .passEnd (a.p.threads.getLastD 0) v []))) (a.countIssue c)

/-- The scheduler issues the pass-end and chooses in the same cycle (R110, R219). -/
def State.issuePassEnd (s : State) (a : At) : State :=
  let c := s.cell a.n
  let s := s.setCell a.n (a.issueEnd c)
  match c.choice with
  | none => s
  | some b => s.startBlock a.n b

/-- The step of a port: a marker that waits there goes first; then the next token of the pass, or its end, once every port of
the block can issue. -/
def issueStep (s : State) (op : BitVec 7) (r : ElemRec) : Host.Outcome State Fault Refusal :=
  match s.atSite op r with
  | none => .next s
  | some a =>
    let c := s.cur
    let i := a.p.threads[a.issued]?
    if !(c.carry a.site).empty then .next (s.putLevel a)
    else if !a.ports.all fun b => b.mayIssue c i.isSome then .next s
    else match i with
      | some i => .next (s.issueToken a i)
      | none => .next (s.issuePassEnd a)

end Sys2Proof.Machine
end

