-- ==== Sys2Proof/Machine/EdgeOps.lean ====
section
/-! DEFINITION. The edge nodes: live-slot ports (R409), memory nodes (R410 to R414), engine ports (R416 to R420) and control
nodes (R421). -/

namespace Sys2Proof.Machine

/-! ### Shared operations -/

def At.inCone (a : At) : Bool := a.p.image.cone.contains a.site

/-- T when a node moves tangent planes: D is set on `f32`. -/
def At.dualT (a : At) (c : Cell) : Nat := if a.x.r.d && a.x.r.ty == .f32 then c.ident.tw else 0

/-- A node reports why it poisons a thread's token, and passes the poisoned token on (R233). -/
def State.poisonAt (s : State) (a : At) (thread : Nat) (watch : Bool) (cause : Cause) (addr : Nat) (detail : BitVec 16) : State :=
  let x : Poison := {
    pass := a.p.id, thread := thread, watch := watch, cause := cause, addr := addr, ring := a.ring, detail := detail
    cone := a.inCone }
  (s.onCell a.n fun c => (a.take c).withFabric fun f => { f with poison := f.poison ++ [x] }).passPoison a thread

/-- A node whose input is poisoned makes no access and no entry. -/
def State.passOn (s : State) (a : At) (thread : Nat) : State := (s.onCell a.n a.take).passPoison a thread

/-- The leaf that covers an address disagrees with the Orangery or the sealed-region table (R131). -/
def State.disagrees (s : State) (n : Nat) (va : Word) : Bool :=
  match s.world? (s.cell n).ident.world with
  | none => false
  | some v => match v.leafAt va.toNat with
    | none => false
    | some (b, l) => l.evicted.isNone && !s.agrees v va.toNat (l.pa + (va.toNat - b)) l

/-- Go on with a node's check, or poison its token: a missing page is recoverable, or PERM where NOMAP has answered or the
fault ring is off (R99, R131); a disagreement of the tables ends the world at once (R235). -/
def State.nodeChk {α : Type} (s : State) (a : At) (thread : Nat) (vas : List Word) (r : Chk α) (k : α → State) : State :=
  let ring := BitVec.ofNat 16 a.ring
  match r with
  | .ok x => k x
  | .trap c ad => s.poisonAt a thread false c ad.toNat ring
  | .hold va =>
    let answered := (s.cell a.n).phase.denied.contains (thread, va / pageBytes)
    if !s.fring.en || answered then (s.countDenied a.n answered).poisonAt a thread false .perm va ring
    else s.poisonAt a thread false .xlate va ring
  | .endWorld c =>
    if vas.any (s.disagrees a.n) then s.endWorldOf a.n c else s.poisonAt a thread false c (vas.headD 0).toNat ring

/-- Go on with a node's loads once the answers of other modules are there; a refusal poisons the token with PERM (R36, R443). -/
def State.nodeReply (s : State) (a : At) (thread : Nat) (l : List (Loc × Nat)) (op : RemoteOp) (k : State → State) : State :=
  match s.remoteTurn a.n (l.map fun x => (x.1, x.2, op)) with
  | (s, .wait) => s
  | (s, .go) => k s
  | (s, .refused va) => s.poisonAt a thread false .perm va (BitVec.ofNat 16 a.ring)

/-- The virtual address of a memory node: code 6 in srcB gives imm8 as the high half (R410). -/
def At.va (a : At) (x : AluIn) : Word :=
  let hi : W32 := if a.x.r.srcB = .imm then a.x.r.imm8.zeroExtend 32 else x.b.v
  (hi ++ x.a.v : BitVec (32 + 32))

/-- The scope of a scoped node (R320, R410). -/
def At.scope (a : At) : Scope := Scope.ofBits a.x.r.var

/-- The addresses of a node's primal word and its tangents (R145, R411). -/
def At.vas (a : At) (c : Cell) (va : Word) : List Word :=
  va :: tabulate (a.dualT c) fun k => va + BitVec.ofNat 64 (k + 1) * c.seq.ktstride

/-- The checks of R410, and of the tangent planes after them (R411). -/
def State.nodeLocs (s : State) (a : At) (k : Access) (write : Bool) (va : Word) (sc : Option Scope) : Chk (List Loc) :=
  let c := s.cell a.n
  let t := a.dualT c
  if t = 0 then (s.access a.n k 4 va sc).andThen fun l => .ok [l]
  else
    (s.access a.n (.dual write) 4 va sc).andThen fun l0 =>
    (Chk.need (c.seq.ktstride != 0 && c.seq.ktstride.toNat % 64 == 0) .combo 0).andThen fun _ =>
    (a.vas c va).tail.foldl (fun r v =>
      r.andThen fun ls => (s.access a.n (.tangent write) 4 v sc).andThen fun l => .ok (ls ++ [l])) (.ok [l0])

/-- What a thread's load adds when it commits: an L1 miss, and a fill from where the line lies (R72, R235). -/
def State.fillsOf (s : State) (n thread pa : Nat) : List (Nat × Nat × Nat) :=
  let l := paLocal pa
  let p := partOfCell n
  if paModule pa ≠ s.pod.self then []
  else (thread, p, 2) :: (if (Map.get? s.lines (pa / 64)).isSome || !(isHbm l || isTier l) then []
    else [(thread, s.homePart pa, if isHbm l then 0 else 1)])

/-- A speculative load of one word by a thread: from the cell's L1, or from memory, which fills it (R138, R235). -/
def State.threadLoad (s : State) (n thread : Nat) (l : Loc) : State × W32 :=
  match Map.get? (s.cell n).l1 (l.pa / 64) with
  | some line => (s, BitVec.ofNat 32 (leAt line (l.pa % 64) 4))
  | none =>
    let fills := s.fillsOf n thread l.pa
    let s := if paModule l.pa = s.pod.self then s.touch n l.cls l.pa false true else s
    let v := s.load l.pa 4
    let s := s.onCell n fun c => c.withFabric fun f => { f with specFills := f.specFills ++ fills }
    (if l.cls = .norm then s.l1Fill n (l.pa / 64) else s, BitVec.ofNat 32 v)

/-- The value and tangents of a load go to the output; nothing more once a failed check has ended the world. -/
def State.nodeResult (s : State) (a : At) (thread : Nat) (v : W32) (tans : List W32) : State :=
  if (s.cell a.n).run = .idle then s
  else s.onCell a.n fun c =>
    a.write (a.take c) a.outs (a.tok .data thread v (if tans = [] then List.replicate c.ident.tw 0 else tans))

/-- A node that reads: its output has room, and its input is not poisoned. -/
def readNode (s : State) (op : BitVec 7) (r : ElemRec) (k : At → AluIn → State) : Host.Outcome State Fault Refusal :=
  fireSite s op r s.passMarker fun a ts =>
    let x := a.input ts
    if !a.mayWrite s.cur a.outs then s else if anyPoison ts then s.passOn a x.thread else k a x

/-- A node with a store-queue entry of a weight: it also waits for room in the queue (R232). -/
def storeNode (s : State) (op : BitVec 7) (r : ElemRec) (weight : Cell → At → Nat) (k : At → AluIn → State) :
    Host.Outcome State Fault Refusal :=
  fireSite s op r s.passMarker fun a ts =>
    let x := a.input ts
    if !a.mayWrite s.cur a.outs then s
    else if anyPoison ts then s.passOn a x.thread
    else if decide (2048 < s.cur.fabric.sqUsed + weight s.cur a) then s
    else k a x

/-- Put an entry into the queue and give a result token (R232). -/
def State.enqueue (s : State) (a : At) (thread : Nat) (k : SqKind) (result : Tok) : State :=
  s.onCell a.n fun c =>
    let e : SqEntry := { pass := a.p.id, thread := thread, ring := a.ring, kind := k, cone := a.inCone }
    a.write ((a.take c).withFabric fun f => { f with sq := f.sq ++ [e] }) a.outs result

/-- A result token of value 0 for ordering. -/
def At.zeroTok (a : At) (c : Cell) (thread : Nat) : Tok := a.tok .data thread 0 (List.replicate c.ident.tw 0)

def oneEntry (_ : Cell) (_ : At) : Nat := 1

/-! ### Live-slot ports (R230, R409) -/

def execElemLin (r : ElemRec) (s : State) : Host.Outcome State Fault Refusal := issueStep s 0x50 r

def execElemLout (r : ElemRec) (s : State) : Host.Outcome State Fault Refusal :=
  fireSite s 0x51 r s.passMarker fun a ts =>
    let x := a.input ts
    let c := s.cur
    let k : SqKind := .lout (r.imm8.toNat % 64) x.a.v (a.tans c.ident.tw x.a.tan) ((ts.head?.bind fun t => t.2.atm))
    if !a.mayWrite c a.outs then s
    else if anyPoison ts then s.passOn a x.thread
    else if !c.fabric.sqFits k then s
    else s.enqueue a x.thread k (a.zeroTok c x.thread)

/-! ### Memory nodes (R411 to R414) -/

/-- `LD` and `LDAQ`: the primal and, with D on `f32`, the tangents from their planes. -/
def loadNode (s : State) (op : BitVec 7) (r : ElemRec) (sc : Option Scope) : Host.Outcome State Fault Refusal :=
  readNode s op r fun a x =>
    let va := a.va x
    s.nodeChk a x.thread (a.vas s.cur va) (s.nodeLocs a .load false va sc) fun ls =>
      s.nodeReply a x.thread (ls.zip ((a.vas s.cur va).map (·.toNat))) (.load 4) fun s =>
      let s := match sc with
        | some c => s.acquire a.n c
        | none => s
      let y := ls.foldl (fun (y : State × List W32) l =>
        let (s, v) := y.1.threadLoad a.n x.thread l
        (s, y.2 ++ [v])) (s, [])
      let s := match sc with
        | some c => y.1.acquire a.n c
        | none => y.1
      s.nodeResult a x.thread (y.2.headD 0) y.2.tail

def execElemLd (r : ElemRec) (s : State) : Host.Outcome State Fault Refusal := loadNode s 0x58 r none
def execElemLdaq (r : ElemRec) (s : State) : Host.Outcome State Fault Refusal := loadNode s 0x5A r (some (Scope.ofBits r.var))

/-- `LDFE`: the value of a full word, as an acquire; an empty word poisons the token with a watch (R140, R141). -/
def execElemLdfe (r : ElemRec) (s : State) : Host.Outcome State Fault Refusal :=
  readNode s 0x5D r fun a x =>
    let va := a.va x
    s.nodeChk a x.thread [va] (s.access a.n .feRead 4 va (some a.scope)) fun l =>
      s.nodeReply a x.thread [(l, va.toNat)] .fepeek fun s =>
      if s.isFull l.pa then
        let (s, v) := s.threadLoad a.n x.thread l
        (s.acquire a.n a.scope).nodeResult a x.thread v []
      else s.poisonAt a x.thread true .xlate l.pa (BitVec.ofNat 16 a.ring)

/-- `ST` and `STRL`. -/
def wordStore (s : State) (op : BitVec 7) (r : ElemRec) (sc : Option Scope) : Host.Outcome State Fault Refusal :=
  storeNode s op r (fun c a => 1 + a.dualT c) fun a x =>
    let c := s.cur
    let va := a.va x
    s.nodeChk a x.thread (a.vas c va) (s.nodeLocs a .store true va sc) fun ls =>
      s.enqueue a x.thread (.store (ls.map (·.pa)) (x.c.v :: tabulate (a.dualT c) x.c.tan) sc) (a.zeroTok c x.thread)

def execElemSt (r : ElemRec) (s : State) : Host.Outcome State Fault Refusal := wordStore s 0x59 r none
def execElemStrl (r : ElemRec) (s : State) : Host.Outcome State Fault Refusal := wordStore s 0x5B r (some (Scope.ofBits r.var))

def execElemStfe (r : ElemRec) (s : State) : Host.Outcome State Fault Refusal :=
  storeNode s 0x5E r oneEntry fun a x =>
    let va := a.va x
    s.nodeChk a x.thread [va] (s.access a.n .feWrite 4 va (some a.scope)) fun l =>
      s.enqueue a x.thread (.stfe l.pa va.toNat x.c.v a.scope) (a.zeroTok s.cur x.thread)

/-- `ATM`: its token stands for the old value, which is there only at the commit (R413). -/
def execElemAtm (r : ElemRec) (s : State) : Host.Outcome State Fault Refusal :=
  storeNode s 0x5C r oneEntry fun a x =>
    let va := a.va x
    s.nodeChk a x.thread [va] (s.access a.n .atomic 4 va (some a.scope)) fun l =>
      let (v, s) := s.takeFree
      s.enqueue a x.thread (.atm l.pa (r.imm8.setWidth 4) x.c.v (Order.ofBits r.lvl) a.scope)
        { a.zeroTok s.cur x.thread with value := BitVec.ofNat 32 v, atm := some a.ring }

/-- The scratch address of a node (R414). -/
def nodeScratch (v : W32) : Chk Nat :=
  if v.toNat ≥ 0x100000 then .trap .perm (v.zeroExtend 64)
  else if v.toNat % 4 ≠ 0 then .trap .align (v.zeroExtend 64) else .ok v.toNat

def execElemLds (r : ElemRec) (s : State) : Host.Outcome State Fault Refusal :=
  readNode s 0x5F r fun a x =>
    s.nodeChk a x.thread [] (nodeScratch x.a.v) fun sa =>
      s.nodeResult a x.thread (BitVec.ofNat 32 (leNat (s.cur.scratchRead sa 4))) []

def execElemSts (r : ElemRec) (s : State) : Host.Outcome State Fault Refusal :=
  storeNode s 0x60 r oneEntry fun a x =>
    s.nodeChk a x.thread [] (nodeScratch x.a.v) fun sa => s.enqueue a x.thread (.sts sa x.b.v) (a.zeroTok s.cur x.thread)

/-- `PFT`: a speculative fill that counts nowhere and never poisons; a disagreement of the tables ends the world (R131, R414). -/
def execElemPft (r : ElemRec) (s : State) : Host.Outcome State Fault Refusal :=
  fireSite s 0x61 r s.passMarker fun a ts =>
    let x := a.input ts
    let va := a.va x
    let s' := s.onCell a.n a.take
    if anyPoison ts then s'
    else match s.access a.n .load 4 va none with
      | .ok l =>
        if l.cls = .norm ∧ paModule l.pa = s.pod.self then
          let s' := s'.touch a.n .norm l.pa false true
          if (s'.cell a.n).run = .idle then s'
          else s'.l1Fill a.n (l.pa / 64)
        else s'
      | .endWorld c => if s.disagrees a.n va then s.endWorldOf a.n c else s'
      | _ => s'

/-! ### Engine ports (R416 to R420) -/

/-- An issued Arbour operation names one of some tiles (R187). -/
def Cell.tileNamed (c : Cell) (lo hi : Nat) : Bool := c.tileAwaited c.nextSerial lo hi

/-- The tiles of a node: its own, and the tangents' with D. -/
def At.tileTop (a : At) (c : Cell) : Nat := a.x.r.imm8.toNat % 8 + a.dualT c

def execElemAcrd (r : ElemRec) (s : State) : Host.Outcome State Fault Refusal :=
  readNode s 0x68 r fun a x =>
    let c := s.cur
    let t := r.imm8.toNat % 8
    if x.a.v.toNat ≥ 12288 then s.poisonAt a x.thread false .perm 0 (BitVec.ofNat 16 a.ring)
    else if c.tileNamed t (a.tileTop c) then s
    else s.nodeResult a x.thread (Map.get 0 c.tiles (tileKey t 0 x.a.v.toNat))
      (tabulate (a.dualT c) fun k => Map.get 0 c.tiles (tileKey (t + k + 1) 0 x.a.v.toNat))

def execElemAcwr (r : ElemRec) (s : State) : Host.Outcome State Fault Refusal :=
  storeNode s 0x69 r oneEntry fun a x =>
    let c := s.cur
    let t := r.imm8.toNat % 8
    if x.a.v.toNat ≥ 12288 then s.poisonAt a x.thread false .perm 0 (BitVec.ofNat 16 a.ring)
    else if c.tileNamed t (a.tileTop c) then s
    else s.enqueue a x.thread (.acwr t x.a.v.toNat (x.b.v :: tabulate (a.dualT c) x.b.tan)) (a.zeroTok c x.thread)

/-- The descriptor that a type gives the slots of `AFPUSH` (R417). -/
def afDesc : ElTy → Desc
  | .i8x4 => { fmt := 0x50, scale := 0 }
  | .n8x4 => { fmt := 0x40, scale := 0 }
  | .bf16x2 => { fmt := 0x80, scale := 0 }
  | _ => { fmt := 0x13, scale := 0 }

/-- Tangent slots after each row: T rows of 4 slots with D (R244, R417). -/
def afTans (c : Cell) (r : ElemRec) : Nat := if r.d then 4 * c.ident.tw else 0

/-- A marker at `AFPUSH` enters the store queue behind the entries before it (R417). -/
def State.afMarker (s : State) (a : At) (t : Tok) (ls : List Nat) : State :=
  let c := s.cell a.n
  let k : SqKind := .afmark a.site (a.x.r.imm8.toNat % 2) (afDesc a.x.r.ty) (afTans c a.x.r) (t.kind == .passEnd)
  let e : SqEntry := { pass := a.p.id, thread := t.thread, ring := a.ring, kind := k, cone := a.inCone }
  if a.mayWrite c (a.markOuts t) && c.fabric.sqFits k then
    (s.passMarker a t ls).onCell a.n fun c => (c.withFabric fun f => { f with sq := f.sq ++ [e] }).drainQueue
  else s

def execElemAfpush (r : ElemRec) (s : State) : Host.Outcome State Fault Refusal :=
  fireSite s 0x6A r s.afMarker fun a ts =>
    let x := a.input ts
    let c := s.cur
    let k : SqKind := .afpush a.site (r.imm8.toNat % 2) (afDesc r.ty) (afTans c r) x.a.v
    if !a.mayWrite c a.outs then s
    else if anyPoison ts then s.passOn a x.thread
    else if !c.fabric.sqFits k then s
    else s.enqueue a x.thread k (a.zeroTok c x.thread)

/-- `STIN`: the next token of the port at each issue (R418). -/
def execElemStin (r : ElemRec) (s : State) : Host.Outcome State Fault Refusal := issueStep s 0x6B r

/-- Words in a `STOUT` buffer, reserved ones included (R419). -/
def Cell.stoutUsed (c : Cell) (ring : Nat) : Nat :=
  (Map.get [] c.fabric.stout ring).foldl (fun n e => n + 1 + e.2.length) 0
    + c.fabric.sq.foldl (fun n e => match e.kind with
      | .stout q vals => if q = ring then n + vals.length else n
      | _ => n) 0

def execElemStout (r : ElemRec) (s : State) : Host.Outcome State Fault Refusal :=
  storeNode s 0x6C r oneEntry fun a x =>
    let c := s.cur
    let vals := x.a.v :: (if r.d then a.tans c.ident.tw x.a.tan else [])
    if decide (c.stoutUsed a.ring + vals.length ≤ 4096) then s.enqueue a x.thread (.stout a.ring vals) (a.zeroTok c x.thread)
    else s

def execElemBkadd (r : ElemRec) (s : State) : Host.Outcome State Fault Refusal :=
  storeNode s 0x6D r oneEntry fun a x =>
    let va := a.va x
    s.nodeChk a x.thread [va] (s.access a.n .atomic 4 va (some a.scope)) fun l =>
      s.enqueue a x.thread (.bkadd l.pa (r.ty == .f32) x.c.v) (a.zeroTok s.cur x.thread)

/-! ### Control nodes (R232, R233, R421) -/

/-- A marker at the control node goes no further; the pass-end ends the pass there (R219). -/
def State.controlMarker (s : State) (a : At) (t : Tok) (ls : List Nat) : State :=
  s.onCell a.n fun c =>
    let c := a.takeMarker c ls
    if t.kind = .passEnd then a.close (c.withFabric fun f => f.setPass { a.p with ended := true }) else c

/-- The control node fires: the thread commits or its poison takes effect; in a block that commits together the value waits for
the end of the pass. -/
def controlStep (s : State) (op : BitVec 7) (r : ElemRec) : Host.Outcome State Fault Refusal :=
  fireSite s op r s.controlMarker fun a ts =>
    let x := a.input ts
    let took (s : State) : State := s.onCell a.n a.take
    if a.p.image.together then
      (took s).onCell a.n fun c => c.withFabric fun f => f.setPass { a.p with done := a.p.done ++ [(x.thread, x.a.v)] }
    else if anyPoison ts then
      match worstOf (s.cur.fabric.reportsOf a.p x.thread) with
      | some e => (took s).poisoned a.n a.p x.thread e
      | none => took s
    else ((took s).commitThread a.n a.p a.x a.ring x.thread x.a.v).getD s

def execElemNext (r : ElemRec) (s : State) : Host.Outcome State Fault Refusal := controlStep s 0x78 r
def execElemPark (r : ElemRec) (s : State) : Host.Outcome State Fault Refusal := controlStep s 0x79 r

/-- The input token goes on unchanged. -/
def At.sameTok (a : At) (thread : Nat) (x : Opnd) : Tok := a.tok .data thread x.v x.t

def execElemBarv (r : ElemRec) (s : State) : Host.Outcome State Fault Refusal :=
  storeNode s 0x7A r oneEntry fun a x => s.enqueue a x.thread (.barv (r.imm8.toNat % 32)) (a.sameTok x.thread x.a)

def execElemTrapx (r : ElemRec) (s : State) : Host.Outcome State Fault Refusal :=
  readNode s 0x7B r fun a x =>
    if x.a.v ≠ 0 then s.poisonAt a x.thread false .soft 0 (r.imm8.zeroExtend 16)
    else s.onCell a.n fun c => a.write (a.take c) a.outs (a.sameTok x.thread x.a)

end Sys2Proof.Machine
end

