-- ==== Sys2Proof/Machine/Events.lean ====
section
/-! DEFINITION. Barriers, event lines, counters, gate terms and the timer: R247, R258 to R260, R353, R374 to R376. -/

namespace Sys2Proof.Machine

/-! ### Barriers (R374) -/

/-- A stream counted by a barrier is issued or armed and has not landed; slots that wait for their refetch count too, and
tokens that a port has not given out (R247, R366, R418, R437). -/
def Cell.barrierBusy (c : Cell) (b : Nat) : Bool :=
  (c.streams.any fun e => e.2.cmd.bar == some b)
    || c.fifos.any fun f => f.2.slots.any fun x => !x.present && (match x.origin with
      | some o => o.1.bar == some b
      | none => false)
    || c.fabric.stin.any fun e => e.2.any fun x => x.bar == some b

def execBinit (b : BitVec 5) (y z : Reg) (s : State) : Host.Outcome State Fault Refusal :=
  let c := s.cur
  let a := (c.reg y).toNat
  let l := (c.reg z).toNat
  if !(decide (1 ≤ a ∧ a ≤ 65535) && (l == 0 || decide (24 ≤ l ∧ l ≤ 31))) then trapNow s false .combo
  else if c.barrierBusy b.toNat then trapNow s false .barrier
  else .next (s.setCur ((c.setBarrier b.toNat
    { p := 0, a := a, complete := false, line := if l = 0 then none else some l, scope := .cell }).retire false))

/-- Bytes that other agents will land (R247); none is no effect. -/
def Cell.expectOk (c : Cell) (b : Nat) (n : Word) : Bool := n == 0 || c.barrierMayAdd b n.toNat

/-- `BARRIVE`: deferred, the barrier is checked at firing (R374). -/
def execBarrive (b : BitVec 5) (gate : Option Reg) (s : State) : Host.Outcome State Fault Refusal :=
  let s := s.release s.focus.cell
  let c := s.cur
  if !c.mayArm gate then trapNow s false .combo
  else match gate with
    | some w => .next (s.settle fun c => (c.arm (c.gateOf w) (.barrive b.toNat) (c.instrWord false)).retire false)
    | none =>
      if c.mayArrive b.toNat then .next (s.settle fun c => (c.arrive b.toNat).retire false) else trapNow s false .barrier

def execBexpect (b : BitVec 5) (y : Reg) (gate : Option Reg) (s : State) : Host.Outcome State Fault Refusal :=
  let c := s.cur
  let n := c.reg y
  if !c.mayArm gate then trapNow s false .combo
  else match gate with
    | some w => .next (s.setCur ((c.arm (c.gateOf w) (.bexpect b.toNat n) (c.instrWord false)).retire false))
    | none =>
      if c.expectOk b.toNat n then .next (s.setCur ((c.barrierAdd (some b.toNat) n.toNat).retire false))
      else trapNow s false .barrier

/-- `BWAITB`: an observation, at the widest scope of the streams counted (R186). -/
def execBwaitb (b : BitVec 5) (s : State) : Host.Outcome State Fault Refusal :=
  if (s.cur.barrier b.toNat).complete then .next ((s.acquire s.focus.cell (s.cur.barrier b.toNat).scope).onCur fun c => c.retire false)
  else .next s

def execBtest (x : Reg) (b : BitVec 5) (s : State) : Host.Outcome State Fault Refusal :=
  let done := (s.cur.barrier b.toNat).complete
  let s := if done then s.acquire s.focus.cell (s.cur.barrier b.toNat).scope else s
  .next (s.onCur fun c => (c.setReg x (flagWord 64 done)).retire false)

/-! ### Gate terms, counters and the timer (R375) -/

/-- The input codes of a gate word, product by product. -/
def gateCodes (w : Word) : List Nat := tabulate 8 fun j => (w.toNat / 2 ^ (6 * j)) % 64

/-- A gate word without a code 48 to 62 and with zeros above (R260). -/
def gateWordOk (w : Word) : Bool :=
  w.extractLsb' 48 16 == 0 && (gateCodes w).all fun k => decide (k < 48) || k == 63

def execEvsetTerm (g : BitVec 4) (y z : Reg) (s : State) : Host.Outcome State Fault Refusal :=
  let c := s.cur
  let lo := c.reg y
  let hi := c.reg z
  if gateWordOk lo && gateWordOk hi && (c.gate g.toNat).armed.isNone then
    .next (s.setCur ((c.setGate g.toNat { lo := lo, hi := hi, armed := none }).retire false))
  else trapNow s false .combo

def execEvsetCounter (i : BitVec 4) (y : Reg) (s : State) : Host.Outcome State Fault Refusal :=
  let c := s.cur
  let w := c.reg y
  let t := (w.extractLsb' 16 16).toNat
  if w &&& ~~~(0xFFFF001F : Word) != 0 || t == 0 then trapNow s false .combo
  else
    let k : Counter := { line := (w.extractLsb' 0 5).toNat, threshold := t, count := 0 }
    .next (s.setCur (({ c with counters := Map.put c.counters i.toNat k } : Cell).retire false))

def execEvsetTimer (y : Reg) (s : State) : Host.Outcome State Fault Refusal :=
  let c := s.cur
  let n := (c.reg y).toNat
  if 1000000 < n then trapNow s false .combo
  else .next (s.setCur ((({ c with timer := if n = 0 then none else some (1000 * n, 0) } : Cell)).retire false))

/-! ### Lines (R376) -/

/-- Clear the lines and zero the counters that a word names. -/
def Cell.clearEvents (c : Cell) (w : Word) : Cell :=
  { c with
    lines := c.lines &&& ~~~(w.setWidth 32)
    counters := c.counters.map fun (e : Nat × Counter) =>
      (e.1, if w.getLsbD (32 + e.1) then { e.2 with count := 0 } else e.2) }

def execEvclr (x : Reg) (s : State) : Host.Outcome State Fault Refusal :=
  let c := s.cur
  let w := c.reg x
  if w.extractLsb' 48 16 != 0 then trapNow s false .combo
  else .next (s.setCur ((c.clearEvents w).retire false))

/-- `EVFIRE` of line 24 + e. -/
def execEvfire (e : BitVec 3) (gate : Option Reg) (s : State) : Host.Outcome State Fault Refusal :=
  let c := s.cur
  if !c.mayArm gate then trapNow s false .combo
  else match gate with
    | some w => .next (s.setCur ((c.arm (c.gateOf w) (.evfire (24 + e.toNat)) (c.instrWord false)).retire false))
    | none => .next (s.setCur ((c.pulse (24 + e.toNat)).retire false))

/-- The reached flags of the 16 counters. -/
def Cell.reachedBits (c : Cell) : BitVec 16 :=
  (List.range 16).foldl (fun v i => if c.reached i then v ||| BitVec.ofNat 16 (2 ^ i) else v) 0

def execEvread (x : Reg) (s : State) : Host.Outcome State Fault Refusal :=
  let c := s.cur
  .next (s.setCur ((c.setReg x (0#16 ++ c.reachedBits ++ c.lines : BitVec (16 + 16 + 32))).retire false))

/-- `WAITEV` (R353). -/
def execWaitev (x : Reg) (s : State) : Host.Outcome State Fault Refusal :=
  let c := s.cur
  let w := c.reg x
  if w.extractLsb' 48 16 != 0 then trapNow s false .combo
  else if w = 0 ∨ c.lines &&& w.setWidth 32 ≠ 0 ∨ c.reachedBits &&& w.extractLsb' 32 16 ≠ 0 then
    .next (s.setCur (c.retire false))
  else .next s

/-- The timer's period has passed: `e23` is set and the next period counts on (R259). -/
def execEventTimer (cell : Nat) (s : State) : Host.Outcome State Fault Refusal :=
  let c := s.cell cell
  match c.timer with
  | none => .next s
  | some (p, t) =>
    if c.enginesRun && decide (p ≤ t) then .next (s.setCell cell (({ c with timer := some (p, t - p) }).pulse 23))
    else .next s

/-! ### Terms (R260, R261) -/

/-- An input of a term is true. -/
def Cell.inputTrue (c : Cell) (k : Nat) : Bool := if k < 32 then c.lineSet k else if k < 48 then c.reached (k - 32) else true

/-- The products of a term, four inputs each. -/
def Gate.products (g : Gate) : List (List Nat) :=
  let l := gateCodes g.lo ++ gateCodes g.hi
  tabulate 4 fun p => (l.drop (4 * p)).take 4

/-- The true products of a term. -/
def Cell.trueProducts (c : Cell) (g : Gate) : List (List Nat) :=
  g.products.filter fun p => !p.all (· == 63) && p.all c.inputTrue

/-- A firing clears each line that its true products name and lowers each counter by its threshold, once. -/
def Cell.consumeInputs (c : Cell) (g : Gate) : Cell :=
  let codes := (c.trueProducts g).flatten.dedup
  { c with
    lines := c.lines &&& ~~~(codes.foldl (fun (v : W32) k => if k < 32 then v ||| BitVec.ofNat 32 (2 ^ k) else v) 0)
    counters := c.counters.map fun (e : Nat × Counter) =>
      (e.1, if codes.contains (32 + e.1) then { e.2 with count := e.2.count - e.2.threshold } else e.2) }

end Sys2Proof.Machine
end

