-- ==== Sys2Proof/Machine/Phase.lean ====
section
/-! DEFINITION. The thread phase: `BRUN`, `BWAIT`, `BCFG`, `BSTAT` and `BKILL` (R107 to R109, R377, R378), and the choice
of a block (R110 to R113). -/

namespace Sys2Proof.Machine

/-! ### The flags word and the live-value store (R107, R108) -/

def flagEntry (w : Word) : Nat := (w.extractLsb' 0 6).toNat
def flagLmax (w : Word) : Nat := (w.extractLsb' 6 6).toNat
def flagGap (w : Word) : Nat := (w.extractLsb' 12 8).toNat
def flagPassmax (w : Word) : Nat := (w.extractLsb' 20 12).toNat
/-- No reserved value. -/
def flagsOk (w : Word) : Bool := w.extractLsb' 32 32 == 0 && flagGap w != 1 && flagLmax w != 0
/-- R108. -/
def phaseFits (n lmax tw : Nat) : Bool := decide (n * (lmax + 1) * (1 + tw) * 4 ≤ 2097152)

/-- The operand checks of `BRUN` (R377). -/
def brunOk (n flags : Word) (tw : Nat) : Bool :=
  decide (n.toNat ≤ 4096) && flagsOk flags && phaseFits n.toNat (flagLmax flags) tw

/-- The checks of `BRUN` that wait for firing: the phase is Idle; the entry is bound and no bound image names a slot above
LMAX. -/
def Cell.brunFails (c : Cell) (flags : Word) : Option Cause :=
  if c.phase.st ≠ .idle then some .combo
  else if (Map.get? c.bound (flagEntry flags)).isNone || c.bound.any fun e => e.2.slotAbove (flagLmax flags) then some .config
  else none

/-- The first n threads as a set. -/
def threadSet (n : Nat) : BitVec 4096 := BitVec.ofNat 4096 (2 ^ n - 1)

/-- Start a phase (R109, R228): with no thread it is Done at once. -/
def Cell.startPhase (c : Cell) (n base flags : Word) : Cell :=
  let k := n.toNat
  let entry := flagEntry flags
  let ph : Phase := { Phase.reset with
    st := if k = 0 then .done else .running
    n := k, entry := entry, lmax := flagLmax flags
    gap := if flagGap flags = 0 then 8 else flagGap flags
    passmax := flagPassmax flags
    wait := Map.set 0 [] entry (threadSet k)
    lastBlock := tabulate k fun i => (i, entry) }
  let c : Cell := { c with phase := ph, errDone := c.errDone + c.phase.errs, fabric := c.fabric.abandoned, written := [] }
  let c := (List.range k).foldl (fun c i =>
    (c.setLiveSlot i 0 (BitVec.ofNat 32 i :: List.replicate c.ident.tw 0)).setLiveSlot i 1
      (base.setWidth 32 :: List.replicate c.ident.tw 0)) c
  if k = 0 then c.pulse 18 else c

def execBrun (x y z : Reg) (gate : Option Reg) (s : State) : Host.Outcome State Fault Refusal :=
  let s := s.release s.focus.cell
  let c := s.cur
  let n := c.reg x
  let flags := c.reg z
  if !brunOk n flags c.ident.tw || !c.mayArm gate then trapNow s false .combo
  else match gate with
    | some w => .next (s.settle fun c => (c.arm (c.gateOf w) (.brun n (c.reg y) flags) (c.instrWord false)).retire false)
    | none => match c.brunFails flags with
      | some cz => trapNow s false cz
      | none => .next (s.settle fun c => (c.startPhase n (c.reg y) flags).retire false)

/-- `BWAIT` (R109). -/
def execBwait (x : Reg) (s : State) : Host.Outcome State Fault Refusal :=
  let c := s.cur
  match c.phase.st with
  | .running => .next s
  | .done => .next (s.setCur (((c.withPhase fun p => { p with st := .idle }).setReg x (BitVec.ofNat 64 c.phase.errs)).retire false))
  | .idle => .next (s.setCur ((c.setReg x 0).retire false))

/-- `BSTAT`. -/
def execBstat (x y : Reg) (s : State) : Host.Outcome State Fault Refusal :=
  let c := s.cur
  let i := (c.reg y).toNat
  if 4095 < i then trapNow s false .combo
  else .next (s.setCur ((c.setReg x ((Map.get 0 c.phase.errWord i).zeroExtend 64)).retire false))

/-- A running phase ends: tokens in flight and what they hold go, unparked threads park without error (R109, R378). -/
def Cell.killPhase (c : Cell) : Cell :=
  let ph := c.phase.parkAll c.phase.unparked c.phase.blockOf none
  ({ c with phase := ph.finish, fabric := { c.fabric.abandoned with stinKept := [] } } : Cell).pulse 18

def execBkill (s : State) : Host.Outcome State Fault Refusal :=
  let n := s.focus.cell
  let c := s.cur
  if c.phase.st ≠ .running then .next (s.setCur (c.retire false))
  else
    let s := (s.meterLost (partOfCell n) 3 c.fabric.lostOps).countCell n 2 c.fabric.inFlight.length
    .next (s.setCur (c.killPhase.retire false))

/-! ### Binding (R59, R226, R378) -/

/-- `BCFG`. -/
def execBcfg (x y : Reg) (s : State) : Host.Outcome State Fault Refusal :=
  let c := s.cur
  let b := c.reg x
  let w := c.reg y
  if c.phase.st = .running || decide (63 < b.toNat) || w.extractLsb' 32 31 != 0 then trapNow s false .combo
  else if w.msb then .next (s.setCur ((({ c with bound := Map.erase c.bound b.toNat } : Cell)).retire false))
  else
    let ident : W32 := w.setWidth 32
    match s.ownPackage c ident with
    | none => trapNow s false .config
    | some pk => match pk.blocks[(ident.extractLsb' 0 16).toNat]? with
      | none => trapNow s false .config
      | some bytes =>
        if !pk.blocksOk then .next (s.packageBroken c.ident.world c.ident.handle s.focus.cell)
        else match parseImage ident bytes with
          | none => trapNow s false .config
          | some m =>
            if m.ok c.ident.tw && m.block == b.toNat then
              .next (s.setCur ((({ c with bound := Map.put c.bound b.toNat m } : Cell).cacheLoad m).retire false))
            else trapNow s false .config

/-! ### The choice of a block (R110) -/

/-- The choice, once every pass in flight has issued its pass-end: a block runs, or the phase may be over. -/
def execBlockChoice (cell : Nat) (s : State) : Host.Outcome State Fault Refusal :=
  let c := s.cell cell
  if !c.enginesRun || c.phase.st != .running || !c.fabric.passes.all Pass.issuedAll then .next s
  else match c.choice with
    | none => .next (s.settlePhase cell)
    | some b => .next (s.startBlock cell b)

end Sys2Proof.Machine
end

