-- ==== Sys2Proof/Machine/Arbour.lean ====
section
/-! DEFINITION. The Arbour: rows and their accumulation (R207 to R210, R249), loading and taking B (R250, R435), consuming rows
(R253 to R257), and the instructions that queue its operations (R368 to R373). -/

namespace Sys2Proof.Machine

/-! ### Rows and groups (R207, R208, R249) -/

/-- Whether a format code belongs to a class: 0 8-bit, 1 4-bit, 2 bf16 (R207). -/
def inClass (cls : Nat) (f : Byte) : Bool :=
  !fmtReserved f && (match cls with
    | 0 => fmtFamily f != .pass && fmtBits f == 8
    | 1 => fmtFamily f != .pass && fmtBits f == 4
    | 2 => f == fmtBf16
    | _ => false)

/-- K of a class (R249). -/
def classK (cls : Nat) : Nat := if cls = 0 then 128 else if cls = 1 then 256 else 64

/-- The element codes of a slot's bytes, k ascending. -/
def slotCodes (cls : Nat) (l : List Byte) : List Nat :=
  match cls with
  | 0 => l.map (·.toNat)
  | 1 => l.flatMap fun b => [b.toNat % 16, b.toNat / 16]
  | _ => tabulate 64 fun i => leAt l (2 * i) 2

/-- The descriptor of group j after an override: the code may change, the scale stays (R251). -/
def FifoSlot.groupDesc (x : FifoSlot) (ovr : Byte) (j : Nat) : Desc :=
  let d := if j < 2 then x.d0 else x.d1
  if ovr = 0 then d else { d with fmt := ovr }

/-- A group: the element values without scale, and the scale; none for a NaN block (R197). -/
structure GroupVals where
  vals  : List Val
  scale : Option Int

/-- Group j of a slot. -/
def FifoSlot.group (x : FifoSlot) (cls : Nat) (ovr : Byte) (j : Nat) : GroupVals :=
  let g := classK cls / 4
  let d := x.groupDesc ovr j
  { vals := ((slotCodes cls x.data).drop (j * g)).take g |>.map (decodeFmt d.fmt), scale := scaleOf d.scale }

/-- Group j of a tangent row: f32 values without a scale (R210). -/
def tanGroup (cls : Nat) (bytes : List Byte) (j : Nat) : GroupVals :=
  let g := classK cls / 4
  { vals := tabulate g fun i => f32Val (BitVec.ofNat 32 (leAt bytes (4 * (j * g + i)) 4)), scale := some 0 }

/-- The rounded sum of a group: exact products and sum, the scales, one rounding (R208, R209). -/
def groupSum (a b : GroupVals) : W32 :=
  match a.scale, b.scale with
  | some sa, some sb =>
    let sum := (a.vals.zip b.vals).foldl (fun (t : Val) p => t.add .rne (p.1.mul p.2)) (.fin false 0 0)
    f32Of .rne (sum.scale (sa + sb))
  | _, _ => f32Of .rne .nan

/-- How an operation's control word begins and ends each element (R251). -/
def ctlM (c : Word) : Nat := (c.extractLsb' 0 9).toNat
def ctlZero (c : Word) : Bool := c.getLsbD 11
def ctlDecay (c : Word) : Bool := c.getLsbD 12
def ctlKeep (c : Word) : Bool := c.getLsbD 13
def ctlOut (c : Word) : Nat := (c.extractLsb' 14 2).toNat
def ctlBovr (c : Word) : Byte := c.extractLsb' 16 8
def ctlAovr (c : Word) : Byte := c.extractLsb' 24 8
def ctlFactor (c : Word) : W32 := c.extractLsb' 32 32

/-- An element before accumulation: zero-first or decay (R208). -/
def accStart (c : Word) (e : W32) : W32 :=
  if ctlZero c then 0 else if ctlDecay c then f32Mul e (ctlFactor c) else e

/-- An element as OUTFMT stores it: bf16 widened, or f32 (R251). -/
def accStore (c : Word) (e : W32) : W32 :=
  if ctlOut c = 1 then BitVec.ofNat 32 (bf16F.round .rne (f32Val e) * 65536) else e

/-- One element of a tile row: the four groups of a row and a column, in order (R208). -/
def accElem (c : Word) (a b : List GroupVals) (e : W32) : W32 :=
  accStore c ((a.zip b).foldl (fun t p => f32Add t (groupSum p.1 p.2)) (accStart c e))

/-- A whole tile row. -/
def accRow (c : Word) (a : List GroupVals) (b : List (List GroupVals)) (row : List W32) : List W32 :=
  (row.zip b).map fun p => accElem c a p.2 p.1

/-- The columns of a B operand, as groups. -/
def BHalf.columns (b : BHalf) (cls : Nat) (ovr : Byte) : List (List GroupVals) :=
  b.slots.map fun x => tabulate 4 (x.group cls ovr)

/-- The first half of a slot whose code is not of the class, with where its descriptor was read. -/
def FifoSlot.badCode (x : FifoSlot) (cls : Nat) (ovr : Byte) : Option Word :=
  if !inClass cls (x.groupDesc ovr 0).fmt then some x.a0
  else if !inClass cls (x.groupDesc ovr 2).fmt then some x.a1
  else none

/-! ### B (R250, R435) -/

def ArbOp.isProduct (o : ArbOp) : Bool := o.kind == .mma || o.kind == .mmag
/-- The B operands an operation takes: none with KEEPB, one, or one for each group. -/
def ArbOp.bNeeds (o : ArbOp) : Nat :=
  if !o.isProduct || ctlKeep o.ctl then 0 else if o.kind = .mmag then ctlM o.ctl else 1
/-- The operation waits for a B before its next row. -/
def ArbOp.wantsB (o : ArbOp) : Bool := decide (o.bTaken < o.bNeeds) && decide (o.bTaken ≤ o.groups)

/-- The FIFO from which the back half loads next: that of the first queued operation that still takes a B, unless an `ATOB`
writes that half first or a `BDROP` of the FIFO comes first. -/
def loadFifo : List ArbOp → Option Nat
  | [] => none
  | o :: r =>
    if o.bTaken < o.bNeeds then some o.bFifo
    else if o.kind = .atob then none
    else match loadFifo r with
      | some q => if o.kind = .bdrop ∧ o.aFifo = q then none else some q
      | none => none

/-- The first 96 slots of a B FIFO with the markers among them, which have no effect, and what is left (log 19). -/
def takeB : Nat → List FifoSlot → Option (List FifoSlot × List FifoSlot)
  | 0, r => some ([], r)
  | _ + 1, [] => none
  | k + 1, x :: r =>
    if !x.present then none
    else (takeB (if x.marker then k + 1 else k) r).map fun t => (x :: t.1, t.2)

/-- Taking slots that streams have filled acquires their data at the streams' scopes (R185). -/
def Cell.acquireSlots (c : Cell) (l : List FifoSlot) : Cell :=
  l.foldl (fun c x => match x.origin with
    | some o => c.acquire o.1.scope
    | none => c) c

/-- Note slots taken from a FIFO with the youngest operation in flight, which gives them back when it is undone. -/
def noteTaken (q : Nat) (taken : List FifoSlot) : List ArbOp → List ArbOp
  | [] => []
  | o :: r =>
    if o.started && !(r.any (·.started)) then { o with eaten := o.eaten ++ taken.map fun x => (q, x) } :: r
    else o :: noteTaken q taken r

/-- Loading of the back half from a B FIFO: what an operation in flight may have to give back is noted with it. -/
def Cell.loadB (c : Cell) (q : Nat) (taken rest : List FifoSlot) : Cell :=
  let slots := taken.filter fun x => !x.marker
  let c := (c.setFifo q { c.fifo q with slots := rest }).acquireSlots slots
  { c with arb := { c.arb with
      back := some { slots := slots, fromAtob := false, marked := slots.any (·.opd) }
      backFifo := q
      queue := noteTaken q taken c.arb.queue } }

/-- The back half is free: the operation that has swapped it away from the front is the oldest, so that every operation that
reads it has completed (R435). -/
def backFree (l : List ArbOp) : Bool := l.tail.all fun o => o.bTaken == 0

/-- ARBOUR_B_LOAD: the back half loads from the FIFO of the first operation that still takes a B, once it is free and 96 slots are
present (R250, R435). -/
def execArbourBLoad (cell fifo : Nat) (s : State) : Host.Outcome State Fault Refusal :=
  let c := s.cell cell
  if !c.enginesRun || c.arb.back.isSome || !backFree c.arb.queue || loadFifo c.arb.queue != some fifo then .next s
  else match takeB 96 (c.fifo fifo).slots with
    | none => .next s
    | some (taken, rest) => .next (s.setCell cell (c.loadB fifo taken rest))

/-! ### Rows (R253 to R257) -/

/-- Replace operation i of the queue. -/
def Cell.setOp (c : Cell) (i : Nat) (o : ArbOp) : Cell := { c with arb := { c.arb with queue := c.arb.queue.set i o } }

/-- A product has consumed all its rows or groups. -/
def ArbOp.rowsDone (o : ArbOp) : Bool :=
  if o.kind = .mmag then o.groups == ctlM o.ctl else o.rows == ctlM o.ctl

/-- Rows that an operation shadows (R252, R255). -/
def ArbOp.shadowNeed (o : ArbOp) : Nat := (1 + o.tw) * (if o.kind = .mmag then 128 else ctlM o.ctl)
/-- Two operations write no tile in common. -/
def ArbOp.disjoint (a b : ArbOp) : Bool := decide (a.tile + a.tw < b.tile) || decide (b.tile + b.tw < a.tile)

/-- The operation whose turn it is to consume rows: the first that has not consumed its last. It waits for the earlier ones to
complete unless its tiles are not theirs and their shadows fit together (R255). -/
def activeOp (l : List ArbOp) : Option (Nat × ArbOp) :=
  let done := l.takeWhile fun o => o.isProduct && o.rowsDone
  match l[done.length]? with
  | none => none
  | some o =>
    if o.isProduct && (o.started || (done.all o.disjoint && decide ((done.map ArbOp.shadowNeed).sum + o.shadowNeed ≤ 256))
        || done.isEmpty) then some (done.length, o) else none

/-- Operation i takes the next B: the halves swap, and the front it held is gone (R250, R254). -/
def Cell.swapB (c : Cell) (i : Nat) (o : ArbOp) : Cell :=
  let o := { o with
    started := true, bTaken := o.bTaken + 1
    bBefore := if o.started then o.bBefore else some (c.arb.front, c.arb.back) }
  (({ c with arb := { c.arb with front := c.arb.back, back := none } }).setOp i o)

/-- Take slots off an A FIFO for an operation. -/
def Cell.eat (c : Cell) (o : ArbOp) (l rest : List FifoSlot) : Cell × ArbOp :=
  ((c.setFifo o.aFifo { c.fifo o.aFifo with slots := rest }).acquireSlots l,
    { o with eaten := o.eaten ++ l.map fun x => (o.aFifo, x) })

/-- Shadow the rows that an operation is about to write (R255). -/
def Cell.shadowRows (c : Cell) (o : ArbOp) (row : Nat) : ArbOp :=
  { o with shadow := o.shadow ++ tabulate (1 + o.tw) fun k =>
      { tile := o.tile + k, row := row, vals := c.tileRow (o.tile + k) row } }

/-- Accumulate a row and its tangent rows into the tiles (R208, R210); absent tangent rows are zeros (R256). -/
def Cell.accumulate (c : Cell) (o : ArbOp) (row : Nat) (x : FifoSlot) (tans : List Byte) (b : BHalf) : Cell :=
  let cls := ctlClass o.ctl
  let cols := b.columns cls (ctlBovr o.ctl)
  let rowBytes := 4 * classK cls
  (List.range (1 + o.tw)).foldl (fun c k =>
    let a := if k = 0 then tabulate 4 (x.group cls (ctlAovr o.ctl))
      else tabulate 4 (tanGroup cls ((tans.drop (rowBytes * (k - 1))).take rowBytes))
    c.setTileRow (o.tile + k) row (accRow o.ctl a cols (c.tileRow (o.tile + k) row))) c

/-- A B that was loaded from a FIFO and not taken goes back to its head. -/
def Cell.returnB (c : Cell) : Cell :=
  match c.arb.back with
  | some b => if b.fromAtob then c else
      ({ c with arb := { c.arb with back := none } } : Cell).returnSlots (b.slots.map fun x => (c.arb.backFifo, x))
  | none => c

/-- Operation i ended by error (R257): its tiles are restored, it is not replayed, what it has not taken of its FIFOs stays there,
`e17` pulses, and its work is lost to the aborted meters; the report follows (R265). -/
def State.failArb (s : State) (n i : Nat) (o : ArbOp) (cause : Cause) (addr : Word) (detail : Nat) : State :=
  let s := s.onCell n fun c =>
    (({ c.restoreRows o.shadow with arb := { c.arb with queue := c.arb.queue.eraseIdx i } } : Cell).returnB.pulse 17)
  let s := s.meterLost (partOfCell n) (ctlClass o.ctl) (o.beats * macsPerRow (ctlClass o.ctl))
  s.report n { cause := cause, addr := addr, info := kfinfoOf true 2 o.tile (BitVec.ofNat 32 detail) }

/-- Operation i consumes the slot at the head of its A FIFO. -/
def State.consumeRow (s : State) (n i : Nat) (o : ArbOp) (b : BHalf) : State :=
  let c := s.cell n
  let cls := ctlClass o.ctl
  match (c.fifo o.aFifo).slots with
  | [] => s
  | x :: r =>
    if !x.present then s
    else if x.marker then
      let (c, o) := c.eat o [x] r
      s.setCell n (c.setOp i (if o.kind = .mmag then { o with groups := o.groups + 1 } else o))
    else if x.tangent then
      let (c, o) := c.eat o [x] r
      s.setCell n (c.setOp i o)
    else if o.rows = 128 then s.failArb n i o .stream 0 o.rows
    else
      let ts := r.takeWhile fun y => y.tangent
      if !ts.all (·.present) then s
      else
        let (c, o) := c.eat o (x :: ts) (r.drop ts.length)
        let c := c.setOp i o
        match x.badCode cls (ctlAovr o.ctl), b.slots.findSome? fun y => y.badCode cls (ctlBovr o.ctl) with
        | some a, _ => (s.setCell n c).failArb n i o .format a o.rows
        | none, some a => (s.setCell n c).failArb n i o .format a o.rows
        | none, none =>
          let o1 := c.shadowRows o o.rows
          let c := c.accumulate o o.rows x (ts.flatMap (·.data)) b
          let beats := 1 + min o.tw (ts.length / (4 * classK cls / 128))
          s.setCell n (c.setOp i { o1 with started := true, rows := o.rows + 1, beats := o.beats + beats })

/-- One step of the product whose turn it is: it takes its next B or its next slot (R255). -/
def execArbourRowConsume (cell : Nat) (s : State) : Host.Outcome State Fault Refusal :=
  let c := s.cell cell
  match activeOp c.arb.queue with
  | none => .next s
  | some (i, o) =>
    if !c.enginesRun then .next s
    else if o.wantsB then
      match c.arb.back with
      | none => .next s
      | some b =>
        if b.fromAtob || c.arb.backFifo == o.bFifo then .next (s.setCell cell (c.swapB i o)) else .next s
    else
      let o := if o.started then o else { o with started := true, bBefore := some (c.arb.front, c.arb.back) }
      match c.arb.front with
      | some b => if b.slots.all (·.present) then .next ((s.setCell cell (c.setOp i o)).consumeRow cell i o b) else .next s
      | none => .next (s.failArb cell i o .combo 0 o.rows)

/-- A mod-7 residue mismatch in a row group of the operation in flight (R257, R275). -/
def execArbourResidueError (cell : Nat) (s : State) : Host.Outcome State Fault Refusal :=
  let c := s.cell cell
  if c.enginesRun && c.arb.queue.any (·.started) then .next (s.machineCheck (partOfCell cell) c.ident.ctx) else .next s

/-! ### The other operations (R370 to R372) -/

/-- Change each row of tile t. -/
def Cell.mapTile (c : Cell) (t : Nat) (f : Nat → List W32) : Cell :=
  (List.range 128).foldl (fun c r => c.setTileRow t r (f r)) c

def Cell.doAclr (c : Cell) (o : ArbOp) : Cell :=
  (List.range (1 + o.tw)).foldl (fun c k => c.mapTile (o.tile + k) fun _ => List.replicate 96 0) c

/-- `ASCALE`: the tangents first, from the old elements (R212). -/
def Cell.doAscale (c : Cell) (o : ArbOp) : Cell :=
  let f : W32 := o.ctl.setWidth 32
  let c' := (o.ftans.zipIdx).foldl (fun x p =>
    x.mapTile (o.tile + p.2 + 1) fun r =>
      ((c.tileRow o.tile r).zip (c.tileRow (o.tile + p.2 + 1) r)).map fun e => f32Fma e.2 f (f32Mul e.1 p.1)) c
  c'.mapTile o.tile fun r => (c.tileRow o.tile r).map fun e => f32Mul e f

def Cell.doAcpy (c : Cell) (o : ArbOp) : Cell :=
  if o.tile = o.tile2 then c
  else (List.range (1 + o.tw)).foldl (fun x k => x.mapTile (o.tile + k) fun r => c.tileRow (o.tile2 + k) r) c

/-- The class of a format code. -/
def classOf (f : Byte) : Nat := if f = fmtBf16 then 2 else if fmtBits f = 4 then 1 else 0

/-- `ATOB` (R371): the conversion word gives format, scale, rounding and overflow mode. -/
def Cell.atobHalf (c : Cell) (o : ArbOp) : BHalf :=
  let f : Byte := o.ctl.extractLsb' 0 8
  let sc : Byte := o.ctl.extractLsb' 8 8
  let cls := classOf f
  let conv (e : W32) : Nat := encodeFmt f (Rnd.ofBits (o.ctl.extractLsb' 16 2)) (o.ctl.getLsbD 18) ((f32Val e).scale (-sc.toInt))
  let d : Desc := { fmt := f, scale := sc }
  let col (n : Nat) : FifoSlot := {
    data := packElems (fmtBits f / 4) 128 (tabulate (classK cls) fun k =>
      BitVec.ofNat 32 (conv (Map.get 0 c.tiles (tileKey (o.tile + k / 128) (k % 128) n))))
    d0 := d, d1 := d, a0 := 0, a1 := 0, marker := false, opd := false, tangent := false, present := true, origin := none }
  { slots := tabulate 96 col, fromAtob := true, marked := false }

def Cell.doAtob (c : Cell) (o : ArbOp) : Cell := { c with arb := { c.arb with back := some (c.atobHalf o) } }

/-- `BDROP` (R372). -/
def Cell.doBdrop (c : Cell) (o : ArbOp) : Cell :=
  let c := c.setFifo o.aFifo { c.fifo o.aFifo with slots := (c.fifo o.aFifo).slots.drop o.ctl.toNat }
  if 2 ≤ o.aFifo then { c with arb := { c.arb with front := none } } else c

/-- The effect of an operation that is done, at its completion; none while it is not done. -/
def Cell.finishArb (c : Cell) (o : ArbOp) : Option Cell :=
  match o.kind with
  | .mma | .mmag => if o.rowsDone then some c else none
  | .aclr => some (c.doAclr o)
  | .ascale => some (c.doAscale o)
  | .atob => if c.arb.back.isNone then some (c.doAtob o) else none
  | .acpy => some (c.doAcpy o)
  | .bdrop =>
    let l := (c.fifo o.aFifo).slots.take o.ctl.toNat
    if l.length = o.ctl.toNat ∧ l.all (·.present) then some (c.doBdrop o) else none

/-- Completion of the operation at the head: its shadow goes, its rows count, `e16` pulses (R255, R256, R370). -/
def execArbourOpComplete (cell : Nat) (s : State) : Host.Outcome State Fault Refusal :=
  let c := s.cell cell
  match c.arb.queue with
  | [] => .next s
  | o :: r =>
    if !c.enginesRun then .next s
    else match c.finishArb o with
      | none => .next s
      | some c =>
        let p := partOfCell cell
        let s := s.setCell cell (({ c with arb := { c.arb with queue := r } }).pulse 16)
        if o.isProduct then
          .next ((s.meter p (ctlClass o.ctl) (o.beats * macsPerRow (ctlClass o.ctl))).countCell cell 14 o.beats)
        else .next s

/-! ### Issue (R359, R369, R370) -/

/-- Whether the B register will have a front half after the queued operations (R250, R369, R372). -/
def Arbour.hasB (a : Arbour) : Bool :=
  a.queue.foldl (fun b o =>
    if o.isProduct && !ctlKeep o.ctl then true
    else if o.kind == .bdrop && decide (2 ≤ o.aFifo) then false
    else b) a.front.isSome

/-- The streams into a FIFO that have started and not entered in full, in issue order. -/
def Cell.feeders (c : Cell) (q : Nat) : List StreamSt :=
  sortBy (fun a b => decide (a.cmd.serial ≤ b.cmd.serial))
    ((c.streams.map (·.2)).filter fun x => x.armed.isNone && x.cmd.other == .fifo q && !x.cmd.op.shapedDst)

/-- The element type of the next slot of a FIFO when that slot has no descriptor plane: of the slot there, of the one that
fills, or of the next stream. -/
def Cell.plainType (c : Cell) (q : Nat) : Option Byte :=
  let of (x : StreamCmd) := if x.shape.desc then none else some x.shape.etype
  match (c.fifo q).slots.find? fun x => !x.marker with
  | some x => x.origin.bind fun o => of o.1
  | none => (c.feeders q).head?.bind fun x => of x.cmd

/-- An earlier queued operation takes slots from a FIFO. -/
def Arbour.uses (a : Arbour) (q : Nat) : Bool :=
  a.queue.any fun o => (o.isProduct && (o.aFifo == q || (o.bFifo == q && !ctlKeep o.ctl))) || (o.kind == .bdrop && o.aFifo == q)

/-- A descriptor-free element type that the operation would meet first is of its class, or an override stands for it (R369,
log 20). -/
def Cell.typeOk (c : Cell) (cls : Nat) (ovr : Byte) (q : Nat) : Bool :=
  ovr != 0 || c.arb.uses q || (match c.plainType q with
    | some f => inClass cls f
    | none => true)

/-- The checks of R252 and R369 that need no FIFO count. -/
def Cell.productOk (c : Cell) (mmag : Bool) (t tw a b : Nat) (ctl : Word) : Bool :=
  let m := ctlM ctl
  let cls := ctlClass ctl
  decide (1 ≤ m) && decide (m ≤ 128) && cls != 3 && decide (ctlOut ctl < 2) && !(ctlZero ctl && ctlDecay ctl)
    && !(mmag && ctlKeep ctl) && (ctlAovr ctl == 0 || inClass cls (ctlAovr ctl))
    && (ctlBovr ctl == 0 || inClass cls (ctlBovr ctl)) && decide (t + tw ≤ 7)
    && decide ((1 + tw) * (if mmag then 128 else m) ≤ 256)
    && c.typeOk cls (ctlAovr ctl) a && (ctlKeep ctl || c.typeOk cls (ctlBovr ctl) b)
    && (!ctlKeep ctl || c.arb.hasB)

/-- What stands at a place of an A FIFO: a row, a marker, or a slot of a tangent row. -/
inductive SlotKind where
  | row | marker | tangent
  deriving DecidableEq, Repr

def FifoSlot.kind (x : FifoSlot) : SlotKind := if x.marker then .marker else if x.tangent then .tangent else .row

/-- The slots that the rest of a stream will fill, from `fill` elements in the slot that stands open (R241, R243). -/
def StreamCmd.futureSlots (c : StreamCmd) (fill : Nat) : List Nat → List SlotKind
  | [] => []
  | e :: r =>
    let lv := levelAfter c.shape.dims e
    if fill + 1 = c.perSlot ∨ lv ≠ 0 ∨ e + 1 = c.count then
      .row :: List.replicate c.tanSlots .tangent ++ (if lv = 0 then [] else [.marker]) ++ c.futureSlots 0 r
    else c.futureSlots (fill + 1) r

/-- The slots of a FIFO and those that the streams queued to it will fill, in order. -/
def Cell.futureSlots (c : Cell) (q : Nat) : List SlotKind :=
  let f := c.fifo q
  let open_ := (f.fill.map (·.elems.length)).getD 0
  f.slots.map FifoSlot.kind ++ ((c.feeders q).mapIdx fun i x =>
    x.cmd.futureSlots (if i = 0 then open_ else 0) (tabulate (x.cmd.count - x.landed) fun k => x.landed + k)).flatten

/-- Drop slots until k rows, or k markers, have gone. -/
def dropRows : Nat → List SlotKind → List SlotKind
  | 0, l => l
  | _, [] => []
  | k + 1, x :: r => if x = .row then dropRows k r else dropRows (k + 1) r
def dropGroups : Nat → List SlotKind → List SlotKind
  | 0, l => l
  | _, [] => []
  | k + 1, x :: r => if x = .marker then dropGroups k r else dropGroups (k + 1) r

/-- What the queued operations leave of an A FIFO (R253, R254, R372). -/
def ArbOp.leaves (o : ArbOp) (q : Nat) (l : List SlotKind) : List SlotKind :=
  if o.aFifo ≠ q then l
  else match o.kind with
    | .mma => dropRows (ctlM o.ctl - o.rows) l
    | .mmag => dropGroups (ctlM o.ctl - o.groups) l
    | .bdrop => l.drop o.ctl.toNat
    | _ => l

/-- The rows of the first m groups. -/
def rowsIn : Nat → List SlotKind → Nat
  | 0, _ => 0
  | _, [] => 0
  | m + 1, x :: r => match x with
    | .marker => rowsIn m r
    | .row => rowsIn (m + 1) r + 1
    | .tangent => rowsIn (m + 1) r

/-- The rows of the first M groups that an operation will meet, as far as the FIFO's contents and the streams queued to it
tell, after what the operations queued before it take (R254). -/
def Cell.groupRows (c : Cell) (q m : Nat) : Nat :=
  rowsIn m (c.arb.queue.foldl (fun l o => o.leaves q l) (c.futureSlots q))

/-- A new operation. -/
def newArbOp (c : Cell) (du : Bool) (k : ArbKind) (t t2 a b : Nat) (ctl : Word) (ft : List W32) : ArbOp where
  kind := k
  tile := t
  tile2 := t2
  aFifo := a
  bFifo := b
  ctl := ctl
  ftans := ft
  tw := c.dualT du
  word := c.instrWord du
  serial := 0
  started := false
  rows := 0
  beats := 0
  groups := 0
  bTaken := 0
  shadow := []
  eaten := []
  bBefore := none

/-- An operation joins the queue (R255). -/
def Cell.queueArb (c : Cell) (o : ArbOp) : Cell :=
  { c with arb := { c.arb with queue := c.arb.queue ++ [{ o with serial := c.nextSerial }] }, nextSerial := c.nextSerial + 1 }

/-- Issue or arm an operation that has passed its operand checks: a ninth holds the sequencer (R255, R360). -/
def arbIssue (s : State) (du : Bool) (gate : Option Reg) (ok late : Bool) (o : ArbOp) : Host.Outcome State Fault Refusal :=
  let c := s.cur
  if !ok || !c.mayArm gate then trapNow s du .combo
  else match gate with
    | some w => if late then trapNow s du .stream else .next (s.setCur ((c.arm (c.gateOf w) (.arb o) o.word).retire du))
    | none =>
      if 8 ≤ c.arb.queue.length then .next s
      else if late then trapNow s du .stream
      else .next (s.setCur ((c.queueArb o).retire du))

/-- `MMA` and `MMAG` (R368, R369). -/
def arbProduct (s : State) (du mmag : Bool) (t : BitVec 3) (bsel asel : Bool) (z : Reg) (gate : Option Reg) :
    Host.Outcome State Fault Refusal :=
  let c := s.cur
  let ctl := c.reg z
  let a := if asel then 1 else 0
  let b := if bsel then 3 else 2
  let ok := c.productOk mmag t.toNat (c.dualT du) a b ctl
  let late := mmag && decide (128 < c.groupRows a (ctlM ctl))
  arbIssue s du gate ok late (newArbOp c du (if mmag then .mmag else .mma) t.toNat 0 a b ctl [])

/-- `ACLR` and `ASCALE`. -/
def arbTile (s : State) (du : Bool) (k : ArbKind) (t : BitVec 3) (f : Word) (ft : List W32) (gate : Option Reg) :
    Host.Outcome State Fault Refusal :=
  let c := s.cur
  arbIssue s du gate (decide (t.toNat + c.dualT du ≤ 7)) false (newArbOp c du k t.toNat 0 0 0 f ft)

def arbAclr (s : State) (du : Bool) (t : BitVec 3) (gate : Option Reg) : Host.Outcome State Fault Refusal :=
  arbTile s du .aclr t 0 [] gate
def arbAscale (s : State) (du : Bool) (t : BitVec 3) (y : Reg) (gate : Option Reg) : Host.Outcome State Fault Refusal :=
  arbTile s du .ascale t (s.cur.reg y) (tabulate (s.cur.dualT du) fun k => (s.cur.shadow y (k + 1)).setWidth 32) gate

/-- The checks of the conversion word (R371). -/
def atobOk (t : BitVec 3) (w : Word) : Bool :=
  let f : Byte := w.extractLsb' 0 8
  w.extractLsb' 19 45 == 0 && w.extractLsb' 8 8 != (0x80 : Byte) && !fmtReserved f && f != fmtF32
    && !(fmtBits f == 4 && t == 7)

/-- `ATOB`: the dual form has the effect of the plain one (R370). -/
def arbAtob (s : State) (du : Bool) (t : BitVec 3) (y : Reg) (gate : Option Reg) : Host.Outcome State Fault Refusal :=
  let c := s.cur
  let w := c.reg y
  let wide := if fmtBits (w.extractLsb' 0 8) = 4 then 1 else 0
  arbIssue s du gate (atobOk t w) false { newArbOp c du .atob t.toNat (t.toNat + wide) 0 0 w [] with tw := 0 }

def arbAcpy (s : State) (du : Bool) (t u : BitVec 3) (gate : Option Reg) : Host.Outcome State Fault Refusal :=
  let c := s.cur
  arbIssue s du gate (decide (t.toNat + c.dualT du ≤ 7) && decide (u.toNat + c.dualT du ≤ 7)) false
    (newArbOp c du .acpy t.toNat u.toNat 0 0 0 [])

def execMma (t : BitVec 3) (bsel asel : Bool) (z : Reg) (gate : Option Reg) (s : State) : Host.Outcome State Fault Refusal :=
  arbProduct s false false t bsel asel z gate
def execMmag (t : BitVec 3) (bsel asel : Bool) (z : Reg) (gate : Option Reg) (s : State) : Host.Outcome State Fault Refusal :=
  arbProduct s false true t bsel asel z gate
def execAclr (t : BitVec 3) (gate : Option Reg) (s : State) : Host.Outcome State Fault Refusal := arbAclr s false t gate
def execAscale (t : BitVec 3) (y : Reg) (gate : Option Reg) (s : State) : Host.Outcome State Fault Refusal :=
  arbAscale s false t y gate
def execAtob (t : BitVec 3) (y : Reg) (gate : Option Reg) (s : State) : Host.Outcome State Fault Refusal :=
  arbAtob s false t y gate
def execAcpy (t u : BitVec 3) (gate : Option Reg) (s : State) : Host.Outcome State Fault Refusal := arbAcpy s false t u gate

/-- `BDROP` (R372). -/
def execBdrop (q : BitVec 2) (y : Reg) (gate : Option Reg) (s : State) : Host.Outcome State Fault Refusal :=
  let c := s.cur
  arbIssue s false gate (decide ((c.reg y).toNat ≤ 512)) false (newArbOp c false .bdrop 0 0 q.toNat 0 (c.reg y) [])

/-- `MWAIT` (R373). -/
def execMwait (s : State) : Host.Outcome State Fault Refusal :=
  if s.cur.arb.queue = [] then .next (s.onCur fun c => c.retire false) else .next s

end Sys2Proof.Machine
end

