-- ==== Sys2Proof/Machine/Nodes.lean ====
section
/-! DEFINITION. What nodes of a graph and engine commands share: the 64 bytes of a dispatched node (R87, R88), the order of
dispatch (R79, R89, R91), the world that a node's context byte names, ranges that a helper of the module reads and writes for
a world, and the cell or saved image that a completion belongs to (R117, R118). -/

namespace Sys2Proof.Machine

/-! ### Dispatched nodes (R88, R89) -/

/-- The bytes of node n of a queue while it is dispatched, has the type and has no result yet. -/
def State.nodeOf (s : State) (fn q n ty : Nat) : Option (List Byte) :=
  match (s.queue fn q).graph with
  | none => none
  | some g =>
    match g.st[n]?, g.nodes[n]? with
    | some .dispatched, some b => if (Map.get? g.results n).isNone ∧ leAt b 0 1 = ty then some b else none
    | _, _ => none

/-- Graphs are held while a firmware update is past its quiesce, and while a Bandstand reloads (R94, R275). -/
def State.walks (s : State) : Bool := (s.lodge.fw == .running || s.lodge.fw == .pausing) && s.reloading.isEmpty

/-! ### Who is ready, and whose turn it is (R79, R89, R91) -/

/-- The effective level of a launch: its graph's. -/
def State.levelOf (s : State) (l : Launch) : Nat :=
  match (s.queue l.fn l.q).graph with
  | some g => if l.pod.isSome ∧ (l.pod.map (·.1)) ≠ some s.pod.self then l.level else g.level
  | none => l.level

def Launch.isReady (l : Launch) : Bool := l.st == .waiting || l.st == .preempted

/-- A launch's world and function let it be dispatched: not held by the firmware's version, TDI not in ERROR,
and no graph is held (R25, R94, R275). -/
def State.mayDispatch (s : State) (l : Launch) : Bool :=
  ((s.world? l.world).any fun v => !v.held && v.st != .ending) && (s.func l.vf).tdi != .error
    && s.walks

/-- Partition p can take a launch: none holds it, no scrub runs or is owed on it. -/
def State.partFree (s : State) (p : Nat) : Bool :=
  let v := s.part p
  v.running.isNone && (v.st == .ready || v.st == .running)
    && !s.worlds.any fun w => w.2.st == .ending && w.2.scrubs.contains p

/-- The distance round a ring of k from the place after `last`. -/
def turnsFrom (k last x : Nat) : Nat := (x + k - 1 - last % k) % k

/-- The queue of a function whose turn it is: the one with dispatches left. -/
def State.turnOf (s : State) (fn : Nat) : Nat := ((s.func fn).queues.find? fun e => decide (0 < e.2.credit)).elim 0 (·.1)

/-- The order of R89 and R91 as numbers, the smaller first: level, VFs in turn, queues in turn, and index in the graph. -/
def State.nodeKey (s : State) (fn q n level : Nat) : List Nat :=
  [level, turnsFrom 17 s.lastVf fn, (q + 64 - s.turnOf fn) % 64, n]

/-- The place of a launch in that order; launches of other modules, which have no node here, follow in order of arrival. -/
def State.launchKey (s : State) (id : Nat) (l : Launch) : List Nat := s.nodeKey l.vf l.q l.node (s.levelOf l) ++ [id]

/-- Lexicographic order. -/
def keyLt : List Nat → List Nat → Bool
  | [], _ => false
  | _, [] => false
  | a :: r, b :: t => decide (a < b) || (a == b && keyLt r t)

def sharesPart (a b : Launch) : Bool := a.parts.any b.parts.contains

/-- A ready launch is the next for each of its partitions. -/
def State.isNext (s : State) (id : Nat) (l : Launch) : Bool :=
  s.launches.all fun e => e.1 == id || !e.2.isReady || !s.mayDispatch e.2 || !sharesPart l e.2
    || !keyLt (s.launchKey e.1 e.2) (s.launchKey id l)

/-- The launch record of a node, if it has one. -/
def State.launchOf (s : State) (fn q node : Nat) : Option Nat :=
  (s.launches.find? fun e => e.2.fn == fn && e.2.q == q && e.2.node == node && (e.2.pod.map (·.1)).getD s.pod.self == s.pod.self).map
    (·.1)

/-- A node that is ready and not dispatched: nothing it waits for is left, and no node of its graph has failed (R89). -/
def Graph.isReady (g : Graph) (i : Nat) : Bool :=
  g.failed.isNone && g.st[i]? == some NodeSt.idle && g.remaining[i]? == some 0
def Graph.ready (g : Graph) : List Nat := (List.range g.nodes.length).filter g.isReady

/-- A launch that its partitions could take now. -/
def State.couldRun (s : State) (l : Launch) : Bool := l.isReady && s.mayDispatch l && l.parts.all s.partFree

/-- Everything of the VFs that could be dispatched now: ready nodes, a LAUNCH until its checks have made it a launch, and launches
whose partitions are free. A LAUNCH that waits for a partition holds up nothing else (R91). -/
def State.candidates (s : State) : List (List Nat) :=
  (s.funcs.flatMap fun f => if f.1 = 0 then [] else f.2.queues.flatMap fun q =>
    match q.2.graph with
    | none => []
    | some g => (g.ready.filter fun i => (s.launchOf f.1 q.1 i).isNone).map fun i => s.nodeKey f.1 q.1 i g.level)
  ++ (s.launches.filter fun e => s.couldRun e.2).map fun e => s.launchKey e.1 e.2

/-- Nothing else comes before a key. -/
def State.isTurn (s : State) (key : List Nat) : Bool := s.candidates.all fun k => !keyLt k key

/-- It is the turn of a ready node: the lowest of its graph on the administration queue, or the next of all VFs (R89, R91). -/
def State.nodeTurn (s : State) (fn q n : Nat) : Bool :=
  match (s.queue fn q).graph with
  | none => false
  | some g => g.isReady n && (if fn = 0 then g.ready.all fun i => decide (n ≤ i) else s.isTurn (s.nodeKey fn q n g.level))

/-- Serve a queue: a turn is up to WEIGHT dispatches, and then the next queue's turn comes (R91). -/
def State.serve (s : State) (fn q : Nat) : State :=
  let v := s.queue fn q
  let left := (if v.credit = 0 then max 1 v.weight else v.credit) - 1
  let s := s.onFunc fn fun f => { f with queues := f.queues.map fun e => (e.1, { e.2 with credit := 0 }) }
  let s := if left = 0 then
      let nx := (q + 1) % 64
      s.onQueue fn nx fun x => { x with credit := max 1 x.weight }
    else s.onQueue fn q fun x => { x with credit := left }
  { s with lastVf := fn }

/-- A ready node is dispatched, at a time. -/
def Graph.mark (g : Graph) (n now : Nat) : Graph :=
  if g.isReady n then { g with st := g.st.set n .dispatched, started := Map.put g.started n now } else g
def State.markNode (s : State) (fn q n : Nat) : State :=
  s.onQueue fn q fun v => { v with graph := v.graph.map fun g => g.mark n s.timebase }

/-- A node takes its turn. -/
def State.begun (s : State) (fn q n : Nat) : State :=
  let s := s.markNode fn q n
  if fn = 0 then s else s.serve fn q

/-! ### Running a node (R88, R89, R94) -/

/-- The bytes of node n of a queue while it is ready and has the type. -/
def State.readyNode (s : State) (fn q n ty : Nat) : Option (List Byte) :=
  match (s.queue fn q).graph with
  | none => none
  | some g =>
    match g.isReady n, g.nodes[n]? with
    | true, some b => if leAt b 0 1 = ty then some b else none
    | _, _ => none

/-- Run the work of a node of a type, unless graphs are held; a running COPY goes on (R94). A node that is ready is dispatched
by it when its turn has come (R89, R91). -/
def State.withNode (s : State) (fn q n ty : Nat) (k : List Byte → State) : Host.Outcome State Fault Refusal :=
  match s.nodeOf fn q n ty with
  | some b => if s.walks || ty == 0x02 then .next (k b) else .next s
  | none =>
    match s.readyNode fn q n ty with
    | some b => if s.walks && s.nodeTurn fn q n then .next ((k b).begun fn q n) else .next s
    | none => .next s

/-- The Lodge can take a request of a node, an instruction or a connection: the mailbox requests that came before it are done,
and no new firmware starts. Such a request reaches the Lodge, and so has its place in mailbox order, when it is served (R94,
R97, log 12). -/
def State.lodgeFree (s : State) : Bool := s.lodge.inbox.isEmpty && s.lodge.fw != .activating

/-! ### What nodes name (R76, R88) -/

/-- A partition that a VF owns (R76). -/
def State.owns (s : State) (vf p : Nat) : Bool := decide (p < 16) && vf != 0 && (s.part p).vf == vf

/-- The partition and world of the context that a COPY or KVMAP node names: the context of that number on the lowest partition
of the VF that has one (log 21). -/
def State.ctxWorld (s : State) (vf ctx : Nat) : Option (Nat × Nat) :=
  (List.range 16).findSome? fun p =>
    if s.owns vf p then (Map.get? (s.part p).ctxs ctx).map fun c => (p, c.world) else none

/-! ### Ranges of world memory (R131) -/

/-- Every page of a range is mapped NORM, with W if it is to be written, at an address that exists. -/
def State.normRange (s : State) (w : Nat) (va : Nat) (len : Nat) (write : Bool) : Bool :=
  decide (va + len ≤ 2 ^ 58) &&
  (List.range ((va + len + pageBytes - 1) / pageBytes - va / pageBytes)).all fun i =>
    match s.translate w (if write then .store else .load) 8 (BitVec.ofNat 64 (max va ((va / pageBytes + i) * pageBytes))) with
    | .ok l => l.cls == .norm && (s.memberAt l.pa || (paModule l.pa == s.pod.self && s.localOk (paLocal l.pa)))
    | _ => false

/-- Touch every line of a range for a world from a context of a partition. -/
def State.touchRange (s : State) (p ctx w va len : Nat) (write spec : Bool) : State :=
  (lineStarts va len).foldl (fun s a => (s.countAccess unitPort (s.paOf w a)).touchAs p ctx w .norm (s.paOf w a) write spec) s

/-- Bytes of a world's memory. -/
def State.vaBytes (s : State) (w va len : Nat) : List Byte := tabulate len fun i => readMem s.mem (s.paOf w (va + i))
/-- Write bytes of a world's memory. -/
def State.vaPut (s : State) (w va : Nat) : List Byte → State
  | [] => s
  | b :: r => ({ s with mem := writeMem s.mem (s.paOf w va) [b] } : State).vaPut w (va + 1) r

/-- A unit of the module reads a checked range of a world. -/
def State.unitRead (s : State) (p ctx w va len : Nat) : State × List Byte :=
  let s := s.touchRange p ctx w va len false false
  (s, s.vaBytes w va len)
/-- A unit of the module writes a checked range of a world. -/
def State.unitWrite (s : State) (p ctx w va : Nat) (l : List Byte) : State :=
  ((s.touchRange p ctx w va l.length true false).vaPut w va l).endUncached

/-! ### Where a completion lands -/

/-- The cell that holds a launch, or its save image (R117, R118). -/
def State.ownerCell (s : State) (n launch : Nat) : Option Cell :=
  if (s.cell n).run ≠ .idle ∧ (s.cell n).ident.launch = launch then some (s.cell n)
  else (Map.get? s.launches launch).bind fun l => Map.get? l.images n

/-- Change the cell of a launch, where it runs or in its save image. -/
def State.onOwner (s : State) (n launch : Nat) (f : Cell → Cell) : State :=
  if (s.cell n).run ≠ .idle ∧ (s.cell n).ident.launch = launch then s.onCell n f
  else match Map.get? s.launches launch with
    | none => s
    | some l => match Map.get? l.images n with
      | none => s
      | some c => { s with launches := Map.put s.launches launch { l with images := Map.put l.images n (f c) } }

end Sys2Proof.Machine
end

