-- ==== Sys2Proof/Machine/Save.lean ====
section
/-! DEFINITION. Pre-emption, save and resume of cells (R115 to R120, R437), calls for a partition (R79),
and the scrub of a partition (R80). -/

namespace Sys2Proof.Machine

/-! ### Leaving work behind (R117) -/

/-- Marker entries of passes whose threads have all committed perform at once; the rest goes with its pass. -/
def Cell.forceMarks (c : Cell) : Cell :=
  let gone := (c.fabric.passes.filter fun p => p.inFlight.isEmpty).map fun (p : Pass) => p.id
  c.fabric.sq.foldl (fun c e =>
    if gone.contains e.pass then
      match e.kind with
      | .afmark site q desc t pe => (c.setRow site []).pushSlots q (c.markSlots site desc t pe)
      | _ => c
    else c) c

/-- A slot whose bytes are discarded. -/
def FifoSlot.blank (x : FifoSlot) : FifoSlot :=
  if x.origin.isSome && !x.marker then { x with present := false, data := [] } else x

/-- The bytes of the elements that a primal slot holds. -/
def FifoSlot.bytes (x : FifoSlot) : Nat :=
  match x.origin with
  | some (c, first, rows) => if x.tangent || x.marker || !x.present then 0 else c.bytesTo (first + rows.length) - c.bytesTo first
  | none => 0

/-- The stream whose elements stand in the partly filled slot of a FIFO gives them up: they are requested again. -/
def Cell.rollBack (c : Cell) (q : Nat) : Cell :=
  match (c.fifo q).fill, sortBy (fun a b => decide (a.2.cmd.serial ≤ b.2.cmd.serial)) (c.streams.filter fun e =>
      e.2.armed.isNone && e.2.cmd.other == .fifo q && !e.2.cmd.op.shapedDst) with
  | some g, (st, x) :: _ =>
    let k := g.elems.length
    let c := c.barrierGiveBack x.cmd.bar (x.cmd.bytesTo x.landed - x.cmd.bytesTo (x.landed - k))
    (c.setStream st { x with landed := x.landed - k, issued := x.issued - k }).setFifo q
      { c.fifo q with fill := none }
  | some _, [] => c.setFifo q { c.fifo q with fill := none }
  | none, _ => c

/-- FIFO contents are discarded: each slot waits for its refetch, and its bytes join its barrier again. -/
def Cell.blankFifo (c : Cell) (q : Nat) : Cell :=
  let l := (c.fifo q).slots
  let c := l.foldl (fun c x => match x.origin with
    | some (cmd, _, _) => c.barrierGiveBack cmd.bar x.bytes
    | none => c) c
  (c.setFifo q { c.fifo q with slots := l.map FifoSlot.blank }).rollBack q

/-- A back half that came from a FIFO returns there; a front half that did waits for its refetch (R118). -/
def Cell.dropHalves (c : Cell) : Cell :=
  let c := match c.arb.back with
    | some b =>
      if b.fromAtob then c
      else { c.setFifo c.arb.backFifo { c.fifo c.arb.backFifo with slots := b.slots ++ (c.fifo c.arb.backFifo).slots } with
        arb := { c.arb with back := none } }
    | none => c
  match c.arb.front with
  | some b => if b.fromAtob then c else { c with arb := { c.arb with front := some { b with slots := b.slots.map FifoSlot.blank } } }
  | none => c

/-- Requests in flight that have not landed are made again. -/
def Cell.dropInflight (c : Cell) : Cell :=
  { c with streams := c.streams.map fun e => (e.1, { e.2 with
      issued := e.2.issued - e.2.inflight.length, inflight := [] }) }

/-- Land what a stream into memory or scratch has requested (R117). -/
def State.landAll (s : State) (n st : Nat) : Nat → State
  | 0 => s
  | k + 1 =>
    match Map.get? (s.cell n).streams st with
    | none => s
    | some x => if x.armed.isSome || x.inflight.isEmpty then s else (s.landNext n st x).landAll n st k

/-- A stream that fills memory or scratch. -/
def StreamCmd.toStore (c : StreamCmd) : Bool :=
  match c.op, c.other with
  | .sunseal, _ => true
  | .scopy, .port _ => false
  | .sfeed, _ => false
  | .sgath, .fifo _ => false
  | _, _ => true

def State.landStores (s : State) (n : Nat) : State :=
  (s.cell n).streams.foldl (fun s e =>
    if e.2.cmd.toStore then s.landAll n e.1 e.2.inflight.length else s) s

/-- Bytes of a cell's save image without its scratch (R118). -/
def Cell.imageBytes (c : Cell) : Nat :=
  let t := c.ident.tw
  let slots := (c.fabric.links.map fun (e : Nat × Link) => e.2.q.length).sum
    + (c.fifos.map fun (e : Nat × Fifo) => (e.2.slots.filter fun x => x.present).length).sum
  let written := (c.written.map fun (e : Nat × BitVec 64) => popCount e.2).sum
  let n := c.phase.n
  64 + (1280 + 256 * (1 + t)) + 2048 + (if c.phase.st = .idle then 0 else 32768 + 576 + 4 * n)
    + (2048 + 1024 * (1 + t) + slots * (8 + 4 * t))
    + (if c.phase.st = .idle then 0 else 8 * n + written * 4 * (1 + t)) + 49152 * c.tileWritten.length
    + 24576 * (([c.arb.front, c.arb.back].filterMap id).filter fun b => b.fromAtob).length

/-- `HALT` has retired in a cell that is stopped or saving as well. -/
def Run.hasHalted : Run → Bool
  | .halted => true
  | .stopped h => h
  | .saving h => h
  | _ => false

/-- One cell of a pre-empted launch: every agent acts as R117 says, and the cell begins to write its image. -/
def State.preemptCell (s : State) (reason n : Nat) : State :=
  if (s.cell n).run = .idle then s
  else
    let p := partOfCell n
    let s := s.drain n
    if (s.cell n).run = .idle then s
    else
    let s := s.onCell n fun c => ({ c with run := if c.run.hasHalted then .halted else .running } : Cell).forceMarks
    let s := (s.cell n).fabric.passes.foldl (fun s x => s.abandonPass n x) s
    let s := (s.onCell n Cell.abandonPasses).landStores n
    if (s.cell n).run = .idle then s
    else
      let s := ((s.loseMacs p (s.cell n)).loseStreams (s.cell n)).onCell n fun c =>
        let c := (c.restoreArbour.dropInflight).dropHalves
        let c := (List.range 4).foldl Cell.blankFifo c
        { c with
          run := .saving (c.run == .halted), l1 := [], cache := [], remote := []
          seq := { c.seq with deferral := none, yielded := false } }
      ((s.contribute n).dropHolders n false).trace p 5 n 0
        (leBytes 8 Cause.preempt.code ++ leBytes 8 reason ++ leBytes 8 (s.cell n).imageBytes)

/-- Pre-empt a launch that runs: its cells halt and save, and a stopped partition is no longer stopped (R116, R288). -/
def State.preemptLaunch (s : State) (id reason : Nat) : State :=
  match Map.get? s.launches id with
  | none => s
  | some l =>
    let s : State := { s with launches := Map.put s.launches id { l with wantPreempt := none } }
    l.parts.foldl (fun s p =>
      let s := s.onPart p fun v => if v.stop.isNone then v else
        { v with stop := none, ctxs := v.ctxs.map fun e => if e.1 = l.ctx then (e.1, { e.2 with preemptedNote := true }) else e }
      ((cellsOfPart p).foldl (fun s n => s.preemptCell reason n) s).countEvent p 7 1) s

/-- PREEMPT_REQUEST: it takes effect once every cell has started (R115). -/
def execPreemptRequest (part reason : Nat) (s : State) : Host.Outcome State Fault Refusal :=
  match (s.part part).running.bind fun id => (Map.get? s.launches id).map fun l => (id, l) with
  | none => .next s
  | some (id, l) =>
    if l.st = .running ∧ l.wantPreempt = some reason ∧ l.parts.all (fun p => (cellsOfPart p).all fun n =>
        match (s.cell n).run with
        | .saving _ => false
        | _ => true) then .next (s.preemptLaunch id reason)
    else .next s

/-- What stays in a cell's stores once its launch has left it. -/
def Cell.leftover (c : Cell) : Cell := { Cell.reset with scratch := c.scratch, tiles := c.tiles, lvs := c.lvs, bps := c.bps }

/-- CELL_SAVE_COMPLETE: the image stands in the launch; with the last one the launch is pre-empted and frees its partitions
(R118, R119). -/
def execCellSaveComplete (cell : Nat) (s : State) : Host.Outcome State Fault Refusal :=
  let c := s.cell cell
  match c.run, Map.get? s.launches c.ident.launch with
  | .saving h, some l =>
    let id := c.ident.launch
    let l := { l with images := Map.put l.images cell { c with run := if h then .halted else .running } }
    let s : State := { s.setCell cell c.leftover with launches := Map.put s.launches id l }
    if l.parts.all fun p => (cellsOfPart p).all fun n => (Map.get? l.images n).isSome then
      let s : State := { s with launches := Map.put s.launches id { l with st := .preempted, started := [], held := 0 } }
      .next (l.parts.foldl (fun s p => s.onPart p fun v => { v with running := none, lastLaunch := some id }) s)
    else .next s
  | _, _ => .next s

/-! ### Calls for a partition (R79) -/

/-- A ready launch of higher level pre-empts the launch that holds a partition it needs (R79). -/
def State.callFor (s : State) (l : Launch) : State :=
  { s with launches := s.launches.map fun e =>
      if !e.2.isReady ∧ e.2.wantPreempt.isNone ∧ sharesPart l e.2 ∧ s.levelOf l < s.levelOf e.2
      then (e.1, { e.2 with wantPreempt := some 0 }) else e }

/-- A ready launch of another context at the same level shares a partition (R79, R354). -/
def State.rival (s : State) (l : Launch) : Bool :=
  s.launches.any fun e => e.2.isReady && s.mayDispatch e.2 && sharesPart l e.2 && (e.2.ctx != l.ctx || e.2.vf != l.vf)
    && s.levelOf e.2 == s.levelOf l

/-- The quantum of a launch counts as expired: it is pre-empted if a rival is ready. -/
def State.quantumOver (s : State) (id : Nat) (l : Launch) : State :=
  if s.rival l ∧ l.wantPreempt.isNone then { s with launches := Map.put s.launches id { l with wantPreempt := some 0 } } else s

/-- QUANTUM_EXPIRY. -/
def execQuantumExpiry (part : Nat) (s : State) : Host.Outcome State Fault Refusal :=
  match (s.part part).running.bind fun id => (Map.get? s.launches id).map fun l => (id, l) with
  | none => .next s
  | some (id, l) =>
    if l.st = .running ∧ s.policy.quantumUs * 1000 ≤ l.held then .next (s.quantumOver id l) else .next s

/-! ### Taking a partition (R79) -/

/-- Every cell's stores are zeroed. -/
def State.zeroStores (s : State) (p : Nat) : State :=
  (cellsOfPart p).foldl (fun s n => s.onCell n fun c => { Cell.reset with bps := c.bps }) s

/-- A launch takes a partition. Where the last launch there was another world's, its scratch joins its image and the stores
are zeroed first. -/
def State.takePart (s : State) (id : Nat) (l : Launch) (p : Nat) : State :=
  let v := s.part p
  let cross := v.lastWorld.any (· != l.world)
  let s := if cross then
      let s : State := match v.lastLaunch with
        | some o => { s with launches := s.launches.map fun e =>
            if e.1 = o then (e.1, { e.2 with withScratch := e.2.withScratch ++ cellsOfPart p }) else e }
        | none => s
      s.zeroStores p
    else s
  s.onPart p fun v => { v with st := .running, running := some id, lastWorld := some l.world, lastLaunch := some id }

/-- Restore a cell's image: its scratch only where the image holds it, and the tiles it wrote (R118, R120). -/
def State.restoreCell (s : State) (l : Launch) (n : Nat) : State :=
  match Map.get? l.images n with
  | none => s
  | some c =>
    s.onCell n fun now =>
      let keep := now.tiles.filter fun e => !c.tileWritten.contains (e.1 / 12288)
      let mine := c.tiles.filter fun e => c.tileWritten.contains (e.1 / 12288)
      { c with
        scratch := if l.withScratch.contains n then c.scratch else now.scratch
        tiles := mine.foldl (fun m e => Map.put m e.1 e.2) keep
        bps := now.bps, l1 := [], cache := [], classFrom := s.timebase }

/-- The code that a saved launch brings back into its cells agrees with its digest (R59). -/
def State.codeOk (s : State) (l : Launch) : Bool :=
  ((s.package? l.world l.handle).bind fun k => k.kernels[l.kernel]?).all Kernel.codeOk

/-- A pre-empted launch runs again from its images, unless its code fails its digest (R59, R120). -/
def State.resumeLaunch (s : State) (id : Nat) (l : Launch) : State :=
  if !s.codeOk l then s.packageBroken l.world l.handle 0xFFFF
  else
    let s := l.parts.foldl (fun s p => (cellsOfPart p).foldl (fun s n => s.restoreCell l n) s) s
    { s with launches := Map.put s.launches id { l with st := .running, images := [], withScratch := [], held := 0 } }

/-! ### Scrub (R80) -/

/-- A context continues: it is bound, to a world that is not Ending. -/
def State.continues (s : State) (p ctx : Nat) : Bool :=
  ((Map.get? (s.part p).ctxs ctx).bind fun c => s.world? c.world).any fun v => v.st != .ending

/-- A short scrub: every cell of the partition and its Commons ways. Lines of contexts that continue leave by write-back, the
others are zeroed where they are. -/
def State.shortScrub (s : State) (p : Nat) : State :=
  let mine := s.lines.filter fun e => e.2.part == p
  let s := ((mine.filter fun e => s.continues p e.2.ctx).map (·.1)).foldl State.evictLine s
  let s := ({ s with lines := s.lines.filter fun e => e.2.part != p } : State).scrubCells p
  s.onPart p fun v => { v with lastWorld := none, lastLaunch := none }

/-- A full scrub zeroes the partition's 48 pseudo-channels too, the reserved area with them (R80, R125). -/
def State.fullScrub (s : State) (p : Nat) : State :=
  (hbmRanges s.pod.self p).foldl (fun s b => s.zeroRange b (2 ^ 34)) (s.shortScrub p)

end Sys2Proof.Machine
end

