-- ==== Sys2Proof/Machine/Launch.lean ====
section
/-! DEFINITION. Module launches (R88, R101 to R106, R120): the LAUNCH node, the start of a cell, the system instructions that end
or yield a launch (R352 to R356), the watchdog (R92) and the end of scrubs (R76). -/

namespace Sys2Proof.Machine

/-! ### The node (R88, R102) -/

/-- The fields of a LAUNCH node. -/
structure LaunchNode where
  handle  : Nat
  kernel  : Nat
  parts   : List Nat
  ctx     : Nat
  pod     : Bool
  tw      : Nat
  wdogUs  : Nat
  gen     : W32
  args    : Word
  targets : Nat
  podGen  : Nat
  n       : Nat
  deriving DecidableEq, Repr

def launchNodeOf (b : List Byte) : LaunchNode where
  handle := leAt b 16 2
  kernel := leAt b 18 2
  parts := (List.range 16).filter fun p => (leAt b 20 2).testBit p
  ctx := leAt b 22 1
  pod := (leAt b 23 1).testBit 0
  tw := if leAt b 23 1 / 2 = 3 then 4 else leAt b 23 1 / 2
  wdogUs := leAt b 24 4
  gen := BitVec.ofNat 32 (leAt b 28 4)
  args := BitVec.ofNat 64 (leAt b 32 8)
  targets := leAt b 40 8
  podGen := leAt b 48 4
  n := leAt b 52 1

/-- The world that a context number names on every partition of a set, if it is one and the same. -/
def State.contextWorld (s : State) (parts : List Nat) (ctx : Nat) : Option Nat :=
  match parts.map fun p => (Map.get? (s.part p).ctxs ctx).map fun c => c.world with
  | [] => none
  | w :: r => if r.all (· == w) then w else none

/-- The kernels that a sealing or sealed world may launch (R58). -/
def World.kernelList (v : World) : Option (List Nat) :=
  match v.st with
  | .opened => none
  | _ => match v.bundle, v.loading with
    | some b, _ => some b.kernels
    | none, some l => some l.bundle.kernels
    | none, none => none

/-- The checks of a launch before it takes its partitions, in order (R58, R88, R94): its world, or a status. -/
def State.launchCheck (s : State) (fn : Nat) (parts : List Nat) (ctx handle kernel : Nat) : Except Status Nat :=
  if parts.isEmpty || !parts.all fun p => s.owns fn p && (s.part p).st != .destroying then .error .nopart
  else match (s.contextWorld parts ctx).bind fun w => (s.world? w).map fun v => (w, v) with
    | none => .error .policy
    | some (w, v) =>
      if v.st = .ending ∨ v.held then .error .policy
      else match Map.get? v.packages handle with
        | none => .error .missing
        | some pk => match pk.kernels[kernel]? with
          | none => .error .missing
          | some k =>
            if (v.kernelList.map fun l => l.contains k.digest).getD true then .ok w else .error .sealFail

/-- A launch that waits for its partitions. -/
def State.addLaunch (s : State) (l : Launch) : State :=
  { s with launches := Map.put s.launches s.nextLaunch l, nextLaunch := s.nextLaunch + 1 }

/-- The launch record of a node (R102). -/
def newLaunch (fn q node world : Nat) (x : LaunchNode) (configs : List W32) (args : List Word) (budgetUs level : Nat)
    (pod : Option (Nat × Nat)) : Launch where
  fn := fn
  q := q
  node := node
  vf := fn
  world := world
  ctx := x.ctx
  handle := x.handle
  kernel := x.kernel
  parts := x.parts
  gen := x.gen
  tw := x.tw
  configs := configs
  args := args
  budget := budgetUs * 1000
  used := 0
  held := 0
  level := level
  st := .waiting
  started := []
  images := []
  withScratch := []
  cycles := 0
  wantPreempt := none
  pod := pod

/-- The configuration identifiers that a launch image lists (R102). -/
def State.launchConfigs (s : State) (w handle : Nat) : List W32 :=
  ((s.package? w handle).map fun k => k.configs handle).getD []

/-- The watchdog budget in µs: the node's, else the queue's, else one second (R83, R88). -/
def budgetOf (nodeUs queueUs : Nat) : Nat := if nodeUs ≠ 0 then nodeUs else if queueUs ≠ 0 then queueUs else 1000000

/-- Dispatch a ready launch to its partitions if they are free, it is the next for each and its turn has come, which a part of
a pod launch does not wait for: a fresh one injects its image, a pre-empted one resumes from its images (R38, R91, R102,
R120). Otherwise it calls for the partitions under R79. -/
def State.dispatchLaunch (s : State) (id : Nat) : State :=
  match Map.get? s.launches id with
  | none => s
  | some l =>
    if !l.isReady || !s.mayDispatch l then s
    else if !(l.parts.all s.partFree && s.isNext id l && (l.pod.isSome || s.isTurn (s.launchKey id l))) then s.callFor l
    else
      let s := if l.pod.isSome then s else s.markNode l.fn l.q l.node
      let s := (l.parts.foldl (fun s p => s.takePart id l p) s).serve l.vf l.q
      match Map.get? s.launches id with
      | none => s
      | some l =>
        match l.st with
        | .preempted => s.resumeLaunch id l
        | _ => { s with launches := Map.put s.launches id { l with st := .starting, started := [], held := 0 } }

/-- The arguments of a launch: n words of its argument block. -/
def State.readArgs (s : State) (fn : Nat) (x : LaunchNode) : Option (List Word) :=
  (s.devRead fn x.args (8 * x.n)).map fun l => tabulate x.n fun i => BitVec.ofNat 64 (leAt l (8 * i) 8)

/-- A LAUNCH node without the pod flag that has no launch record yet: its checks once, and then it is a launch, ready until its
partitions take it. A check that fails completes the node. -/
def State.launchNode (s : State) (fn q node : Nat) (b : List Byte) : State :=
  let x := launchNodeOf b
  if x.pod then s
  else match s.launchCheck fn x.parts x.ctx x.handle x.kernel with
    | .error st => (s.begun fn q node).finishStatus fn q node st
    | .ok w => match s.readArgs fn x with
      | none => (s.begun fn q node).finishStatus fn q node .policy
      | some args =>
        let v := s.queue fn q
        let level := (v.graph.map (·.level)).getD 3
        let id := s.nextLaunch
        (s.addLaunch (newLaunch fn q node w x (s.launchConfigs w x.handle) args (budgetOf x.wdogUs v.wdog) level none)).dispatchLaunch id

/-- LAUNCH of a node without the pod flag: checked once, and then dispatched when its partitions are free and its turn has
come. -/
def execLaunch (fn q node : Nat) (s : State) : Host.Outcome State Fault Refusal :=
  match s.launchOf fn q node with
  | some id => .next (s.dispatchLaunch id)
  | none =>
    match (s.nodeOf fn q node 0x01).or (s.readyNode fn q node 0x01) with
    | some b => if s.walks then .next (s.launchNode fn q node b) else .next s
    | none => .next s

/-- A ready node of a graph has waited for the escalation time, since it became ready and since the graph rose last (R91). -/
def State.overdue (s : State) (g : Graph) : Bool :=
  g.ready.any fun i => decide (max g.waitSince (Map.get 0 g.started i) + s.policy.escalationUs * 1000 ≤ s.timebase)

/-- ESCALATION_TIMEOUT: a graph with a node that has been ready and undispatched for the escalation time rises one level (R91). -/
def execEscalationTimeout (fn q : Nat) (s : State) : Host.Outcome State Fault Refusal :=
  match (s.queue fn q).graph with
  | none => .next s
  | some g =>
    let mine := s.launches.filter fun e => e.2.fn == fn && e.2.q == q && e.2.st == .waiting
    if g.level == 0 || !s.overdue g then .next s
    else
      let s := s.onQueue fn q fun v => { v with graph := some { g with level := g.level - 1, waitSince := s.timebase } }
      .next (mine.foldl (fun s e => s.callFor e.2) s)

/-! ### The start of a cell (R59, R104) -/

/-- The registers at launch: `s1` to `sn` hold the arguments. -/
def launchRegs (args : List Word) : Vector Word 32 := Vector.ofFn fun i => if i.val = 0 then 0 else args.getD (i.val - 1) 0

/-- A cell at its first instruction. -/
def Cell.start (c : Cell) (i : Ident) (k : Kernel) (args : List Word) : Cell :=
  { Cell.reset with
    run := .running, ident := i, code := k.code, scratch := c.scratch, tiles := c.tiles, lvs := c.lvs, fifos := c.fifos
    bps := c.bps
    seq := { Seq.reset with regs := launchRegs args, pc := BitVec.ofNat 64 k.entry } }

/-- CELL_START: the code enters the sequencer's memory and the listed configurations the cache, each checked against its digest
(R59, R103). -/
def execCellStart (launch cell : Nat) (s : State) : Host.Outcome State Fault Refusal :=
  match Map.get? s.launches launch with
  | none => .next s
  | some l =>
    let p := partOfCell cell
    if l.st ≠ .starting ∨ !l.parts.contains p ∨ !(cellsOfPart p).contains cell ∨ l.started.contains cell then .next s
    else match (s.package? l.world l.handle).bind fun pk => (pk.kernels[l.kernel]?).map fun k => (pk, k) with
      | none => .next s
      | some (pk, k) =>
        if !k.codeOk || !(pk.blocksOk || l.configs.isEmpty) then .next (s.packageBroken l.world l.handle cell)
        else
          let i : Ident := {
            part := p, vf := l.vf, world := l.world, ctx := l.ctx, gen := l.gen, tw := l.tw, handle := l.handle
            kernel := l.kernel, launch := launch }
          let started := cell :: l.started
          let st := if l.parts.all fun p => (cellsOfPart p).all started.contains then LaunchSt.running else .starting
          let s : State := { s with launches := Map.put s.launches launch { l with started := started, st := st } }
          .next (s.onCell cell fun c => ({ c.start i k l.args with classFrom := s.timebase } : Cell).prefetch pk l.configs)

/-! ### The end of a launch (R106, R356) -/

/-- Errored threads of the cells of a launch. -/
def State.erroredThreads (s : State) (l : Launch) : Nat :=
  (l.parts.flatMap cellsOfPart).foldl (fun n x => n + (s.cell x).errDone + (s.cell x).phase.errs) 0

/-- Every cell has halted: the node completes OK with the errored threads, and the occupied cycles are committed. -/
def State.completeLaunch (s : State) (id : Nat) (l : Launch) : State :=
  let errs := min (2 ^ 32 - 1) (s.erroredThreads l)
  let s := l.parts.foldl (fun s p =>
    let s := (cellsOfPart p).foldl (fun s n => s.onCell n fun c => { c.leftover with fifos := c.fifos }) s
    let s := s.meter p 8 l.cycles
    s.onPart p fun v => { v with running := none, lastLaunch := none }) s
  let s : State := { s with launches := Map.erase s.launches id }
  (l.parts.foldl State.settlePart s).launchEnded l.ending .ok 0 errs

/-- Once every cell of a launch that has not halted has yielded, its quantum counts as expired and the marks clear (R354). -/
def State.settleYield (s : State) (id : Nat) (l : Launch) : State :=
  let cells := l.parts.flatMap cellsOfPart
  if l.st = .running ∧ cells.all fun m => (s.cell m).run.hasHalted || (s.cell m).seq.yielded then
    (cells.foldl (fun s m => s.onCell m fun c => c.withSeq fun q => { q with yielded := false }) s).quantumOver id l
  else s

/-- The launch of a cell that halts ends if every cell of its partitions has halted. -/
def State.settleLaunch (s : State) (n : Nat) : State :=
  let id := (s.cell n).ident.launch
  match Map.get? s.launches id with
  | none => s
  | some l =>
    if l.st = .running ∧ (l.parts.flatMap cellsOfPart).all fun m => (s.cell m).run.hasHalted then s.completeLaunch id l
    else s.settleYield id l

/-- Nothing that `HALT` waits for is left (R356): the phase, issued engine commands and the queues. -/
def Cell.mayHalt (c : Cell) : Bool :=
  c.phase.st != .running && c.streams.all (fun e => e.2.armed.isSome) && c.arb.queue.isEmpty && c.kvm.isEmpty && c.coll.isNone
    && c.bank.isEmpty && c.fabric.sq.isEmpty

/-- `HALT` cancels what is still armed, and the cell's pins end (R356, R392). -/
def State.cancelArmed (s : State) (n : Nat) : State :=
  let s := (s.cell n).streams.foldl (fun s e => s.cancelStream n e.1) s
  s.onCell n fun c => { c with gates := c.gates.map fun e => (e.1, { e.2 with armed := none }) }

def execHalt (s : State) : Host.Outcome State Fault Refusal :=
  let n := s.focus.cell
  let s := s.drain n
  let c := s.cur
  if c.run ≠ .running ∨ !c.mayHalt then .next s
  else
    let s := ((s.contribute n).cancelArmed n).onCell n fun c => ({ c with pins := [], run := .halted } : Cell).retire false
    .next ((s.settleGens c.ident.world).settleLaunch n)

/-! ### The other system instructions (R352 to R355) -/

def execSnop (s : State) : Host.Outcome State Fault Refusal := .next (s.onCur fun c => c.retire false)

def execTrap (_c : BitVec 7) (s : State) : Host.Outcome State Fault Refusal := trapNow s false .soft

/-- `YIELD`: with the last cell that has not halted, the quantum counts as expired (R354). -/
def execYield (s : State) : Host.Outcome State Fault Refusal :=
  let s := s.onCur fun c => (c.withSeq fun q => { q with yielded := true }).retire false
  let id := s.cur.ident.launch
  match Map.get? s.launches id with
  | none => .next s
  | some l => .next (s.settleYield id l)

/-- `KRET` (R355). -/
def execKret (s : State) : Host.Outcome State Fault Refusal :=
  let c := s.cur
  if !c.seq.handlerActive then trapNow s false .ill
  else if c.seq.kfpc.toNat % 4 ≠ 0 then trapNow s false .align c.seq.kfpc
  else if !c.inCode c.seq.kfpc then trapNow s false .perm c.seq.kfpc
  else .next (s.setCur c.returnFromHandler)

/-! ### Stops (R287, R288) -/

/-- A launch that still starts holds a partition: a stop waits until its last cell has started (R115). -/
def State.starts (s : State) (p : Nat) : Bool :=
  ((s.part p).running.bind fun id => Map.get? s.launches id).any fun l => l.st == .starting

/-- Freeze a cell at its boundary. -/
def Cell.freeze (c : Cell) : Cell :=
  match c.run with
  | .running => { c with run := .stopped false }
  | .halted => { c with run := .stopped true }
  | _ => c

/-- A stop of a partition begins: its units freeze, and the cause is recorded (R288). -/
def State.beginStop (s : State) (p n bp link ordinal : Nat) : State :=
  let v := s.part p
  let k := match v.stop with
    | some k => k
    | none => v.stops + 1
  let s := if v.stop.isSome then s
    else ((cellsOfPart p).foldl (fun s m => s.onCell m Cell.freeze) s).onPart p fun v => { v with stop := some k, stops := k }
  s.trace p 6 n 0 (leBytes 8 k ++ leBytes 8 bp ++ leBytes 8 link ++ leBytes 8 ordinal)

/-- A debugger is attached to the context of a cell. -/
def State.attached (s : State) (c : Cell) : Bool := (Map.get? (s.part c.ident.part).ctxs c.ident.ctx).any fun x => x.attached

/-- `BREAK`: a stop with the instruction retired, or a `SNOP` that is counted and traced (R263, R352). The stop waits for the last
cell to start (R115). -/
def execBrk (s : State) : Host.Outcome State Fault Refusal :=
  let n := s.focus.cell
  let c := s.cur
  let p := partOfCell n
  let t := s.onCur fun c => c.retire false
  if s.attached c ∧ s.starts p then .next s
  else if s.attached c then .next (t.beginStop p n 0xFF 0 0)
  else .next ((t.countCell n 6 1).trace p 7 n 0 (leBytes 8 c.seq.pc.toNat))

/-! ### Watchdog and scrubs (R76, R92) -/

/-- WATCHDOG_EXPIRY: the launch is discarded and its partitions are resetting. -/
def execWatchdogExpiry (launch : Nat) (s : State) : Host.Outcome State Fault Refusal :=
  match Map.get? s.launches launch with
  | none => .next s
  | some l =>
    if !(l.st = .running ∨ l.st = .starting) ∨ l.used < l.budget then .next s
    else
      let s := s.discardLaunch launch
      .next (l.parts.foldl (fun s p => s.onPart p fun v => { v with st := .resetting, resetOf := some l.ending }) s)

/-- The state of a partition that has become ready: Running while a launch waits for it (R76). -/
def State.readyState (s : State) (p : Nat) : PartSt :=
  if s.launches.any fun l => l.2.parts.contains p then .running else .ready

/-- PARTITION_SCRUB_COMPLETE: the scrub or reset of a partition is over; with the last partition of a
launch the node completes with WATCHDOG. -/
def execPartitionScrubComplete (part : Nat) (s : State) : Host.Outcome State Fault Refusal :=
  let v := s.part part
  match v.st with
  | .scrubbing =>
    let s := if v.lastVf = v.vf then s.shortScrub part else s.fullScrub part
    .next (s.onPart part fun v => { v with st := s.readyState part, lastScrub := s.timebase, lastVf := v.vf })
  | .resetting =>
    let s := (s.shortScrub part).onPart part fun v => { v with st := s.readyState part, lastScrub := s.timebase, resetOf := none }
    match v.resetOf with
    | none => .next s
    | some e =>
      if s.parts.any fun x => x.2.resetOf == some e then .next s
      else .next (s.launchEnded e .watchdog 0 0)
  | .destroying =>
    .next ((s.shortScrub part).onPart part fun x => { Part.reset with
      gen := x.gen, lastVf := x.lastVf, lastScrub := s.timebase, lastUpdate := x.lastUpdate, counters := x.counters
      classTotals := x.classTotals, committed := x.committed, aborted := x.aborted, meterSeq := x.meterSeq })
  | _ => .next s

end Sys2Proof.Machine
end

