-- ==== Sys2Proof/Machine/Mailbox.lean ====
section
/-! DEFINITION. The Lodge mailbox (R97, R98): submission and its checks, mailbox order and completion; and the answers to
recoverable faults with the fault ring (R96, R99, R131). -/

namespace Sys2Proof.Machine

/-! ### The buffer (R97) -/

/-- The physical address of a staging byte of a function. -/
def Func.stagingPa (f : Func) (a : Word) : Option Nat :=
  match f.resolve a with
  | some (.staging pa) => some pa
  | _ => none

/-- n bytes of a function's staging memory, none when some lie outside. -/
def State.stagingRead (s : State) (fn : Nat) (a : Word) (n : Nat) : Option (List Byte) :=
  let l := tabulate n fun i => (s.func fn).stagingPa (a + BitVec.ofNat 64 i)
  if l.all (·.isSome) then some ((l.filterMap id).map fun pa => readMem s.mem pa) else none

/-- The bytes of a body that a request uses, as (offset, length), and so its least length (R98). -/
def mbFields (code : Nat) : List (Nat × Nat) :=
  match code with
  | 0x01 => [(0, 5), (8, 16)]
  | 0x02 => [(0, 1), (8, 8)]
  | 0x03 => [(0, 1), (2, 1), (8, 8)]
  | 0x04 => [(0, 1), (8, 16)]
  | 0x05 => [(0, 1), (8, 24)]
  | 0x06 => [(0, 1), (8, 16)]
  | 0x07 => [(0, 3)]
  | 0x08 => [(0, 1), (8, 8)]
  | 0x09 => [(0, 2), (4, 4)]
  | 0x0A => [(4, 4)]
  | 0x0B => [(0, 1)]
  | 0x20 => [(0, 2), (8, 20), (32, 24)]
  | 0x21 | 0x22 | 0x25 | 0x26 => [(0, 2)]
  | 0x23 => [(0, 12)]
  | 0x24 => [(0, 4)]
  | 0x27 => [(0, 20)]
  | 0x28 => [(0, 20)]
  | _ => []

/-- Codes open to PF 0 and codes open to a VF. -/
def mbOpen (fn code : Nat) : Bool :=
  if fn = 0 then decide (1 ≤ code) && decide (code ≤ 0x0B) else decide (0x20 ≤ code) && decide (code ≤ 0x29)

/-- The body is long enough, and what the code does not list is zero. `WRITE` carries its data from byte 64. -/
def mbBodyOk (code : Nat) (body : List Byte) : Bool :=
  let fields := if code = 0x28 then mbFields code ++ [(64, leAt body 16 4)] else mbFields code
  let least := fields.foldl (fun n e => max n (e.1 + e.2)) 0
  decide (least ≤ body.length) &&
    (List.range body.length).all fun i =>
      (fields.any fun e => decide (e.1 ≤ i) && decide (i < e.1 + e.2)) || body.getD i 0 == 0

/-! ### Submission and completion (R97) -/

/-- Completion in MBSTAT, with its signal. -/
def State.mbStatus (s : State) (fn status : Nat) : State :=
  (s.onFunc fn fun f => { f with mbBusy := false, mbDone := true, mbStatus := status }).signal fn (if fn = 0 then 1 else 65)

/-- Completion of a request: status, detail and timebase in the header, the response over the body; a response that would leave
the staging memory completes MALFORMED in MBSTAT alone. -/
def State.mbWrite (s : State) (r : MbReq) (status detail : Nat) (resp : List Byte) : State :=
  if (s.stagingRead r.fn r.addr (64 + resp.length)).isNone then s.mbStatus r.fn Status.malformed.code
  else
    let s := s.devWrite r.fn (r.addr + 64) resp
    let s := s.devWrite r.fn (r.addr + 8) (leBytes 1 status ++ leBytes 3 0 ++ leBytes 4 detail ++ leBytes 8 s.timebase)
    s.mbStatus r.fn status

/-- The request at the head of the mailbox order completes. -/
def State.mbDone (s : State) (r : MbReq) (st : Status) (detail : Nat := 0) (resp : List Byte := []) : State :=
  (s.onLodge fun l => { l with inbox := l.inbox.tail }).mbWrite r st.code detail resp

/-- A write of the doorbell (R97): the request enters the mailbox order, or is refused at once. -/
def State.mbSubmit (s : State) (fn : Nat) (v : Word) : State :=
  let f := s.func fn
  if v ≠ 1 ∨ f.mbBusy then s
  else
    let s := s.onFunc fn fun f => { f with mbBusy := true, mbDone := false }
    match s.stagingRead fn f.mbaddr 64 with
    | none => s.mbStatus fn Status.malformed.code
    | some h =>
      match s.stagingRead fn (f.mbaddr + 64) (leAt h 2 2) with
      | none => s.mbStatus fn Status.malformed.code
      | some body =>
        let r : MbReq := { fn := fn, addr := f.mbaddr, code := leAt h 0 2, body := body }
        if decide (65472 < body.length) || !zeroAt h 9 3 || !zeroAt h 24 40 || !mbOpen fn r.code || !mbBodyOk r.code body then
          s.mbWrite r Status.malformed.code 0 []
        else s.onLodge fun l => { l with inbox := l.inbox ++ [r] }

/-- MBDOOR_WRITE. -/
def execMbdoorWrite (fn : Nat) (v : Word) (s : State) : Host.Outcome State Fault Refusal :=
  if s.booted && (fn == 0 || (s.func fn).enabled) then .next (s.mbSubmit fn v) else .next s

/-- Serve the oldest request if it is this function's and has this code; the Lodge serves none while its firmware starts
(R94, R97). -/
def State.withRequest (s : State) (fn code : Nat) (k : MbReq → State) : Host.Outcome State Fault Refusal :=
  match s.lodge.inbox with
  | [] => .next s
  | r :: _ => if r.fn = fn ∧ r.code = code ∧ s.lodge.fw ≠ .activating then .next (k r) else .next s

/-! ### Answers to recoverable faults (R99, R131, R270) -/

/-- A cell's held accesses to a page of its world are answered: a sequencer's is denied or tried again, a thread's mark
clears. -/
def Cell.answer (c : Cell) (page : Nat) (denied : Bool) (holder : Option Nat) : Cell :=
  match holder with
  | none => if denied then c.withSeq fun q => { q with denied := page :: q.denied.filter (· != page) } else c
  | some t =>
    let c := if denied then c.withPhase fun p => { p with denied := (t, page) :: p.denied.filter (· != (t, page)) } else c
    c.withPhase fun p => p.clearFault t

/-- Answer a holder, in its cell or in the save images of its world. -/
def State.answerHolder (s : State) (w page : Nat) (denied : Bool) (h : Nat × Option Nat) : State :=
  let s := if (s.cell h.1).run ≠ .idle ∧ (s.cell h.1).ident.world = w then s.onCell h.1 fun c => c.answer page denied h.2 else s
  { s with launches := s.launches.map fun e =>
      (e.1, { e.2 with images := e.2.images.map fun i =>
        if i.1 = h.1 ∧ e.2.world = w then (i.1, i.2.answer page denied h.2) else i }) }

/-- A fault is answered: every access held on it goes on, or is denied; a COPY that waits on it is tried again, or ends with
POLICY. -/
def State.answerFault (s : State) (f : FaultRec) (denied : Bool) : State :=
  let s : State := { s with faults := s.faults.filter (· != f) }
  let s := f.holders.foldl (fun s h => s.answerHolder f.world (f.va / pageBytes) denied h) s
  if denied then f.nodes.foldl (fun s n => s.finishStatus n.1 n.2.1 n.2.2 .policy) s else s

/-- Answer every fault of a world in a range of pages. -/
def State.answerRange (s : State) (w va len : Nat) (denied : Bool) : State :=
  (s.faults.filter fun f => f.world == w && decide (va / pageBytes ≤ f.va / pageBytes) && decide (f.va < va + len)).foldl
    (fun s f => s.answerFault f denied) s

/-- NOMAP (R131, R98): POLICY when no posted fault stands on the page. -/
def execNomap (fn : Nat) (s : State) : Host.Outcome State Fault Refusal :=
  s.withRequest fn 0x08 fun r =>
    let w := leAt r.body 0 1
    match s.faults.find? fun f => f.on w (leAt r.body 8 8) && f.posted with
    | none => s.mbDone r .policy
    | some f => (s.answerFault f true).mbDone r .ok

/-- The oldest faults go first; a record is written to the ring, then FQTAIL moves, then vector 8 signals. -/
def execFaultRecordPost (k : Nat) (s : State) : Host.Outcome State Fault Refusal :=
  match s.faults[k]? with
  | none => .next s
  | some f =>
    let r := s.fring
    if f.posted || !r.en || (s.faults.take k).any (fun x => !x.posted) || decide (2 ^ r.logsize ≤ (r.tail - r.head).toNat) then
      .next s
    else
      let n := r.tail.toNat
      let record := leBytes 8 f.va ++ leBytes 1 f.world ++ leBytes 1 f.part ++ leBytes 2 f.cell ++ leBytes 1 f.kind
        ++ leBytes 1 f.ctx ++ leBytes 1 (1 - n / 2 ^ r.logsize % 2) ++ leBytes 1 0 ++ leBytes 8 f.time ++ leBytes 8 0
      let s := s.devWrite 0 (r.base + BitVec.ofNat 64 (32 * (n % 2 ^ r.logsize))) record
      let s : State := { s with
        fring := { r with tail := r.tail + 1 }
        faults := s.faults.set k { f with posted := true } }
      .next (s.signal 0 8)

/-- FQCTL (R96): ignored whole when a field is invalid; setting EN starts the counts anew, and clearing it answers every fault as
NOMAP does (R99). -/
def State.fqctl (s : State) (v : Word) : State :=
  let l := (v.extractLsb' 12 4).toNat
  if v &&& ~~~(0xF001 : Word) ≠ 0 ∨ l < 4 ∨ 12 < l then s
  else
    let en := v.getLsbD 0
    let r := s.fring
    let r := if en && !r.en then { r with tail := 0, head := 0 } else r
    let s : State := { s with fring := { r with logsize := l, en := en } }
    if en then s else s.faults.foldl (fun s f => s.answerFault f true) s

def execFqctlWrite (v : Word) (s : State) : Host.Outcome State Fault Refusal :=
  if s.booted then .next (s.fqctl v) else .next s

/-- FQHEAD. -/
def State.fqhead (s : State) (v : Word) : State := { s with fring := { s.fring with head := v.extractLsb' 0 16 } }

def execFqheadWrite (v : Word) (s : State) : Host.Outcome State Fault Refusal :=
  if s.booted then .next (s.fqhead v) else .next s

end Sys2Proof.Machine
end

