-- ==== Sys2Proof/Machine/Regs.lean ====
section
/-! DEFINITION. The registers of the functions and what a write of each does (R19, R82 to R86, R90, R94, R96), completion records
(R86), and host requests to the BARs (R22, R25, R26). -/

namespace Sys2Proof.Machine

/-! ### Completion records (R86, R425) -/

/-- The completion ring has a free slot. -/
def Queue.room (v : Queue) : Bool := decide ((v.ctail - v.chead).toNat < 2 ^ v.logsize)

/-- Write one record, advance CTAIL and signal. -/
def State.writePost (s : State) (fn q : Nat) (p : Post) : State :=
  let v := s.queue fn q
  let n := v.ctail.toNat
  let record := leBytes 8 p.tag.toNat ++ leBytes 4 p.head ++ leBytes 1 p.status.code ++ leBytes 1 p.node ++ leBytes 1 p.cause
    ++ leBytes 1 (1 - n / 2 ^ v.logsize % 2) ++ leBytes 8 p.time ++ leBytes 4 p.detail ++ leBytes 4 0
  let s := s.devWrite fn (v.qcbase + BitVec.ofNat 64 (32 * (n % 2 ^ v.logsize))) record
  let s := (s.onQueue fn q fun v => { v with ctail := v.ctail + 1 }).signal fn (if fn = 0 then 0 else q)
  if p.status = .watchdog then s.signal 0 3 else s

/-- Write the waiting records of a queue while its ring has room. -/
def State.flushPosts (s : State) (fn q : Nat) : Nat → State
  | 0 => s
  | k + 1 =>
    match (s.queue fn q).posts with
    | [] => s
    | p :: r =>
      if (s.queue fn q).room then ((s.onQueue fn q fun v => { v with posts := r }).writePost fn q p).flushPosts fn q k else s

/-- Post a record. -/
def State.post (s : State) (fn q : Nat) (p : Post) : State :=
  let s := s.onQueue fn q fun v => { v with posts := v.posts ++ [p] }
  s.flushPosts fn q (s.queue fn q).posts.length

/-! ### Queue registers (R82 to R85) -/

/-- The queues that exist: 64 of each enabled VF, and the administration queue. -/
def State.queueOk (s : State) (fn q : Nat) : Bool :=
  s.booted && if fn = 0 then q == 0 else (s.func fn).enabled && decide (fn ≤ 16) && decide (q < 64)

def Queue.ctlWord (v : Queue) : Word :=
  BitVec.ofNat 64 (v.wdog * 2 ^ 32 + v.weight * 2 ^ 16 + v.logsize * 2 ^ 12 + v.prio * 2 ^ 10 + (if v.en then 1 else 0))
def Queue.statWord (v : Queue) : Word :=
  BitVec.ofNat 64 (v.chead.toNat * 2 ^ 32 + v.ctail.toNat * 2 ^ 16 + (if v.ovr then 2 else 0) + (if v.graph.isNone then 1 else 0))

/-- QTAIL: a write that overfills the ring clears EN, sets OVR and posts an OVERRUN record; its tag is open. -/
def State.qtail (s : State) (fn q : Nat) (v : Word) : State :=
  let t := v.extractLsb' 0 16
  let s := s.onQueue fn q fun x => { x with qtail := t }
  let x := s.queue fn q
  if x.en && decide (2 ^ x.logsize < (t - x.qhead).toNat) then
    let (tag, s) := s.takeFree
    (s.onQueue fn q fun x => { x with en := false, ovr := true }).post fn q
      { tag := BitVec.ofNat 64 tag, head := x.qhead.toNat, status := .overrun, node := 0xFF, cause := 0, detail := 0
        time := s.timebase }
  else s

/-- The fields of QCTL as a write leaves them; a LOGSIZE outside 4 to 12 is reserved and ignored (R5). -/
def Queue.setCtl (x : Queue) (v : Word) : Queue :=
  let l := (v.extractLsb' 12 4).toNat
  { x with
    wdog := (v.extractLsb' 32 32).toNat
    weight := (v.extractLsb' 16 4).toNat
    logsize := if 4 ≤ l ∧ l ≤ 12 then l else x.logsize
    prio := (v.extractLsb' 10 2).toNat
    en := v.getLsbD 0 }

/-- QCTL: while EN = 1 only a write that clears EN is taken, and it is taken whole; setting EN zeroes the counts and clears
OVR. -/
def State.qctl (s : State) (fn q : Nat) (v : Word) : State :=
  let x := s.queue fn q
  if x.en then
    if v.getLsbD 0 then s else s.onQueue fn q fun x => x.setCtl v
  else
    let s := s.onQueue fn q fun x => x.setCtl v
    if v.getLsbD 0 then
      let s := s.onQueue fn q fun x => { x with qtail := 0, qhead := 0, ctail := 0, chead := 0, ovr := false }
      s.flushPosts fn q (s.queue fn q).posts.length
    else s

/-- QSTAT: only CHEAD, and only from its old value up to CTAIL. -/
def State.qstat (s : State) (fn q : Nat) (v : Word) : State :=
  let new : BitVec 16 := v.extractLsb' 32 16
  let x := s.queue fn q
  if (new - x.chead).toNat ≤ (x.ctail - x.chead).toNat then
    let s := s.onQueue fn q fun x => { x with chead := new }
    s.flushPosts fn q (s.queue fn q).posts.length
  else s

/-- QBASE and QCBASE: 64-byte aligned, and locked while EN = 1. -/
def State.qbase (s : State) (fn q : Nat) (completion : Bool) (v : Word) : State :=
  s.onQueue fn q fun x =>
    if x.en then x
    else if completion then { x with qcbase := v &&& ~~~(63 : Word) } else { x with qbase := v &&& ~~~(63 : Word) }

def execQtailWrite (fn q : Nat) (v : Word) (s : State) : Host.Outcome State Fault Refusal :=
  if s.queueOk fn q then .next (s.qtail fn q v) else .next s
def execQstatCheadWrite (fn q : Nat) (v : Word) (s : State) : Host.Outcome State Fault Refusal :=
  if s.queueOk fn q then .next (s.qstat fn q v) else .next s
def execQctlEnable (fn q : Nat) (v : Word) (s : State) : Host.Outcome State Fault Refusal :=
  if s.queueOk fn q && !(s.queue fn q).en && v.getLsbD 0 then .next (s.qctl fn q v) else .next s
def execQctlDisable (fn q : Nat) (v : Word) (s : State) : Host.Outcome State Fault Refusal :=
  if s.queueOk fn q && (s.queue fn q).en && !v.getLsbD 0 then .next (s.qctl fn q v) else .next s

/-! ### Events and acknowledgement (R90, R94) -/

/-- Add to or set a queue event. -/
def State.addEvent (s : State) (fn e : Nat) (v : Word) : State :=
  s.onFunc fn fun f => { f with events := Map.set 0 f.events e (Map.get 0 f.events e + v) }

/-- QEVDB. -/
def State.qevdb (s : State) (fn : Nat) (v : Word) : State :=
  s.addEvent fn (v.extractLsb' 0 10).toNat ((v.extractLsb' 16 48).setWidth 64)

/-- VFCTL: PAUSE_ACK counts while a firmware update pauses the functions. -/
def State.vfctl (s : State) (fn : Nat) (v : Word) : State :=
  if v.getLsbD 0 && s.lodge.fw == .pausing then s.onFunc fn fun f => { f with pauseAck := true } else s

def State.vfOk (s : State) (fn : Nat) : Bool := s.booted && decide (1 ≤ fn) && decide (fn ≤ 16) && (s.func fn).enabled

def execQevdbWrite (fn : Nat) (v : Word) (s : State) : Host.Outcome State Fault Refusal :=
  if s.vfOk fn then .next (s.qevdb fn v) else .next s
def execPauseAck (fn : Nat) (s : State) : Host.Outcome State Fault Refusal :=
  if s.vfOk fn then .next (s.vfctl fn 1) else .next s

/-! ### All registers (R82, R96) -/

/-- A write of the 8-byte register at an offset of BAR 0. -/
def State.regWrite (s : State) (fn off : Nat) (v : Word) : State :=
  if fn = 0 then
    match off with
    | 0x100 => s.qtail 0 0 v
    | 0x110 => s.qbase 0 0 false v
    | 0x118 => s.qbase 0 0 true v
    | 0x120 => s.qctl 0 0 v
    | 0x128 => s.qstat 0 0 v
    | 0x200 => s.onFunc 0 fun f => { f with mbaddr := v &&& ~~~(63 : Word) }
    | 0x208 => s.mbSubmit 0 v
    | 0x300 => { s with fring := { s.fring with base := v &&& ~~~(63 : Word) } }
    | 0x308 => s.fqctl v
    | 0x318 => s.fqhead v
    | _ => s
  else if off % 8 ≠ 0 then s
  else if off < 0x200 then s.qtail fn (off / 8) v
  else if 0x800 ≤ off ∧ off < 0x1000 then
    let q := (off - 0x800) / 32
    match (off - 0x800) % 32 with
    | 0 => s.qbase fn q false v
    | 8 => s.qbase fn q true v
    | 16 => s.qctl fn q v
    | _ => s.qstat fn q v
  else
    match off with
    | 0x1000 => s.qevdb fn v
    | 0x1008 => s.vfctl fn v
    | 0x1020 => s.onFunc fn fun f => { f with mbaddr := v &&& ~~~(63 : Word) }
    | 0x1028 => s.mbSubmit fn v
    | _ => s

/-- BOOTSTAT (R19). -/
def Boot.word (b : Boot) : Word := BitVec.ofNat 64 ((if b.fail then 0x10000 else 0) + b.stage * 256 + b.unit)

/-- MBSTAT (R97). -/
def Func.mbstat (f : Func) : Word :=
  BitVec.ofNat 64 (f.mbStatus % 256 * 256 + (if f.mbDone then 2 else 0) + (if f.mbBusy then 1 else 0))

/-- What the 8-byte register at an offset of BAR 0 reads; every offset not listed reads zero. What a write-only register
(QEVDB, VFCTL, MBDOOR) reads is open: the model reads zero (log 28). -/
def State.regRead (s : State) (fn off : Nat) : Word :=
  if fn = 0 then
    match off with
    | 0x000 => s.boot.word
    | 0x100 => (s.queue 0 0).qtail.setWidth 64
    | 0x108 => (s.queue 0 0).qhead.setWidth 64
    | 0x110 => (s.queue 0 0).qbase
    | 0x118 => (s.queue 0 0).qcbase
    | 0x120 => (s.queue 0 0).ctlWord
    | 0x128 => (s.queue 0 0).statWord
    | 0x200 => (s.func 0).mbaddr
    | 0x210 => (s.func 0).mbstat
    | 0x300 => s.fring.base
    | 0x308 => BitVec.ofNat 64 (s.fring.logsize * 4096 + (if s.fring.en then 1 else 0))
    | 0x310 => s.fring.tail.setWidth 64
    | 0x318 => s.fring.head.setWidth 64
    | _ => if 0x1000 ≤ off ∧ off < 0x2000 ∧ off % 8 = 0 then s.hyperWord ((off - 0x1000) / 8) else 0
  else if off % 8 ≠ 0 then 0
  else if off < 0x200 then (s.queue fn (off / 8)).qtail.setWidth 64
  else if 0x400 ≤ off ∧ off < 0x600 then (s.queue fn ((off - 0x400) / 8)).qhead.setWidth 64
  else if 0x800 ≤ off ∧ off < 0x1000 then
    let x := s.queue fn ((off - 0x800) / 32)
    match (off - 0x800) % 32 with
    | 0 => x.qbase
    | 8 => x.qcbase
    | 16 => x.ctlWord
    | _ => x.statWord
  else if 0x2000 ≤ off ∧ off < 0xE000 then
    let p := (off - 0x2000) / 0xC00
    if (s.part p).vf = fn then s.windowWord p off else 0
  else
    match off with
    | 0x1010 => BitVec.ofNat 64 (s.func fn).vfevent
    | 0x1020 => (s.func fn).mbaddr
    | 0x1030 => (s.func fn).mbstat
    | _ => 0

/-! ### TDISP ERROR (R25) -/

/-- The TDI of a VF moves to ERROR: its running launches are to be pre-empted and held (R25, R115). -/
def State.tdiError (s : State) (fn : Nat) : State :=
  let s := s.onFunc fn fun f => { f with tdi := .error }
  { s with launches := s.launches.map fun e =>
      if e.2.vf = fn ∧ (e.2.st = .running ∨ e.2.st = .starting) then (e.1, { e.2 with wantPreempt := some 3 }) else e }

/-- A change that CONFIG_LOCKED and RUN answer with ERROR. -/
def State.tdiChange (s : State) (fn : Nat) : State :=
  match (s.func fn).tdi with
  | .configLocked | .run => s.tdiError fn
  | _ => s

/-! ### Host requests (R22, R26) -/

/-- Function 0, or an enabled virtual function. -/
def State.funcOk (s : State) (fn : Nat) : Bool := s.booted && (fn == 0 || s.vfOk fn)

/-- The size of BAR 0 of a function, and of BAR 2 (R22). -/
def bar0Bytes (fn : Nat) : Nat := if fn = 0 then 0x100000 else 0x10000
def bar2Bytes : Nat := 2 ^ 28

/-- The boot sequence runs (R20). -/
def State.booting (s : State) : Bool := !s.boot.fail && decide (s.boot.stage < 8)

/-- A register of the functions' configuration space, which answers with a retry while the boot sequence runs (R20). -/
def inConfigSpace : RegPlace → Bool
  | .bar0 _ => false
  | .barAddress _ | .msixLocation => true

/-- Set the address of a 64-bit BAR: a multiple of its size, as PCIe has it (R22, log 28). -/
def Func.setBar (f : Func) (fn bar : Nat) (v : Word) : Func :=
  if bar = 0 then { f with bar0 := v &&& ~~~(BitVec.ofNat 64 (bar0Bytes fn - 1)) }
  else if bar = 2 then { f with bar2 := v &&& ~~~(BitVec.ofNat 64 (bar2Bytes - 1)) }
  else f

/-- REGISTER_WRITE. -/
def execRegisterWrite (fn : Nat) (place : RegPlace) (v : Word) (s : State) : Host.Outcome State Fault Refusal :=
  if s.booting && inConfigSpace place then .next (s.emit (.configRetry fn))
  else if !s.funcOk fn then .next s
  else match place with
    | .bar0 off => .next (s.regWrite fn off v)
    | .barAddress bar => .next ((s.onFunc fn fun f => f.setBar fn bar v).tdiChange fn)
    | .msixLocation => .next ((s.onFunc fn fun f => { f with msixLoc := v }).tdiChange fn)

/-- A configuration read: a retry while the boot sequence runs; the module's DVSEC shows bits [31:0] of the boot status, also
where the sequence has stopped, and the other registers are open (R18 to R20, log 28). -/
def State.configRead (s : State) (fn : Nat) (dvsec : Bool) : State :=
  if s.booting then s.emit (.configRetry fn)
  else if fn ≠ 0 ∧ !s.funcOk fn then s.emit (.unsupported fn)
  else if fn = 0 ∧ dvsec then s.emit (.configData fn (s.boot.word.setWidth 32))
  else
    let (x, s) := s.takeFree
    s.emit (.configData fn (BitVec.ofNat 32 x))

/-- The function's BARs answer; BOOTSTAT answers also when the sequence has stopped at stage 3 or later (R19, R20). -/
def State.barAnswers (s : State) (fn : Nat) : Bool := s.funcOk fn || (fn == 0 && s.boot.fail && decide (3 ≤ s.boot.stage))

/-- A request of the host or of a peer. A write to BAR 0 that is not one aligned 8-byte write is open: the model ignores it
(log 28). -/
def State.request (s : State) (fn : Nat) (req : HostReq) : State :=
  match req with
  | .touch _ _ => s.emit (.unsupported fn)
  | .readConfig dvsec => s.configRead fn dvsec
  | .readBar bar off size =>
    if !s.barAnswers fn then s.emit (.unsupported fn)
    else if bar = 0 ∧ off + size ≤ bar0Bytes fn then
      s.emit (.hostData fn (tabulate size fun i => ((s.regRead fn ((off + i) / 8 * 8)) >>> (8 * ((off + i) % 8))).setWidth 8))
    else if bar = 2 ∧ off + size ≤ bar2Bytes then
      match s.stagingRead fn (0xF000000000000000 + BitVec.ofNat 64 off) size with
      | some l => s.emit (.hostData fn l)
      | none => s.emit (.unsupported fn)
    else s.emit (.unsupported fn)
  | .writeBar bar off data =>
    if !s.funcOk fn then s.emit (.unsupported fn)
    else if bar = 0 ∧ off + data.length ≤ bar0Bytes fn then
      if data.length = 8 ∧ off % 8 = 0 then s.regWrite fn off (BitVec.ofNat 64 (leNat data)) else s
    else if bar = 2 ∧ off + data.length ≤ bar2Bytes then
      let a : Word := 0xF000000000000000 + BitVec.ofNat 64 off
      if (s.stagingRead fn a data.length).isSome then s.devWrite fn a data else s.emit (.unsupported fn)
    else s.emit (.unsupported fn)

/-- HOST_REQUEST. -/
def execHostRequest (fn : Nat) (req : HostReq) (s : State) : Host.Outcome State Fault Refusal := .next (s.request fn req)

end Sys2Proof.Machine
end

