-- ==== Sys2Proof/Machine/Graphs.lean ====
section
/-! DEFINITION. Command graphs (R85 to R91): fetching and checking a graph, its walk, queue events, the COPY node, and meter
reports (R72 to R74). -/

namespace Sys2Proof.Machine

/-! ### The checks of R87 -/

/-- Bytes of the body that a node type uses, as (offset, length); none for a reserved type (R88). -/
def nodeFields (ty : Nat) : Option (List (Nat × Nat)) :=
  match ty with
  | 0x01 => some [(16, 37)]
  | 0x02 => some [(16, 25)]
  | 0x03 => some [(16, 2), (24, 8)]
  | 0x04 => some [(16, 1), (24, 8)]
  | 0x05 => some [(16, 2), (24, 32)]
  | 0x06 => some [(16, 17)]
  | 0x07 => some [(16, 3), (24, 8)]
  | 0x08 => some [(16, 2), (24, 12)]
  | 0x10 => some [(16, 3)]
  | 0x11 => some [(16, 1)]
  | 0x12 => some [(16, 1), (24, 8)]
  | 0x13 => some [(16, 16)]
  | 0x14 => some []
  | _ => none

/-- The values that the table of node types gives a meaning (R88, R100). -/
def nodeValuesOk (b : List Byte) : Bool :=
  let byte (o : Nat) := leAt b o 1
  match byte 0 with
  | 0x01 => decide (byte 22 ≤ 3) && decide (byte 23 ≤ 7) && decide (byte 52 ≤ 29)
  | 0x02 => decide (1 ≤ leAt b 32 8) && decide (leAt b 32 8 ≤ 2 ^ 40) && (decide (byte 40 ≤ 3) || byte 40 == 0xFF)
  | 0x03 => decide (byte 17 ≤ 3) && (decide (byte 16 ≤ 8) || byte 16 == 0x10 || byte 16 == 0x11)
  | 0x04 => decide (byte 16 ≤ 15)
  | 0x05 => decide (1 ≤ byte 16) && decide (byte 16 ≤ 8)
  | 0x07 => decide (leAt b 16 2 ≤ 1023) && decide (byte 18 ≤ 1)
  | 0x08 => decide (leAt b 16 2 ≤ 1023)
  | 0x10 => decide (byte 16 ≤ 15) && decide (1 ≤ byte 17) && decide (byte 17 ≤ 16)
  | 0x11 => decide (byte 16 ≤ 15)
  | 0x12 => decide (byte 16 ≤ 3)
  | _ => true

/-- A node by itself: its type belongs to the queue (R76), its zero bytes are zero, and its values are in range. -/
def nodeOk (admin : Bool) (b : List Byte) : Bool :=
  match nodeFields (leAt b 0 1) with
  | none => false
  | some fields =>
    (decide (0x10 ≤ leAt b 0 1) == admin) && zeroAt b 2 6 && decide (leAt b 1 1 ≤ 63) && nodeValuesOk b
      && (List.range 48).all fun i =>
        (fields.any fun e => decide (e.1 ≤ i + 16) && decide (i + 16 < e.1 + e.2)) || b.getD (i + 16) 0 == 0

def nodeSucc (b : List Byte) : Nat := leAt b 8 8

/-- The number of nodes that name node i. -/
def predsOf (nodes : List (List Byte)) (i : Nat) : Nat := (nodes.filter fun b => (nodeSucc b).testBit i).length

/-- The graph as a whole: successors carry higher indices, and the predecessor counts agree. -/
def graphOk (admin : Bool) (nodes : List (List Byte)) : Bool :=
  nodes.all (nodeOk admin) &&
  (nodes.mapIdx fun i b =>
    (List.range 64).all (fun j => !(nodeSucc b).testBit j || (decide (i < j) && decide (j < nodes.length)))
      && predsOf nodes i == leAt b 1 1).all id

/-! ### Fetching and walking (R85 to R91) -/

/-- The time at which nodes became ready, for those that have just become so (R91). -/
def Graph.noteReady (g : Graph) (now : Nat) : Graph :=
  { g with started := g.ready.foldl (fun m i => if (Map.get? m i).isSome then m else Map.put m i now) g.started }

/-- The graph of some nodes at its start. -/
def newGraph (tag : Word) (nodes : List (List Byte)) (level : Nat) : Graph where
  tag := tag
  nodes := nodes
  remaining := nodes.map fun b => leAt b 1 1
  st := nodes.map fun _ => .idle
  results := []
  failed := none
  detail := 0
  level := level
  waitSince := 0
  started := []

/-- A queue may fetch (R24, R25, R83, R85, R86, R94, R275): it is enabled with an entry and room for the record, no graph of
it is in progress, its function is not held, and no Bandstand reloads. R24 names a VF's stream only; that an Insecure stream
of physical function 0 stops the administration queue too is the model's choice (log 28). -/
def State.mayFetch (s : State) (fn q : Nat) : Bool :=
  let v := s.queue fn q
  s.queueOk fn q && v.en && v.graph.isNone && v.posts.isEmpty && v.qtail != v.qhead && v.room
    && s.lodge.fw == .running && (s.func fn).tdi != .error && !(s.func fn).ide.insecure && s.reloading.isEmpty

/-- The entry and the nodes of the next graph: tag and nodes, or none for what R85 and R87 refuse. -/
def State.readGraph (s : State) (fn q : Nat) : Word × Option (List (List Byte)) :=
  let v := s.queue fn q
  match s.devRead fn (v.qbase + BitVec.ofNat 64 (64 * (v.qhead.toNat % 2 ^ v.logsize))) 64 with
  | none => (0, none)
  | some e =>
    let tag := BitVec.ofNat 64 (leAt e 16 8)
    let count := leAt e 8 1
    if leAt e 0 8 % 64 ≠ 0 ∨ count = 0 ∨ 64 < count ∨ !zeroAt e 9 7 ∨ !zeroAt e 24 40 then (tag, none)
    else
      match s.devRead fn (BitVec.ofNat 64 (leAt e 0 8)) (64 * count) with
      | none => (tag, none)
      | some l =>
        let nodes := tabulate count fun i => (l.drop (64 * i)).take 64
        if graphOk (fn == 0) nodes then (tag, some nodes) else (tag, none)

/-- GRAPH_FETCH. -/
def execGraphFetch (fn q : Nat) (s : State) : Host.Outcome State Fault Refusal :=
  if !s.mayFetch fn q then .next s
  else
    let v := s.queue fn q
    let (tag, r) := s.readGraph fn q
    let s := s.onQueue fn q fun v => { v with qhead := v.qhead + 1 }
    match r with
    | none =>
      .next (s.post fn q
        { tag := tag, head := (v.qhead + 1).toNat, status := .malformed, node := 0xFF, cause := 0, detail := 0, time := s.timebase })
    | some nodes =>
      let g := newGraph tag nodes (if fn = 0 then 3 else v.prio)
      .next (s.onQueue fn q fun v => { v with graph := some (g.noteReady s.timebase) })

/-- A node's result in its graph (R89): successors' counts fall, or the failure is noted, the lower index prevailing. -/
def Graph.take (g : Graph) (i : Nat) (r : NodeResult) : Graph :=
  let b := g.nodes.getD i []
  let g := { g with st := g.st.set i .finished, results := Map.erase g.results i }
  if r.status = .ok then
    { g with
      remaining := g.remaining.mapIdx fun j n => if (nodeSucc b).testBit j then n - 1 else n
      detail := if leAt b 0 1 = 0x01 ∨ leAt b 0 1 = 0x06 then r.detail else g.detail }
  else
    match g.failed with
    | some (j, _) => if i < j then { g with failed := some (i, r) } else g
    | none => { g with failed := some (i, r) }

/-- Nothing is left to run. -/
def Graph.over? (g : Graph) : Bool :=
  g.st.all (· != NodeSt.dispatched) &&
    (g.failed.isSome || (List.range g.nodes.length).all fun i => g.st[i]? != some NodeSt.idle || g.remaining[i]? != some 0)

/-- The record of a graph that is over at a time. -/
def Graph.record (g : Graph) (head now : Nat) : Post :=
  match g.failed with
  | none => { tag := g.tag, head := head, status := .ok, node := 0xFF, cause := 0, detail := g.detail, time := now }
  | some (i, r) => { tag := g.tag, head := head, status := r.status, node := i, cause := r.cause, detail := r.detail, time := now }

/-- After a failure no further node is dispatched: launches of the graph that still wait for a partition are given up (R89). -/
def State.dropWaiting (s : State) (fn q : Nat) (g : Graph) : State :=
  if g.failed.isNone then s
  else (s.launches.filter fun e => e.2.fn == fn && e.2.q == q && e.2.st == .waiting && e.2.pod.isNone).foldl
    (fun s e => s.discardLaunch e.1) s

/-- Take the result of a node: its graph goes on, or is over with its record. -/
def State.completeNode (s : State) (fn q node : Nat) : State :=
  let v := s.queue fn q
  match v.graph with
  | none => s
  | some g =>
    match Map.get? g.results node with
    | none => s
    | some r =>
      let g := (g.take node r).noteReady s.timebase
      let s := s.dropWaiting fn q g
      if g.over? then (s.onQueue fn q fun v => { v with graph := none }).post fn q (g.record v.qhead.toNat s.timebase)
      else s.onQueue fn q fun v => { v with graph := some g }

/-- NODE_COMPLETE. -/
def execNodeComplete (fn q node : Nat) (s : State) : Host.Outcome State Fault Refusal :=
  if s.walks then .next (s.completeNode fn q node) else .next s

/-- Take every result that stands. -/
def State.completeAll (s : State) : State :=
  s.funcs.foldl (fun s f => f.2.queues.foldl (fun s q =>
    (List.range 64).foldl (fun s node => s.completeNode f.1 q.1 node) s) s) s

/-! ### Queue events (R90) -/

/-- SIGNAL. -/
def execSignalNode (fn q node : Nat) (s : State) : Host.Outcome State Fault Refusal :=
  s.withNode fn q node 0x07 fun b =>
    let e := leAt b 16 2
    let v := BitVec.ofNat 64 (leAt b 24 8)
    let s := if leAt b 18 1 = 0 then s.addEvent fn e v
      else s.onFunc fn fun f => { f with events := Map.set 0 f.events e v }
    s.finishStatus fn q node .ok

/-- The event of a WAIT node has reached its threshold. -/
def State.waitReached (s : State) (fn : Nat) (b : List Byte) : Bool :=
  decide (leAt b 24 8 ≤ (Map.get 0 (s.func fn).events (leAt b 16 2)).toNat)

/-- WAIT. -/
def execWaitNode (fn q node : Nat) (s : State) : Host.Outcome State Fault Refusal :=
  s.withNode fn q node 0x08 fun b => if s.waitReached fn b then s.finishStatus fn q node .ok else s

/-- WAIT_TIMEOUT: a signal that has reached the event comes first. -/
def execWaitTimeout (fn q node : Nat) (s : State) : Host.Outcome State Fault Refusal :=
  s.withNode fn q node 0x08 fun b =>
    let us := leAt b 32 4
    let start := (s.queue fn q).graph.elim 0 fun g => Map.get 0 g.started node
    if (s.nodeOf fn q node 0x08).isSome ∧ us ≠ 0 ∧ start + us * 1000 ≤ s.timebase ∧ !s.waitReached fn b then
      s.finishStatus fn q node .timeout
    else s

/-! ### COPY (R23, R88, R99, R137) -/

/-- Every page of a range of a world is a local NORM page, with W where it is written: a trap stands for POLICY. -/
def State.copyRange (s : State) (w va len : Nat) (write : Bool) : Chk Unit :=
  if va + len > 2 ^ 58 then .trap .perm 0
  else
    (List.range ((va + len + pageBytes - 1) / pageBytes - va / pageBytes)).foldl (fun r i =>
      r.andThen fun _ =>
        (s.translate w (if write then .streamDst else .streamSrc) 1
          (BitVec.ofNat 64 (max va ((va / pageBytes + i) * pageBytes)))).andThen fun l =>
        Chk.need (l.cls == .norm && paModule l.pa == s.pod.self && s.localOk (paLocal l.pa)) .perm 0) (.ok ())

/-- An end of a COPY: staging or host memory, or a range of the context's world. -/
def State.copyEnd (s : State) (fn : Nat) (w : Option Nat) (a : Word) (len : Nat) (write : Bool) : Chk Unit :=
  match w with
  | some w => if a.extractLsb' 60 4 = 0xF then Chk.need (s.devOk fn a len) .perm 0 else s.copyRange w a.toNat len write
  | none => Chk.need (s.devOk fn a len) .perm 0

/-- Read and write an end that has been checked. -/
def State.copyOut (s : State) (fn : Nat) (c : Option (Nat × Nat)) (ctx : Nat) (a : Word) (len : Nat) : State × List Byte :=
  match c with
  | some (p, w) => if a.extractLsb' 60 4 = 0xF then (s, (s.devRead fn a len).getD []) else s.unitRead p ctx w a.toNat len
  | none => (s, (s.devRead fn a len).getD [])
def State.copyIn (s : State) (fn : Nat) (c : Option (Nat × Nat)) (ctx : Nat) (a : Word) (l : List Byte) : State :=
  match c with
  | some (p, w) => if a.extractLsb' 60 4 = 0xF then s.devWrite fn a l else s.unitWrite p ctx w a.toNat l
  | none => s.devWrite fn a l

/-- An end of a COPY in world memory needs a CXL port that is down (R29). -/
def State.copyHitsDown (s : State) (w : Option Nat) (a : Word) (len : Nat) : Bool :=
  match w with
  | some w => a.extractLsb' 60 4 != 0xF && (lineStarts a.toNat len).any fun x => s.portDown (s.paOf w x)
  | none => false

/-- A COPY waits on a page: PERM at once while the fault ring is off. -/
def State.copyFault (s : State) (fn q node w p ctx va : Nat) : State :=
  if !s.fring.en then (s.countEvent p 10 1).finishStatus fn q node .policy
  else
    let me := (fn, q, node)
    if s.faults.any fun f => f.on w va then
      { s with faults := s.faults.map fun f =>
          if f.on w va ∧ !f.nodes.contains me then { f with nodes := f.nodes ++ [me] } else f }
    else
      let s := s.countEvent p 10 1
      { s with faults := s.faults ++ [{
          va := va, world := w, part := p, cell := 0xFFFF, kind := 5, ctx := ctx, posted := false
          time := s.timebase, holders := [], nodes := [me] }] }

/-- No scrub runs on a partition (R81). -/
def State.noScrub (s : State) (p : Nat) : Bool :=
  match (s.part p).st with
  | .scrubbing | .resetting | .destroying => false
  | _ => true

/-- The partitions whose memory an end of a COPY touches: the home of each page of a world, or the one that holds the function's
staging memory. -/
def State.copyParts (s : State) (fn : Nat) (w : Option Nat) (a : Word) (len : Nat) : List Nat :=
  if a.extractLsb' 60 4 = 0xF then [(s.func fn).stagePart]
  else match w.bind s.world? with
    | none => []
    | some v =>
      (List.range ((a.toNat + len + pageBytes - 1) / pageBytes - a.toNat / pageBytes)).filterMap fun i =>
        let va := max a.toNat ((a.toNat / pageBytes + i) * pageBytes)
        (v.leafAt va).map fun l => s.homePart (l.2.pa + (va - l.1))

/-- COPY: both ends are checked in full before any byte moves, and it waits while a scrub runs on a partition that it would reach
(R81). -/
def execCopyNode (fn q node : Nat) (s : State) : Host.Outcome State Fault Refusal :=
  s.withNode fn q node 0x02 fun b =>
    let src := BitVec.ofNat 64 (leAt b 16 8)
    let dst := BitVec.ofNat 64 (leAt b 24 8)
    let len := leAt b 32 8
    let ctx := leAt b 40 1
    let c := if ctx = 0xFF then none else s.ctxWorld fn ctx
    if ctx ≠ 0xFF ∧ c.isNone then s.finishStatus fn q node .policy
    else
      let w := c.map (·.2)
      if !(c.toList.map (·.1) ++ s.copyParts fn w src len ++ s.copyParts fn w dst len).all s.noScrub then s
      else
      match (s.copyEnd fn w src len false).andThen fun _ => s.copyEnd fn w dst len true with
      | .trap _ _ => s.finishStatus fn q node .policy
      | .endWorld cz =>
        (s.endWorld (w.getD 64) cz.code 0xFFFF 0).finishNode fn q node { status := .ended, cause := cz.code, detail := 0 }
      | .hold va => s.copyFault fn q node (w.getD 64) ((c.map (·.1)).getD 0) ctx va
      | .ok _ =>
        if s.copyHitsDown w src len || s.copyHitsDown w dst len then
          (s.machineCheck ((c.map (·.1)).getD 0) ctx).finishNode fn q node { status := .error, cause := Cause.mchk.code, detail := 0 }
        else
        let (s, l) := s.copyOut fn c ctx src len
        (s.copyIn fn c ctx dst l).finishStatus fn q node .ok

/-! ### Meter reports (R72 to R74) -/

/-- The world whose number a partition's report carries: that of its lowest context. -/
def Part.meterWorld (v : Part) : Option Nat := v.ctxs.head?.map fun e => e.2.world

/-- Bytes 0 to 287 of a report. -/
def State.meterBody (s : State) (p : Nat) (final : Bool) : List Byte :=
  let v := s.part p
  let w := v.meterWorld
  let digest := ((w.bind s.world?).bind fun x => x.bundle.map fun b => b.digest).getD 0
  leBytes 4 0x54454D51 ++ leBytes 1 1 ++ leBytes 1 (if final then 1 else 0) ++ leBytes 1 p ++ leBytes 1 (w.getD 0xFF)
    ++ leBytes 8 v.gen ++ leBytes 8 (v.meterSeq + 1) ++ leBytes 8 s.timebase
    ++ digestBytes s.lodge.identityDigest ++ leBytes 48 digest
    ++ (tabulate 10 fun i => leBytes 8 (v.committed.getD i 0)).flatten
    ++ (tabulate 9 fun i => leBytes 8 (v.aborted.getD i 0)).flatten ++ leBytes 8 0

/-- A report, sampled at one instant, with the sequence number of its generation. -/
def State.meterReport (s : State) (p : Nat) (final : Bool) : State × List Byte :=
  let body := s.meterBody p final
  (s.onPart p fun v => { v with meterSeq := v.meterSeq + 1 }, signRecord s.lodge.aliasKey (ascii "nq meter") body)

/-- METER. While the partition is being destroyed its last report has gone out, and the node completes NOPART (R74, log 28). -/
def execMeterNode (fn q node : Nat) (s : State) : Host.Outcome State Fault Refusal :=
  s.withNode fn q node 0x04 fun b =>
    let p := leAt b 16 1
    let a := BitVec.ofNat 64 (leAt b 24 8)
    if !s.lodgeFree then s
    else if !s.owns fn p ∨ (s.part p).st = .destroying then s.finishStatus fn q node .nopart
    else if !s.devOk fn a 5011 then s.finishStatus fn q node .policy
    else
      let (s, l) := s.meterReport p false
      (s.devWrite fn a l).finishStatus fn q node .ok

end Sys2Proof.Machine
end

