-- ==== Sys2Proof/Machine/Worlds.lean ====
section
/-! DEFINITION. Worlds, contexts, seals, sessions and packages, as the nodes of a graph administer them (R44 to R47, R53 to R68,
R78, R301). -/

namespace Sys2Proof.Machine

/-! ### Shared (R68, R88) -/

/-- The request, byte 17, request record, response buffer, reply ring, slot count and slot size of a SESSION node. -/
structure SessionNode where
  req      : Nat
  byte17   : Nat
  record   : Word
  response : Word
  ring     : Nat
  slots    : Nat
  slotSize : Nat
  deriving DecidableEq, Repr

def sessionNodeOf (b : List Byte) : SessionNode where
  req := leAt b 16 1
  byte17 := leAt b 17 1
  record := BitVec.ofNat 64 (leAt b 24 8)
  response := BitVec.ofNat 64 (leAt b 32 8)
  ring := leAt b 40 8
  slots := leAt b 48 4
  slotSize := leAt b 52 4

/-- Run a SESSION request with its record of n bytes: MALFORMED where byte 17 must be zero and is not, POLICY where the record or
the response lies outside the function's memory. -/
def State.withSession (s : State) (fn q node req n resp : Nat) (k : SessionNode → List Byte → State) :
    Host.Outcome State Fault Refusal :=
  s.withNode fn q node 0x05 fun b =>
    let x := sessionNodeOf b
    if x.req ≠ req ∨ !s.lodgeFree then s
    else if req ≠ 2 ∧ req ≠ 3 ∧ x.byte17 ≠ 0 then s.finishStatus fn q node .malformed
    else match s.devRead fn x.record n with
      | none => s.finishStatus fn q node .policy
      | some r => if !s.devOk fn x.response resp then s.finishStatus fn q node .policy else k x r

/-- A world that is bound to the VF and not Ending. -/
def State.ownWorld (s : State) (fn w : Nat) : Option World :=
  (s.world? w).bind fun v => if v.vf = fn ∧ v.st ≠ .ending then some v else none

/-! ### CREATE_WORLD (R44, R45, R67, R69) -/

/-- The ranges that a world owns. -/
def State.worldRanges (s : State) (w : Nat) : List OwnRange :=
  s.owners.filter fun o => o.owner == .world w || o.owner == .kvMeta w

/-- Bytes of a world's footprint in a partition's HBM (R125). -/
def State.hbmFootprint (s : State) (w p : Nat) : Nat :=
  ((s.worldRanges w).flatMap fun o => (partRanges 0 p).map fun r => overlapBytes (paLocal o.base) o.len r.1 r.2).sum

/-- Bytes of a world's second-tier footprint whose home is a partition (R127). -/
def State.tierFootprint (s : State) (w p : Nat) : Nat :=
  ((s.worldRanges w).filter fun o => isTier (paLocal o.base) && o.home == p).foldl (fun n o => n + o.len) 0

/-- ⌈F ÷ S⌉ in ms, the largest over the world's home partitions and tiers: each home partition is swept at its own HBM bandwidth
and its own second-tier entitlement (R69, R149). -/
def State.sweepMs (s : State) (w : Nat) (v : World) : Nat :=
  (List.range 16).foldl (fun n p =>
    max n (max (ceilDiv (s.hbmFootprint w p * v.divisor) 1950000000) (ceilDiv (s.tierFootprint w p * v.divisor) 15125000))) 0

/-- The period in force of an epoch that begins now, in ns (R69). -/
def State.periodNow (s : State) (w : Nat) (v : World) : Nat := max v.periodMs (s.sweepMs w v) * 1000000

/-- The world policy record: magic, version, flags, home partition, divisor and period, each in its range (R67). -/
def policyRecordOk (r : List Byte) : Bool :=
  let div := leAt r 7 1
  let ms := leAt r 8 4
  leAt r 0 4 == 0x4C505751 && leAt r 4 1 == 1 && decide (leAt r 5 1 ≤ 1) && decide (leAt r 6 1 ≤ 15)
    && (div == 0 || (decide (10 ≤ div) && decide (div ≤ 80))) && (ms == 0 || (decide (10 ≤ ms) && decide (ms ≤ 10000)))
    && zeroAt r 12 52

/-- A world as CREATE_WORLD makes it. When the first meter interval starts is open: the model counts it from the creation
(R74, log 28). -/
def newWorld (fn now : Nat) (keys : WorldKeys) (r : List Byte) : World where
  st := .opened
  vf := fn
  unsigned := leAt r 5 1 == 1
  home := leAt r 6 1
  divisor := if leAt r 7 1 = 0 then 40 else leAt r 7 1
  periodMs := if leAt r 8 4 = 0 then 1000 else leAt r 8 4
  policyDigest := (Config.sha384 (r.take 64)).toNat
  keys := some keys
  t0 := now
  epoch := 0
  epochStart := now
  periodNs := (if leAt r 8 4 = 0 then 1000 else leAt r 8 4) * 1000000
  clean := none
  sweeping := []
  hashes := []
  leaves := []
  evictCtr := 0
  bundle := none
  loading := none
  regions := []
  current := []
  packages := []
  nextHandle := 1
  sessions := []
  kv := none
  kvq := []
  pairs := []
  held := false
  endCause := 0
  endCell := 0
  endEpoch := 0
  endTime := 0
  scrubs := []
  lastMeter := now

/-- CREATE_WORLD: which free number is assigned is open; the model takes the lowest (R44, log 28). -/
def execCreateWorld (fn q node : Nat) (s : State) : Host.Outcome State Fault Refusal :=
  s.withSession fn q node 1 64 1608 fun x r =>
    if !policyRecordOk r then s.finishStatus fn q node .malformed
    else if !s.owns fn (leAt r 6 1) then s.finishStatus fn q node .policy
    else match (List.range 64).find? fun w => (s.world? w).isNone with
      | none => s.finishStatus fn q node .limit
      | some w =>
        let keys : WorldKeys := {
          memory := Config.freshKey s.free, haha := Config.freshKey (s.free + 1), kwelia := Config.freshKey (s.free + 2) }
        let s : State := { s with free := s.free + 3 }
        let s := s.setWorld w (newWorld fn s.timebase keys r)
        let out := leBytes 1 w ++ leBytes 7 0 ++ publicKeys keys.kwelia
        (s.devWrite fn x.response out).finishStatus fn q node .ok

/-! ### Contexts (R46, R47, R78, R118) -/

/-- A context with debug consent is bound to the world. -/
def State.consents (s : State) (w : Nat) : Bool := s.parts.any fun p => p.2.ctxs.any fun c => c.2.world == w && c.2.debug

def execBindContext (fn q node : Nat) (s : State) : Host.Outcome State Fault Refusal :=
  s.withSession fn q node 2 64 1 fun x r =>
    let w := leAt r 0 1
    let p := x.byte17
    if !zeroAt r 2 62 ∨ 1 < leAt r 1 1 then s.finishStatus fn q node .malformed
    else match s.ownWorld fn w with
      | none => s.finishStatus fn q node .policy
      | some v =>
        if !s.owns fn p || (s.part p).st == .destroying then s.finishStatus fn q node .nopart
        else if leAt r 1 1 = 1 ∧ (v.st = .sealing ∨ v.st = .sealed) then s.finishStatus fn q node .policy
        else match (List.range 4).find? fun c => (Map.get? (s.part p).ctxs c).isNone with
          | none => s.finishStatus fn q node .limit
          | some c => match s.takeBytes p (.saveArea p c) 0x6000000 with
            | none => s.finishStatus fn q node .limit
            | some (s, _) =>
              let k : Context := { world := w, debug := leAt r 1 1 == 1, attached := false, preemptedNote := false }
              let s := s.onPart p fun v => { v with ctxs := Map.put v.ctxs c k }
              (s.devWrite fn x.response (leBytes 1 c)).finishStatus fn q node .ok

/-- UNBIND_CONTEXT waits for the context's launches. -/
def execUnbindContext (fn q node : Nat) (s : State) : Host.Outcome State Fault Refusal :=
  s.withSession fn q node 3 64 0 fun x r =>
    let p := x.byte17
    let c := leAt r 0 1
    if !zeroAt r 1 63 then s.finishStatus fn q node .malformed
    else if !s.owns fn p then s.finishStatus fn q node .nopart
    else if (Map.get? (s.part p).ctxs c).isNone then s.finishStatus fn q node .policy
    else if s.launches.any fun l => l.2.ctx == c && l.2.parts.contains p then s
    else (s.endContext p c).finishStatus fn q node .ok

/-! ### LOAD_SEAL (R53 to R56) -/

/-- The bundle policy record of R54 and R68; none when it is not laid out so. -/
def bundleOf (l : List Byte) : Option Bundle :=
  let n := leAt l 55 2
  let o := 57 + 48 * n
  let c := leAt l o 1
  let region (i : Nat) := o + 1 + 16 * i
  let interval := leAt l (region c) 4
  if n = 0 ∨ 256 < n ∨ c = 0 ∨ 16 < c ∨ l.length ≠ region c + 4 ∨ 3600 < interval ∨ 1 < leAt l 2 1
      ∨ (List.range c).any fun i => !zeroAt l (region i + 13) 3 || decide (15 < leAt l (region i + 12) 1)
  then none
  else some {
    minVersion := leAt l 0 1
    floor := leAt l 2 1
    chunks := leAt l 3 4
    root := leAt l 7 48
    kernels := tabulate n fun i => leAt l (57 + 48 * i) 48
    regions := tabulate c fun i => (leAt l (region i) 8, leAt l (region i + 8) 4, leAt l (region i + 12) 1)
    interval := interval
    digest := (Config.sha384 l).toNat }

/-- Every page of a range is mapped with class OPD. -/
def World.opdRange (v : World) (base len : Nat) : Bool :=
  (List.range (len / pageBytes)).all fun i =>
    match v.leafAt (base + pageBytes * i) with
    | some (_, l) => l.cls == .opd && l.evicted.isNone
    | none => false

/-- The regions of a bundle: aligned, in OPD pages, without overlap, and as long together as the chunk count (R55). -/
def World.regionsOk (v : World) (b : Bundle) : Bool :=
  b.regions.all (fun r => r.1 % pageBytes == 0 && decide (0 < r.2.1) && v.opdRange r.1 (65536 * r.2.1)
      && v.regions.all fun x => !rangesMeet r.1 (65536 * r.2.1) x.base (65536 * x.chunks))
    && (b.regions.mapIdx fun i r => (b.regions.drop (i + 1)).all fun x =>
      !rangesMeet r.1 (65536 * r.2.1) x.1 (65536 * x.2.1)).all id
    && (b.regions.map fun r => r.2.1).sum == b.chunks && decide (v.regions.length + b.regions.length ≤ 64)

/-- The conditions of R55 but for the opening of the key. -/
def State.sealOk (s : State) (fn w : Nat) (v : World) (debug : Nat) (b : Bundle) : Bool :=
  decide (b.minVersion ≤ s.lodge.fwVersion) && debug == 0 && !s.consents w
    && (Map.get [] s.lodge.roots fn).contains b.root && v.regionsOk b
    && match v.st with
      | .opened => true
      | .sealed => v.bundle.any fun o => o.root == b.root && o.kernels == b.kernels
      | _ => false

/-- The sealed-region entries that a bundle begins to load, each with a new generation of its set (R135, R248). -/
def World.newRegions (v : World) (b : Bundle) : List Region :=
  b.regions.map fun r =>
    { base := r.1, chunks := r.2.1, set := r.2.2, gen := Map.get 0 v.current r.2.2 + 1, st := .loading }

/-- LOAD_SEAL: accepted, the node completes with the last chunk or the failure (R44). -/
def execLoadSeal (fn q node : Nat) (s : State) : Host.Outcome State Fault Refusal :=
  s.withSession fn q node 4 1656 0 fun x r =>
    let w := leAt r 0 1
    let len := leAt r 4 4
    if (s.ownWorld fn w).any fun v => v.loading.any fun l => l.fn == fn && l.q == q && l.node == node then s
    else if !zeroAt r 1 3 then s.finishStatus fn q node .malformed
    else match s.devRead fn (x.record + 1656) len, s.ownWorld fn w with
      | none, _ => s.finishStatus fn q node .policy
      | _, none => s.finishStatus fn q node .policy
      | some l, some v => match bundleOf l with
        | none => s.finishStatus fn q node .malformed
        | some b =>
          match s.sealOk fn w v (leAt l 1 1) b,
            hpkeOpen ((s.lodge.keys.map (·.seed)).getD []) s.lodge.fwVersion ((r.drop 8).take 1600) ((r.drop 1608).take 48)
              (Config.sha384 l) with
          | true, some key =>
            s.setWorld w { v with
              st := .sealing, held := false, regions := v.regions ++ v.newRegions b
              loading := some { bundle := b, key := key, prev := v.st, next := 0, last := s.timebase, fn := fn, q := q, node := node } }
          | _, _ => s.finishStatus fn q node .policy

/-- SEALING_TIMEOUT (R44): 10 s without a chunk. -/
def execSealingTimeout (world : Nat) (s : State) : Host.Outcome State Fault Refusal :=
  match (s.world? world).bind fun v => v.loading with
  | none => .next s
  | some l =>
    if l.last + 10000000000 ≤ s.timebase then .next (s.sealingFails world { status := .timeout, cause := 0, detail := 0 })
    else .next s

/-- DESTROY_WORLD (R44, R272). -/
def execDestroyWorld (fn q node : Nat) (s : State) : Host.Outcome State Fault Refusal :=
  s.withSession fn q node 5 64 0 fun _ r =>
    let w := leAt r 0 1
    if !zeroAt r 1 63 then s.finishStatus fn q node .malformed
    else if (s.ownWorld fn w).isNone then s.finishStatus fn q node .policy
    else (s.endWorld w 0 0xFFFF 0).finishStatus fn q node .ok

/-! ### Sessions (R60 to R66, R68) -/

/-- What evidence says of a world (R49, index 0x40 + w), as numbers in the order of the table; the states are numbered in the
order of R44, and a Free world shows its state alone (log 14). -/
def State.worldEvidence (s : State) (w : Nat) : List Nat :=
  match s.world? w with
  | none => [w, 0]
  | some v =>
    let st : Nat := match v.st with
      | .opened => 1
      | .sealing => 2
      | .sealed => 3
      | .ending => 4
    let ctxs := s.parts.flatMap fun p => (p.2.ctxs.filter fun c => c.2.world == w).flatMap fun c =>
      [p.1, c.1, if c.2.debug then 1 else 0]
    [w, st, v.policyDigest, (v.bundle.map fun b => b.digest).getD 0] ++ v.current.flatMap (fun g => [g.1, g.2])
      ++ [v.periodNs, v.clean.getD (2 ^ 64 - 1)] ++ (publicKeys v.kweliaKey).map (·.toNat) ++ ctxs

/-- Measurement 0x06, byte by byte. -/
def State.partitionTable (s : State) : List Byte :=
  (List.range 16).flatMap (fun p =>
    let v := s.part p
    leBytes 1 v.vf ++ List.replicate 7 0 ++ leBytes 8 v.gen ++ leBytes 8 v.lastScrub)
  ++ leBytes 4 s.retired.length ++ leBytes 4 s.quarantined.length
  ++ s.retired.flatMap (fun g => leBytes 8 (65536 * g))
  ++ s.quarantined.flatMap fun q => leBytes 1 q.1 ++ leBytes 1 q.2.1 ++ leBytes 1 q.2.2.1 ++ leBytes 1 q.2.2.2

/-- A measurement block as numbers; none for an index that no block has. -/
def State.measurement (s : State) (i : Nat) : Option (List Nat) :=
  match i with
  | 1 => some [s.lodge.fwDigest, s.lodge.fwVersion]
  | 2 => some [s.lodge.romDigest]
  | 3 => some [s.lodge.gardenerDigest]
  | 4 => some [s.boot.stage, if s.boot.fail then 1 else 0, s.boot.unit]
  | 5 => some ((List.range 16).flatMap fun v => (v + 1) :: Map.get [] s.lodge.roots (v + 1))
  | 6 => some (s.partitionTable.map (·.toNat))
  | 7 => some (s.lodge.sealingPublic.map (·.toNat))
  | _ => if 0x40 ≤ i ∧ i < 0x80 then some (s.worldEvidence (i - 0x40)) else none

/-- The measurement response of a world under a nonce, as GET_MEASUREMENTS gives it before its signature (R49). -/
def State.evidenceBody (s : State) (w nonce : Nat) : List Byte := Config.spdmReply 0x60 ((0x40 + w) :: nonce :: s.worldEvidence w)

/-- The evidence response that an OPEN or REKEY record's user holds: the one that its nonce has bound, else the present one
(R60, R62, log 13). -/
def State.evidenceFor (s : State) (w : Nat) (r : List Byte) : List Byte :=
  let nonce := leAt r 1608 32
  match s.lodge.evidence.find? fun e => e.1 == w && e.2.1 == nonce with
  | some e => e.2.2
  | none => s.evidenceBody w nonce

/-- The session secret of an OPEN or REKEY record (R62). -/
def State.openSecret (s : State) (w : Nat) (v : World) (r : List Byte) : List Byte :=
  sessionSecret v.kweliaKey (s.evidenceFor w r) r

/-- ACCEPT: identifier, handle and the confirmation over the transcript. -/
def State.accept (s : State) (w handle : Nat) (secret r : List Byte) : List Byte :=
  leBytes 8 (sessionIdent secret) ++ leBytes 2 handle ++ leBytes 6 0
    ++ digestBytes (Config.hmac384 (confirmKey secret) (s.evidenceFor w r ++ r))

/-- Sessions whose keys are held. -/
def World.openCount (v : World) : Nat := (v.sessions.filter fun x => x.2.keys.isSome).length

/-- The lowest handle from 1 that names no open session and no session with held replies. -/
def World.freeHandle (v : World) : Option Nat :=
  (List.range (v.sessions.length + 1)).findSome? fun i =>
    if i + 1 ≤ 0xFFFF ∧ (Map.get? v.sessions (i + 1)).all (fun x => x.keys.isNone && x.held.isEmpty) then some (i + 1) else none

/-- The reply ring of an OPEN node: slot count, slot size, and the whole buffer in staging memory (R60, R61). -/
def SessionNode.ringOk (x : SessionNode) : Bool :=
  decide (1 ≤ x.slots) && decide (x.slots ≤ 4096) && decide (4096 ≤ x.slotSize) && decide (x.slotSize ≤ 1048576)
    && x.slotSize % 4096 == 0
def State.ringStaged (s : State) (fn : Nat) (x : SessionNode) : Bool :=
  (s.stagingRead fn (BitVec.ofNat 64 x.ring) (64 + x.slots * x.slotSize)).isSome

def execOpenSession (fn q node : Nat) (s : State) : Host.Outcome State Fault Refusal :=
  s.withSession fn q node 6 1640 64 fun x r =>
    let w := leAt r 0 1
    if !zeroAt r 1 7 ∨ !x.ringOk then s.finishStatus fn q node .malformed
    else match s.ownWorld fn w with
      | none => s.finishStatus fn q node .policy
      | some v =>
        if !s.ringStaged fn x then s.finishStatus fn q node .policy
        else if 8192 ≤ v.openCount ∨ 65536 ≤ (s.worlds.map fun e => e.2.openCount).sum then s.finishStatus fn q node .limit
        else match v.freeHandle with
          | none => s.finishStatus fn q node .limit
          | some h =>
            let secret := s.openSecret w v r
            let session : Session := {
              ident := sessionIdent secret, keys := some secret, reqCtr := 0, repCtr := 0
              ring := x.ring, slots := x.slots, slotSize := x.slotSize, produced := 0, consumed := 0, held := [], lock := 0 }
            let out := s.accept w h secret r
            let s := s.setWorld w { v with sessions := Map.put v.sessions h session }
            (s.devWrite fn x.response out).finishStatus fn q node .ok

/-- An open session that a request names by world and handle (R64, R68). -/
def World.liveSession (v : World) (h : Nat) : Option Session :=
  (Map.get? v.sessions h).bind fun x => if x.keys.isSome then some x else none

/-- CLOSE (R65, R66): the keys go; held replies keep the ring. -/
def execCloseSession (fn q node : Nat) (s : State) : Host.Outcome State Fault Refusal :=
  s.withSession fn q node 7 64 0 fun _ r =>
    let w := leAt r 0 1
    let h := leAt r 2 2
    if !zeroAt r 1 1 ∨ !zeroAt r 4 60 then s.finishStatus fn q node .malformed
    else match s.ownWorld fn w with
      | none => s.finishStatus fn q node .policy
      | some v => match v.liveSession h with
        | none => s.finishStatus fn q node .closed
        | some x => match s.lockWait x with
          | some us => s.finishStatus fn q node .busy us
          | none => (s.setWorld w { v with sessions := Map.put v.sessions h { x with keys := none } }).finishStatus fn q node .ok

/-- REKEY (R65, R68): fresh keys and identifier; handle and ring stay, the counters start again. -/
def execRekey (fn q node : Nat) (s : State) : Host.Outcome State Fault Refusal :=
  s.withSession fn q node 8 1640 64 fun x r =>
    let w := leAt r 0 1
    let h := leAt r 2 2
    if !zeroAt r 1 1 ∨ !zeroAt r 4 4 then s.finishStatus fn q node .malformed
    else match s.ownWorld fn w with
      | none => s.finishStatus fn q node .policy
      | some v => match v.liveSession h with
        | none => s.finishStatus fn q node .closed
        | some y => match s.lockWait y with
          | some us => s.finishStatus fn q node .busy us
          | none =>
            let (y, s) := s.takeLock y
            let secret := s.openSecret w v r
            let y := { y with ident := sessionIdent secret, keys := some secret, reqCtr := 0, repCtr := 0 }
            let out := s.accept w h secret r
            let s := s.setWorld w { v with sessions := Map.put v.sessions h y }
            (s.devWrite fn x.response out).finishStatus fn q node .ok

/-- CERTIFIED_REPLY_RELEASE (R70, R66): the oldest held reply goes to the ring once its epochs have closed clean and a slot is
free. -/
def execCertifiedReplyRelease (world session : Nat) (s : State) : Host.Outcome State Fault Refusal :=
  match (s.world? world).bind fun v => (Map.get? v.sessions session).map fun x => (v, x) with
  | none => .next s
  | some (v, x) =>
    match x.held with
    | [] => .next s
    | (e, record) :: rest =>
      let x := { x with consumed := s.ringConsumed v.vf x }
      if v.st = .ending ∨ !(v.clean.any fun c => decide (e ≤ c)) ∨ x.slots ≤ x.produced - x.consumed then .next s
      else
        let (s, x) := s.ringWrite v.vf { x with held := rest } record
        .next (s.onWorld world fun v => { v with sessions := Map.put v.sessions session x })

/-! ### PKGLOAD (R57 to R59, R301) -/

/-- The signature condition of R58. -/
def State.signatureOk (s : State) (fn : Nat) (v : World) (k : Package) : Bool :=
  match v.st with
  | .opened => v.unsigned || k.root.any fun r => (Map.get [] s.lodge.roots fn).contains r
  | _ => match v.bundle, v.loading with
    | some b, _ => k.root == some b.root
    | none, some l => k.root == some l.bundle.root
    | none, none => false

/-- Every data segment lies in local NORM pages with W. -/
def State.datasOk (s : State) (w : Nat) (k : Package) : Bool :=
  k.datas.all fun d => match s.copyRange w d.1 d.2.length true with
    | .ok _ => true
    | _ => false

def execPkgload (fn q node : Nat) (s : State) : Host.Outcome State Fault Refusal :=
  s.withNode fn q node 0x06 fun b =>
    let w := leAt b 32 1
    if !s.lodgeFree then s
    else match s.ownWorld fn w with
    | none => s.finishStatus fn q node .policy
    | some v => match s.devRead fn (BitVec.ofNat 64 (leAt b 16 8)) (leAt b 24 8) with
      | none => s.finishStatus fn q node .policy
      | some l => match parsePackage l with
        | none => s.finishStatus fn q node .sealFail
        | some k =>
          let h := v.nextHandle
          if !s.signatureOk fn v k then s.finishStatus fn q node .sealFail
          else if !s.datasOk w k then s.finishStatus fn q node .policy
          else if 0xFFFF < h then s.finishStatus fn q node .limit
          else
            let s := k.datas.foldl (fun s d => s.unitWrite 16 0 w d.1 d.2) s
            let s := s.onWorld w fun v => { v with packages := Map.put v.packages h k, nextHandle := h + 1 }
            s.finishStatus fn q node .ok h

end Sys2Proof.Machine
end

