-- ==== Sys2Proof/Machine/Admin.lean ====
section
/-! DEFINITION. What physical function 0 administers: partitions (R76, R77, R81), policy values (R79, R91, R94, R171) and firmware
updates (R94); and the interface messages and reset of a virtual function (R24, R25, R93). -/

namespace Sys2Proof.Machine

/-! ### Partitions (R23, R76, R77) -/

/-- The lowest w free ways of a die, none when it has fewer. -/
def State.freeWays (s : State) (d w : Nat) : Option (List Nat) :=
  let used := (List.range 4).flatMap fun q => (s.part (4 * d + q)).ways
  let l := ((List.range 16).filter fun x => !used.contains x).take w
  if l.length = w then some l else none

/-- CREATE_PARTITION: it waits while the partition is scrubbed or reset, and then takes the lowest free ways of its die and a new
generation; the meters and the Belvedere start at zero. An owned partition gives POLICY, which no rule states (log 28). -/
def execCreatePartition (fn q node : Nat) (s : State) : Host.Outcome State Fault Refusal :=
  s.withNode fn q node 0x10 fun b =>
    let p := leAt b 16 1
    let vf := leAt b 17 1
    let w := if leAt b 18 1 = 0 then 4 else leAt b 18 1
    let v := s.part p
    if !s.noScrub p then s
    else if v.vf ≠ 0 then s.finishStatus fn q node .policy
    else if 13 < w then s.finishStatus fn q node .noway
    else match s.freeWays (p / 4) w with
      | none => s.finishStatus fn q node .noway
      | some l =>
        (s.setPart p { Part.reset with
          vf := vf, lastVf := if v.lastVf = 0 then vf else v.lastVf, st := .scrubbing, gen := v.gen + 1, ways := l
          lastScrub := v.lastScrub }).finishStatus fn q node .ok

/-- Staging units of some function come from the partition. -/
def State.stages (s : State) (p : Nat) : Bool := s.funcs.any fun f => f.2.stagePart == p && !f.2.staging.isEmpty

/-- What DESTROY_PARTITION does at once: its launches complete DESTROYED, the last meter report goes out with the final flag, and
its contexts end. -/
def State.destroyPart (s : State) (p : Nat) : State :=
  let s := match (s.part p).resetOf with
    | some e => s.endResets (fun x => x == e) .destroyed 0
    | none => s
  let s := (s.launches.filter fun l => l.2.parts.contains p).foldl (fun s l => s.endLaunch l.1 .destroyed 0) s
  let (s, report) := s.meterReport p true
  let s := (s.emit (.meterReport p report))
  let s := (s.part p).ctxs.foldl (fun s c => s.endContext p c.1) s
  s.onPart p fun v => { v with st := .destroying, stop := none }

/-- DESTROY_PARTITION: it waits for a scrub, and takes effect at once on a partition that is resetting. An unowned partition gives
POLICY, which no rule states (log 28). -/
def execDestroyPartition (fn q node : Nat) (s : State) : Host.Outcome State Fault Refusal :=
  s.withNode fn q node 0x11 fun b =>
    let p := leAt b 16 1
    let v := s.part p
    if v.st = .scrubbing ∨ v.st = .destroying then s
    else if v.vf = 0 then s.finishStatus fn q node .policy
    else if s.stages p then s.finishStatus fn q node .busy
    else (s.destroyPart p).finishStatus fn q node .ok

/-! ### Policy values -/

/-- One item of SET_POLICY with its value in a range. -/
def State.withPolicy (s : State) (fn q node item lo hi : Nat) (k : Nat → Policy → Policy) : Host.Outcome State Fault Refusal :=
  s.withNode fn q node 0x12 fun b =>
    let v := leAt b 24 8
    if leAt b 16 1 ≠ item then s
    else if v < lo ∨ hi < v then s.finishStatus fn q node .malformed
    else ({ s with policy := k v s.policy } : State).finishStatus fn q node .ok

/-- The escalation time, 100 µs to 100 ms (R91). -/
def execSetEscalationTime (fn q node : Nat) (s : State) : Host.Outcome State Fault Refusal :=
  s.withPolicy fn q node 0 100 100000 fun v p => { p with escalationUs := v }
/-- The quantum, 1 ms to 1,000 ms (R79). -/
def execSetQuantum (fn q node : Nat) (s : State) : Host.Outcome State Fault Refusal :=
  s.withPolicy fn q node 1 1000 1000000 fun v p => { p with quantumUs := v }
/-- The quiesce deadline (R94). -/
def execSetQuiesceDeadline (fn q node : Nat) (s : State) : Host.Outcome State Fault Refusal :=
  s.withPolicy fn q node 2 0 (2 ^ 64 - 1) fun v p => { p with quiesceUs := v }
/-- The scope policy word, whose bits [63:32] are zero (R171). -/
def execSetScopePolicy (fn q node : Nat) (s : State) : Host.Outcome State Fault Refusal :=
  s.withPolicy fn q node 3 0 (2 ^ 32 - 1) fun v p => { p with scopeWord := BitVec.ofNat 64 v }

/-! ### Firmware update (R94) -/

/-- FW_STAGE: an image that does not verify completes SEAL. -/
def execFwStage (fn q node : Nat) (s : State) : Host.Outcome State Fault Refusal :=
  s.withNode fn q node 0x13 fun b =>
    if !s.lodgeFree then s
    else match s.devRead fn (BitVec.ofNat 64 (leAt b 16 8)) (leAt b 24 8) with
    | none => s.finishStatus fn q node .policy
    | some l => match Config.parseFirmware l with
      | none => s.finishStatus fn q node .sealFail
      | some i => (s.onLodge fun v => { v with staged := some i }).finishStatus fn q node .ok

/-- The enabled virtual functions. -/
def State.enabledVfs (s : State) : List Nat := (s.funcs.filter fun f => f.1 != 0 && f.2.enabled).map (·.1)

/-- Post a VF event to every enabled VF on vector 64, and signal progress on vector 5 of PF 0 (R27, R95). -/
def State.vfEventAll (s : State) (e : Nat) : State :=
  (s.enabledVfs.foldl (fun s v => (s.onFunc v fun f => { f with vfevent := e }).signal v 64) s).signal 0 5

/-- FW_ACTIVATE: the node stays dispatched until the activation has ended. -/
def execFwActivate (fn q node : Nat) (s : State) : Host.Outcome State Fault Refusal :=
  s.withNode fn q node 0x14 fun _ =>
    if s.lodge.fw ≠ .running ∨ !s.lodgeFree then s
    else if s.lodge.staged.isNone then s.finishStatus fn q node .policy
    else
      let s := s.onLodge fun v => { v with fw := .pausing, fwSince := s.timebase, fwNode := some (fn, q, node) }
      let s : State := { s with funcs := s.funcs.map fun f => (f.1, { f.2 with pauseAck := false }) }
      s.vfEventAll 1

/-- Every enabled VF has acknowledged, or the quiesce deadline has passed. -/
def State.mayQuiesce (s : State) : Bool :=
  (s.enabledVfs.all fun v => (s.func v).pauseAck) || decide (s.lodge.fwSince + s.policy.quiesceUs * 1000 ≤ s.timebase)

/-- A COPY node is dispatched and not finished. -/
def State.copying (s : State) : Bool :=
  s.funcs.any fun f => f.2.queues.any fun q => q.2.graph.any fun g =>
    (g.nodes.mapIdx fun i b => decide (leAt b 0 1 = 0x02) && g.st[i]? == some NodeSt.dispatched
      && (Map.get? g.results i).isNone).any id

/-- QUIESCE: the module stops its launches; once each is saved and no COPY runs, the new firmware starts. -/
def execQuiesce (s : State) : Host.Outcome State Fault Refusal :=
  let busy := s.launches.any fun l => !l.2.isReady
  match s.lodge.fw with
  | .pausing =>
    if s.mayQuiesce then
      .next ({ s.onLodge fun v => { v with fw := .quiesced } with
        launches := s.launches.map fun l => if l.2.isReady then l else (l.1, { l.2 with wantPreempt := some 2 }) } : State)
    else .next s
  | .quiesced => if busy || s.copying then .next s else .next (s.onLodge fun v => { v with fw := .activating })
  | _ => .next s

/-- FW_ACTIVATION_RESULT: on success the staged image is the firmware, and worlds whose minimum exceeds its version are held; on
failure the old one stays. -/
def execFwActivationResult (ok : Bool) (s : State) : Host.Outcome State Fault Refusal :=
  match s.lodge.fw, s.lodge.fwNode, s.lodge.staged with
  | .activating, some (fn, q, node), some i =>
    let s := s.onLodge fun v => { v with fw := .running, fwNode := none, staged := none }
    if ok then
      let s := s.onLodge fun v => { v with
        fwVersion := i.version, fwDigest := i.digest, keys := v.keys.map fun k => { k with seed := seedOf i.version } }
      let s : State := { s with
        worlds := s.worlds.map fun w => (w.1, { w.2 with held := w.2.held || w.2.bundle.any fun b => decide (i.version < b.minVersion) }) }
      .next ((s.vfEventAll 2).finishStatus fn q node .ok)
    else .next ((s.vfEventAll 2).finishStatus fn q node .sealFail)
  | _, _, _ => .next s

/-! ### IDE streams (R24) -/

/-- A change of a function's IDE stream, which moves a locked or running TDI to ERROR (R25). -/
def State.onIde (s : State) (fn : Nat) (f : Ide → Ide) : State :=
  let s := s.onFunc fn fun x => { x with ide := f x.ide }
  if fn = 0 then s else s.tdiChange fn

/-- IDE_CHECK_FAILURE: the TLP is discarded, counted, and the stream is Insecure (R24, R96). -/
def execIdeCheckFailure (fn : Nat) (s : State) : Host.Outcome State Fault Refusal :=
  if s.funcOk fn then .next ((s.onIde fn fun i => { i with insecure := true }).hyperAdd 7 1) else .next s

/-- KEY_PROG: the Lodge takes the key material. -/
def execIdeKmKeyProg (fn key : Nat) (s : State) : Host.Outcome State Fault Refusal :=
  if s.funcOk fn then .next (s.onIde fn fun i => { i with staged := some key }) else .next s

/-- K_SET_GO: the keys are installed and the stream leaves Insecure. -/
def execIdeKmKSetGo (fn : Nat) (s : State) : Host.Outcome State Fault Refusal :=
  match (s.func fn).ide.staged with
  | none => .next s
  | some k =>
    if s.funcOk fn then .next (s.onIde fn fun _ => { key := k, staged := none, insecure := false }) else .next s

/-! ### TDISP (R25) and function-level reset (R93) -/

/-- The state of a TDI as a number, in the order of R25. -/
def Tdi.code : Tdi → Nat
  | .configUnlocked => 0 | .configLocked => 1 | .run => 2 | .error => 3

/-- Answer a TDISP message. -/
def State.tdispReply (s : State) (fn msg : Nat) (l : List Nat) : State := s.emit (.tdisp fn (Config.spdmReply msg l))

/-- A transition of the TDI, where the message applies in its state. -/
def State.tdisp (s : State) (fn msg : Nat) (old new : Tdi) : State :=
  if (s.func fn).tdi = old then (s.onFunc fn fun f => { f with tdi := new }).tdispReply fn msg [new.code]
  else s.tdispReply fn msg [(s.func fn).tdi.code]

def execLockInterface (fn : Nat) (s : State) : Host.Outcome State Fault Refusal :=
  if s.vfOk fn then .next (s.tdisp fn 0x200 .configUnlocked .configLocked) else .next s
def execStartInterface (fn : Nat) (s : State) : Host.Outcome State Fault Refusal :=
  if s.vfOk fn then .next (s.tdisp fn 0x202 .configLocked .run) else .next s

/-- The report lists the BARs and the MSI-X table and covers every measurement block (R49). -/
def execGetDeviceInterfaceReport (fn : Nat) (s : State) : Host.Outcome State Fault Refusal :=
  if s.vfOk fn then
    let f := s.func fn
    .next (s.tdispReply fn 0x201 ([f.tdi.code, f.bar0.toNat, f.bar2.toNat, f.msixLoc.toNat]
      ++ (List.range 0x80).flatMap fun i => (s.measurement i).getD []))
  else .next s

/-- The partitions of a VF. -/
def State.partsOf (s : State) (vf : Nat) : List Nat := (List.range 16).filter fun p => s.owns vf p

/-- A launch-free partition of a VF goes to a scrub; a full one where the last owner no longer counts. -/
def State.scrubPart (s : State) (p : Nat) (full : Bool) : State :=
  s.onPart p fun v => if v.st = .destroying then v else
    { v with st := .scrubbing, running := none, lastLaunch := none, stop := none, resetOf := none
             lastVf := if full then 0 else v.lastVf }

/-- STOP_INTERFACE: every world of the VF ends, and each of its partitions has a full scrub (R25, R81). -/
def State.stopInterface (s : State) (fn : Nat) : State :=
  let s := (s.worlds.filter fun w => w.2.vf == fn).foldl (fun s w => s.endWorld w.1 0 0xFFFF 0) s
  let s := (s.launches.filter fun l => l.2.vf == fn).foldl (fun s l => s.endLaunch l.1 .ended 0) s
  let s := (s.partsOf fn).foldl (fun s p => s.scrubPart p true) s
  (s.onFunc fn fun f => { f with tdi := .configUnlocked }).tdispReply fn 0x203 [0]

def execStopInterface (fn : Nat) (s : State) : Host.Outcome State Fault Refusal :=
  if s.vfOk fn then .next (s.stopInterface fn) else .next s

/-- Send a pod message to every other target of a mask (R37). -/
def State.sendPod (s : State) (mask : Nat) (m : PodMsg) : State :=
  ((List.range 64).filter fun i => mask.testBit i && i != s.pod.self).foldl (fun s i => s.tellPod i m) s

/-- The queues, events and launches of a VF are discarded and its partitions scrubbed; worlds, sessions and staging memory
stay (R93). A bundle that is loading goes on for the Lodge, with no node left to complete. -/
def State.resetFunction (s : State) (fn : Nat) : State :=
  let s : State := { s with
    faults := s.faults.map fun f => { f with nodes := f.nodes.filter fun n => n.1 != fn }
    lodge := { s.lodge with inbox := s.lodge.inbox.filter fun r => r.fn != fn } }
  let s := (s.launches.filter fun l => l.2.vf == fn).foldl (fun s l => s.endLaunch l.1 .destroyed 0) s
  let s := match s.pod.launch with
    | none => s
    | some l => if l.fn ≠ fn then s else (s.sendPod l.mask (.abort l.fn l.gen)).onPod fun p => { p with launch := none }
  let s := s.onFunc fn fun f => { f with
    queues := [], events := [], vfevent := 0, mbaddr := 0, mbBusy := false, mbDone := false, mbStatus := 0, pauseAck := false }
  let s : State := { s with
    worlds := s.worlds.map fun w => if w.2.vf = fn then (w.1, { w.2 with
      loading := w.2.loading.map fun l => { l with node := 64 }
      kvq := w.2.kvq.filter fun r => match r.src with
        | .node .. => false
        | .cell .. => true }) else w }
  (s.partsOf fn).foldl (fun s p => s.scrubPart p false) s

/-- FUNCTION_LEVEL_RESET: a locked or running TDI goes to ERROR instead. -/
def execFunctionLevelReset (fn : Nat) (s : State) : Host.Outcome State Fault Refusal :=
  if !s.vfOk fn then .next s
  else match (s.func fn).tdi with
    | .configLocked | .run => .next (s.tdiError fn)
    | _ => .next (s.resetFunction fn)

end Sys2Proof.Machine
end

