-- ==== Sys2Proof/Machine/Coll.lean ====
section
/-! DEFINITION. Collectives through the relay (R40, R41, R387 to R389) and bank commands (R139, R390, R391). -/

namespace Sys2Proof.Machine

/-! ### The record of a collective (R387) -/

def collMask (l : List Byte) : Nat := leAt l 0 8
def collSrc (l : List Byte) : Word := BitVec.ofNat 64 (leAt l 8 8)
def collDst (l : List Byte) : Word := BitVec.ofNat 64 (leAt l 16 8)
def collBytes (l : List Byte) : Nat := leAt l 24 4
def collOpByte (l : List Byte) : Nat := leAt l 28 1
def collFlags (l : List Byte) : Nat := leAt l 29 1
def collRoot (l : List Byte) : Nat := leAt l 30 1
def collTag (l : List Byte) : Nat := leAt l 31 1

/-- Element size of a type. -/
def collElem (ty : Nat) : Nat := if ty ≤ 2 then 4 else 8

/-- Module m is in a mask. -/
def inMask (mask m : Nat) : Bool := mask.testBit m
/-- The modules of a mask, ascending. -/
def maskModules (mask : Nat) : List Nat := (List.range 64).filter (inMask mask)

/-- The checks of a record for operation k (0 `CAR`, 1 `CBC`, 2 `CAG`) issued by a module. -/
def collRecOk (k self : Nat) (l : List Byte) : Bool :=
  let op := collOpByte l % 16
  let ty := collOpByte l / 16
  inMask (collMask l) self && decide (4 ≤ collBytes l) && decide (collBytes l ≤ 2 ^ 30) && decide (op ≤ 2)
    && decide (ty ≤ 4) && collBytes l % collElem ty == 0 && decide (collFlags l ≤ 3)
    && (if k = 1 then inMask (collMask l) (collRoot l) else collRoot l == 0) && (k == 0 || op == 0)

/-- The bytes that each destination receives (R388). -/
def collOutBytes (k : Nat) (l : List Byte) : Nat :=
  if k = 2 then collBytes l * (maskModules (collMask l)).length else collBytes l

/-! ### Reduction (R41) -/

/-- Combine two elements of a type: f32 sums round to nearest even, min and max follow R201, integers are modulo 2^width. -/
def collCombine (ty op : Nat) (a b : Nat) : Nat :=
  let w := 8 * collElem ty
  let ints (f : Int → Int → Bool) : Nat :=
    let (x, y) := if ty = 1 ∨ ty = 3 then (signedOf w a, signedOf w b) else ((a : Int), (b : Int))
    if f x y then a else b
  match ty, op with
  | 0, 0 => (f32Add (BitVec.ofNat 32 a) (BitVec.ofNat 32 b)).toNat
  | 0, 1 => f32F.minMax false a b
  | 0, _ => f32F.minMax true a b
  | _, 0 => (a + b) % 2 ^ w
  | _, 1 => ints fun x y => decide (x ≤ y)
  | _, _ => ints fun x y => decide (y ≤ x)

/-- The elements of some bytes. -/
def elemsOf (size : Nat) (l : List Byte) : List Nat := tabulate (l.length / size) fun i => leAt l (size * i) size

/-- One step of the reduction: neighbouring ranks combine, the lower first. -/
def pairUp (f : List Nat → List Nat → List Nat) : List (List Nat) → List (List Nat)
  | a :: b :: r => f a b :: pairUp f r
  | l => l

def pairAll (f : List Nat → List Nat → List Nat) : Nat → List (List Nat) → List (List Nat)
  | 0, l => l
  | k + 1, l => pairAll f k (pairUp f l)

/-- The reduction over ranks: the ranks past the largest power of two fold in first. -/
def collReduce (ty op : Nat) (l : List (List Byte)) : List Byte :=
  let size := collElem ty
  let f (a b : List Nat) := List.zipWith (collCombine ty op) a b
  let xs := l.map (elemsOf size)
  let k := Nat.log2 xs.length
  let m := 2 ^ k
  let folded := (xs.take m).mapIdx fun i x => match xs[m + i]? with
    | some y => f x y
    | none => x
  ((pairAll f k folded).headD []).flatMap (leBytes size)

/-- What every participant's destination receives: contributions come in ascending module order. -/
def collResult (k root : Nat) (ty op : Nat) (l : List (Nat × List Byte)) : List Byte :=
  match k with
  | 0 => collReduce ty op (l.map (·.2))
  | 1 => ((l.find? fun e => e.1 == root).map (·.2)).getD []
  | _ => l.flatMap (·.2)

/-! ### Issue (R387, R388) -/

/-- A range of a collective: in scratch below its end and aligned, or NORM memory under R336, with W for a destination; the
physical addresses of its bytes when it is in memory. -/
def State.collRange (s : State) (n : Nat) (scr write : Bool) (size len : Nat) (a : Word) : Chk (List Nat) :=
  if scr then
    (Chk.need (decide (a.toNat + len ≤ 0x100000)) .perm (pastScratch a)).andThen fun _ =>
    (Chk.need (a.toNat % size == 0) .align a).andThen fun _ => .ok []
  else (s.accessRange n (if write then .kvRecord else .bankRead) size a none len).andThen fun _ =>
    .ok (tabulate len fun i => s.paOf (s.cell n).ident.world (a.toNat + i))

/-- Another cell of the module, running or saved, holds the tag in a launch of the same VF, world and pod generation (R388,
R389). -/
def State.tagHeld (s : State) (n : Nat) (i : Ident) (tag : Nat) : Bool :=
  let holds (m : Nat) (c : Cell) := (m != n || c.ident.launch != i.launch) && c.ident.vf == i.vf && c.ident.world == i.world
    && c.ident.gen == i.gen && c.coll.any fun k => !k.refused && collTag k.record == tag
  s.cells.any (fun e => holds e.1 e.2) || s.launches.any fun l => l.2.images.any fun e => holds e.1 e.2

/-- The checks of a collective whose record has been read. -/
def State.collCheckRec (s : State) (n k : Nat) (l : List Byte) : Chk CollCmd :=
  let c := s.cell n
  (Chk.need (collRecOk k s.pod.self l) .combo 0).andThen fun _ =>
  let sc : Scope := if collMask l = 2 ^ s.pod.self then .part else .pod
  (Chk.need (s.scopeOk c.ident.vf (some sc)) .scope 0).andThen fun _ =>
  let size := collElem (collOpByte l / 16)
  let srcScr := collFlags l % 2 == 1
  let dstScr := collFlags l / 2 == 1
  (s.collRange n srcScr false size (collBytes l) (collSrc l)).andThen fun src =>
  (s.collRange n dstScr true size (collOutBytes k l) (collDst l)).andThen fun dst =>
  .ok { op := k, record := l, dest := dst, destScr := dstScr, destAddr := (collDst l).toNat, refused := false
        src := if srcScr then c.scratchRead (collSrc l).toNat (collBytes l) else src.map (readMem s.mem) }

/-- The checks of a collective; its record is read first. -/
def State.collCheck (s : State) (n k : Nat) (x : Word) : Chk CollCmd :=
  (Chk.need (x.extractLsb' 20 44 == 0) .combo 0).andThen fun _ =>
  (Chk.need (decide (x.toNat + 32 ≤ 0x100000)) .perm (pastScratch x)).andThen fun _ =>
  (Chk.need (x.toNat % 8 == 0) .align x).andThen fun _ =>
  s.collCheckRec n k ((s.cell n).scratchRead x.toNat 32)

/-- The relay takes a collective: its contribution is read now (log 24). -/
def State.issueColl (s : State) (n : Nat) (k : CollCmd) : State :=
  let i := (s.cell n).ident
  let s := if collFlags k.record % 2 = 1 then s
    else s.touchRange i.part i.ctx i.world (collSrc k.record).toNat (collBytes k.record) false false
  let busy := s.tagHeld n i (collTag k.record)
  if (s.cell n).run = .idle then s else s.onCell n fun c => { c with coll := some { k with refused := busy } }

/-- `CAR`, `CBC` and `CAG`. -/
def collOp (s : State) (k : Nat) (x : Reg) (gate : Option Reg) : Host.Outcome State Fault Refusal :=
  let n := s.focus.cell
  let c := s.cur
  if !c.mayArm gate then trapNow s false .combo
  else
    let s := s.release n
    if s.cur.run = .idle then .next s
    else s.withChk n (c.instrWord false) 4 (s.collCheck n k (c.reg x)) fun cmd =>
      match gate with
      | some w => .next (s.onCur fun c => (c.arm (c.gateOf w) (.coll k cmd.record) (c.instrWord false)).retire false)
      | none => if c.coll.isSome then .next s else .next ((s.issueColl n cmd).settle fun c => c.retire false)

def execCar (x : Reg) (gate : Option Reg) (s : State) : Host.Outcome State Fault Refusal := collOp s 0 x gate
def execCbc (x : Reg) (gate : Option Reg) (s : State) : Host.Outcome State Fault Refusal := collOp s 1 x gate
def execCag (x : Reg) (gate : Option Reg) (s : State) : Host.Outcome State Fault Refusal := collOp s 2 x gate

/-- `CWAIT`: an observation (R188, R389). -/
def execCwait (x : Reg) (s : State) : Host.Outcome State Fault Refusal :=
  let c := s.cur
  if c.coll.isSome then .next s
  else
    let v := (c.collStatus.map Status.code).getD 0
    .next ((s.acquire s.focus.cell .pod).onCur fun c => (c.setReg x (BitVec.ofNat 64 v)).retire false)

/-! ### Completion (R388, R389) -/

/-- A participant agrees with the record. -/
def relayAgrees (p : RelayPart) (k : CollCmd) : Bool :=
  p.kind == k.op && p.mask == collMask k.record && p.bytes == collBytes k.record && p.op.toNat == collOpByte k.record
    && p.root.toNat == collRoot k.record && p.data.length == collBytes k.record

/-- The other members of a collective's mask. -/
def State.collOthers (s : State) (k : CollCmd) : List Nat := (maskModules (collMask k.record)).filter (· != s.pod.self)

/-- Every other member has issued, or cannot: its link session is gone. -/
def State.collReady (s : State) (k : CollCmd) (parts : List RelayPart) : Bool :=
  (s.collOthers k).all fun m => parts.any fun (p : RelayPart) => p.module == m

/-- The contributions in ascending module order. -/
def State.collInputs (s : State) (k : CollCmd) (parts : List RelayPart) : List (Nat × List Byte) :=
  (maskModules (collMask k.record)).map fun m =>
    (m, if m = s.pod.self then k.src else ((parts.find? fun (p : RelayPart) => p.module == m).map (·.data)).getD [])

/-- Write a collective's destination: memory at once, scratch in the cell. -/
def State.collWrite (s : State) (cell launch : Nat) (k : CollCmd) (l : List Byte) : State :=
  if k.destScr then s.onOwner cell launch fun c => c.scratchWrite k.destAddr l
  else match s.ownerCell cell launch with
    | none => s
    | some c =>
      let i := c.ident
      let s := (k.dest.map (· / 64)).dedup.foldl (fun s a => s.touchAs i.part i.ctx i.world .norm (64 * a) true false) s
      ({ s with mem := (k.dest.zip l).foldl (fun m e => writeMem m e.1 [e.2]) s.mem } : State).endUncached

/-- n bytes that nothing constrains. -/
def State.freeBytes (s : State) (n : Nat) : List Byte × State :=
  (tabulate n fun i => BitVec.ofNat 8 (Config.freeNat (s.free + i)), { s with free := s.free + n })

/-- The collectives that cell n has in flight, each with its launch: of the launch that runs there, and of saved ones. -/
def State.collPending (s : State) (n : Nat) : List (Nat × CollCmd) :=
  ((s.cell n).coll.toList.map fun k => ((s.cell n).ident.launch, k))
    ++ s.launches.filterMap fun l => (Map.get? l.2.images n).bind fun c => c.coll.map fun k => (l.1, k)

/-- The first of them that can complete with these contributions. A memory destination of a saved cell is written at once, while a
scratch destination waits for the resume (R117). -/
def State.collLaunch (s : State) (n : Nat) (parts : List RelayPart) : Option (Nat × CollCmd) :=
  (s.collPending n).find? fun x => x.2.refused || (s.collReady x.2 parts
    && (!x.2.destScr || ((s.cell n).run != .idle && (s.cell n).ident.launch == x.1)))

/-- COLLECTIVE_COMPLETE: every participant's destination is written and `e21` pulses. -/
def execCollectiveComplete (cell : Nat) (parts : List RelayPart) (s : State) : Host.Outcome State Fault Refusal :=
  match s.collLaunch cell parts with
  | none => .next s
  | some (l, k) =>
    let done (s : State) (st : Status) : State := s.onOwner cell l fun c =>
      ({ c with coll := none, collStatus := some st } : Cell).pulseDone 21
    if k.refused then .next (done s .busy)
    else
      let p := partOfCell cell
      let (sent, s) := if (s.collOthers k).isEmpty then (0, s) else s.takeFree
      let s := s.meter p 6 sent
      if parts.any (fun (x : RelayPart) => x.lost && (s.collOthers k).contains x.module) then
        let (l', s) := s.freeBytes (collOutBytes k.op k.record)
        .next (done (s.collWrite cell l k l') .unreachable)
      else if !parts.all (fun (x : RelayPart) => !(s.collOthers k).contains x.module || relayAgrees x k) then .next (done s .malformed)
      else
        let r := collResult k.op (collRoot k.record) (collOpByte k.record / 16) (collOpByte k.record % 16) (s.collInputs k parts)
        .next (done (s.collWrite cell l k r) .ok)

/-! ### Bank commands (R390, R391) -/

/-- The words of a range, by the place of their line in it. -/
def State.bankLines (s : State) (w va n : Nat) (vals : Nat → W32) : Map (List (Nat × W32)) :=
  (List.range ((va + 4 * n + 63) / 64 - va / 64)).map fun j =>
    (j, (List.range 16).filterMap fun i =>
      let a := (va / 64 + j) * 64 + 4 * i
      if a < va ∨ va + 4 * n ≤ a then none else some (s.paOf w a, vals ((a - va) / 4)))

/-- A scope field. -/
def scopeOf (b : BitVec 2) : Scope := Scope.ofBits b

/-- The operand and range checks of `BKOP`. -/
def State.bkopCheck (s : State) (n : Nat) (x y z : Word) : Chk BankCmd :=
  let c := s.cell n
  let op := (z.extractLsb' 20 4).toNat
  let k := (z.extractLsb' 0 19).toNat
  let sc := scopeOf (z.extractLsb' 24 2)
  let operands := z.extractLsb' 26 38 == 0 && !z.getLsbD 19 && (decide (op ≤ 7) || op == 10) && decide (1 ≤ k)
    && decide (k ≤ 262144) && y.extractLsb' 20 44 == 0
  (Chk.need operands .combo 0).andThen fun _ =>
  (s.accessRange n .kvRecord 4 x (some sc) (4 * k)).andThen fun _ =>
  (Chk.need (decide (y.toNat + 4 * k ≤ 0x100000)) .perm (pastScratch y)).andThen fun _ =>
  (Chk.need (y.toNat % 4 == 0) .align y).andThen fun _ =>
  let src := c.scratchRead y.toNat (4 * k)
  .ok { red := false, op := op, ty := 0, dest := 0, parts := [], scope := sc
        lines := s.bankLines c.ident.world x.toNat k fun i => BitVec.ofNat 32 (leAt src (4 * i) 4) }

/-- The operand and range checks of `BKRED`. -/
def State.bkredCheck (s : State) (n : Nat) (x y z : Word) : Chk BankCmd :=
  let k := if z.extractLsb' 0 24 = 0 then 16777216 else (z.extractLsb' 0 24).toNat
  let op := (z.extractLsb' 24 4).toNat
  let ty := (z.extractLsb' 28 2).toNat
  let sc := scopeOf (z.extractLsb' 30 2)
  let operands := z.extractLsb' 32 32 == 0 && decide (op ≤ 2) && decide (ty ≤ 2) && y.extractLsb' 20 44 == 0
  (Chk.need operands .combo 0).andThen fun _ =>
  (s.accessRange n .bankRead 4 x (some sc) (4 * k)).andThen fun _ =>
  (Chk.need (decide (y.toNat + 8 ≤ 0x100000)) .perm (pastScratch y)).andThen fun _ =>
  (Chk.need (y.toNat % 8 == 0) .align y).andThen fun _ =>
  .ok { red := true, op := op, ty := ty, dest := y.toNat, parts := [], scope := sc
        lines := s.bankLines (s.cell n).ident.world x.toNat k fun _ => 0 }

/-- A bank command; deferred, its checks run at arming and its scratch is read when it fires. -/
def bankOp (s : State) (red : Bool) (x y z : Reg) (gate : Option Reg) : Host.Outcome State Fault Refusal :=
  let n := s.focus.cell
  let c := s.cur
  let (rx, ry, rz) := (c.reg x, c.reg y, c.reg z)
  if !c.mayArm gate then trapNow s false .combo
  else
    let s := s.release n
    if s.cur.run = .idle then .next s
    else s.withChk n (c.instrWord false) 4 (if red then s.bkredCheck n rx ry rz else s.bkopCheck n rx ry rz) fun cmd =>
      match gate with
      | some w => .next (s.onCur fun c =>
          (c.arm (c.gateOf w) (if red then .bkred rx ry rz else .bkop rx ry rz) (c.instrWord false)).retire false)
      | none => if 16 ≤ c.bank.length then .next s
        else .next (s.onCur fun c => ({ c with bank := c.bank ++ [cmd] } : Cell).retire false)

def execBkop (x y z : Reg) (gate : Option Reg) (s : State) : Host.Outcome State Fault Refusal := bankOp s false x y z gate
def execBkred (x y z : Reg) (gate : Option Reg) (s : State) : Host.Outcome State Fault Refusal := bankOp s true x y z gate

/-- The element of `BKRED` that a word holds, in 64 bits. -/
def redWord (ty : Nat) (v : Nat) : Nat := if ty = 0 then ((signedOf 32 v) % 2 ^ 64).toNat else v

/-- Combine two elements of `BKRED`: integers in 64 bits, f32 in 32 (R391). -/
def redCombine (ty op : Nat) (a b : Nat) : Nat :=
  collCombine (if ty = 2 then 0 else if ty = 0 then 3 else 4) op a b

/-- Fold a non-empty list from its first element. -/
def foldFirst (f : Nat → Nat → Nat) : List Nat → Nat
  | [] => 0
  | a :: r => r.foldl f a

/-- A line's part of a command at its bank: one word of `BKOP` as a relaxed atomic, or all words of `BKRED`. A line that its home
refuses ends `BKRED` with a report of PERM and no result (R443, log 28). -/
def State.bankStep (s : State) (n : Nat) (k : BankCmd) (j : Nat) (ws : List (Nat × W32)) : State × BankCmd :=
  let i := (s.cell n).ident
  match ws with
  | [] => (s, { k with lines := Map.erase k.lines j })
  | (pa, v) :: r =>
    if k.red then
      match s.remoteTurn n [({ pa := pa, cls := .norm }, s.vaOf n pa, .load (4 * ws.length))] with
      | (s, .wait) => (s, k)
      | (s, .refused va) =>
        (s.report n { cause := .perm, addr := BitVec.ofNat 64 va, info := kfinfoOf true 0 0 0 }, { k with red := false, lines := [] })
      | (s, .go) =>
      let s := s.touchAs i.part i.ctx i.world .norm pa false false
      let vals := ws.map fun w => redWord k.ty (s.load w.1 4)
      (s, { k with lines := Map.erase k.lines j
                   parts := Map.put k.parts j (BitVec.ofNat 64 (foldFirst (redCombine k.ty k.op) vals)) })
    else
      let s := s.postRemote n .norm pa (.atomic (BitVec.ofNat 4 k.op) false (v.zeroExtend 64) 0)
      let (s, _) := s.bankRmw n pa 4 (fun _ => true) fun m => (atomicNew 32 f32Add k.op (BitVec.ofNat 32 m) v 0).toNat
      (s, { k with lines := if r.isEmpty then Map.erase k.lines j else Map.put k.lines j r })

/-- BANK_OPERATION: the oldest bank command of a cell performs at one of its lines, whichever comes first; after the last it
completes (R390, R391). -/
def execBankOperation (cell : Nat) (s : State) : Host.Outcome State Fault Refusal :=
  let c := s.cell cell
  match c.bank with
  | [] => .next s
  | k :: rest =>
    if c.run ≠ .running ∧ c.run ≠ .halted then .next s
    else
      let (f, s) := s.takeFree
      let (j, ws) := k.lines.getD (f % k.lines.length) (0, [])
      let (s, k) := s.bankStep cell k j ws
      if (s.cell cell).run = .idle then .next s
      else if !k.lines.isEmpty then .next (s.onCell cell fun c => { c with bank := k :: rest })
      else
        let v := foldFirst (redCombine k.ty k.op) (k.parts.map fun (e : Nat × Word) => e.2.toNat)
        .next (s.onCell cell fun c =>
          ({ (if k.red then c.scratchWrite k.dest (leBytes 8 v) else c : Cell) with bank := rest } : Cell).pulseDone 22 k.scope)

end Sys2Proof.Machine
end

