-- ==== Sys2Proof/Machine/Epochs.lean ====
section
/-! DEFINITION. The end of a world (R44, R46, R272), integrity epochs (R69, R70, R148, R149) and the reports of the meter interval
(R74). -/

namespace Sys2Proof.Machine

/-! ### World end (R44, R272) -/

/-- Every launch of another world that an Ending world displaced has left the partitions it held (R271). -/
def State.scrubsReady (s : State) (v : World) : Bool := v.scrubs.all fun p => (s.part p).running.isNone && s.noScrub p

/-- The contexts of a world go, on every partition. -/
def State.endContexts (s : State) (w : Nat) : State :=
  s.parts.foldl (fun s p => (p.2.ctxs.filter fun c => c.2.world == w).foldl (fun s c => s.endContext p.1 c.1) s) s

/-- The pages and map metadata of a world are zeroed and free. -/
def State.freeWorld (s : State) (w : Nat) : State :=
  (s.owners.filter fun o => o.owner == .world w || o.owner == .kvMeta w).foldl (fun s o => s.freeRange o.base o.len) s

/-- WORLD_SCRUB_COMPLETE: the partitions are scrubbed, the record waits for the VF, which VFEVENT 3 tells, and the world is
Free. -/
def execWorldScrubComplete (world : Nat) (s : State) : Host.Outcome State Fault Refusal :=
  match s.world? world with
  | none => .next s
  | some v =>
    if v.st ≠ .ending ∨ !s.scrubsReady v then .next s
    else
      let s := v.scrubs.foldl (fun s p =>
        (s.shortScrub p).onPart p fun x => { x with lastScrub := s.timebase }) s
      let s := (s.endContexts world).freeWorld world
      let s := s.onLodge fun l => { l with worldEnds := l.worldEnds ++ [(v.vf, v.endRecord world)] }
      let s : State := { s with worlds := Map.erase s.worlds world }
      .next ((s.onFunc v.vf fun f => { f with vfevent := 3 }).signal v.vf 64)

/-! ### Epochs (R69, R148) -/

/-- An epoch whose slices have all passed closes clean. -/
def World.closeIfSwept (v : World) : World :=
  if v.sweeping.isEmpty ∧ 0 < v.epoch then { v with clean := some (v.epoch - 1) } else v

/-- EPOCH_END: the next epoch begins with its period in force, and every memory slice of the world owes a sweep. -/
def execEpochEnd (world : Nat) (s : State) : Host.Outcome State Fault Refusal :=
  match s.world? world with
  | none => .next s
  | some v =>
    if v.st = .ending ∨ !v.sweeping.isEmpty ∨ s.timebase < v.epochStart + v.periodNs then .next s
    else .next (s.setWorld world ({ v with
      epoch := v.epoch + 1, epochStart := v.epochStart + v.periodNs, periodNs := s.periodNow world v
      sweeping := v.hashes.map fun h => h.1 } : World).closeIfSwept)

/-- One line under the sweep of epoch e: resident lines and lines of the next epoch are passed by, others are read into HR and
restamped for the next epoch; none where a stamp fails the epoch. -/
def State.sweepLine (s : State) (w e line : Nat) : Option State :=
  let st := Map.get 0 s.stamps line
  if (Map.get? s.lines line).isSome then some s
  else if stampEpoch st = (e + 1) % 256 then some s
  else if stampEpoch st ≠ e % 256 then none
  else (s.foldRead w line).map fun s => s.stampWrite w line

/-- The sweep of a slice over the world's lines there. -/
def State.sweepSlice (s : State) (w e slice : Nat) : Option State :=
  (s.stamps.filter fun x => s.protectedWorld x.1 == some w && s.memSlice (64 * x.1) == slice).foldl
    (fun r x => r.bind fun s => s.sweepLine w e x.1) (some s)

/-- The hashes of the next epoch become those of the current one. -/
def SliceHash.shift (h : SliceHash) : SliceHash := { h with hr := h.hrNext, hw := h.hwNext, hrNext := 0, hwNext := 0 }

/-- SWEEP_COMPLETE: with HR and HW of the ended epoch equal the slice has passed, and with the last slice the epoch has closed
clean; else the epoch fails with INTEG. -/
def execSweepComplete (world slice : Nat) (s : State) : Host.Outcome State Fault Refusal :=
  match s.world? world with
  | none => .next s
  | some v =>
    if v.st = .ending ∨ !v.sweeping.contains slice then .next s
    else
      let e := v.epoch - 1
      match s.sweepSlice world e slice with
      | none => .next (s.endWorld world Cause.integ.code 0xFFFF e)
      | some t =>
        let v := (t.world? world).getD v
        let h := Map.get SliceHash.reset v.hashes slice
        if h.hr ≠ h.hw then .next (t.endWorld world Cause.integ.code 0xFFFF e)
        else .next (t.setWorld world ({ v with
          hashes := Map.put v.hashes slice h.shift, sweeping := v.sweeping.filter (· != slice) } : World).closeIfSwept)

/-! ### Meter interval (R54, R74) -/

/-- METER_INTERVAL_EXPIRY: a report for every partition that holds a context of the world. -/
def execMeterIntervalExpiry (world : Nat) (s : State) : Host.Outcome State Fault Refusal :=
  match (s.world? world).bind fun v => v.bundle.map fun b => (v, b.interval) with
  | none => .next s
  | some (v, i) =>
    if v.st = .ending ∨ i = 0 ∨ s.timebase < v.lastMeter + i * 1000000000 then .next s
    else
      let parts := (s.parts.filter fun p => p.2.ctxs.any fun c => c.2.world == world).map (·.1)
      let s := parts.foldl (fun s p => let (s, l) := s.meterReport p false; s.emit (.meterReport p l)) s
      .next (s.onWorld world fun v => { v with lastMeter := s.timebase })

end Sys2Proof.Machine
end

