-- ==== Sys2Proof/Machine/Mapping.lean ====
section
/-! DEFINITION. Mapping requests of the Lodge mailbox (R23, R98, R127 to R133, R151 to R153) and the other requests of physical
function 0: POWER (R15) and BVREAD (R279). -/

namespace Sys2Proof.Machine

/-! ### Where a page may lie (R30, R125, R126, R128, R132) -/

/-- Level, whether a 64 KiB group, and bytes of a size code (R98). -/
def sizeOf? (code : Nat) : Option (Nat × Bool × Nat) :=
  match code with
  | 0 => some (0, false, 16384)
  | 1 => some (0, true, 65536)
  | 2 => some (1, false, 33554432)
  | 3 => some (2, false, 68719476736)
  | _ => none

def classOf? (code : Nat) : Option PageClass :=
  match code with
  | 0 => some .norm
  | 1 => some .opd
  | 2 => some .fe
  | 3 => some .dev
  | _ => none

/-- A local range meets the reserved area of a partition (R125). -/
def meetsReserved (l len : Nat) : Bool :=
  (List.range 16).any fun p => rangesMeet l len (3 * (p / 4) * 2 ^ 36 + p % 4 * 2 ^ 34) 0x4000000

/-- Each 16 KiB page of a local range is a device window that the world may map (R128). -/
def State.devRangeOk (s : State) (v : World) (l len : Nat) : Bool :=
  (List.range (len / pageBytes)).all fun i =>
    let a := l + pageBytes * i
    match counterWindow a with
    | some (p, _) => s.owns v.vf p
    | none => match eventWindow a with
      | some (f, _) => f == v.vf
      | none => false

/-- Each bank of the Orangery that a local range meets belongs to a partition with a context of the world (R126, R132). -/
def State.banksOk (s : State) (w l len : Nat) : Bool :=
  (List.range 16).all fun p =>
    !rangesMeet l len (orangeryBase + p * 0x1000000) 0x1000000 || (s.part p).ctxs.any fun c => c.2.world == w

/-- The class of a page agrees with where it lies (R132). -/
def State.placeOk (s : State) (w : Nat) (v : World) (pa len : Nat) (cls : PageClass) : Bool :=
  let l := paLocal pa
  if paModule pa ≠ s.pod.self then
    (cls == .norm || cls == .fe) && (s.pod.members.any fun m => m.module == paModule pa) && v.pairs.any fun e => e.1 == paModule pa
  else if l + len ≤ 0x00C000000000 then cls != .dev && !meetsReserved l len
  else if orangeryBase ≤ l ∧ l + len ≤ orangeryBase + 0x10000000 then cls == .opd && s.banksOk w l len
  else if tierBase ≤ l ∧ l + len ≤ tierBase + (s.cxl0 + s.cxl1) then cls == .norm
  else if devBase ≤ l then cls == .dev && s.devRangeOk v l len
  else false

/-- Every byte of a physical range is unowned, or owned by the world and mapped by no leaf of it; no retired group is in it. -/
def State.freeFor (s : State) (w : Nat) (v : World) (pa len : Nat) : Bool :=
  (s.owners.all fun o => !rangesMeet o.base o.len pa len || o.owner == .world w)
    && (v.leaves.all fun e => e.2.evicted.isSome || !rangesMeet e.2.pa (leafBytes e.2.level) pa len)
    && s.retired.all fun r => !rangesMeet (65536 * r) 65536 pa len

/-- No leaf of the world, valid or evicted, covers a byte of a range. -/
def World.unmapped (v : World) (va len : Nat) : Bool := v.leaves.all fun e => !rangesMeet e.1 (leafBytes e.2.level) va len

/-- A range and the sealed-region table agree under a class (R132, R135). -/
def World.regionAgrees (v : World) (va len : Nat) (cls : PageClass) : Bool :=
  cls == .opd || v.regions.all fun r => r.st == .retired || !rangesMeet r.base (65536 * r.chunks) va len

/-- A page that holds bytes of `SUNSEAL` is mapped OPD only in a region (R135). -/
def State.backedOk (s : State) (v : World) (va pa len : Nat) (cls : PageClass) : Bool :=
  cls != .opd || (List.range (len / pageBytes)).all fun i =>
    !s.opdBackedAt (pa + pageBytes * i) || (v.regionAt (va + pageBytes * i)).isSome

/-- The checks of R132 on a new page but for that of its virtual range. -/
def State.pageOk (s : State) (w : Nat) (v : World) (va pa len : Nat) (cls : PageClass) : Bool :=
  va % len == 0 && pa % len == 0 && decide (va + len ≤ 2 ^ 58) && decide (pa + len ≤ 2 ^ 52) && s.placeOk w v pa len cls
    && (cls == .dev || paModule pa != s.pod.self || s.freeFor w v pa len) && v.regionAgrees va len cls && s.backedOk v va pa len cls

/-! ### Writing a leaf (R129, R132, R146) -/

/-- A local page becomes the world's: owned under a new version, with zeros as its bytes. -/
def State.ownPage (s : State) (w pa len home : Nat) : State :=
  let s := s.freeRange pa len
  let n := s.lodge.pageVersion + 1
  let o : OwnRange := { base := pa, len := len, owner := .world w, home := home, version := n }
  { s with owners := s.owners ++ [o], lodge := { s.lodge with pageVersion := n } }

/-- Write the leaves of a page: one, or the four of a group. -/
def World.addLeaves (v : World) (va pa level : Nat) (group : Bool) (cls : PageClass) (wr : Bool) : World :=
  { v with leaves := (List.range (if group then 4 else 1)).foldl (fun m i =>
      Map.put m (va + pageBytes * i)
        { level := level, pa := pa + pageBytes * i, cls := cls, w := wr, g := group, evicted := none }) v.leaves }

/-- MAP. -/
def execMapPage (fn : Nat) (s : State) : Host.Outcome State Fault Refusal :=
  s.withRequest fn 0x01 fun r =>
    let w := leAt r.body 0 1
    let va := leAt r.body 8 8
    let pa := leAt r.body 16 8
    let home := leAt r.body 3 1
    let tier := paModule pa == s.pod.self && isTier (paLocal pa)
    match sizeOf? (leAt r.body 4 1), classOf? (leAt r.body 1 1) with
    | some (level, group, len), some cls =>
      if 1 < leAt r.body 2 1 ∨ 15 < home ∨ (!tier ∧ home ≠ 0) then s.mbDone r .malformed
      else match s.world? w with
        | none => s.mbDone r .policy
        | some v =>
          if v.st = .ending ∨ !s.pageOk w v va pa len cls ∨ !v.unmapped va len then s.mbDone r .policy
          else
            let s := if cls = .dev ∨ paModule pa ≠ s.pod.self then s
              else (s.ownPage w pa len (if tier then home else s.homePart pa)).stampRange pa len
            let s := s.onWorld w fun v => v.addLeaves va pa level group cls (leAt r.body 2 1 == 1)
            (s.answerRange w va len false).mbDone r .ok
    | _, _ => s.mbDone r .malformed

/-! ### What a narrowed mapping waits for (R133) -/

/-- An access that was translated under a page and has not completed: of a stream, a discarded FIFO slot or a map command by
virtual address, of the queues by physical address. -/
def Cell.uses (c : Cell) (va pa len : Nat) : Bool :=
  let inVa (cmd : StreamCmd) := cmd.vas.any fun a => decide ((va : Int) ≤ a) && decide (a < va + len)
  let inPa (a : Nat) := decide (pa ≤ a) && decide (a < pa + len)
  let slot (x : FifoSlot) := !x.present && x.origin.any fun o => inVa o.1
  (c.streams.any fun e => inVa e.2.cmd)
    || (c.fifos.any fun e => e.2.slots.any slot) || ((c.arb.front.map fun b => b.slots).getD []).any slot
    || (c.fabric.sq.any fun e => match e.kind with
      | .store pas _ _ => pas.any inPa
      | .stfe a _ _ _ => inPa a
      | .atm a .. => inPa a
      | .bkadd a _ _ => inPa a
      | _ => false)
    || (c.seq.wb.any fun e => match e with
      | .bytes l _ => l.any fun x => inPa x.1
      | .event .. => false)
    || (c.bank.any fun b => b.lines.any fun l => l.2.any fun x => inPa x.1)
    || (c.coll.any fun x => !x.destScr && x.dest.any inPa)
    || (c.kvm.any fun k => decide (va ≤ k.addr.toNat) && decide (k.addr.toNat < va + len))
    || (c.remote.any fun r => inPa r.pa) || (c.seq.deferral.any fun x => inPa x.1)

/-- Some cell or saved image of the world still uses a page. -/
def State.pageBusy (s : State) (w va pa len : Nat) : Bool :=
  (s.cells.any fun e => e.2.run != .idle && e.2.ident.world == w && e.2.uses va pa len)
    || s.launches.any fun l => l.2.world == w && l.2.images.any fun i => i.2.uses va pa len

/-- The leaves that stand for the page of a leaf: itself, or the four of its group. -/
def World.pageOf (v : World) (e : Nat × Leaf) : List (Nat × Leaf) :=
  if e.2.g then v.leaves.filter fun x => x.1 / 65536 == e.1 / 65536 && x.2.g else [e]

/-- The range of a leaf belongs to the pool of the world's KV map (R153). -/
def World.inPool (v : World) (e : Nat × Leaf) : Bool :=
  v.kv.any fun m => rangesMeet m.pool (m.np * 16384 * m.units) e.1 (leafBytes e.2.level)

/-- Run a request on the page of a world that covers a virtual address, once no access uses it: POLICY without such a page, on
a pool page, or where the request's own check fails. -/
def State.withPage (s : State) (r : MbReq) (ok : World → (Nat × Leaf) → Bool) (k : World → (Nat × Leaf) → State) : State :=
  let w := leAt r.body 0 1
  match (s.world? w).bind fun v => (v.leafAt (leAt r.body 8 8)).map fun e => (v, e) with
  | none => s.mbDone r .policy
  | some (v, e) =>
    if v.st = .ending ∨ (v.pageOf e).any v.inPool ∨ !ok v e then s.mbDone r .policy
    else if (v.pageOf e).any fun x => x.2.evicted.isNone && s.pageBusy w x.1 x.2.pa (leafBytes x.2.level) then s
    else k v e

/-- Retired regions go once no leaf of theirs is left (R135). -/
def World.dropRetired (v : World) : World :=
  { v with regions := v.regions.filter fun r => r.st != .retired || !(v.leavesIn r).isEmpty }

/-- A leaf is cleared: its lines are written back and read as by a sweep, and then the page is zeroed and free. -/
def State.clearLeaf (s : State) (w : Nat) (e : Nat × Leaf) : State :=
  let n := leafBytes e.2.level
  if e.2.evicted.isSome ∨ e.2.cls = .dev ∨ paModule e.2.pa ≠ s.pod.self then
    s.onWorld w fun v => { v with leaves := Map.erase v.leaves e.1 }
  else ((s.flushRange e.2.pa n).foldRange e.2.pa n).dropLeaf w e

/-- A page meets an active region of a Sealed world. -/
def World.sealedPage (v : World) (e : Nat × Leaf) : Bool :=
  v.st == .sealed && (v.pageOf e).any fun x => v.regions.any fun g =>
    g.st == .active && rangesMeet g.base (65536 * g.chunks) x.1 (leafBytes x.2.level)

/-- UNMAP. -/
def execUnmapPage (fn : Nat) (s : State) : Host.Outcome State Fault Refusal :=
  s.withRequest fn 0x02 fun r => s.withPage r (fun v e => !v.sealedPage e) fun v e =>
    let w := leAt r.body 0 1
    let s := (v.pageOf e).foldl (fun s x => s.clearLeaf w x) s
    (s.onWorld w World.dropRetired).mbDone r .ok

/-- PROTECT. -/
def execProtect (fn : Nat) (s : State) : Host.Outcome State Fault Refusal :=
  s.withRequest fn 0x03 fun r =>
    if 1 < leAt r.body 2 1 then s.mbDone r .malformed
    else s.withPage r (fun _ _ => true) fun v e =>
      let wr := leAt r.body 2 1 == 1
      (s.onWorld (leAt r.body 0 1) fun x =>
        { x with leaves := (v.pageOf e).foldl (fun m y => Map.put m y.1 { y.2 with w := wr }) x.leaves }).mbDone r .ok

/-! ### Eviction (R151, R152) -/

/-- The nonce and the first 32 bytes of a sealed page. -/
def evictNonce (n va : Nat) : Nat := leNat (leBytes 4 n ++ leBytes 8 (va % 2 ^ 58 / pageBytes))
def evictHeader (w va n : Nat) : List Byte :=
  leBytes 4 0x50564551 ++ leBytes 1 w ++ leBytes 3 0 ++ leBytes 8 va ++ leBytes 4 n ++ leBytes 12 0
/-- The sealed page of some plaintext. -/
def World.sealPage (v : World) (w va n : Nat) (l : List Byte) : List Byte :=
  let aad := evictHeader w va n
  let (body, tag) := gcmSeal v.evictKey (evictNonce n va) aad l
  aad ++ leBytes 16 tag.toNat ++ leBytes 16 0 ++ body

/-- A page that EVICT takes: a local 16 KiB NORM leaf outside a group. -/
def State.evictable (s : State) (e : Nat × Leaf) : Bool :=
  e.2.level == 0 && !e.2.g && e.2.cls == .norm && e.2.evicted.isNone && paModule e.2.pa == s.pod.self

/-- EVICT. -/
def execEvict (fn : Nat) (s : State) : Host.Outcome State Fault Refusal :=
  s.withRequest fn 0x04 fun r =>
    let out := BitVec.ofNat 64 (leAt r.body 16 8)
    s.withPage r (fun _ e => s.evictable e && s.devOk fn out 16448) fun v e =>
    let w := leAt r.body 0 1
    if 2 ^ 32 - 1 ≤ v.evictCtr then s.mbDone r .limit
    else
      let n := v.evictCtr + 1
      let s := (s.flushRange e.2.pa pageBytes).foldRange e.2.pa pageBytes
      let s := s.devWrite fn out (v.sealPage w e.1 n (readBytes s.mem e.2.pa pageBytes))
      let s := s.freeRange e.2.pa pageBytes
      let s := s.onWorld w fun v =>
        { v with evictCtr := n, leaves := Map.put v.leaves e.1 { e.2 with pa := 0, evicted := some n } }
      s.mbDone r .ok n

/-- The plaintext of a sealed page for a page and version; none on any mismatch. -/
def World.openPage (v : World) (w va n : Nat) (l : List Byte) : Option (List Byte) :=
  let aad := l.take 32
  let body := (l.drop 64).take pageBytes
  if aad = evictHeader w va n then gcmOpen v.evictKey (evictNonce n va) aad body (BitVec.ofNat 128 (leAt l 32 16)) else none

/-- RETURN. -/
def execReturnPage (fn : Nat) (s : State) : Host.Outcome State Fault Refusal :=
  s.withRequest fn 0x05 fun r =>
    let w := leAt r.body 0 1
    let va := leAt r.body 8 8
    let pa := leAt r.body 24 8
    match s.devRead fn (BitVec.ofNat 64 (leAt r.body 16 8)) 16448, s.world? w with
    | none, _ => s.mbDone r .policy
    | _, none => s.mbDone r .policy
    | some l, some v => match (Map.get? v.leaves va).bind fun e => e.evicted.map fun n => (e, n) with
      | none => s.mbDone r .policy
      | some (e, n) =>
        if v.st = .ending ∨ paModule pa ≠ s.pod.self ∨ !s.pageOk w v va pa pageBytes .norm then s.mbDone r .policy
        else match v.openPage w va n l with
          | none => ((s.zeroRange pa pageBytes).endWorld w Cause.version.code 0xFFFF 0).mbDone r .tag
          | some text =>
            let home := if isTier (paLocal pa) then v.home else s.homePart pa
            let s := (((s.ownPage w pa pageBytes home).store pa text).stampRange pa pageBytes).onWorld w fun v =>
              { v with leaves := Map.put v.leaves va { e with pa := pa, evicted := none } }
            (s.answerRange w va pageBytes false).mbDone r .ok

/-! ### CLEARFE and PAIR (R132) -/

/-- CLEARFE on one word; a word of another module is emptied there, by a request of no cell (log 18). -/
def State.clearWord (s : State) (w pa : Nat) : State :=
  if paModule pa = s.pod.self then (((s.touchAs 16 0 w .fe pa true false).store pa (leBytes 4 0)).setFull pa false).endUncached
  else ((s.store pa (leBytes 4 0)).setFull pa false).sendFlit (s.newFlit (paModule pa) (.request 0xFFFF w pa PageClass.fe.code .clear))

/-- CLEARFE: each word of the range is empty with value 0. -/
def execClearfe (fn : Nat) (s : State) : Host.Outcome State Fault Refusal :=
  s.withRequest fn 0x06 fun r =>
    let w := leAt r.body 0 1
    let va := leAt r.body 8 8
    let len := leAt r.body 16 8
    if va % 4 ≠ 0 ∨ len = 0 ∨ len % 4 ≠ 0 then s.mbDone r .malformed
    else match s.world? w with
      | none => s.mbDone r .policy
      | some v =>
        let ok := (List.range ((va + len + pageBytes - 1) / pageBytes - va / pageBytes)).all fun i =>
          (v.leafAt (max va ((va / pageBytes + i) * pageBytes))).any fun e => e.2.cls == .fe && e.2.evicted.isNone
        if v.st = .ending ∨ 2 ^ 58 < va + len ∨ !ok then s.mbDone r .policy
        else ((List.range (len / 4)).foldl (fun s i => s.clearWord w (s.paOf w (va + 4 * i))) s).mbDone r .ok

/-- PAIR: POLICY without a link session to the module. -/
def execPair (fn : Nat) (s : State) : Host.Outcome State Fault Refusal :=
  s.withRequest fn 0x07 fun r =>
    let w := leAt r.body 0 1
    let m := leAt r.body 1 1
    let linked := s.pod.ports.any fun p => p.2.peer == some m && !p.2.closed
    match s.world? w with
    | none => s.mbDone r .policy
    | some v =>
      let e := (m, leAt r.body 2 1)
      if v.st = .ending ∨ !linked then s.mbDone r .policy
      else (s.setWorld w { v with pairs := if v.pairs.contains e then v.pairs else v.pairs ++ [e] }).mbDone r .ok

/-! ### STAGE (R23) -/

/-- The last units of a function's staging memory are zeroed and freed. -/
def State.dropUnits (s : State) (f keep : Nat) : State :=
  let l := (s.func f).staging
  let s := (l.drop keep).reverse.foldl (fun s b => s.freeRange b 0x200000) s
  s.onFunc f fun x => { x with staging := l.take keep }

/-- STAGE: its checks in order, and then all units or none. -/
def execStageMem (fn : Nat) (s : State) : Host.Outcome State Fault Refusal :=
  s.withRequest fn 0x09 fun r =>
    let f := leAt r.body 0 1
    let p := leAt r.body 1 1
    let n := leAt r.body 4 4
    let held := (s.func f).staging
    if 16 < f ∨ 15 < p ∨ 128 < n then s.mbDone r .malformed
    else if (f ≠ 0 ∧ !s.owns f p) ∨ (held ≠ [] ∧ (s.func f).stagePart ≠ p) then s.mbDone r .policy held.length
    else if n ≤ held.length then (s.dropUnits f n).mbDone r .ok n
    else match s.takeUnits p 0x200000 (.staging f) (n - held.length) with
      | none => s.mbDone r .limit held.length
      | some (s, l) => (s.onFunc f fun x => { x with stagePart := p, staging := held ++ l }).mbDone r .ok n

/-! ### POWER and BVREAD (R15, R279) -/

/-- POWER. -/
def execPowerLimit (fn : Nat) (s : State) : Host.Outcome State Fault Refusal :=
  s.withRequest fn 0x0A fun r =>
    let n := leAt r.body 4 4
    if n < 1200 ∨ 2800 < n then s.mbDone r .malformed
    else ({ s with clock := { s.clock with limitW := n } } : State).mbDone r .ok

/-- BVREAD: BUSY while the partition is owned. -/
def execBvread (fn : Nat) (s : State) : Host.Outcome State Fault Refusal :=
  s.withRequest fn 0x0B fun r =>
    let p := leAt r.body 0 1
    if 15 < p then s.mbDone r .malformed
    else if (s.part p).vf ≠ 0 then s.mbDone r .busy
    else s.mbDone r .ok 0 ((List.range 384).flatMap fun i => leBytes 8 (s.windowWord p (0x2000 + 0xC00 * p + 8 * i)).toNat)

end Sys2Proof.Machine
end

