-- ==== Sys2Proof/Machine/Sys.lean ====
section
/-! DEFINITION. Control registers (R236, R237, R351), the DUAL prefix (R316), words that fail decoding (R303), and what happens
between instructions: the delivery of reports (R266, R267) and the write buffer (R341). -/

namespace Sys2Proof.Machine

/-! ### Control registers (R236, R237) -/

/-- `kphase`. -/
def Phase.word (p : Phase) : Word :=
  let st : Nat := match p.st with
    | .idle => 0
    | .running => 1
    | .done => 2
  BitVec.ofNat 64 (p.errs % 8192 * 2 ^ 29 + p.unparked.length % 8192 * 2 ^ 16 + p.n % 8192 * 8 + st)

/-- Registers 0x010 to 0x022 can be written. -/
def ctlWritable (n : Nat) : Bool := [0x010, 0x011, 0x012, 0x013, 0x014, 0x020, 0x021, 0x022].contains n

/-- The value of control register n in a cell. -/
def State.ctlRead (s : State) (c : Cell) (n : Nat) : Word :=
  let num (v : Nat) : Word := BitVec.ofNat 64 v
  match n with
  | 0x000 => num s.focus.cell
  | 0x001 => num c.ident.part
  | 0x002 => num c.ident.vf
  | 0x003 => num c.ident.world
  | 0x004 => num c.ident.ctx
  | 0x005 => c.ident.gen.setWidth 64
  | 0x006 => num c.ident.tw
  | 0x007 => c.phase.word
  | 0x008 => num s.timebase
  | 0x009 => c.seq.kcycle
  | 0x010 => c.seq.kvec
  | 0x011 => c.seq.kfpc
  | 0x012 => c.seq.kfcause
  | 0x013 => c.seq.kfaddr
  | 0x014 => c.seq.kfinfo
  | 0x020 => c.seq.kdesc
  | 0x021 => c.seq.kdbase
  | 0x022 => c.seq.ktstride
  | 0x030 => num s.pod.self
  | 0x031 => num (((s.world? c.ident.world).map (·.epoch)).getD 0)
  | _ => 0

/-- Write control register n; bits [1:0] of `kvec` and bits [62:56] and [39:32] of `kfinfo` stay zero (R265, R351). -/
def Cell.ctlWrite (c : Cell) (n : Nat) (v : Word) : Cell :=
  c.withSeq fun q =>
    match n with
    | 0x010 => { q with kvec := v &&& ~~~(3 : Word) }
    | 0x011 => { q with kfpc := v }
    | 0x012 => { q with kfcause := v }
    | 0x013 => { q with kfaddr := v }
    | 0x014 => { q with kfinfo := v &&& 0x80FFFF00FFFFFFFF }
    | 0x020 => { q with kdesc := v }
    | 0x021 => { q with kdbase := v }
    | 0x022 => { q with ktstride := v }
    | _ => q

/-- A write, set or clear: PERM for a read-only register, ILL for an unassigned one. -/
def ctlChange (s : State) (n : BitVec 9) (f : Word → Word) : Host.Outcome State Fault Refusal :=
  if !ctlAssigned n then trapNow s false .ill
  else if !ctlWritable n.toNat then trapNow s false .perm
  else .next (s.onCur fun c => (c.ctlWrite n.toNat (f (s.ctlRead c n.toNat))).retire false)

def execCtlrd (d : Reg) (n : BitVec 9) (s : State) : Host.Outcome State Fault Refusal :=
  if !ctlAssigned n then trapNow s false .ill else writeResult s d (s.ctlRead s.cur n.toNat)
def execCtlwr (a : Reg) (n : BitVec 9) (s : State) : Host.Outcome State Fault Refusal := ctlChange s n fun _ => s.cur.reg a
def execCtlset (a : Reg) (n : BitVec 9) (s : State) : Host.Outcome State Fault Refusal := ctlChange s n fun v => v ||| s.cur.reg a
def execCtlclr (a : Reg) (n : BitVec 9) (s : State) : Host.Outcome State Fault Refusal :=
  ctlChange s n fun v => v &&& ~~~(s.cur.reg a)

/-! ### Dual instructions (R316) -/

/-- The meaning of a dual pair: that of its second word with tangents. -/
def runDual (f : DualForm) (s : State) : Host.Outcome State Fault Refusal :=
  match f with
  | .fadd d a b r w => fpoAdd s true d a b r w false
  | .fsub d a b r w => fpoAdd s true d a b r w true
  | .fmul d a b r w => fpoMul s true d a b r w
  | .ffma d a b r w => fpoFma s true d a b r w
  | .fmin d a b w => fpoMinMax s true d a b w false
  | .fmax d a b w => fpoMinMax s true d a b w true
  | .fcmp d a b c w => fpoCmp s true d a b c w
  | .fcvt d a k r w => fpoCvt s true d a k r w
  | .fsqrt d a r w => fpoSqrt s true d a r w
  | .frcp d a r w => fpoRcp s true d a r w
  | .sel d a b => selReg s true d a b
  | .ldw d a o => dualLoad s d a o 4
  | .ldd d a o => dualLoad s d a o 8
  | .stw d a o => dualStore s d a o 4
  | .std d a o => dualStore s d a o 8
  | .scopy x y z g => streamOp s true .scopy x y z g
  | .sfeed x y z g => streamOp s true .sfeed x y z g
  | .sdrain x y z g => streamOp s true .sdrain x y z g
  | .sgath x y z g => streamOp s true .sgath x y z g
  | .sscat x y z g => streamOp s true .sscat x y z g
  | .mma t b a z g => arbProduct s true false t b a z g
  | .mmag t b a z g => arbProduct s true true t b a z g
  | .aclr t g => arbAclr s true t g
  | .ascale t y g => arbAscale s true t y g
  | .atob t y g => arbAtob s true t y g
  | .acpy t u g => arbAcpy s true t u g

/-- The prefix at the pc, with the word after it: ILL at the prefix when that is outside the segment or has no dual form. -/
def execDual (s : State) : Host.Outcome State Fault Refusal :=
  let c := s.cur
  let next := c.seq.pc + 4
  match (if c.inCode next then decodeDual (c.codeWord next) else none) with
  | none => trapNow s false .ill
  | some f => runDual f s

/-- A word that fails decoding (R303). -/
def execIllegalInstructionWord (w : W32) (s : State) : Host.Outcome State Fault Refusal :=
  .next (s.takeTrap s.focus.cell .ill 0 w)

/-! ### Between instructions -/

/-- Delivery of the oldest waiting report to a cell that runs. -/
def execAsyncReportDelivery (cell : Nat) (s : State) : Host.Outcome State Fault Refusal :=
  if (s.cell cell).run = .running then .next (s.deliverReport cell) else .next s

/-- The oldest buffered store of a cell performs. -/
def execWriteBufferPerform (cell : Nat) (s : State) : Host.Outcome State Fault Refusal :=
  match (s.cell cell).run with
  | .running | .halted => .next (s.performOldest cell)
  | _ => .next s

end Sys2Proof.Machine
end

