-- ==== Sys2Proof/Machine/Debug.lean ====
section
/-! DEFINITION. Trace and debug requests of a virtual function (R98, R284 to R289), WORLDEND (R272), and breakpoints (R287). -/

namespace Sys2Proof.Machine

/-! ### TRACECFG and WORLDEND -/

/-- TRACECFG: ring and head register lie in the staging memory of the function. -/
def execTracecfg (fn : Nat) (s : State) : Host.Outcome State Fault Refusal :=
  s.withRequest fn 0x20 fun r =>
    let p := leAt r.body 0 1
    let n := leAt r.body 1 1
    let ring := BitVec.ofNat 64 (leAt r.body 8 8)
    let head := BitVec.ofNat 64 (leAt r.body 16 8)
    let mask := leAt r.body 24 4
    if 15 < p ∨ n < 4 ∨ 20 < n ∨ 2 ^ 24 ≤ mask then s.mbDone r .malformed
    else if !s.owns fn p then s.mbDone r .nopart
    else if (s.stagingRead fn ring (64 * 2 ^ n)).isNone ∨ (s.stagingRead fn head 8).isNone then s.mbDone r .policy
    else
      let t : Trace := {
        ring := ring, logn := n, head := head, mask := BitVec.ofNat 32 mask, probes := (r.body.drop 32).take 24, tail := 0 }
      (s.onPart p fun v => { v with trace := some t }).mbDone r .ok

/-- WORLDEND: up to 64 records, oldest first. -/
def execWorldend (fn : Nat) (s : State) : Host.Outcome State Fault Refusal :=
  s.withRequest fn 0x29 fun r =>
    let mine := (s.lodge.worldEnds.filter fun e => e.1 == fn).take 64
    let later := (s.lodge.worldEnds.filter fun e => e.1 == fn).drop 64
    let s := s.onLodge fun l => { l with worldEnds := (l.worldEnds.filter fun e => e.1 != fn) ++ later }
    s.mbDone r .ok mine.length (mine.flatMap fun e => e.2)

/-! ### Attaching (R286) -/

/-- Change a context. -/
def State.onContext (s : State) (p c : Nat) (f : Context → Context) : State :=
  s.onPart p fun v => { v with ctxs := v.ctxs.map fun e => if e.1 = c then (e.1, f e.2) else e }

/-- ATTACH: POLICY without consent, BUSY while a debugger holds the context. -/
def execAttach (fn : Nat) (s : State) : Host.Outcome State Fault Refusal :=
  s.withRequest fn 0x21 fun r =>
    let p := leAt r.body 0 1
    let c := leAt r.body 1 1
    if 15 < p ∨ 3 < c then s.mbDone r .malformed
    else if !s.owns fn p then s.mbDone r .nopart
    else match Map.get? (s.part p).ctxs c with
      | none => s.mbDone r .policy
      | some x =>
        if !x.debug then s.mbDone r .policy
        else if x.attached then s.mbDone r .busy
        else (s.onContext p c fun x => { x with attached := true, preemptedNote := false }).mbDone r .ok

/-- Run a debug request of the attached VF. After a pre-emption of a stopped partition it answers PREEMPTED, a status whose code
is open, and does nothing else (R288). -/
def State.withDebug (s : State) (fn code : Nat) (k : MbReq → Nat → Nat → State) : Host.Outcome State Fault Refusal :=
  s.withRequest fn code fun r =>
    let p := leAt r.body 0 1
    let c := leAt r.body 1 1
    if 15 < p ∨ 3 < c then s.mbDone r .malformed
    else match (if s.owns fn p then Map.get? (s.part p).ctxs c else none) with
      | none => s.mbDone r .policy
      | some x =>
        if !x.attached then s.mbDone r .policy
        else if x.preemptedNote then
          let (st, s) := (s.onContext p c fun x => { x with preemptedNote := false }).takeFree
          (s.onLodge fun l => { l with inbox := l.inbox.tail }).mbWrite r (st % 256) 0 []
        else k r p c

/-! ### Breakpoints (R287) -/

/-- The link of a SETBP body: an element's output or an edge node's. -/
def bpLink (b : List Byte) : Option Nat :=
  let x := leAt b 5 1
  match leAt b 4 1 with
  | 0 => if x < 16 ∧ leAt b 6 1 < 16 ∧ leAt b 7 1 < 4 then some (linkOf (elemAt x (leAt b 6 1)) (leAt b 7 1)) else none
  | 1 => if x < 64 then some (linkOf (edgeSite x) (facing (edgeSite x))) else none
  | _ => none

/-- SETBP: counting starts now. -/
def execSetbp (fn : Nat) (s : State) : Host.Outcome State Fault Refusal :=
  s.withDebug fn 0x23 fun r p _ =>
    let i := leAt r.body 2 1
    let b := leAt r.body 3 1
    let n := leAt r.body 8 4
    match bpLink r.body with
    | none => s.mbDone r .malformed
    | some l =>
      if 23 < i ∨ 3 < b ∨ n = 0 then s.mbDone r .malformed
      else (s.onCell (cellOf p i) fun c => { c with bps := Map.put c.bps b (l, n, 0) }).mbDone r .ok

/-- CLRBP. -/
def execClrbp (fn : Nat) (s : State) : Host.Outcome State Fault Refusal :=
  s.withDebug fn 0x24 fun r p _ =>
    let i := leAt r.body 2 1
    let b := leAt r.body 3 1
    if 23 < i ∨ 3 < b then s.mbDone r .malformed
    else (s.onCell (cellOf p i) fun c => { c with bps := Map.erase c.bps b }).mbDone r .ok

/-- BREAKPOINT_HIT: the n-th data token stands at the head of its link, and a stop begins; the breakpoint has served. -/
def execBreakpointHit (cell bp : Nat) (s : State) : Host.Outcome State Fault Refusal :=
  let c := s.cell cell
  match Map.get? c.bps bp with
  | none => .next s
  | some (l, n, count) =>
    let q := (c.link l).q
    let data := (q.filter fun t => t.kind == .data).length
    if !c.enginesRun || s.starts (partOfCell cell) || !(q.head?.any fun t => t.kind == .data) || n + data != count + 1 then .next s
    else .next ((s.onCell cell fun c => { c with bps := Map.erase c.bps bp }).beginStop (partOfCell cell) cell bp l n)

/-! ### Stopping and resuming (R288, R289) -/

/-- The launch that holds a partition belongs to a context. -/
def State.runsContext (s : State) (p c : Nat) : Bool :=
  ((s.part p).running.bind fun id => Map.get? s.launches id).any fun l => l.ctx == c

/-- STOP: the detail is the stop number. The request waits until the last cell has started (R115). -/
def execDebugStop (fn : Nat) (s : State) : Host.Outcome State Fault Refusal :=
  s.withDebug fn 0x25 fun r p c =>
    if !s.runsContext p c then s.mbDone r .policy
    else if s.starts p then s
    else
      let s := if (s.part p).stop.isSome then s else s.beginStop p 0xFFFF 0xFF 0 0
      s.mbDone r .ok ((s.part p).stop.getD 0)

/-- A frozen cell goes on. -/
def Cell.thaw (c : Cell) : Cell :=
  match c.run with
  | .stopped h => { c with run := if h then .halted else .running }
  | _ => c

/-- Every unit of a stopped partition goes on. -/
def State.resumePart (s : State) (p : Nat) : State :=
  if (s.part p).stop.isNone then s
  else ((cellsOfPart p).foldl (fun s n => s.onCell n Cell.thaw) s).onPart p fun v => { v with stop := none }

/-- RESUME. -/
def execDebugResume (fn : Nat) (s : State) : Host.Outcome State Fault Refusal :=
  s.withDebug fn 0x26 fun r p c => if s.runsContext p c then (s.resumePart p).mbDone r .ok else s.mbDone r .policy

/-- DETACH: the breakpoints go, the partition goes on if this context stopped it, and the context is free for a debugger. -/
def execDetach (fn : Nat) (s : State) : Host.Outcome State Fault Refusal :=
  s.withDebug fn 0x22 fun r p c =>
    let s := (cellsOfPart p).foldl (fun s n => s.onCell n fun x => { x with bps := [] }) s
    let s := if s.runsContext p c then s.resumePart p else s
    (s.onContext p c fun x => { x with attached := false }).mbDone r .ok

/-! ### Reading and writing a stopped cell (R289) -/

/-- The 64 bits of a link slot (R214). -/
def Tok.word (t : Tok) : Word :=
  let kind : Nat := match t.kind with
    | .data => 0
    | .passEnd => 1
    | .l1 => 2
    | .l2 => 3
    | .l3 => 4
    | .config => 5
    | .abort => 6
    | .cut => 7
  let low : BitVec 48 := BitVec.ofNat 48
    ((if t.poison then 2 ^ 47 else 0) + kind * 2 ^ 44 + t.thread % 4096 * 2 ^ 32 + t.value.toNat)
  let par := (List.range 48).foldl (fun p i => p != low.getLsbD i) false
  low.setWidth 64 ||| (if par then BitVec.ofNat 64 (2 ^ 48) else 0)

/-- Slot k of the link slots: 16 places for each link. -/
def Cell.slotWord (c : Cell) (k : Nat) : Word := (((c.link (k / 16)).q[k % 16]?).map Tok.word).getD 0

/-- Write a full data slot: value, thread and poison. -/
def Cell.setSlotWord (c : Cell) (k : Nat) (v : Word) : Cell :=
  let l := c.link (k / 16)
  match l.q[k % 16]? with
  | none => c
  | some t =>
    if t.kind ≠ .data then c
    else c.setLink (k / 16) { l with q := l.q.set (k % 16) { t with
      value := v.extractLsb' 0 32, thread := (v.extractLsb' 32 12).toNat, poison := v.getLsbD 47 } }

/-- Word k of the live slots of a thread, 1 + T words to a slot; an unwritten slot reads zero (R228, R229). -/
def Cell.liveWord (c : Cell) (t k : Nat) : W32 := (c.liveSlot t (k / (1 + c.ident.tw))).getD (k % (1 + c.ident.tw)) 0

/-- Write a word of the live slots, which makes its slot written. -/
def Cell.setLiveWord (c : Cell) (t k : Nat) (v : W32) : Cell :=
  let i := k / (1 + c.ident.tw)
  c.setLiveSlot t i ((c.liveSlot t i).set (k % (1 + c.ident.tw)) v)

/-- Where a READ or WRITE points: cell, space, thread, first place and length. -/
structure DebugRef where
  cell   : Nat
  space  : Nat
  thread : Nat
  first  : Nat
  len    : Nat
  deriving DecidableEq, Repr

def debugRefOf (p : Nat) (b : List Byte) : DebugRef where
  cell := cellOf p (leAt b 2 1)
  space := leAt b 3 1
  thread := leAt b 4 4
  first := leAt b 8 8
  len := leAt b 16 4

/-- The place exists: POLICY or MALFORMED otherwise. -/
def State.debugFails (s : State) (d : DebugRef) : Option Status :=
  let c := s.cell d.cell
  let need (b : Bool) : Option Status := if b then none else some .malformed
  if d.len < 8 ∨ 4096 < d.len ∨ d.len % 8 ≠ 0 then some .malformed
  else match d.space with
    | 0 => need (decide (d.first + d.len / 8 ≤ 32))
    | 1 => need ((List.range (d.len / 8)).all fun i => decide (d.first + i < 512) && ctlAssigned (BitVec.ofNat 9 (d.first + i)))
    | 2 => need (decide (d.thread < c.phase.n) && decide (d.first + d.len / 4 ≤ (c.phase.lmax + 1) * (1 + c.ident.tw)))
    | 3 => need (decide (d.first + d.len / 8 ≤ 16 * 1280))
    | 4 => need (d.first % 8 == 0 && decide (d.first + d.len ≤ 8 * 49152))
    | 5 => need (decide (d.first + d.len ≤ 0x100000))
    | 6 =>
      let ok := (List.range ((d.first + d.len + pageBytes - 1) / pageBytes - d.first / pageBytes)).all fun i =>
        match (s.world? c.ident.world).bind fun v => v.leafAt (max d.first ((d.first / pageBytes + i) * pageBytes)) with
        | some (b, e) =>
          let pa := e.pa + (max d.first ((d.first / pageBytes + i) * pageBytes) - b)
          (e.cls == .norm || e.cls == .fe) && e.evicted.isNone && paModule e.pa == s.pod.self && !s.retired.contains (pa / 65536)
        | none => false
      if ok then none else some .policy
    | _ => some .malformed

/-- Every page of a range of a world is writable. -/
def State.rangeWritable (s : State) (w va len : Nat) : Bool :=
  (List.range ((va + len + pageBytes - 1) / pageBytes - va / pageBytes)).all fun i =>
    ((s.world? w).bind fun v => v.leafAt (max va ((va / pageBytes + i) * pageBytes))).any fun e => e.2.w

/-- The bytes of a place. -/
def State.debugBytes (s : State) (d : DebugRef) : List Byte :=
  let c := s.cell d.cell
  let k := d.len / 8
  match d.space with
  | 0 => (tabulate k fun i => leBytes 8 (c.reg (BitVec.ofNat 5 (d.first + i))).toNat).flatten
  | 1 => (tabulate k fun i =>
      leBytes 8 ((({ s with focus := { s.focus with cell := d.cell } } : State).ctlRead c (d.first + i)).toNat)).flatten
  | 2 => (tabulate (2 * k) fun i => leBytes 4 (c.liveWord d.thread (d.first + i)).toNat).flatten
  | 3 => (tabulate k fun i => leBytes 8 (c.slotWord (d.first + i)).toNat).flatten
  | 4 => (tabulate (2 * k) fun i => leBytes 4 (Map.get 0 c.tiles (d.first / 4 + i)).toNat).flatten
  | 5 => c.scratchRead d.first d.len
  | _ => s.vaBytes c.ident.world d.first d.len

/-- Write the bytes of a place. -/
def State.debugPut (s : State) (d : DebugRef) (l : List Byte) : State :=
  let k := d.len / 8
  let dw (i : Nat) : Word := BitVec.ofNat 64 (leAt l (8 * i) 8)
  let w (i : Nat) : W32 := BitVec.ofNat 32 (leAt l (4 * i) 4)
  let onC (f : Cell → Cell) := s.onCell d.cell f
  match d.space with
  | 0 => onC fun c => (List.range k).foldl (fun c i => c.putReg (BitVec.ofNat 5 (d.first + i)) (dw i)) c
  | 1 => onC fun c => (List.range k).foldl (fun c i => c.ctlWrite (d.first + i) (dw i)) c
  | 2 => onC fun c => (List.range (2 * k)).foldl (fun c i => c.setLiveWord d.thread (d.first + i) (w i)) c
  | 3 => onC fun c => (List.range k).foldl (fun c i => c.setSlotWord (d.first + i) (dw i)) c
  | 4 => onC fun c => (List.range (2 * k)).foldl (fun c i =>
      let t := (d.first / 4 + i) / 12288
      { c with
        tiles := Map.set 0 c.tiles (d.first / 4 + i) (w i)
        tileWritten := if c.tileWritten.contains t then c.tileWritten else t :: c.tileWritten }) c
  | 5 => onC fun c => c.scratchWrite d.first (l.take d.len)
  | _ =>
    let c := s.cell d.cell
    s.unitWrite c.ident.part c.ident.ctx c.ident.world d.first (l.take d.len)

/-- The partition is stopped in a launch of the context. -/
def State.stoppedIn (s : State) (p c : Nat) : Bool := (s.part p).stop.isSome && s.runsContext p c

/-- READ. -/
def execDebugRead (fn : Nat) (s : State) : Host.Outcome State Fault Refusal :=
  s.withDebug fn 0x27 fun r p c =>
    let d := debugRefOf p r.body
    if 23 < leAt r.body 2 1 then s.mbDone r .malformed
    else if !s.stoppedIn p c then s.mbDone r .policy
    else match s.debugFails d with
      | some st => s.mbDone r st
      | none => s.mbDone r .ok 0 (s.debugBytes d)

/-- WRITE: memory only where the page is writable. -/
def execDebugWrite (fn : Nat) (s : State) : Host.Outcome State Fault Refusal :=
  s.withDebug fn 0x28 fun r p c =>
    let d := debugRefOf p r.body
    if 23 < leAt r.body 2 1 then s.mbDone r .malformed
    else if !s.stoppedIn p c then s.mbDone r .policy
    else match s.debugFails d with
      | some st => s.mbDone r st
      | none =>
        if d.space = 6 ∧ !s.rangeWritable (s.cell d.cell).ident.world d.first d.len then s.mbDone r .policy
        else (s.debugPut d (r.body.drop 64)).mbDone r .ok

end Sys2Proof.Machine
end

