-- ==== Sys2Proof/Machine/ElemOps.lean ====
section
/-! DEFINITION. The element operations of the grid, one definition each: moves and constants (R397), integer operations (R398
to R400), floating operations (R401, R402), conversions (R403 to R405), reductions and level markers (R406, R407). -/

namespace Sys2Proof.Machine

/-! ### Moves and constants (R397) -/

/-- `MOV` and `SEL` pass the tangent of the operand passed. -/
def execElemMov (r : ElemRec) (s : State) : Host.Outcome State Fault Refusal :=
  aluStep s 0x01 r (fun x => x.a.v) fun x _ k => x.a.tan k
def execElemConst (r : ElemRec) (s : State) : Host.Outcome State Fault Refusal :=
  aluStep s 0x02 r (fun x => x.b.v) noTan
def execElemTid (r : ElemRec) (s : State) : Host.Outcome State Fault Refusal :=
  aluStep s 0x03 r (fun x => BitVec.ofNat 32 x.thread) noTan

/-! ### Integer operations (R399, R400) -/

def execElemAdd (r : ElemRec) (s : State) : Host.Outcome State Fault Refusal :=
  aluStep s 0x08 r (fun x => laneAdd r x.a.v x.b.v) noTan
def execElemSub (r : ElemRec) (s : State) : Host.Outcome State Fault Refusal :=
  aluStep s 0x09 r (fun x => laneSub r x.a.v x.b.v) noTan
def execElemMul (r : ElemRec) (s : State) : Host.Outcome State Fault Refusal :=
  aluStep s 0x0A r (fun x => laneMul r x.a.v x.b.v) noTan
def execElemMulhi (r : ElemRec) (s : State) : Host.Outcome State Fault Refusal :=
  aluStep s 0x0B r (fun x => laneMulhi r x.a.v x.b.v) noTan
def execElemMad (r : ElemRec) (s : State) : Host.Outcome State Fault Refusal :=
  aluStep s 0x0C r (fun x => laneMad r x.a.v x.b.v x.c.v) noTan
def execElemMin (r : ElemRec) (s : State) : Host.Outcome State Fault Refusal :=
  aluStep s 0x0D r (fun x => laneMin r x.a.v x.b.v) noTan
def execElemMax (r : ElemRec) (s : State) : Host.Outcome State Fault Refusal :=
  aluStep s 0x0E r (fun x => laneMax r x.a.v x.b.v) noTan
def execElemAbs (r : ElemRec) (s : State) : Host.Outcome State Fault Refusal :=
  aluStep s 0x0F r (fun x => laneAbs r x.a.v) noTan
def execElemNeg (r : ElemRec) (s : State) : Host.Outcome State Fault Refusal :=
  aluStep s 0x10 r (fun x => laneNeg r x.a.v) noTan
def execElemAnd (r : ElemRec) (s : State) : Host.Outcome State Fault Refusal :=
  aluStep s 0x11 r (fun x => x.a.v &&& x.b.v) noTan
def execElemOr (r : ElemRec) (s : State) : Host.Outcome State Fault Refusal :=
  aluStep s 0x12 r (fun x => x.a.v ||| x.b.v) noTan
def execElemXor (r : ElemRec) (s : State) : Host.Outcome State Fault Refusal :=
  aluStep s 0x13 r (fun x => x.a.v ^^^ x.b.v) noTan
def execElemShl (r : ElemRec) (s : State) : Host.Outcome State Fault Refusal :=
  aluStep s 0x14 r (fun x => laneShl r x.a.v x.b.v) noTan
def execElemShr (r : ElemRec) (s : State) : Host.Outcome State Fault Refusal :=
  aluStep s 0x15 r (fun x => laneShr r x.a.v x.b.v) noTan
def execElemSha (r : ElemRec) (s : State) : Host.Outcome State Fault Refusal :=
  aluStep s 0x16 r (fun x => laneSha r x.a.v x.b.v) noTan
def execElemClz (r : ElemRec) (s : State) : Host.Outcome State Fault Refusal :=
  aluStep s 0x17 r (fun x => laneClz r x.a.v) noTan
def execElemPopc (r : ElemRec) (s : State) : Host.Outcome State Fault Refusal :=
  aluStep s 0x18 r (fun x => lanePopc r x.a.v) noTan
def execElemBfx (r : ElemRec) (s : State) : Host.Outcome State Fault Refusal :=
  aluStep s 0x19 r (fun x => bitField r x.a.v x.b.v x.c.v) noTan
def execElemCmp (r : ElemRec) (s : State) : Host.Outcome State Fault Refusal :=
  aluStep s 0x1A r (fun x => laneCmp r x.a.v x.b.v) noTan
/-- The test of `SEL` is on the whole word. -/
def execElemSel (r : ElemRec) (s : State) : Host.Outcome State Fault Refusal :=
  aluStep s 0x1B r (fun x => if x.a.v ≠ 0 then x.b.v else x.c.v) fun x _ k => if x.a.v ≠ 0 then x.b.tan k else x.c.tan k

/-! ### Floating operations (R401, R402) with the tangents of R212 -/

def execElemFadd (r : ElemRec) (s : State) : Host.Outcome State Fault Refusal :=
  aluStep s 0x20 r (fun x => floatAdd r x.a.v x.b.v) fun x _ k => f32Add (x.a.tan k) (x.b.tan k)
def execElemFsub (r : ElemRec) (s : State) : Host.Outcome State Fault Refusal :=
  aluStep s 0x21 r (fun x => floatSub r x.a.v x.b.v) fun x _ k => f32Sub (x.a.tan k) (x.b.tan k)
def execElemFmul (r : ElemRec) (s : State) : Host.Outcome State Fault Refusal :=
  aluStep s 0x22 r (fun x => floatMul r x.a.v x.b.v) fun x _ k => tanMul x.a.v x.b.v (x.a.tan k) (x.b.tan k)
def execElemFma (r : ElemRec) (s : State) : Host.Outcome State Fault Refusal :=
  aluStep s 0x23 r (fun x => floatFma r x.a.v x.b.v x.c.v) fun x _ k => tanFma x.a.v x.b.v (x.a.tan k) (x.b.tan k) (x.c.tan k)
def execElemFmin (r : ElemRec) (s : State) : Host.Outcome State Fault Refusal :=
  aluStep s 0x24 r (fun x => floatMinMax r false x.a.v x.b.v) fun x _ k =>
    if picksFirst false x.a.v x.b.v then x.a.tan k else x.b.tan k
def execElemFmax (r : ElemRec) (s : State) : Host.Outcome State Fault Refusal :=
  aluStep s 0x25 r (fun x => floatMinMax r true x.a.v x.b.v) fun x _ k =>
    if picksFirst true x.a.v x.b.v then x.a.tan k else x.b.tan k
def execElemFabs (r : ElemRec) (s : State) : Host.Outcome State Fault Refusal :=
  aluStep s 0x26 r (fun x => floatAbs r x.a.v) fun x _ k => tanAbs x.a.v (x.a.tan k)
def execElemFneg (r : ElemRec) (s : State) : Host.Outcome State Fault Refusal :=
  aluStep s 0x27 r (fun x => floatNeg r x.a.v) fun x _ k => tanNeg (x.a.tan k)
def execElemFcmp (r : ElemRec) (s : State) : Host.Outcome State Fault Refusal :=
  aluStep s 0x28 r (fun x => floatCmp r x.a.v x.b.v) noTan
def execElemRcp (r : ElemRec) (s : State) : Host.Outcome State Fault Refusal :=
  aluStep s 0x29 r (fun x => f32Rcp (elemRnd r) x.a.v) fun x y k => tanRcp y (x.a.tan k)
def execElemSqrt (r : ElemRec) (s : State) : Host.Outcome State Fault Refusal :=
  aluStep s 0x2A r (fun x => f32Sqrt (elemRnd r) x.a.v) fun x y k => tanSqrt y (x.a.tan k)
def execElemRsq (r : ElemRec) (s : State) : Host.Outcome State Fault Refusal :=
  aluStep s 0x2B r (fun x => f32Rsq (elemRnd r) x.a.v) fun x y k => tanRsq y (x.a.tan k)
def execElemExp2 (r : ElemRec) (s : State) : Host.Outcome State Fault Refusal :=
  aluStep s 0x2C r (fun x => f32Exp2 (elemRnd r) x.a.v) fun x y k => tanExp2 y (x.a.tan k)
def execElemLog2 (r : ElemRec) (s : State) : Host.Outcome State Fault Refusal :=
  aluStep s 0x2D r (fun x => f32Log2 (elemRnd r) x.a.v) fun x _ k => tanLog2 x.a.v (x.a.tan k)
def execElemTanh (r : ElemRec) (s : State) : Host.Outcome State Fault Refusal :=
  aluStep s 0x2E r (fun x => f32Tanh (elemRnd r) x.a.v) fun x y k => tanTanh y (x.a.tan k)
def execElemSin (r : ElemRec) (s : State) : Host.Outcome State Fault Refusal :=
  aluStep s 0x2F r (fun x => f32SinCos false (elemRnd r) x.a.v) fun x _ k => tanSin x.a.v (x.a.tan k)
def execElemCos (r : ElemRec) (s : State) : Host.Outcome State Fault Refusal :=
  aluStep s 0x30 r (fun x => f32SinCos true (elemRnd r) x.a.v) fun x _ k => tanCos x.a.v (x.a.tan k)

/-! ### Conversion and quantisation (R403 to R405) -/

def execElemCvt (r : ElemRec) (s : State) : Host.Outcome State Fault Refusal :=
  aluStep s 0x38 r (fun x => elemConvert r x.a.v) fun x _ k => if convertPasses r then x.a.tan k else 0
def execElemPack (r : ElemRec) (s : State) : Host.Outcome State Fault Refusal :=
  aluStep s 0x39 r (fun x => packWord r x.a.v x.b.v) noTan
def execElemUnpk (r : ElemRec) (s : State) : Host.Outcome State Fault Refusal :=
  aluStep s 0x3A r (fun x => unpackWord r x.a.v) noTan
def execElemQnt (r : ElemRec) (s : State) : Host.Outcome State Fault Refusal :=
  aluStep s 0x3B r (fun x => quantise r x.a.v x.b.v) fun x _ k => x.a.tan k
def execElemDqnt (r : ElemRec) (s : State) : Host.Outcome State Fault Refusal :=
  aluStep s 0x3C r (fun x => dequantise r x.a.v x.b.v) fun x _ k => x.a.tan k

/-! ### Reductions (R406) -/

/-- `RSUM`: the tangents are summed in the same order. -/
def execElemRsum (r : ElemRec) (s : State) : Host.Outcome State Fault Refusal :=
  redStep s 0x40 r id fun c v =>
    { v := redSum r.ty c.v v.v, t := tabulate (max c.t.length v.t.length) fun k => f32Add (c.tan k) (v.tan k) }
/-- `RMAX` and `RMIN` keep the earliest token selected, with its tangents. -/
def execElemRmax (r : ElemRec) (s : State) : Host.Outcome State Fault Refusal :=
  redStep s 0x41 r id fun c v => if redBeats r.ty true c.v v.v then v else c
def execElemRmin (r : ElemRec) (s : State) : Host.Outcome State Fault Refusal :=
  redStep s 0x42 r id fun c v => if redBeats r.ty false c.v v.v then v else c
def execElemRcnt (r : ElemRec) (s : State) : Host.Outcome State Fault Refusal :=
  redStep s 0x43 r (fun v => { v := if v.v ≠ 0 then 1 else 0, t := [] })
    fun c v => { v := if v.v ≠ 0 then c.v + 1 else c.v, t := [] }

/-! ### Level markers (R407) -/

/-- `LVL` takes a token: it goes on unchanged, and a marker of the level follows one that is not zero. -/
def State.lvlTake (s : State) (a : At) (ts : List (Nat × Tok)) : State :=
  let c := s.cell a.n
  let x := a.input ts
  if !a.mayWrite c a.outs then s
  else if anyPoison ts then
    let (v, s) := s.takeFree
    let v := BitVec.ofNat 32 v
    s.onCell a.n fun c =>
      let c := a.write (a.take c) a.outs { a.tok .data x.thread v (List.replicate c.ident.tw v) with poison := true }
      if v = 0 then c else c.pendLevel a.site a.x.r.lvl.toNat x.thread
  else
    let c := a.write (a.take c) a.outs (a.tok .data x.thread x.a.v (List.replicate c.ident.tw 0))
    let c := c.countOp x.thread 1
    s.setCell a.n (if x.a.v = 0 then c else c.pendLevel a.site a.x.r.lvl.toNat x.thread)

def execElemLvl (r : ElemRec) (s : State) : Host.Outcome State Fault Refusal :=
  match s.atSite 0x44 r with
  | none => .next s
  | some a =>
    if (s.cur.carry a.site).empty then fireSite s 0x44 r s.passMarker s.lvlTake
    else .next (s.putLevel a)

end Sys2Proof.Machine
end

