-- ==== Sys2Proof/Machine/Errors.lean ====
section
/-! DEFINITION. Hardware errors (R29, R36, R150, R214, R274 to R278): which contexts end, the retirement of a group, the
quarantine of a way, and units that reload. -/

namespace Sys2Proof.Machine

/-! ### Retiring a group (R150, R276, R277) -/

/-- Fold each line of a retiring group except the damaged one into HR, without restamping. -/
def State.foldGroup (s : State) (base skip : Nat) : State :=
  (linesOf base 65536).foldl (fun s l => if l = skip then s else s.foldRange (64 * l) 64) s

/-- The leaves of a world over a physical range. -/
def World.leavesOver (v : World) (pa len : Nat) : List (Nat × Leaf) :=
  v.leaves.filter fun e => e.2.evicted.isNone && rangesMeet e.2.pa (leafBytes e.2.level) pa len

/-- The states of the sealed regions of a world that a physical range meets. -/
def World.regionsOver (v : World) (pa len : Nat) : List RegionSt :=
  (v.leavesOver pa len).flatMap fun e =>
    (v.regions.filter fun r => rangesMeet r.base (65536 * r.chunks) (e.1 + (pa - e.2.pa)) (min len (leafBytes e.2.level))).map (·.st)

/-- What the loss of sealed bytes means for a world (R277). -/
def State.loseSealed (s : State) (w : Nat) (l : List RegionSt) : State :=
  if l.contains .active then s.endWorld w Cause.mchk.code 0xFFFF 0
  else if l.contains .loading then s.sealingFails w { status := .error, cause := Cause.mchk.code, detail := 0 }
  else s

/-- Retire the 64 KiB group of a damaged line: the other resident lines leave by write-back, every other line's HBM copy is folded
into HR, the leaves inside the group go, and the group is never mapped again. -/
def State.retireGroup (s : State) (line : Nat) : State :=
  let base := line / 1024 * 65536
  if s.retired.contains (base / 65536) then s
  else
    let s : State := { s with lines := Map.erase s.lines line }
    let s := (s.flushRange base 65536).foldGroup base line
    let hit := s.worlds.map fun w => (w.1, w.2.regionsOver base 65536)
    let s : State := { s with
      worlds := s.worlds.map fun w => (w.1, { w.2 with
        leaves := w.2.leaves.filter fun e => !(e.2.evicted.isNone && e.2.level == 0 && rangesMeet e.2.pa pageBytes base 65536) }) }
    let s := s.freeRange base 65536
    let s := ({ s with retired := s.retired ++ [base / 65536] } : State).hyperAdd 5 1
    hit.foldl (fun s e => s.loseSealed e.1 e.2) s

/-- Quarantine a way in the slice of a line for a partition: its lines leave by write-back, and nothing takes it again. -/
def State.quarantine (s : State) (p line way : Nat) : State :=
  let d := dieOfPart p
  let mine := (s.lines.filter fun e =>
    dieOfPart e.2.part == d && e.2.way == way && sliceOf e.1 == sliceOf line).map (·.1)
  let s := mine.foldl State.evictLine s
  let q := (d, sliceOf line, way, p)
  if s.quarantined.contains q then s else ({ s with quarantined := s.quarantined ++ [q] } : State).hyperAdd 6 1

/-- DIRTY_LINE_ERROR: the line is dropped, its group retired, its way quarantined, and the owner in its tag ends. -/
def execDirtyLineError (pa : Nat) (s : State) : Host.Outcome State Fault Refusal :=
  match Map.get? s.lines (pa / 64) with
  | none => .next s
  | some t =>
    if !t.dirty then .next s
    else
      let s : State := { s with lines := Map.erase s.lines (pa / 64) }
      .next (((s.retireGroup (pa / 64)).quarantine t.part (pa / 64) t.way).machineCheck t.part t.owner)

/-- CLEAN_LINE_ERROR: the line is refilled from HBM where its stamp and fill check agree; else the current epoch fails (R150). -/
def execCleanLineError (pa : Nat) (s : State) : Host.Outcome State Fault Refusal :=
  let line := pa / 64
  match Map.get? s.lines line with
  | none => .next s
  | some t =>
    if t.dirty then .next s
    else match (s.protectedWorld line).bind fun w => (s.world? w).map fun v => (w, v) with
      | none => .next (s.hyperAdd 9 1)
      | some (w, v) =>
        let st := Map.get 0 s.stamps line
        if st = t.stamp ∧ (s.term v line st).extractLsb' 0 64 = t.check then .next (s.hyperAdd 9 1)
        else .next (s.endWorld w Cause.integ.code 0xFFFF v.epoch)

/-! ### Errors that end contexts (R214, R275) -/

/-- The contexts that are bound on a partition. -/
def Part.contexts (v : Part) (p : Nat) : List (Nat × Nat) := v.ctxs.map fun c => (p, c.1)

def State.checkAll (s : State) (l : List (Nat × Nat)) : State := l.dedup.foldl (fun s x => s.machineCheck x.1 x.2) s

/-- The contexts whose work a Bandstand holds: those with a launch on a partition of its die. -/
def State.bandstandWork (s : State) (d : Nat) : List (Nat × Nat) :=
  s.launches.flatMap fun l => (l.2.parts.filter fun p => dieOfPart p == d).map fun p => (p, l.2.ctx)

/-- The contexts whose work a gardener core holds: those with a translation fault that waits on its die. -/
def State.gardenerWork (s : State) (d : Nat) : List (Nat × Nat) :=
  (s.faults.filter fun f => dieOfPart f.part == d).map fun f => (f.part, f.ctx)

/-- A line whose tag is damaged goes without write-back. What HBM holds under a dirty line the model does not keep: its bytes
are free values there, and the stamp of that copy is renewed, so that the world's epoch still balances (R275, log 28). -/
def State.dropDamaged (s : State) (line : Nat) : State :=
  match Map.get? s.lines line with
  | none => s
  | some t =>
    let s : State := { s with lines := Map.erase s.lines line }
    let s : State := if t.dirty then
        { s.store (64 * line) (tabulate 64 fun i => BitVec.ofNat 8 (Config.freeNat (s.free + i))) with free := s.free + 64 }
      else s
    match s.protectedWorld line with
    | some w => s.stampWrite w line
    | none => s

/-- An uncorrectable error (R275). -/
def State.uncorrectable (s : State) (e : ErrSite) : State :=
  match e with
  | .cellStore n => s.checkCell n
  | .linkSlot n => s.checkCell n
  | .arbourGroup n => s.checkCell n
  | .hbmLine pa p ctx =>
    let s := if (Map.get? s.lines (pa / 64)).isSome then s else s.foldRange (pa / 64 * 64) 64
    (s.retireGroup (pa / 64)).machineCheck p ctx
  | .l1Line n line => (s.onCell n fun c => { c with l1 := Map.erase c.l1 line }).hyperAdd 9 1
  | .commonsTag line =>
    let p := s.homePart (64 * line)
    (s.dropDamaged line).checkAll ((s.part p).contexts p)
  | .bandstand d =>
    let s := s.checkAll (s.bandstandWork d)
    { s with reloading := if s.reloading.contains d then s.reloading else d :: s.reloading }
  | .gardener d =>
    let s := s.checkAll (s.gardenerWork d)
    { s with reloading := if s.reloading.contains (4 + d) then s.reloading else (4 + d) :: s.reloading }

def execUncorrectableError (site : ErrSite) (s : State) : Host.Outcome State Fault Refusal := .next (s.uncorrectable site)

/-- TOKEN_PARITY_ERROR: a slot or beat that is read fails its parity (R214). -/
def execTokenParityError (cell site dir : Nat) (s : State) : Host.Outcome State Fault Refusal :=
  if ((s.cell cell).link (linkOf site dir)).q.isEmpty then .next s else .next (s.checkCell cell)

/-- UNIT_RELOAD_COMPLETE. -/
def execUnitReloadComplete (unit : Nat) (s : State) : Host.Outcome State Fault Refusal :=
  .next { s with reloading := s.reloading.filter (· != unit) }

/-! ### Accesses without an answer (R29, R36) -/

/-- An access that has waited 1 ms for its answer, with no deferral acknowledged (R36, R141). -/
def RemoteAcc.late (r : RemoteAcc) (now : Nat) : Bool := r.answer.isNone && !r.held && decide (r.since + 1000000 ≤ now)

/-- REMOTE_ACCESS_TIMEOUT: the context ends with MCHK; whether the access has taken effect is open. -/
def execRemoteAccessTimeout (cell : Nat) (s : State) : Host.Outcome State Fault Refusal :=
  if (s.cell cell).remote.any fun r => r.late s.timebase then .next (s.checkCell cell) else .next s

/-- CXL_POISON_READ. -/
def execCxlPoisonRead (part ctx : Nat) (s : State) : Host.Outcome State Fault Refusal := .next (s.machineCheck part ctx)

/-- CXL_PORT_DOWN: the contexts whose access waits on the port end; later accesses to it end theirs. -/
def execCxlPortDown (port : Nat) (victims : List (Nat × Nat)) (s : State) : Host.Outcome State Fault Refusal :=
  let s : State := { s with cxlDown := if s.cxlDown.contains port then s.cxlDown else port :: s.cxlDown }
  .next (s.checkAll victims)

end Sys2Proof.Machine
end

