-- ==== Sys2Proof/Machine/KvTables.lean ====
section
/-! DEFINITION. The Espalier's tables and what map operations do to them: pages and counts (R155, R156), sequences (R159),
appending and copy-on-write (R160, R161), drafts (R162, R163) and the prefix index (R164). -/

namespace Sys2Proof.Machine

/-! ### Pages (R153 to R156) -/

/-- Page size in bytes. -/
def KvMap.bp (m : KvMap) : Nat := 16384 * m.units
/-- Address of a byte of a page. -/
def KvMap.pageVa (m : KvMap) (page : Nat) : Nat := m.pool + page * m.bp
def KvMap.freeCount (m : KvMap) : Nat := m.free.length + (m.np - m.fresh)

/-- Allocate the page at the head of the free list; its count becomes 1. -/
def KvMap.alloc (m : KvMap) : Option (Nat × KvMap) :=
  match m.free with
  | p :: r => some (p, { m with free := r, counts := Map.set 0 m.counts p 1 })
  | [] => if m.fresh < m.np then some (m.fresh, { m with fresh := m.fresh + 1, counts := Map.set 0 m.counts m.fresh 1 })
    else none

/-- Allocate k pages; the pages in order, as many as there are. -/
def KvMap.allocs (m : KvMap) : Nat → List Nat × KvMap
  | 0 => ([], m)
  | k + 1 => match m.alloc with
    | none => ([], m)
    | some (p, m) => let r := m.allocs k; (p :: r.1, r.2)

/-- A reference to a page ends: a page with no reference and no hold is pushed onto the free list. The second result counts
the pages pushed. -/
def KvMap.drop (x : KvMap × Nat) (p : Nat) : KvMap × Nat :=
  let m := x.1
  let c := Map.get 0 m.counts p - 1
  let m := { m with counts := Map.set 0 m.counts p c }
  if c = 0 ∧ Map.get 0 m.holds p = 0 then ({ m with free := p :: m.free }, x.2 + 1) else (m, x.2)

def KvMap.dropAll (m : KvMap) (l : List Nat) : KvMap × Nat := l.foldl KvMap.drop (m, 0)
/-- n more references to each page. -/
def KvMap.gain (m : KvMap) (n : Nat) (l : List Nat) : KvMap :=
  { m with counts := l.foldl (fun c p => Map.set 0 c p (Map.get 0 c p + n)) m.counts }
/-- No count would pass 65,535 (R156). -/
def KvMap.mayGain (m : KvMap) (n : Nat) (l : List Nat) : Bool := l.all fun p => decide (Map.get 0 m.counts p + n ≤ 65535)

def KvMap.seq? (m : KvMap) (h : Nat) : Option KvSeq := Map.get? m.seqs h
def KvMap.setSeq (m : KvMap) (h : Nat) (q : KvSeq) : KvMap := { m with seqs := Map.put m.seqs h q }
/-- The free handles, lowest first. -/
def KvMap.freeHandles (m : KvMap) : List Nat := (List.range m.smax).filter fun h => (m.seq? h).isNone

/-! ### What a command does -/

/-- A page copy: handle, old page, new page, bytes (R161). -/
structure KvCopy where
  handle : Nat
  old    : Nat
  new    : Nat
  bytes  : Nat
  deriving DecidableEq, Repr

/-- The outcome of a map operation: status and result, the map after it, bytes to write to the list by offset, and the copies
in order. -/
structure KvDone where
  status : Status
  result : Nat
  map    : KvMap
  writes : List (Nat × List Byte)
  copies : List KvCopy

def kvFail (m : KvMap) (st : Status) (result : Nat := 0) : KvDone :=
  { status := st, result := result, map := m, writes := [], copies := [] }
def kvOk (m : KvMap) (result : Nat) : KvDone := { status := .ok, result := result, map := m, writes := [], copies := [] }

/-- An entry of a block table as KVLOOK returns it (R155). -/
def kvEntry : Option Nat → List Byte
  | some p => leBytes 4 (2 ^ 31 + p)
  | none => leBytes 4 0

/-! ### Sequences (R159) -/

def KvMap.kvalloc (m : KvMap) : KvDone :=
  match m.freeHandles with
  | [] => kvFail m .limit
  | h :: _ => kvOk (m.setSeq h { len := 0, k := 0, table := [], shadow := [] }) h

def KvMap.kvfork (m : KvMap) (h n : Nat) : KvDone :=
  match m.seq? h with
  | none => kvFail m .policy
  | some q =>
    let new := m.freeHandles.take n
    if q.k > 0 then kvFail m .policy
    else if new.length < n || !m.mayGain n q.table then kvFail m .limit
    else { kvOk (new.foldl (fun m x => m.setSeq x { q with k := 0, shadow := [] }) (m.gain n q.table)) (new.headD 0) with
      writes := [(0, new.flatMap (leBytes 2))] }

def KvMap.kvrel (m : KvMap) (h : Nat) : KvDone :=
  match m.seq? h with
  | none => kvFail m .policy
  | some q =>
    let (m', n) := { m with seqs := Map.erase m.seqs h }.dropAll (q.table ++ q.shadow)
    kvOk m' n

def KvMap.kvlook (m : KvMap) (h first n : Nat) (shadow : Bool) : KvDone :=
  match m.seq? h with
  | none => kvFail m .policy
  | some q =>
    let t := if shadow then q.shadow else q.table
    { kvOk m q.len with writes := [(0, (List.range n).flatMap fun i => kvEntry t[first + i]?)] }

/-! ### Appending (R160, R161) -/

/-- One entry of KVAPP: handle and new positions. -/
structure KvAppend where
  handle : Nat
  count  : Nat
  deriving DecidableEq, Repr

/-- The append writes the page at its length, which another sequence or the index shares. -/
def KvMap.appendCopies (m : KvMap) (q : KvSeq) : Bool :=
  decide (q.len % 16 ≠ 0) && decide (1 < Map.get 0 m.counts (q.table.getD (q.len / 16) 0))

/-- The pages an entry needs. -/
def KvMap.appendNeed (m : KvMap) (q : KvSeq) (c : Nat) : Nat :=
  ceilDiv (q.len + c) 16 - ceilDiv q.len 16 + (if m.appendCopies q then 1 else 0)

/-- One entry performed: the copy, then the further pages, then the length; with its copy and result. -/
def KvMap.append (m : KvMap) (h : Nat) (q : KvSeq) (c : Nat) : KvMap × List KvCopy × (Nat × Nat) :=
  let i := q.len / 16
  let old := q.table.getD i 0
  let (m, q, copies) :=
    if m.appendCopies q then
      match m.alloc with
      | none => (m, q, [])
      | some (p, m) => ((KvMap.drop (m, 0) old).1, { q with table := q.table.set i p },
          [{ handle := h, old := old, new := p, bytes := q.len % 16 * (m.bp / 16) : KvCopy }])
    else (m, q, [])
  let (ps, m) := m.allocs (ceilDiv (q.len + c) 16 - ceilDiv q.len 16)
  let t := q.table ++ ps
  (m.setSeq h { q with len := q.len + c, table := t }, copies, (q.len, t.getD i 0))

/-- The entries in list order: the map, the pages needed so far, the copies and each entry's results. -/
structure KvRun where
  map    : KvMap
  need   : Nat
  copies : List KvCopy
  out    : List (Nat × Nat)

def KvRun.step (r : KvRun) (e : KvAppend) : KvRun :=
  match r.map.seq? e.handle with
  | none => r
  | some q =>
    let (m, cs, o) := r.map.append e.handle q e.count
    { map := m, need := r.need + r.map.appendNeed q e.count, copies := r.copies ++ cs, out := r.out ++ [o] }

def KvMap.run (m : KvMap) (l : List KvAppend) : KvRun :=
  l.foldl KvRun.step { map := m, need := 0, copies := [], out := [] }

/-- The length of a sequence after some entries fits the table. -/
def KvMap.appendFits (m : KvMap) (l : List KvAppend) : Bool :=
  l.all fun e => match m.seq? e.handle with
    | some q => decide (q.len + ((l.filter fun (x : KvAppend) => x.handle == e.handle).map fun (x : KvAppend) => x.count).sum ≤ 16 * m.lmax)
    | none => false

/-- KVAPP on a list whose entries have passed the checks of the record. The needs are found on a pool without end, so that
each sees the lengths and counts the entries before it leave. -/
def KvMap.kvapp (m : KvMap) (l : List KvAppend) : KvDone :=
  if l.any fun e => (m.seq? e.handle).all fun q => decide (0 < q.k) then kvFail m .policy
  else if !m.appendFits l then kvFail m .limit
  else
    let need := (({ m with np := m.np + (l.map fun (e : KvAppend) => e.count).sum } : KvMap).run l).need
    if m.freeCount < need then kvFail m .short (need - m.freeCount)
    else
      let r := m.run l
      { status := .ok, result := need, map := r.map, copies := r.copies
        writes := r.out.mapIdx fun i o => (16 * i + 8, leBytes 4 o.1 ++ leBytes 4 o.2) }

/-! ### Drafts (R162, R163) -/

def KvMap.kvdraft (m : KvMap) (h k : Nat) : KvDone :=
  match m.seq? h with
  | none => kvFail m .policy
  | some q =>
    let n := ceilDiv (q.len % 16 + k) 16
    if q.k > 0 then kvFail m .policy
    else if 16 * m.lmax < q.len + k then kvFail m .limit
    else if m.freeCount < n then kvFail m .short (n - m.freeCount)
    else
      let (ps, m) := m.allocs n
      { kvOk (m.setSeq h { q with k := k, shadow := ps }) n with
        copies := if q.len % 16 = 0 then []
          else [{ handle := h, old := q.table.getD (q.len / 16) 0, new := ps.headD 0, bytes := q.len % 16 * (m.bp / 16) }] }

/-- Put a shadow page into a table place. -/
def swapOne (x : KvMap × List Nat) (i p : Nat) : KvMap × List Nat :=
  match x.2[i]? with
  | some old => ((KvMap.drop (x.1, 0) old).1, x.2.set i p)
  | none => (x.1, x.2 ++ [p])

def KvMap.kvswap (m : KvMap) (h j : Nat) : KvDone :=
  match m.seq? h with
  | none => kvFail m .policy
  | some q =>
    if q.k = 0 ∨ q.k < j then kvFail m .policy
    else
      let u := if j = 0 then 0 else ceilDiv (q.len % 16 + j) 16
      let (m, t) := ((q.shadow.take u).zipIdx).foldl (fun x e => swapOne x (q.len / 16 + e.2) e.1) (m, q.table)
      let m := (m.dropAll (q.shadow.drop u)).1
      kvOk (m.setSeq h { len := q.len + j, k := 0, table := t, shadow := [] }) (q.len + j)

/-! ### The prefix index (R164) -/

def KvMap.prefixAt (m : KvMap) (hash : Word) (l : Nat) : Option KvPrefix :=
  m.prefixes.find? fun e => e.hash == hash && e.len == l

def KvMap.kvpfx (m : KvMap) (h : Nat) (hash : Word) (l : Nat) (adopt : Bool) : KvDone :=
  match m.seq? h with
  | none => kvFail m .policy
  | some q =>
    if adopt then
      if q.len ≠ 0 then kvFail m .policy
      else match m.prefixAt hash l with
        | none => kvOk m 2
        | some e =>
          if 16 * m.lmax < l || !m.mayGain 1 e.pages then kvFail m .limit
          else kvOk ((m.gain 1 e.pages).setSeq h { q with len := l, table := e.pages }) 1
    else if q.len < l ∨ q.k > 0 then kvFail m .policy
    else match m.prefixAt hash l with
      | none =>
        let ps := q.table.take (l / 16)
        if m.x ≤ m.prefixes.length || !m.mayGain 1 ps then kvFail m .limit
        else kvOk { m.gain 1 ps with prefixes := m.prefixes ++ [{ hash := hash, len := l, pages := ps }] } 0
      | some e =>
        if !m.mayGain 1 e.pages then kvFail m .limit
        else
          let (m, t) := (e.pages.zipIdx).foldl (fun (x : KvMap × List Nat) p =>
            swapOne (x.1.gain 1 [p.1], x.2) p.2 p.1) (m, q.table)
          kvOk (m.setSeq h { q with table := t }) 1

def KvMap.kvdrop (m : KvMap) (hash : Word) (l : Nat) : KvDone :=
  match m.prefixAt hash l with
  | none => kvFail m .policy
  | some e =>
    let (m, n) := { m with prefixes := m.prefixes.erase e }.dropAll e.pages
    kvOk m n

end Sys2Proof.Machine
end

