-- ==== Sys2Proof/Machine/Kv.lean ====
section
/-! DEFINITION. Map commands: the KVM group (R379 to R381), the KVMAP, MAPCREATE and MAPDESTROY nodes (R153, R157, R168) and
their execution by the Espalier (R157 to R164). -/

namespace Sys2Proof.Machine

/-! ### The record (R157, R380) -/

/-- A map command record. -/
structure KvRec where
  op     : Nat
  flags  : Nat
  handle : Nat
  count  : Nat
  hash   : Nat
  list   : Nat
  a      : Nat
  e      : Nat
  units  : Nat
  x      : Nat
  deriving DecidableEq, Repr

def kvRecOf (l : List Byte) : KvRec where
  op := leAt l 0 1
  flags := leAt l 1 1
  handle := leAt l 2 2
  count := leAt l 4 4
  hash := leAt l 8 8
  list := leAt l 16 8
  a := leAt l 24 4
  e := leAt l 28 4
  units := leAt l 40 4
  x := leAt l 44 4

/-- The bytes that are zero in every record. -/
def kvZeros (l : List Byte) : Bool := zeroAt l 33 3 && zeroAt l 48 16

/-- The fields of R380 for operations 0 to 8: which must be zero, and the limits of the others. -/
def KvRec.fieldsOk (r : KvRec) : Bool :=
  let none_ := r.flags == 0 && r.e == 0 && r.units == 0 && r.x == 0
  let flag0 := decide (r.flags ≤ 1) && r.e == 0 && r.units == 0 && r.x == 0
  let upTo (n lo hi : Nat) := decide (lo ≤ n) && decide (n ≤ hi)
  match r.op with
  | 0 => none_ && r.handle == 0 && r.count == 0 && r.hash == 0 && r.list == 0 && r.a == 0
  | 1 => r.flags == 0 && r.units == 0 && r.x == 0 && r.handle == 0 && r.count == 0 && r.hash == 0 && r.a == 0
    && upTo r.e 1 1024
  | 2 => none_ && upTo r.count 1 64 && r.hash == 0 && r.a == 0
  | 3 => none_ && r.count == 0 && r.hash == 0 && r.list == 0 && r.a == 0
  | 4 => flag0 && upTo r.count 1 16384 && r.hash == 0
  | 5 => none_ && upTo r.count 1 64 && r.hash == 0 && r.list == 0 && r.a == 0
  | 6 => none_ && upTo r.count 0 64 && r.hash == 0 && r.list == 0 && r.a == 0
  | 7 => flag0 && r.count == 0 && r.list == 0 && upTo r.a 16 4096 && r.a % 16 == 0
  | 8 => none_ && r.handle == 0 && r.count == 0 && r.list == 0
  | _ => false

/-- The bytes of the list that an operation names. -/
def KvRec.listBytes (r : KvRec) : Nat :=
  match r.op with
  | 1 => 16 * r.e
  | 2 => 2 * r.count
  | 4 => 4 * r.count
  | _ => 0

/-- The entries of a KVAPP list, each with its zero field and limits (R160). -/
def kvEntries (l : List Byte) (e : Nat) : List KvAppend :=
  tabulate e fun i => { handle := leAt l (16 * i) 2, count := leAt l (16 * i + 4) 4 }
def kvEntriesOk (l : List Byte) (e : Nat) : Bool :=
  (List.range e).all fun i =>
    zeroAt l (16 * i + 2) 2 && decide (1 ≤ leAt l (16 * i + 4) 4) && decide (leAt l (16 * i + 4) 4 ≤ 262144)

/-- Every handle lies below Smax. -/
def KvRec.handlesOk (r : KvRec) (smax : Nat) (es : List KvAppend) : Bool :=
  decide (r.handle < smax) && es.all fun x => decide (x.handle < smax)

/-- The operation on the map, after the checks of the record and its handles. -/
def KvRec.perform (r : KvRec) (m : KvMap) (es : List KvAppend) : KvDone :=
  match r.op with
  | 0 => m.kvalloc
  | 1 => m.kvapp es
  | 2 => m.kvfork r.handle r.count
  | 3 => m.kvrel r.handle
  | 4 => m.kvlook r.handle r.a r.count (r.flags == 1)
  | 5 => m.kvdraft r.handle r.count
  | 6 => m.kvswap r.handle r.count
  | 7 => m.kvpfx r.handle (BitVec.ofNat 64 r.hash) r.a (r.flags == 1)
  | _ => m.kvdrop (BitVec.ofNat 64 r.hash) r.a

/-! ### Execution (R157, R158) -/

/-- The partition whose counters a command's copies raise: the issuing cell's, or the world's home (R161). -/
def KvReq.countPart (q : KvReq) (v : World) : Nat :=
  match q.src with
  | .cell .. => q.part
  | .node .. => v.home

/-- One page copy by a streamer: its bytes, its event, its trace record and its HBM bytes (R161). -/
def State.kvCopy (s : State) (q : KvReq) (w p : Nat) (m : KvMap) (c : KvCopy) : State :=
  let src := m.pageVa c.old
  let dst := m.pageVa c.new
  let s := (s.touchRange q.part q.ctx w src c.bytes false true).touchRange q.part q.ctx w dst c.bytes true true
  let s := (s.vaPut w dst (s.vaBytes w src c.bytes)).endUncached
  let s := (s.meter p 4 c.bytes).countEvent p 4 1
  let cell := match q.src with
    | .cell n _ => n
    | .node .. => 0xFFFF
  s.trace p 2 cell 0 (leBytes 8 c.handle ++ leBytes 8 c.old ++ leBytes 8 c.new ++ leBytes 8 c.bytes)

/-- A command completes: the status and result go to its record as the last write, and its issuer learns of it (R381, R86). -/
def State.kvComplete (s : State) (w : Nat) (q : KvReq) (st : Status) (result : Nat) : State :=
  let s := if s.normRange w q.addr.toNat 64 true then
      s.unitWrite q.part q.ctx w (q.addr.toNat + 32) (leBytes 1 st.code ++ leBytes 3 0 ++ leBytes 4 result)
    else s
  match q.src with
  | .cell n l => s.onOwner n l fun c => ({ c with kvm := c.kvm.tail } : Cell).pulseDone 20
  | .node fn qn i => s.finishStatus fn qn i st (if st = .short then result else 0)

/-- A virtual address lies on an OPD page of a world. -/
def State.onOpdPage (s : State) (w va : Nat) : Bool :=
  ((s.world? w).bind fun v => v.leafAt va).any fun e => e.2.evicted.isNone && e.2.cls == .opd

/-- Perform the command whose record is r: the checks of R157 in their order, then the operation whole. A copy from or to an
OPD page ends the world (R137), and one whose pool pages are no longer mapped as R153 requires, after a retirement, gives
POLICY. -/
def State.kvRun (s : State) (w : Nat) (v : World) (q : KvReq) (l : List Byte) : State :=
  let r := kvRecOf l
  let bytes := r.listBytes
  let opOk := match q.op with
    | some o => o == r.op
    | none => true
  if !opOk || !kvZeros l || !r.fieldsOk || (decide (0 < bytes) && (r.list % 4 != 0 || !s.normRange w r.list bytes true)) then
    s.kvComplete w q .malformed 0
  else
    let (s, list) := if r.op = 1 then s.unitRead q.part q.ctx w r.list bytes else (s, [])
    let es := if r.op = 1 then kvEntries list r.e else []
    if r.op = 1 ∧ !kvEntriesOk list r.e then s.kvComplete w q .malformed 0
    else match v.kv with
      | none => s.kvComplete w q .policy 0
      | some m =>
        if !r.handlesOk m.smax es then s.kvComplete w q .malformed 0
        else
          let d := r.perform m es
          if d.copies.any fun c => s.onOpdPage w (m.pageVa c.old) || s.onOpdPage w (m.pageVa c.new) then
            s.endWorld w Cause.opd.code 0xFFFF 0
          else if !d.copies.all fun c => s.normRange w (m.pageVa c.old) c.bytes false && s.normRange w (m.pageVa c.new) c.bytes true then
            s.kvComplete w q .policy 0
          else
          let s := s.onWorld w fun v => { v with kv := some d.map }
          let s := d.copies.foldl (fun s c => s.kvCopy q w (q.countPart v) m c) s
          let s := d.writes.foldl (fun s e => s.unitWrite q.part q.ctx w (r.list + e.1) e.2) s
          s.kvComplete w q d.status d.result

/-- MAP_COMMAND_EXECUTE: the Espalier takes the oldest command of a world (R158). A record that can no longer be read is
MALFORMED (log 22). -/
def execMapCommandExecute (world : Nat) (s : State) : Host.Outcome State Fault Refusal :=
  match s.world? world with
  | none => .next s
  | some v => match v.kvq with
    | [] => .next s
    | q :: rest =>
      let s := s.setWorld world { v with kvq := rest }
      if s.normRange world q.addr.toNat 64 true then
        let (s, l) := s.unitRead q.part q.ctx world q.addr.toNat 64
        .next (s.kvRun world v q l)
      else .next (s.kvComplete world q .malformed 0)

/-! ### The KVM group (R379) -/

/-- A command leaves the sequencer, or its gate term, for the Espalier. -/
def State.issueKvm (s : State) (n op : Nat) (addr : Word) : State :=
  let i := (s.cell n).ident
  let s := s.onCell n fun c => { c with kvm := c.kvm ++ [{ op := op, addr := addr }] }
  s.onWorld i.world fun v => { v with kvq := v.kvq ++ [{
    src := .cell n i.launch, op := some op, addr := addr, part := i.part, ctx := i.ctx }] }

/-- An instruction of the group: the address is checked at issue or arming, and nothing else. -/
def kvmOp (s : State) (op : Nat) (x : Reg) (gate : Option Reg) : Host.Outcome State Fault Refusal :=
  let n := s.focus.cell
  let s := s.release n
  let c := s.cur
  let a := c.reg x
  if s.cur.run = .idle then .next s
  else if !c.mayArm gate then trapNow s false .combo
  else s.withChk n (c.instrWord false) 4 (s.access n .kvRecord 64 a none) fun l =>
    if l.cls ≠ .norm then trapNow s false .perm a
    else match gate with
      | some w => .next (s.onCur fun c => (c.arm (c.gateOf w) (.kvm op a) (c.instrWord false)).retire false)
      | none => .next ((s.issueKvm n op a).onCur fun c => c.retire false)

def execKvalloc (x : Reg) (gate : Option Reg) (s : State) : Host.Outcome State Fault Refusal := kvmOp s 0 x gate
def execKvapp (x : Reg) (gate : Option Reg) (s : State) : Host.Outcome State Fault Refusal := kvmOp s 1 x gate
def execKvfork (x : Reg) (gate : Option Reg) (s : State) : Host.Outcome State Fault Refusal := kvmOp s 2 x gate
def execKvrel (x : Reg) (gate : Option Reg) (s : State) : Host.Outcome State Fault Refusal := kvmOp s 3 x gate
def execKvlook (x : Reg) (gate : Option Reg) (s : State) : Host.Outcome State Fault Refusal := kvmOp s 4 x gate
def execKvdraft (x : Reg) (gate : Option Reg) (s : State) : Host.Outcome State Fault Refusal := kvmOp s 5 x gate
def execKvswap (x : Reg) (gate : Option Reg) (s : State) : Host.Outcome State Fault Refusal := kvmOp s 6 x gate
def execKvpfx (x : Reg) (gate : Option Reg) (s : State) : Host.Outcome State Fault Refusal := kvmOp s 7 x gate
def execKvdrop (x : Reg) (gate : Option Reg) (s : State) : Host.Outcome State Fault Refusal := kvmOp s 8 x gate

/-! ### Nodes (R88, R153, R157, R168) -/

/-- A KVMAP node's own fields: zero bytes 18 to 23 and 32 to 63. -/
def kvNodeOk (b : List Byte) : Bool := zeroAt b 18 6 && zeroAt b 32 32
def kvNodeOp (b : List Byte) : Nat := leAt b 16 1

/-- KVMAP: the record of operations 0 to 8 goes to the Espalier; a reserved operation is MALFORMED. -/
def execKvmap (fn q node : Nat) (s : State) : Host.Outcome State Fault Refusal :=
  s.withNode fn q node 0x03 fun b =>
    let op := kvNodeOp b
    if op = 0x10 ∨ op = 0x11 then s
    else if !kvNodeOk b || decide (8 < op) then s.finishStatus fn q node .malformed
    else match s.ctxWorld fn (leAt b 17 1) with
      | none => s.finishStatus fn q node .policy
      | some (p, w) =>
        s.onWorld w fun v =>
          if v.kvq.any fun r => r.src == .node fn q node then v
          else { v with kvq := v.kvq ++ [{ src := .node fn q node, op := some op, addr := BitVec.ofNat 64 (leAt b 24 8)
                                           part := p, ctx := leAt b 17 1 }] }

/-- A node of operation 0x10 or 0x11 reaches the Espalier when no command of its world waits there (R158): its record, or the
status it completes with. -/
def State.mapNode (s : State) (fn q node op : Nat) (k : State → Nat → World → KvReq → List Byte → State) :
    Host.Outcome State Fault Refusal :=
  s.withNode fn q node 0x03 fun b =>
    if kvNodeOp b ≠ op then s
    else if !kvNodeOk b then s.finishStatus fn q node .malformed
    else match s.ctxWorld fn (leAt b 17 1) with
      | none => s.finishStatus fn q node .policy
      | some (p, w) => match s.world? w with
        | none => s.finishStatus fn q node .policy
        | some v =>
          let r : KvReq := { src := .node fn q node, op := some op, addr := BitVec.ofNat 64 (leAt b 24 8), part := p
                             ctx := leAt b 17 1 }
          if !v.kvq.isEmpty then s
          else if s.normRange w r.addr.toNat 64 true then
            let (s, l) := s.unitRead p r.ctx w r.addr.toNat 64
            k s w v r l
          else s.kvComplete w r .malformed 0

/-- The metadata bytes of a map, in 16 KiB pages (R154). -/
def kvMetaPages (r : KvRec) : Nat := ceilDiv (r.a * (64 + 4 * r.e) + 8 * r.count + 1040 * r.x) pageBytes

/-- The geometry of R153. -/
def KvRec.geometryOk (r : KvRec) : Bool :=
  let upTo (n lo hi : Nat) := decide (lo ≤ n) && decide (n ≤ hi)
  upTo r.units 1 128 && r.hash % (16384 * max 1 r.units) == 0 && upTo r.count 1 1048576 && upTo r.a 1 65536
    && upTo r.e 1 16384 && upTo r.x 0 65536

/-- A map as MAPCREATE leaves it (R155). -/
def KvRec.newMap (r : KvRec) : KvMap where
  units := r.units
  pool := r.hash
  np := r.count
  smax := r.a
  lmax := r.e
  x := r.x
  seqs := []
  counts := []
  holds := []
  free := []
  fresh := 0
  prefixes := []

/-- MAPCREATE. -/
def execMapcreate (fn q node : Nat) (s : State) : Host.Outcome State Fault Refusal :=
  s.mapNode fn q node 0x10 fun s w v k l =>
    let r := kvRecOf l
    if r.op ≠ 0x10 ∨ !kvZeros l ∨ r.flags ≠ 0 ∨ r.handle ≠ 0 ∨ r.list ≠ 0 ∨ !r.geometryOk then s.kvComplete w k .malformed 0
    else if v.kv.isSome then s.kvComplete w k .limit 0
    else if !s.normRange w r.hash (r.count * 16384 * r.units) true then s.kvComplete w k .policy 0
    else match s.takeBytes v.home (.kvMeta w) (pageBytes * kvMetaPages r) with
      | none => s.kvComplete w k .limit 0
      | some (s, l) =>
        let s := l.foldl (fun s b => s.stampRange b.1 b.2) s
        (s.onWorld w fun v => { v with kv := some r.newMap }).kvComplete w k .ok 0

/-- MAPDESTROY: the metadata goes with the map (R154, R168). -/
def execMapdestroy (fn q node : Nat) (s : State) : Host.Outcome State Fault Refusal :=
  s.mapNode fn q node 0x11 fun s w v k l =>
    let r := kvRecOf l
    if r.op ≠ 0x11 ∨ !kvZeros l ∨ l.drop 1 ≠ (l.drop 1).mapIdx (fun i b => if i = 31 ∨ (35 ≤ i ∧ i < 39) then b else 0) then
      s.kvComplete w k .malformed 0
    else match v.kv with
      | none => s.kvComplete w k .policy 0
      | some m =>
        if m.holds.any fun e => e.2 != 0 then s.kvComplete w k .busy 0
        else
          let mine := s.owners.filter fun o => o.owner == .kvMeta w
          let s := mine.foldl (fun s o => (s.foldRange o.base o.len).freeRange o.base o.len) s
          (s.onWorld w fun v => { v with kv := none }).kvComplete w k .ok 0

end Sys2Proof.Machine
end

