-- ==== Sys2Proof/Machine/Sess.lean ====
section
/-! DEFINITION. Session commands and meters of a cell: `SOPEN`, `SSEAL`, `SMETER` and `SEPOCH` (R382 to R386, R61 to R66), and
the weight-set pins (R392). The Lodge's work for a command is done when it takes the session's lock (log 23). -/

namespace Sys2Proof.Machine

/-! ### Status words (R385) -/

/-- The status word of a session command, with the line it pulses. -/
def Cell.sessStatus (c : Cell) (sa : Nat) (st : Status) (detail : Nat) : Cell :=
  (c.scratchWrite sa (leBytes 4 st.code ++ leBytes 4 detail)).pulseDone 19

/-- A register that holds a 20-bit scratch address and nothing else. -/
def scratchReg (w : Word) : Bool := w.extractLsb' 20 44 == 0

/-- An open session of a world: its handle is live and its keys are held. -/
def State.openSession? (s : State) (w h : Nat) : Option (World × Session) :=
  (s.world? w).bind fun v => (Map.get? v.sessions h).bind fun x => if x.keys.isSome then some (v, x) else none

def State.setSession (s : State) (w h : Nat) (x : Session) : State :=
  s.onWorld w fun v => { v with sessions := Map.put v.sessions h x }

/-! ### `SOPEN` (R383) -/

/-- The operand checks. -/
def sopenOperands (y z : Word) : Bool := y &&& ~~~(0x0000FFFF000FFFFF : Word) == 0 && scratchReg z

/-- The checks of a record: the status address, the header, and then the whole record. -/
def State.sopenCheck (s : State) (n : Nat) (x z : Word) : Chk Nat :=
  (scratchChk z).andThen fun sa =>
  (s.accessRange n .bankRead 16 x none 32).andThen fun _ =>
  let len := leNat (s.vaBytes (s.cell n).ident.world (x.toNat + 16) 4)
  (s.accessRange n .bankRead 16 x none (48 + len)).andThen fun _ => .ok sa

/-- What the Lodge answers to a record (R64): the status, the plaintext, and the session after it. -/
def sopenLodge (v : World) (q : Session) (record : List Byte) (room : Nat) : Status × List Byte × Session :=
  let header := record.take 32
  let ctr := leAt record 8 8
  let len := leAt record 16 4
  let body := (record.drop 32).take len
  let tag := BitVec.ofNat 128 (leAt record (32 + len) 16)
  if v.held then (.policy, [], q)
  else if ctr ≤ q.reqCtr then (.replay, [], q)
  else if len = 0 ∨ room < len ∨ 1048576 < len then (.length, [], q)
  else match gcmOpen (requestKey (q.keys.getD [])) (2 ^ 64 + ctr) header body tag with
    | none => (.tag, [], q)
    | some plain => (.ok, plain, { q with reqCtr := ctr, keys := if 2 ^ 63 ≤ ctr then none else q.keys })

/-- Carry out a `SOPEN` that has been checked. -/
def State.sopenRun (s : State) (n : Nat) (x y : Word) (sa : Nat) : State :=
  let i := (s.cell n).ident
  let len := leNat (s.vaBytes i.world (x.toNat + 16) 4)
  let (s, record) := s.unitRead i.part i.ctx i.world x.toNat (48 + len)
  let h := (y.extractLsb' 32 16).toNat
  let dest := (y.extractLsb' 0 20).toNat
  if (s.cell n).run = .idle then s
  else match s.openSession? i.world h with
    | none => s.onCell n fun c => c.sessStatus sa .closed 0
    | some (v, q) => match s.lockWait q with
      | some us => s.onCell n fun c => c.sessStatus sa .busy us
      | none =>
        let (q, s) := s.takeLock q
        let (st, plain, q) := sopenLodge v q record (0x100000 - dest)
        let s := s.setSession i.world h q
        s.onCell n fun c => (c.scratchWrite dest plain).sessStatus sa st plain.length

def execSopen (x y z : Reg) (gate : Option Reg) (s : State) : Host.Outcome State Fault Refusal :=
  let n := s.focus.cell
  let c := s.cur
  let (rx, ry, rz) := (c.reg x, c.reg y, c.reg z)
  if !sopenOperands ry rz || !c.mayArm gate then trapNow s false .combo
  else
    let s := s.release n
    if s.cur.run = .idle then .next s
    else match gate with
      | some w => .next (s.onCur fun c => (c.arm (c.gateOf w) (.sopen rx ry rz) (c.instrWord false)).retire false)
      | none => s.withChk n (c.instrWord false) 4 (s.sopenCheck n rx rz) fun sa =>
        if !s.lodgeFree then .next s
        else .next ((s.sopenRun n rx ry sa).settle fun c => c.retire false)

/-! ### `SSEAL` (R384) -/

def ssealLen (x : Word) : Nat := (x.extractLsb' 0 21).toNat
def ssealHandle (x : Word) : Nat := (x.extractLsb' 32 16).toNat
def ssealMode (x : Word) : Nat := (x.extractLsb' 48 2).toNat

def ssealOperands (x y z : Word) : Bool :=
  x &&& ~~~(0x0003FFFF001FFFFF : Word) == 0 && decide (1 ≤ ssealLen x) && decide (ssealLen x ≤ 1048576)
    && decide (ssealMode x ≤ 1) && scratchReg y && scratchReg z

def ssealCheck (x y z : Word) : Chk Nat :=
  (Chk.need (decide (y.toNat + ssealLen x ≤ 0x100000)) .perm (pastScratch y)).andThen fun _ => scratchChk z

/-- The Lodge's status for a reply (R64, R70). -/
def ssealStatus (v : World) (q : Session) (len mode : Nat) : Status :=
  if v.held then .policy
  else if mode = 0 ∧ (v.bundle.map (·.floor)).getD 0 = 1 then .policy
  else if q.slotSize - 48 < len then .length
  else if mode = 0 ∧ q.slots ≤ q.produced - q.consumed then .full
  else if mode = 1 ∧ 64 ≤ q.held.length then .full
  else .ok

/-- Carry out a `SSEAL` that has been checked: a prompt reply goes to the ring, a certified one is held (R70). -/
def State.ssealRun (s : State) (n : Nat) (x y : Word) (sa : Nat) : State :=
  let c := s.cell n
  let w := c.ident.world
  let h := ssealHandle x
  let plain := c.scratchRead y.toNat (ssealLen x)
  match s.openSession? w h with
  | none => s.onCell n fun c => c.sessStatus sa .closed 0
  | some (v, q) => match s.lockWait q with
    | some us => s.onCell n fun c => c.sessStatus sa .busy us
    | none =>
      let (q, s) := s.takeLock q
      let q := { q with consumed := s.ringConsumed v.vf q }
      let st := ssealStatus v q plain.length (ssealMode x)
      if st ≠ .ok then (s.setSession w h q).onCell n fun c => c.sessStatus sa st 0
      else
        let record := sealReply q (ssealMode x) v.epoch plain
        let (s, q) := if ssealMode x = 0 then s.ringWrite v.vf q record
          else (s, { q with held := q.held ++ [(v.epoch, record)] })
        let q := { q with repCtr := q.repCtr + 1 }
        (s.setSession w h q).onCell n fun c => c.sessStatus sa .ok (q.repCtr % 2 ^ 32)

def execSseal (x y z : Reg) (gate : Option Reg) (s : State) : Host.Outcome State Fault Refusal :=
  let n := s.focus.cell
  let c := s.cur
  let (rx, ry, rz) := (c.reg x, c.reg y, c.reg z)
  if !ssealOperands rx ry rz || !c.mayArm gate then trapNow s false .combo
  else
    let s := s.release n
    if s.cur.run = .idle then .next s
    else s.withChk n (c.instrWord false) 4 (ssealCheck rx ry rz) fun sa =>
      match gate with
      | some w => .next (s.onCur fun c => (c.arm (c.gateOf w) (.sseal rx ry rz) (c.instrWord false)).retire false)
      | none =>
        if !s.lodgeFree then .next s
        else .next ((s.ssealRun n rx ry sa).settle fun c => c.retire false)

/-! ### `SMETER` and `SEPOCH` (R386) -/

def execSmeter (s : State) : Host.Outcome State Fault Refusal :=
  let n := s.focus.cell
  .next ((s.meter (partOfCell n) 9 1).onCur fun c => (c.pulseDone 19).retire false)

/-- The highest epoch closed clean, or all ones. -/
def State.cleanEpoch (s : State) (w : Nat) : Word :=
  match (s.world? w).bind (·.clean) with
  | some e => BitVec.ofNat 64 e
  | none => BitVec.allOnes 64

def execSepoch (x : Reg) (s : State) : Host.Outcome State Fault Refusal :=
  .next (s.onCur fun c => ((c.setReg x (s.cleanEpoch c.ident.world)).pulseDone 19).retire false)

/-! ### Weight sets (R392) -/

/-- What `WPIN` and `WGEN` give for a set: its current generation, or bit 63 with POLICY. -/
def genWord : Option Nat → Word
  | some g => BitVec.ofNat 64 g
  | none => 0x8000000000000002

def State.currentGen (s : State) (w : Nat) (set : Word) : Option Nat :=
  (s.world? w).bind fun v => Map.get? v.current set.toNat

def Cell.hasPin (c : Cell) (set : Word) : Bool := c.pins.any fun p => p.1 == set.toNat

def execWpin (x y : Reg) (s : State) : Host.Outcome State Fault Refusal :=
  let c := s.cur
  let set := c.reg y
  if decide (15 < set.toNat) || c.hasPin set then trapNow s false .combo
  else
    let g := s.currentGen c.ident.world set
    let pins := match g with
      | some g => c.pins ++ [(set.toNat, g)]
      | none => c.pins
    .next (s.setCur ((({ c with pins := pins } : Cell).setReg x (genWord g)).retire false))

def execWunpin (x : Reg) (s : State) : Host.Outcome State Fault Refusal :=
  let c := s.cur
  let set := c.reg x
  if decide (15 < set.toNat) || !c.hasPin set then trapNow s false .combo
  else
    let c' : Cell := { c with pins := c.pins.filter fun p => p.1 != set.toNat }
    .next ((s.setCur (c'.retire false)).settleGens c.ident.world)

def execWgen (x y : Reg) (s : State) : Host.Outcome State Fault Refusal :=
  let c := s.cur
  let set := c.reg y
  if decide (15 < set.toNat) then trapNow s false .combo
  else .next (s.setCur ((c.setReg x (genWord (s.currentGen c.ident.world set))).retire false))

end Sys2Proof.Machine
end

