-- ==== Sys2Proof/Machine/Gates.lean ====
section
/-! DEFINITION. The firing of a gate term (R261, R360): the armed command starts, the inputs are consumed, and a check that runs
at firing reports asynchronously. -/

namespace Sys2Proof.Machine

/-- The engine of an armed command can take it now (R359); `free` says that the Lodge can take a session command. -/
def Cell.canAccept (c : Cell) (free : Bool) : Armed → Bool
  | .arb _ => decide (c.arb.queue.length < 8)
  | .kvm .. => decide (c.kvm.length < 8)
  | .coll .. => c.coll.isNone
  | .bkop .. => decide (c.bank.length < 16)
  | .bkred .. => decide (c.bank.length < 16)
  | .sopen .. | .sseal .. => free
  | _ => true

/-- A term is true and its command can start. -/
def Cell.mayFire (c : Cell) (free : Bool) (g : Nat) : Bool :=
  let t := c.gate g
  match t.armed with
  | none => false
  | some (a, _) => !(c.trueProducts t).isEmpty && c.canAccept free a

/-- A check at firing has failed: an asynchronous report of the sequencer with the command word (R265, R360). -/
def State.firingFails (s : State) (n : Nat) (word : W32) (cause : Cause) (addr : Word) : State :=
  s.report n { cause := cause, addr := addr, info := kfinfoOf true 0 0 word }

/-- Go on with a check at firing. A page that is absent leaves the term as it was, with its fault recorded once; NOMAP, or a
fault ring that is off, makes it PERM (R131). -/
def State.firingChk {α : Type} (s fired : State) (n : Nat) (word : W32) (r : Chk α) (k : State → α → State) : State :=
  match r with
  | .ok a => k fired a
  | .trap c a => fired.firingFails n word c a
  | .endWorld c => s.endWorldOf n c
  | .hold va =>
    let answered := (s.cell n).seq.denied.contains (va / pageBytes)
    if !s.fring.en || answered then
      ((fired.countDenied n answered).onCell n fun c => c.useDenial va).firingFails n word .perm (BitVec.ofNat 64 va)
    else if s.waitsOn n va then s
    else s.addFault n 4 va none

/-- An armed stream starts (R246): among the streams into one FIFO its place is that of its start (R243). -/
def Cell.startArmed (c : Cell) (st : Nat) : Cell :=
  match Map.get? c.streams st with
  | none => c
  | some x => { c.setStream st { x with armed := none, cmd := { x.cmd with serial := c.nextSerial } } with nextSerial := c.nextSerial + 1 }

/-- The state as a check at firing sees it: a command's use of the scope policy was checked when it was armed (R171). -/
def State.policyChecked (s : State) : State := { s with policy := { s.policy with scopeWord := BitVec.allOnes 64 } }

/-- Start an armed command: `s` is the state before the firing, `f` the state after it has consumed its inputs. -/
def State.startArmed (s f : State) (n : Nat) (a : Armed) (word : W32) : State :=
  match a with
  | .stream st => f.onCell n fun c => c.startArmed st
  | .arb o => f.onCell n fun c => c.queueArb o
  | .barrive b => if (f.cell n).mayArrive b then f.onCell n fun c => c.arrive b else f.firingFails n word .barrier 0
  | .bexpect b k =>
    if (f.cell n).expectOk b k then f.onCell n fun c => c.barrierAdd (some b) k.toNat else f.firingFails n word .barrier 0
  | .evfire l => f.onCell n fun c => c.pulse l
  | .brun k base flags => match (f.cell n).brunFails flags with
    | some cz => f.firingFails n word cz 0
    | none => f.onCell n fun c => c.startPhase k base flags
  | .kvm op addr => f.issueKvm n op addr
  | .sopen x y z => s.firingChk f n word (f.sopenCheck n x z) fun f sa => f.sopenRun n x y sa
  | .sseal x y z => s.firingChk f n word (ssealCheck x y z) fun f sa => f.ssealRun n x y sa
  | .coll k l => s.firingChk f n word (f.policyChecked.collCheckRec n k l) fun f cmd => f.issueColl n cmd
  | .bkop x y z => s.firingChk f n word (f.policyChecked.bkopCheck n x y z) fun f cmd =>
      f.onCell n fun c => { c with bank := c.bank ++ [cmd] }
  | .bkred x y z => s.firingChk f n word (f.policyChecked.bkredCheck n x y z) fun f cmd =>
      f.onCell n fun c => { c with bank := c.bank ++ [cmd] }

/-- The term that fires next: in ascending number from where the cycle in hand has come. That is past the term that has fired
last while the lines and counters stand as its firing left them, else a new cycle begins with term 0, as it does after the
last (R261). -/
def Cell.nextTerm (c : Cell) (free : Bool) : Option Nat :=
  let at_ := match c.gateScan with
    | some (k, lines, counters) => if c.lines = lines ∧ c.counters = counters then k else 0
    | none => 0
  match (List.range 16).find? fun g => decide (at_ ≤ g) && c.mayFire free g with
  | some g => some g
  | none => (List.range 16).find? (c.mayFire free)

/-- Note where the evaluation of the terms has come. -/
def Cell.scanned (c : Cell) (term : Nat) : Cell :=
  if c.run = .idle then c else { c with gateScan := some (term + 1, c.lines, c.counters) }

/-- GATE_TERM_FIRE: the term whose turn it is. -/
def execGateTermFire (cell term : Nat) (s : State) : Host.Outcome State Fault Refusal :=
  let c := s.cell cell
  if !c.enginesRun || c.nextTerm s.lodgeFree ≠ some term then .next s
  else match (c.gate term).armed with
    | none => .next s
    | some (a, word) =>
      let f := s.setCell cell ((c.consumeInputs (c.gate term)).disarm term)
      .next ((s.startArmed f cell a word).onCell cell fun c => c.scanned term)

end Sys2Proof.Machine
end

