-- ==== Sys2Proof/Machine/Spdm.lean ====
section
/-! DEFINITION. SPDM on the DOE mailbox and the pod ports (R34, R48 to R51): negotiation, evidence, sessions and the
vendor-defined requests. Connection 0 to 11 is a pod port, 12 the DOE mailbox of physical function 0. -/

namespace Sys2Proof.Machine

/-! ### A connection and its replies (R48) -/

def State.spdm (s : State) (port : Nat) : Spdm := Map.get Spdm.reset s.lodge.spdm port
def State.onSpdm (s : State) (port : Nat) (f : Spdm → Spdm) : State :=
  s.onLodge fun l => { l with spdm := Map.put l.spdm port (f (Map.get Spdm.reset l.spdm port)) }

/-- Append to the transcript of a connection. -/
def State.record (s : State) (port : Nat) (l : List Byte) : State := s.onSpdm port fun c => { c with transcript := c.transcript ++ l }

/-- The hash over a connection's transcript, as signatures cover it. -/
def State.transcriptHash (s : State) (port : Nat) : List Byte := digestBytes (Config.sha384 (s.spdm port).transcript)

/-- Answer a request that is no part of the transcript. -/
def State.spdmReply (s : State) (port code : Nat) (l : List Nat) : State := s.emit (.spdm port (Config.spdmReply code l))
/-- The ERROR response. -/
def State.spdmError (s : State) (port : Nat) : State := s.spdmReply port 0x7F []

/-- Answer a request: both messages enter the transcript. -/
def State.spdmAnswer (s : State) (port req : Nat) (args : List Nat) (code : Nat) (l : List Nat) : State :=
  (s.record port (Config.spdmRequest req args ++ Config.spdmReply code l)).spdmReply port code l

/-- The bytes of a signed response: the response and the alias key's ECDSA signature over the transcript to its end. -/
def State.spdmSignedBytes (s : State) (port code : Nat) (l : List Nat) : List Byte :=
  Config.spdmReply code l ++ tabulate 96 (Config.ecdsaByte s.lodge.aliasKey (s.transcriptHash port))

/-- Answer a request with a signed response (R48). -/
def State.spdmSigned (s : State) (port req : Nat) (args : List Nat) (code : Nat) (l : List Nat) : State :=
  let s := s.record port (Config.spdmRequest req args ++ Config.spdmReply code l)
  s.emit (.spdm port (s.spdmSignedBytes port code l))

/-- A message that the Lodge takes on a connection of the module, in mailbox order (R97): answered where it comes in the order
of the connection, else with an ERROR. -/
def State.withSpdm (s : State) (port : Nat) (ok : Spdm → Bool) (k : State) : Host.Outcome State Fault Refusal :=
  if !s.lodgeUp || !s.lodgeFree || decide (12 < port) then .next s
  else if ok (s.spdm port) then .next k
  else .next (s.spdmError port)

/-! ### Negotiation and identity (R48) -/

/-- GET_VERSION starts the connection anew. -/
def execGetVersion (port : Nat) (s : State) : Host.Outcome State Fault Refusal :=
  s.withSpdm port (fun _ => true)
    ((s.onSpdm port fun c => { Spdm.reset with version := true, session := c.session }).spdmAnswer port 0x84 [] 0x04 [0x13])

def execGetCapabilities (port : Nat) (s : State) : Host.Outcome State Fault Refusal :=
  s.withSpdm port (fun c => c.version)
    ((s.spdmAnswer port 0xE1 [] 0x61 []).onSpdm port fun c => { c with caps := true })

/-- NEGOTIATE_ALGORITHMS: `offer` says that the requester offers ECDSA P-384 with SHA-384 and AES-256-GCM. -/
def execNegotiateAlgorithms (port : Nat) (offer : Bool) (s : State) : Host.Outcome State Fault Refusal :=
  s.withSpdm port (fun c => c.caps && offer)
    ((s.spdmAnswer port 0xE3 [] 0x63 []).onSpdm port fun c => { c with algorithms := true })

def execGetDigests (port : Nat) (s : State) : Host.Outcome State Fault Refusal :=
  s.withSpdm port (fun c => c.algorithms) (s.spdmAnswer port 0x81 [] 0x01 [(Config.sha384 s.lodge.chain).toNat])

/-- GET_CERTIFICATE: slot 0 alone holds a chain. -/
def execGetCertificate (port slot : Nat) (s : State) : Host.Outcome State Fault Refusal :=
  s.withSpdm port (fun c => c.algorithms && slot == 0) (s.spdmAnswer port 0x82 [slot] 0x02 (s.lodge.chain.map (·.toNat)))

def execChallenge (port nonce : Nat) (s : State) : Host.Outcome State Fault Refusal :=
  s.withSpdm port (fun c => c.algorithms) (s.spdmSigned port 0x83 [nonce] 0x03 [nonce, (Config.sha384 s.lodge.chain).toNat])

/-! ### Measurements (R49, R50) -/

/-- Keep the evidence of a world that a nonce has bound (R49, R62). -/
def State.keepEvidence (s : State) (index nonce : Nat) (l : List Byte) : State :=
  if 0x40 ≤ index then s.onLodge fun v => { v with evidence := (index - 0x40, nonce, l) :: v.evidence } else s

/-- GET_MEASUREMENTS: signed with the block it returns, and bound to a nonce, where the verifier gives one. -/
def execGetMeasurements (port index : Nat) (nonce : Option Nat) (s : State) : Host.Outcome State Fault Refusal :=
  match s.measurement index with
  | none => s.withSpdm port (fun _ => false) s
  | some l =>
    s.withSpdm port (fun c => c.algorithms)
      (match nonce with
      | none => s.spdmAnswer port 0xE0 [index] 0x60 (index :: l)
      | some n =>
        (s.spdmSigned port 0xE0 [index, n] 0x60 (index :: n :: l)).keepEvidence index n (Config.spdmReply 0x60 (index :: n :: l)))

/-! ### Sessions (R34, R48) -/

/-- The lowest-numbered member, whose timebase is the pod's (R39). -/
def Pod.anchor (p : Pod) : Nat := p.members.foldl (fun a m => min a m.module) p.self

/-- KEY_EXCHANGE: on a pod port a peer must be genuine, and its firmware new enough (R34). -/
def execKeyExchange (port : Nat) (peer : LinkPeer) (s : State) : Host.Outcome State Fault Refusal :=
  let good := peer.genuine && decide (Config.peerMinimum ≤ peer.fwVersion)
  let t := (s.spdmSigned port 0xE4 [] 0x64 []).onSpdm port fun c => { c with handshake := true, session := false }
  let t := if port < 12 then t.onLink port fun l => { l with peer := some peer.module, closed := true } else t
  s.withSpdm port (fun c => c.algorithms && (decide (12 ≤ port) || good)) t

/-- A link takes fresh keys at this time, one for each direction (R34). -/
def State.freshLink (s : State) (port : Nat) : State :=
  ({ s with free := s.free + 2 } : State).onLink port fun l =>
    { l with txKey := Config.freshKey s.free, rxKey := Config.freshKey (s.free + 1), flits := 0, keyStart := s.timebase }

/-- Link sessions measure the offset to the anchor's timebase anew: any value, but 0 at the anchor itself (R39, log 3). -/
def State.measureOffset (s : State) : State :=
  let (x, s) := s.takeFree
  s.onPod fun p => { p with offset := if p.anchor = p.self then 0 else (x : Int) - 2 ^ 63 }

/-- FINISH: the session is in force; on a pod port it measures the offset to the anchor's timebase (R39). -/
def execFinishSession (port : Nat) (s : State) : Host.Outcome State Fault Refusal :=
  let t := (s.spdmAnswer port 0xE5 [] 0x65 []).onSpdm port fun c => { c with handshake := false, session := true }
  let t := if port < 12 then
      let t := (t.freshLink port).onLink port fun l => { l with closed := false, crcFails := 0, txSeq := 0, rxSeq := 0 }
      t.measureOffset.sendWaiting
    else t
  s.withSpdm port (fun c => c.handshake) t

/-- KEY_UPDATE: new keys, and no flit is lost. -/
def execKeyUpdate (port : Nat) (s : State) : Host.Outcome State Fault Refusal :=
  s.withSpdm port (fun c => c.session)
    ((if port < 12 then s.freshLink port else s).spdmReply port 0x69 [])

/-- An `LDFE` that waits at a module to which no route is left completes with MCHK (R141). -/
def State.loseHeld (s : State) : State :=
  s.cells.foldl (fun s e =>
    if e.2.run ≠ .idle ∧ e.2.remote.any fun r => r.held && r.answer.isNone && (s.routeTo (paModule r.pa)).isNone then
      s.machineCheck e.2.ident.part e.2.ident.ctx
    else s) s

/-- The session of a connection ends. A link session's end is signalled (R27), and the flits in flight on the port go over other
routes (R33). -/
def State.dropSession (s : State) (port : Nat) : State :=
  let t := s.onSpdm port fun c => { c with session := false, handshake := false }
  if port < 12 then
    let flits := (t.link port).replay
    let t := (t.onLink port fun l => { l with peer := none, closed := true, txKey := 0, rxKey := 0, replay := [] }).signal 0 6
    (flits.foldl State.sendFlit t).loseHeld
  else t

/-- END_SESSION. -/
def execEndSession (port : Nat) (s : State) : Host.Outcome State Fault Refusal :=
  s.withSpdm port (fun c => c.session) ((s.spdmReply port 0x6C []).dropSession port)

/-- LINK_KEY_UPDATE_DUE: 2^32 flits or one hour have passed on a link session (R34). -/
def execLinkKeyUpdateDue (port : Nat) (s : State) : Host.Outcome State Fault Refusal :=
  let l := s.link port
  if port < 12 ∧ (s.spdm port).session ∧ !l.closed ∧ (2 ^ 32 ≤ l.flits ∨ l.keyStart + 3600000000000 ≤ s.timebase) then
    .next (s.freshLink port)
  else .next s

/-! ### Vendor-defined requests (R51) -/

/-- PQSIG: the ML-DSA-87 signature over the current transcript hash. -/
def execPqsig (port : Nat) (s : State) : Host.Outcome State Fault Refusal :=
  s.withSpdm port (fun c => c.algorithms)
    (s.emit (.spdm port (tabulate 4627 (Config.mldsaByte s.lodge.aliasKey [] (s.transcriptHash port)))))

/-- PQCHAIN. -/
def execPqchain (port : Nat) (s : State) : Host.Outcome State Fault Refusal :=
  s.withSpdm port (fun c => c.algorithms) (s.emit (.spdm port (Config.mldsaChain s.lodge.aliasKey)))

/-- GETMETER: a signed report of one partition (R73). -/
def execGetmeter (port part : Nat) (s : State) : Host.Outcome State Fault Refusal :=
  let (t, l) := s.meterReport part false
  s.withSpdm port (fun c => c.algorithms && decide (part < 16) && (s.part part).vf != 0 && (s.part part).st != .destroying)
    (t.emit (.spdm port l))

/-- GETEPOCH: the highest epoch closed clean of a world, and the timebase, signed. The record's layout is open, and what it shows
while no epoch has closed clean: 8-byte world, epoch and timebase, and all ones (log 14). -/
def execGetepoch (port world : Nat) (s : State) : Host.Outcome State Fault Refusal :=
  let e := ((s.world? world).bind fun v => v.clean).getD (2 ^ 64 - 1)
  s.withSpdm port (fun c => c.algorithms && (s.world? world).isSome)
    (s.emit (.spdm port (signRecord s.lodge.aliasKey [] (leBytes 8 world ++ leBytes 8 e ++ leBytes 8 s.timebase))))

/-- GETREVOKE: the revocation records of worlds ended since the last reset. -/
def execGetrevoke (port : Nat) (s : State) : Host.Outcome State Fault Refusal :=
  s.withSpdm port (fun c => c.algorithms) (s.emit (.spdm port s.lodge.revocations.flatten))

end Sys2Proof.Machine
end

