-- ==== Sys2Proof/Machine/Pod.lean ====
section
/-! DEFINITION. Pod links and replicated launches (R31 to R39, R443): flits, the member list, and the origin's and the target's
side of a pod launch. -/

namespace Sys2Proof.Machine

/-! ### The home side of a remote access (R141, R443) -/

/-- The class of page that an access of another module may reach. -/
def remoteFits (op : RemoteOp) (cls : PageClass) : Bool :=
  match op with
  | .load _ => cls == .norm || cls == .fe
  | .store _ | .atomic .. => cls == .norm
  | .ldfe | .stfe _ | .fepeek | .clear => cls == .fe

/-- The local world and class under which an access of a world of another module is served; none when it is refused: an HBM page
of the paired world, of the class of the issuing leaf, that fits, with a context bound at home (R443). -/
def State.remoteGrant (s : State) (src world pa cls : Nat) (op : RemoteOp) : Option (Nat × PageClass) :=
  if paModule pa ≠ s.pod.self ∨ !isHbm (paLocal pa) then none
  else (s.worldOf pa).bind fun w => (s.world? w).bind fun v => (v.leafOfPa pa).bind fun l =>
    if v.pairs.contains (src, world) && l.cls.code == cls && remoteFits op l.cls
      && (s.tagCtx (s.homePart pa) 16 0 w).isSome then some (w, l.cls) else none

/-- A request of cell `cell` of another module at its home slice: a refusal is answered, and an `LDFE` of an empty word takes a
deferral entry and is acknowledged; with none free it is asked again from its source (R141, R443). -/
def State.serveRemote (s : State) (src cell world pa cls : Nat) (op : RemoteOp) : State :=
  match s.remoteGrant src world pa cls op with
  | none => s.answerRemote src cell pa [] true
  | some (w, cls) =>
    let touch (write : Bool) : State := (s.meter (s.homePart pa) 6 flitPayload).touchAs 16 0 w cls pa write false
    let word (s : State) : List Byte := readBytes s.mem pa 4
    match op with
    | .load size => let s := touch false; s.answerRemote src cell pa (readBytes s.mem pa size) false
    | .store data => ((touch true).store pa data).endUncached.answerRemote src cell pa [] false
    | .atomic op dbl v cmp =>
      let s := touch true
      let size := sizeOf dbl
      let old := s.load pa size
      (s.store pa (leBytes size (atomicBits dbl op.toNat (BitVec.ofNat 64 old) v cmp))).endUncached.answerRemote src cell pa
        (leBytes size old) false
    | .ldfe =>
      let s := touch false
      if s.isFull pa then s.answerRemote src cell pa (word s) false
      else if !s.deferralFree pa then s
      else (s.onPod fun p => { p with deferred := p.deferred ++ [(src, cell, pa)] }).sendFlit (s.newFlit src (.deferred cell pa))
    | .stfe v =>
      let s := touch true
      if s.isFull pa then s.endUncached.answerRemote src cell pa (word s) false
      else (((s.store pa (leBytes 4 v.toNat)).setFull pa true).wake pa).endUncached.answerRemote src cell pa [] false
    | .clear => (((touch true).store pa (leBytes 4 0)).setFull pa false).endUncached.answerRemote src cell pa [] false
    | .fepeek =>
      let s := touch false
      s.answerRemote src cell pa (if s.isFull pa then word s else []) false

/-- Mark the oldest access of a cell to a place that has no answer. -/
def markRemote (pa : Nat) (f : RemoteAcc → Option RemoteAcc) : List RemoteAcc → List RemoteAcc
  | [] => []
  | r :: l => if r.pa = pa ∧ r.answer = none then (f r).toList ++ l else r :: markRemote pa f l

/-- The answer to a remote access of a cell: its data stand for the remote memory, an FE word being full when they are there. An
agent that waits finds the answer at its next turn; a refusal that comes back to a store or an atomic of a thread is a report
(R36, R443, log 18). -/
def State.takeReply (s : State) (n pa : Nat) (data : List Byte) (refused : Bool) : State :=
  match (s.cell n).remote.find? fun r => r.pa == pa && r.answer.isNone with
  | none => s
  | some r =>
    let s := (if refused then s else s.meter (partOfCell n) 6 flitPayload).onCell n fun c => { c with
      remote := markRemote pa (fun r => if r.waits then some { r with answer := some refused } else none) c.remote }
    if refused then
      if r.waits then s
      else s.report n { cause := .perm, addr := BitVec.ofNat 64 r.va, info := kfinfoOf true 0 0 0 }
    else if ((s.world? (s.cell n).ident.world).bind fun v => v.leafOfPa pa).any fun l => l.cls == .fe then
      if data.isEmpty then s.setFull pa false else ((s.store pa data).setFull pa true).wake pa
    else s.store pa data

/-! ### Flits (R32 to R35) -/

/-- A link session to a module is in force (R132, R37). -/
def State.linked (s : State) (m : Nat) : Bool := s.pod.ports.any fun p => p.2.peer == some m && !p.2.closed

/-- The home has acknowledged that an `LDFE` waits there: no limit runs (R141). -/
def State.holdRemote (s : State) (n pa : Nat) : State :=
  match (s.cell n).remote.find? fun r => r.pa == pa && r.answer.isNone with
  | none => s
  | some r =>
    let s := s.onCell n fun c => { c with remote := markRemote pa (fun r => some { r with held := true }) c.remote }
    if r.waits then (s.countCell n 9 1).onCell n fun c => c.withSeq fun q => { q with deferral := some (pa, none) }
    else s

/-- PORT_RETRAIN_COMPLETE: the port carries traffic again. -/
def execPortRetrainComplete (port : Nat) (s : State) : Host.Outcome State Fault Refusal :=
  if port < 12 ∧ (s.link port).retraining then
    .next ((s.onLink port fun l => { l with retraining := false }).sendWaiting)
  else .next s

/-! ### The member list (R35) -/

/-- The same local address under another module number. -/
def withModule (m pa : Nat) : Nat := m * 2 ^ 46 + paLocal pa

/-- Move the entries of module `a` to module `b` in a map by physical address in some unit; what stood for `b` goes. -/
def renumbered {α : Type} (put : Map α → Nat → α → Map α) (unit a b : Nat) (m : Map α) : Map α :=
  m.foldl (fun r e =>
    let pa := e.1 * unit
    if paModule pa = a then put r (withModule b pa / unit) e.2
    else if paModule pa = b then r
    else put r e.1 e.2) []

/-- The module takes another number: what it holds under its old number stands under the new one (R31). -/
def State.renumber (s : State) (b : Nat) : State :=
  let a := s.pod.self
  if a = b then s
  else
    let new (pa : Nat) : Nat := if paModule pa = a then withModule b pa else pa
    let per (unit k : Nat) : Nat := new (k * unit) / unit
    { s with
      pod := { s.pod with self := b, deferred := s.pod.deferred.map fun x => (x.1, x.2.1, new x.2.2) }
      mem := renumbered (Map.set 0) 1 a b s.mem
      full := renumbered (Map.set false) 1 a b s.full
      stamps := renumbered Map.put 64 a b s.stamps
      lines := renumbered Map.put 64 a b s.lines
      owners := s.owners.map fun o => { o with base := new o.base }
      opdBacked := s.opdBacked.map (per pageBytes)
      retired := s.retired.map (per 65536)
      funcs := s.funcs.map fun f => (f.1, { f.2 with staging := f.2.staging.map new }) }

/-- The anchor's offset after a new member list: 0 at the anchor, a fresh measurement where another module is the anchor, else
as it was (R39). -/
def State.newAnchor (s : State) (old : Nat) : State :=
  if s.pod.anchor = s.pod.self then s.onPod fun p => { p with offset := 0 }
  else if s.pod.anchor = old then s
  else s.measureOffset

/-- POD_MEMBER_LIST: this module is the member whose digest its certificate has. An empty list ends the membership; a list without
this module's digest, of which no rule speaks, changes nothing (log 28). -/
def execPodMemberList (members : List PodMember) (routes : List (Nat × Nat)) (s : State) : Host.Outcome State Fault Refusal :=
  if !s.lodgeUp then .next s
  else
    let old := s.pod.anchor
    let mine := s.lodge.identityDigest.toNat
    match members.find? fun m => m.digest == mine with
    | none =>
      if members.isEmpty then .next (((s.renumber 0).onPod fun p => { p with members := [], routes := [] }).newAnchor old)
      else .next s
    | some m =>
      .next ((((s.renumber (m.module % 64)).onPod fun p => { p with members := members, routes := routes }).newAnchor old).sendWaiting)

/-! ### Pod launches at a target (R38, R39) -/

/-- The anchor's time, as this module knows it. -/
def State.anchorNow (s : State) : Int := (s.timebase : Int) + s.pod.offset

/-- The partitions of a set. -/
def partsOfMask (mask : Nat) : List Nat := (List.range 16).filter fun p => mask.testBit p

/-- A world of a VF holds the package of a digest. -/
def State.resident (s : State) (fn digest : Nat) : Bool :=
  s.worlds.any fun w => w.2.vf == fn && w.2.packages.any fun p => p.2.digest == digest

/-- What a target answers to PREPARE: a refusal, in the order of R38, or none for READY. -/
def State.prepareRefusal (s : State) (fn gen digest : Nat) (parts : List Nat) : Option Status :=
  if !s.resident fn digest then some .missing
  else if parts.isEmpty || !parts.all (s.owns fn) then some .nopart
  else if gen ≤ Map.get 0 s.pod.highest fn then some .stale
  else if s.pod.reservations.any fun r => r.t.isNone && r.parts.any parts.contains then some .busy
  else none

/-- PREPARE at a target. -/
def execPreparePod (origin fn : Nat) (_mask gen digest parts : Nat) (s : State) : Host.Outcome State Fault Refusal :=
  let l := partsOfMask parts
  match s.prepareRefusal fn gen digest l with
  | some st => .next (s.tellPod origin (.refuse st.code))
  | none =>
    let r : Reservation := {
      origin := origin, fn := fn, gen := gen, parts := l, since := s.timebase, t := none, digest := digest, node := [], args := [] }
    .next ((s.onPod fun p => { p with reservations := p.reservations ++ [r] }).tellPod origin .ready)

def Reservation.names (r : Reservation) (origin fn gen : Nat) : Bool := r.origin == origin && r.fn == fn && r.gen == gen

/-- A reservation for a pod launch that waits for START and has not lapsed: 200 µs after READY it is over (R38). -/
def Reservation.stands (r : Reservation) (now origin fn gen : Nat) : Bool :=
  r.names origin fn gen && r.t.isNone && decide (now < r.since + 200000)

/-- The highest generation started for a VF after one more (R38). -/
def raised (m : Map Nat) (fn gen : Nat) : Map Nat := Map.put m fn (max gen (Map.get 0 m fn))

/-- START at a target: its reservation ends and its launch is due at t; BUSY when the reservation has lapsed. -/
def execStartPod (origin fn gen : Nat) (t : Nat) (node : List Byte) (args : List Word) (s : State) :
    Host.Outcome State Fault Refusal :=
  if s.pod.reservations.any fun r => r.stands s.timebase origin fn gen then
    .next (s.onPod fun p => { p with
      highest := raised p.highest fn gen
      reservations := p.reservations.map fun r =>
        if r.stands s.timebase origin fn gen then { r with t := some t, node := node, args := args } else r })
  else .next (s.tellPod origin (.refuse Status.busy.code))

/-- The local part of a pod launch, if it has begun. -/
def State.podLocal (s : State) (origin fn gen : Nat) : Option Nat :=
  (s.launches.find? fun e => e.2.pod == some (origin, gen) && e.2.vf == fn).map (·.1)

/-- Discard the local part of a pod launch. -/
def State.podDiscard (s : State) (origin fn gen : Nat) : State :=
  match s.podLocal origin fn gen with
  | none => s
  | some id => s.discardLaunch id

/-- ABORT at a target. -/
def execAbortPod (origin fn gen : Nat) (s : State) : Host.Outcome State Fault Refusal :=
  .next ((s.onPod fun p => { p with reservations := p.reservations.filter fun r => !r.names origin fn gen }).podDiscard origin fn gen)

/-- POD_RESERVATION_LAPSE: 200 µs after READY. -/
def execPodReservationLapse (fn gen : Nat) (s : State) : Host.Outcome State Fault Refusal :=
  .next (s.onPod fun p => { p with
    reservations := p.reservations.filter fun r =>
      !(r.fn == fn && r.gen == gen && r.t.isNone && decide (r.since + 200000 ≤ s.timebase)) })

/-- The handle of a package of a digest in the world that a context number names. -/
def State.handleOf (s : State) (parts : List Nat) (ctx digest : Nat) : Nat :=
  (((s.contextWorld parts ctx).bind s.world?).bind fun v => (v.packages.find? fun p => p.2.digest == digest).map (·.1)).getD 0

/-- Begin the local part of a pod launch at its time, or end it with the status of its check. -/
def State.beginPart (s : State) (e : Ending) (x : LaunchNode) (args : List Word) (budget level : Nat) : State :=
  match s.launchCheck e.fn x.parts x.ctx x.handle x.kernel with
  | .error st => s.launchEnded e st 0 0
  | .ok w =>
    let id := s.nextLaunch
    (s.addLaunch (newLaunch e.fn e.q e.node w x (s.launchConfigs w x.handle) args budget level e.pod)).dispatchLaunch id

/-- A reservation whose time has come begins its launch. -/
def State.beginReserved (s : State) (r : Reservation) : State :=
  let x := launchNodeOf r.node
  let x := { x with parts := r.parts, handle := s.handleOf r.parts x.ctx r.digest }
  let v := s.queue r.fn 0
  s.beginPart { world := 0, ctx := x.ctx, fn := r.fn, q := 0, node := 64, pod := some (r.origin, r.gen) } x r.args (budgetOf x.wdogUs v.wdog) v.prio

/-! ### Pod launches at the origin (R37) -/

/-- The origin's local part begins. -/
def State.beginOwn (s : State) (p : PodLaunch) : State :=
  match s.nodeOf p.fn p.q p.node 0x01 with
  | none => s
  | some b =>
    let x := launchNodeOf b
    let v := s.queue p.fn p.q
    (s.onPod fun v => { v with launch := some { p with st := .running } }).beginPart
      { world := 0, ctx := x.ctx, fn := p.fn, q := p.q, node := p.node, pod := some (s.pod.self, p.gen) } x p.args (budgetOf x.wdogUs v.wdog)
      ((v.graph.map (·.level)).getD 3)

/-- The anchor's time has reached t. -/
def State.reached (s : State) (t : Nat) : Bool := decide ((t : Int) ≤ s.anchorNow)

/-- POD_START_TIME: everything due begins, and parts that wait for their partitions are dispatched when these are free. -/
def execPodStartTime (s : State) : Host.Outcome State Fault Refusal :=
  let due := s.pod.reservations.filter fun r => r.t.any s.reached
  let s := s.onPod fun p => { p with reservations := p.reservations.filter fun r => !r.t.any s.reached }
  let s := match s.pod.launch with
    | some p => if p.st = .starting ∧ s.reached p.t then s.beginOwn p else s
    | none => s
  let s := due.foldl State.beginReserved s
  .next ((s.launches.filter fun e => e.2.pod.isSome && e.2.isReady).foldl (fun s e => s.dispatchLaunch e.1) s)

/-- Every target has answered READY: START at the anchor's time plus 4 µs, and the generation counts as started here too
(R38). How a target learns the launch node and its arguments is open: they go with START (log 28). -/
def State.podGo (s : State) (p : PodLaunch) : State :=
  let t := (s.anchorNow + 4000).toNat
  let node := ((s.nodeOf p.fn p.q p.node 0x01).getD []).take 64
  (s.onPod fun v => { v with
    launch := some { p with st := .starting, t := t }, highest := raised v.highest p.fn p.gen }).sendPod p.mask (.start p.fn p.gen t node p.args)

/-- The targets other than the origin. -/
def State.others (s : State) (mask : Nat) : List Nat := (List.range 64).filter fun m => mask.testBit m && m != s.pod.self

/-- LAUNCH of a node with the pod flag: one pod launch at a time. The rules give no status for a mask without the origin's own
bit and for a target that is no member: the model completes them MALFORMED, and UNREACHABLE at once (log 28). -/
def execPodLaunch (fn q node : Nat) (s : State) : Host.Outcome State Fault Refusal :=
  s.withNode fn q node 0x01 fun b =>
    let x := launchNodeOf b
    if !x.pod || s.pod.launch.isSome then s
    else if !x.targets.testBit s.pod.self then s.finishStatus fn q node .malformed
    else if !(s.others x.targets).all fun m => s.pod.members.any fun k => k.module == m then
      (s.finishStatus fn q node .unreachable).signal 0 6
    else match s.launchCheck fn x.parts x.ctx x.handle x.kernel with
      | .error st => s.finishStatus fn q node st
      | .ok w => match s.readArgs fn x with
        | none => s.finishStatus fn q node .policy
        | some args =>
          let digest := (((s.world? w).bind fun v => Map.get? v.packages x.handle).map fun k => k.digest).getD 0
          let p : PodLaunch := {
            fn := fn, q := q, node := node, mask := x.targets, gen := x.podGen, digest := digest, args := args, st := .gathering
            since := s.timebase, t := 0, ready := [], parts := [], detail := 0 }
          let s := s.onPod fun v => { v with launch := some p }
          if (s.others x.targets).isEmpty then s.podGo p
          else s.sendPod x.targets (.prepare fn x.targets x.podGen digest (x.parts.foldl (fun n p => n + 2 ^ p) 0))

/-- READY from a target. -/
def execReadyPod (target : Nat) (s : State) : Host.Outcome State Fault Refusal :=
  match s.pod.launch with
  | none => .next s
  | some p =>
    if p.st ≠ .gathering ∨ !(s.others p.mask).contains target then .next s
    else
      let p := { p with ready := if p.ready.contains target then p.ready else p.ready ++ [target] }
      if (s.others p.mask).all p.ready.contains then .next (s.podGo p)
      else .next (s.onPod fun v => { v with launch := some p })

/-- The pod launch ends before its parts have: ABORT to every target, and the node completes. -/
def State.podAbort (s : State) (p : PodLaunch) (st : Status) : State :=
  let s := s.sendPod p.mask (.abort p.fn p.gen)
  let s := (s.onPod fun v => { v with launch := none }).podDiscard s.pod.self p.fn p.gen
  s.finishStatus p.fn p.q p.node st

/-- REFUSE from a target: of PREPARE with any status, after START with BUSY. -/
def execRefusePod (target : Nat) (status : Nat) (s : State) : Host.Outcome State Fault Refusal :=
  match s.pod.launch with
  | none => .next s
  | some p =>
    if !(s.others p.mask).contains target then .next s
    else match p.st with
      | .gathering => .next ((s.podAbort p (Status.ofCode status)).signal 0 6)
      | .starting | .running => if status = Status.busy.code then .next (s.podAbort p .busy) else .next s

/-- POD_PREPARE_TIMEOUT: 100 µs without a reply from some target. -/
def execPodPrepareTimeout (s : State) : Host.Outcome State Fault Refusal :=
  match s.pod.launch with
  | none => .next s
  | some p =>
    if p.st = .gathering ∧ p.since + 100000 ≤ s.timebase then .next ((s.podAbort p .unreachable).signal 0 6) else .next s

/-- DONE from a target. -/
def execDonePod (target gen status cause : Nat) (s : State) : Host.Outcome State Fault Refusal :=
  match s.pod.launch with
  | none => .next s
  | some p =>
    if p.gen = gen ∧ p.st ≠ .gathering ∧ (s.others p.mask).contains target then
      .next (s.podPart target (Status.ofCode status) cause 0)
    else .next s

/-- POD_TARGET_SESSION_END: its part counts as UNREACHABLE. -/
def execPodTargetSessionEnd (target : Nat) (s : State) : Host.Outcome State Fault Refusal :=
  match s.pod.launch with
  | none => .next s
  | some p =>
    if p.st = .running ∧ (s.others p.mask).contains target ∧ !s.linked target ∧ !(p.parts.any fun e => e.1 == target) then
      .next ((s.podPart target .unreachable 0 0).signal 0 6)
    else .next s

/-! ### What arrives on a pod port (R32 to R35) -/

/-- A message of a pod launch from another module. -/
def State.takePod (s : State) (src : Nat) (m : PodMsg) : Host.Outcome State Fault Refusal :=
  match m with
  | .prepare fn mask gen digest parts => execPreparePod src fn mask gen digest parts s
  | .ready => execReadyPod src s
  | .refuse status => execRefusePod src status s
  | .start fn gen t node args => execStartPod src fn gen t node args s
  | .abort fn gen => execAbortPod src fn gen s
  | .done gen status cause => execDonePod src gen status cause s

/-- A flit that has passed its checks: for another member it goes on, its plaintext under the outgoing session; for this module it
is served; else it is discarded and counted (R35). -/
def State.takeFlit (s : State) (f : Flit) : Host.Outcome State Fault Refusal :=
  if f.dest ≠ s.pod.self then
    if s.pod.members.any fun m => m.module == f.dest then .next (s.sendFlit f) else .next (s.hyperAdd 3 1)
  else match f.body with
    | .other _ => .next s
    | .request cell world pa cls op => .next (s.serveRemote f.src cell world pa cls op)
    | .reply cell pa data refused => .next (s.takeReply cell pa data refused)
    | .deferred cell pa => .next (s.holdRemote cell pa)
    | .pod m => s.takePod f.src m

/-- FLIT_RECEIVE: the CRC first, then the tag, then the link sequence number (log 28). -/
def execFlitReceive (port : Nat) (flit : Flit) (s : State) : Host.Outcome State Fault Refusal :=
  if decide (12 ≤ port) || !s.linkOpen port then .next s
  else if !flit.crcOk then
    let s := s.hyperAdd 2 1
    .next (s.onLink port fun l =>
      if 16 ≤ l.crcFails + 1 then { l with crcFails := 0, retraining := true } else { l with crcFails := l.crcFails + 1 })
  else if !flit.tagOk then .next (s.dropSession port)
  else if flit.seq ≠ (s.link port).rxSeq then .next s
  else (s.onLink port fun l => { l with crcFails := 0, flits := l.flits + 1, rxSeq := l.rxSeq + 1 }).takeFlit flit


end Sys2Proof.Machine
end

