-- ==== Sys2Proof/Machine/Resets.lean ====
section
/-! DEFINITION. The resets of the whole module and the thermal stop (R16, R17, R44): worlds end, and the boot sequence runs from
stage 1 or has stopped there. -/

namespace Sys2Proof.Machine

/-- Every world ends with a cause, and the completion records of its launches are written (R44, R272). -/
def State.endWorlds (s : State) (cause : Nat) : State :=
  (s.worlds.foldl (fun s w => s.endWorld w.1 cause 0xFFFF 0) s).completeAll

/-- COLD_RESET. -/
def execColdReset (s : State) : Host.Outcome State Fault Refusal := .next (s.renumber 0).restart

/-- A world as a module reset leaves it: Ending, without keys and memory, until stage 7 has zeroed the module (R17, R44). -/
def World.resetEnding (v : World) : World :=
  { v with keys := none, leaves := [], regions := [], packages := [], sessions := [], kv := none, kvq := [], hashes := []
           sweeping := [], pairs := [], scrubs := [] }

/-- MODULE_RESET: every world is Ending, with cause 0 as for DESTROY_WORLD (log 28). -/
def execModuleReset (s : State) : Host.Outcome State Fault Refusal :=
  let t := s.endWorlds 0
  .next { (t.renumber 0).restart with worlds := t.worlds.map fun w => (w.1, w.2.resetEnding) }

/-- THERMAL_STOP: every world ends with MCHK and its keys go at once, with no scrub, world-end record or revocation, and the
module stands as after a cold reset stopped at stage 1 (R16, R44). -/
def execThermalStop (s : State) : Host.Outcome State Fault Refusal :=
  .next ({ (((s.signal 0 7).endWorlds Cause.mchk.code).renumber 0).restart with
    boot := { stage := 1, fail := true, unit := 0 } } : State)

end Sys2Proof.Machine
end

