-- ==== Sys2Proof/Machine/Dispatch.lean ====
section
/-! DEFINITION. The dispatcher: one arm per constructor of `Instr`, each a call of that instruction's own meaning. -/

namespace Sys2Proof.Machine

def exec (i : Instr) (s : State) : Host.Outcome State Fault Refusal :=
  match i with
  | .add d a b => Sys2Proof.Machine.execAdd d a b s
  | .sub d a b => Sys2Proof.Machine.execSub d a b s
  | .mul d a b => Sys2Proof.Machine.execMul d a b s
  | .mulh d a b => Sys2Proof.Machine.execMulh d a b s
  | .mulhn d a b => Sys2Proof.Machine.execMulhn d a b s
  | .div d a b => Sys2Proof.Machine.execDiv d a b s
  | .divn d a b => Sys2Proof.Machine.execDivn d a b s
  | .rem d a b => Sys2Proof.Machine.execRem d a b s
  | .remn d a b => Sys2Proof.Machine.execRemn d a b s
  | .and d a b => Sys2Proof.Machine.execAnd d a b s
  | .or d a b => Sys2Proof.Machine.execOr d a b s
  | .xor d a b => Sys2Proof.Machine.execXor d a b s
  | .andn d a b => Sys2Proof.Machine.execAndn d a b s
  | .shl d a b => Sys2Proof.Machine.execShl d a b s
  | .shr d a b => Sys2Proof.Machine.execShr d a b s
  | .sha d a b => Sys2Proof.Machine.execSha d a b s
  | .rot d a b => Sys2Proof.Machine.execRot d a b s
  | .min d a b => Sys2Proof.Machine.execMin d a b s
  | .max d a b => Sys2Proof.Machine.execMax d a b s
  | .minn d a b => Sys2Proof.Machine.execMinn d a b s
  | .maxn d a b => Sys2Proof.Machine.execMaxn d a b s
  | .slt d a b => Sys2Proof.Machine.execSlt d a b s
  | .sltn d a b => Sys2Proof.Machine.execSltn d a b s
  | .seq d a b => Sys2Proof.Machine.execSeq d a b s
  | .clz d a => Sys2Proof.Machine.execClz d a s
  | .ctz d a => Sys2Proof.Machine.execCtz d a s
  | .popc d a => Sys2Proof.Machine.execPopc d a s
  | .sel d a b => Sys2Proof.Machine.execSel d a b s
  | .addi d a imm => Sys2Proof.Machine.execAddi d a imm s
  | .andi d a imm => Sys2Proof.Machine.execAndi d a imm s
  | .ori d a imm => Sys2Proof.Machine.execOri d a imm s
  | .xori d a imm => Sys2Proof.Machine.execXori d a imm s
  | .shlImmediate d a n => Sys2Proof.Machine.execShlImmediate d a n s
  | .shrImmediate d a n => Sys2Proof.Machine.execShrImmediate d a n s
  | .shaImmediate d a n => Sys2Proof.Machine.execShaImmediate d a n s
  | .rotImmediate d a n => Sys2Proof.Machine.execRotImmediate d a n s
  | .slti d a imm => Sys2Proof.Machine.execSlti d a imm s
  | .sltni d a imm => Sys2Proof.Machine.execSltni d a imm s
  | .lui d h imm => Sys2Proof.Machine.execLui d h imm s
  | .movk d h imm => Sys2Proof.Machine.execMovk d h imm s
  | .beq a b o => Sys2Proof.Machine.execBeq a b o s
  | .bne a b o => Sys2Proof.Machine.execBne a b o s
  | .blt a b o => Sys2Proof.Machine.execBlt a b o s
  | .bge a b o => Sys2Proof.Machine.execBge a b o s
  | .bltn a b o => Sys2Proof.Machine.execBltn a b o s
  | .bgen a b o => Sys2Proof.Machine.execBgen a b o s
  | .dbnz a o => Sys2Proof.Machine.execDbnz a o s
  | .jmp o => Sys2Proof.Machine.execJmp o s
  | .call o => Sys2Proof.Machine.execCall o s
  | .jr a => Sys2Proof.Machine.execJr a s
  | .jrLink a => Sys2Proof.Machine.execJrLink a s
  | .ldb d a o => Sys2Proof.Machine.execLdb d a o s
  | .ldh d a o => Sys2Proof.Machine.execLdh d a o s
  | .ldw d a o => Sys2Proof.Machine.execLdw d a o s
  | .ldd d a o => Sys2Proof.Machine.execLdd d a o s
  | .ldbn d a o => Sys2Proof.Machine.execLdbn d a o s
  | .ldhn d a o => Sys2Proof.Machine.execLdhn d a o s
  | .ldwn d a o => Sys2Proof.Machine.execLdwn d a o s
  | .lds d a o => Sys2Proof.Machine.execLds d a o s
  | .stb d a o => Sys2Proof.Machine.execStb d a o s
  | .sth d a o => Sys2Proof.Machine.execSth d a o s
  | .stw d a o => Sys2Proof.Machine.execStw d a o s
  | .std d a o => Sys2Proof.Machine.execStd d a o s
  | .sts d a o => Sys2Proof.Machine.execSts d a o s
  | .ldaq d a c dbl => Sys2Proof.Machine.execLdaq d a c dbl s
  | .strl a b c dbl => Sys2Proof.Machine.execStrl a b c dbl s
  | .fence k c => Sys2Proof.Machine.execFence k c s
  | .aadd d a b c o dbl => Sys2Proof.Machine.execAadd d a b c o dbl s
  | .amin d a b c o dbl => Sys2Proof.Machine.execAmin d a b c o dbl s
  | .amax d a b c o dbl => Sys2Proof.Machine.execAmax d a b c o dbl s
  | .aminn d a b c o dbl => Sys2Proof.Machine.execAminn d a b c o dbl s
  | .amaxn d a b c o dbl => Sys2Proof.Machine.execAmaxn d a b c o dbl s
  | .aand d a b c o dbl => Sys2Proof.Machine.execAand d a b c o dbl s
  | .aor d a b c o dbl => Sys2Proof.Machine.execAor d a b c o dbl s
  | .axor d a b c o dbl => Sys2Proof.Machine.execAxor d a b c o dbl s
  | .axchg d a b c o dbl => Sys2Proof.Machine.execAxchg d a b c o dbl s
  | .acas d a b c o dbl => Sys2Proof.Machine.execAcas d a b c o dbl s
  | .afadd d a b c o => Sys2Proof.Machine.execAfadd d a b c o s
  | .ldfe d a c => Sys2Proof.Machine.execLdfe d a c s
  | .stfe a b c => Sys2Proof.Machine.execStfe a b c s
  | .fepeek d a c => Sys2Proof.Machine.execFepeek d a c s
  | .fadd d a b r w => Sys2Proof.Machine.execFadd d a b r w s
  | .fsub d a b r w => Sys2Proof.Machine.execFsub d a b r w s
  | .fmul d a b r w => Sys2Proof.Machine.execFmul d a b r w s
  | .ffma d a b r w => Sys2Proof.Machine.execFfma d a b r w s
  | .fmin d a b w => Sys2Proof.Machine.execFmin d a b w s
  | .fmax d a b w => Sys2Proof.Machine.execFmax d a b w s
  | .fcmp d a b c w => Sys2Proof.Machine.execFcmp d a b c w s
  | .fcvt d a k r w => Sys2Proof.Machine.execFcvt d a k r w s
  | .fsqrt d a r w => Sys2Proof.Machine.execFsqrt d a r w s
  | .frcp d a r w => Sys2Proof.Machine.execFrcp d a r w s
  | .ctlrd d n => Sys2Proof.Machine.execCtlrd d n s
  | .ctlwr a n => Sys2Proof.Machine.execCtlwr a n s
  | .ctlset a n => Sys2Proof.Machine.execCtlset a n s
  | .ctlclr a n => Sys2Proof.Machine.execCtlclr a n s
  | .snop => Sys2Proof.Machine.execSnop s
  | .trap c => Sys2Proof.Machine.execTrap c s
  | .waitev x => Sys2Proof.Machine.execWaitev x s
  | .yield => Sys2Proof.Machine.execYield s
  | .kret => Sys2Proof.Machine.execKret s
  | .brk => Sys2Proof.Machine.execBrk s
  | .halt => Sys2Proof.Machine.execHalt s
  | .dual => Sys2Proof.Machine.execDual s
  | .scopy x y z gate => Sys2Proof.Machine.execScopy x y z gate s
  | .sfeed x y z gate => Sys2Proof.Machine.execSfeed x y z gate s
  | .sdrain x y z gate => Sys2Proof.Machine.execSdrain x y z gate s
  | .sgath x y z gate => Sys2Proof.Machine.execSgath x y z gate s
  | .sscat x y z gate => Sys2Proof.Machine.execSscat x y z gate s
  | .swait st => Sys2Proof.Machine.execSwait st s
  | .scancel st => Sys2Proof.Machine.execScancel st s
  | .sunseal x y z gate => Sys2Proof.Machine.execSunseal x y z gate s
  | .stfill x y z gate => Sys2Proof.Machine.execStfill x y z gate s
  | .mma t bsel asel z gate => Sys2Proof.Machine.execMma t bsel asel z gate s
  | .mmag t bsel asel z gate => Sys2Proof.Machine.execMmag t bsel asel z gate s
  | .aclr t gate => Sys2Proof.Machine.execAclr t gate s
  | .ascale t y gate => Sys2Proof.Machine.execAscale t y gate s
  | .atob t y gate => Sys2Proof.Machine.execAtob t y gate s
  | .acpy t u gate => Sys2Proof.Machine.execAcpy t u gate s
  | .mwait => Sys2Proof.Machine.execMwait s
  | .bdrop q y gate => Sys2Proof.Machine.execBdrop q y gate s
  | .binit b y z => Sys2Proof.Machine.execBinit b y z s
  | .barrive b gate => Sys2Proof.Machine.execBarrive b gate s
  | .bexpect b y gate => Sys2Proof.Machine.execBexpect b y gate s
  | .bwaitb b => Sys2Proof.Machine.execBwaitb b s
  | .btest x b => Sys2Proof.Machine.execBtest x b s
  | .evsetTerm g y z => Sys2Proof.Machine.execEvsetTerm g y z s
  | .evsetCounter c y => Sys2Proof.Machine.execEvsetCounter c y s
  | .evsetTimer y => Sys2Proof.Machine.execEvsetTimer y s
  | .evclr x => Sys2Proof.Machine.execEvclr x s
  | .evfire e gate => Sys2Proof.Machine.execEvfire e gate s
  | .evread x => Sys2Proof.Machine.execEvread x s
  | .brun x y z gate => Sys2Proof.Machine.execBrun x y z gate s
  | .bwait x => Sys2Proof.Machine.execBwait x s
  | .bcfg x y => Sys2Proof.Machine.execBcfg x y s
  | .bstat x y => Sys2Proof.Machine.execBstat x y s
  | .bkill => Sys2Proof.Machine.execBkill s
  | .kvalloc x gate => Sys2Proof.Machine.execKvalloc x gate s
  | .kvapp x gate => Sys2Proof.Machine.execKvapp x gate s
  | .kvfork x gate => Sys2Proof.Machine.execKvfork x gate s
  | .kvrel x gate => Sys2Proof.Machine.execKvrel x gate s
  | .kvlook x gate => Sys2Proof.Machine.execKvlook x gate s
  | .kvdraft x gate => Sys2Proof.Machine.execKvdraft x gate s
  | .kvswap x gate => Sys2Proof.Machine.execKvswap x gate s
  | .kvpfx x gate => Sys2Proof.Machine.execKvpfx x gate s
  | .kvdrop x gate => Sys2Proof.Machine.execKvdrop x gate s
  | .sopen x y z gate => Sys2Proof.Machine.execSopen x y z gate s
  | .sseal x y z gate => Sys2Proof.Machine.execSseal x y z gate s
  | .smeter => Sys2Proof.Machine.execSmeter s
  | .sepoch x => Sys2Proof.Machine.execSepoch x s
  | .car x gate => Sys2Proof.Machine.execCar x gate s
  | .cbc x gate => Sys2Proof.Machine.execCbc x gate s
  | .cag x gate => Sys2Proof.Machine.execCag x gate s
  | .cwait x => Sys2Proof.Machine.execCwait x s
  | .bkop x y z gate => Sys2Proof.Machine.execBkop x y z gate s
  | .bkred x y z gate => Sys2Proof.Machine.execBkred x y z gate s
  | .wpin x y => Sys2Proof.Machine.execWpin x y s
  | .wunpin x => Sys2Proof.Machine.execWunpin x s
  | .wgen x y => Sys2Proof.Machine.execWgen x y s
  | .elemMov r => Sys2Proof.Machine.execElemMov r s
  | .elemConst r => Sys2Proof.Machine.execElemConst r s
  | .elemTid r => Sys2Proof.Machine.execElemTid r s
  | .elemAdd r => Sys2Proof.Machine.execElemAdd r s
  | .elemSub r => Sys2Proof.Machine.execElemSub r s
  | .elemMul r => Sys2Proof.Machine.execElemMul r s
  | .elemMulhi r => Sys2Proof.Machine.execElemMulhi r s
  | .elemMad r => Sys2Proof.Machine.execElemMad r s
  | .elemMin r => Sys2Proof.Machine.execElemMin r s
  | .elemMax r => Sys2Proof.Machine.execElemMax r s
  | .elemAbs r => Sys2Proof.Machine.execElemAbs r s
  | .elemNeg r => Sys2Proof.Machine.execElemNeg r s
  | .elemAnd r => Sys2Proof.Machine.execElemAnd r s
  | .elemOr r => Sys2Proof.Machine.execElemOr r s
  | .elemXor r => Sys2Proof.Machine.execElemXor r s
  | .elemShl r => Sys2Proof.Machine.execElemShl r s
  | .elemShr r => Sys2Proof.Machine.execElemShr r s
  | .elemSha r => Sys2Proof.Machine.execElemSha r s
  | .elemClz r => Sys2Proof.Machine.execElemClz r s
  | .elemPopc r => Sys2Proof.Machine.execElemPopc r s
  | .elemBfx r => Sys2Proof.Machine.execElemBfx r s
  | .elemCmp r => Sys2Proof.Machine.execElemCmp r s
  | .elemSel r => Sys2Proof.Machine.execElemSel r s
  | .elemFadd r => Sys2Proof.Machine.execElemFadd r s
  | .elemFsub r => Sys2Proof.Machine.execElemFsub r s
  | .elemFmul r => Sys2Proof.Machine.execElemFmul r s
  | .elemFma r => Sys2Proof.Machine.execElemFma r s
  | .elemFmin r => Sys2Proof.Machine.execElemFmin r s
  | .elemFmax r => Sys2Proof.Machine.execElemFmax r s
  | .elemFabs r => Sys2Proof.Machine.execElemFabs r s
  | .elemFneg r => Sys2Proof.Machine.execElemFneg r s
  | .elemFcmp r => Sys2Proof.Machine.execElemFcmp r s
  | .elemRcp r => Sys2Proof.Machine.execElemRcp r s
  | .elemSqrt r => Sys2Proof.Machine.execElemSqrt r s
  | .elemRsq r => Sys2Proof.Machine.execElemRsq r s
  | .elemExp2 r => Sys2Proof.Machine.execElemExp2 r s
  | .elemLog2 r => Sys2Proof.Machine.execElemLog2 r s
  | .elemTanh r => Sys2Proof.Machine.execElemTanh r s
  | .elemSin r => Sys2Proof.Machine.execElemSin r s
  | .elemCos r => Sys2Proof.Machine.execElemCos r s
  | .elemCvt r => Sys2Proof.Machine.execElemCvt r s
  | .elemPack r => Sys2Proof.Machine.execElemPack r s
  | .elemUnpk r => Sys2Proof.Machine.execElemUnpk r s
  | .elemQnt r => Sys2Proof.Machine.execElemQnt r s
  | .elemDqnt r => Sys2Proof.Machine.execElemDqnt r s
  | .elemRsum r => Sys2Proof.Machine.execElemRsum r s
  | .elemRmax r => Sys2Proof.Machine.execElemRmax r s
  | .elemRmin r => Sys2Proof.Machine.execElemRmin r s
  | .elemRcnt r => Sys2Proof.Machine.execElemRcnt r s
  | .elemLvl r => Sys2Proof.Machine.execElemLvl r s
  | .elemLin r => Sys2Proof.Machine.execElemLin r s
  | .elemLout r => Sys2Proof.Machine.execElemLout r s
  | .elemLd r => Sys2Proof.Machine.execElemLd r s
  | .elemLdaq r => Sys2Proof.Machine.execElemLdaq r s
  | .elemLdfe r => Sys2Proof.Machine.execElemLdfe r s
  | .elemSt r => Sys2Proof.Machine.execElemSt r s
  | .elemStrl r => Sys2Proof.Machine.execElemStrl r s
  | .elemStfe r => Sys2Proof.Machine.execElemStfe r s
  | .elemAtm r => Sys2Proof.Machine.execElemAtm r s
  | .elemLds r => Sys2Proof.Machine.execElemLds r s
  | .elemSts r => Sys2Proof.Machine.execElemSts r s
  | .elemPft r => Sys2Proof.Machine.execElemPft r s
  | .elemAcrd r => Sys2Proof.Machine.execElemAcrd r s
  | .elemAcwr r => Sys2Proof.Machine.execElemAcwr r s
  | .elemAfpush r => Sys2Proof.Machine.execElemAfpush r s
  | .elemStin r => Sys2Proof.Machine.execElemStin r s
  | .elemStout r => Sys2Proof.Machine.execElemStout r s
  | .elemBkadd r => Sys2Proof.Machine.execElemBkadd r s
  | .elemNext r => Sys2Proof.Machine.execElemNext r s
  | .elemPark r => Sys2Proof.Machine.execElemPark r s
  | .elemBarv r => Sys2Proof.Machine.execElemBarv r s
  | .elemTrapx r => Sys2Proof.Machine.execElemTrapx r s
  | .illegalInstructionWord w => Sys2Proof.Machine.execIllegalInstructionWord w s
  | .blockChoice cell => Sys2Proof.Machine.execBlockChoice cell s
  | .passEnd cell => Sys2Proof.Machine.execPassEnd cell s
  | .asyncReportDelivery cell => Sys2Proof.Machine.execAsyncReportDelivery cell s
  | .streamRequestIssue cell st => Sys2Proof.Machine.execStreamRequestIssue cell st s
  | .streamElementLand cell st => Sys2Proof.Machine.execStreamElementLand cell st s
  | .fifoRefetch cell fifo => Sys2Proof.Machine.execFifoRefetch cell fifo s
  | .arbourBLoad cell fifo => Sys2Proof.Machine.execArbourBLoad cell fifo s
  | .arbourRowConsume cell => Sys2Proof.Machine.execArbourRowConsume cell s
  | .arbourOpComplete cell => Sys2Proof.Machine.execArbourOpComplete cell s
  | .gateTermFire cell term => Sys2Proof.Machine.execGateTermFire cell term s
  | .eventTimer cell => Sys2Proof.Machine.execEventTimer cell s
  | .bankOperation cell => Sys2Proof.Machine.execBankOperation cell s
  | .collectiveComplete cell parts => Sys2Proof.Machine.execCollectiveComplete cell parts s
  | .mapCommandExecute world => Sys2Proof.Machine.execMapCommandExecute world s
  | .breakpointHit cell bp => Sys2Proof.Machine.execBreakpointHit cell bp s
  | .elemRoute => Sys2Proof.Machine.execElemRoute s
  | .coldReset => Sys2Proof.Machine.execColdReset s
  | .moduleReset => Sys2Proof.Machine.execModuleReset s
  | .bootStageComplete failed => Sys2Proof.Machine.execBootStageComplete failed s
  | .powerSample avgW => Sys2Proof.Machine.execPowerSample avgW s
  | .clockRaiseStep avgW => Sys2Proof.Machine.execClockRaiseStep avgW s
  | .thermalThrottle => Sys2Proof.Machine.execThermalThrottle s
  | .thermalThrottleRelease => Sys2Proof.Machine.execThermalThrottleRelease s
  | .thermalStop => Sys2Proof.Machine.execThermalStop s
  | .qtailWrite fn q v => Sys2Proof.Machine.execQtailWrite fn q v s
  | .qstatCheadWrite fn q v => Sys2Proof.Machine.execQstatCheadWrite fn q v s
  | .qctlEnable fn q v => Sys2Proof.Machine.execQctlEnable fn q v s
  | .qctlDisable fn q v => Sys2Proof.Machine.execQctlDisable fn q v s
  | .qevdbWrite fn v => Sys2Proof.Machine.execQevdbWrite fn v s
  | .pauseAck fn => Sys2Proof.Machine.execPauseAck fn s
  | .fqctlWrite v => Sys2Proof.Machine.execFqctlWrite v s
  | .fqheadWrite v => Sys2Proof.Machine.execFqheadWrite v s
  | .registerWrite fn place v => Sys2Proof.Machine.execRegisterWrite fn place v s
  | .hostRequest fn req => Sys2Proof.Machine.execHostRequest fn req s
  | .ideCheckFailure fn => Sys2Proof.Machine.execIdeCheckFailure fn s
  | .ideKmKeyProg fn key => Sys2Proof.Machine.execIdeKmKeyProg fn key s
  | .ideKmKSetGo fn => Sys2Proof.Machine.execIdeKmKSetGo fn s
  | .lockInterface fn => Sys2Proof.Machine.execLockInterface fn s
  | .getDeviceInterfaceReport fn => Sys2Proof.Machine.execGetDeviceInterfaceReport fn s
  | .startInterface fn => Sys2Proof.Machine.execStartInterface fn s
  | .stopInterface fn => Sys2Proof.Machine.execStopInterface fn s
  | .functionLevelReset fn => Sys2Proof.Machine.execFunctionLevelReset fn s
  | .getVersion port => Sys2Proof.Machine.execGetVersion port s
  | .getCapabilities port => Sys2Proof.Machine.execGetCapabilities port s
  | .negotiateAlgorithms port offer => Sys2Proof.Machine.execNegotiateAlgorithms port offer s
  | .getDigests port => Sys2Proof.Machine.execGetDigests port s
  | .getCertificate port slot => Sys2Proof.Machine.execGetCertificate port slot s
  | .challenge port nonce => Sys2Proof.Machine.execChallenge port nonce s
  | .getMeasurements port index nonce => Sys2Proof.Machine.execGetMeasurements port index nonce s
  | .keyExchange port peer => Sys2Proof.Machine.execKeyExchange port peer s
  | .finishSession port => Sys2Proof.Machine.execFinishSession port s
  | .keyUpdate port => Sys2Proof.Machine.execKeyUpdate port s
  | .endSession port => Sys2Proof.Machine.execEndSession port s
  | .pqsig port => Sys2Proof.Machine.execPqsig port s
  | .pqchain port => Sys2Proof.Machine.execPqchain port s
  | .getmeter port part => Sys2Proof.Machine.execGetmeter port part s
  | .getepoch port world => Sys2Proof.Machine.execGetepoch port world s
  | .getrevoke port => Sys2Proof.Machine.execGetrevoke port s
  | .linkKeyUpdateDue port => Sys2Proof.Machine.execLinkKeyUpdateDue port s
  | .flitReceive port flit => Sys2Proof.Machine.execFlitReceive port flit s
  | .podMemberList members routes => Sys2Proof.Machine.execPodMemberList members routes s
  | .preparePod origin fn mask gen digest parts => Sys2Proof.Machine.execPreparePod origin fn mask gen digest parts s
  | .readyPod target => Sys2Proof.Machine.execReadyPod target s
  | .refusePod target status => Sys2Proof.Machine.execRefusePod target status s
  | .startPod origin fn gen t node args => Sys2Proof.Machine.execStartPod origin fn gen t node args s
  | .abortPod origin fn gen => Sys2Proof.Machine.execAbortPod origin fn gen s
  | .donePod target gen status cause => Sys2Proof.Machine.execDonePod target gen status cause s
  | .podPrepareTimeout => Sys2Proof.Machine.execPodPrepareTimeout s
  | .podReservationLapse fn gen => Sys2Proof.Machine.execPodReservationLapse fn gen s
  | .podStartTime => Sys2Proof.Machine.execPodStartTime s
  | .podTargetSessionEnd target => Sys2Proof.Machine.execPodTargetSessionEnd target s
  | .remoteAccessTimeout cell => Sys2Proof.Machine.execRemoteAccessTimeout cell s
  | .cxlPoisonRead part ctx => Sys2Proof.Machine.execCxlPoisonRead part ctx s
  | .cxlPortDown port victims => Sys2Proof.Machine.execCxlPortDown port victims s
  | .graphFetch fn q => Sys2Proof.Machine.execGraphFetch fn q s
  | .nodeComplete fn q node => Sys2Proof.Machine.execNodeComplete fn q node s
  | .escalationTimeout fn q => Sys2Proof.Machine.execEscalationTimeout fn q s
  | .launch fn q node => Sys2Proof.Machine.execLaunch fn q node s
  | .podLaunch fn q node => Sys2Proof.Machine.execPodLaunch fn q node s
  | .cellStart launch cell => Sys2Proof.Machine.execCellStart launch cell s
  | .copyNode fn q node => Sys2Proof.Machine.execCopyNode fn q node s
  | .kvmap fn q node => Sys2Proof.Machine.execKvmap fn q node s
  | .mapcreate fn q node => Sys2Proof.Machine.execMapcreate fn q node s
  | .mapdestroy fn q node => Sys2Proof.Machine.execMapdestroy fn q node s
  | .meterNode fn q node => Sys2Proof.Machine.execMeterNode fn q node s
  | .createWorld fn q node => Sys2Proof.Machine.execCreateWorld fn q node s
  | .bindContext fn q node => Sys2Proof.Machine.execBindContext fn q node s
  | .unbindContext fn q node => Sys2Proof.Machine.execUnbindContext fn q node s
  | .loadSeal fn q node => Sys2Proof.Machine.execLoadSeal fn q node s
  | .destroyWorld fn q node => Sys2Proof.Machine.execDestroyWorld fn q node s
  | .openSession fn q node => Sys2Proof.Machine.execOpenSession fn q node s
  | .closeSession fn q node => Sys2Proof.Machine.execCloseSession fn q node s
  | .rekey fn q node => Sys2Proof.Machine.execRekey fn q node s
  | .pkgload fn q node => Sys2Proof.Machine.execPkgload fn q node s
  | .signalNode fn q node => Sys2Proof.Machine.execSignalNode fn q node s
  | .waitNode fn q node => Sys2Proof.Machine.execWaitNode fn q node s
  | .waitTimeout fn q node => Sys2Proof.Machine.execWaitTimeout fn q node s
  | .createPartition fn q node => Sys2Proof.Machine.execCreatePartition fn q node s
  | .destroyPartition fn q node => Sys2Proof.Machine.execDestroyPartition fn q node s
  | .setEscalationTime fn q node => Sys2Proof.Machine.execSetEscalationTime fn q node s
  | .setQuantum fn q node => Sys2Proof.Machine.execSetQuantum fn q node s
  | .setQuiesceDeadline fn q node => Sys2Proof.Machine.execSetQuiesceDeadline fn q node s
  | .setScopePolicy fn q node => Sys2Proof.Machine.execSetScopePolicy fn q node s
  | .fwStage fn q node => Sys2Proof.Machine.execFwStage fn q node s
  | .fwActivate fn q node => Sys2Proof.Machine.execFwActivate fn q node s
  | .quiesce => Sys2Proof.Machine.execQuiesce s
  | .fwActivationResult ok => Sys2Proof.Machine.execFwActivationResult ok s
  | .mapPage fn => Sys2Proof.Machine.execMapPage fn s
  | .unmapPage fn => Sys2Proof.Machine.execUnmapPage fn s
  | .protect fn => Sys2Proof.Machine.execProtect fn s
  | .evict fn => Sys2Proof.Machine.execEvict fn s
  | .returnPage fn => Sys2Proof.Machine.execReturnPage fn s
  | .clearfe fn => Sys2Proof.Machine.execClearfe fn s
  | .pair fn => Sys2Proof.Machine.execPair fn s
  | .nomap fn => Sys2Proof.Machine.execNomap fn s
  | .stageMem fn => Sys2Proof.Machine.execStageMem fn s
  | .powerLimit fn => Sys2Proof.Machine.execPowerLimit fn s
  | .bvread fn => Sys2Proof.Machine.execBvread fn s
  | .tracecfg fn => Sys2Proof.Machine.execTracecfg fn s
  | .attach fn => Sys2Proof.Machine.execAttach fn s
  | .detach fn => Sys2Proof.Machine.execDetach fn s
  | .setbp fn => Sys2Proof.Machine.execSetbp fn s
  | .clrbp fn => Sys2Proof.Machine.execClrbp fn s
  | .debugStop fn => Sys2Proof.Machine.execDebugStop fn s
  | .debugResume fn => Sys2Proof.Machine.execDebugResume fn s
  | .debugRead fn => Sys2Proof.Machine.execDebugRead fn s
  | .debugWrite fn => Sys2Proof.Machine.execDebugWrite fn s
  | .worldend fn => Sys2Proof.Machine.execWorldend fn s
  | .faultRecordPost k => Sys2Proof.Machine.execFaultRecordPost k s
  | .quantumExpiry part => Sys2Proof.Machine.execQuantumExpiry part s
  | .preemptRequest part reason => Sys2Proof.Machine.execPreemptRequest part reason s
  | .cellSaveComplete cell => Sys2Proof.Machine.execCellSaveComplete cell s
  | .watchdogExpiry launch => Sys2Proof.Machine.execWatchdogExpiry launch s
  | .partitionScrubComplete part => Sys2Proof.Machine.execPartitionScrubComplete part s
  | .sealingTimeout world => Sys2Proof.Machine.execSealingTimeout world s
  | .worldScrubComplete world => Sys2Proof.Machine.execWorldScrubComplete world s
  | .epochEnd world => Sys2Proof.Machine.execEpochEnd world s
  | .sweepComplete world slice => Sys2Proof.Machine.execSweepComplete world slice s
  | .certifiedReplyRelease world session => Sys2Proof.Machine.execCertifiedReplyRelease world session s
  | .meterIntervalExpiry world => Sys2Proof.Machine.execMeterIntervalExpiry world s
  | .uncorrectableError site => Sys2Proof.Machine.execUncorrectableError site s
  | .dirtyLineError pa => Sys2Proof.Machine.execDirtyLineError pa s
  | .cleanLineError pa => Sys2Proof.Machine.execCleanLineError pa s
  | .tokenParityError cell site dir => Sys2Proof.Machine.execTokenParityError cell site dir s
  | .arbourResidueError cell => Sys2Proof.Machine.execArbourResidueError cell s
  | .mbdoorWrite fn v => Sys2Proof.Machine.execMbdoorWrite fn v s
  | .vfEnable => Sys2Proof.Machine.execVfEnable s
  | .writeBufferPerform cell => Sys2Proof.Machine.execWriteBufferPerform cell s
  | .unitReloadComplete unit => Sys2Proof.Machine.execUnitReloadComplete unit s
  | .portRetrainComplete port => Sys2Proof.Machine.execPortRetrainComplete port s

end Sys2Proof.Machine
end

