-- ==== Sys2Proof/Machine/Fetch.lean ====
section
/-! DEFINITION. What one turn of the schedule does: a sequencer's boundary and fetch (R266, R303, R324), the firing of an
element under its configured record (R219), an event, the passing of time (R14, R79, R92, R259) and the loss of a cached line
(R138, R178). -/

namespace Sys2Proof.Machine

/-! ### The sequencer (R266, R303, R324) -/

/-- The instruction of a code word; a word that fails decoding is the illegal word itself (R303). -/
def instrOf (w : W32) : Instr :=
  match decode w with
  | .ok i => i
  | .error _ => .illegalInstructionWord w

/-- The instruction at the pc; none outside the code segment. -/
def Cell.fetch (c : Cell) : Option Instr :=
  if c.inCode c.seq.pc then some (instrOf (c.codeWord c.seq.pc)) else none

/-- A report is delivered before the next instruction, but none while the handler runs (R266, R267). -/
def Cell.reportDue (c : Cell) : Bool := !c.seq.reports.isEmpty && !c.seq.handlerActive

/-- One turn of the sequencer in focus: a report that is due, else the instruction at the pc; a pc outside the code segment is
PERM (R324). -/
def State.runSeq (s : State) : Host.Outcome State Fault Refusal :=
  let n := s.focus.cell
  let c := s.cell n
  if c.run ≠ .running then .next s
  else if c.reportDue then exec (.asyncReportDelivery n) s
  else match c.fetch with
    | some i => exec i s
    | none => .next (s.takeTrap n .perm c.seq.pc 0)

/-! ### The fabric (R219) -/

/-- The operation that the site in focus runs now. -/
def Cell.siteInstr (c : Cell) (site : Nat) : Option Instr :=
  match (c.fabric.passAt site).bind fun p => p.rec? site with
  | none => none
  | some x => match decodeElem (encRec x.op x.r) with
    | .ok i => some i
    | .error _ => none

/-- One turn of the element or edge node in focus. -/
def State.runSite (s : State) : Host.Outcome State Fault Refusal :=
  match s.cur.siteInstr s.focus.site with
  | none => .next s
  | some i => exec i s

/-! ### Time (R14, R72, R79, R92, R259) -/

/-- A cell's counts after some cycles and nanoseconds. -/
def Cell.tick (c : Cell) (cycles ns : Nat) : Cell :=
  if c.run = .idle then c
  else
    let c := c.withSeq fun q => { q with kcycle := q.kcycle + BitVec.ofNat 64 cycles }
    if c.enginesRun then { c with timer := c.timer.map fun t => (t.1, t.2 + ns) } else c

/-- A launch that holds its partitions: the time since its dispatch, the watchdog's time while no stop freezes it, and the
occupied cycles. -/
def Launch.tick (l : Launch) (stopped : Bool) (cycles ns : Nat) : Launch :=
  match l.st with
  | .running | .starting => { l with
      held := l.held + ns, used := if stopped then l.used else l.used + ns
      cycles := if l.started.isEmpty then l.cycles else l.cycles + cycles }
  | _ => l

/-- Time passes: the timebase counts from the end of boot stage 2. -/
def State.elapse (s : State) (ns : Nat) : State :=
  let t := if 3 ≤ s.boot.stage then s.timebase + ns else s.timebase
  let cycles := t * s.clock.mhz / 1000 - s.timebase * s.clock.mhz / 1000
  { s with
    timebase := t
    cells := s.cells.map fun e => (e.1, e.2.tick cycles ns)
    launches := s.launches.map fun l =>
      (l.1, l.2.tick (l.2.parts.any fun p => (s.part p).stop.isSome) cycles ns) }

/-! ### The schedule -/

/-- Instructions that a cell fetches or an element is configured with: these run through their cell alone. -/
def fetchedKind (i : Instr) : Bool :=
  (encode i).isSome || i.elemFields.isSome || match i with
    | .elemRoute => true
    | .illegalInstructionWord _ => true
    | _ => false

/-- Carry out one item of the schedule. -/
def State.runMove (s : State) (m : Move) : Host.Outcome State Fault Refusal :=
  match m with
  | .seq n => ({ s with focus := { cell := n, site := 0, out := 0 } } : State).runSeq
  | .fire n site => ({ s with focus := { cell := n, site := site, out := 0 } } : State).runSite
  | .route n site out => exec .elemRoute { s with focus := { cell := n, site := site, out := out } }
  | .event i => if fetchedKind i then .next s else exec i s
  | .elapse ns => .next (s.elapse ns)
  | .evictL1 n line => .next (s.onCell n fun c => { c with l1 := Map.erase c.l1 line })
  | .evictLine line => .next (s.evictLine line)
  | .remoteWrite pa data => .next (if paModule pa = s.pod.self then s else s.store pa data)
  | .flitTaken port => .next (s.onLink port fun l => { l with replay := l.replay.drop 1 })
  | .corrected hbm => .next (s.hyperAdd (if hbm then 1 else 0) 1)
  | .flitRetry port => match (s.link port).replay with
    | f :: _ => .next (if s.linkOpen port then s.emit (.flit port (s.link port).txKey f) else s)
    | [] => .next s

/-- With nothing scheduled, the sequencer in focus goes on, else the boot sequence, else nothing happens. -/
def State.runFree (s : State) : Host.Outcome State Fault Refusal :=
  if s.cur.run = .running then s.runSeq
  else if s.boot.stage < 8 ∧ s.boot.fail = false then execBootStageComplete none s
  else .next s

/-! ### Placing one instruction where the next step takes it -/

/-- A cell that runs, with one word of code at its pc. -/
def Cell.holding (c : Cell) (w : W32) : Cell :=
  { c with run := .running, code := [w], seq := { c.seq with pc := codeBase, reports := [] } }

/-- An image with one record, at site 0. -/
def oneSite (r : BitVec 64) : Image where
  ident := 0
  block := 0
  livein := 0
  liveout := 0
  succ := []
  gate := false
  stores := false
  atomics := false
  bytes := 0
  sites := [(0, { op := recOpcode r, r := recOf r, c0 := 0, c1 := 0 })]
  loops := []

/-- A cell whose fabric runs one pass of that image. -/
def Cell.holdingRecord (c : Cell) (r : BitVec 64) : Cell :=
  { c with
    run := .running, phase := { c.phase with st := .running }
    fabric := { c.fabric with
      era := []
      passes := [{ id := 0, image := oneSite r, threads := [0], issued := [], gone := [], done := [], ended := false, start := 0 }] } }

/-- The instruction of these bits, stored where the next step takes it: a sequencer word as the code of the cell in focus, an
element record as what site 0 of that cell runs. -/
def State.place (s : State) (nbits w : Nat) : State :=
  let n := s.focus.cell
  if nbits = 64 then
    let r := BitVec.ofNat 64 w
    { s.onCell n (fun c => c.holdingRecord r) with
      agenda := [if recOpcode r = 0 then .route n 0 0 else .fire n 0] }
  else { s.onCell n (fun c => c.holding (BitVec.ofNat 32 w)) with agenda := [] }

end Sys2Proof.Machine
end

