-- ==== Sys2Proof/Machine/Tables.lean ====
section
/-! DEFINITION. What the memories outside the die and the on-die network hold, as views of the state: page-table entries and the
walk through them (R129, R130), the ciphertext of lines in HBM and the second tier (R124, R146), and that of network flits (R147).
The machine translates by the leaves that the tables hold and computes on the plaintext that the ciphertext stands for. -/

namespace Sys2Proof.Machine

/-! ### Page tables (R129, R130) -/

/-- A leaf entry. While EV = 1 its PPN bits hold the eviction version. -/
def Leaf.word (l : Leaf) : Word :=
  let low := (if l.g then 32 else 0) + 8 * l.cls.code + (if l.w then 4 else 0) + 2
  BitVec.ofNat 64 (match l.evicted with
    | some n => n * 2 ^ 14 + 128 + low
    | none => l.pa / 2 ^ 14 * 2 ^ 14 + low + 1)

/-- The place of a virtual address in a table of a level. -/
def tableIndex (level va : Nat) : Nat := va / 2 ^ (14 + 11 * level) % 2048

/-- An entry that names the next table of a world's walk to an address. -/
def tableWord (w level va : Nat) : Word :=
  BitVec.ofNat 64 (Config.tablePage w (level - 1) (va / 2 ^ (14 + 11 * level)) % 2 ^ 38 * 2 ^ 14 + 1)

/-- The entry of a level on the walk of world number w to an address: a leaf, the next table where some leaf lies under it, or
zero. -/
def World.entry (v : World) (w level va : Nat) : Word :=
  let span := 2 ^ (14 + 11 * level)
  match v.leaves.find? fun e => e.2.level == level && e.1 / span == va / span with
  | some e => e.2.word
  | none => if v.leaves.any fun e => decide (e.2.level < level) && e.1 / span == va / span then tableWord w level va else 0

/-- The walk from the root, level 3: the leaf entry that it finds. -/
def World.walk (v : World) (w va : Nat) : Nat → Option Word
  | 0 => none
  | level + 1 =>
    let e := v.entry w level va
    if !e.getLsbD 0 then none else if e.getLsbD 1 then some e else v.walk w va level

/-! ### Lines outside the die (R124, R146) -/

/-- The tweak of a line: pa[51:6] joined with the 32-bit version of its page. -/
def State.tweak (s : State) (line : Nat) : Nat := line * 2 ^ 32 + ((s.ownerOf (64 * line)).elim 0 fun o => o.version.toNat)

/-- What HBM or the second tier holds of a line that is not resident in the Commons: the ciphertext of a world's line, or the
plaintext of staging memory. -/
def State.storedLine (s : State) (line : Nat) : Option (List Byte) :=
  if (Map.get? s.lines line).isSome then none
  else some (match (s.protectedWorld line).bind s.world? with
    | some v => tabulate 64 (Config.xtsByte v.memoryKey (s.tweak line) (s.lineBytes line))
    | none => s.lineBytes line)

/-! ### Network flits (R147) -/

/-- The key of the ha-ha cipher: the world's, or the module's for traffic of its own units. -/
def State.hahaKey (s : State) (w : Option Nat) : Nat :=
  match w.bind s.world? with
  | some v => (v.keys.map (·.haha)).getD 0
  | none => (s.lodge.keys.map (·.haha)).getD 0

/-- The next flit of a flow on the network, as ciphertext: AES-256 in counter mode over the flow and its counter. -/
def State.networkFlit (s : State) (w : Option Nat) (src dst : Nat) (plain : List Byte) : List Byte :=
  plain.mapIdx fun i b => b ^^^ Config.ctrStream (s.hahaKey w) (flowOf src dst) (Map.get 0 s.flows (flowOf src dst)) i

end Sys2Proof.Machine
end

