-- ==== Sys2Proof/Safety.lean ====
section
/-! DEFINITION. The terms that statements use: how an instruction completes, what of the state it leaves alone, and the
invariants that every step keeps. -/

namespace Sys2Proof.Machine

/-! ### Completion -/

/-- The instruction answers a next state, of which P holds. -/
def Completes (i : Instr) (s : State) (P : State → Prop) : Prop := ∃ t, exec i s = .next t ∧ P t

/-! ### Frames -/

/-- Every byte of module memory and of host memory reads as before. -/
def SameMemory (s t : State) : Prop :=
  (∀ a, readMem t.mem a = readMem s.mem a) ∧ ∀ a, readMem t.hostMem a = readMem s.hostMem a

/-- Of the whole module only the cell in focus differs. -/
structure OnlyCur (s t : State) : Prop where
  rest   : t = s.setCur t.cur
  memory : SameMemory s t

/-- Of a cell only its sequencer differs: scratch, tiles, FIFOs, streams, barriers, events and every engine as before. -/
def OnlySeq (c c' : Cell) : Prop := c' = { c with seq := c'.seq }

/-- Of a sequencer only the registers, their shadows and the pc differ: every control register, the handler's state, the
waiting reports and the write buffer as before. -/
def OnlyRegs (q q' : Seq) : Prop := q' = { q with regs := q'.regs, shadows := q'.shadows, pc := q'.pc }

/-- Every register and every shadow reads as before. -/
def SameRegs (c c' : Cell) : Prop := (∀ r, c'.reg r = c.reg r) ∧ ∀ r k, c'.shadow r k = c.shadow r k

/-- Register d takes a value, its four shadows become zero, and every other register and shadow is as before; a write of
`s0` is discarded (R302, R325). -/
structure RegWrite (c c' : Cell) (d : Reg) (v : Word) : Prop where
  regs    : ∀ r, c'.reg r = if r = d ∧ r ≠ 0 then v else c.reg r
  shadows : ∀ r k, 1 ≤ k ∧ k ≤ 4 → c'.shadow r k = if r = d then 0 else c.shadow r k

/-- An instruction without the prefix retires with a result in register d and the pc at `next`, and changes nothing else. -/
structure Writes (s t : State) (d : Reg) (v next : Word) : Prop where
  only   : OnlyCur s t
  cell   : OnlySeq s.cur t.cur
  seq    : OnlyRegs s.cur.seq t.cur.seq
  result : RegWrite s.cur t.cur d v
  pc     : t.cur.seq.pc = next

/-- The state with the pc of the cell in focus at an address and nothing else changed. -/
def State.withPc (s : State) (a : Word) : State := s.onCur fun c => c.withSeq fun q => { q with pc := a }

/-- The address of the instruction after one of n bytes at the pc. -/
def State.nextPc (s : State) (n : Nat := 4) : Word := s.cur.seq.pc + BitVec.ofNat 64 n

/-- The state after an instruction that changes the sequencer of the cell in focus and retires. -/
def State.seqStep (s : State) (f : Seq → Seq) : State := s.onCur fun c => c.withSeq fun q => { f q with pc := q.pc + 4 }

/-- The state after an instruction that changes the cell in focus and retires. -/
def State.cellStep (s : State) (f : Cell → Cell) : State :=
  s.onCur fun c => { f c with seq := { (f c).seq with pc := c.seq.pc + 4 } }

/-- The entry of a cell to its handler: pc, cause, fault address and instruction word are saved, handler_active is set and the
pc is `kvec`; nothing else of the cell changes (R265, R266). -/
def EntersHandler (c c' : Cell) (cause : Cause) (addr : Word) (word : W32) : Prop :=
  c' = { c with seq := { c.seq with
    pc := c.seq.kvec, handlerActive := true, kfpc := c.seq.pc, kfcause := BitVec.ofNat 64 cause.code
    kfaddr := addr, kfinfo := word.setWidth 64 } }

/-- The cell in focus enters its handler, and nothing else of the module changes. -/
structure Traps (s t : State) (cause : Cause) (addr : Word) (word : W32) : Prop where
  only : OnlyCur s t
  cell : EntersHandler s.cur t.cur cause addr word

/-- A trap of the cell in focus enters its handler: one is set, and it is not active (R266). -/
abbrev State.handlerReady (s : State) : Prop := s.cur.seq.kvec ≠ 0 ∧ s.cur.seq.handlerActive = false

/-- The word of the instruction at the pc of the cell in focus. -/
def State.word (s : State) : W32 := s.cur.codeWord s.cur.seq.pc

/-! ### Memory accesses -/

/-- An access of the cell in focus passes every check of R336 and lies on this module, at a place l. -/
structure Passes (s : State) (k : Access) (size : Nat) (va : Word) (sc : Option Scope) (l : Loc) : Prop where
  checks : s.access s.focus.cell k size va sc = .ok l
  near   : paModule l.pa = s.pod.self

/-- The Commons line of an address is resident and not tagged operand-only, or the address is not one that the Commons cache,
and no line stands in a slice's buffer; touching it then neither fills a line nor checks a stamp, and moves none (R137, R138,
R148). -/
abbrev State.lineReady (s : State) (pa : Nat) : Prop :=
  ((isHbm (paLocal (64 * (pa / 64))) || isTier (paLocal (64 * (pa / 64)))) = false ∨ (Map.get? s.lines (pa / 64)).isSome = true)
  ∧ s.opdTagged pa = false ∧ ∀ e ∈ s.lines, e.2.way ≠ bufferWay

/-- The cell in focus runs and holds no buffered store. -/
structure State.quiet (s : State) : Prop where
  runs  : s.cur.run ≠ .idle
  empty : s.cur.seq.wb = []

/-- Of the module only the Commons tags, the counters and the cell in focus may differ, and of that cell only the sequencer
and its L1: what an access of the sequencer touches beside the bytes it stores. -/
structure OnlyAccess (s t : State) : Prop where
  focus  : t.focus = s.focus
  others : ∀ n, n ≠ s.focus.cell → t.cell n = s.cell n
  cell   : t.cur = { s.cur with seq := t.cur.seq, l1 := t.cur.l1 }
  worlds : t.worlds = s.worlds ∧ t.launches = s.launches ∧ t.full = s.full ∧ t.funcs = s.funcs

/-! ### Elements of the Trellis -/

/-- The site in focus fires: it runs a record with this opcode, a data token without poison is at the head of each source, and
every output that takes the result has room (R217, R218). -/
structure Fires (s : State) (op : BitVec 7) (r : ElemRec) (a : At) (ts : List (Nat × Tok)) : Prop where
  site  : s.atSite op r = some a
  view  : a.view s.cur = .data ts
  clean : anyPoison ts = false
  room  : a.mayWrite s.cur a.outs = true

/-- Each output of a site that takes its result and has a reader ends in a data token of a thread with a value and tangents. -/
def Emits (t : State) (a : At) (thread : Nat) (v : W32) (tans : List W32) : Prop :=
  ∀ d ∈ a.outs, a.p.image.users (linkOf a.site d) ≠ [] → ∃ k, (t.cur.link (linkOf a.site d)).q.getLast? = some k
    ∧ k.kind = .data ∧ k.pass = a.p.id ∧ k.thread = thread ∧ k.value = v ∧ k.tans = tans ∧ k.poison = false

/-- Each output of a site that takes its result and has a reader ends in the pass-end marker, which carries the number of the next
block (R215, R219). -/
def Closes (t : State) (a : At) (next : W32) : Prop :=
  ∀ d ∈ a.outs, a.p.image.users (linkOf a.site d) ≠ [] → ∃ k, (t.cur.link (linkOf a.site d)).q.getLast? = some k
    ∧ k.kind = .passEnd ∧ k.pass = a.p.id ∧ k.value = next

/-- The site in focus emits its result; of the module only the fabric of the cell and its breakpoint counts change (R217,
R231). -/
structure Yields (s t : State) (a : At) (thread : Nat) (v : W32) (tans : List W32) : Prop where
  token : Emits t a thread v tans
  cell  : t.cur = { s.cur with fabric := t.cur.fabric, bps := t.cur.bps }
  only  : OnlyCur s t

/-- The site in focus puts an entry at the end of the store queue and a token on its outputs (R232). -/
structure Queues (s t : State) (a : At) (thread : Nat) (k : SqKind) (v : W32) (tans : List W32) : Prop where
  entry  : t.cur.fabric.sq = s.cur.fabric.sq ++ [{ pass := a.p.id, thread := thread, ring := a.ring, kind := k, cone := a.inCone }]
  yields : Yields s t a thread v tans

/-! ### Nodes of a graph and requests of the mailbox -/

/-- Node n of a queue is dispatched with these bytes and this type, and graphs are not held (R88, R89, R94). -/
structure Dispatched (s : State) (fn q n ty : Nat) (b : List Byte) : Prop where
  node  : s.nodeOf fn q n ty = some b
  walks : s.walks = true

/-- Node n of a queue of a virtual function is ready, of this type and with these bytes, and its turn has come (R89, R91). -/
structure Ready (s : State) (fn q n ty : Nat) (b : List Byte) : Prop where
  node  : s.readyNode fn q n ty = some b
  turn  : s.nodeTurn fn q n = true
  walks : s.walks = true

/-- The node is dispatched. -/
def Dispatches (t : State) (fn q n : Nat) : Prop := ∃ g, (t.queue fn q).graph = some g ∧ g.st[n]? = some .dispatched

/-- A SESSION node of a request with its record of `len` bytes, and room for `resp` bytes of response (R68). -/
structure Requests (s : State) (fn q n req : Nat) (b r : List Byte) (len resp : Nat) : Prop where
  node     : Dispatched s fn q n 0x05 b
  kind     : leAt b 16 1 = req
  zero     : req ≠ 2 → req ≠ 3 → leAt b 17 1 = 0
  record   : s.devRead fn (BitVec.ofNat 64 (leAt b 24 8)) len = some r
  response : s.devOk fn (BitVec.ofNat 64 (leAt b 32 8)) resp = true
  lodge    : s.lodgeFree = true

/-- The node has completed with this status and detail, which NODE_COMPLETE takes. -/
def Finishes (t : State) (fn q n : Nat) (st : Status) (detail : Nat := 0) : Prop :=
  ∃ g, (t.queue fn q).graph = some g ∧ Map.get? g.results n = some { status := st, cause := 0, detail := detail }

/-- The Lodge serves a request: it is the oldest, of this function and code, and its buffer takes a response of `len` bytes
(R97). -/
structure Serves (s : State) (fn code : Nat) (r : MbReq) (len : Nat := 0) : Prop where
  head : s.lodge.inbox.head? = some r
  fn   : r.fn = fn
  code : r.code = code
  up   : s.lodge.fw ≠ .activating
  room : (s.stagingRead r.fn r.addr (64 + len)).isSome = true

/-- The request has been answered with this status: it has left the mailbox order, and MBSTAT says so. -/
structure Answers (s t : State) (r : MbReq) (st : Status) : Prop where
  inbox  : t.lodge.inbox = s.lodge.inbox.tail
  done   : (t.func r.fn).mbDone = true ∧ (t.func r.fn).mbBusy = false
  status : (t.func r.fn).mbStatus = st.code

/-- A debug request of the function whose debugger is attached to context c of partition p (R286, R288). -/
structure Debugs (s : State) (fn code : Nat) (r : MbReq) (p c : Nat) (len : Nat := 0) : Prop where
  serves   : Serves s fn code r len
  place    : leAt r.body 0 1 = p ∧ leAt r.body 1 1 = c ∧ c ≤ 3 ∧ s.owns fn p = true
  attached : ∃ x, Map.get? (s.part p).ctxs c = some x ∧ x.attached = true ∧ x.preemptedNote = false

/-- A flit with this payload for a module has gone out of a pod port, or waits for a route (R33, R35). -/
def Sent (t : State) (m : Nat) (body : FlitBody) : Prop :=
  ∃ f : Flit, f.dest = m ∧ f.body = body ∧ (f ∈ t.pod.waiting ∨ ∃ port key, .flit port key f ∈ t.out)

/-! ### The invariant -/

/-- What every step keeps, in every state that has it: both memories are in canonical form; the boot status is one that R19
allows, with a failing unit of its stage (R18) and UNIT 0 without FAIL; the core clock stands at a step of R15 and at its
floor while a stop of R16 pins it; the power limit is one that R15 allows. -/
structure State.Inv (s : State) : Prop where
  memory : Memory.wf s.mem = true ∧ Memory.wf s.hostMem = true
  stage  : 1 ≤ s.boot.stage ∧ s.boot.stage ≤ 8
  unit   : if s.boot.fail = true then s.boot.unit < bootUnits s.boot.stage else s.boot.unit = 0
  clock  : 800 ≤ s.clock.mhz ∧ s.clock.mhz ≤ 1600 ∧ s.clock.mhz % 100 = 0
  pinned : s.clock.pinned = true → s.clock.mhz = 800
  limit  : 1200 ≤ s.clock.limitW ∧ s.clock.limitW ≤ 2800

end Sys2Proof.Machine
end

