-- ==== Sys2Proof/Certificates/Slice0/Obligations.lean ====
section
/-! DEFINITION. The statements about the NQ-7260 that the provers are given. `Completes i s P` says that the instruction i
answers a next state t with P t. -/

open Sys2Proof Sys2Proof.Machine

/-! ### Integer instructions (R328 to R331) -/

/-- R328, rows 0x00 to 0x08, with the frame: whatever the operands, the instruction retires, d takes the value of the table,
its shadows become zero and nothing else changes; with d = s0 the result is discarded.

R328, rows 0x09 to 0x10 and 0x1B: bitwise operations, shifts and rotation by b[5:0], and `SEL`. -/
def Obligations.IntegerAndLogicResults : Prop :=
  (∀ (s : State) (d a b : Reg),
    let x := s.cur.reg a
    let y := s.cur.reg b
    let gives (i : Instr) (v : Word) := Completes i s fun t => Writes s t d v s.nextPc
    gives (.add d a b) (x + y) ∧ gives (.sub d a b) (x - y) ∧ gives (.mul d a b) (x * y)
    ∧ gives (.mulh d a b) ((x.signExtend 128 * y.signExtend 128).extractLsb' 64 64)
    ∧ gives (.mulhn d a b) ((x.zeroExtend 128 * y.zeroExtend 128).extractLsb' 64 64)
    ∧ gives (.div d a b) (if y = 0 then BitVec.allOnes 64 else x.sdiv y)
    ∧ gives (.divn d a b) (if y = 0 then BitVec.allOnes 64 else x.udiv y)
    ∧ gives (.rem d a b) (if y = 0 then x else x.srem y)
    ∧ gives (.remn d a b) (if y = 0 then x else x.umod y))
  ∧ (∀ (s : State) (d a b : Reg),
    let x := s.cur.reg a
    let y := s.cur.reg b
    let sh := y.toNat % 64
    let gives (i : Instr) (v : Word) := Completes i s fun t => Writes s t d v s.nextPc
    gives (.and d a b) (x &&& y) ∧ gives (.or d a b) (x ||| y) ∧ gives (.xor d a b) (x ^^^ y)
    ∧ gives (.andn d a b) (x &&& ~~~y) ∧ gives (.shl d a b) (x <<< sh) ∧ gives (.shr d a b) (x >>> sh)
    ∧ gives (.sha d a b) (x.sshiftRight sh) ∧ gives (.rot d a b) (x.rotateRight sh)
    ∧ gives (.sel d a b) (if y ≠ 0 then x else s.cur.reg d))

/-- R328, rows 0x11 to 0x1A: minima, maxima, comparisons and counts. A count is told by what it counts: the run of zero bits
that ends at a one bit or at the end of the word, and the number of positions that hold a one.

R330 and R331, with the frame. -/
def Obligations.ComparisonAndImmediateResults : Prop :=
  (∀ (s : State) (d a b : Reg),
    let x := s.cur.reg a
    let y := s.cur.reg b
    let gives (i : Instr) (v : Word) := Completes i s fun t => Writes s t d v s.nextPc
    gives (.min d a b) (if x.slt y then x else y) ∧ gives (.max d a b) (if x.slt y then y else x)
    ∧ gives (.minn d a b) (if x.ult y then x else y) ∧ gives (.maxn d a b) (if x.ult y then y else x)
    ∧ gives (.slt d a b) (if x.slt y then 1 else 0) ∧ gives (.sltn d a b) (if x.ult y then 1 else 0)
    ∧ gives (.seq d a b) (if x = y then 1 else 0)
    ∧ (∃ n ≤ 64, (∀ i < n, x.getMsbD i = false) ∧ (n < 64 → x.getMsbD n = true) ∧ gives (.clz d a) (BitVec.ofNat 64 n))
    ∧ (∃ n ≤ 64, (∀ i < n, x.getLsbD i = false) ∧ (n < 64 → x.getLsbD n = true) ∧ gives (.ctz d a) (BitVec.ofNat 64 n))
    ∧ gives (.popc d a) (BitVec.ofNat 64 (Finset.univ.filter fun i : Fin 64 => x.getLsbD i = true).card))
  ∧ (∀ (s : State) (d a : Reg) (i : BitVec 16) (n : BitVec 6) (h : BitVec 2),
    let x := s.cur.reg a
    let gives (j : Instr) (v : Word) := Completes j s fun t => Writes s t d v s.nextPc
    gives (.addi d a i) (x + i.signExtend 64) ∧ gives (.andi d a i) (x &&& i.zeroExtend 64)
    ∧ gives (.ori d a i) (x ||| i.zeroExtend 64) ∧ gives (.xori d a i) (x ^^^ i.zeroExtend 64)
    ∧ gives (.slti d a i) (if x.slt (i.signExtend 64) then 1 else 0)
    ∧ gives (.sltni d a i) (if x.ult (i.zeroExtend 64) then 1 else 0)
    ∧ gives (.shlImmediate d a n) (x <<< n.toNat) ∧ gives (.shrImmediate d a n) (x >>> n.toNat)
    ∧ gives (.shaImmediate d a n) (x.sshiftRight n.toNat) ∧ gives (.rotImmediate d a n) (x.rotateRight n.toNat)
    ∧ gives (.lui d h i) (BitVec.ofNat 64 (i.toNat * 2 ^ (16 * h.toNat)))
    ∧ ∃ v : Word, gives (.movk d h i) v
        ∧ ∀ k, k < 64 → v.getLsbD k = if 16 * h.toNat ≤ k ∧ k < 16 * h.toNat + 16 then i.getLsbD (k - 16 * h.toNat)
            else (s.cur.reg d).getLsbD k)

/-! ### Branches and jumps (R332 to R335) -/

/-- R332 and R333: a conditional branch whose condition holds goes to its address + 4 × offset when that lies aligned in the
code segment, and one whose condition fails goes to the next word; nothing but the pc changes. `DBNZ` also writes its
counter back less one, modulo 2^64.

R334: `JMP`, `CALL` and `JR`, to a target that is aligned and in the code segment. `jr.link` reads its target before it
writes `s31`. -/
def Obligations.BranchesAndJumpsGoToTheirTargets : Prop :=
  (∀ (s : State) (a b : Reg) (o : BitVec 16),
    let x := s.cur.reg a
    let y := s.cur.reg b
    let target := s.cur.seq.pc + 4 * o.signExtend 64
    let goes (i : Instr) (taken : Bool) :=
      (taken = true → target.toNat % 4 = 0 → s.cur.inCode target = true → exec i s = .next (s.withPc target))
      ∧ (taken = false → exec i s = .next (s.withPc s.nextPc))
    goes (.beq a b o) (decide (x = y)) ∧ goes (.bne a b o) (decide (x ≠ y))
    ∧ goes (.blt a b o) (x.slt y) ∧ goes (.bge a b o) (!x.slt y)
    ∧ goes (.bltn a b o) (x.ult y) ∧ goes (.bgen a b o) (!x.ult y)
    ∧ (x - 1 ≠ 0 → target.toNat % 4 = 0 → s.cur.inCode target = true →
        Completes (.dbnz a o) s fun t => Writes s t a (x - 1) target)
    ∧ (x - 1 = 0 → Completes (.dbnz a o) s fun t => Writes s t a 0 s.nextPc))
  ∧ (∀ (s : State) (a : Reg) (o : BitVec 26),
    let rel := s.cur.seq.pc + 4 * o.signExtend 64
    let abs := s.cur.reg a
    let good (t : Word) := t.toNat % 4 = 0 ∧ s.cur.inCode t = true
    (good rel → exec (.jmp o) s = .next (s.withPc rel))
    ∧ (good rel → Completes (.call o) s fun t => Writes s t 31 s.nextPc rel)
    ∧ (good abs → exec (.jr a) s = .next (s.withPc abs))
    ∧ (good abs → Completes (.jrLink a) s fun t => Writes s t 31 s.nextPc abs))

/-- R335 and R266: a taken transfer to an unaligned target traps ALIGN, to an aligned one outside the segment PERM, before any
register is written; `kfpc` names the branch. -/
def Obligations.BadTargetsTrapBeforeAnyWrite : Prop :=
  ∀ (s : State) (a b : Reg) (o : BitVec 16) (j : BitVec 26), s.handlerReady →
    let x := s.cur.reg a
    let y := s.cur.reg b
    let branch := s.cur.seq.pc + 4 * o.signExtend 64
    let jump := s.cur.seq.pc + 4 * j.signExtend 64
    let word := s.cur.codeWord s.cur.seq.pc
    let refuses (i : Instr) (target : Word) :=
      (target.toNat % 4 ≠ 0 → Completes i s fun t => Traps s t .align target word)
      ∧ (target.toNat % 4 = 0 → s.cur.inCode target = false → Completes i s fun t => Traps s t .perm target word)
    (x = y → refuses (.beq a b o) branch) ∧ (x ≠ y → refuses (.bne a b o) branch)
    ∧ (x.slt y = true → refuses (.blt a b o) branch) ∧ (x.slt y = false → refuses (.bge a b o) branch)
    ∧ (x.ult y = true → refuses (.bltn a b o) branch) ∧ (x.ult y = false → refuses (.bgen a b o) branch)
    ∧ (x - 1 ≠ 0 → refuses (.dbnz a o) branch)
    ∧ refuses (.jmp j) jump ∧ refuses (.call j) jump ∧ refuses (.jr a) x ∧ refuses (.jrLink a) x

/-! ### Loads and stores (R336 to R341) -/

/-- R336 and R337, first part: a load whose access passes and whose read leaves the cell running retires: d takes the value
read, extended as the table says, and the state is otherwise the one the read leaves. The value itself is the subject of
`LoadedValues`. -/
def Obligations.LoadsWriteWhatTheyRead : Prop :=
  ∀ (s : State) (d a : Reg) (o : BitVec 16) (l : Loc),
    let va := s.cur.reg a + o.signExtend 64
    let gives (i : Instr) (size : Nat) (ext : Nat → Word) :=
      Passes s .load size va none l → (s.readLoc s.focus.cell l size).1.cur.run ≠ .idle →
        Completes i s fun t => Writes (s.readLoc s.focus.cell l size).1 t d (ext (s.readLoc s.focus.cell l size).2)
          (s.readLoc s.focus.cell l size).1.nextPc
    gives (.ldb d a o) 1 (fun v => (BitVec.ofNat 8 v).signExtend 64)
    ∧ gives (.ldh d a o) 2 (fun v => (BitVec.ofNat 16 v).signExtend 64)
    ∧ gives (.ldw d a o) 4 (fun v => (BitVec.ofNat 32 v).signExtend 64)
    ∧ gives (.ldd d a o) 8 (BitVec.ofNat 64)
    ∧ gives (.ldbn d a o) 1 (BitVec.ofNat 64) ∧ gives (.ldhn d a o) 2 (BitVec.ofNat 64)
    ∧ gives (.ldwn d a o) 4 (BitVec.ofNat 64)

/-- R138, R341: what a load of a NORM or FE page reads. Bytes that the write buffer wholly holds come from it, youngest first;
with nothing overlapping buffered a line of the cell's L1 gives its bytes; otherwise memory does, and the L1 takes the line
of a NORM page. Nothing is written to memory. -/
def Obligations.LoadedValues : Prop :=
  ∀ (s : State) (l : Loc) (size : Nat), l.cls = .norm ∨ l.cls = .fe →
    let n := s.focus.cell
    let r := s.readLoc n l size
    (∀ b, (∀ i, i < size → wbByte s.cur.seq.wb (l.pa + i) = some (b.getD i 0)) → b.length = size →
      r.1 = s ∧ r.2 = leNat b)
    ∧ ((∀ i, i < size → wbByte s.cur.seq.wb (l.pa + i) = none) → 0 < size →
        (∀ line, Map.get? s.cur.l1 (l.pa / 64) = some line → r.1 = s ∧ r.2 = leAt line (l.pa % 64) size)
        ∧ (Map.get? s.cur.l1 (l.pa / 64) = none → s.lineReady l.pa → paModule l.pa = s.pod.self →
            r.2 = leNat (readBytes s.mem l.pa size) ∧ SameMemory s r.1 ∧ OnlyAccess s r.1 ∧ r.1.cur.seq = s.cur.seq
            ∧ Map.get? r.1.cur.l1 (l.pa / 64) = (if l.cls = .norm then some (readBytes s.mem (64 * (l.pa / 64)) 64) else none)))

/-- R338 and R341: a store whose access passes retires at once, with its bytes behind every earlier store in the write buffer;
no byte of memory, no register and nothing else changes, while the buffer holds fewer than 16.

R341: the oldest entry of the write buffer performs: exactly its bytes are stored, the rest of memory reads as before, and
the entry leaves the buffer. -/
def Obligations.StoresAreBufferedAndPerform : Prop :=
  (∀ (s : State) (d a : Reg) (o : BitVec 16) (l : Loc),
    let va := s.cur.reg a + o.signExtend 64
    let v := s.cur.reg d
    let entry (size : Nat) : WbEntry :=
      .bytes ((List.range size).map fun i => (l.pa + i, v.extractLsb' (8 * i) 8)) .cell
    let enters (i : Instr) (size : Nat) :=
      Passes s .store size va none l → l.cls = .norm →
        s.cur.seq.wb.length < 16 → s.cur.run ≠ .idle →
          exec i s = .next (s.onCur fun c => c.withSeq fun q => { q with wb := q.wb ++ [entry size], pc := q.pc + 4 })
    enters (.stb d a o) 1 ∧ enters (.sth d a o) 2 ∧ enters (.stw d a o) 4 ∧ enters (.std d a o) 8)
  ∧ (∀ (s : State) (n : Nat) (pa : Nat) (bytes : List Byte) (sc : Scope) (rest : List WbEntry),
    let cells := bytes.mapIdx fun i b => (pa + i, b)
    (s.cell n).run = .running ∨ (s.cell n).run = .halted →
    (s.cell n).seq.wb = .bytes cells sc :: rest →
    0 < bytes.length → pa % 64 + bytes.length ≤ 64 → s.lineReady pa → paModule pa = s.pod.self →
    Completes (.writeBufferPerform n) s fun t =>
      (∀ x, readMem t.mem x = if pa ≤ x ∧ x < pa + bytes.length then bytes.getD (x - pa) 0 else readMem s.mem x)
      ∧ (∀ x, readMem t.hostMem x = readMem s.hostMem x)
      ∧ (t.cell n).seq = { (s.cell n).seq with wb := rest }
      ∧ (∀ m, m ≠ n → t.cell m = s.cell m))

/-- R336, the checks of the address alone, in their order: an address with a bit above 57 set traps PERM, one that is not a
multiple of the size traps ALIGN, before a register or a byte of memory is written. -/
def Obligations.BadAddressesTrapInOrder : Prop :=
  ∀ (s : State) (d a : Reg) (o : BitVec 16), s.handlerReady →
    let va := s.cur.reg a + o.signExtend 64
    let checks (i : Instr) (size : Nat) :=
      (2 ^ 58 ≤ va.toNat → Completes i s fun t => Traps s t .perm va s.word)
      ∧ (va.toNat < 2 ^ 58 → va.toNat % size ≠ 0 → Completes i s fun t => Traps s t .align va s.word)
    checks (.ldb d a o) 1 ∧ checks (.ldh d a o) 2 ∧ checks (.ldw d a o) 4 ∧ checks (.ldd d a o) 8
    ∧ checks (.ldbn d a o) 1 ∧ checks (.ldhn d a o) 2 ∧ checks (.ldwn d a o) 4
    ∧ checks (.stb d a o) 1 ∧ checks (.sth d a o) 2 ∧ checks (.stw d a o) 4 ∧ checks (.std d a o) 8

/-- R339, whole: `LDS` and `STS` at sa = s[a] + sign_extend(offset16): PERM from 0x10_0000 up, then ALIGN, else 8 bytes of scratch
move; `STS` changes those bytes of scratch alone. -/
def Obligations.ScratchLoadsAndStores : Prop :=
  ∀ (s : State) (d a : Reg) (o : BitVec 16),
    let sa := s.cur.reg a + o.signExtend 64
    let v := s.cur.reg d
    (0x100000 ≤ sa.toNat → s.handlerReady →
      (Completes (.lds d a o) s fun t => Traps s t .perm sa s.word) ∧ Completes (.sts d a o) s fun t => Traps s t .perm sa s.word)
    ∧ (sa.toNat < 0x100000 → sa.toNat % 8 ≠ 0 → s.handlerReady →
      (Completes (.lds d a o) s fun t => Traps s t .align sa s.word) ∧ Completes (.sts d a o) s fun t => Traps s t .align sa s.word)
    ∧ (sa.toNat < 0x100000 → sa.toNat % 8 = 0 →
        (Completes (.lds d a o) s fun t => Writes s t d (BitVec.ofNat 64 (leNat (s.cur.scratchRead sa.toNat 8))) s.nextPc)
        ∧ Completes (.sts d a o) s fun t =>
            OnlyCur s t ∧ t.cur = { s.cur with scratch := t.cur.scratch, seq := { s.cur.seq with pc := s.nextPc } }
            ∧ ∀ x, Map.get 0 t.cur.scratch x = if sa.toNat ≤ x ∧ x < sa.toNat + 8
                then v.extractLsb' (8 * (x - sa.toNat)) 8 else Map.get 0 s.cur.scratch x)

/-! ### Ordered accesses, fences, atomics and full-empty operations (R342 to R347) -/

/-- R342: `LDAQ` reads with its acquire, and at PART or wider leaves the L1 empty, so that the value is memory's when no
buffered store holds it; `STRL` with an empty buffer enters it with its scope. -/
def Obligations.AcquireLoadsAndReleaseStores : Prop :=
  ∀ (s : State) (d a b : Reg) (c : Scope) (dbl : Bool) (l : Loc),
    let n := s.focus.cell
    let va := s.cur.reg a
    let size := if dbl then 8 else 4
    let r := (s.acquire n c).readLoc n l size
    let u := r.1.acquire n c
    let v := s.cur.reg b
    (Passes s .load size va (some c) l → u.cur.run ≠ .idle →
      Completes (.ldaq d a c dbl) s fun t =>
        Writes u t d (if dbl then BitVec.ofNat 64 r.2 else (BitVec.ofNat 32 r.2).signExtend 64) u.nextPc)
    ∧ (c ≠ .cell → (u.cell n).l1 = [])
    ∧ (c ≠ .cell → l.cls = .norm → s.cur.seq.wb = [] → s.lineReady l.pa → paModule l.pa = s.pod.self →
        r.2 = leNat (readBytes s.mem l.pa size))
    ∧ (Passes s .store size va (some c) l → l.cls = .norm → s.quiet →
        exec (.strl a b c dbl) s = .next (s.onCur fun x => x.withSeq fun q => { q with
          wb := [.bytes ((List.range size).map fun i => (l.pa + i, v.extractLsb' (8 * i) 8)) c], pc := q.pc + 4 }))

/-- R343 and R172: a fence at a scope that the policy allows retires and touches no register; its acquire part empties the L1 at
PART or wider; one that must wait for a bank command stays where it is; one at DEV or POD without the policy bit traps
SCOPE. -/
def Obligations.FencesOrderAndRetire : Prop :=
  ∀ (s : State) (c : Scope),
    let allowed := match c with
      | .cell | .part => true
      | .dev => s.policy.scopeWord.getLsbD (s.cur.ident.vf - 1)
      | .pod => s.policy.scopeWord.getLsbD (16 + s.cur.ident.vf - 1)
    let acquired := if c = .cell then s else s.onCur fun x => { x with l1 := [] }
    (allowed = true → s.quiet → s.cur.bank = [] →
      exec (.fence .acquire c) s = .next (acquired.onCur fun x => x.withSeq fun q => { q with pc := q.pc + 4 })
      ∧ exec (.fence .release c) s = .next (s.withPc s.nextPc)
      ∧ exec (.fence .full c) s = .next (acquired.onCur fun x => x.withSeq fun q => { q with pc := q.pc + 4 }))
    ∧ (allowed = true → (s.cur.bank.any fun k => k.scope == .cell) = true →
        exec (.fence .acquire c) s = .next s ∧ exec (.fence .full c) s = .next s)
    ∧ (allowed = false → s.handlerReady → ∀ k, Completes (.fence k c) s fun t => Traps s t .scope 0 s.word)

/-- R344 and R345: an atomic stores the new value of the table over the old one, which register d receives, extended as the
table says; every other byte of memory is as before, and the cell's L1 gives up the line. -/
def Obligations.AtomicsReplaceAndReturnTheOldValue : Prop :=
  ∀ (s : State) (d a b : Reg) (c : Scope) (o : Order) (l : Loc),
    let va := s.cur.reg a
    let cmp := s.cur.reg d
    let v := s.cur.reg b
    let effect (i : Instr) (size : Nat) (new result : Word) :=
      Passes s .atomic size va (some c) l → s.quiet → s.lineReady l.pa →
        Completes i s fun t =>
          (∀ x, readMem t.mem x = if l.pa ≤ x ∧ x < l.pa + size then new.extractLsb' (8 * (x - l.pa)) 8 else readMem s.mem x)
          ∧ (∀ x, readMem t.hostMem x = readMem s.hostMem x)
          ∧ RegWrite s.cur t.cur d result ∧ t.cur.seq.pc = s.nextPc ∧ OnlyRegs s.cur.seq t.cur.seq ∧ OnlyAccess s t
          ∧ Map.get? t.cur.l1 (l.pa / 64) = none
    let m64 : Word := BitVec.ofNat 64 (leNat (readBytes s.mem l.pa 8))
    let m32 : W32 := BitVec.ofNat 32 (leNat (readBytes s.mem l.pa 4))
    let both (i : Bool → Instr) (signed : Bool) (f : (w : Nat) → BitVec w → BitVec w → BitVec w → BitVec w) :=
      effect (i true) 8 (f 64 m64 v cmp) m64
      ∧ effect (i false) 4 ((f 32 m32 (v.setWidth 32) (cmp.setWidth 32)).setWidth 64)
          (if signed then m32.signExtend 64 else m32.setWidth 64)
    both (.aadd d a b c o) true (fun _ m v _ => m + v)
    ∧ both (.amin d a b c o) true (fun _ m v _ => if v.slt m then v else m)
    ∧ both (.amax d a b c o) true (fun _ m v _ => if m.slt v then v else m)
    ∧ both (.aminn d a b c o) false (fun _ m v _ => if v.ult m then v else m)
    ∧ both (.amaxn d a b c o) false (fun _ m v _ => if m.ult v then v else m)
    ∧ both (.aand d a b c o) true (fun _ m v _ => m &&& v) ∧ both (.aor d a b c o) true (fun _ m v _ => m ||| v)
    ∧ both (.axor d a b c o) true (fun _ m v _ => m ^^^ v) ∧ both (.axchg d a b c o) true (fun _ _ v _ => v)
    ∧ both (.acas d a b c o) true (fun _ m v x => if m = x then v else m)
    ∧ effect (.afadd d a b c o) 4 ((f32Add m32 (v.setWidth 32)).setWidth 64) (m32.setWidth 64)

/-- R346, R347 and R140: on a full word `LDFE` and `FEPEEK` give its value (with bit 32 for `FEPEEK`) and `STFE` traps FEDUP
and leaves it; on an empty one `LDFE` waits with its deferral noted while the slice has an entry free, and returns what filled
the word, `FEPEEK` gives 0, and `STFE` stores and sets the word full, and no other byte and no other presence bit changes. -/
def Obligations.FullEmptyOperations : Prop :=
  ∀ (s : State) (d a b : Reg) (c : Scope) (l : Loc),
    let va := s.cur.reg a
    let v := s.cur.reg b
    let m := leNat (readBytes s.mem l.pa 4)
    let full := Map.get false s.full l.pa = true
    let reads := Passes s .feRead 4 va (some c) l ∧ s.quiet ∧ s.lineReady l.pa
    let writes := Passes s .feWrite 4 va (some c) l ∧ s.quiet ∧ s.lineReady l.pa
    (reads → full → s.cur.seq.deferral = none → Completes (.ldfe d a c) s fun t =>
      RegWrite s.cur t.cur d (BitVec.ofNat 64 m) ∧ t.cur.seq.pc = s.nextPc ∧ t.cur.seq.deferral = none
      ∧ SameMemory s t ∧ OnlyAccess s t ∧ (c ≠ .cell → t.cur.l1 = []))
    ∧ (reads → ¬ full → s.cur.seq.deferral = none → s.deferralFree l.pa = true → Completes (.ldfe d a c) s fun t =>
      t.cur.seq = { s.cur.seq with deferral := some (l.pa, none) } ∧ SameMemory s t ∧ t.full = s.full)
    ∧ (reads → s.cur.seq.deferral = some (l.pa, none) → exec (.ldfe d a c) s = .next s)
    ∧ (∀ u, reads → s.cur.seq.deferral = some (l.pa, some u) → Completes (.ldfe d a c) s fun t =>
      RegWrite s.cur t.cur d (u.setWidth 64) ∧ t.cur.seq.pc = s.nextPc ∧ t.cur.seq.deferral = none ∧ SameMemory s t)
    ∧ (reads → full → Completes (.fepeek d a c) s fun t =>
      RegWrite s.cur t.cur d (BitVec.ofNat 64 (2 ^ 32 + m)) ∧ t.cur.seq.pc = s.nextPc ∧ SameMemory s t ∧ OnlyAccess s t)
    ∧ (reads → ¬ full → Completes (.fepeek d a c) s fun t =>
      RegWrite s.cur t.cur d 0 ∧ t.cur.seq.pc = s.nextPc ∧ SameMemory s t ∧ OnlyAccess s t)
    ∧ (writes → ¬ full → Completes (.stfe a b c) s fun t =>
      (∀ x, readMem t.mem x = if l.pa ≤ x ∧ x < l.pa + 4 then v.extractLsb' (8 * (x - l.pa)) 8 else readMem s.mem x)
      ∧ (∀ x, Map.get false t.full x = if x = l.pa then true else Map.get false s.full x)
      ∧ SameRegs s.cur t.cur ∧ t.cur.seq.pc = s.nextPc)
    ∧ (writes → full → s.handlerReady → Completes (.stfe a b c) s fun t =>
      EntersHandler s.cur t.cur .fedup va s.word ∧ SameMemory s t ∧ t.full = s.full)

/-! ### Floating point (R348, R349) -/

/-- R348 and R201, the operations whose result no rounding shapes: `FCMP` gives 1 or 0 by the order of the two values, a NaN
comparing unordered; `FMIN` and `FMAX` give an operand back, −0 below +0, the other operand for one NaN and the canonical
NaN for two. In f32 the upper half of the result is zero. -/
def Obligations.FloatComparisonsAndMinima : Prop :=
  ∀ (s : State) (d a b : Reg) (w : Bool),
    let f := if w then f64F else f32F
    let bits (r : Reg) : Nat := (s.cur.reg r).toNat % 2 ^ f.w
    let x := bits a
    let y := bits b
    let order := (f.val x).order (f.val y)
    let gives (i : Instr) (v : Nat) := Completes i s fun t => Writes s t d (BitVec.ofNat 64 v) s.nextPc
    gives (.fcmp d a b .eq w) (if order = .eq then 1 else 0) ∧ gives (.fcmp d a b .ne w) (if order = .eq then 0 else 1)
    ∧ gives (.fcmp d a b .lt w) (if order = .lt then 1 else 0)
    ∧ gives (.fcmp d a b .le w) (if order = .lt ∨ order = .eq then 1 else 0)
    ∧ gives (.fcmp d a b .gt w) (if order = .gt then 1 else 0)
    ∧ gives (.fcmp d a b .ge w) (if order = .gt ∨ order = .eq then 1 else 0)
    ∧ gives (.fcmp d a b .un w) (if order = .un then 1 else 0) ∧ gives (.fcmp d a b .ord w) (if order = .un then 0 else 1)
    ∧ (f.val x ≠ .nan → f.val y ≠ .nan →
        (order = .lt → gives (.fmin d a b w) x ∧ gives (.fmax d a b w) y)
        ∧ (order = .gt → gives (.fmin d a b w) y ∧ gives (.fmax d a b w) x)
        ∧ (order = .eq → (f.val x).sign = (f.val y).sign → gives (.fmin d a b w) x ∧ gives (.fmax d a b w) x)
        ∧ (order = .eq → (f.val x).sign = true → (f.val y).sign = false → gives (.fmin d a b w) x ∧ gives (.fmax d a b w) y)
        ∧ (order = .eq → (f.val x).sign = false → (f.val y).sign = true → gives (.fmin d a b w) y ∧ gives (.fmax d a b w) x))
    ∧ (f.val x = .nan → f.val y ≠ .nan → gives (.fmin d a b w) y ∧ gives (.fmax d a b w) y)
    ∧ (f.val x ≠ .nan → f.val y = .nan → gives (.fmin d a b w) x ∧ gives (.fmax d a b w) x)
    ∧ (f.val x = .nan → f.val y = .nan →
        gives (.fmin d a b w) (if w then 0x7FF8000000000000 else 0x7FC00000)
        ∧ gives (.fmax d a b w) (if w then 0x7FF8000000000000 else 0x7FC00000))

/-- R348, R349 and R200: an arithmetic operation or conversion rounds one exact result, in the mode of its RND field, to the
format of its result; `FCVT` to an integer saturates and gives 0 for a NaN; nothing else of the machine changes. -/
def Obligations.FloatResultsAreRoundedOnce : Prop :=
  ∀ (s : State) (d a b : Reg) (r : Rnd) (w : Bool),
    let f := if w then f64F else f32F
    let val (x : Reg) : Val := f.val ((s.cur.reg x).toNat % 2 ^ f.w)
    let gives (i : Instr) (v : Nat) := Completes i s fun t => Writes s t d (BitVec.ofNat 64 v) s.nextPc
    let int (lo hi : Int) : Nat := (((val a).toRange r lo hi) % 2 ^ 64).toNat
    let x := s.cur.reg a
    gives (.fadd d a b r w) (f.round r ((val a).add r (val b)))
    ∧ gives (.fsub d a b r w) (f.round r ((val a).add r (val b).neg))
    ∧ gives (.fmul d a b r w) (f.round r ((val a).mul (val b)))
    ∧ gives (.ffma d a b r w) (f.round r (((val a).mul (val b)).add r (val d)))
    ∧ gives (.frcp d a r w) (f.round r (Val.div (.fin false 1 0) (val a)))
    ∧ gives (.fsqrt d a r w) (f.round r (val a).sqrt)
    ∧ gives (.fcvt d a .wide r w) (f64F.round .rne (f32F.val (x.toNat % 2 ^ 32)))
    ∧ gives (.fcvt d a .narrow r w) (f32F.round r (f64F.val x.toNat))
    ∧ gives (.fcvt d a .toi r w) (int (-(2 ^ 63)) (2 ^ 63 - 1)) ∧ gives (.fcvt d a .ton r w) (int 0 (2 ^ 64 - 1))
    ∧ gives (.fcvt d a .fromi r w) (f.round r (intVal x.toInt)) ∧ gives (.fcvt d a .fromn r w) (f.round r (intVal x.toNat))
    ∧ gives (.fcvt d a .tobf r w) (bf16F.round r (f32F.val (x.toNat % 2 ^ 32)))
    ∧ gives (.fcvt d a .frombf r w) (x.toNat % 2 ^ 16 * 2 ^ 16)

/-- R199 and R200: a value that f32, f64 or bf16 holds rounds to its own code in every mode, so that an exact result is returned
unchanged, signed zeros, subnormals and infinities among them; what is not a number rounds to the canonical NaN; every result
is a code of the format. -/
def Obligations.RoundingKeepsWhatTheFormatHolds : Prop :=
  ∀ (f : FFmt) (r : Rnd), f = f32F ∨ f = f64F ∨ f = bf16F →
    (∀ n, n < 2 ^ f.w → f.val n ≠ .nan → f.round r (f.val n) = n)
    ∧ f.round r .nan = f.nanCode
    ∧ ∀ v, f.round r v < 2 ^ f.w

/-! ### Control registers (R236, R237, R351) -/

/-- R236 and R237: `CTLRD` of each of the twenty registers, with the frame; `kphase` is told by its fields.

R351: `CTLWR`, `CTLSET` and `CTLCLR` of each register that can be written, and nothing else; bits [1:0] of `kvec` and the zero
fields of `kfinfo` (R265) stay zero. -/
def Obligations.ControlRegistersReadAndWrite : Prop :=
  (∀ (s : State) (d : Reg),
    let c := s.cur
    let q := c.seq
    let p := c.phase
    let num (n : Nat) : Word := BitVec.ofNat 64 n
    let reads (n : Nat) (v : Word) := Completes (.ctlrd d (BitVec.ofNat 9 n)) s fun t => Writes s t d v s.nextPc
    reads 0x000 (num s.focus.cell) ∧ reads 0x001 (num c.ident.part) ∧ reads 0x002 (num c.ident.vf)
    ∧ reads 0x003 (num c.ident.world) ∧ reads 0x004 (num c.ident.ctx) ∧ reads 0x005 (c.ident.gen.setWidth 64)
    ∧ reads 0x006 (num c.ident.tw) ∧ reads 0x008 (num s.timebase) ∧ reads 0x009 q.kcycle
    ∧ reads 0x010 q.kvec ∧ reads 0x011 q.kfpc ∧ reads 0x012 q.kfcause ∧ reads 0x013 q.kfaddr ∧ reads 0x014 q.kfinfo
    ∧ reads 0x020 q.kdesc ∧ reads 0x021 q.kdbase ∧ reads 0x022 q.ktstride ∧ reads 0x030 (num s.pod.self)
    ∧ (∀ v, s.world? c.ident.world = some v → reads 0x031 (num v.epoch))
    ∧ ∃ v : Word, reads 0x007 v
        ∧ v.extractLsb' 0 2 = (match p.st with | .idle => 0 | .running => 1 | .done => 2)
        ∧ v.getLsbD 2 = false ∧ v.extractLsb' 3 13 = BitVec.ofNat 13 p.n
        ∧ v.extractLsb' 16 13 = BitVec.ofNat 13 ((List.range p.n).filter fun i => !p.parked.getLsbD i).length
        ∧ v.extractLsb' 29 13 = BitVec.ofNat 13 p.errs ∧ v.extractLsb' 42 22 = 0)
  ∧ (∀ (s : State) (a : Reg),
    let v := s.cur.reg a
    let writes (n : Nat) (get : Seq → Word) (set : Seq → Word → Seq) :=
      exec (.ctlwr a (BitVec.ofNat 9 n)) s = .next (s.seqStep fun q => set q v)
      ∧ exec (.ctlset a (BitVec.ofNat 9 n)) s = .next (s.seqStep fun q => set q (get q ||| v))
      ∧ exec (.ctlclr a (BitVec.ofNat 9 n)) s = .next (s.seqStep fun q => set q (get q &&& ~~~v))
    writes 0x010 (·.kvec) (fun q v => { q with kvec := v &&& ~~~3 })
    ∧ writes 0x011 (·.kfpc) (fun q v => { q with kfpc := v }) ∧ writes 0x012 (·.kfcause) (fun q v => { q with kfcause := v })
    ∧ writes 0x013 (·.kfaddr) (fun q v => { q with kfaddr := v })
    ∧ writes 0x014 (·.kfinfo) (fun q v => { q with kfinfo := v &&& 0x80FFFF00FFFFFFFF })
    ∧ writes 0x020 (·.kdesc) (fun q v => { q with kdesc := v }) ∧ writes 0x021 (·.kdbase) (fun q v => { q with kdbase := v })
    ∧ writes 0x022 (·.ktstride) (fun q v => { q with ktstride := v }))

/-- R236: every access to an unassigned number traps ILL, and every change of a read-only register traps PERM. -/
def Obligations.ControlRegisterTraps : Prop :=
  ∀ (s : State) (d a : Reg) (n : BitVec 9), s.handlerReady →
    let readOnly : List Nat := [0x000, 0x001, 0x002, 0x003, 0x004, 0x005, 0x006, 0x007, 0x008, 0x009, 0x030, 0x031]
    let readWrite : List Nat := [0x010, 0x011, 0x012, 0x013, 0x014, 0x020, 0x021, 0x022]
    let traps (i : Instr) (cause : Cause) := Completes i s fun t => Traps s t cause 0 s.word
    (n.toNat ∉ readOnly ++ readWrite → traps (.ctlrd d n) .ill ∧ traps (.ctlwr a n) .ill ∧ traps (.ctlset a n) .ill
      ∧ traps (.ctlclr a n) .ill)
    ∧ (n.toNat ∈ readOnly → traps (.ctlwr a n) .perm ∧ traps (.ctlset a n) .perm ∧ traps (.ctlclr a n) .perm)

/-! ### System instructions, traps and reports (R263 to R268, R303, R316, R352 to R356) -/

/-- R352 to R355: `SNOP` changes the pc alone; `TRAP` takes SOFT with its word in `kfinfo`; `WAITEV` retires on a named line or
counter or with nothing named, else stays, and traps COMBO on a bit above 47; `YIELD` marks the cell while another cell of its
launch has neither halted nor yielded; `KRET` returns to `kfpc` and clears handler_active. -/
def Obligations.SystemInstructions : Prop :=
  ∀ (s : State) (a : Reg) (code : BitVec 7),
    let w := s.cur.reg a
    let named := (∃ k, k < 32 ∧ w.getLsbD k = true ∧ s.cur.lines.getLsbD k = true)
      ∨ ∃ i v, i < 16 ∧ w.getLsbD (32 + i) = true ∧ Map.get? s.cur.counters i = some v ∧ v.threshold ≤ v.count
    let high := ∃ k, 48 ≤ k ∧ k < 64 ∧ w.getLsbD k = true
    exec .snop s = .next (s.withPc s.nextPc)
    ∧ (s.handlerReady → Completes (.trap code) s fun t => Traps s t .soft 0 s.word)
    ∧ (¬ high → named ∨ w = 0 → exec (.waitev a) s = .next (s.withPc s.nextPc))
    ∧ (¬ high → ¬ named → w ≠ 0 → exec (.waitev a) s = .next s)
    ∧ (high → s.handlerReady → Completes (.waitev a) s fun t => Traps s t .combo 0 s.word)
    ∧ (∀ l m, Map.get? s.launches s.cur.ident.launch = some l → m ∈ l.parts.flatMap cellsOfPart → m ≠ s.focus.cell →
        (s.cell m).run.hasHalted = false → (s.cell m).seq.yielded = false →
        exec .yield s = .next (s.seqStep fun q => { q with yielded := true }))
    ∧ (s.cur.seq.handlerActive = true → s.cur.seq.kfpc.toNat % 4 = 0 → s.cur.inCode s.cur.seq.kfpc = true →
        exec .kret s = .next (s.onCur fun c => c.withSeq fun q => { q with handlerActive := false, pc := q.kfpc }))
    ∧ (s.cur.seq.handlerActive = false → s.cur.seq.kvec ≠ 0 → Completes .kret s fun t => Traps s t .ill 0 s.word)

/-- R356 and R106: a cell that waits for nothing halts: what is still armed is cancelled, the pins end, and every register
stays. With the last cell of a launch the launch ends and its node is told OK. Where every other cell has halted or yielded,
and one has not halted, the marks of `YIELD` clear (R354). While a phase runs or an engine command is in flight `HALT` changes
nothing.

R352, R263 and R288: `BREAK` with a debugger attached begins a stop: it has retired, and every cell of the partition that ran
or had halted is frozen; it waits until the last cell of a launch that starts has started (R115). Without one it retires, and
event 6 counts with what the cell has yet to contribute (R280). -/
def Obligations.HaltAndBreak : Prop :=
  (∀ (s : State),
    let n := s.focus.cell
    let c := s.cur
    let settled := c.phase.st ≠ .running ∧ (∀ e ∈ c.streams, e.2.armed.isSome = true) ∧ c.arb.queue = [] ∧ c.kvm = []
      ∧ c.coll = none ∧ c.bank = [] ∧ c.fabric.sq = []
    c.run = .running → c.seq.wb = [] →
    (¬ settled → exec .halt s = .next s)
    ∧ ∀ l, settled → Map.get? s.launches c.ident.launch = some l → l.st = .running →
      (∀ m, m ∈ l.parts.flatMap cellsOfPart → m ≠ n → (s.cell m).run.hasHalted = false → (s.cell m).seq.yielded = false →
        Completes .halt s fun t =>
          t.cur.run = .halted ∧ t.cur.seq = { c.seq with pc := s.nextPc } ∧ t.cur.streams = [] ∧ t.cur.pins = []
          ∧ (∀ e ∈ t.cur.gates, e.2.armed = none) ∧ t.cur.scratch = c.scratch ∧ t.cur.tiles = c.tiles
          ∧ ∀ k, k ≠ n → t.cell k = s.cell k)
      ∧ (∀ m, m ∈ l.parts.flatMap cellsOfPart → m ≠ n → (s.cell m).run.hasHalted = false →
        (∀ k ∈ l.parts.flatMap cellsOfPart, k ≠ n → (s.cell k).run.hasHalted = true ∨ (s.cell k).seq.yielded = true) →
        Completes .halt s fun t =>
          t.cur.run = .halted ∧ ∀ k ∈ l.parts.flatMap cellsOfPart, k ≠ n →
            t.cell k = (s.cell k).withSeq fun q => { q with yielded := false })
      ∧ ((∀ m ∈ l.parts.flatMap cellsOfPart, m ≠ n → (s.cell m).run.hasHalted = true) → l.pod = none →
        Completes .halt s fun t =>
          Map.get? t.launches c.ident.launch = none
          ∧ (∀ m ∈ l.parts.flatMap cellsOfPart, (t.cell m).run = .idle)
          ∧ ∀ g, (s.queue l.fn l.q).graph = some g → g.st[l.node]? = some .dispatched →
              ∃ g' r, (t.queue l.fn l.q).graph = some g' ∧ Map.get? g'.results l.node = some r ∧ r.status = .ok))
  ∧ (∀ (s : State),
    let n := s.focus.cell
    let p := partOfCell n
    let debugged := ∃ x, Map.get? (s.part s.cur.ident.part).ctxs s.cur.ident.ctx = some x ∧ x.attached = true
    (debugged → s.starts p = true → exec .brk s = .next s)
    ∧ (debugged → s.starts p = false → (s.part p).stop = none → Completes .brk s fun t =>
      (t.part p).stop = some ((s.part p).stops + 1) ∧ t.cur.seq = { s.cur.seq with pc := s.nextPc }
      ∧ ∀ m ∈ cellsOfPart p,
          ((s.cell m).run = .running → (t.cell m).run = .stopped false)
          ∧ ((s.cell m).run = .halted → (t.cell m).run = .stopped true)
          ∧ (m ≠ n → t.cell m = { s.cell m with run := (t.cell m).run }))
    ∧ (¬ debugged → Completes .brk s fun t =>
      t.cells = (s.withPc s.nextPc).cells
      ∧ Map.get 0 (t.part p).pending (16 * cellIndex n + 6) = Map.get 0 (s.part p).pending (16 * cellIndex n + 6) + 1))

/-- R266 and R267: an instruction that is not one takes ILL with its word; a waiting report enters the handler of a running cell,
with its own fault address and `kfinfo`, unless the handler is active; without `kvec` a trap ends the launch, with status
ERROR and the cause. -/
def Obligations.TrapsAndReportsEnterTheHandler : Prop :=
  ∀ (s : State) (w : W32) (n : Nat) (r : Report) (rest : List Report),
    (s.handlerReady → Completes (.illegalInstructionWord w) s fun t => Traps s t .ill 0 w)
    ∧ ((s.cell n).run = .running → (s.cell n).seq.reports = r :: rest →
        ((s.cell n).seq.kvec ≠ 0 → (s.cell n).seq.handlerActive = false →
          exec (.asyncReportDelivery n) s = .next (s.onCell n fun c => c.withSeq fun q => { q with
            reports := rest, handlerActive := true, pc := q.kvec, kfpc := q.pc, kfcause := BitVec.ofNat 64 r.cause.code
            kfaddr := r.addr, kfinfo := r.info }))
        ∧ ((s.cell n).seq.handlerActive = true → exec (.asyncReportDelivery n) s = .next s))
    ∧ (s.cur.seq.kvec = 0 ∨ s.cur.seq.handlerActive = true →
        ∀ l, Map.get? s.launches s.cur.ident.launch = some l → l.pod = none →
          Completes (.illegalInstructionWord w) s fun t =>
            Map.get? t.launches s.cur.ident.launch = none
            ∧ ∀ g, (s.queue l.fn l.q).graph = some g → g.st[l.node]? = some .dispatched →
                ∃ g' r, (t.queue l.fn l.q).graph = some g' ∧ Map.get? g'.results l.node = some r ∧ r.status = .error ∧ r.cause = 1)

/-- R316, R211, R212 and R325: a dual pair has the meaning of its second word, moves the pc by 8, and gives each of the T shadows
its tangent: that of a sum is the sum of the tangents, that of a product a′ × b + a × b′ with two roundings, that of a selection
the operand's, that of a comparison zero. A prefix before a word without a dual form traps ILL at the prefix. -/
def Obligations.DualPairsCarryTangents : Prop :=
  ∀ (s : State) (d a b : Reg) (r : Rnd) (w : Bool) (k : Cond),
    let f := if w then f64F else f32F
    let num (v : Word) : Nat := v.toNat % 2 ^ f.w
    let x := num (s.cur.reg a)
    let y := num (s.cur.reg b)
    let x' (i : Nat) := num (s.cur.shadow a i)
    let y' (i : Nat) := num (s.cur.shadow b i)
    let next := s.cur.seq.pc + 4
    let second := if s.cur.inCode next then decodeDual (s.cur.codeWord next) else none
    let gives (g : DualForm) (v : Word) (tan : Nat → Word) := second = some g →
      Completes .dual s fun t =>
        OnlyCur s t ∧ OnlySeq s.cur t.cur ∧ OnlyRegs s.cur.seq t.cur.seq ∧ t.cur.seq.pc = s.nextPc 8
        ∧ (∀ q, t.cur.reg q = if q = d ∧ d ≠ 0 then v else s.cur.reg q)
        ∧ (∀ q i, 1 ≤ i ∧ i ≤ 4 → t.cur.shadow q i =
            if q = d ∧ d ≠ 0 ∧ i ≤ s.cur.ident.tw then tan i else s.cur.shadow q i)
    1 ≤ s.cur.ident.tw → s.cur.ident.tw ≤ 4 →
    gives (.fadd d a b r w) (BitVec.ofNat 64 (f.add r x y)) (fun i => BitVec.ofNat 64 (f.add .rne (x' i) (y' i)))
    ∧ gives (.fsub d a b r w) (BitVec.ofNat 64 (f.sub r x y)) (fun i => BitVec.ofNat 64 (f.sub .rne (x' i) (y' i)))
    ∧ gives (.fmul d a b r w) (BitVec.ofNat 64 (f.mul r x y))
        (fun i => BitVec.ofNat 64 (f.fma .rne (x' i) y (f.mul .rne x (y' i))))
    ∧ gives (.fcmp d a b k w) (flagWord 64 (condHolds k ((f.val x).order (f.val y)))) (fun _ => 0)
    ∧ (s.cur.reg b ≠ 0 → gives (.sel d a b) (s.cur.reg a) (fun i => s.cur.shadow a i))
    ∧ (second = none → s.handlerReady → Completes .dual s fun t => Traps s t .ill 0 s.word)

/-! ### Streams (R238 to R246, R362 to R367, R437) -/

/-- R246, R364 and R365: a stream command whose record and sides pass their checks starts and retires at once: its identifier
holds the command with nothing issued or landed, its bytes join its barrier, and a deferred form stands armed on its term
instead of issued. No register, byte of memory or other cell changes. A busy identifier holds the sequencer. `SUNSEAL` outside
Sealing completes at once with its line pulsed.

R366: `SWAIT` retires once the identifier is free, as an acquire of its writes at the scope of its last stream, and stays
until then. `SCANCEL` of an armed stream frees the identifier, its term and its bytes of the barrier; of one with nothing in
flight, frees it and pulses its line; of one with elements in flight, stops its requests and stays. -/
def Obligations.StreamsStartWaitAndCancel : Prop :=
  (∀ (s : State) (x y z : Reg) (gate : Option Reg) (record : List Byte) (list : Option Word) (cmd cmd' : StreamCmd),
    let n := s.focus.cell
    let c := s.cur
    let ctl := c.reg x
    let st := ctl.toNat % 16
    let term := gate.map fun w => (c.reg w).toNat % 16
    let idle := Map.get? c.streams st = none ∧ ∀ g, term = some g → (c.gate g).armed = none
    let ctlOk := ctl.extractLsb' 16 48 = 0 ∧ ctl.getLsbD 4 = false ∧ (ctl.getLsbD 10 = true → ctl.extractLsb' 5 5 = 0)
    let started (t : State) (k : StreamCmd) :=
      Map.get? t.cur.streams st = some { cmd := { k with serial := c.nextSerial }, armed := term, issued := 0, inflight := []
                                         landed := 0, rows := [], cancelled := false }
      ∧ (∀ j, j ≠ st → Map.get? t.cur.streams j = Map.get? c.streams j)
      ∧ (∀ b, (t.cur.barrier b).p = (c.barrier b).p + if k.bar = some b then k.bytesTo k.count else 0)
      ∧ (∀ g, term = some g → ∃ w, (t.cur.gate g).armed = some (.stream st, w))
      ∧ t.cur = { c with seq := { c.seq with pc := s.nextPc }, streams := t.cur.streams, nextSerial := c.nextSerial + 1
                         barriers := t.cur.barriers, gates := t.cur.gates }
      ∧ SameMemory s t ∧ ∀ m, m ≠ n → t.cell m = s.cell m
    let starts (i : Instr) (op : StreamOp) :=
      (ctlOk → s.quiet → idle → s.readRecord n (ctl.getLsbD 15) (c.reg z) 64 64 = .ok record →
        (if op.listed then ∃ l, s.readRecord n (ctl.getLsbD 15) (c.reg z + 64) 8 8 = .ok l ∧ list = some (BitVec.ofNat 64 (leNat l))
          else list = none) →
        streamCmdOf c op 0 ctl (c.reg y) record list = some cmd → sidesOk cmd 0 = true → s.streamChecks n cmd = .ok cmd' →
        Completes i s fun t => started t cmd')
      ∧ (ctlOk → (∀ g, term = some g → (c.gate g).armed = none) → (Map.get? c.streams st).isSome = true → exec i s = .next s)
    let chunks := (c.reg z).toNat
    let bar := if ctl.getLsbD 10 then none else some ((ctl.toNat / 32) % 32)
    let sealing := ∃ v, s.world? c.ident.world = some v ∧ v.st = .sealing
    starts (.scopy x y z gate) .scopy ∧ starts (.sfeed x y z gate) .sfeed ∧ starts (.sdrain x y z gate) .sdrain
    ∧ starts (.sgath x y z gate) .sgath ∧ starts (.sscat x y z gate) .sscat ∧ starts (.stfill x y z gate) .stfill
    ∧ (ctlOk → ctl.extractLsb' 11 5 = 0 → 1 ≤ chunks → chunks ≤ 4096 → s.quiet → idle →
        (∃ l, s.unsealRange n (c.reg y) chunks = .ok l) →
        (¬ sealing → gate = none → exec (.sunseal x y z gate) s = .next (s.cellStep fun c => c.pulse st))
        ∧ (sealing → c.barOk bar (65536 * chunks) = true →
          Completes (.sunseal x y z gate) s fun t => ∃ k, started t k ∧ k.op = .sunseal ∧ k.other = .mem (c.reg y)
            ∧ k.count = chunks ∧ k.bar = bar)))
  ∧ (∀ (s : State) (st : BitVec 4) (x : StreamSt),
    let c := s.cur
    let k := Map.get? c.streams st.toNat
    (k = none → exec (.swait st) s = .next (if Map.get .cell c.lastScopes st.toNat = .cell then s.withPc s.nextPc
        else s.cellStep fun c => { c with l1 := [] }))
    ∧ (k = some x → exec (.swait st) s = .next s)
    ∧ (k = none → exec (.scancel st) s = .next (s.withPc s.nextPc))
    ∧ (k = some x → x.cmd.snap = none → x.cmd.toPort = false →
        (∀ g, x.armed = some g → Completes (.scancel st) s fun t =>
          Map.get? t.cur.streams st.toNat = none ∧ (t.cur.gate g).armed = none ∧ t.cur.seq = { c.seq with pc := s.nextPc }
          ∧ ∀ b, x.cmd.bar = some b → (c.barrier b).complete = false →
              (t.cur.barrier b).p = (c.barrier b).p - x.cmd.bytesTo x.cmd.count)
        ∧ (x.armed = none → x.inflight = [] → Completes (.scancel st) s fun t =>
          Map.get? t.cur.streams st.toNat = none ∧ t.cur.lineSet st.toNat = true ∧ t.cur.seq = { c.seq with pc := s.nextPc })
        ∧ (x.armed = none → x.inflight ≠ [] →
          exec (.scancel st) s = .next (s.onCur fun c => c.setStream st.toNat { x with cancelled := true }))))

/-- R238, R246 and R437, one step each: a request of the stream whose turn it is at its streamer fetches the next element of
its source; an element of 32 bits that lands in scratch changes its four bytes, lowers the stream's barrier by four, and with
the last one frees the identifier and pulses its line; slots of a FIFO that pre-emption emptied are fetched again and land in
their barrier once more. -/
def Obligations.StreamsMoveTheirElements : Prop :=
  ∀ (s : State) (n st q : Nat) (x : StreamSt) (e : Fetched) (r : List Fetched) (sa : Nat),
    let c := s.cell n
    let runs := c.run = .running ∨ c.run = .halted
    let a := sa + 4 * e.idx
    (runs → Map.get? c.streams st = some x → x.armed = none → x.cancelled = false → x.issued < x.cmd.count → x.cmd.list = none →
      s.lostPage n x.cmd x.issued none = none → s.srcPlaces n x.cmd x.issued none = [] →
      s.nextStream n (st % 2) = some st → ∀ f, s.fetchElem n x.cmd x.issued none = some f →
        (∀ v, x.cmd.op = .stfill → x.cmd.other = .value v → f.bits = v)
        ∧ Completes (.streamRequestIssue n st) s fun t =>
          Map.get? (t.cell n).streams st = some { x with issued := x.issued + 1, inflight := x.inflight ++ [f] }
          ∧ SameMemory s t ∧ (t.cell n).seq = c.seq ∧ (t.cell n).scratch = c.scratch ∧ ∀ m, m ≠ n → t.cell m = s.cell m)
    ∧ (runs → st < 16 → Map.get? c.streams st = some x → x.armed = none → x.cancelled = false → x.inflight = e :: r →
        x.cmd.op = .scopy → x.cmd.other = .scratch sa → x.cmd.half = 8 → x.cmd.shape.tan = false → x.cmd.snap = none →
        s.lostPage n x.cmd e.idx e.row = none → x.landed < x.cmd.count →
        Completes (.streamElementLand n st) s fun t =>
          (∀ j, Map.get 0 (t.cell n).scratch j =
            if a ≤ j ∧ j < a + 4 then e.bits.extractLsb' (8 * (j - a)) 8 else Map.get 0 c.scratch j)
          ∧ (x.landed + 1 < x.cmd.count →
              Map.get? (t.cell n).streams st = some { x with inflight := r, landed := x.landed + 1 })
          ∧ (x.landed + 1 = x.cmd.count → Map.get? (t.cell n).streams st = none ∧ (t.cell n).lineSet st = true)
          ∧ (∀ b, x.cmd.bar = some b → (c.barrier b).complete = false → ((t.cell n).barrier b).p = (c.barrier b).p - 4)
          ∧ SameMemory s t ∧ (t.cell n).seq = c.seq ∧ ∀ m, m ≠ n → t.cell m = s.cell m)
    ∧ ∀ i cmd first rows, runs → c.arb.hole q = none → (c.fifo q).hole = some (i, cmd, first, rows) →
        (∀ j r, rows[j]? = some r → s.srcPlaces n cmd (first + j) r = []) →
        Completes (.fifoRefetch n q) s fun t =>
          ((t.cell n).fifo q).slots = replaceSlots (c.fifo q).slots (s.refetched n cmd first rows) i
          ∧ (∀ b, cmd.bar = some b → (c.barrier b).complete = false →
              ((t.cell n).barrier b).p = (c.barrier b).p - (cmd.bytesTo (first + rows.length) - cmd.bytesTo first))
          ∧ (t.cell n).seq = c.seq ∧ ∀ m, m ≠ n → t.cell m = s.cell m

/-! ### The Arbour (R249 to R257, R368 to R373) -/

/-- R255, R368 to R373: an Arbour operation whose operands pass joins the queue with what it read of its registers and retires;
a ninth holds the sequencer; `MWAIT` retires when the queue is empty. A deferred form is armed on its term. -/
def Obligations.ArbourOperationsQueue : Prop :=
  ∀ (s : State) (t u : BitVec 3) (q : BitVec 2) (y w : Reg) (asel bsel : Bool),
    let c := s.cur
    let a := if asel then 1 else 0
    let b := if bsel then 3 else 2
    let g := (c.reg w).toNat % 16
    let op (k : ArbKind) (tile tile2 a b : Nat) (ctl : Word) : ArbOp :=
      { kind := k, tile := tile, tile2 := tile2, aFifo := a, bFifo := b, ctl := ctl, ftans := [], tw := 0, word := s.word
        serial := 0, started := false, rows := 0, beats := 0, groups := 0, bTaken := 0, shadow := [], eaten := [], bBefore := none }
    let queues (i : Option Reg → Instr) (o : ArbOp) :=
      (c.arb.queue.length < 8 → exec (i none) s = .next (s.cellStep fun c => { c with
        arb := { c.arb with queue := c.arb.queue ++ [{ o with serial := c.nextSerial }] }, nextSerial := c.nextSerial + 1 }))
      ∧ (c.arb.queue.length = 8 → exec (i none) s = .next s)
      ∧ ((c.gate g).armed = none → exec (i (some w)) s = .next (s.cellStep fun c => { c with
        gates := Map.put c.gates g { c.gate g with armed := some (.arb o, s.word) } }))
    (c.productOk false t.toNat 0 a b (c.reg y) = true → queues (.mma t bsel asel y) (op .mma t.toNat 0 a b (c.reg y)))
    ∧ (c.productOk true t.toNat 0 a b (c.reg y) = true → c.groupRows a (ctlM (c.reg y)) ≤ 128 →
        queues (.mmag t bsel asel y) (op .mmag t.toNat 0 a b (c.reg y)))
    ∧ queues (.aclr t) (op .aclr t.toNat 0 0 0 0) ∧ queues (.ascale t y) (op .ascale t.toNat 0 0 0 (c.reg y))
    ∧ queues (.acpy t u) (op .acpy t.toNat u.toNat 0 0 0)
    ∧ (atobOk t (c.reg y) = true → queues (.atob t y)
        (op .atob t.toNat (t.toNat + if fmtBits ((c.reg y).extractLsb' 0 8) = 4 then 1 else 0) 0 0 (c.reg y)))
    ∧ ((c.reg y).toNat ≤ 512 → queues (.bdrop q y) (op .bdrop 0 0 q.toNat 0 (c.reg y)))
    ∧ (c.arb.queue = [] → exec .mwait s = .next (s.withPc s.nextPc)) ∧ (c.arb.queue ≠ [] → exec .mwait s = .next s)

/-- R207 to R211, R249 to R257 and R370 to R372, one step each: the back half takes 96 slots of its FIFO; a product consumes a
row of its A FIFO into its tile row, each element four rounded group sums added in order to what the control word starts with;
the operation at the head completes with its effect on the tiles and pulses `e16`; a residue error ends the context. -/
def Obligations.ArbourOperationsPerform : Prop :=
  ∀ (s : State) (n : Nat) (o : ArbOp) (rest : List ArbOp),
    let c := s.cell n
    let runs := c.run = .running ∨ c.run = .halted
    let elem (c : Cell) (t r k : Nat) := Map.get 0 c.tiles (tileKey t r k)
    let others (d : Cell) (t : Nat) := ∀ t' r k, t' ≠ t → r < 128 → k < 96 → elem d t' r k = elem c t' r k
    let completes (P : Cell → Prop) := Completes (.arbourOpComplete n) s fun u =>
      (u.cell n).arb.queue = rest ∧ (u.cell n).lineSet 16 = true ∧ P (u.cell n) ∧ (u.cell n).seq = c.seq ∧ SameMemory s u
      ∧ ∀ m, m ≠ n → u.cell m = s.cell m
    let f : W32 := o.ctl.setWidth 32
    runs → c.arb.queue = o :: rest → o.tw = 0 → o.ftans = [] →
    (o.kind = .aclr → completes fun d => (∀ r k, r < 128 → k < 96 → elem d o.tile r k = 0) ∧ others d o.tile)
    ∧ (o.kind = .ascale → completes fun d =>
        (∀ r k, r < 128 → k < 96 → elem d o.tile r k = f32Mul (elem c o.tile r k) f) ∧ others d o.tile)
    ∧ (o.kind = .acpy → completes fun d =>
        (∀ r k, r < 128 → k < 96 → elem d o.tile r k = elem c o.tile2 r k) ∧ others d o.tile)
    ∧ (o.kind = .mma → o.rows = ctlM o.ctl → completes fun d => d.tiles = c.tiles)
    ∧ (o.kind = .atob → c.arb.back = none → completes fun d => d.tiles = c.tiles ∧ d.arb.back = some (c.atobHalf o))
    ∧ (o.kind = .bdrop → o.aFifo < 2 → o.ctl.toNat ≤ (c.fifo o.aFifo).slots.length →
        (∀ x ∈ (c.fifo o.aFifo).slots, x.present = true) → completes fun d =>
          (d.fifo o.aFifo).slots = (c.fifo o.aFifo).slots.drop o.ctl.toNat ∧ d.arb.front = c.arb.front)
    ∧ (∀ q taken left, loadFifo c.arb.queue = some q → c.arb.back = none → backFree c.arb.queue = true →
        takeB 96 (c.fifo q).slots = some (taken, left) →
        Completes (.arbourBLoad n q) s fun u =>
          ((u.cell n).fifo q).slots = left ∧ (u.cell n).arb.back.map (·.slots) = some (taken.filter fun x => !x.marker)
          ∧ (u.cell n).tiles = c.tiles ∧ (u.cell n).seq = c.seq)
    ∧ (∀ b x tail, o.kind = .mma → o.bTaken = 1 → o.started = true → c.arb.front = some b → o.rows < ctlM o.ctl → o.rows < 128 →
        (∀ y ∈ b.slots, y.present = true ∧ y.badCode (ctlClass o.ctl) (ctlBovr o.ctl) = none) → b.slots.length = 96 →
        (c.fifo o.aFifo).slots = x :: tail → x.present = true → x.marker = false → x.tangent = false →
        (∀ y ∈ tail, y.tangent = false) → x.badCode (ctlClass o.ctl) (ctlAovr o.ctl) = none →
        Completes (.arbourRowConsume n) s fun u =>
          (∀ k y, k < 96 → b.slots[k]? = some y →
            elem (u.cell n) o.tile o.rows k = accStore o.ctl ((List.range 4).foldl (fun v j =>
              f32Add v (groupSum (x.group (ctlClass o.ctl) (ctlAovr o.ctl) j) (y.group (ctlClass o.ctl) (ctlBovr o.ctl) j)))
              (if ctlZero o.ctl then 0 else if ctlDecay o.ctl then f32Mul (elem c o.tile o.rows k) (ctlFactor o.ctl)
                else elem c o.tile o.rows k)))
          ∧ (∀ t r k, k < 96 → r < 128 → (t ≠ o.tile ∨ r ≠ o.rows) → elem (u.cell n) t r k = elem c t r k)
          ∧ ((u.cell n).fifo o.aFifo).slots = tail ∧ ((u.cell n).arb.queue.head?.map (·.rows)) = some (o.rows + 1))
    ∧ (o.started = true → (Map.get? (s.part (partOfCell n)).ctxs c.ident.ctx).isSome = true → (s.part (partOfCell n)).resetOf = none →
        Completes (.arbourResidueError n) s fun u =>
          Map.get? (u.part (partOfCell n)).ctxs c.ident.ctx = none ∧ Out.msix 0 7 ∈ u.out)

/-! ### Barriers, events and gate terms (R247, R258 to R261, R353, R360, R374 to R376) -/

/-- R247 and R374: `BINIT` writes a barrier that no stream holds; `BARRIVE` lowers A, and the last arrival with no byte
pending completes the barrier and pulses its line; `BEXPECT` adds bytes; `BWAITB` retires on a complete barrier and stays on
another; `BTEST` reads the complete bit; both acquire at the widest scope of the streams that the barrier counts (R186). An
arrival or declaration that the barrier does not allow traps BARRIER.

R258, R259, R375 and R376: the event instructions, each as the exact change of the cell. -/
def Obligations.BarrierAndEventInstructions : Prop :=
  (∀ (s : State) (b : BitVec 5) (x y z : Reg),
    let c := s.cur
    let v := c.barrier b.toNat
    let a := (c.reg y).toNat
    let l := (c.reg z).toNat
    let only (t : State) := t.cur = { c with seq := { c.seq with pc := s.nextPc }, barriers := t.cur.barriers
                                             lines := t.cur.lines, counters := t.cur.counters, l1 := t.cur.l1 }
      ∧ (∀ k, k ≠ b.toNat → t.cur.barrier k = c.barrier k) ∧ SameMemory s t ∧ ∀ m, m ≠ s.focus.cell → t.cell m = s.cell m
    (1 ≤ a → a ≤ 65535 → (l = 0 ∨ (24 ≤ l ∧ l ≤ 31)) → c.barrierBusy b.toNat = false →
      Completes (.binit b y z) s fun t =>
        only t ∧ t.cur.barrier b.toNat = { p := 0, a := a, complete := false, line := if l = 0 then none else some l, scope := .cell }
        ∧ t.cur.lines = c.lines ∧ t.cur.counters = c.counters ∧ t.cur.l1 = c.l1)
    ∧ (s.quiet → v.complete = false → 1 ≤ v.a → Completes (.barrive b none) s fun t =>
        only t ∧ t.cur.barrier b.toNat = { v with a := v.a - 1, complete := decide (v.a = 1 ∧ v.p = 0) }
        ∧ ∀ n, v.line = some n → n < 32 → v.a = 1 → v.p = 0 → t.cur.lineSet n = true)
    ∧ (s.quiet → s.handlerReady → v.complete = true ∨ v.a = 0 → Completes (.barrive b none) s fun t => Traps s t .barrier 0 s.word)
    ∧ (v.complete = false → v.p + (c.reg y).toNat < 2 ^ 56 → Completes (.bexpect b y none) s fun t =>
        only t ∧ t.cur.barrier b.toNat = { v with p := v.p + (c.reg y).toNat, scope := (t.cur.barrier b.toNat).scope })
    ∧ (s.handlerReady → c.reg y ≠ 0 → v.complete = true ∨ 2 ^ 56 ≤ v.p + (c.reg y).toNat →
        Completes (.bexpect b y none) s fun t => Traps s t .barrier 0 s.word)
    ∧ (v.complete = true → exec (.bwaitb b) s = .next (if v.scope = .cell then s.withPc s.nextPc
        else s.cellStep fun c => { c with l1 := [] }))
    ∧ (v.complete = false → exec (.bwaitb b) s = .next s)
    ∧ Completes (.btest x b) s fun t =>
        RegWrite c t.cur x (if v.complete then 1 else 0) ∧ t.cur.seq.pc = s.nextPc ∧ OnlyRegs c.seq t.cur.seq
        ∧ t.cur = { c with seq := t.cur.seq, l1 := if v.complete = true ∧ v.scope ≠ .cell then [] else c.l1 } ∧ OnlyCur s t)
  ∧ (∀ (s : State) (g i : BitVec 4) (e : BitVec 3) (x y z : Reg),
    let c := s.cur
    let w := c.reg x
    let v := c.reg y
    let codes (u : Word) := u.extractLsb' 48 16 = 0 ∧ ∀ j, j < 8 → (u.extractLsb' (6 * j) 6).toNat < 48 ∨ u.extractLsb' (6 * j) 6 = 63
    (codes v → codes (c.reg z) → (c.gate g.toNat).armed = none → exec (.evsetTerm g y z) s = .next (s.cellStep fun c =>
      { c with gates := Map.put c.gates g.toNat { lo := v, hi := c.reg z, armed := none } }))
    ∧ (v.extractLsb' 5 11 = 0 → v.extractLsb' 32 32 = 0 → v.extractLsb' 16 16 ≠ 0 → exec (.evsetCounter i y) s = .next (s.cellStep fun c =>
      { c with counters := Map.put c.counters i.toNat { line := v.toNat % 32, threshold := v.toNat / 2 ^ 16, count := 0 } }))
    ∧ (v.toNat ≤ 1000000 → exec (.evsetTimer y) s = .next (s.cellStep fun c =>
      { c with timer := if v = 0 then none else some (1000 * v.toNat, 0) }))
    ∧ (w.extractLsb' 48 16 = 0 → Completes (.evclr x) s fun t =>
        (∀ n, n < 32 → t.cur.lineSet n = (c.lineSet n && !w.getLsbD n))
        ∧ (∀ k v, Map.get? c.counters k = some v → k < 16 →
            Map.get? t.cur.counters k = some { v with count := if w.getLsbD (32 + k) then 0 else v.count })
        ∧ t.cur = { c with seq := { c.seq with pc := s.nextPc }, lines := t.cur.lines, counters := t.cur.counters } ∧ OnlyCur s t)
    ∧ (Completes (.evfire e none) s fun t =>
        (∀ n, n < 32 → t.cur.lineSet n = (c.lineSet n || n == 24 + e.toNat))
        ∧ (∀ k v, Map.get? c.counters k = some v → Map.get? t.cur.counters k =
            some { v with count := if v.line = 24 + e.toNat then min 65535 (v.count + 1) else v.count })
        ∧ t.cur = { c with seq := { c.seq with pc := s.nextPc }, lines := t.cur.lines, counters := t.cur.counters } ∧ OnlyCur s t)
    ∧ ∃ r : Word, (Completes (.evread x) s fun t => Writes s t x r s.nextPc) ∧ r.extractLsb' 0 32 = c.lines
        ∧ (∀ k, k < 16 → (r.getLsbD (32 + k) = true ↔ ∃ v, Map.get? c.counters k = some v ∧ v.threshold ≤ v.count))
        ∧ r.extractLsb' 48 16 = 0)

/-- R261 and R360: a deferred form whose operands pass is armed on a term that holds nothing, with what it read, and retires. -/
def Obligations.DeferredFormsAreArmed : Prop :=
  ∀ (s : State) (w x y z : Reg) (b : BitVec 5) (e : BitVec 3),
    let c := s.cur
    let g := (c.reg w).toNat % 16
    let arms (i : Instr) (a : Armed) := exec i s = .next (s.cellStep fun c =>
      { c with gates := Map.put c.gates g { c.gate g with armed := some (a, s.word) } })
    let kvm (i : Instr) (op : Nat) := ∀ l, s.access s.focus.cell .kvRecord 64 (c.reg x) none = .ok l → l.cls = .norm →
      arms i (.kvm op (c.reg x))
    let coll (i : Instr) (op : Nat) := ∀ k, s.collCheck s.focus.cell op (c.reg x) = .ok k → arms i (.coll op k.record)
    s.quiet → (c.gate g).armed = none →
    arms (.barrive b (some w)) (.barrive b.toNat) ∧ arms (.bexpect b y (some w)) (.bexpect b.toNat (c.reg y))
    ∧ arms (.evfire e (some w)) (.evfire (24 + e.toNat))
    ∧ (brunOk (c.reg x) (c.reg z) c.ident.tw = true → arms (.brun x y z (some w)) (.brun (c.reg x) (c.reg y) (c.reg z)))
    ∧ kvm (.kvalloc x (some w)) 0 ∧ kvm (.kvapp x (some w)) 1 ∧ kvm (.kvfork x (some w)) 2 ∧ kvm (.kvrel x (some w)) 3
    ∧ kvm (.kvlook x (some w)) 4 ∧ kvm (.kvdraft x (some w)) 5 ∧ kvm (.kvswap x (some w)) 6 ∧ kvm (.kvpfx x (some w)) 7
    ∧ kvm (.kvdrop x (some w)) 8
    ∧ (sopenOperands (c.reg y) (c.reg z) = true → arms (.sopen x y z (some w)) (.sopen (c.reg x) (c.reg y) (c.reg z)))
    ∧ (∀ sa, ssealOperands (c.reg x) (c.reg y) (c.reg z) = true → ssealCheck (c.reg x) (c.reg y) (c.reg z) = .ok sa →
        arms (.sseal x y z (some w)) (.sseal (c.reg x) (c.reg y) (c.reg z)))
    ∧ coll (.car x (some w)) 0 ∧ coll (.cbc x (some w)) 1 ∧ coll (.cag x (some w)) 2
    ∧ (∀ k, s.bkopCheck s.focus.cell (c.reg x) (c.reg y) (c.reg z) = .ok k →
        arms (.bkop x y z (some w)) (.bkop (c.reg x) (c.reg y) (c.reg z)))
    ∧ (∀ k, s.bkredCheck s.focus.cell (c.reg x) (c.reg y) (c.reg z) = .ok k →
        arms (.bkred x y z (some w)) (.bkred (c.reg x) (c.reg y) (c.reg z)))

/-- R260, R261 and R259: at the start of a cycle the turn is that of the lowest term with a true product; the term whose turn
it is fires: its command starts, each line that its true products name falls and each named counter loses its threshold; an
`EVFIRE` on it pulses its line. The timer pulses `e23` and keeps the time past its period. -/
def Obligations.TermsFireAndTheTimerPulses : Prop :=
  ∀ (s : State) (n g line : Nat) (word : W32),
    let c := s.cell n
    let runs := c.run = .running ∨ c.run = .halted
    let v := c.gate g
    (g < 16 → c.gateScan = none → c.trueProducts v ≠ [] → (∀ j, j < g → c.mayFire s.lodgeFree j = false) →
      v.armed = some (.evfire line, word) → c.nextTerm s.lodgeFree = some g)
    ∧ (runs → c.nextTerm s.lodgeFree = some g → v.armed = some (.evfire line, word) → 24 ≤ line → line < 32 →
      Completes (.gateTermFire n g) s fun t =>
        ((t.cell n).gate g = { v with armed := none }) ∧ (t.cell n).lineSet line = true
        ∧ (∀ k, k < 32 → k ≠ line → (t.cell n).lineSet k = (c.lineSet k && !(c.trueProducts v).flatten.contains k))
        ∧ (∀ k u, Map.get? c.counters k = some u → u.line ≠ line → Map.get? (t.cell n).counters k =
            some { u with count := u.count - if (c.trueProducts v).flatten.contains (32 + k) then u.threshold else 0 })
        ∧ (t.cell n).seq = c.seq ∧ SameMemory s t ∧ ∀ m, m ≠ n → t.cell m = s.cell m)
    ∧ (c.trueProducts v = [] → exec (.gateTermFire n g) s = .next s)
    ∧ (∀ p t0, runs → c.timer = some (p, t0) → p ≤ t0 → Completes (.eventTimer n) s fun t =>
        (t.cell n).lineSet 23 = true ∧ (t.cell n).timer = some (p, t0 - p) ∧ (t.cell n).seq = c.seq
        ∧ ∀ m, m ≠ n → t.cell m = s.cell m)

/-! ### The thread phase (R107 to R113, R377, R378) -/

/-- R107 to R109, R228, R377 and R378: `BRUN` starts a phase whose n threads all wait at the entry block, with slot 0 the thread's
number and slot 1 the base; with no thread it is Done and pulses `e18` at once. `BWAIT` waits for a running phase and returns a
finished one to Idle with its errors; `BSTAT` reads an error word; `BKILL` ends a running phase with every unparked thread
parked; `BCFG` unbinds, or binds a good image. -/
def Obligations.PhaseInstructions : Prop :=
  ∀ (s : State) (x y z : Reg),
    let c := s.cur
    let n := c.reg x
    let base := c.reg y
    let flags := c.reg z
    let i := (c.reg y).toNat
    let bound := (Map.get? c.bound (flags.toNat % 64)).isSome = true ∧ ∀ e ∈ c.bound, e.2.slotAbove (flags.toNat / 64 % 64) = false
    (s.quiet → c.phase.st = .idle → brunOk n flags c.ident.tw = true → bound → c.ident.tw ≤ 4 →
      Completes (.brun x y z none) s fun t =>
        t.cur.phase.n = n.toNat ∧ t.cur.phase.st = (if n = 0 then .done else .running) ∧ (n = 0 → t.cur.lineSet 18 = true)
        ∧ (∀ k, k < 4096 → ((t.cur.phase.waitOf (flags.toNat % 64)).getLsbD k = decide (k < n.toNat)))
        ∧ (∀ k, k < n.toNat → (t.cur.liveSlot k 0).head? = some (BitVec.ofNat 32 k)
            ∧ (t.cur.liveSlot k 1).head? = some (base.setWidth 32))
        ∧ t.cur.seq = { c.seq with pc := s.nextPc } ∧ t.cur.scratch = c.scratch ∧ SameMemory s t
        ∧ ∀ m, m ≠ s.focus.cell → t.cell m = s.cell m)
    ∧ (c.phase.st = .running → exec (.bwait x) s = .next s)
    ∧ (c.phase.st = .idle → Completes (.bwait x) s fun t => Writes s t x 0 s.nextPc)
    ∧ (c.phase.st = .done → Completes (.bwait x) s fun t =>
        RegWrite c t.cur x (BitVec.ofNat 64 c.phase.errs) ∧ t.cur.seq.pc = s.nextPc ∧ OnlyRegs c.seq t.cur.seq
        ∧ t.cur = { c with seq := t.cur.seq, phase := { c.phase with st := .idle } } ∧ OnlyCur s t)
    ∧ (i ≤ 4095 → Completes (.bstat x y) s fun t => Writes s t x ((Map.get 0 c.phase.errWord i).setWidth 64) s.nextPc)
    ∧ (4095 < i → s.handlerReady → Completes (.bstat x y) s fun t => Traps s t .combo 0 s.word)
    ∧ (c.phase.st ≠ .running → exec .bkill s = .next (s.withPc s.nextPc))
    ∧ (c.phase.st = .running → c.phase.n ≤ 4096 → Completes .bkill s fun t =>
        t.cur.phase.st = .done ∧ t.cur.phase.unparked = [] ∧ t.cur.phase.errs = c.phase.errs ∧ t.cur.fabric.passes = []
        ∧ t.cur.fabric.links = [] ∧ t.cur.fabric.sq = [] ∧ t.cur.lineSet 18 = true ∧ t.cur.seq = { c.seq with pc := s.nextPc }
        ∧ SameMemory s t ∧ ∀ m, m ≠ s.focus.cell → t.cell m = s.cell m)
    ∧ (c.phase.st ≠ .running → n.toNat < 64 → base.toNat = 2 ^ 63 → exec (.bcfg x y) s = .next (s.cellStep fun c =>
        { c with bound := Map.erase c.bound n.toNat }))
    ∧ (∀ pk bytes m, c.phase.st ≠ .running → n.toNat < 64 → base.toNat < 2 ^ 32 → s.ownPackage c (base.setWidth 32) = some pk →
        pk.blocks[base.toNat % 2 ^ 16]? = some bytes → pk.blocksOk = true → parseImage (base.setWidth 32) bytes = some m →
        m.ok c.ident.tw = true → m.block = n.toNat → Completes (.bcfg x y) s fun t =>
          t.cur.bound = Map.put c.bound n.toNat m ∧ t.cur.cacheHas m.ident = true ∧ t.cur.seq = { c.seq with pc := s.nextPc }
          ∧ SameMemory s t)

/-! ### Map commands, sessions, meters and weight sets (R379 to R386, R392) -/

/-- R379: a KVM instruction whose record address passes queues its command at the world's Espalier and retires. R383 to R386:
`SOPEN` of a fresh record writes the plaintext and OK when the tag agrees, else TAG and no plaintext; `SSEAL` puts a prompt
reply in the ring and keeps a certified one, and answers CLOSED for a closed session; both answer BUSY with the time left, and
change nothing else, while another request holds the session's lock (R65; how long one holds it is free, log 23); `SMETER`
counts a report; `SEPOCH` reads the highest epoch closed clean, or all ones. R392: a pin holds the current generation of its
set. -/
def Obligations.MapSessionAndWeightInstructions : Prop :=
  ∀ (s : State) (x y z : Reg) (v : World) (l : Loc) (q : Session) (sa : Nat),
    let n := s.focus.cell
    let c := s.cur
    let w := c.ident.world
    let rx := c.reg x
    let ry := c.reg y
    let rz := c.reg z
    let set := ry.toNat
    let current := if Map.get? v.current set = none then (0x8000000000000002 : Word)
      else BitVec.ofNat 64 (Map.get 0 v.current set)
    let request (op : Nat) : KvReq :=
      { src := .cell n c.ident.launch, op := some op, addr := rx, part := c.ident.part, ctx := c.ident.ctx }
    let kvm (i : Instr) (op : Nat) := s.quiet → s.access n .kvRecord 64 rx none = .ok l → l.cls = .norm →
      Completes i s fun t =>
        (∃ u, t.world? w = some u ∧ u.kvq = v.kvq ++ [request op])
        ∧ t.cur = { c with seq := { c.seq with pc := s.nextPc }, kvm := c.kvm ++ [{ op := op, addr := rx }] }
        ∧ SameMemory s t ∧ ∀ m, m ≠ n → t.cell m = s.cell m
    let word (u t : State) (st : Status) (detail : Nat) := t.cur.lineSet 19 = true ∧ t.cur.seq = { u.cur.seq with pc := u.nextPc }
      ∧ t.cur.scratchRead sa 8 = leBytes 4 st.code ++ leBytes 4 detail
    let len := leNat (s.vaBytes w (rx.toNat + 16) 4)
    let got := s.unitRead c.ident.part c.ident.ctx w rx.toNat (48 + len)
    let dest := ry.toNat % 2 ^ 20
    let h := ry.toNat / 2 ^ 32 % 2 ^ 16
    let ctr := leAt got.2 8 8
    let key := requestKey (q.keys.getD [])
    let body := (got.2.drop 32).take len
    let opened := gcmOpen key (2 ^ 64 + ctr) (got.2.take 32) body (BitVec.ofNat 128 (leAt got.2 (32 + len) 16))
    let sh := rx.toNat / 2 ^ 32 % 2 ^ 16
    let plain := c.scratchRead ry.toNat (rx.toNat % 2 ^ 21)
    let seals := s.quiet ∧ s.lodgeFree = true ∧ ssealOperands rx ry rz = true ∧ ssealCheck rx ry rz = .ok sa
      ∧ s.openSession? w sh = some (v, q) ∧ q.lock ≤ s.timebase ∧ v.held = false ∧ plain.length + 48 ≤ q.slotSize
    s.world? w = some v →
    kvm (.kvalloc x none) 0 ∧ kvm (.kvapp x none) 1 ∧ kvm (.kvfork x none) 2 ∧ kvm (.kvrel x none) 3 ∧ kvm (.kvlook x none) 4
    ∧ kvm (.kvdraft x none) 5 ∧ kvm (.kvswap x none) 6 ∧ kvm (.kvpfx x none) 7 ∧ kvm (.kvdrop x none) 8
    ∧ (s.quiet → s.lodgeFree = true → sopenOperands ry rz = true → s.sopenCheck n rx rz = .ok sa → got.1.cur.run ≠ .idle →
        got.1.openSession? w h = some (v, q) → q.lock ≤ got.1.timebase →
        v.held = false → q.reqCtr < ctr → ctr < 2 ^ 63 → leAt got.2 16 4 = len → 1 ≤ len →
        dest + len ≤ 0x100000 →
        sa + 8 ≤ dest ∨ dest + len ≤ sa →
        Completes (.sopen x y z none) s fun t =>
          (∀ p, opened = some p → word got.1 t .ok len
            ∧ (∃ d, got.1.timebase ≤ d ∧ (t.openSession? w h).map (·.2) = some { q with reqCtr := ctr, lock := d })
            ∧ t.cur.scratchRead dest len = p)
          ∧ (opened = none → word got.1 t .tag 0 ∧ t.cur.scratchRead dest len = got.1.cur.scratchRead dest len))
    ∧ (s.quiet → s.lodgeFree = true → sopenOperands ry rz = true → s.sopenCheck n rx rz = .ok sa → got.1.cur.run ≠ .idle →
        got.1.openSession? w h = some (v, q) → got.1.timebase < q.lock →
        Completes (.sopen x y z none) s fun t => word got.1 t .busy ((q.lock - got.1.timebase + 999) / 1000)
          ∧ t.worlds = got.1.worlds ∧ SameMemory got.1 t)
    ∧ (s.quiet → s.lodgeFree = true → ssealOperands rx ry rz = true → ssealCheck rx ry rz = .ok sa → s.openSession? w sh = some (v, q) →
        s.timebase < q.lock → Completes (.sseal x y z none) s fun t =>
          word s t .busy ((q.lock - s.timebase + 999) / 1000) ∧ t.worlds = s.worlds ∧ SameMemory s t)
    ∧ (seals → rx.toNat / 2 ^ 48 % 4 = 1 → q.held.length < 64 → Completes (.sseal x y z none) s fun t =>
        word s t .ok ((q.repCtr + 1) % 2 ^ 32) ∧ SameMemory s t
        ∧ ∃ u p, t.openSession? w sh = some (u, p) ∧ p.repCtr = q.repCtr + 1 ∧ p.produced = q.produced
            ∧ p.held.length = q.held.length + 1)
    ∧ (seals → rx.toNat / 2 ^ 48 % 4 = 0 → (v.bundle.map (·.floor)).getD 0 ≠ 1 → q.produced - s.ringConsumed v.vf q < q.slots →
        Completes (.sseal x y z none) s fun t =>
          word s t .ok ((q.repCtr + 1) % 2 ^ 32)
          ∧ ∃ u p, t.openSession? w sh = some (u, p) ∧ p.repCtr = q.repCtr + 1 ∧ p.produced = q.produced + 1 ∧ p.held = q.held)
    ∧ (s.quiet → s.lodgeFree = true → ssealOperands rx ry rz = true → ssealCheck rx ry rz = .ok sa → s.openSession? w sh = none →
        Completes (.sseal x y z none) s fun t => word s t .closed 0 ∧ SameMemory s t)
    ∧ (Completes .smeter s fun t =>
        t.cur.seq = { c.seq with pc := s.nextPc } ∧ t.cur.lineSet 19 = true
        ∧ (10 ≤ (s.part (partOfCell n)).committed.length →
            (t.part (partOfCell n)).committed.getD 9 0 = min (2 ^ 64 - 1) ((s.part (partOfCell n)).committed.getD 9 0 + 1)))
    ∧ (Completes (.sepoch x) s fun t =>
        RegWrite c t.cur x (match v.clean with | some e => BitVec.ofNat 64 e | none => BitVec.allOnes 64)
        ∧ t.cur.seq.pc = s.nextPc ∧ t.cur.lineSet 19 = true ∧ SameMemory s t)
    ∧ (set ≤ 15 → Completes (.wgen x y) s fun t => Writes s t x current s.nextPc)
    ∧ (set ≤ 15 → (∀ p ∈ c.pins, p.1 ≠ set) → Completes (.wpin x y) s fun t =>
        RegWrite c t.cur x current ∧ t.cur.seq.pc = s.nextPc ∧ OnlyRegs c.seq t.cur.seq ∧ OnlyCur s t
        ∧ t.cur = { c with seq := t.cur.seq, pins := t.cur.pins }
        ∧ t.cur.pins = c.pins ++ (if Map.get? v.current set = none then [] else [(set, Map.get 0 v.current set)]))
    ∧ (rx.toNat ≤ 15 → (∃ p ∈ c.pins, p.1 = rx.toNat) → Completes (.wunpin x) s fun t =>
        t.cur = { c with seq := { c.seq with pc := s.nextPc }, pins := c.pins.filter fun p => p.1 != rx.toNat } ∧ SameMemory s t)

/-! ### Collectives and bank commands (R139, R387 to R391) -/

/-- R388 to R391: a collective whose record passes becomes the cell's, with its contribution read, and retires; `CWAIT` waits for
it and then reads its status, 0 if there was none; a bank command whose ranges pass joins the cell's queue and retires.

R388, R389 and R391: a collective whose tag is held completes BUSY, and one of this module alone writes the reduction of its own
contribution; a bank command performs one of its lines: the last line of a `BKRED` writes the combined words of the range, in
64 bits, to scratch and pulses `e22`. -/
def Obligations.CollectivesAndBankCommands : Prop :=
  (∀ (s : State) (x y z : Reg),
    let n := s.focus.cell
    let c := s.cur
    let coll (i : Instr) (op : Nat) := ∀ k : CollCmd, s.quiet → c.coll = none → s.collCheck n op (c.reg x) = .ok k →
      collFlags k.record % 2 = 1 → Completes i s fun t =>
        t.cur = { c with seq := { c.seq with pc := s.nextPc }
                         coll := some { k with refused := s.tagHeld n c.ident (collTag k.record) } }
        ∧ OnlyCur s t ∧ k.op = op ∧ k.src = c.scratchRead (collSrc k.record).toNat (collBytes k.record)
    let bank (i : Instr) (r : Chk BankCmd) := ∀ k : BankCmd, s.quiet → c.bank.length < 16 → r = .ok k →
      exec i s = .next (s.cellStep fun c => { c with bank := c.bank ++ [k] })
    coll (.car x none) 0 ∧ coll (.cbc x none) 1 ∧ coll (.cag x none) 2
    ∧ (c.coll.isSome = true → exec (.cwait x) s = .next s)
    ∧ (c.coll = none → Completes (.cwait x) s fun t =>
        RegWrite c t.cur x (match c.collStatus with | some st => BitVec.ofNat 64 st.code | none => 0)
        ∧ t.cur.seq.pc = s.nextPc ∧ t.cur.l1 = [] ∧ SameMemory s t)
    ∧ bank (.bkop x y z none) (s.bkopCheck n (c.reg x) (c.reg y) (c.reg z))
    ∧ bank (.bkred x y z none) (s.bkredCheck n (c.reg x) (c.reg y) (c.reg z)))
  ∧ (∀ (s : State) (n : Nat) (parts : List RelayPart) (k : CollCmd) (b : BankCmd) (pa : Nat) (v : W32),
    let c := s.cell n
    (c.coll = some k → c.run ≠ .idle → k.refused = true → Completes (.collectiveComplete n parts) s fun t =>
      (t.cell n).coll = none ∧ (t.cell n).collStatus = some .busy ∧ (t.cell n).lineSet 21 = true ∧ (t.cell n).seq = c.seq
      ∧ SameMemory s t)
    ∧ (c.coll = some k → c.run ≠ .idle → k.refused = false → s.collOthers k = [] → k.destScr = true →
        Completes (.collectiveComplete n parts) s fun t =>
          (t.cell n).coll = none ∧ (t.cell n).collStatus = some .ok ∧ (t.cell n).lineSet 21 = true
          ∧ (t.cell n).scratch = Map.setList 0 c.scratch k.destAddr (collResult k.op (collRoot k.record) (collOpByte k.record / 16)
              (collOpByte k.record % 16) (s.collInputs k parts))
          ∧ (t.cell n).seq = c.seq ∧ SameMemory s t)
    ∧ (c.run = .running → c.bank = [b] → b.red = true → b.ty = 1 → b.lines = [(0, [(pa, v)])] → b.parts = [] → s.lineReady pa →
        paModule pa = s.pod.self → Completes (.bankOperation n) s fun t =>
          (t.cell n).bank = [] ∧ (t.cell n).lineSet 22 = true ∧ SameMemory s t ∧ (t.cell n).seq = c.seq
          ∧ ∀ j, Map.get 0 (t.cell n).scratch j = if b.dest ≤ j ∧ j < b.dest + 8
              then (if j < b.dest + 4 then readMem s.mem (pa + (j - b.dest)) else 0) else Map.get 0 c.scratch j)
    ∧ (c.run = .running → c.bank = [b] → b.red = false → b.op = 0 → b.lines = [(0, [(pa, v)])] → s.lineReady pa →
        paModule pa = s.pod.self → Completes (.bankOperation n) s fun t =>
          (t.cell n).bank = [] ∧ (t.cell n).lineSet 22 = true ∧ (t.cell n).seq = c.seq
          ∧ leNat (readBytes t.mem pa 4) = (leNat (readBytes s.mem pa 4) + v.toNat) % 2 ^ 32
          ∧ ∀ a, a < pa ∨ pa + 4 ≤ a → readMem t.mem a = readMem s.mem a))

/-! ### Elements of the grid (R397 to R407) -/

/-- R397: `MOV` and `SEL` pass a value with its tangents when D is set on f32, `CONST` its immediate, `TID` the thread's
number. -/
def Obligations.ElementMoves : Prop :=
  ∀ (s : State) (r : ElemRec) (a : At) (ts : List (Nat × Tok)),
    let x := a.input ts
    let tw := s.cur.ident.tw
    let tans (f : Nat → W32) := if r.d = true ∧ r.ty = .f32 then tabulate tw f else List.replicate tw 0
    let gives (i : ElemRec → Instr) (op : BitVec 7) (v : W32) (f : Nat → W32) := Fires s op r a ts →
      Completes (i r) s fun t => Yields s t a x.thread v (tans f)
    gives .elemMov 0x01 x.a.v x.a.tan ∧ gives .elemConst 0x02 x.b.v (fun _ => 0)
    ∧ gives .elemTid 0x03 (BitVec.ofNat 32 x.thread) (fun _ => 0)
    ∧ (x.a.v ≠ 0 → gives .elemSel 0x1B x.b.v x.b.tan) ∧ (x.a.v = 0 → gives .elemSel 0x1B x.c.v x.c.tan)

/-- R398 to R400: the integer operations lane by lane, exact and then wrapped or, with variant 1, saturated to the lane's
type; the bitwise operations on the word. Their tangents are zero. -/
def Obligations.ElementIntegerResults : Prop :=
  ∀ (s : State) (r : ElemRec) (a : At) (ts : List (Nat × Tok)),
    let x := a.input ts
    let w := laneBits r.ty
    let signed := laneSigned r.ty
    let int (n : Nat) : Int := if signed ∧ 2 ^ (w - 1) ≤ n then (n : Int) - 2 ^ w else n
    let lo : Int := if signed then -(2 ^ (w - 1)) else 0
    let hi : Int := if signed then 2 ^ (w - 1) - 1 else 2 ^ w - 1
    let wrap (n : Int) : Nat := (n % 2 ^ w).toNat
    let fit (n : Int) : Nat := wrap (if r.var = 1 then max lo (min hi n) else n)
    let zeros := List.replicate s.cur.ident.tw (0 : W32)
    let lane (v : W32) (k : Nat) : Nat := v.toNat / 2 ^ (w * k) % 2 ^ w
    let lanes (i : ElemRec → Instr) (op : BitVec 7) (f : Nat → Nat → Nat → Nat) := Fires s op r a ts →
      Completes (i r) s fun t => ∃ v, Yields s t a x.thread v zeros
        ∧ ∀ k, k < 32 / w → lane v k = f (lane x.a.v k) (lane x.b.v k) (lane x.c.v k)
    let word (i : ElemRec → Instr) (op : BitVec 7) (v : W32) := Fires s op r a ts →
      Completes (i r) s fun t => Yields s t a x.thread v zeros
    lanes .elemAdd 0x08 (fun p q _ => fit (int p + int q)) ∧ lanes .elemSub 0x09 (fun p q _ => fit (int p - int q))
    ∧ lanes .elemMul 0x0A (fun p q _ => fit (int p * int q)) ∧ lanes .elemMulhi 0x0B (fun p q _ => wrap (int p * int q / 2 ^ w))
    ∧ lanes .elemMad 0x0C (fun p q z => fit (int p * int q + int z))
    ∧ lanes .elemMin 0x0D (fun p q _ => if int p ≤ int q then p else q)
    ∧ lanes .elemMax 0x0E (fun p q _ => if int p ≤ int q then q else p)
    ∧ lanes .elemAbs 0x0F (fun p _ _ => fit (int p).natAbs) ∧ lanes .elemNeg 0x10 (fun p _ _ => fit (-int p))
    ∧ word .elemAnd 0x11 (x.a.v &&& x.b.v) ∧ word .elemOr 0x12 (x.a.v ||| x.b.v) ∧ word .elemXor 0x13 (x.a.v ^^^ x.b.v)
    ∧ lanes .elemShl 0x14 (fun p q _ => fit (int p * 2 ^ (q % w))) ∧ lanes .elemShr 0x15 (fun p q _ => p / 2 ^ (q % w))
    ∧ lanes .elemSha 0x16 (fun p q _ => wrap (int p / 2 ^ (q % w)))
    ∧ lanes .elemClz 0x17 (fun p _ _ => if p = 0 then w else w - 1 - Nat.log2 p)
    ∧ lanes .elemPopc 0x18 (fun p _ _ => ((List.range w).filter fun i => p.testBit i).length)
    ∧ (r.ty = .n32 → word .elemBfx 0x19
        (BitVec.ofNat 32 (x.a.v.toNat / 2 ^ (x.b.v.toNat % 32) % 2 ^ min 32 (x.c.v.toNat % 64))))
    ∧ (r.ty = .i32 → word .elemBfx 0x19 (let n := min 32 (x.c.v.toNat % 64)
        let v := (x.a.v.toInt / 2 ^ (x.b.v.toNat % 32) % 2 ^ n).toNat
        BitVec.ofInt 32 (if n ≠ 0 ∧ 2 ^ (n - 1) ≤ v then (v : Int) - 2 ^ n else v)))
    ∧ (r.var = 0 → lanes .elemCmp 0x1A (fun p q _ =>
        match r.lvl with
        | 0 => if p = q then 1 else 0
        | 1 => if p = q then 0 else 1
        | 2 => if int p < int q then 1 else 0
        | _ => if int p ≤ int q then 1 else 0))
    ∧ (r.var = 1 → lanes .elemCmp 0x1A (fun p q _ =>
        match r.lvl with
        | 0 => if int q < int p then 1 else 0
        | 1 => if int q ≤ int p then 1 else 0
        | 2 => 0
        | _ => 1))

/-- R401, R402, R211 and R212 in f32: each floating operation rounds one exact value in the mode of its variant, and with D
set its tangents follow R212; the bf16 lanes act alike on the codes of bf16. That `FMIN` and `FMAX` give the tangent of a where both
are NaN or the values are equal, and that sign operations keep the payload of a NaN, are the model's readings (log 17). -/
def Obligations.ElementFloatResults : Prop :=
  ∀ (s : State) (r : ElemRec) (a : At) (ts : List (Nat × Tok)),
    let x := a.input ts
    let tw := s.cur.ident.tw
    let m := elemRnd r
    let tans (f : Nat → W32) := if r.d = true ∧ r.ty = .f32 then tabulate tw f else List.replicate tw 0
    let av := x.a.v
    let bv := x.b.v
    let cv := x.c.v
    let A := f32Val av
    let B := f32Val bv
    let C := f32Val cv
    let a' := x.a.tan
    let b' := x.b.tan
    let c' := x.c.tan
    let gives (i : ElemRec → Instr) (op : BitVec 7) (v : W32) (f : Nat → W32) := r.ty = .f32 → Fires s op r a ts →
      Completes (i r) s fun t => Yields s t a x.thread v (tans f)
    let lane (v : W32) (k : Nat) : Nat := v.toNat / 2 ^ (16 * k) % 2 ^ 16
    let halves (i : ElemRec → Instr) (op : BitVec 7) (f : Val → Val → Val → Val) := r.ty = .bf16x2 → Fires s op r a ts →
      Completes (i r) s fun t => ∃ v, Yields s t a x.thread v (List.replicate tw 0) ∧ ∀ k, k < 2 → lane v k =
        bf16F.round m (f (bf16F.val (lane av k)) (bf16F.val (lane bv k)) (bf16F.val (lane cv k)))
    let codes (i : ElemRec → Instr) (op : BitVec 7) (f : Nat → Nat → Nat) := r.ty = .bf16x2 → Fires s op r a ts →
      Completes (i r) s fun t => ∃ v, Yields s t a x.thread v (List.replicate tw 0) ∧ ∀ k, k < 2 → lane v k = f (lane av k) (lane bv k)
    let order := A.order B
    let below (p q : Val) : Prop := p.order q = .lt ∨ (p.order q = .eq ∧ p.sign = true ∧ q.sign = false)
    let pick (f : FFmt) (better : Val → Val → Prop) (p q w : Nat) : Prop :=
      (f.val p = .nan → f.val q = .nan → w = f.nanCode) ∧ (f.val p = .nan → f.val q ≠ .nan → w = q)
      ∧ (f.val p ≠ .nan → f.val q = .nan → w = p)
      ∧ (f.val p ≠ .nan → f.val q ≠ .nan → w = p ∨ w = q)
      ∧ (better (f.val p) (f.val q) → w = p) ∧ (better (f.val q) (f.val p) → w = q)
    let picks (i : ElemRec → Instr) (op : BitVec 7) (better : Val → Val → Prop) := Fires s op r a ts →
      (r.ty = .f32 → Completes (i r) s fun t => ∃ v, Yields s t a x.thread v (tans fun k =>
          if order = .eq ∨ B = .nan then a' k else if A = .nan ∨ v ≠ av then b' k else a' k) ∧ pick f32F better av.toNat bv.toNat v.toNat)
      ∧ (r.ty = .bf16x2 → Completes (i r) s fun t => ∃ v, Yields s t a x.thread v (List.replicate tw 0)
          ∧ ∀ k, k < 2 → pick bf16F better (lane av k) (lane bv k) (lane v k))
    picks .elemFmin 0x24 below ∧ picks .elemFmax 0x25 (fun p q => below q p)
    ∧ codes .elemFabs 0x26 (fun p _ => p % 2 ^ 15) ∧ codes .elemFneg 0x27 (fun p _ => if p < 2 ^ 15 then p + 2 ^ 15 else p - 2 ^ 15)
    ∧ codes .elemFcmp 0x28 (fun p q => if condHolds (elemCond r) ((bf16F.val p).order (bf16F.val q)) then 1 else 0)
    ∧ gives .elemFadd 0x20 (f32Of m (A.add m B)) (fun k => f32Add (a' k) (b' k))
    ∧ gives .elemFsub 0x21 (f32Of m (A.add m B.neg)) (fun k => f32Of .rne ((f32Val (a' k)).add .rne (f32Val (b' k)).neg))
    ∧ gives .elemFmul 0x22 (f32Of m (A.mul B)) (fun k => f32Fma (a' k) bv (f32Mul av (b' k)))
    ∧ gives .elemFma 0x23 (f32Of m (A.fma m B C)) (fun k => f32Fma (a' k) bv (f32Fma av (b' k) (c' k)))
    ∧ (order = .lt → gives .elemFmin 0x24 av a' ∧ gives .elemFmax 0x25 bv b')
    ∧ (order = .gt → gives .elemFmin 0x24 bv b' ∧ gives .elemFmax 0x25 av a')
    ∧ gives .elemFabs 0x26 (av &&& 0x7FFFFFFF) (fun k => if av.msb then a' k ^^^ 0x80000000 else a' k)
    ∧ gives .elemFneg 0x27 (av ^^^ 0x80000000) (fun k => a' k ^^^ 0x80000000)
    ∧ gives .elemFcmp 0x28 (if condHolds (elemCond r) order then 1 else 0) (fun _ => 0)
    ∧ gives .elemRcp 0x29 (f32Of m (Val.div (.fin false 1 0) A)) (tanRcp (f32Of m (Val.div (.fin false 1 0) A)) <| a' ·)
    ∧ gives .elemSqrt 0x2A (f32Of m A.sqrt)
        (fun k => f32Of .rne ((f32Val (a' k)).div ((f32Val (f32Of m A.sqrt)).scale 1)))
    ∧ gives .elemRsq 0x2B (f32Of m A.rsqrt) (tanRsq (f32Of m A.rsqrt) <| a' ·)
    ∧ gives .elemExp2 0x2C (f32Exp2 m av) (fun k => f32Mul (f32Mul (f32Exp2 m av) (a' k)) 0x3F317218)
    ∧ gives .elemLog2 0x2D (f32Log2 m av) (tanLog2 av <| a' ·) ∧ gives .elemTanh 0x2E (f32Tanh m av) (tanTanh (f32Tanh m av) <| a' ·)
    ∧ gives .elemSin 0x2F (f32SinCos false m av) (fun k => f32Mul (f32SinCos true .rne av) (a' k))
    ∧ gives .elemCos 0x30 (f32SinCos true m av) (tanCos av <| a' ·)
    ∧ halves .elemFadd 0x20 (fun p q _ => p.add m q) ∧ halves .elemFsub 0x21 (fun p q _ => p.add m q.neg)
    ∧ halves .elemFmul 0x22 (fun p q _ => p.mul q) ∧ halves .elemFma 0x23 (fun p q z => p.fma m q z)

/-- R403 to R405: conversion to a format or from an integer lane, packing, unpacking, quantisation and its inverse, each with one
rounding; a conversion between floating formats and the quantisations pass the tangents. -/
def Obligations.ElementConversions : Prop :=
  ∀ (s : State) (r : ElemRec) (a : At) (ts : List (Nat × Tok)),
    let x := a.input ts
    let tw := s.cur.ident.tw
    let av := x.a.v
    let bv := x.b.v
    let m := elemRnd r
    let bits := fmtBits r.imm8
    let tans (f : Nat → W32) := if r.d = true ∧ r.ty = .f32 then tabulate tw f else List.replicate tw 0
    let gives (i : ElemRec → Instr) (op : BitVec 7) (v : W32) (f : Nat → W32) := Fires s op r a ts →
      Completes (i r) s fun t => Yields s t a x.thread v (tans f)
    (r.ty = .f32 → gives .elemCvt 0x38 (BitVec.ofNat 32 (encodeFmt r.imm8 m (r.lvl == 1) (f32Val av)))
        (fun k => if fmtFamily r.imm8 = .integer then 0 else x.a.tan k))
    ∧ (r.ty = .i32 → gives .elemCvt 0x38 (f32Of m (intVal av.toInt)) (fun _ => 0))
    ∧ (r.ty = .n32 → gives .elemCvt 0x38 (f32Of m (intVal av.toNat)) (fun _ => 0))
    ∧ (r.ty = .bf16x2 → gives .elemCvt 0x38 (av <<< 16) (fun _ => 0))
    ∧ (r.ty = .i16x2 → gives .elemCvt 0x38 (f32Of m (intVal (av.setWidth 16).toInt)) (fun _ => 0))
    ∧ (r.ty = .i8x4 → gives .elemCvt 0x38 (f32Of m (intVal (av.setWidth 8).toInt)) (fun _ => 0))
    ∧ (r.ty = .n8x4 → gives .elemCvt 0x38 (f32Of m (intVal (av.setWidth 8).toNat)) (fun _ => 0))
    ∧ gives .elemPack 0x39 (BitVec.ofNat 32 (bv.toNat * 2 ^ bits + encodeFmt r.imm8 .rne false (f32Val av))) (fun _ => 0)
    ∧ gives .elemUnpk 0x3A (f32Of .rne (decodeFmt r.imm8 (av.toNat % 2 ^ bits))) (fun _ => 0)
    ∧ gives .elemQnt 0x3B (BitVec.ofNat 32 (encodeFmt r.imm8 m (r.lvl == 1) ((f32Val av).scale (-bv.toInt)))) x.a.tan
    ∧ gives .elemDqnt 0x3C (f32Of m ((decodeFmt r.imm8 (av.toNat % 2 ^ bits)).scale bv.toInt)) x.a.tan

/-- R406, R407 and R216: a reduction takes its token into the carry, from the first one on; `LVL` passes its token and, for one
that is not zero, owes a marker of its level; a route passes the head of its input unchanged. -/
def Obligations.ReductionsMarkersAndRoutes : Prop :=
  ∀ (s : State) (r : ElemRec) (a : At) (ts : List (Nat × Tok)),
    let x := a.input ts
    let v := x.a.v
    let old := s.cur.carry a.site
    let reduces (i : ElemRec → Instr) (op : BitVec 7) (value : W32) := Fires s op r a ts → Completes (i r) s fun t =>
      (t.cur.carry a.site).val = value ∧ (t.cur.carry a.site).empty = false ∧ (t.cur.carry a.site).thread = x.thread
      ∧ t.cur = { s.cur with fabric := t.cur.fabric } ∧ OnlyCur s t
    let ov := f32Val old.val
    let nv := f32Val v
    let larger := if r.ty = .f32 then (f32Val old.val).order (f32Val v) = .lt
      else if r.ty = .i32 then old.val.toInt < v.toInt else old.val.toNat < v.toNat
    let smaller := if r.ty = .f32 then (f32Val old.val).order (f32Val v) = .gt
      else if r.ty = .i32 then v.toInt < old.val.toInt else v.toNat < old.val.toNat
    (old.empty = true → reduces .elemRsum 0x40 v ∧ reduces .elemRmax 0x41 v ∧ reduces .elemRmin 0x42 v
      ∧ reduces .elemRcnt 0x43 (if v = 0 then 0 else 1))
    ∧ (old.empty = false → reduces .elemRsum 0x40 (if r.ty = .f32 then f32Add old.val v else old.val + v)
      ∧ reduces .elemRcnt 0x43 (if v = 0 then old.val else old.val + 1))
    ∧ (old.empty = false → r.ty = .f32 ∨ r.ty = .i32 ∨ r.ty = .n32 →
      (larger → reduces .elemRmax 0x41 v) ∧ (smaller → reduces .elemRmax 0x41 old.val)
      ∧ (smaller → reduces .elemRmin 0x42 v) ∧ (larger → reduces .elemRmin 0x42 old.val))
    ∧ (old.empty = false → r.ty = .i32 ∨ r.ty = .n32 → old.val = v → reduces .elemRmax 0x41 v ∧ reduces .elemRmin 0x42 v)
    ∧ (old.empty = false → r.ty = .f32 →
      (ov = .nan → nv ≠ .nan → reduces .elemRmax 0x41 v ∧ reduces .elemRmin 0x42 v)
      ∧ (nv = .nan → reduces .elemRmax 0x41 old.val ∧ reduces .elemRmin 0x42 old.val)
      ∧ (ov.order nv = .eq → ov.sign = nv.sign → reduces .elemRmax 0x41 old.val ∧ reduces .elemRmin 0x42 old.val)
      ∧ (ov.order nv = .eq → ov.sign = true → nv.sign = false → reduces .elemRmax 0x41 v ∧ reduces .elemRmin 0x42 old.val)
      ∧ (ov.order nv = .eq → ov.sign = false → nv.sign = true → reduces .elemRmax 0x41 old.val ∧ reduces .elemRmin 0x42 v))
    ∧ (old.empty = true → Fires s 0x44 r a ts → Completes (.elemLvl r) s fun t =>
      Yields s t a x.thread v (List.replicate s.cur.ident.tw 0)
      ∧ (v = 0 → (t.cur.carry a.site).empty = true)
      ∧ (v ≠ 0 → (t.cur.carry a.site).empty = false ∧ (t.cur.carry a.site).val = r.lvl.setWidth 32))
    ∧ ∀ (p : Pass) (y : SiteRec) (d k l : Nat) (tok : Tok),
        s.focus.out = d → s.cur.enginesRun = true → s.cur.phase.st = .running →
        s.cur.fabric.passAt s.focus.site = some p → p.rec? s.focus.site = some y →
        y.routes.find? (fun e => e.1 == d) = some (d, k) → inLink s.focus.site k = some l →
        s.cur.linkHead p l (useRoute s.focus.site d) = some tok → tok.kind = .data → s.cur.room y s.focus.site d = true →
        p.image.users (linkOf s.focus.site d) ≠ [] → Completes .elemRoute s fun t =>
          (t.cur.link (linkOf s.focus.site d)).q.getLast? = some tok
          ∧ t.cur = { s.cur with fabric := t.cur.fabric, bps := t.cur.bps } ∧ OnlyCur s t

/-! ### Edge nodes (R409 to R421) -/

/-- R230 and R409 to R414: the `LIN` ports of a block issue its next thread together, each with its live slot, and after the last
thread the pass-end with the number of the next block, whose pass starts; a load node gives the
word of its address, and with D on f32 the words of its tangent planes, as the L1 holds them or, for an acquire, as memory does; a
store node puts its store, in the dual form with its tangents, in the queue and gives a token of value 0; `ATM` gives a token that stands for the old value, which is free until the commit; `LDFE` gives a full word; `PFT` takes its input. -/
def Obligations.LiveSlotAndMemoryNodes : Prop :=
  ∀ (s : State) (r : ElemRec) (a : At) (ts : List (Nat × Tok)) (l : Loc) (line : List Byte) (ls : Nat → Loc) (lines : Nat → List Byte),
    let n := s.focus.cell
    let c := s.cur
    let x := a.input ts
    let zeros := List.replicate c.ident.tw (0 : W32)
    let hi : W32 := if r.srcB = .imm then r.imm8.zeroExtend 32 else x.b.v
    let va : Word := hi ++ x.a.v
    let fires (op : BitVec 7) := Fires s op r a ts
    let fits := c.fabric.sqUsed < 2048
    let scopeArg := some (Scope.ofBits r.var)
    let sa := x.a.v.toNat
    let word : W32 := BitVec.ofNat 32 (leAt line (l.pa % 64) 4)
    let hit := Map.get? c.l1 (l.pa / 64) = some line
    let near := s.lineReady l.pa ∧ paModule l.pa = s.pod.self ∧ Map.get? c.l1 (l.pa / 64) = none
    let stored : W32 := BitVec.ofNat 32 (leNat (readBytes s.mem l.pa 4))
    let queues (i : ElemRec → Instr) (k : SqKind) := fits → Completes (i r) s fun t => Queues s t a x.thread k 0 zeros
    let dual (e : ElemRec) : Prop := e.d = true ∧ e.ty = .f32
    let planes := if dual r then c.ident.tw else 0
    let places (w : Bool) (sc : Option Scope) := 0 < planes ∧ s.access n (.dual w) 4 va sc = .ok l
      ∧ c.seq.ktstride ≠ 0 ∧ c.seq.ktstride.toNat % 64 = 0
      ∧ ∀ k, k < planes → s.access n (.tangent w) 4 (va + BitVec.ofNat 64 (k + 1) * c.seq.ktstride) sc = .ok (ls k)
    let every (p : Loc → Prop) := p l ∧ ∀ k, k < planes → p (ls k)
    let both (i : ElemRec → Instr) (sc : Option Scope) := places true sc → c.fabric.sqUsed + planes < 2048 →
      Completes (i r) s fun t => Queues s t a x.thread
        (.store (l.pa :: tabulate planes fun k => (ls k).pa) (x.c.v :: tabulate planes x.c.tan) sc) 0 zeros
    (∀ i, s.atSite 0x50 r = some a → (∀ b ∈ a.ports, b.x.op = 0x50 ∧ b.mayIssue c true = true) →
      a.p.threads[a.issued]? = some i → Completes (.elemLin r) s fun t =>
        (∀ b ∈ a.ports, let slot := c.liveSlot i (b.x.r.imm8.toNat % 64)
          Emits t b i (slot.headD 0) (if dual b.x.r then tabulate c.ident.tw fun k => slot.tail.getD k 0 else zeros))
        ∧ t.cur = { c with fabric := t.cur.fabric, bps := t.cur.bps } ∧ SameMemory s t)
    ∧ (s.atSite 0x50 r = some a → (∀ b ∈ a.ports, b.mayIssue c false = true) → a.p.threads[a.issued]? = none →
      (c.choice = none → Completes (.elemLin r) s fun t =>
        (∀ b ∈ a.ports, Map.get 0 t.cur.fabric.era b.site = a.p.id + 1 ∧ Closes t b 0)
        ∧ t.cur = { c with fabric := t.cur.fabric, bps := t.cur.bps } ∧ OnlyCur s t)
      ∧ ∀ k m, c.choice = some k → Map.get? c.bound k = some m → c.cacheHas m.ident = true → Completes (.elemLin r) s fun t =>
        (∀ b ∈ a.ports, Map.get 0 t.cur.fabric.era b.site = a.p.id + 1 ∧ Closes t b (BitVec.ofNat 32 k))
        ∧ (∃ q, t.cur.fabric.passes.getLast? = some q ∧ q.image = m ∧ q.start = s.timebase) ∧ OnlyCur s t)
    ∧ (fires 0x51 → ts.head?.bind (fun t => t.2.atm) = none →
        queues .elemLout (.lout (r.imm8.toNat % 64) x.a.v (if dual r then tabulate c.ident.tw x.a.tan else zeros) none))
    ∧ (fires 0x58 → planes = 0 → s.access n .load 4 va none = .ok l →
        (hit → paModule l.pa = s.pod.self → Completes (.elemLd r) s fun t => Yields s t a x.thread word zeros)
        ∧ (near → Completes (.elemLd r) s fun t => Emits t a x.thread stored zeros ∧ SameMemory s t ∧ t.cur.seq = c.seq))
    ∧ (fires 0x58 → places false none → every (fun j => paModule j.pa = s.pod.self) → hit →
        (∀ k, k < planes → Map.get? c.l1 ((ls k).pa / 64) = some (lines k)) → Completes (.elemLd r) s fun t =>
          Yields s t a x.thread word (tabulate planes fun k => BitVec.ofNat 32 (leAt (lines k) ((ls k).pa % 64) 4)))
    ∧ (fires 0x5A → places false scopeArg → Scope.ofBits r.var ≠ .cell →
        every (fun j => paModule j.pa = s.pod.self ∧ s.lineReady j.pa ∧ j.pa % 4 = 0) → Completes (.elemLdaq r) s fun t =>
          Emits t a x.thread stored (tabulate planes fun k => BitVec.ofNat 32 (leNat (readBytes s.mem (ls k).pa 4)))
          ∧ SameMemory s t ∧ t.cur.l1 = [] ∧ t.cur.seq = c.seq)
    ∧ (fires 0x5A → planes = 0 → s.access n .load 4 va scopeArg = .ok l → Scope.ofBits r.var ≠ .cell →
        s.lineReady l.pa → paModule l.pa = s.pod.self →
        Completes (.elemLdaq r) s fun t => Emits t a x.thread stored zeros ∧ SameMemory s t ∧ t.cur.l1 = [] ∧ t.cur.seq = c.seq)
    ∧ (fires 0x5D → s.access n .feRead 4 va scopeArg = .ok l → Map.get false s.full l.pa = true → l.cls = .fe → near →
        Completes (.elemLdfe r) s fun t => Emits t a x.thread stored zeros ∧ SameMemory s t ∧ t.cur.seq = c.seq)
    ∧ (fires 0x59 → planes = 0 → s.access n .store 4 va none = .ok l → queues .elemSt (.store [l.pa] [x.c.v] none))
    ∧ (fires 0x5B → planes = 0 → s.access n .store 4 va scopeArg = .ok l → queues .elemStrl (.store [l.pa] [x.c.v] scopeArg))
    ∧ (fires 0x59 → both .elemSt none) ∧ (fires 0x5B → both .elemStrl scopeArg)
    ∧ (fires 0x5E → s.access n .feWrite 4 va scopeArg = .ok l →
        queues .elemStfe (.stfe l.pa va.toNat x.c.v (Scope.ofBits r.var)))
    ∧ (fires 0x6D → s.access n .atomic 4 va scopeArg = .ok l → queues .elemBkadd (.bkadd l.pa (decide (r.ty = .f32)) x.c.v))
    ∧ (fires 0x5C → s.access n .atomic 4 va scopeArg = .ok l → fits → Completes (.elemAtm r) s fun t =>
        t.cur.fabric.sq = c.fabric.sq ++ [{ pass := a.p.id, thread := x.thread, ring := a.ring
                                            kind := .atm l.pa (r.imm8.setWidth 4) x.c.v (Order.ofBits r.lvl) (Scope.ofBits r.var)
                                            cone := a.inCone }]
        ∧ (∀ d ∈ a.outs, a.p.image.users (linkOf a.site d) ≠ [] → ∃ k, (t.cur.link (linkOf a.site d)).q.getLast? = some k
            ∧ k.kind = .data ∧ k.thread = x.thread ∧ k.atm = some a.ring)
        ∧ SameMemory s t ∧ t.cur.seq = c.seq)
    ∧ (fires 0x5F → sa < 0x100000 → sa % 4 = 0 →
        Completes (.elemLds r) s fun t => Yields s t a x.thread (BitVec.ofNat 32 (leNat (c.scratchRead sa 4))) zeros)
    ∧ (fires 0x60 → sa < 0x100000 → sa % 4 = 0 → queues .elemSts (.sts sa x.b.v))
    ∧ (Fires s 0x61 r a ts → (∃ p, s.access n .load 4 va none = .hold p) → Completes (.elemPft r) s fun t =>
        t = s.setCur (a.take c) ∧ SameMemory s t)
    ∧ (Fires s 0x61 r a ts → s.access n .load 4 va none = .ok l → l.cls = .norm → s.lineReady l.pa → paModule l.pa = s.pod.self →
        Completes (.elemPft r) s fun t => Map.get? t.cur.l1 (l.pa / 64) = some (readBytes s.mem (64 * (l.pa / 64)) 64)
          ∧ SameMemory s t ∧ t.cur.fabric = (a.take c).fabric)

/-- R416 to R421: `ACRD` gives an element of a tile; `ACWR`, `AFPUSH`, `STOUT` and `BARV` put their entry in the store queue,
each with its tangents where D is set; `STIN` gives the next token of its port and takes it; `NEXT` commits its thread, which
waits at the block of its successor entry; `PARK` parks it; `TRAPX` passes a zero and poisons anything else with SOFT. -/
def Obligations.PortsAndControlNodes : Prop :=
  ∀ (s : State) (r : ElemRec) (a : At) (ts : List (Nat × Tok)),
    let c := s.cur
    let x := a.input ts
    let zeros := List.replicate c.ident.tw (0 : W32)
    let fires (op : BitVec 7) := Fires s op r a ts
    let tile := r.imm8.toNat % 8
    let idx := x.a.v.toNat
    let queues (i : ElemRec → Instr) (k : SqKind) (v : W32) (tans : List W32) := c.fabric.sqUsed < 2048 →
      Completes (i r) s fun t => Queues s t a x.thread k v tans
    let alone := a.p.image.together = false ∧ c.fabric.sq = [] ∧ c.fabric.poison = [] ∧ a.p.gone = []
      ∧ Map.get? c.fabric.opsDone x.thread = none ∧ c.fabric.specFills = []
      ∧ (c.fabric.passes.find? fun q => q.id == a.p.id) = some a.p
      ∧ (∀ q, q < 2 → (c.fifo q).used (c.fillTan q) ≤ 512) ∧ c.run = .running
    let dual := r.d = true ∧ r.ty = .f32
    let planes := if dual then c.ident.tw else 0
    let tans (f : Nat → W32) := if dual then tabulate c.ident.tw f else zeros
    let entry := (if x.a.v = 0 then r.imm8.toNat % 16 else r.imm8.toNat / 16)
    let b := (a.p.image.succ.getD entry 0x3FF).toNat
    (fires 0x68 → idx < 12288 → c.tileNamed tile (tile + planes) = false → Completes (.elemAcrd r) s fun t =>
      Yields s t a x.thread (Map.get 0 c.tiles (tileKey tile 0 idx)) (tans fun k => Map.get 0 c.tiles (tileKey (tile + k + 1) 0 idx)))
    ∧ (fires 0x69 → idx < 12288 → c.tileNamed tile (tile + planes) = false →
        queues .elemAcwr (.acwr tile idx (x.b.v :: tabulate planes x.b.tan)) 0 zeros)
    ∧ (fires 0x6A → queues .elemAfpush
        (.afpush a.site (r.imm8.toNat % 2) (afDesc r.ty) (if r.d then 4 * c.ident.tw else 0) x.a.v) 0 zeros)
    ∧ (fires 0x6C → r.d = false → c.stoutUsed a.ring < 4096 → queues .elemStout (.stout a.ring [x.a.v]) 0 zeros)
    ∧ (fires 0x6C → r.d = true → c.stoutUsed a.ring + c.ident.tw < 4096 →
        queues .elemStout (.stout a.ring (x.a.v :: tans x.a.tan)) 0 zeros)
    ∧ (fires 0x7A → queues .elemBarv (.barv (r.imm8.toNat % 32)) x.a.v x.a.t)
    ∧ (∀ i k rest, s.atSite 0x6B r = some a → (∀ b ∈ a.ports, b.mayIssue c true = true) → (∀ b ∈ a.ports.tail, b.x.op = 0x50) →
        a.p.threads[a.issued]? = some i → Map.get [] c.fabric.stin a.ring = k :: rest → k.mode = .cut →
        Completes (.elemStin r) s fun t => Emits t a i k.word (tans fun j => k.tans.getD j 0) ∧ Map.get [] t.cur.fabric.stin a.ring = rest
          ∧ t.cur.fabric.stinKept = c.fabric.stinKept ++ [(a.p.id, a.ring, k)] ∧ t.cur.seq = c.seq ∧ SameMemory s t)
    ∧ (fires 0x78 → alone → b < 64 → (Map.get? c.bound b).isSome = true → x.thread < 4096 → Completes (.elemNext r) s fun t =>
        (t.cur.phase.waitOf b).getLsbD x.thread = true ∧ t.cur.phase.parked = c.phase.parked
        ∧ (∃ p, t.cur.fabric.passes.find? (fun q => q.id == a.p.id) = some p ∧ p.gone = [x.thread])
        ∧ t.cur.seq = c.seq ∧ t.cur.scratch = c.scratch ∧ SameMemory s t)
    ∧ (fires 0x79 → alone → x.thread < 4096 → Completes (.elemPark r) s fun t =>
        t.cur.phase.parked.getLsbD x.thread = true ∧ t.cur.phase.errs = c.phase.errs
        ∧ Map.get 0 t.cur.phase.errWord x.thread = BitVec.ofNat 32 (a.p.image.block % 64 * 256)
        ∧ (∃ p, t.cur.fabric.passes.find? (fun q => q.id == a.p.id) = some p ∧ p.gone = [x.thread])
        ∧ t.cur.seq = c.seq ∧ SameMemory s t)
    ∧ (fires 0x7B → x.a.v = 0 → Completes (.elemTrapx r) s fun t => Yields s t a x.thread 0 x.a.t)
    ∧ (fires 0x7B → x.a.v ≠ 0 → Completes (.elemTrapx r) s fun t =>
        t.cur.fabric.poison = c.fabric.poison ++ [{ pass := a.p.id, thread := x.thread, watch := false, cause := .soft, addr := 0
                                                    ring := a.ring, detail := r.imm8.zeroExtend 16, cone := a.inCone }]
        ∧ t.cur.seq = c.seq ∧ SameMemory s t)

/-! ### Resets, boot, power and clocks (R14 to R21) -/

/-- R15 to R21 and R44: every reset, boot step, power sample, clock step, thermal event and `VF_ENABLE` completes on every
state. Both resets and a thermal stop leave boot stage 1 with no launch, cell or key and every partition unowned under a new
generation; a module reset leaves its worlds Ending without keys or memory, the other two leave none. A boot stage that
completes moves to the next one, and stage 7 zeroes memory and frees the Ending worlds; a failing unit stops the sequence; the
clock moves by 100 MHz between its floor and its ceiling, never while pinned; `VF_ENABLE` enables functions 1 to 16 and leaves
those already enabled alone. That a module reset gives its worlds cause 0 is the model's choice (log 28). -/
def Obligations.ResetsBootAndClocks : Prop :=
  ∀ (s : State) (avg u : Nat) (x : Option Nat),
    let bare (t : State) (fail : Bool) := t.boot = { stage := 1, fail := fail, unit := 0 } ∧ t.launches = [] ∧ t.cells = []
      ∧ t.lodge.keys = none ∧ ∀ p, p < 16 → (t.part p).vf = 0 ∧ (t.part p).st = .unowned ∧ (t.part p).running = none
    let newGens (s t : State) := ∀ p, p < 16 → (t.part p).gen = (s.part p).gen + 1
    let free := s.lodgeUp = true ∧ s.clock.pinned = false
    let above := s.clock.limitW < avg ∧ 900 ≤ s.clock.mhz
    let under := 100 * avg < 95 * s.clock.limitW ∧ s.clock.mhz ≤ 1500
    (∃ t, exec .coldReset s = .next t ∧ bare t false ∧ newGens s t ∧ t.worlds = [] ∧ t.mem = (s.renumber 0).mem
      ∧ t.hostMem = s.hostMem ∧ t.out = s.out)
    ∧ (∃ t, exec .moduleReset s = .next t ∧ bare t false ∧ newGens (s.endWorlds 0) t
        ∧ ∀ w v, s.world? w = some v → ∃ v', t.world? w = some v' ∧ v'.st = .ending ∧ v'.keys = none ∧ v'.leaves = [])
    ∧ (∃ t, exec .thermalStop s = .next t ∧ bare t true ∧ t.worlds = []
        ∧ newGens ((s.signal 0 7).endWorlds Cause.mchk.code) t)
    ∧ (s.boot.fail = false → s.boot.stage < 8 →
        (∃ t, exec (.bootStageComplete none) s = .next t ∧ t.boot = { s.boot with stage := s.boot.stage + 1 }
          ∧ t.out = s.out ++ [.msix 0 2] ∧ t.hostMem = s.hostMem
          ∧ (s.boot.stage = 2 → t.timebase = 0 ∧ t.lodge.keys.isSome = true)
          ∧ (s.boot.stage = 7 → t.cells = [] ∧ ∀ w v, t.world? w = some v → v.st ≠ .ending)
          ∧ ∀ a, readMem t.mem a = if s.boot.stage = 7 ∧ s.bootZeroes a = true then 0 else readMem s.mem a)
        ∧ (u < bootUnits s.boot.stage → ∃ t, exec (.bootStageComplete (some u)) s = .next t
            ∧ t.boot = { s.boot with fail := true, unit := u } ∧ t.out = s.out ++ [.msix 0 2] ∧ t.mem = s.mem)
        ∧ (bootUnits s.boot.stage ≤ u → exec (.bootStageComplete (some u)) s = .next s))
    ∧ (s.boot.fail = true ∨ 8 ≤ s.boot.stage → exec (.bootStageComplete x) s = .next s)
    ∧ (free → above → ∃ t, exec (.powerSample avg) s = .next t ∧ t.clock = { s.clock with mhz := s.clock.mhz - 100 }
        ∧ t.cells = s.cells ∧ t.worlds = s.worlds)
    ∧ (¬(free ∧ above) → exec (.powerSample avg) s = .next s)
    ∧ (free → under → ∃ t, exec (.clockRaiseStep avg) s = .next t ∧ t.clock = { s.clock with mhz := s.clock.mhz + 100 }
        ∧ t.cells = s.cells ∧ t.worlds = s.worlds)
    ∧ (¬(free ∧ under) → exec (.clockRaiseStep avg) s = .next s)
    ∧ (s.lodgeUp = true → ∃ t, exec .thermalThrottle s = .next t ∧ t.clock = { s.clock with mhz := 800, pinned := true }
        ∧ t.cells = s.cells ∧ t.worlds = s.worlds)
    ∧ (s.lodgeUp = false → exec .thermalThrottle s = .next s)
    ∧ (∃ t, exec .thermalThrottleRelease s = .next t ∧ t = { s with clock := { s.clock with pinned := false } })
    ∧ (s.booted = true → ∃ t, exec .vfEnable s = .next t ∧ t = { s with funcs := t.funcs } ∧ t.func 0 = s.func 0
        ∧ ∀ f, 1 ≤ f → f ≤ 16 → (t.func f).enabled = true ∧ ((s.func f).enabled = true → t.func f = s.func f))
    ∧ (s.booted = false → exec .vfEnable s = .next s)

/-! ### Registers of the functions (R82 to R86, R90, R94, R96, R97) -/

/-- R82 to R85, R90 and R94: what a write of each register of a function does to the queue, the event or the function that it
names, with every other queue as before.

R19, R20, R22, R25, R26, R96 and R97: the fault ring's registers, writes of a function's registers and of its configuration, reads
by the host, and the mailbox doorbell. A write of BAR addresses or of the MSI-X location moves a locked or running interface to
`ERROR`. While the boot sequence runs a configuration request is answered with a retry; then the DVSEC shows the boot status. That
the low bits of a BAR address stay 0 is the model's choice (log 28). -/
def Obligations.RegistersOfTheFunctions : Prop :=
  (∀ (s : State) (fn q : Nat) (v : Word),
    let x := s.queue fn q
    let tail : BitVec 16 := v.extractLsb' 0 16
    let head : BitVec 16 := v.extractLsb' 32 16
    let size := (v.extractLsb' 12 4).toNat
    let overrun := x.en = true ∧ 2 ^ x.logsize < (tail - x.qhead).toNat
    let others (t : State) := ∀ f k, (f, k) ≠ (fn, q) → t.queue f k = s.queue f k
    (s.queueOk fn q = true →
      (¬overrun → Completes (.qtailWrite fn q v) s fun t =>
        t.queue fn q = { x with qtail := tail } ∧ others t ∧ SameMemory s t ∧ t.out = s.out)
      ∧ (overrun → Completes (.qtailWrite fn q v) s fun t => (t.queue fn q).qtail = tail ∧ (t.queue fn q).en = false
          ∧ (t.queue fn q).ovr = true ∧ (t.queue fn q).qhead = x.qhead ∧ others t)
      ∧ ((head - x.chead).toNat ≤ (x.ctail - x.chead).toNat → x.posts = [] → Completes (.qstatCheadWrite fn q v) s fun t =>
          t.queue fn q = { x with chead := head } ∧ others t ∧ SameMemory s t)
      ∧ ((x.ctail - x.chead).toNat < (head - x.chead).toNat → Completes (.qstatCheadWrite fn q v) s fun t => t = s)
      ∧ (x.en = false → v.getLsbD 0 = true → x.posts = [] → Completes (.qctlEnable fn q v) s fun t =>
          t.queue fn q = { x with
            en := true, qtail := 0, qhead := 0, ctail := 0, chead := 0, ovr := false, wdog := (v.extractLsb' 32 32).toNat
            weight := (v.extractLsb' 16 4).toNat, prio := (v.extractLsb' 10 2).toNat
            logsize := if 4 ≤ size ∧ size ≤ 12 then size else x.logsize }
          ∧ others t ∧ SameMemory s t)
      ∧ (x.en = true → v.getLsbD 0 = false → Completes (.qctlDisable fn q v) s fun t =>
          t.queue fn q = { x with
            en := false, wdog := (v.extractLsb' 32 32).toNat, weight := (v.extractLsb' 16 4).toNat
            prio := (v.extractLsb' 10 2).toNat, logsize := if 4 ≤ size ∧ size ≤ 12 then size else x.logsize }
          ∧ others t ∧ SameMemory s t))
    ∧ (s.vfOk fn = true →
        (Completes (.qevdbWrite fn v) s fun t => t = { s with funcs := t.funcs }
          ∧ ∀ e, Map.get 0 (t.func fn).events e = if e = (v.extractLsb' 0 10).toNat
              then Map.get 0 (s.func fn).events e + (v.extractLsb' 16 48).setWidth 64 else Map.get 0 (s.func fn).events e)
        ∧ (s.lodge.fw = .pausing → Completes (.pauseAck fn) s fun t => t = s.setFunc fn { s.func fn with pauseAck := true })))
  ∧ (∀ (s : State) (fn : Nat) (v : Word) (off : Nat) (d : Bool) (h body : List Byte),
    let size := (v.extractLsb' 12 4).toNat
    let en := v.getLsbD 0
    let f := s.func fn
    let r : MbReq := { fn := fn, addr := f.mbaddr, code := leAt h 0 2, body := body }
    let tdi : Tdi := if f.tdi = .configLocked ∨ f.tdi = .run then .error else f.tdi
    (s.booted = true → v &&& ~~~(0xF001 : Word) = 0 → 4 ≤ size → size ≤ 12 →
      Completes (.fqctlWrite v) s fun t =>
        t.fring = { s.fring with
          logsize := size, en := en
          tail := if en = true ∧ s.fring.en = false then 0 else s.fring.tail
          head := if en = true ∧ s.fring.en = false then 0 else s.fring.head }
        ∧ t.faults = (if en = true then s.faults else []))
    ∧ (s.booted = true → v &&& ~~~(0xF001 : Word) ≠ 0 ∨ size < 4 ∨ 12 < size → Completes (.fqctlWrite v) s fun t => t = s)
    ∧ (s.booted = true → Completes (.fqheadWrite v) s fun t =>
        t = { s with fring := { s.fring with head := v.extractLsb' 0 16 } })
    ∧ (s.funcOk fn = true →
        (Completes (.registerWrite fn (.barAddress 0) v) s fun t =>
          (t.func fn).bar0 = v &&& ~~~(BitVec.ofNat 64 (bar0Bytes fn - 1)) ∧ (t.func fn).bar2 = f.bar2 ∧ (t.func fn).tdi = tdi
          ∧ (∀ k, k ≠ fn → t.func k = s.func k) ∧ SameMemory s t)
        ∧ (Completes (.registerWrite fn (.barAddress 2) v) s fun t =>
          (t.func fn).bar2 = v &&& ~~~(0xFFFFFFF : Word) ∧ (t.func fn).bar0 = f.bar0 ∧ (t.func fn).tdi = tdi
          ∧ (∀ k, k ≠ fn → t.func k = s.func k) ∧ SameMemory s t)
        ∧ (Completes (.registerWrite fn .msixLocation v) s fun t => (t.func fn).msixLoc = v ∧ (t.func fn).tdi = tdi
          ∧ (∀ k, k ≠ fn → t.func k = s.func k) ∧ SameMemory s t)
        ∧ (Completes (.registerWrite fn (.bar0 (if fn = 0 then 0x200 else 0x1020)) v) s fun t =>
            t = s.setFunc fn { f with mbaddr := v &&& ~~~(63 : Word) })
        ∧ (off % 8 = 0 → off + 8 ≤ bar0Bytes fn → Completes (.hostRequest fn (.readBar 0 off 8)) s fun t =>
            t = s.emit (.hostData fn (leBytes 8 (s.regRead fn off).toNat))))
    ∧ (s.boot.fail = false → s.boot.stage < 8 →
        (Completes (.hostRequest fn (.readConfig d)) s fun t => t = s.emit (.configRetry fn))
        ∧ (Completes (.registerWrite fn .msixLocation v) s fun t => t = s.emit (.configRetry fn)))
    ∧ (s.boot.fail = true ∨ 8 ≤ s.boot.stage → Completes (.hostRequest 0 (.readConfig true)) s fun t =>
        t = s.emit (.configData 0 (BitVec.ofNat 32
          ((if s.boot.fail = true then 0x10000 else 0) + s.boot.stage * 256 + s.boot.unit))))
    ∧ (s.booted = true → s.regRead 0 0 = 8 * 256 + BitVec.ofNat 64 s.boot.unit)
    ∧ (s.barAnswers fn = false → Completes (.hostRequest fn (.readBar 0 off 8)) s fun t => t = s.emit (.unsupported fn))
    ∧ (s.booted = true → fn = 0 ∨ f.enabled = true → f.mbBusy = false → s.stagingRead fn f.mbaddr 64 = some h →
        s.stagingRead fn (f.mbaddr + 64) (leAt h 2 2) = some body → body.length ≤ 65472 → zeroAt h 9 3 = true → zeroAt h 24 40 = true →
        mbOpen fn r.code = true → mbBodyOk r.code body = true → Completes (.mbdoorWrite fn 1) s fun t =>
          t.lodge = { s.lodge with inbox := s.lodge.inbox ++ [r] } ∧ t.func fn = { f with mbBusy := true, mbDone := false }
          ∧ SameMemory s t))

/-! ### IDE, TDISP and function-level reset (R24, R25, R93) -/

/-- R24, R25 and R93: an IDE check failure makes the stream Insecure and `K_SET_GO` installs the programmed key and makes it
secure, and each, like `KEY_PROG`, moves a locked or running interface of a virtual function to `ERROR`, which for the check
failure and `KEY_PROG` is the model's choice (log 28); the TDISP messages move the interface between its states and
`STOP_INTERFACE` ends the function's worlds and launches and scrubs its partitions; a function-level reset discards queues,
events and launches, and moves a locked or running interface to `ERROR` instead. -/
def Obligations.InterfaceSecurityAndReset : Prop :=
  ∀ (s : State) (fn key k : Nat),
    let f := s.func fn
    let launchFree (t : State) := ∀ id l, Map.get? t.launches id = some l → l.vf ≠ fn
    let scrubs (t : State) := ∀ p, p < 16 → (s.part p).vf = fn → (t.part p).st = .scrubbing ∨ (t.part p).st = .destroying
    let tdi : Tdi := if fn ≠ 0 ∧ (f.tdi = .configLocked ∨ f.tdi = .run) then .error else f.tdi
    let others (t : State) := ∀ k, k ≠ fn → t.func k = s.func k
    (s.funcOk fn = true →
      (Completes (.ideCheckFailure fn) s fun t => t.func fn = { f with ide := { f.ide with insecure := true }, tdi := tdi }
        ∧ others t ∧ Map.get 0 t.hyper 7 = Map.get 0 s.hyper 7 + 1 ∧ SameMemory s t)
      ∧ (Completes (.ideKmKeyProg fn key) s fun t => t.func fn = { f with ide := { f.ide with staged := some key }, tdi := tdi }
        ∧ others t ∧ SameMemory s t)
      ∧ (f.ide.staged = some k → Completes (.ideKmKSetGo fn) s fun t =>
          t.func fn = { f with ide := { key := k, staged := none, insecure := false }, tdi := tdi } ∧ others t ∧ SameMemory s t))
    ∧ (s.vfOk fn = true →
        (Completes (.lockInterface fn) s fun t =>
          t.func fn = { f with tdi := if f.tdi = .configUnlocked then .configLocked else f.tdi } ∧ SameMemory s t)
        ∧ (Completes (.startInterface fn) s fun t =>
            t.func fn = { f with tdi := if f.tdi = .configLocked then .run else f.tdi } ∧ SameMemory s t)
        ∧ (Completes (.getDeviceInterfaceReport fn) s fun t => ∃ l, t = s.emit (.tdisp fn l))
        ∧ (Completes (.stopInterface fn) s fun t => (t.func fn).tdi = .configUnlocked ∧ launchFree t ∧ scrubs t
            ∧ ∀ w v, s.world? w = some v → v.vf = fn → ∃ v', t.world? w = some v' ∧ v'.st = .ending)
        ∧ (f.tdi ≠ .configLocked → f.tdi ≠ .run → Completes (.functionLevelReset fn) s fun t =>
            (t.func fn).queues = [] ∧ (t.func fn).events = [] ∧ (t.func fn).mbBusy = false ∧ launchFree t ∧ scrubs t
            ∧ ∀ w, (t.world? w).isSome = (s.world? w).isSome)
        ∧ (f.tdi = .configLocked ∨ f.tdi = .run → Completes (.functionLevelReset fn) s fun t =>
            (t.func fn) = { f with tdi := .error } ∧ t.worlds = s.worlds ∧ SameMemory s t))

/-! ### SPDM (R34, R48 to R51) -/

/-- R34, R48 to R51 and R97: each message that a connection takes in its order, once the mailbox requests before it are done,
makes exactly one reply on it and moves the connection on; requests and replies enter the transcript, which a signed reply's
signature covers to its end; a link session that begins, ends or takes new keys does so on its port, and at the anchor the
offset is 0. How the messages are laid out is open (log 13, log 14). -/
def Obligations.SpdmConversations : Prop :=
  ∀ (s : State) (port nonce i part world : Nat) (peer : LinkPeer) (m : List Nat), s.lodgeUp = true → s.lodgeFree = true → port ≤ 12 →
    let c := s.spdm port
    let link := s.link port
    let both (req : Nat) (args : List Nat) (code : Nat) (l : List Nat) : List Byte :=
      Config.spdmRequest req args ++ Config.spdmReply code l
    let say (req : Nat) (args : List Nat) (code : Nat) (l : List Nat) : List Byte := c.transcript ++ both req args code l
    let chain := (Config.sha384 s.lodge.chain).toNat
    let signed (code : Nat) (l : List Nat) (transcript : List Byte) : List Byte := Config.spdmReply code l
      ++ tabulate 96 (Config.ecdsaByte s.lodge.aliasKey (digestBytes (Config.sha384 transcript)))
    let replies (t : State) := ∃ l, t.out = s.out ++ [.spdm port l]
    let becomes (ok : Prop) (i : Instr) (c' : Spdm) := ok → Completes i s fun t => replies t ∧ t.spdm port = c'
      ∧ t = { s with out := t.out, lodge := t.lodge }
    (Completes (.getVersion port) s fun t => replies t
      ∧ t.spdm port = { Spdm.reset with version := true, transcript := both 0x84 [] 0x04 [0x13], session := c.session })
    ∧ becomes (c.version = true) (.getCapabilities port) { c with caps := true, transcript := say 0xE1 [] 0x61 [] }
    ∧ becomes (c.caps = true) (.negotiateAlgorithms port true) { c with algorithms := true, transcript := say 0xE3 [] 0x63 [] }
    ∧ becomes (c.algorithms = true) (.getDigests port) { c with transcript := say 0x81 [] 0x01 [chain] }
    ∧ becomes (c.algorithms = true) (.getCertificate port 0)
        { c with transcript := say 0x82 [0] 0x02 (s.lodge.chain.map (·.toNat)) }
    ∧ (c.algorithms = true → Completes (.challenge port nonce) s fun t =>
        t.spdm port = { c with transcript := say 0x83 [nonce] 0x03 [nonce, chain] }
        ∧ t.out = s.out ++ [.spdm port (signed 0x03 [nonce, chain] (say 0x83 [nonce] 0x03 [nonce, chain]))])
    ∧ (s.measurement i = some m → c.algorithms = true → Completes (.getMeasurements port i (some nonce)) s fun t =>
        t.spdm port = { c with transcript := say 0xE0 [i, nonce] 0x60 (i :: nonce :: m) }
        ∧ t.out = s.out ++ [.spdm port (signed 0x60 (i :: nonce :: m) (say 0xE0 [i, nonce] 0x60 (i :: nonce :: m)))])
    ∧ (port = 12 → becomes (c.algorithms = true) (.keyExchange port peer)
        { c with handshake := true, session := false, transcript := say 0xE4 [] 0x64 [] })
    ∧ (port < 12 → c.algorithms = true → Completes (.keyExchange port peer) s fun t =>
        if peer.genuine = true ∧ Config.peerMinimum ≤ peer.fwVersion
        then (t.spdm port).handshake = true ∧ t.link port = { link with peer := some peer.module, closed := true }
        else t.spdm port = c ∧ t.link port = link)
    ∧ (c.handshake = true → Completes (.finishSession port) s fun t => (∃ l, .spdm port l ∈ t.out)
        ∧ t.spdm port = { c with handshake := false, session := true, transcript := say 0xE5 [] 0x65 [] }
        ∧ (port < 12 → (t.link port).closed = false ∧ (t.link port).keyStart = s.timebase
            ∧ (s.pod.waiting = [] → (t.link port).flits = 0) ∧ (s.pod.anchor = s.pod.self → t.pod.offset = 0)))
    ∧ (c.session = true → Completes (.keyUpdate port) s fun t => replies t ∧ t.spdm port = c
        ∧ (port < 12 → (t.link port).flits = 0 ∧ (t.link port).keyStart = s.timebase ∧ (t.link port).peer = link.peer
            ∧ (t.link port).replay = link.replay))
    ∧ (c.session = true → Completes (.endSession port) s fun t => t.spdm port = { c with session := false, handshake := false }
        ∧ (port < 12 → (t.link port).closed = true ∧ (t.link port).peer = none))
    ∧ (port < 12 → c.session = true → link.closed = false → 2 ^ 32 ≤ link.flits ∨ link.keyStart + 3600000000000 ≤ s.timebase →
        Completes (.linkKeyUpdateDue port) s fun t => (t.link port).flits = 0 ∧ (t.link port).keyStart = s.timebase
          ∧ (t.link port).peer = link.peer ∧ t.out = s.out)
    ∧ becomes (c.algorithms = true) (.pqsig port) c ∧ becomes (c.algorithms = true) (.pqchain port) c
    ∧ becomes (c.algorithms = true ∧ (s.world? world).isSome = true) (.getepoch port world) c
    ∧ (c.algorithms = true → Completes (.getrevoke port) s fun t => t = s.emit (.spdm port s.lodge.revocations.flatten))
    ∧ (c.algorithms = true → part < 16 → (s.part part).vf ≠ 0 → (s.part part).st ≠ .destroying →
        Completes (.getmeter port part) s fun t => replies t
          ∧ t.part part = { s.part part with meterSeq := (s.part part).meterSeq + 1 })

/-! ### Pod links and pod launches (R31 to R39, R443) -/

/-- R32 to R39 and R443: a flit that fails its CRC is counted and retrains the port at the sixteenth in a row, one that fails its
tag ends the session, a request of another module reads a granted page or is refused; a target reserves, starts, aborts and lets
a reservation lapse; the origin gathers READY, and ends the launch on REFUSE, on a timeout and with the last DONE. That a member
list without this module changes nothing is the model's choice (log 28). -/
def Obligations.PodLinksAndLaunches : Prop :=
  ∀ (s : State) (port fn gen digest parts target : Nat) (flit : Flit) (p : PodLaunch) (node : List Byte) (args : List Word)
    (st : Status) (cause t0 : Nat) (members : List PodMember) (routes : List (Nat × Nat)),
    let link := s.link port
    let takes := port < 12 ∧ s.linkOpen port = true
    let good := flit.crcOk = true ∧ flit.tagOk = true ∧ flit.seq = link.rxSeq
    let l := partsOfMask parts
    let mine := s.lodge.identityDigest.toNat
    let others := s.others p.mask
    let ready := if p.ready.contains target then p.ready else p.ready ++ [target]
    let ended := p.parts ++ [(target, st, cause)]
    let allEnded := p.st = .running ∧ ∀ m, m < 64 → p.mask.testBit m = true → ∃ e ∈ ended, e.1 = m
    let target' := s.pod.launch = some p ∧ target ∈ others ∧ ∀ e ∈ p.parts, e.1 ≠ target
    let due (r : Reservation) := r.t.any s.reached
    let raises (t : State) (fn gen : Nat) := Map.get 0 t.pod.highest fn = max gen (Map.get 0 s.pod.highest fn)
    (takes → flit.crcOk = false → Completes (.flitReceive port flit) s fun t => Map.get 0 t.hyper 2 = Map.get 0 s.hyper 2 + 1
      ∧ t.link port = (if 15 ≤ link.crcFails then { link with crcFails := 0, retraining := true }
          else { link with crcFails := link.crcFails + 1 }) ∧ SameMemory s t)
    ∧ (takes → flit.crcOk = true → flit.tagOk = false → Completes (.flitReceive port flit) s fun t =>
        (t.link port).closed = true ∧ (t.link port).peer = none ∧ (t.spdm port).session = false)
    ∧ (takes → good → flit.dest = s.pod.self → ∀ cell w pa cls size,
        flit.body = .request cell w pa cls (.load size) →
        (s.remoteGrant flit.src w pa cls (.load size) = none → Completes (.flitReceive port flit) s fun t =>
          Sent t flit.src (.reply cell pa [] true) ∧ SameMemory s t)
        ∧ ((s.remoteGrant flit.src w pa cls (.load size)).isSome = true → s.lineReady pa →
          Completes (.flitReceive port flit) s fun t =>
            Sent t flit.src (.reply cell pa (readBytes s.mem pa size) false) ∧ SameMemory s t
            ∧ (t.link port).rxSeq = link.rxSeq + 1))
    ∧ (takes → good → flit.dest ≠ s.pod.self →
        ((∀ m ∈ s.pod.members, m.module ≠ flit.dest) → Completes (.flitReceive port flit) s fun t =>
          Map.get 0 t.hyper 3 = Map.get 0 s.hyper 3 + 1 ∧ t.pod.waiting = s.pod.waiting ∧ SameMemory s t)
        ∧ ((∃ m ∈ s.pod.members, m.module = flit.dest) → Completes (.flitReceive port flit) s fun t =>
          Sent t flit.dest flit.body ∧ SameMemory s t))
    ∧ (port < 12 → link.retraining = true → Completes (.portRetrainComplete port) s fun t => (t.link port).retraining = false
        ∧ (s.pod.waiting = [] → t.link port = { link with retraining := false } ∧ t.out = s.out))
    ∧ (s.lodgeUp = true → Completes (.podMemberList members routes) s fun t =>
        match members.find? fun m => m.digest == mine with
        | some m => t.pod.self = m.module % 64 ∧ t.pod.members = members ∧ t.pod.routes = routes
        | none => if members = [] then t.pod.self = 0 ∧ t.pod.members = [] ∧ t.pod.routes = [] else t = s)
    ∧ (s.prepareRefusal fn gen digest l = none → Completes (.preparePod target fn p.mask gen digest parts) s fun t =>
        Sent t target (.pod .ready)
        ∧ ∃ r, t.pod.reservations = s.pod.reservations ++ [r] ∧ r.names target fn gen = true
          ∧ r.parts = l ∧ r.t = none ∧ r.since = s.timebase)
    ∧ (s.prepareRefusal fn gen digest l = some st → Completes (.preparePod target fn p.mask gen digest parts) s fun t =>
        Sent t target (.pod (.refuse st.code)) ∧ t.pod.reservations = s.pod.reservations)
    ∧ ((∃ r ∈ s.pod.reservations, r.stands s.timebase target fn gen = true) →
        Completes (.startPod target fn gen t0 node args) s fun t => t.out = s.out ∧ raises t fn gen
          ∧ t.pod.reservations = s.pod.reservations.map fun r =>
              if r.stands s.timebase target fn gen then { r with t := some t0, node := node, args := args } else r)
    ∧ ((∀ r ∈ s.pod.reservations, r.names target fn gen = true → r.t = none → r.since + 200000 ≤ s.timebase) →
        Completes (.startPod target fn gen t0 node args) s fun t =>
          Sent t target (.pod (.refuse Status.busy.code)) ∧ t.pod.reservations = s.pod.reservations)
    ∧ (s.podLocal target fn gen = none → Completes (.abortPod target fn gen) s fun t =>
        t = { s with pod := { s.pod with reservations := s.pod.reservations.filter fun r => !r.names target fn gen } })
    ∧ (Completes (.podReservationLapse fn gen) s fun t =>
        t = { s with pod := { s.pod with reservations := s.pod.reservations.filter fun r =>
          !(r.fn == fn && r.gen == gen && r.t.isNone && decide (r.since + 200000 ≤ s.timebase)) } })
    ∧ (Completes .podStartTime s fun t => t.pod.reservations = s.pod.reservations.filter fun r => !due r)
    ∧ (s.pod.launch = some p → p.st = .gathering → target ∈ others →
        (Completes (.readyPod target) s fun t =>
          if ∀ m ∈ others, m ∈ ready
          then (∃ x, t.pod.launch = some x ∧ x.st = .starting ∧ x.t = (s.anchorNow + 4000).toNat ∧ x.ready = ready)
            ∧ raises t p.fn p.gen
          else t = { s with pod := { s.pod with launch := some { p with ready := ready } } })
        ∧ (Completes (.refusePod target st.code) s fun t => t.pod.launch = none ∧ Sent t target (.pod (.abort p.fn p.gen))))
    ∧ (s.pod.launch = some p → p.st = .gathering → p.since + 100000 ≤ s.timebase → Completes .podPrepareTimeout s fun t =>
        t.pod.launch = none ∧ ∀ m ∈ others, Sent t m (.pod (.abort p.fn p.gen)))
    ∧ (target' → p.gen = gen → p.st ≠ .gathering → Status.ofCode st.code = st → Completes (.donePod target gen st.code cause) s fun t =>
        (allEnded → t.pod.launch = none) ∧ (¬allEnded → t.pod.launch = some { p with parts := ended }))
    ∧ (target' → p.st = .running → s.linked target = false → Completes (.podTargetSessionEnd target) s fun t =>
        t.pod.launch = none ∨ ∃ x, t.pod.launch = some x ∧ (target, Status.unreachable, 0) ∈ x.parts)

/-! ### Command graphs and launches (R85 to R92, R101 to R106) -/

/-- R85 to R90: a graph is fetched whole or refused as MALFORMED; a completed node lets its successors go or ends the graph; a
WAIT completes once its event has reached the threshold, or at its timeout; SIGNAL, METER and COPY have their effects. A node
that is ready does the same when its turn has come, and is dispatched by it (R89, R91). -/
def Obligations.GraphsAndTheirNodes : Prop :=
  ∀ (s : State) (fn q n : Nat) (b : List Byte) (g : Graph) (r : NodeResult) (l : List Byte),
    let v := s.queue fn q
    let read := s.readGraph fn q
    let next := (g.take n r).noteReady s.timebase
    let ev := leAt b 16 2
    let val : Word := BitVec.ofNat 64 (leAt b 24 8)
    let old := Map.get 0 (s.func fn).events ev
    let us := leAt b 32 4
    let p := leAt b 16 1
    let src : Word := BitVec.ofNat 64 (leAt b 16 8)
    let dst : Word := BitVec.ofNat 64 (leAt b 24 8)
    (s.mayFetch fn q = true → Completes (.graphFetch fn q) s fun t => match read.2 with
      | some nodes => t.queue fn q = { v with
          qhead := v.qhead + 1, graph := some ((newGraph read.1 nodes (if fn = 0 then 3 else v.prio)).noteReady s.timebase) }
      | none => (t.queue fn q).qhead = v.qhead + 1 ∧ (t.queue fn q).graph = none ∧ (t.queue fn q).ctail = v.ctail + 1)
    ∧ (v.graph = some g → Map.get? g.results n = some r → s.walks = true → Completes (.nodeComplete fn q n) s fun t =>
        (next.over? = true → (t.queue fn q).graph = none ∧ (t.queue fn q).qhead = v.qhead)
        ∧ (next.over? = false → t.queue fn q = { v with graph := some next }))
    ∧ (Dispatched s fn q n 0x07 b → Completes (.signalNode fn q n) s fun t => Finishes t fn q n .ok ∧ SameMemory s t
        ∧ ∀ e, Map.get 0 (t.func fn).events e =
            if e = ev then (if leAt b 18 1 = 0 then old + val else val) else Map.get 0 (s.func fn).events e)
    ∧ (Dispatched s fn q n 0x08 b → Completes (.waitNode fn q n) s fun t =>
        if leAt b 24 8 ≤ old.toNat then Finishes t fn q n .ok ∧ SameMemory s t else t = s)
    ∧ (Ready s fn q n 0x07 b → Completes (.signalNode fn q n) s fun t => Finishes t fn q n .ok ∧ Dispatches t fn q n
        ∧ SameMemory s t ∧ ∀ e, Map.get 0 (t.func fn).events e =
            if e = ev then (if leAt b 18 1 = 0 then old + val else val) else Map.get 0 (s.func fn).events e)
    ∧ (Ready s fn q n 0x08 b → Completes (.waitNode fn q n) s fun t => Dispatches t fn q n ∧ SameMemory s t
        ∧ (leAt b 24 8 ≤ old.toNat → Finishes t fn q n .ok)
        ∧ (old.toNat < leAt b 24 8 → t.nodeOf fn q n 0x08 = some b))
    ∧ (Dispatched s fn q n 0x08 b → v.graph = some g → us ≠ 0 → old.toNat < leAt b 24 8 →
        Completes (.waitTimeout fn q n) s fun t =>
          if Map.get 0 g.started n + us * 1000 ≤ s.timebase then Finishes t fn q n .timeout else t = s)
    ∧ (Dispatched s fn q n 0x04 b → s.lodgeFree = true → s.owns fn p = true → (s.part p).st ≠ .destroying →
        s.devOk fn dst 5011 = true → Completes (.meterNode fn q n) s fun t =>
        Finishes t fn q n .ok ∧ t.part p = { s.part p with meterSeq := (s.part p).meterSeq + 1 })
    ∧ (Dispatched s fn q n 0x02 b → leAt b 40 1 = 0xFF → s.noScrub (s.func fn).stagePart = true → s.devRead fn src (leAt b 32 8) = some l →
        s.devOk fn dst (leAt b 32 8) = true → Completes (.copyNode fn q n) s fun t =>
          t = (s.devWrite fn dst l).finishStatus fn q n .ok ∧ Finishes t fn q n .ok)

/-- R37, R59, R88, R91, R102 and R104: a launch takes its free partitions and starts; a pod launch asks its targets; each cell
starts with the arguments in its registers and the pc at the kernel's entry, or removes the package and ends the world where the
code or the listed configurations do not agree with their digests; a graph with an overdue node rises one level. -/
def Obligations.LaunchesStart : Prop :=
  ∀ (s : State) (fn q n : Nat) (b : List Byte) (w : Nat) (args : List Word) (id cell : Nat) (l : Launch) (v : World) (pk : Package)
    (k : Kernel) (g : Graph),
    let x := launchNodeOf b
    let checks := s.launchCheck fn x.parts x.ctx x.handle x.kernel = .ok w ∧ s.readArgs fn x = some args
    let p := partOfCell cell
    (Ready s fn q n 0x01 b → checks → x.pod = false → s.launches = [] → (s.func fn).tdi ≠ .error →
      (∀ p ∈ x.parts, s.partFree p = true) → Completes (.launch fn q n) s fun t =>
        (∃ l, Map.get? t.launches s.nextLaunch = some l ∧ l.st = .starting ∧ l.world = w ∧ l.args = args ∧ l.parts = x.parts)
        ∧ Dispatches t fn q n ∧ t.nextLaunch = s.nextLaunch + 1
        ∧ ∀ p ∈ x.parts, (t.part p).running = some s.nextLaunch ∧ (t.part p).st = .running)
    ∧ (Dispatched s fn q n 0x01 b → checks → x.pod = true → s.pod.launch = none → x.targets.testBit s.pod.self = true →
        (∀ m ∈ s.others x.targets, ∃ k ∈ s.pod.members, k.module = m) → s.others x.targets ≠ [] →
        Completes (.podLaunch fn q n) s fun t =>
          (∃ y, t.pod.launch = some y ∧ y.st = .gathering ∧ y.mask = x.targets ∧ y.gen = x.podGen ∧ y.args = args
            ∧ y.since = s.timebase)
          ∧ ∀ m ∈ s.others x.targets, ∃ d parts, Sent t m (.pod (.prepare fn x.targets x.podGen d parts)))
    ∧ (Map.get? s.launches id = some l → l.st = .starting → p ∈ l.parts → cell ∈ cellsOfPart p → cell ∉ l.started →
        s.world? l.world = some v → Map.get? v.packages l.handle = some pk → pk.kernels[l.kernel]? = some k →
        Completes (.cellStart id cell) s fun t =>
          if k.codeOk = true ∧ (pk.blocksOk = true ∨ l.configs = []) then
            (t.cell cell).run = .running ∧ (t.cell cell).seq.pc = BitVec.ofNat 64 k.entry ∧ (t.cell cell).code = k.code
            ∧ (t.cell cell).ident.world = l.world ∧ (t.cell cell).ident.launch = id
            ∧ (∀ r : Reg, (t.cell cell).reg r = if r = 0 then 0 else l.args.getD (r.toNat - 1) 0)
            ∧ (t.cell cell).scratch = (s.cell cell).scratch ∧ SameMemory s t
          else ∃ v', t.world? l.world = some v' ∧ v'.st = .ending ∧ Map.get? v'.packages l.handle = none)
    ∧ ((s.queue fn q).graph = some g → g.level ≠ 0 → s.overdue g = true → Completes (.escalationTimeout fn q) s fun t =>
          (t.queue fn q).graph = some { g with level := g.level - 1, waitSince := s.timebase })

/-! ### Worlds, contexts, sessions and packages (R44 to R68, R78, R301) -/

/-- R44 to R68: what each request for a world, a context, a bundle, a session or a package does once its record and response
are in place. How a package is cut into its parts is open (log 14), so that clause goes by `parsePackage`. CLOSE and REKEY
answer BUSY with the time left while the session's lock is held (R65). -/
def Obligations.WorldsContextsAndSessions : Prop :=
  ∀ (s : State) (fn q n w h c : Nat) (b r l : List Byte) (v : World) (x : Session) (bundle : Bundle),
    let done (t : State) := Finishes t fn q n .ok
    let node := sessionNodeOf b
    let at_ (req len resp : Nat) := Requests s fn q n req b r len resp
    let own := s.ownWorld fn w = some v
    let wait (x : Session) := (x.lock - s.timebase + 999) / 1000
    let p := node.byte17
    let debug := leAt r 1 1
    (at_ 1 64 1608 → policyRecordOk r = true → s.owns fn (leAt r 6 1) = true →
      ((List.range 64).find? fun k => (s.world? k).isNone) = some w → Completes (.createWorld fn q n) s fun t => done t
        ∧ (∃ v', t.world? w = some v' ∧ v'.st = .opened ∧ v'.vf = fn ∧ v'.keys.isSome = true ∧ v'.epoch = 0 ∧ v'.t0 = s.timebase
          ∧ v'.leaves = [] ∧ v'.home = leAt r 6 1)
        ∧ ∀ k, k ≠ w → t.world? k = s.world? k)
    ∧ (at_ 2 64 1 → zeroAt r 2 62 = true → debug ≤ 1 → leAt r 0 1 = w → own → s.owns fn p = true → (s.part p).st ≠ .destroying →
        (debug = 1 → v.st = .opened) → ((List.range 4).find? fun k => (Map.get? (s.part p).ctxs k).isNone) = some c →
        (s.takeBytes p (.saveArea p c) 0x6000000).isSome = true → Completes (.bindContext fn q n) s fun t => done t
          ∧ ∀ k, Map.get? (t.part p).ctxs k = if k = c
              then some { world := w, debug := debug == 1, attached := false, preemptedNote := false }
              else Map.get? (s.part p).ctxs k)
    ∧ (at_ 3 64 0 → zeroAt r 1 63 = true → leAt r 0 1 = c → s.owns fn p = true → (Map.get? (s.part p).ctxs c).isSome = true →
        (∀ e ∈ s.launches, e.2.ctx = c → p ∉ e.2.parts) → Completes (.unbindContext fn q n) s fun t => done t
          ∧ ∀ k, Map.get? (t.part p).ctxs k = if k = c then none else Map.get? (s.part p).ctxs k)
    ∧ (at_ 4 1656 0 → zeroAt r 1 3 = true → leAt r 0 1 = w → own → v.loading = none →
        s.devRead fn (node.record + 1656) (leAt r 4 4) = some l → bundleOf l = some bundle →
        s.sealOk fn w v (leAt l 1 1) bundle = true → Completes (.loadSeal fn q n) s fun t =>
          match hpkeOpen ((s.lodge.keys.map (·.seed)).getD []) s.lodge.fwVersion ((r.drop 8).take 1600) ((r.drop 1608).take 48)
            (Config.sha384 l) with
          | none => Finishes t fn q n .policy
          | some key => ∃ v' y, t.world? w = some v' ∧ v'.st = .sealing ∧ v'.loading = some y ∧ y.key = key ∧ y.bundle = bundle
              ∧ y.prev = v.st ∧ y.next = 0 ∧ v'.regions = v.regions ++ v.newRegions bundle)
    ∧ (at_ 5 64 0 → zeroAt r 1 63 = true → leAt r 0 1 = w → own → Completes (.destroyWorld fn q n) s fun t => done t
        ∧ (∃ v', t.world? w = some v' ∧ v'.st = .ending ∧ v'.endCause = 0 ∧ v'.endTime = s.timebase)
        ∧ ∀ id l, Map.get? t.launches id = some l → l.world ≠ w)
    ∧ (at_ 6 1640 64 → zeroAt r 1 7 = true → node.ringOk = true → leAt r 0 1 = w → own → s.ringStaged fn node = true →
        v.openCount < 8192 → (s.worlds.map fun e => e.2.openCount).sum < 65536 → v.freeHandle = some h →
        Completes (.openSession fn q n) s fun t => done t ∧ ∃ v' y, t.world? w = some v' ∧ Map.get? v'.sessions h = some y
          ∧ y.keys.isSome = true ∧ y.reqCtr = 0 ∧ y.repCtr = 0 ∧ y.produced = 0 ∧ y.ring = node.ring ∧ y.slots = node.slots)
    ∧ (at_ 7 64 0 → zeroAt r 1 1 = true → zeroAt r 4 60 = true → leAt r 0 1 = w → leAt r 2 2 = h → own →
        v.liveSession h = some x → Completes (.closeSession fn q n) s fun t =>
          if s.timebase < x.lock then Finishes t fn q n .busy (wait x) ∧ t.worlds = s.worlds
          else done t ∧ t.world? w = some { v with sessions := Map.put v.sessions h { x with keys := none } })
    ∧ (at_ 8 1640 64 → zeroAt r 1 1 = true → zeroAt r 4 4 = true → leAt r 0 1 = w → leAt r 2 2 = h → own →
        v.liveSession h = some x → s.timebase < x.lock → Completes (.rekey fn q n) s fun t =>
          Finishes t fn q n .busy (wait x) ∧ t.worlds = s.worlds)
    ∧ (at_ 8 1640 64 → zeroAt r 1 1 = true → zeroAt r 4 4 = true → leAt r 0 1 = w → leAt r 2 2 = h → own →
        v.liveSession h = some x → x.lock ≤ s.timebase → Completes (.rekey fn q n) s fun t => done t ∧ ∃ v' y, t.world? w = some v'
          ∧ Map.get? v'.sessions h = some y ∧ y.keys.isSome = true ∧ y.reqCtr = 0 ∧ y.repCtr = 0 ∧ y.ring = x.ring
          ∧ y.produced = x.produced ∧ y.held = x.held)
    ∧ (Dispatched s fn q n 0x06 b → s.lodgeFree = true → leAt b 32 1 = w → own →
        s.devRead fn (BitVec.ofNat 64 (leAt b 16 8)) (leAt b 24 8) = some l → v.nextHandle ≤ 0xFFFF →
        Completes (.pkgload fn q n) s fun t => match parsePackage l with
          | none => Finishes t fn q n .sealFail
          | some k =>
            (s.signatureOk fn v k = false → Finishes t fn q n .sealFail)
            ∧ (s.signatureOk fn v k = true → k.datas = [] → Finishes t fn q n .ok v.nextHandle
              ∧ ∃ v', t.world? w = some v' ∧ Map.get? v'.packages v.nextHandle = some k ∧ v'.nextHandle = v.nextHandle + 1))

/-! ### Administration and firmware (R76, R77, R79, R81, R91, R94, R171) -/

/-- R76 to R81, R91 and R94: partitions are made with the lowest free ways and a new generation, and destroyed with their
launches; a policy item in its range takes its value and leaves the others; a firmware update stages an image, pauses the
functions, pre-empts every launch, and ends with the new version or the old one. -/
def Obligations.AdministrationAndFirmware : Prop :=
  ∀ (s : State) (fn q n : Nat) (b l : List Byte) (ways : List Nat) (i : FwImage) (ok : Bool) (g : Graph),
    let p := leAt b 16 1
    let part := s.part p
    let count := if leAt b 18 1 = 0 then 4 else leAt b 18 1
    let v := leAt b 24 8
    let sets (i : Nat → Nat → Nat → Instr) (item lo hi : Nat) (new : Policy) :=
      Dispatched s fn q n 0x12 b → leAt b 16 1 = item → Completes (i fn q n) s fun t =>
        if lo ≤ v ∧ v ≤ hi then Finishes t fn q n .ok ∧ t.policy = new ∧ SameMemory s t
        else Finishes t fn q n .malformed ∧ t.policy = s.policy
    let mine := (s.lodge.fwNode = some (fn, q, n) ∧ s.lodge.staged = some i ∧ (s.queue fn q).graph = some g)
    (Dispatched s fn q n 0x10 b → s.noScrub p = true → part.vf = 0 → count ≤ 13 → s.freeWays (p / 4) count = some ways →
      Completes (.createPartition fn q n) s fun t => Finishes t fn q n .ok ∧ (t.part p).vf = leAt b 17 1
        ∧ (t.part p).st = .scrubbing ∧ (t.part p).ways = ways ∧ (t.part p).gen = part.gen + 1 ∧ (t.part p).ctxs = []
        ∧ ∀ k, k ≠ p → t.part k = s.part k)
    ∧ (Dispatched s fn q n 0x11 b → part.st ≠ .scrubbing → part.st ≠ .destroying → part.vf ≠ 0 → s.stages p = false →
        Completes (.destroyPartition fn q n) s fun t => Finishes t fn q n .ok ∧ (t.part p).st = .destroying
          ∧ (∀ id l, Map.get? t.launches id = some l → p ∉ l.parts) ∧ ∃ report, .meterReport p report ∈ t.out)
    ∧ sets .setEscalationTime 0 100 100000 { s.policy with escalationUs := v }
    ∧ sets .setQuantum 1 1000 1000000 { s.policy with quantumUs := v }
    ∧ sets .setQuiesceDeadline 2 0 (2 ^ 64 - 1) { s.policy with quiesceUs := v }
    ∧ sets .setScopePolicy 3 0 (2 ^ 32 - 1) { s.policy with scopeWord := BitVec.ofNat 64 v }
    ∧ (Dispatched s fn q n 0x13 b → s.lodgeFree = true → s.devRead fn (BitVec.ofNat 64 (leAt b 16 8)) (leAt b 24 8) = some l →
        Completes (.fwStage fn q n) s fun t => match Config.parseFirmware l with
          | none => Finishes t fn q n .sealFail ∧ t.lodge = s.lodge
          | some i => Finishes t fn q n .ok ∧ t.lodge = { s.lodge with staged := some i })
    ∧ (Dispatched s fn q n 0x14 b → s.lodgeFree = true → s.lodge.fw = .running → s.lodge.staged = some i →
        Completes (.fwActivate fn q n) s fun t =>
        t.lodge = { s.lodge with fw := .pausing, fwSince := s.timebase, fwNode := some (fn, q, n) }
        ∧ ∀ k, (t.func k).pauseAck = false ∧ (k ≠ 0 → (s.func k).enabled = true → (t.func k).vfevent = 1))
    ∧ (s.lodge.fw = .pausing → s.mayQuiesce = true → Completes .quiesce s fun t => t.lodge = { s.lodge with fw := .quiesced }
        ∧ ∀ id l, Map.get? s.launches id = some l →
            Map.get? t.launches id = some (if l.isReady then l else { l with wantPreempt := some 2 }))
    ∧ (s.lodge.fw = .quiesced → (∀ e ∈ s.launches, e.2.isReady = true) → s.copying = false →
        Completes .quiesce s fun t => t = { s with lodge := { s.lodge with fw := .activating } })
    ∧ (s.lodge.fw = .activating → mine → Completes (.fwActivationResult ok) s fun t =>
        t.lodge = { s.lodge with
          fw := .running, fwNode := none, staged := none, fwVersion := if ok then i.version else s.lodge.fwVersion
          keys := if ok then s.lodge.keys.map fun k => { k with seed := seedOf i.version } else s.lodge.keys
          fwDigest := if ok then i.digest else s.lodge.fwDigest }
        ∧ Finishes t fn q n (if ok then .ok else .sealFail)
        ∧ ∀ w v, s.world? w = some v → ∃ v', t.world? w = some v'
            ∧ (v'.held = true ↔ v.held = true ∨ ok = true ∧ ∃ b, v.bundle = some b ∧ i.version < b.minVersion))

/-! ### The KV page map (R153 to R168, R379 to R381) -/

/-- R153, R157, R158 and R168: a KVMAP node's command joins the queue of its world's Espalier, which performs the oldest command
on the map, whole, and completes it; MAPCREATE makes the map of its record, and MAPDESTROY ends a map without holds. The record
lies in one resident or uncached line. -/
def Obligations.MapCommandsPerform : Prop :=
  ∀ (s : State) (fn q n p w cell launch : Nat) (b l : List Byte) (v : World) (m : KvMap) (k : KvReq) (rest : List KvReq),
    let op := leAt b 16 1
    let ctx := leAt b 17 1
    let addr : Word := BitVec.ofNat 64 (leAt b 24 8)
    let r := kvRecOf l
    let d := r.perform m []
    let reads (a : Nat) := a % 64 = 0 ∧ s.normRange w a 64 true = true ∧ s.vaBytes w a 64 = l ∧ s.lineReady (s.paOf w a)
      ∧ paModule (s.paOf w a) = s.pod.self ∧ s.paOf w a % 64 = 0 ∧ s.paOf w (a + 32) = s.paOf w a + 32
    let node := Dispatched s fn q n 0x03 b ∧ kvNodeOk b = true ∧ s.ctxWorld fn ctx = some (p, w) ∧ s.world? w = some v
    let map (t : State) (kv : Option KvMap) := ∃ v', t.world? w = some v' ∧ v'.kv = kv
    let zeros := r.flags = 0 ∧ r.handle = 0 ∧ r.list = 0 ∧ kvZeros l = true
    (node → op ≤ 8 → (∀ e ∈ v.kvq, e.src ≠ .node fn q n) → Completes (.kvmap fn q n) s fun t =>
      t = s.setWorld w { v with
        kvq := v.kvq ++ [{ src := .node fn q n, op := some op, addr := addr, part := p, ctx := ctx }] })
    ∧ (s.world? w = some v → v.kvq = k :: rest → k.src = .cell cell launch → k.op = some r.op → reads k.addr.toNat →
        v.kv = some m → kvZeros l = true → r.fieldsOk = true → r.listBytes = 0 → r.handlesOk m.smax [] = true → d.copies = [] →
        d.writes = [] → Completes (.mapCommandExecute w) s fun t => map t (some d.map)
          ∧ (∃ v', t.world? w = some v' ∧ v'.kvq = rest)
          ∧ ((s.cell cell).run ≠ .idle → (s.cell cell).ident.launch = launch → (t.cell cell).kvm = (s.cell cell).kvm.tail))
    ∧ (node → op = 0x10 → v.kvq = [] → reads addr.toNat → r.op = 0x10 → zeros → r.geometryOk = true → v.kv = none →
        s.normRange w r.hash (r.count * 16384 * r.units) true = true →
        (s.takeBytes v.home (.kvMeta w) (pageBytes * kvMetaPages r)).isSome = true →
        Completes (.mapcreate fn q n) s fun t => map t (some r.newMap) ∧ Finishes t fn q n .ok)
    ∧ (node → op = 0x11 → v.kvq = [] → reads addr.toNat → v.kv = some m → (∀ e ∈ m.holds, e.2 = 0) →
        l = (0x11 : Byte) :: List.replicate 63 0 → Completes (.mapdestroy fn q n) s fun t => map t none ∧ Finishes t fn q n .ok)

/-! ### Requests of the mailbox (R15, R23, R97 to R99, R127 to R135, R151, R152, R279, R284 to R289) -/

/-- R15, R23, R98, R127 to R135, R151 and R152: what the requests of physical function 0 do to a world's pages, to staging memory
and to the clock. The tag of a returned page is the model's own function (log 13), so that clause goes by its answer. -/
def Obligations.MappingRequests : Prop :=
  ∀ (s : State) (fn : Nat) (r : MbReq) (v : World) (e : Nat × Leaf) (level len : Nat) (group : Bool) (cls : PageClass) (f : FaultRec)
    (l : List Byte) (lf : Leaf) (k : Nat),
    let byte (o : Nat) := leAt r.body o 1
    let w := byte 0
    let va := leAt r.body 8 8
    let pa := leAt r.body 16 8
    let tier := paModule pa == s.pod.self && isTier (paLocal pa)
    let ok (t : State) := Answers s t r .ok
    let live := s.world? w = some v ∧ v.st ≠ .ending
    let page := live ∧ v.leafAt va = some e ∧ (v.pageOf e).any v.inPool = false
      ∧ ∀ x ∈ v.pageOf e, x.2.evicted.isNone = true → s.pageBusy w x.1 x.2.pa (leafBytes x.2.level) = false
    let leaf (t : State) (a : Nat) (p : Option Leaf → Prop) := ∃ v', t.world? w = some v' ∧ p (Map.get? v'.leaves a)
    let pa' := leAt r.body 24 8
    let pages := (List.range ((va + pa + pageBytes - 1) / pageBytes - va / pageBytes)).map fun i =>
      v.leafAt (max va ((va / pageBytes + i) * pageBytes))
    (Serves s fn 0x01 r → sizeOf? (byte 4) = some (level, group, len) → classOf? (byte 1) = some cls → byte 2 ≤ 1 → byte 3 ≤ 15 →
      (tier = false → byte 3 = 0) → live → s.pageOk w v va pa len cls = true → v.unmapped va len = true →
      Completes (.mapPage fn) s fun t => ok t ∧ leaf t va fun x =>
        x = some { level := level, pa := pa, cls := cls, w := byte 2 == 1, g := group, evicted := none })
    ∧ (Serves s fn 0x02 r → page → (v.st = .sealed → ∀ x ∈ v.pageOf e, ∀ g ∈ v.regions, g.st = .active →
          rangesMeet g.base (65536 * g.chunks) x.1 (leafBytes x.2.level) = false) →
        Completes (.unmapPage fn) s fun t => ok t ∧ leaf t e.1 fun x => x = none)
    ∧ (Serves s fn 0x03 r → page → byte 2 ≤ 1 → Completes (.protect fn) s fun t => ok t
        ∧ leaf t e.1 fun x => ∃ y, x = some y ∧ y.w = (byte 2 == 1))
    ∧ (Serves s fn 0x04 r → page → e.2.level = 0 → e.2.g = false → e.2.cls = .norm → e.2.evicted = none →
        paModule e.2.pa = s.pod.self → s.devOk fn (BitVec.ofNat 64 pa) 16448 = true → v.evictCtr < 2 ^ 32 - 1 →
        Completes (.evict fn) s fun t => ok t ∧ (leaf t e.1 fun x => x = some { e.2 with pa := 0, evicted := some (v.evictCtr + 1) })
          ∧ ∃ v', t.world? w = some v' ∧ v'.evictCtr = v.evictCtr + 1)
    ∧ (Serves s fn 0x05 r → live → s.devRead fn (BitVec.ofNat 64 pa) 16448 = some l → Map.get? v.leaves va = some lf →
        lf.evicted = some k → paModule pa' = s.pod.self → s.pageOk w v va pa' pageBytes .norm = true →
        Completes (.returnPage fn) s fun t =>
          if (v.openPage w va k l).isSome = true
          then ok t ∧ leaf t va fun x => x = some { lf with pa := pa', evicted := none }
          else Answers s t r .tag ∧ ∃ v', t.world? w = some v' ∧ v'.st = .ending)
    ∧ (Serves s fn 0x06 r → live → va % 4 = 0 → pa ≠ 0 → pa % 4 = 0 → va + pa ≤ 2 ^ 58 →
        (∀ x ∈ pages, ∃ y, x = some y ∧ y.2.cls = .fe ∧ y.2.evicted = none) → Completes (.clearfe fn) s fun t => ok t
          ∧ ∀ i, i < pa / 4 → Map.get false t.full (s.paOf w (va + 4 * i)) = false)
    ∧ (Serves s fn 0x07 r → live → (∃ p ∈ s.pod.ports, p.2.peer = some (byte 1) ∧ p.2.closed = false) →
        Completes (.pair fn) s fun t => ok t ∧ ∃ v', t.world? w = some v' ∧ (byte 1, byte 2) ∈ v'.pairs)
    ∧ (Serves s fn 0x08 r → (s.faults.find? fun f => f.on w va && f.posted) = some f → Completes (.nomap fn) s fun t => ok t
        ∧ t.faults = s.faults.filter (· != f))
    ∧ (Serves s fn 0x09 r → w ≤ 16 → byte 1 ≤ 15 → leAt r.body 4 4 ≤ (s.func w).staging.length → leAt r.body 4 4 ≤ 128 →
        (w ≠ 0 → s.owns w (byte 1) = true) → ((s.func w).staging ≠ [] → (s.func w).stagePart = byte 1) →
        Completes (.stageMem fn) s fun t => (t.func w).staging = (s.func w).staging.take (leAt r.body 4 4)
          ∧ t.lodge.inbox = s.lodge.inbox.tail)
    ∧ (Serves s fn 0x0A r → 1200 ≤ leAt r.body 4 4 → leAt r.body 4 4 ≤ 2800 → Completes (.powerLimit fn) s fun t => ok t
        ∧ t.clock = { s.clock with limitW := leAt r.body 4 4 })
    ∧ (Serves s fn 0x0B r 3072 → w ≤ 15 → (s.part w).vf = 0 → Completes (.bvread fn) s fun t => ok t ∧ t.parts = s.parts
        ∧ t.worlds = s.worlds)

/-- R98 and R284 to R289: trace set-up, attaching, breakpoints, stopping and resuming, reading and writing a stopped cell, and the
world-end records of a function. -/
def Obligations.DebugRequests : Prop :=
  ∀ (s : State) (fn p c bp l n count cell : Nat) (r : MbReq) (x : Context),
    let byte (o : Nat) := leAt r.body o 1
    let ok (t : State) := Answers s t r .ok
    let ring : Word := BitVec.ofNat 64 (leAt r.body 8 8)
    let head : Word := BitVec.ofNat 64 (leAt r.body 16 8)
    let mask := leAt r.body 24 4
    let target := cellOf p (byte 2)
    let d := debugRefOf p r.body
    let held := s.runsContext p c = true
    let stopped := s.stoppedIn p c = true ∧ byte 2 ≤ 23 ∧ s.debugFails d = none
    let mine := s.lodge.worldEnds.filter fun e => e.1 == fn
    let breaks := Map.get? (s.cell cell).bps bp = some (l, n, count) ∧ (s.cell cell).enginesRun = true
      ∧ (∃ k, ((s.cell cell).link l).q.head? = some k ∧ k.kind = .data)
      ∧ n + (((s.cell cell).link l).q.filter fun t => t.kind == .data).length = count + 1
    (Serves s fn 0x20 r → byte 0 = p → 4 ≤ byte 1 → byte 1 ≤ 20 → mask < 2 ^ 24 → s.owns fn p = true →
      (s.stagingRead fn ring (64 * 2 ^ byte 1)).isSome = true → (s.stagingRead fn head 8).isSome = true →
      Completes (.tracecfg fn) s fun t => ok t ∧ (t.part p).trace = some {
        ring := ring, logn := byte 1, head := head, mask := BitVec.ofNat 32 mask, probes := (r.body.drop 32).take 24, tail := 0 })
    ∧ (Serves s fn 0x21 r → byte 0 = p → byte 1 = c → c ≤ 3 → s.owns fn p = true → Map.get? (s.part p).ctxs c = some x →
        x.debug = true → x.attached = false → Completes (.attach fn) s fun t => ok t
          ∧ Map.get? (t.part p).ctxs c = some { x with attached := true, preemptedNote := false })
    ∧ (Debugs s fn 0x22 r p c → Completes (.detach fn) s fun t => ok t ∧ (∃ x, Map.get? (t.part p).ctxs c = some x
        ∧ x.attached = false) ∧ (∀ k ∈ cellsOfPart p, (t.cell k).bps = []) ∧ (held → (t.part p).stop = none))
    ∧ (Debugs s fn 0x23 r p c → bpLink r.body = some l → byte 2 ≤ 23 → byte 3 ≤ 3 → leAt r.body 8 4 ≠ 0 →
        Completes (.setbp fn) s fun t => ok t ∧ (t.cell target).bps = Map.put (s.cell target).bps (byte 3) (l, leAt r.body 8 4, 0)
          ∧ ∀ k, k ≠ target → t.cell k = s.cell k)
    ∧ (Debugs s fn 0x24 r p c → byte 2 ≤ 23 → byte 3 ≤ 3 → Completes (.clrbp fn) s fun t => ok t
        ∧ (t.cell target).bps = Map.erase (s.cell target).bps (byte 3) ∧ ∀ k, k ≠ target → t.cell k = s.cell k)
    ∧ (Debugs s fn 0x25 r p c → held → s.starts p = false → (s.part p).stop = none → Completes (.debugStop fn) s fun t => ok t
        ∧ (t.part p).stop = some ((s.part p).stops + 1) ∧ ∀ k ∈ cellsOfPart p, t.cell k = (s.cell k).freeze)
    ∧ (Debugs s fn 0x26 r p c → held → (s.part p).stop.isSome = true → Completes (.debugResume fn) s fun t => ok t
        ∧ (t.part p).stop = none ∧ ∀ k ∈ cellsOfPart p, t.cell k = (s.cell k).thaw)
    ∧ (Debugs s fn 0x27 r p c (s.debugBytes d).length → stopped → Completes (.debugRead fn) s fun t => ok t ∧ t.cells = s.cells
        ∧ t.parts = s.parts)
    ∧ (Debugs s fn 0x28 r p c → stopped → d.space = 5 → Completes (.debugWrite fn) s fun t => ok t
        ∧ t.cell d.cell = (s.cell d.cell).scratchWrite d.first ((r.body.drop 64).take d.len)
        ∧ ∀ k, k ≠ d.cell → t.cell k = s.cell k)
    ∧ (Serves s fn 0x29 r ((mine.take 64).flatMap fun e => e.2).length → Completes (.worldend fn) s fun t => ok t
        ∧ (t.lodge.worldEnds.filter fun e => e.1 == fn) = mine.drop 64
        ∧ (t.lodge.worldEnds.filter fun e => e.1 != fn) = s.lodge.worldEnds.filter fun e => e.1 != fn)
    ∧ (breaks → partOfCell cell = p → s.starts p = false → (s.part p).stop = none → cell ∈ cellsOfPart p →
      Completes (.breakpointHit cell bp) s fun t =>
        (t.part p).stop = some ((s.part p).stops + 1) ∧ Map.get? (t.cell cell).bps bp = none
        ∧ ((s.cell cell).run = .running → (t.cell cell).run = .stopped false))

/-! ### Faults, the schedule of launches, scrubs, epochs and errors (R69 to R81, R92, R99, R109, R115 to R119, R148 to R150, R219,
R270 to R278) -/

/-- R76 to R81, R92, R99, R109, R115 to R119 and R219: a recoverable fault is posted once; a quantum that has run out calls a
rival; a launch is pre-empted and saved cell by cell; a watchdog resets its partitions; a scrub ends; a pass starts and ends. -/
def Obligations.SchedulingAndScrubs : Prop :=
  ∀ (s : State) (k p id cell reason b : Nat) (l : Launch) (f : FaultRec) (h : Bool) (m : Image) (x : Pass),
    let q := s.part p
    let holds := q.running = some id ∧ Map.get? s.launches id = some l ∧ l.st = .running
    let c := s.cell cell
    let images := Map.put l.images cell { c with run := if h then .halted else .running }
    let all := l.parts.all fun p => (cellsOfPart p).all fun n => (Map.get? images n).isSome
    let runs := c.enginesRun = true ∧ c.phase.st = .running
    (s.faults[k]? = some f → f.posted = false → s.fring.en = true → (∀ y ∈ s.faults.take k, y.posted = true) →
      (s.fring.tail - s.fring.head).toNat < 2 ^ s.fring.logsize → Completes (.faultRecordPost k) s fun t =>
        t.faults = s.faults.set k { f with posted := true } ∧ t.fring = { s.fring with tail := s.fring.tail + 1 }
        ∧ t.out = s.out ++ [.msix 0 8])
    ∧ (holds → s.policy.quantumUs * 1000 ≤ l.held → l.wantPreempt = none → Completes (.quantumExpiry p) s fun t =>
        t = if s.rival l = true then { s with launches := Map.put s.launches id { l with wantPreempt := some 0 } } else s)
    ∧ (holds → l.wantPreempt = some reason → (∀ p ∈ l.parts, ∀ n ∈ cellsOfPart p, ∀ h, (s.cell n).run ≠ .saving h) →
        Completes (.preemptRequest p reason) s fun t => ∀ p ∈ l.parts, (t.part p).stop = none
          ∧ ∀ n ∈ cellsOfPart p, (t.cell n).run = .idle ∨ ∃ h, (t.cell n).run = .saving h)
    ∧ (c.run = .saving h → c.ident.launch = id → Map.get? s.launches id = some l → Completes (.cellSaveComplete cell) s fun t =>
        t.cell cell = c.leftover ∧ (∃ l', Map.get? t.launches id = some l' ∧ l'.images = images
          ∧ l'.st = (if all = true then .preempted else l.st)) ∧ SameMemory s t
        ∧ (all = true → ∀ p ∈ l.parts, (t.part p).running = none ∧ (t.part p).lastLaunch = some id))
    ∧ (Map.get? s.launches id = some l → l.st = .running ∨ l.st = .starting → l.budget ≤ l.used →
        Completes (.watchdogExpiry id) s fun t => Map.get? t.launches id = none
          ∧ ∀ p ∈ l.parts, (t.part p).st = .resetting ∧ (t.part p).resetOf = some l.ending)
    ∧ (q.st = .scrubbing → Completes (.partitionScrubComplete p) s fun t =>
        ((t.part p).st = .ready ∨ (t.part p).st = .running) ∧ (t.part p).lastScrub = s.timebase ∧ (t.part p).lastVf = q.vf
        ∧ ∀ n ∈ cellsOfPart p, (t.cell n).run = .idle ∧ (t.cell n).scratch = [])
    ∧ (q.st = .resetting → Completes (.partitionScrubComplete p) s fun t =>
        ((t.part p).st = .ready ∨ (t.part p).st = .running) ∧ (t.part p).lastScrub = s.timebase ∧ (t.part p).resetOf = none)
    ∧ (q.st = .destroying → Completes (.partitionScrubComplete p) s fun t =>
        (t.part p).st = .unowned ∧ (t.part p).vf = 0 ∧ (t.part p).ways = [] ∧ (t.part p).gen = q.gen)
    ∧ (runs → (∀ x ∈ c.fabric.passes, x.issuedAll = true) → c.choice = some b → Map.get? c.bound b = some m →
        c.cacheHas m.ident = true ∨ s.blocksOk cell = true →
        Completes (.blockChoice cell) s fun t => t.cell cell = c.startPass c.eligibles b m s.timebase ∧ SameMemory s t)
    ∧ (runs → (∀ x ∈ c.fabric.passes, x.issuedAll = true) → c.choice = none → Completes (.blockChoice cell) s fun t =>
        t = s.settlePhase cell)
    ∧ (runs → c.fabric.passes = [x] → c.fabric.sq = [] → c.fabric.allPassed x = true → x.image.together = false → x.inFlight = [] →
        Completes (.passEnd cell) s fun t => (t.cell cell).fabric.passes = [] ∧ (t.cell cell).fabric.sq = []
          ∧ (t.cell cell).seq = c.seq ∧ (c.phase.unparked = [] → (t.cell cell).phase.st = .done))

/-- R29, R36, R44, R69 to R74, R148 to R150, R214, R271 to R278: a world that ends is scrubbed and leaves its record; epochs
close clean when every slice has passed and end the world when one has not; certified replies go out after their epoch; an
error ends the contexts that it can have touched, unless the watchdog has just discarded their launch (R278), and retires the
group of a damaged line. -/
def Obligations.EpochsWorldEndsAndErrors : Prop :=
  ∀ (s u : State) (w p ctx slice h cell site dir pa port unit : Nat) (v v' : World) (y : Loading) (x : Session) (e : Nat)
    (rec_ : List Byte) (rest : List (Nat × List Byte)) (bundle : Bundle) (t0 : LineTag) (victims : List (Nat × Nat)) (err : ErrSite),
    let world := s.world? w = some v
    let live := world ∧ v.st ≠ .ending
    let ends (t : State) := ∃ z, t.world? w = some z ∧ z.st = .ending
    let gone (t : State) (p ctx : Nat) := (∀ e, (s.part p).resetOf = some e → e.ctx ≠ ctx) → Map.get? (t.part p).ctxs ctx = none
    let c := s.cell cell
    let hash := Map.get SliceHash.reset v'.hashes slice
    let q := { x with consumed := s.ringConsumed v.vf x }
    let line := pa / 64
    (world → v.loading = some y → y.last + 10000000000 ≤ s.timebase → Completes (.sealingTimeout w) s fun t =>
      ∃ z, t.world? w = some z ∧ z.loading = none ∧ (z.st = y.prev ∨ z.st = .ending))
    ∧ (world → v.st = .ending → s.scrubsReady v = true → Completes (.worldScrubComplete w) s fun t => t.world? w = none
        ∧ t.lodge.worldEnds = s.lodge.worldEnds ++ [(v.vf, v.endRecord w)] ∧ (t.func v.vf).vfevent = 3)
    ∧ (live → v.sweeping = [] → v.epochStart + v.periodNs ≤ s.timebase → Completes (.epochEnd w) s fun t => ∃ z,
        t = s.setWorld w z ∧ z.epoch = v.epoch + 1 ∧ z.epochStart = v.epochStart + v.periodNs ∧ z.periodNs = s.periodNow w v
        ∧ z.sweeping = v.hashes.map (·.1) ∧ z.clean = (if v.hashes = [] then some v.epoch else v.clean))
    ∧ (live → slice ∈ v.sweeping → s.sweepSlice w (v.epoch - 1) slice = some u → u.world? w = some v' → v'.st ≠ .ending →
        Completes (.sweepComplete w slice) s fun t =>
          if hash.hr = hash.hw then ∃ z, t = u.setWorld w z ∧ z.sweeping = v'.sweeping.filter (· != slice)
            ∧ z.hashes = Map.put v'.hashes slice hash.shift
          else ends t)
    ∧ (live → slice ∈ v.sweeping → s.sweepSlice w (v.epoch - 1) slice = none → Completes (.sweepComplete w slice) s ends)
    ∧ (live → Map.get? v.sessions h = some x → x.held = (e, rec_) :: rest → (∃ k, v.clean = some k ∧ e ≤ k) →
        q.produced - q.consumed < q.slots → Completes (.certifiedReplyRelease w h) s fun t => ∃ z, t.world? w = some z
          ∧ Map.get? z.sessions h = some { q with held := rest, produced := x.produced + 1 })
    ∧ (live → v.bundle = some bundle → bundle.interval ≠ 0 → v.lastMeter + bundle.interval * 1000000000 ≤ s.timebase →
        Completes (.meterIntervalExpiry w) s fun t => t.world? w = some { v with lastMeter := s.timebase }
          ∧ ∀ e ∈ s.parts, (∃ c ∈ e.2.ctxs, c.2.world = w) → ∃ l, .meterReport e.1 l ∈ t.out)
    ∧ (c.run ≠ .idle → err = .cellStore cell ∨ err = .linkSlot cell ∨ err = .arbourGroup cell →
        Completes (.uncorrectableError err) s fun t => gone t c.ident.part c.ident.ctx)
    ∧ (Completes (.uncorrectableError (.hbmLine pa p ctx)) s fun t => gone t p ctx ∧ line / 1024 ∈ t.retired)
    ∧ (Completes (.uncorrectableError (.l1Line cell line)) s fun t => Map.get? (t.cell cell).l1 line = none
        ∧ Map.get 0 t.hyper 9 = Map.get 0 s.hyper 9 + 1 ∧ SameMemory s t)
    ∧ (Completes (.uncorrectableError (.commonsTag line)) s fun t => Map.get? t.lines line = none
        ∧ ∀ e ∈ (s.part (s.homePart (64 * line))).ctxs, gone t (s.homePart (64 * line)) e.1)
    ∧ (Completes (.uncorrectableError (.bandstand unit)) s fun t => unit ∈ t.reloading)
    ∧ (Completes (.uncorrectableError (.gardener unit)) s fun t => 4 + unit ∈ t.reloading)
    ∧ (Completes (.unitReloadComplete unit) s fun t => t = { s with reloading := s.reloading.filter (· != unit) })
    ∧ (Map.get? s.lines line = some t0 → t0.dirty = true → Completes (.dirtyLineError pa) s fun t =>
        gone t t0.part t0.owner ∧ line / 1024 ∈ t.retired ∧ (dieOfPart t0.part, sliceOf line, t0.way, t0.part) ∈ t.quarantined)
    ∧ (Map.get? s.lines line = some t0 → t0.dirty = false → s.protectedWorld line = none → Completes (.cleanLineError pa) s fun t =>
        t = s.hyperAdd 9 1)
    ∧ (Map.get? s.lines line = some t0 → t0.dirty = false → s.protectedWorld line = some w → live →
        Completes (.cleanLineError pa) s fun t =>
          if Map.get 0 s.stamps line = t0.stamp ∧ (s.term v line (Map.get 0 s.stamps line)).extractLsb' 0 64 = t0.check
          then t = s.hyperAdd 9 1 else ends t)
    ∧ ((c.link (linkOf site dir)).q ≠ [] → c.run ≠ .idle → Completes (.tokenParityError cell site dir) s fun t =>
        gone t c.ident.part c.ident.ctx)
    ∧ ((∃ r ∈ c.remote, r.late s.timebase = true) → c.run ≠ .idle →
        Completes (.remoteAccessTimeout cell) s fun t => gone t c.ident.part c.ident.ctx)
    ∧ (Completes (.cxlPoisonRead p ctx) s fun t => gone t p ctx
        ∧ ((Map.get? (s.part p).ctxs ctx).isSome = true → (s.part p).resetOf = none → .msix 0 7 ∈ t.out))
    ∧ (Completes (.cxlPortDown port victims) s fun t => port ∈ t.cxlDown ∧ ∀ x ∈ victims, gone t x.1 x.2)

/-! ### Encodings (R302 to R322) -/

/-- Words and records that the spec writes out, one or more of each group of R304, decode to the instruction that it writes beside
them (R301, R316, R319, chapters 14 to 21), and words that R303 refuses are refused by their check. -/
def Obligations.WordsDecodeAsTheSpecWritesThem : Prop :=
  let rec_ (d : Bool) (a b c : Src) (ty : ElTy) (lvl : BitVec 2) (imm : BitVec 8) (sw link : BitVec 16) : ElemRec :=
    { d := d, srcA := a, srcB := b, srcC := c, ty := ty, var := 0, lvl := lvl, imm8 := imm, sw := sw, link := link }
  decode 0x00632000 = .ok (.add 3 3 4) ∧ decode 0x04410010 = .ok (.addi 2 1 16) ∧ decode 0x25801402 = .ok (.movk 12 0 0x1402)
  ∧ decode 0x21214000 = .ok (.lui 9 1 0x4000) ∧ decode 0x4460FFFD = .ok (.bne 3 0 0xFFFD)
  ∧ decode 0x5960FFF0 = .ok (.dbnz 11 0xFFF0) ∧ decode 0x5C000000 = .ok (.jmp 0)
  ∧ decode 0x88810000 = .ok (.ldw 4 1 0) ∧ decode 0xA8610000 = .ok (.stw 3 1 0)
  ∧ decode 0xB6B60018 = .ok (.ldaq 21 22 .part false) ∧ decode 0xB40000A2 = .ok (.fence .full .dev)
  ∧ decode 0xB8C74120 = .ok (.aadd 6 7 8 .dev .acquire false) ∧ decode 0xBC0C500D = .ok (.stfe 12 10 .pod)
  ∧ decode 0xC0642820 = .ok (.fadd 3 4 5 .rtz false) ∧ decode 0xC0E84916 = .ok (.fcmp 7 8 9 .lt true)
  ∧ decode 0xC4E00000 = .ok (.ctlrd 7 0) ∧ decode 0xC8000006 = .ok .halt ∧ decode 0xFC000000 = .ok .dual
  ∧ decodeDual 0xC0642802 = some (.fmul 3 4 5 .rne false)
  ∧ decode 0xCC432161 = .ok (.sfeed 2 3 4 (some 5)) ∧ decode 0xCE804801 = .ok (.sfeed 20 0 9 none)
  ∧ decode 0xD0816800 = .ok (.mma 4 false true 13 none) ∧ decode 0xD04E0004 = .ok (.atob 2 14 none)
  ∧ decode 0xD4310000 = .ok (.binit 1 17 0) ∧ decode 0xD8063800 = .ok (.evsetTerm 0 6 7)
  ∧ decode 0xDB600262 = .ok (.evfire 3 (some 9)) ∧ decode 0xDCC12800 = .ok (.brun 6 1 5 none)
  ∧ decode 0xE2800001 = .ok (.kvapp 20 none) ∧ decode 0xE4A63801 = .ok (.sseal 5 6 7 none)
  ∧ decode 0xE8800003 = .ok (.cwait 4)
  ∧ decodeElem 0xA306200002100120 = .ok (.elemFma (rec_ true .n .e .c0 .f32 0 0 0x0210 0x0120))
  ∧ decodeElem 0x1A0C020000100010 = .ok (.elemCmp (rec_ false .n .w .n .i32 2 0 0x0010 0x0010))
  ∧ decodeElem 0x5000200201000100 = .ok (.elemLin (rec_ false .n .n .n .f32 0 2 0x0100 0x0100))
  ∧ decodeElem 0x2278203800010001 = .ok (.elemFmul (rec_ false .w .imm .n .f32 0 0x38 1 1))
  ∧ decodeElem 0xC07C210000600010 = .ok (.elemRsum (rec_ true .w .carry .n .f32 1 0 0x0060 0x0010))
  ∧ decodeElem 0x0000000000200010 = .ok .elemRoute
  ∧ decode 0 = .error .zeroWord ∧ decode 0x28000000 = .error .reservedMajor ∧ decode 0x0000001C = .error .reservedFunction
  ∧ decode 0xC0642C20 = .error .nonZeroField ∧ decode 0x58410000 = .error .unusedRegister
  ∧ decode 0xFC000001 = .error .badPrefix ∧ decodeDual 0x04410010 = none

/-- R302 to R322: every well-formed sequencer instruction decodes from its word to itself, every element operation from its
record, with every operand at every value. -/
def Obligations.EncodedInstructionsDecodeToThemselves : Prop :=
  (∀ (i : Instr) (w : W32), i.wellFormed = true → encode i = some w → decode w = .ok i)
  ∧ ∀ (i : Instr) (r : BitVec 64), encodeElem i = some r → decodeElem r = .ok i

/-- R303 and R316: a word that is not refused is the word of the well-formed instruction it decodes to, so no two words have one
meaning; the same of records, of which a route alone leaves bits to the configuration; and the second word of a dual pair reads
as the plain instruction, for exactly those words whose instruction has a dual form. -/
def Obligations.DecodedWordsEncodeToThemselves : Prop :=
  (∀ (w : W32) (i : Instr), decode w = .ok i → encode i = some w ∧ i.wellFormed = true)
  ∧ (∀ (r : BitVec 64) (i : Instr), decodeElem r = .ok i →
      encodeElem i = some r ∨ i = .elemRoute ∧ r.extractLsb' 32 32 = 0)
  ∧ ∀ (w : W32) (i : Instr), (∃ f, decodeDual w = some f ∧ f.plain = i) ↔ decode w = .ok i ∧ i.hasDual = true

/-! ### The step, reset and the invariant -/

/-- R219, R266, R303 and R324, with the schedule of log 1 (the model's choice): a turn of a running sequencer with no report
due is the instruction its word decodes to, on the state with that cell in focus; a refused word is ILL; a pc outside the code
segment is PERM; a report that is due comes first; a turn of a site is the element operation it is configured with; an event
is itself; with nothing scheduled the sequencer in focus goes on. -/
def Obligations.StepRunsTheScheduledInstruction : Prop :=
  ∀ (s : State) (n site d : Nat) (rest : List Move) (i : Instr),
    let at_ (site out : Nat) : State := { s with agenda := rest, focus := { cell := n, site := site, out := out } }
    let c := s.cell n
    (s.agenda = .seq n :: rest → c.run = .running →
      (c.reportDue = false → c.inCode c.seq.pc = true →
        (decode (c.codeWord c.seq.pc) = .ok i → step s = exec i (at_ 0 0))
        ∧ ∀ e, decode (c.codeWord c.seq.pc) = .error e → step s = exec (.illegalInstructionWord (c.codeWord c.seq.pc)) (at_ 0 0))
      ∧ (c.reportDue = false → c.inCode c.seq.pc = false → step s = .next ((at_ 0 0).takeTrap n .perm c.seq.pc 0))
      ∧ (c.reportDue = true → step s = exec (.asyncReportDelivery n) (at_ 0 0)))
    ∧ (s.agenda = [] → s.cur.run = .running → s.cur.reportDue = false → s.cur.inCode s.cur.seq.pc = true →
        decode s.word = .ok i → step s = exec i s)
    ∧ (∀ p x, s.agenda = .fire n site :: rest → c.fabric.passAt site = some p → p.rec? site = some x →
        decodeElem (encRec x.op x.r) = .ok i → step s = exec i (at_ site 0))
    ∧ (s.agenda = .route n site d :: rest → step s = exec .elemRoute (at_ site d))
    ∧ (s.agenda = .event i :: rest → fetchedKind i = false → step s = exec i { s with agenda := rest })

/-- The model never stops: every instruction, on every state, and every step answers a next state. The spec gives each happening
of the module an effect: a trap, a status or a world end. -/
def Obligations.EveryStepAnswersANextState : Prop :=
  ∀ (s : State), (∃ t, step s = .next t) ∧ ∀ i, ∃ t, exec i s = .next t

/-- R15, R17 to R20 and R76: after reset boot stage 1 runs without a failure under the default limit of 2,800 W, no world,
launch or cell runs, each partition is Unowned, no function is enabled and no key exists. By the model's choice the clock
stands at 1.6 GHz (log 10), every register and shadow of a cell holds zero (log 9) and memory reads zero (log 8). The
invariant holds. -/
def Obligations.ResetLeavesTheSpecifiedState : Prop :=
  let s := State.reset
  s.boot = { stage := 1, fail := false, unit := 0 } ∧ s.clock.mhz = 1600 ∧ s.clock.limitW = 2800 ∧ s.clock.pinned = false
  ∧ s.worlds = [] ∧ s.launches = [] ∧ s.lodge.keys = none ∧ s.booted = false
  ∧ (∀ p, (s.part p).st = .unowned ∧ (s.part p).vf = 0 ∧ (s.part p).running = none)
  ∧ (∀ f, (s.func f).enabled = false ∧ (s.func f).mbBusy = false)
  ∧ (∀ n, (s.cell n).run = .idle ∧ (s.cell n).seq.kvec = 0 ∧ (s.cell n).seq.handlerActive = false ∧ (s.cell n).seq.wb = [])
  ∧ (∀ n r, (s.cell n).reg r = 0 ∧ ∀ k, (s.cell n).shadow r k = 0)
  ∧ (∀ a, readMem s.mem a = 0 ∧ readMem s.hostMem a = 0) ∧ s.Inv

/-- R15, R18 and R19: every step keeps the invariant of `State.Inv`, whatever is scheduled. -/
def Obligations.EveryStepKeepsTheInvariant : Prop :=
  ∀ (s t : State), s.Inv → step s = .next t → t.Inv
end

