-- ==== Sys2Proof/Laws/Dispatch.lean ====
section
/-! SUPPORT. The dispatcher arm by arm: each constructor runs its own meaning. -/

namespace Sys2Proof.Machine

variable (s : State)

@[simp] theorem exec_add (d a b : Reg) :
    exec (.add d a b) s = execAdd d a b s := rfl
@[simp] theorem exec_sub (d a b : Reg) :
    exec (.sub d a b) s = execSub d a b s := rfl
@[simp] theorem exec_mul (d a b : Reg) :
    exec (.mul d a b) s = execMul d a b s := rfl
@[simp] theorem exec_mulh (d a b : Reg) :
    exec (.mulh d a b) s = execMulh d a b s := rfl
@[simp] theorem exec_mulhn (d a b : Reg) :
    exec (.mulhn d a b) s = execMulhn d a b s := rfl
@[simp] theorem exec_div (d a b : Reg) :
    exec (.div d a b) s = execDiv d a b s := rfl
@[simp] theorem exec_divn (d a b : Reg) :
    exec (.divn d a b) s = execDivn d a b s := rfl
@[simp] theorem exec_rem (d a b : Reg) :
    exec (.rem d a b) s = execRem d a b s := rfl
@[simp] theorem exec_remn (d a b : Reg) :
    exec (.remn d a b) s = execRemn d a b s := rfl
@[simp] theorem exec_and (d a b : Reg) :
    exec (.and d a b) s = execAnd d a b s := rfl
@[simp] theorem exec_or (d a b : Reg) :
    exec (.or d a b) s = execOr d a b s := rfl
@[simp] theorem exec_xor (d a b : Reg) :
    exec (.xor d a b) s = execXor d a b s := rfl
@[simp] theorem exec_andn (d a b : Reg) :
    exec (.andn d a b) s = execAndn d a b s := rfl
@[simp] theorem exec_shl (d a b : Reg) :
    exec (.shl d a b) s = execShl d a b s := rfl
@[simp] theorem exec_shr (d a b : Reg) :
    exec (.shr d a b) s = execShr d a b s := rfl
@[simp] theorem exec_sha (d a b : Reg) :
    exec (.sha d a b) s = execSha d a b s := rfl
@[simp] theorem exec_rot (d a b : Reg) :
    exec (.rot d a b) s = execRot d a b s := rfl
@[simp] theorem exec_min (d a b : Reg) :
    exec (.min d a b) s = execMin d a b s := rfl
@[simp] theorem exec_max (d a b : Reg) :
    exec (.max d a b) s = execMax d a b s := rfl
@[simp] theorem exec_minn (d a b : Reg) :
    exec (.minn d a b) s = execMinn d a b s := rfl
@[simp] theorem exec_maxn (d a b : Reg) :
    exec (.maxn d a b) s = execMaxn d a b s := rfl
@[simp] theorem exec_slt (d a b : Reg) :
    exec (.slt d a b) s = execSlt d a b s := rfl
@[simp] theorem exec_sltn (d a b : Reg) :
    exec (.sltn d a b) s = execSltn d a b s := rfl
@[simp] theorem exec_seq (d a b : Reg) :
    exec (.seq d a b) s = execSeq d a b s := rfl
@[simp] theorem exec_clz (d a : Reg) :
    exec (.clz d a) s = execClz d a s := rfl
@[simp] theorem exec_ctz (d a : Reg) :
    exec (.ctz d a) s = execCtz d a s := rfl
@[simp] theorem exec_popc (d a : Reg) :
    exec (.popc d a) s = execPopc d a s := rfl
@[simp] theorem exec_sel (d a b : Reg) :
    exec (.sel d a b) s = execSel d a b s := rfl
@[simp] theorem exec_addi (d a : Reg) (i : BitVec 16) :
    exec (.addi d a i) s = execAddi d a i s := rfl
@[simp] theorem exec_andi (d a : Reg) (i : BitVec 16) :
    exec (.andi d a i) s = execAndi d a i s := rfl
@[simp] theorem exec_ori (d a : Reg) (i : BitVec 16) :
    exec (.ori d a i) s = execOri d a i s := rfl
@[simp] theorem exec_xori (d a : Reg) (i : BitVec 16) :
    exec (.xori d a i) s = execXori d a i s := rfl
@[simp] theorem exec_shlImmediate (d a : Reg) (n : BitVec 6) :
    exec (.shlImmediate d a n) s = execShlImmediate d a n s := rfl
@[simp] theorem exec_shrImmediate (d a : Reg) (n : BitVec 6) :
    exec (.shrImmediate d a n) s = execShrImmediate d a n s := rfl
@[simp] theorem exec_shaImmediate (d a : Reg) (n : BitVec 6) :
    exec (.shaImmediate d a n) s = execShaImmediate d a n s := rfl
@[simp] theorem exec_rotImmediate (d a : Reg) (n : BitVec 6) :
    exec (.rotImmediate d a n) s = execRotImmediate d a n s := rfl
@[simp] theorem exec_slti (d a : Reg) (i : BitVec 16) :
    exec (.slti d a i) s = execSlti d a i s := rfl
@[simp] theorem exec_sltni (d a : Reg) (i : BitVec 16) :
    exec (.sltni d a i) s = execSltni d a i s := rfl
@[simp] theorem exec_lui (d : Reg) (h : BitVec 2) (i : BitVec 16) :
    exec (.lui d h i) s = execLui d h i s := rfl
@[simp] theorem exec_movk (d : Reg) (h : BitVec 2) (i : BitVec 16) :
    exec (.movk d h i) s = execMovk d h i s := rfl
@[simp] theorem exec_beq (a b : Reg) (o : BitVec 16) :
    exec (.beq a b o) s = execBeq a b o s := rfl
@[simp] theorem exec_bne (a b : Reg) (o : BitVec 16) :
    exec (.bne a b o) s = execBne a b o s := rfl
@[simp] theorem exec_blt (a b : Reg) (o : BitVec 16) :
    exec (.blt a b o) s = execBlt a b o s := rfl
@[simp] theorem exec_bge (a b : Reg) (o : BitVec 16) :
    exec (.bge a b o) s = execBge a b o s := rfl
@[simp] theorem exec_bltn (a b : Reg) (o : BitVec 16) :
    exec (.bltn a b o) s = execBltn a b o s := rfl
@[simp] theorem exec_bgen (a b : Reg) (o : BitVec 16) :
    exec (.bgen a b o) s = execBgen a b o s := rfl
@[simp] theorem exec_dbnz (a : Reg) (o : BitVec 16) :
    exec (.dbnz a o) s = execDbnz a o s := rfl
@[simp] theorem exec_jmp (o : BitVec 26) :
    exec (.jmp o) s = execJmp o s := rfl
@[simp] theorem exec_call (o : BitVec 26) :
    exec (.call o) s = execCall o s := rfl
@[simp] theorem exec_jr (a : Reg) :
    exec (.jr a) s = execJr a s := rfl
@[simp] theorem exec_jrLink (a : Reg) :
    exec (.jrLink a) s = execJrLink a s := rfl
@[simp] theorem exec_ldb (d a : Reg) (o : BitVec 16) :
    exec (.ldb d a o) s = execLdb d a o s := rfl
@[simp] theorem exec_ldh (d a : Reg) (o : BitVec 16) :
    exec (.ldh d a o) s = execLdh d a o s := rfl
@[simp] theorem exec_ldw (d a : Reg) (o : BitVec 16) :
    exec (.ldw d a o) s = execLdw d a o s := rfl
@[simp] theorem exec_ldd (d a : Reg) (o : BitVec 16) :
    exec (.ldd d a o) s = execLdd d a o s := rfl
@[simp] theorem exec_ldbn (d a : Reg) (o : BitVec 16) :
    exec (.ldbn d a o) s = execLdbn d a o s := rfl
@[simp] theorem exec_ldhn (d a : Reg) (o : BitVec 16) :
    exec (.ldhn d a o) s = execLdhn d a o s := rfl
@[simp] theorem exec_ldwn (d a : Reg) (o : BitVec 16) :
    exec (.ldwn d a o) s = execLdwn d a o s := rfl
@[simp] theorem exec_lds (d a : Reg) (o : BitVec 16) :
    exec (.lds d a o) s = execLds d a o s := rfl
@[simp] theorem exec_stb (d a : Reg) (o : BitVec 16) :
    exec (.stb d a o) s = execStb d a o s := rfl
@[simp] theorem exec_sth (d a : Reg) (o : BitVec 16) :
    exec (.sth d a o) s = execSth d a o s := rfl
@[simp] theorem exec_stw (d a : Reg) (o : BitVec 16) :
    exec (.stw d a o) s = execStw d a o s := rfl
@[simp] theorem exec_std (d a : Reg) (o : BitVec 16) :
    exec (.std d a o) s = execStd d a o s := rfl
@[simp] theorem exec_sts (d a : Reg) (o : BitVec 16) :
    exec (.sts d a o) s = execSts d a o s := rfl
@[simp] theorem exec_ldaq (d a : Reg) (c : Scope) (dbl : Bool) :
    exec (.ldaq d a c dbl) s = execLdaq d a c dbl s := rfl
@[simp] theorem exec_strl (a b : Reg) (c : Scope) (dbl : Bool) :
    exec (.strl a b c dbl) s = execStrl a b c dbl s := rfl
@[simp] theorem exec_fence (k : FenceKind) (c : Scope) :
    exec (.fence k c) s = execFence k c s := rfl
@[simp] theorem exec_aadd (d a b : Reg) (c : Scope) (o : Order) (dbl : Bool) :
    exec (.aadd d a b c o dbl) s = execAadd d a b c o dbl s := rfl
@[simp] theorem exec_amin (d a b : Reg) (c : Scope) (o : Order) (dbl : Bool) :
    exec (.amin d a b c o dbl) s = execAmin d a b c o dbl s := rfl
@[simp] theorem exec_amax (d a b : Reg) (c : Scope) (o : Order) (dbl : Bool) :
    exec (.amax d a b c o dbl) s = execAmax d a b c o dbl s := rfl
@[simp] theorem exec_aminn (d a b : Reg) (c : Scope) (o : Order) (dbl : Bool) :
    exec (.aminn d a b c o dbl) s = execAminn d a b c o dbl s := rfl
@[simp] theorem exec_amaxn (d a b : Reg) (c : Scope) (o : Order) (dbl : Bool) :
    exec (.amaxn d a b c o dbl) s = execAmaxn d a b c o dbl s := rfl
@[simp] theorem exec_aand (d a b : Reg) (c : Scope) (o : Order) (dbl : Bool) :
    exec (.aand d a b c o dbl) s = execAand d a b c o dbl s := rfl
@[simp] theorem exec_aor (d a b : Reg) (c : Scope) (o : Order) (dbl : Bool) :
    exec (.aor d a b c o dbl) s = execAor d a b c o dbl s := rfl
@[simp] theorem exec_axor (d a b : Reg) (c : Scope) (o : Order) (dbl : Bool) :
    exec (.axor d a b c o dbl) s = execAxor d a b c o dbl s := rfl
@[simp] theorem exec_axchg (d a b : Reg) (c : Scope) (o : Order) (dbl : Bool) :
    exec (.axchg d a b c o dbl) s = execAxchg d a b c o dbl s := rfl
@[simp] theorem exec_acas (d a b : Reg) (c : Scope) (o : Order) (dbl : Bool) :
    exec (.acas d a b c o dbl) s = execAcas d a b c o dbl s := rfl
@[simp] theorem exec_afadd (d a b : Reg) (c : Scope) (o : Order) :
    exec (.afadd d a b c o) s = execAfadd d a b c o s := rfl
@[simp] theorem exec_ldfe (d a : Reg) (c : Scope) :
    exec (.ldfe d a c) s = execLdfe d a c s := rfl
@[simp] theorem exec_stfe (a b : Reg) (c : Scope) :
    exec (.stfe a b c) s = execStfe a b c s := rfl
@[simp] theorem exec_fepeek (d a : Reg) (c : Scope) :
    exec (.fepeek d a c) s = execFepeek d a c s := rfl
@[simp] theorem exec_fadd (d a b : Reg) (r : Rnd) (w : Bool) :
    exec (.fadd d a b r w) s = execFadd d a b r w s := rfl
@[simp] theorem exec_fsub (d a b : Reg) (r : Rnd) (w : Bool) :
    exec (.fsub d a b r w) s = execFsub d a b r w s := rfl
@[simp] theorem exec_fmul (d a b : Reg) (r : Rnd) (w : Bool) :
    exec (.fmul d a b r w) s = execFmul d a b r w s := rfl
@[simp] theorem exec_ffma (d a b : Reg) (r : Rnd) (w : Bool) :
    exec (.ffma d a b r w) s = execFfma d a b r w s := rfl
@[simp] theorem exec_fmin (d a b : Reg) (w : Bool) :
    exec (.fmin d a b w) s = execFmin d a b w s := rfl
@[simp] theorem exec_fmax (d a b : Reg) (w : Bool) :
    exec (.fmax d a b w) s = execFmax d a b w s := rfl
@[simp] theorem exec_fcmp (d a b : Reg) (c : Cond) (w : Bool) :
    exec (.fcmp d a b c w) s = execFcmp d a b c w s := rfl
@[simp] theorem exec_fcvt (d a : Reg) (k : Cvk) (r : Rnd) (w : Bool) :
    exec (.fcvt d a k r w) s = execFcvt d a k r w s := rfl
@[simp] theorem exec_fsqrt (d a : Reg) (r : Rnd) (w : Bool) :
    exec (.fsqrt d a r w) s = execFsqrt d a r w s := rfl
@[simp] theorem exec_frcp (d a : Reg) (r : Rnd) (w : Bool) :
    exec (.frcp d a r w) s = execFrcp d a r w s := rfl
@[simp] theorem exec_ctlrd (d : Reg) (n : BitVec 9) :
    exec (.ctlrd d n) s = execCtlrd d n s := rfl
@[simp] theorem exec_ctlwr (a : Reg) (n : BitVec 9) :
    exec (.ctlwr a n) s = execCtlwr a n s := rfl
@[simp] theorem exec_ctlset (a : Reg) (n : BitVec 9) :
    exec (.ctlset a n) s = execCtlset a n s := rfl
@[simp] theorem exec_ctlclr (a : Reg) (n : BitVec 9) :
    exec (.ctlclr a n) s = execCtlclr a n s := rfl
@[simp] theorem exec_snop :
    exec (.snop) s = execSnop s := rfl
@[simp] theorem exec_trap (c : BitVec 7) :
    exec (.trap c) s = execTrap c s := rfl
@[simp] theorem exec_waitev (x : Reg) :
    exec (.waitev x) s = execWaitev x s := rfl
@[simp] theorem exec_yield :
    exec (.yield) s = execYield s := rfl
@[simp] theorem exec_kret :
    exec (.kret) s = execKret s := rfl
@[simp] theorem exec_brk :
    exec (.brk) s = execBrk s := rfl
@[simp] theorem exec_halt :
    exec (.halt) s = execHalt s := rfl
@[simp] theorem exec_dual :
    exec (.dual) s = execDual s := rfl
@[simp] theorem exec_scopy (x y z : Reg) (gate : Option Reg) :
    exec (.scopy x y z gate) s = execScopy x y z gate s := rfl
@[simp] theorem exec_sfeed (x y z : Reg) (gate : Option Reg) :
    exec (.sfeed x y z gate) s = execSfeed x y z gate s := rfl
@[simp] theorem exec_sdrain (x y z : Reg) (gate : Option Reg) :
    exec (.sdrain x y z gate) s = execSdrain x y z gate s := rfl
@[simp] theorem exec_sgath (x y z : Reg) (gate : Option Reg) :
    exec (.sgath x y z gate) s = execSgath x y z gate s := rfl
@[simp] theorem exec_sscat (x y z : Reg) (gate : Option Reg) :
    exec (.sscat x y z gate) s = execSscat x y z gate s := rfl
@[simp] theorem exec_swait (st : BitVec 4) :
    exec (.swait st) s = execSwait st s := rfl
@[simp] theorem exec_scancel (st : BitVec 4) :
    exec (.scancel st) s = execScancel st s := rfl
@[simp] theorem exec_sunseal (x y z : Reg) (gate : Option Reg) :
    exec (.sunseal x y z gate) s = execSunseal x y z gate s := rfl
@[simp] theorem exec_stfill (x y z : Reg) (gate : Option Reg) :
    exec (.stfill x y z gate) s = execStfill x y z gate s := rfl
@[simp] theorem exec_mma (t : BitVec 3) (bsel asel : Bool) (z : Reg) (gate : Option Reg) :
    exec (.mma t bsel asel z gate) s = execMma t bsel asel z gate s := rfl
@[simp] theorem exec_mmag (t : BitVec 3) (bsel asel : Bool) (z : Reg) (gate : Option Reg) :
    exec (.mmag t bsel asel z gate) s = execMmag t bsel asel z gate s := rfl
@[simp] theorem exec_aclr (t : BitVec 3) (gate : Option Reg) :
    exec (.aclr t gate) s = execAclr t gate s := rfl
@[simp] theorem exec_ascale (t : BitVec 3) (y : Reg) (gate : Option Reg) :
    exec (.ascale t y gate) s = execAscale t y gate s := rfl
@[simp] theorem exec_atob (t : BitVec 3) (y : Reg) (gate : Option Reg) :
    exec (.atob t y gate) s = execAtob t y gate s := rfl
@[simp] theorem exec_acpy (t u : BitVec 3) (gate : Option Reg) :
    exec (.acpy t u gate) s = execAcpy t u gate s := rfl
@[simp] theorem exec_mwait :
    exec (.mwait) s = execMwait s := rfl
@[simp] theorem exec_bdrop (q : BitVec 2) (y : Reg) (gate : Option Reg) :
    exec (.bdrop q y gate) s = execBdrop q y gate s := rfl
@[simp] theorem exec_binit (b : BitVec 5) (y z : Reg) :
    exec (.binit b y z) s = execBinit b y z s := rfl
@[simp] theorem exec_barrive (b : BitVec 5) (gate : Option Reg) :
    exec (.barrive b gate) s = execBarrive b gate s := rfl
@[simp] theorem exec_bexpect (b : BitVec 5) (y : Reg) (gate : Option Reg) :
    exec (.bexpect b y gate) s = execBexpect b y gate s := rfl
@[simp] theorem exec_bwaitb (b : BitVec 5) :
    exec (.bwaitb b) s = execBwaitb b s := rfl
@[simp] theorem exec_btest (x : Reg) (b : BitVec 5) :
    exec (.btest x b) s = execBtest x b s := rfl
@[simp] theorem exec_evsetTerm (g : BitVec 4) (y z : Reg) :
    exec (.evsetTerm g y z) s = execEvsetTerm g y z s := rfl
@[simp] theorem exec_evsetCounter (c : BitVec 4) (y : Reg) :
    exec (.evsetCounter c y) s = execEvsetCounter c y s := rfl
@[simp] theorem exec_evsetTimer (y : Reg) :
    exec (.evsetTimer y) s = execEvsetTimer y s := rfl
@[simp] theorem exec_evclr (x : Reg) :
    exec (.evclr x) s = execEvclr x s := rfl
@[simp] theorem exec_evfire (e : BitVec 3) (gate : Option Reg) :
    exec (.evfire e gate) s = execEvfire e gate s := rfl
@[simp] theorem exec_evread (x : Reg) :
    exec (.evread x) s = execEvread x s := rfl
@[simp] theorem exec_brun (x y z : Reg) (gate : Option Reg) :
    exec (.brun x y z gate) s = execBrun x y z gate s := rfl
@[simp] theorem exec_bwait (x : Reg) :
    exec (.bwait x) s = execBwait x s := rfl
@[simp] theorem exec_bcfg (x y : Reg) :
    exec (.bcfg x y) s = execBcfg x y s := rfl
@[simp] theorem exec_bstat (x y : Reg) :
    exec (.bstat x y) s = execBstat x y s := rfl
@[simp] theorem exec_bkill :
    exec (.bkill) s = execBkill s := rfl
@[simp] theorem exec_kvalloc (x : Reg) (gate : Option Reg) :
    exec (.kvalloc x gate) s = execKvalloc x gate s := rfl
@[simp] theorem exec_kvapp (x : Reg) (gate : Option Reg) :
    exec (.kvapp x gate) s = execKvapp x gate s := rfl
@[simp] theorem exec_kvfork (x : Reg) (gate : Option Reg) :
    exec (.kvfork x gate) s = execKvfork x gate s := rfl
@[simp] theorem exec_kvrel (x : Reg) (gate : Option Reg) :
    exec (.kvrel x gate) s = execKvrel x gate s := rfl
@[simp] theorem exec_kvlook (x : Reg) (gate : Option Reg) :
    exec (.kvlook x gate) s = execKvlook x gate s := rfl
@[simp] theorem exec_kvdraft (x : Reg) (gate : Option Reg) :
    exec (.kvdraft x gate) s = execKvdraft x gate s := rfl
@[simp] theorem exec_kvswap (x : Reg) (gate : Option Reg) :
    exec (.kvswap x gate) s = execKvswap x gate s := rfl
@[simp] theorem exec_kvpfx (x : Reg) (gate : Option Reg) :
    exec (.kvpfx x gate) s = execKvpfx x gate s := rfl
@[simp] theorem exec_kvdrop (x : Reg) (gate : Option Reg) :
    exec (.kvdrop x gate) s = execKvdrop x gate s := rfl
@[simp] theorem exec_sopen (x y z : Reg) (gate : Option Reg) :
    exec (.sopen x y z gate) s = execSopen x y z gate s := rfl
@[simp] theorem exec_sseal (x y z : Reg) (gate : Option Reg) :
    exec (.sseal x y z gate) s = execSseal x y z gate s := rfl
@[simp] theorem exec_smeter :
    exec (.smeter) s = execSmeter s := rfl
@[simp] theorem exec_sepoch (x : Reg) :
    exec (.sepoch x) s = execSepoch x s := rfl
@[simp] theorem exec_car (x : Reg) (gate : Option Reg) :
    exec (.car x gate) s = execCar x gate s := rfl
@[simp] theorem exec_cbc (x : Reg) (gate : Option Reg) :
    exec (.cbc x gate) s = execCbc x gate s := rfl
@[simp] theorem exec_cag (x : Reg) (gate : Option Reg) :
    exec (.cag x gate) s = execCag x gate s := rfl
@[simp] theorem exec_cwait (x : Reg) :
    exec (.cwait x) s = execCwait x s := rfl
@[simp] theorem exec_bkop (x y z : Reg) (gate : Option Reg) :
    exec (.bkop x y z gate) s = execBkop x y z gate s := rfl
@[simp] theorem exec_bkred (x y z : Reg) (gate : Option Reg) :
    exec (.bkred x y z gate) s = execBkred x y z gate s := rfl
@[simp] theorem exec_wpin (x y : Reg) :
    exec (.wpin x y) s = execWpin x y s := rfl
@[simp] theorem exec_wunpin (x : Reg) :
    exec (.wunpin x) s = execWunpin x s := rfl
@[simp] theorem exec_wgen (x y : Reg) :
    exec (.wgen x y) s = execWgen x y s := rfl
@[simp] theorem exec_elemMov (r : ElemRec) :
    exec (.elemMov r) s = execElemMov r s := rfl
@[simp] theorem exec_elemConst (r : ElemRec) :
    exec (.elemConst r) s = execElemConst r s := rfl
@[simp] theorem exec_elemTid (r : ElemRec) :
    exec (.elemTid r) s = execElemTid r s := rfl
@[simp] theorem exec_elemAdd (r : ElemRec) :
    exec (.elemAdd r) s = execElemAdd r s := rfl
@[simp] theorem exec_elemSub (r : ElemRec) :
    exec (.elemSub r) s = execElemSub r s := rfl
@[simp] theorem exec_elemMul (r : ElemRec) :
    exec (.elemMul r) s = execElemMul r s := rfl
@[simp] theorem exec_elemMulhi (r : ElemRec) :
    exec (.elemMulhi r) s = execElemMulhi r s := rfl
@[simp] theorem exec_elemMad (r : ElemRec) :
    exec (.elemMad r) s = execElemMad r s := rfl
@[simp] theorem exec_elemMin (r : ElemRec) :
    exec (.elemMin r) s = execElemMin r s := rfl
@[simp] theorem exec_elemMax (r : ElemRec) :
    exec (.elemMax r) s = execElemMax r s := rfl
@[simp] theorem exec_elemAbs (r : ElemRec) :
    exec (.elemAbs r) s = execElemAbs r s := rfl
@[simp] theorem exec_elemNeg (r : ElemRec) :
    exec (.elemNeg r) s = execElemNeg r s := rfl
@[simp] theorem exec_elemAnd (r : ElemRec) :
    exec (.elemAnd r) s = execElemAnd r s := rfl
@[simp] theorem exec_elemOr (r : ElemRec) :
    exec (.elemOr r) s = execElemOr r s := rfl
@[simp] theorem exec_elemXor (r : ElemRec) :
    exec (.elemXor r) s = execElemXor r s := rfl
@[simp] theorem exec_elemShl (r : ElemRec) :
    exec (.elemShl r) s = execElemShl r s := rfl
@[simp] theorem exec_elemShr (r : ElemRec) :
    exec (.elemShr r) s = execElemShr r s := rfl
@[simp] theorem exec_elemSha (r : ElemRec) :
    exec (.elemSha r) s = execElemSha r s := rfl
@[simp] theorem exec_elemClz (r : ElemRec) :
    exec (.elemClz r) s = execElemClz r s := rfl
@[simp] theorem exec_elemPopc (r : ElemRec) :
    exec (.elemPopc r) s = execElemPopc r s := rfl
@[simp] theorem exec_elemBfx (r : ElemRec) :
    exec (.elemBfx r) s = execElemBfx r s := rfl
@[simp] theorem exec_elemCmp (r : ElemRec) :
    exec (.elemCmp r) s = execElemCmp r s := rfl
@[simp] theorem exec_elemSel (r : ElemRec) :
    exec (.elemSel r) s = execElemSel r s := rfl
@[simp] theorem exec_elemFadd (r : ElemRec) :
    exec (.elemFadd r) s = execElemFadd r s := rfl
@[simp] theorem exec_elemFsub (r : ElemRec) :
    exec (.elemFsub r) s = execElemFsub r s := rfl
@[simp] theorem exec_elemFmul (r : ElemRec) :
    exec (.elemFmul r) s = execElemFmul r s := rfl
@[simp] theorem exec_elemFma (r : ElemRec) :
    exec (.elemFma r) s = execElemFma r s := rfl
@[simp] theorem exec_elemFmin (r : ElemRec) :
    exec (.elemFmin r) s = execElemFmin r s := rfl
@[simp] theorem exec_elemFmax (r : ElemRec) :
    exec (.elemFmax r) s = execElemFmax r s := rfl
@[simp] theorem exec_elemFabs (r : ElemRec) :
    exec (.elemFabs r) s = execElemFabs r s := rfl
@[simp] theorem exec_elemFneg (r : ElemRec) :
    exec (.elemFneg r) s = execElemFneg r s := rfl
@[simp] theorem exec_elemFcmp (r : ElemRec) :
    exec (.elemFcmp r) s = execElemFcmp r s := rfl
@[simp] theorem exec_elemRcp (r : ElemRec) :
    exec (.elemRcp r) s = execElemRcp r s := rfl
@[simp] theorem exec_elemSqrt (r : ElemRec) :
    exec (.elemSqrt r) s = execElemSqrt r s := rfl
@[simp] theorem exec_elemRsq (r : ElemRec) :
    exec (.elemRsq r) s = execElemRsq r s := rfl
@[simp] theorem exec_elemExp2 (r : ElemRec) :
    exec (.elemExp2 r) s = execElemExp2 r s := rfl
@[simp] theorem exec_elemLog2 (r : ElemRec) :
    exec (.elemLog2 r) s = execElemLog2 r s := rfl
@[simp] theorem exec_elemTanh (r : ElemRec) :
    exec (.elemTanh r) s = execElemTanh r s := rfl
@[simp] theorem exec_elemSin (r : ElemRec) :
    exec (.elemSin r) s = execElemSin r s := rfl
@[simp] theorem exec_elemCos (r : ElemRec) :
    exec (.elemCos r) s = execElemCos r s := rfl
@[simp] theorem exec_elemCvt (r : ElemRec) :
    exec (.elemCvt r) s = execElemCvt r s := rfl
@[simp] theorem exec_elemPack (r : ElemRec) :
    exec (.elemPack r) s = execElemPack r s := rfl
@[simp] theorem exec_elemUnpk (r : ElemRec) :
    exec (.elemUnpk r) s = execElemUnpk r s := rfl
@[simp] theorem exec_elemQnt (r : ElemRec) :
    exec (.elemQnt r) s = execElemQnt r s := rfl
@[simp] theorem exec_elemDqnt (r : ElemRec) :
    exec (.elemDqnt r) s = execElemDqnt r s := rfl
@[simp] theorem exec_elemRsum (r : ElemRec) :
    exec (.elemRsum r) s = execElemRsum r s := rfl
@[simp] theorem exec_elemRmax (r : ElemRec) :
    exec (.elemRmax r) s = execElemRmax r s := rfl
@[simp] theorem exec_elemRmin (r : ElemRec) :
    exec (.elemRmin r) s = execElemRmin r s := rfl
@[simp] theorem exec_elemRcnt (r : ElemRec) :
    exec (.elemRcnt r) s = execElemRcnt r s := rfl
@[simp] theorem exec_elemLvl (r : ElemRec) :
    exec (.elemLvl r) s = execElemLvl r s := rfl
@[simp] theorem exec_elemLin (r : ElemRec) :
    exec (.elemLin r) s = execElemLin r s := rfl
@[simp] theorem exec_elemLout (r : ElemRec) :
    exec (.elemLout r) s = execElemLout r s := rfl
@[simp] theorem exec_elemLd (r : ElemRec) :
    exec (.elemLd r) s = execElemLd r s := rfl
@[simp] theorem exec_elemLdaq (r : ElemRec) :
    exec (.elemLdaq r) s = execElemLdaq r s := rfl
@[simp] theorem exec_elemLdfe (r : ElemRec) :
    exec (.elemLdfe r) s = execElemLdfe r s := rfl
@[simp] theorem exec_elemSt (r : ElemRec) :
    exec (.elemSt r) s = execElemSt r s := rfl
@[simp] theorem exec_elemStrl (r : ElemRec) :
    exec (.elemStrl r) s = execElemStrl r s := rfl
@[simp] theorem exec_elemStfe (r : ElemRec) :
    exec (.elemStfe r) s = execElemStfe r s := rfl
@[simp] theorem exec_elemAtm (r : ElemRec) :
    exec (.elemAtm r) s = execElemAtm r s := rfl
@[simp] theorem exec_elemLds (r : ElemRec) :
    exec (.elemLds r) s = execElemLds r s := rfl
@[simp] theorem exec_elemSts (r : ElemRec) :
    exec (.elemSts r) s = execElemSts r s := rfl
@[simp] theorem exec_elemPft (r : ElemRec) :
    exec (.elemPft r) s = execElemPft r s := rfl
@[simp] theorem exec_elemAcrd (r : ElemRec) :
    exec (.elemAcrd r) s = execElemAcrd r s := rfl
@[simp] theorem exec_elemAcwr (r : ElemRec) :
    exec (.elemAcwr r) s = execElemAcwr r s := rfl
@[simp] theorem exec_elemAfpush (r : ElemRec) :
    exec (.elemAfpush r) s = execElemAfpush r s := rfl
@[simp] theorem exec_elemStin (r : ElemRec) :
    exec (.elemStin r) s = execElemStin r s := rfl
@[simp] theorem exec_elemStout (r : ElemRec) :
    exec (.elemStout r) s = execElemStout r s := rfl
@[simp] theorem exec_elemBkadd (r : ElemRec) :
    exec (.elemBkadd r) s = execElemBkadd r s := rfl
@[simp] theorem exec_elemNext (r : ElemRec) :
    exec (.elemNext r) s = execElemNext r s := rfl
@[simp] theorem exec_elemPark (r : ElemRec) :
    exec (.elemPark r) s = execElemPark r s := rfl
@[simp] theorem exec_elemBarv (r : ElemRec) :
    exec (.elemBarv r) s = execElemBarv r s := rfl
@[simp] theorem exec_elemTrapx (r : ElemRec) :
    exec (.elemTrapx r) s = execElemTrapx r s := rfl
@[simp] theorem exec_illegalInstructionWord (w : W32) :
    exec (.illegalInstructionWord w) s = execIllegalInstructionWord w s := rfl
@[simp] theorem exec_blockChoice (cell : Nat) :
    exec (.blockChoice cell) s = execBlockChoice cell s := rfl
@[simp] theorem exec_passEnd (cell : Nat) :
    exec (.passEnd cell) s = execPassEnd cell s := rfl
@[simp] theorem exec_asyncReportDelivery (cell : Nat) :
    exec (.asyncReportDelivery cell) s = execAsyncReportDelivery cell s := rfl
@[simp] theorem exec_streamRequestIssue (cell st : Nat) :
    exec (.streamRequestIssue cell st) s = execStreamRequestIssue cell st s := rfl
@[simp] theorem exec_streamElementLand (cell st : Nat) :
    exec (.streamElementLand cell st) s = execStreamElementLand cell st s := rfl
@[simp] theorem exec_fifoRefetch (cell fifo : Nat) :
    exec (.fifoRefetch cell fifo) s = execFifoRefetch cell fifo s := rfl
@[simp] theorem exec_arbourBLoad (cell fifo : Nat) :
    exec (.arbourBLoad cell fifo) s = execArbourBLoad cell fifo s := rfl
@[simp] theorem exec_arbourRowConsume (cell : Nat) :
    exec (.arbourRowConsume cell) s = execArbourRowConsume cell s := rfl
@[simp] theorem exec_arbourOpComplete (cell : Nat) :
    exec (.arbourOpComplete cell) s = execArbourOpComplete cell s := rfl
@[simp] theorem exec_gateTermFire (cell term : Nat) :
    exec (.gateTermFire cell term) s = execGateTermFire cell term s := rfl
@[simp] theorem exec_eventTimer (cell : Nat) :
    exec (.eventTimer cell) s = execEventTimer cell s := rfl
@[simp] theorem exec_bankOperation (cell : Nat) :
    exec (.bankOperation cell) s = execBankOperation cell s := rfl
@[simp] theorem exec_collectiveComplete (cell : Nat) (parts : List RelayPart) :
    exec (.collectiveComplete cell parts) s = execCollectiveComplete cell parts s := rfl
@[simp] theorem exec_mapCommandExecute (world : Nat) :
    exec (.mapCommandExecute world) s = execMapCommandExecute world s := rfl
@[simp] theorem exec_breakpointHit (cell bp : Nat) :
    exec (.breakpointHit cell bp) s = execBreakpointHit cell bp s := rfl
@[simp] theorem exec_elemRoute :
    exec (.elemRoute) s = execElemRoute s := rfl
@[simp] theorem exec_coldReset :
    exec (.coldReset) s = execColdReset s := rfl
@[simp] theorem exec_moduleReset :
    exec (.moduleReset) s = execModuleReset s := rfl
@[simp] theorem exec_bootStageComplete (failed : Option Nat) :
    exec (.bootStageComplete failed) s = execBootStageComplete failed s := rfl
@[simp] theorem exec_powerSample (avgW : Nat) :
    exec (.powerSample avgW) s = execPowerSample avgW s := rfl
@[simp] theorem exec_clockRaiseStep (avgW : Nat) :
    exec (.clockRaiseStep avgW) s = execClockRaiseStep avgW s := rfl
@[simp] theorem exec_thermalThrottle :
    exec (.thermalThrottle) s = execThermalThrottle s := rfl
@[simp] theorem exec_thermalThrottleRelease :
    exec (.thermalThrottleRelease) s = execThermalThrottleRelease s := rfl
@[simp] theorem exec_thermalStop :
    exec (.thermalStop) s = execThermalStop s := rfl
@[simp] theorem exec_qtailWrite (fn q : Nat) (v : Word) :
    exec (.qtailWrite fn q v) s = execQtailWrite fn q v s := rfl
@[simp] theorem exec_qstatCheadWrite (fn q : Nat) (v : Word) :
    exec (.qstatCheadWrite fn q v) s = execQstatCheadWrite fn q v s := rfl
@[simp] theorem exec_qctlEnable (fn q : Nat) (v : Word) :
    exec (.qctlEnable fn q v) s = execQctlEnable fn q v s := rfl
@[simp] theorem exec_qctlDisable (fn q : Nat) (v : Word) :
    exec (.qctlDisable fn q v) s = execQctlDisable fn q v s := rfl
@[simp] theorem exec_qevdbWrite (fn : Nat) (v : Word) :
    exec (.qevdbWrite fn v) s = execQevdbWrite fn v s := rfl
@[simp] theorem exec_pauseAck (fn : Nat) :
    exec (.pauseAck fn) s = execPauseAck fn s := rfl
@[simp] theorem exec_fqctlWrite (v : Word) :
    exec (.fqctlWrite v) s = execFqctlWrite v s := rfl
@[simp] theorem exec_fqheadWrite (v : Word) :
    exec (.fqheadWrite v) s = execFqheadWrite v s := rfl
@[simp] theorem exec_registerWrite (fn : Nat) (place : RegPlace) (v : Word) :
    exec (.registerWrite fn place v) s = execRegisterWrite fn place v s := rfl
@[simp] theorem exec_hostRequest (fn : Nat) (req : HostReq) :
    exec (.hostRequest fn req) s = execHostRequest fn req s := rfl
@[simp] theorem exec_ideCheckFailure (fn : Nat) :
    exec (.ideCheckFailure fn) s = execIdeCheckFailure fn s := rfl
@[simp] theorem exec_ideKmKeyProg (fn : Nat) (key : Nat) :
    exec (.ideKmKeyProg fn key) s = execIdeKmKeyProg fn key s := rfl
@[simp] theorem exec_ideKmKSetGo (fn : Nat) :
    exec (.ideKmKSetGo fn) s = execIdeKmKSetGo fn s := rfl
@[simp] theorem exec_lockInterface (fn : Nat) :
    exec (.lockInterface fn) s = execLockInterface fn s := rfl
@[simp] theorem exec_getDeviceInterfaceReport (fn : Nat) :
    exec (.getDeviceInterfaceReport fn) s = execGetDeviceInterfaceReport fn s := rfl
@[simp] theorem exec_startInterface (fn : Nat) :
    exec (.startInterface fn) s = execStartInterface fn s := rfl
@[simp] theorem exec_stopInterface (fn : Nat) :
    exec (.stopInterface fn) s = execStopInterface fn s := rfl
@[simp] theorem exec_functionLevelReset (fn : Nat) :
    exec (.functionLevelReset fn) s = execFunctionLevelReset fn s := rfl
@[simp] theorem exec_getVersion (port : Nat) :
    exec (.getVersion port) s = execGetVersion port s := rfl
@[simp] theorem exec_getCapabilities (port : Nat) :
    exec (.getCapabilities port) s = execGetCapabilities port s := rfl
@[simp] theorem exec_negotiateAlgorithms (port : Nat) (offer : Bool) :
    exec (.negotiateAlgorithms port offer) s = execNegotiateAlgorithms port offer s := rfl
@[simp] theorem exec_getDigests (port : Nat) :
    exec (.getDigests port) s = execGetDigests port s := rfl
@[simp] theorem exec_getCertificate (port slot : Nat) :
    exec (.getCertificate port slot) s = execGetCertificate port slot s := rfl
@[simp] theorem exec_challenge (port nonce : Nat) :
    exec (.challenge port nonce) s = execChallenge port nonce s := rfl
@[simp] theorem exec_getMeasurements (port index : Nat) (nonce : Option Nat) :
    exec (.getMeasurements port index nonce) s = execGetMeasurements port index nonce s := rfl
@[simp] theorem exec_keyExchange (port : Nat) (peer : LinkPeer) :
    exec (.keyExchange port peer) s = execKeyExchange port peer s := rfl
@[simp] theorem exec_finishSession (port : Nat) :
    exec (.finishSession port) s = execFinishSession port s := rfl
@[simp] theorem exec_keyUpdate (port : Nat) :
    exec (.keyUpdate port) s = execKeyUpdate port s := rfl
@[simp] theorem exec_endSession (port : Nat) :
    exec (.endSession port) s = execEndSession port s := rfl
@[simp] theorem exec_pqsig (port : Nat) :
    exec (.pqsig port) s = execPqsig port s := rfl
@[simp] theorem exec_pqchain (port : Nat) :
    exec (.pqchain port) s = execPqchain port s := rfl
@[simp] theorem exec_getmeter (port part : Nat) :
    exec (.getmeter port part) s = execGetmeter port part s := rfl
@[simp] theorem exec_getepoch (port world : Nat) :
    exec (.getepoch port world) s = execGetepoch port world s := rfl
@[simp] theorem exec_getrevoke (port : Nat) :
    exec (.getrevoke port) s = execGetrevoke port s := rfl
@[simp] theorem exec_linkKeyUpdateDue (port : Nat) :
    exec (.linkKeyUpdateDue port) s = execLinkKeyUpdateDue port s := rfl
@[simp] theorem exec_flitReceive (port : Nat) (flit : Flit) :
    exec (.flitReceive port flit) s = execFlitReceive port flit s := rfl
@[simp] theorem exec_podMemberList (members : List PodMember) (routes : List (Nat × Nat)) :
    exec (.podMemberList members routes) s = execPodMemberList members routes s := rfl
@[simp] theorem exec_preparePod (origin fn : Nat) (mask gen digest parts : Nat) :
    exec (.preparePod origin fn mask gen digest parts) s = execPreparePod origin fn mask gen digest parts s := rfl
@[simp] theorem exec_readyPod (target : Nat) :
    exec (.readyPod target) s = execReadyPod target s := rfl
@[simp] theorem exec_refusePod (target : Nat) (status : Nat) :
    exec (.refusePod target status) s = execRefusePod target status s := rfl
@[simp] theorem exec_startPod (origin fn gen : Nat) (t : Nat) (node : List Byte) (args : List Word) :
    exec (.startPod origin fn gen t node args) s = execStartPod origin fn gen t node args s := rfl
@[simp] theorem exec_abortPod (origin fn gen : Nat) :
    exec (.abortPod origin fn gen) s = execAbortPod origin fn gen s := rfl
@[simp] theorem exec_donePod (target gen status cause : Nat) :
    exec (.donePod target gen status cause) s = execDonePod target gen status cause s := rfl
@[simp] theorem exec_podPrepareTimeout :
    exec (.podPrepareTimeout) s = execPodPrepareTimeout s := rfl
@[simp] theorem exec_podReservationLapse (fn gen : Nat) :
    exec (.podReservationLapse fn gen) s = execPodReservationLapse fn gen s := rfl
@[simp] theorem exec_podStartTime :
    exec (.podStartTime) s = execPodStartTime s := rfl
@[simp] theorem exec_podTargetSessionEnd (target : Nat) :
    exec (.podTargetSessionEnd target) s = execPodTargetSessionEnd target s := rfl
@[simp] theorem exec_remoteAccessTimeout (cell : Nat) :
    exec (.remoteAccessTimeout cell) s = execRemoteAccessTimeout cell s := rfl
@[simp] theorem exec_cxlPoisonRead (part ctx : Nat) :
    exec (.cxlPoisonRead part ctx) s = execCxlPoisonRead part ctx s := rfl
@[simp] theorem exec_cxlPortDown (port : Nat) (victims : List (Nat × Nat)) :
    exec (.cxlPortDown port victims) s = execCxlPortDown port victims s := rfl
@[simp] theorem exec_graphFetch (fn q : Nat) :
    exec (.graphFetch fn q) s = execGraphFetch fn q s := rfl
@[simp] theorem exec_nodeComplete (fn q node : Nat) :
    exec (.nodeComplete fn q node) s = execNodeComplete fn q node s := rfl
@[simp] theorem exec_escalationTimeout (fn q : Nat) :
    exec (.escalationTimeout fn q) s = execEscalationTimeout fn q s := rfl
@[simp] theorem exec_launch (fn q node : Nat) :
    exec (.launch fn q node) s = execLaunch fn q node s := rfl
@[simp] theorem exec_podLaunch (fn q node : Nat) :
    exec (.podLaunch fn q node) s = execPodLaunch fn q node s := rfl
@[simp] theorem exec_cellStart (launch cell : Nat) :
    exec (.cellStart launch cell) s = execCellStart launch cell s := rfl
@[simp] theorem exec_copyNode (fn q node : Nat) :
    exec (.copyNode fn q node) s = execCopyNode fn q node s := rfl
@[simp] theorem exec_kvmap (fn q node : Nat) :
    exec (.kvmap fn q node) s = execKvmap fn q node s := rfl
@[simp] theorem exec_mapcreate (fn q node : Nat) :
    exec (.mapcreate fn q node) s = execMapcreate fn q node s := rfl
@[simp] theorem exec_mapdestroy (fn q node : Nat) :
    exec (.mapdestroy fn q node) s = execMapdestroy fn q node s := rfl
@[simp] theorem exec_meterNode (fn q node : Nat) :
    exec (.meterNode fn q node) s = execMeterNode fn q node s := rfl
@[simp] theorem exec_createWorld (fn q node : Nat) :
    exec (.createWorld fn q node) s = execCreateWorld fn q node s := rfl
@[simp] theorem exec_bindContext (fn q node : Nat) :
    exec (.bindContext fn q node) s = execBindContext fn q node s := rfl
@[simp] theorem exec_unbindContext (fn q node : Nat) :
    exec (.unbindContext fn q node) s = execUnbindContext fn q node s := rfl
@[simp] theorem exec_loadSeal (fn q node : Nat) :
    exec (.loadSeal fn q node) s = execLoadSeal fn q node s := rfl
@[simp] theorem exec_destroyWorld (fn q node : Nat) :
    exec (.destroyWorld fn q node) s = execDestroyWorld fn q node s := rfl
@[simp] theorem exec_openSession (fn q node : Nat) :
    exec (.openSession fn q node) s = execOpenSession fn q node s := rfl
@[simp] theorem exec_closeSession (fn q node : Nat) :
    exec (.closeSession fn q node) s = execCloseSession fn q node s := rfl
@[simp] theorem exec_rekey (fn q node : Nat) :
    exec (.rekey fn q node) s = execRekey fn q node s := rfl
@[simp] theorem exec_pkgload (fn q node : Nat) :
    exec (.pkgload fn q node) s = execPkgload fn q node s := rfl
@[simp] theorem exec_signalNode (fn q node : Nat) :
    exec (.signalNode fn q node) s = execSignalNode fn q node s := rfl
@[simp] theorem exec_waitNode (fn q node : Nat) :
    exec (.waitNode fn q node) s = execWaitNode fn q node s := rfl
@[simp] theorem exec_waitTimeout (fn q node : Nat) :
    exec (.waitTimeout fn q node) s = execWaitTimeout fn q node s := rfl
@[simp] theorem exec_createPartition (fn q node : Nat) :
    exec (.createPartition fn q node) s = execCreatePartition fn q node s := rfl
@[simp] theorem exec_destroyPartition (fn q node : Nat) :
    exec (.destroyPartition fn q node) s = execDestroyPartition fn q node s := rfl
@[simp] theorem exec_setEscalationTime (fn q node : Nat) :
    exec (.setEscalationTime fn q node) s = execSetEscalationTime fn q node s := rfl
@[simp] theorem exec_setQuantum (fn q node : Nat) :
    exec (.setQuantum fn q node) s = execSetQuantum fn q node s := rfl
@[simp] theorem exec_setQuiesceDeadline (fn q node : Nat) :
    exec (.setQuiesceDeadline fn q node) s = execSetQuiesceDeadline fn q node s := rfl
@[simp] theorem exec_setScopePolicy (fn q node : Nat) :
    exec (.setScopePolicy fn q node) s = execSetScopePolicy fn q node s := rfl
@[simp] theorem exec_fwStage (fn q node : Nat) :
    exec (.fwStage fn q node) s = execFwStage fn q node s := rfl
@[simp] theorem exec_fwActivate (fn q node : Nat) :
    exec (.fwActivate fn q node) s = execFwActivate fn q node s := rfl
@[simp] theorem exec_quiesce :
    exec (.quiesce) s = execQuiesce s := rfl
@[simp] theorem exec_fwActivationResult (ok : Bool) :
    exec (.fwActivationResult ok) s = execFwActivationResult ok s := rfl
@[simp] theorem exec_mapPage (fn : Nat) :
    exec (.mapPage fn) s = execMapPage fn s := rfl
@[simp] theorem exec_unmapPage (fn : Nat) :
    exec (.unmapPage fn) s = execUnmapPage fn s := rfl
@[simp] theorem exec_protect (fn : Nat) :
    exec (.protect fn) s = execProtect fn s := rfl
@[simp] theorem exec_evict (fn : Nat) :
    exec (.evict fn) s = execEvict fn s := rfl
@[simp] theorem exec_returnPage (fn : Nat) :
    exec (.returnPage fn) s = execReturnPage fn s := rfl
@[simp] theorem exec_clearfe (fn : Nat) :
    exec (.clearfe fn) s = execClearfe fn s := rfl
@[simp] theorem exec_pair (fn : Nat) :
    exec (.pair fn) s = execPair fn s := rfl
@[simp] theorem exec_nomap (fn : Nat) :
    exec (.nomap fn) s = execNomap fn s := rfl
@[simp] theorem exec_stageMem (fn : Nat) :
    exec (.stageMem fn) s = execStageMem fn s := rfl
@[simp] theorem exec_powerLimit (fn : Nat) :
    exec (.powerLimit fn) s = execPowerLimit fn s := rfl
@[simp] theorem exec_bvread (fn : Nat) :
    exec (.bvread fn) s = execBvread fn s := rfl
@[simp] theorem exec_tracecfg (fn : Nat) :
    exec (.tracecfg fn) s = execTracecfg fn s := rfl
@[simp] theorem exec_attach (fn : Nat) :
    exec (.attach fn) s = execAttach fn s := rfl
@[simp] theorem exec_detach (fn : Nat) :
    exec (.detach fn) s = execDetach fn s := rfl
@[simp] theorem exec_setbp (fn : Nat) :
    exec (.setbp fn) s = execSetbp fn s := rfl
@[simp] theorem exec_clrbp (fn : Nat) :
    exec (.clrbp fn) s = execClrbp fn s := rfl
@[simp] theorem exec_debugStop (fn : Nat) :
    exec (.debugStop fn) s = execDebugStop fn s := rfl
@[simp] theorem exec_debugResume (fn : Nat) :
    exec (.debugResume fn) s = execDebugResume fn s := rfl
@[simp] theorem exec_debugRead (fn : Nat) :
    exec (.debugRead fn) s = execDebugRead fn s := rfl
@[simp] theorem exec_debugWrite (fn : Nat) :
    exec (.debugWrite fn) s = execDebugWrite fn s := rfl
@[simp] theorem exec_worldend (fn : Nat) :
    exec (.worldend fn) s = execWorldend fn s := rfl
@[simp] theorem exec_faultRecordPost (k : Nat) :
    exec (.faultRecordPost k) s = execFaultRecordPost k s := rfl
@[simp] theorem exec_quantumExpiry (part : Nat) :
    exec (.quantumExpiry part) s = execQuantumExpiry part s := rfl
@[simp] theorem exec_preemptRequest (part reason : Nat) :
    exec (.preemptRequest part reason) s = execPreemptRequest part reason s := rfl
@[simp] theorem exec_cellSaveComplete (cell : Nat) :
    exec (.cellSaveComplete cell) s = execCellSaveComplete cell s := rfl
@[simp] theorem exec_watchdogExpiry (launch : Nat) :
    exec (.watchdogExpiry launch) s = execWatchdogExpiry launch s := rfl
@[simp] theorem exec_partitionScrubComplete (part : Nat) :
    exec (.partitionScrubComplete part) s = execPartitionScrubComplete part s := rfl
@[simp] theorem exec_sealingTimeout (world : Nat) :
    exec (.sealingTimeout world) s = execSealingTimeout world s := rfl
@[simp] theorem exec_worldScrubComplete (world : Nat) :
    exec (.worldScrubComplete world) s = execWorldScrubComplete world s := rfl
@[simp] theorem exec_epochEnd (world : Nat) :
    exec (.epochEnd world) s = execEpochEnd world s := rfl
@[simp] theorem exec_sweepComplete (world slice : Nat) :
    exec (.sweepComplete world slice) s = execSweepComplete world slice s := rfl
@[simp] theorem exec_certifiedReplyRelease (world session : Nat) :
    exec (.certifiedReplyRelease world session) s = execCertifiedReplyRelease world session s := rfl
@[simp] theorem exec_meterIntervalExpiry (world : Nat) :
    exec (.meterIntervalExpiry world) s = execMeterIntervalExpiry world s := rfl
@[simp] theorem exec_uncorrectableError (site : ErrSite) :
    exec (.uncorrectableError site) s = execUncorrectableError site s := rfl
@[simp] theorem exec_dirtyLineError (pa : Nat) :
    exec (.dirtyLineError pa) s = execDirtyLineError pa s := rfl
@[simp] theorem exec_cleanLineError (pa : Nat) :
    exec (.cleanLineError pa) s = execCleanLineError pa s := rfl
@[simp] theorem exec_tokenParityError (cell site dir : Nat) :
    exec (.tokenParityError cell site dir) s = execTokenParityError cell site dir s := rfl
@[simp] theorem exec_arbourResidueError (cell : Nat) :
    exec (.arbourResidueError cell) s = execArbourResidueError cell s := rfl
@[simp] theorem exec_mbdoorWrite (fn : Nat) (v : Word) :
    exec (.mbdoorWrite fn v) s = execMbdoorWrite fn v s := rfl
@[simp] theorem exec_vfEnable :
    exec (.vfEnable) s = execVfEnable s := rfl
@[simp] theorem exec_writeBufferPerform (cell : Nat) :
    exec (.writeBufferPerform cell) s = execWriteBufferPerform cell s := rfl
@[simp] theorem exec_unitReloadComplete (unit : Nat) :
    exec (.unitReloadComplete unit) s = execUnitReloadComplete unit s := rfl
@[simp] theorem exec_portRetrainComplete (port : Nat) :
    exec (.portRetrainComplete port) s = execPortRetrainComplete port s := rfl

end Sys2Proof.Machine
end

