-- ==== Sys2Proof/Laws/Maps.lean ====
section
/-! SUPPORT. Laws of addressed lists: a read after a write, the canonical form, and the little-endian values of R3. -/

namespace Sys2Proof.Machine

variable {α : Type}

/-! ### Reads after writes -/

@[simp] theorem Map.get?_nil (k : Nat) : Map.get? ([] : Map α) k = none := rfl
@[simp] theorem Map.get_nil (d : α) (k : Nat) : Map.get d ([] : Map α) k = d := rfl

theorem Map.get?_cons (e : Nat × α) (r : Map α) (k : Nat) :
    Map.get? (e :: r) k = if e.1 = k then some e.2 else Map.get? r k := rfl

@[simp] theorem Map.get?_erase_self (m : Map α) (k : Nat) : Map.get? (Map.erase m k) k = none := by
  induction m with
  | nil => rfl
  | cons e r ih =>
    simp only [Map.erase, List.filter_cons] at ih ⊢
    by_cases h : e.1 = k <;> simp [h, ih, Map.get?_cons]

theorem Map.get?_erase_of_ne (m : Map α) {j k : Nat} (h : j ≠ k) : Map.get? (Map.erase m k) j = Map.get? m j := by
  induction m with
  | nil => rfl
  | cons e r ih =>
    simp only [Map.erase, List.filter_cons] at ih ⊢
    by_cases hk : e.1 = k
    · simp [hk, ih, Map.get?_cons, Ne.symm h]
    · by_cases hj : e.1 = j <;> simp [hk, hj, ih, Map.get?_cons, h]

/-- Inserting at a key that is not listed: that key reads the value, every other key as before. -/
theorem Map.get?_insert (m : Map α) (k j : Nat) (v : α) (h : Map.get? m k = none) :
    Map.get? (Map.insert k v m) j = if j = k then some v else Map.get? m j := by
  induction m with
  | nil => simp [Map.insert, Map.get?_cons, eq_comm]
  | cons e r ih =>
    obtain ⟨i, w⟩ := e
    simp only [Map.get?_cons] at h
    have hik : i ≠ k := by rintro rfl; simp at h
    simp only [hik, if_false] at h
    simp only [Map.insert]
    split
    · by_cases hj : j = k
      · simp [Map.get?_cons, hj]
      · simp [Map.get?_cons, hj, Ne.symm hj]
    · by_cases hj : j = k
      · subst hj; simp [Map.get?_cons, hik, ih h]
      · simp [Map.get?_cons, hj, ih h]

theorem Map.get?_put (m : Map α) (k j : Nat) (v : α) :
    Map.get? (Map.put m k v) j = if j = k then some v else Map.get? m j := by
  rw [Map.put, Map.get?_insert _ _ _ _ (Map.get?_erase_self m k)]
  split
  · rfl
  · next h => exact Map.get?_erase_of_ne m h

@[simp] theorem Map.get?_put_self (m : Map α) (k : Nat) (v : α) : Map.get? (Map.put m k v) k = some v := by
  simp [Map.get?_put]

theorem Map.get?_put_of_ne (m : Map α) {j k : Nat} (v : α) (h : j ≠ k) : Map.get? (Map.put m k v) j = Map.get? m j := by
  simp [Map.get?_put, h]

theorem Map.erase_insert (m : Map α) (k : Nat) (v : α) : Map.erase (Map.insert k v m) k = Map.erase m k := by
  induction m with
  | nil => simp [Map.insert, Map.erase]
  | cons e r ih =>
    obtain ⟨j, w⟩ := e
    simp only [Map.insert]
    split
    · simp [Map.erase]
    · simp only [Map.erase, List.filter_cons] at ih ⊢
      rw [ih]

@[simp] theorem Map.erase_erase (m : Map α) (k : Nat) : Map.erase (Map.erase m k) k = Map.erase m k := by
  simp [Map.erase]

/-- The later of two writes of one key stands. -/
@[simp] theorem Map.put_put (m : Map α) (k : Nat) (v w : α) : Map.put (Map.put m k v) k w = Map.put m k w := by
  rw [Map.put, Map.put, Map.erase_insert, Map.erase_erase, Map.put]

@[simp] theorem Map.get_put_self (d : α) (m : Map α) (k : Nat) (v : α) : Map.get d (Map.put m k v) k = v := by
  simp [Map.get]

theorem Map.get_put_of_ne (d : α) (m : Map α) {j k : Nat} (v : α) (h : j ≠ k) :
    Map.get d (Map.put m k v) j = Map.get d m j := by
  simp [Map.get, Map.get?_put, h]

/-- What a key reads after a write. -/
theorem Map.get_set [DecidableEq α] (d : α) (m : Map α) (k j : Nat) (v : α) :
    Map.get d (Map.set d m k v) j = if j = k then v else Map.get d m j := by
  unfold Map.set
  by_cases hv : v = d
  · by_cases hj : j = k
    · subst hj; simp [Map.get, hv]
    · simp [Map.get, hv, hj, Map.get?_erase_of_ne]
  · by_cases hj : j = k <;> simp [Map.get, hv, hj, Map.get?_put]

@[simp] theorem Map.get_set_self [DecidableEq α] (d : α) (m : Map α) (k : Nat) (v : α) :
    Map.get d (Map.set d m k v) k = v := by
  simp [Map.get_set]

theorem Map.get_set_of_ne [DecidableEq α] (d : α) (m : Map α) {j k : Nat} (v : α) (h : j ≠ k) :
    Map.get d (Map.set d m k v) j = Map.get d m j := by
  simp [Map.get_set, h]

/-- What a key reads after a list has been written: the list's entries from `k` up, every other key as before. -/
theorem Map.get_setList [DecidableEq α] (d : α) (l : List α) (m : Map α) (k j : Nat) :
    Map.get d (Map.setList d m k l) j = if k ≤ j ∧ j < k + l.length then l.getD (j - k) d else Map.get d m j := by
  induction l generalizing m k with
  | nil => simp [Map.setList]
  | cons v r ih =>
    simp only [Map.setList, ih, Map.get_set, List.length_cons]
    by_cases hj : j = k
    · subst hj
      have h1 : ¬ (j + 1 ≤ j ∧ j < j + 1 + r.length) := by omega
      have h2 : j ≤ j ∧ j < j + (r.length + 1) := by omega
      rw [if_neg h1, if_pos h2, if_pos rfl]; simp
    · by_cases hin : k + 1 ≤ j ∧ j < k + 1 + r.length
      · have h2 : k ≤ j ∧ j < k + (r.length + 1) := by omega
        rw [if_pos hin, if_pos h2]
        obtain ⟨n, hn⟩ : ∃ n, j - k = n + 1 := ⟨j - k - 1, by omega⟩
        have : j - (k + 1) = n := by omega
        rw [this, hn]; simp
      · have h2 : ¬ (k ≤ j ∧ j < k + (r.length + 1)) := by omega
        rw [if_neg hin, if_neg h2, if_neg hj]

@[simp] theorem Map.length_getList (d : α) (m : Map α) (k n : Nat) : (Map.getList d m k n).length = n := by
  induction n generalizing k with
  | zero => rfl
  | succ n ih => simp [Map.getList, ih]

theorem Map.getD_getList (d : α) (m : Map α) (k n i : Nat) (h : i < n) :
    (Map.getList d m k n).getD i d = Map.get d m (k + i) := by
  induction n generalizing k i with
  | zero => omega
  | succ n ih =>
    cases i with
    | zero => simp [Map.getList]
    | succ i =>
      have := ih (k + 1) i (by omega)
      simp only [Map.getList, List.getD_cons_succ, this]
      congr 1; omega

/-- Reading back a written list gives the list. -/
theorem Map.getList_setList [DecidableEq α] (d : α) (m : Map α) (k : Nat) (l : List α) :
    Map.getList d (Map.setList d m k l) k l.length = l := by
  apply List.ext_getElem
  · simp
  · intro i h1 h2
    have h3 : i < l.length := by simpa using h2
    have := Map.getD_getList d (Map.setList d m k l) k l.length i h3
    rw [Map.get_setList, if_pos ⟨by omega, by omega⟩] at this
    simpa [List.getD_eq_getElem?_getD, h3] using this

/-- A list written elsewhere leaves a range as it was. -/
theorem Map.getList_setList_of_disjoint [DecidableEq α] (d : α) (m : Map α) (k j n : Nat) (l : List α)
    (h : j + n ≤ k ∨ k + l.length ≤ j) : Map.getList d (Map.setList d m k l) j n = Map.getList d m j n := by
  induction n generalizing j with
  | zero => rfl
  | succ n ih =>
    simp only [Map.getList]
    rw [Map.get_setList, if_neg (by omega), ih _ (by omega)]

/-! ### The canonical form -/

/-- The canonical form says of a list: its keys rise strictly, and no entry is the default. -/
theorem Map.wf_iff [DecidableEq α] (d : α) (m : Map α) :
    Map.wf d m = true ↔ m.Pairwise (fun a b => a.1 < b.1) ∧ ∀ e ∈ m, e.2 ≠ d := by
  induction m with
  | nil => simp [Map.wf]
  | cons e r ih =>
    obtain ⟨k, v⟩ := e
    cases r with
    | nil => simp [Map.wf]
    | cons f r =>
      obtain ⟨j, w⟩ := f
      simp only [Map.wf, Bool.and_eq_true, decide_eq_true_eq, ih]
      constructor
      · rintro ⟨⟨hv, hk⟩, hp, hd⟩
        refine ⟨List.pairwise_cons.2 ⟨?_, hp⟩, ?_⟩
        · intro x hx
          rcases List.mem_cons.1 hx with rfl | hx
          · exact hk
          · exact lt_trans hk ((List.pairwise_cons.1 hp).1 x hx)
        · intro x hx
          rcases List.mem_cons.1 hx with rfl | hx
          · exact hv
          · exact hd x hx
      · rintro ⟨hp, hd⟩
        obtain ⟨h1, h2⟩ := List.pairwise_cons.1 hp
        exact ⟨⟨hd (k, v) (by simp), h1 (j, w) (by simp)⟩, h2, fun x hx => hd x (List.mem_cons_of_mem _ hx)⟩

/-- Dropping entries keeps the canonical form. -/
theorem Map.wf_filter [DecidableEq α] (d : α) (m : Map α) (p : Nat × α → Bool) (h : Map.wf d m = true) :
    Map.wf d (m.filter p) = true := by
  rw [Map.wf_iff] at h ⊢
  exact ⟨h.1.filter _, fun e he => h.2 e (List.mem_of_mem_filter he)⟩

theorem Map.wf_erase [DecidableEq α] (d : α) (m : Map α) (k : Nat) (h : Map.wf d m = true) :
    Map.wf d (Map.erase m k) = true := Map.wf_filter d m _ h

theorem Map.mem_insert (m : Map α) (k : Nat) (v : α) (e : Nat × α) :
    e ∈ Map.insert k v m ↔ e = (k, v) ∨ e ∈ m := by
  induction m with
  | nil => simp [Map.insert]
  | cons f r ih =>
    obtain ⟨j, w⟩ := f
    simp only [Map.insert]
    split
    · simp
    · simp only [List.mem_cons, ih]; tauto

theorem Map.pairwise_insert (m : Map α) (k : Nat) (v : α) (hm : m.Pairwise (fun a b => a.1 < b.1))
    (hk : ∀ e ∈ m, e.1 ≠ k) : (Map.insert k v m).Pairwise (fun a b => a.1 < b.1) := by
  induction m with
  | nil => simp [Map.insert]
  | cons f r ih =>
    obtain ⟨j, w⟩ := f
    obtain ⟨h1, h2⟩ := List.pairwise_cons.1 hm
    simp only [Map.insert]
    split
    · next hlt =>
      refine List.pairwise_cons.2 ⟨?_, hm⟩
      intro x hx
      rcases List.mem_cons.1 hx with rfl | hx
      · exact hlt
      · exact lt_trans hlt (h1 x hx)
    · next hge =>
      refine List.pairwise_cons.2 ⟨?_, ih h2 fun e he => hk e (List.mem_cons_of_mem _ he)⟩
      intro x hx
      rcases (Map.mem_insert r k v x).1 hx with rfl | hx
      · have := hk (j, w) (by simp); simp only at this ⊢; omega
      · exact h1 x hx

theorem Map.wf_put [DecidableEq α] (d : α) (m : Map α) (k : Nat) (v : α) (hv : v ≠ d) (h : Map.wf d m = true) :
    Map.wf d (Map.put m k v) = true := by
  have he := (Map.wf_iff d _).1 (Map.wf_erase d m k h)
  rw [Map.wf_iff]
  refine ⟨Map.pairwise_insert _ _ _ he.1 ?_, ?_⟩
  · intro e hm
    simpa using (List.mem_filter.1 hm).2
  · intro e hm
    rcases (Map.mem_insert _ _ _ _).1 hm with rfl | hm
    · exact hv
    · exact he.2 e hm

/-- A write keeps the canonical form. -/
theorem Map.wf_set [DecidableEq α] (d : α) (m : Map α) (k : Nat) (v : α) (h : Map.wf d m = true) :
    Map.wf d (Map.set d m k v) = true := by
  unfold Map.set
  split
  · exact Map.wf_erase d m k h
  · next hv => exact Map.wf_put d m k v hv h

theorem Map.wf_setList [DecidableEq α] (d : α) (l : List α) (m : Map α) (k : Nat) (h : Map.wf d m = true) :
    Map.wf d (Map.setList d m k l) = true := by
  induction l generalizing m k with
  | nil => exact h
  | cons v r ih => exact ih _ _ (Map.wf_set d m k v h)

/-- Two canonical lists that read alike everywhere are the same list. -/
theorem Map.eq_of_get [DecidableEq α] (d : α) (m m' : Map α) (h : Map.wf d m = true) (h' : Map.wf d m' = true)
    (hg : ∀ k, Map.get d m k = Map.get d m' k) : m = m' := by
  have get_lt : ∀ (r : Map α) (k : Nat), (∀ e ∈ r, k < e.1) → Map.get? r k = none := by
    intro r k hr
    induction r with
    | nil => rfl
    | cons e r ih =>
      have := hr e (by simp)
      rw [Map.get?_cons, if_neg (by omega), ih fun x hx => hr x (List.mem_cons_of_mem _ hx)]
  induction m generalizing m' with
  | nil =>
    cases m' with
    | nil => rfl
    | cons e r =>
      have := hg e.1
      have hd := ((Map.wf_iff d _).1 h').2 e (by simp)
      simp [Map.get, Map.get?_cons] at this
      exact absurd this.symm hd
  | cons e r ih =>
    obtain ⟨hp, hd⟩ := (Map.wf_iff d _).1 h
    obtain ⟨hp1, hp2⟩ := List.pairwise_cons.1 hp
    cases m' with
    | nil =>
      have := hg e.1
      simp [Map.get, Map.get?_cons] at this
      exact absurd this (hd e (by simp))
    | cons e' r' =>
      obtain ⟨hp', hd'⟩ := (Map.wf_iff d _).1 h'
      obtain ⟨hp1', hp2'⟩ := List.pairwise_cons.1 hp'
      have key : e.1 = e'.1 := by
        rcases lt_trichotomy e.1 e'.1 with hlt | heq | hgt
        · have := hg e.1
          rw [Map.get, Map.get, Map.get?_cons, if_pos rfl,
            get_lt (e' :: r') e.1 (by
              intro x hx
              rcases List.mem_cons.1 hx with rfl | hx
              · exact hlt
              · exact lt_trans hlt (hp1' x hx))] at this
          exact absurd this (hd e (by simp))
        · exact heq
        · have := hg e'.1
          rw [Map.get, Map.get, Map.get?_cons e', if_pos rfl,
            get_lt (e :: r) e'.1 (by
              intro x hx
              rcases List.mem_cons.1 hx with rfl | hx
              · exact hgt
              · exact lt_trans hgt (hp1 x hx))] at this
          exact absurd this.symm (hd' e' (by simp))
      have val : e.2 = e'.2 := by
        have := hg e.1
        simpa [Map.get, Map.get?_cons, key] using this
      have hr : Map.wf d r = true := (Map.wf_iff d _).2 ⟨hp2, fun x hx => hd x (List.mem_cons_of_mem _ hx)⟩
      have hr' : Map.wf d r' = true := (Map.wf_iff d _).2 ⟨hp2', fun x hx => hd' x (List.mem_cons_of_mem _ hx)⟩
      have hget : ∀ k, Map.get d r k = Map.get d r' k := by
        intro k
        by_cases hk : e.1 = k
        · subst hk
          rw [Map.get, Map.get, get_lt r e.1 hp1, get_lt r' e.1 (fun x hx => key ▸ hp1' x hx)]
        · have := hg k
          simpa [Map.get, Map.get?_cons, hk, key ▸ hk] using this
      rw [ih r' hr hr' hget, Prod.ext key val]

/-! ### Little-endian values (R3) -/

@[simp] theorem length_leBytes (n v : Nat) : (leBytes n v).length = n := by
  induction n generalizing v with
  | zero => rfl
  | succ n ih => simp [leBytes, ih]

/-- Reading the bytes of a number gives it back, modulo the width. -/
theorem leNat_leBytes (n v : Nat) : leNat (leBytes n v) = v % 256 ^ n := by
  induction n generalizing v with
  | zero => simp [leBytes, leNat, Nat.mod_one]
  | succ n ih =>
    have h : v % 256 ^ (n + 1) = v % 256 + 256 * (v / 256 % 256 ^ n) := by
      rw [show 256 ^ (n + 1) = 256 * 256 ^ n by ring, Nat.mod_mul]
    rw [h]
    simp only [leBytes, leNat, ih, BitVec.toNat_ofNat]

theorem leNat_lt (l : List Byte) : leNat l < 256 ^ l.length := by
  induction l with
  | nil => simp [leNat]
  | cons b r ih =>
    have := b.isLt
    simp only [leNat, List.length_cons, Nat.pow_succ]
    omega

end Sys2Proof.Machine
end

