-- ==== Sys2Proof/Laws/State.lean ====
section
/-! SUPPORT. What each update of the state leaves and gives, field by field: the module's accessors first, then a cell's. The
simp normal form of a change of a cell is `setCell`; of a partition `setPart`; of a function `setFunc`. -/

namespace Sys2Proof.Machine

/-! ### Normal forms -/

@[simp] theorem State.onCell_eq (s : State) (n : Nat) (f : Cell → Cell) : s.onCell n f = s.setCell n (f (s.cell n)) := rfl
@[simp] theorem State.setCur_eq (s : State) (c : Cell) : s.setCur c = s.setCell s.focus.cell c := rfl
@[simp] theorem State.onCur_eq (s : State) (f : Cell → Cell) : s.onCur f = s.setCell s.focus.cell (f s.cur) := rfl
@[simp] theorem State.onPart_eq (s : State) (p : Nat) (f : Part → Part) : s.onPart p f = s.setPart p (f (s.part p)) := rfl
@[simp] theorem State.onFunc_eq (s : State) (n : Nat) (f : Func → Func) : s.onFunc n f = s.setFunc n (f (s.func n)) := rfl
@[simp] theorem State.onQueue_eq (s : State) (f q : Nat) (g : Queue → Queue) :
    s.onQueue f q g = s.setQueue f q (g (s.queue f q)) := rfl
theorem State.setQueue_eq (s : State) (f q : Nat) (v : Queue) :
    s.setQueue f q v = s.setFunc f { s.func f with queues := Map.put (s.func f).queues q v } := rfl

/-! ### One lemma per field and update of the module -/

@[simp] theorem State.setCell_boot (s : State) (n : Nat) (c : Cell) : (s.setCell n c).boot = s.boot := rfl
@[simp] theorem State.setCell_timebase (s : State) (n : Nat) (c : Cell) : (s.setCell n c).timebase = s.timebase := rfl
@[simp] theorem State.setCell_clock (s : State) (n : Nat) (c : Cell) : (s.setCell n c).clock = s.clock := rfl
@[simp] theorem State.setCell_funcs (s : State) (n : Nat) (c : Cell) : (s.setCell n c).funcs = s.funcs := rfl
@[simp] theorem State.setCell_lastVf (s : State) (n : Nat) (c : Cell) : (s.setCell n c).lastVf = s.lastVf := rfl
@[simp] theorem State.setCell_hyper (s : State) (n : Nat) (c : Cell) : (s.setCell n c).hyper = s.hyper := rfl
@[simp] theorem State.setCell_fring (s : State) (n : Nat) (c : Cell) : (s.setCell n c).fring = s.fring := rfl
@[simp] theorem State.setCell_faults (s : State) (n : Nat) (c : Cell) : (s.setCell n c).faults = s.faults := rfl
@[simp] theorem State.setCell_parts (s : State) (n : Nat) (c : Cell) : (s.setCell n c).parts = s.parts := rfl
@[simp] theorem State.setCell_launches (s : State) (n : Nat) (c : Cell) : (s.setCell n c).launches = s.launches := rfl
@[simp] theorem State.setCell_nextLaunch (s : State) (n : Nat) (c : Cell) : (s.setCell n c).nextLaunch = s.nextLaunch := rfl
@[simp] theorem State.setCell_worlds (s : State) (n : Nat) (c : Cell) : (s.setCell n c).worlds = s.worlds := rfl
@[simp] theorem State.setCell_lodge (s : State) (n : Nat) (c : Cell) : (s.setCell n c).lodge = s.lodge := rfl
@[simp] theorem State.setCell_policy (s : State) (n : Nat) (c : Cell) : (s.setCell n c).policy = s.policy := rfl
@[simp] theorem State.setCell_pod (s : State) (n : Nat) (c : Cell) : (s.setCell n c).pod = s.pod := rfl
@[simp] theorem State.setCell_mem (s : State) (n : Nat) (c : Cell) : (s.setCell n c).mem = s.mem := rfl
@[simp] theorem State.setCell_hostMem (s : State) (n : Nat) (c : Cell) : (s.setCell n c).hostMem = s.hostMem := rfl
@[simp] theorem State.setCell_owners (s : State) (n : Nat) (c : Cell) : (s.setCell n c).owners = s.owners := rfl
@[simp] theorem State.setCell_opdBacked (s : State) (n : Nat) (c : Cell) : (s.setCell n c).opdBacked = s.opdBacked := rfl
@[simp] theorem State.setCell_full (s : State) (n : Nat) (c : Cell) : (s.setCell n c).full = s.full := rfl
@[simp] theorem State.setCell_stamps (s : State) (n : Nat) (c : Cell) : (s.setCell n c).stamps = s.stamps := rfl
@[simp] theorem State.setCell_lines (s : State) (n : Nat) (c : Cell) : (s.setCell n c).lines = s.lines := rfl
@[simp] theorem State.setCell_flows (s : State) (n : Nat) (c : Cell) : (s.setCell n c).flows = s.flows := rfl
@[simp] theorem State.setCell_retired (s : State) (n : Nat) (c : Cell) : (s.setCell n c).retired = s.retired := rfl
@[simp] theorem State.setCell_quarantined (s : State) (n : Nat) (c : Cell) : (s.setCell n c).quarantined = s.quarantined := rfl
@[simp] theorem State.setCell_cxl0 (s : State) (n : Nat) (c : Cell) : (s.setCell n c).cxl0 = s.cxl0 := rfl
@[simp] theorem State.setCell_cxl1 (s : State) (n : Nat) (c : Cell) : (s.setCell n c).cxl1 = s.cxl1 := rfl
@[simp] theorem State.setCell_cxlDown (s : State) (n : Nat) (c : Cell) : (s.setCell n c).cxlDown = s.cxlDown := rfl
@[simp] theorem State.setCell_reloading (s : State) (n : Nat) (c : Cell) : (s.setCell n c).reloading = s.reloading := rfl
@[simp] theorem State.setCell_out (s : State) (n : Nat) (c : Cell) : (s.setCell n c).out = s.out := rfl
@[simp] theorem State.setCell_agenda (s : State) (n : Nat) (c : Cell) : (s.setCell n c).agenda = s.agenda := rfl
@[simp] theorem State.setCell_free (s : State) (n : Nat) (c : Cell) : (s.setCell n c).free = s.free := rfl
@[simp] theorem State.setCell_focus (s : State) (n : Nat) (c : Cell) : (s.setCell n c).focus = s.focus := rfl
@[simp] theorem State.setPart_boot (s : State) (p : Nat) (v : Part) : (s.setPart p v).boot = s.boot := rfl
@[simp] theorem State.setPart_timebase (s : State) (p : Nat) (v : Part) : (s.setPart p v).timebase = s.timebase := rfl
@[simp] theorem State.setPart_clock (s : State) (p : Nat) (v : Part) : (s.setPart p v).clock = s.clock := rfl
@[simp] theorem State.setPart_funcs (s : State) (p : Nat) (v : Part) : (s.setPart p v).funcs = s.funcs := rfl
@[simp] theorem State.setPart_lastVf (s : State) (p : Nat) (v : Part) : (s.setPart p v).lastVf = s.lastVf := rfl
@[simp] theorem State.setPart_hyper (s : State) (p : Nat) (v : Part) : (s.setPart p v).hyper = s.hyper := rfl
@[simp] theorem State.setPart_fring (s : State) (p : Nat) (v : Part) : (s.setPart p v).fring = s.fring := rfl
@[simp] theorem State.setPart_faults (s : State) (p : Nat) (v : Part) : (s.setPart p v).faults = s.faults := rfl
@[simp] theorem State.setPart_launches (s : State) (p : Nat) (v : Part) : (s.setPart p v).launches = s.launches := rfl
@[simp] theorem State.setPart_nextLaunch (s : State) (p : Nat) (v : Part) : (s.setPart p v).nextLaunch = s.nextLaunch := rfl
@[simp] theorem State.setPart_worlds (s : State) (p : Nat) (v : Part) : (s.setPart p v).worlds = s.worlds := rfl
@[simp] theorem State.setPart_lodge (s : State) (p : Nat) (v : Part) : (s.setPart p v).lodge = s.lodge := rfl
@[simp] theorem State.setPart_policy (s : State) (p : Nat) (v : Part) : (s.setPart p v).policy = s.policy := rfl
@[simp] theorem State.setPart_pod (s : State) (p : Nat) (v : Part) : (s.setPart p v).pod = s.pod := rfl
@[simp] theorem State.setPart_mem (s : State) (p : Nat) (v : Part) : (s.setPart p v).mem = s.mem := rfl
@[simp] theorem State.setPart_hostMem (s : State) (p : Nat) (v : Part) : (s.setPart p v).hostMem = s.hostMem := rfl
@[simp] theorem State.setPart_owners (s : State) (p : Nat) (v : Part) : (s.setPart p v).owners = s.owners := rfl
@[simp] theorem State.setPart_opdBacked (s : State) (p : Nat) (v : Part) : (s.setPart p v).opdBacked = s.opdBacked := rfl
@[simp] theorem State.setPart_full (s : State) (p : Nat) (v : Part) : (s.setPart p v).full = s.full := rfl
@[simp] theorem State.setPart_stamps (s : State) (p : Nat) (v : Part) : (s.setPart p v).stamps = s.stamps := rfl
@[simp] theorem State.setPart_lines (s : State) (p : Nat) (v : Part) : (s.setPart p v).lines = s.lines := rfl
@[simp] theorem State.setPart_flows (s : State) (p : Nat) (v : Part) : (s.setPart p v).flows = s.flows := rfl
@[simp] theorem State.setPart_retired (s : State) (p : Nat) (v : Part) : (s.setPart p v).retired = s.retired := rfl
@[simp] theorem State.setPart_quarantined (s : State) (p : Nat) (v : Part) : (s.setPart p v).quarantined = s.quarantined := rfl
@[simp] theorem State.setPart_cxl0 (s : State) (p : Nat) (v : Part) : (s.setPart p v).cxl0 = s.cxl0 := rfl
@[simp] theorem State.setPart_cxl1 (s : State) (p : Nat) (v : Part) : (s.setPart p v).cxl1 = s.cxl1 := rfl
@[simp] theorem State.setPart_cxlDown (s : State) (p : Nat) (v : Part) : (s.setPart p v).cxlDown = s.cxlDown := rfl
@[simp] theorem State.setPart_reloading (s : State) (p : Nat) (v : Part) : (s.setPart p v).reloading = s.reloading := rfl
@[simp] theorem State.setPart_cells (s : State) (p : Nat) (v : Part) : (s.setPart p v).cells = s.cells := rfl
@[simp] theorem State.setPart_out (s : State) (p : Nat) (v : Part) : (s.setPart p v).out = s.out := rfl
@[simp] theorem State.setPart_agenda (s : State) (p : Nat) (v : Part) : (s.setPart p v).agenda = s.agenda := rfl
@[simp] theorem State.setPart_free (s : State) (p : Nat) (v : Part) : (s.setPart p v).free = s.free := rfl
@[simp] theorem State.setPart_focus (s : State) (p : Nat) (v : Part) : (s.setPart p v).focus = s.focus := rfl
@[simp] theorem State.setFunc_boot (s : State) (n : Nat) (v : Func) : (s.setFunc n v).boot = s.boot := rfl
@[simp] theorem State.setFunc_timebase (s : State) (n : Nat) (v : Func) : (s.setFunc n v).timebase = s.timebase := rfl
@[simp] theorem State.setFunc_clock (s : State) (n : Nat) (v : Func) : (s.setFunc n v).clock = s.clock := rfl
@[simp] theorem State.setFunc_lastVf (s : State) (n : Nat) (v : Func) : (s.setFunc n v).lastVf = s.lastVf := rfl
@[simp] theorem State.setFunc_hyper (s : State) (n : Nat) (v : Func) : (s.setFunc n v).hyper = s.hyper := rfl
@[simp] theorem State.setFunc_fring (s : State) (n : Nat) (v : Func) : (s.setFunc n v).fring = s.fring := rfl
@[simp] theorem State.setFunc_faults (s : State) (n : Nat) (v : Func) : (s.setFunc n v).faults = s.faults := rfl
@[simp] theorem State.setFunc_parts (s : State) (n : Nat) (v : Func) : (s.setFunc n v).parts = s.parts := rfl
@[simp] theorem State.setFunc_launches (s : State) (n : Nat) (v : Func) : (s.setFunc n v).launches = s.launches := rfl
@[simp] theorem State.setFunc_nextLaunch (s : State) (n : Nat) (v : Func) : (s.setFunc n v).nextLaunch = s.nextLaunch := rfl
@[simp] theorem State.setFunc_worlds (s : State) (n : Nat) (v : Func) : (s.setFunc n v).worlds = s.worlds := rfl
@[simp] theorem State.setFunc_lodge (s : State) (n : Nat) (v : Func) : (s.setFunc n v).lodge = s.lodge := rfl
@[simp] theorem State.setFunc_policy (s : State) (n : Nat) (v : Func) : (s.setFunc n v).policy = s.policy := rfl
@[simp] theorem State.setFunc_pod (s : State) (n : Nat) (v : Func) : (s.setFunc n v).pod = s.pod := rfl
@[simp] theorem State.setFunc_mem (s : State) (n : Nat) (v : Func) : (s.setFunc n v).mem = s.mem := rfl
@[simp] theorem State.setFunc_hostMem (s : State) (n : Nat) (v : Func) : (s.setFunc n v).hostMem = s.hostMem := rfl
@[simp] theorem State.setFunc_owners (s : State) (n : Nat) (v : Func) : (s.setFunc n v).owners = s.owners := rfl
@[simp] theorem State.setFunc_opdBacked (s : State) (n : Nat) (v : Func) : (s.setFunc n v).opdBacked = s.opdBacked := rfl
@[simp] theorem State.setFunc_full (s : State) (n : Nat) (v : Func) : (s.setFunc n v).full = s.full := rfl
@[simp] theorem State.setFunc_stamps (s : State) (n : Nat) (v : Func) : (s.setFunc n v).stamps = s.stamps := rfl
@[simp] theorem State.setFunc_lines (s : State) (n : Nat) (v : Func) : (s.setFunc n v).lines = s.lines := rfl
@[simp] theorem State.setFunc_flows (s : State) (n : Nat) (v : Func) : (s.setFunc n v).flows = s.flows := rfl
@[simp] theorem State.setFunc_retired (s : State) (n : Nat) (v : Func) : (s.setFunc n v).retired = s.retired := rfl
@[simp] theorem State.setFunc_quarantined (s : State) (n : Nat) (v : Func) : (s.setFunc n v).quarantined = s.quarantined := rfl
@[simp] theorem State.setFunc_cxl0 (s : State) (n : Nat) (v : Func) : (s.setFunc n v).cxl0 = s.cxl0 := rfl
@[simp] theorem State.setFunc_cxl1 (s : State) (n : Nat) (v : Func) : (s.setFunc n v).cxl1 = s.cxl1 := rfl
@[simp] theorem State.setFunc_cxlDown (s : State) (n : Nat) (v : Func) : (s.setFunc n v).cxlDown = s.cxlDown := rfl
@[simp] theorem State.setFunc_reloading (s : State) (n : Nat) (v : Func) : (s.setFunc n v).reloading = s.reloading := rfl
@[simp] theorem State.setFunc_cells (s : State) (n : Nat) (v : Func) : (s.setFunc n v).cells = s.cells := rfl
@[simp] theorem State.setFunc_out (s : State) (n : Nat) (v : Func) : (s.setFunc n v).out = s.out := rfl
@[simp] theorem State.setFunc_agenda (s : State) (n : Nat) (v : Func) : (s.setFunc n v).agenda = s.agenda := rfl
@[simp] theorem State.setFunc_free (s : State) (n : Nat) (v : Func) : (s.setFunc n v).free = s.free := rfl
@[simp] theorem State.setFunc_focus (s : State) (n : Nat) (v : Func) : (s.setFunc n v).focus = s.focus := rfl
@[simp] theorem State.setQueue_boot (s : State) (f q : Nat) (v : Queue) : (s.setQueue f q v).boot = s.boot := rfl
@[simp] theorem State.setQueue_timebase (s : State) (f q : Nat) (v : Queue) : (s.setQueue f q v).timebase = s.timebase := rfl
@[simp] theorem State.setQueue_clock (s : State) (f q : Nat) (v : Queue) : (s.setQueue f q v).clock = s.clock := rfl
@[simp] theorem State.setQueue_lastVf (s : State) (f q : Nat) (v : Queue) : (s.setQueue f q v).lastVf = s.lastVf := rfl
@[simp] theorem State.setQueue_hyper (s : State) (f q : Nat) (v : Queue) : (s.setQueue f q v).hyper = s.hyper := rfl
@[simp] theorem State.setQueue_fring (s : State) (f q : Nat) (v : Queue) : (s.setQueue f q v).fring = s.fring := rfl
@[simp] theorem State.setQueue_faults (s : State) (f q : Nat) (v : Queue) : (s.setQueue f q v).faults = s.faults := rfl
@[simp] theorem State.setQueue_parts (s : State) (f q : Nat) (v : Queue) : (s.setQueue f q v).parts = s.parts := rfl
@[simp] theorem State.setQueue_launches (s : State) (f q : Nat) (v : Queue) : (s.setQueue f q v).launches = s.launches := rfl
@[simp] theorem State.setQueue_nextLaunch (s : State) (f q : Nat) (v : Queue) : (s.setQueue f q v).nextLaunch = s.nextLaunch := rfl
@[simp] theorem State.setQueue_worlds (s : State) (f q : Nat) (v : Queue) : (s.setQueue f q v).worlds = s.worlds := rfl
@[simp] theorem State.setQueue_lodge (s : State) (f q : Nat) (v : Queue) : (s.setQueue f q v).lodge = s.lodge := rfl
@[simp] theorem State.setQueue_policy (s : State) (f q : Nat) (v : Queue) : (s.setQueue f q v).policy = s.policy := rfl
@[simp] theorem State.setQueue_pod (s : State) (f q : Nat) (v : Queue) : (s.setQueue f q v).pod = s.pod := rfl
@[simp] theorem State.setQueue_mem (s : State) (f q : Nat) (v : Queue) : (s.setQueue f q v).mem = s.mem := rfl
@[simp] theorem State.setQueue_hostMem (s : State) (f q : Nat) (v : Queue) : (s.setQueue f q v).hostMem = s.hostMem := rfl
@[simp] theorem State.setQueue_owners (s : State) (f q : Nat) (v : Queue) : (s.setQueue f q v).owners = s.owners := rfl
@[simp] theorem State.setQueue_opdBacked (s : State) (f q : Nat) (v : Queue) : (s.setQueue f q v).opdBacked = s.opdBacked := rfl
@[simp] theorem State.setQueue_full (s : State) (f q : Nat) (v : Queue) : (s.setQueue f q v).full = s.full := rfl
@[simp] theorem State.setQueue_stamps (s : State) (f q : Nat) (v : Queue) : (s.setQueue f q v).stamps = s.stamps := rfl
@[simp] theorem State.setQueue_lines (s : State) (f q : Nat) (v : Queue) : (s.setQueue f q v).lines = s.lines := rfl
@[simp] theorem State.setQueue_flows (s : State) (f q : Nat) (v : Queue) : (s.setQueue f q v).flows = s.flows := rfl
@[simp] theorem State.setQueue_retired (s : State) (f q : Nat) (v : Queue) : (s.setQueue f q v).retired = s.retired := rfl
@[simp] theorem State.setQueue_quarantined (s : State) (f q : Nat) (v : Queue) : (s.setQueue f q v).quarantined = s.quarantined := rfl
@[simp] theorem State.setQueue_cxl0 (s : State) (f q : Nat) (v : Queue) : (s.setQueue f q v).cxl0 = s.cxl0 := rfl
@[simp] theorem State.setQueue_cxl1 (s : State) (f q : Nat) (v : Queue) : (s.setQueue f q v).cxl1 = s.cxl1 := rfl
@[simp] theorem State.setQueue_cxlDown (s : State) (f q : Nat) (v : Queue) : (s.setQueue f q v).cxlDown = s.cxlDown := rfl
@[simp] theorem State.setQueue_reloading (s : State) (f q : Nat) (v : Queue) : (s.setQueue f q v).reloading = s.reloading := rfl
@[simp] theorem State.setQueue_cells (s : State) (f q : Nat) (v : Queue) : (s.setQueue f q v).cells = s.cells := rfl
@[simp] theorem State.setQueue_out (s : State) (f q : Nat) (v : Queue) : (s.setQueue f q v).out = s.out := rfl
@[simp] theorem State.setQueue_agenda (s : State) (f q : Nat) (v : Queue) : (s.setQueue f q v).agenda = s.agenda := rfl
@[simp] theorem State.setQueue_free (s : State) (f q : Nat) (v : Queue) : (s.setQueue f q v).free = s.free := rfl
@[simp] theorem State.setQueue_focus (s : State) (f q : Nat) (v : Queue) : (s.setQueue f q v).focus = s.focus := rfl
@[simp] theorem State.setWorld_boot (s : State) (w : Nat) (v : World) : (s.setWorld w v).boot = s.boot := rfl
@[simp] theorem State.setWorld_timebase (s : State) (w : Nat) (v : World) : (s.setWorld w v).timebase = s.timebase := rfl
@[simp] theorem State.setWorld_clock (s : State) (w : Nat) (v : World) : (s.setWorld w v).clock = s.clock := rfl
@[simp] theorem State.setWorld_funcs (s : State) (w : Nat) (v : World) : (s.setWorld w v).funcs = s.funcs := rfl
@[simp] theorem State.setWorld_lastVf (s : State) (w : Nat) (v : World) : (s.setWorld w v).lastVf = s.lastVf := rfl
@[simp] theorem State.setWorld_hyper (s : State) (w : Nat) (v : World) : (s.setWorld w v).hyper = s.hyper := rfl
@[simp] theorem State.setWorld_fring (s : State) (w : Nat) (v : World) : (s.setWorld w v).fring = s.fring := rfl
@[simp] theorem State.setWorld_faults (s : State) (w : Nat) (v : World) : (s.setWorld w v).faults = s.faults := rfl
@[simp] theorem State.setWorld_parts (s : State) (w : Nat) (v : World) : (s.setWorld w v).parts = s.parts := rfl
@[simp] theorem State.setWorld_launches (s : State) (w : Nat) (v : World) : (s.setWorld w v).launches = s.launches := rfl
@[simp] theorem State.setWorld_nextLaunch (s : State) (w : Nat) (v : World) : (s.setWorld w v).nextLaunch = s.nextLaunch := rfl
@[simp] theorem State.setWorld_lodge (s : State) (w : Nat) (v : World) : (s.setWorld w v).lodge = s.lodge := rfl
@[simp] theorem State.setWorld_policy (s : State) (w : Nat) (v : World) : (s.setWorld w v).policy = s.policy := rfl
@[simp] theorem State.setWorld_pod (s : State) (w : Nat) (v : World) : (s.setWorld w v).pod = s.pod := rfl
@[simp] theorem State.setWorld_mem (s : State) (w : Nat) (v : World) : (s.setWorld w v).mem = s.mem := rfl
@[simp] theorem State.setWorld_hostMem (s : State) (w : Nat) (v : World) : (s.setWorld w v).hostMem = s.hostMem := rfl
@[simp] theorem State.setWorld_owners (s : State) (w : Nat) (v : World) : (s.setWorld w v).owners = s.owners := rfl
@[simp] theorem State.setWorld_opdBacked (s : State) (w : Nat) (v : World) : (s.setWorld w v).opdBacked = s.opdBacked := rfl
@[simp] theorem State.setWorld_full (s : State) (w : Nat) (v : World) : (s.setWorld w v).full = s.full := rfl
@[simp] theorem State.setWorld_stamps (s : State) (w : Nat) (v : World) : (s.setWorld w v).stamps = s.stamps := rfl
@[simp] theorem State.setWorld_lines (s : State) (w : Nat) (v : World) : (s.setWorld w v).lines = s.lines := rfl
@[simp] theorem State.setWorld_flows (s : State) (w : Nat) (v : World) : (s.setWorld w v).flows = s.flows := rfl
@[simp] theorem State.setWorld_retired (s : State) (w : Nat) (v : World) : (s.setWorld w v).retired = s.retired := rfl
@[simp] theorem State.setWorld_quarantined (s : State) (w : Nat) (v : World) : (s.setWorld w v).quarantined = s.quarantined := rfl
@[simp] theorem State.setWorld_cxl0 (s : State) (w : Nat) (v : World) : (s.setWorld w v).cxl0 = s.cxl0 := rfl
@[simp] theorem State.setWorld_cxl1 (s : State) (w : Nat) (v : World) : (s.setWorld w v).cxl1 = s.cxl1 := rfl
@[simp] theorem State.setWorld_cxlDown (s : State) (w : Nat) (v : World) : (s.setWorld w v).cxlDown = s.cxlDown := rfl
@[simp] theorem State.setWorld_reloading (s : State) (w : Nat) (v : World) : (s.setWorld w v).reloading = s.reloading := rfl
@[simp] theorem State.setWorld_cells (s : State) (w : Nat) (v : World) : (s.setWorld w v).cells = s.cells := rfl
@[simp] theorem State.setWorld_out (s : State) (w : Nat) (v : World) : (s.setWorld w v).out = s.out := rfl
@[simp] theorem State.setWorld_agenda (s : State) (w : Nat) (v : World) : (s.setWorld w v).agenda = s.agenda := rfl
@[simp] theorem State.setWorld_free (s : State) (w : Nat) (v : World) : (s.setWorld w v).free = s.free := rfl
@[simp] theorem State.setWorld_focus (s : State) (w : Nat) (v : World) : (s.setWorld w v).focus = s.focus := rfl
@[simp] theorem State.onLodge_boot (s : State) (f : Lodge → Lodge) : (s.onLodge f).boot = s.boot := rfl
@[simp] theorem State.onLodge_timebase (s : State) (f : Lodge → Lodge) : (s.onLodge f).timebase = s.timebase := rfl
@[simp] theorem State.onLodge_clock (s : State) (f : Lodge → Lodge) : (s.onLodge f).clock = s.clock := rfl
@[simp] theorem State.onLodge_funcs (s : State) (f : Lodge → Lodge) : (s.onLodge f).funcs = s.funcs := rfl
@[simp] theorem State.onLodge_lastVf (s : State) (f : Lodge → Lodge) : (s.onLodge f).lastVf = s.lastVf := rfl
@[simp] theorem State.onLodge_hyper (s : State) (f : Lodge → Lodge) : (s.onLodge f).hyper = s.hyper := rfl
@[simp] theorem State.onLodge_fring (s : State) (f : Lodge → Lodge) : (s.onLodge f).fring = s.fring := rfl
@[simp] theorem State.onLodge_faults (s : State) (f : Lodge → Lodge) : (s.onLodge f).faults = s.faults := rfl
@[simp] theorem State.onLodge_parts (s : State) (f : Lodge → Lodge) : (s.onLodge f).parts = s.parts := rfl
@[simp] theorem State.onLodge_launches (s : State) (f : Lodge → Lodge) : (s.onLodge f).launches = s.launches := rfl
@[simp] theorem State.onLodge_nextLaunch (s : State) (f : Lodge → Lodge) : (s.onLodge f).nextLaunch = s.nextLaunch := rfl
@[simp] theorem State.onLodge_worlds (s : State) (f : Lodge → Lodge) : (s.onLodge f).worlds = s.worlds := rfl
@[simp] theorem State.onLodge_policy (s : State) (f : Lodge → Lodge) : (s.onLodge f).policy = s.policy := rfl
@[simp] theorem State.onLodge_pod (s : State) (f : Lodge → Lodge) : (s.onLodge f).pod = s.pod := rfl
@[simp] theorem State.onLodge_mem (s : State) (f : Lodge → Lodge) : (s.onLodge f).mem = s.mem := rfl
@[simp] theorem State.onLodge_hostMem (s : State) (f : Lodge → Lodge) : (s.onLodge f).hostMem = s.hostMem := rfl
@[simp] theorem State.onLodge_owners (s : State) (f : Lodge → Lodge) : (s.onLodge f).owners = s.owners := rfl
@[simp] theorem State.onLodge_opdBacked (s : State) (f : Lodge → Lodge) : (s.onLodge f).opdBacked = s.opdBacked := rfl
@[simp] theorem State.onLodge_full (s : State) (f : Lodge → Lodge) : (s.onLodge f).full = s.full := rfl
@[simp] theorem State.onLodge_stamps (s : State) (f : Lodge → Lodge) : (s.onLodge f).stamps = s.stamps := rfl
@[simp] theorem State.onLodge_lines (s : State) (f : Lodge → Lodge) : (s.onLodge f).lines = s.lines := rfl
@[simp] theorem State.onLodge_flows (s : State) (f : Lodge → Lodge) : (s.onLodge f).flows = s.flows := rfl
@[simp] theorem State.onLodge_retired (s : State) (f : Lodge → Lodge) : (s.onLodge f).retired = s.retired := rfl
@[simp] theorem State.onLodge_quarantined (s : State) (f : Lodge → Lodge) : (s.onLodge f).quarantined = s.quarantined := rfl
@[simp] theorem State.onLodge_cxl0 (s : State) (f : Lodge → Lodge) : (s.onLodge f).cxl0 = s.cxl0 := rfl
@[simp] theorem State.onLodge_cxl1 (s : State) (f : Lodge → Lodge) : (s.onLodge f).cxl1 = s.cxl1 := rfl
@[simp] theorem State.onLodge_cxlDown (s : State) (f : Lodge → Lodge) : (s.onLodge f).cxlDown = s.cxlDown := rfl
@[simp] theorem State.onLodge_reloading (s : State) (f : Lodge → Lodge) : (s.onLodge f).reloading = s.reloading := rfl
@[simp] theorem State.onLodge_cells (s : State) (f : Lodge → Lodge) : (s.onLodge f).cells = s.cells := rfl
@[simp] theorem State.onLodge_out (s : State) (f : Lodge → Lodge) : (s.onLodge f).out = s.out := rfl
@[simp] theorem State.onLodge_agenda (s : State) (f : Lodge → Lodge) : (s.onLodge f).agenda = s.agenda := rfl
@[simp] theorem State.onLodge_free (s : State) (f : Lodge → Lodge) : (s.onLodge f).free = s.free := rfl
@[simp] theorem State.onLodge_focus (s : State) (f : Lodge → Lodge) : (s.onLodge f).focus = s.focus := rfl
@[simp] theorem State.onPod_boot (s : State) (f : Pod → Pod) : (s.onPod f).boot = s.boot := rfl
@[simp] theorem State.onPod_timebase (s : State) (f : Pod → Pod) : (s.onPod f).timebase = s.timebase := rfl
@[simp] theorem State.onPod_clock (s : State) (f : Pod → Pod) : (s.onPod f).clock = s.clock := rfl
@[simp] theorem State.onPod_funcs (s : State) (f : Pod → Pod) : (s.onPod f).funcs = s.funcs := rfl
@[simp] theorem State.onPod_lastVf (s : State) (f : Pod → Pod) : (s.onPod f).lastVf = s.lastVf := rfl
@[simp] theorem State.onPod_hyper (s : State) (f : Pod → Pod) : (s.onPod f).hyper = s.hyper := rfl
@[simp] theorem State.onPod_fring (s : State) (f : Pod → Pod) : (s.onPod f).fring = s.fring := rfl
@[simp] theorem State.onPod_faults (s : State) (f : Pod → Pod) : (s.onPod f).faults = s.faults := rfl
@[simp] theorem State.onPod_parts (s : State) (f : Pod → Pod) : (s.onPod f).parts = s.parts := rfl
@[simp] theorem State.onPod_launches (s : State) (f : Pod → Pod) : (s.onPod f).launches = s.launches := rfl
@[simp] theorem State.onPod_nextLaunch (s : State) (f : Pod → Pod) : (s.onPod f).nextLaunch = s.nextLaunch := rfl
@[simp] theorem State.onPod_worlds (s : State) (f : Pod → Pod) : (s.onPod f).worlds = s.worlds := rfl
@[simp] theorem State.onPod_lodge (s : State) (f : Pod → Pod) : (s.onPod f).lodge = s.lodge := rfl
@[simp] theorem State.onPod_policy (s : State) (f : Pod → Pod) : (s.onPod f).policy = s.policy := rfl
@[simp] theorem State.onPod_mem (s : State) (f : Pod → Pod) : (s.onPod f).mem = s.mem := rfl
@[simp] theorem State.onPod_hostMem (s : State) (f : Pod → Pod) : (s.onPod f).hostMem = s.hostMem := rfl
@[simp] theorem State.onPod_owners (s : State) (f : Pod → Pod) : (s.onPod f).owners = s.owners := rfl
@[simp] theorem State.onPod_opdBacked (s : State) (f : Pod → Pod) : (s.onPod f).opdBacked = s.opdBacked := rfl
@[simp] theorem State.onPod_full (s : State) (f : Pod → Pod) : (s.onPod f).full = s.full := rfl
@[simp] theorem State.onPod_stamps (s : State) (f : Pod → Pod) : (s.onPod f).stamps = s.stamps := rfl
@[simp] theorem State.onPod_lines (s : State) (f : Pod → Pod) : (s.onPod f).lines = s.lines := rfl
@[simp] theorem State.onPod_flows (s : State) (f : Pod → Pod) : (s.onPod f).flows = s.flows := rfl
@[simp] theorem State.onPod_retired (s : State) (f : Pod → Pod) : (s.onPod f).retired = s.retired := rfl
@[simp] theorem State.onPod_quarantined (s : State) (f : Pod → Pod) : (s.onPod f).quarantined = s.quarantined := rfl
@[simp] theorem State.onPod_cxl0 (s : State) (f : Pod → Pod) : (s.onPod f).cxl0 = s.cxl0 := rfl
@[simp] theorem State.onPod_cxl1 (s : State) (f : Pod → Pod) : (s.onPod f).cxl1 = s.cxl1 := rfl
@[simp] theorem State.onPod_cxlDown (s : State) (f : Pod → Pod) : (s.onPod f).cxlDown = s.cxlDown := rfl
@[simp] theorem State.onPod_reloading (s : State) (f : Pod → Pod) : (s.onPod f).reloading = s.reloading := rfl
@[simp] theorem State.onPod_cells (s : State) (f : Pod → Pod) : (s.onPod f).cells = s.cells := rfl
@[simp] theorem State.onPod_out (s : State) (f : Pod → Pod) : (s.onPod f).out = s.out := rfl
@[simp] theorem State.onPod_agenda (s : State) (f : Pod → Pod) : (s.onPod f).agenda = s.agenda := rfl
@[simp] theorem State.onPod_free (s : State) (f : Pod → Pod) : (s.onPod f).free = s.free := rfl
@[simp] theorem State.onPod_focus (s : State) (f : Pod → Pod) : (s.onPod f).focus = s.focus := rfl
@[simp] theorem State.emit_boot (s : State) (o : Out) : (s.emit o).boot = s.boot := rfl
@[simp] theorem State.emit_timebase (s : State) (o : Out) : (s.emit o).timebase = s.timebase := rfl
@[simp] theorem State.emit_clock (s : State) (o : Out) : (s.emit o).clock = s.clock := rfl
@[simp] theorem State.emit_funcs (s : State) (o : Out) : (s.emit o).funcs = s.funcs := rfl
@[simp] theorem State.emit_lastVf (s : State) (o : Out) : (s.emit o).lastVf = s.lastVf := rfl
@[simp] theorem State.emit_hyper (s : State) (o : Out) : (s.emit o).hyper = s.hyper := rfl
@[simp] theorem State.emit_fring (s : State) (o : Out) : (s.emit o).fring = s.fring := rfl
@[simp] theorem State.emit_faults (s : State) (o : Out) : (s.emit o).faults = s.faults := rfl
@[simp] theorem State.emit_parts (s : State) (o : Out) : (s.emit o).parts = s.parts := rfl
@[simp] theorem State.emit_launches (s : State) (o : Out) : (s.emit o).launches = s.launches := rfl
@[simp] theorem State.emit_nextLaunch (s : State) (o : Out) : (s.emit o).nextLaunch = s.nextLaunch := rfl
@[simp] theorem State.emit_worlds (s : State) (o : Out) : (s.emit o).worlds = s.worlds := rfl
@[simp] theorem State.emit_lodge (s : State) (o : Out) : (s.emit o).lodge = s.lodge := rfl
@[simp] theorem State.emit_policy (s : State) (o : Out) : (s.emit o).policy = s.policy := rfl
@[simp] theorem State.emit_pod (s : State) (o : Out) : (s.emit o).pod = s.pod := rfl
@[simp] theorem State.emit_mem (s : State) (o : Out) : (s.emit o).mem = s.mem := rfl
@[simp] theorem State.emit_hostMem (s : State) (o : Out) : (s.emit o).hostMem = s.hostMem := rfl
@[simp] theorem State.emit_owners (s : State) (o : Out) : (s.emit o).owners = s.owners := rfl
@[simp] theorem State.emit_opdBacked (s : State) (o : Out) : (s.emit o).opdBacked = s.opdBacked := rfl
@[simp] theorem State.emit_full (s : State) (o : Out) : (s.emit o).full = s.full := rfl
@[simp] theorem State.emit_stamps (s : State) (o : Out) : (s.emit o).stamps = s.stamps := rfl
@[simp] theorem State.emit_lines (s : State) (o : Out) : (s.emit o).lines = s.lines := rfl
@[simp] theorem State.emit_flows (s : State) (o : Out) : (s.emit o).flows = s.flows := rfl
@[simp] theorem State.emit_retired (s : State) (o : Out) : (s.emit o).retired = s.retired := rfl
@[simp] theorem State.emit_quarantined (s : State) (o : Out) : (s.emit o).quarantined = s.quarantined := rfl
@[simp] theorem State.emit_cxl0 (s : State) (o : Out) : (s.emit o).cxl0 = s.cxl0 := rfl
@[simp] theorem State.emit_cxl1 (s : State) (o : Out) : (s.emit o).cxl1 = s.cxl1 := rfl
@[simp] theorem State.emit_cxlDown (s : State) (o : Out) : (s.emit o).cxlDown = s.cxlDown := rfl
@[simp] theorem State.emit_reloading (s : State) (o : Out) : (s.emit o).reloading = s.reloading := rfl
@[simp] theorem State.emit_cells (s : State) (o : Out) : (s.emit o).cells = s.cells := rfl
@[simp] theorem State.emit_agenda (s : State) (o : Out) : (s.emit o).agenda = s.agenda := rfl
@[simp] theorem State.emit_free (s : State) (o : Out) : (s.emit o).free = s.free := rfl
@[simp] theorem State.emit_focus (s : State) (o : Out) : (s.emit o).focus = s.focus := rfl
@[simp] theorem State.store_boot (s : State) (a : Nat) (l : List Byte) : (s.store a l).boot = s.boot := rfl
@[simp] theorem State.store_timebase (s : State) (a : Nat) (l : List Byte) : (s.store a l).timebase = s.timebase := rfl
@[simp] theorem State.store_clock (s : State) (a : Nat) (l : List Byte) : (s.store a l).clock = s.clock := rfl
@[simp] theorem State.store_funcs (s : State) (a : Nat) (l : List Byte) : (s.store a l).funcs = s.funcs := rfl
@[simp] theorem State.store_lastVf (s : State) (a : Nat) (l : List Byte) : (s.store a l).lastVf = s.lastVf := rfl
@[simp] theorem State.store_hyper (s : State) (a : Nat) (l : List Byte) : (s.store a l).hyper = s.hyper := rfl
@[simp] theorem State.store_fring (s : State) (a : Nat) (l : List Byte) : (s.store a l).fring = s.fring := rfl
@[simp] theorem State.store_faults (s : State) (a : Nat) (l : List Byte) : (s.store a l).faults = s.faults := rfl
@[simp] theorem State.store_parts (s : State) (a : Nat) (l : List Byte) : (s.store a l).parts = s.parts := rfl
@[simp] theorem State.store_launches (s : State) (a : Nat) (l : List Byte) : (s.store a l).launches = s.launches := rfl
@[simp] theorem State.store_nextLaunch (s : State) (a : Nat) (l : List Byte) : (s.store a l).nextLaunch = s.nextLaunch := rfl
@[simp] theorem State.store_worlds (s : State) (a : Nat) (l : List Byte) : (s.store a l).worlds = s.worlds := rfl
@[simp] theorem State.store_lodge (s : State) (a : Nat) (l : List Byte) : (s.store a l).lodge = s.lodge := rfl
@[simp] theorem State.store_policy (s : State) (a : Nat) (l : List Byte) : (s.store a l).policy = s.policy := rfl
@[simp] theorem State.store_pod (s : State) (a : Nat) (l : List Byte) : (s.store a l).pod = s.pod := rfl
@[simp] theorem State.store_hostMem (s : State) (a : Nat) (l : List Byte) : (s.store a l).hostMem = s.hostMem := rfl
@[simp] theorem State.store_owners (s : State) (a : Nat) (l : List Byte) : (s.store a l).owners = s.owners := rfl
@[simp] theorem State.store_opdBacked (s : State) (a : Nat) (l : List Byte) : (s.store a l).opdBacked = s.opdBacked := rfl
@[simp] theorem State.store_full (s : State) (a : Nat) (l : List Byte) : (s.store a l).full = s.full := rfl
@[simp] theorem State.store_stamps (s : State) (a : Nat) (l : List Byte) : (s.store a l).stamps = s.stamps := rfl
@[simp] theorem State.store_lines (s : State) (a : Nat) (l : List Byte) : (s.store a l).lines = s.lines := rfl
@[simp] theorem State.store_flows (s : State) (a : Nat) (l : List Byte) : (s.store a l).flows = s.flows := rfl
@[simp] theorem State.store_retired (s : State) (a : Nat) (l : List Byte) : (s.store a l).retired = s.retired := rfl
@[simp] theorem State.store_quarantined (s : State) (a : Nat) (l : List Byte) : (s.store a l).quarantined = s.quarantined := rfl
@[simp] theorem State.store_cxl0 (s : State) (a : Nat) (l : List Byte) : (s.store a l).cxl0 = s.cxl0 := rfl
@[simp] theorem State.store_cxl1 (s : State) (a : Nat) (l : List Byte) : (s.store a l).cxl1 = s.cxl1 := rfl
@[simp] theorem State.store_cxlDown (s : State) (a : Nat) (l : List Byte) : (s.store a l).cxlDown = s.cxlDown := rfl
@[simp] theorem State.store_reloading (s : State) (a : Nat) (l : List Byte) : (s.store a l).reloading = s.reloading := rfl
@[simp] theorem State.store_cells (s : State) (a : Nat) (l : List Byte) : (s.store a l).cells = s.cells := rfl
@[simp] theorem State.store_out (s : State) (a : Nat) (l : List Byte) : (s.store a l).out = s.out := rfl
@[simp] theorem State.store_agenda (s : State) (a : Nat) (l : List Byte) : (s.store a l).agenda = s.agenda := rfl
@[simp] theorem State.store_free (s : State) (a : Nat) (l : List Byte) : (s.store a l).free = s.free := rfl
@[simp] theorem State.store_focus (s : State) (a : Nat) (l : List Byte) : (s.store a l).focus = s.focus := rfl
@[simp] theorem State.onLodge_lodge (s : State) (f : Lodge → Lodge) : (s.onLodge f).lodge = f s.lodge := rfl
@[simp] theorem State.onPod_pod (s : State) (f : Pod → Pod) : (s.onPod f).pod = f s.pod := rfl
@[simp] theorem State.emit_out (s : State) (o : Out) : (s.emit o).out = s.out ++ [o] := rfl
theorem State.store_mem (s : State) (a : Nat) (l : List Byte) : (s.store a l).mem = writeMem s.mem a l := rfl

/-! ### Accessors after updates -/

@[simp] theorem State.cell_setCell_self (s : State) (n : Nat) (c : Cell) : (s.setCell n c).cell n = c := by
  simp [State.cell, State.setCell]
theorem State.cell_setCell_of_ne (s : State) {m n : Nat} (c : Cell) (h : m ≠ n) : (s.setCell n c).cell m = s.cell m := by
  simp [State.cell, State.setCell, Map.get_put_of_ne _ _ _ h]
theorem State.cell_setCell (s : State) (m n : Nat) (c : Cell) :
    (s.setCell n c).cell m = if m = n then c else s.cell m := by
  split
  · next h => subst h; simp
  · next h => exact s.cell_setCell_of_ne c h
@[simp] theorem State.setCell_setCell (s : State) (n : Nat) (c d : Cell) : (s.setCell n c).setCell n d = s.setCell n d := by
  simp [State.setCell]
@[simp] theorem State.setPart_setPart (s : State) (p : Nat) (v w : Part) : (s.setPart p v).setPart p w = s.setPart p w := by
  simp [State.setPart]
@[simp] theorem State.setFunc_setFunc (s : State) (n : Nat) (v w : Func) : (s.setFunc n v).setFunc n w = s.setFunc n w := by
  simp [State.setFunc]
@[simp] theorem State.setWorld_setWorld (s : State) (n : Nat) (v w : World) : (s.setWorld n v).setWorld n w = s.setWorld n w := by
  simp [State.setWorld]
@[simp] theorem State.cur_setCell_focus (s : State) (c : Cell) : (s.setCell s.focus.cell c).cur = c := by
  simp [State.cur]
@[simp] theorem State.part_setPart_self (s : State) (p : Nat) (v : Part) : (s.setPart p v).part p = v := by
  simp [State.part, State.setPart]
theorem State.part_setPart_of_ne (s : State) {p r : Nat} (v : Part) (h : r ≠ p) : (s.setPart p v).part r = s.part r := by
  simp [State.part, State.setPart, Map.get_put_of_ne _ _ _ h]
@[simp] theorem State.func_setFunc_self (s : State) (n : Nat) (v : Func) : (s.setFunc n v).func n = v := by
  simp [State.func, State.setFunc]
theorem State.func_setFunc_of_ne (s : State) {m n : Nat} (v : Func) (h : m ≠ n) : (s.setFunc n v).func m = s.func m := by
  simp [State.func, State.setFunc, Map.get_put_of_ne _ _ _ h]
@[simp] theorem State.queue_setQueue_self (s : State) (f q : Nat) (v : Queue) : (s.setQueue f q v).queue f q = v := by
  simp [State.queue, State.setQueue_eq, Func.queue]
theorem State.queue_setQueue_of_ne (s : State) {f q g r : Nat} (v : Queue) (h : ¬ (g = f ∧ r = q)) :
    (s.setQueue f q v).queue g r = s.queue g r := by
  by_cases hg : g = f
  · subst hg
    have hr : r ≠ q := fun hr => h ⟨rfl, hr⟩
    simp [State.queue, State.setQueue_eq, Func.queue, Map.get_put_of_ne _ _ _ hr]
  · simp [State.queue, State.setQueue_eq, State.func_setFunc_of_ne _ _ hg]
@[simp] theorem State.world?_setWorld_self (s : State) (w : Nat) (v : World) : (s.setWorld w v).world? w = some v := by
  simp [State.world?, State.setWorld]
theorem State.world?_setWorld_of_ne (s : State) {w x : Nat} (v : World) (h : x ≠ w) :
    (s.setWorld w v).world? x = s.world? x := by
  simp [State.world?, State.setWorld, Map.get?_put_of_ne _ _ h]

@[simp] theorem State.part_setCell (s : State) (n : Nat) (c : Cell) (m : Nat) : (s.setCell n c).part m = s.part m := rfl
@[simp] theorem State.func_setCell (s : State) (n : Nat) (c : Cell) (m : Nat) : (s.setCell n c).func m = s.func m := rfl
@[simp] theorem State.queue_setCell (s : State) (n : Nat) (c : Cell) (m k : Nat) : (s.setCell n c).queue m k = s.queue m k := rfl
@[simp] theorem State.world?_setCell (s : State) (n : Nat) (c : Cell) (m : Nat) : (s.setCell n c).world? m = s.world? m := rfl
@[simp] theorem State.cell_setPart (s : State) (p : Nat) (v : Part) (m : Nat) : (s.setPart p v).cell m = s.cell m := rfl
@[simp] theorem State.func_setPart (s : State) (p : Nat) (v : Part) (m : Nat) : (s.setPart p v).func m = s.func m := rfl
@[simp] theorem State.queue_setPart (s : State) (p : Nat) (v : Part) (m k : Nat) : (s.setPart p v).queue m k = s.queue m k := rfl
@[simp] theorem State.world?_setPart (s : State) (p : Nat) (v : Part) (m : Nat) : (s.setPart p v).world? m = s.world? m := rfl
@[simp] theorem State.cur_setPart (s : State) (p : Nat) (v : Part) : (s.setPart p v).cur = s.cur := rfl
@[simp] theorem State.cell_setFunc (s : State) (n : Nat) (v : Func) (m : Nat) : (s.setFunc n v).cell m = s.cell m := rfl
@[simp] theorem State.part_setFunc (s : State) (n : Nat) (v : Func) (m : Nat) : (s.setFunc n v).part m = s.part m := rfl
@[simp] theorem State.world?_setFunc (s : State) (n : Nat) (v : Func) (m : Nat) : (s.setFunc n v).world? m = s.world? m := rfl
@[simp] theorem State.cur_setFunc (s : State) (n : Nat) (v : Func) : (s.setFunc n v).cur = s.cur := rfl
@[simp] theorem State.cell_setQueue (s : State) (f q : Nat) (v : Queue) (m : Nat) : (s.setQueue f q v).cell m = s.cell m := rfl
@[simp] theorem State.part_setQueue (s : State) (f q : Nat) (v : Queue) (m : Nat) : (s.setQueue f q v).part m = s.part m := rfl
@[simp] theorem State.world?_setQueue (s : State) (f q : Nat) (v : Queue) (m : Nat) : (s.setQueue f q v).world? m = s.world? m := rfl
@[simp] theorem State.cur_setQueue (s : State) (f q : Nat) (v : Queue) : (s.setQueue f q v).cur = s.cur := rfl
@[simp] theorem State.cell_setWorld (s : State) (w : Nat) (v : World) (m : Nat) : (s.setWorld w v).cell m = s.cell m := rfl
@[simp] theorem State.part_setWorld (s : State) (w : Nat) (v : World) (m : Nat) : (s.setWorld w v).part m = s.part m := rfl
@[simp] theorem State.func_setWorld (s : State) (w : Nat) (v : World) (m : Nat) : (s.setWorld w v).func m = s.func m := rfl
@[simp] theorem State.queue_setWorld (s : State) (w : Nat) (v : World) (m k : Nat) : (s.setWorld w v).queue m k = s.queue m k := rfl
@[simp] theorem State.cur_setWorld (s : State) (w : Nat) (v : World) : (s.setWorld w v).cur = s.cur := rfl
@[simp] theorem State.cell_onLodge (s : State) (f : Lodge → Lodge) (m : Nat) : (s.onLodge f).cell m = s.cell m := rfl
@[simp] theorem State.part_onLodge (s : State) (f : Lodge → Lodge) (m : Nat) : (s.onLodge f).part m = s.part m := rfl
@[simp] theorem State.func_onLodge (s : State) (f : Lodge → Lodge) (m : Nat) : (s.onLodge f).func m = s.func m := rfl
@[simp] theorem State.queue_onLodge (s : State) (f : Lodge → Lodge) (m k : Nat) : (s.onLodge f).queue m k = s.queue m k := rfl
@[simp] theorem State.world?_onLodge (s : State) (f : Lodge → Lodge) (m : Nat) : (s.onLodge f).world? m = s.world? m := rfl
@[simp] theorem State.cur_onLodge (s : State) (f : Lodge → Lodge) : (s.onLodge f).cur = s.cur := rfl
@[simp] theorem State.cell_onPod (s : State) (f : Pod → Pod) (m : Nat) : (s.onPod f).cell m = s.cell m := rfl
@[simp] theorem State.part_onPod (s : State) (f : Pod → Pod) (m : Nat) : (s.onPod f).part m = s.part m := rfl
@[simp] theorem State.func_onPod (s : State) (f : Pod → Pod) (m : Nat) : (s.onPod f).func m = s.func m := rfl
@[simp] theorem State.queue_onPod (s : State) (f : Pod → Pod) (m k : Nat) : (s.onPod f).queue m k = s.queue m k := rfl
@[simp] theorem State.world?_onPod (s : State) (f : Pod → Pod) (m : Nat) : (s.onPod f).world? m = s.world? m := rfl
@[simp] theorem State.cur_onPod (s : State) (f : Pod → Pod) : (s.onPod f).cur = s.cur := rfl
@[simp] theorem State.cell_emit (s : State) (o : Out) (m : Nat) : (s.emit o).cell m = s.cell m := rfl
@[simp] theorem State.part_emit (s : State) (o : Out) (m : Nat) : (s.emit o).part m = s.part m := rfl
@[simp] theorem State.func_emit (s : State) (o : Out) (m : Nat) : (s.emit o).func m = s.func m := rfl
@[simp] theorem State.queue_emit (s : State) (o : Out) (m k : Nat) : (s.emit o).queue m k = s.queue m k := rfl
@[simp] theorem State.world?_emit (s : State) (o : Out) (m : Nat) : (s.emit o).world? m = s.world? m := rfl
@[simp] theorem State.cur_emit (s : State) (o : Out) : (s.emit o).cur = s.cur := rfl
@[simp] theorem State.cell_store (s : State) (a : Nat) (l : List Byte) (m : Nat) : (s.store a l).cell m = s.cell m := rfl
@[simp] theorem State.part_store (s : State) (a : Nat) (l : List Byte) (m : Nat) : (s.store a l).part m = s.part m := rfl
@[simp] theorem State.func_store (s : State) (a : Nat) (l : List Byte) (m : Nat) : (s.store a l).func m = s.func m := rfl
@[simp] theorem State.queue_store (s : State) (a : Nat) (l : List Byte) (m k : Nat) : (s.store a l).queue m k = s.queue m k := rfl
@[simp] theorem State.world?_store (s : State) (a : Nat) (l : List Byte) (m : Nat) : (s.store a l).world? m = s.world? m := rfl
@[simp] theorem State.cur_store (s : State) (a : Nat) (l : List Byte) : (s.store a l).cur = s.cur := rfl

/-! ### A cell's updates -/

@[simp] theorem Cell.withSeq_run (c : Cell) (f : Seq → Seq) : (c.withSeq f).run = c.run := rfl
@[simp] theorem Cell.withSeq_ident (c : Cell) (f : Seq → Seq) : (c.withSeq f).ident = c.ident := rfl
@[simp] theorem Cell.withSeq_code (c : Cell) (f : Seq → Seq) : (c.withSeq f).code = c.code := rfl
@[simp] theorem Cell.withSeq_bound (c : Cell) (f : Seq → Seq) : (c.withSeq f).bound = c.bound := rfl
@[simp] theorem Cell.withSeq_cache (c : Cell) (f : Seq → Seq) : (c.withSeq f).cache = c.cache := rfl
@[simp] theorem Cell.withSeq_phase (c : Cell) (f : Seq → Seq) : (c.withSeq f).phase = c.phase := rfl
@[simp] theorem Cell.withSeq_errDone (c : Cell) (f : Seq → Seq) : (c.withSeq f).errDone = c.errDone := rfl
@[simp] theorem Cell.withSeq_fabric (c : Cell) (f : Seq → Seq) : (c.withSeq f).fabric = c.fabric := rfl
@[simp] theorem Cell.withSeq_lvs (c : Cell) (f : Seq → Seq) : (c.withSeq f).lvs = c.lvs := rfl
@[simp] theorem Cell.withSeq_written (c : Cell) (f : Seq → Seq) : (c.withSeq f).written = c.written := rfl
@[simp] theorem Cell.withSeq_scratch (c : Cell) (f : Seq → Seq) : (c.withSeq f).scratch = c.scratch := rfl
@[simp] theorem Cell.withSeq_tiles (c : Cell) (f : Seq → Seq) : (c.withSeq f).tiles = c.tiles := rfl
@[simp] theorem Cell.withSeq_tileWritten (c : Cell) (f : Seq → Seq) : (c.withSeq f).tileWritten = c.tileWritten := rfl
@[simp] theorem Cell.withSeq_fifos (c : Cell) (f : Seq → Seq) : (c.withSeq f).fifos = c.fifos := rfl
@[simp] theorem Cell.withSeq_arb (c : Cell) (f : Seq → Seq) : (c.withSeq f).arb = c.arb := rfl
@[simp] theorem Cell.withSeq_streams (c : Cell) (f : Seq → Seq) : (c.withSeq f).streams = c.streams := rfl
@[simp] theorem Cell.withSeq_nextSerial (c : Cell) (f : Seq → Seq) : (c.withSeq f).nextSerial = c.nextSerial := rfl
@[simp] theorem Cell.withSeq_served (c : Cell) (f : Seq → Seq) : (c.withSeq f).served = c.served := rfl
@[simp] theorem Cell.withSeq_lastScopes (c : Cell) (f : Seq → Seq) : (c.withSeq f).lastScopes = c.lastScopes := rfl
@[simp] theorem Cell.withSeq_barriers (c : Cell) (f : Seq → Seq) : (c.withSeq f).barriers = c.barriers := rfl
@[simp] theorem Cell.withSeq_lines (c : Cell) (f : Seq → Seq) : (c.withSeq f).lines = c.lines := rfl
@[simp] theorem Cell.withSeq_counters (c : Cell) (f : Seq → Seq) : (c.withSeq f).counters = c.counters := rfl
@[simp] theorem Cell.withSeq_timer (c : Cell) (f : Seq → Seq) : (c.withSeq f).timer = c.timer := rfl
@[simp] theorem Cell.withSeq_gates (c : Cell) (f : Seq → Seq) : (c.withSeq f).gates = c.gates := rfl
@[simp] theorem Cell.withSeq_gateScan (c : Cell) (f : Seq → Seq) : (c.withSeq f).gateScan = c.gateScan := rfl
@[simp] theorem Cell.withSeq_kvm (c : Cell) (f : Seq → Seq) : (c.withSeq f).kvm = c.kvm := rfl
@[simp] theorem Cell.withSeq_coll (c : Cell) (f : Seq → Seq) : (c.withSeq f).coll = c.coll := rfl
@[simp] theorem Cell.withSeq_collStatus (c : Cell) (f : Seq → Seq) : (c.withSeq f).collStatus = c.collStatus := rfl
@[simp] theorem Cell.withSeq_bank (c : Cell) (f : Seq → Seq) : (c.withSeq f).bank = c.bank := rfl
@[simp] theorem Cell.withSeq_pins (c : Cell) (f : Seq → Seq) : (c.withSeq f).pins = c.pins := rfl
@[simp] theorem Cell.withSeq_l1 (c : Cell) (f : Seq → Seq) : (c.withSeq f).l1 = c.l1 := rfl
@[simp] theorem Cell.withSeq_remote (c : Cell) (f : Seq → Seq) : (c.withSeq f).remote = c.remote := rfl
@[simp] theorem Cell.withSeq_classFrom (c : Cell) (f : Seq → Seq) : (c.withSeq f).classFrom = c.classFrom := rfl
@[simp] theorem Cell.withSeq_bps (c : Cell) (f : Seq → Seq) : (c.withSeq f).bps = c.bps := rfl
@[simp] theorem Cell.withPhase_run (c : Cell) (f : Phase → Phase) : (c.withPhase f).run = c.run := rfl
@[simp] theorem Cell.withPhase_ident (c : Cell) (f : Phase → Phase) : (c.withPhase f).ident = c.ident := rfl
@[simp] theorem Cell.withPhase_code (c : Cell) (f : Phase → Phase) : (c.withPhase f).code = c.code := rfl
@[simp] theorem Cell.withPhase_seq (c : Cell) (f : Phase → Phase) : (c.withPhase f).seq = c.seq := rfl
@[simp] theorem Cell.withPhase_bound (c : Cell) (f : Phase → Phase) : (c.withPhase f).bound = c.bound := rfl
@[simp] theorem Cell.withPhase_cache (c : Cell) (f : Phase → Phase) : (c.withPhase f).cache = c.cache := rfl
@[simp] theorem Cell.withPhase_errDone (c : Cell) (f : Phase → Phase) : (c.withPhase f).errDone = c.errDone := rfl
@[simp] theorem Cell.withPhase_fabric (c : Cell) (f : Phase → Phase) : (c.withPhase f).fabric = c.fabric := rfl
@[simp] theorem Cell.withPhase_lvs (c : Cell) (f : Phase → Phase) : (c.withPhase f).lvs = c.lvs := rfl
@[simp] theorem Cell.withPhase_written (c : Cell) (f : Phase → Phase) : (c.withPhase f).written = c.written := rfl
@[simp] theorem Cell.withPhase_scratch (c : Cell) (f : Phase → Phase) : (c.withPhase f).scratch = c.scratch := rfl
@[simp] theorem Cell.withPhase_tiles (c : Cell) (f : Phase → Phase) : (c.withPhase f).tiles = c.tiles := rfl
@[simp] theorem Cell.withPhase_tileWritten (c : Cell) (f : Phase → Phase) : (c.withPhase f).tileWritten = c.tileWritten := rfl
@[simp] theorem Cell.withPhase_fifos (c : Cell) (f : Phase → Phase) : (c.withPhase f).fifos = c.fifos := rfl
@[simp] theorem Cell.withPhase_arb (c : Cell) (f : Phase → Phase) : (c.withPhase f).arb = c.arb := rfl
@[simp] theorem Cell.withPhase_streams (c : Cell) (f : Phase → Phase) : (c.withPhase f).streams = c.streams := rfl
@[simp] theorem Cell.withPhase_nextSerial (c : Cell) (f : Phase → Phase) : (c.withPhase f).nextSerial = c.nextSerial := rfl
@[simp] theorem Cell.withPhase_served (c : Cell) (f : Phase → Phase) : (c.withPhase f).served = c.served := rfl
@[simp] theorem Cell.withPhase_lastScopes (c : Cell) (f : Phase → Phase) : (c.withPhase f).lastScopes = c.lastScopes := rfl
@[simp] theorem Cell.withPhase_barriers (c : Cell) (f : Phase → Phase) : (c.withPhase f).barriers = c.barriers := rfl
@[simp] theorem Cell.withPhase_lines (c : Cell) (f : Phase → Phase) : (c.withPhase f).lines = c.lines := rfl
@[simp] theorem Cell.withPhase_counters (c : Cell) (f : Phase → Phase) : (c.withPhase f).counters = c.counters := rfl
@[simp] theorem Cell.withPhase_timer (c : Cell) (f : Phase → Phase) : (c.withPhase f).timer = c.timer := rfl
@[simp] theorem Cell.withPhase_gates (c : Cell) (f : Phase → Phase) : (c.withPhase f).gates = c.gates := rfl
@[simp] theorem Cell.withPhase_gateScan (c : Cell) (f : Phase → Phase) : (c.withPhase f).gateScan = c.gateScan := rfl
@[simp] theorem Cell.withPhase_kvm (c : Cell) (f : Phase → Phase) : (c.withPhase f).kvm = c.kvm := rfl
@[simp] theorem Cell.withPhase_coll (c : Cell) (f : Phase → Phase) : (c.withPhase f).coll = c.coll := rfl
@[simp] theorem Cell.withPhase_collStatus (c : Cell) (f : Phase → Phase) : (c.withPhase f).collStatus = c.collStatus := rfl
@[simp] theorem Cell.withPhase_bank (c : Cell) (f : Phase → Phase) : (c.withPhase f).bank = c.bank := rfl
@[simp] theorem Cell.withPhase_pins (c : Cell) (f : Phase → Phase) : (c.withPhase f).pins = c.pins := rfl
@[simp] theorem Cell.withPhase_l1 (c : Cell) (f : Phase → Phase) : (c.withPhase f).l1 = c.l1 := rfl
@[simp] theorem Cell.withPhase_remote (c : Cell) (f : Phase → Phase) : (c.withPhase f).remote = c.remote := rfl
@[simp] theorem Cell.withPhase_classFrom (c : Cell) (f : Phase → Phase) : (c.withPhase f).classFrom = c.classFrom := rfl
@[simp] theorem Cell.withPhase_bps (c : Cell) (f : Phase → Phase) : (c.withPhase f).bps = c.bps := rfl
@[simp] theorem Cell.withFabric_run (c : Cell) (f : Fabric → Fabric) : (c.withFabric f).run = c.run := rfl
@[simp] theorem Cell.withFabric_ident (c : Cell) (f : Fabric → Fabric) : (c.withFabric f).ident = c.ident := rfl
@[simp] theorem Cell.withFabric_code (c : Cell) (f : Fabric → Fabric) : (c.withFabric f).code = c.code := rfl
@[simp] theorem Cell.withFabric_seq (c : Cell) (f : Fabric → Fabric) : (c.withFabric f).seq = c.seq := rfl
@[simp] theorem Cell.withFabric_bound (c : Cell) (f : Fabric → Fabric) : (c.withFabric f).bound = c.bound := rfl
@[simp] theorem Cell.withFabric_cache (c : Cell) (f : Fabric → Fabric) : (c.withFabric f).cache = c.cache := rfl
@[simp] theorem Cell.withFabric_phase (c : Cell) (f : Fabric → Fabric) : (c.withFabric f).phase = c.phase := rfl
@[simp] theorem Cell.withFabric_errDone (c : Cell) (f : Fabric → Fabric) : (c.withFabric f).errDone = c.errDone := rfl
@[simp] theorem Cell.withFabric_lvs (c : Cell) (f : Fabric → Fabric) : (c.withFabric f).lvs = c.lvs := rfl
@[simp] theorem Cell.withFabric_written (c : Cell) (f : Fabric → Fabric) : (c.withFabric f).written = c.written := rfl
@[simp] theorem Cell.withFabric_scratch (c : Cell) (f : Fabric → Fabric) : (c.withFabric f).scratch = c.scratch := rfl
@[simp] theorem Cell.withFabric_tiles (c : Cell) (f : Fabric → Fabric) : (c.withFabric f).tiles = c.tiles := rfl
@[simp] theorem Cell.withFabric_tileWritten (c : Cell) (f : Fabric → Fabric) : (c.withFabric f).tileWritten = c.tileWritten := rfl
@[simp] theorem Cell.withFabric_fifos (c : Cell) (f : Fabric → Fabric) : (c.withFabric f).fifos = c.fifos := rfl
@[simp] theorem Cell.withFabric_arb (c : Cell) (f : Fabric → Fabric) : (c.withFabric f).arb = c.arb := rfl
@[simp] theorem Cell.withFabric_streams (c : Cell) (f : Fabric → Fabric) : (c.withFabric f).streams = c.streams := rfl
@[simp] theorem Cell.withFabric_nextSerial (c : Cell) (f : Fabric → Fabric) : (c.withFabric f).nextSerial = c.nextSerial := rfl
@[simp] theorem Cell.withFabric_served (c : Cell) (f : Fabric → Fabric) : (c.withFabric f).served = c.served := rfl
@[simp] theorem Cell.withFabric_lastScopes (c : Cell) (f : Fabric → Fabric) : (c.withFabric f).lastScopes = c.lastScopes := rfl
@[simp] theorem Cell.withFabric_barriers (c : Cell) (f : Fabric → Fabric) : (c.withFabric f).barriers = c.barriers := rfl
@[simp] theorem Cell.withFabric_lines (c : Cell) (f : Fabric → Fabric) : (c.withFabric f).lines = c.lines := rfl
@[simp] theorem Cell.withFabric_counters (c : Cell) (f : Fabric → Fabric) : (c.withFabric f).counters = c.counters := rfl
@[simp] theorem Cell.withFabric_timer (c : Cell) (f : Fabric → Fabric) : (c.withFabric f).timer = c.timer := rfl
@[simp] theorem Cell.withFabric_gates (c : Cell) (f : Fabric → Fabric) : (c.withFabric f).gates = c.gates := rfl
@[simp] theorem Cell.withFabric_gateScan (c : Cell) (f : Fabric → Fabric) : (c.withFabric f).gateScan = c.gateScan := rfl
@[simp] theorem Cell.withFabric_kvm (c : Cell) (f : Fabric → Fabric) : (c.withFabric f).kvm = c.kvm := rfl
@[simp] theorem Cell.withFabric_coll (c : Cell) (f : Fabric → Fabric) : (c.withFabric f).coll = c.coll := rfl
@[simp] theorem Cell.withFabric_collStatus (c : Cell) (f : Fabric → Fabric) : (c.withFabric f).collStatus = c.collStatus := rfl
@[simp] theorem Cell.withFabric_bank (c : Cell) (f : Fabric → Fabric) : (c.withFabric f).bank = c.bank := rfl
@[simp] theorem Cell.withFabric_pins (c : Cell) (f : Fabric → Fabric) : (c.withFabric f).pins = c.pins := rfl
@[simp] theorem Cell.withFabric_l1 (c : Cell) (f : Fabric → Fabric) : (c.withFabric f).l1 = c.l1 := rfl
@[simp] theorem Cell.withFabric_remote (c : Cell) (f : Fabric → Fabric) : (c.withFabric f).remote = c.remote := rfl
@[simp] theorem Cell.withFabric_classFrom (c : Cell) (f : Fabric → Fabric) : (c.withFabric f).classFrom = c.classFrom := rfl
@[simp] theorem Cell.withFabric_bps (c : Cell) (f : Fabric → Fabric) : (c.withFabric f).bps = c.bps := rfl
@[simp] theorem Cell.advance_run (c : Cell) (k : Nat) : (c.advance k).run = c.run := rfl
@[simp] theorem Cell.advance_ident (c : Cell) (k : Nat) : (c.advance k).ident = c.ident := rfl
@[simp] theorem Cell.advance_code (c : Cell) (k : Nat) : (c.advance k).code = c.code := rfl
@[simp] theorem Cell.advance_bound (c : Cell) (k : Nat) : (c.advance k).bound = c.bound := rfl
@[simp] theorem Cell.advance_cache (c : Cell) (k : Nat) : (c.advance k).cache = c.cache := rfl
@[simp] theorem Cell.advance_phase (c : Cell) (k : Nat) : (c.advance k).phase = c.phase := rfl
@[simp] theorem Cell.advance_errDone (c : Cell) (k : Nat) : (c.advance k).errDone = c.errDone := rfl
@[simp] theorem Cell.advance_fabric (c : Cell) (k : Nat) : (c.advance k).fabric = c.fabric := rfl
@[simp] theorem Cell.advance_lvs (c : Cell) (k : Nat) : (c.advance k).lvs = c.lvs := rfl
@[simp] theorem Cell.advance_written (c : Cell) (k : Nat) : (c.advance k).written = c.written := rfl
@[simp] theorem Cell.advance_scratch (c : Cell) (k : Nat) : (c.advance k).scratch = c.scratch := rfl
@[simp] theorem Cell.advance_tiles (c : Cell) (k : Nat) : (c.advance k).tiles = c.tiles := rfl
@[simp] theorem Cell.advance_tileWritten (c : Cell) (k : Nat) : (c.advance k).tileWritten = c.tileWritten := rfl
@[simp] theorem Cell.advance_fifos (c : Cell) (k : Nat) : (c.advance k).fifos = c.fifos := rfl
@[simp] theorem Cell.advance_arb (c : Cell) (k : Nat) : (c.advance k).arb = c.arb := rfl
@[simp] theorem Cell.advance_streams (c : Cell) (k : Nat) : (c.advance k).streams = c.streams := rfl
@[simp] theorem Cell.advance_nextSerial (c : Cell) (k : Nat) : (c.advance k).nextSerial = c.nextSerial := rfl
@[simp] theorem Cell.advance_served (c : Cell) (k : Nat) : (c.advance k).served = c.served := rfl
@[simp] theorem Cell.advance_lastScopes (c : Cell) (k : Nat) : (c.advance k).lastScopes = c.lastScopes := rfl
@[simp] theorem Cell.advance_barriers (c : Cell) (k : Nat) : (c.advance k).barriers = c.barriers := rfl
@[simp] theorem Cell.advance_lines (c : Cell) (k : Nat) : (c.advance k).lines = c.lines := rfl
@[simp] theorem Cell.advance_counters (c : Cell) (k : Nat) : (c.advance k).counters = c.counters := rfl
@[simp] theorem Cell.advance_timer (c : Cell) (k : Nat) : (c.advance k).timer = c.timer := rfl
@[simp] theorem Cell.advance_gates (c : Cell) (k : Nat) : (c.advance k).gates = c.gates := rfl
@[simp] theorem Cell.advance_gateScan (c : Cell) (k : Nat) : (c.advance k).gateScan = c.gateScan := rfl
@[simp] theorem Cell.advance_kvm (c : Cell) (k : Nat) : (c.advance k).kvm = c.kvm := rfl
@[simp] theorem Cell.advance_coll (c : Cell) (k : Nat) : (c.advance k).coll = c.coll := rfl
@[simp] theorem Cell.advance_collStatus (c : Cell) (k : Nat) : (c.advance k).collStatus = c.collStatus := rfl
@[simp] theorem Cell.advance_bank (c : Cell) (k : Nat) : (c.advance k).bank = c.bank := rfl
@[simp] theorem Cell.advance_pins (c : Cell) (k : Nat) : (c.advance k).pins = c.pins := rfl
@[simp] theorem Cell.advance_l1 (c : Cell) (k : Nat) : (c.advance k).l1 = c.l1 := rfl
@[simp] theorem Cell.advance_remote (c : Cell) (k : Nat) : (c.advance k).remote = c.remote := rfl
@[simp] theorem Cell.advance_classFrom (c : Cell) (k : Nat) : (c.advance k).classFrom = c.classFrom := rfl
@[simp] theorem Cell.advance_bps (c : Cell) (k : Nat) : (c.advance k).bps = c.bps := rfl
@[simp] theorem Cell.retire_run (c : Cell) (du : Bool) : (c.retire du).run = c.run := rfl
@[simp] theorem Cell.retire_ident (c : Cell) (du : Bool) : (c.retire du).ident = c.ident := rfl
@[simp] theorem Cell.retire_code (c : Cell) (du : Bool) : (c.retire du).code = c.code := rfl
@[simp] theorem Cell.retire_bound (c : Cell) (du : Bool) : (c.retire du).bound = c.bound := rfl
@[simp] theorem Cell.retire_cache (c : Cell) (du : Bool) : (c.retire du).cache = c.cache := rfl
@[simp] theorem Cell.retire_phase (c : Cell) (du : Bool) : (c.retire du).phase = c.phase := rfl
@[simp] theorem Cell.retire_errDone (c : Cell) (du : Bool) : (c.retire du).errDone = c.errDone := rfl
@[simp] theorem Cell.retire_fabric (c : Cell) (du : Bool) : (c.retire du).fabric = c.fabric := rfl
@[simp] theorem Cell.retire_lvs (c : Cell) (du : Bool) : (c.retire du).lvs = c.lvs := rfl
@[simp] theorem Cell.retire_written (c : Cell) (du : Bool) : (c.retire du).written = c.written := rfl
@[simp] theorem Cell.retire_scratch (c : Cell) (du : Bool) : (c.retire du).scratch = c.scratch := rfl
@[simp] theorem Cell.retire_tiles (c : Cell) (du : Bool) : (c.retire du).tiles = c.tiles := rfl
@[simp] theorem Cell.retire_tileWritten (c : Cell) (du : Bool) : (c.retire du).tileWritten = c.tileWritten := rfl
@[simp] theorem Cell.retire_fifos (c : Cell) (du : Bool) : (c.retire du).fifos = c.fifos := rfl
@[simp] theorem Cell.retire_arb (c : Cell) (du : Bool) : (c.retire du).arb = c.arb := rfl
@[simp] theorem Cell.retire_streams (c : Cell) (du : Bool) : (c.retire du).streams = c.streams := rfl
@[simp] theorem Cell.retire_nextSerial (c : Cell) (du : Bool) : (c.retire du).nextSerial = c.nextSerial := rfl
@[simp] theorem Cell.retire_served (c : Cell) (du : Bool) : (c.retire du).served = c.served := rfl
@[simp] theorem Cell.retire_lastScopes (c : Cell) (du : Bool) : (c.retire du).lastScopes = c.lastScopes := rfl
@[simp] theorem Cell.retire_barriers (c : Cell) (du : Bool) : (c.retire du).barriers = c.barriers := rfl
@[simp] theorem Cell.retire_lines (c : Cell) (du : Bool) : (c.retire du).lines = c.lines := rfl
@[simp] theorem Cell.retire_counters (c : Cell) (du : Bool) : (c.retire du).counters = c.counters := rfl
@[simp] theorem Cell.retire_timer (c : Cell) (du : Bool) : (c.retire du).timer = c.timer := rfl
@[simp] theorem Cell.retire_gates (c : Cell) (du : Bool) : (c.retire du).gates = c.gates := rfl
@[simp] theorem Cell.retire_gateScan (c : Cell) (du : Bool) : (c.retire du).gateScan = c.gateScan := rfl
@[simp] theorem Cell.retire_kvm (c : Cell) (du : Bool) : (c.retire du).kvm = c.kvm := rfl
@[simp] theorem Cell.retire_coll (c : Cell) (du : Bool) : (c.retire du).coll = c.coll := rfl
@[simp] theorem Cell.retire_collStatus (c : Cell) (du : Bool) : (c.retire du).collStatus = c.collStatus := rfl
@[simp] theorem Cell.retire_bank (c : Cell) (du : Bool) : (c.retire du).bank = c.bank := rfl
@[simp] theorem Cell.retire_pins (c : Cell) (du : Bool) : (c.retire du).pins = c.pins := rfl
@[simp] theorem Cell.retire_l1 (c : Cell) (du : Bool) : (c.retire du).l1 = c.l1 := rfl
@[simp] theorem Cell.retire_remote (c : Cell) (du : Bool) : (c.retire du).remote = c.remote := rfl
@[simp] theorem Cell.retire_classFrom (c : Cell) (du : Bool) : (c.retire du).classFrom = c.classFrom := rfl
@[simp] theorem Cell.retire_bps (c : Cell) (du : Bool) : (c.retire du).bps = c.bps := rfl
@[simp] theorem Cell.withSeq_seq (c : Cell) (f : Seq → Seq) : (c.withSeq f).seq = f c.seq := rfl
@[simp] theorem Cell.withPhase_phase (c : Cell) (f : Phase → Phase) : (c.withPhase f).phase = f c.phase := rfl
@[simp] theorem Cell.withFabric_fabric (c : Cell) (f : Fabric → Fabric) : (c.withFabric f).fabric = f c.fabric := rfl
@[simp] theorem Cell.advance_seq (c : Cell) (k : Nat) :
    (c.advance k).seq = { c.seq with pc := c.seq.pc + BitVec.ofNat 64 k } := rfl
@[simp] theorem Cell.retire_seq (c : Cell) (du : Bool) :
    (c.retire du).seq = { c.seq with pc := c.seq.pc + BitVec.ofNat 64 (instrBytes du) } := rfl
@[simp] theorem Cell.retire_reg (c : Cell) (du : Bool) (r : Reg) : (c.retire du).reg r = c.reg r := rfl
@[simp] theorem Cell.retire_shadow (c : Cell) (du : Bool) (r : Reg) (k : Nat) : (c.retire du).shadow r k = c.shadow r k := rfl

/-! ### Register writes (R302, R325) -/

/-- A register write touches the bank of registers alone. -/
theorem Cell.putReg_frame (c : Cell) (r : Reg) (v : Word) :
    c.putReg r v = { c with seq := { c.seq with regs := (c.putReg r v).seq.regs } } := by
  unfold Cell.putReg; split <;> rfl

/-- A shadow write touches the shadow bank alone. -/
theorem Cell.setShadow_frame (c : Cell) (r : Reg) (k : Nat) (v : Word) :
    c.setShadow r k v = { c with seq := { c.seq with shadows := (c.setShadow r k v).seq.shadows } } := by
  unfold Cell.setShadow; split <;> rfl

theorem Cell.setShadows_frame (c : Cell) (r : Reg) (k : Nat) (l : List Word) :
    c.setShadows r k l = { c with seq := { c.seq with shadows := (c.setShadows r k l).seq.shadows } } := by
  induction l generalizing c k with
  | nil => rfl
  | cons v vs ih =>
    simp only [Cell.setShadows]
    rw [ih, Cell.setShadow_frame c r k v]

/-- A write of an instruction, plain or dual, touches the two banks alone. -/
theorem Cell.setRegDual_frame (c : Cell) (r : Reg) (v : Word) (ts : List Word) :
    c.setRegDual r v ts = { c with seq := { c.seq with
      regs := (c.setRegDual r v ts).seq.regs, shadows := (c.setRegDual r v ts).seq.shadows } } := by
  simp only [Cell.setRegDual]
  rw [Cell.setShadows_frame, Cell.putReg_frame]

theorem Cell.setReg_eq_dual (c : Cell) (r : Reg) (v : Word) : c.setReg r v = c.setRegDual r v [0, 0, 0, 0] := rfl

theorem Cell.setReg_frame (c : Cell) (r : Reg) (v : Word) :
    c.setReg r v = { c with seq := { c.seq with
      regs := (c.setReg r v).seq.regs, shadows := (c.setReg r v).seq.shadows } } := Cell.setRegDual_frame c r v _

@[simp] theorem Cell.putReg_run (c : Cell) (r : Reg) (v : Word) : (c.putReg r v).run = c.run := by rw [Cell.putReg_frame]
@[simp] theorem Cell.putReg_ident (c : Cell) (r : Reg) (v : Word) : (c.putReg r v).ident = c.ident := by rw [Cell.putReg_frame]
@[simp] theorem Cell.putReg_code (c : Cell) (r : Reg) (v : Word) : (c.putReg r v).code = c.code := by rw [Cell.putReg_frame]
@[simp] theorem Cell.putReg_bound (c : Cell) (r : Reg) (v : Word) : (c.putReg r v).bound = c.bound := by rw [Cell.putReg_frame]
@[simp] theorem Cell.putReg_cache (c : Cell) (r : Reg) (v : Word) : (c.putReg r v).cache = c.cache := by rw [Cell.putReg_frame]
@[simp] theorem Cell.putReg_phase (c : Cell) (r : Reg) (v : Word) : (c.putReg r v).phase = c.phase := by rw [Cell.putReg_frame]
@[simp] theorem Cell.putReg_errDone (c : Cell) (r : Reg) (v : Word) : (c.putReg r v).errDone = c.errDone := by rw [Cell.putReg_frame]
@[simp] theorem Cell.putReg_fabric (c : Cell) (r : Reg) (v : Word) : (c.putReg r v).fabric = c.fabric := by rw [Cell.putReg_frame]
@[simp] theorem Cell.putReg_lvs (c : Cell) (r : Reg) (v : Word) : (c.putReg r v).lvs = c.lvs := by rw [Cell.putReg_frame]
@[simp] theorem Cell.putReg_written (c : Cell) (r : Reg) (v : Word) : (c.putReg r v).written = c.written := by rw [Cell.putReg_frame]
@[simp] theorem Cell.putReg_scratch (c : Cell) (r : Reg) (v : Word) : (c.putReg r v).scratch = c.scratch := by rw [Cell.putReg_frame]
@[simp] theorem Cell.putReg_tiles (c : Cell) (r : Reg) (v : Word) : (c.putReg r v).tiles = c.tiles := by rw [Cell.putReg_frame]
@[simp] theorem Cell.putReg_tileWritten (c : Cell) (r : Reg) (v : Word) : (c.putReg r v).tileWritten = c.tileWritten := by rw [Cell.putReg_frame]
@[simp] theorem Cell.putReg_fifos (c : Cell) (r : Reg) (v : Word) : (c.putReg r v).fifos = c.fifos := by rw [Cell.putReg_frame]
@[simp] theorem Cell.putReg_arb (c : Cell) (r : Reg) (v : Word) : (c.putReg r v).arb = c.arb := by rw [Cell.putReg_frame]
@[simp] theorem Cell.putReg_streams (c : Cell) (r : Reg) (v : Word) : (c.putReg r v).streams = c.streams := by rw [Cell.putReg_frame]
@[simp] theorem Cell.putReg_nextSerial (c : Cell) (r : Reg) (v : Word) : (c.putReg r v).nextSerial = c.nextSerial := by rw [Cell.putReg_frame]
@[simp] theorem Cell.putReg_served (c : Cell) (r : Reg) (v : Word) : (c.putReg r v).served = c.served := by rw [Cell.putReg_frame]
@[simp] theorem Cell.putReg_lastScopes (c : Cell) (r : Reg) (v : Word) : (c.putReg r v).lastScopes = c.lastScopes := by rw [Cell.putReg_frame]
@[simp] theorem Cell.putReg_barriers (c : Cell) (r : Reg) (v : Word) : (c.putReg r v).barriers = c.barriers := by rw [Cell.putReg_frame]
@[simp] theorem Cell.putReg_lines (c : Cell) (r : Reg) (v : Word) : (c.putReg r v).lines = c.lines := by rw [Cell.putReg_frame]
@[simp] theorem Cell.putReg_counters (c : Cell) (r : Reg) (v : Word) : (c.putReg r v).counters = c.counters := by rw [Cell.putReg_frame]
@[simp] theorem Cell.putReg_timer (c : Cell) (r : Reg) (v : Word) : (c.putReg r v).timer = c.timer := by rw [Cell.putReg_frame]
@[simp] theorem Cell.putReg_gates (c : Cell) (r : Reg) (v : Word) : (c.putReg r v).gates = c.gates := by rw [Cell.putReg_frame]
@[simp] theorem Cell.putReg_gateScan (c : Cell) (r : Reg) (v : Word) : (c.putReg r v).gateScan = c.gateScan := by rw [Cell.putReg_frame]
@[simp] theorem Cell.putReg_kvm (c : Cell) (r : Reg) (v : Word) : (c.putReg r v).kvm = c.kvm := by rw [Cell.putReg_frame]
@[simp] theorem Cell.putReg_coll (c : Cell) (r : Reg) (v : Word) : (c.putReg r v).coll = c.coll := by rw [Cell.putReg_frame]
@[simp] theorem Cell.putReg_collStatus (c : Cell) (r : Reg) (v : Word) : (c.putReg r v).collStatus = c.collStatus := by rw [Cell.putReg_frame]
@[simp] theorem Cell.putReg_bank (c : Cell) (r : Reg) (v : Word) : (c.putReg r v).bank = c.bank := by rw [Cell.putReg_frame]
@[simp] theorem Cell.putReg_pins (c : Cell) (r : Reg) (v : Word) : (c.putReg r v).pins = c.pins := by rw [Cell.putReg_frame]
@[simp] theorem Cell.putReg_l1 (c : Cell) (r : Reg) (v : Word) : (c.putReg r v).l1 = c.l1 := by rw [Cell.putReg_frame]
@[simp] theorem Cell.putReg_remote (c : Cell) (r : Reg) (v : Word) : (c.putReg r v).remote = c.remote := by rw [Cell.putReg_frame]
@[simp] theorem Cell.putReg_classFrom (c : Cell) (r : Reg) (v : Word) : (c.putReg r v).classFrom = c.classFrom := by rw [Cell.putReg_frame]
@[simp] theorem Cell.putReg_bps (c : Cell) (r : Reg) (v : Word) : (c.putReg r v).bps = c.bps := by rw [Cell.putReg_frame]
@[simp] theorem Cell.putReg_seq_pc (c : Cell) (r : Reg) (v : Word) : (c.putReg r v).seq.pc = c.seq.pc := by rw [Cell.putReg_frame]
@[simp] theorem Cell.putReg_seq_handlerActive (c : Cell) (r : Reg) (v : Word) : (c.putReg r v).seq.handlerActive = c.seq.handlerActive := by rw [Cell.putReg_frame]
@[simp] theorem Cell.putReg_seq_reports (c : Cell) (r : Reg) (v : Word) : (c.putReg r v).seq.reports = c.seq.reports := by rw [Cell.putReg_frame]
@[simp] theorem Cell.putReg_seq_kvec (c : Cell) (r : Reg) (v : Word) : (c.putReg r v).seq.kvec = c.seq.kvec := by rw [Cell.putReg_frame]
@[simp] theorem Cell.putReg_seq_kfpc (c : Cell) (r : Reg) (v : Word) : (c.putReg r v).seq.kfpc = c.seq.kfpc := by rw [Cell.putReg_frame]
@[simp] theorem Cell.putReg_seq_kfcause (c : Cell) (r : Reg) (v : Word) : (c.putReg r v).seq.kfcause = c.seq.kfcause := by rw [Cell.putReg_frame]
@[simp] theorem Cell.putReg_seq_kfaddr (c : Cell) (r : Reg) (v : Word) : (c.putReg r v).seq.kfaddr = c.seq.kfaddr := by rw [Cell.putReg_frame]
@[simp] theorem Cell.putReg_seq_kfinfo (c : Cell) (r : Reg) (v : Word) : (c.putReg r v).seq.kfinfo = c.seq.kfinfo := by rw [Cell.putReg_frame]
@[simp] theorem Cell.putReg_seq_kdesc (c : Cell) (r : Reg) (v : Word) : (c.putReg r v).seq.kdesc = c.seq.kdesc := by rw [Cell.putReg_frame]
@[simp] theorem Cell.putReg_seq_kdbase (c : Cell) (r : Reg) (v : Word) : (c.putReg r v).seq.kdbase = c.seq.kdbase := by rw [Cell.putReg_frame]
@[simp] theorem Cell.putReg_seq_ktstride (c : Cell) (r : Reg) (v : Word) : (c.putReg r v).seq.ktstride = c.seq.ktstride := by rw [Cell.putReg_frame]
@[simp] theorem Cell.putReg_seq_kcycle (c : Cell) (r : Reg) (v : Word) : (c.putReg r v).seq.kcycle = c.seq.kcycle := by rw [Cell.putReg_frame]
@[simp] theorem Cell.putReg_seq_yielded (c : Cell) (r : Reg) (v : Word) : (c.putReg r v).seq.yielded = c.seq.yielded := by rw [Cell.putReg_frame]
@[simp] theorem Cell.putReg_seq_wb (c : Cell) (r : Reg) (v : Word) : (c.putReg r v).seq.wb = c.seq.wb := by rw [Cell.putReg_frame]
@[simp] theorem Cell.putReg_seq_deferral (c : Cell) (r : Reg) (v : Word) : (c.putReg r v).seq.deferral = c.seq.deferral := by rw [Cell.putReg_frame]
@[simp] theorem Cell.putReg_seq_denied (c : Cell) (r : Reg) (v : Word) : (c.putReg r v).seq.denied = c.seq.denied := by rw [Cell.putReg_frame]
@[simp] theorem Cell.setShadows_run (c : Cell) (r : Reg) (k : Nat) (l : List Word) : (c.setShadows r k l).run = c.run := by rw [Cell.setShadows_frame]
@[simp] theorem Cell.setShadows_ident (c : Cell) (r : Reg) (k : Nat) (l : List Word) : (c.setShadows r k l).ident = c.ident := by rw [Cell.setShadows_frame]
@[simp] theorem Cell.setShadows_code (c : Cell) (r : Reg) (k : Nat) (l : List Word) : (c.setShadows r k l).code = c.code := by rw [Cell.setShadows_frame]
@[simp] theorem Cell.setShadows_bound (c : Cell) (r : Reg) (k : Nat) (l : List Word) : (c.setShadows r k l).bound = c.bound := by rw [Cell.setShadows_frame]
@[simp] theorem Cell.setShadows_cache (c : Cell) (r : Reg) (k : Nat) (l : List Word) : (c.setShadows r k l).cache = c.cache := by rw [Cell.setShadows_frame]
@[simp] theorem Cell.setShadows_phase (c : Cell) (r : Reg) (k : Nat) (l : List Word) : (c.setShadows r k l).phase = c.phase := by rw [Cell.setShadows_frame]
@[simp] theorem Cell.setShadows_errDone (c : Cell) (r : Reg) (k : Nat) (l : List Word) : (c.setShadows r k l).errDone = c.errDone := by rw [Cell.setShadows_frame]
@[simp] theorem Cell.setShadows_fabric (c : Cell) (r : Reg) (k : Nat) (l : List Word) : (c.setShadows r k l).fabric = c.fabric := by rw [Cell.setShadows_frame]
@[simp] theorem Cell.setShadows_lvs (c : Cell) (r : Reg) (k : Nat) (l : List Word) : (c.setShadows r k l).lvs = c.lvs := by rw [Cell.setShadows_frame]
@[simp] theorem Cell.setShadows_written (c : Cell) (r : Reg) (k : Nat) (l : List Word) : (c.setShadows r k l).written = c.written := by rw [Cell.setShadows_frame]
@[simp] theorem Cell.setShadows_scratch (c : Cell) (r : Reg) (k : Nat) (l : List Word) : (c.setShadows r k l).scratch = c.scratch := by rw [Cell.setShadows_frame]
@[simp] theorem Cell.setShadows_tiles (c : Cell) (r : Reg) (k : Nat) (l : List Word) : (c.setShadows r k l).tiles = c.tiles := by rw [Cell.setShadows_frame]
@[simp] theorem Cell.setShadows_tileWritten (c : Cell) (r : Reg) (k : Nat) (l : List Word) : (c.setShadows r k l).tileWritten = c.tileWritten := by rw [Cell.setShadows_frame]
@[simp] theorem Cell.setShadows_fifos (c : Cell) (r : Reg) (k : Nat) (l : List Word) : (c.setShadows r k l).fifos = c.fifos := by rw [Cell.setShadows_frame]
@[simp] theorem Cell.setShadows_arb (c : Cell) (r : Reg) (k : Nat) (l : List Word) : (c.setShadows r k l).arb = c.arb := by rw [Cell.setShadows_frame]
@[simp] theorem Cell.setShadows_streams (c : Cell) (r : Reg) (k : Nat) (l : List Word) : (c.setShadows r k l).streams = c.streams := by rw [Cell.setShadows_frame]
@[simp] theorem Cell.setShadows_nextSerial (c : Cell) (r : Reg) (k : Nat) (l : List Word) : (c.setShadows r k l).nextSerial = c.nextSerial := by rw [Cell.setShadows_frame]
@[simp] theorem Cell.setShadows_served (c : Cell) (r : Reg) (k : Nat) (l : List Word) : (c.setShadows r k l).served = c.served := by rw [Cell.setShadows_frame]
@[simp] theorem Cell.setShadows_lastScopes (c : Cell) (r : Reg) (k : Nat) (l : List Word) : (c.setShadows r k l).lastScopes = c.lastScopes := by rw [Cell.setShadows_frame]
@[simp] theorem Cell.setShadows_barriers (c : Cell) (r : Reg) (k : Nat) (l : List Word) : (c.setShadows r k l).barriers = c.barriers := by rw [Cell.setShadows_frame]
@[simp] theorem Cell.setShadows_lines (c : Cell) (r : Reg) (k : Nat) (l : List Word) : (c.setShadows r k l).lines = c.lines := by rw [Cell.setShadows_frame]
@[simp] theorem Cell.setShadows_counters (c : Cell) (r : Reg) (k : Nat) (l : List Word) : (c.setShadows r k l).counters = c.counters := by rw [Cell.setShadows_frame]
@[simp] theorem Cell.setShadows_timer (c : Cell) (r : Reg) (k : Nat) (l : List Word) : (c.setShadows r k l).timer = c.timer := by rw [Cell.setShadows_frame]
@[simp] theorem Cell.setShadows_gates (c : Cell) (r : Reg) (k : Nat) (l : List Word) : (c.setShadows r k l).gates = c.gates := by rw [Cell.setShadows_frame]
@[simp] theorem Cell.setShadows_gateScan (c : Cell) (r : Reg) (k : Nat) (l : List Word) : (c.setShadows r k l).gateScan = c.gateScan := by rw [Cell.setShadows_frame]
@[simp] theorem Cell.setShadows_kvm (c : Cell) (r : Reg) (k : Nat) (l : List Word) : (c.setShadows r k l).kvm = c.kvm := by rw [Cell.setShadows_frame]
@[simp] theorem Cell.setShadows_coll (c : Cell) (r : Reg) (k : Nat) (l : List Word) : (c.setShadows r k l).coll = c.coll := by rw [Cell.setShadows_frame]
@[simp] theorem Cell.setShadows_collStatus (c : Cell) (r : Reg) (k : Nat) (l : List Word) : (c.setShadows r k l).collStatus = c.collStatus := by rw [Cell.setShadows_frame]
@[simp] theorem Cell.setShadows_bank (c : Cell) (r : Reg) (k : Nat) (l : List Word) : (c.setShadows r k l).bank = c.bank := by rw [Cell.setShadows_frame]
@[simp] theorem Cell.setShadows_pins (c : Cell) (r : Reg) (k : Nat) (l : List Word) : (c.setShadows r k l).pins = c.pins := by rw [Cell.setShadows_frame]
@[simp] theorem Cell.setShadows_l1 (c : Cell) (r : Reg) (k : Nat) (l : List Word) : (c.setShadows r k l).l1 = c.l1 := by rw [Cell.setShadows_frame]
@[simp] theorem Cell.setShadows_remote (c : Cell) (r : Reg) (k : Nat) (l : List Word) : (c.setShadows r k l).remote = c.remote := by rw [Cell.setShadows_frame]
@[simp] theorem Cell.setShadows_classFrom (c : Cell) (r : Reg) (k : Nat) (l : List Word) : (c.setShadows r k l).classFrom = c.classFrom := by rw [Cell.setShadows_frame]
@[simp] theorem Cell.setShadows_bps (c : Cell) (r : Reg) (k : Nat) (l : List Word) : (c.setShadows r k l).bps = c.bps := by rw [Cell.setShadows_frame]
@[simp] theorem Cell.setShadows_seq_pc (c : Cell) (r : Reg) (k : Nat) (l : List Word) : (c.setShadows r k l).seq.pc = c.seq.pc := by rw [Cell.setShadows_frame]
@[simp] theorem Cell.setShadows_seq_handlerActive (c : Cell) (r : Reg) (k : Nat) (l : List Word) : (c.setShadows r k l).seq.handlerActive = c.seq.handlerActive := by rw [Cell.setShadows_frame]
@[simp] theorem Cell.setShadows_seq_reports (c : Cell) (r : Reg) (k : Nat) (l : List Word) : (c.setShadows r k l).seq.reports = c.seq.reports := by rw [Cell.setShadows_frame]
@[simp] theorem Cell.setShadows_seq_kvec (c : Cell) (r : Reg) (k : Nat) (l : List Word) : (c.setShadows r k l).seq.kvec = c.seq.kvec := by rw [Cell.setShadows_frame]
@[simp] theorem Cell.setShadows_seq_kfpc (c : Cell) (r : Reg) (k : Nat) (l : List Word) : (c.setShadows r k l).seq.kfpc = c.seq.kfpc := by rw [Cell.setShadows_frame]
@[simp] theorem Cell.setShadows_seq_kfcause (c : Cell) (r : Reg) (k : Nat) (l : List Word) : (c.setShadows r k l).seq.kfcause = c.seq.kfcause := by rw [Cell.setShadows_frame]
@[simp] theorem Cell.setShadows_seq_kfaddr (c : Cell) (r : Reg) (k : Nat) (l : List Word) : (c.setShadows r k l).seq.kfaddr = c.seq.kfaddr := by rw [Cell.setShadows_frame]
@[simp] theorem Cell.setShadows_seq_kfinfo (c : Cell) (r : Reg) (k : Nat) (l : List Word) : (c.setShadows r k l).seq.kfinfo = c.seq.kfinfo := by rw [Cell.setShadows_frame]
@[simp] theorem Cell.setShadows_seq_kdesc (c : Cell) (r : Reg) (k : Nat) (l : List Word) : (c.setShadows r k l).seq.kdesc = c.seq.kdesc := by rw [Cell.setShadows_frame]
@[simp] theorem Cell.setShadows_seq_kdbase (c : Cell) (r : Reg) (k : Nat) (l : List Word) : (c.setShadows r k l).seq.kdbase = c.seq.kdbase := by rw [Cell.setShadows_frame]
@[simp] theorem Cell.setShadows_seq_ktstride (c : Cell) (r : Reg) (k : Nat) (l : List Word) : (c.setShadows r k l).seq.ktstride = c.seq.ktstride := by rw [Cell.setShadows_frame]
@[simp] theorem Cell.setShadows_seq_kcycle (c : Cell) (r : Reg) (k : Nat) (l : List Word) : (c.setShadows r k l).seq.kcycle = c.seq.kcycle := by rw [Cell.setShadows_frame]
@[simp] theorem Cell.setShadows_seq_yielded (c : Cell) (r : Reg) (k : Nat) (l : List Word) : (c.setShadows r k l).seq.yielded = c.seq.yielded := by rw [Cell.setShadows_frame]
@[simp] theorem Cell.setShadows_seq_wb (c : Cell) (r : Reg) (k : Nat) (l : List Word) : (c.setShadows r k l).seq.wb = c.seq.wb := by rw [Cell.setShadows_frame]
@[simp] theorem Cell.setShadows_seq_deferral (c : Cell) (r : Reg) (k : Nat) (l : List Word) : (c.setShadows r k l).seq.deferral = c.seq.deferral := by rw [Cell.setShadows_frame]
@[simp] theorem Cell.setShadows_seq_denied (c : Cell) (r : Reg) (k : Nat) (l : List Word) : (c.setShadows r k l).seq.denied = c.seq.denied := by rw [Cell.setShadows_frame]
@[simp] theorem Cell.setReg_run (c : Cell) (r : Reg) (v : Word) : (c.setReg r v).run = c.run := by rw [Cell.setReg_frame]
@[simp] theorem Cell.setReg_ident (c : Cell) (r : Reg) (v : Word) : (c.setReg r v).ident = c.ident := by rw [Cell.setReg_frame]
@[simp] theorem Cell.setReg_code (c : Cell) (r : Reg) (v : Word) : (c.setReg r v).code = c.code := by rw [Cell.setReg_frame]
@[simp] theorem Cell.setReg_bound (c : Cell) (r : Reg) (v : Word) : (c.setReg r v).bound = c.bound := by rw [Cell.setReg_frame]
@[simp] theorem Cell.setReg_cache (c : Cell) (r : Reg) (v : Word) : (c.setReg r v).cache = c.cache := by rw [Cell.setReg_frame]
@[simp] theorem Cell.setReg_phase (c : Cell) (r : Reg) (v : Word) : (c.setReg r v).phase = c.phase := by rw [Cell.setReg_frame]
@[simp] theorem Cell.setReg_errDone (c : Cell) (r : Reg) (v : Word) : (c.setReg r v).errDone = c.errDone := by rw [Cell.setReg_frame]
@[simp] theorem Cell.setReg_fabric (c : Cell) (r : Reg) (v : Word) : (c.setReg r v).fabric = c.fabric := by rw [Cell.setReg_frame]
@[simp] theorem Cell.setReg_lvs (c : Cell) (r : Reg) (v : Word) : (c.setReg r v).lvs = c.lvs := by rw [Cell.setReg_frame]
@[simp] theorem Cell.setReg_written (c : Cell) (r : Reg) (v : Word) : (c.setReg r v).written = c.written := by rw [Cell.setReg_frame]
@[simp] theorem Cell.setReg_scratch (c : Cell) (r : Reg) (v : Word) : (c.setReg r v).scratch = c.scratch := by rw [Cell.setReg_frame]
@[simp] theorem Cell.setReg_tiles (c : Cell) (r : Reg) (v : Word) : (c.setReg r v).tiles = c.tiles := by rw [Cell.setReg_frame]
@[simp] theorem Cell.setReg_tileWritten (c : Cell) (r : Reg) (v : Word) : (c.setReg r v).tileWritten = c.tileWritten := by rw [Cell.setReg_frame]
@[simp] theorem Cell.setReg_fifos (c : Cell) (r : Reg) (v : Word) : (c.setReg r v).fifos = c.fifos := by rw [Cell.setReg_frame]
@[simp] theorem Cell.setReg_arb (c : Cell) (r : Reg) (v : Word) : (c.setReg r v).arb = c.arb := by rw [Cell.setReg_frame]
@[simp] theorem Cell.setReg_streams (c : Cell) (r : Reg) (v : Word) : (c.setReg r v).streams = c.streams := by rw [Cell.setReg_frame]
@[simp] theorem Cell.setReg_nextSerial (c : Cell) (r : Reg) (v : Word) : (c.setReg r v).nextSerial = c.nextSerial := by rw [Cell.setReg_frame]
@[simp] theorem Cell.setReg_served (c : Cell) (r : Reg) (v : Word) : (c.setReg r v).served = c.served := by rw [Cell.setReg_frame]
@[simp] theorem Cell.setReg_lastScopes (c : Cell) (r : Reg) (v : Word) : (c.setReg r v).lastScopes = c.lastScopes := by rw [Cell.setReg_frame]
@[simp] theorem Cell.setReg_barriers (c : Cell) (r : Reg) (v : Word) : (c.setReg r v).barriers = c.barriers := by rw [Cell.setReg_frame]
@[simp] theorem Cell.setReg_lines (c : Cell) (r : Reg) (v : Word) : (c.setReg r v).lines = c.lines := by rw [Cell.setReg_frame]
@[simp] theorem Cell.setReg_counters (c : Cell) (r : Reg) (v : Word) : (c.setReg r v).counters = c.counters := by rw [Cell.setReg_frame]
@[simp] theorem Cell.setReg_timer (c : Cell) (r : Reg) (v : Word) : (c.setReg r v).timer = c.timer := by rw [Cell.setReg_frame]
@[simp] theorem Cell.setReg_gates (c : Cell) (r : Reg) (v : Word) : (c.setReg r v).gates = c.gates := by rw [Cell.setReg_frame]
@[simp] theorem Cell.setReg_gateScan (c : Cell) (r : Reg) (v : Word) : (c.setReg r v).gateScan = c.gateScan := by rw [Cell.setReg_frame]
@[simp] theorem Cell.setReg_kvm (c : Cell) (r : Reg) (v : Word) : (c.setReg r v).kvm = c.kvm := by rw [Cell.setReg_frame]
@[simp] theorem Cell.setReg_coll (c : Cell) (r : Reg) (v : Word) : (c.setReg r v).coll = c.coll := by rw [Cell.setReg_frame]
@[simp] theorem Cell.setReg_collStatus (c : Cell) (r : Reg) (v : Word) : (c.setReg r v).collStatus = c.collStatus := by rw [Cell.setReg_frame]
@[simp] theorem Cell.setReg_bank (c : Cell) (r : Reg) (v : Word) : (c.setReg r v).bank = c.bank := by rw [Cell.setReg_frame]
@[simp] theorem Cell.setReg_pins (c : Cell) (r : Reg) (v : Word) : (c.setReg r v).pins = c.pins := by rw [Cell.setReg_frame]
@[simp] theorem Cell.setReg_l1 (c : Cell) (r : Reg) (v : Word) : (c.setReg r v).l1 = c.l1 := by rw [Cell.setReg_frame]
@[simp] theorem Cell.setReg_remote (c : Cell) (r : Reg) (v : Word) : (c.setReg r v).remote = c.remote := by rw [Cell.setReg_frame]
@[simp] theorem Cell.setReg_classFrom (c : Cell) (r : Reg) (v : Word) : (c.setReg r v).classFrom = c.classFrom := by rw [Cell.setReg_frame]
@[simp] theorem Cell.setReg_bps (c : Cell) (r : Reg) (v : Word) : (c.setReg r v).bps = c.bps := by rw [Cell.setReg_frame]
@[simp] theorem Cell.setReg_seq_pc (c : Cell) (r : Reg) (v : Word) : (c.setReg r v).seq.pc = c.seq.pc := by rw [Cell.setReg_frame]
@[simp] theorem Cell.setReg_seq_handlerActive (c : Cell) (r : Reg) (v : Word) : (c.setReg r v).seq.handlerActive = c.seq.handlerActive := by rw [Cell.setReg_frame]
@[simp] theorem Cell.setReg_seq_reports (c : Cell) (r : Reg) (v : Word) : (c.setReg r v).seq.reports = c.seq.reports := by rw [Cell.setReg_frame]
@[simp] theorem Cell.setReg_seq_kvec (c : Cell) (r : Reg) (v : Word) : (c.setReg r v).seq.kvec = c.seq.kvec := by rw [Cell.setReg_frame]
@[simp] theorem Cell.setReg_seq_kfpc (c : Cell) (r : Reg) (v : Word) : (c.setReg r v).seq.kfpc = c.seq.kfpc := by rw [Cell.setReg_frame]
@[simp] theorem Cell.setReg_seq_kfcause (c : Cell) (r : Reg) (v : Word) : (c.setReg r v).seq.kfcause = c.seq.kfcause := by rw [Cell.setReg_frame]
@[simp] theorem Cell.setReg_seq_kfaddr (c : Cell) (r : Reg) (v : Word) : (c.setReg r v).seq.kfaddr = c.seq.kfaddr := by rw [Cell.setReg_frame]
@[simp] theorem Cell.setReg_seq_kfinfo (c : Cell) (r : Reg) (v : Word) : (c.setReg r v).seq.kfinfo = c.seq.kfinfo := by rw [Cell.setReg_frame]
@[simp] theorem Cell.setReg_seq_kdesc (c : Cell) (r : Reg) (v : Word) : (c.setReg r v).seq.kdesc = c.seq.kdesc := by rw [Cell.setReg_frame]
@[simp] theorem Cell.setReg_seq_kdbase (c : Cell) (r : Reg) (v : Word) : (c.setReg r v).seq.kdbase = c.seq.kdbase := by rw [Cell.setReg_frame]
@[simp] theorem Cell.setReg_seq_ktstride (c : Cell) (r : Reg) (v : Word) : (c.setReg r v).seq.ktstride = c.seq.ktstride := by rw [Cell.setReg_frame]
@[simp] theorem Cell.setReg_seq_kcycle (c : Cell) (r : Reg) (v : Word) : (c.setReg r v).seq.kcycle = c.seq.kcycle := by rw [Cell.setReg_frame]
@[simp] theorem Cell.setReg_seq_yielded (c : Cell) (r : Reg) (v : Word) : (c.setReg r v).seq.yielded = c.seq.yielded := by rw [Cell.setReg_frame]
@[simp] theorem Cell.setReg_seq_wb (c : Cell) (r : Reg) (v : Word) : (c.setReg r v).seq.wb = c.seq.wb := by rw [Cell.setReg_frame]
@[simp] theorem Cell.setReg_seq_deferral (c : Cell) (r : Reg) (v : Word) : (c.setReg r v).seq.deferral = c.seq.deferral := by rw [Cell.setReg_frame]
@[simp] theorem Cell.setReg_seq_denied (c : Cell) (r : Reg) (v : Word) : (c.setReg r v).seq.denied = c.seq.denied := by rw [Cell.setReg_frame]
@[simp] theorem Cell.setRegDual_run (c : Cell) (r : Reg) (v : Word) (l : List Word) : (c.setRegDual r v l).run = c.run := by rw [Cell.setRegDual_frame]
@[simp] theorem Cell.setRegDual_ident (c : Cell) (r : Reg) (v : Word) (l : List Word) : (c.setRegDual r v l).ident = c.ident := by rw [Cell.setRegDual_frame]
@[simp] theorem Cell.setRegDual_code (c : Cell) (r : Reg) (v : Word) (l : List Word) : (c.setRegDual r v l).code = c.code := by rw [Cell.setRegDual_frame]
@[simp] theorem Cell.setRegDual_bound (c : Cell) (r : Reg) (v : Word) (l : List Word) : (c.setRegDual r v l).bound = c.bound := by rw [Cell.setRegDual_frame]
@[simp] theorem Cell.setRegDual_cache (c : Cell) (r : Reg) (v : Word) (l : List Word) : (c.setRegDual r v l).cache = c.cache := by rw [Cell.setRegDual_frame]
@[simp] theorem Cell.setRegDual_phase (c : Cell) (r : Reg) (v : Word) (l : List Word) : (c.setRegDual r v l).phase = c.phase := by rw [Cell.setRegDual_frame]
@[simp] theorem Cell.setRegDual_errDone (c : Cell) (r : Reg) (v : Word) (l : List Word) : (c.setRegDual r v l).errDone = c.errDone := by rw [Cell.setRegDual_frame]
@[simp] theorem Cell.setRegDual_fabric (c : Cell) (r : Reg) (v : Word) (l : List Word) : (c.setRegDual r v l).fabric = c.fabric := by rw [Cell.setRegDual_frame]
@[simp] theorem Cell.setRegDual_lvs (c : Cell) (r : Reg) (v : Word) (l : List Word) : (c.setRegDual r v l).lvs = c.lvs := by rw [Cell.setRegDual_frame]
@[simp] theorem Cell.setRegDual_written (c : Cell) (r : Reg) (v : Word) (l : List Word) : (c.setRegDual r v l).written = c.written := by rw [Cell.setRegDual_frame]
@[simp] theorem Cell.setRegDual_scratch (c : Cell) (r : Reg) (v : Word) (l : List Word) : (c.setRegDual r v l).scratch = c.scratch := by rw [Cell.setRegDual_frame]
@[simp] theorem Cell.setRegDual_tiles (c : Cell) (r : Reg) (v : Word) (l : List Word) : (c.setRegDual r v l).tiles = c.tiles := by rw [Cell.setRegDual_frame]
@[simp] theorem Cell.setRegDual_tileWritten (c : Cell) (r : Reg) (v : Word) (l : List Word) : (c.setRegDual r v l).tileWritten = c.tileWritten := by rw [Cell.setRegDual_frame]
@[simp] theorem Cell.setRegDual_fifos (c : Cell) (r : Reg) (v : Word) (l : List Word) : (c.setRegDual r v l).fifos = c.fifos := by rw [Cell.setRegDual_frame]
@[simp] theorem Cell.setRegDual_arb (c : Cell) (r : Reg) (v : Word) (l : List Word) : (c.setRegDual r v l).arb = c.arb := by rw [Cell.setRegDual_frame]
@[simp] theorem Cell.setRegDual_streams (c : Cell) (r : Reg) (v : Word) (l : List Word) : (c.setRegDual r v l).streams = c.streams := by rw [Cell.setRegDual_frame]
@[simp] theorem Cell.setRegDual_nextSerial (c : Cell) (r : Reg) (v : Word) (l : List Word) : (c.setRegDual r v l).nextSerial = c.nextSerial := by rw [Cell.setRegDual_frame]
@[simp] theorem Cell.setRegDual_served (c : Cell) (r : Reg) (v : Word) (l : List Word) : (c.setRegDual r v l).served = c.served := by rw [Cell.setRegDual_frame]
@[simp] theorem Cell.setRegDual_lastScopes (c : Cell) (r : Reg) (v : Word) (l : List Word) : (c.setRegDual r v l).lastScopes = c.lastScopes := by rw [Cell.setRegDual_frame]
@[simp] theorem Cell.setRegDual_barriers (c : Cell) (r : Reg) (v : Word) (l : List Word) : (c.setRegDual r v l).barriers = c.barriers := by rw [Cell.setRegDual_frame]
@[simp] theorem Cell.setRegDual_lines (c : Cell) (r : Reg) (v : Word) (l : List Word) : (c.setRegDual r v l).lines = c.lines := by rw [Cell.setRegDual_frame]
@[simp] theorem Cell.setRegDual_counters (c : Cell) (r : Reg) (v : Word) (l : List Word) : (c.setRegDual r v l).counters = c.counters := by rw [Cell.setRegDual_frame]
@[simp] theorem Cell.setRegDual_timer (c : Cell) (r : Reg) (v : Word) (l : List Word) : (c.setRegDual r v l).timer = c.timer := by rw [Cell.setRegDual_frame]
@[simp] theorem Cell.setRegDual_gates (c : Cell) (r : Reg) (v : Word) (l : List Word) : (c.setRegDual r v l).gates = c.gates := by rw [Cell.setRegDual_frame]
@[simp] theorem Cell.setRegDual_gateScan (c : Cell) (r : Reg) (v : Word) (l : List Word) : (c.setRegDual r v l).gateScan = c.gateScan := by rw [Cell.setRegDual_frame]
@[simp] theorem Cell.setRegDual_kvm (c : Cell) (r : Reg) (v : Word) (l : List Word) : (c.setRegDual r v l).kvm = c.kvm := by rw [Cell.setRegDual_frame]
@[simp] theorem Cell.setRegDual_coll (c : Cell) (r : Reg) (v : Word) (l : List Word) : (c.setRegDual r v l).coll = c.coll := by rw [Cell.setRegDual_frame]
@[simp] theorem Cell.setRegDual_collStatus (c : Cell) (r : Reg) (v : Word) (l : List Word) : (c.setRegDual r v l).collStatus = c.collStatus := by rw [Cell.setRegDual_frame]
@[simp] theorem Cell.setRegDual_bank (c : Cell) (r : Reg) (v : Word) (l : List Word) : (c.setRegDual r v l).bank = c.bank := by rw [Cell.setRegDual_frame]
@[simp] theorem Cell.setRegDual_pins (c : Cell) (r : Reg) (v : Word) (l : List Word) : (c.setRegDual r v l).pins = c.pins := by rw [Cell.setRegDual_frame]
@[simp] theorem Cell.setRegDual_l1 (c : Cell) (r : Reg) (v : Word) (l : List Word) : (c.setRegDual r v l).l1 = c.l1 := by rw [Cell.setRegDual_frame]
@[simp] theorem Cell.setRegDual_remote (c : Cell) (r : Reg) (v : Word) (l : List Word) : (c.setRegDual r v l).remote = c.remote := by rw [Cell.setRegDual_frame]
@[simp] theorem Cell.setRegDual_classFrom (c : Cell) (r : Reg) (v : Word) (l : List Word) : (c.setRegDual r v l).classFrom = c.classFrom := by rw [Cell.setRegDual_frame]
@[simp] theorem Cell.setRegDual_bps (c : Cell) (r : Reg) (v : Word) (l : List Word) : (c.setRegDual r v l).bps = c.bps := by rw [Cell.setRegDual_frame]
@[simp] theorem Cell.setRegDual_seq_pc (c : Cell) (r : Reg) (v : Word) (l : List Word) : (c.setRegDual r v l).seq.pc = c.seq.pc := by rw [Cell.setRegDual_frame]
@[simp] theorem Cell.setRegDual_seq_handlerActive (c : Cell) (r : Reg) (v : Word) (l : List Word) : (c.setRegDual r v l).seq.handlerActive = c.seq.handlerActive := by rw [Cell.setRegDual_frame]
@[simp] theorem Cell.setRegDual_seq_reports (c : Cell) (r : Reg) (v : Word) (l : List Word) : (c.setRegDual r v l).seq.reports = c.seq.reports := by rw [Cell.setRegDual_frame]
@[simp] theorem Cell.setRegDual_seq_kvec (c : Cell) (r : Reg) (v : Word) (l : List Word) : (c.setRegDual r v l).seq.kvec = c.seq.kvec := by rw [Cell.setRegDual_frame]
@[simp] theorem Cell.setRegDual_seq_kfpc (c : Cell) (r : Reg) (v : Word) (l : List Word) : (c.setRegDual r v l).seq.kfpc = c.seq.kfpc := by rw [Cell.setRegDual_frame]
@[simp] theorem Cell.setRegDual_seq_kfcause (c : Cell) (r : Reg) (v : Word) (l : List Word) : (c.setRegDual r v l).seq.kfcause = c.seq.kfcause := by rw [Cell.setRegDual_frame]
@[simp] theorem Cell.setRegDual_seq_kfaddr (c : Cell) (r : Reg) (v : Word) (l : List Word) : (c.setRegDual r v l).seq.kfaddr = c.seq.kfaddr := by rw [Cell.setRegDual_frame]
@[simp] theorem Cell.setRegDual_seq_kfinfo (c : Cell) (r : Reg) (v : Word) (l : List Word) : (c.setRegDual r v l).seq.kfinfo = c.seq.kfinfo := by rw [Cell.setRegDual_frame]
@[simp] theorem Cell.setRegDual_seq_kdesc (c : Cell) (r : Reg) (v : Word) (l : List Word) : (c.setRegDual r v l).seq.kdesc = c.seq.kdesc := by rw [Cell.setRegDual_frame]
@[simp] theorem Cell.setRegDual_seq_kdbase (c : Cell) (r : Reg) (v : Word) (l : List Word) : (c.setRegDual r v l).seq.kdbase = c.seq.kdbase := by rw [Cell.setRegDual_frame]
@[simp] theorem Cell.setRegDual_seq_ktstride (c : Cell) (r : Reg) (v : Word) (l : List Word) : (c.setRegDual r v l).seq.ktstride = c.seq.ktstride := by rw [Cell.setRegDual_frame]
@[simp] theorem Cell.setRegDual_seq_kcycle (c : Cell) (r : Reg) (v : Word) (l : List Word) : (c.setRegDual r v l).seq.kcycle = c.seq.kcycle := by rw [Cell.setRegDual_frame]
@[simp] theorem Cell.setRegDual_seq_yielded (c : Cell) (r : Reg) (v : Word) (l : List Word) : (c.setRegDual r v l).seq.yielded = c.seq.yielded := by rw [Cell.setRegDual_frame]
@[simp] theorem Cell.setRegDual_seq_wb (c : Cell) (r : Reg) (v : Word) (l : List Word) : (c.setRegDual r v l).seq.wb = c.seq.wb := by rw [Cell.setRegDual_frame]
@[simp] theorem Cell.setRegDual_seq_deferral (c : Cell) (r : Reg) (v : Word) (l : List Word) : (c.setRegDual r v l).seq.deferral = c.seq.deferral := by rw [Cell.setRegDual_frame]
@[simp] theorem Cell.setRegDual_seq_denied (c : Cell) (r : Reg) (v : Word) (l : List Word) : (c.setRegDual r v l).seq.denied = c.seq.denied := by rw [Cell.setRegDual_frame]

/-! ### Registers after writes -/

@[simp] theorem Cell.reg_zero (c : Cell) : c.reg 0 = 0 := rfl
@[simp] theorem Cell.shadow_zero (c : Cell) (k : Nat) : c.shadow 0 k = 0 := rfl

theorem Cell.reg_putReg (c : Cell) (d r : Reg) (v : Word) :
    (c.putReg d v).reg r = if r = d ∧ r ≠ 0 then v else c.reg r := by
  by_cases hd : d = 0
  · have h : ¬ (r = d ∧ r ≠ 0) := fun e => e.2 (e.1.trans hd)
    rw [if_neg h, Cell.putReg, if_pos hd]
  · by_cases h : r = d
    · subst h
      rw [if_pos ⟨rfl, hd⟩, Cell.putReg, if_neg hd, Cell.reg, if_neg hd]
      exact Vector.getElem_set_self _
    · have this : d.toNat ≠ r.toNat := fun e => h (BitVec.eq_of_toNat_eq e.symm)
      rw [if_neg fun e => h e.1, Cell.putReg, if_neg hd, Cell.reg, Cell.reg]
      congr 1
      exact Vector.getElem_set_ne d.isLt r.isLt this

theorem Cell.setShadow_reg (c : Cell) (d : Reg) (k : Nat) (v : Word) (r : Reg) : (c.setShadow d k v).reg r = c.reg r := by
  rw [Cell.setShadow_frame]; rfl
@[simp] theorem Cell.setShadows_reg (c : Cell) (d : Reg) (k : Nat) (l : List Word) (r : Reg) :
    (c.setShadows d k l).reg r = c.reg r := by
  rw [Cell.setShadows_frame]; rfl
@[simp] theorem Cell.putReg_shadow (c : Cell) (d : Reg) (v : Word) (r : Reg) (k : Nat) :
    (c.putReg d v).shadow r k = c.shadow r k := by
  rw [Cell.putReg_frame]; rfl

/-- What every register reads after a write: the written one its value, `s0` zero, the others as before. -/
theorem Cell.reg_setRegDual (c : Cell) (d r : Reg) (v : Word) (ts : List Word) :
    (c.setRegDual d v ts).reg r = if r = d ∧ r ≠ 0 then v else c.reg r := by
  simp [Cell.setRegDual, Cell.reg_putReg]
theorem Cell.reg_setReg (c : Cell) (d r : Reg) (v : Word) :
    (c.setReg d v).reg r = if r = d ∧ r ≠ 0 then v else c.reg r := Cell.reg_setRegDual c d r v _

/-- A shadow after a write of one shadow. -/
theorem Cell.shadow_setShadow (c : Cell) (d r : Reg) (j k : Nat) (v : Word) (hj : 1 ≤ j ∧ j ≤ 4) (hk : 1 ≤ k ∧ k ≤ 4) :
    (c.setShadow d k v).shadow r j = if r = d ∧ r ≠ 0 ∧ j = k then v else c.shadow r j := by
  by_cases hd : d = 0
  · have h : ¬ (r = d ∧ r ≠ 0 ∧ j = k) := fun e => e.2.1 (e.1.trans hd)
    rw [if_neg h, Cell.setShadow, if_pos hd]
  · have h1 := d.isLt
    have h2 := r.isLt
    rw [Cell.setShadow, if_neg hd]
    by_cases h : r = d ∧ j = k
    · obtain ⟨rfl, rfl⟩ := h
      have hb : 4 * r.toNat + (j - 1) < 128 := by omega
      rw [if_pos ⟨rfl, hd, rfl⟩, Cell.shadow, if_neg hd]
      simp only [Vector.getD]
      simp [hb]
    · have h' : ¬ (r = d ∧ r ≠ 0 ∧ j = k) := fun e => h ⟨e.1, e.2.2⟩
      have hne : 4 * d.toNat + (k - 1) ≠ 4 * r.toNat + (j - 1) := by
        intro e
        apply h
        have : d.toNat = r.toNat := by omega
        exact ⟨BitVec.eq_of_toNat_eq this.symm, by omega⟩
      rw [if_neg h', Cell.shadow, Cell.shadow]
      congr 1
      simp only [Vector.getD]
      simp [hne]

/-- The shadows after a write of the shadows k, k + 1, …. -/
theorem Cell.shadow_setShadows (c : Cell) (d r : Reg) (j k : Nat) (l : List Word) (hj : 1 ≤ j ∧ j ≤ 4) (hk : 1 ≤ k)
    (hl : k + l.length ≤ 5) :
    (c.setShadows d k l).shadow r j
      = if r = d ∧ r ≠ 0 ∧ k ≤ j ∧ j < k + l.length then l.getD (j - k) 0 else c.shadow r j := by
  induction l generalizing c k with
  | nil => rw [if_neg (by simp)]; rfl
  | cons v vs ih =>
    simp only [List.length_cons] at hl ⊢
    rw [Cell.setShadows, ih _ _ (by omega) (by omega), Cell.shadow_setShadow _ _ _ _ _ _ hj (by omega)]
    by_cases hr : r = d ∧ r ≠ 0
    · obtain ⟨h1, h2⟩ := hr
      by_cases hjk : j = k
      · subst hjk
        rw [if_neg (by omega), if_pos ⟨h1, h2, rfl⟩, if_pos ⟨h1, h2, by omega⟩]; simp
      · rw [if_neg (c := r = d ∧ r ≠ 0 ∧ j = k) fun e => hjk e.2.2]
        by_cases hin : k + 1 ≤ j ∧ j < k + 1 + vs.length
        · obtain ⟨n, hn⟩ : ∃ n, j - k = n + 1 := ⟨j - k - 1, by omega⟩
          have e : j - (k + 1) = n := by omega
          rw [if_pos ⟨h1, h2, hin⟩, if_pos ⟨h1, h2, by omega⟩, e, hn]; simp
        · rw [if_neg fun e => hin e.2.2, if_neg fun e => hin (by omega)]
    · rw [if_neg fun e => hr ⟨e.1, e.2.1⟩, if_neg fun e => hr ⟨e.1, e.2.1⟩, if_neg fun e => hr ⟨e.1, e.2.1⟩]

/-- The shadows after a write of an instruction without the prefix: zero for its destination (R325). -/
theorem Cell.shadow_setReg (c : Cell) (d r : Reg) (v : Word) (j : Nat) (hj : 1 ≤ j ∧ j ≤ 4) :
    (c.setReg d v).shadow r j = if r = d then 0 else c.shadow r j := by
  rw [Cell.setReg, Cell.shadow_setShadows _ _ _ _ _ _ hj (by omega) (by simp), Cell.putReg_shadow]
  by_cases hr : r = d
  · by_cases h0 : r = 0
    · rw [if_neg fun e => e.2.1 h0, if_pos hr, h0]; rfl
    · rw [if_pos ⟨hr, h0, by simp; omega⟩, if_pos hr]
      obtain ⟨h1, h2⟩ := hj
      have : j = 1 ∨ j = 2 ∨ j = 3 ∨ j = 4 := by omega
      rcases this with rfl | rfl | rfl | rfl <;> rfl
  · rw [if_neg fun e => hr e.1, if_neg hr]

/-- The shadows after a dual write (R325). -/
theorem Cell.shadow_setRegDual (c : Cell) (d r : Reg) (v : Word) (ts : List Word) (j : Nat) (hj : 1 ≤ j ∧ j ≤ 4)
    (hl : ts.length ≤ 4) :
    (c.setRegDual d v ts).shadow r j
      = if r = d ∧ r ≠ 0 ∧ j ≤ ts.length then ts.getD (j - 1) 0 else c.shadow r j := by
  rw [Cell.setRegDual, Cell.shadow_setShadows _ _ _ _ _ _ hj (by omega) (by omega), Cell.putReg_shadow]
  by_cases h : r = d ∧ r ≠ 0 ∧ j ≤ ts.length
  · rw [if_pos ⟨h.1, h.2.1, hj.1, by omega⟩, if_pos h]
  · rw [if_neg fun e => h ⟨e.1, e.2.1, by omega⟩, if_neg h]

end Sys2Proof.Machine
end

