-- ==== Sys2Proof/Laws/Memory.lean ====
section
/-! SUPPORT. Memory: reading after writing, the canonical form under every operation that writes it, addresses of host memory,
and what a touch of a resident line does. -/

namespace Sys2Proof.Machine

/-! ### Bytes -/

theorem readMem_writeMem (m : List Host.Cell) (a : Nat) (l : List Byte) (x : Nat) :
    readMem (writeMem m a l) x = if a ≤ x ∧ x < a + l.length then l.getD (x - a) 0 else readMem m x :=
  Map.get_setList 0 l m a x

theorem readMem_writeMem_of_not_mem (m : List Host.Cell) (a : Nat) (l : List Byte) (x : Nat) (h : x < a ∨ a + l.length ≤ x) :
    readMem (writeMem m a l) x = readMem m x := by
  rw [readMem_writeMem, if_neg (by omega)]

theorem readBytes_writeMem (m : List Host.Cell) (a : Nat) (l : List Byte) : readBytes (writeMem m a l) a l.length = l :=
  Map.getList_setList 0 m a l

@[simp] theorem length_readBytes (m : List Host.Cell) (a n : Nat) : (readBytes m a n).length = n := Map.length_getList 0 m a n

/-! ### The canonical form -/

@[simp] theorem Memory.wf_nil : Memory.wf [] = true := rfl

theorem Memory.wf_writeMem (m : List Host.Cell) (a : Nat) (l : List Byte) (h : Memory.wf m = true) : Memory.wf (writeMem m a l) = true :=
  Map.wf_setList 0 l m a h

theorem Memory.wf_filter (m : List Host.Cell) (p : Host.Cell → Bool) (h : Memory.wf m = true) : Memory.wf (m.filter p) = true :=
  Map.wf_filter 0 m p h

/-- Scattered writes of single bytes. -/
theorem Memory.wf_scatter (l : List (Nat × Byte)) (m : List Host.Cell) (h : Memory.wf m = true) :
    Memory.wf (l.foldl (fun m e => writeMem m e.1 [e.2]) m) = true := by
  induction l generalizing m with
  | nil => exact h
  | cons e r ih => exact ih _ (Memory.wf_writeMem m e.1 [e.2] h)

/-- Equal reads of two canonical memories make equal memories. -/
theorem Memory.eq_of_read (m m' : List Host.Cell) (h : Memory.wf m = true) (h' : Memory.wf m' = true)
    (e : ∀ a, readMem m a = readMem m' a) : m = m' := Map.eq_of_get 0 m m' h h' e

/-- Both memories of a state are in canonical form. -/
abbrev State.memWf (s : State) : Prop := Memory.wf s.mem = true ∧ Memory.wf s.hostMem = true

theorem State.memWf_reset : State.reset.memWf := ⟨rfl, rfl⟩

theorem State.memWf_store (s : State) (a : Nat) (l : List Byte) (h : s.memWf) : (s.store a l).memWf :=
  ⟨Memory.wf_writeMem _ _ _ h.1, h.2⟩

theorem State.memWf_devWrite (fn : Nat) (l : List Byte) (s : State) (a : Word) (h : s.memWf) : (s.devWrite fn a l).memWf := by
  induction l generalizing s a with
  | nil => exact h
  | cons b r ih =>
    unfold State.devWrite
    apply ih
    split
    · exact ⟨Memory.wf_writeMem _ _ _ h.1, h.2⟩
    · exact ⟨h.1, Memory.wf_writeMem _ _ _ h.2⟩
    · exact h

theorem State.memWf_vaPut (w : Nat) (l : List Byte) (s : State) (va : Nat) (h : s.memWf) : (s.vaPut w va l).memWf := by
  induction l generalizing s va with
  | nil => exact h
  | cons b r ih => exact ih _ _ ⟨Memory.wf_writeMem _ _ _ h.1, h.2⟩

theorem State.memWf_zeroRange (s : State) (pa len : Nat) (h : s.memWf) : (s.zeroRange pa len).memWf :=
  ⟨Memory.wf_filter _ _ h.1, h.2⟩

theorem State.memWf_freeRange (s : State) (pa len : Nat) (h : s.memWf) : (s.freeRange pa len).memWf :=
  ⟨Memory.wf_filter _ _ h.1, h.2⟩

theorem State.memWf_writeCells (n : Nat) (l : List (Nat × Byte)) (s : State) (h : s.memWf) : (s.writeCells n l).memWf := by
  unfold State.writeCells
  induction l generalizing s with
  | nil => exact h
  | cons e r ih =>
    rw [List.foldl_cons]
    apply ih
    dsimp only
    split
    · exact ⟨Memory.wf_writeMem _ _ _ h.1, h.2⟩
    · exact ⟨Memory.wf_writeMem _ _ _ h.1, h.2⟩

theorem State.memWf_restart (s : State) (h : s.memWf) : s.restart.memWf := h

/-- What boot does keeps the form; stage 7 keeps a part of what is listed. -/
theorem State.memWf_bootWork (s : State) (stage : Nat) (h : s.memWf) : (s.bootWork stage).memWf := by
  unfold State.bootWork
  split
  · exact h
  · exact ⟨Memory.wf_filter _ _ h.1, h.2⟩
  · exact h

/-! ### Addresses that a packet names (R23) -/

theorem Func.resolve_host (f : Func) (a : Word) (h : a.toNat < 0xF000000000000000) : f.resolve a = some (.host a.toNat) := by
  unfold Func.resolve
  rw [if_neg]
  intro e
  have := congrArg BitVec.toNat e
  simp [BitVec.extractLsb'_toNat, Nat.shiftRight_eq_div_pow] at this
  omega

/-- Below the staging window every address is host memory. -/
theorem State.devRead_host (s : State) (fn n : Nat) (a : Word) (h : a.toNat + n ≤ 0xF000000000000000) :
    s.devRead fn a n = some (readBytes s.hostMem a.toNat n) := by
  induction n generalizing a with
  | zero => rfl
  | succ n ih =>
    have e : (a + 1).toNat = a.toNat + 1 := by
      have : (1 : Word).toNat = 1 := rfl
      rw [BitVec.toNat_add, this, Nat.mod_eq_of_lt (by omega)]
    unfold State.devRead
    rw [Func.resolve_host _ _ (by omega), ih (a + 1) (by omega), e]
    rfl

theorem State.devOk_host (s : State) (fn n : Nat) (a : Word) (h : a.toNat + n ≤ 0xF000000000000000) : s.devOk fn a n = true := by
  rw [State.devOk, State.devRead_host s fn n a h]; rfl

/-! ### Touching a line (R138) -/

/-- The flits of an access change the counters of the flows alone (R147). -/
theorem State.countAccess_eq (s : State) (src pa : Nat) : ∃ F, s.countAccess src pa = { s with flows := F } := by
  unfold State.countAccess
  split
  · exact ⟨_, rfl⟩
  · exact ⟨s.flows, rfl⟩

/-- The Commons cache an address where they cache the start of its line. -/
theorem cached_line (pa : Nat) :
    (isHbm (paLocal (64 * (pa / 64))) || isTier (paLocal (64 * (pa / 64)))) = (isHbm (paLocal pa) || isTier (paLocal pa)) := by
  have ht : tierBase = 0x020000000000 := rfl
  have hq : 64 * (pa / 64) % 2 ^ 46 = 64 * (pa / 64 % 2 ^ 40) := by rw [show 2 ^ 46 = 64 * 2 ^ 40 from rfl, Nat.mul_mod_mul_left]
  have hp : pa % 2 ^ 46 = 64 * (pa / 64 % 2 ^ 40) + pa % 64 := by
    have := Nat.mod_mul (x := pa) (a := 64) (b := 2 ^ 40); omega
  have hr : pa % 64 < 64 := Nat.mod_lt _ (by decide)
  rw [Bool.eq_iff_iff]
  simp only [isHbm, isTier, paLocal, ht, hq, hp, Bool.or_eq_true, Bool.and_eq_true, decide_eq_true_eq]
  generalize pa / 64 % 2 ^ 40 = q at *
  generalize pa % 64 = r at *
  omega

/-- A line that is ready lies behind no CXL port that is down. -/
theorem State.portDown_of_ready (s : State) (pa : Nat) (hl : s.lineReady pa) : s.portDown pa = false := by
  unfold State.portDown
  rcases hl.1 with h | h
  · rw [cached_line] at h
    simp [(Bool.or_eq_false_iff.1 h).2]
  · simp [Option.isNone_eq_false_iff.2 h]

/-- An access of a line that is ready changes the Commons tags alone (R137, R138). -/
theorem State.touchFor_ready (s : State) (p ctx v : Nat) (cls : PageClass) (pa : Nat) (w sp : Bool) (hl : s.lineReady pa)
    (hm : paModule pa = s.pod.self) :
    ∃ L, s.touchFor p ctx v cls pa w sp = { s with lines := L } := by
  unfold State.touchFor
  rw [if_neg (by simpa using hm)]
  rw [if_neg (by simp [hl.2.1])]
  simp only [s.portDown_of_ready pa hl]
  unfold State.touchLine
  rw [if_neg (by simp)]
  rcases hl.1 with h | h
  · simp only [h]; exact ⟨s.lines, rfl⟩
  · obtain ⟨t, ht⟩ := Option.isSome_iff_exists.1 h
    simp only [ht]
    by_cases hb : (!(isHbm (paLocal (64 * (pa / 64))) || isTier (paLocal (64 * (pa / 64))))) = true
    · simp only [hb, if_true]; exact ⟨s.lines, rfl⟩
    · simp only [hb]; exact ⟨_, rfl⟩

/-- Touching such a line for a cell changes the tags and the flows' counters, and counts no miss. -/
theorem State.touch_ready (s : State) (n : Nat) (cls : PageClass) (pa : Nat) (w sp : Bool) (hl : s.lineReady pa)
    (hm : paModule pa = s.pod.self) :
    ∃ L F, s.touch n cls pa w sp = { s with lines := L, flows := F } := by
  obtain ⟨F, hF⟩ := s.countAccess_eq (cellPort n) pa
  obtain ⟨L, hL⟩ := State.touchFor_ready { s with flows := F } (partOfCell n) (s.cell n).ident.ctx (s.cell n).ident.world cls pa w sp
    hl hm
  have hx : s.misses pa = false := by
    unfold State.misses
    rcases hl.1 with h | h
    · rw [cached_line] at h; simp [h]
    · simp [Option.isNone_eq_false_iff.2 h]
  refine ⟨L, F, ?_⟩
  unfold State.touch
  simp only [hF, hx, Bool.and_false, Bool.false_and]
  exact hL

/-- With no line in a slice's buffer the end of an operation moves none (R138). -/
theorem State.endUncached_ready (s : State) (pa : Nat) (hl : s.lineReady pa) : s.endUncached = s := by
  unfold State.endUncached
  have : (s.lines.filter fun e => e.2.way == bufferWay) = [] :=
    List.filter_eq_nil_iff.2 fun e he => by simpa using hl.2.2 e he
  rw [this]; rfl

end Sys2Proof.Machine
end

