-- ==== Sys2Proof/Laws/Scalar.lean ====
section
/-! SUPPORT. What the shared operations of the sequencer do: writing a result and retiring, taken transfers, and precise traps. -/

namespace Sys2Proof.Machine

theorem SameMemory.refl (s : State) : SameMemory s s := ⟨fun _ => rfl, fun _ => rfl⟩

/-- A change of the cell in focus alone. -/
theorem OnlyCur.setCur (s : State) (c : Cell) : OnlyCur s (s.setCur c) :=
  ⟨by simp, fun _ => rfl, fun _ => rfl⟩

theorem RegWrite.setReg (c : Cell) (d : Reg) (v : Word) (du : Bool) : RegWrite c ((c.setReg d v).retire du) d v :=
  ⟨fun r => by rw [Cell.retire_reg, Cell.reg_setReg], fun r k hk => by rw [Cell.retire_shadow, Cell.shadow_setReg _ _ _ _ _ hk]⟩

theorem instrBytes_false : instrBytes false = 4 := rfl
theorem instrBytes_true : instrBytes true = 8 := rfl

/-- Writing a result in the cell in focus and retiring changes that register, its shadows and the pc. -/
theorem Writes.of_setReg (s : State) (d : Reg) (v : Word) :
    Writes s (s.setCur ((s.cur.setReg d v).retire false)) d v s.nextPc := by
  refine ⟨OnlyCur.setCur _ _, ?_, ?_, ?_, ?_⟩
  · rw [State.setCur_eq, State.cur_setCell_focus, Cell.setReg_frame]; rfl
  · rw [State.setCur_eq, State.cur_setCell_focus, Cell.setReg_frame]; rfl
  · rw [State.setCur_eq, State.cur_setCell_focus]; exact RegWrite.setReg _ _ _ _
  · simp [State.nextPc, instrBytes]

/-- Everything that writing a result does: the next state, and its frame. -/
theorem writeResult_completes (s : State) (d : Reg) (v : Word) :
    ∃ t, writeResult s d v = .next t ∧ Writes s t d v s.nextPc := ⟨_, rfl, Writes.of_setReg s d v⟩

/-- A register operation completes with the value of its function. -/
theorem opr_completes (s : State) (d a b : Reg) (f : Word → Word → Word) (v : Word) (h : f (s.cur.reg a) (s.cur.reg b) = v) :
    ∃ t, opr s d a b f = .next t ∧ Writes s t d v s.nextPc := h ▸ writeResult_completes s d _

theorem opi_completes (s : State) (d a : Reg) (f : Word → Word) (v : Word) (h : f (s.cur.reg a) = v) :
    ∃ t, opi s d a f = .next t ∧ Writes s t d v s.nextPc := h ▸ writeResult_completes s d _

/-! ### Transfers (R335) -/

theorem Cell.targetFault_eq_none (c : Cell) (t : Word) :
    c.targetFault t = none ↔ t.toNat % 4 = 0 ∧ c.inCode t = true := by
  unfold Cell.targetFault
  split
  · next h => simp; intro h'; exact absurd h' h
  · next h => simp at h; split <;> simp_all

/-- A transfer to a good target does its link and moves the pc there. -/
theorem jumpTo_of_good (s : State) (t : Word) (link : Cell → Cell) (ha : t.toNat % 4 = 0) (hc : s.cur.inCode t = true) :
    jumpTo s t link = .next (s.setCur ((link s.cur).withSeq fun q => { q with pc := t })) := by
  unfold jumpTo
  rw [(Cell.targetFault_eq_none _ _).2 ⟨ha, hc⟩]
  rfl

/-- A transfer to a bad target traps: ALIGN when it is not aligned, else PERM. -/
theorem jumpTo_of_unaligned (s : State) (t : Word) (link : Cell → Cell) (ha : t.toNat % 4 ≠ 0) :
    jumpTo s t link = trapNow s false .align t := by
  unfold jumpTo Cell.targetFault
  rw [if_pos ha]

theorem jumpTo_of_outside (s : State) (t : Word) (link : Cell → Cell) (ha : t.toNat % 4 = 0) (hc : s.cur.inCode t = false) :
    jumpTo s t link = trapNow s false .perm t := by
  unfold jumpTo Cell.targetFault
  rw [if_neg (by simpa using ha), hc]
  rfl

/-- A write of a register with the pc moved to a target. -/
theorem Writes.of_setReg_pc (s : State) (d : Reg) (v pc : Word) :
    Writes s (s.setCur ((s.cur.setReg d v).withSeq fun q => { q with pc := pc })) d v pc := by
  refine ⟨OnlyCur.setCur _ _, ?_, ?_, ?_, ?_⟩
  · rw [State.setCur_eq, State.cur_setCell_focus, Cell.setReg_frame]; rfl
  · rw [State.setCur_eq, State.cur_setCell_focus, Cell.setReg_frame]; rfl
  · rw [State.setCur_eq, State.cur_setCell_focus]
    exact ⟨fun r => Cell.reg_setReg _ _ _ _, fun r k hk => Cell.shadow_setReg _ _ _ _ _ hk⟩
  · simp

/-! ### Traps (R265, R266) -/

theorem kfinfoOf_precise (word : W32) : kfinfoOf false 0 0 word = word.setWidth 64 := by
  have h : kfinfoOf false 0 0 word = (0#32 ++ word : BitVec 64) := by
    simp [kfinfoOf, bitOf]
  rw [h]
  apply BitVec.eq_of_toNat_eq
  have := word.isLt
  rw [BitVec.toNat_append, BitVec.toNat_setWidth]
  simp
  omega

/-- A precise trap enters the handler that is ready. -/
theorem trapNow_traps (s : State) (du : Bool) (cause : Cause) (addr : Word) (h : s.handlerReady) :
    ∃ t, trapNow s du cause addr = .next t ∧ Traps s t cause addr (s.cur.instrWord du) := by
  refine ⟨_, rfl, ?_⟩
  obtain ⟨h1, h2⟩ := h
  have h1' : ¬ ((s.cell s.focus.cell).seq.kvec = 0 ∨ (s.cell s.focus.cell).seq.handlerActive = true) := by
    rintro (h | h)
    · exact h1 h
    · exact absurd h (by rw [show (s.cell s.focus.cell).seq.handlerActive = false from h2]; decide)
  unfold State.takeTrap
  rw [if_neg h1']
  refine ⟨OnlyCur.setCur _ _, ?_⟩
  rw [State.cur_setCell_focus]
  unfold Cell.enterHandler
  rw [kfinfoOf_precise]
  rfl

end Sys2Proof.Machine
end

