-- ==== Sys2Proof/Tests/Slice0.lean ====
section
/-! SUPPORT. The model's own tests: ill-formed terms, words written out in the spec, small single steps, and for each statement
with hypotheses a state and operands that meet them. Expected values come from the spec's examples or from its tables by hand. -/

namespace Sys2Proof.Machine

-- One theorem at a time: a `decide +kernel` waits for every check before it, and each waiting thread holds its stack.
set_option Elab.async false

/-! ### Ill-formed terms -/

theorem test_ill_formed_zero_word : (Instr.add 0 0 0).wellFormed = false ∧ (Instr.add 0 0 1).wellFormed = true := by decide
theorem test_ill_formed_conversion : (Instr.fcvt 1 2 .wide .rne true).wellFormed = false
    ∧ (Instr.fcvt 1 2 .frombf .rtz false).wellFormed = false ∧ (Instr.fcvt 1 2 .narrow .rtz true).wellFormed = false
    ∧ (Instr.fcvt 1 2 .toi .rtz true).wellFormed = true := by decide
theorem test_ill_formed_control_number : (Instr.ctlrd 1 0x00A).wellFormed = false ∧ (Instr.ctlwr 1 0x015).wellFormed = false
    ∧ (Instr.ctlset 1 0x023).wellFormed = false ∧ (Instr.ctlclr 1 0x1FF).wellFormed = false
    ∧ (Instr.ctlrd 1 0x031).wellFormed = true := by decide

/-! ### States for the tests -/

/-- A cell of launch 1 that runs two words, with its handler set. -/
def tCell : Cell :=
  { Cell.reset with
    run := .running, code := [0xFC000000, 0xC0642802]
    ident := { Ident.reset with part := 0, vf := 1, world := 1, tw := 2, handle := 1, launch := 1 }
    seq := { Seq.reset with pc := codeBase, kvec := 0x10004 } }

/-- Registers of a cell. -/
def Cell.having (c : Cell) (l : List (Reg × Word)) : Cell := l.foldl (fun c e => c.putReg e.1 e.2) c

def tLeaf (pa : Nat) (cls : PageClass) : Leaf := { level := 0, pa := pa, cls := cls, w := true, g := false, evicted := none }

/-- A world of VF 1 with a NORM page at 0x10000, an FE page at 0x14000, and pages of device windows at 0x18000. -/
def tWorld : World :=
  { newWorld 1 0 { memory := 7, haha := 8, kwelia := 9 } [] with
    leaves := [(0x10000, tLeaf 0x100000 .norm), (0x14000, tLeaf 0x104000 .fe), (0x18000, tLeaf (devBase + 0x4000) .dev)] }

def tTag : LineTag :=
  { part := 0, way := 0, ctx := 0, opd := false, fe := false, dirty := false, owner := 0, stamp := 0, check := 0 }

def tLaunch : Launch where
  fn := 1
  q := 0
  node := 0
  vf := 1
  world := 1
  ctx := 0
  handle := 1
  kernel := 0
  parts := [0]
  gen := 1
  tw := 2
  configs := []
  args := []
  budget := 0
  used := 0
  held := 0
  level := 0
  st := .running
  started := []
  images := []
  withScratch := []
  cycles := 0
  wantPreempt := none
  pod := none

def tContext : Context := { world := 1, debug := true, attached := false, preemptedNote := false }

/-- A booted module with partition 0 of VF 1, that world, and these cells; the lines of the two pages' heads are resident. -/
def tState (cells : Map Cell) : State :=
  { State.reset with
    boot := { stage := 8, fail := false, unit := 0 }
    funcs := [(1, { Func.reset with enabled := true })]
    parts := [(0, { Part.reset with vf := 1, st := .running, ctxs := [(0, tContext)], running := some 1 })]
    launches := [(1, tLaunch)], worlds := [(1, tWorld)], cells := cells
    mem := [(0x100000, 5), (0x104000, 9)], lines := [(0x4000, tTag), (0x4100, tTag)] }

def tOne (c : Cell) : State := tState [(0, c)]

/-! ### Branches and traps -/

theorem test_branch_target_good : (tOne tCell).cur.inCode ((tOne tCell).cur.seq.pc + 4 * (1 : BitVec 16).signExtend 64) = true
    ∧ ((tOne tCell).cur.seq.pc + 4 * (1 : BitVec 16).signExtend 64).toNat % 4 = 0 := by decide

/-! ### Witnesses: branches, jumps and their traps -/

def tPair (x y : Word) : State := tOne (tCell.having [(1, x), (2, y)])

/-- The targets 0x10004 of a branch, a jump and a register lie aligned in the segment, in both directions of each condition. -/
theorem test_met_BranchesAndJumpsGoToTheirTargets :
    let s := tPair 0x10004 2
    (s.cur.seq.pc + 4 * (1 : BitVec 16).signExtend 64).toNat % 4 = 0 ∧ s.cur.inCode (s.cur.seq.pc + 4 * (1 : BitVec 16).signExtend 64) = true
    ∧ (s.cur.seq.pc + 4 * (0 : BitVec 26).signExtend 64).toNat % 4 = 0 ∧ s.cur.inCode (s.cur.seq.pc + 4 * (0 : BitVec 26).signExtend 64) = true
    ∧ (s.cur.reg 1).toNat % 4 = 0 ∧ s.cur.inCode (s.cur.reg 1) = true
    ∧ s.cur.reg 1 ≠ s.cur.reg 2 ∧ (s.cur.reg 2).slt (s.cur.reg 1) = true ∧ (s.cur.reg 1).ult (s.cur.reg 2) = false
    ∧ s.cur.reg 2 - 1 ≠ 0 ∧ (tPair 1 2).cur.reg 1 - 1 = 0 := by decide

/-- An odd address in a register, a branch and a jump past the last word, and a branch at an odd pc. -/
theorem test_met_BadTargetsTrapBeforeAnyWrite :
    let s := tPair 0x10002 0x10008
    let odd := tOne { tCell with seq := { tCell.seq with pc := 0x10002 } }
    s.handlerReady ∧ (s.cur.reg 1).toNat % 4 ≠ 0 ∧ (s.cur.reg 2).toNat % 4 = 0 ∧ s.cur.inCode (s.cur.reg 2) = false
    ∧ (s.cur.seq.pc + 4 * (2 : BitVec 16).signExtend 64).toNat % 4 = 0 ∧ s.cur.inCode (s.cur.seq.pc + 4 * (2 : BitVec 16).signExtend 64) = false
    ∧ s.cur.inCode (s.cur.seq.pc + 4 * (-1 : BitVec 26).signExtend 64) = false
    ∧ (s.cur.reg 1).slt (s.cur.reg 2) = true ∧ (s.cur.reg 2).ult (s.cur.reg 1) = false ∧ s.cur.reg 1 - 1 ≠ 0
    ∧ odd.handlerReady ∧ (odd.cur.seq.pc + 4 * (0 : BitVec 16).signExtend 64).toNat % 4 ≠ 0 := by decide

theorem test_trap_saves_and_enters :
    let t := (tPair 0x10002 0).takeTrap 0 .align 0x10002 0x64010000
    t.cur.seq.pc = 0x10004 ∧ t.cur.seq.kfpc = 0x10000 ∧ t.cur.seq.kfcause = 2 ∧ t.cur.seq.kfaddr = 0x10002
    ∧ t.cur.seq.kfinfo = 0x64010000 ∧ t.cur.seq.handlerActive = true := by decide

/-! ### Witnesses: loads, stores and ordered accesses -/

/-- s1 = 0x10000 in the NORM page, s2 = 0x14000 in the FE page, s3 = 7. -/
def tMem : State := tOne (tCell.having [(1, 0x10000), (2, 0x14000), (3, 7)])
def tNorm : Loc := { pa := 0x100000, cls := .norm }
def tFe : Loc := { pa := 0x104000, cls := .fe }
/-- The same with the cell changed. -/
def tWith (f : Cell → Cell) : State := tOne (f (tCell.having [(1, 0x10000), (2, 0x14000), (3, 7)]))

theorem test_met_LoadsWriteWhatTheyRead :
    (∀ size ∈ [1, 2, 4, 8], tMem.access tMem.focus.cell .load size (tMem.cur.reg 1 + (0 : BitVec 16).signExtend 64) none = .ok tNorm
      ∧ (tMem.readLoc tMem.focus.cell tNorm size).1.cur.run ≠ .idle)
    ∧ paModule tNorm.pa = tMem.pod.self := by decide

theorem test_load_reads_bytes : (tMem.readLoc 0 tNorm 8).2 = 5
    ∧ (tMem.readLoc 0 tNorm 4).1.cur.l1.map (·.1) = [0x4000] := by decide

theorem test_met_LoadedValues :
    let forwarded := tWith fun c => { c with seq := { c.seq with wb := [.bytes [(0x100000, 1), (0x100001, 2)] .cell] } }
    let cached := tWith fun c => { c with l1 := [(0x4000, List.replicate 64 3)] }
    (∀ i, i < 2 → wbByte forwarded.cur.seq.wb (tNorm.pa + i) = some ([1, 2].getD i 0))
    ∧ (∀ i, i < 4 → wbByte cached.cur.seq.wb (tNorm.pa + i) = none) ∧ Map.get? cached.cur.l1 (tNorm.pa / 64) = some (List.replicate 64 3)
    ∧ (∀ i, i < 4 → wbByte tMem.cur.seq.wb (tNorm.pa + i) = none) ∧ Map.get? tMem.cur.l1 (tNorm.pa / 64) = none
    ∧ (Map.get? tMem.lines (tNorm.pa / 64)).isSome = true ∧ Map.get? tMem.cur.l1 (tFe.pa / 64) = none
    ∧ (Map.get? tMem.lines (tFe.pa / 64)).isSome = true := by decide

theorem test_met_StoresAreBufferedAndPerform :
    let full := tWith fun c => { c with seq := { c.seq with wb := [.bytes ([1, 2].mapIdx fun i b => (0x100000 + i, b)) .cell] } }
    (∀ size ∈ [1, 2, 4, 8], tMem.access tMem.focus.cell .store size (tMem.cur.reg 1 + (0 : BitVec 16).signExtend 64) none = .ok tNorm)
    ∧ tMem.cur.seq.wb.length < 16 ∧ tMem.cur.run ≠ .idle ∧ (full.cell 0).run = .running
    ∧ (full.cell 0).seq.wb = [.bytes ([1, 2].mapIdx fun i b => (0x100000 + i, b)) .cell]
    ∧ 0x100000 % 64 + [1, 2].length ≤ 64 ∧ (Map.get? full.lines (0x100000 / 64)).isSome = true
    ∧ paModule 0x100000 = full.pod.self := by decide

theorem test_store_performs :
    let full := tWith fun c => { c with seq := { c.seq with wb := [.bytes [(0x100000, 1), (0x100001, 2)] .cell] } }
    readBytes (full.performOldest 0).mem 0x100000 2 = [1, 2] ∧ ((full.performOldest 0).cell 0).seq.wb = [] := by decide

theorem test_met_BadAddressesTrapInOrder :
    (tPair (2 ^ 58) 0x10001).handlerReady ∧ 2 ^ 58 ≤ ((tPair (2 ^ 58) 0x10001).cur.reg 1).toNat
    ∧ ∀ size ∈ [2, 4, 8], ((tPair (2 ^ 58) 0x10001).cur.reg 2).toNat % size ≠ 0 := by decide

theorem test_met_ScratchLoadsAndStores :
    let s := tOne (tCell.having [(1, 0x100000), (2, 0xFFFF9), (3, 0xFFFF8)])
    s.handlerReady ∧ 0x100000 ≤ (s.cur.reg 1).toNat ∧ (s.cur.reg 2).toNat < 0x100000 ∧ (s.cur.reg 2).toNat % 8 ≠ 0
    ∧ (s.cur.reg 3).toNat < 0x100000 ∧ (s.cur.reg 3).toNat % 8 = 0 := by decide

theorem test_met_AcquireLoadsAndReleaseStores :
    (∀ size ∈ [4, 8], tMem.access tMem.focus.cell .load size (tMem.cur.reg 1) (some .part) = .ok tNorm
      ∧ tMem.access tMem.focus.cell .store size (tMem.cur.reg 1) (some .part) = .ok tNorm
      ∧ (((tMem.acquire 0 .part).readLoc 0 tNorm size).1.acquire 0 .part).cur.run ≠ .idle)
    ∧ tMem.cur.seq.wb = [] ∧ tMem.cur.run ≠ .idle ∧ (Map.get? tMem.lines (tNorm.pa / 64)).isSome = true := by decide

def tBank (sc : Scope) (red : Bool) (lines : Map (List (Nat × W32))) : BankCmd :=
  { red := red, op := 0, ty := 1, dest := 64, lines := lines, parts := [], scope := sc }

theorem test_met_FencesOrderAndRetire :
    let waits := tWith fun c => { c with bank := [tBank .cell false []] }
    tMem.cur.bank = [] ∧ tMem.cur.run ≠ .idle ∧ tMem.cur.seq.wb = [] ∧ (waits.cur.bank.any fun k => k.scope == .cell) = true
    ∧ tMem.policy.scopeWord.getLsbD (tMem.cur.ident.vf - 1) = false ∧ tMem.policy.scopeWord.getLsbD (16 + tMem.cur.ident.vf - 1) = false
    ∧ tMem.handlerReady
    ∧ ({ tMem with policy := { tMem.policy with scopeWord := 1 } } : State).policy.scopeWord.getLsbD (tMem.cur.ident.vf - 1) = true := by decide

theorem test_met_AtomicsReplaceAndReturnTheOldValue :
    (∀ size ∈ [4, 8], tMem.access tMem.focus.cell .atomic size (tMem.cur.reg 1) (some .cell) = .ok tNorm)
    ∧ paModule tNorm.pa = tMem.pod.self ∧ tMem.cur.run ≠ .idle ∧ tMem.cur.seq.wb = []
    ∧ (Map.get? tMem.lines (tNorm.pa / 64)).isSome = true := by decide

theorem test_met_FullEmptyOperations :
    let full : State := { tMem with full := [(0x104000, true)] }
    tMem.access tMem.focus.cell .feRead 4 (tMem.cur.reg 2) (some .part) = .ok tFe
    ∧ tMem.access tMem.focus.cell .feWrite 4 (tMem.cur.reg 2) (some .part) = .ok tFe ∧ Map.get false tMem.full tFe.pa = false
    ∧ full.access full.focus.cell .feRead 4 (full.cur.reg 2) (some .part) = .ok tFe
    ∧ full.access full.focus.cell .feWrite 4 (full.cur.reg 2) (some .part) = .ok tFe ∧ Map.get false full.full tFe.pa = true
    ∧ (Map.get? full.lines (tFe.pa / 64)).isSome = true ∧ full.cur.seq.wb = [] ∧ full.handlerReady := by decide

/-! ### Witnesses: floating point, control registers and system instructions -/

/-- s1 = 1.0, s2 = 2.0, s3 = −0, s4 = a NaN and s5 = +0 in f32. -/
def tFloat : State :=
  tOne (tCell.having [(1, 0x3F800000), (2, 0x40000000), (3, 0x80000000), (4, 0x7FC00001), (5, 0)])

theorem test_met_FloatComparisonsAndMinima :
    let v (r : Reg) := f32F.val ((tFloat.cur.reg r).toNat % 2 ^ f32F.w)
    v 1 ≠ .nan ∧ v 2 ≠ .nan ∧ v 4 = .nan ∧ (v 1).order (v 2) = .lt ∧ (v 2).order (v 1) = .gt
    ∧ (v 1).order (v 1) = .eq ∧ (v 3).order (v 5) = .eq ∧ (v 3).sign = true ∧ (v 5).sign = false
    ∧ (v 5).order (v 3) = .eq := by decide

theorem test_met_RoundingKeepsWhatTheFormatHolds :
    0x80000001 < 2 ^ f32F.w ∧ f32F.val 0x80000001 ≠ .nan ∧ 0x7FF0000000000000 < 2 ^ f64F.w ∧ f64F.val 0x7FF0000000000000 ≠ .nan
    ∧ 0xFF80 < 2 ^ bf16F.w ∧ bf16F.val 0xFF80 ≠ .nan := by decide

/-- R349's order of rounding: 1.0 + 2^-24 is a tie, which goes to the even 1.0, and up under `.rup`. -/
theorem test_add_ties_to_even :
    f32F.round .rne ((f32F.val 0x3F800000).add .rne (f32F.val 0x33800000)) = 0x3F800000
    ∧ f32F.round .rup ((f32F.val 0x3F800000).add .rup (f32F.val 0x33800000)) = 0x3F800001 := by decide

theorem test_met_ControlRegistersReadAndWrite : (tMem.world? tMem.cur.ident.world).isSome = true := by decide

theorem test_met_ControlRegisterTraps :
    tMem.handlerReady ∧ (0x00A : BitVec 9).toNat ∉ [0x000, 0x001, 0x002, 0x003, 0x004, 0x005, 0x006, 0x007, 0x008, 0x009, 0x030, 0x031,
      0x010, 0x011, 0x012, 0x013, 0x014, 0x020, 0x021, 0x022]
    ∧ (0x031 : BitVec 9).toNat ∈ [0x000, 0x001, 0x002, 0x003, 0x004, 0x005, 0x006, 0x007, 0x008, 0x009, 0x030, 0x031] := by decide

/-- R351: bits [1:0] of `kvec` stay zero. -/
theorem test_kvec_low_bits :
    (match execCtlwr 3 0x010 (tOne (tCell.having [(3, 0x10007)])) with
      | .next t => decide (t.cur.seq.kvec = 0x10004)
      | _ => false) = true := by decide

/-- s1 names line 3, s2 counter 0, s3 has bit 48 set; line 3 is set and counter 0 has reached its threshold. -/
def tWaits : State :=
  tOne { tCell.having [(1, 8), (2, 2 ^ 32), (3, 2 ^ 48), (4, 16)] with
    lines := 8, counters := [(0, { line := 1, threshold := 2, count := 2 })] }

theorem test_met_SystemInstructions :
    let back := tOne { tCell with seq := { tCell.seq with handlerActive := true, kfpc := 0x10004 } }
    tWaits.handlerReady
    ∧ (∀ r ∈ [(0 : Reg), 1, 2, 4], (tWaits.cur.reg r).extractLsb' 48 16 = 0)
    ∧ ((tWaits.cur.reg 1).getLsbD 3 = true ∧ tWaits.cur.lines.getLsbD 3 = true)
    ∧ ((tWaits.cur.reg 2).getLsbD 32 = true ∧ Map.get? tWaits.cur.counters 0 = some { line := 1, threshold := 2, count := 2 })
    ∧ (∀ k, k < 32 → (tWaits.cur.reg 4).getLsbD k = true → tWaits.cur.lines.getLsbD k = false)
    ∧ (∀ i, i < 16 → (tWaits.cur.reg 4).getLsbD (32 + i) = false) ∧ tWaits.cur.reg 4 ≠ 0
    ∧ ((tWaits.cur.reg 3).getLsbD 48 = true)
    ∧ Map.get? tWaits.launches tWaits.cur.ident.launch = some tLaunch ∧ 1 ∈ tLaunch.parts.flatMap cellsOfPart
    ∧ (tWaits.cell 1).run.hasHalted = false ∧ (tWaits.cell 1).seq.yielded = false
    ∧ back.cur.seq.handlerActive = true ∧ back.cur.seq.kfpc.toNat % 4 = 0 ∧ back.cur.inCode back.cur.seq.kfpc = true
    ∧ tWaits.cur.seq.handlerActive = false ∧ tWaits.cur.seq.kvec ≠ 0 := by decide

def tGraph : Graph where
  tag := 0
  nodes := []
  remaining := []
  st := [.dispatched]
  results := []
  failed := none
  detail := 0
  level := 0
  waitSince := 0
  started := []

/-- The state with a graph in progress in queue 0 of function 1. -/
def State.withGraph (s : State) (g : Graph) : State := s.setQueue 1 0 { Queue.reset with en := true, graph := some g }

/-- The cells 1 to 23 halted. -/
def tLast : State :=
  (tState ((0, tCell) :: tabulate 23 fun i => (cellOf 0 (i + 1), { tCell with run := .halted }))).withGraph tGraph

def tSettled (c : Cell) : Bool :=
  c.phase.st != .running && c.streams.all (fun e => e.2.armed.isSome) && c.arb.queue.isEmpty && c.kvm.isEmpty && c.coll.isNone
    && c.bank.isEmpty && c.fabric.sq.isEmpty

theorem test_met_HaltAndBreak :
    let attached := tMem.onPart 0 fun p => { p with ctxs := [(0, { tContext with attached := true })] }
    let busy := tWith fun c => { c with bank := [tBank .cell false []] }
    let yields := tLast.onCell 1 fun c => { c with run := .running, seq := { c.seq with yielded := true } }
    tMem.cur.run = .running ∧ tMem.cur.seq.wb = [] ∧ tSettled tMem.cur = true ∧ tSettled busy.cur = false
    ∧ Map.get? tMem.launches tMem.cur.ident.launch = some tLaunch ∧ tLaunch.st = .running ∧ tLaunch.pod = none
    ∧ (1 ∈ tLaunch.parts.flatMap cellsOfPart ∧ (tMem.cell 1).run.hasHalted = false
      ∧ (tMem.cell 1).seq.yielded = false)
    ∧ (tSettled yields.cur = true ∧ (yields.cell 1).run.hasHalted = false
      ∧ ∀ m ∈ tLaunch.parts.flatMap cellsOfPart, m ≠ yields.focus.cell →
        (yields.cell m).run.hasHalted = true ∨ (yields.cell m).seq.yielded = true)
    ∧ tSettled tLast.cur = true ∧ Map.get? tLast.launches tLast.cur.ident.launch = some tLaunch
    ∧ (∀ m ∈ tLaunch.parts.flatMap cellsOfPart, m ≠ tLast.focus.cell → (tLast.cell m).run.hasHalted = true)
    ∧ (tLast.queue tLaunch.fn tLaunch.q).graph = some tGraph
    ∧ Map.get? (attached.part attached.cur.ident.part).ctxs attached.cur.ident.ctx = some { tContext with attached := true }
    ∧ (attached.part (partOfCell 0)).stop = none
    ∧ Map.get? (tMem.part tMem.cur.ident.part).ctxs tMem.cur.ident.ctx = some tContext ∧ tContext.attached = false := by decide

def tReport : Report := { cause := .stream, addr := 0x77, info := 0x88 }

theorem test_met_TrapsAndReportsEnterTheHandler :
    let s := tWith fun c => { c with seq := { c.seq with reports := [tReport] } }
    let active := tWith fun c => { c with seq := { c.seq with reports := [tReport], handlerActive := true } }
    let bare := (tWith fun c => { c with seq := { c.seq with kvec := 0 } }).withGraph tGraph
    s.handlerReady ∧ (s.cell 0).run = .running ∧ (s.cell 0).seq.reports = tReport :: [] ∧ (s.cell 0).seq.kvec ≠ 0
    ∧ (s.cell 0).seq.handlerActive = false ∧ (active.cell 0).seq.reports = tReport :: [] ∧ (active.cell 0).seq.handlerActive = true
    ∧ bare.cur.seq.kvec = 0 ∧ Map.get? bare.launches bare.cur.ident.launch = some tLaunch ∧ tLaunch.pod = none
    ∧ (bare.queue tLaunch.fn tLaunch.q).graph = some tGraph := by decide

/-- A cell whose second word is w. -/
def tDual (w : W32) : State := tOne { tCell.having [(5, 1)] with code := [0xFC000000, w] }

theorem test_met_DualPairsCarryTangents :
    let second (s : State) := if s.cur.inCode (s.cur.seq.pc + 4) then decodeDual (s.cur.codeWord (s.cur.seq.pc + 4)) else none
    1 ≤ (tDual 0).cur.ident.tw ∧ (tDual 0).cur.ident.tw ≤ 4 ∧ second (tDual 0xC0642800) = some (.fadd 3 4 5 .rne false)
    ∧ second (tDual 0xC0642801) = some (.fsub 3 4 5 .rne false) ∧ second (tDual 0xC0642802) = some (.fmul 3 4 5 .rne false)
    ∧ second (tDual 0xC0642906) = some (.fcmp 3 4 5 .lt false) ∧ second (tDual 0x0064281B) = some (.sel 3 4 5)
    ∧ (tDual 0x0064281B).cur.reg 5 ≠ 0 ∧ second (tDual 0x04410010) = none ∧ (tDual 0x04410010).handlerReady := by decide

/-! ### Witnesses: streams -/

/-- The record of R239 of four f32 elements at 0x10000, and an index list after it. -/
def tRecord : List Byte :=
  leBytes 8 0x10000 ++ [0xA0, 1, 0, 0, 0, 0, 0, 0] ++ leBytes 4 4 ++ List.replicate 16 0 ++ leBytes 4 1 ++ List.replicate 24 0

/-- s1 is the control word of stream 2 with barrier 1, an OKIND and RSCR; s2 the other side; s3 = 0x400 the record's place. -/
def tStreaming (okind : Nat) (y : Word) : State :=
  tOne ((tCell.having [(1, BitVec.ofNat 64 (0x8022 + 0x800 * okind)), (2, y), (3, 0x400)]).scratchWrite 0x400 (tRecord ++ leBytes 8 0x10000))

/-- The command of a stream instruction on those registers passes every check. -/
def tStarts (op : StreamOp) (okind : Nat) (y : Word) : Bool :=
  let s := tStreaming okind y
  let ctl := s.cur.reg 1
  match s.readRecord 0 (ctl.getLsbD 15) (s.cur.reg 3) 64 64, s.readRecord 0 (ctl.getLsbD 15) (s.cur.reg 3 + 64) 8 8 with
  | .ok r, .ok l => match streamCmdOf s.cur op 0 ctl y r (if op.listed then some (BitVec.ofNat 64 (leNat l)) else none) with
    | some cmd => sidesOk cmd 0 && match s.streamChecks 0 cmd with
      | .ok _ => true
      | _ => false
    | none => false
  | _, _ => false

theorem test_met_StreamsStart : tStarts .scopy 1 0x100 = true ∧ tStarts .sfeed 2 0 = true ∧ tStarts .sdrain 3 0x0102 = true
    ∧ tStarts .sgath 1 0x100 = true ∧ tStarts .sscat 1 0x100 = true ∧ tStarts .stfill 5 7 = true := by decide +kernel

theorem test_met_StreamsStart_control :
    let s := tStreaming 1 0x100
    let ctl := s.cur.reg 1
    ctl.extractLsb' 16 48 = 0 ∧ ctl.getLsbD 4 = false ∧ ctl.getLsbD 10 = false ∧ s.cur.run ≠ .idle ∧ s.cur.seq.wb = []
    ∧ Map.get? s.cur.streams (ctl.toNat % 16) = none ∧ (s.cur.gate 5).armed = none := by decide

def tSealLeaf : Leaf := { tLeaf 0x4000000 .norm with level := 1 }
def tSealWorld (st : WorldSt) : World := { tWorld with st := st, leaves := [(0x2000000, tSealLeaf)] }
/-- One 64 KiB chunk and its tag in a 32 MiB page at 0x200_0000, in a world that is Open or Sealing. -/
def tUnseal (st : WorldSt) : State :=
  { tOne (tCell.having [(1, 2), (2, 0x2000000), (3, 1)]) with worlds := [(1, tSealWorld st)] }

/-- An access passes its checks. -/
def Chk.passes {α : Type} : Chk α → Bool
  | .ok _ => true
  | _ => false

theorem Chk.passes_iff {α : Type} {x : Chk α} (h : x.passes = true) : ∃ a, x = .ok a := by
  cases x with
  | ok a => exact ⟨a, rfl⟩
  | _ => cases h

theorem tUnseal_access : ∀ j < 65, ∀ k < 64,
    ((tUnseal .opened).access 0 .bankRead 16 (BitVec.ofNat 64 (0x2000000 + 16 * (64 * j + k))) none).passes = true
    ∧ ((tUnseal .sealing).access 0 .bankRead 16 (BitVec.ofNat 64 (0x2000000 + 16 * (64 * j + k))) none).passes = true := by
  decide +kernel

theorem accessAll_ok (s : State) (n : Nat) (k : Access) (size : Nat) (l : List Int)
    (h : ∀ a ∈ l, ∃ x, s.access n k size (BitVec.ofInt 64 a) none = .ok x) : ∃ ls, s.accessAll n k size l = .ok ls := by
  have sub : ∀ a ∈ pageFirsts l, a ∈ l := by
    have : ∀ (l r : List Int), ∀ a ∈ l.foldl (fun (r : List Int) a =>
        if r.any fun b => b / pageBytes == a / pageBytes then r else a :: r) r, a ∈ r ∨ a ∈ l := by
      intro l
      induction l with
      | nil => intro r a ha; exact .inl ha
      | cons x l ih =>
        intro r a ha
        rcases ih _ a ha with h | h
        · dsimp only at h
          split at h
          · exact .inl h
          · rcases List.mem_cons.1 h with rfl | h
            · exact .inr (List.mem_cons_self ..)
            · exact .inl h
        · exact .inr (List.mem_cons_of_mem _ h)
    intro a ha
    simpa [pageFirsts] using (this l [] a (by simpa [pageFirsts] using ha))
  have go : ∀ (m : List Int) (acc : List Loc), (∀ a ∈ m, ∃ x, s.access n k size (BitVec.ofInt 64 a) none = .ok x) →
      ∃ ls, m.foldl (fun r a => r.andThen fun ls =>
        (s.access n k size (BitVec.ofInt 64 a) none).andThen fun x => .ok (ls ++ [x])) (Chk.ok acc) = .ok ls := by
    intro m
    induction m with
    | nil => intro acc _; exact ⟨acc, rfl⟩
    | cons a m ih =>
      intro acc hm
      obtain ⟨x, hx⟩ := hm a (List.mem_cons_self ..)
      simp only [List.foldl_cons, Chk.andThen, hx]
      exact ih _ fun b hb => hm b (List.mem_cons_of_mem _ hb)
  exact go _ _ fun a ha => h a (sub a ha)

theorem test_met_SealedChunksStart : (∃ l, (tUnseal .opened).unsealRange 0 0x2000000 1 = .ok l)
    ∧ ∃ l, (tUnseal .sealing).unsealRange 0 0x2000000 1 = .ok l := by
  constructor
  all_goals
    refine accessAll_ok _ _ _ _ _ fun a ha => ?_
    obtain ⟨i, hi, rfl⟩ := List.mem_map.1 ha
    have hi : i < 4097 := by simpa [ceilDiv] using List.mem_range.1 hi
    have h := tUnseal_access (i / 64) (by omega) (i % 64) (by omega)
    rw [Nat.div_add_mod] at h
    have e : BitVec.ofInt 64 (((0x2000000 : Word).toNat : Int) + 16 * (i : Int)) = BitVec.ofNat 64 (0x2000000 + 16 * i) := by
      rw [← BitVec.ofInt_natCast]; rfl
    rw [e]
  · exact Chk.passes_iff h.1
  · exact Chk.passes_iff h.2

theorem test_met_SealedChunksStart_operands :
    let s := tUnseal .sealing
    (s.cur.reg 1).extractLsb' 11 5 = 0 ∧ 1 ≤ (s.cur.reg 3).toNat ∧ (s.cur.reg 3).toNat ≤ 4096 ∧ s.cur.barOk (some 0) 65536 = true
    ∧ (s.world? s.cur.ident.world).map (·.st) = some .sealing
    ∧ ((tUnseal .opened).world? (tUnseal .opened).cur.ident.world).map (·.st) = some .opened := by decide

def tShape : Shape :=
  { base := 0x10000, etype := 0xA0, desc := false, tan := false, kv := false, kvseq := 0
    dims := [{ ext := 4, str := 1, off := 0, wrap := false, level := 0 }] }

def tCmd (op : StreamOp) (o : Other) (scr : Bool) : StreamCmd :=
  { op := op, shape := tShape, other := o, sscr := scr, rscr := true, list := none, bar := some 1, tw := 0, kdesc := 0, kdbase := 0
    ktstride := 0, wgen := none, snap := none, scope := .part, count := 4, half := 8, serial := 0 }

def tElem (i : Nat) : Fetched :=
  { idx := i, bits := 0x01020304, tans := [], desc := { fmt := 0xA0, scale := 0 }, daddr := 0, opd := false, row := none, cost := [] }

def tStream (cmd : StreamCmd) (armed : Option Nat) (inflight : List Fetched) (landed : Nat) : StreamSt :=
  { cmd := cmd, armed := armed, issued := landed + inflight.length, inflight := inflight, landed := landed, rows := [], cancelled := false }

/-- The cell with a stream in identifier 2 and 16 bytes pending on barrier 1. -/
def tMoving (x : StreamSt) : State :=
  tOne { tCell with streams := [(2, x)], barriers := [(1, { p := 16, a := 1, complete := false, line := some 24, scope := .part })]
                    gates := [(5, { Gate.reset with armed := some (.stream 2, 0) })] }

theorem test_met_StreamsAreAwaitedAndCancelled :
    let armed := tMoving (tStream (tCmd .scopy (.scratch 0x100) false) (some 5) [] 0)
    let still := tMoving (tStream (tCmd .scopy (.scratch 0x100) false) none [] 0)
    let moving := tMoving (tStream (tCmd .scopy (.scratch 0x100) false) none [tElem 0] 0)
    Map.get? tMem.cur.streams 2 = none
    ∧ Map.get? armed.cur.streams 2 = some (tStream (tCmd .scopy (.scratch 0x100) false) (some 5) [] 0)
    ∧ (tCmd .scopy (.scratch 0x100) false).snap = none ∧ (tCmd .scopy (.scratch 0x100) false).toPort = false
    ∧ (armed.cur.barrier 1).complete = false
    ∧ Map.get? still.cur.streams 2 = some (tStream (tCmd .scopy (.scratch 0x100) false) none [] 0)
    ∧ Map.get? moving.cur.streams 2 = some (tStream (tCmd .scopy (.scratch 0x100) false) none [tElem 0] 0) := by decide

/-- A FIFO slot that pre-emption emptied, filled from scratch by the first element of a command. -/
def tHole : FifoSlot :=
  { data := [], d0 := { fmt := 0xA0, scale := 0 }, d1 := { fmt := 0xA0, scale := 0 }, a0 := 0, a1 := 0, marker := false, opd := false
    tangent := false, present := false, origin := some (tCmd .sfeed (.fifo 0) true, 0, List.replicate 4 none) }

theorem test_met_StreamsMoveTheirElements :
    let asks := tMoving (tStream (tCmd .stfill (.value 7) false) none [] 0)
    let lands := tMoving (tStream (tCmd .scopy (.scratch 0x100) false) none [tElem 1] 1)
    let ends := tMoving (tStream (tCmd .scopy (.scratch 0x100) false) none [tElem 3] 3)
    let hole := tOne { tCell with fifos := [(0, { slots := [tHole], fill := none })] }
    asks.lostPage 0 (tCmd .stfill (.value 7) false) 0 none = none ∧ asks.srcPlaces 0 (tCmd .stfill (.value 7) false) 0 none = []
    ∧ (asks.fetchElem 0 (tCmd .stfill (.value 7) false) 0 none).isSome = true
    ∧ lands.lostPage 0 (tCmd .scopy (.scratch 0x100) false) 1 none = none
    ∧ ends.lostPage 0 (tCmd .scopy (.scratch 0x100) false) 3 none = none ∧ (lands.cell 0).run = .running
    ∧ (hole.cell 0).arb.hole 0 = none ∧ ((hole.cell 0).fifo 0).hole = some (0, tCmd .sfeed (.fifo 0) true, 0, List.replicate 4 none)
    ∧ asks.nextStream 0 0 = some 2 ∧ ∀ j, j < 4 → hole.srcPlaces 0 (tCmd .sfeed (.fifo 0) true) (0 + j) none = [] := by decide

/-- R3, R240: element 3 of four at scratch 0x100 lands little-endian at 0x10C, and the stream ends with its line set. -/
theorem test_element_lands :
    (match execStreamElementLand 0 2 (tMoving (tStream (tCmd .scopy (.scratch 0x100) false) none [tElem 3] 3)) with
      | .next t => (t.cell 0).scratchRead 0x10C 4 == [4, 3, 2, 1] && (t.cell 0).streams.isEmpty && (t.cell 0).lineSet 2
          && ((t.cell 0).barrier 1).p == 12
      | _ => false) = true := by decide

/-! ### Witnesses: the Arbour -/

def tOp (k : ArbKind) (a b : Nat) (ctl : Word) : ArbOp :=
  { kind := k, tile := 2, tile2 := 3, aFifo := a, bFifo := b, ctl := ctl, ftans := [], tw := 0, word := 0, serial := 0, started := true
    rows := 0, beats := 0, groups := 0, bTaken := 0, shadow := [], eaten := [], bBefore := none }

def tSlot : FifoSlot :=
  { data := List.replicate 128 0, d0 := { fmt := 0x80, scale := 0 }, d1 := { fmt := 0x80, scale := 0 }, a0 := 0, a1 := 0
    marker := false, opd := false, tangent := false, present := true, origin := none }

/-- ZERO, CLASS 2 and M 2 in s1 (R251), the `ATOB` word of bf16 in s2, 512 slots in s3. -/
def tQueues (l : List ArbOp) : State :=
  tOne { tCell.having [(1, 0xC02), (2, 0x80), (3, 512)] with arb := { Arbour.reset with queue := l } }

theorem test_met_ArbourOperationsQueue :
    let s := tQueues []
    s.cur.productOk false 2 0 0 2 (s.cur.reg 1) = true ∧ s.cur.productOk true 2 0 0 2 (s.cur.reg 1) = true
    ∧ s.cur.groupRows 0 (ctlM (s.cur.reg 1)) ≤ 128 ∧ atobOk 2 (s.cur.reg 2) = true ∧ (s.cur.reg 3).toNat ≤ 512
    ∧ s.cur.arb.queue.length < 8 ∧ (s.cur.gate 5).armed = none
    ∧ (tQueues (List.replicate 8 (tOp .aclr 0 0 0))).cur.arb.queue.length = 8 := by decide

def tPerforms (o : ArbOp) (front back : Option BHalf) (fifos : Map Fifo) : State :=
  tOne { tCell with arb := { queue := [o], front := front, back := back, backFifo := 2 }, fifos := fifos }

def tB : BHalf := { slots := List.replicate 96 tSlot, fromAtob := false, marked := false }

theorem test_met_ArbourOperationsPerform :
    (∀ k ∈ [ArbKind.aclr, .ascale, .acpy, .atob], (((tPerforms (tOp k 0 2 0x80) none none []).cell 0).arb.queue = [tOp k 0 2 0x80]
      ∧ (tOp k 0 2 0x80).tw = 0 ∧ (tOp k 0 2 0x80).ftans = [] ∧ ((tPerforms (tOp k 0 2 0x80) none none []).cell 0).arb.back = none))
    ∧ { tOp .mma 0 2 0xC02 with rows := 2 }.rows = ctlM 0xC02
    ∧ ((tOp .bdrop 0 0 1).ctl.toNat ≤ ((((tPerforms (tOp .bdrop 0 0 1) none none [(0, ⟨[tSlot], none⟩)]).cell 0).fifo 0).slots.length))
    ∧ loadFifo [tOp .mma 0 2 0xC02] = some 2 ∧ backFree [tOp .mma 0 2 0xC02] = true
    ∧ (takeB 96 (((tPerforms (tOp .mma 0 2 0xC02) none none [(2, ⟨List.replicate 96 tSlot, none⟩)]).cell 0).fifo 2).slots).isSome = true
    ∧ (Map.get? ((tPerforms (tOp .mma 0 2 0xC02) none none []).part (partOfCell 0)).ctxs 0).isSome = true := by decide +kernel

theorem test_met_ArbourRowConsume :
    let o := { tOp .mma 0 2 0xC02 with bTaken := 1 }
    let s := tPerforms o (some tB) none [(0, ⟨[tSlot], none⟩)]
    (s.cell 0).arb.queue = [o] ∧ (s.cell 0).arb.front = some tB ∧ o.rows < ctlM o.ctl ∧ o.rows < 128
    ∧ (∀ y ∈ tB.slots, y.present = true ∧ y.badCode (ctlClass o.ctl) (ctlBovr o.ctl) = none) ∧ tB.slots.length = 96
    ∧ ((s.cell 0).fifo o.aFifo).slots = tSlot :: [] ∧ tSlot.badCode (ctlClass o.ctl) (ctlAovr o.ctl) = none := by decide

/-! ### Witnesses: barriers, events and gate terms -/

/-- Barrier 0 waits for one arrival, barrier 1 is complete, barrier 2 has as many bytes as it may hold. -/
def tBarriers : State :=
  tOne { tCell.having [(1, 1), (2, 24), (3, 0), (4, 65535)] with
    barriers := [(0, { p := 0, a := 1, complete := false, line := some 24, scope := .cell }),
      (1, { p := 0, a := 0, complete := true, line := none, scope := .part }),
      (2, { p := 2 ^ 56 - 1, a := 1, complete := false, line := none, scope := .cell })] }

theorem test_met_BarrierInstructions :
    let s := tBarriers
    let c := s.cur
    1 ≤ (c.reg 1).toNat ∧ (c.reg 4).toNat ≤ 65535 ∧ (c.reg 3).toNat = 0 ∧ 24 ≤ (c.reg 2).toNat ∧ (c.reg 2).toNat ≤ 31
    ∧ c.barrierBusy 3 = false ∧ c.run ≠ .idle ∧ c.seq.wb = [] ∧ (c.barrier 0).complete = false ∧ 1 ≤ (c.barrier 0).a ∧ s.handlerReady
    ∧ (c.barrier 1).complete = true ∧ (c.barrier 0).p + (c.reg 1).toNat < 2 ^ 56 ∧ c.reg 1 ≠ 0
    ∧ 2 ^ 56 ≤ (c.barrier 2).p + (c.reg 1).toNat := by decide

/-- A term's words with line 3 alone, a counter word of line 2 and threshold 1, a timer of 1 ms. -/
theorem test_met_EventInstructions :
    let c := (tOne { tCell.having [(1, 0x0000FFFFFFFFFFC3), (2, 0x10002), (3, 1000), (4, 0xFFFF00000008)] with
      counters := [(0, { line := 2, threshold := 1, count := 65535 })] }).cur
    let codes (u : Word) := u.extractLsb' 48 16 = 0 ∧ ∀ j, j < 8 → (u.extractLsb' (6 * j) 6).toNat < 48 ∨ u.extractLsb' (6 * j) 6 = 63
    codes (c.reg 1) ∧ (c.gate 5).armed = none ∧ (c.reg 2).extractLsb' 5 11 = 0 ∧ (c.reg 2).extractLsb' 32 32 = 0
    ∧ (c.reg 2).extractLsb' 16 16 ≠ 0 ∧ (c.reg 3).toNat ≤ 1000000 ∧ (c.reg 4).extractLsb' 48 16 = 0
    ∧ (Map.get? c.counters 0).isSome = true := by decide

/-- R376: `evfire e27` sets line 27 and counts on the counter that it feeds. -/
theorem test_evfire :
    (match execEvfire 3 none (tOne { tCell with counters := [(4, { line := 27, threshold := 3, count := 1 })] }) with
      | .next t => t.cur.lines == 0x08000000 && t.cur.counters == [(4, { line := 27, threshold := 3, count := 2 })]
      | _ => false) = true := by decide

/-- Term 5 holds an `EVFIRE` of line 24 and waits for line 3, which is set; the timer of 1 ms has run out. -/
def tTerm (lines : W32) : State :=
  tOne { tCell with lines := lines, gates := [(5, { lo := 0x0000FFFFFFFFFFC3, hi := 0x0000FFFFFFFFFFFF, armed := some (.evfire 24, 7) })]
                    timer := some (1000000, 1000001), counters := [(0, { line := 2, threshold := 1, count := 1 })] }

theorem test_met_TermsFireAndTheTimerPulses :
    let c := (tTerm 8).cell 0
    c.run = .running ∧ c.trueProducts (c.gate 5) ≠ [] ∧ (∀ j, j < 5 → c.mayFire (tTerm 8).lodgeFree j = false) ∧ (c.gate 5).armed = some (.evfire 24, 7)
    ∧ c.gateScan = none ∧ c.nextTerm (tTerm 8).lodgeFree = some 5
    ∧ (Map.get? c.counters 0).isSome = true ∧ ((tTerm 0).cell 0).trueProducts (((tTerm 0).cell 0).gate 5) = []
    ∧ c.timer = some (1000000, 1000001) := by decide

/-- Scratch with a collective record of this module alone at 0x100: 4 bytes of u32 sums from 0x140 to 0x180 in scratch, tag 9. -/
def tCollCell : Cell :=
  (tCell.having [(1, 0x100), (2, 0x10000), (3, 0x140), (4, 1), (5, 0x200), (6, 0x200300005)]).scratchWrite 0x100
    (leBytes 8 1 ++ leBytes 8 0x140 ++ leBytes 8 0x180 ++ leBytes 4 4 ++ [0x10, 3, 0, 9] ++ leBytes 32 0 ++ leBytes 4 77)

theorem test_met_DeferredFormsAreArmed :
    let s := tOne tCollCell
    let c := s.cur
    c.run ≠ .idle ∧ c.seq.wb = [] ∧ (c.gate 5).armed = none ∧ brunOk (c.reg 4) 0x40 c.ident.tw = true
    ∧ s.access s.focus.cell .kvRecord 64 (c.reg 2) none = .ok tNorm ∧ sopenOperands (0x100000200) (c.reg 5) = true
    ∧ ssealOperands 0x0001000100000004 (c.reg 3) (c.reg 5) = true ∧ ssealCheck 0x0001000100000004 (c.reg 3) (c.reg 5) = .ok 0x200
    ∧ (s.collCheck s.focus.cell 0 (c.reg 1)).passes = true ∧ (s.bkopCheck s.focus.cell (c.reg 2) (c.reg 3) (c.reg 4)).passes = true
    ∧ (s.bkredCheck s.focus.cell (c.reg 2) (c.reg 3) (c.reg 4)).passes = true := by decide +kernel

/-! ### Witnesses: the thread phase -/

/-- The worked image of chapter 14: a `lin`, an `fmul` by 0.5, a `lout`, routes and a `park`, 136 bytes. -/
def tImageBytes : List Byte :=
  leBytes 32 (4 * 2 ^ 192 + 4 * 2 ^ 129 + (2 ^ 80 - 1) * 2 ^ 49 + 2 * 2 ^ 41 + 2 ^ 39 + 0x4B4C4251)
    ++ leBytes 8 0 ++ leBytes 8 0x2278203800010001 ++ leBytes 8 0x0202
    ++ leBytes 8 0 ++ leBytes 8 0x0000000000500010 ++ leBytes 8 0x0303
    ++ leBytes 8 0 ++ leBytes 8 0x0000000000200010 ++ leBytes 8 0x040F
    ++ leBytes 8 0x000100000000000C ++ leBytes 8 0x5000200201000100 ++ leBytes 8 0x5100200301000100 ++ leBytes 8 0x7940000000000000

/-- The image parses, passes the checks of R226 and is block 0. -/
theorem test_worked_image : (parseImage 0 tImageBytes).map (fun m => (m.ok 0, m.block, m.bytes, m.sites.length))
    = some (true, 0, 136, 17) := by decide +kernel

/-- The image with its identifier (R226). -/
def tImage : Image := (parseImage 0 tImageBytes).getD (oneSite 0)

/-- s1 = 3 threads, s2 = a base, s3 = ENTRY 0 and LMAX 3, s4 = block 0, s5 = unbind, s6 = 4096. -/
def tPhase (st : PhaseState) : State :=
  tOne { tCell.having [(1, 3), (2, 0x1000), (3, 0xC0), (4, 0), (5, 0x8000000000000000), (6, 4096)] with
    bound := [(0, tImage)], phase := { Phase.reset with st := st, n := 3 } }

def tPackage : Package where
  digest := 0
  root := none
  kernels := []
  blocks := [tImageBytes]
  blockDigest := (Config.sha384 [tImageBytes].flatten).toNat
  datas := []

theorem test_met_PhaseInstructions :
    let s := tPhase .idle
    let c := s.cur
    c.run ≠ .idle ∧ c.seq.wb = [] ∧ c.phase.st = .idle ∧ brunOk (c.reg 1) (c.reg 3) c.ident.tw = true ∧ brunOk 0 (c.reg 3) c.ident.tw = true
    ∧ (Map.get? c.bound ((c.reg 3).toNat % 64)).isSome = true ∧ (∀ e ∈ c.bound, e.2.slotAbove ((c.reg 3).toNat / 64 % 64) = false)
    ∧ c.ident.tw ≤ 4 ∧ (tPhase .running).cur.phase.st = .running ∧ (tPhase .running).cur.phase.n ≤ 4096
    ∧ (tPhase .done).cur.phase.st = .done ∧ (c.reg 1).toNat ≤ 4095 ∧ 4095 < (c.reg 6).toNat ∧ s.handlerReady
    ∧ (c.reg 4).toNat < 64 ∧ (c.reg 5).toNat = 2 ^ 63 ∧ (c.reg 4).toNat < 2 ^ 32 := by decide +kernel

theorem test_met_PhaseInstructions_package :
    let s : State := { tPhase .idle with worlds := [(1, { tWorld with packages := [(1, tPackage)] })] }
    s.ownPackage s.cur 0 = some tPackage ∧ tPackage.blocks[0]? = some tImageBytes ∧ tPackage.blocksOk = true
    ∧ parseImage 0 tImageBytes = some tImage ∧ tImage.ok tCell.ident.tw = true ∧ tImage.block = 0 := by
  refine ⟨rfl, rfl, by simp [Package.blocksOk, tPackage], ?_, by decide +kernel, by decide +kernel⟩
  have h : (parseImage 0 tImageBytes).isSome = true := by decide +kernel
  obtain ⟨m, hm⟩ := Option.isSome_iff_exists.1 h
  rw [tImage, hm]; rfl

/-! ### Witnesses: map commands, sessions and weight sets -/

def tSession : Session where
  ident := 5
  keys := some [3]
  reqCtr := 0
  repCtr := 0
  ring := 0x10000
  slots := 4
  slotSize := 64
  produced := 0
  consumed := 0
  held := []
  lock := 0

/-- The world with session 1 and current generation 7 of weight set 4. -/
def tSealed : World := { tWorld with st := .sealed, sessions := [(1, tSession)], current := [(4, 7)] }

/-- s1 names the record at 0x10000, with counter 1 and length 4; s2 session 1 and destination 0x200; s3 the status word at 0x100; s4 a
certified and s5 a prompt reply of 4 bytes of session 1, s6 of session 9; s7 = 4, s8 = 5. -/
def tTalk : State :=
  { tOne { tCell.having [(1, 0x10000), (2, 0x100000200), (3, 0x100), (4, 0x1000100000004), (5, 0x100000004), (6, 0x900000004), (7, 4), (8, 5)] with
      pins := [(5, 1)] } with
    worlds := [(1, tSealed)], mem := [(0x100008, 1), (0x100010, 4)] }

theorem test_met_MapSessionAndWeightInstructions :
    let s := tTalk
    let c := s.cur
    let got := s.unitRead c.ident.part c.ident.ctx 1 (c.reg 1).toNat (48 + 4)
    s.cur.run ≠ .idle ∧ c.seq.wb = [] ∧ s.access s.focus.cell .kvRecord 64 (c.reg 1) none = .ok tNorm
    ∧ leNat (s.vaBytes 1 ((c.reg 1).toNat + 16) 4) = 4 ∧ sopenOperands (c.reg 2) (c.reg 3) = true
    ∧ s.sopenCheck 0 (c.reg 1) (c.reg 3) = .ok 0x100 ∧ got.1.cur.run ≠ .idle ∧ leAt got.2 8 8 = 1 ∧ leAt got.2 16 4 = 4
    ∧ tSession.reqCtr < 1 ∧ (c.reg 2).toNat % 2 ^ 20 + 4 ≤ 0x100000 ∧ 0x100 + 8 ≤ (c.reg 2).toNat % 2 ^ 20
    ∧ ssealOperands (c.reg 4) (c.reg 3) (c.reg 3) = true ∧ ssealCheck (c.reg 4) (c.reg 3) (c.reg 3) = .ok 0x100
    ∧ (c.reg 4).toNat / 2 ^ 48 % 4 = 1 ∧ (c.scratchRead (c.reg 3).toNat ((c.reg 4).toNat % 2 ^ 21)).length + 48 ≤ tSession.slotSize
    ∧ ssealOperands (c.reg 5) (c.reg 3) (c.reg 3) = true ∧ ssealCheck (c.reg 5) (c.reg 3) (c.reg 3) = .ok 0x100
    ∧ (c.reg 5).toNat / 2 ^ 48 % 4 = 0 ∧ tSession.produced - s.ringConsumed tSealed.vf tSession < tSession.slots
    ∧ ssealOperands (c.reg 6) (c.reg 3) (c.reg 3) = true ∧ ssealCheck (c.reg 6) (c.reg 3) (c.reg 3) = .ok 0x100
    ∧ (c.reg 7).toNat ≤ 15 ∧ (∀ p ∈ c.pins, p.1 ≠ (c.reg 7).toNat) ∧ (c.reg 8).toNat ≤ 15 ∧ (∃ p ∈ c.pins, p.1 = (c.reg 8).toNat) := by
  decide +kernel

theorem test_met_MapSessionAndWeightInstructions_session :
    tTalk.world? tTalk.cur.ident.world = some tSealed ∧ tTalk.openSession? 1 1 = some (tSealed, tSession) ∧ tSealed.held = false
    ∧ (tTalk.unitRead 0 0 1 0x10000 52).1.openSession? 1 1 = some (tSealed, tSession)
    ∧ (tSealed.bundle.map (·.floor)).getD 0 ≠ 1 ∧ tTalk.openSession? 1 9 = none ∧ tSession.lock = 0 ∧ tTalk.timebase = 0
    ∧ tTalk.lodgeFree = true :=
  ⟨rfl, rfl, rfl, rfl, by decide, rfl, rfl, rfl, rfl⟩

/-- R65: the lock is held for another 2.5 µs. -/
theorem test_met_MapSessionAndWeightInstructions_busy :
    let q : Session := { tSession with lock := 2500 }
    let v : World := { tSealed with sessions := [(1, q)] }
    let s : State := { tTalk with worlds := [(1, v)] }
    let got := s.unitRead 0 0 1 0x10000 52
    s.sopenCheck 0 0x10000 0x100 = .ok 0x100 ∧ got.1.cur.run ≠ .idle ∧ got.1.openSession? 1 1 = some (v, q)
    ∧ got.1.timebase < q.lock ∧ s.openSession? 1 1 = some (v, q) ∧ s.lockWait q = some 3 :=
  ⟨by decide +kernel, by decide +kernel, rfl, by decide +kernel, rfl, rfl⟩

/-! ### Witnesses: collectives and bank commands -/

def tColl (refused : Bool) : CollCmd :=
  { op := 0, record := leBytes 8 1 ++ leBytes 8 0x140 ++ leBytes 8 0x180 ++ leBytes 4 4 ++ [0x10, 3, 0, 9], src := leBytes 4 77
    dest := [], destScr := true, destAddr := 0x180, refused := refused }

theorem test_met_CollectivesAndBankCommands :
    let s := tOne tCollCell
    let c := s.cur
    let waits (k : CollCmd) := tOne { tCell with coll := some k }
    let works (b : BankCmd) := tOne { tCell with bank := [b] }
    c.run ≠ .idle ∧ c.seq.wb = [] ∧ c.coll = none ∧ s.collCheck 0 0 (c.reg 1) = .ok (tColl false)
    ∧ collFlags (tColl false).record % 2 = 1 ∧ c.bank.length < 16
    ∧ (s.bkopCheck 0 (c.reg 2) (c.reg 3) (c.reg 4)).passes = true ∧ (s.bkredCheck 0 (c.reg 2) (c.reg 3) (c.reg 4)).passes = true
    ∧ (waits (tColl true)).cur.coll = some (tColl true) ∧ (waits (tColl true)).cur.run ≠ .idle
    ∧ (waits (tColl false)).collOthers (tColl false) = []
    ∧ (works (tBank .part true [(0, [(0x100000, 0)])])).cur.bank = [tBank .part true [(0, [(0x100000, 0)])]]
    ∧ (works (tBank .part false [(0, [(0x100000, 3)])])).cur.bank = [tBank .part false [(0, [(0x100000, 3)])]]
    ∧ (Map.get? s.lines (0x100000 / 64)).isSome = true ∧ paModule 0x100000 = s.pod.self := by decide +kernel

/-! ### Witnesses: elements and edge nodes -/

def tTok (v : W32) (poison : Bool := false) : Tok :=
  { pass := 0, kind := .data, thread := 0, value := v, poison := poison, tans := [1, 2], origin := 0, atm := none }

/-- A node: sources N, W and W of two, its result to the east. -/
def tRec (ty : ElTy) (var lvl : BitVec 2) (d : Bool) : ElemRec :=
  { d := d, srcA := .n, srcB := .w, srcC := .w, ty := ty, var := var, lvl := lvl, imm8 := 0x13, sw := 0x0100, link := 0x0100 }
/-- A node of one input: an edge node's own address or value, with an immediate of zero. -/
def tRecEdge (ty : ElTy) : ElemRec :=
  { d := false, srcA := .n, srcB := .imm, srcC := .n, ty := ty, var := 1, lvl := 0, imm8 := 0, sw := 0x0100, link := 0x0100 }
/-- What takes the result: a `MOV` of its W input. -/
def tTaker : SiteRec :=
  { op := 1, r := { tRec .f32 0 0 false with srcA := .w, sw := 0, link := 0 }, c0 := 0, c1 := 0 }

def tPass (site : Nat) (op : BitVec 7) (r : ElemRec) (taker : Nat) : Pass where
  id := 0
  image := { oneSite 0 with sites := [(site, { op := op, r := r, c0 := 0, c1 := 0 }), (taker, tTaker)] }
  threads := [0, 1]
  issued := []
  gone := []
  done := []
  ended := false
  start := 0

/-- The cell of such a site with what stands on its links. -/
def tFabric (site taker : Nat) (op : BitVec 7) (r : ElemRec) (links : Map Link) : Cell :=
  { tCell with
    bound := [(63, oneSite 0)], phase := { Phase.reset with st := .running, n := 2, lmax := 3 }
    fabric := { Fabric.reset with passes := [tPass site op r taker], links := links } }

def tAt (c : Cell) (site : Nat) : State := { tOne c with focus := { cell := 0, site := site, out := 1 } }

/-- Element (1, 1) with x on its N input and y on its W input; (2, 1) takes its result. -/
def tGrid (op : BitVec 7) (r : ElemRec) (x y : W32) : State :=
  tAt (tFabric 17 18 op r [(6, { q := [tTok x], taken := [] }), (65, { q := [tTok y], taken := [] })]) 17

/-- The node at ring position 3 with x from element (0, 2); element (0, 3) takes its result. -/
def tEdge (op : BitVec 7) (r : ElemRec) (x : W32) : State :=
  tAt (tFabric 259 48 op r [(131, { q := [tTok x], taken := [] })]) 259

/-- The site in focus fires on operands of which P holds. -/
def State.firesOn (s : State) (op : BitVec 7) (r : ElemRec) (P : At → AluIn → Bool) : Bool :=
  match s.atSite op r with
  | none => false
  | some a => match a.view s.cur with
    | .data ts => !anyPoison ts && a.mayWrite s.cur a.outs && !(a.p.image.users (linkOf a.site 1)).isEmpty && P a (a.input ts)
    | _ => false

theorem State.firesOn_iff {s : State} {op : BitVec 7} {r : ElemRec} {P : At → AluIn → Bool} (h : s.firesOn op r P = true) :
    ∃ a ts, Fires s op r a ts ∧ P a (a.input ts) = true := by
  unfold State.firesOn at h
  split at h
  · cases h
  · next a ha =>
    split at h
    · next ts hts =>
      simp only [Bool.and_eq_true, Bool.not_eq_true'] at h
      exact ⟨a, ts, ⟨ha, hts, h.1.1.1, h.1.1.2⟩, h.2⟩
    · cases h

/-- The values on the two inputs meet the conditions of the statements' clauses, for each opcode of the grid. -/
theorem test_met_elements_of_the_grid :
    (∀ op ∈ [0x01, 0x02, 0x03, 0x08, 0x09, 0x0A, 0x0B, 0x0C, 0x0D, 0x0E, 0x0F, 0x10, 0x11, 0x12, 0x13, 0x14, 0x15, 0x16, 0x17, 0x18,
        0x19, 0x1A, 0x1B, 0x20, 0x21, 0x22, 0x23, 0x24, 0x25, 0x26, 0x27, 0x28, 0x29, 0x2A, 0x2B, 0x2C, 0x2D, 0x2E, 0x2F, 0x30, 0x38, 0x39,
        0x3A, 0x3B, 0x3C, 0x40, 0x41, 0x42, 0x43, 0x44],
      (tGrid op (tRec .f32 0 0 true) 7 9).firesOn op (tRec .f32 0 0 true) fun _ x => x.a.v != 0) := by decide +kernel

/-- A dual `FMIN` in f32 fires on x and y. -/
def tPicks (x y : W32) : Bool :=
  (tGrid 0x24 (tRec .f32 0 0 true) x y).firesOn 0x24 (tRec .f32 0 0 true) fun _ v => v.a.v == x && v.b.v == y

theorem test_met_element_conditions :
    (tGrid 0x1B (tRec .i32 0 0 false) 0 9).firesOn 0x1B (tRec .i32 0 0 false) (fun _ x => x.a.v == 0) = true
    ∧ (tGrid 0x19 (tRec .n32 0 0 false) 5 9).firesOn 0x19 (tRec .n32 0 0 false) (fun _ _ => true) = true
    ∧ (tGrid 0x19 (tRec .i32 0 0 false) 5 9).firesOn 0x19 (tRec .i32 0 0 false) (fun _ _ => true) = true
    ∧ (tGrid 0x1A (tRec .i32 1 0 false) 5 9).firesOn 0x1A (tRec .i32 1 0 false) (fun _ _ => true) = true
    ∧ (tGrid 0x20 (tRec .bf16x2 0 0 false) 5 9).firesOn 0x20 (tRec .bf16x2 0 0 false) (fun _ _ => true) = true
    ∧ (tGrid 0x24 (tRec .f32 0 0 true) 0x3F800000 0x40000000).firesOn 0x24 (tRec .f32 0 0 true)
        (fun _ x => (f32Val x.a.v).order (f32Val x.b.v) == .lt) = true
    ∧ (tGrid 0x24 (tRec .f32 0 0 true) 0x40000000 0x3F800000).firesOn 0x24 (tRec .f32 0 0 true)
        (fun _ x => (f32Val x.a.v).order (f32Val x.b.v) == .gt) = true
    ∧ tPicks 0x7FC00000 0x7FC00000 = true ∧ tPicks 0x7FC00000 0 = true ∧ tPicks 0 0x7FC00000 = true ∧ tPicks 0x80000000 0 = true
    ∧ (∀ op ∈ [0x24, 0x25, 0x26, 0x27, 0x28], (tGrid op (tRec .bf16x2 0 0 false) 0x80003F80 0x40000000).firesOn op
        (tRec .bf16x2 0 0 false) fun _ _ => true)
    ∧ (∀ ty ∈ [ElTy.i32, .n32, .f32, .bf16x2, .i16x2, .i8x4, .n8x4], (tGrid 0x38 (tRec ty 0 0 false) 5 9).firesOn 0x38 (tRec ty 0 0 false) (fun _ _ => true)) := by
  decide +kernel

/-- A carry that holds 5, and one of the first token of a pass. -/
def tCarry (op : BitVec 7) (ty : ElTy) (x : W32) (old : W32 := 5) : State :=
  let s := tGrid op (tRec ty 0 0 false) x 9
  s.onCur fun c => c.withFabric fun f => { f with carry := [(17, { val := old, tans := [0, 0], empty := false, thread := 0 })] }

/-- An `RMAX` in f32 whose carry holds c fires on v. -/
def tTakes (c v : W32) : Bool :=
  let s := tCarry 0x41 .f32 v c
  s.firesOn 0x41 (tRec .f32 0 0 false) fun a x => !(s.cur.carry a.site).empty && (s.cur.carry a.site).val == c && x.a.v == v

theorem test_met_ReductionsMarkersAndRoutes :
    (∀ op ∈ [0x40, 0x41, 0x42, 0x43, 0x44], (tGrid op (tRec .i32 0 1 false) 7 9).firesOn op (tRec .i32 0 1 false)
        fun a x => ((tGrid op (tRec .i32 0 1 false) 7 9).cur.carry a.site).empty && x.a.v != 0)
    ∧ (tGrid 0x44 (tRec .i32 0 1 false) 0 9).firesOn 0x44 (tRec .i32 0 1 false) (fun _ x => x.a.v == 0) = true
    ∧ (∀ op ∈ [0x40, 0x41, 0x42, 0x43], (tCarry op .i32 7).firesOn op (tRec .i32 0 0 false)
        fun a x => let k := (tCarry op .i32 7).cur.carry a.site
          !k.empty && decide (k.val.toInt < x.a.v.toInt) && k.val == 5)
    ∧ (∀ op ∈ [0x41, 0x42], (tCarry op .n32 3).firesOn op (tRec .n32 0 0 false)
        fun a x => let k := (tCarry op .n32 3).cur.carry a.site
          !k.empty && decide (x.a.v.toNat < k.val.toNat))
    ∧ (∀ op ∈ [0x41, 0x42], (tCarry op .i32 5).firesOn op (tRec .i32 0 0 false) fun a x => ((tCarry op .i32 5).cur.carry a.site).val == x.a.v)
    ∧ tTakes 0x7FC00000 0 = true ∧ tTakes 0 0x7FC00000 = true ∧ tTakes 0 0 = true ∧ tTakes 0x80000000 0 = true
    ∧ tTakes 0 0x80000000 = true := by decide +kernel

/-- The canonical NaN and the two zeros, as the clauses about ties and NaN need them. -/
theorem test_met_ties_and_nans :
    f32Val 0x7FC00000 = .nan ∧ f32Val 0 ≠ .nan ∧ f32Val 0x80000000 ≠ .nan ∧ (f32Val 0x80000000).order (f32Val 0) = .eq
    ∧ (f32Val 0).order (f32Val 0x80000000) = .eq ∧ (f32Val 0).order (f32Val 0) = .eq
    ∧ (f32Val 0x80000000).sign = true ∧ (f32Val 0).sign = false := by decide +kernel

/-- A route from W to E of element (1, 1) with a token at its head. -/
def tRoute : State :=
  tAt (tFabric 17 18 0 { tRec .f32 0 0 false with sw := 0x0500 } [(65, { q := [tTok 9], taken := [] })]) 17

theorem test_met_ElemRoute :
    (match tRoute.cur.fabric.passAt 17 with
      | some p => match p.rec? 17 with
        | some y => (y.routes.find? (fun e => e.1 == 1) == some (1, 3)) && (inLink 17 3 == some 65)
            && (tRoute.cur.linkHead p 65 (useRoute 17 1) == some (tTok 9)) && tRoute.cur.room y 17 1
            && !(p.image.users (linkOf 17 1)).isEmpty
        | none => false
      | none => false) = true
    ∧ tRoute.focus.out = 1 ∧ tRoute.cur.enginesRun = true ∧ tRoute.cur.phase.st = .running := by decide +kernel

/-- A node at ring position 3 with the address 0x10000 or 0x14000, or a value, on its N input. -/
theorem test_met_LiveSlotAndMemoryNodes :
    (∀ op ∈ [0x51, 0x58, 0x59, 0x5A, 0x5B, 0x5C, 0x6D], (tEdge op (tRecEdge .f32) 0x10000).firesOn op (tRecEdge .f32)
        fun _ x => x.a.v == 0x10000)
    ∧ (∀ op ∈ [0x5D, 0x5E], (tEdge op (tRecEdge .f32) 0x14000).firesOn op (tRecEdge .f32) fun _ x => x.a.v == 0x14000)
    ∧ (∀ op ∈ [0x5F, 0x60], (tEdge op (tRecEdge .f32) 0xFFFFC).firesOn op (tRecEdge .f32) fun _ x =>
        decide (x.a.v.toNat < 0x100000) && x.a.v.toNat % 4 == 0)
    ∧ (tEdge 0x61 (tRecEdge .f32) 0x20000).firesOn 0x61 (tRecEdge .f32) (fun _ x => x.a.v == 0x20000) = true
    ∧ (tEdge 0x61 (tRecEdge .f32) 0x10000).firesOn 0x61 (tRecEdge .f32) (fun _ x => x.a.v == 0x10000) = true := by decide +kernel

theorem test_met_LiveSlotAndMemoryNodes_places :
    let s := tEdge 0x58 (tRecEdge .f32) 0x10000
    let e : State := { tEdge 0x5D (tRecEdge .f32) 0x14000 with full := [(0x104000, true)] }
    let cached := s.onCur fun c => { c with l1 := [(0x4000, List.replicate 64 3)] }
    s.access 0 .load 4 0x10000 none = .ok tNorm ∧ s.access 0 .load 4 0x10000 (some .part) = .ok tNorm
    ∧ s.access 0 .store 4 0x10000 none = .ok tNorm ∧ s.access 0 .store 4 0x10000 (some .part) = .ok tNorm
    ∧ s.access 0 .atomic 4 0x10000 (some .part) = .ok tNorm ∧ (Map.get? s.lines (tNorm.pa / 64)).isSome = true
    ∧ paModule tNorm.pa = s.pod.self ∧ Map.get? s.cur.l1 (tNorm.pa / 64) = none ∧ Scope.ofBits (tRecEdge .f32).var = .part
    ∧ Map.get? cached.cur.l1 (tNorm.pa / 64) = some (List.replicate 64 3) ∧ cached.access 0 .load 4 0x10000 none = .ok tNorm
    ∧ e.access 0 .feRead 4 0x14000 (some .part) = .ok tFe ∧ e.access 0 .feWrite 4 0x14000 (some .part) = .ok tFe
    ∧ Map.get false e.full tFe.pa = true ∧ s.access 0 .load 4 0x20000 none = .hold 0x20000
    ∧ s.cur.fabric.sqUsed < 2048 := by decide +kernel

/-- The dual forms: tangent planes 64 bytes apart, their lines in the L1 or resident. -/
theorem test_met_LiveSlotAndMemoryNodes_dual :
    let r := { tRecEdge .f32 with d := true }
    let s (op : BitVec 7) : State := (tEdge op r 0x10000).onCur fun c =>
      { c with seq := { c.seq with ktstride := 64 }, l1 := [(0x4000, List.replicate 64 3), (0x4001, []), (0x4002, [])] }
    let near : State := { s 0x5A with lines := [(0x4000, tTag), (0x4001, tTag), (0x4002, tTag)] }
    let plane (k : Nat) : Loc := { tNorm with pa := tNorm.pa + 64 * k }
    (s 0).cur.ident.tw = 2 ∧ (∀ op ∈ [0x58, 0x59, 0x5A, 0x5B, 0x51], (s op).firesOn op r fun _ x => x.a.v == 0x10000)
    ∧ (∀ w ∈ [true, false], (s 0x58).access 0 (.dual w) 4 0x10000 none = .ok tNorm
        ∧ (s 0x58).access 0 (.dual w) 4 0x10000 (some .part) = .ok tNorm
        ∧ ∀ k ∈ [1, 2], (s 0x58).access 0 (.tangent w) 4 (0x10000 + BitVec.ofNat 64 k * 64) none = .ok (plane k)
          ∧ (s 0x58).access 0 (.tangent w) 4 (0x10000 + BitVec.ofNat 64 k * 64) (some .part) = .ok (plane k))
    ∧ (∀ k ∈ [0, 1, 2], Map.get? (s 0x58).cur.l1 ((plane k).pa / 64) ≠ none ∧ (plane k).pa % 4 = 0
        ∧ paModule (plane k).pa = (s 0x58).pod.self ∧ (Map.get? near.lines ((plane k).pa / 64)).isSome = true)
    ∧ near.firesOn 0x5A r (fun _ _ => true) = true ∧ (s 0x59).cur.fabric.sqUsed + 2 < 2048 := by decide +kernel

/-- A `LIN` at ring position 3 before its first and after its last thread, alone in its block. -/
def tLin (issued : Nat) : State :=
  tAt ((tFabric 259 48 0x50 { tRecEdge .f32 with srcA := .n } []).withFabric fun f => { f with
    passes := f.passes.map fun p => { p with issued := [(259, issued)] } }) 259

/-- The same after its last thread, while thread 1 waits at block 63, whose image is in the cache. -/
def tLinNext : State :=
  (tLin 2).onCur fun c => { c with phase := { c.phase with wait := [(63, 2#4096)] }, cache := [((oneSite 0).ident, 64)] }

theorem test_met_Lin :
    (match (tLin 0).atSite 0x50 (tRecEdge .f32), (tLin 2).atSite 0x50 (tRecEdge .f32), tLinNext.atSite 0x50 (tRecEdge .f32) with
      | some a, some b, some d =>
        (a.ports.all fun x => x.x.op == 0x50 && x.mayIssue (tLin 0).cur true) && (a.p.threads[a.issued]? == some 0)
          && (b.ports.all fun x => x.mayIssue (tLin 2).cur false) && (b.p.threads[b.issued]? == none)
          && (d.ports.all fun x => x.mayIssue tLinNext.cur false) && (d.p.threads[d.issued]? == none)
      | _, _, _ => false) = true
    ∧ (tLin 2).cur.choice = none ∧ tLinNext.cur.choice = some 63 ∧ Map.get? tLinNext.cur.bound 63 = some (oneSite 0)
    ∧ tLinNext.cur.cacheHas (oneSite 0).ident = true := by decide +kernel

theorem test_met_PortsAndControlNodes :
    (∀ op ∈ [0x68, 0x69, 0x6A, 0x6C, 0x7A, 0x78, 0x79, 0x7B], (tEdge op (tRecEdge .f32) 7).firesOn op (tRecEdge .f32)
        fun a x => let c := (tEdge op (tRecEdge .f32) 7).cur
          decide (x.a.v.toNat < 12288) && !c.tileNamed 0 0 && decide (c.stoutUsed a.ring < 4096) && decide (c.fabric.sqUsed < 2048)
            && !a.p.image.together && (Map.get? c.fabric.opsDone x.thread).isNone && decide (x.thread < 4096) && x.a.v != 0
            && ((c.fabric.passes.find? fun q => q.id == a.p.id).map (·.image.sites) == some a.p.image.sites)
            && (List.range 2).all fun q => decide ((c.fifo q).used (c.fillTan q) ≤ 512))
    ∧ (tEdge 0x7B (tRecEdge .f32) 0).firesOn 0x7B (tRecEdge .f32) (fun _ x => x.a.v == 0) = true
    ∧ (∀ op ∈ [0x68, 0x69, 0x6A, 0x6C], (tEdge op { tRecEdge .f32 with d := true } 7).firesOn op { tRecEdge .f32 with d := true }
        fun a _ => let c := (tEdge op { tRecEdge .f32 with d := true } 7).cur
          !c.tileNamed 0 c.ident.tw && decide (c.stoutUsed a.ring + c.ident.tw < 4096))
    ∧ (let s := tEdge 0x78 { tRecEdge .f32 with imm8 := 0 } 7
       let b := ((tPass 259 0x78 (tRecEdge .f32) 48).image.succ.getD 0 0x3FF).toNat
       b = 0x3FF ∧ (Map.get? s.cur.bound 63).isSome = true) := by decide +kernel

def tItem : StinItem :=
  { word := 5, tans := [], levels := [], scope := .part, st := 2, elems := 1, bar := none, bytes := 4, mode := .cut }

theorem test_met_Stin :
    let s := tAt ((tFabric 259 48 0x6B (tRecEdge .f32) []).withFabric fun f => { f with stin := [(3, [tItem])] }) 259
    (match s.atSite 0x6B (tRecEdge .f32) with
      | some a => (a.ports.all fun x => x.mayIssue s.cur true) && (a.ports.tail.all fun x => x.x.op == 0x50)
          && (a.p.threads[a.issued]? == some 0) && (Map.get [] s.cur.fabric.stin a.ring == tItem :: [])
      | none => false) = true := by decide +kernel

/-! ### Witnesses: the module -/

/-- A booted module whose function fn holds this queue, with a staging unit at 0x200000 and these bytes at 0x1000 of host memory. -/
def tQueue (fn q : Nat) (x : Queue) (host : List Byte := []) : State :=
  { tState [] with
    funcs := [(fn, { Func.reset with enabled := true, queues := [(q, x)], staging := [0x200000], mbaddr := 0xF000000000000000 })]
    hostMem := writeMem [] 0x1000 host }

def tNodes (b : List Byte) : Graph := { newGraph 7 [b] 3 with st := [.dispatched] }

/-- A node of a type with its bytes from 16 up, dispatched on a queue. -/
def tNode (fn q ty : Nat) (b : List Byte) (host : List Byte := []) : State :=
  tQueue fn q { Queue.reset with en := true, graph := some (tNodes (leBytes 16 ty ++ b ++ List.replicate (48 - b.length) 0)) } host

def tBytes (ty : Nat) (b : List Byte) : List Byte := leBytes 16 ty ++ b ++ List.replicate (48 - b.length) 0

def State.runsNode (s : State) (fn q n ty : Nat) (b : List Byte) : Bool := s.nodeOf fn q n ty == some b && s.walks

theorem State.runsNode_iff {s : State} {fn q n ty : Nat} {b : List Byte} (h : s.runsNode fn q n ty b = true) :
    Dispatched s fn q n ty b := by
  simp only [State.runsNode, Bool.and_eq_true, beq_iff_eq] at h
  exact ⟨h.1, h.2⟩

theorem test_met_ResetsBootAndClocks :
    let s := tOne tCell
    let b (n : Nat) : State := { State.reset with boot := { stage := n, fail := false, unit := 0 } }
    (∀ n ∈ [1, 2, 7], (b n).boot.fail = false ∧ (b n).boot.stage < 8) ∧ 11 < bootUnits (b 4).boot.stage
    ∧ s.lodgeUp = true ∧ s.clock.pinned = false ∧ s.booted = true
    ∧ s.clock.limitW < 2801 ∧ 900 ≤ s.clock.mhz ∧ 100 * 2659 < 95 * s.clock.limitW
    ∧ ({ s with clock := { s.clock with mhz := 1500 } } : State).clock.mhz ≤ 1500
    ∧ bootUnits (b 4).boot.stage ≤ 12 ∧ s.boot.stage = 8 ∧ State.reset.lodgeUp = false ∧ State.reset.booted = false := by decide

/-- Queue 3 of VF 1 with four free entries and two records of which none has been read. -/
def tRing : Queue := { Queue.reset with en := true, qtail := 14, qhead := 2, ctail := 2 }

theorem test_met_RegistersOfTheFunctions :
    let s := tQueue 1 3 tRing
    let x := s.queue 1 3
    let off := tQueue 1 3 { tRing with en := false }
    let pausing := { s with lodge := { s.lodge with fw := .pausing } }
    s.queueOk 1 3 = true ∧ x.en = true ∧ ¬2 ^ x.logsize < ((18 : BitVec 16) - x.qhead).toNat
    ∧ 2 ^ x.logsize < ((19 : BitVec 16) - x.qhead).toNat
    ∧ ((2 : BitVec 16) - x.chead).toNat ≤ (x.ctail - x.chead).toNat ∧ x.posts = []
    ∧ (x.ctail - x.chead).toNat < ((3 : BitVec 16) - x.chead).toNat
    ∧ off.queueOk 1 3 = true ∧ (off.queue 1 3).en = false ∧ (1 : Word).getLsbD 0 = true ∧ (0 : Word).getLsbD 0 = false
    ∧ s.vfOk 1 = true ∧ pausing.vfOk 1 = true ∧ pausing.lodge.fw = .pausing ∧ s.funcOk 1 = true ∧ s.funcOk 0 = true
    ∧ State.reset.barAnswers 1 = false ∧ State.reset.boot.fail = false ∧ State.reset.boot.stage < 8 ∧ s.boot.stage = 8
    ∧ s.booted = true := by decide

theorem test_met_RegistersOfTheFunctions_values :
    let reserved (v : Word) := v &&& ~~~(0xF001 : Word)
    let size (v : Word) := (v.extractLsb' 12 4).toNat
    reserved 0x4001 = 0 ∧ size 0x4001 = 4 ∧ reserved 0xC000 = 0 ∧ size 0xC000 = 12 ∧ reserved 0x4002 ≠ 0 ∧ size 0x3001 < 4 ∧ 12 < size 0xD000
    ∧ 0xFFF8 % 8 = 0 ∧ 0xFFF8 + 8 ≤ bar0Bytes 1 ∧ 0xFFFF8 + 8 ≤ bar0Bytes 0 := by decide

/-- An ATTACH request of VF 1 in its staging memory. -/
theorem test_met_RegistersOfTheFunctions_mailbox :
    let s : State := { tQueue 1 3 tRing with mem := [(0x200000, 0x21), (0x200002, 2)] }
    let f := s.func 1
    let h := (s.stagingRead 1 f.mbaddr 64).getD []
    let body := (s.stagingRead 1 (f.mbaddr + 64) (leAt h 2 2)).getD []
    s.booted = true ∧ f.enabled = true ∧ f.mbBusy = false ∧ (s.stagingRead 1 f.mbaddr 64).isSome = true
    ∧ (s.stagingRead 1 (f.mbaddr + 64) (leAt h 2 2)).isSome = true ∧ body.length = 2 ∧ zeroAt h 9 3 = true ∧ zeroAt h 24 40 = true
    ∧ mbOpen 1 (leAt h 0 2) = true ∧ mbBodyOk (leAt h 0 2) body = true := by decide +kernel

/-- VF 1 with its interface in a TDISP state and a key programmed. -/
def tTdi (x : Tdi) : State :=
  (tQueue 1 3 tRing).onFunc 1 fun f => { f with tdi := x, ide := { f.ide with staged := some 5 } }

theorem test_met_InterfaceSecurityAndReset :
    ∀ x ∈ [Tdi.configUnlocked, .configLocked, .run, .error],
      (tTdi x).funcOk 1 = true ∧ (tTdi x).vfOk 1 = true ∧ ((tTdi x).func 1).ide.staged = some 5 ∧ ((tTdi x).func 1).tdi = x := by decide

/-- The DOE connection and port 3 with a session in force, and the keys of the port used up. -/
def tLinks : State :=
  let c : Spdm := { version := true, caps := true, algorithms := true, transcript := [], handshake := true, session := true }
  { tState [] with
    timebase := 3600000000000
    lodge := { Lodge.reset with spdm := [(3, c), (12, c)] }
    pod := { Pod.reset with
      members := [{ module := 0, digest := 1 }, { module := 5, digest := 2 }]
      ports := [(3, { Link3.reset with peer := some 5, flits := 2 ^ 32, crcFails := 15 })] } }

theorem test_met_SpdmConversations :
    let s := tLinks
    s.lodgeUp = true ∧ s.lodgeFree = true ∧ (s.measurement 4).isSome = true ∧ (s.measurement 0x40).isSome = true ∧ (s.world? 1).isSome = true
    ∧ (s.part 0).vf ≠ 0 ∧ (s.link 3).closed = false ∧ 2 ^ 32 ≤ (s.link 3).flits
    ∧ (s.link 3).keyStart + 3600000000000 ≤ s.timebase
    ∧ ∀ port ∈ [3, 12], (s.spdm port).version = true ∧ (s.spdm port).caps = true ∧ (s.spdm port).algorithms = true
        ∧ (s.spdm port).handshake = true ∧ (s.spdm port).session = true := by decide

/-- World 1 paired with world 2 of module 5, its page at 0x100000 of its own. -/
def tPaired : State :=
  { tLinks with
    worlds := [(1, { tWorld with pairs := [(5, 2)] })]
    owners := [{ base := 0x100000, len := 0x4000, owner := .world 1, home := 0, version := 1 }] }

/-- A flit of module 5 in the order of its link. -/
def tFlit (dest : Nat) (b : FlitBody) : Flit :=
  { crcOk := true, tagOk := true, kind := 0, vc := 0, dest := dest, src := 5, seq := 0, body := b }

theorem test_met_PodLinksAndLaunches_flits :
    let s := tPaired
    let retraining := s.onLink 3 fun l => { l with retraining := true }
    s.linkOpen 3 = true ∧ 15 ≤ (s.link 3).crcFails ∧ s.remoteGrant 5 2 0x100000 0 (.load 8) = some (1, .norm)
    ∧ (tFlit 0 (.request 7 2 0x100000 0 (.load 8))).seq = (s.link 3).rxSeq ∧ s.pod.self = 0
    ∧ (∃ m ∈ s.pod.members, m.module = 5) ∧ (∀ m ∈ s.pod.members, m.module ≠ 9)
    ∧ s.remoteGrant 5 3 0x100000 0 (.load 8) = none ∧ s.lineReady 0x100000 ∧ (retraining.link 3).retraining = true := by decide

/-- A package of digest 9 in world 1. -/
def tPack : Package where
  digest := 9
  root := none
  kernels := [{ digest := 1, entry := 0x10000, code := [0xC8000006], codeDigest := 0 }]
  blocks := []
  blockDigest := 0
  datas := []

def tPackedWorld : State := { tPaired with worlds := [(1, { tWorld with packages := [(1, tPack)] })] }

/-- A reservation of module 5's launch, and a pod launch of this module with target 5. -/
def tReservation (start : Option Nat) : Reservation :=
  { origin := 5, fn := 1, gen := 3, parts := [0], since := 0, t := start, digest := 9, node := [], args := [] }
def tPodLaunch (st : PodSt) : PodLaunch where
  fn := 1
  q := 0
  node := 0
  mask := 0x21
  gen := 3
  digest := 9
  args := []
  st := st
  since := 0
  t := 0
  ready := []
  parts := [(0, .ok, 0)]
  detail := 0
def tPod (st : PodSt) (start : Option Nat) : State :=
  tPackedWorld.onPod fun p => { p with reservations := [tReservation start], launch := some (tPodLaunch st) }

theorem test_met_PodLinksAndLaunches_targets :
    let s := tPod .gathering none
    let due (r : Reservation) := r.t.any (tPod .gathering (some 10)).reached
    tPackedWorld.prepareRefusal 1 3 9 (partsOfMask 1) = none ∧ tPackedWorld.prepareRefusal 1 3 8 (partsOfMask 1) = some .missing
    ∧ (∃ r ∈ s.pod.reservations, r.stands 199999 5 1 3 = true) ∧ s.timebase = 3600000000000
    ∧ (∀ r ∈ s.pod.reservations, r.names 5 1 3 = true → r.t = none → r.since + 200000 ≤ s.timebase) ∧ s.podLocal 5 1 3 = none
    ∧ due (tReservation (some 10)) = true := by decide

theorem test_met_PodLinksAndLaunches_origin :
    let p := tPodLaunch .gathering
    let s := tPod .gathering none
    let r := tPod .running none
    let lost := r.onLink 3 fun l => { l with closed := true }
    s.pod.launch = some p ∧ p.st = .gathering ∧ s.others p.mask = [5] ∧ p.since + 100000 ≤ s.timebase ∧ (∀ e ∈ p.parts, e.1 ≠ 5)
    ∧ r.pod.launch = some (tPodLaunch .running) ∧ (tPodLaunch .running).gen = 3 ∧ Status.ofCode Status.ok.code = .ok
    ∧ lost.linked 5 = false ∧ lost.pod.launch = some (tPodLaunch .running) := by decide

/-! ### Witnesses: graphs and launches -/

theorem test_met_GraphsAndTheirNodes_fetch :
    let one (l : List Byte) := tQueue 1 0 { Queue.reset with en := true, qtail := 1, qbase := 0x1000 } l
    let s := one (leBytes 8 0x1040 ++ leBytes 8 1 ++ leBytes 8 7 ++ List.replicate 40 0 ++ tBytes 0x07 [3])
    s.mayFetch 1 0 = true ∧ (s.readGraph 1 0).2.isSome = true ∧ (one []).mayFetch 1 0 = true ∧ ((one []).readGraph 1 0).2 = none := by
  decide +kernel

/-- SIGNAL and WAIT of event 3 with the value 2, METER of partition 0, a COPY of 8 bytes of host memory. -/
theorem test_met_GraphsAndTheirNodes :
    let ev : List Byte := leBytes 8 3 ++ leBytes 8 2 ++ leBytes 4 1
    let copy : List Byte := leBytes 8 0x1000 ++ leBytes 8 0x2000 ++ leBytes 8 8 ++ [0xFF]
    let meter : List Byte := leBytes 8 0 ++ leBytes 8 0x2000
    let wait := tNode 1 0 0x08 ev
    (tNode 1 0 0x07 ev).runsNode 1 0 0 0x07 (tBytes 0x07 ev) = true ∧ wait.runsNode 1 0 0 0x08 (tBytes 0x08 ev) = true
    ∧ (wait.queue 1 0).graph = some (tNodes (tBytes 0x08 ev)) ∧ leAt (tBytes 0x08 ev) 32 4 = 1
    ∧ (Map.get 0 (wait.func 1).events 3).toNat < leAt (tBytes 0x08 ev) 24 8
    ∧ (tNode 1 0 0x04 meter).runsNode 1 0 0 0x04 (tBytes 0x04 meter) = true ∧ (tNode 1 0 0x04 meter).owns 1 0 = true
    ∧ (tNode 1 0 0x04 meter).lodgeFree = true ∧ ((tNode 1 0 0x04 meter).part 0).st = .running ∧ (tNode 1 0 0x02 copy).noScrub 0 = true
    ∧ (tNode 1 0 0x02 copy).runsNode 1 0 0 0x02 (tBytes 0x02 copy) = true ∧ leAt (tBytes 0x02 copy) 40 1 = 0xFF
    ∧ ((tNode 1 0 0x02 copy).devRead 1 0x1000 8).isSome = true ∧ (tNode 1 0 0x02 copy).devOk 1 0x2000 8 = true := by decide +kernel

theorem test_met_GraphsAndTheirNodes_places : (tNode 1 0 0x04 (leBytes 8 0 ++ leBytes 8 0x2000)).devOk 1 0x2000 5011 = true :=
  State.devOk_host _ _ _ _ (by decide)

theorem test_met_GraphsAndTheirNodes_complete :
    let g : Graph := { tNodes (tBytes 0x07 []) with results := [(0, { status := .ok, cause := 0, detail := 0 })] }
    let s := tQueue 1 0 { Queue.reset with graph := some g }
    (s.queue 1 0).graph = some g ∧ (Map.get? g.results 0).isSome = true ∧ s.walks = true
    ∧ ((g.take 0 { status := .ok, cause := 0, detail := 0 }).noteReady s.timebase).over? = true := by decide +kernel

def State.readies (s : State) (fn q n ty : Nat) (b : List Byte) : Bool :=
  s.readyNode fn q n ty == some b && s.nodeTurn fn q n && s.walks

theorem State.readies_iff {s : State} {fn q n ty : Nat} {b : List Byte} (h : s.readies fn q n ty b = true) : Ready s fn q n ty b := by
  simp only [State.readies, Bool.and_eq_true, beq_iff_eq] at h
  exact ⟨h.1.1, h.1.2, h.2⟩

/-- A node of a type with its bytes from 16 up, ready on a queue. -/
def tReady (fn q ty : Nat) (b : List Byte) (host : List Byte := []) : State :=
  tQueue fn q { Queue.reset with en := true, graph := some ((newGraph 7 [tBytes ty b] 3).noteReady 0) } host

theorem test_met_GraphsAndTheirNodes_ready :
    let ev : List Byte := leBytes 8 3 ++ leBytes 8 2 ++ leBytes 4 1
    (tReady 1 0 0x07 ev).readies 1 0 0 0x07 (tBytes 0x07 ev) = true
    ∧ (tReady 1 0 0x08 ev).readies 1 0 0 0x08 (tBytes 0x08 ev) = true := by decide +kernel

/-- LAUNCH of kernel 0 of package 1 on partition 0 in context 0 with two arguments; the partition is free. -/
def tLaunchBytes (pod : Byte) : List Byte :=
  leBytes 2 1 ++ leBytes 2 0 ++ leBytes 2 1 ++ [0, pod] ++ leBytes 8 0 ++ leBytes 8 0x1000 ++ leBytes 8 0x21 ++ leBytes 4 3 ++ [2]
def tLaunching (pod : Byte) : State :=
  { (if pod = 1 then tNode 1 0 0x01 (tLaunchBytes pod) (leBytes 16 5) else tReady 1 0 0x01 (tLaunchBytes pod) (leBytes 16 5)) with
    worlds := [(1, { tWorld with packages := [(1, tPack)] })], launches := []
    parts := [(0, { Part.reset with vf := 1, st := .ready, ctxs := [(0, tContext)] })], pod := tLinks.pod }

theorem test_met_LaunchesStart_checked :
    ∀ pod ∈ [(0 : Byte), 1],
      let s := tLaunching pod
      let x := launchNodeOf (tBytes 0x01 (tLaunchBytes pod))
      (if pod = 1 then s.runsNode 1 0 0 0x01 (tBytes 0x01 (tLaunchBytes pod)) else s.readies 1 0 0 0x01 (tBytes 0x01 (tLaunchBytes pod)))
        = true ∧ (s.launchCheck 1 x.parts x.ctx x.handle x.kernel).toOption = some 1
      ∧ s.readArgs 1 x = some [5, 0] ∧ x.pod = (pod == 1) ∧ s.launches.isEmpty = true ∧ (s.func 1).tdi ≠ .error
      ∧ (∀ p ∈ x.parts, s.partFree p = true) ∧ s.pod.launch = none ∧ x.targets.testBit s.pod.self = true
      ∧ (∀ m ∈ s.others x.targets, ∃ k ∈ s.pod.members, k.module = m) ∧ s.others x.targets ≠ [] := by decide +kernel

/-- A graph whose LAUNCH has been ready since the start. -/
def tWaiting : Graph := (newGraph 0 [tBytes 0x01 (tLaunchBytes 0)] 3).noteReady 0

/-- Launch 1 starts on partition 0; a graph of VF 1 waits for another. -/
def tStarting : State :=
  { tPackedWorld with
    launches := [(1, { tLaunch with st := .starting }), (2, { tLaunch with st := .waiting })], timebase := 2000000
    funcs := [(1, { Func.reset with enabled := true, queues := [(0, { Queue.reset with graph := some tWaiting })] })] }

theorem test_met_LaunchesStart_cells :
    let s := tStarting
    (Map.get? s.launches 1).any (fun l => l.st == .starting && l.parts.contains 0 && (cellsOfPart 0).contains 95 == false
      && (cellsOfPart 0).contains 0 && l.started.isEmpty && l.handle == 1 && l.kernel == 0)
    ∧ (s.world? 1).any (fun v => (Map.get? v.packages 1).any fun k => k.kernels.length == 1)
    ∧ (s.queue 1 0).graph = some tWaiting ∧ tWaiting.level ≠ 0 ∧ s.overdue tWaiting = true := by decide +kernel

/-! ### Witnesses: worlds and sessions -/

def State.asks (s : State) (fn q n req len resp : Nat) (P : List Byte → List Byte → Bool) : Bool :=
  match s.nodeOf fn q n 0x05 with
  | none => false
  | some b => match s.devRead fn (BitVec.ofNat 64 (leAt b 24 8)) len with
    | none => false
    | some r => s.walks && leAt b 16 1 == req && (req == 2 || req == 3 || leAt b 17 1 == 0)
        && s.devOk fn (BitVec.ofNat 64 (leAt b 32 8)) resp && s.lodgeFree && P b r

theorem State.asks_iff {s : State} {fn q n req len resp : Nat} {P : List Byte → List Byte → Bool}
    (h : s.asks fn q n req len resp P = true) : ∃ b r, Requests s fn q n req b r len resp ∧ P b r = true := by
  unfold State.asks at h
  split at h
  · cases h
  · next b hb =>
    split at h
    · cases h
    · next r hr =>
      simp only [Bool.and_eq_true, beq_iff_eq, Bool.or_eq_true] at h
      obtain ⟨⟨⟨⟨⟨hw, hk⟩, hz⟩, ho⟩, hl⟩, hp⟩ := h
      exact ⟨b, r, ⟨⟨hb, hw⟩, hk, fun h2 h3 => hz.elim (fun e => e.elim (absurd · h2) (absurd · h3)) id, hr, ho, hl⟩, hp⟩

/-- A SESSION node of a request with this record, its ring in staging memory; world 1 has session 1. -/
def tAsk (req b17 : Nat) (r : List Byte) : State :=
  let s := tNode 1 0 0x05 (leBytes 1 req ++ leBytes 7 b17 ++ leBytes 8 0x1000 ++ leBytes 8 0x2000 ++ leBytes 8 0xF000000000000000
    ++ leBytes 4 1 ++ leBytes 4 4096) r
  let x : Session := {
    ident := 0, keys := some [1], reqCtr := 0, repCtr := 0, ring := 0, slots := 1, slotSize := 4096, produced := 0, consumed := 0
    held := [(0, [])], lock := 0 }
  { s with
    worlds := [(1, { tWorld with sessions := [(1, x)], clean := some 0 })], launches := []
    parts := [(0, { Part.reset with vf := 1, st := .ready, ctxs := [(0, tContext)] })] }

theorem test_met_WorldsContextsAndSessions_worlds :
    let policy : List Byte := leBytes 4 0x4C505751 ++ [1, 0, 0, 40] ++ leBytes 4 1000
    let s := tAsk 1 0 policy
    s.asks 1 0 0 1 64 1608 (fun _ r => policyRecordOk r && s.owns 1 (leAt r 6 1)) = true
    ∧ ((List.range 64).find? fun k => (s.world? k).isNone) = some 0
    ∧ (tAsk 5 0 [1]).asks 1 0 0 5 64 0 (fun _ r => zeroAt r 1 63 && leAt r 0 1 == 1) = true
    ∧ ((tAsk 5 0 [1]).ownWorld 1 1).isSome = true := by decide +kernel

theorem test_met_WorldsContextsAndSessions_contexts :
    let s := tAsk 2 0 [1, 1]
    let u := tAsk 3 0 [0]
    s.asks 1 0 0 2 64 1 (fun b r => zeroAt r 2 62 && leAt r 1 1 == 1 && leAt r 0 1 == 1 && (sessionNodeOf b).byte17 == 0) = true
    ∧ (s.ownWorld 1 1).any (fun v => v.st == .opened) ∧ s.owns 1 0 = true ∧ (s.part 0).st ≠ .destroying
    ∧ ((List.range 4).find? fun k => (Map.get? (s.part 0).ctxs k).isNone) = some 1
    ∧ (s.takeBytes 0 (.saveArea 0 1) 0x6000000).isSome = true
    ∧ u.asks 1 0 0 3 64 0 (fun b r => zeroAt r 1 63 && leAt r 0 1 == 0 && (sessionNodeOf b).byte17 == 0) = true
    ∧ u.owns 1 0 = true ∧ (Map.get? (u.part 0).ctxs 0).isSome = true ∧ u.launches.isEmpty = true := by decide +kernel

theorem test_met_WorldsContextsAndSessions_sessions :
    let o := tAsk 6 0 [1]
    let c := tAsk 7 0 [1, 0, 1]
    let k := tAsk 8 0 [1, 0, 1]
    o.asks 1 0 0 6 1640 64 (fun b r => zeroAt r 1 7 && (sessionNodeOf b).ringOk && leAt r 0 1 == 1 && o.ringStaged 1 (sessionNodeOf b)) = true
    ∧ (o.ownWorld 1 1).any (fun v => decide (v.openCount < 8192) && v.freeHandle == some 2 && (v.liveSession 1).isSome)
    ∧ (o.worlds.map fun e => e.2.openCount).sum < 65536
    ∧ c.asks 1 0 0 7 64 0 (fun _ r => zeroAt r 1 1 && zeroAt r 4 60 && leAt r 0 1 == 1 && leAt r 2 2 == 1) = true
    ∧ k.asks 1 0 0 8 1640 64 (fun _ r => zeroAt r 1 1 && zeroAt r 4 4 && leAt r 0 1 == 1 && leAt r 2 2 == 1) = true := by decide +kernel

/-- A bundle of one kernel and of one region of one chunk at 0x20000, whose four pages are mapped OPD. -/
def tBundle : List Byte :=
  leBytes 3 0 ++ leBytes 4 1 ++ leBytes 48 7 ++ leBytes 2 1 ++ leBytes 48 1 ++ [1] ++ leBytes 8 0x20000 ++ leBytes 4 1 ++ leBytes 4 2
    ++ leBytes 4 0
def tSealing : State :=
  { tNode 1 0 0x05 (leBytes 8 4 ++ leBytes 8 0xF000000000000000) with
    mem := writeMem [] 0x200000 ([1, 0, 0, 0] ++ leBytes 4 tBundle.length) ++ writeMem [] 0x200678 tBundle
    worlds := [(1, { tWorld with leaves := tabulate 4 fun i => (0x20000 + 0x4000 * i, tLeaf (0x300000 + 0x4000 * i) .opd) })]
    parts := [(0, { Part.reset with vf := 1, st := .ready })], lodge := { Lodge.reset with roots := [(1, [7])] } }

theorem test_met_WorldsContextsAndSessions_bundle :
    tSealing.asks 1 0 0 4 1656 0 (fun b r => zeroAt r 1 3 && leAt r 0 1 == 1
      && ((tSealing.devRead 1 ((sessionNodeOf b).record + 1656) (leAt r 4 4)).bind bundleOf).any fun x =>
          (tSealing.ownWorld 1 1).any fun v => v.loading.isNone && tSealing.sealOk 1 1 v 0 x) = true := by decide +kernel

theorem test_met_WorldsContextsAndSessions_package :
    let b : List Byte := leBytes 8 0x1000 ++ leBytes 8 16 ++ [1]
    let s := tNode 1 0 0x06 b
    s.runsNode 1 0 0 0x06 (tBytes 0x06 b) = true ∧ s.lodgeFree = true ∧ leAt (tBytes 0x06 b) 32 1 = 1
    ∧ (s.ownWorld 1 1).any (fun v => decide (v.nextHandle ≤ 0xFFFF)) ∧ (s.devRead 1 0x1000 16).isSome = true := by decide +kernel

/-! ### Witnesses: administration and the KV map -/

theorem test_met_AdministrationAndFirmware :
    let create := tNode 0 0 0x10 [1, 1, 13]
    let destroy := tNode 0 0 0x11 [0]
    create.runsNode 0 0 0 0x10 (tBytes 0x10 [1, 1, 13]) = true ∧ create.noScrub 1 = true ∧ (create.part 1).vf = 0
    ∧ create.freeWays 0 13 = some (List.range 13)
    ∧ destroy.runsNode 0 0 0 0x11 (tBytes 0x11 [0]) = true ∧ (destroy.part 0).st = .running ∧ (destroy.part 0).vf ≠ 0
    ∧ ({ destroy with funcs := destroy.funcs.map fun f => (f.1, { f.2 with staging := [] }) } : State).stages 0 = false
    ∧ (∀ item ∈ [(0 : Byte), 1, 2, 3], (tNode 0 0 0x12 [item]).runsNode 0 0 0 0x12 (tBytes 0x12 [item]) = true
        ∧ leAt (tBytes 0x12 [item]) 16 1 = item.toNat) := by decide +kernel

/-- An image is staged, and the node of FW_ACTIVATE runs. -/
def tUpdating (fw : FwSt) : State :=
  let s := tNode 0 0 0x14 []
  { s with lodge := { s.lodge with fw := fw, staged := some { version := 2, digest := 1 }, fwNode := some (0, 0, 0) }
           launches := [(1, { tLaunch with st := .preempted })], timebase := 500000000 }

theorem test_met_AdministrationAndFirmware_firmware :
    let stage : List Byte := leBytes 8 0x1000 ++ leBytes 8 16
    let s := tNode 0 0 0x13 stage
    s.runsNode 0 0 0 0x13 (tBytes 0x13 stage) = true ∧ s.lodgeFree = true ∧ (s.devRead 0 0x1000 16).isSome = true
    ∧ (tUpdating .running).runsNode 0 0 0 0x14 (tBytes 0x14 []) = true ∧ (tUpdating .running).lodgeFree = true
    ∧ (tUpdating .running).lodge.staged.isSome = true
    ∧ (tUpdating .pausing).mayQuiesce = true ∧ (∀ e ∈ (tUpdating .quiesced).launches, e.2.isReady = true)
    ∧ (tUpdating .quiesced).copying = false ∧ (tUpdating .activating).lodge.fwNode = some (0, 0, 0)
    ∧ ((tUpdating .activating).queue 0 0).graph = some (tNodes (tBytes 0x14 [])) := by decide +kernel

/-- World 1 with a map, and a KVALLOC of cell 0 at the head of the queue, or a KVMAP node of VF 1; the record lies at 0x10000. -/
def tKv (op : Nat) (l : List Byte) (kv : Option KvMap) (q : List KvReq) : State :=
  { tNode 1 0 0x03 (leBytes 8 op ++ leBytes 8 0x10000) with
    cells := [(0, { tCell with kvm := [{ op := 0, addr := 0x10000 }] })]
    mem := writeMem [] 0x100000 l, worlds := [(1, { tWorld with kv := kv, kvq := q })] }

def tKvMap : KvMap where
  units := 1
  pool := 0x40000000
  np := 4
  smax := 4
  lmax := 4
  x := 0
  seqs := []
  counts := []
  holds := [(0, 0)]
  free := []
  fresh := 0
  prefixes := []

theorem test_met_MapCommandsPerform :
    let k : KvReq := { src := .cell 0 1, op := some 0, addr := 0x10000, part := 0, ctx := 0 }
    let s := tKv 8 [] (some tKvMap) [k]
    let r := kvRecOf (List.replicate 64 0)
    s.runsNode 1 0 0 0x03 (tBytes 0x03 (leBytes 8 8 ++ leBytes 8 0x10000)) = true
    ∧ kvNodeOk (tBytes 0x03 (leBytes 8 8 ++ leBytes 8 0x10000)) = true ∧ s.ctxWorld 1 0 = some (0, 1)
    ∧ (s.world? 1).any (fun v => v.kvq == [k] && v.kv == some tKvMap) ∧ k.op = some r.op
    ∧ s.normRange 1 0x10000 64 true = true ∧ s.vaBytes 1 0x10000 64 = List.replicate 64 0 ∧ s.lineReady (s.paOf 1 0x10000)
    ∧ paModule (s.paOf 1 0x10000) = s.pod.self ∧ s.paOf 1 0x10000 % 64 = 0 ∧ s.paOf 1 (0x10000 + 32) = s.paOf 1 0x10000 + 32
    ∧ kvZeros (List.replicate 64 0) = true ∧ r.fieldsOk = true ∧ r.listBytes = 0 ∧ r.handlesOk tKvMap.smax [] = true
    ∧ (r.perform tKvMap []).copies = [] ∧ (r.perform tKvMap []).writes.isEmpty = true
    ∧ (s.cell 0).run ≠ .idle ∧ (s.cell 0).ident.launch = 1 := by decide +kernel

/-- A record that makes a map of one page at 0x10000 for one sequence, and the record that ends a map. -/
theorem test_met_MapCommandsPerform_create :
    let l : List Byte := leBytes 4 0x10 ++ leBytes 4 1 ++ leBytes 8 0x10000 ++ leBytes 8 0 ++ leBytes 4 1 ++ leBytes 4 1 ++ leBytes 8 0
      ++ leBytes 4 1 ++ leBytes 20 0
    let s := tKv 0x10 l none []
    let r := kvRecOf l
    s.ctxWorld 1 0 = some (0, 1) ∧ (s.world? 1).any (fun v => v.kvq.isEmpty && v.kv.isNone && v.home == 0)
    ∧ s.vaBytes 1 0x10000 64 = l ∧ s.normRange 1 0x10000 64 true = true ∧ r.op = 0x10 ∧ r.flags = 0 ∧ r.handle = 0 ∧ r.list = 0
    ∧ kvZeros l = true ∧ r.geometryOk = true ∧ s.normRange 1 r.hash (r.count * 16384 * r.units) true = true
    ∧ (s.takeBytes 0 (.kvMeta 1) (pageBytes * kvMetaPages r)).isSome = true
    ∧ (tKv 0x11 ((0x11 : Byte) :: List.replicate 63 0) (some tKvMap) []).vaBytes 1 0x10000 64 = (0x11 : Byte) :: List.replicate 63 0
    ∧ (∀ e ∈ tKvMap.holds, e.2 = 0) := by decide +kernel

/-! ### Witnesses: requests of the mailbox -/

def State.serves (s : State) (fn code : Nat) (r : MbReq) (len : Nat := 0) : Bool :=
  s.lodge.inbox.head? == some r && r.fn == fn && r.code == code && s.lodge.fw != .activating
    && (s.stagingRead r.fn r.addr (64 + len)).isSome

theorem State.serves_iff {s : State} {fn code len : Nat} {r : MbReq} (h : s.serves fn code r len = true) : Serves s fn code r len := by
  simp only [State.serves, Bool.and_eq_true, beq_iff_eq, bne_iff_ne] at h
  exact ⟨h.1.1.1.1, h.1.1.1.2, h.1.1.2, h.1.2, h.2⟩

def tReq (fn code : Nat) (body : List Byte) : MbReq := { fn := fn, addr := 0xF000000000000000, code := code, body := body }

def tFault : FaultRec where
  va := 0x20000
  world := 1
  part := 0
  cell := 0
  kind := 0
  ctx := 0
  posted := true
  time := 0
  holders := []
  nodes := []

/-- The Lodge has this request before it; page 0x10000 may be evicted, and page 0x1C000 is. -/
def tInbox (fn code : Nat) (body : List Byte) : State :=
  let s := tQueue fn 0 Queue.reset
  let leaves := tWorld.leaves ++ [(0x1C000, { tLeaf 0 .norm with evicted := some 1 })]
  { s with
    lodge := { s.lodge with inbox := [tReq fn code body] }, pod := tLinks.pod, faults := [tFault]
    worlds := [(1, { tWorld with leaves := leaves })] }

theorem test_met_MappingRequests_map :
    let b : List Byte := [1, 2, 1, 0, 0, 0, 0, 0] ++ leBytes 8 0x24000 ++ leBytes 8 0x5000000
    let s := tInbox 0 0x01 b
    s.serves 0 0x01 (tReq 0 0x01 b) = true ∧ sizeOf? 0 = some (0, false, 16384) ∧ classOf? 2 = some .fe
    ∧ (paModule 0x5000000 == s.pod.self && isTier (paLocal 0x5000000)) = false
    ∧ (s.world? 1).any (fun v => v.st == .opened && s.pageOk 1 v 0x24000 0x5000000 16384 .fe && v.unmapped 0x24000 16384) := by
  decide +kernel

theorem test_met_MappingRequests_pages :
    let b : List Byte := [1, 0, 1, 0, 0, 0, 0, 0] ++ leBytes 8 0x10000
    let page (s : State) (va : Nat) : Bool := (s.world? 1).any fun v => v.st == .opened && (v.leafAt va).any fun e =>
      !(v.pageOf e).any v.inPool && (v.pageOf e).all fun x => x.2.evicted.isNone && !s.pageBusy 1 x.1 x.2.pa (leafBytes x.2.level)
    (∀ code ∈ [0x02, 0x03], (tInbox 0 code b).serves 0 code (tReq 0 code b) = true ∧ page (tInbox 0 code b) 0x10000 = true)
    ∧ (tInbox 0 0x04 (b ++ leBytes 8 0x3000)).serves 0 0x04 (tReq 0 0x04 (b ++ leBytes 8 0x3000)) = true
    ∧ (((tInbox 0 0x04 (b ++ leBytes 8 0x3000)).world? 1).bind fun v => v.leafAt 0x10000).any fun e =>
        e.2.level == 0 && !e.2.g && e.2.cls == .norm && e.2.evicted.isNone && paModule e.2.pa == 0 := by decide +kernel

theorem test_met_MappingRequests_return :
    let b : List Byte := leBytes 8 1 ++ leBytes 8 0x1C000 ++ leBytes 8 0x3000 ++ leBytes 8 0x5000000
    let s := tInbox 0 0x05 b
    s.serves 0 0x05 (tReq 0 0x05 b) = true
    ∧ (s.world? 1).any (fun v => ((Map.get? v.leaves 0x1C000).bind fun l => l.evicted) == some 1
        && s.pageOk 1 v 0x1C000 0x5000000 pageBytes .norm) := by decide +kernel

/-- Any range of host memory may be named by a packet. -/
theorem test_met_MappingRequests_buffer (code : Nat) (b : List Byte) :
    (tInbox 0 code b).devOk 0 0x3000 16448 = true := State.devOk_host _ _ _ _ (by decide)

theorem test_met_MappingRequests_others :
    let word (n : Nat) : List Byte := leBytes 4 0 ++ leBytes 4 n
    let clear : List Byte := leBytes 8 1 ++ leBytes 8 0x14000 ++ leBytes 8 0x4000
    let nomap : List Byte := leBytes 8 1 ++ leBytes 8 0x20000
    let s := tInbox 0 0x08 nomap
    (tInbox 0 0x06 clear).serves 0 0x06 (tReq 0 0x06 clear) = true
    ∧ (s.world? 1).any (fun v => (v.leafAt 0x14000).any fun e => e.2.cls == .fe && e.2.evicted.isNone)
    ∧ (tInbox 0 0x07 [1, 5, 2]).serves 0 0x07 (tReq 0 0x07 [1, 5, 2]) = true
    ∧ (∃ p ∈ s.pod.ports, p.2.peer = some 5 ∧ p.2.closed = false)
    ∧ s.serves 0 0x08 (tReq 0 0x08 nomap) = true ∧ (s.faults.find? fun f => f.on 1 0x20000 && f.posted) = some tFault
    ∧ (tInbox 0 0x09 (word 1)).serves 0 0x09 (tReq 0 0x09 (word 1)) = true
    ∧ 1 ≤ (s.func 0).staging.length ∧ (s.func 0).stagePart = 0
    ∧ (∀ n ∈ [1200, 2800], (tInbox 0 0x0A (word n)).serves 0 0x0A (tReq 0 0x0A (word n)) = true ∧ leAt (word n) 4 4 = n)
    ∧ (tInbox 0 0x0B [15]).serves 0 0x0B (tReq 0 0x0B [15]) 3072 = true ∧ (s.part 15).vf = 0 := by decide +kernel

/-- A debug request of VF 1 that is attached to context 0 of partition 0, stopped or not; cell 0 has a breakpoint whose token
stands at the head of its link. -/
def tDebug (code : Nat) (body : List Byte) (attached : Bool) (stop : Option Nat) : State :=
  let s := tInbox 1 code body
  { s with
    parts := [(0, { Part.reset with
      vf := 1, st := .running, ctxs := [(0, { tContext with attached := attached })], running := some 1, stop := stop })]
    lodge := { s.lodge with worldEnds := [(1, [7]), (2, [8])] }
    cells := [(0, { tCell with
      bps := [(2, 6, 1, 0 + 1)], fabric := { Fabric.reset with links := [(6, { q := [tTok 7], taken := [] })] } })] }

theorem test_met_DebugRequests_set_up :
    let trace (n : Byte) : List Byte := [0, n, 0, 0, 0, 0, 0, 0] ++ leBytes 8 0xF000000000001000 ++ leBytes 8 0xF000000000000800
      ++ leBytes 4 0xFFFFFF
    let s := tDebug 0x20 (trace 4) false none
    s.serves 1 0x20 (tReq 1 0x20 (trace 4)) = true ∧ leAt (trace 4) 24 4 < 2 ^ 24 ∧ s.owns 1 0 = true
    ∧ (s.stagingRead 1 0xF000000000001000 (64 * 2 ^ 4)).isSome = true ∧ (s.stagingRead 1 0xF000000000000800 8).isSome = true
    ∧ (tDebug 0x21 [0, 0] false none).serves 1 0x21 (tReq 1 0x21 [0, 0]) = true
    ∧ Map.get? (s.part 0).ctxs 0 = some tContext ∧ tContext.debug = true ∧ tContext.attached = false
    ∧ (tDebug 0x29 [] false none).serves 1 0x29 (tReq 1 0x29 []) 1 = true
    ∧ (((s.lodge.worldEnds.filter fun e => e.1 == 1).take 64).flatMap fun e => e.2).length = 1 := by decide +kernel

theorem test_met_DebugRequests_attached :
    let bp : List Byte := [0, 0, 23, 3, 1, 63, 0, 0] ++ leBytes 4 1
    (∀ x ∈ [(0x22, [0, 0]), (0x23, bp), (0x24, [0, 0, 23, 3]), (0x25, [0, 0]), (0x26, [0, 0])],
      let s := tDebug x.1 x.2 true (if x.1 = 0x26 then some 1 else none)
      s.serves 1 x.1 (tReq 1 x.1 x.2) = true ∧ s.owns 1 0 = true ∧ s.runsContext 0 0 = true ∧ s.starts 0 = false
      ∧ (Map.get? (s.part 0).ctxs 0).any (fun x => x.attached && !x.preemptedNote)
      ∧ (s.part 0).stop = if x.1 = 0x26 then some 1 else none)
    ∧ (bpLink bp).isSome = true ∧ leAt bp 8 4 ≠ 0 := by decide +kernel

theorem test_met_DebugRequests_stopped :
    let at_ (space : Byte) : List Byte := [0, 0, 0, space] ++ leBytes 4 0 ++ leBytes 8 24 ++ leBytes 4 8
    let w : List Byte := at_ 5 ++ leBytes 44 0 ++ leBytes 8 5
    let s := tDebug 0x27 (at_ 0) true (some 1)
    s.serves 1 0x27 (tReq 1 0x27 (at_ 0)) 8 = true ∧ (s.debugBytes (debugRefOf 0 (at_ 0))).length = 8
    ∧ s.stoppedIn 0 0 = true ∧ s.debugFails (debugRefOf 0 (at_ 0)) = none
    ∧ (tDebug 0x28 w true (some 1)).serves 1 0x28 (tReq 1 0x28 w) = true ∧ (debugRefOf 0 w).space = 5
    ∧ s.debugFails (debugRefOf 0 w) = none := by decide +kernel

theorem test_met_DebugRequests_breakpoint :
    let s := tDebug 0x22 [0, 0] true none
    let q := ((s.cell 0).link 6).q
    Map.get? (s.cell 0).bps 2 = some (6, 1, 1) ∧ (s.cell 0).enginesRun = true ∧ (∃ k, q.head? = some k ∧ k.kind = .data)
    ∧ 1 + (q.filter fun t => t.kind == .data).length = 1 + 1 ∧ (s.part 0).stop = none ∧ 0 ∈ cellsOfPart 0 ∧ partOfCell 0 = 0
    ∧ s.starts 0 = false := by decide +kernel

/-! ### Witnesses: schedule, scrubs, epochs and errors -/

/-- Launch 1 has held partition 0 for its quantum; a fault waits for a free slot of the ring. -/
def tScheduled (c : Cell) (st : PartSt) (want : Option Nat) : State :=
  { tOne c with
    launches := [(1, { tLaunch with held := 10000000, wantPreempt := want })]
    parts := [(0, { Part.reset with vf := 1, st := st, ctxs := [(0, tContext)], running := some 1 })]
    faults := [{ tFault with posted := false }], fring := { base := 0, logsize := 4, en := true, tail := 15, head := 0 } }

theorem test_met_SchedulingAndScrubs :
    let s := tScheduled tCell .running none
    let want := tScheduled tCell .running (some 2)
    s.faults[0]? = some { tFault with posted := false } ∧ s.fring.en = true ∧ (∀ y ∈ s.faults.take 0, y.posted = true)
    ∧ (s.fring.tail - s.fring.head).toNat < 2 ^ s.fring.logsize
    ∧ (s.part 0).running = some 1 ∧ (Map.get? s.launches 1).any (fun l =>
        l.st == .running && decide (s.policy.quantumUs * 1000 ≤ l.held) && l.wantPreempt.isNone && decide (l.budget ≤ l.used))
    ∧ (Map.get? want.launches 1).any (fun l => l.wantPreempt == some 2 && l.parts == [0])
    ∧ (∀ n ∈ cellsOfPart 0, ∀ h, (want.cell n).run ≠ .saving h)
    ∧ (∀ h, ((tScheduled { tCell with run := .saving h } .running none).cell 0).run = .saving h)
    ∧ (∀ st ∈ [PartSt.scrubbing, .resetting, .destroying], ((tScheduled tCell st none).part 0).st = st) := by decide +kernel

/-- A phase of two threads of which thread 1 waits at block 63, which is bound. -/
def tChoice (parked : BitVec 4096) (passes : List Pass) : Cell :=
  { tCell with
    bound := [(63, oneSite 0)], phase := { Phase.reset with st := .running, n := 2, parked := parked, wait := [(63, 2#4096)] }
    fabric := { Fabric.reset with passes := passes } }

/-- A pass that every site has passed and whose threads are gone. -/
def tGone : Pass := { tPass 17 1 (tRec .f32 0 0 false) 18 with image := { oneSite 0 with sites := [] }, gone := [0, 1], ended := true }

theorem test_met_SchedulingAndScrubs_passes :
    let c := tChoice 0 []
    let e := { tChoice 3 [] with phase := { (tChoice 3 []).phase with wait := [] } }
    c.enginesRun = true ∧ c.phase.st = .running ∧ c.fabric.passes = [] ∧ c.choice = some 63
    ∧ (Map.get? c.bound 63).isSome = true ∧ e.choice = none ∧ (tLinNext.cur.cacheHas (oneSite 0).ident) = true
    ∧ (tChoice 0 [tGone]).fabric.passes = [tGone] ∧ (tChoice 0 [tGone]).fabric.allPassed tGone = true ∧ tGone.image.together = false
    ∧ tGone.inFlight = [] ∧ (tChoice 0 [tGone]).fabric.sq.isEmpty = true := by decide +kernel

/-- World 1 ten seconds on, with a session that holds a reply of epoch 0, a bundle and one slice to sweep. -/
def tTimed (f : World → World) : State :=
  let s := tAsk 7 0 []
  { s with timebase := 10000000000, worlds := s.worlds.map fun e => (e.1, f e.2), owners := tPaired.owners }

def tPolicy : Bundle :=
  { minVersion := 0, floor := 0, chunks := 1, root := 7, kernels := [1], regions := [(0x20000, 1, 2)], interval := 1, digest := 0 }

theorem test_met_EpochsWorldEndsAndErrors_worlds :
    let load : Loading := { bundle := tPolicy, key := 0, prev := .opened, next := 0, last := 0, fn := 1, q := 0, node := 0 }
    let s := tTimed id
    ((tTimed fun v => { v with loading := some load }).world? 1).any (fun v => v.loading == some load)
    ∧ load.last + 10000000000 ≤ s.timebase
    ∧ ((tTimed fun v => { v with st := .ending }).world? 1).any (fun v => v.st == .ending && s.scrubsReady v)
    ∧ (s.world? 1).any (fun v => v.st == .opened && v.sweeping.isEmpty && decide (v.epochStart + v.periodNs ≤ s.timebase))
    ∧ (s.world? 1).any (fun v => (Map.get? v.sessions 1).any fun x => x.held == [(0, [])] && v.clean == some 0
        && decide (x.produced - s.ringConsumed v.vf x < x.slots))
    ∧ ((tTimed fun v => { v with bundle := some tPolicy }).world? 1).any (fun v => v.bundle == some tPolicy && tPolicy.interval != 0
        && decide (v.lastMeter + tPolicy.interval * 1000000000 ≤ s.timebase)) := by decide +kernel

/-- No line of the world lies in slice 3; one of slice 0 has the stamp of a later epoch. -/
theorem test_met_EpochsWorldEndsAndErrors_sweeps :
    let v := fun v : World => { v with epoch := 1, sweeping := [0, 3] }
    let s : State := { tTimed v with stamps := [(0x4000, 5#8 ++ 0#40)], lines := [] }
    (s.world? 1).any (fun v => v.st == .opened && v.sweeping == [0, 3] && v.epoch == 1) = true
    ∧ ((s.sweepSlice 1 0 3).bind fun u => u.world? 1).any (fun v => v.st == .opened) = true ∧ (s.sweepSlice 1 0 0).isNone = true := by
  decide +kernel

theorem test_met_EpochsWorldEndsAndErrors_errors :
    let s : State := { tPaired with cells := [(0, { tCell with
      remote := [{ pa := 0x400000100000, va := 0, since := 0, waits := true, held := false, answer := none }], fabric := { Fabric.reset with links := [(linkOf 17 1, { q := [tTok 7], taken := [] })] } })] }
    let bare : State := { s with owners := [] }
    let dirty : State := { s with lines := [(0x4000, { tTag with dirty := true })] }
    (s.cell 0).run ≠ .idle ∧ ((s.cell 0).link (linkOf 17 1)).q ≠ [] ∧ (∃ r ∈ (s.cell 0).remote, r.late s.timebase = true)
    ∧ (s.part 0).resetOf = none ∧ (Map.get? (s.part 0).ctxs 0).isSome = true
    ∧ Map.get? dirty.lines 0x4000 = some { tTag with dirty := true } ∧ Map.get? bare.lines 0x4000 = some tTag ∧ tTag.dirty = false
    ∧ bare.protectedWorld 0x4000 = none ∧ s.protectedWorld 0x4000 = some 1 ∧ (s.world? 1).any (fun v => v.st == .opened)
    ∧ 0x100000 / 64 = 0x4000 := by decide +kernel

/-! ### Witnesses: the encodings and the step -/

/-- An instruction of the words and one of the records that the statement is about, and a word of an instruction with a dual form. -/
theorem test_met_EncodedInstructionsDecodeToThemselves :
    let r := { tRec .f32 0 0 true with srcB := .n, srcC := .n, imm8 := 0 }
    (Instr.acas 3 10 1 .part .acquire false).wellFormed = true ∧ (encode (.acas 3 10 1 .part .acquire false)).isSome = true
    ∧ (encodeElem (.elemMov r)).isSome = true ∧ (decode 0xC0642802).toOption = some (.fmul 3 4 5 .rne false)
    ∧ (Instr.fmul 3 4 5 .rne false).hasDual = true ∧ (decodeDual 0xC0642802).isSome = true
    ∧ ((encodeElem (.elemMov r)).bind fun x => (decodeElem x).toOption).isSome = true := by decide +kernel

/-- A sequencer with a good word, one with a word that is refused, one outside the code and one with a report due; a site that
fires; and an event. -/
theorem test_met_StepRunsTheScheduledInstruction :
    let c := { tCell with code := [0x00632000, 0x0000001C] }
    let second := c.withSeq fun q => { q with pc := codeBase + 4 }
    let out := c.withSeq fun q => { q with pc := codeBase + 8 }
    let due := c.withSeq fun q => { q with reports := [{ cause := .barrier, addr := 0, info := 0 }] }
    c.run = .running ∧ c.reportDue = false ∧ c.inCode c.seq.pc = true ∧ (decode (c.codeWord c.seq.pc)).toOption = some (.add 3 3 4)
    ∧ second.reportDue = false ∧ second.inCode second.seq.pc = true ∧ (decode (second.codeWord second.seq.pc)).toOption = none
    ∧ out.reportDue = false ∧ out.inCode out.seq.pc = false ∧ due.reportDue = true
    ∧ ((tGrid 1 { tRec .f32 0 0 false with srcB := .n, srcC := .n, imm8 := 0 } 7 9).cur.fabric.passAt 17).any (fun p => (p.rec? 17).any fun x =>
        ((decodeElem (encRec x.op x.r)).toOption).isSome)
    ∧ fetchedKind .vfEnable = false := by decide +kernel

/-- From reset a step answers a next state, and the invariant holds there. -/
theorem test_met_EveryStepKeepsTheInvariant : State.reset.Inv ∧ ∃ t, step State.reset = .next t ∧ t.clock.mhz = 1600 :=
  ⟨{ memory := ⟨rfl, rfl⟩, stage := by decide, unit := by decide, clock := by decide, pinned := by decide, limit := by decide },
   _, rfl, rfl⟩

/-! ### Words written out from the spec -/

/-- The words of the spec's worked programs and its tables of fields, by hand: bits 31 to 26 are the group, s0 is 0. -/
theorem test_words_integer :
    decode 0x00632000 = .ok (.add 3 3 4) ∧ decode 0x04210004 = .ok (.addi 1 1 4) ∧ decode 0x0C600000 = .ok (.ori 3 0 0)
    ∧ decode 0x20827F00 = .ok (.lui 4 2 0x7F00) ∧ decode 0x24812000 = .ok (.movk 4 1 0x2000) := by decide
theorem test_words_branches :
    decode 0x5840FFFD = .ok (.dbnz 2 0xFFFD) ∧ decode 0x5C000000 = .ok (.jmp 0) ∧ decode 0x4460FFFD = .ok (.bne 3 0 0xFFFD) := by decide
theorem test_words_memory :
    decode 0x88810000 = .ok (.ldw 4 1 0) ∧ decode 0xA8610000 = .ok (.stw 3 1 0) ∧ decode 0xB86A08A9 = .ok (.acas 3 10 1 .part .acquire false)
    ∧ decode 0xB40000A2 = .ok (.fence .full .dev) ∧ decode 0xBC0C500D = .ok (.stfe 12 10 .pod) := by decide
theorem test_words_float_and_control :
    decode 0xC0642803 = .ok (.ffma 3 4 5 .rne false) ∧ decode 0xC4600040 = .ok (.ctlrd 3 0x010) ∧ decode 0xC4040041 = .ok (.ctlwr 4 0x010)
    ∧ decode 0xC8000000 = .ok .snop ∧ decode 0xFC000000 = .ok .dual := by decide
theorem test_words_shift_and_call :
    decode 0x14418007 = .ok (.shaImmediate 2 1 7) ∧ decode 0x60000005 = .ok (.call 5) ∧ decode 0x64040001 = .ok (.jrLink 4)
    ∧ decode 0x9CC7FFFC = .ok (.lds 6 7 0xFFFC) ∧ decode 0xC8000031 = .ok (.trap 3) ∧ decode 0xC8020002 = .ok (.waitev 2) := by decide
theorem test_words_engines :
    decode 0xCC432161 = .ok (.sfeed 2 3 4 (some 5)) ∧ decode 0xD0816800 = .ok (.mma 4 false true 13 none)
    ∧ decode 0xD4310000 = .ok (.binit 1 17 0) ∧ decode 0xD8063800 = .ok (.evsetTerm 0 6 7) ∧ decode 0xDB600262 = .ok (.evfire 3 (some 9))
    ∧ decode 0xDCC12800 = .ok (.brun 6 1 5 none) := by decide
theorem test_words_sessions_and_collectives :
    decode 0xE2800001 = .ok (.kvapp 20 none) ∧ decode 0xE4A63801 = .ok (.sseal 5 6 7 none) ∧ decode 0xE8A00001 = .ok (.cbc 5 none)
    ∧ decode 0xE8800003 = .ok (.cwait 4) ∧ decode 0xEC221801 = .ok (.bkred 1 2 3 none) := by decide
/-- Records of the spec's worked images and one by hand from its tables. -/
theorem test_records :
    (decodeElem 0x2278203800010001).toOption.isSome = true ∧ (decodeElem 0x5000200201000100).toOption
      = some (.elemLin { tRec .f32 0 0 false with srcA := .n, srcB := .n, srcC := .n, imm8 := 2, sw := 0x0100, link := 0x0100 })
    ∧ (decodeElem 0x0400000000100010).toOption = none := by decide

end Sys2Proof.Machine
end

