-- ==== Sys2Proof/Proofs/Reset.lean ====
section
/-! The reset state and its invariant. -/

namespace Sys2Proof.Machine

/-! ### The reset state (R15, R17 to R20 and R76) -/

theorem State.inv_reset : State.reset.Inv :=
  { memory := ⟨rfl, rfl⟩, stage := by decide, unit := by decide, clock := by decide, pinned := by decide, limit := by decide }

theorem Cell.reg_reset (r : Reg) : Cell.reset.reg r = 0 := by
  unfold Cell.reg
  split
  · rfl
  · exact Vector.getElem_replicate r.isLt

theorem Cell.shadow_reset (r : Reg) (k : Nat) : Cell.reset.shadow r k = 0 := by
  unfold Cell.shadow
  split
  · rfl
  · show (Vector.replicate 128 0).getD _ 0 = (0 : Word)
    simp only [Vector.getD, Vector.toArray_replicate, Array.getD_eq_getD_getElem?, Array.getElem?_replicate]
    split <;> rfl

/-- Settles O59: the fields of the reset state by their definition, the registers and shadows as what a fresh vector and an
empty list read as. -/
theorem resetLeavesTheSpecifiedState : Obligations.ResetLeavesTheSpecifiedState := by
  unfold Obligations.ResetLeavesTheSpecifiedState
  have parts (p : Nat) : (State.reset.part p).st = .unowned ∧ (State.reset.part p).vf = 0 ∧ (State.reset.part p).running = none :=
    ⟨rfl, rfl, rfl⟩
  have funcs (f : Nat) : (State.reset.func f).enabled = false ∧ (State.reset.func f).mbBusy = false := ⟨rfl, rfl⟩
  have cells (n : Nat) : (State.reset.cell n).run = .idle ∧ (State.reset.cell n).seq.kvec = 0
      ∧ (State.reset.cell n).seq.handlerActive = false ∧ (State.reset.cell n).seq.wb = [] := ⟨rfl, rfl, rfl, rfl⟩
  have memory (a : Nat) : readMem State.reset.mem a = 0 ∧ readMem State.reset.hostMem a = 0 := ⟨rfl, rfl⟩
  exact ⟨rfl, rfl, rfl, rfl, rfl, rfl, rfl, rfl, parts, funcs, cells, fun _ r => ⟨Cell.reg_reset r, Cell.shadow_reset r⟩, memory,
    State.inv_reset⟩

end Sys2Proof.Machine
end

