-- ==== Sys2Proof/Proofs/Invariant.lean ====
section
/-! The invariant of `State.Inv` under every operation of the module, in the order of the model, up to the step. A lemma
`State.Inv.f` says that `f` keeps the invariant: of a function that answers a state, that the state has it; of a meaning, that
the next state has it. -/

namespace Sys2Proof.Machine

section
variable {s t : State}

/-! ### The invariant under updates, branches and folds -/

/-- The invariant reads the memories, the boot status and the clock alone. -/
theorem State.Inv.update {timebase funcs lastVf hyper fring faults parts launches nextLaunch worlds lodge policy pod owners
    opdBacked full stamps lines flows retired quarantined cxl0 cxl1 cxlDown reloading cells out agenda free focus} (h : s.Inv) :
    State.Inv { s with
      timebase, funcs, lastVf, hyper, fring, faults, parts, launches, nextLaunch, worlds, lodge, policy, pod, owners, opdBacked
      full, stamps, lines, flows, retired, quarantined, cxl0, cxl1, cxlDown, reloading, cells, out, agenda, free, focus } :=
  { memory := h.memory, stage := h.stage, unit := h.unit, clock := h.clock, pinned := h.pinned, limit := h.limit }

/-- Memories may change as far as they stay canonical. -/
theorem State.Inv.updateMemory {timebase funcs lastVf hyper fring faults parts launches nextLaunch worlds lodge policy pod mem
    hostMem owners opdBacked full stamps lines flows retired quarantined cxl0 cxl1 cxlDown reloading cells out agenda free focus}
    (h : s.Inv) (hm : Memory.wf mem = true) (hh : Memory.wf hostMem = true) :
    State.Inv { s with
      timebase, funcs, lastVf, hyper, fring, faults, parts, launches, nextLaunch, worlds, lodge, policy, pod, mem, hostMem
      owners, opdBacked, full, stamps, lines, flows, retired, quarantined, cxl0, cxl1, cxlDown, reloading, cells, out, agenda
      free, focus } :=
  { memory := ⟨hm, hh⟩, stage := h.stage, unit := h.unit, clock := h.clock, pinned := h.pinned, limit := h.limit }

theorem State.Inv.ite {c : Prop} {_ : Decidable c} (hs : s.Inv) (ht : t.Inv) : (if c then s else t).Inv := by
  split
  · exact hs
  · exact ht

theorem State.Inv.foldl {α : Type} {f : State → α → State} {l : List α} (h : s.Inv) (hf : ∀ s a, s.Inv → (f s a).Inv) :
    (l.foldl f s).Inv := by
  induction l generalizing s with
  | nil => exact h
  | cons a l ih => exact ih (hf s a h)

/-- The same where the fold carries a value beside the state. -/
theorem State.Inv.foldl_fst {α β : Type} {f : State × β → α → State × β} {l : List α} {x : State × β} (h : x.1.Inv)
    (hf : ∀ x a, x.1.Inv → (f x a).1.Inv) : (l.foldl f x).1.Inv := by
  induction l generalizing x with
  | nil => exact h
  | cons a l ih => exact ih (hf x a h)

theorem State.Inv.of_fst {α : Type} {x : State × α} {a : α} (h : x.1.Inv) (e : x = (t, a)) : t.Inv := by
  rw [e] at h; exact h

/-- The invariant holds of the next state, if an outcome has one. -/
def KeepsInv (o : Host.Outcome State Fault Refusal) : Prop := ∀ t, o = .next t → t.Inv

theorem State.Inv.next (h : s.Inv) : KeepsInv (.next s) := by
  rintro _ ⟨⟩; exact h

theorem KeepsInv.ite {c : Prop} {_ : Decidable c} {a b : Host.Outcome State Fault Refusal} (ha : KeepsInv a) (hb : KeepsInv b) :
    KeepsInv (if c then a else b) := by
  split
  · exact ha
  · exact hb

/-! ### Shared operations -/

theorem State.Inv.setCell {n c} (h : s.Inv) : (s.setCell n c).Inv := h.update

theorem State.Inv.onCell {n f} (h : s.Inv) : (s.onCell n f).Inv := h.setCell

theorem State.Inv.setCur {c} (h : s.Inv) : (s.setCur c).Inv := h.setCell

theorem State.Inv.onCur {f} (h : s.Inv) : (s.onCur f).Inv := h.setCur

theorem State.Inv.setPart {p v} (h : s.Inv) : (s.setPart p v).Inv := h.update

theorem State.Inv.onPart {p f} (h : s.Inv) : (s.onPart p f).Inv := h.setPart

theorem State.Inv.setFunc {f v} (h : s.Inv) : (s.setFunc f v).Inv := h.update

theorem State.Inv.onFunc {n f} (h : s.Inv) : (s.onFunc n f).Inv := h.setFunc

theorem State.Inv.setQueue {f q v} (h : s.Inv) : (s.setQueue f q v).Inv := h.onFunc

theorem State.Inv.onQueue {f q g} (h : s.Inv) : (s.onQueue f q g).Inv := h.setQueue

theorem State.Inv.setWorld {w v} (h : s.Inv) : (s.setWorld w v).Inv := h.update

theorem State.Inv.onWorld {w f} (h : s.Inv) : (s.onWorld w f).Inv := by
  unfold State.onWorld
  split
  · exact h
  · exact h.setWorld

theorem State.Inv.onLodge {f} (h : s.Inv) : (s.onLodge f).Inv := h.update

theorem State.Inv.onPod {f} (h : s.Inv) : (s.onPod f).Inv := h.update

theorem State.Inv.takeFree (h : s.Inv) : (s.takeFree).2.Inv := h.update

theorem State.Inv.emit {o} (h : s.Inv) : (s.emit o).Inv := h.update

theorem State.Inv.signal {fn vec} (h : s.Inv) : (s.signal fn vec).Inv := h.emit

theorem State.Inv.store {a l} (h : s.Inv) : (s.store a l).Inv :=
  h.updateMemory (Memory.wf_writeMem _ _ _ h.memory.1) h.memory.2

theorem State.Inv.devWrite {fn a l} (h : s.Inv) : (s.devWrite fn a l).Inv := by
  induction l generalizing s a with
  | nil => exact h
  | cons b r ih =>
    unfold State.devWrite
    apply ih
    split
    · exact h.updateMemory (Memory.wf_writeMem _ _ _ h.memory.1) h.memory.2
    · exact h.updateMemory h.memory.1 (Memory.wf_writeMem _ _ _ h.memory.2)
    · exact h

theorem State.Inv.onLink {port f} (h : s.Inv) : (s.onLink port f).Inv := h.onPod

theorem State.Inv.transmit {port f} (h : s.Inv) : (s.transmit port f).Inv := h.onLink.emit

theorem State.Inv.sendFlit {f} (h : s.Inv) : (s.sendFlit f).Inv := by
  unfold State.sendFlit
  split
  · exact h.transmit
  · exact h.onPod

theorem State.Inv.sendWaiting (h : s.Inv) : s.sendWaiting.Inv := h.onPod.foldl fun _ _ h => h.sendFlit

theorem State.Inv.tellPod {m msg} (h : s.Inv) : (s.tellPod m msg).Inv := h.sendFlit

theorem State.Inv.hyperAdd {i n} (h : s.Inv) : (s.hyperAdd i n).Inv := .ite h.update.signal h.update

theorem State.Inv.countEvent {p i n} (h : s.Inv) : (s.countEvent p i n).Inv := .ite h.onPart.signal h.onPart

theorem State.Inv.countCell {n i k} (h : s.Inv) : (s.countCell n i k).Inv := h.onPart

theorem State.Inv.flushCell {n} (h : s.Inv) : (s.flushCell n).Inv := h.onPart.foldl fun _ _ h => h.countEvent

theorem State.Inv.meter {p i n} (h : s.Inv) : (s.meter p i n).Inv := h.onPart

theorem State.Inv.meterLost {p i n} (h : s.Inv) : (s.meterLost p i n).Inv := h.onPart

theorem State.Inv.traceOf {p ctx kind cell flags payload} (h : s.Inv) : (s.traceOf p ctx kind cell flags payload).Inv := by
  unfold State.traceOf
  dsimp only
  split
  · exact h.countEvent
  · exact .ite h.countEvent h.devWrite.onPart

theorem State.Inv.trace {p kind cell flags payload} (h : s.Inv) : (s.trace p kind cell flags payload).Inv := h.traceOf

theorem State.Inv.secondary {p ctx cell cause} (h : s.Inv) : (s.secondary p ctx cell cause).Inv := h.traceOf

theorem State.Inv.finishNode {fn q n r} (h : s.Inv) : (s.finishNode fn q n r).Inv := h.onQueue

theorem State.Inv.finishStatus {fn q n st detail} (h : s.Inv) : (s.finishStatus fn q n st detail).Inv := h.finishNode

theorem State.Inv.endHolds {w snap} (h : s.Inv) : (s.endHolds w snap).Inv := by
  unfold State.endHolds
  split
  · exact h
  · exact h.onWorld

theorem State.Inv.settleGens {w} (h : s.Inv) : (s.settleGens w).Inv := h.onWorld

theorem State.Inv.podSettle (h : s.Inv) : s.podSettle.Inv := by
  unfold State.podSettle
  split
  · exact h
  · exact .ite h.onPod.finishNode h

theorem State.Inv.podPart {m st cause detail} (h : s.Inv) : (s.podPart m st cause detail).Inv := h.onPod.podSettle

theorem State.Inv.launchEnded {e st cause detail} (h : s.Inv) : (s.launchEnded e st cause detail).Inv := by
  unfold State.launchEnded
  split
  · exact h.finishNode
  · exact .ite h.podPart h.tellPod

theorem State.Inv.loseMacs {p c} (h : s.Inv) : (s.loseMacs p c).Inv := by
  unfold State.loseMacs
  refine h.foldl fun _ _ h => ?_
  split
  · exact h.meterLost
  · exact h.meterLost
  · exact h

theorem State.Inv.loseFetched {l} (h : s.Inv) : (s.loseFetched l).Inv :=
  h.foldl fun _ _ h => h.foldl fun _ _ h => h.meterLost

theorem State.Inv.loseStreams {c} (h : s.Inv) : (s.loseStreams c).Inv := h.foldl fun _ _ h => h.loseFetched

theorem State.Inv.loseWork {p c} (h : s.Inv) : (s.loseWork p c).Inv := h.meterLost.loseMacs.loseStreams

theorem State.Inv.dropHolders {n threads} (h : s.Inv) : (s.dropHolders n threads).Inv := h.update

theorem State.Inv.discardPart {p} (h : s.Inv) : (s.discardPart p).Inv :=
  h.foldl fun _ _ h => .ite h
    ((((h.loseWork.countCell.flushCell.foldl fun _ _ h => h.endHolds).setCell).dropHolders).settleGens)

theorem State.Inv.settlePart {p} (h : s.Inv) : (s.settlePart p).Inv := .ite h.onPart h

theorem State.Inv.discardLaunch {id} (h : s.Inv) : (s.discardLaunch id).Inv := by
  unfold State.discardLaunch
  split
  · exact h
  · exact (((((h.foldl fun s a h => .ite h.discardPart.onPart h).foldl fun s a h => h.meterLost).foldl fun s a h =>
      h.loseWork.foldl fun s a h => h.endHolds).update).foldl fun s a h => h.settlePart).settleGens

theorem State.Inv.endLaunch {id st cause} (h : s.Inv) : (s.endLaunch id st cause).Inv := by
  unfold State.endLaunch
  split
  · exact h
  · exact h.discardLaunch.launchEnded

theorem State.Inv.endLaunchOf {n cause} (h : s.Inv) : (s.endLaunchOf n cause).Inv := by
  unfold State.endLaunchOf
  dsimp only
  split
  · exact h.onCell
  · apply State.Inv.endLaunch
    refine h.foldl fun _ _ h => ?_
    split
    · exact h
    · exact h.secondary

theorem State.Inv.takeTrap {n cause addr info} (h : s.Inv) : (s.takeTrap n cause addr info).Inv :=
  State.Inv.ite h.endLaunchOf h.setCell

theorem State.Inv.report {n r} (h : s.Inv) : (s.report n r).Inv :=
  State.Inv.ite h.countCell.trace.endLaunchOf h.countCell.trace.onCell

theorem State.Inv.deliverReport {n} (h : s.Inv) : (s.deliverReport n).Inv := by
  unfold State.deliverReport
  dsimp only
  split
  · exact h
  · exact .ite h (.ite h.endLaunchOf h.setCell)

theorem State.Inv.takeLock {v} (h : s.Inv) : (s.takeLock v).2.Inv := h.update

theorem State.Inv.ringWrite {fn v record} (h : s.Inv) : (s.ringWrite fn v record).1.Inv := h.devWrite.devWrite

theorem State.Inv.revoke {w e} (h : s.Inv) : (s.revoke w e).Inv := by
  unfold State.revoke
  split
  · exact h
  · exact (h.foldl fun _ _ h => .ite h.devWrite.devWrite h).onLodge

theorem State.Inv.endResets {hit st cause} (h : s.Inv) : (s.endResets hit st cause).Inv :=
  h.update.foldl fun _ _ h => h.launchEnded

theorem State.Inv.endWorld {w cause cell epoch} (h : s.Inv) : (s.endWorld w cause cell epoch).Inv := by
  unfold State.endWorld
  split
  · exact h
  · refine .ite h ?_
    dsimp only
    refine State.Inv.update (State.Inv.endResets (State.Inv.foldl (State.Inv.setWorld (State.Inv.foldl (State.Inv.update
      (State.Inv.foldl ?_ fun _ _ h => h.foldl fun _ _ h => h.finishNode)) fun _ _ h => ?_)) fun _ _ h => h.endLaunch))
    · have h' : (if cause = Cause.integ.code then s.revoke w epoch else s).Inv := .ite h.revoke h
      split
      · exact h'.finishNode
      · exact h'
    · split
      · exact h.finishNode
      · exact h

theorem State.Inv.endWorldOf {n cause} (h : s.Inv) : (s.endWorldOf n cause).Inv := h.endWorld

theorem State.Inv.scrubCells {p} (h : s.Inv) : (s.scrubCells p).Inv := h.foldl fun _ _ h => h.onCell

/-! ### Operands -/

theorem State.Inv.trapNow {du cause addr} (h : s.Inv) : KeepsInv (trapNow s du cause addr) := h.takeTrap.next

/-! ### Memory accesses -/

theorem State.Inv.stampWrite {w line} (h : s.Inv) : (s.stampWrite w line).Inv := by
  unfold State.stampWrite
  split
  · exact h
  · exact h.update.setWorld

theorem State.Inv.foldRead {w line} (h : s.Inv) (e : s.foldRead w line = some t) : t.Inv := by
  unfold State.foldRead at e
  split at e
  · cases e; exact h
  · dsimp only at e
    split at e
    · cases e; exact h.setWorld
    · split at e
      · cases e; exact h.setWorld
      · cases e

theorem State.Inv.countFlit {src dst} (h : s.Inv) : (s.countFlit src dst).Inv := h.update

theorem State.Inv.countAccess {src pa} (h : s.Inv) : (s.countAccess src pa).Inv := .ite h.countFlit.countFlit h

theorem State.Inv.countLine {line fill} (h : s.Inv) : (s.countLine line fill).Inv :=
  State.Inv.ite h.countFlit.countFlit h.countFlit

theorem State.Inv.evictLine {line} (h : s.Inv) : (s.evictLine line).Inv := by
  unfold State.evictLine
  split
  · exact h
  · dsimp only
    split
    · apply State.Inv.meter
      split
      · exact h.update.countLine.stampWrite
      · exact h.update.countLine
    · split
      · exact h.update.countLine.stampWrite
      · exact h.update.countLine

theorem State.Inv.endUncached (h : s.Inv) : s.endUncached.Inv := h.foldl fun _ _ h => h.evictLine

theorem State.Inv.placeLine {p line tag ctx} (h : s.Inv) : (s.placeLine p line tag ctx).Inv := by
  unfold State.placeLine
  dsimp only
  split
  · split
    · exact h.update
    · refine State.Inv.update ?_
      split
      · exact h.update.evictLine
      · exact h.update
  · refine .ite h.update ?_
    split
    · exact h.stampWrite
    · exact h

theorem State.Inv.touchLine {p ctx w cls line write spec} (h : s.Inv)
    (e : s.touchLine p ctx w cls line write spec = some t) : t.Inv := by
  unfold State.touchLine at e
  dsimp only at e
  split at e
  · cases e; exact h
  · split at e
    · cases e; exact h.update
    · obtain ⟨u, hu, rfl⟩ := Option.map_eq_some_iff.1 e
      have h' : u.Inv := by
        split at hu
        · exact h.countLine.foldRead hu
        · cases hu; exact h.countLine
      exact (State.Inv.ite h' h'.meter.meter).placeLine

theorem State.Inv.addFault {n kind va thread} (h : s.Inv) : (s.addFault n kind va thread).Inv :=
  State.Inv.ite h.countCell.update h.countCell.update

theorem State.Inv.countDenied {n answered} (h : s.Inv) : (s.countDenied n answered).Inv := .ite h h.countCell

theorem State.Inv.heldOutcome {n word kind va} (h : s.Inv) : (s.heldOutcome n word kind va).Inv :=
  State.Inv.ite h.countDenied.onCell.takeTrap (.ite h h.addFault)

theorem State.Inv.sendRemote {n l va waits op} (h : s.Inv) : (s.sendRemote n l va waits op).Inv := h.onCell.meter.sendFlit

theorem State.Inv.postRemote {n cls pa op} (h : s.Inv) : (s.postRemote n cls pa op).Inv := .ite h h.sendRemote

theorem State.Inv.remoteTurn {n l} (h : s.Inv) : (s.remoteTurn n l).1.Inv := by
  unfold State.remoteTurn
  dsimp only
  split
  · dsimp only
    exact h
  · split
    · dsimp only
      exact h.foldl fun _ _ h => .ite h.sendRemote h
    · split
      · dsimp only
        exact (h.foldl fun _ _ h => .ite h.sendRemote h).onCell
      · dsimp only
        exact (h.foldl fun _ _ h => .ite h.sendRemote h).onCell

theorem State.Inv.withReplies {n l word op k} (h : s.Inv) (hk : ∀ s, s.Inv → KeepsInv (k s)) : KeepsInv
    (s.withReplies n l word op k) := by
  unfold State.withReplies
  split
  · exact (h.remoteTurn.of_fst ‹_›).next
  · exact hk _ (h.remoteTurn.of_fst ‹_›)
  · exact (((h.remoteTurn.of_fst ‹_›)).takeTrap).next

theorem State.Inv.withReply {n l va word op k} (h : s.Inv) (hk : ∀ s, s.Inv → KeepsInv (k s)) : KeepsInv
    (s.withReply n l va word op k) :=
  h.withReplies (fun _ h => hk _ h)

theorem State.Inv.answerRemote {dest cell pa data refused} (h : s.Inv) : (s.answerRemote dest cell pa data refused).Inv :=
  (State.Inv.ite h h.meter).sendFlit

theorem State.Inv.withChk {α : Type} {n word kind} {r : Chk α} {k} (h : s.Inv) (hk : ∀ a, KeepsInv (k a)) :
    KeepsInv (s.withChk n word kind r k) := by
  unfold State.withChk
  split
  · exact hk _
  · exact h.takeTrap.next
  · exact h.heldOutcome.next
  · exact h.endWorldOf.next

theorem State.Inv.zeroRange {pa len} (h : s.Inv) : (s.zeroRange pa len).Inv :=
  h.updateMemory (Memory.wf_filter _ _ h.memory.1) h.memory.2

theorem State.Inv.dropRange {pa len} (h : s.Inv) : (s.dropRange pa len).Inv := h.update

theorem State.Inv.freeRange {pa len} (h : s.Inv) : (s.freeRange pa len).Inv := h.dropRange.zeroRange.update

theorem State.Inv.endContext {p ctx} (h : s.Inv) : (s.endContext p ctx).Inv := by
  unfold State.endContext
  exact ((h.foldl fun s a h => h.evictLine).foldl fun s a h => h.freeRange).onPart

theorem State.Inv.machineCheck {p ctx} (h : s.Inv) : (s.machineCheck p ctx).Inv :=
  State.Inv.ite h (.ite h.secondary
    (((h.hyperAdd.signal.foldl fun _ _ h => .ite h.secondary h).foldl fun _ _ h => .ite
      (h.endLaunch.foldl fun _ _ h => h.scrubCells) h.endLaunch).endContext))

theorem State.Inv.checkCell {n} (h : s.Inv) : (s.checkCell n).Inv := by
  unfold State.checkCell
  dsimp only
  refine .ite ?_ h.machineCheck
  split
  · exact h
  · exact h.secondary

theorem State.Inv.writeCells {n l} (h : s.Inv) : (s.writeCells n l).Inv := by
  unfold State.writeCells
  refine h.foldl fun s e h => ?_
  have h' : ({ s with mem := writeMem s.mem e.1 [e.2] } : State).Inv :=
    h.updateMemory (Memory.wf_writeMem _ _ _ h.memory.1) h.memory.2
  dsimp only
  split
  · exact h'
  · exact h'.onCell

theorem State.Inv.touchFor {p ctx w cls pa write spec} (h : s.Inv) : (s.touchFor p ctx w cls pa write spec).Inv := by
  unfold State.touchFor
  refine .ite h ?_
  refine .ite h.endWorld ?_
  refine .ite h.machineCheck ?_
  split
  · exact h.touchLine ‹_›
  · exact h.endWorld

theorem State.Inv.touchAs {p ctx w cls pa write spec} (h : s.Inv) : (s.touchAs p ctx w cls pa write spec).Inv :=
  State.Inv.ite h.touchFor.countEvent h.touchFor

theorem State.Inv.touch {n cls pa write spec} (h : s.Inv) : (s.touch n cls pa write spec).Inv :=
  State.Inv.ite h.countAccess.touchFor.countCell h.countAccess.touchFor

theorem State.Inv.performWb {n e} (h : s.Inv) : (s.performWb n e).Inv := by
  unfold State.performWb
  split
  · exact ((h.foldl fun _ _ h => h.postRemote.touch).writeCells).endUncached
  · exact h.onFunc

theorem State.Inv.performOldest {n} (h : s.Inv) : (s.performOldest n).Inv := by
  unfold State.performOldest
  split
  · exact h
  · exact h.onCell.performWb

theorem State.Inv.drain {n} (h : s.Inv) : (s.drain n).Inv := h.foldl fun _ _ h => h.performOldest

theorem State.Inv.buffer {n e} (h : s.Inv) : (s.buffer n e).Inv := by
  unfold State.buffer
  exact (State.Inv.ite h.performOldest h).onCell

theorem State.Inv.l1Fill {n line} (h : s.Inv) : (s.l1Fill n line).Inv := by
  unfold State.l1Fill
  exact h.update.onCell

theorem State.Inv.acquire {n sc} (h : s.Inv) : (s.acquire n sc).Inv := by
  unfold State.acquire
  split
  · exact h
  · exact h.onCell

theorem State.Inv.readNorm {n l size} (h : s.Inv) : (s.readNorm n l size).1.Inv := by
  unfold State.readNorm
  dsimp only
  split
  · exact h
  · split
    · exact .ite h.drain h
    · exact .ite ((((State.Inv.ite h.drain h).touch).countCell).l1Fill) (((State.Inv.ite h.drain h).touch).countCell)

theorem State.Inv.readLoc {n l size} (h : s.Inv) : (s.readLoc n l size).1.Inv := by
  unfold State.readLoc
  dsimp only
  split
  · exact .ite h.drain.acquire h.drain
  · exact h.readNorm

theorem State.Inv.bankRmw {n pa size writes f} (h : s.Inv) : (s.bankRmw n pa size writes f).1.Inv := by
  unfold State.bankRmw
  dsimp only
  exact h.touch.store.endUncached.onCell

theorem State.Inv.setFull {pa b} (h : s.Inv) : (s.setFull pa b).Inv := h.update

theorem State.Inv.wake {pa} (h : s.Inv) : (s.wake pa).Inv := h.update.onPod.foldl fun _ _ h => h.answerRemote

theorem State.Inv.fillWord {n pa v} (h : s.Inv) : (s.fillWord n pa v).1.Inv := by
  unfold State.fillWord
  dsimp only
  split
  · exact h.touch.endUncached
  · exact h.touch.store.setFull.wake.endUncached

theorem State.Inv.settle {f} (h : s.Inv) : (s.settle f).Inv := .ite h h.onCur

/-! ### Resets, boot, power and clocks -/

theorem State.Inv.restart (h : s.Inv) : s.restart.Inv := State.inv_reset.updateMemory h.memory.1 h.memory.2

theorem State.Inv.bootWork {stage} (h : s.Inv) : (s.bootWork stage).Inv := by
  have hm := State.memWf_bootWork s stage h.memory
  unfold State.bootWork at hm ⊢
  split
  · exact h.update
  · exact h.updateMemory hm.1 hm.2
  · exact h

theorem State.Inv.execBootStageComplete {failed} (h : s.Inv) : KeepsInv (execBootStageComplete failed s) := by
  unfold Machine.execBootStageComplete
  dsimp only
  split
  · exact h.next
  · next hb =>
    obtain ⟨hlo, -⟩ := h.stage
    rw [not_or] at hb
    obtain ⟨hf, hs⟩ := hb
    split
    · split
      · next hu =>
        refine (State.Inv.signal ?_).next
        exact { memory := h.memory, stage := h.stage, unit := hu, clock := h.clock, pinned := h.pinned, limit := h.limit }
      · exact h.next
    · have hw : (s.bootWork s.boot.stage).Inv := h.bootWork
      have hunit := h.unit
      rw [if_neg hf] at hunit
      refine (State.Inv.signal ?_).next
      exact { memory := hw.memory, stage := ⟨by simp, by simp; omega⟩, unit := by simp [hf, hunit], clock := hw.clock
              pinned := hw.pinned, limit := hw.limit }

/-- Of the module only what counters, meters, traces and signals write differs: the hypervisor counters, the partitions, both
memories and the outputs. -/
def OnlyLogs (s t : State) : Prop :=
  t = { s with hyper := t.hyper, parts := t.parts, mem := t.mem, hostMem := t.hostMem, out := t.out }

theorem OnlyLogs.refl (s : State) : OnlyLogs s s := rfl

theorem OnlyLogs.trans {u : State} (h : OnlyLogs s t) (h' : OnlyLogs t u) : OnlyLogs s u :=
  Eq.trans h' (by rw [h])

theorem OnlyLogs.ite {c : Prop} {_ : Decidable c} {u : State} (h : OnlyLogs s t) (h' : OnlyLogs s u) :
    OnlyLogs s (if c then t else u) := by
  split
  · exact h
  · exact h'

theorem OnlyLogs.foldl {α : Type} {f : State → α → State} (hf : ∀ s a, OnlyLogs s (f s a)) (l : List α) (s : State) :
    OnlyLogs s (l.foldl f s) := by
  induction l generalizing s with
  | nil => exact .refl s
  | cons a l ih => exact (hf s a).trans (ih _)

theorem State.onPart_onlyLogs (s : State) (p : Nat) (f : Part → Part) : OnlyLogs s (s.onPart p f) := rfl

theorem State.hyperAdd_onlyLogs (s : State) (i n : Nat) : OnlyLogs s (s.hyperAdd i n) := .ite rfl rfl

theorem State.countEvent_onlyLogs (s : State) (p i n : Nat) : OnlyLogs s (s.countEvent p i n) := .ite rfl rfl

/-- A write to a function's memory changes the two memories alone. -/
theorem State.devWrite_frame (fn : Nat) (l : List Byte) (s : State) (a : Word) :
    s.devWrite fn a l = { s with mem := (s.devWrite fn a l).mem, hostMem := (s.devWrite fn a l).hostMem } := by
  induction l generalizing s a with
  | nil => rfl
  | cons b r ih =>
    unfold State.devWrite
    dsimp only
    rw [ih]
    split <;> rfl

theorem State.devWrite_onlyLogs (fn : Nat) (l : List Byte) (s : State) (a : Word) : OnlyLogs s (s.devWrite fn a l) := by
  rw [State.devWrite_frame fn l s a]
  rfl

theorem State.traceOf_onlyLogs (s : State) (p ctx kind cell flags : Nat) (l : List Byte) :
    OnlyLogs s (s.traceOf p ctx kind cell flags l) := by
  unfold State.traceOf
  dsimp only
  split
  · exact s.countEvent_onlyLogs _ _ _
  · exact .ite (s.countEvent_onlyLogs _ _ _) ((s.devWrite_onlyLogs _ _ _).trans (State.onPart_onlyLogs _ _ _))

theorem State.trace_onlyLogs (s : State) (p kind cell flags : Nat) (l : List Byte) :
    OnlyLogs s (s.trace p kind cell flags l) := s.traceOf_onlyLogs _ _ _ _ _ _

/-- A clock step sets the clock and leaves its marks in counters and traces (R15). -/
theorem State.clockTo_onlyLogs (s : State) (mhz : Nat) :
    OnlyLogs { s with clock := { s.clock with mhz := mhz } } (s.clockTo mhz) := by
  unfold State.clockTo
  dsimp only
  split
  · next e => subst e; exact .refl s
  · exact (State.hyperAdd_onlyLogs _ _ _).trans (.foldl (fun s p => s.trace_onlyLogs _ _ _ _ _) _ _)

@[simp] theorem State.clockTo_clock (s : State) (mhz : Nat) : (s.clockTo mhz).clock = { s.clock with mhz := mhz } := by
  rw [s.clockTo_onlyLogs mhz]

theorem State.Inv.clockTo {mhz} (h : s.Inv) (hm : 800 ≤ mhz ∧ mhz ≤ 1600 ∧ mhz % 100 = 0)
    (hp : s.clock.pinned = true → mhz = 800) : (s.clockTo mhz).Inv := by
  have h' : ({ s with clock := { s.clock with mhz := mhz } } : State).Inv :=
    { memory := h.memory, stage := h.stage, unit := h.unit, clock := hm, pinned := hp, limit := h.limit }
  exact .ite h (h'.hyperAdd.foldl fun _ _ h => h.trace)

theorem State.Inv.execPowerSample {avgW} (h : s.Inv) : KeepsInv (execPowerSample avgW s) := by
  unfold Machine.execPowerSample
  split
  · next hc =>
    simp only [Bool.and_eq_true, Bool.not_eq_true', decide_eq_true_eq] at hc
    obtain ⟨⟨⟨-, hp⟩, -⟩, hf⟩ := hc
    obtain ⟨-, hhi, hstep⟩ := h.clock
    exact (h.clockTo ⟨by omega, by omega, by omega⟩ fun e => by simp [hp] at e).next
  · exact h.next

theorem State.Inv.execClockRaiseStep {avgW} (h : s.Inv) : KeepsInv (execClockRaiseStep avgW s) := by
  unfold Machine.execClockRaiseStep
  split
  · next hc =>
    simp only [Bool.and_eq_true, Bool.not_eq_true', decide_eq_true_eq] at hc
    obtain ⟨⟨⟨-, hp⟩, -⟩, hc⟩ := hc
    obtain ⟨hlo, -, hstep⟩ := h.clock
    exact (h.clockTo ⟨by omega, by omega, by omega⟩ fun e => by simp [hp] at e).next
  · exact h.next

theorem State.Inv.execThermalThrottle (h : s.Inv) : KeepsInv (execThermalThrottle s) := by
  unfold Machine.execThermalThrottle
  refine .ite ?_ h.next
  have ht := h.clockTo (mhz := 800) (by decide) fun _ => rfl
  exact State.Inv.next { memory := ht.memory, stage := ht.stage, unit := ht.unit, clock := ht.clock, limit := ht.limit
                         pinned := fun _ => by simp }

theorem State.Inv.execThermalThrottleRelease (h : s.Inv) : KeepsInv (execThermalThrottleRelease s) :=
  State.Inv.next { memory := h.memory, stage := h.stage, unit := h.unit, clock := h.clock, limit := h.limit, pinned := nofun }

theorem State.Inv.execVfEnable (h : s.Inv) : KeepsInv (execVfEnable s) :=
  KeepsInv.ite ((h.foldl fun _ _ h => .ite h h.setFunc).next) h.next

/-! ### Scalar instructions -/

theorem State.Inv.writeResult {d v} (h : s.Inv) : KeepsInv (writeResult s d v) := h.onCur.next

theorem State.Inv.opr {d a b f} (h : s.Inv) : KeepsInv (opr s d a b f) := h.writeResult

theorem State.Inv.opi {d a f} (h : s.Inv) : KeepsInv (opi s d a f) := h.writeResult

theorem State.Inv.selReg {du d a b} (h : s.Inv) : KeepsInv (selReg s du d a b) :=
  KeepsInv.ite h.onCur.next (.ite h.onCur.next h.onCur.next)

theorem State.Inv.jumpTo {t link} (h : s.Inv) : KeepsInv (jumpTo s t link) := by
  unfold Machine.jumpTo
  split
  · exact h.trapNow
  · exact h.onCur.next

theorem State.Inv.branchIf {taken o} (h : s.Inv) : KeepsInv (branchIf s taken o) := .ite h.jumpTo h.onCur.next

theorem State.Inv.execDbnz {a o} (h : s.Inv) : KeepsInv (execDbnz a o s) := .ite h.jumpTo h.onCur.next

/-! ### Floating-point instructions -/

theorem State.Inv.fpoWrite {du d v tan} (h : s.Inv) : KeepsInv (fpoWrite s du d v tan) := h.onCur.next

theorem State.Inv.fpoAdd {du d a b r w neg} (h : s.Inv) : KeepsInv (fpoAdd s du d a b r w neg) := by
  unfold Machine.fpoAdd
  exact h.fpoWrite

theorem State.Inv.fpoMul {du d a b r w} (h : s.Inv) : KeepsInv (fpoMul s du d a b r w) := by
  unfold Machine.fpoMul
  exact h.fpoWrite

theorem State.Inv.fpoFma {du d a b r w} (h : s.Inv) : KeepsInv (fpoFma s du d a b r w) := by
  unfold Machine.fpoFma
  exact h.fpoWrite

theorem State.Inv.fpoMinMax {du d a b w isMax} (h : s.Inv) : KeepsInv (fpoMinMax s du d a b w isMax) := by
  unfold Machine.fpoMinMax
  exact h.fpoWrite

theorem State.Inv.fpoCmp {du d a b k w} (h : s.Inv) : KeepsInv (fpoCmp s du d a b k w) := by
  unfold Machine.fpoCmp
  exact h.fpoWrite

theorem State.Inv.fpoSqrt {du d a r w} (h : s.Inv) : KeepsInv (fpoSqrt s du d a r w) := by
  unfold Machine.fpoSqrt
  exact h.fpoWrite

theorem State.Inv.fpoRcp {du d a r w} (h : s.Inv) : KeepsInv (fpoRcp s du d a r w) := by
  unfold Machine.fpoRcp
  exact h.fpoWrite

theorem State.Inv.fpoCvt {du d a k r w} (h : s.Inv) : KeepsInv (fpoCvt s du d a k r w) := by
  unfold Machine.fpoCvt
  exact h.fpoWrite

/-! ### Pages and the taking of free pages -/

theorem State.Inv.flushRange {pa len} (h : s.Inv) : (s.flushRange pa len).Inv := h.foldl fun _ _ h => h.evictLine

theorem State.Inv.stampRange {pa len} (h : s.Inv) : (s.stampRange pa len).Inv := by
  unfold State.stampRange
  refine h.foldl fun _ _ h => ?_
  split
  · exact h.stampWrite
  · exact h

theorem State.Inv.foldRange {pa len} (h : s.Inv) : (s.foldRange pa len).Inv := by
  unfold State.foldRange
  refine h.foldl fun _ _ h => ?_
  split
  · split
    · exact h.foldRead ‹_›
    · exact h.endWorld
  · exact h

/-! The equation lemmas of `takeUnits` and `takeRuns` cannot be had: to check one, the kernel runs the search for a free page
through its addresses. So the two proofs below replace the search by a variable before they open the recursion. -/

/-- A taker of pages keeps the invariant. -/
def TakerKeepsInv {α : Type} (x : State → Option (State × α)) : Prop := ∀ s t a, s.Inv → x s = some (t, a) → t.Inv

theorem takeUnits_keepsInv (p unit : Nat) (o : Owner) (k : Nat) : TakerKeepsInv fun s => s.takeUnits p unit o k := by
  have search : ∃ f, f = State.freeUnit := ⟨_, rfl⟩
  obtain ⟨f, hf⟩ := search
  delta State.takeUnits State.takeUnits._f
  rw [← hf]
  induction k with
  | zero => intro s t l h e; cases e; exact h
  | succ k ih =>
    intro s t l h e
    dsimp only at e
    split at e
    · cases e
    split at e
    · cases e
    · next hx => cases e; exact ih _ _ _ h.update hx

theorem State.Inv.takeUnits {p unit o k l} (h : s.Inv) (e : s.takeUnits p unit o k = some (t, l)) : t.Inv :=
  takeUnits_keepsInv p unit o k s t l h e

theorem takeRuns_keepsInv (p : Nat) (o : Owner) (k n : Nat) : TakerKeepsInv fun s => s.takeRuns p o k n := by
  have search : ∃ f, f = State.freeUnit := ⟨_, rfl⟩
  obtain ⟨f, hf⟩ := search
  delta State.takeRuns State.takeRuns._f
  rw [← hf]
  induction k generalizing n with
  | zero =>
    intro s t l h e
    change (if n = 0 then some (s, []) else none) = some (t, l) at e
    split at e
    · cases e; exact h
    · cases e
  | succ k ih =>
    intro s t l h e
    dsimp only at e
    split at e
    · cases e; exact h
    split at e
    · cases e
    split at e
    · cases e
    · next hx => cases e; exact ih _ _ _ _ h.update hx

theorem State.Inv.takeBytes {p o n l} (h : s.Inv) (e : s.takeBytes p o n = some (t, l)) : t.Inv :=
  takeRuns_keepsInv p o _ n s t l h e

theorem State.Inv.dropLeaf {w e} (h : s.Inv) : (s.dropLeaf w e).Inv := .ite h.onWorld h.onWorld.freeRange

theorem State.Inv.zeroPart {e r} (h : s.Inv) : (s.zeroPart e r).Inv := h.flushRange.foldRange.zeroRange.stampRange

theorem State.Inv.sealingFails {w r} (h : s.Inv) : (s.sealingFails w r).Inv := by
  unfold State.sealingFails
  split
  · exact h
  · split
    · exact h
    · exact ((h.foldl fun s a h => h.foldl fun s a h => .ite h
        (State.Inv.ite h.zeroPart h.flushRange.foldRange.dropLeaf)).onWorld).finishNode

theorem State.Inv.writeChunk {n w va l} (h : s.Inv) : (s.writeChunk n w va l).Inv :=
  h.foldl fun _ _ h => .ite h h.touch.store.update

theorem State.Inv.sealDone {w} (h : s.Inv) : (s.sealDone w).Inv := by
  unfold State.sealDone
  split
  · exact h
  · split
    · exact h
    · exact h.setWorld.settleGens.finishStatus

theorem State.Inv.sunsealChunk {n chunk} (h : s.Inv) : (s.sunsealChunk n chunk).1.Inv := by
  unfold State.sunsealChunk
  dsimp only
  split
  · exact h
  · split
    · exact h
    · split
      · exact .ite h.writeChunk.onWorld.sealDone h.writeChunk.onWorld
      · exact h.sealingFails

/-! ### Streams -/

theorem State.Inv.takeHolds {w snap} (h : s.Inv) : (s.takeHolds w snap).Inv := by
  unfold State.takeHolds
  split
  · exact h
  · exact h.onWorld

theorem State.Inv.release {n} (h : s.Inv) : (s.release n).Inv := h.drain

theorem State.Inv.streamOp {du op x y z gate} (h : s.Inv) : KeepsInv (streamOp s du op x y z gate) :=
  KeepsInv.ite h.trapNow
    (KeepsInv.ite h.next (.ite h.release.next (h.release.withChk (fun _ => h.release.takeHolds.onCur.next))))

theorem State.Inv.execSunseal {x y z gate} (h : s.Inv) : KeepsInv (execSunseal x y z gate s) := by
  unfold Machine.execSunseal
  dsimp only
  refine .ite h.trapNow ?_
  refine .ite h.next ?_
  refine .ite h.release.next ?_
  refine h.release.withChk (fun _ => ?_)
  split
  · exact h.release.onCur.next
  · exact h.release.onCur.next
  · exact h.release.onCur.next

theorem State.Inv.endStream {n st x} (h : s.Inv) : (s.endStream n st x).Inv := h.endHolds.onCell.settleGens

theorem State.Inv.cutStream {n st x} (h : s.Inv) : (s.cutStream n st x).Inv := h.loseFetched.onCell.endStream

theorem State.Inv.streamFault {n st x va} (h : s.Inv) : (s.streamFault n st x va).Inv :=
  State.Inv.ite h.countDenied.onCell.cutStream.report (.ite h h.addFault)

theorem State.Inv.refuseStream {n st x va} (h : s.Inv) : (s.refuseStream n st x va).Inv := h.cutStream.report

theorem State.Inv.requestTurn {n l} (h : s.Inv) : (s.requestTurn n l).1.Inv := h.remoteTurn

theorem State.Inv.touchPlaces {n cls l} (h : s.Inv) : (s.touchPlaces n cls l).Inv := h.foldl fun _ _ h => h.touch

theorem State.Inv.readEntry {n st x p} (h : s.Inv) : (s.readEntry n st x p).Inv := by
  unfold State.readEntry
  refine .ite h.streamFault ?_
  refine .ite h ?_
  split
  · exact h.requestTurn.of_fst ‹_›
  · exact (h.requestTurn.of_fst ‹_›).refuseStream
  · exact (((h.requestTurn.of_fst ‹_›)).touchPlaces).onCell

theorem State.Inv.execStreamRequestIssue {cell st} (h : s.Inv) : KeepsInv (execStreamRequestIssue cell st s) := by
  unfold Machine.execStreamRequestIssue
  dsimp only
  split
  · exact h.next
  · refine .ite h.next ?_
    split
    · exact h.readEntry.next
    · split
      · exact .ite h.next h.cutStream.report.next
      · split
        · exact h.streamFault.next
        · exact h.next
        · refine .ite h.next ?_
          split
          · exact (h.requestTurn.of_fst ‹_›).next
          · exact (((h.requestTurn.of_fst ‹_›)).refuseStream).next
          · exact (((h.requestTurn.of_fst ‹_›).touchPlaces).onCell).next

/-! ### Landing of streams -/

theorem State.Inv.vaStore {n va l} (h : s.Inv) : (s.vaStore n va l).Inv :=
  State.Inv.ite h.postRemote.touch.store.endUncached h

theorem State.Inv.putElem {n c scr b v e} (h : s.Inv) : (s.putElem n c scr b v e).Inv :=
  (State.Inv.ite h.onCell h.vaStore).foldl fun _ _ h => .ite h.onCell h.vaStore

theorem State.Inv.landElem {n c x} (h : s.Inv) (e : s.landElem n c x = some t) : t.Inv := by
  unfold State.landElem at e
  split at e
  · cases e; exact h.putElem
  · split at e
    · cases e; exact h.putElem
    · cases e; exact h.putElem
    · obtain ⟨_, _, rfl⟩ := Option.map_eq_some_iff.1 e
      exact h.onCell
    · cases e; exact h

theorem State.Inv.landed {n st x k} (h : s.Inv) : (s.landed n st x k).Inv :=
  State.Inv.ite h.onCell.countCell.endStream (.ite h.onCell.countCell.cutStream h.onCell.countCell)

theorem State.Inv.landNext {n st x} (h : s.Inv) : (s.landNext n st x).Inv := by
  unfold State.landNext
  dsimp only
  split
  · exact h
  · split
    · exact .ite h.cutStream (.ite h.sunsealChunk.landed h.sunsealChunk.cutStream)
    · exact .ite h h.onCell
    · refine .ite h ?_
      split
      · exact h
      · exact .ite (h.landElem ‹_›) (((h.landElem ‹_›)).landed)

theorem State.Inv.execStreamElementLand {cell st} (h : s.Inv) : KeepsInv (execStreamElementLand cell st s) := by
  unfold Machine.execStreamElementLand
  dsimp only
  split
  · exact h.next
  · refine .ite h.next ?_
    split
    · exact h.streamFault.next
    · exact h.landNext.next

theorem State.Inv.execSwait {st} (h : s.Inv) : KeepsInv (execSwait st s) := .ite h.next h.acquire.onCur.next

theorem State.Inv.cancelStream {n st} (h : s.Inv) : (s.cancelStream n st).Inv := by
  unfold State.cancelStream
  split
  · exact h
  · split
    · exact h.endHolds.onCell.settleGens
    · exact .ite h.cutStream h.onCell

theorem State.Inv.execScancel {st} (h : s.Inv) : KeepsInv (execScancel st s) :=
  KeepsInv.ite h.cancelStream.next h.cancelStream.onCur.next

theorem State.Inv.touchSources {n cmd first rows} (h : s.Inv) : (s.touchSources n cmd first rows).Inv :=
  h.foldl fun _ _ h => h.touchPlaces

theorem State.Inv.execFifoRefetch {cell fifo} (h : s.Inv) : KeepsInv (execFifoRefetch cell fifo s) := by
  unfold Machine.execFifoRefetch
  dsimp only
  refine .ite h.next ?_
  split
  · exact h.touchSources.onCell.next
  · exact h.touchSources.onCell.next
  · exact h.next

/-! ### The fabric -/

theorem State.Inv.clash {n block} (h : s.Inv) : (s.clash n block).Inv := h.meterLost.countCell.setCell.countCell.report

theorem State.Inv.fireSite {op r mark data} (h : s.Inv) (hmark : ∀ a b c, (mark a b c).Inv)
    (hdata : ∀ a b, (data a b).Inv) : KeepsInv (fireSite s op r mark data) := by
  unfold Machine.fireSite
  split
  · exact h.next
  · split
    · exact h.next
    · exact h.clash.next
    · exact (hmark _ _ _).next
    · exact (hdata _ _).next

theorem State.Inv.passPoison {a thread} (h : s.Inv) : (s.passPoison a thread).Inv := by
  unfold State.passPoison
  exact h.update.onCell

theorem State.Inv.passMarker {a t ls} (h : s.Inv) : (s.passMarker a t ls).Inv := h.onCell

theorem State.Inv.aluFire {a ts f g} (h : s.Inv) : (s.aluFire a ts f g).Inv :=
  State.Inv.ite h (.ite h.setCell.passPoison h.setCell)

theorem State.Inv.aluStep {op r f g} (h : s.Inv) : KeepsInv (aluStep s op r f g) :=
  h.fireSite (fun _ _ _ => h.passMarker) (fun _ _ => h.aluFire)

theorem State.Inv.execElemRoute (h : s.Inv) : KeepsInv (execElemRoute s) := by
  unfold Machine.execElemRoute
  dsimp only
  split
  · exact h.next
  · split
    · exact h.next
    · split
      · exact h.next
      · split
        · exact h.next
        · refine .ite (.ite h.setCur.next h.next) ?_
          refine .ite ?_ h.next
          split
          · exact h.setCur.next
          · exact h.next

theorem State.Inv.redMarker {a t ls} (h : s.Inv) : (s.redMarker a t ls).Inv :=
  State.Inv.ite (.ite h.setCell h) h.passMarker

theorem State.Inv.redTake {a ts first step} (h : s.Inv) : (s.redTake a ts first step).Inv := h.onCell

theorem State.Inv.redStep {op r first step} (h : s.Inv) : KeepsInv (redStep s op r first step) :=
  h.fireSite (fun _ _ _ => h.redMarker) (fun _ _ => h.redTake)

theorem State.Inv.putLevel {a} (h : s.Inv) : (s.putLevel a).Inv := h.onCell

/-! ### Memory instructions -/

theorem State.Inv.loadOp {du d a o size sgn} (h : s.Inv) : KeepsInv (loadOp s du d a o size sgn) := by
  unfold Machine.loadOp
  dsimp only
  exact h.withChk (fun _ => h.withReply (fun _ h => h.readLoc.settle.next))

theorem State.Inv.storeOp {du d a o size} (h : s.Inv) : KeepsInv (storeOp s du d a o size) :=
  h.withChk (fun _ => h.buffer.settle.next)

theorem State.Inv.dualLoad {d a o size} (h : s.Inv) : KeepsInv (dualLoad s d a o size) := by
  unfold Machine.dualLoad
  refine .ite h.loadOp ?_
  refine h.withChk fun _ => h.withReplies fun _ h => ?_
  refine (State.Inv.settle ?_).next
  exact State.Inv.foldl_fst h fun _ _ h => h.readLoc

theorem State.Inv.dualStore {d a o size} (h : s.Inv) : KeepsInv (dualStore s d a o size) :=
  KeepsInv.ite h.storeOp (h.withChk (fun _ => h.buffer.settle.next))

theorem State.Inv.execLds {d a o} (h : s.Inv) : KeepsInv (execLds d a o s) := h.withChk (fun _ => h.onCur.next)

theorem State.Inv.execSts {d a o} (h : s.Inv) : KeepsInv (execSts d a o s) := h.withChk (fun _ => h.onCur.next)

theorem State.Inv.execLdaq {d a c dbl} (h : s.Inv) : KeepsInv (execLdaq d a c dbl s) := by
  unfold Machine.execLdaq
  dsimp only
  exact h.withChk (fun _ => h.withReply (fun _ h => h.acquire.readLoc.acquire.settle.next))

theorem State.Inv.execStrl {a b c dbl} (h : s.Inv) : KeepsInv (execStrl a b c dbl s) :=
  h.withChk (fun _ => h.drain.buffer.settle.next)

theorem State.Inv.execFence {k c} (h : s.Inv) : KeepsInv (execFence k c s) := by
  unfold Machine.execFence
  dsimp only
  refine .ite h.trapNow ?_
  refine .ite h.next ?_
  apply State.Inv.next
  apply State.Inv.settle
  split
  · exact h.acquire
  · exact h.drain
  · exact h.drain.acquire

theorem State.Inv.atomicOp {op sgn d a b c o dbl} (h : s.Inv) : KeepsInv (atomicOp s op sgn d a b c o dbl) :=
  h.withChk (fun _ => (State.Inv.ite h.drain h).withReply
    (fun _ h => ((State.Inv.ite h.touch.store.endUncached.onCell.acquire h.touch.store.endUncached.onCell).settle).next))

theorem State.Inv.endLdfe {n d c v} (h : s.Inv) : (s.endLdfe n d c v).Inv := h.acquire.settle

theorem State.Inv.execLdfe {d a c} (h : s.Inv) : KeepsInv (execLdfe d a c s) := by
  unfold Machine.execLdfe
  dsimp only
  refine h.withChk (fun _ => ?_)
  refine h.withReply (fun _ h => ?_)
  split
  · exact h.endLdfe.next
  · exact .ite h.next (.ite h.touch.endLdfe.next (.ite h.touch.next h.touch.countCell.settle.next))

theorem State.Inv.execStfe {a b c} (h : s.Inv) : KeepsInv (execStfe a b c s) := by
  unfold Machine.execStfe
  dsimp only
  exact h.withChk (fun _ => h.drain.withReply
    (fun _ h => .ite h.fillWord.next (.ite h.fillWord.onCur.next h.fillWord.trapNow)))

theorem State.Inv.execFepeek {d a c} (h : s.Inv) : KeepsInv (execFepeek d a c s) :=
  h.withChk (fun _ => h.withReply (fun _ h => .ite h.touch.acquire.settle.next h.touch.settle.next))

/-! ### Commits -/

theorem State.Inv.storeWords {n pas vals} (h : s.Inv) : (s.storeWords n pas vals).Inv :=
  h.foldl fun _ _ h => h.postRemote.touch.writeCells.endUncached

theorem State.Inv.performEntry {n olds e} (h : s.Inv) : (s.performEntry n olds e).1.Inv := by
  unfold State.performEntry
  dsimp only
  split
  · dsimp only
    exact h.storeWords
  · dsimp only
    exact h.postRemote.fillWord
  · dsimp only
    exact .ite h.postRemote.bankRmw.acquire h.postRemote.bankRmw
  · dsimp only
    exact h.postRemote.bankRmw
  · dsimp only
    exact h.onCell
  · dsimp only
    exact h.onCell
  · dsimp only
    exact h.onCell
  · dsimp only
    exact h
  · dsimp only
    exact h.onCell
  · split
    · dsimp only
      exact h.onCell
    · dsimp only
      exact h
  · dsimp only
    exact h.onCell

theorem State.Inv.performAll {n l} (h : s.Inv) : (s.performAll n l).1.Inv :=
  State.Inv.foldl_fst h fun _ _ h => h.performEntry

theorem State.Inv.settleFills {n thread} (h : s.Inv) : (s.settleFills n thread).Inv := by
  unfold State.settleFills
  dsimp only
  apply State.Inv.onCell
  refine h.foldl fun _ _ h => ?_
  split
  · exact h.meter.meter.countCell
  · exact h.meter.meter.countCell
  · exact h.countCell

theorem State.Inv.commitThread {n p x ring thread v} (h : s.Inv) (e : s.commitThread n p x ring thread v = some t) : t.Inv := by
  unfold State.commitThread at e
  dsimp only at e
  split at e
  · cases e
  · split at e
    · cases e; exact h.onCell.performAll
    · cases e
      split
      · exact h.onCell.performAll.meter.settleFills.setCell.countCell
      · exact h.onCell.performAll.meter.settleFills.setCell

theorem State.Inv.recover {n p x} (h : s.Inv) : (s.recover n p x).Inv :=
  State.Inv.ite (.ite h.onCell.touch (.ite h.onCell.touch.countCell h.onCell.touch.countCell.postRemote.onCell))
    (State.Inv.ite h.onCell.onCell.addFault h.onCell)

theorem State.Inv.loseThread {n p thread} (h : s.Inv) : (s.loseThread n p thread).Inv := by
  unfold State.loseThread
  exact h.meterLost.countCell.onCell

theorem State.Inv.poisoned {n p thread x} (h : s.Inv) : (s.poisoned n p thread x).Inv := by
  unfold State.poisoned
  dsimp only
  split
  · exact h.loseThread.endWorldOf
  · exact h.loseThread.onCell.countCell.onCell
  · exact h.loseThread.recover.onCell

theorem State.Inv.settlePhase {n} (h : s.Inv) : (s.settlePhase n).Inv :=
  State.Inv.ite h (.ite h.setCell (.ite h.setCell.countCell h))

theorem State.Inv.takeClasses {elems used cycles} (h : s.Inv) : (s.takeClasses elems used cycles).2.Inv := h.update

theorem State.Inv.contribute {n} (h : s.Inv) : (s.contribute n).Inv := by
  unfold State.contribute
  exact h.update.flushCell.onCell.onPart

theorem State.Inv.samplePass {n p aborted} (h : s.Inv) : (s.samplePass n p aborted).Inv := by
  unfold State.samplePass
  dsimp only
  split
  · exact h
  · exact .ite h.takeClasses.takeClasses.takeFree.trace h

theorem State.Inv.finishPass {n p} (h : s.Inv) : (s.finishPass n p).Inv :=
  h.countCell.contribute.onCell.samplePass.settlePhase

theorem State.Inv.closePass {n p} (h : s.Inv) : (s.closePass n p).Inv := .ite h h.finishPass

theorem State.Inv.abandonPass {n p} (h : s.Inv) : (s.abandonPass n p).Inv :=
  ((h.foldl fun _ _ h => h.loseThread).onCell).samplePass

theorem State.Inv.parkPass {n p cause detail} (h : s.Inv) : (s.parkPass n p cause detail).Inv :=
  ((h.foldl fun _ _ h => h.loseThread).onCell).countCell

theorem State.Inv.commitPass {n p x ring l} (h : s.Inv) : (s.commitPass n p x ring l).1.Inv := by
  induction l generalizing s with
  | nil => exact h
  | cons i r ih =>
    unfold State.commitPass
    split
    · exact ih h.poisoned
    · split
      · exact h
      · next hu =>
        have h' := h.commitThread hu
        split
        · exact h'
        · exact ih h'

theorem State.Inv.commitCone {n p err} (h : s.Inv) (e : s.commitCone n p = some (t, err)) : t.Inv := by
  unfold State.commitCone at e
  dsimp only at e
  split at e
  · cases e
  · cases e
    exact h.onCell.performAll.onCell

theorem State.Inv.endCone {n p} (h : s.Inv) : (s.endCone n p).Inv := by
  unfold State.endCone
  split
  · exact h
  · exact (h.commitCone ‹_›).closePass
  · exact (((h.commitCone ‹_›).onCell).countCell).closePass

theorem State.Inv.endTogether {n p} (h : s.Inv) : (s.endTogether n p).Inv := by
  unfold State.endTogether
  split
  · exact h
  · dsimp only
    split
    · exact h.endWorldOf
    · refine .ite (h.abandonPass.foldl fun _ _ h => h.recover) ?_
      split
      · exact h.parkPass.finishPass
      · exact h.abandonPass.recover
      · split
        · exact h.parkPass.finishPass
        · exact .ite h.commitPass.endCone h.commitPass

theorem State.Inv.execPassEnd {cell} (h : s.Inv) : KeepsInv (execPassEnd cell s) := by
  unfold Machine.execPassEnd
  dsimp only
  refine .ite h.next ?_
  split
  · exact h.onCell.next
  · exact .ite h.onCell.next
      (KeepsInv.ite ((State.Inv.ite h.onCell.closePass h.onCell).next)
        (KeepsInv.ite h.onCell.endCone.next h.onCell.endTogether.next))

/-! ### Residency of lines -/

theorem State.Inv.packageBroken {w handle cell} (h : s.Inv) : (s.packageBroken w handle cell).Inv := h.onWorld.endWorld

/-! ### The scheduler -/

theorem State.Inv.startBlock {cell b} (h : s.Inv) : (s.startBlock cell b).Inv := by
  unfold State.startBlock
  dsimp only
  split
  · exact h
  · exact .ite h.setCell (.ite h.packageBroken h.countCell.setCell)

theorem State.Inv.landItem {n x} (h : s.Inv) : (s.landItem n x).Inv := by
  unfold State.landItem
  split
  · exact h.landed
  · exact h.onCell

theorem State.Inv.issuePort {b i} (h : s.Inv) : (s.issuePort b i).Inv := by
  unfold State.issuePort
  refine .ite ?_ h.onCell
  split
  · exact h
  · exact h.onCell.landItem

theorem State.Inv.issueToken {a i} (h : s.Inv) : (s.issueToken a i).Inv :=
  (h.onCell.foldl fun _ _ h => h.issuePort).countCell

theorem State.Inv.issuePassEnd {a} (h : s.Inv) : (s.issuePassEnd a).Inv := by
  unfold State.issuePassEnd
  dsimp only
  split
  · exact h.setCell
  · exact h.setCell.startBlock

theorem State.Inv.issueStep {op r} (h : s.Inv) : KeepsInv (issueStep s op r) := by
  unfold Machine.issueStep
  split
  · exact h.next
  · dsimp only
    refine .ite h.putLevel.next ?_
    refine .ite h.next ?_
    split
    · exact h.issueToken.next
    · exact h.issuePassEnd.next

/-! ### Links and edges -/

theorem State.Inv.poisonAt {a thread watch cause addr detail} (h : s.Inv) : (s.poisonAt a thread watch cause addr detail).Inv :=
  h.onCell.passPoison

theorem State.Inv.passOn {a thread} (h : s.Inv) : (s.passOn a thread).Inv := h.onCell.passPoison

theorem State.Inv.nodeChk {α : Type} {a thread vas} {r : Chk α} {k} (h : s.Inv) (hk : ∀ x, (k x).Inv) :
    (s.nodeChk a thread vas r k).Inv := by
  unfold State.nodeChk
  dsimp only
  split
  · exact hk _
  · exact h.poisonAt
  · exact .ite h.countDenied.poisonAt h.poisonAt
  · exact .ite h.endWorldOf h.poisonAt

theorem State.Inv.nodeReply {a thread l op k} (h : s.Inv) (hk : ∀ s, s.Inv → (k s).Inv) : (s.nodeReply a thread l op k).Inv := by
  unfold State.nodeReply
  split
  · exact h.remoteTurn.of_fst ‹_›
  · exact hk _ (h.remoteTurn.of_fst ‹_›)
  · exact (h.remoteTurn.of_fst ‹_›).poisonAt

theorem State.Inv.threadLoad {n thread l} (h : s.Inv) : (s.threadLoad n thread l).1.Inv := by
  unfold State.threadLoad
  dsimp only
  split
  · exact h
  · exact .ite (((State.Inv.ite h.touch h).onCell).l1Fill) ((State.Inv.ite h.touch h).onCell)

theorem State.Inv.nodeResult {a thread v tans} (h : s.Inv) : (s.nodeResult a thread v tans).Inv := .ite h h.onCell

theorem State.Inv.readNode {op r k} (h : s.Inv) (hk : ∀ a b, (k a b).Inv) : KeepsInv (readNode s op r k) :=
  h.fireSite (fun _ _ _ => h.passMarker) (fun _ _ => .ite h (.ite h.passOn (hk _ _)))

theorem State.Inv.storeNode {op r weight k} (h : s.Inv) (hk : ∀ a b, (k a b).Inv) : KeepsInv (storeNode s op r weight k) :=
  h.fireSite (fun _ _ _ => h.passMarker) (fun _ _ => .ite h (.ite h.passOn (.ite h (hk _ _))))

theorem State.Inv.enqueue {a thread k result} (h : s.Inv) : (s.enqueue a thread k result).Inv := h.onCell

theorem State.Inv.execElemLout {r} (h : s.Inv) : KeepsInv (execElemLout r s) :=
  h.fireSite (fun _ _ _ => h.passMarker) (fun _ _ => .ite h (.ite h.passOn (.ite h h.enqueue)))

theorem State.Inv.loadNode {op r sc} (h : s.Inv) : KeepsInv (loadNode s op r sc) := by
  unfold Machine.loadNode
  refine h.readNode fun a x => h.nodeChk fun ls => h.nodeReply fun s h => ?_
  apply State.Inv.nodeResult
  cases sc with
  | none => exact State.Inv.foldl_fst (x := (s, [])) h fun _ _ h => h.threadLoad
  | some c => exact (State.Inv.foldl_fst (x := (s.acquire a.n c, [])) h.acquire fun _ _ h => h.threadLoad).acquire

theorem State.Inv.execElemLdfe {r} (h : s.Inv) : KeepsInv (execElemLdfe r s) := by
  unfold Machine.execElemLdfe
  refine h.readNode (fun _ _ => ?_)
  dsimp only
  exact h.nodeChk (fun _ => h.nodeReply (fun _ h => .ite h.threadLoad.acquire.nodeResult h.poisonAt))

theorem State.Inv.wordStore {op r sc} (h : s.Inv) : KeepsInv (wordStore s op r sc) :=
  h.storeNode (fun _ _ => h.nodeChk (fun _ => h.enqueue))

theorem State.Inv.execElemStfe {r} (h : s.Inv) : KeepsInv (execElemStfe r s) :=
  h.storeNode (fun _ _ => h.nodeChk (fun _ => h.enqueue))

theorem State.Inv.execElemAtm {r} (h : s.Inv) : KeepsInv (execElemAtm r s) :=
  h.storeNode (fun _ _ => h.nodeChk (fun _ => h.update.enqueue))

theorem State.Inv.execElemLds {r} (h : s.Inv) : KeepsInv (execElemLds r s) :=
  h.readNode (fun _ _ => h.nodeChk (fun _ => h.nodeResult))

theorem State.Inv.execElemSts {r} (h : s.Inv) : KeepsInv (execElemSts r s) :=
  h.storeNode (fun _ _ => h.nodeChk (fun _ => h.enqueue))

theorem State.Inv.execElemPft {r} (h : s.Inv) : KeepsInv (execElemPft r s) := by
  unfold Machine.execElemPft
  refine h.fireSite (fun _ _ _ => h.passMarker) (fun _ _ => ?_)
  dsimp only
  refine .ite h.onCell ?_
  split
  · exact .ite (.ite h.onCell.touch h.onCell.touch.l1Fill) h.onCell
  · exact .ite h.endWorldOf h.onCell
  · exact h.onCell

theorem State.Inv.execElemAcrd {r} (h : s.Inv) : KeepsInv (execElemAcrd r s) :=
  h.readNode (fun _ _ => .ite h.poisonAt (.ite h h.nodeResult))

theorem State.Inv.execElemAcwr {r} (h : s.Inv) : KeepsInv (execElemAcwr r s) :=
  h.storeNode (fun _ _ => .ite h.poisonAt (.ite h h.enqueue))

theorem State.Inv.afMarker {a t ls} (h : s.Inv) : (s.afMarker a t ls).Inv := .ite h.passMarker.onCell h

theorem State.Inv.execElemAfpush {r} (h : s.Inv) : KeepsInv (execElemAfpush r s) :=
  h.fireSite (fun _ _ _ => h.afMarker) (fun _ _ => .ite h (.ite h.passOn (.ite h h.enqueue)))

theorem State.Inv.execElemStout {r} (h : s.Inv) : KeepsInv (execElemStout r s) :=
  h.storeNode (fun _ _ => .ite h.enqueue h)

theorem State.Inv.execElemBkadd {r} (h : s.Inv) : KeepsInv (execElemBkadd r s) :=
  h.storeNode (fun _ _ => h.nodeChk (fun _ => h.enqueue))

theorem State.Inv.controlMarker {a t ls} (h : s.Inv) : (s.controlMarker a t ls).Inv := h.onCell

theorem State.Inv.controlStep {op r} (h : s.Inv) : KeepsInv (controlStep s op r) := by
  unfold Machine.controlStep
  refine h.fireSite (fun _ _ _ => h.controlMarker) fun a ts => ?_
  dsimp only
  refine .ite h.onCell.onCell ?_
  split
  · split
    · exact h.onCell.poisoned
    · exact h.onCell
  · cases e : State.commitThread _ _ _ _ _ _ _ with
    | none => exact h
    | some u => exact h.onCell.commitThread e

theorem State.Inv.execElemBarv {r} (h : s.Inv) : KeepsInv (execElemBarv r s) := h.storeNode (fun _ _ => h.enqueue)

theorem State.Inv.execElemTrapx {r} (h : s.Inv) : KeepsInv (execElemTrapx r s) :=
  h.readNode (fun _ _ => .ite h.poisonAt h.onCell)

/-! ### Events -/

theorem State.Inv.execBinit {b y z} (h : s.Inv) : KeepsInv (execBinit b y z s) :=
  KeepsInv.ite h.trapNow (.ite h.trapNow h.setCur.next)

theorem State.Inv.execBarrive {b gate} (h : s.Inv) : KeepsInv (execBarrive b gate s) := by
  unfold Machine.execBarrive
  dsimp only
  refine .ite h.release.trapNow ?_
  split
  · exact h.release.settle.next
  · exact .ite h.release.settle.next h.release.trapNow

theorem State.Inv.execBexpect {b y gate} (h : s.Inv) : KeepsInv (execBexpect b y gate s) := by
  unfold Machine.execBexpect
  dsimp only
  refine .ite h.trapNow ?_
  split
  · exact h.setCur.next
  · exact .ite h.setCur.next h.trapNow

theorem State.Inv.execBwaitb {b} (h : s.Inv) : KeepsInv (execBwaitb b s) := .ite h.acquire.onCur.next h.next

theorem State.Inv.execBtest {x b} (h : s.Inv) : KeepsInv (execBtest x b s) := ((State.Inv.ite h.acquire h).onCur).next

theorem State.Inv.execEvsetTerm {g y z} (h : s.Inv) : KeepsInv (execEvsetTerm g y z s) :=
  KeepsInv.ite h.setCur.next h.trapNow

theorem State.Inv.execEvsetCounter {i y} (h : s.Inv) : KeepsInv (execEvsetCounter i y s) :=
  KeepsInv.ite h.trapNow h.setCur.next

theorem State.Inv.execEvsetTimer {y} (h : s.Inv) : KeepsInv (execEvsetTimer y s) := .ite h.trapNow h.setCur.next

theorem State.Inv.execEvclr {x} (h : s.Inv) : KeepsInv (execEvclr x s) := .ite h.trapNow h.setCur.next

theorem State.Inv.execEvfire {e gate} (h : s.Inv) : KeepsInv (execEvfire e gate s) := by
  unfold Machine.execEvfire
  dsimp only
  refine .ite h.trapNow ?_
  split
  · exact h.setCur.next
  · exact h.setCur.next

theorem State.Inv.execWaitev {x} (h : s.Inv) : KeepsInv (execWaitev x s) :=
  KeepsInv.ite h.trapNow (.ite h.setCur.next h.next)

theorem State.Inv.execEventTimer {cell} (h : s.Inv) : KeepsInv (execEventTimer cell s) := by
  unfold Machine.execEventTimer
  dsimp only
  split
  · exact h.next
  · exact .ite h.setCell.next h.next

/-! ### Phases -/

theorem State.Inv.execBrun {x y z gate} (h : s.Inv) : KeepsInv (execBrun x y z gate s) := by
  unfold Machine.execBrun
  dsimp only
  refine .ite h.release.trapNow ?_
  split
  · exact h.release.settle.next
  · split
    · exact h.release.trapNow
    · exact h.release.settle.next

theorem State.Inv.execBwait {x} (h : s.Inv) : KeepsInv (execBwait x s) := by
  unfold Machine.execBwait
  dsimp only
  split
  · exact h.next
  · exact h.setCur.next
  · exact h.setCur.next

theorem State.Inv.execBstat {x y} (h : s.Inv) : KeepsInv (execBstat x y s) := .ite h.trapNow h.setCur.next

theorem State.Inv.execBkill (h : s.Inv) : KeepsInv (execBkill s) :=
  KeepsInv.ite h.setCur.next h.meterLost.countCell.setCur.next

theorem State.Inv.execBcfg {x y} (h : s.Inv) : KeepsInv (execBcfg x y s) := by
  unfold Machine.execBcfg
  dsimp only
  refine .ite h.trapNow ?_
  refine .ite h.setCur.next ?_
  split
  · exact h.trapNow
  · split
    · exact h.trapNow
    · refine .ite h.packageBroken.next ?_
      split
      · exact h.trapNow
      · exact .ite h.setCur.next h.trapNow

theorem State.Inv.execBlockChoice {cell} (h : s.Inv) : KeepsInv (execBlockChoice cell s) := by
  unfold Machine.execBlockChoice
  dsimp only
  refine .ite h.next ?_
  split
  · exact h.settlePhase.next
  · exact h.startBlock.next

/-! ### The Arbour -/

theorem State.Inv.execArbourBLoad {cell fifo} (h : s.Inv) : KeepsInv (execArbourBLoad cell fifo s) := by
  unfold Machine.execArbourBLoad
  dsimp only
  refine .ite h.next ?_
  split
  · exact h.next
  · exact h.setCell.next

theorem State.Inv.failArb {n i o cause addr detail} (h : s.Inv) : (s.failArb n i o cause addr detail).Inv :=
  h.onCell.meterLost.report

theorem State.Inv.consumeRow {n i o b} (h : s.Inv) : (s.consumeRow n i o b).Inv := by
  unfold State.consumeRow
  dsimp only
  split
  · exact h
  · refine .ite h ?_
    refine .ite h.setCell ?_
    refine .ite h.setCell ?_
    refine .ite h.failArb ?_
    refine .ite h ?_
    split
    · exact h.setCell.failArb
    · exact h.setCell.failArb
    · exact h.setCell

theorem State.Inv.execArbourRowConsume {cell} (h : s.Inv) : KeepsInv (execArbourRowConsume cell s) := by
  unfold Machine.execArbourRowConsume
  dsimp only
  split
  · exact h.next
  · refine .ite h.next ?_
    split
    · split
      · exact h.next
      · exact .ite h.setCell.next h.next
    · split
      · exact .ite h.setCell.consumeRow.next h.next
      · exact h.failArb.next

theorem State.Inv.execArbourResidueError {cell} (h : s.Inv) : KeepsInv (execArbourResidueError cell s) :=
  KeepsInv.ite h.machineCheck.next h.next

theorem State.Inv.execArbourOpComplete {cell} (h : s.Inv) : KeepsInv (execArbourOpComplete cell s) := by
  unfold Machine.execArbourOpComplete
  dsimp only
  split
  · exact h.next
  · refine .ite h.next ?_
    split
    · exact h.next
    · exact .ite h.setCell.meter.countCell.next h.setCell.next

theorem State.Inv.arbIssue {du gate ok late o} (h : s.Inv) : KeepsInv (arbIssue s du gate ok late o) := by
  unfold Machine.arbIssue
  dsimp only
  refine .ite h.trapNow ?_
  split
  · exact .ite h.trapNow h.setCur.next
  · exact .ite h.next (.ite h.trapNow h.setCur.next)

theorem State.Inv.arbProduct {du mmag t bsel asel z gate} (h : s.Inv) : KeepsInv (arbProduct s du mmag t bsel asel z gate) :=
  h.arbIssue

theorem State.Inv.arbTile {du k t f ft gate} (h : s.Inv) : KeepsInv (arbTile s du k t f ft gate) := h.arbIssue

theorem State.Inv.arbAclr {du t gate} (h : s.Inv) : KeepsInv (arbAclr s du t gate) := h.arbTile

theorem State.Inv.arbAscale {du t y gate} (h : s.Inv) : KeepsInv (arbAscale s du t y gate) := h.arbTile

theorem State.Inv.arbAtob {du t y gate} (h : s.Inv) : KeepsInv (arbAtob s du t y gate) := h.arbIssue

theorem State.Inv.arbAcpy {du t u gate} (h : s.Inv) : KeepsInv (arbAcpy s du t u gate) := h.arbIssue

theorem State.Inv.execMwait (h : s.Inv) : KeepsInv (execMwait s) := .ite h.onCur.next h.next

/-! ### Nodes of the queues -/

theorem State.Inv.serve {fn q} (h : s.Inv) : (s.serve fn q).Inv := (State.Inv.ite h.onFunc.onQueue h.onFunc.onQueue).update

theorem State.Inv.markNode {fn q n} (h : s.Inv) : (s.markNode fn q n).Inv := h.onQueue

theorem State.Inv.begun {fn q n} (h : s.Inv) : (s.begun fn q n).Inv := .ite h.markNode h.markNode.serve

theorem State.Inv.withNode {fn q n ty k} (h : s.Inv) (hk : ∀ a, (k a).Inv) : KeepsInv (s.withNode fn q n ty k) := by
  unfold State.withNode
  split
  · exact .ite ((hk _).next) h.next
  · split
    · exact .ite (((hk _).begun).next) h.next
    · exact h.next

theorem State.Inv.touchRange {p ctx w va len write spec} (h : s.Inv) : (s.touchRange p ctx w va len write spec).Inv :=
  h.foldl fun _ _ h => h.countAccess.touchAs

theorem State.Inv.vaPut {w va l} (h : s.Inv) : (s.vaPut w va l).Inv := by
  induction l generalizing s va with
  | nil => exact h
  | cons b r ih => exact ih h.store

theorem State.Inv.unitRead {p ctx w va len} (h : s.Inv) : (s.unitRead p ctx w va len).1.Inv := h.touchRange

theorem State.Inv.unitWrite {p ctx w va l} (h : s.Inv) : (s.unitWrite p ctx w va l).Inv := h.touchRange.vaPut.endUncached

theorem State.Inv.onOwner {n launch f} (h : s.Inv) : (s.onOwner n launch f).Inv := by
  unfold State.onOwner
  refine .ite h.onCell ?_
  split
  · exact h
  · split
    · exact h
    · exact h.update

/-! ### Save areas -/

theorem State.Inv.landAll {n st k} (h : s.Inv) : (s.landAll n st k).Inv := by
  induction k generalizing s with
  | zero => exact h
  | succ k ih =>
    unfold State.landAll
    split
    · exact h
    · exact .ite h (ih h.landNext)

theorem State.Inv.landStores {n} (h : s.Inv) : (s.landStores n).Inv := h.foldl fun _ _ h => .ite h.landAll h

theorem State.Inv.preemptCell {reason n} (h : s.Inv) : (s.preemptCell reason n).Inv :=
  State.Inv.ite h (.ite h.drain
    (State.Inv.ite (((h.drain.onCell.foldl fun _ _ h => h.abandonPass).onCell).landStores)
      (((((((((h.drain.onCell.foldl fun _ _ h =>
        h.abandonPass).onCell).landStores).loseMacs).loseStreams).onCell).contribute).dropHolders).trace)))

theorem State.Inv.preemptLaunch {id reason} (h : s.Inv) : (s.preemptLaunch id reason).Inv := by
  unfold State.preemptLaunch
  split
  · exact h
  · exact h.update.foldl fun s a h => (h.onPart.foldl fun s a h => h.preemptCell).countEvent

theorem State.Inv.execPreemptRequest {part reason} (h : s.Inv) : KeepsInv (execPreemptRequest part reason s) := by
  unfold Machine.execPreemptRequest
  split
  · exact h.next
  · exact .ite h.preemptLaunch.next h.next

theorem State.Inv.execCellSaveComplete {cell} (h : s.Inv) : KeepsInv (execCellSaveComplete cell s) := by
  unfold Machine.execCellSaveComplete
  dsimp only
  split
  · exact .ite ((h.setCell.update.foldl fun _ _ h => h.onPart).next) h.setCell.update.next
  · exact h.next

theorem State.Inv.callFor {l} (h : s.Inv) : (s.callFor l).Inv := h.update

theorem State.Inv.quantumOver {id l} (h : s.Inv) : (s.quantumOver id l).Inv := .ite h.update h

theorem State.Inv.execQuantumExpiry {part} (h : s.Inv) : KeepsInv (execQuantumExpiry part s) := by
  unfold Machine.execQuantumExpiry
  split
  · exact h.next
  · exact .ite h.quantumOver.next h.next

theorem State.Inv.zeroStores {p} (h : s.Inv) : (s.zeroStores p).Inv := h.foldl fun _ _ h => h.onCell

theorem State.Inv.takePart {id l p} (h : s.Inv) : (s.takePart id l p).Inv := by
  unfold State.takePart
  dsimp only
  apply State.Inv.onPart
  refine .ite ?_ h
  apply State.Inv.zeroStores
  split
  · exact h.update
  · exact h

theorem State.Inv.restoreCell {l n} (h : s.Inv) : (s.restoreCell l n).Inv := by
  unfold State.restoreCell
  split
  · exact h
  · exact h.onCell

theorem State.Inv.resumeLaunch {id l} (h : s.Inv) : (s.resumeLaunch id l).Inv :=
  State.Inv.ite h.packageBroken ((h.foldl fun _ _ h => h.foldl fun _ _ h => h.restoreCell).update)

theorem State.Inv.shortScrub {p} (h : s.Inv) : (s.shortScrub p).Inv := by
  unfold State.shortScrub
  exact (((h.foldl fun _ _ h => h.evictLine).update).scrubCells).onPart

theorem State.Inv.fullScrub {p} (h : s.Inv) : (s.fullScrub p).Inv := h.shortScrub.foldl fun _ _ h => h.zeroRange

/-! ### Launches -/

theorem State.Inv.addLaunch {l} (h : s.Inv) : (s.addLaunch l).Inv := h.update

theorem State.Inv.dispatchLaunch {id} (h : s.Inv) : (s.dispatchLaunch id).Inv := by
  unfold State.dispatchLaunch
  split
  · exact h
  · refine .ite h ?_
    refine .ite h.callFor ?_
    dsimp only
    split
    · exact ((State.Inv.ite h h.markNode).foldl fun s a h => h.takePart).serve
    · split
      · exact (((State.Inv.ite h h.markNode).foldl fun s a h => h.takePart).serve).resumeLaunch
      · exact (((State.Inv.ite h h.markNode).foldl fun _ _ h => h.takePart).serve).update

theorem State.Inv.launchNode {fn q node b} (h : s.Inv) : (s.launchNode fn q node b).Inv := by
  unfold State.launchNode
  dsimp only
  refine .ite h ?_
  split
  · exact h.begun.finishStatus
  · split
    · exact h.begun.finishStatus
    · exact h.addLaunch.dispatchLaunch

theorem State.Inv.execLaunch {fn q node} (h : s.Inv) : KeepsInv (execLaunch fn q node s) := by
  unfold Machine.execLaunch
  split
  · exact h.dispatchLaunch.next
  · split
    · exact .ite h.launchNode.next h.next
    · exact h.next

theorem State.Inv.execEscalationTimeout {fn q} (h : s.Inv) : KeepsInv (execEscalationTimeout fn q s) := by
  unfold Machine.execEscalationTimeout
  split
  · exact h.next
  · exact .ite h.next ((h.onQueue.foldl fun _ _ h => h.callFor).next)

theorem State.Inv.execCellStart {launch cell} (h : s.Inv) : KeepsInv (execCellStart launch cell s) := by
  unfold Machine.execCellStart
  split
  · exact h.next
  · dsimp only
    refine .ite h.next ?_
    split
    · exact h.next
    · exact .ite h.packageBroken.next h.update.onCell.next

theorem State.Inv.completeLaunch {id l} (h : s.Inv) : (s.completeLaunch id l).Inv :=
  (((h.foldl fun _ _ h => ((h.foldl fun _ _ h => h.onCell).meter).onPart).update).foldl fun _ _ h => h.settlePart).launchEnded

theorem State.Inv.settleYield {id l} (h : s.Inv) : (s.settleYield id l).Inv :=
  State.Inv.ite ((h.foldl fun _ _ h => h.onCell).quantumOver) h

theorem State.Inv.settleLaunch {n} (h : s.Inv) : (s.settleLaunch n).Inv := by
  unfold State.settleLaunch
  dsimp only
  split
  · exact h
  · exact .ite h.completeLaunch h.settleYield

theorem State.Inv.cancelArmed {n} (h : s.Inv) : (s.cancelArmed n).Inv := by
  unfold State.cancelArmed
  exact (h.foldl fun _ _ h => h.cancelStream).onCell

theorem State.Inv.execHalt (h : s.Inv) : KeepsInv (execHalt s) :=
  KeepsInv.ite h.drain.next h.drain.contribute.cancelArmed.onCell.settleGens.settleLaunch.next

theorem State.Inv.execYield (h : s.Inv) : KeepsInv (execYield s) := by
  unfold Machine.execYield
  dsimp only
  split
  · exact h.onCur.next
  · exact h.onCur.settleYield.next

theorem State.Inv.execKret (h : s.Inv) : KeepsInv (execKret s) :=
  KeepsInv.ite h.trapNow (.ite h.trapNow (.ite h.trapNow h.setCur.next))

theorem State.Inv.beginStop {p n bp link ordinal} (h : s.Inv) : (s.beginStop p n bp link ordinal).Inv :=
  (State.Inv.ite h ((h.foldl fun _ _ h => h.onCell).onPart)).trace

theorem State.Inv.execBrk (h : s.Inv) : KeepsInv (execBrk s) :=
  KeepsInv.ite h.next (.ite h.onCur.beginStop.next h.onCur.countCell.trace.next)

theorem State.Inv.execWatchdogExpiry {launch} (h : s.Inv) : KeepsInv (execWatchdogExpiry launch s) := by
  unfold Machine.execWatchdogExpiry
  split
  · exact h.next
  · exact .ite h.next ((h.discardLaunch.foldl fun _ _ h => h.onPart).next)

theorem State.Inv.execPartitionScrubComplete {part} (h : s.Inv) : KeepsInv (execPartitionScrubComplete part s) := by
  unfold Machine.execPartitionScrubComplete
  dsimp only
  split
  · exact ((State.Inv.ite h.shortScrub h.fullScrub).onPart).next
  · split
    · exact h.shortScrub.onPart.next
    · exact .ite h.shortScrub.onPart.next h.shortScrub.onPart.launchEnded.next
  · exact h.shortScrub.onPart.next
  · exact h.next

/-! ### The mailbox -/

theorem State.Inv.mbStatus {fn status} (h : s.Inv) : (s.mbStatus fn status).Inv := h.onFunc.signal

theorem State.Inv.mbWrite {r status detail resp} (h : s.Inv) : (s.mbWrite r status detail resp).Inv :=
  State.Inv.ite h.mbStatus h.devWrite.devWrite.mbStatus

theorem State.Inv.mbDone {r st detail resp} (h : s.Inv) : (s.mbDone r st detail resp).Inv := h.onLodge.mbWrite

theorem State.Inv.mbSubmit {fn v} (h : s.Inv) : (s.mbSubmit fn v).Inv := by
  unfold State.mbSubmit
  dsimp only
  refine .ite h ?_
  split
  · exact h.onFunc.mbStatus
  · split
    · exact h.onFunc.mbStatus
    · exact .ite h.onFunc.mbWrite h.onFunc.onLodge

theorem State.Inv.execMbdoorWrite {fn v} (h : s.Inv) : KeepsInv (execMbdoorWrite fn v s) :=
  KeepsInv.ite h.mbSubmit.next h.next

theorem State.Inv.withRequest {fn code k} (h : s.Inv) (hk : ∀ a, (k a).Inv) : KeepsInv (s.withRequest fn code k) := by
  unfold State.withRequest
  split
  · exact h.next
  · exact .ite ((hk _).next) h.next

theorem State.Inv.answerHolder {w page denied x} (h : s.Inv) : (s.answerHolder w page denied x).Inv :=
  (State.Inv.ite h.onCell h).update

theorem State.Inv.answerFault {f denied} (h : s.Inv) : (s.answerFault f denied).Inv :=
  State.Inv.ite ((h.update.foldl fun _ _ h => h.answerHolder).foldl fun _ _ h => h.finishStatus)
    (h.update.foldl fun _ _ h => h.answerHolder)

theorem State.Inv.answerRange {w va len denied} (h : s.Inv) : (s.answerRange w va len denied).Inv :=
  h.foldl fun _ _ h => h.answerFault

theorem State.Inv.execNomap {fn} (h : s.Inv) : KeepsInv (execNomap fn s) := by
  unfold Machine.execNomap
  refine h.withRequest (fun _ => ?_)
  dsimp only
  split
  · exact h.mbDone
  · exact h.answerFault.mbDone

theorem State.Inv.execFaultRecordPost {k} (h : s.Inv) : KeepsInv (execFaultRecordPost k s) := by
  unfold Machine.execFaultRecordPost
  split
  · exact h.next
  · exact .ite h.next h.devWrite.update.signal.next

theorem State.Inv.fqctl {v} (h : s.Inv) : (s.fqctl v).Inv :=
  State.Inv.ite h (.ite h.update (h.update.foldl fun _ _ h => h.answerFault))

theorem State.Inv.execFqctlWrite {v} (h : s.Inv) : KeepsInv (execFqctlWrite v s) := .ite h.fqctl.next h.next

theorem State.Inv.fqhead {v} (h : s.Inv) : (s.fqhead v).Inv := h.update

theorem State.Inv.execFqheadWrite {v} (h : s.Inv) : KeepsInv (execFqheadWrite v s) := .ite h.fqhead.next h.next

/-! ### Registers of the functions -/

theorem State.Inv.writePost {fn q p} (h : s.Inv) : (s.writePost fn q p).Inv :=
  State.Inv.ite h.devWrite.onQueue.signal.signal h.devWrite.onQueue.signal

theorem State.Inv.flushPosts {fn q k} (h : s.Inv) : (s.flushPosts fn q k).Inv := by
  induction k generalizing s with
  | zero => exact h
  | succ k ih =>
    unfold State.flushPosts
    split
    · exact h
    · exact .ite (ih h.onQueue.writePost) h

theorem State.Inv.post {fn q p} (h : s.Inv) : (s.post fn q p).Inv := h.onQueue.flushPosts

theorem State.Inv.qtail {fn q v} (h : s.Inv) : (s.qtail fn q v).Inv := .ite h.onQueue.update.onQueue.post h.onQueue

theorem State.Inv.qctl {fn q v} (h : s.Inv) : (s.qctl fn q v).Inv :=
  State.Inv.ite (.ite h h.onQueue) (.ite h.onQueue.onQueue.flushPosts h.onQueue)

theorem State.Inv.qstat {fn q v} (h : s.Inv) : (s.qstat fn q v).Inv := .ite h.onQueue.flushPosts h

theorem State.Inv.qbase {fn q completion v} (h : s.Inv) : (s.qbase fn q completion v).Inv := h.onQueue

theorem State.Inv.execQtailWrite {fn q v} (h : s.Inv) : KeepsInv (execQtailWrite fn q v s) :=
  KeepsInv.ite h.qtail.next h.next

theorem State.Inv.execQstatCheadWrite {fn q v} (h : s.Inv) : KeepsInv (execQstatCheadWrite fn q v s) :=
  KeepsInv.ite h.qstat.next h.next

theorem State.Inv.execQctlEnable {fn q v} (h : s.Inv) : KeepsInv (execQctlEnable fn q v s) := .ite h.qctl.next h.next

theorem State.Inv.execQctlDisable {fn q v} (h : s.Inv) : KeepsInv (execQctlDisable fn q v s) :=
  KeepsInv.ite h.qctl.next h.next

theorem State.Inv.addEvent {fn e v} (h : s.Inv) : (s.addEvent fn e v).Inv := h.onFunc

theorem State.Inv.qevdb {fn v} (h : s.Inv) : (s.qevdb fn v).Inv := h.addEvent

theorem State.Inv.vfctl {fn v} (h : s.Inv) : (s.vfctl fn v).Inv := .ite h.onFunc h

theorem State.Inv.execQevdbWrite {fn v} (h : s.Inv) : KeepsInv (execQevdbWrite fn v s) := .ite h.qevdb.next h.next

theorem State.Inv.execPauseAck {fn} (h : s.Inv) : KeepsInv (execPauseAck fn s) := .ite h.vfctl.next h.next

theorem State.Inv.regWrite {fn off v} (h : s.Inv) : (s.regWrite fn off v).Inv := by
  unfold State.regWrite
  split
  · split
    · exact h.qtail
    · exact h.qbase
    · exact h.qbase
    · exact h.qctl
    · exact h.qstat
    · exact h.onFunc
    · exact h.mbSubmit
    · exact h.update
    · exact h.fqctl
    · exact h.fqhead
    · exact h
  · refine .ite h ?_
    refine .ite h.qtail ?_
    split
    · dsimp only
      split
      · exact h.qbase
      · exact h.qbase
      · exact h.qctl
      · exact h.qstat
    · split
      · exact h.qevdb
      · exact h.vfctl
      · exact h.onFunc
      · exact h.mbSubmit
      · exact h

theorem State.Inv.tdiError {fn} (h : s.Inv) : (s.tdiError fn).Inv := h.onFunc.update

theorem State.Inv.tdiChange {fn} (h : s.Inv) : (s.tdiChange fn).Inv := by
  unfold State.tdiChange
  split
  · exact h.tdiError
  · exact h.tdiError
  · exact h

theorem State.Inv.execRegisterWrite {fn place v} (h : s.Inv) : KeepsInv (execRegisterWrite fn place v s) := by
  unfold Machine.execRegisterWrite
  refine .ite h.emit.next ?_
  refine .ite h.next ?_
  split
  · exact h.regWrite.next
  · exact h.onFunc.tdiChange.next
  · exact h.onFunc.tdiChange.next

theorem State.Inv.configRead {fn dvsec} (h : s.Inv) : (s.configRead fn dvsec).Inv :=
  State.Inv.ite h.emit (.ite h.emit (.ite h.emit h.update.emit))

theorem State.Inv.request {fn req} (h : s.Inv) : (s.request fn req).Inv := by
  unfold State.request
  split
  · exact h.emit
  · exact h.configRead
  · refine .ite h.emit ?_
    refine .ite h.emit ?_
    refine .ite ?_ h.emit
    split
    · exact h.emit
    · exact h.emit
  · exact .ite h.emit
      (State.Inv.ite (.ite h.regWrite h) (.ite (.ite h.devWrite h.emit) h.emit))

/-! ### Graphs -/

theorem State.Inv.execGraphFetch {fn q} (h : s.Inv) : KeepsInv (execGraphFetch fn q s) := by
  unfold Machine.execGraphFetch
  refine .ite h.next ?_
  dsimp only
  split
  · exact h.onQueue.post.next
  · exact h.onQueue.onQueue.next

theorem State.Inv.dropWaiting {fn q g} (h : s.Inv) : (s.dropWaiting fn q g).Inv :=
  State.Inv.ite h (h.foldl fun _ _ h => h.discardLaunch)

theorem State.Inv.completeNode {fn q node} (h : s.Inv) : (s.completeNode fn q node).Inv := by
  unfold State.completeNode
  dsimp only
  split
  · exact h
  · split
    · exact h
    · exact .ite h.dropWaiting.onQueue.post h.dropWaiting.onQueue

theorem State.Inv.execNodeComplete {fn q node} (h : s.Inv) : KeepsInv (execNodeComplete fn q node s) :=
  KeepsInv.ite h.completeNode.next h.next

theorem State.Inv.completeAll (h : s.Inv) : s.completeAll.Inv :=
  h.foldl fun _ _ h => h.foldl fun _ _ h => h.foldl fun _ _ h => h.completeNode

theorem State.Inv.execSignalNode {fn q node} (h : s.Inv) : KeepsInv (execSignalNode fn q node s) :=
  h.withNode (fun _ => (State.Inv.ite h.addEvent h.onFunc).finishStatus)

theorem State.Inv.execWaitNode {fn q node} (h : s.Inv) : KeepsInv (execWaitNode fn q node s) :=
  h.withNode (fun _ => .ite h.finishStatus h)

theorem State.Inv.execWaitTimeout {fn q node} (h : s.Inv) : KeepsInv (execWaitTimeout fn q node s) :=
  h.withNode (fun _ => .ite h.finishStatus h)

theorem State.Inv.copyOut {fn c ctx a len} (h : s.Inv) : (s.copyOut fn c ctx a len).1.Inv := by
  unfold State.copyOut
  split
  · split
    · exact h
    · exact h.unitRead
  · exact h

theorem State.Inv.copyIn {fn c ctx a l} (h : s.Inv) : (s.copyIn fn c ctx a l).Inv := by
  unfold State.copyIn
  split
  · exact .ite h.devWrite h.unitWrite
  · exact h.devWrite

theorem State.Inv.copyFault {fn q node w p ctx va} (h : s.Inv) : (s.copyFault fn q node w p ctx va).Inv :=
  State.Inv.ite h.countEvent.finishStatus (.ite h.update h.countEvent.update)

theorem State.Inv.execCopyNode {fn q node} (h : s.Inv) : KeepsInv (execCopyNode fn q node s) := by
  unfold Machine.execCopyNode
  refine h.withNode (fun _ => ?_)
  dsimp only
  refine .ite h.finishStatus ?_
  refine .ite h ?_
  split
  · exact h.finishStatus
  · exact h.endWorld.finishNode
  · exact h.copyFault
  · exact .ite h.machineCheck.finishNode h.copyOut.copyIn.finishStatus

theorem State.Inv.meterReport {p final} (h : s.Inv) : (s.meterReport p final).1.Inv := by
  unfold State.meterReport
  dsimp only
  exact h.onPart

theorem State.Inv.execMeterNode {fn q node} (h : s.Inv) : KeepsInv (execMeterNode fn q node s) :=
  h.withNode (fun _ => .ite h
    (State.Inv.ite h.finishStatus (.ite h.finishStatus h.onPart.devWrite.finishStatus)))

/-! ### Worlds -/

theorem State.Inv.withSession {fn q node req n resp k} (h : s.Inv) (hk : ∀ a b, (k a b).Inv) : KeepsInv
    (s.withSession fn q node req n resp k) := by
  unfold State.withSession
  refine h.withNode (fun _ => ?_)
  dsimp only
  refine .ite h ?_
  refine .ite h.finishStatus ?_
  split
  · exact h.finishStatus
  · exact .ite h.finishStatus (hk _ _)

theorem State.Inv.execCreateWorld {fn q node} (h : s.Inv) : KeepsInv (execCreateWorld fn q node s) := by
  unfold Machine.execCreateWorld
  refine h.withSession (fun _ _ => ?_)
  refine .ite h.finishStatus ?_
  refine .ite h.finishStatus ?_
  split
  · exact h.finishStatus
  · exact h.update.setWorld.devWrite.finishStatus

theorem State.Inv.execBindContext {fn q node} (h : s.Inv) : KeepsInv (execBindContext fn q node s) := by
  -- A variable stands for the taking of bytes: the kernel would evaluate it.
  have taking : ∃ take, take = s.takeBytes := ⟨_, rfl⟩
  obtain ⟨take, ht⟩ := taking
  unfold Machine.execBindContext
  rw [← ht]
  refine h.withSession fun _ _ => .ite h.finishStatus ?_
  split
  · exact h.finishStatus
  · refine .ite h.finishStatus (.ite h.finishStatus ?_)
    split
    · exact h.finishStatus
    · split
      · exact h.finishStatus
      · next e => exact (h.takeBytes (ht ▸ e)).onPart.devWrite.finishStatus

theorem State.Inv.execUnbindContext {fn q node} (h : s.Inv) : KeepsInv (execUnbindContext fn q node s) :=
  h.withSession (fun _ _ => .ite h.finishStatus
    (State.Inv.ite h.finishStatus (.ite h.finishStatus (.ite h h.endContext.finishStatus))))

theorem State.Inv.execLoadSeal {fn q node} (h : s.Inv) : KeepsInv (execLoadSeal fn q node s) := by
  unfold Machine.execLoadSeal
  refine h.withSession (fun _ _ => ?_)
  dsimp only
  refine .ite h ?_
  refine .ite h.finishStatus ?_
  split
  · exact h.finishStatus
  · exact h.finishStatus
  · split
    · exact h.finishStatus
    · split
      · exact h.setWorld
      · exact h.finishStatus

theorem State.Inv.execSealingTimeout {world} (h : s.Inv) : KeepsInv (execSealingTimeout world s) := by
  unfold Machine.execSealingTimeout
  split
  · exact h.next
  · exact .ite h.sealingFails.next h.next

theorem State.Inv.execDestroyWorld {fn q node} (h : s.Inv) : KeepsInv (execDestroyWorld fn q node s) :=
  h.withSession (fun _ _ => .ite h.finishStatus (.ite h.finishStatus h.endWorld.finishStatus))

theorem State.Inv.execOpenSession {fn q node} (h : s.Inv) : KeepsInv (execOpenSession fn q node s) := by
  unfold Machine.execOpenSession
  refine h.withSession (fun _ _ => ?_)
  dsimp only
  refine .ite h.finishStatus ?_
  split
  · exact h.finishStatus
  · refine .ite h.finishStatus ?_
    refine .ite h.finishStatus ?_
    split
    · exact h.finishStatus
    · exact h.setWorld.devWrite.finishStatus

theorem State.Inv.execCloseSession {fn q node} (h : s.Inv) : KeepsInv (execCloseSession fn q node s) := by
  unfold Machine.execCloseSession
  refine h.withSession (fun _ _ => ?_)
  dsimp only
  refine .ite h.finishStatus ?_
  split
  · exact h.finishStatus
  · split
    · exact h.finishStatus
    · split
      · exact h.finishStatus
      · exact h.setWorld.finishStatus

theorem State.Inv.execRekey {fn q node} (h : s.Inv) : KeepsInv (execRekey fn q node s) := by
  unfold Machine.execRekey
  refine h.withSession (fun _ _ => ?_)
  dsimp only
  refine .ite h.finishStatus ?_
  split
  · exact h.finishStatus
  · split
    · exact h.finishStatus
    · split
      · exact h.finishStatus
      · exact h.takeLock.setWorld.devWrite.finishStatus

theorem State.Inv.execCertifiedReplyRelease {world session} (h : s.Inv) : KeepsInv (execCertifiedReplyRelease world session s) :=
    by
  unfold Machine.execCertifiedReplyRelease
  split
  · exact h.next
  · split
    · exact h.next
    · exact .ite h.next h.devWrite.devWrite.onWorld.next

theorem State.Inv.execPkgload {fn q node} (h : s.Inv) : KeepsInv (execPkgload fn q node s) := by
  unfold Machine.execPkgload
  refine h.withNode (fun _ => ?_)
  dsimp only
  refine .ite h ?_
  split
  · exact h.finishStatus
  · split
    · exact h.finishStatus
    · split
      · exact h.finishStatus
      · exact .ite h.finishStatus
          (State.Inv.ite h.finishStatus
            (State.Inv.ite h.finishStatus (((h.foldl fun _ _ h => h.unitWrite).onWorld).finishStatus)))

/-! ### Administration commands -/

theorem State.Inv.execCreatePartition {fn q node} (h : s.Inv) : KeepsInv (execCreatePartition fn q node s) := by
  unfold Machine.execCreatePartition
  refine h.withNode (fun _ => ?_)
  dsimp only
  refine .ite h ?_
  refine .ite h.finishStatus ?_
  refine .ite h.finishStatus ?_
  split
  · exact h.finishStatus
  · exact h.setPart.finishStatus

theorem State.Inv.destroyPart {p} (h : s.Inv) : (s.destroyPart p).Inv := by
  unfold State.destroyPart
  dsimp only
  apply State.Inv.onPart
  refine State.Inv.foldl ?_ (fun s a h => h.endContext)
  apply State.Inv.emit
  apply State.Inv.meterReport
  refine State.Inv.foldl ?_ (fun _ _ h => h.endLaunch)
  split
  · exact h.endResets
  · exact h

theorem State.Inv.execDestroyPartition {fn q node} (h : s.Inv) : KeepsInv (execDestroyPartition fn q node s) :=
  h.withNode (fun _ => .ite h (.ite h.finishStatus (.ite h.finishStatus h.destroyPart.finishStatus)))

theorem State.Inv.withPolicy {fn q node item lo hi k} (h : s.Inv) : KeepsInv (s.withPolicy fn q node item lo hi k) :=
  h.withNode (fun _ => .ite h (.ite h.finishStatus h.update.finishStatus))

theorem State.Inv.execFwStage {fn q node} (h : s.Inv) : KeepsInv (execFwStage fn q node s) := by
  unfold Machine.execFwStage
  refine h.withNode (fun _ => ?_)
  refine .ite h ?_
  split
  · exact h.finishStatus
  · split
    · exact h.finishStatus
    · exact h.onLodge.finishStatus

theorem State.Inv.vfEventAll {e} (h : s.Inv) : (s.vfEventAll e).Inv := (h.foldl fun _ _ h => h.onFunc.signal).signal

theorem State.Inv.execFwActivate {fn q node} (h : s.Inv) : KeepsInv (execFwActivate fn q node s) :=
  h.withNode (fun _ => .ite h (.ite h.finishStatus h.onLodge.update.vfEventAll))

theorem State.Inv.execQuiesce (h : s.Inv) : KeepsInv (execQuiesce s) := by
  unfold Machine.execQuiesce
  dsimp only
  split
  · exact .ite h.onLodge.update.next h.next
  · exact .ite h.next h.onLodge.next
  · exact h.next

theorem State.Inv.execFwActivationResult {ok} (h : s.Inv) : KeepsInv (execFwActivationResult ok s) := by
  unfold Machine.execFwActivationResult
  split
  · exact .ite h.onLodge.onLodge.update.vfEventAll.finishStatus.next h.onLodge.vfEventAll.finishStatus.next
  · exact h.next

theorem State.Inv.onIde {fn f} (h : s.Inv) : (s.onIde fn f).Inv := .ite h.onFunc h.onFunc.tdiChange

theorem State.Inv.execIdeCheckFailure {fn} (h : s.Inv) : KeepsInv (execIdeCheckFailure fn s) :=
  KeepsInv.ite h.onIde.hyperAdd.next h.next

theorem State.Inv.execIdeKmKeyProg {fn key} (h : s.Inv) : KeepsInv (execIdeKmKeyProg fn key s) :=
  KeepsInv.ite h.onIde.next h.next

theorem State.Inv.execIdeKmKSetGo {fn} (h : s.Inv) : KeepsInv (execIdeKmKSetGo fn s) := by
  unfold Machine.execIdeKmKSetGo
  split
  · exact h.next
  · exact .ite h.onIde.next h.next

theorem State.Inv.tdispReply {fn msg l} (h : s.Inv) : (s.tdispReply fn msg l).Inv := h.emit

theorem State.Inv.tdisp {fn msg old new} (h : s.Inv) : (s.tdisp fn msg old new).Inv :=
  State.Inv.ite h.onFunc.tdispReply h.tdispReply

theorem State.Inv.execLockInterface {fn} (h : s.Inv) : KeepsInv (execLockInterface fn s) := .ite h.tdisp.next h.next

theorem State.Inv.execStartInterface {fn} (h : s.Inv) : KeepsInv (execStartInterface fn s) :=
  KeepsInv.ite h.tdisp.next h.next

theorem State.Inv.execGetDeviceInterfaceReport {fn} (h : s.Inv) : KeepsInv (execGetDeviceInterfaceReport fn s) :=
  KeepsInv.ite h.tdispReply.next h.next

theorem State.Inv.scrubPart {p full} (h : s.Inv) : (s.scrubPart p full).Inv := h.onPart

theorem State.Inv.stopInterface {fn} (h : s.Inv) : (s.stopInterface fn).Inv :=
  ((((h.foldl fun _ _ h => h.endWorld).foldl fun _ _ h => h.endLaunch).foldl fun _ _ h => h.scrubPart).onFunc).tdispReply

theorem State.Inv.execStopInterface {fn} (h : s.Inv) : KeepsInv (execStopInterface fn s) :=
  KeepsInv.ite h.stopInterface.next h.next

theorem State.Inv.sendPod {mask m} (h : s.Inv) : (s.sendPod mask m).Inv := h.foldl fun _ _ h => h.tellPod

theorem State.Inv.resetFunction {fn} (h : s.Inv) : (s.resetFunction fn).Inv := by
  unfold State.resetFunction
  refine State.Inv.foldl (State.Inv.update (State.Inv.onFunc ?_)) fun _ _ h => h.scrubPart
  have h' : ((s.launches.filter fun l => l.2.vf == fn).foldl (fun s l => s.endLaunch l.1 .destroyed 0) ({ s with
      faults := s.faults.map fun f => { f with nodes := f.nodes.filter fun n => n.1 != fn }
      lodge := { s.lodge with inbox := s.lodge.inbox.filter fun r => r.fn != fn } } : State)).Inv :=
    h.update.foldl fun _ _ h => h.endLaunch
  split
  · exact h'
  · exact .ite h' h'.sendPod.onPod

theorem State.Inv.execFunctionLevelReset {fn} (h : s.Inv) : KeepsInv (execFunctionLevelReset fn s) := by
  unfold Machine.execFunctionLevelReset
  refine .ite h.next ?_
  split
  · exact h.tdiError.next
  · exact h.tdiError.next
  · exact h.resetFunction.next

/-! ### Collectives -/

theorem State.Inv.issueColl {n k} (h : s.Inv) : (s.issueColl n k).Inv :=
  State.Inv.ite (.ite h h.touchRange) ((State.Inv.ite h h.touchRange).onCell)

theorem State.Inv.collOp {k x gate} (h : s.Inv) : KeepsInv (collOp s k x gate) := by
  unfold Machine.collOp
  dsimp only
  refine .ite h.trapNow ?_
  refine .ite h.release.next ?_
  refine h.release.withChk (fun _ => ?_)
  split
  · exact h.release.onCur.next
  · exact .ite h.release.next h.release.issueColl.settle.next

theorem State.Inv.execCwait {x} (h : s.Inv) : KeepsInv (execCwait x s) := .ite h.next h.acquire.onCur.next

theorem State.Inv.collWrite {cell launch k l} (h : s.Inv) : (s.collWrite cell launch k l).Inv := by
  unfold State.collWrite
  refine .ite h.onOwner ?_
  split
  · exact h
  · next c _ =>
    have h' : ((k.dest.map (· / 64)).dedup.foldl (fun s a =>
        s.touchAs c.ident.part c.ident.ctx c.ident.world .norm (64 * a) true false) s).Inv := h.foldl fun _ _ h => h.touchAs
    exact (h'.updateMemory (Memory.wf_scatter _ _ h'.memory.1) h'.memory.2).endUncached

theorem State.Inv.freeBytes {n} (h : s.Inv) : (s.freeBytes n).2.Inv := h.update

theorem State.Inv.execCollectiveComplete {cell parts} (h : s.Inv) : KeepsInv (execCollectiveComplete cell parts s) := by
  unfold Machine.execCollectiveComplete
  split
  · exact h.next
  · dsimp only
    refine .ite h.onOwner.next ?_
    split
    · exact .ite h.meter.freeBytes.collWrite.onOwner.next
        (KeepsInv.ite h.meter.onOwner.next h.meter.collWrite.onOwner.next)
    · exact .ite h.takeFree.meter.freeBytes.collWrite.onOwner.next
        (KeepsInv.ite h.takeFree.meter.onOwner.next h.takeFree.meter.collWrite.onOwner.next)

theorem State.Inv.bankOp {red x y z gate} (h : s.Inv) : KeepsInv (bankOp s red x y z gate) := by
  unfold Machine.bankOp
  dsimp only
  refine .ite h.trapNow ?_
  refine .ite h.release.next ?_
  refine h.release.withChk (fun _ => ?_)
  split
  · exact h.release.onCur.next
  · exact .ite h.release.next h.release.onCur.next

theorem State.Inv.bankStep {n k j ws} (h : s.Inv) : (s.bankStep n k j ws).1.Inv := by
  unfold State.bankStep
  dsimp only
  split
  · dsimp only
    exact h
  · split
    · split
      · dsimp only
        exact h.remoteTurn.of_fst ‹_›
      · dsimp only
        exact (h.remoteTurn.of_fst ‹_›).report
      · dsimp only
        exact (h.remoteTurn.of_fst ‹_›).touchAs
    · dsimp only
      exact h.postRemote.bankRmw

theorem State.Inv.execBankOperation {cell} (h : s.Inv) : KeepsInv (execBankOperation cell s) := by
  unfold Machine.execBankOperation
  dsimp only
  split
  · exact h.next
  · exact .ite h.next
      (KeepsInv.ite h.takeFree.bankStep.next (.ite h.takeFree.bankStep.onCell.next h.takeFree.bankStep.onCell.next))

/-! ### Epochs -/

theorem State.Inv.endContexts {w} (h : s.Inv) : (s.endContexts w).Inv :=
  h.foldl fun _ _ h => h.foldl fun _ _ h => h.endContext

theorem State.Inv.freeWorld {w} (h : s.Inv) : (s.freeWorld w).Inv := h.foldl fun _ _ h => h.freeRange

theorem State.Inv.execWorldScrubComplete {world} (h : s.Inv) : KeepsInv (execWorldScrubComplete world s) := by
  unfold Machine.execWorldScrubComplete
  split
  · exact h.next
  · exact .ite h.next
      ((((((((h.foldl fun _ _ h => h.shortScrub.onPart).endContexts).freeWorld).onLodge).update).onFunc).signal).next)

theorem State.Inv.execEpochEnd {world} (h : s.Inv) : KeepsInv (execEpochEnd world s) := by
  unfold Machine.execEpochEnd
  split
  · exact h.next
  · exact .ite h.next h.setWorld.next

theorem State.Inv.sweepLine {w e line} (h : s.Inv) (he : s.sweepLine w e line = some t) : t.Inv := by
  unfold State.sweepLine at he
  dsimp only at he
  split at he
  · cases he; exact h
  · split at he
    · cases he; exact h
    · split at he
      · cases he
      · obtain ⟨u, hu, rfl⟩ := Option.map_eq_some_iff.1 he
        exact (h.foldRead hu).stampWrite

theorem State.Inv.sweepSlice {w e slice} (h : s.Inv) (he : s.sweepSlice w e slice = some t) : t.Inv := by
  unfold State.sweepSlice at he
  suffices ∀ (l : Map (BitVec 48)) (r : Option State), (∀ s, r = some s → s.Inv) →
      l.foldl (fun r x => r.bind fun s => s.sweepLine w e x.1) r = some t → t.Inv from
    this _ _ (fun _ e => by cases e; exact h) he
  intro l
  induction l with
  | nil => exact fun r hr e => hr _ e
  | cons x l ih =>
    refine fun r hr => ih _ fun u hu => ?_
    obtain ⟨v, hv, hvu⟩ := Option.bind_eq_some_iff.1 hu
    exact (hr v hv).sweepLine hvu

theorem State.Inv.execSweepComplete {world slice} (h : s.Inv) : KeepsInv (execSweepComplete world slice s) := by
  unfold Machine.execSweepComplete
  split
  · exact h.next
  · refine .ite h.next ?_
    dsimp only
    split
    · exact h.endWorld.next
    · exact .ite (((h.sweepSlice ‹_›).endWorld).next) (((h.sweepSlice ‹_›).setWorld).next)

theorem State.Inv.execMeterIntervalExpiry {world} (h : s.Inv) : KeepsInv (execMeterIntervalExpiry world s) := by
  unfold Machine.execMeterIntervalExpiry
  split
  · exact h.next
  · exact .ite h.next (((h.foldl fun _ _ h => h.onPart.emit).onWorld).next)

/-! ### Page requests -/

theorem State.Inv.ownPage {w pa len home} (h : s.Inv) : (s.ownPage w pa len home).Inv := h.freeRange.update

theorem State.Inv.execMapPage {fn} (h : s.Inv) : KeepsInv (execMapPage fn s) := by
  unfold Machine.execMapPage
  refine h.withRequest (fun _ => ?_)
  dsimp only
  split
  · refine .ite h.mbDone ?_
    split
    · exact h.mbDone
    · exact .ite h.mbDone ((((State.Inv.ite h h.ownPage.stampRange).onWorld).answerRange).mbDone)
  · exact h.mbDone

theorem State.Inv.withPage {r ok k} (h : s.Inv) (hk : ∀ a b, (k a b).Inv) : (s.withPage r ok k).Inv := by
  unfold State.withPage
  dsimp only
  split
  · exact h.mbDone
  · exact .ite h.mbDone (.ite h (hk _ _))

theorem State.Inv.clearLeaf {w e} (h : s.Inv) : (s.clearLeaf w e).Inv :=
  State.Inv.ite h.onWorld h.flushRange.foldRange.dropLeaf

theorem State.Inv.execUnmapPage {fn} (h : s.Inv) : KeepsInv (execUnmapPage fn s) :=
  h.withRequest (fun _ => h.withPage (fun _ _ => ((h.foldl fun _ _ h => h.clearLeaf).onWorld).mbDone))

theorem State.Inv.execProtect {fn} (h : s.Inv) : KeepsInv (execProtect fn s) :=
  h.withRequest (fun _ => .ite h.mbDone (h.withPage (fun _ _ => h.onWorld.mbDone)))

theorem State.Inv.execEvict {fn} (h : s.Inv) : KeepsInv (execEvict fn s) :=
  h.withRequest (fun _ => h.withPage (fun _ _ => .ite h.mbDone h.flushRange.foldRange.devWrite.freeRange.onWorld.mbDone))

theorem State.Inv.execReturnPage {fn} (h : s.Inv) : KeepsInv (execReturnPage fn s) := by
  unfold Machine.execReturnPage
  refine h.withRequest (fun _ => ?_)
  dsimp only
  split
  · exact h.mbDone
  · exact h.mbDone
  · split
    · exact h.mbDone
    · refine .ite h.mbDone ?_
      split
      · exact h.zeroRange.endWorld.mbDone
      · exact h.ownPage.store.stampRange.onWorld.answerRange.mbDone

theorem State.Inv.clearWord {w pa} (h : s.Inv) : (s.clearWord w pa).Inv :=
  State.Inv.ite h.touchAs.store.setFull.endUncached h.store.setFull.sendFlit

theorem State.Inv.execClearfe {fn} (h : s.Inv) : KeepsInv (execClearfe fn s) := by
  unfold Machine.execClearfe
  refine h.withRequest (fun _ => ?_)
  dsimp only
  refine .ite h.mbDone ?_
  split
  · exact h.mbDone
  · exact .ite h.mbDone ((h.foldl fun _ _ h => h.clearWord).mbDone)

theorem State.Inv.execPair {fn} (h : s.Inv) : KeepsInv (execPair fn s) := by
  unfold Machine.execPair
  refine h.withRequest (fun _ => ?_)
  dsimp only
  split
  · exact h.mbDone
  · exact .ite h.mbDone h.setWorld.mbDone

theorem State.Inv.dropUnits {f keep} (h : s.Inv) : (s.dropUnits f keep).Inv := by
  unfold State.dropUnits
  exact (h.foldl fun _ _ h => h.freeRange).onFunc

theorem State.Inv.execStageMem {fn} (h : s.Inv) : KeepsInv (execStageMem fn s) := by
  unfold Machine.execStageMem
  refine h.withRequest fun _ => .ite h.mbDone (.ite h.mbDone (.ite h.dropUnits.mbDone ?_))
  split
  · exact h.mbDone
  · exact (h.takeUnits ‹_›).onFunc.mbDone

theorem State.Inv.execPowerLimit {fn} (h : s.Inv) : KeepsInv (execPowerLimit fn s) := by
  unfold Machine.execPowerLimit
  refine h.withRequest fun r => ?_
  dsimp only
  split
  · exact h.mbDone
  · next hn =>
    refine State.Inv.mbDone (s := { s with clock := { s.clock with limitW := leAt r.body 4 4 } }) ?_
    exact { memory := h.memory, stage := h.stage, unit := h.unit, clock := h.clock, pinned := h.pinned, limit := by simp; omega }

theorem State.Inv.execBvread {fn} (h : s.Inv) : KeepsInv (execBvread fn s) :=
  h.withRequest (fun _ => .ite h.mbDone (.ite h.mbDone h.mbDone))

/-! ### System instructions -/

theorem State.Inv.ctlChange {n f} (h : s.Inv) : KeepsInv (ctlChange s n f) :=
  KeepsInv.ite h.trapNow (.ite h.trapNow h.onCur.next)

theorem State.Inv.execCtlrd {d n} (h : s.Inv) : KeepsInv (execCtlrd d n s) := .ite h.trapNow h.writeResult

theorem State.Inv.runDual {f} (h : s.Inv) : KeepsInv (runDual f s) := by
  unfold Machine.runDual
  split
  · exact h.fpoAdd
  · exact h.fpoAdd
  · exact h.fpoMul
  · exact h.fpoFma
  · exact h.fpoMinMax
  · exact h.fpoMinMax
  · exact h.fpoCmp
  · exact h.fpoCvt
  · exact h.fpoSqrt
  · exact h.fpoRcp
  · exact h.selReg
  · exact h.dualLoad
  · exact h.dualLoad
  · exact h.dualStore
  · exact h.dualStore
  · exact h.streamOp
  · exact h.streamOp
  · exact h.streamOp
  · exact h.streamOp
  · exact h.streamOp
  · exact h.arbProduct
  · exact h.arbProduct
  · exact h.arbAclr
  · exact h.arbAscale
  · exact h.arbAtob
  · exact h.arbAcpy

theorem State.Inv.execDual (h : s.Inv) : KeepsInv (execDual s) := by
  unfold Machine.execDual
  dsimp only
  split
  · exact h.trapNow
  · exact h.runDual

theorem State.Inv.execAsyncReportDelivery {cell} (h : s.Inv) : KeepsInv (execAsyncReportDelivery cell s) :=
  KeepsInv.ite h.deliverReport.next h.next

theorem State.Inv.execWriteBufferPerform {cell} (h : s.Inv) : KeepsInv (execWriteBufferPerform cell s) := by
  unfold Machine.execWriteBufferPerform
  split
  · exact h.performOldest.next
  · exact h.performOldest.next
  · exact h.next

/-! ### Debugging -/

theorem State.Inv.execTracecfg {fn} (h : s.Inv) : KeepsInv (execTracecfg fn s) :=
  h.withRequest (fun _ => .ite h.mbDone (.ite h.mbDone (.ite h.mbDone h.onPart.mbDone)))

theorem State.Inv.execWorldend {fn} (h : s.Inv) : KeepsInv (execWorldend fn s) := h.withRequest (fun _ => h.onLodge.mbDone)

theorem State.Inv.onContext {p c f} (h : s.Inv) : (s.onContext p c f).Inv := h.onPart

theorem State.Inv.execAttach {fn} (h : s.Inv) : KeepsInv (execAttach fn s) := by
  unfold Machine.execAttach
  refine h.withRequest (fun _ => ?_)
  dsimp only
  refine .ite h.mbDone ?_
  refine .ite h.mbDone ?_
  split
  · exact h.mbDone
  · exact .ite h.mbDone (.ite h.mbDone h.onContext.mbDone)

theorem State.Inv.withDebug {fn code k} (h : s.Inv) (hk : ∀ a b c, (k a b c).Inv) : KeepsInv (s.withDebug fn code k) := by
  unfold State.withDebug
  refine h.withRequest (fun _ => ?_)
  dsimp only
  refine .ite h.mbDone ?_
  split
  · exact h.mbDone
  · exact .ite h.mbDone (.ite h.onContext.takeFree.onLodge.mbWrite (hk _ _ _))

theorem State.Inv.execSetbp {fn} (h : s.Inv) : KeepsInv (execSetbp fn s) := by
  unfold Machine.execSetbp
  refine h.withDebug (fun _ _ _ => ?_)
  dsimp only
  split
  · exact h.mbDone
  · exact .ite h.mbDone h.onCell.mbDone

theorem State.Inv.execClrbp {fn} (h : s.Inv) : KeepsInv (execClrbp fn s) :=
  h.withDebug (fun _ _ _ => .ite h.mbDone h.onCell.mbDone)

theorem State.Inv.execBreakpointHit {cell bp} (h : s.Inv) : KeepsInv (execBreakpointHit cell bp s) := by
  unfold Machine.execBreakpointHit
  dsimp only
  split
  · exact h.next
  · exact .ite h.next h.onCell.beginStop.next

theorem State.Inv.execDebugStop {fn} (h : s.Inv) : KeepsInv (execDebugStop fn s) :=
  h.withDebug (fun _ _ _ => .ite h.mbDone (.ite h ((State.Inv.ite h h.beginStop).mbDone)))

theorem State.Inv.resumePart {p} (h : s.Inv) : (s.resumePart p).Inv :=
  State.Inv.ite h ((h.foldl fun _ _ h => h.onCell).onPart)

theorem State.Inv.execDebugResume {fn} (h : s.Inv) : KeepsInv (execDebugResume fn s) :=
  h.withDebug (fun _ _ _ => .ite h.resumePart.mbDone h.mbDone)

theorem State.Inv.execDetach {fn} (h : s.Inv) : KeepsInv (execDetach fn s) :=
  h.withDebug (fun _ _ _ =>
    ((State.Inv.ite ((h.foldl fun _ _ h => h.onCell).resumePart) (h.foldl fun _ _ h => h.onCell)).onContext).mbDone)

theorem State.Inv.debugPut {d l} (h : s.Inv) : (s.debugPut d l).Inv := by
  unfold State.debugPut
  dsimp only
  split
  · exact h.onCell
  · exact h.onCell
  · exact h.onCell
  · exact h.onCell
  · exact h.onCell
  · exact h.onCell
  · exact h.unitWrite

theorem State.Inv.execDebugRead {fn} (h : s.Inv) : KeepsInv (execDebugRead fn s) := by
  unfold Machine.execDebugRead
  refine h.withDebug (fun _ _ _ => ?_)
  dsimp only
  refine .ite h.mbDone ?_
  refine .ite h.mbDone ?_
  split
  · exact h.mbDone
  · exact h.mbDone

theorem State.Inv.execDebugWrite {fn} (h : s.Inv) : KeepsInv (execDebugWrite fn s) := by
  unfold Machine.execDebugWrite
  refine h.withDebug (fun _ _ _ => ?_)
  dsimp only
  refine .ite h.mbDone ?_
  refine .ite h.mbDone ?_
  split
  · exact h.mbDone
  · exact .ite h.mbDone h.debugPut.mbDone

/-! ### Element instructions -/

theorem State.Inv.lvlTake {a ts} (h : s.Inv) : (s.lvlTake a ts).Inv :=
  State.Inv.ite h (.ite h.update.onCell h.setCell)

theorem State.Inv.execElemLvl {r} (h : s.Inv) : KeepsInv (execElemLvl r s) := by
  unfold Machine.execElemLvl
  split
  · exact h.next
  · exact .ite (h.fireSite (fun _ _ _ => h.passMarker) (fun _ _ => h.lvlTake)) h.putLevel.next

/-! ### Errors -/

theorem State.Inv.foldGroup {base skip} (h : s.Inv) : (s.foldGroup base skip).Inv :=
  h.foldl fun _ _ h => .ite h h.foldRange

theorem State.Inv.loseSealed {w l} (h : s.Inv) : (s.loseSealed w l).Inv :=
  State.Inv.ite h.endWorld (.ite h.sealingFails h)

theorem State.Inv.retireGroup {line} (h : s.Inv) : (s.retireGroup line).Inv :=
  State.Inv.ite h (h.update.flushRange.foldGroup.update.freeRange.update.hyperAdd.foldl fun _ _ h => h.loseSealed)

theorem State.Inv.quarantine {p line way} (h : s.Inv) : (s.quarantine p line way).Inv :=
  State.Inv.ite (h.foldl fun _ _ h => h.evictLine) (((h.foldl fun _ _ h => h.evictLine).update).hyperAdd)

theorem State.Inv.execDirtyLineError {pa} (h : s.Inv) : KeepsInv (execDirtyLineError pa s) := by
  unfold Machine.execDirtyLineError
  split
  · exact h.next
  · exact .ite h.next h.update.retireGroup.quarantine.machineCheck.next

theorem State.Inv.execCleanLineError {pa} (h : s.Inv) : KeepsInv (execCleanLineError pa s) := by
  unfold Machine.execCleanLineError
  dsimp only
  split
  · exact h.next
  · refine .ite h.next ?_
    split
    · exact h.hyperAdd.next
    · exact .ite h.hyperAdd.next h.endWorld.next

theorem State.Inv.checkAll {l} (h : s.Inv) : (s.checkAll l).Inv := h.foldl fun _ _ h => h.machineCheck

theorem State.Inv.dropDamaged {line} (h : s.Inv) : (s.dropDamaged line).Inv := by
  unfold State.dropDamaged
  split
  · exact h
  · dsimp only
    split
    · exact (State.Inv.ite h.update.store.update h.update).stampWrite
    · exact .ite h.update.store.update h.update

theorem State.Inv.uncorrectable {e} (h : s.Inv) : (s.uncorrectable e).Inv := by
  unfold State.uncorrectable
  split
  · exact h.checkCell
  · exact h.checkCell
  · exact h.checkCell
  · exact ((State.Inv.ite h h.foldRange).retireGroup).machineCheck
  · exact h.onCell.hyperAdd
  · exact h.dropDamaged.checkAll
  · exact h.checkAll.update
  · exact h.checkAll.update

theorem State.Inv.execTokenParityError {cell site dir} (h : s.Inv) : KeepsInv (execTokenParityError cell site dir s) :=
  KeepsInv.ite h.next h.checkCell.next

theorem State.Inv.execRemoteAccessTimeout {cell} (h : s.Inv) : KeepsInv (execRemoteAccessTimeout cell s) :=
  KeepsInv.ite h.checkCell.next h.next

/-! ### The KV page map -/

theorem State.Inv.kvCopy {q w p m c} (h : s.Inv) : (s.kvCopy q w p m c).Inv :=
  h.touchRange.touchRange.vaPut.endUncached.meter.countEvent.trace

theorem State.Inv.kvComplete {w q st result} (h : s.Inv) : (s.kvComplete w q st result).Inv := by
  unfold State.kvComplete
  dsimp only
  split
  · exact (State.Inv.ite h.unitWrite h).onOwner
  · exact (State.Inv.ite h.unitWrite h).finishStatus

theorem State.Inv.kvRun {w v q l} (h : s.Inv) : (s.kvRun w v q l).Inv := by
  unfold State.kvRun
  dsimp only
  refine .ite h.kvComplete ?_
  split
  · refine .ite h.unitRead.kvComplete ?_
    split
    · exact h.unitRead.kvComplete
    · exact .ite h.unitRead.kvComplete
        (State.Inv.ite h.unitRead.endWorld
          (State.Inv.ite h.unitRead.kvComplete
            (((h.unitRead.onWorld.foldl fun s a h => h.kvCopy).foldl fun s a h => h.unitWrite).kvComplete)))
  · refine .ite h.kvComplete ?_
    split
    · exact h.kvComplete
    · exact .ite h.kvComplete
        (State.Inv.ite h.endWorld
          (State.Inv.ite h.kvComplete (((h.onWorld.foldl fun s a h => h.kvCopy).foldl fun s a h => h.unitWrite).kvComplete)))

theorem State.Inv.execMapCommandExecute {world} (h : s.Inv) : KeepsInv (execMapCommandExecute world s) := by
  unfold Machine.execMapCommandExecute
  split
  · exact h.next
  · split
    · exact h.next
    · exact .ite h.setWorld.touchRange.kvRun.next h.setWorld.kvComplete.next

theorem State.Inv.issueKvm {n op addr} (h : s.Inv) : (s.issueKvm n op addr).Inv := h.onCell.onWorld

theorem State.Inv.kvmOp {op x gate} (h : s.Inv) : KeepsInv (kvmOp s op x gate) := by
  unfold Machine.kvmOp
  dsimp only
  refine .ite h.release.next ?_
  refine .ite h.release.trapNow ?_
  refine h.release.withChk (fun _ => ?_)
  refine .ite h.release.trapNow ?_
  split
  · exact h.release.onCur.next
  · exact h.release.issueKvm.onCur.next

theorem State.Inv.execKvmap {fn q node} (h : s.Inv) : KeepsInv (execKvmap fn q node s) := by
  unfold Machine.execKvmap
  refine h.withNode (fun _ => ?_)
  dsimp only
  refine .ite h ?_
  refine .ite h.finishStatus ?_
  split
  · exact h.finishStatus
  · exact h.onWorld

theorem State.Inv.mapNode {fn q node op k} (h : s.Inv) (hk : ∀ s a b c d, s.Inv → (k s a b c d).Inv) : KeepsInv
    (s.mapNode fn q node op k) := by
  unfold State.mapNode
  refine h.withNode (fun _ => ?_)
  refine .ite h ?_
  refine .ite h.finishStatus ?_
  split
  · exact h.finishStatus
  · split
    · exact h.finishStatus
    · exact .ite h (.ite (hk _ _ _ _ _ h.touchRange) h.kvComplete)

theorem State.Inv.execMapcreate {fn q node} (h : s.Inv) : KeepsInv (execMapcreate fn q node s) := by
  unfold Machine.execMapcreate
  refine h.mapNode fun _ _ _ _ _ h => .ite h.kvComplete (.ite h.kvComplete (.ite h.kvComplete ?_))
  split
  · exact h.kvComplete
  · exact ((h.takeBytes ‹_›).foldl fun _ _ h => h.stampRange).onWorld.kvComplete

theorem State.Inv.execMapdestroy {fn q node} (h : s.Inv) : KeepsInv (execMapdestroy fn q node s) := by
  unfold Machine.execMapdestroy
  refine h.mapNode (fun _ _ _ _ _ h => ?_)
  dsimp only
  refine .ite h.kvComplete ?_
  split
  · exact h.kvComplete
  · exact .ite h.kvComplete (((h.foldl fun _ _ h => h.foldRange.freeRange).onWorld).kvComplete)

/-! ### Sessions -/

theorem State.Inv.setSession {w x2 x} (h : s.Inv) : (s.setSession w x2 x).Inv := h.onWorld

theorem State.Inv.sopenRun {n x y sa} (h : s.Inv) : (s.sopenRun n x y sa).Inv := by
  unfold State.sopenRun
  dsimp only
  refine .ite h.unitRead ?_
  split
  · exact h.unitRead.onCell
  · split
    · exact h.unitRead.onCell
    · exact h.unitRead.takeLock.setSession.onCell

theorem State.Inv.execSopen {x y z gate} (h : s.Inv) : KeepsInv (execSopen x y z gate s) := by
  unfold Machine.execSopen
  dsimp only
  refine .ite h.trapNow ?_
  refine .ite h.release.next ?_
  split
  · exact h.release.onCur.next
  · exact h.release.withChk (fun _ => .ite h.release.next h.release.sopenRun.settle.next)

theorem State.Inv.ssealRun {n x y sa} (h : s.Inv) : (s.ssealRun n x y sa).Inv := by
  unfold State.ssealRun
  dsimp only
  split
  · exact h.onCell
  · next q _ =>
    split
    · exact h.onCell
    · have h' : (s.takeLock q).2.Inv := h.takeLock
      refine .ite h'.setSession.onCell (State.Inv.onCell (State.Inv.setSession ?_))
      split
      · exact h'.ringWrite
      · exact h'

theorem State.Inv.execSseal {x y z gate} (h : s.Inv) : KeepsInv (execSseal x y z gate s) := by
  unfold Machine.execSseal
  dsimp only
  refine .ite h.trapNow ?_
  refine .ite h.release.next ?_
  refine h.release.withChk (fun _ => ?_)
  split
  · exact h.release.onCur.next
  · exact .ite h.release.next h.release.ssealRun.settle.next

theorem State.Inv.execWpin {x y} (h : s.Inv) : KeepsInv (execWpin x y s) := .ite h.trapNow h.setCur.next

theorem State.Inv.execWunpin {x} (h : s.Inv) : KeepsInv (execWunpin x s) := .ite h.trapNow h.setCur.settleGens.next

theorem State.Inv.execWgen {x y} (h : s.Inv) : KeepsInv (execWgen x y s) := .ite h.trapNow h.setCur.next

/-! ### Gates -/

theorem State.Inv.firingFails {n word cause addr} (h : s.Inv) : (s.firingFails n word cause addr).Inv := h.report

theorem State.Inv.firingChk {α : Type} {n word} {r : Chk α} {k} (h : s.Inv) (ht : t.Inv) (hk : ∀ x, (k t x).Inv) :
    (s.firingChk t n word r k).Inv := by
  unfold State.firingChk
  split
  · exact hk _
  · exact ht.firingFails
  · exact h.endWorldOf
  · exact .ite ht.countDenied.onCell.firingFails (.ite h h.addFault)

theorem State.Inv.startArmed {n a word} (h : s.Inv) (ht : t.Inv) : (s.startArmed t n a word).Inv := by
  unfold State.startArmed
  split
  · exact ht.onCell
  · exact ht.onCell
  · exact .ite ht.onCell ht.firingFails
  · exact .ite ht.onCell ht.firingFails
  · exact ht.onCell
  · split
    · exact ht.firingFails
    · exact ht.onCell
  · exact ht.issueKvm
  · exact h.firingChk ht fun _ => ht.sopenRun
  · exact h.firingChk ht fun _ => ht.ssealRun
  · exact h.firingChk ht fun _ => ht.issueColl
  · exact h.firingChk ht fun _ => ht.onCell
  · exact h.firingChk ht fun _ => ht.onCell

theorem State.Inv.execGateTermFire {cell term} (h : s.Inv) : KeepsInv (execGateTermFire cell term s) := by
  unfold Machine.execGateTermFire
  dsimp only
  refine .ite h.next ?_
  split
  · exact h.next
  · exact ((h.startArmed h.setCell).onCell).next

/-! ### Attestation -/

theorem State.Inv.onSpdm {port f} (h : s.Inv) : (s.onSpdm port f).Inv := h.onLodge

theorem State.Inv.record {port l} (h : s.Inv) : (s.record port l).Inv := h.onSpdm

theorem State.Inv.spdmReply {port code l} (h : s.Inv) : (s.spdmReply port code l).Inv := h.emit

theorem State.Inv.spdmError {port} (h : s.Inv) : (s.spdmError port).Inv := h.spdmReply

theorem State.Inv.spdmAnswer {port req args code l} (h : s.Inv) : (s.spdmAnswer port req args code l).Inv :=
  h.record.spdmReply

theorem State.Inv.spdmSigned {port req args code l} (h : s.Inv) : (s.spdmSigned port req args code l).Inv := h.record.emit

theorem State.Inv.withSpdm {port ok} (h : s.Inv) (ht : t.Inv) : KeepsInv (s.withSpdm port ok t) :=
  .ite h.next (.ite ht.next h.spdmError.next)

theorem State.Inv.execGetVersion {port} (h : s.Inv) : KeepsInv (execGetVersion port s) := h.withSpdm h.onSpdm.spdmAnswer

theorem State.Inv.execGetCapabilities {port} (h : s.Inv) : KeepsInv (execGetCapabilities port s) :=
  h.withSpdm h.spdmAnswer.onSpdm

theorem State.Inv.execNegotiateAlgorithms {port offer} (h : s.Inv) : KeepsInv (execNegotiateAlgorithms port offer s) :=
  h.withSpdm h.spdmAnswer.onSpdm

theorem State.Inv.execGetDigests {port} (h : s.Inv) : KeepsInv (execGetDigests port s) := h.withSpdm h.spdmAnswer

theorem State.Inv.execGetCertificate {port slot} (h : s.Inv) : KeepsInv (execGetCertificate port slot s) :=
  h.withSpdm h.spdmAnswer

theorem State.Inv.execChallenge {port nonce} (h : s.Inv) : KeepsInv (execChallenge port nonce s) := h.withSpdm h.spdmSigned

theorem State.Inv.keepEvidence {index nonce l} (h : s.Inv) : (s.keepEvidence index nonce l).Inv := .ite h.onLodge h

theorem State.Inv.execGetMeasurements {port index nonce} (h : s.Inv) : KeepsInv (execGetMeasurements port index nonce s) := by
  unfold Machine.execGetMeasurements
  split
  · exact h.withSpdm h
  · refine h.withSpdm ?_
    split
    · exact h.spdmAnswer
    · exact h.spdmSigned.keepEvidence

theorem State.Inv.execKeyExchange {port peer} (h : s.Inv) : KeepsInv (execKeyExchange port peer s) := by
  unfold Machine.execKeyExchange
  exact h.withSpdm (State.Inv.ite h.spdmSigned.onSpdm.onLink h.spdmSigned.onSpdm)

theorem State.Inv.freshLink {port} (h : s.Inv) : (s.freshLink port).Inv := h.update.onLink

theorem State.Inv.measureOffset (h : s.Inv) : s.measureOffset.Inv := by
  unfold State.measureOffset
  exact h.update.onPod

theorem State.Inv.execFinishSession {port} (h : s.Inv) : KeepsInv (execFinishSession port s) :=
  h.withSpdm (State.Inv.ite h.spdmAnswer.onSpdm.freshLink.onLink.measureOffset.sendWaiting h.spdmAnswer.onSpdm)

theorem State.Inv.execKeyUpdate {port} (h : s.Inv) : KeepsInv (execKeyUpdate port s) :=
  h.withSpdm ((State.Inv.ite h.freshLink h).spdmReply)

theorem State.Inv.loseHeld (h : s.Inv) : s.loseHeld.Inv := h.foldl fun _ _ h => .ite h.machineCheck h

theorem State.Inv.dropSession {port} (h : s.Inv) : (s.dropSession port).Inv :=
  State.Inv.ite ((h.onSpdm.onLink.signal.foldl fun _ _ h => h.sendFlit).loseHeld) h.onSpdm

theorem State.Inv.execEndSession {port} (h : s.Inv) : KeepsInv (execEndSession port s) := h.withSpdm h.spdmReply.dropSession

theorem State.Inv.execLinkKeyUpdateDue {port} (h : s.Inv) : KeepsInv (execLinkKeyUpdateDue port s) :=
  KeepsInv.ite h.freshLink.next h.next

theorem State.Inv.execPqsig {port} (h : s.Inv) : KeepsInv (execPqsig port s) := h.withSpdm h.emit

theorem State.Inv.execPqchain {port} (h : s.Inv) : KeepsInv (execPqchain port s) := h.withSpdm h.emit

theorem State.Inv.execGetmeter {port part} (h : s.Inv) : KeepsInv (execGetmeter port part s) := by
  unfold Machine.execGetmeter
  exact h.withSpdm h.onPart.emit

theorem State.Inv.execGetepoch {port world} (h : s.Inv) : KeepsInv (execGetepoch port world s) := by
  unfold Machine.execGetepoch
  exact h.withSpdm h.emit

theorem State.Inv.execGetrevoke {port} (h : s.Inv) : KeepsInv (execGetrevoke port s) := h.withSpdm h.emit

/-! ### The pod -/

theorem State.Inv.serveRemote {src cell world pa cls op} (h : s.Inv) : (s.serveRemote src cell world pa cls op).Inv := by
  unfold State.serveRemote
  split
  · exact h.answerRemote
  · dsimp only
    split
    · exact h.meter.touchAs.answerRemote
    · exact h.meter.touchAs.store.endUncached.answerRemote
    · exact h.meter.touchAs.store.endUncached.answerRemote
    · exact .ite h.meter.touchAs.answerRemote (.ite h.meter.touchAs h.meter.touchAs.onPod.sendFlit)
    · exact .ite h.meter.touchAs.endUncached.answerRemote h.meter.touchAs.store.setFull.wake.endUncached.answerRemote
    · exact h.meter.touchAs.store.setFull.endUncached.answerRemote
    · exact h.meter.touchAs.answerRemote

theorem State.Inv.takeReply {n pa data refused} (h : s.Inv) : (s.takeReply n pa data refused).Inv := by
  unfold State.takeReply
  split
  · exact h
  · exact .ite (.ite ((State.Inv.ite h h.meter).onCell) (((State.Inv.ite h h.meter).onCell).report))
      (State.Inv.ite (.ite (((State.Inv.ite h h.meter).onCell).setFull)
        (((((State.Inv.ite h h.meter).onCell).store).setFull).wake)) (((State.Inv.ite h h.meter).onCell).store))

theorem State.Inv.holdRemote {n pa} (h : s.Inv) : (s.holdRemote n pa).Inv := by
  unfold State.holdRemote
  split
  · exact h
  · exact .ite h.onCell.countCell.onCell h.onCell

theorem State.Inv.execPortRetrainComplete {port} (h : s.Inv) : KeepsInv (execPortRetrainComplete port s) :=
  KeepsInv.ite h.onLink.sendWaiting.next h.next

theorem Memory.wf_renumbered {unit a b m} : Memory.wf (renumbered (Map.set 0) unit a b m) = true := by
  unfold renumbered
  suffices ∀ r, Memory.wf r = true → Memory.wf (m.foldl _ r) = true from this [] rfl
  induction m with
  | nil => exact fun r hr => hr
  | cons e m ih =>
    intro r hr
    apply ih
    dsimp only
    split
    · exact Map.wf_set _ _ _ _ hr
    · split
      · exact hr
      · exact Map.wf_set _ _ _ _ hr

theorem State.Inv.renumber {b} (h : s.Inv) : (s.renumber b).Inv :=
  .ite h (h.updateMemory Memory.wf_renumbered h.memory.2)

theorem State.Inv.newAnchor {old} (h : s.Inv) : (s.newAnchor old).Inv :=
  State.Inv.ite h.onPod (.ite h h.measureOffset)

theorem State.Inv.execPodMemberList {members routes} (h : s.Inv) : KeepsInv (execPodMemberList members routes s) := by
  unfold Machine.execPodMemberList
  refine .ite h.next ?_
  dsimp only
  split
  · exact .ite h.renumber.onPod.newAnchor.next h.next
  · exact h.renumber.onPod.newAnchor.sendWaiting.next

theorem State.Inv.execPreparePod {origin fn x2 gen digest parts} (h : s.Inv) : KeepsInv
    (execPreparePod origin fn x2 gen digest parts s) := by
  unfold Machine.execPreparePod
  dsimp only
  split
  · exact h.tellPod.next
  · exact h.onPod.tellPod.next

theorem State.Inv.execStartPod {origin fn gen t node args} (h : s.Inv) : KeepsInv (execStartPod origin fn gen t node args s) :=
  KeepsInv.ite h.onPod.next h.tellPod.next

theorem State.Inv.podDiscard {origin fn gen} (h : s.Inv) : (s.podDiscard origin fn gen).Inv := by
  unfold State.podDiscard
  split
  · exact h
  · exact h.discardLaunch

theorem State.Inv.execAbortPod {origin fn gen} (h : s.Inv) : KeepsInv (execAbortPod origin fn gen s) :=
  h.onPod.podDiscard.next

theorem State.Inv.beginPart {e x args budget level} (h : s.Inv) : (s.beginPart e x args budget level).Inv := by
  unfold State.beginPart
  split
  · exact h.launchEnded
  · exact h.addLaunch.dispatchLaunch

theorem State.Inv.beginReserved {r} (h : s.Inv) : (s.beginReserved r).Inv := h.beginPart

theorem State.Inv.beginOwn {p} (h : s.Inv) : (s.beginOwn p).Inv := by
  unfold State.beginOwn
  split
  · exact h
  · exact h.onPod.beginPart

theorem State.Inv.execPodStartTime (h : s.Inv) : KeepsInv (execPodStartTime s) := by
  unfold Machine.execPodStartTime
  dsimp only
  apply State.Inv.next
  refine State.Inv.foldl ?_ (fun s a h => h.dispatchLaunch)
  refine State.Inv.foldl ?_ (fun _ _ h => h.beginReserved)
  split
  · exact .ite h.onPod.beginOwn h.onPod
  · exact h.onPod

theorem State.Inv.podGo {p} (h : s.Inv) : (s.podGo p).Inv := h.onPod.sendPod

theorem State.Inv.execPodLaunch {fn q node} (h : s.Inv) : KeepsInv (execPodLaunch fn q node s) := by
  unfold Machine.execPodLaunch
  refine h.withNode (fun _ => ?_)
  dsimp only
  refine .ite h ?_
  refine .ite h.finishStatus ?_
  refine .ite h.finishStatus.signal ?_
  split
  · exact h.finishStatus
  · split
    · exact h.finishStatus
    · exact .ite h.onPod.podGo h.onPod.sendPod

theorem State.Inv.execReadyPod {target} (h : s.Inv) : KeepsInv (execReadyPod target s) := by
  unfold Machine.execReadyPod
  split
  · exact h.next
  · exact .ite h.next (.ite h.podGo.next h.onPod.next)

theorem State.Inv.podAbort {p st} (h : s.Inv) : (s.podAbort p st).Inv := h.sendPod.onPod.podDiscard.finishStatus

theorem State.Inv.execRefusePod {target status} (h : s.Inv) : KeepsInv (execRefusePod target status s) := by
  unfold Machine.execRefusePod
  split
  · exact h.next
  · refine .ite h.next ?_
    split
    · exact h.podAbort.signal.next
    · exact .ite h.podAbort.next h.next
    · exact .ite h.podAbort.next h.next

theorem State.Inv.execPodPrepareTimeout (h : s.Inv) : KeepsInv (execPodPrepareTimeout s) := by
  unfold Machine.execPodPrepareTimeout
  split
  · exact h.next
  · exact .ite h.podAbort.signal.next h.next

theorem State.Inv.execDonePod {target gen status cause} (h : s.Inv) : KeepsInv (execDonePod target gen status cause s) := by
  unfold Machine.execDonePod
  split
  · exact h.next
  · exact .ite h.podPart.next h.next

theorem State.Inv.execPodTargetSessionEnd {target} (h : s.Inv) : KeepsInv (execPodTargetSessionEnd target s) := by
  unfold Machine.execPodTargetSessionEnd
  split
  · exact h.next
  · exact .ite h.podPart.signal.next h.next

theorem State.Inv.takePod {src m} (h : s.Inv) : KeepsInv (s.takePod src m) := by
  unfold State.takePod
  split
  · exact h.execPreparePod
  · exact h.execReadyPod
  · exact h.execRefusePod
  · exact h.execStartPod
  · exact h.execAbortPod
  · exact h.execDonePod

theorem State.Inv.takeFlit {f} (h : s.Inv) : KeepsInv (s.takeFlit f) := by
  unfold State.takeFlit
  refine .ite (.ite h.sendFlit.next h.hyperAdd.next) ?_
  split
  · exact h.next
  · exact h.serveRemote.next
  · exact h.takeReply.next
  · exact h.holdRemote.next
  · exact h.takePod

theorem State.Inv.execFlitReceive {port flit} (h : s.Inv) : KeepsInv (execFlitReceive port flit s) :=
  KeepsInv.ite h.next (.ite h.hyperAdd.onLink.next
    (KeepsInv.ite h.dropSession.next (.ite h.next h.onLink.takeFlit)))

/-! ### Resets of functions -/

theorem State.Inv.endWorlds {cause} (h : s.Inv) : (s.endWorlds cause).Inv := (h.foldl fun _ _ h => h.endWorld).completeAll

theorem State.Inv.execThermalStop (h : s.Inv) : KeepsInv (execThermalStop s) := by
  have hr : (((s.signal 0 7).endWorlds Cause.mchk.code).renumber 0).restart.Inv := h.signal.endWorlds.renumber.restart
  exact State.Inv.next { memory := hr.memory, stage := hr.stage, unit := Nat.one_pos, clock := hr.clock, pinned := hr.pinned
                         limit := hr.limit }

/-! ### The dispatcher -/

/-- Each instruction keeps the invariant, as the operation of its own does. -/
theorem State.Inv.exec {i} (h : s.Inv) : KeepsInv (exec i s) := by
  cases i with
  | add | sub | mul | mulh | mulhn | div | divn | rem | remn | and | or | xor | andn | shl | shr | sha | rot | min | max |
    minn | maxn | slt | sltn | seq =>
    simp only [exec_add, exec_sub, exec_mul, exec_mulh, exec_mulhn, exec_div, exec_divn, exec_rem, exec_remn, exec_and,
      exec_or, exec_xor, exec_andn, exec_shl, exec_shr, exec_sha, exec_rot, exec_min, exec_max, exec_minn, exec_maxn, exec_slt,
      exec_sltn, exec_seq]
    exact h.opr
  | clz | ctz | popc | addi | andi | ori | xori | shlImmediate | shrImmediate | shaImmediate | rotImmediate | slti | sltni |
    movk =>
    simp only [exec_clz, exec_ctz, exec_popc, exec_addi, exec_andi, exec_ori, exec_xori, exec_shlImmediate, exec_shrImmediate,
      exec_shaImmediate, exec_rotImmediate, exec_slti, exec_sltni, exec_movk]
    exact h.opi
  | sel => rw [exec_sel]; exact h.selReg
  | lui => rw [exec_lui]; exact h.writeResult
  | beq | bne | blt | bge | bltn | bgen =>
    simp only [exec_beq, exec_bne, exec_blt, exec_bge, exec_bltn, exec_bgen]
    exact h.branchIf
  | dbnz => rw [exec_dbnz]; exact h.execDbnz
  | jmp | call | jr | jrLink =>
    simp only [exec_jmp, exec_call, exec_jr, exec_jrLink]
    exact h.jumpTo
  | ldb | ldh | ldw | ldd | ldbn | ldhn | ldwn =>
    simp only [exec_ldb, exec_ldh, exec_ldw, exec_ldd, exec_ldbn, exec_ldhn, exec_ldwn]
    exact h.loadOp
  | lds => rw [exec_lds]; exact h.execLds
  | stb | sth | stw | std =>
    simp only [exec_stb, exec_sth, exec_stw, exec_std]
    exact h.storeOp
  | sts => rw [exec_sts]; exact h.execSts
  | ldaq => rw [exec_ldaq]; exact h.execLdaq
  | strl => rw [exec_strl]; exact h.execStrl
  | fence => rw [exec_fence]; exact h.execFence
  | aadd | amin | amax | aminn | amaxn | aand | aor | axor | axchg | acas | afadd =>
    simp only [exec_aadd, exec_amin, exec_amax, exec_aminn, exec_amaxn, exec_aand, exec_aor, exec_axor, exec_axchg, exec_acas,
      exec_afadd]
    exact h.atomicOp
  | ldfe => rw [exec_ldfe]; exact h.execLdfe
  | stfe => rw [exec_stfe]; exact h.execStfe
  | fepeek => rw [exec_fepeek]; exact h.execFepeek
  | fadd | fsub =>
    simp only [exec_fadd, exec_fsub]
    exact h.fpoAdd
  | fmul => rw [exec_fmul]; exact h.fpoMul
  | ffma => rw [exec_ffma]; exact h.fpoFma
  | fmin | fmax =>
    simp only [exec_fmin, exec_fmax]
    exact h.fpoMinMax
  | fcmp => rw [exec_fcmp]; exact h.fpoCmp
  | fcvt => rw [exec_fcvt]; exact h.fpoCvt
  | fsqrt => rw [exec_fsqrt]; exact h.fpoSqrt
  | frcp => rw [exec_frcp]; exact h.fpoRcp
  | ctlrd => rw [exec_ctlrd]; exact h.execCtlrd
  | ctlwr | ctlset | ctlclr =>
    simp only [exec_ctlwr, exec_ctlset, exec_ctlclr]
    exact h.ctlChange
  | snop | sepoch =>
    simp only [exec_snop, exec_sepoch]
    exact h.onCur.next
  | trap => rw [exec_trap]; exact h.trapNow
  | waitev => rw [exec_waitev]; exact h.execWaitev
  | yield => rw [exec_yield]; exact h.execYield
  | kret => rw [exec_kret]; exact h.execKret
  | brk => rw [exec_brk]; exact h.execBrk
  | halt => rw [exec_halt]; exact h.execHalt
  | dual => rw [exec_dual]; exact h.execDual
  | scopy | sfeed | sdrain | sgath | sscat | stfill =>
    simp only [exec_scopy, exec_sfeed, exec_sdrain, exec_sgath, exec_sscat, exec_stfill]
    exact h.streamOp
  | swait => rw [exec_swait]; exact h.execSwait
  | scancel => rw [exec_scancel]; exact h.execScancel
  | sunseal => rw [exec_sunseal]; exact h.execSunseal
  | mma | mmag =>
    simp only [exec_mma, exec_mmag]
    exact h.arbProduct
  | aclr => rw [exec_aclr]; exact h.arbAclr
  | ascale => rw [exec_ascale]; exact h.arbAscale
  | atob => rw [exec_atob]; exact h.arbAtob
  | acpy => rw [exec_acpy]; exact h.arbAcpy
  | mwait => rw [exec_mwait]; exact h.execMwait
  | bdrop => rw [exec_bdrop]; exact h.arbIssue
  | binit => rw [exec_binit]; exact h.execBinit
  | barrive => rw [exec_barrive]; exact h.execBarrive
  | bexpect => rw [exec_bexpect]; exact h.execBexpect
  | bwaitb => rw [exec_bwaitb]; exact h.execBwaitb
  | btest => rw [exec_btest]; exact h.execBtest
  | evsetTerm => rw [exec_evsetTerm]; exact h.execEvsetTerm
  | evsetCounter => rw [exec_evsetCounter]; exact h.execEvsetCounter
  | evsetTimer => rw [exec_evsetTimer]; exact h.execEvsetTimer
  | evclr => rw [exec_evclr]; exact h.execEvclr
  | evfire => rw [exec_evfire]; exact h.execEvfire
  | evread => rw [exec_evread]; exact h.setCur.next
  | brun => rw [exec_brun]; exact h.execBrun
  | bwait => rw [exec_bwait]; exact h.execBwait
  | bcfg => rw [exec_bcfg]; exact h.execBcfg
  | bstat => rw [exec_bstat]; exact h.execBstat
  | bkill => rw [exec_bkill]; exact h.execBkill
  | kvalloc | kvapp | kvfork | kvrel | kvlook | kvdraft | kvswap | kvpfx | kvdrop =>
    simp only [exec_kvalloc, exec_kvapp, exec_kvfork, exec_kvrel, exec_kvlook, exec_kvdraft, exec_kvswap, exec_kvpfx,
      exec_kvdrop]
    exact h.kvmOp
  | sopen => rw [exec_sopen]; exact h.execSopen
  | sseal => rw [exec_sseal]; exact h.execSseal
  | smeter => rw [exec_smeter]; exact h.meter.onCur.next
  | car | cbc | cag =>
    simp only [exec_car, exec_cbc, exec_cag]
    exact h.collOp
  | cwait => rw [exec_cwait]; exact h.execCwait
  | bkop | bkred =>
    simp only [exec_bkop, exec_bkred]
    exact h.bankOp
  | wpin => rw [exec_wpin]; exact h.execWpin
  | wunpin => rw [exec_wunpin]; exact h.execWunpin
  | wgen => rw [exec_wgen]; exact h.execWgen
  | elemMov | elemConst | elemTid | elemAdd | elemSub | elemMul | elemMulhi | elemMad | elemMin | elemMax | elemAbs |
    elemNeg | elemAnd | elemOr | elemXor | elemShl | elemShr | elemSha | elemClz | elemPopc | elemBfx | elemCmp | elemSel |
    elemFadd | elemFsub | elemFmul | elemFma | elemFmin | elemFmax | elemFabs | elemFneg | elemFcmp | elemRcp | elemSqrt |
    elemRsq | elemExp2 | elemLog2 | elemTanh | elemSin | elemCos | elemCvt | elemPack | elemUnpk | elemQnt | elemDqnt =>
    simp only [exec_elemMov, exec_elemConst, exec_elemTid, exec_elemAdd, exec_elemSub, exec_elemMul, exec_elemMulhi,
      exec_elemMad, exec_elemMin, exec_elemMax, exec_elemAbs, exec_elemNeg, exec_elemAnd, exec_elemOr, exec_elemXor,
      exec_elemShl, exec_elemShr, exec_elemSha, exec_elemClz, exec_elemPopc, exec_elemBfx, exec_elemCmp, exec_elemSel,
      exec_elemFadd, exec_elemFsub, exec_elemFmul, exec_elemFma, exec_elemFmin, exec_elemFmax, exec_elemFabs, exec_elemFneg,
      exec_elemFcmp, exec_elemRcp, exec_elemSqrt, exec_elemRsq, exec_elemExp2, exec_elemLog2, exec_elemTanh, exec_elemSin,
      exec_elemCos, exec_elemCvt, exec_elemPack, exec_elemUnpk, exec_elemQnt, exec_elemDqnt]
    exact h.aluStep
  | elemRsum | elemRmax | elemRmin | elemRcnt =>
    simp only [exec_elemRsum, exec_elemRmax, exec_elemRmin, exec_elemRcnt]
    exact h.redStep
  | elemLvl => rw [exec_elemLvl]; exact h.execElemLvl
  | elemLin | elemStin =>
    simp only [exec_elemLin, exec_elemStin]
    exact h.issueStep
  | elemLout => rw [exec_elemLout]; exact h.execElemLout
  | elemLd | elemLdaq =>
    simp only [exec_elemLd, exec_elemLdaq]
    exact h.loadNode
  | elemLdfe => rw [exec_elemLdfe]; exact h.execElemLdfe
  | elemSt | elemStrl =>
    simp only [exec_elemSt, exec_elemStrl]
    exact h.wordStore
  | elemStfe => rw [exec_elemStfe]; exact h.execElemStfe
  | elemAtm => rw [exec_elemAtm]; exact h.execElemAtm
  | elemLds => rw [exec_elemLds]; exact h.execElemLds
  | elemSts => rw [exec_elemSts]; exact h.execElemSts
  | elemPft => rw [exec_elemPft]; exact h.execElemPft
  | elemAcrd => rw [exec_elemAcrd]; exact h.execElemAcrd
  | elemAcwr => rw [exec_elemAcwr]; exact h.execElemAcwr
  | elemAfpush => rw [exec_elemAfpush]; exact h.execElemAfpush
  | elemStout => rw [exec_elemStout]; exact h.execElemStout
  | elemBkadd => rw [exec_elemBkadd]; exact h.execElemBkadd
  | elemNext | elemPark =>
    simp only [exec_elemNext, exec_elemPark]
    exact h.controlStep
  | elemBarv => rw [exec_elemBarv]; exact h.execElemBarv
  | elemTrapx => rw [exec_elemTrapx]; exact h.execElemTrapx
  | illegalInstructionWord => rw [exec_illegalInstructionWord]; exact h.takeTrap.next
  | blockChoice => rw [exec_blockChoice]; exact h.execBlockChoice
  | passEnd => rw [exec_passEnd]; exact h.execPassEnd
  | asyncReportDelivery => rw [exec_asyncReportDelivery]; exact h.execAsyncReportDelivery
  | streamRequestIssue => rw [exec_streamRequestIssue]; exact h.execStreamRequestIssue
  | streamElementLand => rw [exec_streamElementLand]; exact h.execStreamElementLand
  | fifoRefetch => rw [exec_fifoRefetch]; exact h.execFifoRefetch
  | arbourBLoad => rw [exec_arbourBLoad]; exact h.execArbourBLoad
  | arbourRowConsume => rw [exec_arbourRowConsume]; exact h.execArbourRowConsume
  | arbourOpComplete => rw [exec_arbourOpComplete]; exact h.execArbourOpComplete
  | gateTermFire => rw [exec_gateTermFire]; exact h.execGateTermFire
  | eventTimer => rw [exec_eventTimer]; exact h.execEventTimer
  | bankOperation => rw [exec_bankOperation]; exact h.execBankOperation
  | collectiveComplete => rw [exec_collectiveComplete]; exact h.execCollectiveComplete
  | mapCommandExecute => rw [exec_mapCommandExecute]; exact h.execMapCommandExecute
  | breakpointHit => rw [exec_breakpointHit]; exact h.execBreakpointHit
  | elemRoute => rw [exec_elemRoute]; exact h.execElemRoute
  | coldReset => rw [exec_coldReset]; exact h.renumber.restart.next
  | moduleReset => rw [exec_moduleReset]; exact h.endWorlds.renumber.restart.update.next
  | bootStageComplete => rw [exec_bootStageComplete]; exact h.execBootStageComplete
  | powerSample => rw [exec_powerSample]; exact h.execPowerSample
  | clockRaiseStep => rw [exec_clockRaiseStep]; exact h.execClockRaiseStep
  | thermalThrottle => rw [exec_thermalThrottle]; exact h.execThermalThrottle
  | thermalThrottleRelease => rw [exec_thermalThrottleRelease]; exact h.execThermalThrottleRelease
  | thermalStop => rw [exec_thermalStop]; exact h.execThermalStop
  | qtailWrite => rw [exec_qtailWrite]; exact h.execQtailWrite
  | qstatCheadWrite => rw [exec_qstatCheadWrite]; exact h.execQstatCheadWrite
  | qctlEnable => rw [exec_qctlEnable]; exact h.execQctlEnable
  | qctlDisable => rw [exec_qctlDisable]; exact h.execQctlDisable
  | qevdbWrite => rw [exec_qevdbWrite]; exact h.execQevdbWrite
  | pauseAck => rw [exec_pauseAck]; exact h.execPauseAck
  | fqctlWrite => rw [exec_fqctlWrite]; exact h.execFqctlWrite
  | fqheadWrite => rw [exec_fqheadWrite]; exact h.execFqheadWrite
  | registerWrite => rw [exec_registerWrite]; exact h.execRegisterWrite
  | hostRequest => rw [exec_hostRequest]; exact h.request.next
  | ideCheckFailure => rw [exec_ideCheckFailure]; exact h.execIdeCheckFailure
  | ideKmKeyProg => rw [exec_ideKmKeyProg]; exact h.execIdeKmKeyProg
  | ideKmKSetGo => rw [exec_ideKmKSetGo]; exact h.execIdeKmKSetGo
  | lockInterface => rw [exec_lockInterface]; exact h.execLockInterface
  | getDeviceInterfaceReport => rw [exec_getDeviceInterfaceReport]; exact h.execGetDeviceInterfaceReport
  | startInterface => rw [exec_startInterface]; exact h.execStartInterface
  | stopInterface => rw [exec_stopInterface]; exact h.execStopInterface
  | functionLevelReset => rw [exec_functionLevelReset]; exact h.execFunctionLevelReset
  | getVersion => rw [exec_getVersion]; exact h.execGetVersion
  | getCapabilities => rw [exec_getCapabilities]; exact h.execGetCapabilities
  | negotiateAlgorithms => rw [exec_negotiateAlgorithms]; exact h.execNegotiateAlgorithms
  | getDigests => rw [exec_getDigests]; exact h.execGetDigests
  | getCertificate => rw [exec_getCertificate]; exact h.execGetCertificate
  | challenge => rw [exec_challenge]; exact h.execChallenge
  | getMeasurements => rw [exec_getMeasurements]; exact h.execGetMeasurements
  | keyExchange => rw [exec_keyExchange]; exact h.execKeyExchange
  | finishSession => rw [exec_finishSession]; exact h.execFinishSession
  | keyUpdate => rw [exec_keyUpdate]; exact h.execKeyUpdate
  | endSession => rw [exec_endSession]; exact h.execEndSession
  | pqsig => rw [exec_pqsig]; exact h.execPqsig
  | pqchain => rw [exec_pqchain]; exact h.execPqchain
  | getmeter => rw [exec_getmeter]; exact h.execGetmeter
  | getepoch => rw [exec_getepoch]; exact h.execGetepoch
  | getrevoke => rw [exec_getrevoke]; exact h.execGetrevoke
  | linkKeyUpdateDue => rw [exec_linkKeyUpdateDue]; exact h.execLinkKeyUpdateDue
  | flitReceive => rw [exec_flitReceive]; exact h.execFlitReceive
  | podMemberList => rw [exec_podMemberList]; exact h.execPodMemberList
  | preparePod => rw [exec_preparePod]; exact h.execPreparePod
  | readyPod => rw [exec_readyPod]; exact h.execReadyPod
  | refusePod => rw [exec_refusePod]; exact h.execRefusePod
  | startPod => rw [exec_startPod]; exact h.execStartPod
  | abortPod => rw [exec_abortPod]; exact h.execAbortPod
  | donePod => rw [exec_donePod]; exact h.execDonePod
  | podPrepareTimeout => rw [exec_podPrepareTimeout]; exact h.execPodPrepareTimeout
  | podReservationLapse => rw [exec_podReservationLapse]; exact h.onPod.next
  | podStartTime => rw [exec_podStartTime]; exact h.execPodStartTime
  | podTargetSessionEnd => rw [exec_podTargetSessionEnd]; exact h.execPodTargetSessionEnd
  | remoteAccessTimeout => rw [exec_remoteAccessTimeout]; exact h.execRemoteAccessTimeout
  | cxlPoisonRead => rw [exec_cxlPoisonRead]; exact h.machineCheck.next
  | cxlPortDown => rw [exec_cxlPortDown]; exact h.update.checkAll.next
  | graphFetch => rw [exec_graphFetch]; exact h.execGraphFetch
  | nodeComplete => rw [exec_nodeComplete]; exact h.execNodeComplete
  | escalationTimeout => rw [exec_escalationTimeout]; exact h.execEscalationTimeout
  | launch => rw [exec_launch]; exact h.execLaunch
  | podLaunch => rw [exec_podLaunch]; exact h.execPodLaunch
  | cellStart => rw [exec_cellStart]; exact h.execCellStart
  | copyNode => rw [exec_copyNode]; exact h.execCopyNode
  | kvmap => rw [exec_kvmap]; exact h.execKvmap
  | mapcreate => rw [exec_mapcreate]; exact h.execMapcreate
  | mapdestroy => rw [exec_mapdestroy]; exact h.execMapdestroy
  | meterNode => rw [exec_meterNode]; exact h.execMeterNode
  | createWorld => rw [exec_createWorld]; exact h.execCreateWorld
  | bindContext => rw [exec_bindContext]; exact h.execBindContext
  | unbindContext => rw [exec_unbindContext]; exact h.execUnbindContext
  | loadSeal => rw [exec_loadSeal]; exact h.execLoadSeal
  | destroyWorld => rw [exec_destroyWorld]; exact h.execDestroyWorld
  | openSession => rw [exec_openSession]; exact h.execOpenSession
  | closeSession => rw [exec_closeSession]; exact h.execCloseSession
  | rekey => rw [exec_rekey]; exact h.execRekey
  | pkgload => rw [exec_pkgload]; exact h.execPkgload
  | signalNode => rw [exec_signalNode]; exact h.execSignalNode
  | waitNode => rw [exec_waitNode]; exact h.execWaitNode
  | waitTimeout => rw [exec_waitTimeout]; exact h.execWaitTimeout
  | createPartition => rw [exec_createPartition]; exact h.execCreatePartition
  | destroyPartition => rw [exec_destroyPartition]; exact h.execDestroyPartition
  | setEscalationTime | setQuantum | setQuiesceDeadline | setScopePolicy =>
    simp only [exec_setEscalationTime, exec_setQuantum, exec_setQuiesceDeadline, exec_setScopePolicy]
    exact h.withPolicy
  | fwStage => rw [exec_fwStage]; exact h.execFwStage
  | fwActivate => rw [exec_fwActivate]; exact h.execFwActivate
  | quiesce => rw [exec_quiesce]; exact h.execQuiesce
  | fwActivationResult => rw [exec_fwActivationResult]; exact h.execFwActivationResult
  | mapPage => rw [exec_mapPage]; exact h.execMapPage
  | unmapPage => rw [exec_unmapPage]; exact h.execUnmapPage
  | protect => rw [exec_protect]; exact h.execProtect
  | evict => rw [exec_evict]; exact h.execEvict
  | returnPage => rw [exec_returnPage]; exact h.execReturnPage
  | clearfe => rw [exec_clearfe]; exact h.execClearfe
  | pair => rw [exec_pair]; exact h.execPair
  | nomap => rw [exec_nomap]; exact h.execNomap
  | stageMem => rw [exec_stageMem]; exact h.execStageMem
  | powerLimit => rw [exec_powerLimit]; exact h.execPowerLimit
  | bvread => rw [exec_bvread]; exact h.execBvread
  | tracecfg => rw [exec_tracecfg]; exact h.execTracecfg
  | attach => rw [exec_attach]; exact h.execAttach
  | detach => rw [exec_detach]; exact h.execDetach
  | setbp => rw [exec_setbp]; exact h.execSetbp
  | clrbp => rw [exec_clrbp]; exact h.execClrbp
  | debugStop => rw [exec_debugStop]; exact h.execDebugStop
  | debugResume => rw [exec_debugResume]; exact h.execDebugResume
  | debugRead => rw [exec_debugRead]; exact h.execDebugRead
  | debugWrite => rw [exec_debugWrite]; exact h.execDebugWrite
  | worldend => rw [exec_worldend]; exact h.execWorldend
  | faultRecordPost => rw [exec_faultRecordPost]; exact h.execFaultRecordPost
  | quantumExpiry => rw [exec_quantumExpiry]; exact h.execQuantumExpiry
  | preemptRequest => rw [exec_preemptRequest]; exact h.execPreemptRequest
  | cellSaveComplete => rw [exec_cellSaveComplete]; exact h.execCellSaveComplete
  | watchdogExpiry => rw [exec_watchdogExpiry]; exact h.execWatchdogExpiry
  | partitionScrubComplete => rw [exec_partitionScrubComplete]; exact h.execPartitionScrubComplete
  | sealingTimeout => rw [exec_sealingTimeout]; exact h.execSealingTimeout
  | worldScrubComplete => rw [exec_worldScrubComplete]; exact h.execWorldScrubComplete
  | epochEnd => rw [exec_epochEnd]; exact h.execEpochEnd
  | sweepComplete => rw [exec_sweepComplete]; exact h.execSweepComplete
  | certifiedReplyRelease => rw [exec_certifiedReplyRelease]; exact h.execCertifiedReplyRelease
  | meterIntervalExpiry => rw [exec_meterIntervalExpiry]; exact h.execMeterIntervalExpiry
  | uncorrectableError => rw [exec_uncorrectableError]; exact h.uncorrectable.next
  | dirtyLineError => rw [exec_dirtyLineError]; exact h.execDirtyLineError
  | cleanLineError => rw [exec_cleanLineError]; exact h.execCleanLineError
  | tokenParityError => rw [exec_tokenParityError]; exact h.execTokenParityError
  | arbourResidueError => rw [exec_arbourResidueError]; exact h.execArbourResidueError
  | mbdoorWrite => rw [exec_mbdoorWrite]; exact h.execMbdoorWrite
  | vfEnable => rw [exec_vfEnable]; exact h.execVfEnable
  | writeBufferPerform => rw [exec_writeBufferPerform]; exact h.execWriteBufferPerform
  | unitReloadComplete => rw [exec_unitReloadComplete]; exact h.update.next
  | portRetrainComplete => rw [exec_portRetrainComplete]; exact h.execPortRetrainComplete

/-! ### The schedule -/

theorem State.Inv.runSeq (h : s.Inv) : KeepsInv s.runSeq := by
  unfold State.runSeq
  dsimp only
  refine .ite h.next ?_
  refine .ite h.exec ?_
  split
  · exact h.exec
  · exact h.takeTrap.next

theorem State.Inv.runSite (h : s.Inv) : KeepsInv s.runSite := by
  unfold State.runSite
  split
  · exact h.next
  · exact h.exec

theorem State.Inv.elapse {ns} (h : s.Inv) : (s.elapse ns).Inv := h.update

theorem State.Inv.runMove {m} (h : s.Inv) : KeepsInv (s.runMove m) := by
  unfold State.runMove
  split
  · exact h.update.runSeq
  · exact h.update.runSite
  · exact h.update.exec
  · exact .ite h.next h.exec
  · exact h.elapse.next
  · exact h.onCell.next
  · exact h.evictLine.next
  · exact (State.Inv.ite h h.store).next
  · exact h.onLink.next
  · exact h.hyperAdd.next
  · split
    · exact (State.Inv.ite h.emit h).next
    · exact h.next

theorem State.Inv.runFree (h : s.Inv) : KeepsInv s.runFree :=
  KeepsInv.ite h.runSeq (.ite h.execBootStageComplete h.next)

theorem State.Inv.step (h : s.Inv) : KeepsInv (step s) := by
  unfold Machine.step
  split
  · exact h.runFree
  · exact h.update.runMove

end

/-- Settles O60: each operation of the module keeps the invariant, so each instruction, each turn of the schedule and each step
does. -/
theorem everyStepKeepsTheInvariant : Obligations.EveryStepKeepsTheInvariant := by
  unfold Obligations.EveryStepKeepsTheInvariant
  exact fun _ t h => h.step t

end Sys2Proof.Machine
end

