-- ==== Sys2Proof/Proofs/Maps.lean ====
section
/-! Reads of an addressed list that has been filtered, mapped or built by index. -/

namespace Sys2Proof.Machine

section
variable {α β : Type}

theorem Map.mem_of_get? {m : Map α} {k : Nat} {v : α} (h : Map.get? m k = some v) : (k, v) ∈ m := by
  induction m with
  | nil => cases h
  | cons e r ih =>
    rw [Map.get?_cons] at h
    split at h
    · next hk => cases h; simp [← hk]
    · exact List.mem_cons_of_mem _ (ih h)

/-- A filter by key. -/
theorem Map.get?_filter_key (p : Nat → Bool) (m : Map α) (k : Nat) :
    Map.get? (m.filter fun e => p e.1) k = if p k then Map.get? m k else none := by
  induction m with
  | nil => simp
  | cons e r ih =>
    rw [List.filter_cons, Map.get?_cons e r k]
    by_cases hk : e.1 = k
    · subst hk
      by_cases hp : p e.1
      · simp [hp, Map.get?_cons]
      · simp [hp, ih]
    · by_cases hp : p e.1 <;> simp [hp, hk, Map.get?_cons, ih]

theorem Map.get?_mapValues (f : α → β) (m : Map α) (k : Nat) :
    Map.get? (m.map fun e => (e.1, f e.2)) k = (Map.get? m k).map f := by
  induction m with
  | nil => rfl
  | cons e r ih =>
    rw [List.map_cons, Map.get?_cons, Map.get?_cons, ih]
    split <;> rfl

theorem Map.get?_append_of_none {m : Map α} {k : Nat} (h : Map.get? m k = none) (r : Map α) :
    Map.get? (m ++ r) k = Map.get? r k := by
  induction m with
  | nil => rfl
  | cons e m ih =>
    rw [Map.get?_cons] at h
    split at h
    · cases h
    · next hk => rw [List.cons_append, Map.get?_cons, if_neg hk, ih h]

theorem Map.get?_append_of_some {m : Map α} {k : Nat} {v : α} (h : Map.get? m k = some v) (r : Map α) :
    Map.get? (m ++ r) k = some v := by
  induction m with
  | nil => cases h
  | cons e m ih =>
    rw [Map.get?_cons] at h
    rw [List.cons_append, Map.get?_cons]
    split at h
    · next hk => rw [if_pos hk, h]
    · next hk => rw [if_neg hk, ih h]

theorem Map.get?_tabulate (n k : Nat) (f : Nat → α) :
    Map.get? (tabulate n fun i => (i, f i)) k = if k < n then some (f k) else none := by
  unfold tabulate
  induction n with
  | zero => rfl
  | succ n ih =>
    rw [List.range_succ, List.map_append]
    by_cases hk : k < n
    · rw [if_pos hk] at ih
      rw [Map.get?_append_of_some ih, if_pos (by omega)]
    · rw [if_neg hk] at ih
      rw [Map.get?_append_of_none ih, List.map_singleton, Map.get?_cons]
      by_cases hn : n = k
      · subst hn; simp
      · rw [if_neg hn, if_neg (by omega)]; rfl
end

end Sys2Proof.Machine
end

