-- ==== Sys2Proof/Proofs/Keeps.lean ====
section
/-! What the machinery under a request leaves alone, whatever ends, traps or is written back in it: the mailbox order, staging
memory, the leaves of every world, each world that is Ending, and empty full/empty words. -/

namespace Sys2Proof.Machine

/-- The pages of a world stay, and an Ending world stays Ending. -/
def World.Keeps (v v' : World) : Prop := v'.leaves = v.leaves ∧ (v.st = .ending → v'.st = .ending)

structure State.Keeps (u s : State) : Prop where
  inbox   : s.lodge.inbox = u.lodge.inbox
  staging : ∀ f, (s.func f).staging = (u.func f).staging
  worlds  : ∀ w v, u.world? w = some v → ∃ v', s.world? w = some v' ∧ v.Keeps v'
  full    : ∀ a, Map.get false u.full a = false → Map.get false s.full a = false

section
variable {u s t : State}

theorem World.Keeps.refl (v : World) : v.Keeps v := ⟨rfl, id⟩

theorem World.Keeps.trans {v v' v'' : World} (h : v.Keeps v') (h' : v'.Keeps v'') : v.Keeps v'' :=
  ⟨h'.1.trans h.1, h'.2 ∘ h.2⟩

theorem State.Keeps.refl (s : State) : s.Keeps s := ⟨rfl, fun _ => rfl, fun _ v hv => ⟨v, hv, .refl v⟩, fun _ => id⟩

theorem State.Keeps.trans (h : u.Keeps s) (h' : s.Keeps t) : u.Keeps t where
  inbox := h'.inbox.trans h.inbox
  staging f := (h'.staging f).trans (h.staging f)
  worlds w v hv := by
    obtain ⟨v', hv', k⟩ := h.worlds w v hv
    obtain ⟨v'', hv'', k'⟩ := h'.worlds w v' hv'
    exact ⟨v'', hv'', k.trans k'⟩
  full a ha := h'.full a (h.full a ha)

/-- It reads the lodge, the functions, the worlds and the full bits alone. -/
theorem State.Keeps.update {boot timebase clock lastVf hyper fring faults parts launches nextLaunch policy pod mem hostMem owners
    opdBacked stamps lines flows retired quarantined cxl0 cxl1 cxlDown reloading cells out agenda free focus} (h : u.Keeps s) :
    u.Keeps { s with
      boot, timebase, clock, lastVf, hyper, fring, faults, parts, launches, nextLaunch, policy, pod, mem, hostMem, owners
      opdBacked, stamps, lines, flows, retired, quarantined, cxl0, cxl1, cxlDown, reloading, cells, out, agenda, free, focus } :=
  ⟨h.inbox, h.staging, h.worlds, h.full⟩

theorem State.Keeps.of_onlyLogs (h : u.Keeps s) (e : OnlyLogs s t) : u.Keeps t := by
  rw [e]; exact h.update

theorem State.Keeps.ite {c : Prop} {_ : Decidable c} (hs : u.Keeps s) (ht : u.Keeps t) : u.Keeps (if c then s else t) := by
  split
  · exact hs
  · exact ht

theorem State.Keeps.foldl {α : Type} {f : State → α → State} {l : List α} (h : u.Keeps s)
    (hf : ∀ s a, u.Keeps s → u.Keeps (f s a)) : u.Keeps (l.foldl f s) := by
  induction l generalizing s with
  | nil => exact h
  | cons a l ih => exact ih (hf s a h)

theorem State.Keeps.setWorld {w v'} (h : u.Keeps s) (hk : ∀ v, s.world? w = some v → v.Keeps v') : u.Keeps (s.setWorld w v') where
  inbox := h.inbox
  staging := h.staging
  worlds x v hv := by
    obtain ⟨y, hy, k⟩ := h.worlds x v hv
    by_cases hx : x = w
    · subst hx; exact ⟨v', by simp, k.trans (hk y hy)⟩
    · exact ⟨y, by rw [State.world?_setWorld_of_ne s _ hx]; exact hy, k⟩
  full := h.full

theorem State.Keeps.onWorld {w f} (h : u.Keeps s) (hf : ∀ v : World, v.Keeps (f v)) : u.Keeps (s.onWorld w f) := by
  unfold State.onWorld
  split
  · exact h
  · next v hv => exact h.setWorld fun x hx => by rw [hv] at hx; cases hx; exact hf v

theorem State.Keeps.onFunc {n f} (h : u.Keeps s) (hf : ∀ x : Func, (f x).staging = x.staging) : u.Keeps (s.onFunc n f) where
  inbox := h.inbox
  staging k := by
    rw [← h.staging k]
    by_cases hk : k = n
    · subst hk; simp [hf]
    · rw [State.onFunc_eq, State.func_setFunc_of_ne s _ hk]
  worlds := h.worlds
  full := h.full

theorem State.Keeps.onLodge {f} (h : u.Keeps s) (hf : (f s.lodge).inbox = s.lodge.inbox) : u.Keeps (s.onLodge f) :=
  ⟨hf.trans h.inbox, h.staging, h.worlds, h.full⟩

/-! ### Nodes, flits, counters and traces -/

theorem State.Keeps.onPart {p f} (h : u.Keeps s) : u.Keeps (s.onPart p f) := h.update

theorem State.Keeps.onCell {n f} (h : u.Keeps s) : u.Keeps (s.onCell n f) := h.update

theorem State.Keeps.onPod {f} (h : u.Keeps s) : u.Keeps (s.onPod f) := h.update

theorem State.Keeps.signal {fn vec} (h : u.Keeps s) : u.Keeps (s.signal fn vec) := h.update

theorem State.Keeps.onQueue {fn q f} (h : u.Keeps s) : u.Keeps (s.onQueue fn q f) :=
  h.onFunc (f := fun x => { x with queues := Map.put x.queues q (f (s.queue fn q)) }) fun _ => rfl

theorem State.Keeps.finishNode {fn q n r} (h : u.Keeps s) : u.Keeps (s.finishNode fn q n r) := h.onQueue

theorem State.Keeps.finishStatus {fn q n st d} (h : u.Keeps s) : u.Keeps (s.finishStatus fn q n st d) := h.finishNode

theorem State.Keeps.devWrite {fn a l} (h : u.Keeps s) : u.Keeps (s.devWrite fn a l) :=
  h.of_onlyLogs (State.devWrite_onlyLogs fn l s a)

theorem State.Keeps.countEvent {p i n} (h : u.Keeps s) : u.Keeps (s.countEvent p i n) :=
  h.of_onlyLogs (s.countEvent_onlyLogs p i n)

theorem State.Keeps.hyperAdd {i n} (h : u.Keeps s) : u.Keeps (s.hyperAdd i n) := h.of_onlyLogs (s.hyperAdd_onlyLogs i n)

theorem State.Keeps.secondary {p ctx cell cause} (h : u.Keeps s) : u.Keeps (s.secondary p ctx cell cause) :=
  h.of_onlyLogs (s.traceOf_onlyLogs _ _ _ _ _ _)

theorem State.Keeps.meter {p i n} (h : u.Keeps s) : u.Keeps (s.meter p i n) := h.onPart

theorem State.Keeps.meterLost {p i n} (h : u.Keeps s) : u.Keeps (s.meterLost p i n) := h.onPart

theorem State.Keeps.countLine {line fill} (h : u.Keeps s) : u.Keeps (s.countLine line fill) := .ite h.update h.update

theorem State.Keeps.sendFlit {f} (h : u.Keeps s) : u.Keeps (s.sendFlit f) := by
  unfold State.sendFlit
  split
  · exact h.update
  · exact h.onPod

theorem State.Keeps.podPart {m st cause detail} (h : u.Keeps s) : u.Keeps (s.podPart m st cause detail) := by
  unfold State.podPart State.podSettle
  split
  · exact h.onPod
  · exact .ite h.onPod.onPod.finishNode h.onPod

/-! ### Ends of launches and worlds (R44, R271) -/

theorem State.Keeps.launchEnded {e st cause detail} (h : u.Keeps s) : u.Keeps (s.launchEnded e st cause detail) := by
  unfold State.launchEnded
  split
  · exact h.finishNode
  · exact .ite h.podPart h.sendFlit

theorem State.Keeps.loseMacs {p c} (h : u.Keeps s) : u.Keeps (s.loseMacs p c) := by
  unfold State.loseMacs
  refine h.foldl fun _ _ h => ?_
  split
  · exact h.meterLost
  · exact h.meterLost
  · exact h

theorem State.Keeps.loseStreams {c} (h : u.Keeps s) : u.Keeps (s.loseStreams c) :=
  h.foldl fun _ _ h => h.foldl fun _ _ h => h.foldl fun _ _ h => h.meterLost

theorem State.Keeps.loseWork {p c} (h : u.Keeps s) : u.Keeps (s.loseWork p c) := h.meterLost.loseMacs.loseStreams

theorem State.Keeps.endHolds {w snap} (h : u.Keeps s) : u.Keeps (s.endHolds w snap) := by
  unfold State.endHolds
  split
  · exact h
  · exact h.onWorld fun _ => ⟨rfl, id⟩

theorem State.Keeps.settleGens {w} (h : u.Keeps s) : u.Keeps (s.settleGens w) := h.onWorld fun _ => ⟨rfl, id⟩

theorem State.Keeps.flushCell {n} (h : u.Keeps s) : u.Keeps (s.flushCell n) := h.onPart.foldl fun _ _ h => h.countEvent

theorem State.Keeps.dropCell {n c} (h : u.Keeps s) : u.Keeps ((s.setCell n c).dropHolders n true) := h.update

theorem State.Keeps.discardPart {p} (h : u.Keeps s) : u.Keeps (s.discardPart p) :=
  h.foldl fun _ _ h => .ite h (h.loseWork.onPart.flushCell.foldl fun _ _ h => h.endHolds).dropCell.settleGens

theorem State.Keeps.settlePart {p} (h : u.Keeps s) : u.Keeps (s.settlePart p) := .ite h.onPart h

theorem State.Keeps.discardLaunch {id} (h : u.Keeps s) : u.Keeps (s.discardLaunch id) := by
  unfold State.discardLaunch
  split
  · exact h
  · exact ((((h.foldl fun _ _ h => .ite h.discardPart.onPart h).foldl fun _ _ h => h.meterLost).foldl
      fun _ _ h => h.loseWork.foldl fun _ _ h => h.endHolds).update.foldl fun _ _ h => h.settlePart).settleGens

theorem State.Keeps.endLaunch {id st cause} (h : u.Keeps s) : u.Keeps (s.endLaunch id st cause) := by
  unfold State.endLaunch
  split
  · exact h
  · exact h.discardLaunch.launchEnded

theorem State.Keeps.endResets {hit st cause} (h : u.Keeps s) : u.Keeps (s.endResets hit st cause) :=
  h.update.foldl fun _ _ h => h.launchEnded

theorem State.Keeps.revoke {w e} (h : u.Keeps s) : u.Keeps (s.revoke w e) := by
  unfold State.revoke
  split
  · exact h
  · exact State.Keeps.onLodge (h.foldl fun _ _ h => .ite h.devWrite.devWrite h) rfl

/-- What ENDED does to the launches of a world that has just become Ending. -/
def State.endedRest (s : State) (w cause : Nat) (parts : List Nat) : State :=
  let s := (s.launches.filter fun l => l.2.world == w).foldl (fun s l => s.endLaunch l.1 .ended cause) s
  let s := s.endResets (fun e => e.world == w) .ended cause
  { s with launches := s.launches.map fun l =>
      if l.2.st ≠ .preempted ∧ l.2.st ≠ .waiting ∧ l.2.parts.any parts.contains
      then (l.1, { l.2 with wantPreempt := some 5 }) else l }

theorem State.Keeps.endedRest {w cause parts} (h : u.Keeps s) : u.Keeps (s.endedRest w cause parts) :=
  (h.foldl fun _ _ h => h.endLaunch).endResets.update

/-- R271, the two cases: nothing happens to a world that is not there or is Ending; any other becomes Ending. -/
theorem State.endWorld_cases (s : State) (w cause cell epoch : Nat) :
    (s.endWorld w cause cell epoch = s ∧ ∀ v, s.world? w = some v → v.st = .ending)
    ∨ ∃ t v parts, s.Keeps t ∧ v.st = .ending ∧ (∀ x, t.world? w = some x → x.Keeps v)
        ∧ s.endWorld w cause cell epoch = (t.setWorld w v).endedRest w cause parts := by
  unfold State.endWorld
  split
  · next hn => exact .inl ⟨rfl, fun v hv => by rw [hn] at hv; cases hv⟩
  · next x hx =>
    split
    · next hst => exact .inl ⟨rfl, fun v hv => by rw [hx] at hv; cases hv; exact hst⟩
    · refine .inr ⟨_, _, _, ?_, ?_, ?_, rfl⟩
      rotate_left
      · rfl
      · intro y hy
        rw [hy]
        exact ⟨rfl, fun _ => rfl⟩
      · refine State.Keeps.foldl (State.Keeps.update (State.Keeps.foldl ?_ fun _ _ h => h.foldl fun _ _ h => h.finishNode))
          fun _ _ h => ?_
        · have hr : s.Keeps (if cause = Cause.integ.code then s.revoke w epoch else s) :=
            .ite (State.Keeps.refl s).revoke (.refl s)
          split
          · exact hr.finishNode
          · exact hr
        · split
          · exact h.finishNode
          · exact h

theorem State.Keeps.endWorld {w cause cell epoch} (h : u.Keeps s) : u.Keeps (s.endWorld w cause cell epoch) := by
  obtain ⟨e, -⟩ | ⟨t, v, parts, hk, -, hv, e⟩ := s.endWorld_cases w cause cell epoch
  · rw [e]; exact h
  · rw [e]; exact ((h.trans hk).setWorld hv).endedRest

theorem State.endWorld_ending (s : State) {w : Nat} (cause cell epoch : Nat) {v : World} (hv : s.world? w = some v) :
    ∃ v', (s.endWorld w cause cell epoch).world? w = some v' ∧ v'.st = .ending := by
  obtain ⟨e, he⟩ | ⟨t, x, parts, -, hx, -, e⟩ := s.endWorld_cases w cause cell epoch
  · rw [e]; exact ⟨v, hv, he v hv⟩
  · obtain ⟨v', hv', k⟩ := (State.Keeps.refl (t.setWorld w x)).endedRest.worlds w x (by simp)
    rw [e]; exact ⟨v', hv', k.2 hx⟩

/-! ### Completions of nodes (R86, R89) -/

theorem State.Keeps.writePost {fn q p} (h : u.Keeps s) : u.Keeps (s.writePost fn q p) :=
  .ite h.devWrite.onQueue.signal.signal h.devWrite.onQueue.signal

theorem State.Keeps.flushPosts {fn q k} (h : u.Keeps s) : u.Keeps (s.flushPosts fn q k) := by
  induction k generalizing s with
  | zero => exact h
  | succ k ih =>
    unfold State.flushPosts
    split
    · exact h
    · exact .ite (ih h.onQueue.writePost) h

theorem State.Keeps.dropWaiting {fn q g} (h : u.Keeps s) : u.Keeps (s.dropWaiting fn q g) :=
  .ite h (h.foldl fun _ _ h => h.discardLaunch)

theorem State.Keeps.completeNode {fn q node} (h : u.Keeps s) : u.Keeps (s.completeNode fn q node) := by
  unfold State.completeNode
  dsimp only
  split
  · exact h
  · split
    · exact h
    · exact .ite h.dropWaiting.onQueue.onQueue.flushPosts h.dropWaiting.onQueue

theorem State.Keeps.completeAll (h : u.Keeps s) : u.Keeps s.completeAll :=
  h.foldl fun _ _ h => h.foldl fun _ _ h => h.foldl fun _ _ h => h.completeNode

theorem State.Keeps.endEach {l : List (Nat × World)} {cause} (h : u.Keeps s) :
    u.Keeps (l.foldl (fun s w => s.endWorld w.1 cause 0xFFFF 0) s) := h.foldl fun _ _ h => h.endWorld

/-- R44: after the end of every world, each world of before stands and is Ending. -/
theorem State.endWorlds_ending (s : State) (cause : Nat) {w : Nat} {v : World} (hv : s.world? w = some v) :
    ∃ v', (s.endWorlds cause).world? w = some v' ∧ v'.st = .ending := by
  obtain ⟨l, r, hl⟩ := List.append_of_mem (Map.mem_of_get? hv)
  obtain ⟨x, hx, -⟩ := (State.Keeps.refl s).endEach (l := l) (cause := cause) |>.worlds w v hv
  obtain ⟨y, hy, he⟩ := State.endWorld_ending _ cause 0xFFFF 0 hx
  obtain ⟨z, hz, k⟩ := (State.Keeps.refl _).endEach (l := r) (cause := cause) |>.completeAll.worlds w y hy
  refine ⟨z, ?_, k.2 he⟩
  unfold State.endWorlds
  rwa [hl, List.foldl_append, List.foldl_cons]
/-! ### Lines and pages (R113 to R123, R146, R149) -/

theorem State.Keeps.stampWrite {w line} (h : u.Keeps s) : u.Keeps (s.stampWrite w line) := by
  unfold State.stampWrite
  split
  · exact h
  · next v hv => exact h.update.setWorld fun x hx => by cases hv.symm.trans hx; exact ⟨rfl, id⟩

theorem State.Keeps.foldRead {w line} (h : u.Keeps s) (e : s.foldRead w line = some t) : u.Keeps t := by
  unfold State.foldRead at e
  split at e
  · cases e; exact h
  · next v hv =>
    have hk (sl ep term) : ∀ x, s.world? w = some x → x.Keeps (v.addHash sl ep true term) :=
      fun x hx => by cases hv.symm.trans hx; exact ⟨rfl, id⟩
    dsimp only at e
    split at e
    · cases e; exact h.setWorld (hk _ _ _)
    · split at e
      · cases e; exact h.setWorld (hk _ _ _)
      · cases e

theorem State.Keeps.evictLine {line} (h : u.Keeps s) : u.Keeps (s.evictLine line) := by
  have hc : u.Keeps (({ s with lines := Map.erase s.lines line } : State).countLine line false) := h.update.countLine
  unfold State.evictLine
  split
  · exact h
  · dsimp only
    split
    · apply State.Keeps.meter
      split
      · exact hc.stampWrite
      · exact hc
    · split
      · exact hc.stampWrite
      · exact hc

theorem State.Keeps.flushRange {pa len} (h : u.Keeps s) : u.Keeps (s.flushRange pa len) := h.foldl fun _ _ h => h.evictLine

theorem State.Keeps.endUncached (h : u.Keeps s) : u.Keeps s.endUncached := h.foldl fun _ _ h => h.evictLine

theorem State.Keeps.foldRange {pa len} (h : u.Keeps s) : u.Keeps (s.foldRange pa len) := by
  unfold State.foldRange
  refine h.foldl fun _ _ h => ?_
  split
  · split
    · exact h.foldRead ‹_›
    · exact h.endWorld
  · exact h

theorem State.Keeps.stampRange {pa len} (h : u.Keeps s) : u.Keeps (s.stampRange pa len) := by
  unfold State.stampRange
  refine h.foldl fun _ _ h => ?_
  split
  · exact h.stampWrite
  · exact h

theorem State.Keeps.zeroRange {pa len} (h : u.Keeps s) : u.Keeps (s.zeroRange pa len) where
  inbox := h.inbox
  staging := h.staging
  worlds := h.worlds
  full a ha := by
    have e := Map.get?_filter_key (fun a => decide (a < pa) || decide (pa + len ≤ a)) s.full a
    unfold State.zeroRange Map.get
    rw [e]
    split
    · exact h.full a ha
    · rfl

theorem State.Keeps.setEmpty {pa} (h : u.Keeps s) : u.Keeps (s.setFull pa false) where
  inbox := h.inbox
  staging := h.staging
  worlds := h.worlds
  full a ha := by
    unfold State.setFull
    rw [Map.get_set]
    split
    · rfl
    · exact h.full a ha

theorem State.Keeps.freeRange {pa len} (h : u.Keeps s) : u.Keeps (s.freeRange pa len) :=
  State.Keeps.update (State.Keeps.zeroRange h.update)

theorem State.Keeps.ownPage {w pa len home} (h : u.Keeps s) : u.Keeps (s.ownPage w pa len home) :=
  have hf : u.Keeps (s.freeRange pa len) := h.freeRange
  ⟨hf.inbox, hf.staging, hf.worlds, hf.full⟩

/-! ### Accesses of the Lodge (R110 to R120) -/

theorem State.Keeps.endContext {p ctx} (h : u.Keeps s) : u.Keeps (s.endContext p ctx) := by
  unfold State.endContext
  exact ((h.foldl fun _ _ h => h.evictLine).foldl fun _ _ h => h.freeRange).onPart

theorem State.Keeps.scrubCells {p} (h : u.Keeps s) : u.Keeps (s.scrubCells p) := h.foldl fun _ _ h => h.onCell

theorem State.Keeps.machineCheck {p ctx} (h : u.Keeps s) : u.Keeps (s.machineCheck p ctx) :=
  .ite h (.ite h.secondary ((h.hyperAdd.signal.foldl fun _ _ h => .ite h.secondary h).foldl fun _ _ h =>
    .ite (h.endLaunch.foldl fun _ _ h => h.scrubCells) h.endLaunch).endContext)

theorem State.Keeps.placeLine {p line tag ctx} (h : u.Keeps s) : u.Keeps (s.placeLine p line tag ctx) := by
  unfold State.placeLine
  dsimp only
  split
  · split
    · exact h.update
    · refine State.Keeps.update ?_
      split
      · exact h.update.evictLine
      · exact h.update
  · refine .ite h.update ?_
    split
    · exact h.stampWrite
    · exact h

theorem State.Keeps.touchLine {p ctx w cls line write spec} (h : u.Keeps s)
    (e : s.touchLine p ctx w cls line write spec = some t) : u.Keeps t := by
  unfold State.touchLine at e
  dsimp only at e
  split at e
  · cases e; exact h
  · split at e
    · cases e; exact h.update
    · obtain ⟨x, hx, rfl⟩ := Option.map_eq_some_iff.1 e
      have h' : u.Keeps x := by
        split at hx
        · exact h.countLine.foldRead hx
        · cases hx; exact h.countLine
      exact (State.Keeps.ite h' h'.meter.meter).placeLine

theorem State.Keeps.touchFor {p ctx w cls pa write spec} (h : u.Keeps s) : u.Keeps (s.touchFor p ctx w cls pa write spec) := by
  unfold State.touchFor
  refine .ite h (.ite h.endWorld (.ite h.machineCheck ?_))
  split
  · exact h.touchLine ‹_›
  · exact h.endWorld

theorem State.Keeps.touchAs {p ctx w cls pa write spec} (h : u.Keeps s) : u.Keeps (s.touchAs p ctx w cls pa write spec) :=
  .ite h.touchFor.countEvent h.touchFor

/-! ### Answers to faults (R99, R131) -/

theorem State.Keeps.answerHolder {w page denied x} (h : u.Keeps s) : u.Keeps (s.answerHolder w page denied x) :=
  State.Keeps.update (.ite h.onCell h)

theorem State.Keeps.answerFault {f denied} (h : u.Keeps s) : u.Keeps (s.answerFault f denied) :=
  have ha : u.Keeps (f.holders.foldl _ { s with faults := s.faults.filter (· != f) }) :=
    h.update.foldl fun _ _ h => h.answerHolder
  .ite (ha.foldl fun _ _ h => h.finishStatus) ha

theorem State.Keeps.answerRange {w va len denied} (h : u.Keeps s) : u.Keeps (s.answerRange w va len denied) :=
  h.foldl fun _ _ h => h.answerFault
end

end Sys2Proof.Machine
end

