-- ==== Sys2Proof/Proofs/Resets.lean ====
section
/-! Resets, boot stages, clocks and the enabling of the virtual functions (R15 to R21 and R44). -/

namespace Sys2Proof.Machine

/-! ### The module at stage 1 -/

/-- The module at boot stage 1: no launch, cell or key, and every partition Unowned. -/
def State.Bare (t : State) (fail : Bool) : Prop :=
  t.boot = { stage := 1, fail := fail, unit := 0 } ∧ t.launches = [] ∧ t.cells = [] ∧ t.lodge.keys = none
  ∧ ∀ p, p < 16 → (t.part p).vf = 0 ∧ (t.part p).st = .unowned ∧ (t.part p).running = none

/-- Every partition under a new generation. -/
def NewGens (s t : State) : Prop := ∀ p, p < 16 → (t.part p).gen = (s.part p).gen + 1

@[simp] theorem State.parts_renumber (s : State) (b : Nat) : (s.renumber b).parts = s.parts := by
  unfold State.renumber
  dsimp only
  split <;> rfl

@[simp] theorem State.hostMem_renumber (s : State) (b : Nat) : (s.renumber b).hostMem = s.hostMem := by
  unfold State.renumber
  dsimp only
  split <;> rfl

@[simp] theorem State.out_renumber (s : State) (b : Nat) : (s.renumber b).out = s.out := by
  unfold State.renumber
  dsimp only
  split <;> rfl

theorem State.part_restart (s : State) {p : Nat} (h : p < 16) :
    s.restart.part p = { Part.reset with gen := (s.part p).gen + 1 } := by
  have e := Map.get?_tabulate 16 p fun p => { Part.reset with gen := (s.part p).gen + 1 }
  rw [if_pos h] at e
  exact congrArg (fun o => o.getD Part.reset) e

theorem State.restart_bare (s : State) : s.restart.Bare false :=
  ⟨rfl, rfl, rfl, rfl, fun _ h => by rw [s.part_restart h]; exact ⟨rfl, rfl, rfl⟩⟩

theorem State.restart_newGens (s : State) (b : Nat) : NewGens s (s.renumber b).restart := fun p h => by
  rw [State.part_restart _ h]
  simp [State.part]

theorem coldReset_effect (s : State) : ∃ t, exec .coldReset s = .next t ∧ t.Bare false ∧ NewGens s t ∧ t.worlds = []
    ∧ t.mem = (s.renumber 0).mem ∧ t.hostMem = s.hostMem ∧ t.out = s.out :=
  ⟨(s.renumber 0).restart, rfl, State.restart_bare _, s.restart_newGens 0, rfl, rfl, s.hostMem_renumber 0, s.out_renumber 0⟩

theorem moduleReset_effect (s : State) : ∃ t, exec .moduleReset s = .next t ∧ t.Bare false ∧ NewGens (s.endWorlds 0) t
    ∧ ∀ w v, s.world? w = some v → ∃ v', t.world? w = some v' ∧ v'.st = .ending ∧ v'.keys = none ∧ v'.leaves = [] := by
  refine ⟨_, rfl, State.restart_bare ((s.endWorlds 0).renumber 0), (s.endWorlds 0).restart_newGens 0, fun w v hv => ?_⟩
  obtain ⟨u, hu, hst⟩ := s.endWorlds_ending 0 hv
  refine ⟨u.resetEnding, ?_, hst, rfl, rfl⟩
  have e := Map.get?_mapValues World.resetEnding (s.endWorlds 0).worlds w
  rw [show Map.get? (s.endWorlds 0).worlds w = some u from hu] at e
  exact e

theorem thermalStop_effect (s : State) : ∃ t, exec .thermalStop s = .next t ∧ t.Bare true ∧ t.worlds = []
    ∧ NewGens ((s.signal 0 7).endWorlds Cause.mchk.code) t := by
  obtain ⟨-, hl, hc, hk, hp⟩ := State.restart_bare (((s.signal 0 7).endWorlds Cause.mchk.code).renumber 0)
  exact ⟨_, rfl, ⟨rfl, hl, hc, hk, hp⟩, rfl, State.restart_newGens _ 0⟩

/-! ### Boot stages (R18) -/

/-- The fields that the work of a stage leaves alone. -/
theorem State.bootWork_frame (s : State) (k : Nat) : (s.bootWork k).out = s.out ∧ (s.bootWork k).hostMem = s.hostMem := by
  unfold State.bootWork
  split <;> exact ⟨rfl, rfl⟩

/-- Stage 7 zeroes the stores of the module; the other stages leave memory as it is. -/
theorem State.readMem_bootWork (s : State) (k a : Nat) :
    readMem (s.bootWork k).mem a = if k = 7 ∧ s.bootZeroes a = true then 0 else readMem s.mem a := by
  unfold State.bootWork
  split
  · rfl
  · change ((Map.get? (s.mem.filter fun e => !s.bootZeroes e.1) a).getD 0) = _
    rw [Map.get?_filter_key fun a => !s.bootZeroes a]
    cases h : s.bootZeroes a <;> simp [readMem, Map.get]
  · next hk => rw [if_neg fun h => hk h.1]

/-- R44: stage 7 frees the worlds that a reset has ended. -/
theorem State.bootWork_frees (s : State) {w : Nat} {v : World} (h : (s.bootWork 7).world? w = some v) : v.st ≠ .ending := by
  have hm := Map.mem_of_get? (show Map.get? (s.worlds.filter fun w => w.2.st != .ending) w = some v from h)
  simpa using List.of_mem_filter hm

section
variable {s : State} (hf : s.boot.fail = false) (hs : s.boot.stage < 8)
include hf hs

theorem bootStageComplete_eq (x : Option Nat) : exec (.bootStageComplete x) s = match x with
    | some u => if u < bootUnits s.boot.stage
        then .next (({ s with boot := { s.boot with fail := true, unit := u } } : State).signal 0 2) else .next s
    | none =>
      .next (({ s.bootWork s.boot.stage with boot := { s.boot with stage := s.boot.stage + 1 } } : State).signal 0 2) := by
  have hrun : ¬(s.boot.fail = true ∨ 8 ≤ s.boot.stage) := by simp [hf, hs]
  rw [exec_bootStageComplete]
  exact (if_neg hrun).trans (by cases x <;> rfl)

theorem bootStageComplete_effect :
    ∃ t, exec (.bootStageComplete none) s = .next t ∧ t.boot = { s.boot with stage := s.boot.stage + 1 }
      ∧ t.out = s.out ++ [.msix 0 2] ∧ t.hostMem = s.hostMem
      ∧ (s.boot.stage = 2 → t.timebase = 0 ∧ t.lodge.keys.isSome = true)
      ∧ (s.boot.stage = 7 → t.cells = [] ∧ ∀ w v, t.world? w = some v → v.st ≠ .ending)
      ∧ ∀ a, readMem t.mem a = if s.boot.stage = 7 ∧ s.bootZeroes a = true then 0 else readMem s.mem a := by
  obtain ⟨hout, hhost⟩ := s.bootWork_frame s.boot.stage
  refine ⟨_, bootStageComplete_eq hf hs none, rfl, congrArg (· ++ _) hout, hhost, fun h2 => ?_, fun h7 => ?_,
    s.readMem_bootWork s.boot.stage⟩
  · rw [h2]; exact ⟨rfl, rfl⟩
  · rw [h7]; exact ⟨rfl, fun w v => s.bootWork_frees⟩

theorem bootStageComplete_fails {u : Nat} (hu : u < bootUnits s.boot.stage) : ∃ t, exec (.bootStageComplete (some u)) s = .next t
      ∧ t.boot = { s.boot with fail := true, unit := u } ∧ t.out = s.out ++ [.msix 0 2] ∧ t.mem = s.mem :=
  ⟨_, (bootStageComplete_eq hf hs (some u)).trans (if_pos hu), rfl, rfl, rfl⟩

theorem bootStageComplete_noUnit {u : Nat} (hu : bootUnits s.boot.stage ≤ u) : exec (.bootStageComplete (some u)) s = .next s :=
  (bootStageComplete_eq hf hs (some u)).trans (if_neg (Nat.not_lt.2 hu))
end

theorem bootStageComplete_over (s : State) (x : Option Nat) (h : s.boot.fail = true ∨ 8 ≤ s.boot.stage) :
    exec (.bootStageComplete x) s = .next s := by
  rw [exec_bootStageComplete]
  exact if_pos h

/-! ### Clocks (R15, R16) -/

theorem State.clockTo_effect (s : State) (mhz : Nat) : (s.clockTo mhz).clock = { s.clock with mhz := mhz }
    ∧ (s.clockTo mhz).cells = s.cells ∧ (s.clockTo mhz).worlds = s.worlds := by
  refine ⟨s.clockTo_clock mhz, ?_⟩
  rw [s.clockTo_onlyLogs mhz]
  exact ⟨rfl, rfl⟩

theorem powerSample_eq (s : State) (avg : Nat) : exec (.powerSample avg) s =
    if (s.lodgeUp = true ∧ s.clock.pinned = false) ∧ s.clock.limitW < avg ∧ 900 ≤ s.clock.mhz
      then .next (s.clockTo (s.clock.mhz - 100)) else .next s := by
  rw [exec_powerSample]
  unfold execPowerSample
  simp only [Bool.and_eq_true, Bool.not_eq_true', decide_eq_true_eq, and_assoc]

theorem clockRaiseStep_eq (s : State) (avg : Nat) : exec (.clockRaiseStep avg) s =
    if (s.lodgeUp = true ∧ s.clock.pinned = false) ∧ 100 * avg < 95 * s.clock.limitW ∧ s.clock.mhz ≤ 1500
      then .next (s.clockTo (s.clock.mhz + 100)) else .next s := by
  rw [exec_clockRaiseStep]
  unfold execClockRaiseStep
  simp only [Bool.and_eq_true, Bool.not_eq_true', decide_eq_true_eq, and_assoc]

theorem thermalThrottle_effect (s : State) (h : s.lodgeUp = true) : ∃ t, exec .thermalThrottle s = .next t
    ∧ t.clock = { s.clock with mhz := 800, pinned := true } ∧ t.cells = s.cells ∧ t.worlds = s.worlds := by
  have e : exec .thermalThrottle s = .next { s.clockTo 800 with clock := { (s.clockTo 800).clock with pinned := true } } := by
    rw [exec_thermalThrottle]
    exact if_pos h
  obtain ⟨hm, hc, hw⟩ := s.clockTo_effect 800
  exact ⟨_, e, by rw [hm], hc, hw⟩

/-! ### Virtual functions (R21) -/

/-- VF_ENABLE for one function. -/
def State.enableVf (s : State) (i : Nat) : State :=
  if (s.func (i + 1)).enabled then s else s.setFunc (i + 1) { Func.reset with enabled := true }

theorem vfEnable_eq (s : State) (h : s.booted = true) :
    exec .vfEnable s = .next ((List.range 16).foldl State.enableVf s) := by
  rw [exec_vfEnable]
  exact if_pos h

theorem State.enableVf_frame (s : State) (i : Nat) : s.enableVf i = { s with funcs := (s.enableVf i).funcs } := by
  unfold State.enableVf
  split <;> rfl

theorem State.func_enableVf_of_ne (s : State) {i f : Nat} (h : f ≠ i + 1) : (s.enableVf i).func f = s.func f := by
  unfold State.enableVf
  split
  · rfl
  · exact State.func_setFunc_of_ne s _ h

theorem State.func_enableVf_self (s : State) (i : Nat) : ((s.enableVf i).func (i + 1)).enabled = true
    ∧ ((s.func (i + 1)).enabled = true → (s.enableVf i).func (i + 1) = s.func (i + 1)) := by
  unfold State.enableVf
  split
  · next h => exact ⟨h, fun _ => rfl⟩
  · next h => exact ⟨by simp, fun e => absurd e h⟩

theorem State.enableVfs_frame (s : State) (n : Nat) :
    (List.range n).foldl State.enableVf s = { s with funcs := ((List.range n).foldl State.enableVf s).funcs } := by
  induction n with
  | zero => rfl
  | succ n ih =>
    rw [List.range_succ, List.foldl_append, List.foldl_cons, List.foldl_nil, State.enableVf_frame, ih]

theorem State.func_enableVfs_of_out (s : State) (n : Nat) {f : Nat} (h : f = 0 ∨ n < f) :
    ((List.range n).foldl State.enableVf s).func f = s.func f := by
  induction n with
  | zero => rfl
  | succ n ih =>
    rw [List.range_succ, List.foldl_append, List.foldl_cons, List.foldl_nil, State.func_enableVf_of_ne _ (by omega),
      ih (by omega)]

theorem State.func_enableVfs (s : State) (n : Nat) {f : Nat} (h1 : 1 ≤ f) (hn : f ≤ n) :
    (((List.range n).foldl State.enableVf s).func f).enabled = true
      ∧ ((s.func f).enabled = true → ((List.range n).foldl State.enableVf s).func f = s.func f) := by
  induction n with
  | zero => omega
  | succ n ih =>
    rw [List.range_succ, List.foldl_append, List.foldl_cons, List.foldl_nil]
    by_cases hf : f = n + 1
    · subst hf
      obtain ⟨he, hk⟩ := State.func_enableVf_self ((List.range n).foldl State.enableVf s) n
      rw [s.func_enableVfs_of_out n (.inr (by omega))] at hk
      exact ⟨he, hk⟩
    · rw [State.func_enableVf_of_ne _ hf]
      exact ih (by omega)

theorem vfEnable_effect (s : State) (h : s.booted = true) : ∃ t, exec .vfEnable s = .next t ∧ t = { s with funcs := t.funcs }
    ∧ t.func 0 = s.func 0
    ∧ ∀ f, 1 ≤ f → f ≤ 16 → (t.func f).enabled = true ∧ ((s.func f).enabled = true → t.func f = s.func f) :=
  ⟨_, vfEnable_eq s h, s.enableVfs_frame 16, s.func_enableVfs_of_out 16 (.inl rfl), fun _ => s.func_enableVfs 16⟩

/-- Settles O40, operation by operation. -/
theorem resetsBootAndClocks : Obligations.ResetsBootAndClocks := by
  unfold Obligations.ResetsBootAndClocks
  intro s avg u x
  refine ⟨coldReset_effect s, moduleReset_effect s, thermalStop_effect s, fun hf hs => ?_, bootStageComplete_over s x,
    fun hf ha => ?_, fun h => ?_, fun hf hu => ?_, fun h => ?_, thermalThrottle_effect s, fun h => ?_, ⟨_, rfl, rfl⟩,
    vfEnable_effect s, fun h => ?_⟩
  · exact ⟨bootStageComplete_effect hf hs, bootStageComplete_fails hf hs, bootStageComplete_noUnit hf hs⟩
  · rw [powerSample_eq, if_pos ⟨hf, ha⟩]; exact ⟨_, rfl, s.clockTo_effect _⟩
  · rw [powerSample_eq]; exact if_neg h
  · rw [clockRaiseStep_eq, if_pos ⟨hf, hu⟩]; exact ⟨_, rfl, s.clockTo_effect _⟩
  · rw [clockRaiseStep_eq]; exact if_neg h
  · rw [exec_thermalThrottle]; exact if_neg (by simp [h])
  · rw [exec_vfEnable]; exact if_neg (by simp [h])

end Sys2Proof.Machine
end

