-- ==== Sys2Proof/Proofs/Requests.lean ====
section
/-! The mailbox (R97): how a request is served, and what its completion leaves. -/

namespace Sys2Proof.Machine

/-- The mailbox order and every function's staging memory stand as they did: what a completion asks of the work before it. -/
def State.SameMail (u s : State) : Prop :=
  s.lodge.inbox = u.lodge.inbox ∧ ∀ f, (s.func f).staging = (u.func f).staging

section
variable {s t u : State} {fn code len : Nat} {r : MbReq}

theorem State.SameMail.refl (s : State) : s.SameMail s := ⟨rfl, fun _ => rfl⟩

theorem State.SameMail.trans (h : u.SameMail s) (h' : s.SameMail t) : u.SameMail t :=
  ⟨h'.1.trans h.1, fun f => (h'.2 f).trans (h.2 f)⟩

theorem State.Keeps.sameMail (h : u.Keeps s) : u.SameMail s := ⟨h.inbox, h.staging⟩

theorem State.sameMail_onWorld (s : State) (w : Nat) (f : World → World) : s.SameMail (s.onWorld w f) := by
  unfold State.onWorld
  split
  · exact .refl s
  · exact .refl s

/-- Which bytes of a function are staging memory depends on its units alone. -/
theorem Func.stagingPa_congr {f g : Func} (h : f.staging = g.staging) (a : Word) : f.stagingPa a = g.stagingPa a := by
  unfold Func.stagingPa Func.resolve
  rw [h]

theorem State.SameMail.stagingRead_isSome (h : u.SameMail s) (f : Nat) (a : Word) (n : Nat) :
    (s.stagingRead f a n).isSome = (u.stagingRead f a n).isSome := by
  have e : (s.func f).stagingPa = (u.func f).stagingPa := funext (Func.stagingPa_congr (h.2 f))
  unfold State.stagingRead
  rw [e]
  dsimp only
  split <;> rfl

/-- The oldest request of a function and code is served. -/
theorem Serves.withRequest (h : Serves s fn code r len) (k : MbReq → State) : s.withRequest fn code k = .next (k r) := by
  obtain ⟨l, hl⟩ : ∃ l, s.lodge.inbox = r :: l := List.head?_eq_some_iff.1 h.head
  unfold State.withRequest
  rw [hl]
  exact if_pos ⟨h.fn, h.code, h.up⟩

/-! ### Completion -/

/-- A completion of some length writes memory, the lodge, the function and the outputs alone. -/
theorem State.mbDone_frame (s : State) (r : MbReq) (st : Status) (d : Nat) (resp : List Byte) :
    s.mbDone r st d resp = { s with
      lodge := { s.lodge with inbox := s.lodge.inbox.tail }, mem := (s.mbDone r st d resp).mem
      hostMem := (s.mbDone r st d resp).hostMem, funcs := (s.mbDone r st d resp).funcs, out := (s.mbDone r st d resp).out } := by
  unfold State.mbDone State.mbWrite
  split
  · rfl
  · dsimp only [State.mbStatus]
    rw [State.devWrite_frame, State.devWrite_frame]
    rfl

theorem State.mbDone_inbox (s : State) (r : MbReq) (st : Status) (d : Nat) (resp : List Byte) :
    (s.mbDone r st d resp).lodge.inbox = s.lodge.inbox.tail := by rw [State.mbDone_frame]

theorem State.world?_mbDone (s : State) (r : MbReq) (st : Status) (d : Nat) (resp : List Byte) (w : Nat) :
    (s.mbDone r st d resp).world? w = s.world? w := by rw [State.mbDone_frame]; rfl

theorem State.func_devWrite (s : State) (fn : Nat) (a : Word) (l : List Byte) (k : Nat) :
    (s.devWrite fn a l).func k = s.func k := by
  rw [State.devWrite_frame]; rfl

theorem State.staging_mbStatus (s : State) (fn st k : Nat) : ((s.mbStatus fn st).func k).staging = (s.func k).staging := by
  unfold State.mbStatus State.signal
  rw [State.func_emit, State.onFunc_eq]
  by_cases hk : k = fn
  · subst hk; simp
  · rw [State.func_setFunc_of_ne s _ hk]

theorem State.staging_mbDone (s : State) (r : MbReq) (st : Status) (d : Nat) (resp : List Byte) (k : Nat) :
    ((s.mbDone r st d resp).func k).staging = (s.func k).staging := by
  unfold State.mbDone State.mbWrite
  split
  · rw [State.staging_mbStatus, State.func_onLodge]
  · rw [State.staging_mbStatus, State.func_devWrite, State.func_devWrite, State.func_onLodge]

theorem State.mbStatus_answers (s : State) (fn st : Nat) : ((s.mbStatus fn st).func fn).mbDone = true
    ∧ ((s.mbStatus fn st).func fn).mbBusy = false ∧ ((s.mbStatus fn st).func fn).mbStatus = st := by
  unfold State.mbStatus State.signal
  simp

/-- R97: a request whose buffer takes the response is answered, whatever the work before changes outside mailbox order and
staging memory. -/
theorem Serves.answers {resp : List Byte} (h : Serves s fn code r resp.length) (hm : s.SameMail t) (st : Status) (d : Nat) :
    Answers s (t.mbDone r st d resp) r st := by
  have hroom : ((t.onLodge fun l => { l with inbox := l.inbox.tail }).stagingRead r.fn r.addr (64 + resp.length)).isSome = true :=
    (hm.stagingRead_isSome r.fn r.addr _).trans h.room
  have e : t.mbDone r st d resp = State.mbStatus _ r.fn st.code := if_neg fun hn =>
    Option.isSome_iff_ne_none.1 hroom (Option.isNone_iff_eq_none.1 hn)
  obtain ⟨hd, hb, hs⟩ := State.mbStatus_answers _ r.fn st.code
  exact { inbox := by rw [State.mbDone_inbox, hm.1], done := e ▸ ⟨hd, hb⟩, status := e ▸ hs }
end

end Sys2Proof.Machine
end

