-- ==== Sys2Proof/Proofs/Mapping.lean ====
section
/-! The requests of physical function 0 (R15, R23, R98, R127 to R135, R151, R152): each lemma here says what one of them does
when its checks pass. -/

namespace Sys2Proof.Machine

/-- A leaf of a world, by the virtual address of its page. -/
def LeafIs (t : State) (w a : Nat) (p : Option Leaf → Prop) : Prop := ∃ v, t.world? w = some v ∧ p (Map.get? v.leaves a)

/-- The world, the virtual address and the physical address that a request names (R98). -/
abbrev MbReq.world (r : MbReq) : Nat := leAt r.body 0 1
abbrev MbReq.va (r : MbReq) : Nat := leAt r.body 8 8
abbrev MbReq.pa (r : MbReq) : Nat := leAt r.body 16 8

section
variable {s t u : State} {fn code len : Nat} {r : MbReq} {w : Nat} {v : World} {e : Nat × Leaf}

theorem LeafIs.mbDone {a p} (h : LeafIs s w a p) (st : Status) (d : Nat) (resp : List Byte) :
    LeafIs (s.mbDone r st d resp) w a p := by
  obtain ⟨v, hv, hp⟩ := h
  exact ⟨v, by rw [State.world?_mbDone]; exact hv, hp⟩

theorem LeafIs.keeps {a p} (h : LeafIs s w a p) (hk : s.Keeps t) : LeafIs t w a p := by
  obtain ⟨v, hv, hp⟩ := h
  obtain ⟨v', hv', hl, -⟩ := hk.worlds w v hv
  exact ⟨v', hv', by rw [hl]; exact hp⟩

theorem State.world?_onWorld {f} (h : s.world? w = some v) : (s.onWorld w f).world? w = some (f v) := by
  unfold State.onWorld
  rw [h]
  exact State.world?_setWorld_self s w (f v)

/-! ### MAP -/

/-- The first leaf of a new page. -/
theorem World.get?_addLeaves (v : World) (va pa level : Nat) (group : Bool) (cls : PageClass) (wr : Bool) :
    Map.get? (v.addLeaves va pa level group cls wr).leaves va
      = some { level := level, pa := pa, cls := cls, w := wr, g := group, evicted := none } := by
  unfold World.addLeaves
  cases group
  · simp [List.range_succ]
  · have hne (i : Nat) : va ≠ va + pageBytes * (i + 1) := by unfold pageBytes; omega
    have h1 := hne 0
    have h2 := hne 1
    have h3 := hne 2
    simp only [if_true, List.range_succ, List.range_zero, List.nil_append, List.cons_append, List.foldl_cons, List.foldl_nil]
    rw [Map.get?_put_of_ne _ _ h3, Map.get?_put_of_ne _ _ h2, Map.get?_put_of_ne _ _ h1]
    simp

theorem mapPage_effect {level : Nat} {group : Bool} {len : Nat} {cls : PageClass} (hr : Serves s fn 0x01 r)
    (hsize : sizeOf? (leAt r.body 4 1) = some (level, group, len)) (hcls : classOf? (leAt r.body 1 1) = some cls)
    (hw : leAt r.body 2 1 ≤ 1) (hhome : leAt r.body 3 1 ≤ 15)
    (htier : (paModule r.pa == s.pod.self && isTier (paLocal r.pa)) = false → leAt r.body 3 1 = 0)
    (hv : s.world? r.world = some v) (hst : v.st ≠ .ending)
    (hpage : s.pageOk r.world v r.va r.pa len cls = true) (hmap : v.unmapped r.va len = true) :
    Completes (.mapPage fn) s fun t => Answers s t r .ok ∧ LeafIs t r.world r.va fun x =>
      x = some { level := level, pa := r.pa, cls := cls, w := leAt r.body 2 1 == 1, g := group, evicted := none } := by
  have hfields : ¬(1 < leAt r.body 2 1 ∨ 15 < leAt r.body 3 1
      ∨ (!(paModule r.pa == s.pod.self && isTier (paLocal r.pa))) = true ∧ leAt r.body 3 1 ≠ 0) := by
    rintro (h | h | ⟨h, h0⟩)
    · omega
    · omega
    · exact h0 (htier (by simpa only [Bool.not_eq_true'] using h))
  have hchecks : ¬(v.st = .ending ∨ (!s.pageOk r.world v r.va r.pa len cls) = true
      ∨ (!v.unmapped r.va len) = true) := by simp [hst, hpage, hmap]
  unfold Completes
  rw [exec_mapPage]
  unfold execMapPage
  rw [hr.withRequest]
  dsimp only
  rw [hsize, hcls]
  dsimp only
  rw [if_neg hfields, hv]
  dsimp only
  rw [if_neg hchecks]
  generalize ho : (if cls = PageClass.dev ∨ paModule r.pa ≠ s.pod.self then s else _) = o
  have hk : s.Keeps o := by
    rw [← ho]
    exact .ite (.refl s) (State.Keeps.refl s).ownPage.stampRange
  obtain ⟨x, hx, -⟩ := hk.worlds _ v hv
  have ha {o : State} : o.Keeps (o.answerRange r.world r.va len false) := (State.Keeps.refl o).answerRange
  refine ⟨_, rfl, hr.answers (hk.sameMail.trans ((State.sameMail_onWorld _ _ _).trans ha.sameMail)) _ _, ?_⟩
  exact LeafIs.mbDone (LeafIs.keeps ⟨_, State.world?_onWorld hx, World.get?_addLeaves _ _ _ _ _ _ _⟩ ha) _ _ _

/-! ### Requests on the page of an address (R133) -/

theorem World.leafAt_mem {a : Nat} (h : v.leafAt a = some e) : e ∈ v.pageOf e := by
  unfold World.pageOf
  split
  · next hg => exact List.mem_filter.2 ⟨List.mem_of_find?_eq_some h, by simp [hg]⟩
  · exact List.mem_singleton_self e

/-- A page that a request may change: of a world that is not Ending, outside the pool, with no access under way. -/
structure PageFree (s : State) (r : MbReq) (v : World) (e : Nat × Leaf) : Prop where
  world : s.world? r.world = some v
  live  : v.st ≠ .ending
  leaf  : v.leafAt r.va = some e
  pool  : (v.pageOf e).any v.inPool = false
  idle  : ∀ x ∈ v.pageOf e, x.2.evicted.isNone = true → s.pageBusy r.world x.1 x.2.pa (leafBytes x.2.level) = false

theorem PageFree.withPage (h : PageFree s r v e) {ok : World → Nat × Leaf → Bool} (hok : ok v e = true)
    (k : World → Nat × Leaf → State) : s.withPage r ok k = k v e := by
  have hchecks : ¬(v.st = .ending ∨ (v.pageOf e).any v.inPool = true ∨ (!ok v e) = true) := by simp [h.live, h.pool, hok]
  have hidle : ¬((v.pageOf e).any fun x =>
      x.2.evicted.isNone && s.pageBusy r.world x.1 x.2.pa (leafBytes x.2.level)) = true := by
    rw [List.any_eq_true]
    rintro ⟨x, hx, hb⟩
    rw [Bool.and_eq_true] at hb
    rw [h.idle x hx hb.1] at hb
    cases hb.2
  unfold State.withPage
  dsimp only
  rw [h.world, Option.bind_some, h.leaf, Option.map_some]
  dsimp only
  rw [if_neg hchecks, if_neg hidle]

/-! ### UNMAP -/

/-- A leaf that is cleared goes; the world's other leaves stay. -/
theorem State.clearLeaf_effect (x : Nat × Leaf) (hv : s.world? w = some v) : s.SameMail (s.clearLeaf w x)
    ∧ ∃ v', (s.clearLeaf w x).world? w = some v' ∧ v'.leaves = Map.erase v.leaves x.1 := by
  unfold State.clearLeaf
  dsimp only
  split
  · exact ⟨State.sameMail_onWorld _ _ _, _, State.world?_onWorld hv, rfl⟩
  · have hk : s.Keeps ((s.flushRange x.2.pa (leafBytes x.2.level)).foldRange x.2.pa (leafBytes x.2.level)) :=
      (State.Keeps.refl s).flushRange.foldRange
    obtain ⟨y, hy, hl, -⟩ := hk.worlds w v hv
    have hdrop {o : State} (f : World → World) : (o.onWorld w f).Keeps (if x.2.evicted.isSome = true then o.onWorld w f
        else (o.onWorld w f).freeRange x.2.pa (leafBytes x.2.level)) := .ite (.refl _) (State.Keeps.refl _).freeRange
    obtain ⟨z, hz, hl', -⟩ := (hdrop fun v => { v with leaves := Map.erase v.leaves x.1 }).worlds w _ (State.world?_onWorld hy)
    exact ⟨hk.sameMail.trans ((State.sameMail_onWorld _ _ _).trans (hdrop _).sameMail), z, hz, by rw [hl', ← hl]⟩

theorem State.clearLeaves_effect (l : List (Nat × Leaf)) (hv : s.world? w = some v) :
    s.SameMail (l.foldl (fun s x => s.clearLeaf w x) s)
    ∧ ∃ v', (l.foldl (fun s x => s.clearLeaf w x) s).world? w = some v'
        ∧ v'.leaves = l.foldl (fun m x => Map.erase m x.1) v.leaves := by
  induction l generalizing s v with
  | nil => exact ⟨.refl s, v, hv, rfl⟩
  | cons x l ih =>
    obtain ⟨hm, y, hy, hl⟩ := State.clearLeaf_effect x hv
    obtain ⟨hm', z, hz, hl'⟩ := ih hy
    exact ⟨hm.trans hm', z, hz, by rw [hl', hl]; rfl⟩

theorem Map.get?_erases {α : Type} (l : List (Nat × α)) (m : Map α) {k : Nat} (h : Map.get? m k = none ∨ ∃ x ∈ l, x.1 = k) :
    Map.get? (l.foldl (fun m x => Map.erase m x.1) m) k = none := by
  induction l generalizing m with
  | nil => simpa using h
  | cons x l ih =>
    refine ih _ ?_
    by_cases hx : k = x.1
    · subst hx; exact .inl (Map.get?_erase_self m _)
    · rw [Map.get?_erase_of_ne m hx]
      refine h.imp_right fun ⟨y, hy, hk⟩ => ⟨y, ?_, hk⟩
      exact (List.mem_cons.1 hy).resolve_left fun hyx => hx (by rw [← hk, hyx])

theorem unmapPage_effect (hr : Serves s fn 0x02 r) (hp : PageFree s r v e)
    (hregion : v.st = .sealed → ∀ x ∈ v.pageOf e, ∀ g ∈ v.regions, g.st = .active →
      rangesMeet g.base (65536 * g.chunks) x.1 (leafBytes x.2.level) = false) :
    Completes (.unmapPage fn) s fun t => Answers s t r .ok ∧ LeafIs t r.world e.1 fun x => x = none := by
  have hok : (!v.sealedPage e) = true := by
    rw [Bool.not_eq_true', World.sealedPage, Bool.and_eq_false_iff]
    by_cases hs : v.st = .sealed
    · refine .inr ?_
      simp only [List.any_eq_false, Bool.and_eq_true, beq_iff_eq, not_and, Bool.not_eq_true]
      exact fun x hx => fun g hg ha => hregion hs x hx g hg ha
    · exact .inl (by simpa using hs)
  unfold Completes
  rw [exec_unmapPage]
  unfold execUnmapPage
  rw [hr.withRequest, hp.withPage hok]
  obtain ⟨hm, y, hy, hl⟩ := State.clearLeaves_effect (v.pageOf e) hp.world
  refine ⟨_, rfl, hr.answers (hm.trans (State.sameMail_onWorld _ _ _)) _ _, ?_⟩
  refine LeafIs.mbDone ⟨_, State.world?_onWorld hy, ?_⟩ _ _ _
  change Map.get? y.leaves e.1 = none
  rw [hl]
  exact Map.get?_erases _ _ (.inr ⟨e, World.leafAt_mem hp.leaf, rfl⟩)

/-! ### PROTECT -/

theorem Map.get?_puts {α : Type} (f : Nat × α → α) (P : Option α → Prop) (l : List (Nat × α)) (m : Map α) {k : Nat}
    (hf : ∀ x, P (some (f x))) (h : P (Map.get? m k) ∨ ∃ x ∈ l, x.1 = k) :
    P (Map.get? (l.foldl (fun m x => Map.put m x.1 (f x)) m) k) := by
  induction l generalizing m with
  | nil => simpa using h
  | cons x l ih =>
    refine ih _ ?_
    by_cases hx : k = x.1
    · subst hx; rw [Map.get?_put_self]; exact .inl (hf x)
    · rw [Map.get?_put_of_ne m _ hx]
      refine h.imp_right fun ⟨y, hy, hk⟩ => ⟨y, ?_, hk⟩
      exact (List.mem_cons.1 hy).resolve_left fun hyx => hx (by rw [← hk, hyx])

theorem protect_effect (hr : Serves s fn 0x03 r) (hp : PageFree s r v e) (hw : leAt r.body 2 1 ≤ 1) :
    Completes (.protect fn) s fun t => Answers s t r .ok
      ∧ LeafIs t r.world e.1 fun x => ∃ y, x = some y ∧ y.w = (leAt r.body 2 1 == 1) := by
  unfold Completes
  rw [exec_protect]
  unfold execProtect
  rw [hr.withRequest, if_neg (by omega), hp.withPage rfl]
  refine ⟨_, rfl, hr.answers (State.sameMail_onWorld _ _ _) _ _, LeafIs.mbDone ⟨_, State.world?_onWorld hp.world, ?_⟩ _ _ _⟩
  exact Map.get?_puts (fun y => { y.2 with w := leAt r.body 2 1 == 1 }) (fun x => ∃ y, x = some y ∧ y.w = (leAt r.body 2 1 == 1))
    _ _ (fun x => ⟨_, rfl, rfl⟩) (.inr ⟨e, World.leafAt_mem hp.leaf, rfl⟩)

/-! ### EVICT and RETURN (R151, R152) -/

theorem evict_effect (hr : Serves s fn 0x04 r) (hp : PageFree s r v e) (hlevel : e.2.level = 0) (hg : e.2.g = false)
    (hcls : e.2.cls = .norm) (hev : e.2.evicted = none) (hself : paModule e.2.pa = s.pod.self)
    (hout : s.devOk fn (BitVec.ofNat 64 r.pa) 16448 = true) (hctr : v.evictCtr < 2 ^ 32 - 1) :
    Completes (.evict fn) s fun t => Answers s t r .ok
      ∧ (LeafIs t r.world e.1 fun x => x = some { e.2 with pa := 0, evicted := some (v.evictCtr + 1) })
      ∧ ∃ v', t.world? r.world = some v' ∧ v'.evictCtr = v.evictCtr + 1 := by
  have hok : (s.evictable e && s.devOk fn (BitVec.ofNat 64 r.pa) 16448) = true := by
    simp [State.evictable, hlevel, hg, hcls, hev, hself, hout]
  unfold Completes
  rw [exec_evict]
  unfold execEvict
  rw [hr.withRequest]
  dsimp only
  rw [hp.withPage hok, if_neg (Nat.not_le.2 hctr)]
  have hk := (State.Keeps.refl s).flushRange (pa := e.2.pa) (len := pageBytes) |>.foldRange (pa := e.2.pa) (len := pageBytes)
  generalize (s.flushRange e.2.pa pageBytes).foldRange e.2.pa pageBytes = o at hk ⊢
  have hk' := (hk.devWrite (fn := fn) (a := BitVec.ofNat 64 r.pa)
    (l := v.sealPage r.world e.1 (v.evictCtr + 1) (readBytes o.mem e.2.pa pageBytes))).freeRange
    (pa := e.2.pa) (len := pageBytes)
  obtain ⟨x, hx, -⟩ := hk'.worlds _ v hp.world
  refine ⟨_, rfl, hr.answers (hk'.sameMail.trans (State.sameMail_onWorld _ _ _)) _ _, ?_, ?_⟩
  · exact LeafIs.mbDone ⟨_, State.world?_onWorld hx, Map.get?_put_self _ _ _⟩ _ _ _
  · exact ⟨_, by rw [State.world?_mbDone]; exact State.world?_onWorld hx, rfl⟩

theorem returnPage_effect {l : List Byte} {lf : Leaf} {k : Nat} (hr : Serves s fn 0x05 r)
    (hv : s.world? r.world = some v) (hst : v.st ≠ .ending)
    (hread : s.devRead fn (BitVec.ofNat 64 r.pa) 16448 = some l)
    (hleaf : Map.get? v.leaves r.va = some lf) (hev : lf.evicted = some k)
    (hself : paModule (leAt r.body 24 8) = s.pod.self)
    (hpage : s.pageOk r.world v r.va (leAt r.body 24 8) pageBytes .norm = true) :
    Completes (.returnPage fn) s fun t =>
      if (v.openPage r.world r.va k l).isSome = true
      then Answers s t r .ok ∧ LeafIs t r.world r.va fun x =>
        x = some { lf with pa := leAt r.body 24 8, evicted := none }
      else Answers s t r .tag ∧ ∃ v', t.world? r.world = some v' ∧ v'.st = .ending := by
  have hchecks : ¬(v.st = .ending ∨ paModule (leAt r.body 24 8) ≠ s.pod.self
      ∨ (!s.pageOk r.world v r.va (leAt r.body 24 8) pageBytes .norm) = true) := by simp [hst, hself, hpage]
  unfold Completes
  rw [exec_returnPage]
  unfold execReturnPage
  rw [hr.withRequest]
  dsimp only
  rw [hread, hv]
  dsimp only
  rw [hleaf, Option.bind_some, hev, Option.map_some]
  dsimp only
  rw [if_neg hchecks]
  cases hopen : v.openPage r.world r.va k l with
  | none =>
    have hz : s.Keeps (s.zeroRange (leAt r.body 24 8) pageBytes) := (State.Keeps.refl s).zeroRange
    obtain ⟨x, hx, -⟩ := hz.worlds _ v hv
    obtain ⟨y, hy, he⟩ := State.endWorld_ending _ Cause.version.code 0xFFFF 0 hx
    refine ⟨_, rfl, ?_⟩
    rw [if_neg (by simp)]
    exact ⟨hr.answers hz.endWorld.sameMail _ _, y, by rw [State.world?_mbDone]; exact hy, he⟩
  | some text =>
    dsimp only
    generalize (if isTier (paLocal (leAt r.body 24 8)) = true then v.home else s.homePart (leAt r.body 24 8)) = home
    have hs : s.Keeps (((s.ownPage r.world (leAt r.body 24 8) pageBytes home).store (leAt r.body 24 8) text).stampRange
        (leAt r.body 24 8) pageBytes) := State.Keeps.stampRange (State.Keeps.refl s).ownPage.update
    obtain ⟨x, hx, -⟩ := hs.worlds _ v hv
    have ha {o : State} : o.Keeps (o.answerRange r.world r.va pageBytes false) := (State.Keeps.refl o).answerRange
    refine ⟨_, rfl, ?_⟩
    rw [if_pos Option.isSome_some]
    refine ⟨hr.answers (hs.sameMail.trans ((State.sameMail_onWorld _ _ _).trans ha.sameMail)) _ _, ?_⟩
    exact LeafIs.mbDone (LeafIs.keeps ⟨_, State.world?_onWorld hx, Map.get?_put_self _ _ _⟩ ha) _ _ _

/-! ### CLEARFE and PAIR (R132) -/

theorem State.Keeps.paOf {a : Nat} (h : u.Keeps s) (hv : u.world? w = some v) : s.paOf w a = u.paOf w a := by
  obtain ⟨v', hv', hl, -⟩ := h.worlds w v hv
  unfold State.paOf World.leafAt
  rw [hv, hv']
  dsimp only
  rw [hl]

theorem State.Keeps.clearWord {pa : Nat} (h : u.Keeps s) : u.Keeps (s.clearWord w pa) :=
  .ite (State.Keeps.endUncached (State.Keeps.setEmpty h.touchAs.update)) (State.Keeps.sendFlit (State.Keeps.setEmpty h.update))

/-- A cleared word is empty. -/
theorem State.clearWord_empty (s : State) (w pa : Nat) : Map.get false (s.clearWord w pa).full pa = false := by
  have hset (o : State) : Map.get false (o.setFull pa false).full pa = false := by
    unfold State.setFull
    simp
  unfold State.clearWord
  split
  · exact (State.Keeps.refl _).endUncached.full pa (hset _)
  · exact (State.Keeps.refl _).sendFlit.full pa (hset _)

theorem State.clearWords_effect (hv : s.world? w = some v) (va n : Nat) :
    s.Keeps ((List.range n).foldl (fun s i => s.clearWord w (s.paOf w (va + 4 * i))) s)
    ∧ ∀ i, i < n → Map.get false ((List.range n).foldl (fun s i => s.clearWord w (s.paOf w (va + 4 * i))) s).full
        (s.paOf w (va + 4 * i)) = false := by
  induction n with
  | zero => exact ⟨.refl s, fun i hi => absurd hi (Nat.not_lt_zero i)⟩
  | succ n ih =>
    rw [List.range_succ, List.foldl_append, List.foldl_cons, List.foldl_nil]
    obtain ⟨hk, hf⟩ := ih
    refine ⟨hk.clearWord, fun i hi => ?_⟩
    by_cases hin : i = n
    · subst hin
      rw [hk.paOf hv]
      exact State.clearWord_empty _ _ _
    · exact (State.Keeps.refl _).clearWord.full _ (hf i (by omega))

theorem clearfe_effect (hr : Serves s fn 0x06 r) (hv : s.world? r.world = some v) (hst : v.st ≠ .ending)
    (hva : r.va % 4 = 0) (h0 : r.pa ≠ 0) (h4 : r.pa % 4 = 0)
    (hend : r.va + r.pa ≤ 2 ^ 58)
    (hpages : ∀ x ∈ (List.range ((r.va + r.pa + pageBytes - 1) / pageBytes - r.va / pageBytes)).map
      (fun i => v.leafAt (max r.va ((r.va / pageBytes + i) * pageBytes))),
      ∃ y, x = some y ∧ y.2.cls = .fe ∧ y.2.evicted = none) :
    Completes (.clearfe fn) s fun t => Answers s t r .ok
      ∧ ∀ i, i < r.pa / 4 → Map.get false t.full (s.paOf r.world (r.va + 4 * i)) = false := by
  have hok : ((List.range ((r.va + r.pa + pageBytes - 1) / pageBytes - r.va / pageBytes)).all
      fun i => (v.leafAt (max r.va ((r.va / pageBytes + i) * pageBytes))).any fun e =>
        e.2.cls == .fe && e.2.evicted.isNone) = true := by
    rw [List.all_eq_true]
    intro i hi
    obtain ⟨y, hy, hc, he⟩ := hpages _ (List.mem_map_of_mem hi)
    rw [hy]
    simp [hc, he]
  unfold Completes
  rw [exec_clearfe]
  unfold execClearfe
  rw [hr.withRequest]
  dsimp only
  rw [if_neg (show ¬(r.va % 4 ≠ 0 ∨ r.pa = 0 ∨ r.pa % 4 ≠ 0) by omega), hv]
  dsimp only
  rw [hok, if_neg (by simp [hst]; omega)]
  obtain ⟨hk, hf⟩ := State.clearWords_effect hv r.va (r.pa / 4)
  refine ⟨_, rfl, hr.answers hk.sameMail _ _, fun i hi => ?_⟩
  rw [State.mbDone_frame]
  exact hf i hi

theorem pair_effect (hr : Serves s fn 0x07 r) (hv : s.world? r.world = some v) (hst : v.st ≠ .ending)
    (hlink : ∃ p ∈ s.pod.ports, p.2.peer = some (leAt r.body 1 1) ∧ p.2.closed = false) :
    Completes (.pair fn) s fun t => Answers s t r .ok
      ∧ ∃ v', t.world? r.world = some v' ∧ (leAt r.body 1 1, leAt r.body 2 1) ∈ v'.pairs := by
  have hlinked : (s.pod.ports.any fun p => p.2.peer == some (leAt r.body 1 1) && !p.2.closed) = true := by
    obtain ⟨p, hp, hpeer, hc⟩ := hlink
    exact List.any_eq_true.2 ⟨p, hp, by simp [hpeer, hc]⟩
  unfold Completes
  rw [exec_pair]
  unfold execPair
  rw [hr.withRequest]
  dsimp only
  rw [hv]
  dsimp only
  rw [hlinked, if_neg (by simp [hst])]
  refine ⟨_, rfl, hr.answers ?_ _ _, _, by rw [State.world?_mbDone]; exact State.world?_setWorld_self _ _ _, ?_⟩
  · exact ⟨rfl, fun _ => rfl⟩
  · dsimp only
    split
    · next h => simpa using h
    · simp

/-! ### NOMAP (R99, R131) -/

theorem State.faults_answerFault (s : State) (f : FaultRec) (denied : Bool) :
    (s.answerFault f denied).faults = s.faults.filter (· != f) := by
  have hh (l : List (Nat × Option Nat)) (o : State) :
      (l.foldl (fun s h => s.answerHolder f.world (f.va / pageBytes) denied h) o).faults = o.faults := by
    induction l generalizing o with
    | nil => rfl
    | cons h l ih =>
      rw [List.foldl_cons, ih]
      unfold State.answerHolder
      dsimp only
      split <;> rfl
  have hn (l : List (Nat × Nat × Nat)) (o : State) :
      (l.foldl (fun s n => s.finishStatus n.1 n.2.1 n.2.2 .policy) o).faults = o.faults := by
    induction l generalizing o with
    | nil => rfl
    | cons n l ih => rw [List.foldl_cons, ih]; rfl
  unfold State.answerFault
  dsimp only
  split
  · rw [hn, hh]
  · rw [hh]

theorem nomap_effect {f : FaultRec} (hr : Serves s fn 0x08 r)
    (hf : (s.faults.find? fun f => f.on r.world r.va && f.posted) = some f) :
    Completes (.nomap fn) s fun t => Answers s t r .ok ∧ t.faults = s.faults.filter (· != f) := by
  unfold Completes
  rw [exec_nomap]
  unfold execNomap
  rw [hr.withRequest]
  dsimp only
  rw [hf]
  dsimp only
  refine ⟨_, rfl, hr.answers (State.Keeps.refl s).answerFault.sameMail _ _, ?_⟩
  rw [State.mbDone_frame]
  exact s.faults_answerFault f true

/-! ### STAGE (R23) -/

theorem State.dropUnits_effect (s : State) (f keep : Nat) : (s.dropUnits f keep).lodge.inbox = s.lodge.inbox
    ∧ ((s.dropUnits f keep).func f).staging = (s.func f).staging.take keep := by
  have hk : s.Keeps (((s.func f).staging.drop keep).reverse.foldl (fun s b => s.freeRange b 0x200000) s) :=
    (State.Keeps.refl s).foldl fun _ _ h => h.freeRange
  unfold State.dropUnits
  exact ⟨hk.inbox, by rw [State.onFunc_eq, State.func_setFunc_self]⟩

theorem stageMem_effect (hr : Serves s fn 0x09 r) (hf : r.world ≤ 16) (hp : leAt r.body 1 1 ≤ 15)
    (hn : leAt r.body 4 4 ≤ (s.func r.world).staging.length) (hmax : leAt r.body 4 4 ≤ 128)
    (howns : r.world ≠ 0 → s.owns r.world (leAt r.body 1 1) = true)
    (hpart : (s.func r.world).staging ≠ [] → (s.func r.world).stagePart = leAt r.body 1 1) :
    Completes (.stageMem fn) s fun t =>
      (t.func r.world).staging = (s.func r.world).staging.take (leAt r.body 4 4)
      ∧ t.lodge.inbox = s.lodge.inbox.tail := by
  have hpolicy : ¬((r.world ≠ 0 ∧ (!s.owns r.world (leAt r.body 1 1)) = true)
      ∨ ((s.func r.world).staging ≠ [] ∧ (s.func r.world).stagePart ≠ leAt r.body 1 1)) := by
    rintro (⟨h, ho⟩ | ⟨h, hne⟩)
    · rw [howns h] at ho; cases ho
    · exact hne (hpart h)
  obtain ⟨hi, hs⟩ := s.dropUnits_effect r.world (leAt r.body 4 4)
  unfold Completes
  rw [exec_stageMem]
  unfold execStageMem
  rw [hr.withRequest]
  dsimp only
  rw [if_neg (show ¬(16 < r.world ∨ 15 < leAt r.body 1 1 ∨ 128 < leAt r.body 4 4) by omega), if_neg hpolicy, if_pos hn]
  exact ⟨_, rfl, by rw [State.staging_mbDone, hs], by rw [State.mbDone_inbox, hi]⟩

/-! ### POWER and BVREAD (R15, R279) -/

theorem powerLimit_effect (hr : Serves s fn 0x0A r) (hlo : 1200 ≤ leAt r.body 4 4) (hhi : leAt r.body 4 4 ≤ 2800) :
    Completes (.powerLimit fn) s fun t => Answers s t r .ok ∧ t.clock = { s.clock with limitW := leAt r.body 4 4 } := by
  unfold Completes
  rw [exec_powerLimit]
  unfold execPowerLimit
  rw [hr.withRequest]
  dsimp only
  rw [if_neg (by omega)]
  refine ⟨_, rfl, hr.answers ?_ _ _, by rw [State.mbDone_frame]⟩
  exact ⟨rfl, fun _ => rfl⟩

theorem bvread_effect (hr : Serves s fn 0x0B r 3072) (hp : r.world ≤ 15) (hvf : (s.part r.world).vf = 0) :
    Completes (.bvread fn) s fun t => Answers s t r .ok ∧ t.parts = s.parts ∧ t.worlds = s.worlds := by
  unfold Completes
  rw [exec_bvread]
  unfold execBvread
  rw [hr.withRequest]
  dsimp only
  rw [if_neg (Nat.not_lt.2 hp), if_neg (by simp [hvf])]
  generalize hl : ((List.range 384).flatMap fun i => leBytes 8 _) = l
  have hlen : l.length = 3072 := by
    rw [← hl, List.length_flatMap]
    simp only [length_leBytes, List.map_const', List.length_range, List.sum_replicate]
    rfl
  exact ⟨_, rfl, Serves.answers (hlen ▸ hr) (.refl s) _ _, by rw [State.mbDone_frame], by rw [State.mbDone_frame]⟩
end

/-- Settles O50, request by request. -/
theorem mappingRequests : Obligations.MappingRequests := by
  unfold Obligations.MappingRequests
  intro s fn r v e level len group cls f l lf k
  refine ⟨fun hr hsize hcls hw hhome htier hlive hpage hmap => ?_, fun hr hp hregion => ?_, fun hr hp hw => ?_,
    fun hr hp hlevel hg hcls hev hself hout hctr => ?_, fun hr hlive hread hleaf hev hself hpage => ?_,
    fun hr hlive hva h0 h4 hend hpages => ?_, fun hr hlive hlink => ?_, nomap_effect, stageMem_effect, powerLimit_effect,
    bvread_effect⟩
  · exact mapPage_effect hr hsize hcls hw hhome htier hlive.1 hlive.2 hpage hmap
  · exact unmapPage_effect hr ⟨hp.1.1, hp.1.2, hp.2.1, hp.2.2.1, hp.2.2.2⟩ hregion
  · exact protect_effect hr ⟨hp.1.1, hp.1.2, hp.2.1, hp.2.2.1, hp.2.2.2⟩ hw
  · exact evict_effect hr ⟨hp.1.1, hp.1.2, hp.2.1, hp.2.2.1, hp.2.2.2⟩ hlevel hg hcls hev hself hout hctr
  · exact returnPage_effect hr hlive.1 hlive.2 hread hleaf hev hself hpage
  · exact clearfe_effect hr hlive.1 hlive.2 hva h0 h4 hend hpages
  · exact pair_effect hr hlive.1 hlive.2 hlink

end Sys2Proof.Machine
end

