-- ==== Sys2Proof/Proofs/Registers.lean ====
section
/-! The registers of the functions (R19, R20, R22, R25, R26, R82 to R85, R90, R94, R96, R97). -/

namespace Sys2Proof.Machine

section
variable {s t u : State} {fn q : Nat} {v : Word}

/-! ### Queues and their completion records (R82 to R86) -/

/-- Every other queue reads as before. -/
def OtherQueues (s t : State) (fn q : Nat) : Prop := ∀ f k, (f, k) ≠ (fn, q) → t.queue f k = s.queue f k

theorem State.onQueue_others (s : State) (fn q : Nat) (g : Queue → Queue) : OtherQueues s (s.onQueue fn q g) fn q :=
  fun f k h => State.queue_setQueue_of_ne s _ fun ⟨hf, hk⟩ => h (by rw [hf, hk])

theorem OtherQueues.trans (h : OtherQueues s t fn q) (h' : OtherQueues t u fn q) : OtherQueues s u fn q :=
  fun f k hne => (h' f k hne).trans (h f k hne)

theorem State.queue_onQueue_self (s : State) (fn q : Nat) (g : Queue → Queue) :
    (s.onQueue fn q g).queue fn q = g (s.queue fn q) := by simp

theorem State.queue_devWrite (s : State) (fn : Nat) (a : Word) (l : List Byte) (f k : Nat) :
    (s.devWrite fn a l).queue f k = s.queue f k := by
  rw [State.devWrite_frame]; rfl

/-- Of the queues one alone differs, and of it only the waiting records and CTAIL: what writing completion records does. -/
structure OnlyPosts (s t : State) (fn q : Nat) : Prop where
  self   : ∃ c l, t.queue fn q = { s.queue fn q with ctail := c, posts := l }
  others : OtherQueues s t fn q

theorem OnlyPosts.refl (s : State) (fn q : Nat) : OnlyPosts s s fn q := ⟨⟨_, _, rfl⟩, fun _ _ _ => rfl⟩

theorem OnlyPosts.trans (h : OnlyPosts s t fn q) (h' : OnlyPosts t u fn q) : OnlyPosts s u fn q := by
  obtain ⟨c, l, e⟩ := h.self
  obtain ⟨c', l', e'⟩ := h'.self
  exact ⟨⟨c', l', by rw [e', e]⟩, h.others.trans h'.others⟩

theorem State.onQueue_onlyPosts {g : Queue → Queue} (h : ∀ x, ∃ c l, g x = { x with ctail := c, posts := l }) :
    OnlyPosts s (s.onQueue fn q g) fn q :=
  ⟨by rw [State.queue_onQueue_self]; exact h _, s.onQueue_others fn q g⟩

theorem State.devWrite_onlyPosts (s : State) (k : Nat) (a : Word) (l : List Byte) (fn q : Nat) :
    OnlyPosts s (s.devWrite k a l) fn q :=
  ⟨⟨_, _, s.queue_devWrite k a l fn q⟩, fun f j _ => s.queue_devWrite k a l f j⟩

theorem OnlyPosts.signal {k vec} (h : OnlyPosts s t fn q) : OnlyPosts s (t.signal k vec) fn q := ⟨h.self, h.others⟩

theorem State.writePost_onlyPosts (s : State) (fn q : Nat) (p : Post) : OnlyPosts s (s.writePost fn q p) fn q := by
  have h (a l) : OnlyPosts s ((s.devWrite fn a l).onQueue fn q fun v => { v with ctail := v.ctail + 1 }) fn q :=
    (s.devWrite_onlyPosts fn a l fn q).trans (State.onQueue_onlyPosts fun _ => ⟨_, _, rfl⟩)
  unfold State.writePost
  dsimp only
  split
  · exact (h _ _).signal.signal
  · exact (h _ _).signal

theorem State.flushPosts_onlyPosts (s : State) (fn q k : Nat) : OnlyPosts s (s.flushPosts fn q k) fn q := by
  induction k generalizing s with
  | zero => exact .refl s fn q
  | succ k ih =>
    unfold State.flushPosts
    split
    · exact .refl s fn q
    · split
      · exact ((State.onQueue_onlyPosts fun _ => ⟨_, _, rfl⟩).trans (State.writePost_onlyPosts _ fn q _)).trans (ih _)
      · exact .refl s fn q

theorem State.post_onlyPosts (s : State) (fn q : Nat) (p : Post) : OnlyPosts s (s.post fn q p) fn q :=
  (State.onQueue_onlyPosts fun _ => ⟨_, _, rfl⟩).trans (State.flushPosts_onlyPosts _ fn q _)

/-- With no record to write, a flush does nothing. -/
theorem State.flushPosts_nil (h : (s.queue fn q).posts = []) (k : Nat) : s.flushPosts fn q k = s := by
  cases k with
  | zero => rfl
  | succ k => unfold State.flushPosts; rw [h]

theorem State.onQueue_sameMemory (s : State) (fn q : Nat) (g : Queue → Queue) : SameMemory s (s.onQueue fn q g) :=
  ⟨fun _ => rfl, fun _ => rfl⟩

/-- R82: a write of QTAIL that does not overfill the ring only moves it. -/
theorem qtailWrite_effect (hq : s.queueOk fn q = true)
    (h : ¬((s.queue fn q).en = true ∧
      2 ^ (s.queue fn q).logsize < (v.extractLsb' 0 16 - (s.queue fn q).qhead : BitVec 16).toNat)) :
    Completes (.qtailWrite fn q v) s fun t => t.queue fn q = { s.queue fn q with qtail := v.extractLsb' 0 16 }
      ∧ OtherQueues s t fn q ∧ SameMemory s t ∧ t.out = s.out := by
  unfold Completes
  rw [exec_qtailWrite]
  unfold execQtailWrite State.qtail
  rw [if_pos hq]
  dsimp only
  rw [State.queue_onQueue_self, if_neg (by simpa only [Bool.and_eq_true, decide_eq_true_eq] using h)]
  exact ⟨_, rfl, s.queue_onQueue_self fn q _, s.onQueue_others fn q _, s.onQueue_sameMemory fn q _, rfl⟩

/-- R82: a write of QTAIL that overfills the ring stops the queue. -/
theorem qtailWrite_overrun (hq : s.queueOk fn q = true) (h : (s.queue fn q).en = true ∧
      2 ^ (s.queue fn q).logsize < (v.extractLsb' 0 16 - (s.queue fn q).qhead : BitVec 16).toNat) :
    Completes (.qtailWrite fn q v) s fun t => (t.queue fn q).qtail = v.extractLsb' 0 16 ∧ (t.queue fn q).en = false
      ∧ (t.queue fn q).ovr = true ∧ (t.queue fn q).qhead = (s.queue fn q).qhead ∧ OtherQueues s t fn q := by
  unfold Completes
  rw [exec_qtailWrite]
  unfold execQtailWrite State.qtail
  rw [if_pos hq]
  dsimp only
  rw [State.queue_onQueue_self, if_pos (by simpa only [Bool.and_eq_true, decide_eq_true_eq] using h)]
  have htail := s.queue_onQueue_self fn q fun x => { x with qtail := v.extractLsb' 0 16 }
  have hothers := s.onQueue_others fn q fun x => { x with qtail := v.extractLsb' 0 16 }
  generalize s.onQueue fn q (fun x => { x with qtail := v.extractLsb' 0 16 }) = a at htail hothers ⊢
  have hstop := a.takeFree.2.queue_onQueue_self fn q fun x => { x with en := false, ovr := true }
  have hothers' := a.takeFree.2.onQueue_others fn q fun x => { x with en := false, ovr := true }
  generalize a.takeFree.2.onQueue fn q (fun x => { x with en := false, ovr := true }) = b at hstop hothers' ⊢
  refine ⟨_, rfl, ?_⟩
  obtain ⟨⟨c, l, e⟩, ho⟩ := State.post_onlyPosts b fn q _
  rw [show a.takeFree.2.queue fn q = a.queue fn q from rfl, htail] at hstop
  rw [e, hstop]
  exact ⟨rfl, rfl, rfl, rfl, (hothers.trans hothers').trans ho⟩

/-- R85: a write of CHEAD within the records moves it. -/
theorem qstatCheadWrite_effect (hq : s.queueOk fn q = true) (hp : (s.queue fn q).posts = [])
    (h : (v.extractLsb' 32 16 - (s.queue fn q).chead : BitVec 16).toNat ≤ ((s.queue fn q).ctail - (s.queue fn q).chead).toNat) :
    Completes (.qstatCheadWrite fn q v) s fun t => t.queue fn q = { s.queue fn q with chead := v.extractLsb' 32 16 }
      ∧ OtherQueues s t fn q ∧ SameMemory s t := by
  unfold Completes
  rw [exec_qstatCheadWrite]
  unfold execQstatCheadWrite State.qstat
  rw [if_pos hq, if_pos h, State.flushPosts_nil (by rw [State.queue_onQueue_self]; exact hp)]
  exact ⟨_, rfl, s.queue_onQueue_self fn q _, s.onQueue_others fn q _, s.onQueue_sameMemory fn q _⟩

theorem qstatCheadWrite_ignored (hq : s.queueOk fn q = true)
    (h : ((s.queue fn q).ctail - (s.queue fn q).chead).toNat < (v.extractLsb' 32 16 - (s.queue fn q).chead : BitVec 16).toNat) :
    Completes (.qstatCheadWrite fn q v) s fun t => t = s := by
  unfold Completes
  rw [exec_qstatCheadWrite]
  unfold execQstatCheadWrite State.qstat
  rw [if_pos hq, if_neg (Nat.not_le.2 h)]
  exact ⟨s, rfl, rfl⟩

/-- R83: setting EN starts the counts anew. -/
theorem qctlEnable_effect (hq : s.queueOk fn q = true) (hen : (s.queue fn q).en = false) (hv : v.getLsbD 0 = true)
    (hp : (s.queue fn q).posts = []) :
    Completes (.qctlEnable fn q v) s fun t =>
      t.queue fn q = { (s.queue fn q).setCtl v with
        en := true, qtail := 0, qhead := 0, ctail := 0, chead := 0, ovr := false }
      ∧ OtherQueues s t fn q ∧ SameMemory s t := by
  unfold Completes
  rw [exec_qctlEnable]
  unfold execQctlEnable State.qctl
  rw [if_pos (by simp only [hq, hen, hv]; rfl)]
  dsimp only
  rw [hen, if_neg Bool.false_ne_true, if_pos hv]
  have hself := s.queue_onQueue_self fn q fun x => x.setCtl v
  have hothers := s.onQueue_others fn q fun x => x.setCtl v
  have hmem := s.onQueue_sameMemory fn q fun x => x.setCtl v
  generalize s.onQueue fn q (fun x => x.setCtl v) = a at hself hothers hmem ⊢
  rw [State.flushPosts_nil (by rw [State.queue_onQueue_self, hself]; exact hp)]
  exact ⟨_, rfl, by rw [State.queue_onQueue_self, hself, ← hv]; rfl, hothers.trans (a.onQueue_others fn q _), hmem⟩

/-- R83: a write that clears EN is taken whole. -/
theorem qctlDisable_effect (hq : s.queueOk fn q = true) (hen : (s.queue fn q).en = true) (hv : v.getLsbD 0 = false) :
    Completes (.qctlDisable fn q v) s fun t =>
      t.queue fn q = { (s.queue fn q).setCtl v with en := false } ∧ OtherQueues s t fn q ∧ SameMemory s t := by
  unfold Completes
  rw [exec_qctlDisable]
  unfold execQctlDisable State.qctl
  rw [if_pos (by simp only [hq, hen, hv]; rfl)]
  dsimp only
  rw [hen, if_pos rfl, hv, if_neg Bool.false_ne_true]
  exact ⟨_, rfl, by rw [State.queue_onQueue_self, ← hv]; rfl, s.onQueue_others fn q _, s.onQueue_sameMemory fn q _⟩

/-! ### Events and acknowledgement (R90, R94) -/

theorem qevdbWrite_effect (h : s.vfOk fn = true) :
    Completes (.qevdbWrite fn v) s fun t => t = { s with funcs := t.funcs }
      ∧ ∀ e, Map.get 0 (t.func fn).events e = if e = (v.extractLsb' 0 10).toNat
          then Map.get 0 (s.func fn).events e + (v.extractLsb' 16 48).setWidth 64 else Map.get 0 (s.func fn).events e := by
  unfold Completes
  rw [exec_qevdbWrite]
  unfold execQevdbWrite State.qevdb State.addEvent
  rw [if_pos h]
  refine ⟨_, rfl, rfl, fun e => ?_⟩
  rw [State.onFunc_eq, State.func_setFunc_self, Map.get_set]
  by_cases he : e = (v.extractLsb' 0 10).toNat
  · rw [if_pos he, if_pos he, he]
  · rw [if_neg he, if_neg he]

theorem pauseAck_effect (h : s.vfOk fn = true) (hfw : s.lodge.fw = .pausing) :
    Completes (.pauseAck fn) s fun t => t = s.setFunc fn { s.func fn with pauseAck := true } := by
  unfold Completes
  rw [exec_pauseAck]
  unfold execPauseAck State.vfctl
  rw [if_pos h, if_pos (by simp [hfw])]
  exact ⟨_, rfl, rfl⟩

/-! ### The fault ring (R96, R99) -/

theorem State.answerHolder_frame (s : State) (w page : Nat) (denied : Bool) (h : Nat × Option Nat) :
    s.answerHolder w page denied h =
      { s with cells := (s.answerHolder w page denied h).cells, launches := (s.answerHolder w page denied h).launches } := by
  unfold State.answerHolder
  dsimp only
  split <;> rfl

/-- The answer to a fault touches the faults, their holders and the nodes of queues alone. -/
theorem State.answerFault_frame (s : State) (f : FaultRec) (denied : Bool) :
    s.answerFault f denied = { s with
      faults := (s.answerFault f denied).faults, cells := (s.answerFault f denied).cells
      launches := (s.answerFault f denied).launches, funcs := (s.answerFault f denied).funcs } := by
  have hh (l : List (Nat × Option Nat)) (o : State) :
      let t := l.foldl (fun s h => s.answerHolder f.world (f.va / pageBytes) denied h) o
      t = { o with cells := t.cells, launches := t.launches } := by
    induction l generalizing o with
    | nil => rfl
    | cons h l ih =>
      refine (ih _).trans ?_
      dsimp only [List.foldl_cons]
      rw [State.answerHolder_frame]
  have hn (l : List (Nat × Nat × Nat)) (o : State) :
      let t := l.foldl (fun s n => s.finishStatus n.1 n.2.1 n.2.2 .policy) o
      t = { o with funcs := t.funcs } := by
    induction l generalizing o with
    | nil => rfl
    | cons n l ih => exact ih _
  unfold State.answerFault
  dsimp only
  split
  · rw [hn, hh]
  · rw [hh]

/-- Answering faults leaves the ring alone and removes each of them. -/
theorem State.answerFaults_effect (l : List FaultRec) (s : State) :
    (l.foldl (fun s f => s.answerFault f true) s).fring = s.fring
    ∧ ∀ f, f ∈ (l.foldl (fun s f => s.answerFault f true) s).faults ↔ f ∈ s.faults ∧ f ∉ l := by
  induction l generalizing s with
  | nil => exact ⟨rfl, fun f => by simp⟩
  | cons g l ih =>
    obtain ⟨hr, hf⟩ := ih (s.answerFault g true)
    refine ⟨hr.trans (by rw [State.answerFault_frame]), fun f => ?_⟩
    rw [List.foldl_cons, hf, State.faults_answerFault, List.mem_filter, List.mem_cons, not_or, and_assoc, bne_iff_ne]

theorem fqctlWrite_effect (h : s.booted = true) (hv : v &&& ~~~(0xF001 : Word) = 0)
    (hlo : 4 ≤ (v.extractLsb' 12 4).toNat) (hhi : (v.extractLsb' 12 4).toNat ≤ 12) :
    Completes (.fqctlWrite v) s fun t =>
      t.fring = { s.fring with
        logsize := (v.extractLsb' 12 4).toNat, en := v.getLsbD 0
        tail := if v.getLsbD 0 = true ∧ s.fring.en = false then 0 else s.fring.tail
        head := if v.getLsbD 0 = true ∧ s.fring.en = false then 0 else s.fring.head }
      ∧ t.faults = (if v.getLsbD 0 = true then s.faults else []) := by
  unfold Completes
  rw [exec_fqctlWrite]
  unfold execFqctlWrite State.fqctl
  rw [if_pos h]
  dsimp only
  rw [if_neg (by rintro (h | h | h); exacts [h hv, by omega, by omega])]
  refine ⟨_, rfl, ?_⟩
  cases hen : v.getLsbD 0
  · obtain ⟨hr, hf⟩ := State.answerFaults_effect s.faults
      { s with fring := { s.fring with logsize := (v.extractLsb' 12 4).toNat, en := false } }
    exact ⟨hr, List.eq_nil_iff_forall_not_mem.2 fun f hm => ((hf f).1 hm).2 ((hf f).1 hm).1⟩
  · cases hr : s.fring.en <;> exact ⟨rfl, rfl⟩

theorem fqctlWrite_ignored (h : s.booted = true)
    (hv : v &&& ~~~(0xF001 : Word) ≠ 0 ∨ (v.extractLsb' 12 4).toNat < 4 ∨ 12 < (v.extractLsb' 12 4).toNat) :
    Completes (.fqctlWrite v) s fun t => t = s := by
  unfold Completes
  rw [exec_fqctlWrite]
  unfold execFqctlWrite State.fqctl
  rw [if_pos h, if_pos hv]
  exact ⟨s, rfl, rfl⟩

theorem fqheadWrite_effect (h : s.booted = true) :
    Completes (.fqheadWrite v) s fun t => t = { s with fring := { s.fring with head := v.extractLsb' 0 16 } } := by
  unfold Completes
  rw [exec_fqheadWrite]
  exact ⟨_, if_pos h, rfl⟩

/-! ### Changes of an interface (R25) -/

/-- The state of an interface after a change that a locked or running one answers with `ERROR`. -/
def Tdi.changed (x : Tdi) : Tdi := if x = .configLocked ∨ x = .run then .error else x

/-- A change sets the interface's state in its function and marks launches; the rest of the module stays. -/
theorem State.tdiChange_frame (s : State) (fn : Nat) :
    s.tdiChange fn = { s with funcs := (s.tdiChange fn).funcs, launches := (s.tdiChange fn).launches } := by
  unfold State.tdiChange
  split <;> rfl

theorem State.func_tdiChange_self (s : State) (fn : Nat) :
    (s.tdiChange fn).func fn = { s.func fn with tdi := (s.func fn).tdi.changed } := by
  unfold State.tdiChange Tdi.changed
  split
  · next h => rw [if_pos (.inl h)]; exact s.func_setFunc_self fn _
  · next h => rw [if_pos (.inr h)]; exact s.func_setFunc_self fn _
  · next h h' => rw [if_neg (by rintro (e | e); exacts [h e, h' e])]

theorem State.func_tdiChange_of_ne (s : State) {fn k : Nat} (hk : k ≠ fn) : (s.tdiChange fn).func k = s.func k := by
  unfold State.tdiChange
  split
  · exact s.func_setFunc_of_ne _ hk
  · exact s.func_setFunc_of_ne _ hk
  · rfl

/-- A change of a function that its interface answers. -/
theorem State.changeFunc_effect (s : State) (fn : Nat) (g : Func → Func) (hg : ∀ f, (g f).tdi = f.tdi) :
    ((s.onFunc fn g).tdiChange fn).func fn = { g (s.func fn) with tdi := (s.func fn).tdi.changed }
    ∧ (∀ k, k ≠ fn → ((s.onFunc fn g).tdiChange fn).func k = s.func k) ∧ SameMemory s ((s.onFunc fn g).tdiChange fn) := by
  refine ⟨?_, fun k hk => ?_, ?_⟩
  · rw [State.func_tdiChange_self, State.onFunc_eq, State.func_setFunc_self, hg]
  · rw [State.func_tdiChange_of_ne _ hk]; exact s.func_setFunc_of_ne _ hk
  · rw [State.tdiChange_frame]; exact ⟨fun _ => rfl, fun _ => rfl⟩

/-! ### Writes of a function's registers (R22, R82, R97) -/

theorem State.booted_of_funcOk (h : s.funcOk fn = true) : s.booted = true := (Bool.and_eq_true_iff.1 h).1

theorem State.booting_of_booted (h : s.booted = true) : s.booting = false := by
  obtain ⟨hs, -⟩ := Bool.and_eq_true_iff.1 h
  simp [State.booting, beq_iff_eq.1 hs]

theorem registerWrite_eq (h : s.funcOk fn = true) (place : RegPlace) : exec (.registerWrite fn place v) s = match place with
    | .bar0 off => .next (s.regWrite fn off v)
    | .barAddress bar => .next ((s.onFunc fn fun f => f.setBar fn bar v).tdiChange fn)
    | .msixLocation => .next ((s.onFunc fn fun f => { f with msixLoc := v }).tdiChange fn) := by
  rw [exec_registerWrite]
  unfold execRegisterWrite
  rw [State.booting_of_booted (State.booted_of_funcOk h), h]
  cases place <;> rfl

theorem writeBar0_effect (h : s.funcOk fn = true) : Completes (.registerWrite fn (.barAddress 0) v) s fun t =>
    (t.func fn).bar0 = v &&& ~~~(BitVec.ofNat 64 (bar0Bytes fn - 1)) ∧ (t.func fn).bar2 = (s.func fn).bar2
      ∧ (t.func fn).tdi = (s.func fn).tdi.changed ∧ (∀ k, k ≠ fn → t.func k = s.func k) ∧ SameMemory s t := by
  obtain ⟨e, ho, hm⟩ := s.changeFunc_effect fn (fun f => f.setBar fn 0 v) fun _ => rfl
  exact ⟨_, registerWrite_eq h _, by rw [e]; rfl, by rw [e]; rfl, by rw [e], ho, hm⟩

theorem writeBar2_effect (h : s.funcOk fn = true) : Completes (.registerWrite fn (.barAddress 2) v) s fun t =>
    (t.func fn).bar2 = v &&& ~~~(0xFFFFFFF : Word) ∧ (t.func fn).bar0 = (s.func fn).bar0
      ∧ (t.func fn).tdi = (s.func fn).tdi.changed ∧ (∀ k, k ≠ fn → t.func k = s.func k) ∧ SameMemory s t := by
  obtain ⟨e, ho, hm⟩ := s.changeFunc_effect fn (fun f => f.setBar fn 2 v) fun _ => rfl
  exact ⟨_, registerWrite_eq h _, by rw [e]; rfl, by rw [e]; rfl, by rw [e], ho, hm⟩

theorem writeMsix_effect (h : s.funcOk fn = true) : Completes (.registerWrite fn .msixLocation v) s fun t =>
    (t.func fn).msixLoc = v ∧ (t.func fn).tdi = (s.func fn).tdi.changed ∧ (∀ k, k ≠ fn → t.func k = s.func k)
      ∧ SameMemory s t := by
  obtain ⟨e, ho, hm⟩ := s.changeFunc_effect fn (fun f => { f with msixLoc := v }) fun _ => rfl
  exact ⟨_, registerWrite_eq h _, by rw [e], by rw [e], ho, hm⟩

theorem writeMbaddr_effect (h : s.funcOk fn = true) :
    Completes (.registerWrite fn (.bar0 (if fn = 0 then 0x200 else 0x1020)) v) s fun t =>
      t = s.setFunc fn { s.func fn with mbaddr := v &&& ~~~(63 : Word) } := by
  refine ⟨_, registerWrite_eq h _, ?_⟩
  by_cases hfn : fn = 0
  · subst hfn; rfl
  · rw [if_neg hfn]
    unfold State.regWrite
    rw [if_neg hfn]
    rfl

/-! ### Requests of the host (R18 to R20, R22, R26) -/

theorem leBytes_eq_tabulate (n x : Nat) : leBytes n x = tabulate n fun i => BitVec.ofNat 8 (x / 256 ^ i) := by
  induction n generalizing x with
  | zero => rfl
  | succ n ih =>
    unfold leBytes tabulate
    rw [ih, List.range_succ_eq_map, List.map_cons, List.map_map, Nat.pow_zero, Nat.div_one]
    refine congrArg _ (List.map_congr_left fun i _ => ?_)
    rw [Function.comp_apply, Nat.pow_succ', Nat.div_div_eq_div_mul]

/-- The bytes of a register, lowest first. -/
theorem tabulate_byte (w : Word) : (tabulate 8 fun i => (w >>> (8 * i)).setWidth 8) = leBytes 8 w.toNat := by
  rw [leBytes_eq_tabulate]
  refine List.map_congr_left fun i _ => BitVec.eq_of_toNat_eq ?_
  rw [BitVec.toNat_setWidth, BitVec.toNat_ushiftRight, Nat.shiftRight_eq_div_pow, pow_mul, BitVec.toNat_ofNat]
  rfl

theorem readBar0_effect {off : Nat} (h : s.barAnswers fn = true) (ha : off % 8 = 0) (hb : off + 8 ≤ bar0Bytes fn) :
    Completes (.hostRequest fn (.readBar 0 off 8)) s fun t =>
      t = s.emit (.hostData fn (leBytes 8 (s.regRead fn off).toNat)) := by
  have e : (tabulate 8 fun i => (s.regRead fn ((off + i) / 8 * 8) >>> (8 * ((off + i) % 8))).setWidth 8)
      = leBytes 8 (s.regRead fn off).toNat := by
    rw [← tabulate_byte]
    refine List.map_congr_left fun i hi => ?_
    have hi : i < 8 := List.mem_range.1 hi
    rw [show (off + i) / 8 * 8 = off by omega, show (off + i) % 8 = i by omega]
  unfold Completes
  rw [exec_hostRequest]
  unfold execHostRequest State.request
  dsimp only
  rw [h, if_neg (by simp), if_pos ⟨rfl, hb⟩, e]
  exact ⟨_, rfl, rfl⟩

theorem readBar_unsupported {off : Nat} (h : s.barAnswers fn = false) :
    Completes (.hostRequest fn (.readBar 0 off 8)) s fun t => t = s.emit (.unsupported fn) := by
  unfold Completes
  rw [exec_hostRequest]
  unfold execHostRequest State.request
  dsimp only
  rw [h]
  exact ⟨_, rfl, rfl⟩

theorem State.barAnswers_of_funcOk (h : s.funcOk fn = true) : s.barAnswers fn = true := by
  unfold State.barAnswers; rw [h]; rfl

theorem booting_iff : s.booting = true ↔ s.boot.fail = false ∧ s.boot.stage < 8 := by simp [State.booting]

theorem readConfig_retry (d : Bool) (h : s.booting = true) :
    Completes (.hostRequest fn (.readConfig d)) s fun t => t = s.emit (.configRetry fn) := by
  unfold Completes
  rw [exec_hostRequest]
  unfold execHostRequest State.request State.configRead
  dsimp only
  rw [if_pos h]
  exact ⟨_, rfl, rfl⟩

theorem writeMsix_retry (h : s.booting = true) :
    Completes (.registerWrite fn .msixLocation v) s fun t => t = s.emit (.configRetry fn) := by
  unfold Completes
  rw [exec_registerWrite]
  unfold execRegisterWrite
  rw [h]
  exact ⟨_, rfl, rfl⟩

theorem readConfig_bootStatus (h : s.booting = false) :
    Completes (.hostRequest 0 (.readConfig true)) s fun t => t = s.emit (.configData 0 (BitVec.ofNat 32
      ((if s.boot.fail = true then 0x10000 else 0) + s.boot.stage * 256 + s.boot.unit))) := by
  unfold Completes
  rw [exec_hostRequest]
  unfold execHostRequest State.request State.configRead Boot.word
  dsimp only
  rw [h, if_neg Bool.false_ne_true, if_neg (by simp), if_pos ⟨rfl, rfl⟩, BitVec.setWidth_ofNat_of_le (by decide)]
  exact ⟨_, rfl, rfl⟩

theorem State.regRead_bootStatus (h : s.booted = true) : s.regRead 0 0 = 8 * 256 + BitVec.ofNat 64 s.boot.unit := by
  obtain ⟨hs, hf⟩ := Bool.and_eq_true_iff.1 h
  change s.boot.word = _
  unfold Boot.word
  rw [beq_iff_eq.1 hs, (Bool.not_eq_true' _).mp hf, BitVec.ofNat_add]
  rfl

/-! ### The mailbox doorbell (R97) -/

theorem mbdoorWrite_effect {h body : List Byte} (hb : s.booted = true) (hfn : fn = 0 ∨ (s.func fn).enabled = true)
    (hbusy : (s.func fn).mbBusy = false) (hhead : s.stagingRead fn (s.func fn).mbaddr 64 = some h)
    (hbody : s.stagingRead fn ((s.func fn).mbaddr + 64) (leAt h 2 2) = some body) (hlen : body.length ≤ 65472)
    (hz : zeroAt h 9 3 = true) (hz' : zeroAt h 24 40 = true) (ho : mbOpen fn (leAt h 0 2) = true)
    (hok : mbBodyOk (leAt h 0 2) body = true) :
    Completes (.mbdoorWrite fn 1) s fun t =>
      t.lodge = { s.lodge with
        inbox := s.lodge.inbox ++ [{ fn := fn, addr := (s.func fn).mbaddr, code := leAt h 0 2, body := body }] }
      ∧ t.func fn = { s.func fn with mbBusy := true, mbDone := false } ∧ SameMemory s t := by
  have hread (a n) : (s.onFunc fn fun f => { f with mbBusy := true, mbDone := false }).stagingRead fn a n = s.stagingRead fn a n := by
    have e : ((s.onFunc fn fun f => { f with mbBusy := true, mbDone := false }).func fn).stagingPa = (s.func fn).stagingPa :=
      funext (Func.stagingPa_congr (by rw [State.onFunc_eq, State.func_setFunc_self]))
    unfold State.stagingRead
    rw [e]
    rfl
  have hen : (s.booted && (fn == 0 || (s.func fn).enabled)) = true := by
    rw [hb]; simpa using hfn
  unfold Completes
  rw [exec_mbdoorWrite]
  unfold execMbdoorWrite State.mbSubmit
  rw [if_pos hen]
  dsimp only
  rw [if_neg (by simp [hbusy]), hread, hhead]
  dsimp only
  rw [hread, hbody]
  dsimp only
  rw [if_neg (by simp [hz, hz', ho, hok, hlen])]
  exact ⟨_, rfl, rfl, s.func_setFunc_self fn _, fun _ => rfl, fun _ => rfl⟩
end

/-- Settles O41, register by register. -/
theorem registersOfTheFunctions : Obligations.RegistersOfTheFunctions := by
  unfold Obligations.RegistersOfTheFunctions
  refine ⟨fun s fn q v => ⟨fun hq => ⟨qtailWrite_effect hq, qtailWrite_overrun hq, fun h hp => qstatCheadWrite_effect hq hp h,
      qstatCheadWrite_ignored hq, qctlEnable_effect hq, fun he hv => qctlDisable_effect hq he hv⟩,
    fun h => ⟨qevdbWrite_effect h, pauseAck_effect h⟩⟩, fun s fn v off d h body => ?_⟩
  refine ⟨fqctlWrite_effect, fqctlWrite_ignored, fqheadWrite_effect, fun hf => ⟨writeBar0_effect hf, writeBar2_effect hf,
      writeMsix_effect hf, writeMbaddr_effect hf, readBar0_effect (State.barAnswers_of_funcOk hf)⟩,
    fun hf hs => ⟨readConfig_retry d (booting_iff.2 ⟨hf, hs⟩), writeMsix_retry (booting_iff.2 ⟨hf, hs⟩)⟩, fun hb => ?_,
    State.regRead_bootStatus, readBar_unsupported, mbdoorWrite_effect⟩
  refine readConfig_bootStatus (Bool.eq_false_iff.2 fun h => ?_)
  obtain ⟨hf, hs⟩ := booting_iff.1 h
  exact hb.elim (fun hb => absurd hb (by simp [hf])) (Nat.not_le.2 hs)

end Sys2Proof.Machine
end

