-- ==== Sys2Proof/Proofs/Endings.lean ====
section
/-! What the ends of launches, contexts and worlds leave standing (R44, R92, R106, R271, R275): which VF owns a partition, which
worlds and packages are there, the SPDM connections, the sessions of the pod links, and what has been sent. `Sheds` is about the
work that cells and partitions lose, `Stands` about the ends that are told to nodes and to other modules. -/

namespace Sys2Proof.Machine

section
variable {s t u : State}

theorem Map.erase_of_get?_none {α : Type} {m : Map α} {k : Nat} (h : Map.get? m k = none) : Map.erase m k = m := by
  induction m with
  | nil => rfl
  | cons e r ih =>
    rw [Map.get?_cons] at h
    split at h
    · cases h
    · next hk => rw [Map.erase, List.filter_cons, if_pos (by simpa using hk)]; exact congrArg _ (ih h)

/-- A map that keeps each key. -/
theorem Map.get?_map {α β : Type} {f : Nat × α → Nat × β} (hf : ∀ e, (f e).1 = e.1) (m : Map α) (k : Nat) :
    Map.get? (m.map f) k = (Map.get? m k).map fun v => (f (k, v)).2 := by
  induction m with
  | nil => rfl
  | cons e r ih =>
    rw [List.map_cons, Map.get?_cons, Map.get?_cons, hf, ih]
    split
    · next hk => subst hk; rfl
    · rfl

/-! ### Worlds and packages -/

/-- The same worlds are there, and none has a package that it did not have. -/
structure State.SameWorlds (u s : State) : Prop where
  worlds   : ∀ w, (s.world? w).isSome = (u.world? w).isSome
  packages : ∀ w n, u.package? w n = none → s.package? w n = none

theorem State.SameWorlds.refl (s : State) : s.SameWorlds s := ⟨fun _ => rfl, fun _ _ => id⟩

theorem State.SameWorlds.trans (h : u.SameWorlds s) (h' : s.SameWorlds t) : u.SameWorlds t :=
  ⟨fun w => (h'.worlds w).trans (h.worlds w), fun w n e => h'.packages w n (h.packages w n e)⟩

/-- A world that is there changes; its packages stay or go. -/
theorem State.sameWorlds_setWorld {w v'} (hw : (s.world? w).isSome = true)
    (hp : ∀ n, s.package? w n = none → Map.get? v'.packages n = none) : s.SameWorlds (s.setWorld w v') where
  worlds x := by
    by_cases hx : x = w
    · subst hx; rw [State.world?_setWorld_self, hw]; rfl
    · rw [State.world?_setWorld_of_ne s _ hx]
  packages x n e := by
    by_cases hx : x = w
    · subst hx; unfold State.package?; rw [State.world?_setWorld_self]; exact hp n e
    · unfold State.package? at e ⊢; rw [State.world?_setWorld_of_ne s _ hx]; exact e

theorem State.sameWorlds_onWorld {f : World → World} (s : State) (w : Nat)
    (hf : ∀ v n, Map.get? v.packages n = none → Map.get? (f v).packages n = none) : s.SameWorlds (s.onWorld w f) := by
  unfold State.onWorld
  split
  · exact .refl s
  · next v hv =>
    refine State.sameWorlds_setWorld (by rw [hv]; rfl) fun n e => hf v n ?_
    unfold State.package? at e
    rwa [hv] at e

/-! ### What the loss of work leaves -/

/-- The loss of work touches counters, meters and traces, cells, faults, the worlds' bookkeeping and the memory of contexts
alone; it keeps the owners of partitions. -/
structure State.Sheds (u s : State) : Prop where
  frame : s = { u with
    hyper := s.hyper, faults := s.faults, parts := s.parts, worlds := s.worlds, mem := s.mem, hostMem := s.hostMem
    owners := s.owners, opdBacked := s.opdBacked, full := s.full, stamps := s.stamps, lines := s.lines, flows := s.flows
    cells := s.cells, out := s.out }
  owner : ∀ p, (s.part p).vf = (u.part p).vf
  same  : u.SameWorlds s
  out   : u.out <+: s.out

theorem State.Sheds.refl (s : State) : s.Sheds s := ⟨rfl, fun _ => rfl, .refl s, List.prefix_refl _⟩

theorem State.Sheds.trans (h : u.Sheds s) (h' : s.Sheds t) : u.Sheds t where
  frame := h'.frame.trans (by rw [h.frame])
  owner p := (h'.owner p).trans (h.owner p)
  same := h.same.trans h'.same
  out := h.out.trans h'.out

theorem State.Sheds.ite {c : Prop} {_ : Decidable c} (hs : u.Sheds s) (ht : u.Sheds t) : u.Sheds (if c then s else t) := by
  split
  · exact hs
  · exact ht

theorem State.Sheds.foldl {α : Type} {f : State → α → State} {l : List α} (h : u.Sheds s)
    (hf : ∀ s a, u.Sheds s → u.Sheds (f s a)) : u.Sheds (l.foldl f s) := by
  induction l generalizing s with
  | nil => exact h
  | cons a l ih => exact ih (hf s a h)

theorem State.Sheds.update {hyper faults mem hostMem owners opdBacked full stamps lines flows cells} (h : u.Sheds s) :
    u.Sheds { s with hyper, faults, mem, hostMem, owners, opdBacked, full, stamps, lines, flows, cells } :=
  h.trans ⟨rfl, fun _ => rfl, ⟨fun _ => rfl, fun _ _ => id⟩, List.prefix_refl _⟩

theorem State.part_onPart_of_keeps {β : Type} (g : Part → β) {f : Part → Part} (s : State) (p : Nat)
    (hf : ∀ v, g (f v) = g v) (r : Nat) : g ((s.onPart p f).part r) = g (s.part r) := by
  by_cases hr : r = p
  · subst hr; rw [State.onPart_eq, State.part_setPart_self, hf]
  · rw [State.onPart_eq, State.part_setPart_of_ne s _ hr]

theorem State.Sheds.onPart {p} {f : Part → Part} (h : u.Sheds s) (hf : ∀ v, (f v).vf = v.vf := by exact fun _ => rfl) :
    u.Sheds (s.onPart p f) :=
  h.trans ⟨rfl, s.part_onPart_of_keeps Part.vf p hf, ⟨fun _ => rfl, fun _ _ => id⟩, List.prefix_refl _⟩

theorem State.Sheds.emit {o} (h : u.Sheds s) : u.Sheds (s.emit o) :=
  h.trans ⟨rfl, fun _ => rfl, ⟨fun _ => rfl, fun _ _ => id⟩, List.prefix_append _ _⟩

theorem State.Sheds.signal {fn vec} (h : u.Sheds s) : u.Sheds (s.signal fn vec) := h.emit

theorem State.Sheds.setWorld {w v'} (h : u.Sheds s) (hw : (s.world? w).isSome = true)
    (hp : ∀ n, s.package? w n = none → Map.get? v'.packages n = none) : u.Sheds (s.setWorld w v') :=
  h.trans ⟨rfl, fun _ => rfl, State.sameWorlds_setWorld hw hp, List.prefix_refl _⟩

theorem State.Sheds.onWorld {w} {f : World → World} (h : u.Sheds s)
    (hf : ∀ v n, Map.get? v.packages n = none → Map.get? (f v).packages n = none) : u.Sheds (s.onWorld w f) := by
  refine h.trans ⟨?_, fun p => ?_, s.sameWorlds_onWorld w hf, ?_⟩ <;> unfold State.onWorld
  · split <;> rfl
  · split <;> rfl
  · split <;> exact List.prefix_refl _

theorem State.Sheds.onCell {n f} (h : u.Sheds s) : u.Sheds (s.onCell n f) := h.update

theorem State.Sheds.devWrite {fn a l} (h : u.Sheds s) : u.Sheds (s.devWrite fn a l) := by
  rw [State.devWrite_frame]; exact h.update

theorem State.Sheds.countEvent {p i n} (h : u.Sheds s) : u.Sheds (s.countEvent p i n) := .ite h.onPart.signal h.onPart

theorem State.Sheds.hyperAdd {i n} (h : u.Sheds s) : u.Sheds (s.hyperAdd i n) := .ite h.update.signal h.update

theorem State.Sheds.traceOf {p ctx kind cell flags l} (h : u.Sheds s) : u.Sheds (s.traceOf p ctx kind cell flags l) := by
  unfold State.traceOf
  dsimp only
  split
  · exact h.countEvent
  · exact .ite h.countEvent h.devWrite.onPart

theorem State.Sheds.secondary {p ctx cell cause} (h : u.Sheds s) : u.Sheds (s.secondary p ctx cell cause) := h.traceOf

theorem State.Sheds.meter {p i n} (h : u.Sheds s) : u.Sheds (s.meter p i n) := h.onPart

theorem State.Sheds.meterLost {p i n} (h : u.Sheds s) : u.Sheds (s.meterLost p i n) := h.onPart

theorem State.Sheds.countCell {n i k} (h : u.Sheds s) : u.Sheds (s.countCell n i k) := h.onPart

/-! ### Discarded cells (R92, R248) -/

theorem State.Sheds.loseMacs {p c} (h : u.Sheds s) : u.Sheds (s.loseMacs p c) := by
  unfold State.loseMacs
  refine h.foldl fun _ _ h => ?_
  split
  · exact h.meterLost
  · exact h.meterLost
  · exact h

theorem State.Sheds.loseStreams {c} (h : u.Sheds s) : u.Sheds (s.loseStreams c) :=
  h.foldl fun _ _ h => h.foldl fun _ _ h => h.foldl fun _ _ h => h.meterLost

theorem State.Sheds.loseWork {p c} (h : u.Sheds s) : u.Sheds (s.loseWork p c) := h.meterLost.loseMacs.loseStreams

theorem State.Sheds.endHolds {w snap} (h : u.Sheds s) : u.Sheds (s.endHolds w snap) := by
  unfold State.endHolds
  split
  · exact h
  · exact h.onWorld fun _ _ => id

theorem State.Sheds.settleGens {w} (h : u.Sheds s) : u.Sheds (s.settleGens w) := h.onWorld fun _ _ => id

theorem State.Sheds.flushCell {n} (h : u.Sheds s) : u.Sheds (s.flushCell n) := h.onPart.foldl fun _ _ h => h.countEvent

theorem State.Sheds.dropCell {n c} (h : u.Sheds s) : u.Sheds ((s.setCell n c).dropHolders n true) := h.update

theorem State.Sheds.discardPart {p} (h : u.Sheds s) : u.Sheds (s.discardPart p) :=
  h.foldl fun _ _ h => .ite h (h.loseWork.countCell.flushCell.foldl fun _ _ h => h.endHolds).dropCell.settleGens

theorem State.Sheds.settlePart {p} (h : u.Sheds s) : u.Sheds (s.settlePart p) := .ite h.onPart h

theorem State.Sheds.scrubCells {p} (h : u.Sheds s) : u.Sheds (s.scrubCells p) := h.foldl fun _ _ h => h.onCell

/-! ### Lines and ranges of a context (R78, R138) -/

theorem State.Sheds.countLine {line fill} (h : u.Sheds s) : u.Sheds (s.countLine line fill) := .ite h.update h.update

theorem State.Sheds.stampWrite {w line} (h : u.Sheds s) : u.Sheds (s.stampWrite w line) := by
  unfold State.stampWrite
  split
  · exact h
  · next v hv =>
    refine h.update.setWorld (by change (s.world? w).isSome = true; rw [hv]; rfl) fun n e => ?_
    change (s.world? w).bind _ = none at e
    rw [hv] at e
    exact e

theorem State.Sheds.evictLine {line} (h : u.Sheds s) : u.Sheds (s.evictLine line) := by
  unfold State.evictLine
  split
  · exact h
  · have hc : u.Sheds (({ s with lines := Map.erase s.lines line } : State).countLine line false) := h.update.countLine
    have hw : u.Sheds (match ({ s with lines := Map.erase s.lines line } : State).countLine line false |>.protectedWorld line with
        | some w => (({ s with lines := Map.erase s.lines line } : State).countLine line false).stampWrite w line
        | none => ({ s with lines := Map.erase s.lines line } : State).countLine line false) := by
      split
      · exact hc.stampWrite
      · exact hc
    exact .ite hw.meter hw

theorem State.Sheds.freeRange {pa len} (h : u.Sheds s) : u.Sheds (s.freeRange pa len) := h.update

theorem State.Sheds.endContext {p ctx} (h : u.Sheds s) : u.Sheds (s.endContext p ctx) := by
  unfold State.endContext
  exact ((h.foldl fun _ _ h => h.evictLine).foldl fun _ _ h => h.freeRange).onPart

/-! ### A discarded launch (R92) -/

/-- What a launch loses in its partitions, cells and images when it is discarded. -/
def State.loseLaunch (s : State) (id : Nat) (l : Launch) : State :=
  let s := l.parts.foldl (fun s p =>
    if (s.part p).running = some id then
      (s.discardPart p).onPart p fun v => { v with running := none, lastLaunch := none, stop := none }
    else s) s
  let s := l.parts.foldl (fun s p => s.meterLost p 8 l.cycles) s
  l.images.foldl (fun s e =>
    e.2.streams.foldl (fun s x => s.endHolds l.world x.2.cmd.snap) (s.loseWork (partOfCell e.1) e.2)) s

theorem State.Sheds.loseLaunch {id l} (h : u.Sheds s) : u.Sheds (s.loseLaunch id l) :=
  ((h.foldl fun _ _ h => .ite h.discardPart.onPart h).foldl fun _ _ h => h.meterLost).foldl
    fun _ _ h => h.loseWork.foldl fun _ _ h => h.endHolds

theorem State.Sheds.launches (h : u.Sheds s) : s.launches = u.launches := by rw [h.frame]

/-- A discarded launch loses its work, and its record goes. -/
theorem State.discardLaunch_of_get? {id l} (h : Map.get? s.launches id = some l) : s.discardLaunch id =
    (l.parts.foldl State.settlePart { s.loseLaunch id l with launches := Map.erase s.launches id }).settleGens l.world := by
  rw [← (State.Sheds.refl s).loseLaunch (id := id) (l := l) |>.launches]
  unfold State.discardLaunch
  rw [h]
  rfl

/-- What a discard leaves: the work of the launch is lost, and its record goes. -/
theorem State.discardLaunch_cases (s : State) (id : Nat) : s.discardLaunch id = s ∧ Map.get? s.launches id = none
    ∨ ∃ t, s.Sheds t ∧ ({ t with launches := Map.erase s.launches id } : State).Sheds (s.discardLaunch id) := by
  cases h : Map.get? s.launches id with
  | none => exact .inl ⟨by unfold State.discardLaunch; rw [h], rfl⟩
  | some l =>
    refine .inr ⟨s.loseLaunch id l, (State.Sheds.refl s).loseLaunch, ?_⟩
    rw [State.discardLaunch_of_get? h]
    exact ((State.Sheds.refl _).foldl fun _ _ h => h.settlePart).settleGens

theorem State.launches_discardLaunch (s : State) (id : Nat) : (s.discardLaunch id).launches = Map.erase s.launches id := by
  obtain ⟨e, hn⟩ | ⟨t, -, h⟩ := s.discardLaunch_cases id
  · rw [e, Map.erase_of_get?_none hn]
  · exact h.launches

theorem State.pod_discardLaunch (s : State) (id : Nat) : (s.discardLaunch id).pod = s.pod := by
  obtain ⟨e, -⟩ | ⟨t, ht, h⟩ := s.discardLaunch_cases id
  · rw [e]
  · rw [h.frame]; change t.pod = _; rw [ht.frame]

/-! ### What ends leave that are told to nodes and to other modules (R37, R86) -/

/-- The session of a port stands: only what its flits count and its replay buffer may differ. -/
def Link3.SameSession (l l' : Link3) : Prop := ∃ a b c, l' = { l with txSeq := a, flits := b, replay := c }

theorem Link3.SameSession.refl (l : Link3) : l.SameSession l := ⟨_, _, _, rfl⟩

theorem Link3.SameSession.trans {l l' l'' : Link3} (h : l.SameSession l') (h' : l'.SameSession l'') : l.SameSession l'' := by
  obtain ⟨a, b, c, rfl⟩ := h
  obtain ⟨a', b', c', rfl⟩ := h'
  exact ⟨a', b', c', rfl⟩

/-- An end that is told touches also nodes, launch records, links and the pod launch, and may sign revocations; it keeps the
sessions of the links, and what has been sent or waits to be. -/
structure State.Stands (u s : State) : Prop where
  frame : s = { u with
    funcs := s.funcs, lastVf := s.lastVf, hyper := s.hyper, faults := s.faults, parts := s.parts, launches := s.launches
    nextLaunch := s.nextLaunch, worlds := s.worlds, mem := s.mem, hostMem := s.hostMem, owners := s.owners
    opdBacked := s.opdBacked, full := s.full, stamps := s.stamps, lines := s.lines, flows := s.flows, cells := s.cells
    out := s.out, free := s.free, lodge := { u.lodge with revocations := s.lodge.revocations }
    pod := { u.pod with ports := s.pod.ports, launch := s.pod.launch, waiting := s.pod.waiting } }
  owner   : ∀ p, (s.part p).vf = (u.part p).vf
  same    : u.SameWorlds s
  out     : u.out <+: s.out
  waiting : u.pod.waiting <+: s.pod.waiting
  links   : ∀ p, (u.link p).SameSession (s.link p)

theorem State.Stands.refl (s : State) : s.Stands s :=
  ⟨rfl, fun _ => rfl, .refl s, List.prefix_refl _, List.prefix_refl _, fun _ => .refl _⟩

theorem State.Stands.trans (h : u.Stands s) (h' : s.Stands t) : u.Stands t where
  frame := h'.frame.trans (by rw [h.frame])
  owner p := (h'.owner p).trans (h.owner p)
  same := h.same.trans h'.same
  out := h.out.trans h'.out
  waiting := h.waiting.trans h'.waiting
  links p := (h.links p).trans (h'.links p)

theorem State.Stands.ite {c : Prop} {_ : Decidable c} (hs : u.Stands s) (ht : u.Stands t) : u.Stands (if c then s else t) := by
  split
  · exact hs
  · exact ht

theorem State.Stands.foldl {α : Type} {f : State → α → State} {l : List α} (h : u.Stands s)
    (hf : ∀ s a, u.Stands s → u.Stands (f s a)) : u.Stands (l.foldl f s) := by
  induction l generalizing s with
  | nil => exact h
  | cons a l ih => exact ih (hf s a h)

theorem State.Sheds.stands (h : u.Sheds s) : u.Stands s := by
  have hpod : s.pod = u.pod := by rw [h.frame]
  refine ⟨h.frame.trans (by rw [h.frame]), h.owner, h.same, h.out, ?_, fun p => ?_⟩
  · rw [hpod]
  · unfold State.link; rw [hpod]; exact .refl _

theorem State.Stands.update {funcs lastVf hyper faults launches nextLaunch mem hostMem owners opdBacked full stamps lines flows
    cells free} (h : u.Stands s) :
    u.Stands { s with
      funcs, lastVf, hyper, faults, launches, nextLaunch, mem, hostMem, owners, opdBacked, full, stamps, lines, flows, cells
      free } :=
  h.trans ⟨rfl, fun _ => rfl, ⟨fun _ => rfl, fun _ _ => id⟩, List.prefix_refl _, List.prefix_refl _, fun _ => .refl _⟩

theorem State.Stands.discardLaunch {id} (h : u.Stands s) : u.Stands (s.discardLaunch id) := by
  obtain ⟨e, -⟩ | ⟨t, ht, hd⟩ := s.discardLaunch_cases id
  · rw [e]; exact h
  · exact (h.trans ht.stands).update.trans hd.stands

theorem State.Stands.onPart {p} {f : Part → Part} (h : u.Stands s) (hf : ∀ v, (f v).vf = v.vf := by exact fun _ => rfl) :
    u.Stands (s.onPart p f) :=
  h.trans ((State.Sheds.refl s).onPart (hf := hf)).stands

theorem State.Stands.emit {o} (h : u.Stands s) : u.Stands (s.emit o) := h.trans (State.Sheds.refl s).emit.stands

theorem State.Stands.signal {fn vec} (h : u.Stands s) : u.Stands (s.signal fn vec) := h.emit

theorem State.Stands.setWorld {w v'} (h : u.Stands s) (hw : (s.world? w).isSome = true)
    (hp : ∀ n, s.package? w n = none → Map.get? v'.packages n = none) : u.Stands (s.setWorld w v') :=
  h.trans ((State.Sheds.refl s).setWorld hw hp).stands

theorem State.Stands.onWorld {w} {f : World → World} (h : u.Stands s)
    (hf : ∀ v n, Map.get? v.packages n = none → Map.get? (f v).packages n = none) : u.Stands (s.onWorld w f) :=
  h.trans ((State.Sheds.refl s).onWorld hf).stands

theorem State.Stands.onCell {n f} (h : u.Stands s) : u.Stands (s.onCell n f) := h.update

theorem State.Stands.onQueue {fn q f} (h : u.Stands s) : u.Stands (s.onQueue fn q f) := h.update

theorem State.Stands.finishNode {fn q n r} (h : u.Stands s) : u.Stands (s.finishNode fn q n r) := h.onQueue

theorem State.Stands.devWrite {fn a l} (h : u.Stands s) : u.Stands (s.devWrite fn a l) :=
  h.trans (State.Sheds.refl s).devWrite.stands

theorem State.Stands.hyperAdd {i n} (h : u.Stands s) : u.Stands (s.hyperAdd i n) := h.trans (State.Sheds.refl s).hyperAdd.stands

theorem State.Stands.secondary {p ctx cell cause} (h : u.Stands s) : u.Stands (s.secondary p ctx cell cause) :=
  h.trans (State.Sheds.refl s).secondary.stands

theorem State.Stands.scrubCells {p} (h : u.Stands s) : u.Stands (s.scrubCells p) :=
  h.trans (State.Sheds.refl s).scrubCells.stands

theorem State.Stands.endContext {p ctx} (h : u.Stands s) : u.Stands (s.endContext p ctx) :=
  h.trans (State.Sheds.refl s).endContext.stands

theorem State.Stands.onPodLaunch {f : Pod → Option PodLaunch} (h : u.Stands s) :
    u.Stands (s.onPod fun p => { p with launch := f p }) :=
  h.trans ⟨rfl, fun _ => rfl, ⟨fun _ => rfl, fun _ _ => id⟩, List.prefix_refl _, List.prefix_refl _, fun _ => .refl _⟩

/-- A world that is there takes another record with its packages as they are. -/
theorem State.Stands.setEnding {w v v'} (h : u.Stands s) (hs : s.Stands t) (hv : s.world? w = some v)
    (hp : v'.packages = ((t.world? w).getD v).packages) : u.Stands (t.setWorld w v') := by
  obtain ⟨x, hx⟩ := Option.isSome_iff_exists.1 ((hs.same.worlds w).trans (by rw [hv]; rfl))
  rw [hx] at hp
  refine (h.trans hs).setWorld (by rw [hx]; rfl) fun n e => ?_
  unfold State.package? at e
  rw [hx] at e
  rw [hp]
  exact e

/-! ### Flits (R32 to R35) -/

@[simp] theorem State.link_onLink_self (s : State) (port : Nat) (f : Link3 → Link3) : (s.onLink port f).link port = f (s.link port) := by
  unfold State.link State.onLink; simp

theorem State.link_onLink_of_ne (s : State) {port k : Nat} (f : Link3 → Link3) (hk : k ≠ port) :
    (s.onLink port f).link k = s.link k := by
  unfold State.link State.onLink
  exact Map.get_put_of_ne _ _ _ hk

theorem State.links_onLink (s : State) (port : Nat) {f : Link3 → Link3} (hf : ∀ l : Link3, l.SameSession (f l)) (k : Nat) :
    (s.link k).SameSession ((s.onLink port f).link k) := by
  by_cases hk : k = port
  · subst hk; rw [State.link_onLink_self]; exact hf _
  · rw [State.link_onLink_of_ne s f hk]; exact .refl _

theorem State.Stands.transmit {port f} (h : u.Stands s) : u.Stands (s.transmit port f) :=
  h.trans ⟨rfl, fun _ => rfl, ⟨fun _ => rfl, fun _ _ => id⟩, List.prefix_append _ _, List.prefix_refl _,
    s.links_onLink port fun _ => ⟨_, _, _, rfl⟩⟩

theorem State.Stands.sendFlit {f} (h : u.Stands s) : u.Stands (s.sendFlit f) := by
  unfold State.sendFlit
  split
  · exact h.transmit
  · exact h.trans ⟨rfl, fun _ => rfl, ⟨fun _ => rfl, fun _ _ => id⟩, List.prefix_refl _, List.prefix_append _ _,
      fun _ => .refl _⟩

/-- Flits go out or wait: only the ports, what waits and the outputs differ (R33, R35). -/
def State.Sends (u s : State) : Prop :=
  s = { u with out := s.out, pod := { u.pod with ports := s.pod.ports, waiting := s.pod.waiting } }

theorem State.Sends.refl (s : State) : s.Sends s := rfl

theorem State.Sends.sendFlit {f} (h : u.Sends s) : u.Sends (s.sendFlit f) := by
  unfold State.sendFlit
  split <;> exact h ▸ rfl

theorem State.Sends.foldl {α : Type} {f : State → α → State} {l : List α} (h : u.Sends s)
    (hf : ∀ s a, u.Sends s → u.Sends (f s a)) : u.Sends (l.foldl f s) := by
  induction l generalizing s with
  | nil => exact h
  | cons a l ih => exact ih (hf s a h)

theorem State.Sends.sendPod {mask m} (h : u.Sends s) : u.Sends (s.sendPod mask m) := h.foldl fun _ _ h => h.sendFlit

theorem State.Sends.launches (h : u.Sends s) : s.launches = u.launches := by rw [h]

theorem State.Sends.podLaunch (h : u.Sends s) : s.pod.launch = u.pod.launch := by rw [h]

/-! ### Ends of launches (R37, R92, R106) -/

theorem State.Stands.podPart {m st cause detail} (h : u.Stands s) : u.Stands (s.podPart m st cause detail) := by
  unfold State.podPart State.podSettle
  split
  · exact h.onPodLaunch
  · exact .ite h.onPodLaunch.onPodLaunch.finishNode h.onPodLaunch

theorem State.Stands.launchEnded {e st cause detail} (h : u.Stands s) : u.Stands (s.launchEnded e st cause detail) := by
  unfold State.launchEnded
  split
  · exact h.finishNode
  · exact .ite h.podPart h.sendFlit

theorem State.Stands.endLaunch {id st cause} (h : u.Stands s) : u.Stands (s.endLaunch id st cause) := by
  unfold State.endLaunch
  split
  · exact h
  · exact h.discardLaunch.launchEnded

theorem State.Stands.endResets {hit st cause} (h : u.Stands s) : u.Stands (s.endResets hit st cause) := by
  refine State.Stands.foldl (h.trans ⟨rfl, fun p => ?_, ⟨fun _ => rfl, fun _ _ => id⟩, List.prefix_refl _, List.prefix_refl _,
    fun _ => .refl _⟩) fun _ _ h => h.launchEnded
  unfold State.part Map.get
  rw [Map.get?_map fun e => by split <;> rfl]
  cases Map.get? s.parts p with
  | none => rfl
  | some v => dsimp only [Option.map_some, Option.getD_some]; split <;> rfl

/-! ### Ends of worlds and contexts (R44, R271, R275) -/

theorem State.Stands.revoke {w e} (h : u.Stands s) : u.Stands (s.revoke w e) := by
  unfold State.revoke
  split
  · exact h
  · exact (h.foldl fun _ _ h => .ite h.devWrite.devWrite h).trans
      ⟨rfl, fun _ => rfl, ⟨fun _ => rfl, fun _ _ => id⟩, List.prefix_refl _, List.prefix_refl _, fun _ => .refl _⟩

theorem State.Stands.endedRest {w cause parts} (h : u.Stands s) : u.Stands (s.endedRest w cause parts) :=
  (h.foldl fun _ _ h => h.endLaunch).endResets.update

theorem State.Stands.endWorld {w cause cell epoch} (h : u.Stands s) : u.Stands (s.endWorld w cause cell epoch) := by
  unfold State.endWorld
  split
  · exact h
  · next v hv =>
    refine .ite h (State.Stands.endedRest (State.Stands.setEnding h ?_ hv rfl))
    refine State.Stands.foldl (State.Stands.update (State.Stands.foldl ?_ fun _ _ h => h.foldl fun _ _ h => h.finishNode))
      fun _ _ h => ?_
    · have hr : s.Stands (if cause = Cause.integ.code then s.revoke w epoch else s) :=
        .ite (State.Stands.refl s).revoke (.refl s)
      split
      · exact hr.finishNode
      · exact hr
    · split
      · exact h.finishNode
      · exact h

theorem State.Stands.packageBroken {w handle cell} (h : u.Stands s) : u.Stands (s.packageBroken w handle cell) :=
  State.Stands.endWorld <| h.onWorld fun v n e => by
    by_cases hn : n = handle
    · subst hn; exact Map.get?_erase_self _ _
    · exact (Map.get?_erase_of_ne _ hn).trans e

theorem State.Stands.machineCheck {p ctx} (h : u.Stands s) : u.Stands (s.machineCheck p ctx) := by
  exact .ite h (.ite h.secondary (((h.hyperAdd.signal.foldl fun _ _ h => .ite h.secondary h).foldl fun _ _ h =>
    .ite (h.endLaunch.foldl fun _ _ h => h.scrubCells) h.endLaunch).endContext))

/-! ### Launches that take their partitions (R79, R120) -/

theorem State.Stands.serve {fn q} (h : u.Stands s) : u.Stands (s.serve fn q) :=
  State.Stands.update (.ite h.update.onQueue h.update.onQueue)

theorem State.Stands.takePart {id l p} (h : u.Stands s) : u.Stands (s.takePart id l p) := by
  unfold State.takePart
  refine State.Stands.onPart ?_
  refine .ite (State.Stands.foldl ?_ fun _ _ h => h.onCell) h
  split
  · exact h.update
  · exact h

theorem State.Stands.restoreCell {l n} (h : u.Stands s) : u.Stands (s.restoreCell l n) := by
  unfold State.restoreCell
  split
  · exact h
  · exact h.onCell

theorem State.Stands.resumeLaunch {id l} (h : u.Stands s) : u.Stands (s.resumeLaunch id l) :=
  .ite h.packageBroken (State.Stands.update (h.foldl fun _ _ h => h.foldl fun _ _ h => h.restoreCell))

theorem State.Stands.dispatchLaunch {id} (h : u.Stands s) : u.Stands (s.dispatchLaunch id) := by
  unfold State.dispatchLaunch
  split
  · exact h
  · next l _ =>
    have ht : u.Stands ((l.parts.foldl (fun s p => s.takePart id l p)
        (if l.pod.isSome then s else s.markNode l.fn l.q l.node)).serve l.vf l.q) :=
      (State.Stands.foldl (.ite h h.onQueue) fun _ _ h => h.takePart).serve
    refine .ite h (.ite h.update ?_)
    dsimp only
    split
    · exact ht
    · split
      · exact ht.resumeLaunch
      · exact ht.update

theorem State.Stands.beginPart {e x args budget level} (h : u.Stands s) : u.Stands (s.beginPart e x args budget level) := by
  unfold State.beginPart
  split
  · exact h.launchEnded
  · exact (State.Stands.update h).dispatchLaunch

theorem State.Stands.beginReserved {r} (h : u.Stands s) : u.Stands (s.beginReserved r) := h.beginPart

theorem State.Stands.beginOwn {p} (h : u.Stands s) : u.Stands (s.beginOwn p) := by
  unfold State.beginOwn
  split
  · exact h
  · exact (h.onPodLaunch (f := fun _ => _)).beginPart
end

end Sys2Proof.Machine
end

