-- ==== Sys2Proof/Proofs/Interfaces.lean ====
section
/-! IDE streams, the messages of TDISP, and function-level reset (R24, R25, R93). -/

namespace Sys2Proof.Machine

section
variable {s t u : State} {fn : Nat}

/-! ### IDE streams (R24) -/

/-- The state of an interface after a change of its function's IDE stream: physical function 0 has no interface (R25). -/
def Tdi.ideChanged (fn : Nat) (x : Tdi) : Tdi := if fn ≠ 0 ∧ (x = .configLocked ∨ x = .run) then .error else x

theorem State.onIde_effect (s : State) (fn : Nat) (g : Ide → Ide) :
    (s.onIde fn g).func fn = { s.func fn with ide := g (s.func fn).ide, tdi := (s.func fn).tdi.ideChanged fn }
    ∧ (∀ k, k ≠ fn → (s.onIde fn g).func k = s.func k) ∧ SameMemory s (s.onIde fn g) := by
  unfold State.onIde Tdi.ideChanged
  dsimp only
  by_cases hfn : fn = 0
  · rw [if_pos hfn, if_neg fun h => h.1 hfn]
    exact ⟨s.func_setFunc_self fn _, fun k hk => s.func_setFunc_of_ne _ hk, fun _ => rfl, fun _ => rfl⟩
  · obtain ⟨e, ho, hm⟩ := s.changeFunc_effect fn (fun x => { x with ide := g x.ide }) fun _ => rfl
    rw [if_neg hfn]
    exact ⟨by rw [e, Tdi.changed]; simp only [ne_eq, hfn, not_false_eq_true, true_and], ho, hm⟩

/-- A hypervisor counter counts, and the rest of the module but its outputs stays. -/
theorem State.hyperAdd_effect (s : State) (i n : Nat) : Map.get 0 (s.hyperAdd i n).hyper i = Map.get 0 s.hyper i + BitVec.ofNat 64 n
    ∧ s.hyperAdd i n = { s with hyper := (s.hyperAdd i n).hyper, out := (s.hyperAdd i n).out } := by
  unfold State.hyperAdd
  dsimp only
  split
  · exact ⟨Map.get_set_self _ _ _ _, rfl⟩
  · exact ⟨Map.get_set_self _ _ _ _, rfl⟩

theorem ideCheckFailure_effect (h : s.funcOk fn = true) : Completes (.ideCheckFailure fn) s fun t =>
    t.func fn = { s.func fn with ide := { (s.func fn).ide with insecure := true }, tdi := (s.func fn).tdi.ideChanged fn }
    ∧ (∀ k, k ≠ fn → t.func k = s.func k) ∧ Map.get 0 t.hyper 7 = Map.get 0 s.hyper 7 + 1 ∧ SameMemory s t := by
  obtain ⟨e, ho, hm⟩ := s.onIde_effect fn fun i => { i with insecure := true }
  have hh : (s.onIde fn fun i => { i with insecure := true }).hyper = s.hyper := by
    unfold State.onIde
    dsimp only
    split
    · rfl
    · rw [State.tdiChange_frame]; rfl
  obtain ⟨hc, hf⟩ := (s.onIde fn fun i => { i with insecure := true }).hyperAdd_effect 7 1
  unfold Completes
  rw [exec_ideCheckFailure]
  unfold execIdeCheckFailure
  rw [if_pos h]
  refine ⟨_, rfl, ?_, fun k hk => ?_, hc.trans (by rw [hh]; rfl), ?_⟩
  · rw [hf]; exact e
  · rw [hf]; exact ho k hk
  · rw [hf]; exact hm

theorem ideKmKeyProg_effect {key : Nat} (h : s.funcOk fn = true) : Completes (.ideKmKeyProg fn key) s fun t =>
    t.func fn = { s.func fn with ide := { (s.func fn).ide with staged := some key }, tdi := (s.func fn).tdi.ideChanged fn }
    ∧ (∀ k, k ≠ fn → t.func k = s.func k) ∧ SameMemory s t := by
  unfold Completes
  rw [exec_ideKmKeyProg]
  exact ⟨_, if_pos h, s.onIde_effect fn _⟩

theorem ideKmKSetGo_effect {k : Nat} (h : s.funcOk fn = true) (hk : (s.func fn).ide.staged = some k) :
    Completes (.ideKmKSetGo fn) s fun t =>
      t.func fn = { s.func fn with
        ide := { key := k, staged := none, insecure := false }, tdi := (s.func fn).tdi.ideChanged fn }
      ∧ (∀ k, k ≠ fn → t.func k = s.func k) ∧ SameMemory s t := by
  unfold Completes
  rw [exec_ideKmKSetGo]
  unfold execIdeKmKSetGo
  rw [hk]
  exact ⟨_, if_pos h, s.onIde_effect fn _⟩

/-! ### TDISP (R25) -/

/-- A message moves the interface where it applies in its state. -/
theorem State.tdisp_effect (s : State) (fn msg : Nat) (old new : Tdi) :
    (s.tdisp fn msg old new).func fn = { s.func fn with tdi := if (s.func fn).tdi = old then new else (s.func fn).tdi }
    ∧ SameMemory s (s.tdisp fn msg old new) := by
  unfold State.tdisp
  split
  · exact ⟨s.func_setFunc_self fn _, fun _ => rfl, fun _ => rfl⟩
  · exact ⟨rfl, fun _ => rfl, fun _ => rfl⟩

theorem lockInterface_effect (h : s.vfOk fn = true) : Completes (.lockInterface fn) s fun t =>
    t.func fn = { s.func fn with tdi := if (s.func fn).tdi = .configUnlocked then .configLocked else (s.func fn).tdi }
    ∧ SameMemory s t := by
  unfold Completes
  rw [exec_lockInterface]
  exact ⟨_, if_pos h, s.tdisp_effect fn _ _ _⟩

theorem startInterface_effect (h : s.vfOk fn = true) : Completes (.startInterface fn) s fun t =>
    t.func fn = { s.func fn with tdi := if (s.func fn).tdi = .configLocked then .run else (s.func fn).tdi }
    ∧ SameMemory s t := by
  unfold Completes
  rw [exec_startInterface]
  exact ⟨_, if_pos h, s.tdisp_effect fn _ _ _⟩

theorem getDeviceInterfaceReport_effect (h : s.vfOk fn = true) :
    Completes (.getDeviceInterfaceReport fn) s fun t => ∃ l, t = s.emit (.tdisp fn l) := by
  unfold Completes
  rw [exec_getDeviceInterfaceReport]
  exact ⟨_, if_pos h, _, rfl⟩

/-! ### The launches, worlds and partitions of a function (R25, R44, R81, R93) -/

/-- No launch of a function is left. -/
def State.NoLaunch (t : State) (fn : Nat) : Prop := ∀ id l, Map.get? t.launches id = some l → l.vf ≠ fn

theorem State.launches_launchEnded (s : State) (e : Ending) (st : Status) (cause detail : Nat) :
    (s.launchEnded e st cause detail).launches = s.launches := by
  unfold State.launchEnded
  split
  · rfl
  · split
    · unfold State.podPart State.podSettle
      split
      · rfl
      · split <;> rfl
    · exact ((State.Sends.refl s).sendFlit).launches

theorem State.launches_endLaunch (s : State) (id : Nat) (st : Status) (cause : Nat) :
    (s.endLaunch id st cause).launches = Map.erase s.launches id := by
  unfold State.endLaunch
  split
  · next h => exact (Map.erase_of_get?_none h).symm
  · rw [State.launches_launchEnded, State.launches_discardLaunch]

/-- Once each launch of a list has ended, those that are left stood before and are not of the list. -/
theorem State.mem_launches_endLaunches {e : Nat × Launch} (l : List (Nat × Launch)) (st : Status) (cause : Nat) (s : State)
    (h : e ∈ (l.foldl (fun s l => s.endLaunch l.1 st cause) s).launches) : e ∈ s.launches ∧ ∀ x ∈ l, e.1 ≠ x.1 := by
  induction l generalizing s with
  | nil => exact ⟨h, fun x hx => by cases hx⟩
  | cons x l ih =>
    obtain ⟨hm, hl⟩ := ih _ h
    rw [State.launches_endLaunch] at hm
    obtain ⟨hm, hx⟩ := List.mem_filter.1 hm
    exact ⟨hm, fun y hy => (List.mem_cons.1 hy).elim (fun e => by rw [e]; simpa using hx) (hl y)⟩

/-- The end of every launch of a function leaves none. -/
theorem State.endVfLaunches_noLaunch (s : State) (fn : Nat) (st : Status) (cause : Nat) :
    ((s.launches.filter fun l => l.2.vf == fn).foldl (fun s l => s.endLaunch l.1 st cause) s).NoLaunch fn := by
  intro id l hl hvf
  obtain ⟨hm, hn⟩ := State.mem_launches_endLaunches _ st cause s (Map.mem_of_get? hl)
  exact hn (id, l) (List.mem_filter.2 ⟨hm, by simpa using hvf⟩) rfl

theorem State.Stands.endLaunches {l : List (Nat × Launch)} {st cause} (h : u.Stands s) :
    u.Stands (l.foldl (fun s l => s.endLaunch l.1 st cause) s) := h.foldl fun _ _ h => h.endLaunch

/-- Each world of a list that is there is Ending once all of the list have ended. -/
theorem State.endEach_ending {w : Nat} {v x : World} (l : List (Nat × World)) (cause : Nat) (s : State)
    (hv : s.world? w = some v) (hw : (w, x) ∈ l) :
    ∃ v', (l.foldl (fun s w => s.endWorld w.1 cause 0xFFFF 0) s).world? w = some v' ∧ v'.st = .ending := by
  obtain ⟨a, b, rfl⟩ := List.append_of_mem hw
  obtain ⟨y, hy, -⟩ := (State.Keeps.refl s).endEach (l := a) (cause := cause) |>.worlds w v hv
  obtain ⟨z, hz, he⟩ := State.endWorld_ending _ cause 0xFFFF 0 hy
  obtain ⟨v', hv', k⟩ := (State.Keeps.refl _).endEach (l := b) (cause := cause) |>.worlds w z hz
  exact ⟨v', by rwa [List.foldl_append, List.foldl_cons], k.2 he⟩

/-- The partition is scrubbed, or it is being destroyed. -/
def State.Scrubs (t : State) (p : Nat) : Prop := (t.part p).st = .scrubbing ∨ (t.part p).st = .destroying

theorem State.scrubPart_scrubs (s : State) (p : Nat) (full : Bool) : (s.scrubPart p full).Scrubs p := by
  unfold State.Scrubs State.scrubPart
  rw [State.onPart_eq, State.part_setPart_self]
  split
  · next h => exact .inr h
  · exact .inl rfl

theorem State.Scrubs.scrubPart {p q : Nat} {full : Bool} (h : s.Scrubs p) : (s.scrubPart q full).Scrubs p := by
  by_cases hq : p = q
  · subst hq; exact s.scrubPart_scrubs p full
  · unfold State.Scrubs State.scrubPart
    rw [State.onPart_eq, State.part_setPart_of_ne s _ hq]
    exact h

theorem State.scrubParts_scrubs {p : Nat} {full : Bool} (l : List Nat) (s : State) (h : p ∈ l ∨ s.Scrubs p) :
    (l.foldl (fun s p => s.scrubPart p full) s).Scrubs p := by
  induction l generalizing s with
  | nil => exact h.resolve_left (by simp)
  | cons q l ih =>
    refine ih _ ?_
    rcases h with h | h
    · rcases List.mem_cons.1 h with rfl | h
      · exact .inr (s.scrubPart_scrubs _ _)
      · exact .inl h
    · exact .inr h.scrubPart

/-- Scrubs of partitions touch those alone. -/
theorem State.scrubParts_frame (full : Bool) (l : List Nat) (s : State) :
    l.foldl (fun s p => s.scrubPart p full) s = { s with parts := (l.foldl (fun s p => s.scrubPart p full) s).parts } := by
  induction l generalizing s with
  | nil => rfl
  | cons q l ih => exact (ih _).trans rfl

/-- The partitions of a virtual function whose owners stand. -/
theorem State.Stands.mem_partsOf {p : Nat} (h : u.Stands s) (hfn : fn ≠ 0) (hp : p < 16) (hvf : (u.part p).vf = fn) :
    p ∈ s.partsOf fn := by
  refine List.mem_filter.2 ⟨List.mem_range.2 hp, ?_⟩
  unfold State.owns
  rw [h.owner p, hvf]
  simp [hp, hfn]

theorem State.ne_zero_of_vfOk (h : s.vfOk fn = true) : fn ≠ 0 := by
  unfold State.vfOk at h
  simp only [Bool.and_eq_true, decide_eq_true_eq] at h
  omega

theorem stopInterface_effect (h : s.vfOk fn = true) : Completes (.stopInterface fn) s fun t =>
    (t.func fn).tdi = .configUnlocked ∧ t.NoLaunch fn ∧ (∀ p, p < 16 → (s.part p).vf = fn → t.Scrubs p)
    ∧ ∀ w v, s.world? w = some v → v.vf = fn → ∃ v', t.world? w = some v' ∧ v'.st = .ending := by
  unfold Completes
  rw [exec_stopInterface]
  refine ⟨_, if_pos h, ?_⟩
  unfold State.stopInterface
  have hw (w v) (hv : s.world? w = some v) (hvf : v.vf = fn) :=
    s.endEach_ending (s.worlds.filter fun w => w.2.vf == fn) 0 hv
      (List.mem_filter.2 ⟨Map.mem_of_get? hv, by simpa using hvf⟩ : (w, v) ∈ _)
  have hs : s.Stands ((s.worlds.filter fun w => w.2.vf == fn).foldl (fun s w => s.endWorld w.1 0 0xFFFF 0) s) :=
    (State.Stands.refl s).foldl fun _ _ h => h.endWorld
  generalize (s.worlds.filter fun w => w.2.vf == fn).foldl (fun s w => s.endWorld w.1 0 0xFFFF 0) s = a at hw hs
  have hn := a.endVfLaunches_noLaunch fn .ended 0
  have hk : a.Keeps ((a.launches.filter fun l => l.2.vf == fn).foldl (fun s l => s.endLaunch l.1 .ended 0) a) :=
    (State.Keeps.refl a).foldl fun _ _ h => h.endLaunch
  have hb := hs.endLaunches (l := a.launches.filter fun l => l.2.vf == fn) (st := .ended) (cause := 0)
  dsimp only
  generalize (a.launches.filter fun l => l.2.vf == fn).foldl (fun s l => s.endLaunch l.1 .ended 0) a = b at hn hk hb ⊢
  have hf := b.scrubParts_frame true (b.partsOf fn)
  refine ⟨congrArg Func.tdi (State.func_setFunc_self _ fn _), ?_, fun p hp hvf => ?_, fun w v hv hvf => ?_⟩
  · rw [hf]; exact hn
  · exact State.scrubParts_scrubs (b.partsOf fn) b (.inl (hb.mem_partsOf (State.ne_zero_of_vfOk h) hp hvf))
  · obtain ⟨y, hy, he⟩ := hw w v hv hvf
    obtain ⟨z, hz, k⟩ := hk.worlds w y hy
    refine ⟨z, ?_, k.2 he⟩
    rw [hf]
    exact hz

theorem State.Stands.sendPod {mask m} (h : u.Stands s) : u.Stands (s.sendPod mask m) := h.foldl fun _ _ h => h.sendFlit

theorem functionLevelReset_error (h : s.vfOk fn = true) (ht : (s.func fn).tdi = .configLocked ∨ (s.func fn).tdi = .run) :
    Completes (.functionLevelReset fn) s fun t =>
      t.func fn = { s.func fn with tdi := .error } ∧ t.worlds = s.worlds ∧ SameMemory s t := by
  unfold Completes
  rw [exec_functionLevelReset]
  unfold execFunctionLevelReset
  rw [h]
  refine ⟨s.tdiError fn, ?_, s.func_setFunc_self fn _, rfl, fun _ => rfl, fun _ => rfl⟩
  rcases ht with ht | ht <;> rw [ht] <;> rfl

/-- A reset of a function sends ABORT to the members of its pod launch and forgets it. -/
def State.abortPod (s : State) (fn : Nat) : State :=
  match s.pod.launch with
  | none => s
  | some l => if l.fn ≠ fn then s else (s.sendPod l.mask (.abort l.fn l.gen)).onPod fun p => { p with launch := none }

theorem State.Stands.abortPod (h : u.Stands s) : u.Stands (s.abortPod fn) := by
  unfold State.abortPod
  split
  · exact h
  · exact .ite h h.sendPod.onPodLaunch

theorem State.launches_abortPod (s : State) (fn : Nat) : (s.abortPod fn).launches = s.launches := by
  unfold State.abortPod
  split
  · rfl
  · split
    · rfl
    · exact ((State.Sends.refl s).sendPod).launches

theorem functionLevelReset_effect (h : s.vfOk fn = true) (hl : (s.func fn).tdi ≠ .configLocked) (hr : (s.func fn).tdi ≠ .run) :
    Completes (.functionLevelReset fn) s fun t => (t.func fn).queues = [] ∧ (t.func fn).events = []
      ∧ (t.func fn).mbBusy = false ∧ t.NoLaunch fn ∧ (∀ p, p < 16 → (s.part p).vf = fn → t.Scrubs p)
      ∧ ∀ w, (t.world? w).isSome = (s.world? w).isSome := by
  have e : exec (.functionLevelReset fn) s = .next (s.resetFunction fn) := by
    rw [exec_functionLevelReset]
    unfold execFunctionLevelReset
    rw [if_neg (by simp [h])]
    split
    · next hc => exact absurd hc hl
    · next hc => exact absurd hc hr
    · rfl
  refine ⟨_, e, ?_⟩
  unfold State.resetFunction
  extract_lets _ s₀ a b c d
  have hn : a.NoLaunch fn := s₀.endVfLaunches_noLaunch fn .destroyed 0
  have hb : s₀.Stands b := ((State.Stands.refl s₀).endLaunches).abortPod (fn := fn)
  have hd (p) (hp : p < 16) (hvf : (s.part p).vf = fn) : p ∈ d.partsOf fn :=
    hb.mem_partsOf (State.ne_zero_of_vfOk h) hp hvf
  have hf := d.scrubParts_frame false (d.partsOf fn)
  have hq : d.func fn = _ := b.func_setFunc_self fn _
  refine ⟨?_, ?_, ?_, ?_, fun p hp hvf => State.scrubParts_scrubs _ d (.inl (hd p hp hvf)), fun w => ?_⟩
  · rw [hf]; exact congrArg Func.queues hq
  · rw [hf]; exact congrArg Func.events hq
  · rw [hf]; exact congrArg Func.mbBusy hq
  · rw [hf]
    change b.NoLaunch fn
    unfold State.NoLaunch
    rw [show b = a.abortPod fn from rfl, a.launches_abortPod]
    exact hn
  · rw [hf]
    refine Eq.trans ?_ (hb.same.worlds w)
    change (Map.get? (b.worlds.map _) w).isSome = _
    rw [Map.get?_map fun e => by split <;> rfl, Option.isSome_map]
    rfl

/-- Settles O42: each IDE event and each message changes its function alone, the ends of launches and worlds keep the owners of
partitions (`State.Stands`), and each end erases its launch (`State.launches_endLaunch`). -/
theorem interfaceSecurityAndReset : Obligations.InterfaceSecurityAndReset := by
  unfold Obligations.InterfaceSecurityAndReset
  intro s fn key k
  refine ⟨fun h => ⟨ideCheckFailure_effect h, ideKmKeyProg_effect h, ideKmKSetGo_effect h⟩, fun h => ?_⟩
  exact ⟨lockInterface_effect h, startInterface_effect h, getDeviceInterfaceReport_effect h, stopInterface_effect h,
    functionLevelReset_effect h, functionLevelReset_error h⟩
end

end Sys2Proof.Machine
end

