-- ==== Sys2Proof/Proofs/Spdm.lean ====
section
/-! SPDM: the replies of a connection and what they record (R48 to R51), and the sessions of the pod ports (R34, R39). -/

namespace Sys2Proof.Machine

section
variable {s t u : State} {port : Nat}

/-! ### A connection and its replies (R48) -/

@[simp] theorem State.spdm_onSpdm_self (s : State) (port : Nat) (f : Spdm → Spdm) : (s.onSpdm port f).spdm port = f (s.spdm port) :=
  Map.get_put_self _ _ _ _

@[simp] theorem State.spdm_onPod (s : State) (f : Pod → Pod) : (s.onPod f).spdm = s.spdm := rfl

@[simp] theorem State.out_onPod (s : State) (f : Pod → Pod) : (s.onPod f).out = s.out := rfl

@[simp] theorem State.spdm_onLink (s : State) (p : Nat) (f : Link3 → Link3) : (s.onLink p f).spdm = s.spdm := rfl

theorem State.Stands.spdm (h : u.Stands s) : s.spdm = u.spdm := by
  funext p
  unfold State.spdm
  rw [h.frame]

@[simp] theorem State.spdm_record (s : State) (port : Nat) (l : List Byte) :
    (s.record port l).spdm port = { s.spdm port with transcript := (s.spdm port).transcript ++ l } := s.spdm_onSpdm_self _ _

/-- An answer records the request and its reply, and sends the reply. -/
theorem State.spdmAnswer_effect (s : State) (port req : Nat) (args : List Nat) (code : Nat) (l : List Nat) :
    (s.spdmAnswer port req args code l).spdm port = { s.spdm port with
      transcript := (s.spdm port).transcript ++ (Config.spdmRequest req args ++ Config.spdmReply code l) }
    ∧ (s.spdmAnswer port req args code l).out = s.out ++ [.spdm port (Config.spdmReply code l)] :=
  ⟨s.spdm_record _ _, rfl⟩

/-- A signed answer's signature covers the transcript to its end. -/
theorem State.spdmSigned_effect (s : State) (port req : Nat) (args : List Nat) (code : Nat) (l : List Nat) :
    (s.spdmSigned port req args code l).spdm port = { s.spdm port with
      transcript := (s.spdm port).transcript ++ (Config.spdmRequest req args ++ Config.spdmReply code l) }
    ∧ (s.spdmSigned port req args code l).out = s.out ++ [.spdm port (Config.spdmReply code l
        ++ tabulate 96 (Config.ecdsaByte s.lodge.aliasKey (digestBytes (Config.sha384
          ((s.spdm port).transcript ++ (Config.spdmRequest req args ++ Config.spdmReply code l))))))] := by
  refine ⟨s.spdm_record _ _, ?_⟩
  unfold State.spdmSigned State.spdmSignedBytes State.transcriptHash
  dsimp only
  rw [State.spdm_record]
  rfl

/-- The Lodge takes messages of this connection: it runs, the requests before are done, and the connection is one of the
module's. -/
def State.Takes (s : State) (port : Nat) : Prop := s.lodgeUp = true ∧ s.lodgeFree = true ∧ port ≤ 12

theorem State.Takes.withSpdm (h : s.Takes port) {ok : Spdm → Bool} (hok : ok (s.spdm port) = true) (k : State) :
    s.withSpdm port ok k = .next k := by
  obtain ⟨hup, hfree, hport⟩ := h
  unfold State.withSpdm
  rw [if_neg (by simp [hup, hfree]; omega), if_pos hok]

theorem State.Takes.withSpdm_error (h : s.Takes port) {ok : Spdm → Bool} (hok : ok (s.spdm port) = false) (k : State) :
    s.withSpdm port ok k = .next (s.spdmError port) := by
  obtain ⟨hup, hfree, hport⟩ := h
  unfold State.withSpdm
  rw [if_neg (by simp [hup, hfree]; omega), if_neg (by simp [hok])]

/-- One reply goes out on the connection. -/
def State.Replies (s : State) (port : Nat) (t : State) : Prop := ∃ l, t.out = s.out ++ [.spdm port l]

/-- One reply goes out on the connection, which moves on, and the rest of the module but the Lodge stays. -/
def State.Becomes (s : State) (port : Nat) (c : Spdm) (t : State) : Prop :=
  s.Replies port t ∧ t.spdm port = c ∧ t = { s with out := t.out, lodge := t.lodge }

/-- A reply alone leaves the connection as it was. -/
theorem State.becomes_emit (s : State) (port : Nat) (l : List Byte) : s.Becomes port (s.spdm port) (s.emit (.spdm port l)) :=
  ⟨⟨l, rfl⟩, rfl, rfl⟩

/-! ### Negotiation and identity (R48) -/

theorem getVersion_effect (h : s.Takes port) : Completes (.getVersion port) s fun t => s.Replies port t ∧ t.spdm port =
    { Spdm.reset with
      version := true, transcript := Config.spdmRequest 0x84 [] ++ Config.spdmReply 0x04 [0x13], session := (s.spdm port).session } := by
  unfold Completes
  rw [exec_getVersion]
  refine ⟨_, h.withSpdm rfl _, ⟨_, rfl⟩, (State.spdmAnswer_effect _ _ _ _ _ _).1.trans ?_⟩
  rw [State.spdm_onSpdm_self]
  rfl

theorem getCapabilities_effect (h : s.Takes port) (hc : (s.spdm port).version = true) :
    Completes (.getCapabilities port) s (s.Becomes port { s.spdm port with
      caps := true, transcript := (s.spdm port).transcript ++ (Config.spdmRequest 0xE1 [] ++ Config.spdmReply 0x61 []) }) := by
  unfold Completes
  rw [exec_getCapabilities]
  refine ⟨_, h.withSpdm hc _, ⟨_, rfl⟩, ?_, rfl⟩
  rw [State.spdm_onSpdm_self, (s.spdmAnswer_effect _ _ _ _ _).1]

theorem negotiateAlgorithms_effect (h : s.Takes port) (hc : (s.spdm port).caps = true) :
    Completes (.negotiateAlgorithms port true) s (s.Becomes port { s.spdm port with
      algorithms := true
      transcript := (s.spdm port).transcript ++ (Config.spdmRequest 0xE3 [] ++ Config.spdmReply 0x63 []) }) := by
  unfold Completes
  rw [exec_negotiateAlgorithms]
  refine ⟨_, h.withSpdm (by rw [hc]; rfl) _, ⟨_, rfl⟩, ?_, rfl⟩
  rw [State.spdm_onSpdm_self, (s.spdmAnswer_effect _ _ _ _ _).1]

/-- An answer that enters the transcript and does no more. -/
theorem State.becomes_spdmAnswer (s : State) (port req : Nat) (args : List Nat) (code : Nat) (l : List Nat) :
    s.Becomes port { s.spdm port with
      transcript := (s.spdm port).transcript ++ (Config.spdmRequest req args ++ Config.spdmReply code l) }
      (s.spdmAnswer port req args code l) :=
  ⟨⟨_, rfl⟩, (s.spdmAnswer_effect _ _ _ _ _).1, rfl⟩

theorem getDigests_effect (h : s.Takes port) (hc : (s.spdm port).algorithms = true) :
    Completes (.getDigests port) s (s.Becomes port { s.spdm port with
      transcript := (s.spdm port).transcript
        ++ (Config.spdmRequest 0x81 [] ++ Config.spdmReply 0x01 [(Config.sha384 s.lodge.chain).toNat]) }) := by
  unfold Completes
  rw [exec_getDigests]
  exact ⟨_, h.withSpdm hc _, s.becomes_spdmAnswer _ _ _ _ _⟩

theorem getCertificate_effect (h : s.Takes port) (hc : (s.spdm port).algorithms = true) :
    Completes (.getCertificate port 0) s (s.Becomes port { s.spdm port with
      transcript := (s.spdm port).transcript
        ++ (Config.spdmRequest 0x82 [0] ++ Config.spdmReply 0x02 (s.lodge.chain.map (·.toNat))) }) := by
  unfold Completes
  rw [exec_getCertificate]
  exact ⟨_, h.withSpdm (by rw [hc]; rfl) _, s.becomes_spdmAnswer _ _ _ _ _⟩

/-- A signed answer enters the transcript, and its signature covers the transcript to its end. -/
def State.SignedReply (s : State) (port req : Nat) (args : List Nat) (code : Nat) (l : List Nat) (t : State) : Prop :=
  t.spdm port = { s.spdm port with
    transcript := (s.spdm port).transcript ++ (Config.spdmRequest req args ++ Config.spdmReply code l) }
  ∧ t.out = s.out ++ [.spdm port (Config.spdmReply code l
      ++ tabulate 96 (Config.ecdsaByte s.lodge.aliasKey (digestBytes (Config.sha384
        ((s.spdm port).transcript ++ (Config.spdmRequest req args ++ Config.spdmReply code l))))))]

theorem challenge_effect {nonce : Nat} (h : s.Takes port) (hc : (s.spdm port).algorithms = true) :
    Completes (.challenge port nonce) s
      (s.SignedReply port 0x83 [nonce] 0x03 [nonce, (Config.sha384 s.lodge.chain).toNat]) := by
  unfold Completes
  rw [exec_challenge]
  exact ⟨_, h.withSpdm hc _, s.spdmSigned_effect _ _ _ _ _⟩

theorem State.keepEvidence_frame (s : State) (index nonce : Nat) (l : List Byte) :
    (s.keepEvidence index nonce l).spdm = s.spdm ∧ (s.keepEvidence index nonce l).out = s.out := by
  unfold State.keepEvidence
  split <;> exact ⟨rfl, rfl⟩

theorem getMeasurements_effect {i nonce : Nat} {m : List Nat} (h : s.Takes port) (hm : s.measurement i = some m)
    (hc : (s.spdm port).algorithms = true) :
    Completes (.getMeasurements port i (some nonce)) s (s.SignedReply port 0xE0 [i, nonce] 0x60 (i :: nonce :: m)) := by
  unfold Completes
  rw [exec_getMeasurements]
  unfold execGetMeasurements
  rw [hm]
  refine ⟨_, h.withSpdm hc _, ?_⟩
  unfold State.SignedReply
  dsimp only
  rw [(State.keepEvidence_frame _ _ _ _).1, (State.keepEvidence_frame _ _ _ _).2]
  exact s.spdmSigned_effect _ _ _ _ _

/-! ### Sessions (R34, R48) -/

theorem keyExchange_doe {peer : LinkPeer} (h : s.Takes port) (hp : port = 12) (hc : (s.spdm port).algorithms = true) :
    Completes (.keyExchange port peer) s (s.Becomes port { s.spdm port with
      handshake := true, session := false
      transcript := (s.spdm port).transcript ++ (Config.spdmRequest 0xE4 [] ++ Config.spdmReply 0x64 []) }) := by
  unfold Completes
  rw [exec_keyExchange]
  unfold execKeyExchange
  refine ⟨_, h.withSpdm (by rw [hc, hp]; rfl) _, ?_⟩
  rw [if_neg (by omega)]
  refine ⟨⟨_, rfl⟩, ?_, rfl⟩
  rw [State.spdm_onSpdm_self, (s.spdmSigned_effect _ _ _ _ _).1]

theorem keyExchange_port {peer : LinkPeer} (h : s.Takes port) (hp : port < 12) (hc : (s.spdm port).algorithms = true) :
    Completes (.keyExchange port peer) s fun t => if peer.genuine = true ∧ Config.peerMinimum ≤ peer.fwVersion
      then (t.spdm port).handshake = true ∧ t.link port = { s.link port with peer := some peer.module, closed := true }
      else t.spdm port = s.spdm port ∧ t.link port = s.link port := by
  have hok : ((s.spdm port).algorithms && (decide (12 ≤ port) || (peer.genuine && decide (Config.peerMinimum ≤ peer.fwVersion))))
      = decide (peer.genuine = true ∧ Config.peerMinimum ≤ peer.fwVersion) := by
    rw [hc, decide_eq_false (p := 12 ≤ port) (by omega)]
    simp
  unfold Completes
  rw [exec_keyExchange]
  unfold execKeyExchange
  by_cases hg : peer.genuine = true ∧ Config.peerMinimum ≤ peer.fwVersion
  · refine ⟨_, h.withSpdm (by rw [hok]; exact decide_eq_true hg) _, ?_⟩
    beta_reduce
    rw [if_pos hg, if_pos hp]
    refine ⟨?_, State.link_onLink_self _ _ _⟩
    rw [State.spdm_onLink, State.spdm_onSpdm_self]
  · refine ⟨_, h.withSpdm_error (by rw [hok]; exact decide_eq_false hg) _, ?_⟩
    beta_reduce
    rw [if_neg hg]
    exact ⟨rfl, rfl⟩

theorem State.link_freshLink_self (s : State) (port : Nat) : (s.freshLink port).link port =
    { s.link port with
      txKey := Config.freshKey s.free, rxKey := Config.freshKey (s.free + 1), flits := 0, keyStart := s.timebase } :=
  State.link_onLink_self _ _ _

theorem State.Stands.sendWaiting_fold {l : List Flit} (h : u.Stands s) : u.Stands (l.foldl State.sendFlit s) :=
  h.foldl fun _ _ h => h.sendFlit

theorem State.sendWaiting_of_nil (h : s.pod.waiting = []) : s.sendWaiting = s.onPod fun p => { p with waiting := [] } := by
  unfold State.sendWaiting
  rw [h]
  rfl

/-- Once what waits is taken off the list, flits that go out leave the sessions of the links and the offset. -/
theorem State.stands_sendWaiting (s : State) : (s.onPod fun p => { p with waiting := [] }).Stands s.sendWaiting :=
  (State.Stands.refl _).sendWaiting_fold

theorem State.links_sendWaiting (s : State) (p : Nat) : (s.link p).SameSession (s.sendWaiting.link p) :=
  s.stands_sendWaiting.links p

/-- FINISH on a pod port opens the link, under fresh keys. -/
def State.openLink (s : State) (port : Nat) : State :=
  (s.freshLink port).onLink port fun l => { l with closed := false, crcFails := 0, txSeq := 0, rxSeq := 0 }

/-- FINISH on a pod port: the link opens, the offset to the anchor is measured anew, and the flits that wait go out. -/
def State.joinLink (s : State) (port : Nat) : State := (s.openLink port).measureOffset.sendWaiting

theorem State.link_openLink_self (s : State) (port : Nat) : (s.openLink port).link port = { s.link port with
    txKey := Config.freshKey s.free, rxKey := Config.freshKey (s.free + 1), flits := 0, keyStart := s.timebase
    closed := false, crcFails := 0, txSeq := 0, rxSeq := 0 } := by
  unfold State.openLink
  rw [State.link_onLink_self, State.link_freshLink_self]

@[simp] theorem State.link_measureOffset (s : State) : s.measureOffset.link = s.link := rfl

@[simp] theorem State.out_measureOffset (s : State) : s.measureOffset.out = s.out := rfl

@[simp] theorem State.spdm_measureOffset (s : State) : s.measureOffset.spdm = s.spdm := rfl

theorem State.offset_measureOffset (s : State) (h : s.pod.anchor = s.pod.self) : s.measureOffset.pod.offset = 0 := if_pos h

theorem State.spdm_joinLink (s : State) (port : Nat) : (s.joinLink port).spdm = s.spdm := by
  unfold State.joinLink
  rw [(State.stands_sendWaiting _).spdm, State.spdm_onPod, State.spdm_measureOffset]
  rfl

theorem State.out_joinLink (s : State) (port : Nat) : s.out <+: (s.joinLink port).out := by
  have h := (s.openLink port).measureOffset.stands_sendWaiting.out
  rwa [State.out_onPod, State.out_measureOffset] at h

theorem State.offset_joinLink {port : Nat} (h : s.pod.anchor = s.pod.self) : (s.joinLink port).pod.offset = 0 := by
  have e : (s.joinLink port).pod.offset = (s.openLink port).measureOffset.pod.offset := by
    unfold State.joinLink
    rw [(s.openLink port).measureOffset.stands_sendWaiting.frame]
    rfl
  exact e.trans (State.offset_measureOffset _ h)

theorem State.links_joinLink (s : State) (port : Nat) :
    ((s.openLink port).link port).SameSession ((s.joinLink port).link port) := by
  have h := (s.openLink port).measureOffset.links_sendWaiting port
  rwa [State.link_measureOffset] at h

theorem State.link_joinLink_of_nil {port : Nat} (h : s.pod.waiting = []) : (s.joinLink port).link port = (s.openLink port).link port := by
  unfold State.joinLink
  rw [State.sendWaiting_of_nil (s := (s.openLink port).measureOffset) h]
  change (s.openLink port).measureOffset.link port = _
  rw [State.link_measureOffset]

/-- FINISH opens the link under new keys, and at the anchor the offset is 0 (R34, R39). -/
theorem State.joinLink_effect (s : State) (port : Nat) : ((s.joinLink port).link port).closed = false
    ∧ ((s.joinLink port).link port).keyStart = s.timebase
    ∧ (s.pod.waiting = [] → ((s.joinLink port).link port).flits = 0)
    ∧ (s.pod.anchor = s.pod.self → (s.joinLink port).pod.offset = 0) := by
  obtain ⟨x, y, z, e⟩ := s.links_joinLink port
  rw [State.link_openLink_self] at e
  refine ⟨congrArg Link3.closed e, congrArg Link3.keyStart e, fun hw => ?_, State.offset_joinLink⟩
  rw [State.link_joinLink_of_nil hw, State.link_openLink_self]

theorem finishSession_effect (h : s.Takes port) (hc : (s.spdm port).handshake = true) :
    Completes (.finishSession port) s fun t => (∃ l, .spdm port l ∈ t.out)
      ∧ t.spdm port = { s.spdm port with
          handshake := false, session := true
          transcript := (s.spdm port).transcript ++ (Config.spdmRequest 0xE5 [] ++ Config.spdmReply 0x65 []) }
      ∧ (port < 12 → (t.link port).closed = false ∧ (t.link port).keyStart = s.timebase
          ∧ (s.pod.waiting = [] → (t.link port).flits = 0) ∧ (s.pod.anchor = s.pod.self → t.pod.offset = 0)) := by
  unfold Completes
  rw [exec_finishSession]
  refine ⟨_, h.withSpdm hc _, ?_⟩
  have ha : ((s.spdmAnswer port 0xE5 [] 0x65 []).onSpdm port fun c => { c with handshake := false, session := true }).spdm port
      = { s.spdm port with
        handshake := false, session := true
        transcript := (s.spdm port).transcript ++ (Config.spdmRequest 0xE5 [] ++ Config.spdmReply 0x65 []) } := by
    rw [State.spdm_onSpdm_self, (s.spdmAnswer_effect _ _ _ _ _).1]
  have hout : .spdm port (Config.spdmReply 0x65 []) ∈ (s.spdmAnswer port 0xE5 [] 0x65 []).out :=
    List.mem_append_right s.out (List.mem_singleton_self _)
  by_cases hp : port < 12
  · rw [if_pos hp]
    exact ⟨⟨_, (State.out_joinLink _ port).subset hout⟩, (congrFun (State.spdm_joinLink _ port) port).trans ha,
      fun _ => State.joinLink_effect _ port⟩
  · rw [if_neg hp]
    exact ⟨⟨_, hout⟩, ha, fun hlt => absurd hlt hp⟩

theorem keyUpdate_effect (h : s.Takes port) (hc : (s.spdm port).session = true) :
    Completes (.keyUpdate port) s fun t => s.Replies port t ∧ t.spdm port = s.spdm port
      ∧ (port < 12 → (t.link port).flits = 0 ∧ (t.link port).keyStart = s.timebase
          ∧ (t.link port).peer = (s.link port).peer ∧ (t.link port).replay = (s.link port).replay) := by
  unfold Completes
  rw [exec_keyUpdate]
  refine ⟨_, h.withSpdm hc _, ?_⟩
  by_cases hp : port < 12
  · rw [if_pos hp]
    refine ⟨⟨_, rfl⟩, rfl, fun _ => ?_⟩
    change ((s.freshLink port).link port).flits = 0 ∧ ((s.freshLink port).link port).keyStart = s.timebase
      ∧ ((s.freshLink port).link port).peer = _ ∧ ((s.freshLink port).link port).replay = _
    rw [State.link_freshLink_self]
    exact ⟨rfl, rfl, rfl, rfl⟩
  · rw [if_neg hp]
    exact ⟨⟨_, rfl⟩, rfl, fun hlt => absurd hlt hp⟩

theorem linkKeyUpdateDue_effect (hp : port < 12) (hc : (s.spdm port).session = true) (hl : (s.link port).closed = false)
    (hd : 2 ^ 32 ≤ (s.link port).flits ∨ (s.link port).keyStart + 3600000000000 ≤ s.timebase) :
    Completes (.linkKeyUpdateDue port) s fun t => (t.link port).flits = 0 ∧ (t.link port).keyStart = s.timebase
      ∧ (t.link port).peer = (s.link port).peer ∧ t.out = s.out := by
  unfold Completes
  rw [exec_linkKeyUpdateDue]
  refine ⟨_, if_pos ⟨hp, hc, by rw [hl]; rfl, hd⟩, ?_⟩
  beta_reduce
  rw [State.link_freshLink_self]
  exact ⟨rfl, rfl, rfl, rfl⟩

theorem State.Stands.loseHeld (h : u.Stands s) : u.Stands s.loseHeld := h.foldl fun _ _ h => .ite h.machineCheck h

/-- The session of a link ends, signalled. -/
def State.closeLink (s : State) (port : Nat) : State :=
  (s.onLink port fun l => { l with peer := none, closed := true, txKey := 0, rxKey := 0, replay := [] }).signal 0 6

theorem State.link_closeLink_self (s : State) (port : Nat) : (s.closeLink port).link port =
    { s.link port with peer := none, closed := true, txKey := 0, rxKey := 0, replay := [] } :=
  State.link_onLink_self _ _ fun l => { l with peer := none, closed := true, txKey := 0, rxKey := 0, replay := [] }

/-- The end of a link session closes the link; the flits in flight then go over other routes (R33). -/
theorem State.stands_dropSession (s : State) (hp : port < 12) :
    ((s.onSpdm port fun c => { c with session := false, handshake := false }).closeLink port).Stands (s.dropSession port) := by
  unfold State.dropSession
  dsimp only
  rw [if_pos hp]
  exact ((State.Stands.refl _).sendWaiting_fold).loseHeld

theorem State.dropSession_effect (s : State) (port : Nat) :
    (s.dropSession port).spdm port = { s.spdm port with session := false, handshake := false }
    ∧ (port < 12 → ((s.dropSession port).link port).closed = true ∧ ((s.dropSession port).link port).peer = none) := by
  by_cases hp : port < 12
  · have h := s.stands_dropSession hp
    obtain ⟨x, y, z, e⟩ := h.links port
    rw [State.link_closeLink_self] at e
    refine ⟨?_, fun _ => ⟨congrArg Link3.closed e, congrArg Link3.peer e⟩⟩
    rw [h.spdm]
    exact s.spdm_onSpdm_self _ fun c => { c with session := false, handshake := false }
  · unfold State.dropSession
    dsimp only
    rw [if_neg hp]
    exact ⟨s.spdm_onSpdm_self _ _, fun hlt => absurd hlt hp⟩

theorem endSession_effect (h : s.Takes port) (hc : (s.spdm port).session = true) :
    Completes (.endSession port) s fun t => t.spdm port = { s.spdm port with session := false, handshake := false }
      ∧ (port < 12 → (t.link port).closed = true ∧ (t.link port).peer = none) := by
  unfold Completes
  rw [exec_endSession]
  exact ⟨_, h.withSpdm hc _, State.dropSession_effect _ _⟩

/-! ### Vendor-defined requests (R51) -/

theorem pqsig_effect (h : s.Takes port) (hc : (s.spdm port).algorithms = true) :
    Completes (.pqsig port) s (s.Becomes port (s.spdm port)) := by
  unfold Completes
  rw [exec_pqsig]
  exact ⟨_, h.withSpdm hc _, s.becomes_emit _ _⟩

theorem pqchain_effect (h : s.Takes port) (hc : (s.spdm port).algorithms = true) :
    Completes (.pqchain port) s (s.Becomes port (s.spdm port)) := by
  unfold Completes
  rw [exec_pqchain]
  exact ⟨_, h.withSpdm hc _, s.becomes_emit _ _⟩

theorem getepoch_effect {world : Nat} (h : s.Takes port)
    (hc : (s.spdm port).algorithms = true ∧ (s.world? world).isSome = true) :
    Completes (.getepoch port world) s (s.Becomes port (s.spdm port)) := by
  unfold Completes
  rw [exec_getepoch]
  unfold execGetepoch
  exact ⟨_, h.withSpdm (by rw [hc.1, hc.2]; rfl) _, s.becomes_emit _ _⟩

theorem getrevoke_effect (h : s.Takes port) (hc : (s.spdm port).algorithms = true) :
    Completes (.getrevoke port) s fun t => t = s.emit (.spdm port s.lodge.revocations.flatten) := by
  unfold Completes
  rw [exec_getrevoke]
  exact ⟨_, h.withSpdm hc _, rfl⟩

theorem getmeter_effect {part : Nat} (h : s.Takes port) (hc : (s.spdm port).algorithms = true) (hp : part < 16)
    (hvf : (s.part part).vf ≠ 0) (hst : (s.part part).st ≠ .destroying) :
    Completes (.getmeter port part) s fun t =>
      s.Replies port t ∧ t.part part = { s.part part with meterSeq := (s.part part).meterSeq + 1 } := by
  unfold Completes
  rw [exec_getmeter]
  unfold execGetmeter
  refine ⟨_, h.withSpdm ?_ _, ⟨_, rfl⟩, s.part_setPart_self _ _⟩
  simp [hc, hp, hvf, hst]

/-- Settles O43: each message is taken in its order (`State.Takes.withSpdm`), records its answer, and on a pod port opens, renews
or ends the link session, whose state no flit that goes out then changes (`State.Stands.links`). -/
theorem spdmConversations : Obligations.SpdmConversations := by
  unfold Obligations.SpdmConversations
  intro s port nonce i part world peer m hup hfree hport
  have h : s.Takes port := ⟨hup, hfree, hport⟩
  exact ⟨getVersion_effect h, getCapabilities_effect h, negotiateAlgorithms_effect h, getDigests_effect h,
    getCertificate_effect h, challenge_effect h, getMeasurements_effect h, keyExchange_doe h, keyExchange_port h,
    finishSession_effect h, keyUpdate_effect h, endSession_effect h, linkKeyUpdateDue_effect, pqsig_effect h, pqchain_effect h,
    getepoch_effect h, getrevoke_effect h, getmeter_effect h⟩
end

end Sys2Proof.Machine
end

