-- ==== Sys2Proof/Proofs/Pods.lean ====
section
/-! Pod links and both sides of a pod launch (R31 to R39, R443). -/

namespace Sys2Proof.Machine

section
variable {s t u : State} {port target fn gen digest : Nat} {flit : Flit} {p : PodLaunch}

/-! ### Flits that are sent (R33, R35) -/

theorem State.sent_sendFlit (s : State) (f : Flit) : Sent (s.sendFlit f) f.dest f.body := by
  unfold State.sendFlit
  split
  · next port _ =>
    exact ⟨{ f with seq := (s.link port).txSeq }, rfl, rfl, .inr ⟨port, (s.link port).txKey,
      List.mem_append_right s.out (List.mem_singleton_self _)⟩⟩
  · exact ⟨f, rfl, rfl, .inl (List.mem_append_right s.pod.waiting (List.mem_singleton_self _))⟩

theorem State.sent_tellPod (s : State) (m : Nat) (msg : PodMsg) : Sent (s.tellPod m msg) m (.pod msg) := s.sent_sendFlit _

/-- What has been sent stays sent. -/
theorem State.Stands.sent {m : Nat} {b : FlitBody} (h : u.Stands s) (hs : Sent u m b) : Sent s m b := by
  obtain ⟨f, hm, hb, hw | ⟨port, key, ho⟩⟩ := hs
  · exact ⟨f, hm, hb, .inl (h.waiting.subset hw)⟩
  · exact ⟨f, hm, hb, .inr ⟨port, key, h.out.subset ho⟩⟩

/-- A message goes to every other module of a mask. -/
theorem State.sent_sendPod {mask m : Nat} (h : m ∈ s.others mask) (msg : PodMsg) : Sent (s.sendPod mask msg) m (.pod msg) := by
  unfold State.sendPod
  obtain ⟨a, b, e⟩ := List.append_of_mem h
  unfold State.others at e
  rw [e, List.foldl_append, List.foldl_cons]
  exact State.Stands.sent ((State.Stands.refl _).foldl fun _ _ h => h.sendFlit) (State.sent_tellPod _ m msg)

theorem State.Sends.sameMemory (h : u.Sends s) : SameMemory u s := by
  rw [h]
  exact ⟨fun _ => rfl, fun _ => rfl⟩

theorem State.sendFlit_effect (s : State) (f : Flit) : Sent (s.sendFlit f) f.dest f.body ∧ SameMemory s (s.sendFlit f)
    ∧ ∀ k, (s.link k).SameSession ((s.sendFlit f).link k) :=
  ⟨s.sent_sendFlit f, ((State.Sends.refl s).sendFlit).sameMemory, ((State.Stands.refl s).sendFlit).links⟩

theorem State.Stands.pod (h : u.Stands s) :
    s.pod = { u.pod with ports := s.pod.ports, launch := s.pod.launch, waiting := s.pod.waiting } := congrArg State.pod h.frame

/-! ### Flits that arrive (R32 to R35) -/

/-- The port carries traffic. -/
def State.Carries (s : State) (port : Nat) : Prop := port < 12 ∧ s.linkOpen port = true

/-- A flit that has passed its checks, under the next sequence number of its port. -/
def State.Good (s : State) (port : Nat) (flit : Flit) : Prop :=
  flit.crcOk = true ∧ flit.tagOk = true ∧ flit.seq = (s.link port).rxSeq

theorem exec_flitReceive_open (h : s.Carries port) : exec (.flitReceive port flit) s =
    if !flit.crcOk then .next ((s.hyperAdd 2 1).onLink port fun l =>
      if 16 ≤ l.crcFails + 1 then { l with crcFails := 0, retraining := true } else { l with crcFails := l.crcFails + 1 })
    else if !flit.tagOk then .next (s.dropSession port)
    else if flit.seq ≠ (s.link port).rxSeq then .next s
    else (s.onLink port fun l => { l with crcFails := 0, flits := l.flits + 1, rxSeq := l.rxSeq + 1 }).takeFlit flit := by
  rw [exec_flitReceive]
  obtain ⟨hp, ho⟩ := h
  exact if_neg (by simp [ho]; omega)

theorem flitReceive_crcFails (h : s.Carries port) (hc : flit.crcOk = false) : Completes (.flitReceive port flit) s fun t =>
    Map.get 0 t.hyper 2 = Map.get 0 s.hyper 2 + 1
    ∧ t.link port = (if 15 ≤ (s.link port).crcFails then { s.link port with crcFails := 0, retraining := true }
        else { s.link port with crcFails := (s.link port).crcFails + 1 }) ∧ SameMemory s t := by
  unfold Completes
  rw [exec_flitReceive_open h, if_pos (by simp [hc])]
  obtain ⟨hn, hf⟩ := s.hyperAdd_effect 2 1
  refine ⟨_, rfl, hn, ?_, ?_⟩
  · rw [State.link_onLink_self, show (s.hyperAdd 2 1).link port = s.link port by rw [hf]; rfl]
    simp only [Nat.reduceLeDiff]
  · exact ⟨fun _ => by rw [hf]; rfl, fun _ => by rw [hf]; rfl⟩

theorem flitReceive_tagFails (h : s.Carries port) (hc : flit.crcOk = true) (ht : flit.tagOk = false) :
    Completes (.flitReceive port flit) s fun t =>
      (t.link port).closed = true ∧ (t.link port).peer = none ∧ (t.spdm port).session = false := by
  unfold Completes
  rw [exec_flitReceive_open h, if_neg (by simp [hc]), if_pos (by simp [ht])]
  obtain ⟨hs, hl⟩ := s.dropSession_effect port
  obtain ⟨hcl, hpe⟩ := hl h.1
  exact ⟨_, rfl, hcl, hpe, congrArg Spdm.session hs⟩

/-- The state in which a port has taken a flit in its order. -/
def State.took (s : State) (port : Nat) : State :=
  s.onLink port fun l => { l with crcFails := 0, flits := l.flits + 1, rxSeq := l.rxSeq + 1 }

theorem exec_flitReceive_good (h : s.Carries port) (hg : s.Good port flit) :
    exec (.flitReceive port flit) s = (s.took port).takeFlit flit := by
  obtain ⟨hc, ht, hs⟩ := hg
  rw [exec_flitReceive_open h, if_neg (by simp [hc]), if_neg (by simp [ht]), if_neg (by simp [hs])]
  rfl

/-- A flit for another module goes on to a member, and is else discarded and counted (R35). -/
theorem flitReceive_forwards (h : s.Carries port) (hg : s.Good port flit) (hd : flit.dest ≠ s.pod.self) :
    ((∀ m ∈ s.pod.members, m.module ≠ flit.dest) → Completes (.flitReceive port flit) s fun t =>
      Map.get 0 t.hyper 3 = Map.get 0 s.hyper 3 + 1 ∧ t.pod.waiting = s.pod.waiting ∧ SameMemory s t)
    ∧ ((∃ m ∈ s.pod.members, m.module = flit.dest) → Completes (.flitReceive port flit) s fun t =>
      Sent t flit.dest flit.body ∧ SameMemory s t) := by
  have e : exec (.flitReceive port flit) s = if s.pod.members.any fun m => m.module == flit.dest
      then .next ((s.took port).sendFlit flit) else .next ((s.took port).hyperAdd 3 1) := by
    rw [exec_flitReceive_good h hg]
    exact if_pos hd
  unfold Completes
  rw [e]
  refine ⟨fun hm => ?_, fun hm => ?_⟩
  · rw [if_neg (by simpa using hm)]
    obtain ⟨hn, hf⟩ := (s.took port).hyperAdd_effect 3 1
    refine ⟨_, rfl, hn, by rw [hf]; rfl, fun _ => by rw [hf]; rfl, fun _ => by rw [hf]; rfl⟩
  · rw [if_pos (by simpa using hm)]
    obtain ⟨hs, hm, -⟩ := (s.took port).sendFlit_effect flit
    exact ⟨_, rfl, hs, hm⟩

/-! ### A load of another module at its home (R141, R443) -/

theorem State.sent_answerRemote (s : State) (dest cell pa : Nat) (data : List Byte) (refused : Bool) :
    Sent (s.answerRemote dest cell pa data refused) dest (.reply cell pa data refused)
    ∧ SameMemory s (s.answerRemote dest cell pa data refused)
    ∧ ∀ k, (s.link k).SameSession ((s.answerRemote dest cell pa data refused).link k) := by
  unfold State.answerRemote
  dsimp only
  split
  · exact s.sendFlit_effect _
  · exact (s.meter (s.homePart pa) 6 flitPayload).sendFlit_effect _

/-- An access of an agent outside the partitions to a line that is ready changes the Commons tags alone. -/
theorem State.touchAs_ready {ctx v pa : Nat} {cls : PageClass} {w sp : Bool} (hl : s.lineReady pa)
    (hm : paModule pa = s.pod.self) : ∃ L, s.touchAs 16 ctx v cls pa w sp = { s with lines := L } := by
  obtain ⟨L, e⟩ := s.touchFor_ready 16 ctx v cls pa w sp hl hm
  refine ⟨L, ?_⟩
  unfold State.touchAs
  rw [e]
  exact if_neg (by simp)

/-- A page that another module may reach lies in this one. -/
theorem State.module_of_remoteGrant {src w pa cls : Nat} {op : RemoteOp} {g : Nat × PageClass}
    (h : s.remoteGrant src w pa cls op = some g) : paModule pa = s.pod.self := by
  unfold State.remoteGrant at h
  split at h
  · cases h
  · next hc => exact not_not.1 (not_or.1 hc).1

/-- A granted load is answered with the bytes that the module holds. -/
theorem State.serveRemote_load {src cell w pa cls size : Nat} {g : Nat × PageClass}
    (h : s.remoteGrant src w pa cls (.load size) = some g) (hl : s.lineReady pa) :
    Sent (s.serveRemote src cell w pa cls (.load size)) src (.reply cell pa (readBytes s.mem pa size) false)
    ∧ SameMemory s (s.serveRemote src cell w pa cls (.load size))
    ∧ ∀ k, (s.link k).SameSession ((s.serveRemote src cell w pa cls (.load size)).link k) := by
  have hm : paModule pa = s.pod.self := State.module_of_remoteGrant h
  obtain ⟨L, e⟩ := State.touchAs_ready (s := s.meter (s.homePart pa) 6 flitPayload) (ctx := 0) (v := g.1) (cls := g.2)
    (w := false) (sp := false) hl hm
  unfold State.serveRemote
  rw [h]
  dsimp only
  rw [e]
  exact State.sent_answerRemote _ _ _ _ _ _

theorem State.serveRemote_refused {src cell w pa cls : Nat} {op : RemoteOp} (h : s.remoteGrant src w pa cls op = none) :
    s.serveRemote src cell w pa cls op = s.answerRemote src cell pa [] true := by
  unfold State.serveRemote
  rw [h]

theorem flitReceive_load (h : s.Carries port) (hg : s.Good port flit) (hd : flit.dest = s.pod.self) (cell w pa cls size : Nat)
    (hb : flit.body = .request cell w pa cls (.load size)) :
    (s.remoteGrant flit.src w pa cls (.load size) = none → Completes (.flitReceive port flit) s fun t =>
      Sent t flit.src (.reply cell pa [] true) ∧ SameMemory s t)
    ∧ ((s.remoteGrant flit.src w pa cls (.load size)).isSome = true → s.lineReady pa →
      Completes (.flitReceive port flit) s fun t =>
        Sent t flit.src (.reply cell pa (readBytes s.mem pa size) false) ∧ SameMemory s t
        ∧ (t.link port).rxSeq = (s.link port).rxSeq + 1) := by
  have e : exec (.flitReceive port flit) s = .next ((s.took port).serveRemote flit.src cell w pa cls (.load size)) := by
    rw [exec_flitReceive_good h hg]
    unfold State.takeFlit
    rw [hb]
    exact if_neg (not_not.2 hd)
  refine ⟨fun hn => ⟨_, e, ?_⟩, fun hn hl => ⟨_, e, ?_⟩⟩
  · rw [State.serveRemote_refused (s := s.took port) hn]
    obtain ⟨hs, hm, -⟩ := (s.took port).sent_answerRemote flit.src cell pa [] true
    exact ⟨hs, hm⟩
  · obtain ⟨g, hgr⟩ := Option.isSome_iff_exists.1 hn
    obtain ⟨hs, hm, hk⟩ := State.serveRemote_load (s := s.took port) (cell := cell) hgr hl
    obtain ⟨x, y, z, ek⟩ := hk port
    rw [State.took, State.link_onLink_self] at ek
    exact ⟨hs, hm, congrArg Link3.rxSeq ek⟩

/-! ### Retraining and the member list (R33, R35) -/

theorem portRetrainComplete_effect (hp : port < 12) (hr : (s.link port).retraining = true) :
    Completes (.portRetrainComplete port) s fun t => (t.link port).retraining = false
      ∧ (s.pod.waiting = [] → t.link port = { s.link port with retraining := false } ∧ t.out = s.out) := by
  unfold Completes
  rw [exec_portRetrainComplete]
  refine ⟨_, if_pos ⟨hp, hr⟩, ?_, fun hw => ?_⟩
  · obtain ⟨x, y, z, e⟩ := State.links_sendWaiting (s.onLink port fun l => { l with retraining := false }) port
    rw [State.link_onLink_self] at e
    exact congrArg Link3.retraining e
  · rw [State.sendWaiting_of_nil (s := s.onLink port fun l => { l with retraining := false }) hw]
    exact ⟨State.link_onLink_self s port fun l => { l with retraining := false }, rfl⟩

theorem State.self_renumber (s : State) (b : Nat) : (s.renumber b).pod.self = b := by
  unfold State.renumber
  dsimp only
  split
  · next h => exact h
  · rfl

/-- A new anchor changes the offset of the pod alone. -/
theorem State.pod_newAnchor (s : State) (old : Nat) : ∃ x, (s.newAnchor old).pod = { s.pod with offset := x } := by
  unfold State.newAnchor
  split
  · exact ⟨0, rfl⟩
  · split
    · exact ⟨s.pod.offset, rfl⟩
    · exact ⟨_, rfl⟩

/-- A member list that is taken: number, members and routes. -/
theorem State.pod_joined (s : State) (b old : Nat) (members : List PodMember) (routes : List (Nat × Nat)) :
    let t := ((s.renumber b).onPod fun p => { p with members := members, routes := routes }).newAnchor old
    t.pod.self = b ∧ t.pod.members = members ∧ t.pod.routes = routes := by
  obtain ⟨x, e⟩ := State.pod_newAnchor ((s.renumber b).onPod fun p => { p with members := members, routes := routes }) old
  dsimp only
  rw [e]
  exact ⟨s.self_renumber b, rfl, rfl⟩

theorem podMemberList_effect {members : List PodMember} {routes : List (Nat × Nat)} (h : s.lodgeUp = true) :
    Completes (.podMemberList members routes) s fun t =>
      match members.find? fun m => m.digest == s.lodge.identityDigest.toNat with
      | some m => t.pod.self = m.module % 64 ∧ t.pod.members = members ∧ t.pod.routes = routes
      | none => if members = [] then t.pod.self = 0 ∧ t.pod.members = [] ∧ t.pod.routes = [] else t = s := by
  unfold Completes
  rw [exec_podMemberList]
  unfold execPodMemberList
  rw [if_neg (by simp [h])]
  dsimp only
  cases members.find? fun m => m.digest == s.lodge.identityDigest.toNat with
  | none =>
    by_cases hm : members = []
    · rw [if_pos (by simp [hm])]
      refine ⟨_, rfl, ?_⟩
      rw [if_pos hm]
      exact s.pod_joined 0 _ [] []
    · rw [if_neg (by simp [hm])]
      refine ⟨_, rfl, ?_⟩
      rw [if_neg hm]
  | some m =>
    refine ⟨_, rfl, ?_⟩
    obtain ⟨hself, hmem, hroutes⟩ := s.pod_joined (m.module % 64) s.pod.anchor members routes
    have hp := (State.stands_sendWaiting (((s.renumber (m.module % 64)).onPod fun p =>
      { p with members := members, routes := routes }).newAnchor s.pod.anchor)).pod
    dsimp only
    rw [hp]
    exact ⟨hself, hmem, hroutes⟩

/-! ### Pod launches at a target (R38, R39) -/

/-- The highest started generation of a VF is raised to one. -/
def State.Raises (s t : State) (fn gen : Nat) : Prop := Map.get 0 t.pod.highest fn = max gen (Map.get 0 s.pod.highest fn)

theorem State.reservations_tellPod (s : State) (m : Nat) (msg : PodMsg) :
    (s.tellPod m msg).pod.reservations = s.pod.reservations := by
  have h : s.Sends (s.tellPod m msg) := (State.Sends.refl s).sendFlit
  rw [h]

theorem preparePod_ready {mask digest parts : Nat} (h : s.prepareRefusal fn gen digest (partsOfMask parts) = none) :
    Completes (.preparePod target fn mask gen digest parts) s fun t => Sent t target (.pod .ready)
      ∧ ∃ r, t.pod.reservations = s.pod.reservations ++ [r] ∧ r.names target fn gen = true
        ∧ r.parts = partsOfMask parts ∧ r.t = none ∧ r.since = s.timebase := by
  unfold Completes
  rw [exec_preparePod]
  unfold execPreparePod
  dsimp only
  rw [h]
  refine ⟨_, rfl, State.sent_tellPod _ _ _, _, State.reservations_tellPod _ _ _, ?_, rfl, rfl, rfl⟩
  simp [Reservation.names]

theorem preparePod_refuses {mask digest parts : Nat} {st : Status}
    (h : s.prepareRefusal fn gen digest (partsOfMask parts) = some st) :
    Completes (.preparePod target fn mask gen digest parts) s fun t =>
      Sent t target (.pod (.refuse st.code)) ∧ t.pod.reservations = s.pod.reservations := by
  unfold Completes
  rw [exec_preparePod]
  unfold execPreparePod
  dsimp only
  rw [h]
  exact ⟨_, rfl, s.sent_tellPod _ _, s.reservations_tellPod _ _⟩

theorem startPod_starts {t0 : Nat} {node : List Byte} {args : List Word}
    (h : ∃ r ∈ s.pod.reservations, r.stands s.timebase target fn gen = true) :
    Completes (.startPod target fn gen t0 node args) s fun t => t.out = s.out ∧ s.Raises t fn gen
      ∧ t.pod.reservations = s.pod.reservations.map fun r =>
          if r.stands s.timebase target fn gen then { r with t := some t0, node := node, args := args } else r := by
  unfold Completes
  rw [exec_startPod]
  exact ⟨_, if_pos (List.any_eq_true.2 h), rfl, Map.get_put_self _ _ _ _, rfl⟩

theorem startPod_busy {t0 : Nat} {node : List Byte} {args : List Word}
    (h : ∀ r ∈ s.pod.reservations, r.names target fn gen = true → r.t = none → r.since + 200000 ≤ s.timebase) :
    Completes (.startPod target fn gen t0 node args) s fun t =>
      Sent t target (.pod (.refuse Status.busy.code)) ∧ t.pod.reservations = s.pod.reservations := by
  have hn : ¬ (s.pod.reservations.any fun r => r.stands s.timebase target fn gen) = true := by
    intro ha
    obtain ⟨r, hr, hs⟩ := List.any_eq_true.1 ha
    simp only [Reservation.stands, Bool.and_eq_true, Option.isNone_iff_eq_none, decide_eq_true_eq] at hs
    obtain ⟨⟨hnames, ht⟩, hlt⟩ := hs
    exact absurd (h r hr hnames ht) (by omega)
  unfold Completes
  rw [exec_startPod]
  exact ⟨_, if_neg hn, s.sent_tellPod _ _, s.reservations_tellPod _ _⟩

theorem abortPod_effect (h : s.podLocal target fn gen = none) : Completes (.abortPod target fn gen) s fun t =>
    t = { s with pod := { s.pod with reservations := s.pod.reservations.filter fun r => !r.names target fn gen } } := by
  unfold Completes
  rw [exec_abortPod]
  refine ⟨_, rfl, ?_⟩
  unfold State.podDiscard
  split
  · rfl
  · next id hid => exact absurd (hid.symm.trans h) (by simp)

theorem podReservationLapse_effect (s : State) (fn gen : Nat) : Completes (.podReservationLapse fn gen) s fun t =>
    t = { s with pod := { s.pod with reservations := s.pod.reservations.filter fun r =>
      !(r.fn == fn && r.gen == gen && r.t.isNone && decide (r.since + 200000 ≤ s.timebase)) } } := by
  unfold Completes
  rw [exec_podReservationLapse]
  exact ⟨_, rfl, rfl⟩

/-- Launches that begin take no reservation. -/
theorem podStartTime_effect (s : State) : Completes .podStartTime s fun t =>
    t.pod.reservations = s.pod.reservations.filter fun r => !r.t.any s.reached := by
  unfold Completes
  rw [exec_podStartTime]
  unfold execPodStartTime
  extract_lets due a b c
  refine ⟨_, rfl, ?_⟩
  have hb : a.Stands b := by
    change a.Stands (match a.pod.launch with
      | some p => if p.st = .starting ∧ a.reached p.t then a.beginOwn p else a
      | none => a)
    split
    · exact .ite (State.Stands.refl a).beginOwn (.refl a)
    · exact .refl a
  have hc : a.Stands c := hb.foldl fun _ _ h => h.beginReserved
  have ht := hc.foldl (l := c.launches.filter fun e => e.2.pod.isSome && e.2.isReady) (f := fun s e => s.dispatchLaunch e.1)
    fun _ _ h => h.dispatchLaunch
  beta_reduce
  rw [ht.pod]
  rfl

/-! ### Pod launches at the origin (R37) -/

/-- The targets that have answered READY, after one more. -/
def PodLaunch.withReady (p : PodLaunch) (target : Nat) : List Nat :=
  if p.ready.contains target then p.ready else p.ready ++ [target]

/-- START keeps the launch as it starts. -/
theorem State.podGo_effect (s : State) (p : PodLaunch) :
    (s.podGo p).pod.launch = some { p with st := .starting, t := (s.anchorNow + 4000).toNat }
    ∧ s.Raises (s.podGo p) p.fn p.gen := by
  unfold State.podGo
  extract_lets t node
  have h := (State.Sends.refl (s.onPod fun v => { v with
    launch := some { p with st := .starting, t := t }, highest := raised v.highest p.fn p.gen })).sendPod
    (mask := p.mask) (m := .start p.fn p.gen t node p.args)
  refine ⟨h.podLaunch, ?_⟩
  unfold State.Raises
  rw [h]
  exact Map.get_put_self _ _ _ _

theorem readyPod_effect (hp : s.pod.launch = some p) (hst : p.st = .gathering) (ht : target ∈ s.others p.mask) :
    Completes (.readyPod target) s fun t => if ∀ m ∈ s.others p.mask, m ∈ p.withReady target
      then (∃ x, t.pod.launch = some x ∧ x.st = .starting ∧ x.t = (s.anchorNow + 4000).toNat ∧ x.ready = p.withReady target)
        ∧ s.Raises t p.fn p.gen
      else t = { s with pod := { s.pod with launch := some { p with ready := p.withReady target } } } := by
  have e : exec (.readyPod target) s = if (s.others p.mask).all (p.withReady target).contains
      then .next (s.podGo { p with ready := p.withReady target })
      else .next (s.onPod fun v => { v with launch := some { p with ready := p.withReady target } }) := by
    rw [exec_readyPod]
    unfold execReadyPod
    rw [hp]
    exact if_neg (by simp [hst, ht])
  unfold Completes
  rw [e]
  by_cases ha : ∀ m ∈ s.others p.mask, m ∈ p.withReady target
  · rw [if_pos (by simpa using ha)]
    refine ⟨_, rfl, ?_⟩
    beta_reduce
    rw [if_pos ha]
    obtain ⟨hl, hr⟩ := s.podGo_effect { p with ready := p.withReady target }
    exact ⟨⟨_, hl, rfl, rfl, rfl⟩, hr⟩
  · rw [if_neg (by simpa using ha)]
    refine ⟨_, rfl, ?_⟩
    beta_reduce
    rw [if_neg ha]
    rfl

theorem State.stands_podDiscard (s : State) (origin fn gen : Nat) : s.Stands (s.podDiscard origin fn gen)
    ∧ (s.podDiscard origin fn gen).pod = s.pod := by
  unfold State.podDiscard
  split
  · exact ⟨.refl s, rfl⟩
  · exact ⟨(State.Stands.refl s).discardLaunch, s.pod_discardLaunch _⟩

/-- A pod launch that ends before its parts have: no launch is left, and every target is told. -/
theorem State.podAbort_effect (s : State) (p : PodLaunch) (st : Status) : (s.podAbort p st).pod.launch = none
    ∧ ∀ m ∈ s.others p.mask, Sent (s.podAbort p st) m (.pod (.abort p.fn p.gen)) := by
  unfold State.podAbort
  extract_lets a b
  obtain ⟨hd, hp⟩ := State.stands_podDiscard (a.onPod fun v => { v with launch := none }) a.pod.self p.fn p.gen
  refine ⟨congrArg Pod.launch hp, fun m hm => ?_⟩
  have hb : a.Stands b := ((State.Stands.refl a).onPodLaunch (f := fun _ => none)).trans hd
  exact (hb.finishNode).sent (State.sent_sendPod hm _)

theorem refusePod_effect {st : Status} (hp : s.pod.launch = some p) (hst : p.st = .gathering) (ht : target ∈ s.others p.mask) :
    Completes (.refusePod target st.code) s fun t => t.pod.launch = none ∧ Sent t target (.pod (.abort p.fn p.gen)) := by
  obtain ⟨hn, hs⟩ := s.podAbort_effect p (Status.ofCode st.code)
  refine ⟨(s.podAbort p (Status.ofCode st.code)).signal 0 6, ?_, hn, ((State.Stands.refl _).signal).sent (hs target ht)⟩
  rw [exec_refusePod]
  unfold execRefusePod
  rw [hp]
  dsimp only
  rw [if_neg (by simp [ht]), hst]

theorem podPrepareTimeout_effect (hp : s.pod.launch = some p) (hst : p.st = .gathering) (ht : p.since + 100000 ≤ s.timebase) :
    Completes .podPrepareTimeout s fun t =>
      t.pod.launch = none ∧ ∀ m ∈ s.others p.mask, Sent t m (.pod (.abort p.fn p.gen)) := by
  obtain ⟨hn, hs⟩ := s.podAbort_effect p .unreachable
  refine ⟨(s.podAbort p .unreachable).signal 0 6, ?_, hn, fun m hm => ((State.Stands.refl _).signal).sent (hs m hm)⟩
  rw [exec_podPrepareTimeout]
  unfold execPodPrepareTimeout
  rw [hp]
  exact if_pos ⟨hst, ht⟩

/-- The parts of a pod launch that have ended, after one more. -/
def PodLaunch.withPart (p : PodLaunch) (target : Nat) (st : Status) (cause : Nat) : PodLaunch :=
  { p with parts := p.parts ++ [(target, st, cause)] }

/-- A running pod launch whose parts have all ended. -/
def PodLaunch.AllEnded (p : PodLaunch) : Prop := p.st = .running ∧ ∀ m, m < 64 → p.mask.testBit m = true → ∃ e ∈ p.parts, e.1 = m

/-- A pod launch settles once all its parts have ended. -/
theorem State.launch_podSettle (h : s.pod.launch = some p) : (p.AllEnded → s.podSettle.pod.launch = none)
    ∧ (¬p.AllEnded → s.podSettle.pod.launch = some p) := by
  have hall : (p.st = .running ∧ ((List.range 64).all fun m => !p.mask.testBit m || p.parts.any fun e => e.1 == m) = true)
      ↔ p.AllEnded := by
    simp [PodLaunch.AllEnded, ← Bool.not_eq_true, imp_iff_not_or]
  unfold State.podSettle
  rw [h]
  dsimp only
  refine ⟨fun ha => ?_, fun ha => ?_⟩
  · rw [if_pos (hall.2 ha)]; rfl
  · rw [if_neg (mt hall.1 ha)]; exact h

theorem PodLaunch.not_any_part {p : PodLaunch} (hn : ∀ e ∈ p.parts, e.1 ≠ target) : (p.parts.any fun e => e.1 == target) = false := by
  rw [List.any_eq_false]
  exact fun e he => by simpa using hn e he

/-- The end of a target's part is recorded, and the launch ends with the last. -/
theorem State.launch_podPart {st : Status} {cause : Nat} (h : s.pod.launch = some p) (ht : target ∈ s.others p.mask)
    (hn : ∀ e ∈ p.parts, e.1 ≠ target) :
    ((p.withPart target st cause).AllEnded → (s.podPart target st cause 0).pod.launch = none)
    ∧ (¬(p.withPart target st cause).AllEnded →
        (s.podPart target st cause 0).pod.launch = some (p.withPart target st cause)) := by
  have hself : target ≠ s.pod.self := by
    have := (List.mem_filter.1 ht).2
    simp only [Bool.and_eq_true, bne_iff_ne, ne_eq] at this
    exact this.2
  refine State.launch_podSettle ?_
  change Option.map _ s.pod.launch = _
  rw [h, Option.map_some, if_neg (by simp [PodLaunch.not_any_part hn]), if_neg hself]
  rfl

theorem donePod_effect {st : Status} {cause : Nat} (hp : s.pod.launch = some p) (ht : target ∈ s.others p.mask)
    (hn : ∀ e ∈ p.parts, e.1 ≠ target) (hg : p.gen = gen) (hst : p.st ≠ .gathering) (hcode : Status.ofCode st.code = st) :
    Completes (.donePod target gen st.code cause) s fun t =>
      ((p.withPart target st cause).AllEnded → t.pod.launch = none)
      ∧ (¬(p.withPart target st cause).AllEnded → t.pod.launch = some (p.withPart target st cause)) := by
  refine ⟨s.podPart target st cause 0, ?_, State.launch_podPart hp ht hn⟩
  rw [exec_donePod]
  unfold execDonePod
  rw [hp, hcode]
  exact if_pos ⟨hg, hst, by simpa using ht⟩

theorem podTargetSessionEnd_effect (hp : s.pod.launch = some p) (ht : target ∈ s.others p.mask)
    (hn : ∀ e ∈ p.parts, e.1 ≠ target) (hst : p.st = .running) (hl : s.linked target = false) :
    Completes (.podTargetSessionEnd target) s fun t =>
      t.pod.launch = none ∨ ∃ x, t.pod.launch = some x ∧ (target, Status.unreachable, 0) ∈ x.parts := by
  refine ⟨(s.podPart target .unreachable 0 0).signal 0 6, ?_, ?_⟩
  · rw [exec_podTargetSessionEnd]
    unfold execPodTargetSessionEnd
    rw [hp]
    exact if_pos ⟨hst, by simpa using ht, by simp [hl], by simp [PodLaunch.not_any_part hn]⟩
  · obtain ⟨hall, hsome⟩ := State.launch_podPart (st := .unreachable) (cause := 0) hp ht hn
    by_cases ha : (p.withPart target .unreachable 0).AllEnded
    · exact .inl (hall ha)
    · exact .inr ⟨_, hsome ha, List.mem_append_right _ (List.mem_singleton_self _)⟩

/-- Settles O44: a flit is taken by the checks that it fails or passes, what is sent stays sent (`State.Stands.sent`), and a pod
launch settles with its last part (`State.launch_podSettle`). -/
theorem podLinksAndLaunches : Obligations.PodLinksAndLaunches := by
  unfold Obligations.PodLinksAndLaunches
  intro s port fn gen digest parts target flit p node args st cause t0 members routes
  refine ⟨flitReceive_crcFails, flitReceive_tagFails, flitReceive_load, flitReceive_forwards, portRetrainComplete_effect,
    podMemberList_effect, preparePod_ready, preparePod_refuses, startPod_starts, startPod_busy, abortPod_effect,
    podReservationLapse_effect s fn gen, podStartTime_effect s,
    fun hp hst ht => ⟨readyPod_effect hp hst ht, refusePod_effect hp hst ht⟩, podPrepareTimeout_effect, ?_, ?_⟩
  · rintro ⟨hp, ht, hn⟩ hg hst hcode
    exact donePod_effect hp ht hn hg hst hcode
  · rintro ⟨hp, ht, hn⟩ hst hl
    exact podTargetSessionEnd_effect hp ht hn hst hl
end

end Sys2Proof.Machine
end

