-- ==== Sys2Proof/Proofs/Launches.lean ====
section
/-! Launches: their turn (R91), the partitions that they take (R79), pod launches (R37), the start of a cell (R59, R104), and the
escalation of a graph (R91). -/

namespace Sys2Proof.Machine

section
variable {s t u : State} {fn q n id : Nat} {b : List Byte} {l : Launch} {x : LaunchNode}

/-! ### The order of dispatch (R91) -/

theorem keyLt_irrefl (k : List Nat) : keyLt k k = false := by
  induction k with
  | nil => rfl
  | cons a k ih => simp [keyLt, ih]

/-- What follows a key decides nothing against keys of its length. -/
theorem keyLt_append {k k' : List Nat} (h : k.length = k'.length) (r : List Nat) : keyLt k (k' ++ r) = keyLt k k' := by
  induction k generalizing k' with
  | nil => rw [List.length_nil] at h; rw [List.eq_nil_of_length_eq_zero h.symm]; rfl
  | cons a k ih =>
    cases k' with
    | nil => cases h
    | cons b k' => simp only [List.cons_append, keyLt, ih (Nat.succ.inj h)]

/-- What could be dispatched now: nodes that are ready and no launches yet, and launches that could run. -/
theorem State.mem_candidates {k : List Nat} : k ∈ s.candidates ↔
    (∃ f ∈ s.funcs, f.1 ≠ 0 ∧ ∃ e ∈ f.2.queues, ∃ g, e.2.graph = some g ∧ ∃ i ∈ g.ready,
      s.launchOf f.1 e.1 i = none ∧ s.nodeKey f.1 e.1 i g.level = k)
    ∨ ∃ e ∈ s.launches, s.couldRun e.2 = true ∧ s.launchKey e.1 e.2 = k := by
  unfold State.candidates
  rw [List.mem_append, List.mem_flatMap]
  refine or_congr (exists_congr fun f => and_congr_right fun _ => ?_) (by simp [and_assoc])
  by_cases hf : f.1 = 0
  · simp [hf]
  · rw [if_neg hf, List.mem_flatMap]
    simp only [ne_eq, hf, not_false_eq_true, true_and]
    refine exists_congr fun e => and_congr_right fun _ => ?_
    cases e.2.graph with
    | none => simp
    | some g => simp [and_assoc]

theorem State.launchOf_of_nil (h : s.launches = []) : s.launchOf fn q n = none := by
  unfold State.launchOf
  rw [h]
  rfl

/-- A node whose turn it is stays first when it becomes the only launch: no other node comes before it, and its launch does not
come before itself. -/
theorem State.isTurn_addLaunch {k : List Nat} (hl : s.launches = []) (hlen : k.length = 4) (ht : s.isTurn k = true)
    (hk : (s.addLaunch l).launchKey s.nextLaunch l = k ++ [s.nextLaunch]) :
    (s.addLaunch l).isTurn ((s.addLaunch l).launchKey s.nextLaunch l) = true := by
  unfold State.isTurn at ht ⊢
  rw [List.all_eq_true] at ht ⊢
  intro k' hk'
  rcases State.mem_candidates.1 hk' with ⟨f, hf, hf0, e, he, g, hg, i, hi, -, rfl⟩ | ⟨e, he, -, rfl⟩
  · have hs : s.nodeKey f.1 e.1 i g.level ∈ s.candidates :=
      State.mem_candidates.2 (.inl ⟨f, hf, hf0, e, he, g, hg, i, hi, State.launchOf_of_nil hl, rfl⟩)
    rw [hk, keyLt_append (k := (s.addLaunch l).nodeKey f.1 e.1 i g.level) hlen.symm]
    exact ht _ hs
  · change e ∈ Map.put s.launches s.nextLaunch l at he
    rw [hl] at he
    rw [List.mem_singleton.1 he, keyLt_irrefl]
    rfl

/-! ### A node that becomes a launch (R88, R102) -/

/-- Only a virtual function passes the checks of a launch, and its world may run. -/
theorem State.of_launchCheck_ok {parts : List Nat} {ctx handle kernel w : Nat}
    (h : s.launchCheck fn parts ctx handle kernel = .ok w) :
    fn ≠ 0 ∧ ∃ v, s.world? w = some v ∧ v.st ≠ .ending ∧ v.held = false := by
  unfold State.launchCheck at h
  split at h
  · cases h
  · next hp =>
    have hfn : fn ≠ 0 := by
      rintro rfl
      cases parts with
      | nil => simp at hp
      | cons p r => simp [State.owns] at hp
    refine ⟨hfn, ?_⟩
    split at h
    · cases h
    · next w' v hw =>
      obtain ⟨w'', -, hw⟩ := Option.bind_eq_some_iff.1 hw
      obtain ⟨v', hv', e⟩ := Option.map_eq_some_iff.1 hw
      cases e
      split at h
      · cases h
      · next hv =>
        have hw : w' = w := by
          split at h
          · cases h
          · split at h
            · cases h
            · split at h
              · exact Except.ok.inj h
              · cases h
        rw [← hw]
        exact ⟨v, hv', fun e => hv (.inl e), by simpa using fun e => hv (.inr e)⟩

/-- A node that is ready is idle in its graph, and so not dispatched. -/
theorem State.of_readyNode {ty : Nat} (h : s.readyNode fn q n ty = some b) :
    (∃ g, (s.queue fn q).graph = some g ∧ g.isReady n = true ∧ g.st[n]? = some .idle) ∧ s.nodeOf fn q n ty = none := by
  unfold State.readyNode at h
  split at h
  · cases h
  · next g hg =>
    split at h
    · next hr _ =>
      have hi : g.st[n]? = some .idle := by
        simp only [Graph.isReady, Bool.and_eq_true, beq_iff_eq] at hr
        exact hr.1.2
      refine ⟨⟨g, hg, hr, hi⟩, ?_⟩
      unfold State.nodeOf
      rw [hg]
      dsimp only
      rw [hi]
    · cases h

/-! ### Launches that take their partitions (R79, R91) -/

/-- A launch takes partitions: cells, partitions and the images of launches may change, and its own record but for the scratch
that its image then holds stays. -/
structure State.Gives (u s : State) (id : Nat) (l : Launch) : Prop where
  frame  : s = { u with launches := s.launches, cells := s.cells, parts := s.parts }
  record : ∃ k, Map.get? s.launches id = some { l with withScratch := k }

theorem State.Gives.nextLaunch (h : u.Gives s id l) : s.nextLaunch = u.nextLaunch := by rw [h.frame]

theorem State.Gives.launches {L : Map Launch} (h : u.Gives s id l) (hL : ∃ k, Map.get? L id = some { l with withScratch := k }) :
    u.Gives { s with launches := L } id l := ⟨by rw [h.frame], hL⟩

theorem State.Gives.onCell {m : Nat} {f : Cell → Cell} (h : u.Gives s id l) : u.Gives (s.onCell m f) id l :=
  ⟨h.frame ▸ rfl, h.record⟩

theorem State.Gives.foldl {α : Type} {f : State → α → State} {k : List α} (h : u.Gives s id l)
    (hf : ∀ s a, u.Gives s id l → u.Gives (f s a) id l) : u.Gives (k.foldl f s) id l := by
  induction k generalizing s with
  | nil => exact h
  | cons a k ih => exact ih (hf s a h)

theorem State.Gives.zeroStores {p : Nat} (h : u.Gives s id l) : u.Gives (s.zeroStores p) id l := h.foldl fun _ _ h => h.onCell

theorem State.Gives.onPart {p : Nat} {f : Part → Part} (h : u.Gives s id l) : u.Gives (s.onPart p f) id l :=
  ⟨h.frame ▸ rfl, h.record⟩

theorem State.Gives.ite {c : Prop} {_ : Decidable c} (hs : u.Gives s id l) (ht : u.Gives t id l) :
    u.Gives (if c then s else t) id l := by
  split
  · exact hs
  · exact ht

theorem State.Gives.takePart {l' : Launch} {p : Nat} (h : u.Gives s id l) : u.Gives (s.takePart id l' p) id l := by
  unfold State.takePart
  refine State.Gives.onPart (State.Gives.ite (State.Gives.zeroStores ?_) h)
  split
  · refine h.launches ?_
    rw [Map.get?_map fun e => by split <;> rfl]
    obtain ⟨k, hk⟩ := h.record
    rw [hk]
    dsimp only [Option.map_some]
    split
    · exact ⟨_, rfl⟩
    · exact ⟨k, rfl⟩
  · exact h

/-- A launch holds a partition. -/
def State.Holds (s : State) (id p : Nat) : Prop := (s.part p).running = some id ∧ (s.part p).st = .running

theorem State.holds_takePart_self (s : State) (id : Nat) (l : Launch) (p : Nat) : (s.takePart id l p).Holds id p := by
  unfold State.Holds State.takePart
  dsimp only
  rw [State.onPart_eq, State.part_setPart_self]
  exact ⟨rfl, rfl⟩

theorem State.parts_zeroStores (s : State) (p : Nat) : (s.zeroStores p).parts = s.parts := by
  unfold State.zeroStores
  generalize cellsOfPart p = k
  induction k generalizing s with
  | nil => rfl
  | cons n k ih => exact ih _

theorem State.part_takePart_of_ne (s : State) (id : Nat) (l : Launch) {p r : Nat} (h : r ≠ p) :
    (s.takePart id l p).part r = s.part r := by
  unfold State.takePart
  dsimp only
  rw [State.onPart_eq, State.part_setPart_of_ne _ _ h]
  unfold State.part
  split
  · rw [State.parts_zeroStores]
    split <;> rfl
  · rfl

theorem State.Holds.takePart {p r : Nat} (h : s.Holds id r) : (s.takePart id l p).Holds id r := by
  by_cases hr : r = p
  · subst hr; exact s.holds_takePart_self id l r
  · unfold State.Holds
    rw [s.part_takePart_of_ne id l hr]
    exact h

theorem State.holds_takeParts {p : Nat} (k : List Nat) (s : State) (h : p ∈ k ∨ s.Holds id p) :
    (k.foldl (fun s p => s.takePart id l p) s).Holds id p := by
  induction k generalizing s with
  | nil => exact h.resolve_left (by simp)
  | cons r k ih =>
    refine ih _ ?_
    rcases h with h | h
    · rcases List.mem_cons.1 h with rfl | h
      · exact .inr (s.holds_takePart_self id l _)
      · exact .inl h
    · exact .inr h.takePart

theorem State.graph_onQueue {g : Queue → Queue} (hg : ∀ v, (g v).graph = v.graph) (f k : Nat) :
    ((s.onQueue fn q g).queue f k).graph = (s.queue f k).graph := by
  rw [State.onQueue_eq]
  by_cases h : f = fn ∧ k = q
  · obtain ⟨rfl, rfl⟩ := h
    rw [State.queue_setQueue_self, hg]
  · rw [State.queue_setQueue_of_ne s _ h]

/-- A queue without dispatches left in its turn. -/
def Queue.spent (v : Queue) : Queue := { v with credit := 0 }

/-- The turns of a function's queues end. -/
def State.endTurns (s : State) (fn : Nat) : State :=
  s.onFunc fn fun f => { f with queues := f.queues.map fun e => (e.1, e.2.spent) }

theorem State.graph_endTurns (s : State) (fn f k : Nat) : ((s.endTurns fn).queue f k).graph = (s.queue f k).graph := by
  unfold State.endTurns State.queue
  rw [State.onFunc_eq]
  by_cases h : f = fn
  · subst h
    rw [State.func_setFunc_self]
    unfold Func.queue Map.get
    dsimp only
    rw [Map.get?_mapValues Queue.spent]
    cases Map.get? (s.func f).queues k <;> rfl
  · rw [State.func_setFunc_of_ne s _ h]

/-- A queue that is served ends the turns of its function's queues, and gives one its credit; graphs stay. -/
theorem State.serve_cases (s : State) (fn q : Nat) : ∃ k g, (∀ v : Queue, (g v).graph = v.graph)
    ∧ s.serve fn q = { (s.endTurns fn).onQueue fn k g with lastVf := fn } := by
  unfold State.serve
  extract_lets v left a nx c
  by_cases h : left = 0
  · exact ⟨nx, fun x => { x with credit := max 1 x.weight }, fun _ => rfl, by rw [show c = _ from if_pos h]; rfl⟩
  · exact ⟨q, fun x => { x with credit := left }, fun _ => rfl, by rw [show c = _ from if_neg h]; rfl⟩

theorem State.graph_serve (s : State) (fn q f k : Nat) : ((s.serve fn q).queue f k).graph = (s.queue f k).graph := by
  obtain ⟨j, g, hg, e⟩ := s.serve_cases fn q
  rw [e]
  exact (State.graph_onQueue hg f k).trans (s.graph_endTurns fn f k)

theorem State.serve_frame (s : State) (fn q : Nat) :
    s.serve fn q = { s with funcs := (s.serve fn q).funcs, lastVf := (s.serve fn q).lastVf } := by
  obtain ⟨j, g, -, e⟩ := s.serve_cases fn q
  rw [e]
  rfl

/-- The state in which a launch of a node has taken its partitions. -/
def State.taken (s : State) (id : Nat) (l : Launch) : State :=
  (l.parts.foldl (fun s p => s.takePart id l p) (s.markNode l.fn l.q l.node)).serve l.vf l.q

theorem State.gives_takeParts (h : Map.get? s.launches id = some l) :
    (s.markNode l.fn l.q l.node).Gives (l.parts.foldl (fun s p => s.takePart id l p) (s.markNode l.fn l.q l.node)) id l :=
  State.Gives.foldl ⟨rfl, l.withScratch, h⟩ fun _ _ h => h.takePart

theorem State.record_taken (h : Map.get? s.launches id = some l) :
    ∃ k, Map.get? (s.taken id l).launches id = some { l with withScratch := k } := by
  unfold State.taken
  rw [State.serve_frame]
  exact (State.gives_takeParts h).record

theorem State.nextLaunch_taken (h : Map.get? s.launches id = some l) : (s.taken id l).nextLaunch = s.nextLaunch := by
  unfold State.taken
  rw [State.serve_frame]
  exact (State.gives_takeParts h).nextLaunch

theorem State.holds_taken (s : State) (id : Nat) (l : Launch) {p : Nat} (h : p ∈ l.parts) : (s.taken id l).Holds id p := by
  unfold State.taken
  rw [State.serve_frame]
  exact State.holds_takeParts l.parts _ (.inl h)

theorem State.graph_taken (h : Map.get? s.launches id = some l) (f k : Nat) :
    ((s.taken id l).queue f k).graph = ((s.markNode l.fn l.q l.node).queue f k).graph := by
  unfold State.taken
  rw [State.graph_serve, (State.gives_takeParts h).frame]
  rfl

/-- A node that is ready is dispatched when it is marked. -/
theorem State.graph_markNode {g : Graph} (hg : (s.queue fn q).graph = some g) (hr : g.isReady n = true) :
    ((s.markNode fn q n).queue fn q).graph
      = some { g with st := g.st.set n .dispatched, started := Map.put g.started n s.timebase } := by
  unfold State.markNode
  rw [State.onQueue_eq, State.queue_setQueue_self]
  dsimp only
  rw [hg, Option.map_some, Graph.mark, if_pos hr]

/-- A launch of a node whose partitions are free and whose turn it is takes them and starts. -/
theorem State.dispatchLaunch_starts (h : Map.get? s.launches id = some l) (hst : l.st = .waiting) (hpod : l.pod = none)
    (hmay : s.mayDispatch l = true) (hfree : ∀ p ∈ l.parts, s.partFree p = true) (hnext : s.isNext id l = true)
    (hturn : s.isTurn (s.launchKey id l) = true) : ∃ k, s.dispatchLaunch id = { s.taken id l with
      launches := Map.put (s.taken id l).launches id { l with withScratch := k, st := .starting, started := [], held := 0 } } := by
  obtain ⟨k, hk⟩ := State.record_taken h
  refine ⟨k, ?_⟩
  unfold State.dispatchLaunch
  rw [h]
  dsimp only
  rw [if_neg (by simp [Launch.isReady, hst, hmay]),
    if_neg (by rw [List.all_eq_true.2 hfree, hnext, hturn]; simp), if_neg (by simp [hpod])]
  unfold State.taken at hk ⊢
  rw [hk]
  dsimp only
  rw [hst]

theorem State.dispatches_taken {g : Graph} (h : Map.get? s.launches id = some l) (hg : (s.queue l.fn l.q).graph = some g)
    (hr : g.isReady l.node = true) (hi : g.st[l.node]? = some .idle) : Dispatches (s.taken id l) l.fn l.q l.node := by
  obtain ⟨hlt, -⟩ := List.getElem?_eq_some_iff.1 hi
  exact ⟨_, (State.graph_taken h _ _).trans (State.graph_markNode hg hr), List.getElem?_set_self hlt⟩

/-- The launch that a node without the pod flag becomes once its checks have passed. -/
def State.launchOfNode (s : State) (fn q n w : Nat) (x : LaunchNode) (args : List Word) : Launch :=
  newLaunch fn q n w x (s.launchConfigs w x.handle) args (budgetOf x.wdogUs (s.queue fn q).wdog)
    (((s.queue fn q).graph.map (·.level)).getD 3) none

theorem exec_launch_ready {w : Nat} {args : List Word} (h : Ready s fn q n 0x01 b) (hl : s.launches = [])
    (hc : s.launchCheck fn (launchNodeOf b).parts (launchNodeOf b).ctx (launchNodeOf b).handle (launchNodeOf b).kernel = .ok w)
    (ha : s.readArgs fn (launchNodeOf b) = some args) (hp : (launchNodeOf b).pod = false) :
    exec (.launch fn q n) s
      = .next ((s.addLaunch (s.launchOfNode fn q n w (launchNodeOf b) args)).dispatchLaunch s.nextLaunch) := by
  obtain ⟨hnode, -, hwalks⟩ := h
  obtain ⟨-, hno⟩ := State.of_readyNode hnode
  rw [exec_launch]
  unfold execLaunch
  rw [State.launchOf_of_nil hl, hno, hnode]
  dsimp only [Option.or]
  rw [if_pos hwalks]
  unfold State.launchNode
  rw [if_neg (by simp [hp]), hc]
  dsimp only
  rw [ha]
  rfl

/-- A launch has its node's place, and then the order of arrival. -/
theorem State.launchKey_addLaunch {g : Graph} (hp : l.pod = none) (hg : (s.queue l.fn l.q).graph = some g) :
    (s.addLaunch l).launchKey s.nextLaunch l = s.nodeKey l.vf l.q l.node g.level ++ [s.nextLaunch] := by
  have hlevel : (s.addLaunch l).levelOf l = g.level := by
    unfold State.levelOf
    rw [show ((s.addLaunch l).queue l.fn l.q).graph = some g from hg]
    exact if_neg (by simp [hp])
  unfold State.launchKey
  rw [hlevel]
  rfl

theorem State.isTurn_of_nodeTurn {g : Graph} (h : s.nodeTurn fn q n = true) (hfn : fn ≠ 0)
    (hg : (s.queue fn q).graph = some g) : s.isTurn (s.nodeKey fn q n g.level) = true := by
  unfold State.nodeTurn at h
  rw [hg] at h
  dsimp only at h
  rw [if_neg hfn, Bool.and_eq_true] at h
  exact h.2

/-- The only launch is the next for each of its partitions. -/
theorem State.isNext_addLaunch (h : s.launches = []) (l : Launch) : (s.addLaunch l).isNext s.nextLaunch l = true := by
  have hl : (s.addLaunch l).launches = [(s.nextLaunch, l)] := by
    change Map.put s.launches s.nextLaunch l = _
    rw [h]
    rfl
  unfold State.isNext
  rw [hl]
  simp

theorem State.mayDispatch_of {v : World} (hv : s.world? l.world = some v) (hst : v.st ≠ .ending) (hheld : v.held = false)
    (htdi : (s.func l.vf).tdi ≠ .error) (hwalks : s.walks = true) : s.mayDispatch l = true := by
  unfold State.mayDispatch
  rw [hv, hwalks]
  simp [hst, hheld, htdi]

/-- A node whose turn it is becomes the only launch, takes its free partitions and starts. -/
theorem State.dispatchLaunch_addLaunch {g : Graph} (hst : l.st = .waiting) (hpod : l.pod = none) (hl : s.launches = [])
    (hmay : s.mayDispatch l = true) (hfree : ∀ p ∈ l.parts, s.partFree p = true) (hg : (s.queue l.fn l.q).graph = some g)
    (hr : g.isReady l.node = true) (hi : g.st[l.node]? = some .idle)
    (hturn : s.isTurn (s.nodeKey l.vf l.q l.node g.level) = true) :
    let t := (s.addLaunch l).dispatchLaunch s.nextLaunch
    (∃ k, Map.get? t.launches s.nextLaunch = some { l with withScratch := k, st := .starting, started := [], held := 0 })
    ∧ Dispatches t l.fn l.q l.node ∧ t.nextLaunch = s.nextLaunch + 1 ∧ ∀ p ∈ l.parts, t.Holds s.nextLaunch p := by
  have hget : Map.get? (s.addLaunch l).launches s.nextLaunch = some l := Map.get?_put_self _ _ _
  obtain ⟨k, e⟩ := State.dispatchLaunch_starts hget hst hpod hmay hfree (State.isNext_addLaunch hl l)
    (State.isTurn_addLaunch hl rfl hturn (State.launchKey_addLaunch hpod hg))
  have hd := State.dispatches_taken hget hg hr hi
  have hn := State.nextLaunch_taken hget
  have hh (p) (hp : p ∈ l.parts) := (s.addLaunch l).holds_taken s.nextLaunch l hp
  dsimp only
  rw [e]
  generalize (s.addLaunch l).taken s.nextLaunch l = t at hd hn hh ⊢
  exact ⟨⟨k, Map.get?_put_self _ _ _⟩, hd, hn, hh⟩

theorem launch_effect {w : Nat} {args : List Word} (h : Ready s fn q n 0x01 b)
    (hchecks : s.launchCheck fn (launchNodeOf b).parts (launchNodeOf b).ctx (launchNodeOf b).handle (launchNodeOf b).kernel = .ok w
      ∧ s.readArgs fn (launchNodeOf b) = some args)
    (hp : (launchNodeOf b).pod = false) (hl : s.launches = []) (htdi : (s.func fn).tdi ≠ .error)
    (hfree : ∀ p ∈ (launchNodeOf b).parts, s.partFree p = true) : Completes (.launch fn q n) s fun t =>
      (∃ l, Map.get? t.launches s.nextLaunch = some l ∧ l.st = .starting ∧ l.world = w ∧ l.args = args
        ∧ l.parts = (launchNodeOf b).parts)
      ∧ Dispatches t fn q n ∧ t.nextLaunch = s.nextLaunch + 1
      ∧ ∀ p ∈ (launchNodeOf b).parts, (t.part p).running = some s.nextLaunch ∧ (t.part p).st = .running := by
  obtain ⟨hc, ha⟩ := hchecks
  obtain ⟨hfn, v, hv, hst, hheld⟩ := State.of_launchCheck_ok hc
  obtain ⟨⟨g, hg, hready, hidle⟩, -⟩ := State.of_readyNode h.node
  refine ⟨_, exec_launch_ready h hl hc ha hp, ?_⟩
  obtain ⟨⟨k, hk⟩, hd, hn, hholds⟩ :=
    State.dispatchLaunch_addLaunch (l := s.launchOfNode fn q n w (launchNodeOf b) args) rfl rfl hl
      (State.mayDispatch_of hv hst hheld htdi h.walks) hfree hg hready hidle (State.isTurn_of_nodeTurn h.turn hfn hg)
  exact ⟨⟨_, hk, rfl, rfl, rfl, rfl⟩, hd, hn, hholds⟩

/-! ### Pod launches (R37) -/

theorem podLaunch_effect {w : Nat} {args : List Word} (h : Dispatched s fn q n 0x01 b)
    (hchecks : s.launchCheck fn (launchNodeOf b).parts (launchNodeOf b).ctx (launchNodeOf b).handle (launchNodeOf b).kernel = .ok w
      ∧ s.readArgs fn (launchNodeOf b) = some args)
    (hp : (launchNodeOf b).pod = true) (hl : s.pod.launch = none) (hself : (launchNodeOf b).targets.testBit s.pod.self = true)
    (hm : ∀ m ∈ s.others (launchNodeOf b).targets, ∃ k ∈ s.pod.members, k.module = m)
    (ho : s.others (launchNodeOf b).targets ≠ []) : Completes (.podLaunch fn q n) s fun t =>
      (∃ y, t.pod.launch = some y ∧ y.st = .gathering ∧ y.mask = (launchNodeOf b).targets ∧ y.gen = (launchNodeOf b).podGen
        ∧ y.args = args ∧ y.since = s.timebase)
      ∧ ∀ m ∈ s.others (launchNodeOf b).targets, ∃ d parts,
        Sent t m (.pod (.prepare fn (launchNodeOf b).targets (launchNodeOf b).podGen d parts)) := by
  obtain ⟨hnode, hwalks⟩ := h
  obtain ⟨hc, ha⟩ := hchecks
  unfold Completes
  rw [exec_podLaunch]
  unfold execPodLaunch State.withNode
  rw [hnode]
  dsimp only
  rw [if_pos (by simp [hwalks]), if_neg (by simp [hp, hl]), if_neg (by simp [hself]), if_neg (by simpa using hm), hc]
  dsimp only
  rw [ha]
  dsimp only
  rw [if_neg (by rw [List.isEmpty_iff]; exact ho)]
  refine ⟨_, rfl, ⟨_, ((State.Sends.refl _).sendPod).podLaunch, rfl, rfl, rfl, rfl, rfl⟩, ?_⟩
  exact fun m hm => ⟨_, _, State.sent_sendPod (by exact hm) _⟩

/-! ### The start of a cell (R59, R104) -/

/-- The configurations that a cell fetches enter its cache alone. -/
theorem Cell.prefetch_frame (c : Cell) (k : Package) (configs : List W32) :
    c.prefetch k configs = { c with cache := (c.prefetch k configs).cache } := by
  unfold Cell.prefetch
  induction configs generalizing c with
  | nil => rfl
  | cons ident r ih =>
    rw [List.foldl_cons, ih]
    split
    · unfold Cell.cacheLoad
      split <;> rfl
    · rfl

theorem Cell.reg_start (c : Cell) (i : Ident) (k : Kernel) (args : List Word) (r : Reg) :
    (c.start i k args).reg r = if r = 0 then 0 else args.getD (r.toNat - 1) 0 := by
  unfold Cell.reg
  split
  · rfl
  · next hr =>
    have hn : r.toNat ≠ 0 := fun h => hr (BitVec.eq_of_toNat_eq h)
    change (launchRegs args)[r.toNat] = _
    unfold launchRegs
    rw [Vector.getElem_ofFn]
    exact if_neg hn

/-- A package whose code or configurations do not agree with their digests goes, and its world ends. -/
theorem State.packageBroken_effect {w handle cell : Nat} {v : World} (h : s.world? w = some v) :
    ∃ v', (s.packageBroken w handle cell).world? w = some v' ∧ v'.st = .ending ∧ Map.get? v'.packages handle = none := by
  let a := s.onWorld w fun v => { v with packages := Map.erase v.packages handle }
  have ha : a.world? w = some { v with packages := Map.erase v.packages handle } := by
    change (State.onWorld _ _ _).world? w = _
    unfold State.onWorld
    rw [h]
    exact State.world?_setWorld_self _ _ _
  obtain ⟨v', hv', hst⟩ := a.endWorld_ending Cause.sealFail.code cell 0 ha
  refine ⟨v', hv', hst, ?_⟩
  have hn := ((State.Stands.refl a).endWorld (w := w) (cause := Cause.sealFail.code) (cell := cell) (epoch := 0)).same.packages
    w handle (by unfold State.package?; rw [ha]; exact Map.get?_erase_self _ _)
  unfold State.package? at hn
  rwa [hv'] at hn

/-- A cell at its first instruction, with the listed configurations fetched. -/
theorem Cell.started_effect (c : Cell) (i : Ident) (k : Kernel) (args : List Word) (from_ : Nat) (pk : Package)
    (configs : List W32) :
    let t := ({ c.start i k args with classFrom := from_ } : Cell).prefetch pk configs
    t.run = .running ∧ t.seq.pc = BitVec.ofNat 64 k.entry ∧ t.code = k.code ∧ t.ident = i
    ∧ (∀ r : Reg, t.reg r = if r = 0 then 0 else args.getD (r.toNat - 1) 0) ∧ t.scratch = c.scratch := by
  dsimp only
  rw [Cell.prefetch_frame]
  exact ⟨rfl, rfl, rfl, rfl, c.reg_start i k args, rfl⟩

/-- The identity of a cell of a launch. -/
def Launch.ident (l : Launch) (id cell : Nat) : Ident where
  part := partOfCell cell
  vf := l.vf
  world := l.world
  ctx := l.ctx
  gen := l.gen
  tw := l.tw
  handle := l.handle
  kernel := l.kernel
  launch := id

theorem cellStart_effect {cell : Nat} {v : World} {pk : Package} {k : Kernel} (hl : Map.get? s.launches id = some l)
    (hst : l.st = .starting) (hp : partOfCell cell ∈ l.parts) (hcell : cell ∈ cellsOfPart (partOfCell cell))
    (hs : cell ∉ l.started) (hv : s.world? l.world = some v) (hpk : Map.get? v.packages l.handle = some pk)
    (hk : pk.kernels[l.kernel]? = some k) : Completes (.cellStart id cell) s fun t =>
      if k.codeOk = true ∧ (pk.blocksOk = true ∨ l.configs = []) then
        (t.cell cell).run = .running ∧ (t.cell cell).seq.pc = BitVec.ofNat 64 k.entry ∧ (t.cell cell).code = k.code
        ∧ (t.cell cell).ident.world = l.world ∧ (t.cell cell).ident.launch = id
        ∧ (∀ r : Reg, (t.cell cell).reg r = if r = 0 then 0 else l.args.getD (r.toNat - 1) 0)
        ∧ (t.cell cell).scratch = (s.cell cell).scratch ∧ SameMemory s t
      else ∃ v', t.world? l.world = some v' ∧ v'.st = .ending ∧ Map.get? v'.packages l.handle = none := by
  have hfound : ((s.package? l.world l.handle).bind fun pk => (pk.kernels[l.kernel]?).map fun k => (pk, k)) = some (pk, k) := by
    unfold State.package?
    rw [hv, Option.bind_some, hpk, Option.bind_some, hk]
    rfl
  have hbad : (!k.codeOk || !(pk.blocksOk || l.configs.isEmpty)) = true
      ↔ ¬ (k.codeOk = true ∧ (pk.blocksOk = true ∨ l.configs = [])) := by
    cases k.codeOk <;> cases pk.blocksOk <;> simp
  unfold Completes
  rw [exec_cellStart]
  unfold execCellStart
  rw [hl]
  dsimp only
  rw [if_neg (by simp [hst, hp, hcell, hs]), hfound]
  dsimp only
  by_cases hok : k.codeOk = true ∧ (pk.blocksOk = true ∨ l.configs = [])
  · rw [if_neg fun h => hbad.1 h hok]
    refine ⟨_, rfl, ?_⟩
    rw [if_pos hok, State.onCell_eq, State.cell_setCell_self]
    obtain ⟨hrun, hpc, hcode, hident, hreg, hscratch⟩ :=
      (s.cell cell).started_effect (l.ident id cell) k l.args s.timebase pk l.configs
    exact ⟨hrun, hpc, hcode, congrArg Ident.world hident, congrArg Ident.launch hident, hreg, hscratch, fun _ => rfl, fun _ => rfl⟩
  · rw [if_pos (hbad.2 hok)]
    refine ⟨_, rfl, ?_⟩
    rw [if_neg hok]
    exact State.packageBroken_effect hv

/-! ### Escalation (R91) -/

theorem escalationTimeout_effect {g : Graph} (hg : (s.queue fn q).graph = some g) (hlevel : g.level ≠ 0) (ho : s.overdue g = true) :
    Completes (.escalationTimeout fn q) s fun t =>
      (t.queue fn q).graph = some { g with level := g.level - 1, waitSince := s.timebase } := by
  have hcall (k : List (Nat × Launch)) (u : State) :
      (k.foldl (fun s e => s.callFor e.2) u).queue fn q = u.queue fn q := by
    induction k generalizing u with
    | nil => rfl
    | cons e k ih => exact ih _
  unfold Completes
  rw [exec_escalationTimeout]
  unfold execEscalationTimeout
  rw [hg]
  dsimp only
  rw [if_neg (by simp [hlevel, ho])]
  refine ⟨_, rfl, ?_⟩
  rw [hcall, State.queue_onQueue_self]

/-- Settles O46: the node whose turn it is stays first when it becomes a launch (`State.isTurn_addLaunch`), which then takes its
partitions (`State.dispatchLaunch_starts`); a cell starts as `Cell.start` says, or its package goes
(`State.packageBroken_effect`). -/
theorem launchesStart : Obligations.LaunchesStart := by
  unfold Obligations.LaunchesStart
  intro s fn q n b w args id cell l v pk k g
  exact ⟨launch_effect, podLaunch_effect, cellStart_effect, escalationTimeout_effect⟩
end

end Sys2Proof.Machine
end

