-- ==== Sys2Proof/Proofs/Wanes.lean ====
section
/-! What ends, write-backs and errors never bring back: a Commons line, a context or a reset that is gone. And what they let
stand: each dispatched node, each world and the end that an Ending world has met, retired groups and quarantined ways (R44, R89, R148,
R271 to R278). -/

namespace Sys2Proof.Machine

/-- A partition takes no context, and no reset that a launch waits for. -/
def Part.Wanes (v v' : Part) : Prop :=
  (∀ c, Map.get? v.ctxs c = none → Map.get? v'.ctxs c = none) ∧ ∀ e, v'.resetOf = some e → v.resetOf = some e

/-- A world that is Ending keeps its end. -/
def World.Wanes (v v' : World) : Prop :=
  v.st = .ending → v'.st = .ending ∧ v'.endCause = v.endCause ∧ v'.endTime = v.endTime

structure State.Wanes (u s : State) : Prop where
  lines       : ∀ k, Map.get? u.lines k = none → Map.get? s.lines k = none
  parts       : ∀ p, (u.part p).Wanes (s.part p)
  nodes       : ∀ fn q n, Dispatches u fn q n → Dispatches s fn q n
  worlds      : ∀ w v, u.world? w = some v → ∃ v', s.world? w = some v' ∧ v.Wanes v'
  retired     : u.retired ⊆ s.retired
  quarantined : u.quarantined ⊆ s.quarantined

section
variable {s t u : State}

theorem Part.Wanes.refl (v : Part) : v.Wanes v := ⟨fun _ => id, fun _ => id⟩

theorem World.Wanes.refl (v : World) : v.Wanes v := fun h => ⟨h, rfl, rfl⟩

theorem State.Wanes.refl (s : State) : s.Wanes s :=
  ⟨fun _ => id, fun _ => .refl _, fun _ _ _ => id, fun _ v hv => ⟨v, hv, .refl v⟩, fun _ => id, fun _ => id⟩

theorem World.Wanes.trans {v v' v'' : World} (h : v.Wanes v') (h' : v'.Wanes v'') : v.Wanes v'' := fun hv => by
  obtain ⟨hst, hc, ht⟩ := h hv
  obtain ⟨hst', hc', ht'⟩ := h' hst
  exact ⟨hst', hc'.trans hc, ht'.trans ht⟩

theorem State.Wanes.trans (h : u.Wanes s) (h' : s.Wanes t) : u.Wanes t where
  lines k hk := h'.lines k (h.lines k hk)
  parts p := ⟨fun c hc => (h'.parts p).1 c ((h.parts p).1 c hc), fun e he => (h.parts p).2 e ((h'.parts p).2 e he)⟩
  nodes fn q n hn := h'.nodes fn q n (h.nodes fn q n hn)
  worlds w v hv := by
    obtain ⟨v', hv', k⟩ := h.worlds w v hv
    obtain ⟨v'', hv'', k'⟩ := h'.worlds w v' hv'
    exact ⟨v'', hv'', k.trans k'⟩
  retired _ he := h'.retired (h.retired he)
  quarantined _ he := h'.quarantined (h.quarantined he)

/-- It reads the functions, the partitions, the worlds, the Commons and the lists of damage alone. -/
theorem State.Wanes.update {boot timebase clock lastVf hyper fring faults launches nextLaunch lodge policy pod mem hostMem owners
    opdBacked full stamps flows cxl0 cxl1 cxlDown reloading cells out agenda free focus} (h : u.Wanes s) :
    u.Wanes { s with
      boot, timebase, clock, lastVf, hyper, fring, faults, launches, nextLaunch, lodge, policy, pod, mem, hostMem, owners
      opdBacked, full, stamps, flows, cxl0, cxl1, cxlDown, reloading, cells, out, agenda, free, focus } :=
  ⟨h.lines, h.parts, h.nodes, h.worlds, h.retired, h.quarantined⟩

theorem State.Wanes.ite {c : Prop} {_ : Decidable c} (hs : u.Wanes s) (ht : u.Wanes t) : u.Wanes (if c then s else t) := by
  split
  · exact hs
  · exact ht

theorem State.Wanes.foldl {α : Type} {f : State → α → State} {l : List α} (h : u.Wanes s)
    (hf : ∀ s a, u.Wanes s → u.Wanes (f s a)) : u.Wanes (l.foldl f s) := by
  induction l generalizing s with
  | nil => exact h
  | cons a l ih => exact ih (hf s a h)

/-! ### Updates of the fields that it reads -/

theorem State.Wanes.onPart {p} {f : Part → Part} (h : u.Wanes s)
    (hf : ∀ v : Part, v.Wanes (f v) := by exact fun _ => ⟨fun _ h => h, fun _ h => h⟩) : u.Wanes (s.onPart p f) := by
  refine h.trans { State.Wanes.refl s with parts := fun r => ?_ }
  by_cases hr : r = p
  · subst hr; rw [State.onPart_eq, State.part_setPart_self]; exact hf _
  · rw [State.onPart_eq, State.part_setPart_of_ne s _ hr]; exact .refl _

theorem State.Wanes.setWorld {w v'} (h : u.Wanes s) (hk : ∀ v, s.world? w = some v → v.Wanes v') : u.Wanes (s.setWorld w v') := by
  refine h.trans { State.Wanes.refl s with worlds := fun x v hv => ?_ }
  by_cases hx : x = w
  · subst hx; exact ⟨v', s.world?_setWorld_self x v', hk v hv⟩
  · exact ⟨v, (s.world?_setWorld_of_ne v' hx).trans hv, .refl v⟩

theorem State.Wanes.onWorld {w} {f : World → World} (h : u.Wanes s)
    (hf : ∀ v : World, v.Wanes (f v) := by exact fun _ h => ⟨h, rfl, rfl⟩) : u.Wanes (s.onWorld w f) := by
  unfold State.onWorld
  split
  · exact h
  · next v hv => exact h.setWorld fun x hx => by cases hv.symm.trans hx; exact hf v

theorem State.Wanes.filterLines (f : Nat → Bool) (h : u.Wanes s) :
    u.Wanes { s with lines := s.lines.filter fun e => f e.1 } := by
  refine h.trans { State.Wanes.refl s with lines := fun k hk => ?_ }
  rw [Map.get?_filter_key, hk, ite_self]

theorem State.Wanes.dropLine {k} (h : u.Wanes s) : u.Wanes { s with lines := Map.erase s.lines k } :=
  h.filterLines fun j => j != k

/-! ### Results of nodes (R89) -/

/-- A result that a node takes leaves it dispatched, and every other node as it is. -/
theorem Graph.dispatched_put {g : Graph} {m : Nat} (h : g.st[m]? = some .dispatched) (n : Nat) (r : NodeResult) :
    (g.put n r).st[m]? = some .dispatched := by
  have hset : (g.st.set n .dispatched)[m]? = some .dispatched := by
    by_cases hm : n = m
    · subst hm; exact List.getElem?_set_self (List.getElem?_eq_some_iff.1 h).1
    · rw [List.getElem?_set_ne hm, h]
  unfold Graph.put
  split
  · exact hset
  · exact hset
  · exact h

theorem State.graph_finishNode (s : State) (fn q n : Nat) (r : NodeResult) :
    ((s.finishNode fn q n r).queue fn q).graph = (s.queue fn q).graph.map fun g => g.put n r := by
  unfold State.finishNode
  rw [State.onQueue_eq, State.queue_setQueue_self]

theorem State.dispatches_finishNode {f k m : Nat} (h : Dispatches s f k m) (fn q n : Nat) (r : NodeResult) :
    Dispatches (s.finishNode fn q n r) f k m := by
  obtain ⟨g, hg, hst⟩ := h
  by_cases hk : f = fn ∧ k = q
  · obtain ⟨rfl, rfl⟩ := hk
    exact ⟨g.put n r, by rw [State.graph_finishNode, hg]; rfl, Graph.dispatched_put hst n r⟩
  · exact ⟨g, by unfold State.finishNode; rw [State.onQueue_eq, State.queue_setQueue_of_ne s _ hk, hg], hst⟩

/-- A dispatched node that completes has its result, whatever it had before. -/
theorem State.finishStatus_finishes {fn q n : Nat} (h : Dispatches s fn q n) (st : Status) (d : Nat) :
    Finishes (s.finishStatus fn q n st d) fn q n st d := by
  obtain ⟨g, hg, hst⟩ := h
  refine ⟨g.put n _, by unfold State.finishStatus; rw [State.graph_finishNode, hg]; rfl, ?_⟩
  unfold Graph.put
  rw [hst]
  exact Map.get?_put_self _ _ _

theorem State.Wanes.finishNode {fn q n r} (h : u.Wanes s) : u.Wanes (s.finishNode fn q n r) :=
  h.trans { State.Wanes.refl s with nodes := fun _ _ _ hn => State.dispatches_finishNode hn fn q n r }

/-! ### Counters, meters, traces and flits -/

theorem State.Wanes.emit {o} (h : u.Wanes s) : u.Wanes (s.emit o) := h.update

theorem State.Wanes.signal {fn vec} (h : u.Wanes s) : u.Wanes (s.signal fn vec) := h.emit

theorem State.Wanes.onCell {n f} (h : u.Wanes s) : u.Wanes (s.onCell n f) := h.update

theorem State.Wanes.onPod {f} (h : u.Wanes s) : u.Wanes (s.onPod f) := h.update

theorem State.Wanes.devWrite {fn a l} (h : u.Wanes s) : u.Wanes (s.devWrite fn a l) := by
  rw [State.devWrite_frame]; exact h.update

theorem State.Wanes.countEvent {p i n} (h : u.Wanes s) : u.Wanes (s.countEvent p i n) := .ite h.onPart.signal h.onPart

theorem State.Wanes.hyperAdd {i n} (h : u.Wanes s) : u.Wanes (s.hyperAdd i n) := .ite h.update.signal h.update

theorem State.Wanes.secondary {p ctx cell cause} (h : u.Wanes s) : u.Wanes (s.secondary p ctx cell cause) := by
  unfold State.secondary State.traceOf
  dsimp only
  split
  · exact h.countEvent
  · exact .ite h.countEvent h.devWrite.onPart

theorem State.Wanes.meter {p i n} (h : u.Wanes s) : u.Wanes (s.meter p i n) := h.onPart

theorem State.Wanes.meterLost {p i n} (h : u.Wanes s) : u.Wanes (s.meterLost p i n) := h.onPart

theorem State.Wanes.countLine {line fill} (h : u.Wanes s) : u.Wanes (s.countLine line fill) := .ite h.update h.update

theorem State.Wanes.sendFlit {f} (h : u.Wanes s) : u.Wanes (s.sendFlit f) := by
  unfold State.sendFlit
  split
  · exact h.update
  · exact h.onPod

theorem State.Wanes.podPart {m st cause detail} (h : u.Wanes s) : u.Wanes (s.podPart m st cause detail) := by
  unfold State.podPart State.podSettle
  split
  · exact h.onPod
  · exact .ite h.onPod.onPod.finishNode h.onPod

/-! ### Ends of launches (R92, R106) -/

theorem State.Wanes.launchEnded {e st cause detail} (h : u.Wanes s) : u.Wanes (s.launchEnded e st cause detail) := by
  unfold State.launchEnded
  split
  · exact h.finishNode
  · exact .ite h.podPart h.sendFlit

theorem State.Wanes.loseMacs {p c} (h : u.Wanes s) : u.Wanes (s.loseMacs p c) := by
  unfold State.loseMacs
  refine h.foldl fun _ _ h => ?_
  split
  · exact h.meterLost
  · exact h.meterLost
  · exact h

theorem State.Wanes.loseStreams {c} (h : u.Wanes s) : u.Wanes (s.loseStreams c) :=
  h.foldl fun _ _ h => h.foldl fun _ _ h => h.foldl fun _ _ h => h.meterLost

theorem State.Wanes.loseWork {p c} (h : u.Wanes s) : u.Wanes (s.loseWork p c) := h.meterLost.loseMacs.loseStreams

theorem State.Wanes.endHolds {w snap} (h : u.Wanes s) : u.Wanes (s.endHolds w snap) := by
  unfold State.endHolds
  split
  · exact h
  · exact h.onWorld

theorem State.Wanes.settleGens {w} (h : u.Wanes s) : u.Wanes (s.settleGens w) := h.onWorld

theorem State.Wanes.flushCell {n} (h : u.Wanes s) : u.Wanes (s.flushCell n) := h.onPart.foldl fun _ _ h => h.countEvent

theorem State.Wanes.dropCell {n c} (h : u.Wanes s) : u.Wanes ((s.setCell n c).dropHolders n true) := h.update

theorem State.Wanes.discardPart {p} (h : u.Wanes s) : u.Wanes (s.discardPart p) :=
  h.foldl fun _ _ h => .ite h (h.loseWork.onPart.flushCell.foldl fun _ _ h => h.endHolds).dropCell.settleGens

theorem State.Wanes.settlePart {p} (h : u.Wanes s) : u.Wanes (s.settlePart p) := .ite h.onPart h

theorem State.Wanes.loseLaunch {id l} (h : u.Wanes s) : u.Wanes (s.loseLaunch id l) :=
  ((h.foldl fun _ _ h => .ite h.discardPart.onPart h).foldl fun _ _ h => h.meterLost).foldl
    fun _ _ h => h.loseWork.foldl fun _ _ h => h.endHolds

theorem State.Wanes.discardLaunch {id} (h : u.Wanes s) : u.Wanes (s.discardLaunch id) := by
  cases hl : Map.get? s.launches id with
  | none => unfold State.discardLaunch; rw [hl]; exact h
  | some l =>
    rw [State.discardLaunch_of_get? hl]
    exact (h.loseLaunch.update.foldl fun _ _ h => h.settlePart).settleGens

theorem State.Wanes.endLaunch {id st cause} (h : u.Wanes s) : u.Wanes (s.endLaunch id st cause) := by
  unfold State.endLaunch
  split
  · exact h
  · exact h.discardLaunch.launchEnded

/-! ### Ends of worlds (R44, R271) -/

theorem State.Wanes.endResets {hit st cause} (h : u.Wanes s) : u.Wanes (s.endResets hit st cause) := by
  refine State.Wanes.foldl (h.trans { State.Wanes.refl s with parts := fun p => ?_ }) fun _ _ h => h.launchEnded
  unfold State.part Map.get
  rw [Map.get?_map fun e => by split <;> rfl]
  cases Map.get? s.parts p with
  | none => exact .refl _
  | some v =>
    dsimp only [Option.map_some, Option.getD_some]
    split
    · exact ⟨fun _ => id, fun _ he => by cases he⟩
    · exact .refl v

theorem State.Wanes.endedRest {w cause parts} (h : u.Wanes s) : u.Wanes (s.endedRest w cause parts) :=
  (h.foldl fun _ _ h => h.endLaunch).endResets.update

/-- What a world's end tells before the world is Ending touches nodes, faults, memory and the revocations alone. -/
structure State.Tells (u s : State) : Prop where
  frame : s = { u with
    funcs := s.funcs, faults := s.faults, mem := s.mem, hostMem := s.hostMem
    lodge := { u.lodge with revocations := s.lodge.revocations } }
  nodes : ∀ fn q n, Dispatches u fn q n → Dispatches s fn q n

theorem State.Tells.refl (s : State) : s.Tells s := ⟨rfl, fun _ _ _ => id⟩

theorem State.Tells.trans (h : u.Tells s) (h' : s.Tells t) : u.Tells t :=
  ⟨h'.frame.trans (by rw [h.frame]), fun fn q n hn => h'.nodes fn q n (h.nodes fn q n hn)⟩

theorem State.Tells.timebase (h : u.Tells s) : s.timebase = u.timebase := by rw [h.frame]

theorem State.Tells.world? (h : u.Tells s) (w : Nat) : s.world? w = u.world? w := by rw [h.frame]; rfl

theorem State.Tells.foldl {α : Type} {f : State → α → State} {l : List α} (h : u.Tells s)
    (hf : ∀ s a, u.Tells s → u.Tells (f s a)) : u.Tells (l.foldl f s) := by
  induction l generalizing s with
  | nil => exact h
  | cons a l ih => exact ih (hf s a h)

theorem State.Tells.finishNode {fn q n r} (h : u.Tells s) : u.Tells (s.finishNode fn q n r) :=
  h.trans ⟨rfl, fun _ _ _ hn => State.dispatches_finishNode hn fn q n r⟩

theorem State.Tells.devWrite {fn a l} (h : u.Tells s) : u.Tells (s.devWrite fn a l) := by
  rw [State.devWrite_frame]; exact h.trans ⟨rfl, fun _ _ _ => id⟩

theorem State.Tells.revoke {w e} (h : u.Tells s) : u.Tells (s.revoke w e) := by
  unfold State.revoke
  split
  · exact h
  · refine State.Tells.trans (h.foldl fun s x h => ?_) ⟨rfl, fun _ _ _ => id⟩
    split
    · exact h.devWrite.devWrite
    · exact h

theorem State.Tells.wanes (h : u.Tells s) : u.Wanes s := by
  obtain ⟨e, hn⟩ := h
  rw [e]
  rw [e] at hn
  exact { State.Wanes.refl u with nodes := hn }

/-- R271: a world that is not Ending becomes so with this cause at this time, once its nodes have been told. -/
theorem State.endWorld_of_live {w : Nat} {v : World} (hv : s.world? w = some v) (hst : v.st ≠ .ending) (cause cell epoch : Nat) :
    ∃ t x parts, s.Tells t ∧ x.st = .ending ∧ x.endCause = cause ∧ x.endTime = s.timebase
      ∧ s.endWorld w cause cell epoch = (t.setWorld w x).endedRest w cause parts := by
  suffices h : ∃ t x parts, s.Tells t ∧ x.st = .ending ∧ x.endCause = cause ∧ x.endTime = t.timebase
      ∧ s.endWorld w cause cell epoch = (t.setWorld w x).endedRest w cause parts by
    obtain ⟨t, x, parts, ht, hx, hc, hn, e⟩ := h
    exact ⟨t, x, parts, ht, hx, hc, hn.trans ht.timebase, e⟩
  unfold State.endWorld
  rw [hv]
  dsimp only
  rw [if_neg hst]
  refine ⟨_, _, _, ?_, rfl, rfl, rfl, rfl⟩
  have hr : s.Tells (if cause = Cause.integ.code then s.revoke w epoch else s) := by
    split
    · exact (State.Tells.refl s).revoke
    · exact .refl s
  have hl : s.Tells (match v.loading with
      | some l => (if cause = Cause.integ.code then s.revoke w epoch else s).finishNode l.fn l.q l.node
          { status := .ended, cause := cause, detail := 0 }
      | none => if cause = Cause.integ.code then s.revoke w epoch else s) := by
    split
    · exact hr.finishNode
    · exact hr
  refine State.Tells.foldl (State.Tells.trans (hl.foldl fun _ _ h => h.foldl fun _ _ h => h.finishNode)
    ⟨rfl, fun _ _ _ => id⟩) fun _ _ h => ?_
  split
  · exact h.finishNode
  · exact h

/-- The state in which a world has met its end, before what is told of its launches. -/
theorem State.Tells.setWorld_wanes {w x} {v : World} (h : s.Tells t) (hv : s.world? w = some v) (hst : v.st ≠ .ending) :
    s.Wanes (t.setWorld w x) := by
  refine h.wanes.setWorld fun y hy he => absurd he ?_
  rw [h.world?, hv] at hy
  cases hy
  exact hst

theorem State.Wanes.endWorld {w cause cell epoch} (h : u.Wanes s) : u.Wanes (s.endWorld w cause cell epoch) := by
  by_cases hl : ∃ v, s.world? w = some v ∧ v.st ≠ .ending
  · obtain ⟨v, hv, hst⟩ := hl
    obtain ⟨t, x, parts, ht, -, -, -, e⟩ := State.endWorld_of_live hv hst cause cell epoch
    rw [e]
    exact (h.trans (ht.setWorld_wanes hv hst)).endedRest
  · have e : s.endWorld w cause cell epoch = s := by
      unfold State.endWorld
      split
      · rfl
      · next v hv => exact if_pos (not_not.1 fun hst => hl ⟨v, hv, hst⟩)
    rw [e]
    exact h

/-! ### Lines, stamps and pages (R132, R138, R146, R148) -/

theorem State.Wanes.stampWrite {w line} (h : u.Wanes s) : u.Wanes (s.stampWrite w line) := by
  unfold State.stampWrite
  split
  · exact h
  · next v hv => exact h.update.setWorld fun x hx => by cases hv.symm.trans hx; exact fun he => ⟨he, rfl, rfl⟩

theorem State.Wanes.foldRead {w line} (h : u.Wanes s) (e : s.foldRead w line = some t) : u.Wanes t := by
  unfold State.foldRead at e
  split at e
  · cases e; exact h
  · next v hv =>
    have hk (sl ep term) : u.Wanes (s.setWorld w (v.addHash sl ep true term)) :=
      h.setWorld fun x hx he => by cases hv.symm.trans hx; exact ⟨he, rfl, rfl⟩
    dsimp only at e
    split at e
    · cases e; exact hk _ _ _
    · split at e
      · cases e; exact hk _ _ _
      · cases e

theorem State.Wanes.evictLine {line} (h : u.Wanes s) : u.Wanes (s.evictLine line) := by
  have hc : u.Wanes (({ s with lines := Map.erase s.lines line } : State).countLine line false) := h.dropLine.countLine
  unfold State.evictLine
  split
  · exact h
  · dsimp only
    split
    · apply State.Wanes.meter
      split
      · exact hc.stampWrite
      · exact hc
    · split
      · exact hc.stampWrite
      · exact hc

theorem State.Wanes.flushRange {pa len} (h : u.Wanes s) : u.Wanes (s.flushRange pa len) := h.foldl fun _ _ h => h.evictLine

theorem State.Wanes.foldRange {pa len} (h : u.Wanes s) : u.Wanes (s.foldRange pa len) := by
  unfold State.foldRange
  refine h.foldl fun _ _ h => ?_
  split
  · split
    · exact h.foldRead ‹_›
    · exact h.endWorld
  · exact h

theorem State.Wanes.stampRange {pa len} (h : u.Wanes s) : u.Wanes (s.stampRange pa len) := by
  unfold State.stampRange
  refine h.foldl fun _ _ h => ?_
  split
  · exact h.stampWrite
  · exact h

theorem State.Wanes.zeroRange {pa len} (h : u.Wanes s) : u.Wanes (s.zeroRange pa len) := h.update

theorem State.Wanes.freeRange {pa len} (h : u.Wanes s) : u.Wanes (s.freeRange pa len) :=
  State.Wanes.update (State.Wanes.zeroRange (h.filterLines fun k => !(decide (pa / 64 ≤ k) && decide (k < (pa + len) / 64))))

/-! ### Contexts that end (R78, R275) -/

theorem State.Wanes.endContext {p ctx} (h : u.Wanes s) : u.Wanes (s.endContext p ctx) := by
  unfold State.endContext
  refine ((h.foldl fun _ _ h => h.evictLine).foldl fun _ _ h => h.freeRange).onPart fun v => ⟨fun c hc => ?_, fun _ => id⟩
  by_cases hx : c = ctx
  · subst hx; exact Map.get?_erase_self _ _
  · rw [Map.get?_erase_of_ne _ hx, hc]

theorem State.Wanes.scrubCells {p} (h : u.Wanes s) : u.Wanes (s.scrubCells p) := h.foldl fun _ _ h => h.onCell

theorem State.Wanes.machineCheck {p ctx} (h : u.Wanes s) : u.Wanes (s.machineCheck p ctx) :=
  .ite h (.ite h.secondary ((h.hyperAdd.signal.foldl fun _ _ h => .ite h.secondary h).foldl fun _ _ h =>
    .ite (h.endLaunch.foldl fun _ _ h => h.scrubCells) h.endLaunch).endContext)

theorem State.Wanes.checkAll {l} (h : u.Wanes s) : u.Wanes (s.checkAll l) := h.foldl fun _ _ h => h.machineCheck
end

end Sys2Proof.Machine
end

