-- ==== Sys2Proof/Proofs/Worlds.lean ====
section
/-! Requests for worlds, contexts, bundles, sessions and packages (R44 to R68, R78, R301): how a SESSION node is served and
answered, and what each request does when its checks pass. -/

namespace Sys2Proof.Machine

section
variable {s t : State} {fn q n req len resp w h c : Nat} {b r l : List Byte} {v : World} {x : Session}

/-! ### Requests and their responses (R68, R88, R89) -/

theorem State.dispatches_of_nodeOf {ty : Nat} (h : s.nodeOf fn q n ty = some b) : Dispatches s fn q n := by
  unfold State.nodeOf at h
  split at h
  · cases h
  · next g hg =>
    split at h
    · next hst _ => exact ⟨g, hg, hst⟩
    · cases h

theorem Dispatched.dispatches {ty : Nat} (h : Dispatched s fn q n ty b) : Dispatches s fn q n := State.dispatches_of_nodeOf h.node

theorem Dispatched.withNode {ty : Nat} (h : Dispatched s fn q n ty b) (k : List Byte → State) :
    s.withNode fn q n ty k = .next (k b) := by
  unfold State.withNode
  rw [h.node]
  exact if_pos (by rw [h.walks, Bool.true_or])

theorem Requests.dispatches (h : Requests s fn q n req b r len resp) : Dispatches s fn q n := h.node.dispatches

theorem Requests.withSession (h : Requests s fn q n req b r len resp) (k : SessionNode → List Byte → State) :
    s.withSession fn q n req len resp k = .next (k (sessionNodeOf b) r) := by
  have hkind : ¬((sessionNodeOf b).req ≠ req ∨ (!s.lodgeFree) = true) := by
    rintro (hk | hl)
    · exact hk h.kind
    · rw [h.lodge] at hl; cases hl
  have hzero : ¬(req ≠ 2 ∧ req ≠ 3 ∧ (sessionNodeOf b).byte17 ≠ 0) := fun ⟨h2, h3, h0⟩ => h0 (h.zero h2 h3)
  unfold State.withSession
  rw [h.node.withNode]
  dsimp only
  rw [if_neg hkind, if_neg hzero, show s.devRead fn (sessionNodeOf b).record len = some r from h.record]
  dsimp only
  rw [if_neg (by rw [show s.devOk fn (sessionNodeOf b).response resp = true from h.response]; exact Bool.false_ne_true)]

theorem State.dispatches_devWrite (h : Dispatches s fn q n) (f : Nat) (a : Word) (l : List Byte) :
    Dispatches (s.devWrite f a l) fn q n := by
  rw [State.devWrite_frame]; exact h

theorem State.dispatches_onWorld {f : World → World} (h : Dispatches s fn q n) : Dispatches (s.onWorld w f) fn q n := by
  unfold State.onWorld
  split
  · exact h
  · exact h

/-- A response is written, and the node completes. -/
theorem State.respond_finishes (h : Dispatches s fn q n) (f : Nat) (a : Word) (l : List Byte) (st : Status) (d : Nat) :
    Finishes ((s.devWrite f a l).finishStatus fn q n st d) fn q n st d :=
  State.finishStatus_finishes (State.dispatches_devWrite h f a l) st d

theorem State.world?_respond {f : Nat} {a : Word} {st : Status} {d w : Nat} :
    ((s.devWrite f a l).finishStatus fn q n st d).world? w = s.world? w := by
  rw [State.devWrite_frame]; rfl

theorem State.part_respond {f : Nat} {a : Word} {st : Status} {d p : Nat} :
    ((s.devWrite f a l).finishStatus fn q n st d).part p = s.part p := by
  rw [State.devWrite_frame]; rfl

/-- A world that a VF owns is there, and is not Ending. -/
theorem State.of_ownWorld (h : s.ownWorld fn w = some v) : s.world? w = some v ∧ v.st ≠ .ending := by
  unfold State.ownWorld at h
  obtain ⟨y, hy, e⟩ := Option.bind_eq_some_iff.1 h
  split at e
  · next hc => cases e; exact ⟨hy, hc.2⟩
  · cases e

/-! ### Worlds (R44, R45, R67) -/

theorem createWorld_effect (h : Requests s fn q n 1 b r 64 1608) (hr : policyRecordOk r = true)
    (ho : s.owns fn (leAt r 6 1) = true) (hw : ((List.range 64).find? fun k => (s.world? k).isNone) = some w) :
    Completes (.createWorld fn q n) s fun t => Finishes t fn q n .ok
      ∧ (∃ v', t.world? w = some v' ∧ v'.st = .opened ∧ v'.vf = fn ∧ v'.keys.isSome = true ∧ v'.epoch = 0 ∧ v'.t0 = s.timebase
        ∧ v'.leaves = [] ∧ v'.home = leAt r 6 1)
      ∧ ∀ k, k ≠ w → t.world? k = s.world? k := by
  unfold Completes
  rw [exec_createWorld]
  unfold execCreateWorld
  rw [h.withSession]
  dsimp only
  rw [if_neg (by simp [hr]), if_neg (by simp [ho]), hw]
  dsimp only
  exact ⟨_, rfl, State.respond_finishes (by exact h.dispatches) _ _ _ _ _,
    ⟨_, State.world?_respond.trans (State.world?_setWorld_self _ _ _), rfl, rfl, rfl, rfl, rfl, rfl, rfl⟩,
    fun k hk => State.world?_respond.trans (State.world?_setWorld_of_ne _ _ hk)⟩

theorem State.launches_endResets (s : State) (hit : Ending → Bool) (st : Status) (cause : Nat) :
    (s.endResets hit st cause).launches = s.launches := by
  have hfold (l : List Ending) (u : State) : (l.foldl (fun s e => s.launchEnded e st cause 0) u).launches = u.launches := by
    induction l generalizing u with
    | nil => rfl
    | cons e l ih => exact (ih _).trans (u.launches_launchEnded e st cause 0)
  exact hfold _ _

/-- The end of each launch of an Ending world leaves none of its launches. -/
theorem State.endedRest_launches {id cause : Nat} {parts : List Nat} {l : Launch}
    (h : Map.get? (s.endedRest w cause parts).launches id = some l) : l.world ≠ w := by
  obtain ⟨e, he, hl⟩ := List.mem_map.1 (Map.mem_of_get? h)
  rw [State.launches_endResets] at he
  obtain ⟨hm, hn⟩ := State.mem_launches_endLaunches _ .ended cause s he
  have hw : e.2.world ≠ w := fun hw => hn e (List.mem_filter.2 ⟨hm, by simpa using hw⟩) rfl
  split at hl <;> cases hl <;> exact hw

theorem destroyWorld_effect (h : Requests s fn q n 5 b r 64 0) (hz : zeroAt r 1 63 = true) (hw : leAt r 0 1 = w)
    (ho : s.ownWorld fn w = some v) : Completes (.destroyWorld fn q n) s fun t => Finishes t fn q n .ok
      ∧ (∃ v', t.world? w = some v' ∧ v'.st = .ending ∧ v'.endCause = 0 ∧ v'.endTime = s.timebase)
      ∧ ∀ id l, Map.get? t.launches id = some l → l.world ≠ w := by
  subst hw
  obtain ⟨hv, hst⟩ := State.of_ownWorld ho
  unfold Completes
  rw [exec_destroyWorld]
  unfold execDestroyWorld
  rw [h.withSession]
  dsimp only
  rw [if_neg (by simp [hz]), if_neg (by simp [ho])]
  have hd := (State.Wanes.refl s).endWorld (w := leAt r 0 1) (cause := 0) (cell := 0xFFFF) (epoch := 0)
    |>.nodes fn q n h.dispatches
  refine ⟨_, rfl, State.finishStatus_finishes hd _ _, ?_⟩
  obtain ⟨t, x, parts, -, hx, hc, ht, e⟩ := State.endWorld_of_live hv hst 0 0xFFFF 0
  rw [e]
  refine ⟨?_, fun id l hl => State.endedRest_launches hl⟩
  obtain ⟨v', hv', k⟩ := (State.Wanes.refl (t.setWorld (leAt r 0 1) x)).endedRest (parts := parts)
    |>.worlds _ x (State.world?_setWorld_self _ _ _)
  obtain ⟨hst', hc', ht'⟩ := k hx
  exact ⟨v', hv', hst', hc'.trans hc, ht'.trans ht⟩

/-! ### Contexts (R46, R47, R78) -/

/-- Taking memory writes owners alone (R118). A variable stands for the search of a free page, which the kernel would evaluate. -/
theorem State.takeRuns_frame (p : Nat) (o : Owner) (k m : Nat) :
    ∀ (s t : State) (l : List (Nat × Nat)), s.takeRuns p o k m = some (t, l) → t = { s with owners := t.owners } := by
  obtain ⟨f, hf⟩ : ∃ f, f = State.freeUnit := ⟨_, rfl⟩
  delta State.takeRuns State.takeRuns._f
  rw [← hf]
  induction k generalizing m with
  | zero =>
    intro s t l h
    change (if m = 0 then some (s, []) else none) = some (t, l) at h
    split at h
    · cases h; rfl
    · cases h
  | succ k ih =>
    intro s t l h
    dsimp only at h
    split at h
    · cases h; rfl
    split at h
    · cases h
    split at h
    · cases h
    · next hx => cases h; exact (ih _ _ _ _ hx :)

theorem State.takeBytes_frame {p m : Nat} {o : Owner} {l : List (Nat × Nat)} (h : s.takeBytes p o m = some (t, l)) :
    t = { s with owners := t.owners } := State.takeRuns_frame p o _ m s t l h

theorem bindContext_effect (h : Requests s fn q n 2 b r 64 1) (hz : zeroAt r 2 62 = true) (hd : leAt r 1 1 ≤ 1)
    (hw : leAt r 0 1 = w) (ho : s.ownWorld fn w = some v) (hp : s.owns fn (sessionNodeOf b).byte17 = true)
    (hst : (s.part (sessionNodeOf b).byte17).st ≠ .destroying) (hdebug : leAt r 1 1 = 1 → v.st = .opened)
    (hc : ((List.range 4).find? fun k => (Map.get? (s.part (sessionNodeOf b).byte17).ctxs k).isNone) = some c)
    (hm : (s.takeBytes (sessionNodeOf b).byte17 (.saveArea (sessionNodeOf b).byte17 c) 0x6000000).isSome = true) :
    Completes (.bindContext fn q n) s fun t => Finishes t fn q n .ok
      ∧ ∀ k, Map.get? (t.part (sessionNodeOf b).byte17).ctxs k = if k = c
          then some { world := w, debug := leAt r 1 1 == 1, attached := false, preemptedNote := false }
          else Map.get? (s.part (sessionNodeOf b).byte17).ctxs k := by
  subst hw
  -- A variable stands for the taking of bytes: the kernel would evaluate it.
  obtain ⟨take, ht⟩ : ∃ take, take = s.takeBytes := ⟨_, rfl⟩
  rw [← ht] at hm
  obtain ⟨⟨u, m⟩, hu⟩ := Option.isSome_iff_exists.1 hm
  have hf : u = { s with owners := u.owners } := State.takeBytes_frame (ht ▸ hu)
  have hopen : ¬(leAt r 1 1 = 1 ∧ (v.st = .sealing ∨ v.st = .sealed)) := by
    rintro ⟨h1, h2⟩
    rw [hdebug h1] at h2
    rcases h2 with h2 | h2 <;> cases h2
  unfold Completes
  rw [exec_bindContext]
  unfold execBindContext
  rw [← ht]
  rw [h.withSession]
  dsimp only
  rw [if_neg (by simp [hz]; omega), ho]
  dsimp only
  rw [if_neg (by simp [hp, hst]), if_neg hopen, hc]
  dsimp only
  rw [hu]
  dsimp only
  have hn : Dispatches u fn q n := by rw [hf]; exact h.dispatches
  refine ⟨_, rfl, State.respond_finishes (by exact hn) _ _ _ _ _, fun k => ?_⟩
  rw [State.part_respond, State.onPart_eq, State.part_setPart_self, Map.get?_put, show u.part _ = s.part _ by rw [hf]; rfl]

theorem State.parts_stampWrite (s : State) (w line : Nat) : (s.stampWrite w line).parts = s.parts := by
  unfold State.stampWrite
  split <;> rfl

theorem State.parts_countLine (s : State) (line : Nat) (fill : Bool) : (s.countLine line fill).parts = s.parts := by
  unfold State.countLine
  split <;> rfl

theorem State.ctxs_meter (s : State) (r i m p : Nat) : ((s.meter r i m).part p).ctxs = (s.part p).ctxs :=
  State.part_onPart_of_keeps Part.ctxs (f := fun v => { v with committed := meterAdd v.committed i m }) s r (fun _ => rfl) p

/-- A write-back keeps the contexts of every partition. -/
theorem State.ctxs_evictLine (s : State) (line p : Nat) : ((s.evictLine line).part p).ctxs = (s.part p).ctxs := by
  have hmeter (u : State) (e : LineTag) (i : Nat) (hu : u.parts = s.parts) :
      ((if e.dirty = true then u.meter e.part i 64 else u).part p).ctxs = (s.part p).ctxs := by
    have hp : (u.part p).ctxs = (s.part p).ctxs := by unfold State.part; rw [hu]
    split
    · exact (u.ctxs_meter e.part i 64 p).trans hp
    · exact hp
  unfold State.evictLine
  split
  · rfl
  · refine hmeter _ _ _ ?_
    split
    · rw [State.parts_stampWrite, State.parts_countLine]
    · rw [State.parts_countLine]

theorem State.ctxs_foldl {α : Type} {f : State → α → State} {p : Nat} (hf : ∀ u a, ((f u a).part p).ctxs = (u.part p).ctxs)
    (l : List α) (s : State) : ((l.foldl f s).part p).ctxs = (s.part p).ctxs := by
  induction l generalizing s with
  | nil => rfl
  | cons a l ih => exact (ih _).trans (hf s a)

/-- A context that ends is unbound; its partition keeps the others. -/
theorem State.ctxs_endContext (s : State) (p c : Nat) : ((s.endContext p c).part p).ctxs = Map.erase (s.part p).ctxs c := by
  unfold State.endContext
  rw [State.onPart_eq, State.part_setPart_self]
  dsimp only
  rw [State.ctxs_foldl (f := fun u (o : OwnRange) => u.freeRange o.base o.len) fun _ _ => rfl,
    State.ctxs_foldl (f := State.evictLine) fun u line => u.ctxs_evictLine line p]

theorem unbindContext_effect (h : Requests s fn q n 3 b r 64 0) (hz : zeroAt r 1 63 = true) (hc : leAt r 0 1 = c)
    (hp : s.owns fn (sessionNodeOf b).byte17 = true) (hb : (Map.get? (s.part (sessionNodeOf b).byte17).ctxs c).isSome = true)
    (hl : ∀ e ∈ s.launches, e.2.ctx = c → (sessionNodeOf b).byte17 ∉ e.2.parts) :
    Completes (.unbindContext fn q n) s fun t => Finishes t fn q n .ok
      ∧ ∀ k, Map.get? (t.part (sessionNodeOf b).byte17).ctxs k
          = if k = c then none else Map.get? (s.part (sessionNodeOf b).byte17).ctxs k := by
  subst hc
  unfold Completes
  rw [exec_unbindContext]
  unfold execUnbindContext
  rw [h.withSession]
  dsimp only
  rw [if_neg (by simp [hz]), if_neg (by simp [hp]), if_neg (by simpa [Option.isSome_iff_ne_none] using hb),
    if_neg (by simpa using hl)]
  have hd := (State.Wanes.refl s).endContext (p := (sessionNodeOf b).byte17) (ctx := leAt r 0 1) |>.nodes fn q n h.dispatches
  refine ⟨_, rfl, State.finishStatus_finishes hd _ _, fun k => ?_⟩
  change Map.get? ((s.endContext _ _).part _).ctxs k = _
  rw [State.ctxs_endContext]
  split
  · next hk => subst hk; exact Map.get?_erase_self _ _
  · next hk => exact Map.get?_erase_of_ne _ hk

/-! ### Bundles (R53 to R56) -/

theorem loadSeal_effect {bundle : Bundle} (h : Requests s fn q n 4 b r 1656 0) (hz : zeroAt r 1 3 = true) (hw : leAt r 0 1 = w)
    (ho : s.ownWorld fn w = some v) (hl : v.loading = none)
    (hd : s.devRead fn ((sessionNodeOf b).record + 1656) (leAt r 4 4) = some l) (hb : bundleOf l = some bundle)
    (hok : s.sealOk fn w v (leAt l 1 1) bundle = true) : Completes (.loadSeal fn q n) s fun t =>
      match hpkeOpen ((s.lodge.keys.map (·.seed)).getD []) s.lodge.fwVersion ((r.drop 8).take 1600) ((r.drop 1608).take 48)
        (Config.sha384 l) with
      | none => Finishes t fn q n .policy
      | some key => ∃ v' y, t.world? w = some v' ∧ v'.st = .sealing ∧ v'.loading = some y ∧ y.key = key ∧ y.bundle = bundle
          ∧ y.prev = v.st ∧ y.next = 0 ∧ v'.regions = v.regions ++ v.newRegions bundle := by
  subst hw
  unfold Completes
  rw [exec_loadSeal]
  unfold execLoadSeal
  rw [h.withSession]
  dsimp only
  rw [ho, if_neg (by simp [hl]), if_neg (by simp [hz]), hd]
  dsimp only
  rw [hb]
  dsimp only
  rw [hok]
  cases hpkeOpen ((s.lodge.keys.map (·.seed)).getD []) s.lodge.fwVersion ((r.drop 8).take 1600) ((r.drop 1608).take 48)
    (Config.sha384 l) with
  | none => exact ⟨_, rfl, State.finishStatus_finishes h.dispatches _ _⟩
  | some key => exact ⟨_, rfl, _, _, State.world?_setWorld_self _ _ _, rfl, rfl, rfl, rfl, rfl, rfl, rfl⟩

/-! ### Sessions (R60 to R66) -/

theorem openSession_effect (h : Requests s fn q n 6 b r 1640 64) (hz : zeroAt r 1 7 = true) (hr : (sessionNodeOf b).ringOk = true)
    (hw : leAt r 0 1 = w) (ho : s.ownWorld fn w = some v) (hs : s.ringStaged fn (sessionNodeOf b) = true)
    (hv : v.openCount < 8192) (ha : (s.worlds.map fun e => e.2.openCount).sum < 65536) (hf : v.freeHandle = some c) :
    Completes (.openSession fn q n) s fun t => Finishes t fn q n .ok
      ∧ ∃ v' y, t.world? w = some v' ∧ Map.get? v'.sessions c = some y ∧ y.keys.isSome = true ∧ y.reqCtr = 0 ∧ y.repCtr = 0
        ∧ y.produced = 0 ∧ y.ring = (sessionNodeOf b).ring ∧ y.slots = (sessionNodeOf b).slots := by
  subst hw
  unfold Completes
  rw [exec_openSession]
  unfold execOpenSession
  rw [h.withSession]
  dsimp only
  rw [if_neg (by simp [hz, hr]), ho]
  dsimp only
  rw [if_neg (by simp [hs]), if_neg (by omega), hf]
  exact ⟨_, rfl, State.respond_finishes (by exact h.dispatches) _ _ _ _ _, _, _,
    State.world?_respond.trans (State.world?_setWorld_self _ _ _), Map.get?_put_self _ _ _, rfl, rfl, rfl, rfl, rfl, rfl⟩

/-- The time that a request waits while another holds the session's lock (R65). -/
theorem State.lockWait_eq (s : State) (x : Session) :
    s.lockWait x = if s.timebase < x.lock then some ((x.lock - s.timebase + 999) / 1000) else none := by
  have hc : ceilDiv (x.lock - s.timebase) 1000 = (x.lock - s.timebase + 999) / 1000 := by unfold ceilDiv; omega
  unfold State.lockWait
  rw [hc]

theorem closeSession_effect (h : Requests s fn q n 7 b r 64 0) (hz : zeroAt r 1 1 = true) (hz' : zeroAt r 4 60 = true)
    (hw : leAt r 0 1 = w) (hc : leAt r 2 2 = c) (ho : s.ownWorld fn w = some v) (hx : v.liveSession c = some x) :
    Completes (.closeSession fn q n) s fun t =>
      if s.timebase < x.lock then Finishes t fn q n .busy ((x.lock - s.timebase + 999) / 1000) ∧ t.worlds = s.worlds
      else Finishes t fn q n .ok ∧ t.world? w = some { v with sessions := Map.put v.sessions c { x with keys := none } } := by
  subst hw hc
  unfold Completes
  rw [exec_closeSession]
  unfold execCloseSession
  rw [h.withSession]
  dsimp only
  rw [if_neg (by simp [hz, hz']), ho]
  dsimp only
  rw [hx]
  dsimp only
  rw [State.lockWait_eq]
  by_cases hlock : s.timebase < x.lock
  · rw [if_pos hlock]
    exact ⟨_, rfl, by rw [if_pos hlock]; exact ⟨State.finishStatus_finishes h.dispatches _ _, rfl⟩⟩
  · rw [if_neg hlock]
    refine ⟨_, rfl, ?_⟩
    rw [if_neg hlock]
    exact ⟨State.finishStatus_finishes (by exact h.dispatches) _ _, State.world?_setWorld_self _ _ _⟩

theorem rekey_busy (h : Requests s fn q n 8 b r 1640 64) (hz : zeroAt r 1 1 = true) (hz' : zeroAt r 4 4 = true)
    (hw : leAt r 0 1 = w) (hc : leAt r 2 2 = c) (ho : s.ownWorld fn w = some v) (hx : v.liveSession c = some x)
    (hlock : s.timebase < x.lock) : Completes (.rekey fn q n) s fun t =>
      Finishes t fn q n .busy ((x.lock - s.timebase + 999) / 1000) ∧ t.worlds = s.worlds := by
  subst hw hc
  unfold Completes
  rw [exec_rekey]
  unfold execRekey
  rw [h.withSession]
  dsimp only
  rw [if_neg (by simp [hz, hz']), ho]
  dsimp only
  rw [hx]
  dsimp only
  rw [State.lockWait_eq, if_pos hlock]
  exact ⟨_, rfl, State.finishStatus_finishes h.dispatches _ _, rfl⟩

theorem rekey_effect (h : Requests s fn q n 8 b r 1640 64) (hz : zeroAt r 1 1 = true) (hz' : zeroAt r 4 4 = true)
    (hw : leAt r 0 1 = w) (hc : leAt r 2 2 = c) (ho : s.ownWorld fn w = some v) (hx : v.liveSession c = some x)
    (hlock : x.lock ≤ s.timebase) : Completes (.rekey fn q n) s fun t => Finishes t fn q n .ok
      ∧ ∃ v' y, t.world? w = some v' ∧ Map.get? v'.sessions c = some y ∧ y.keys.isSome = true ∧ y.reqCtr = 0 ∧ y.repCtr = 0
        ∧ y.ring = x.ring ∧ y.produced = x.produced ∧ y.held = x.held := by
  subst hw hc
  unfold Completes
  rw [exec_rekey]
  unfold execRekey
  rw [h.withSession]
  dsimp only
  rw [if_neg (by simp [hz, hz']), ho]
  dsimp only
  rw [hx]
  dsimp only
  rw [State.lockWait_eq, if_neg (by omega)]
  exact ⟨_, rfl, State.respond_finishes (by exact h.dispatches) _ _ _ _ _, _, _,
    State.world?_respond.trans (State.world?_setWorld_self _ _ _), Map.get?_put_self _ _ _, rfl, rfl, rfl, rfl, rfl, rfl⟩

/-! ### Packages (R57, R58, R301) -/

theorem pkgload_effect (h : Dispatched s fn q n 0x06 b) (hlodge : s.lodgeFree = true) (hw : leAt b 32 1 = w)
    (ho : s.ownWorld fn w = some v) (hd : s.devRead fn (BitVec.ofNat 64 (leAt b 16 8)) (leAt b 24 8) = some l)
    (hn : v.nextHandle ≤ 0xFFFF) : Completes (.pkgload fn q n) s fun t => match parsePackage l with
      | none => Finishes t fn q n .sealFail
      | some k =>
        (s.signatureOk fn v k = false → Finishes t fn q n .sealFail)
        ∧ (s.signatureOk fn v k = true → k.datas = [] → Finishes t fn q n .ok v.nextHandle
          ∧ ∃ v', t.world? w = some v' ∧ Map.get? v'.packages v.nextHandle = some k ∧ v'.nextHandle = v.nextHandle + 1) := by
  subst hw
  obtain ⟨hv, -⟩ := State.of_ownWorld ho
  unfold Completes
  rw [exec_pkgload]
  unfold execPkgload
  rw [h.withNode]
  dsimp only
  rw [if_neg (by simp [hlodge]), ho]
  dsimp only
  rw [hd]
  dsimp only
  cases parsePackage l with
  | none => exact ⟨_, rfl, State.finishStatus_finishes h.dispatches _ _⟩
  | some k =>
    refine ⟨_, rfl, fun hs => ?_, fun hs hk => ?_⟩
    · dsimp only
      rw [if_pos (by simp [hs])]
      exact State.finishStatus_finishes h.dispatches _ _
    · dsimp only
      have hdatas : s.datasOk (leAt b 32 1) k = true := by unfold State.datasOk; rw [hk]; rfl
      rw [if_neg (by simp [hs]), if_neg (by simp [hdatas]), if_neg (by omega), hk, List.foldl_nil]
      exact ⟨State.finishStatus_finishes (State.dispatches_onWorld h.dispatches) _ _, _, State.world?_onWorld hv,
        Map.get?_put_self _ _ _, rfl⟩

/-- Settles O47, request by request: a node that is dispatched takes the status of its request whatever else ends with it
(`State.finishStatus_finishes`, `State.Wanes.nodes`); a world that is destroyed keeps its end while its launches end
(`State.endWorld_of_live`, `State.endedRest_launches`). -/
theorem worldsContextsAndSessions : Obligations.WorldsContextsAndSessions := by
  unfold Obligations.WorldsContextsAndSessions
  intro s fn q n w h c b r l v x bundle
  exact ⟨createWorld_effect, bindContext_effect, unbindContext_effect, loadSeal_effect, destroyWorld_effect, openSession_effect,
    closeSession_effect, rekey_busy, rekey_effect, pkgload_effect⟩
end

end Sys2Proof.Machine
end

