-- ==== Sys2Proof/Proofs/Errors.lean ====
section
/-! Epochs and their sweeps, certified replies, the scrub of an Ending world, and hardware errors (R29, R36, R44, R69 to R74,
R148 to R150, R214, R271 to R278). -/

namespace Sys2Proof.Machine

/-- A context has gone from a partition, unless a launch of it waits there for the reset that the watchdog began (R278). -/
def State.Gone (s t : State) (p ctx : Nat) : Prop :=
  (∀ e, (s.part p).resetOf = some e → e.ctx ≠ ctx) → Map.get? (t.part p).ctxs ctx = none

section
variable {s t u : State} {w p ctx slice h cell pa : Nat} {v v' : World} {y : Loading} {x : Session}

/-! ### Sealing that fails (R44) -/

theorem State.Wanes.dropLeaf {e} (h : u.Wanes s) : u.Wanes (s.dropLeaf w e) := .ite h.onWorld h.onWorld.freeRange

theorem State.Wanes.zeroPart {e r} (h : u.Wanes s) : u.Wanes (s.zeroPart e r) := h.flushRange.foldRange.zeroRange.stampRange

/-- What becomes of a world whose bundle fails: nothing loads, and it is as before the bundle, or Ending. -/
structure World.Unseals (y : Loading) (v v' : World) : Prop where
  loading : v'.loading = none
  st      : v'.st = y.prev ∨ v'.st = .ending
  wanes   : v.Wanes v'

theorem State.sealingFails_eq (hv : s.world? w = some v) (hl : v.loading = some y) (r : NodeResult) :
    ∃ t f, s.Wanes t ∧ (∀ x, World.Unseals y x (f x)) ∧ s.sealingFails w r = (t.onWorld w f).finishNode y.fn y.q y.node r := by
  unfold State.sealingFails
  rw [hv]
  dsimp only
  rw [hl]
  dsimp only
  refine ⟨_, _, ?_, ?_, rfl⟩
  · exact (State.Wanes.refl s).foldl fun _ _ h => h.foldl fun _ _ h =>
      .ite h (.ite h.zeroPart h.flushRange.foldRange.dropLeaf)
  · refine fun x => ⟨rfl, ?_, fun hx => ⟨if_pos hx, rfl, rfl⟩⟩
    dsimp only
    split
    · exact .inr rfl
    · exact .inl rfl

theorem State.Wanes.sealingFails {r} (h : u.Wanes s) : u.Wanes (s.sealingFails w r) := by
  cases hv : s.world? w with
  | none => unfold State.sealingFails; rw [hv]; exact h
  | some v =>
    cases hl : v.loading with
    | none => unfold State.sealingFails; rw [hv]; dsimp only; rw [hl]; exact h
    | some y =>
      obtain ⟨t, f, ht, hf, e⟩ := State.sealingFails_eq hv hl r
      rw [e]
      exact ((h.trans ht).onWorld fun x => (hf x).wanes).finishNode

theorem sealingTimeout_effect (hv : s.world? w = some v) (hl : v.loading = some y) (ht : y.last + 10000000000 ≤ s.timebase) :
    Completes (.sealingTimeout w) s fun t =>
      ∃ z, t.world? w = some z ∧ z.loading = none ∧ (z.st = y.prev ∨ z.st = .ending) := by
  unfold Completes
  rw [exec_sealingTimeout]
  unfold execSealingTimeout
  rw [hv, Option.bind_some, hl]
  dsimp only
  rw [if_pos ht]
  refine ⟨_, rfl, ?_⟩
  obtain ⟨a, f, ha, hf, e⟩ := State.sealingFails_eq hv hl { status := .timeout, cause := 0, detail := 0 }
  obtain ⟨x, hx, -⟩ := ha.worlds w v hv
  rw [e]
  exact ⟨f x, State.world?_onWorld hx, (hf x).loading, (hf x).st⟩

/-! ### The scrub of an Ending world (R44, R272) -/

theorem State.Sheds.shortScrub (h : u.Sheds s) : u.Sheds (s.shortScrub p) := by
  unfold State.shortScrub
  exact (State.Sheds.update (h.foldl fun _ _ h => h.evictLine)).scrubCells.onPart

theorem State.Sheds.endContexts (h : u.Sheds s) : u.Sheds (s.endContexts w) :=
  h.foldl fun _ _ h => h.foldl fun _ _ h => h.endContext

theorem State.Sheds.freeWorld (h : u.Sheds s) : u.Sheds (s.freeWorld w) := h.foldl fun _ _ h => h.freeRange

theorem worldScrubComplete_effect (hv : s.world? w = some v) (hst : v.st = .ending) (hs : s.scrubsReady v = true) :
    Completes (.worldScrubComplete w) s fun t => t.world? w = none
      ∧ t.lodge.worldEnds = s.lodge.worldEnds ++ [(v.vf, v.endRecord w)] ∧ (t.func v.vf).vfevent = 3 := by
  unfold Completes
  rw [exec_worldScrubComplete]
  unfold execWorldScrubComplete
  rw [hv]
  dsimp only
  rw [if_neg (by simp [hst, hs])]
  refine ⟨_, rfl, Map.get?_erase_self _ _, ?_, congrArg Func.vfevent (State.func_setFunc_self _ _ _)⟩
  have hsheds : s.Sheds (((v.scrubs.foldl (fun s p =>
      (s.shortScrub p).onPart p fun x => { x with lastScrub := s.timebase }) s).endContexts w).freeWorld w) :=
    ((State.Sheds.refl s).foldl fun _ _ h => h.shortScrub.onPart).endContexts.freeWorld
  exact congrArg (fun l : Lodge => l.worldEnds ++ [(v.vf, v.endRecord w)]) (show State.lodge _ = s.lodge by rw [hsheds.frame])

/-! ### Epochs (R69, R148) -/

/-- An epoch that closes changes the last clean one alone. -/
theorem World.closeIfSwept_frame (v : World) : v.closeIfSwept = { v with clean := v.closeIfSwept.clean } := by
  unfold World.closeIfSwept
  split <;> rfl

theorem World.clean_closeIfSwept (v : World) (h : 0 < v.epoch) :
    v.closeIfSwept.clean = if v.sweeping = [] then some (v.epoch - 1) else v.clean := by
  unfold World.closeIfSwept
  by_cases hs : v.sweeping = []
  · rw [if_pos ⟨by rw [hs]; rfl, h⟩, if_pos hs]
  · rw [if_neg fun hc => hs (List.isEmpty_iff.1 hc.1), if_neg hs]

theorem epochEnd_effect (hv : s.world? w = some v) (hst : v.st ≠ .ending) (hs : v.sweeping = [])
    (ht : v.epochStart + v.periodNs ≤ s.timebase) : Completes (.epochEnd w) s fun t => ∃ z, t = s.setWorld w z
      ∧ z.epoch = v.epoch + 1 ∧ z.epochStart = v.epochStart + v.periodNs ∧ z.periodNs = s.periodNow w v
      ∧ z.sweeping = v.hashes.map (·.1) ∧ z.clean = (if v.hashes = [] then some v.epoch else v.clean) := by
  unfold Completes
  rw [exec_epochEnd]
  unfold execEpochEnd
  rw [hv]
  dsimp only
  rw [if_neg (by simp [hst, hs]; omega)]
  refine ⟨_, rfl, _, rfl, ?_, ?_, ?_, ?_, ?_⟩
  · rw [World.closeIfSwept_frame]
  · rw [World.closeIfSwept_frame]
  · rw [World.closeIfSwept_frame]
  · rw [World.closeIfSwept_frame]
  · rw [World.clean_closeIfSwept _ (Nat.succ_pos _)]
    simp only [List.map_eq_nil_iff, Nat.add_sub_cancel]

theorem sweepComplete_swept (hv : s.world? w = some v) (hst : v.st ≠ .ending) (hs : slice ∈ v.sweeping)
    (hu : s.sweepSlice w (v.epoch - 1) slice = some u) (hv' : u.world? w = some v') :
    Completes (.sweepComplete w slice) s fun t =>
      if (Map.get SliceHash.reset v'.hashes slice).hr = (Map.get SliceHash.reset v'.hashes slice).hw then
        ∃ z, t = u.setWorld w z ∧ z.sweeping = v'.sweeping.filter (· != slice)
          ∧ z.hashes = Map.put v'.hashes slice (Map.get SliceHash.reset v'.hashes slice).shift
      else ∃ z, t.world? w = some z ∧ z.st = .ending := by
  unfold Completes
  rw [exec_sweepComplete]
  unfold execSweepComplete
  rw [hv]
  dsimp only
  rw [if_neg (by simp [hst, hs]), hu]
  dsimp only
  rw [hv', Option.getD_some]
  by_cases hh : (Map.get SliceHash.reset v'.hashes slice).hr = (Map.get SliceHash.reset v'.hashes slice).hw
  · rw [if_neg (not_not.2 hh)]
    refine ⟨_, rfl, ?_⟩
    rw [if_pos hh]
    refine ⟨_, rfl, ?_, ?_⟩
    · rw [World.closeIfSwept_frame]
    · rw [World.closeIfSwept_frame]
  · rw [if_pos hh]
    exact ⟨_, rfl, by rw [if_neg hh]; exact u.endWorld_ending _ _ _ hv'⟩

theorem sweepComplete_failed (hv : s.world? w = some v) (hst : v.st ≠ .ending) (hs : slice ∈ v.sweeping)
    (hu : s.sweepSlice w (v.epoch - 1) slice = none) :
    Completes (.sweepComplete w slice) s fun t => ∃ z, t.world? w = some z ∧ z.st = .ending := by
  unfold Completes
  rw [exec_sweepComplete]
  unfold execSweepComplete
  rw [hv]
  dsimp only
  rw [if_neg (by simp [hst, hs]), hu]
  exact ⟨_, rfl, s.endWorld_ending _ _ _ hv⟩

/-! ### Certified replies and meter reports (R61, R70, R74) -/

theorem State.world?_ringWrite (s : State) (fn : Nat) (x : Session) (l : List Byte) :
    (s.ringWrite fn x l).1.world? w = s.world? w := by
  unfold State.ringWrite
  dsimp only
  rw [State.devWrite_frame, State.devWrite_frame]
  rfl

theorem certifiedReplyRelease_effect {e : Nat} {r : List Byte} {rest : List (Nat × List Byte)} (hv : s.world? w = some v)
    (hst : v.st ≠ .ending) (hx : Map.get? v.sessions h = some x) (hh : x.held = (e, r) :: rest)
    (hc : ∃ k, v.clean = some k ∧ e ≤ k) (hr : x.produced - s.ringConsumed v.vf x < x.slots) :
    Completes (.certifiedReplyRelease w h) s fun t => ∃ z, t.world? w = some z
      ∧ Map.get? z.sessions h = some { x with consumed := s.ringConsumed v.vf x, held := rest, produced := x.produced + 1 } := by
  obtain ⟨k, hk, he⟩ := hc
  unfold Completes
  rw [exec_certifiedReplyRelease]
  unfold execCertifiedReplyRelease
  rw [hv, Option.bind_some, hx, Option.map_some]
  dsimp only
  simp only [hh]
  rw [if_neg (by simp [hst, hk, he]; omega)]
  exact ⟨_, rfl, _, State.world?_onWorld ((State.world?_ringWrite _ _ _ _).trans hv), Map.get?_put_self _ _ _⟩

/-- The reports of partitions, each after the one before. -/
def State.reportMeters (s : State) (l : List Nat) : State :=
  l.foldl (fun s p => (s.meterReport p false).1.emit (.meterReport p (s.meterReport p false).2)) s

theorem State.Sheds.reportMeters {l} (h : u.Sheds s) : u.Sheds (s.reportMeters l) :=
  h.foldl fun _ _ h => h.onPart.emit

theorem State.worlds_reportMeters (l : List Nat) (s : State) : (s.reportMeters l).worlds = s.worlds := by
  induction l generalizing s with
  | nil => rfl
  | cons a l ih => exact ih _

/-- Every partition of the list has its report. -/
theorem State.mem_out_reportMeters {l : List Nat} (s : State) (hp : p ∈ l) : ∃ r, .meterReport p r ∈ (s.reportMeters l).out := by
  obtain ⟨a, b, rfl⟩ := List.append_of_mem hp
  let c := a.foldl (fun s p => (s.meterReport p false).1.emit (.meterReport p (s.meterReport p false).2)) s
  refine ⟨(c.meterReport p false).2, ?_⟩
  unfold State.reportMeters
  rw [List.foldl_append, List.foldl_cons]
  exact ((State.Sheds.refl _).reportMeters (l := b)).out.subset (List.mem_append_right _ (List.mem_singleton_self _))

theorem meterIntervalExpiry_effect {bundle : Bundle} (hv : s.world? w = some v) (hst : v.st ≠ .ending)
    (hb : v.bundle = some bundle) (hi : bundle.interval ≠ 0) (ht : v.lastMeter + bundle.interval * 1000000000 ≤ s.timebase) :
    Completes (.meterIntervalExpiry w) s fun t => t.world? w = some { v with lastMeter := s.timebase }
      ∧ ∀ e ∈ s.parts, (∃ c ∈ e.2.ctxs, c.2.world = w) → ∃ l, .meterReport e.1 l ∈ t.out := by
  let parts := (s.parts.filter fun p => p.2.ctxs.any fun c => c.2.world == w).map (·.1)
  have e : exec (.meterIntervalExpiry w) s
      = .next ((s.reportMeters parts).onWorld w fun v => { v with lastMeter := (s.reportMeters parts).timebase }) := by
    rw [exec_meterIntervalExpiry]
    unfold execMeterIntervalExpiry
    rw [hv, Option.bind_some, hb, Option.map_some]
    dsimp only
    rw [if_neg (by simp [hst, hi]; omega)]
    rfl
  have hs : s.Sheds (s.reportMeters parts) := (State.Sheds.refl s).reportMeters
  have hw : (s.reportMeters parts).world? w = some v := by unfold State.world?; rw [State.worlds_reportMeters]; exact hv
  refine ⟨_, e, ?_, fun e he ⟨c, hc, hcw⟩ => ?_⟩
  · rw [State.world?_onWorld hw, show (s.reportMeters parts).timebase = s.timebase by rw [hs.frame]]
  · obtain ⟨l, hl⟩ := s.mem_out_reportMeters (l := parts) (p := e.1)
      (List.mem_map.2 ⟨e, List.mem_filter.2 ⟨he, List.any_eq_true.2 ⟨c, hc, by simpa using hcw⟩⟩, rfl⟩)
    exact ⟨l, by unfold State.onWorld; rw [hw]; exact hl⟩

/-! ### Contexts that an error ends (R275, R278) -/

theorem State.Gone.after (h : s.Gone t p ctx) (hk : u.Wanes s) : u.Gone t p ctx :=
  fun hr => h fun e he => hr e ((hk.parts p).2 e he)

theorem State.Gone.wanes (h : u.Gone s p ctx) (hk : s.Wanes t) : u.Gone t p ctx := fun hr => (hk.parts p).1 ctx (h hr)

theorem State.machineCheck_gone (s : State) (p ctx : Nat) : s.Gone (s.machineCheck p ctx) p ctx := by
  intro hr
  unfold State.machineCheck
  by_cases hn : (Map.get? (s.part p).ctxs ctx).isNone = true
  · rw [if_pos hn]
    exact Option.isNone_iff_eq_none.1 hn
  · have hreset : ¬((s.part p).resetOf.any fun e => e.ctx == ctx) = true := by
      cases he : (s.part p).resetOf with
      | none => exact Bool.false_ne_true
      | some e => simpa using hr e he
    rw [if_neg hn, if_neg hreset]
    dsimp only
    rw [State.ctxs_endContext]
    exact Map.get?_erase_self _ _

theorem State.checkCell_gone (h : (s.cell cell).run ≠ .idle) :
    s.Gone (s.checkCell cell) (s.cell cell).ident.part (s.cell cell).ident.ctx := by
  unfold State.checkCell
  dsimp only
  rw [if_neg h]
  exact s.machineCheck_gone _ _

/-- Each context of a list goes in its turn, and stays away. -/
theorem State.checkAll_gone {l : List (Nat × Nat)} {e : Nat × Nat} (s : State) (he : e ∈ l) : s.Gone (s.checkAll l) e.1 e.2 := by
  obtain ⟨a, b, hl⟩ := List.append_of_mem (List.mem_dedup.2 he)
  have hafter {l : List (Nat × Nat)} {u : State} : u.Wanes (l.foldl (fun s x => s.machineCheck x.1 x.2) u) :=
    (State.Wanes.refl u).foldl fun _ _ h => h.machineCheck
  unfold State.checkAll
  rw [hl, List.foldl_append, List.foldl_cons]
  exact ((State.machineCheck_gone _ e.1 e.2).after hafter).wanes hafter

theorem uncorrectableError_cell {err : ErrSite} (hr : (s.cell cell).run ≠ .idle)
    (he : err = .cellStore cell ∨ err = .linkSlot cell ∨ err = .arbourGroup cell) :
    Completes (.uncorrectableError err) s fun t => s.Gone t (s.cell cell).ident.part (s.cell cell).ident.ctx := by
  rcases he with rfl | rfl | rfl
  · exact ⟨_, rfl, State.checkCell_gone hr⟩
  · exact ⟨_, rfl, State.checkCell_gone hr⟩
  · exact ⟨_, rfl, State.checkCell_gone hr⟩

theorem tokenParityError_effect {site dir : Nat} (hq : ((s.cell cell).link (linkOf site dir)).q ≠ [])
    (hr : (s.cell cell).run ≠ .idle) : Completes (.tokenParityError cell site dir) s fun t =>
      s.Gone t (s.cell cell).ident.part (s.cell cell).ident.ctx := by
  unfold Completes
  rw [exec_tokenParityError]
  exact ⟨_, if_neg (by rw [List.isEmpty_iff]; exact hq), State.checkCell_gone hr⟩

theorem remoteAccessTimeout_effect (hl : ∃ r ∈ (s.cell cell).remote, r.late s.timebase = true) (hr : (s.cell cell).run ≠ .idle) :
    Completes (.remoteAccessTimeout cell) s fun t => s.Gone t (s.cell cell).ident.part (s.cell cell).ident.ctx := by
  unfold Completes
  rw [exec_remoteAccessTimeout]
  exact ⟨_, if_pos (List.any_eq_true.2 hl), State.checkCell_gone hr⟩

theorem cxlPoisonRead_effect : Completes (.cxlPoisonRead p ctx) s fun t => s.Gone t p ctx
    ∧ ((Map.get? (s.part p).ctxs ctx).isSome = true → (s.part p).resetOf = none → .msix 0 7 ∈ t.out) := by
  refine ⟨_, rfl, s.machineCheck_gone p ctx, fun hc hn => ?_⟩
  have hsignal : ((s.hyperAdd 8 1).signal 0 7).Stands (s.machineCheck p ctx) := by
    unfold State.machineCheck
    rw [if_neg (by simpa [Option.isSome_iff_ne_none] using hc), if_neg (by simp [hn])]
    exact (((State.Stands.refl _).foldl fun _ _ h => .ite h.secondary h).foldl fun _ _ h =>
      .ite (h.endLaunch.foldl fun _ _ h => h.scrubCells) h.endLaunch).endContext
  exact hsignal.out.subset (List.mem_append_right _ (List.mem_singleton_self _))

theorem State.Stands.checkAll {l} (h : u.Stands s) : u.Stands (s.checkAll l) := h.foldl fun _ _ h => h.machineCheck

theorem cxlPortDown_effect {port : Nat} {victims : List (Nat × Nat)} : Completes (.cxlPortDown port victims) s fun t =>
    port ∈ t.cxlDown ∧ ∀ x ∈ victims, s.Gone t x.1 x.2 := by
  refine ⟨_, rfl, ?_, fun x hx => (State.checkAll_gone _ hx).after (State.Wanes.refl s).update⟩
  rw [((State.Stands.refl _).checkAll (l := victims)).frame]
  exact List.mem_insert_self

/-! ### Damaged lines and units (R150, R275 to R277) -/

theorem l1Line_effect {line : Nat} : Completes (.uncorrectableError (.l1Line cell line)) s fun t =>
    Map.get? (t.cell cell).l1 line = none ∧ Map.get 0 t.hyper 9 = Map.get 0 s.hyper 9 + 1 ∧ SameMemory s t := by
  obtain ⟨hc, hf⟩ := (s.onCell cell fun c => { c with l1 := Map.erase c.l1 line }).hyperAdd_effect 9 1
  refine ⟨_, rfl, ?_, hc, ?_⟩
  · change Map.get? ((State.hyperAdd _ 9 1).cell cell).l1 line = none
    rw [hf]
    change Map.get? ((s.setCell cell _).cell cell).l1 line = none
    rw [State.cell_setCell_self]
    exact Map.get?_erase_self _ _
  · change SameMemory s (State.hyperAdd _ 9 1)
    rw [hf]
    exact .refl s

theorem bandstand_effect {unit : Nat} : Completes (.uncorrectableError (.bandstand unit)) s fun t => unit ∈ t.reloading :=
  ⟨_, rfl, List.mem_insert_self⟩

theorem gardener_effect {unit : Nat} : Completes (.uncorrectableError (.gardener unit)) s fun t => 4 + unit ∈ t.reloading :=
  ⟨_, rfl, List.mem_insert_self⟩

theorem unitReloadComplete_effect {unit : Nat} : Completes (.unitReloadComplete unit) s fun t =>
    t = { s with reloading := s.reloading.filter (· != unit) } := ⟨_, rfl, rfl⟩

/-- The line with a damaged tag is dropped, and nothing comes for it. -/
theorem State.dropDamaged_wanes (s : State) (line : Nat) :
    ({ s with lines := Map.erase s.lines line } : State).Wanes (s.dropDamaged line) := by
  unfold State.dropDamaged
  split
  · next hn => rw [Map.erase_of_get?_none hn]; exact .refl s
  · dsimp only
    split
    · exact State.Wanes.stampWrite (.ite (State.Wanes.refl _).update (.refl _))
    · exact .ite (State.Wanes.refl _).update (.refl _)

theorem commonsTag_effect {line : Nat} : Completes (.uncorrectableError (.commonsTag line)) s fun t =>
    Map.get? t.lines line = none
      ∧ ∀ e ∈ (s.part (s.homePart (64 * line))).ctxs, s.Gone t (s.homePart (64 * line)) e.1 := by
  have hd := s.dropDamaged_wanes line
  exact ⟨_, rfl, (hd.trans (State.Wanes.refl _).checkAll).lines line (Map.get?_erase_self _ _),
    fun e he => (State.checkAll_gone _ (List.mem_map.2 ⟨e, he, rfl⟩)).after ((State.Wanes.refl s).dropLine.trans hd)⟩

theorem State.Wanes.loseSealed {l} (h : u.Wanes s) : u.Wanes (s.loseSealed w l) := .ite h.endWorld (.ite h.sealingFails h)

theorem State.Wanes.foldGroup {base skip} (h : u.Wanes s) : u.Wanes (s.foldGroup base skip) :=
  h.foldl fun _ _ h => .ite h h.foldRange

/-- Leaves may go from every world (R276). -/
theorem State.Wanes.filterLeaves (f : Nat × Leaf → Bool) (h : u.Wanes s) :
    u.Wanes { s with worlds := s.worlds.map fun w => (w.1, { w.2 with leaves := w.2.leaves.filter f }) } := by
  refine h.trans { State.Wanes.refl s with worlds := fun w v hv => ⟨{ v with leaves := v.leaves.filter f }, ?_, .refl v⟩ }
  have e := Map.get?_mapValues (fun v : World => { v with leaves := v.leaves.filter f }) s.worlds w
  rw [show Map.get? s.worlds w = some v from hv] at e
  exact e

theorem State.Wanes.retire {g : Nat} (h : u.Wanes s) : u.Wanes { s with retired := s.retired ++ [g] } :=
  h.trans { State.Wanes.refl s with retired := List.subset_append_left _ _ }

/-- A group that retires is listed, and what goes with it does not come back. -/
theorem State.retireGroup_effect (s : State) (line : Nat) :
    s.Wanes (s.retireGroup line) ∧ line / 1024 ∈ (s.retireGroup line).retired := by
  have hbase : line / 1024 * 65536 / 65536 = line / 1024 := Nat.mul_div_cancel _ (by norm_num)
  unfold State.retireGroup
  dsimp only
  rw [hbase]
  by_cases hr : s.retired.contains (line / 1024) = true
  · rw [if_pos hr]
    exact ⟨.refl s, List.contains_iff_mem.1 hr⟩
  · rw [if_neg hr]
    have hcut : s.Wanes ((({ s with lines := Map.erase s.lines line } : State).flushRange (line / 1024 * 65536) 65536).foldGroup
        (line / 1024 * 65536) line) := (State.Wanes.refl s).dropLine.flushRange.foldGroup
    generalize (({ s with lines := Map.erase s.lines line } : State).flushRange (line / 1024 * 65536) 65536).foldGroup
        (line / 1024 * 65536) line = a at hcut ⊢
    have hfree := (hcut.filterLeaves fun e =>
      !(e.2.evicted.isNone && e.2.level == 0 && rangesMeet e.2.pa pageBytes (line / 1024 * 65536) 65536)).freeRange
        (pa := line / 1024 * 65536) (len := 65536)
    generalize State.freeRange _ (line / 1024 * 65536) 65536 = b at hfree ⊢
    have hlist : line / 1024 ∈ (({ b with retired := b.retired ++ [line / 1024] } : State).hyperAdd 5 1).retired :=
      (State.Wanes.refl _).hyperAdd.retired (List.mem_append_right _ (List.mem_singleton_self _))
    exact ⟨(hfree.retire.hyperAdd).foldl fun _ _ h => h.loseSealed,
      ((State.Wanes.refl _).foldl fun _ _ h => h.loseSealed).retired hlist⟩

/-- A way that is quarantined is listed, and what goes with it does not come back (R276). -/
theorem State.quarantine_effect (s : State) (p line way : Nat) :
    s.Wanes (s.quarantine p line way) ∧ (dieOfPart p, sliceOf line, way, p) ∈ (s.quarantine p line way).quarantined := by
  obtain ⟨a, hevict, e⟩ : ∃ a, s.Wanes a ∧ s.quarantine p line way =
      if a.quarantined.contains (dieOfPart p, sliceOf line, way, p) then a
      else ({ a with quarantined := a.quarantined ++ [(dieOfPart p, sliceOf line, way, p)] } : State).hyperAdd 6 1 :=
    ⟨_, (State.Wanes.refl s).foldl fun _ _ h => h.evictLine, rfl⟩
  rw [e]
  by_cases hq : a.quarantined.contains (dieOfPart p, sliceOf line, way, p) = true
  · rw [if_pos hq]
    exact ⟨hevict, List.contains_iff_mem.1 hq⟩
  · rw [if_neg hq]
    have hlist : a.Wanes { a with quarantined := a.quarantined ++ [(dieOfPart p, sliceOf line, way, p)] } :=
      { State.Wanes.refl a with quarantined := List.subset_append_left _ _ }
    exact ⟨(hevict.trans hlist).hyperAdd,
      (State.Wanes.refl _).hyperAdd.quarantined (List.mem_append_right _ (List.mem_singleton_self _))⟩

theorem hbmLine_effect : Completes (.uncorrectableError (.hbmLine pa p ctx)) s fun t =>
    s.Gone t p ctx ∧ pa / 64 / 1024 ∈ t.retired := by
  have hfold : s.Wanes (if (Map.get? s.lines (pa / 64)).isSome = true then s else s.foldRange (pa / 64 * 64) 64) :=
    .ite (.refl s) (State.Wanes.refl s).foldRange
  refine ⟨_, rfl, ?_⟩
  unfold State.uncorrectable
  dsimp only
  generalize (if (Map.get? s.lines (pa / 64)).isSome = true then s else s.foldRange (pa / 64 * 64) 64) = a at hfold ⊢
  obtain ⟨hr, hm⟩ := a.retireGroup_effect (pa / 64)
  exact ⟨(State.machineCheck_gone _ p ctx).after (hfold.trans hr), (State.Wanes.refl _).machineCheck.retired hm⟩

theorem dirtyLineError_effect {e : LineTag} (hl : Map.get? s.lines (pa / 64) = some e) (hd : e.dirty = true) :
    Completes (.dirtyLineError pa) s fun t => s.Gone t e.part e.owner ∧ pa / 64 / 1024 ∈ t.retired
      ∧ (dieOfPart e.part, sliceOf (pa / 64), e.way, e.part) ∈ t.quarantined := by
  unfold Completes
  rw [exec_dirtyLineError]
  unfold execDirtyLineError
  rw [hl]
  dsimp only
  rw [if_neg (by simp [hd])]
  refine ⟨_, rfl, ?_⟩
  have hdrop : s.Wanes { s with lines := Map.erase s.lines (pa / 64) } := (State.Wanes.refl s).dropLine
  generalize ({ s with lines := Map.erase s.lines (pa / 64) } : State) = a at hdrop ⊢
  obtain ⟨hr, hm⟩ := a.retireGroup_effect (pa / 64)
  obtain ⟨hq, hw⟩ := (a.retireGroup (pa / 64)).quarantine_effect e.part (pa / 64) e.way
  exact ⟨(State.machineCheck_gone _ _ _).after (hdrop.trans (hr.trans hq)),
    (State.Wanes.refl _).machineCheck.retired (hq.retired hm),
    (State.Wanes.refl _).machineCheck.quarantined hw⟩

theorem cleanLineError_unprotected {e : LineTag} (hl : Map.get? s.lines (pa / 64) = some e) (hd : e.dirty = false)
    (hp : s.protectedWorld (pa / 64) = none) : Completes (.cleanLineError pa) s fun t => t = s.hyperAdd 9 1 := by
  unfold Completes
  rw [exec_cleanLineError]
  unfold execCleanLineError
  dsimp only
  rw [hl]
  dsimp only
  rw [if_neg (by simp [hd]), hp]
  exact ⟨_, rfl, rfl⟩

theorem cleanLineError_protected {e : LineTag} (hl : Map.get? s.lines (pa / 64) = some e) (hd : e.dirty = false)
    (hp : s.protectedWorld (pa / 64) = some w) (hv : s.world? w = some v) : Completes (.cleanLineError pa) s fun t =>
      if Map.get 0 s.stamps (pa / 64) = e.stamp
          ∧ (s.term v (pa / 64) (Map.get 0 s.stamps (pa / 64))).extractLsb' 0 64 = e.check
      then t = s.hyperAdd 9 1 else ∃ z, t.world? w = some z ∧ z.st = .ending := by
  unfold Completes
  rw [exec_cleanLineError]
  unfold execCleanLineError
  dsimp only
  rw [hl]
  dsimp only
  rw [if_neg (by simp [hd]), hp, Option.bind_some, hv, Option.map_some]
  dsimp only
  split
  · exact ⟨_, rfl, rfl⟩
  · exact ⟨_, rfl, s.endWorld_ending _ _ _ hv⟩

/-- Settles O53, event by event: an error's contexts go (`State.machineCheck_gone`), and neither what ends after them nor what
ended before brings back a line, a context or a pending reset (`State.Wanes`). -/
theorem epochsWorldEndsAndErrors : Obligations.EpochsWorldEndsAndErrors := by
  unfold Obligations.EpochsWorldEndsAndErrors
  intro s u w p ctx slice h cell site dir pa port unit v v' y x e rec_ rest bundle t0 victims err
  refine ⟨sealingTimeout_effect, worldScrubComplete_effect, ?_, ?_, ?_, ?_, ?_, uncorrectableError_cell, hbmLine_effect,
    l1Line_effect, commonsTag_effect, bandstand_effect, gardener_effect, unitReloadComplete_effect, dirtyLineError_effect,
    cleanLineError_unprotected, ?_, tokenParityError_effect, remoteAccessTimeout_effect, cxlPoisonRead_effect,
    cxlPortDown_effect⟩
  · exact fun ⟨hv, hst⟩ => epochEnd_effect hv hst
  · exact fun ⟨hv, hst⟩ hs hu hv' _ => sweepComplete_swept hv hst hs hu hv'
  · exact fun ⟨hv, hst⟩ => sweepComplete_failed hv hst
  · exact fun ⟨hv, hst⟩ => certifiedReplyRelease_effect hv hst
  · exact fun ⟨hv, hst⟩ => meterIntervalExpiry_effect hv hst
  · exact fun hl hd hp ⟨hv, _⟩ => cleanLineError_protected hl hd hp hv
end

end Sys2Proof.Machine
end

