-- ==== Sys2Proof/Proofs/Nodes.lean ====
section
/-! Nodes whose graph does not say what a dispatch or a completion of them needs: the two statements of R85 to R91 and R94 that
ask for it in every state. -/

namespace Sys2Proof.Machine

/-! ### A ready WAIT whose graph already holds a result of it (R88, R89) -/

/-- A WAIT for event 0 to reach 1, without a timeout. -/
def waitBytes : List Byte := [0x08] ++ List.replicate 23 0 ++ [1] ++ List.replicate 39 0

/-- A graph of that node alone, which is ready and yet has a result that NODE_COMPLETE has not taken. -/
def staleGraph : Graph :=
  { newGraph 0 [waitBytes] 3 with results := [(0, { status := .ok, cause := 0, detail := 0 })] }

/-- A module in which queue 0 of a function walks a graph, and nothing else happens. -/
def walking (fn : Nat) (g : Graph) : State :=
  { State.reset with funcs := [(fn, { Func.reset with queues := [(0, { Queue.reset with graph := some g })] })] }

theorem staleGraph_ready : Ready (walking 1 staleGraph) 1 0 0 0x08 waitBytes :=
  { node := by decide, turn := by decide, walks := by decide }

/-- The turn of the node dispatches it, and its event stands below the threshold. -/
theorem exec_waitNode_stale :
    exec (.waitNode 1 0 0) (walking 1 staleGraph) = .next ((walking 1 staleGraph).begun 1 0 0) := by
  rw [exec_waitNode]
  unfold execWaitNode State.withNode
  rw [show (walking 1 staleGraph).nodeOf 1 0 0 0x08 = none by decide, staleGraph_ready.node]
  dsimp only
  rw [if_pos (by decide), if_neg (by decide)]

/-- Refutes O45: a ready WAIT below its threshold is dispatched, but where its graph already holds a result of it, it does not
then stand as a node that waits (`State.nodeOf` asks that it has no result, `Ready` does not). -/
theorem not_graphsAndTheirNodes : ¬ Obligations.GraphsAndTheirNodes := by
  unfold Obligations.GraphsAndTheirNodes
  intro h
  obtain ⟨-, -, -, -, -, hwait, -⟩ :=
    h (walking 1 staleGraph) 1 0 0 waitBytes staleGraph { status := .ok, cause := 0, detail := 0 } []
  obtain ⟨t, ht, -, -, -, hnode⟩ := hwait staleGraph_ready
  cases exec_waitNode_stale.symm.trans ht
  exact absurd (hnode (by decide)) (by decide)

/-! ### A firmware update whose node has finished (R89, R94) -/

/-- A graph of an FW_ACTIVATE node that has finished. -/
def finishedGraph : Graph := { newGraph 0 [[0x14]] 3 with st := [.finished] }

/-- The new firmware starts for that node. -/
def activating : State :=
  { walking 0 finishedGraph with
    lodge := { Lodge.reset with fw := .activating, fwNode := some (0, 0, 0), staged := some { version := 1, digest := 0 } } }

/-- Refutes O48: the result of an activation is recorded by `Graph.put`, which leaves a node that has finished as it is; the
clause asks of the update's node only that its queue has a graph. -/
theorem not_administrationAndFirmware : ¬ Obligations.AdministrationAndFirmware := by
  unfold Obligations.AdministrationAndFirmware
  intro h
  obtain ⟨-, -, -, -, -, -, -, -, -, -, hresult⟩ := h activating 0 0 0 [] [] [] { version := 1, digest := 0 } false finishedGraph
  obtain ⟨t, ht, -, ⟨g, hg, hfinishes⟩, -⟩ := hresult rfl ⟨rfl, rfl, rfl⟩
  cases ht
  cases hg
  exact absurd hfinishes (by decide)

end Sys2Proof.Machine
end

