-- ==== Sys2Proof/Proofs/Debug.lean ====
section
/-! Trace and debug requests of a virtual function (R98, R284 to R289), the world-end records (R272), and breakpoints (R287). -/

namespace Sys2Proof.Machine

/-! ### The cells of a partition -/

/-- The same change of every cell of a list. -/
def State.onCells (s : State) (l : List Nat) (f : Cell → Cell) : State := l.foldl (fun s n => s.onCell n f) s

section
variable {s t : State} {fn code len p c cell bp link : Nat} {r : MbReq}

/-- A change that makes no difference the second time reaches each cell of the list, and no other. -/
theorem State.cell_onCells {f : Cell → Cell} (hf : ∀ c, f (f c) = f c) (l : List Nat) (s : State) (m : Nat) :
    (s.onCells l f).cell m = if m ∈ l then f (s.cell m) else s.cell m := by
  unfold State.onCells
  induction l generalizing s with
  | nil => rfl
  | cons n l ih =>
    rw [List.foldl_cons, ih, State.onCell_eq, State.cell_setCell]
    by_cases hn : m = n
    · subst hn
      simp [hf]
    · simp [hn]

theorem State.onCells_frame (s : State) (l : List Nat) (f : Cell → Cell) :
    s.onCells l f = { s with cells := (s.onCells l f).cells } := by
  unfold State.onCells
  induction l generalizing s with
  | nil => rfl
  | cons n l ih =>
    rw [List.foldl_cons, ih]
    rfl

theorem State.part_onCells (s : State) (l : List Nat) (f : Cell → Cell) (p : Nat) : (s.onCells l f).part p = s.part p := by
  rw [State.onCells_frame]; rfl

theorem State.sameMail_onCells (s : State) (l : List Nat) (f : Cell → Cell) : s.SameMail (s.onCells l f) := by
  rw [State.onCells_frame]; exact .refl s

theorem Cell.freeze_freeze (c : Cell) : c.freeze.freeze = c.freeze := by
  cases h : c.run <;> simp [Cell.freeze, h]

theorem Cell.thaw_thaw (c : Cell) : c.thaw.thaw = c.thaw := by
  cases h : c.run with
  | stopped b => cases b <;> simp [Cell.thaw, h]
  | _ => simp [Cell.thaw, h]

theorem Cell.bps_freeze (c : Cell) : c.freeze.bps = c.bps := by
  unfold Cell.freeze
  split <;> rfl

theorem Cell.bps_thaw (c : Cell) : c.thaw.bps = c.bps := by
  unfold Cell.thaw
  split <;> rfl

/-! ### What answers and traces leave -/

theorem State.part_mbDone (s : State) (r : MbReq) (st : Status) (d : Nat) (resp : List Byte) (p : Nat) :
    (s.mbDone r st d resp).part p = s.part p := by
  rw [State.mbDone_frame]; rfl

theorem State.cell_mbDone (s : State) (r : MbReq) (st : Status) (d : Nat) (resp : List Byte) (n : Nat) :
    (s.mbDone r st d resp).cell n = s.cell n := by
  rw [State.mbDone_frame]; rfl

theorem State.stop_onPart {f : Part → Part} (s : State) (q p : Nat) (hf : ∀ v, (f v).stop = v.stop := by exact fun _ => rfl) :
    ((s.onPart q f).part p).stop = (s.part p).stop :=
  State.part_onPart_of_keeps Part.stop s q hf p

theorem State.stop_countEvent (s : State) (q i n p : Nat) : ((s.countEvent q i n).part p).stop = (s.part p).stop := by
  unfold State.countEvent
  dsimp only
  rw [apply_ite (State.part · p)]
  rw [State.signal, State.part_emit, ite_self]
  exact s.stop_onPart q p

theorem State.stop_traceOf (s : State) (q ctx kind n flags : Nat) (l : List Byte) (p : Nat) :
    ((s.traceOf q ctx kind n flags l).part p).stop = (s.part p).stop := by
  unfold State.traceOf
  dsimp only
  split
  · exact s.stop_countEvent _ _ _ p
  · split_ifs
    · exact s.stop_countEvent _ _ _ p
    · refine (State.stop_onPart _ q p).trans ?_
      rw [State.devWrite_frame]
      rfl

/-- A trace record moves the tail of its ring or counts a lost one: no partition stops or goes on. -/
theorem State.stop_trace (s : State) (q kind n flags : Nat) (l : List Byte) (p : Nat) :
    ((s.trace q kind n flags l).part p).stop = (s.part p).stop := s.stop_traceOf _ _ _ _ _ _ p

/-! ### What the mailbox keeps -/

theorem State.sameMail_onPart (s : State) (p : Nat) (f : Part → Part) : s.SameMail (s.onPart p f) := ⟨rfl, fun _ => rfl⟩

theorem State.sameMail_onCell (s : State) (n : Nat) (f : Cell → Cell) : s.SameMail (s.onCell n f) := ⟨rfl, fun _ => rfl⟩

theorem State.sameMail_onContext (s : State) (p c : Nat) (f : Context → Context) : s.SameMail (s.onContext p c f) :=
  s.sameMail_onPart p _

theorem State.sameMail_onLodge (s : State) (f : Lodge → Lodge) (hf : (f s.lodge).inbox = s.lodge.inbox) :
    s.SameMail (s.onLodge f) := ⟨hf, fun _ => rfl⟩

/-! ### TRACECFG and WORLDEND -/

theorem tracecfg_effect (h : Serves s fn 0x20 r) (hp : leAt r.body 0 1 = p) (hlo : 4 ≤ leAt r.body 1 1)
    (hhi : leAt r.body 1 1 ≤ 20) (hmask : leAt r.body 24 4 < 2 ^ 24) (ho : s.owns fn p = true)
    (hring : (s.stagingRead fn (BitVec.ofNat 64 (leAt r.body 8 8)) (64 * 2 ^ leAt r.body 1 1)).isSome = true)
    (hhead : (s.stagingRead fn (BitVec.ofNat 64 (leAt r.body 16 8)) 8).isSome = true) :
    Completes (.tracecfg fn) s fun t => Answers s t r .ok ∧ (t.part p).trace = some {
      ring := BitVec.ofNat 64 (leAt r.body 8 8), logn := leAt r.body 1 1, head := BitVec.ofNat 64 (leAt r.body 16 8)
      mask := BitVec.ofNat 32 (leAt r.body 24 4), probes := (r.body.drop 32).take 24, tail := 0 } := by
  subst hp
  have hplace : leAt r.body 0 1 < 16 := by
    simp only [State.owns, Bool.and_eq_true, decide_eq_true_eq] at ho
    exact ho.1.1
  unfold Completes
  rw [exec_tracecfg]
  unfold execTracecfg
  rw [h.withRequest]
  dsimp only
  rw [if_neg (by omega), if_neg (by simp [ho]), if_neg (by simp [← Option.not_isSome, hring, hhead])]
  refine ⟨_, rfl, h.answers (s.sameMail_onPart _ _) _ _, ?_⟩
  rw [State.part_mbDone, State.onPart_eq, State.part_setPart_self]

/-- The records that stay are those of the other functions and, of this one, what follows the first 64. -/
theorem worldend_effect
    (h : Serves s fn 0x29 r (((s.lodge.worldEnds.filter fun e => e.1 == fn).take 64).flatMap fun e => e.2).length) :
    Completes (.worldend fn) s fun t => Answers s t r .ok
      ∧ (t.lodge.worldEnds.filter fun e => e.1 == fn) = (s.lodge.worldEnds.filter fun e => e.1 == fn).drop 64
      ∧ (t.lodge.worldEnds.filter fun e => e.1 != fn) = s.lodge.worldEnds.filter fun e => e.1 != fn := by
  have hmine : ∀ e ∈ (s.lodge.worldEnds.filter fun e => e.1 == fn).drop 64, e.1 = fn := fun e he => by
    simpa using (List.mem_filter.1 (List.mem_of_mem_drop he)).2
  unfold Completes
  rw [exec_worldend]
  unfold execWorldend
  rw [h.withRequest]
  have hkept : ((s.lodge.worldEnds.filter fun e => e.1 == fn).drop 64).filter (fun e => e.1 == fn)
      = (s.lodge.worldEnds.filter fun e => e.1 == fn).drop 64 := List.filter_eq_self.2 fun e he => by simp [hmine e he]
  have hgone : ((s.lodge.worldEnds.filter fun e => e.1 == fn).drop 64).filter (fun e => e.1 != fn) = [] :=
    List.filter_eq_nil_iff.2 fun e he => by simp [hmine e he]
  have hothers : (s.lodge.worldEnds.filter fun e => e.1 != fn).filter (fun e => e.1 == fn) = [] :=
    List.filter_eq_nil_iff.2 fun e he => by simpa using (List.mem_filter.1 he).2
  refine ⟨_, rfl, h.answers (s.sameMail_onLodge _ rfl) _ _, ?_, ?_⟩
  · rw [State.mbDone_frame]
    change List.filter _ (_ ++ _) = _
    rw [List.filter_append, hothers, hkept, List.nil_append]
  · rw [State.mbDone_frame]
    change List.filter _ (_ ++ _) = _
    rw [List.filter_append, hgone, List.append_nil, List.filter_filter]
    simp only [Bool.and_self]

/-! ### Attaching (R286) -/

/-- A context that is changed keeps its place. -/
theorem State.get?_onContext (s : State) (p c : Nat) (f : Context → Context) :
    Map.get? ((s.onContext p c f).part p).ctxs c = (Map.get? (s.part p).ctxs c).map f := by
  unfold State.onContext
  rw [State.onPart_eq, State.part_setPart_self]
  dsimp only
  rw [Map.get?_map fun e => by split <;> rfl]
  simp

theorem attach_effect {x : Context} (h : Serves s fn 0x21 r) (hp : leAt r.body 0 1 = p) (hc : leAt r.body 1 1 = c) (hle : c ≤ 3)
    (ho : s.owns fn p = true) (hx : Map.get? (s.part p).ctxs c = some x) (hd : x.debug = true) (ha : x.attached = false) :
    Completes (.attach fn) s fun t => Answers s t r .ok
      ∧ Map.get? (t.part p).ctxs c = some { x with attached := true, preemptedNote := false } := by
  subst hp hc
  have hplace : leAt r.body 0 1 < 16 := by
    simp only [State.owns, Bool.and_eq_true, decide_eq_true_eq] at ho
    exact ho.1.1
  unfold Completes
  rw [exec_attach]
  unfold execAttach
  rw [h.withRequest]
  dsimp only
  rw [if_neg (by omega), if_neg (by simp [ho]), hx]
  dsimp only
  rw [if_neg (by simp [hd]), if_neg (by simp [ha])]
  refine ⟨_, rfl, h.answers (s.sameMail_onContext _ _ _) _ _, ?_⟩
  rw [State.part_mbDone, State.get?_onContext, hx]
  rfl

/-- A request of the function whose debugger is attached to the context runs. -/
theorem Debugs.withDebug (h : Debugs s fn code r p c len) (k : MbReq → Nat → Nat → State) :
    s.withDebug fn code k = .next (k r p c) := by
  obtain ⟨hserves, ⟨rfl, rfl, hc, ho⟩, x, hx, ha, hn⟩ := h
  have hplace : leAt r.body 0 1 < 16 := by
    simp only [State.owns, Bool.and_eq_true, decide_eq_true_eq] at ho
    exact ho.1.1
  unfold State.withDebug
  rw [hserves.withRequest]
  dsimp only
  rw [if_neg (by omega), if_pos ho, hx]
  dsimp only
  rw [if_neg (by simp [ha]), if_neg (by simp [hn])]

/-! ### Stops (R288) -/

theorem OnlyLogs.cell_eq (h : OnlyLogs s t) (n : Nat) : t.cell n = s.cell n := by
  unfold State.cell; rw [h]

theorem OnlyLogs.sameMail (h : OnlyLogs s t) : s.SameMail t := by
  rw [h]; exact ⟨rfl, fun _ => rfl⟩

/-- A stop that begins freezes the cells of its partition, takes the next number and leaves a trace. -/
theorem State.beginStop_of_none (h : (s.part p).stop = none) (n bp link ordinal : Nat) :
    ∃ l, s.beginStop p n bp link ordinal = ((s.onCells (cellsOfPart p) Cell.freeze).onPart p fun v =>
      { v with stop := some ((s.part p).stops + 1), stops := (s.part p).stops + 1 }).trace p 6 n 0 l := by
  unfold State.beginStop State.onCells
  dsimp only
  rw [h]
  exact ⟨_, rfl⟩

theorem State.beginStop_effect (h : (s.part p).stop = none) (n bp link ordinal : Nat) :
    ((s.beginStop p n bp link ordinal).part p).stop = some ((s.part p).stops + 1)
    ∧ (∀ m, (s.beginStop p n bp link ordinal).cell m = if m ∈ cellsOfPart p then (s.cell m).freeze else s.cell m)
    ∧ s.SameMail (s.beginStop p n bp link ordinal) := by
  obtain ⟨l, e⟩ := State.beginStop_of_none h n bp link ordinal
  rw [e]
  refine ⟨?_, fun m => ?_, ?_⟩
  · rw [State.stop_trace, State.onPart_eq, State.part_setPart_self]
  · rw [(State.trace_onlyLogs _ p 6 n 0 l).cell_eq, State.onPart_eq, State.cell_setPart, State.cell_onCells Cell.freeze_freeze]
  · exact ((s.sameMail_onCells _ _).trans (State.sameMail_onPart _ p _)).trans (State.trace_onlyLogs _ p 6 n 0 l).sameMail

/-- A stopped partition that goes on thaws its cells. -/
theorem State.resumePart_of_stopped (h : (s.part p).stop.isSome = true) : s.resumePart p
    = (s.onCells (cellsOfPart p) Cell.thaw).onPart p fun v => { v with stop := none } :=
  if_neg (by simpa [Option.isSome_iff_ne_none] using h)

theorem State.resumePart_of_none (h : (s.part p).stop = none) : s.resumePart p = s := if_pos (by rw [h]; rfl)

/-- Once a partition has been told to go on it is not stopped; contexts and breakpoints stay. -/
theorem State.resumePart_effect (s : State) (p : Nat) : ((s.resumePart p).part p).stop = none
    ∧ ((s.resumePart p).part p).ctxs = (s.part p).ctxs
    ∧ (∀ n, ((s.resumePart p).cell n).bps = (s.cell n).bps) ∧ s.SameMail (s.resumePart p) := by
  cases hs : (s.part p).stop with
  | none =>
    rw [State.resumePart_of_none hs]
    exact ⟨hs, rfl, fun _ => rfl, .refl s⟩
  | some k =>
    rw [State.resumePart_of_stopped (by rw [hs]; rfl)]
    refine ⟨?_, ?_, fun n => ?_, (s.sameMail_onCells _ _).trans (State.sameMail_onPart _ p _)⟩
    · rw [State.onPart_eq, State.part_setPart_self]
    · rw [State.onPart_eq, State.part_setPart_self, State.part_onCells]
    rw [State.onPart_eq, State.cell_setPart, State.cell_onCells Cell.thaw_thaw]
    split
    · exact Cell.bps_thaw _
    · rfl

theorem debugStop_effect (h : Debugs s fn 0x25 r p c) (hr : s.runsContext p c = true) (hs : s.starts p = false)
    (hn : (s.part p).stop = none) : Completes (.debugStop fn) s fun t => Answers s t r .ok
      ∧ (t.part p).stop = some ((s.part p).stops + 1) ∧ ∀ k ∈ cellsOfPart p, t.cell k = (s.cell k).freeze := by
  unfold Completes
  rw [exec_debugStop]
  unfold execDebugStop
  rw [h.withDebug]
  dsimp only
  rw [if_neg (by simp [hr]), if_neg (by simp [hs]), if_neg (by simp [hn])]
  obtain ⟨hstop, hcells, hmail⟩ := State.beginStop_effect hn 0xFFFF 0xFF 0 0
  refine ⟨_, rfl, h.serves.answers hmail _ _, ?_, fun k hk => ?_⟩
  · rw [State.part_mbDone, hstop]
  · rw [State.cell_mbDone, hcells, if_pos hk]

theorem debugResume_effect (h : Debugs s fn 0x26 r p c) (hr : s.runsContext p c = true) (hs : (s.part p).stop.isSome = true) :
    Completes (.debugResume fn) s fun t => Answers s t r .ok ∧ (t.part p).stop = none
      ∧ ∀ k ∈ cellsOfPart p, t.cell k = (s.cell k).thaw := by
  unfold Completes
  rw [exec_debugResume]
  unfold execDebugResume
  rw [h.withDebug]
  dsimp only
  rw [if_pos hr]
  obtain ⟨hstop, -, -, hmail⟩ := s.resumePart_effect p
  refine ⟨_, rfl, h.serves.answers hmail _ _, ?_, fun k hk => ?_⟩
  · rw [State.part_mbDone, hstop]
  · rw [State.cell_mbDone, State.resumePart_of_stopped hs, State.onPart_eq, State.cell_setPart,
      State.cell_onCells Cell.thaw_thaw, if_pos hk]

/-- A cell without its breakpoints. -/
def Cell.noBps (c : Cell) : Cell := { c with bps := [] }

/-- What DETACH leaves of its partition: no breakpoints, and no stop where the context that leaves ran. -/
def State.detached (s : State) (p c : Nat) : State :=
  let s := s.onCells (cellsOfPart p) Cell.noBps
  if s.runsContext p c then s.resumePart p else s

theorem State.detached_effect (s : State) (p c : Nat) : s.SameMail (s.detached p c)
    ∧ ((s.detached p c).part p).ctxs = (s.part p).ctxs ∧ (∀ k ∈ cellsOfPart p, ((s.detached p c).cell k).bps = [])
    ∧ (s.runsContext p c = true → ((s.detached p c).part p).stop = none) := by
  have hmail := s.sameMail_onCells (cellsOfPart p) Cell.noBps
  have hpart := s.part_onCells (cellsOfPart p) Cell.noBps p
  have hbps (k) (hk : k ∈ cellsOfPart p) : ((s.onCells (cellsOfPart p) Cell.noBps).cell k).bps = [] := by
    rw [State.cell_onCells (f := Cell.noBps) fun _ => rfl, if_pos hk]
    rfl
  have hruns : (s.onCells (cellsOfPart p) Cell.noBps).runsContext p c = s.runsContext p c := by
    unfold State.runsContext
    rw [hpart, s.onCells_frame]
  unfold State.detached
  dsimp only
  rw [hruns]
  generalize s.onCells (cellsOfPart p) Cell.noBps = a at hmail hpart hbps
  split
  · obtain ⟨hstop, hctxs, hkept, hmail'⟩ := a.resumePart_effect p
    exact ⟨hmail.trans hmail', hctxs.trans (congrArg Part.ctxs hpart), fun k hk => (hkept k).trans (hbps k hk), fun _ => hstop⟩
  · next hr => exact ⟨hmail, congrArg Part.ctxs hpart, hbps, fun h => absurd h hr⟩

/-- A context that its debugger leaves loses the breakpoints of its partition, and the stop that it began. -/
theorem detach_effect (h : Debugs s fn 0x22 r p c) : Completes (.detach fn) s fun t => Answers s t r .ok
    ∧ (∃ x, Map.get? (t.part p).ctxs c = some x ∧ x.attached = false) ∧ (∀ k ∈ cellsOfPart p, (t.cell k).bps = [])
    ∧ (s.runsContext p c = true → (t.part p).stop = none) := by
  obtain ⟨x, hx, -⟩ := h.attached
  unfold Completes
  rw [exec_detach]
  unfold execDetach
  rw [h.withDebug]
  refine ⟨((s.detached p c).onContext p c fun x => { x with attached := false }).mbDone r .ok, rfl, ?_⟩
  obtain ⟨hmail, hctxs, hbps, hstop⟩ := s.detached_effect p c
  generalize s.detached p c = b at hmail hctxs hbps hstop ⊢
  refine ⟨h.serves.answers (hmail.trans (State.sameMail_onContext b p c _)) _ _, ⟨{ x with attached := false }, ?_, rfl⟩,
    fun k hk => ?_, fun hr => ?_⟩
  · rw [State.part_mbDone, State.get?_onContext]
    exact congrArg (Option.map _) ((congrArg (Map.get? · c) hctxs).trans hx)
  · rw [State.cell_mbDone]
    exact hbps k hk
  · rw [State.part_mbDone]
    exact (b.stop_onPart p p).trans (hstop hr)

/-! ### Breakpoints (R287) -/

/-- A change of one cell, answered: the cell is changed, and no other. -/
theorem State.cell_mbDone_onCell (s : State) (r : MbReq) (st : Status) (d n : Nat) (f : Cell → Cell) :
    ((s.onCell n f).mbDone r st d).cell n = f (s.cell n)
    ∧ ∀ k, k ≠ n → ((s.onCell n f).mbDone r st d).cell k = s.cell k := by
  refine ⟨?_, fun k hk => ?_⟩
  · rw [State.cell_mbDone, State.onCell_eq, State.cell_setCell_self]
  · rw [State.cell_mbDone, State.onCell_eq, State.cell_setCell, if_neg hk]

theorem setbp_effect (h : Debugs s fn 0x23 r p c) (hl : bpLink r.body = some link) (hi : leAt r.body 2 1 ≤ 23)
    (hb : leAt r.body 3 1 ≤ 3) (hn : leAt r.body 8 4 ≠ 0) : Completes (.setbp fn) s fun t => Answers s t r .ok
      ∧ (t.cell (cellOf p (leAt r.body 2 1))).bps
        = Map.put (s.cell (cellOf p (leAt r.body 2 1))).bps (leAt r.body 3 1) (link, leAt r.body 8 4, 0)
      ∧ ∀ k, k ≠ cellOf p (leAt r.body 2 1) → t.cell k = s.cell k := by
  unfold Completes
  rw [exec_setbp]
  unfold execSetbp
  rw [h.withDebug, hl]
  dsimp only
  rw [if_neg (by omega)]
  obtain ⟨hself, hothers⟩ := s.cell_mbDone_onCell r .ok 0 (cellOf p (leAt r.body 2 1)) fun c =>
    { c with bps := Map.put c.bps (leAt r.body 3 1) (link, leAt r.body 8 4, 0) }
  exact ⟨_, rfl, h.serves.answers (s.sameMail_onCell _ _) _ _, congrArg Cell.bps hself, hothers⟩

theorem clrbp_effect (h : Debugs s fn 0x24 r p c) (hi : leAt r.body 2 1 ≤ 23) (hb : leAt r.body 3 1 ≤ 3) :
    Completes (.clrbp fn) s fun t => Answers s t r .ok
      ∧ (t.cell (cellOf p (leAt r.body 2 1))).bps = Map.erase (s.cell (cellOf p (leAt r.body 2 1))).bps (leAt r.body 3 1)
      ∧ ∀ k, k ≠ cellOf p (leAt r.body 2 1) → t.cell k = s.cell k := by
  unfold Completes
  rw [exec_clrbp]
  unfold execClrbp
  rw [h.withDebug]
  dsimp only
  rw [if_neg (by omega)]
  obtain ⟨hself, hothers⟩ := s.cell_mbDone_onCell r .ok 0 (cellOf p (leAt r.body 2 1)) fun c =>
    { c with bps := Map.erase c.bps (leAt r.body 3 1) }
  exact ⟨_, rfl, h.serves.answers (s.sameMail_onCell _ _) _ _, congrArg Cell.bps hself, hothers⟩

/-- A breakpoint that hits stops its partition, and has served (R287). -/
theorem breakpointHit_effect {n count : Nat} (hbp : Map.get? (s.cell cell).bps bp = some (link, n, count))
    (hrun : (s.cell cell).enginesRun = true) (hhead : ∃ k, ((s.cell cell).link link).q.head? = some k ∧ k.kind = .data)
    (hcount : n + (((s.cell cell).link link).q.filter fun t => t.kind == .data).length = count + 1)
    (hs : s.starts (partOfCell cell) = false) (hn : (s.part (partOfCell cell)).stop = none)
    (hmem : cell ∈ cellsOfPart (partOfCell cell)) : Completes (.breakpointHit cell bp) s fun t =>
      (t.part (partOfCell cell)).stop = some ((s.part (partOfCell cell)).stops + 1) ∧ Map.get? (t.cell cell).bps bp = none
      ∧ ((s.cell cell).run = .running → (t.cell cell).run = .stopped false) := by
  have hdata : (((s.cell cell).link link).q.head?.any fun t => t.kind == .data) = true := by
    obtain ⟨k, hk, hkind⟩ := hhead
    rw [hk]
    exact beq_iff_eq.2 hkind
  unfold Completes
  rw [exec_breakpointHit]
  unfold execBreakpointHit
  dsimp only
  rw [hbp]
  dsimp only
  rw [if_neg (by simp [hrun, hs, hdata, hcount])]
  obtain ⟨hstop, hcells, -⟩ := State.beginStop_effect
    (s := s.onCell cell fun c => { c with bps := Map.erase c.bps bp }) hn cell bp link n
  have hcell := ((hcells cell).trans (if_pos hmem)).trans (congrArg Cell.freeze (State.cell_setCell_self s cell _))
  refine ⟨_, rfl, hstop, ?_, fun hr => ?_⟩
  · rw [hcell, Cell.bps_freeze]
    exact Map.get?_erase_self _ _
  · rw [hcell]
    unfold Cell.freeze
    dsimp only
    rw [hr]

/-! ### Reading and writing a stopped cell (R289) -/

theorem debugRead_effect (h : Debugs s fn 0x27 r p c (s.debugBytes (debugRefOf p r.body)).length)
    (hs : s.stoppedIn p c = true) (hi : leAt r.body 2 1 ≤ 23) (hd : s.debugFails (debugRefOf p r.body) = none) :
    Completes (.debugRead fn) s fun t => Answers s t r .ok ∧ t.cells = s.cells ∧ t.parts = s.parts := by
  unfold Completes
  rw [exec_debugRead]
  unfold execDebugRead
  rw [h.withDebug]
  dsimp only
  rw [if_neg (by omega), if_neg (by simp [hs]), hd]
  refine ⟨_, rfl, h.serves.answers (.refl s) _ _, ?_, ?_⟩
  · rw [State.mbDone_frame]
  · rw [State.mbDone_frame]

/-- Space 5 is the scratchpad of the cell. -/
theorem State.debugPut_scratch {d : DebugRef} (h : d.space = 5) (l : List Byte) :
    s.debugPut d l = s.onCell d.cell fun c => c.scratchWrite d.first (l.take d.len) := by
  unfold State.debugPut
  rw [h]
  rfl

theorem debugWrite_effect (h : Debugs s fn 0x28 r p c) (hs : s.stoppedIn p c = true) (hi : leAt r.body 2 1 ≤ 23)
    (hd : s.debugFails (debugRefOf p r.body) = none) (hspace : (debugRefOf p r.body).space = 5) :
    Completes (.debugWrite fn) s fun t => Answers s t r .ok
      ∧ t.cell (debugRefOf p r.body).cell = (s.cell (debugRefOf p r.body).cell).scratchWrite (debugRefOf p r.body).first
        ((r.body.drop 64).take (debugRefOf p r.body).len)
      ∧ ∀ k, k ≠ (debugRefOf p r.body).cell → t.cell k = s.cell k := by
  unfold Completes
  rw [exec_debugWrite]
  unfold execDebugWrite
  rw [h.withDebug]
  dsimp only
  rw [if_neg (by omega), if_neg (by simp [hs]), hd]
  dsimp only
  generalize debugRefOf p r.body = d at hspace ⊢
  rw [if_neg (by simp [hspace])]
  rw [State.debugPut_scratch hspace]
  exact ⟨_, rfl, h.serves.answers (s.sameMail_onCell _ _) _ _, s.cell_mbDone_onCell _ _ _ _ _⟩
end

/-- Settles O51: each request does its work at the place its body names, and answers; a stop freezes the cells of its partition
and takes the next number. -/
theorem debugRequests : Obligations.DebugRequests := by
  unfold Obligations.DebugRequests
  intro s fn p c bp l n count cell r x
  refine ⟨tracecfg_effect, attach_effect, detach_effect, setbp_effect, clrbp_effect, debugStop_effect, debugResume_effect,
    ?_, ?_, worldend_effect, ?_⟩
  · exact fun h ⟨hs, hi, hd⟩ => debugRead_effect h hs hi hd
  · exact fun h ⟨hs, hi, hd⟩ => debugWrite_effect h hs hi hd
  · rintro ⟨hbp, hrun, hhead, hcount⟩ rfl hs hn hmem
    exact breakpointHit_effect hbp hrun hhead hcount hs hn hmem

end Sys2Proof.Machine
end

