-- ==== Sys2Proof/Proofs/Calms.lean ====
section
/-! What the discarded and the drained work of one cell leaves alone: no partition is stopped by it, and each other cell that is
idle or saves its image still does (R116 to R118). -/

namespace Sys2Proof.Machine

/-- The cell runs nothing: it is idle, or it saves its image. -/
def Cell.Rests (c : Cell) : Prop := c.run = .idle ∨ ∃ h, c.run = .saving h

/-- No partition has been stopped, and no cell but n has left its rest. -/
structure State.Calms (n : Nat) (u s : State) : Prop where
  stop : ∀ p, (u.part p).stop = none → (s.part p).stop = none
  rest : ∀ m, m ≠ n → (u.cell m).Rests → (s.cell m).Rests

section
variable {u s t : State} {n : Nat}

theorem State.Calms.refl (s : State) : s.Calms n s := ⟨fun _ => id, fun _ _ => id⟩

/-- It reads the partitions and the cells alone. -/
theorem State.Calms.update {boot timebase clock funcs lastVf hyper fring faults launches nextLaunch worlds lodge policy pod mem
    hostMem owners opdBacked full stamps lines flows retired quarantined cxl0 cxl1 cxlDown reloading out agenda free focus}
    (h : u.Calms n s) : u.Calms n { s with
      boot, timebase, clock, funcs, lastVf, hyper, fring, faults, launches, nextLaunch, worlds, lodge, policy, pod, mem, hostMem
      owners, opdBacked, full, stamps, lines, flows, retired, quarantined, cxl0, cxl1, cxlDown, reloading, out, agenda, free, focus } :=
  ⟨h.stop, h.rest⟩

theorem State.Calms.ite {c : Prop} {_ : Decidable c} (hs : u.Calms n s) (ht : u.Calms n t) : u.Calms n (if c then s else t) := by
  split
  · exact hs
  · exact ht

theorem State.Calms.foldl {α : Type} {f : State → α → State} {l : List α} (h : u.Calms n s)
    (hf : ∀ s a, u.Calms n s → u.Calms n (f s a)) : u.Calms n (l.foldl f s) := by
  induction l generalizing s with
  | nil => exact h
  | cons a l ih => exact ih (hf s a h)

theorem State.Calms.onPart {p} {f : Part → Part} (h : u.Calms n s)
    (hf : ∀ v, v.stop = none → (f v).stop = none := by exact fun _ => id) : u.Calms n (s.onPart p f) where
  stop r hr := by
    by_cases hrp : r = p
    · subst hrp
      rw [State.onPart_eq, State.part_setPart_self]
      exact hf _ (h.stop r hr)
    · rw [State.onPart_eq, State.part_setPart_of_ne s _ hrp]
      exact h.stop r hr
  rest := h.rest

theorem State.Calms.setCell {m c} (h : u.Calms n s) (hc : (s.cell m).Rests → c.Rests) : u.Calms n (s.setCell m c) where
  stop := h.stop
  rest k hk hr := by
    rw [State.cell_setCell]
    split
    · next hm => exact hc (hm ▸ h.rest k hk hr)
    · exact h.rest k hk hr

/-- The cell itself may do anything. -/
theorem State.Calms.onSelf {f} (h : u.Calms n s) : u.Calms n (s.onCell n f) where
  stop := h.stop
  rest k hk hr := by
    rw [State.onCell_eq, State.cell_setCell, if_neg hk]
    exact h.rest k hk hr

/-! ### Nodes, flits, counters and traces -/

theorem State.Calms.setWorld {w v} (h : u.Calms n s) : u.Calms n (s.setWorld w v) := h.update

theorem State.Calms.onWorld {w f} (h : u.Calms n s) : u.Calms n (s.onWorld w f) := by
  unfold State.onWorld
  split
  · exact h
  · exact h.setWorld

theorem State.Calms.onPod {f} (h : u.Calms n s) : u.Calms n (s.onPod f) := h.update

theorem State.Calms.signal {fn vec} (h : u.Calms n s) : u.Calms n (s.signal fn vec) := h.update

theorem State.Calms.finishNode {fn q k r} (h : u.Calms n s) : u.Calms n (s.finishNode fn q k r) := h.update

theorem State.Calms.devWrite {fn a l} (h : u.Calms n s) : u.Calms n (s.devWrite fn a l) := by
  rw [State.devWrite_frame]; exact h.update

theorem State.Calms.sendFlit {f} (h : u.Calms n s) : u.Calms n (s.sendFlit f) := by
  unfold State.sendFlit
  split
  · exact h.update
  · exact h.onPod

theorem State.Calms.hyperAdd {i k} (h : u.Calms n s) : u.Calms n (s.hyperAdd i k) := .ite h.update.signal h.update

theorem State.Calms.countEvent {p i k} (h : u.Calms n s) : u.Calms n (s.countEvent p i k) := .ite h.onPart.signal h.onPart

theorem State.Calms.countCell {m i k} (h : u.Calms n s) : u.Calms n (s.countCell m i k) := h.onPart

theorem State.Calms.flushCell {m} (h : u.Calms n s) : u.Calms n (s.flushCell m) := h.onPart.foldl fun _ _ h => h.countEvent

theorem State.Calms.meter {p i k} (h : u.Calms n s) : u.Calms n (s.meter p i k) := h.onPart

theorem State.Calms.meterLost {p i k} (h : u.Calms n s) : u.Calms n (s.meterLost p i k) := h.onPart

theorem State.Calms.traceOf {p ctx kind cell flags l} (h : u.Calms n s) : u.Calms n (s.traceOf p ctx kind cell flags l) := by
  unfold State.traceOf
  dsimp only
  split
  · exact h.countEvent
  · exact .ite h.countEvent h.devWrite.onPart

theorem State.Calms.trace {p kind cell flags l} (h : u.Calms n s) : u.Calms n (s.trace p kind cell flags l) := h.traceOf

theorem State.Calms.secondary {p ctx cell cause} (h : u.Calms n s) : u.Calms n (s.secondary p ctx cell cause) := h.traceOf

/-! ### Ends of launches and worlds (R44, R92, R271) -/

theorem State.Calms.podPart {m st cause detail} (h : u.Calms n s) : u.Calms n (s.podPart m st cause detail) := by
  unfold State.podPart State.podSettle
  split
  · exact h.onPod
  · exact .ite h.onPod.onPod.finishNode h.onPod

theorem State.Calms.launchEnded {e st cause detail} (h : u.Calms n s) : u.Calms n (s.launchEnded e st cause detail) := by
  unfold State.launchEnded
  split
  · exact h.finishNode
  · exact .ite h.podPart h.sendFlit

theorem State.Calms.endHolds {w snap} (h : u.Calms n s) : u.Calms n (s.endHolds w snap) := by
  unfold State.endHolds
  split
  · exact h
  · exact h.onWorld

theorem State.Calms.settleGens {w} (h : u.Calms n s) : u.Calms n (s.settleGens w) := h.onWorld

theorem State.Calms.loseMacs {p c} (h : u.Calms n s) : u.Calms n (s.loseMacs p c) := by
  unfold State.loseMacs
  refine h.foldl fun _ _ h => ?_
  split
  · exact h.meterLost
  · exact h.meterLost
  · exact h

theorem State.Calms.loseFetched {x} (h : u.Calms n s) : u.Calms n (s.loseFetched x) :=
  h.foldl fun _ _ h => h.foldl fun _ _ h => h.meterLost

theorem State.Calms.loseStreams {c} (h : u.Calms n s) : u.Calms n (s.loseStreams c) := h.foldl fun _ _ h => h.loseFetched

theorem State.Calms.loseWork {p c} (h : u.Calms n s) : u.Calms n (s.loseWork p c) := h.meterLost.loseMacs.loseStreams

theorem State.Calms.dropHolders {m b} (h : u.Calms n s) : u.Calms n (s.dropHolders m b) := h.update

/-- A cell whose work is discarded is idle. -/
theorem State.Calms.discardPart {p} (h : u.Calms n s) : u.Calms n (s.discardPart p) :=
  h.foldl fun _ _ h => .ite h
    ((((h.loseWork.countCell.flushCell.foldl fun _ _ h => h.endHolds).setCell fun _ => .inl rfl).dropHolders).settleGens)

theorem State.Calms.settlePart {p} (h : u.Calms n s) : u.Calms n (s.settlePart p) := .ite h.onPart h

theorem State.Calms.discardLaunch {id} (h : u.Calms n s) : u.Calms n (s.discardLaunch id) := by
  unfold State.discardLaunch
  split
  · exact h
  · exact (((((h.foldl fun _ _ h => .ite (h.discardPart.onPart fun _ _ => rfl) h).foldl fun _ _ h => h.meterLost).foldl
      fun _ _ h => h.loseWork.foldl fun _ _ h => h.endHolds).update).foldl fun _ _ h => h.settlePart).settleGens

theorem State.Calms.endLaunch {id st cause} (h : u.Calms n s) : u.Calms n (s.endLaunch id st cause) := by
  unfold State.endLaunch
  split
  · exact h
  · exact h.discardLaunch.launchEnded

theorem State.Calms.revoke {w e} (h : u.Calms n s) : u.Calms n (s.revoke w e) := by
  unfold State.revoke
  split
  · exact h
  · exact (h.foldl fun _ _ h => .ite h.devWrite.devWrite h).update

theorem State.Calms.endResets {hit st cause} (h : u.Calms n s) : u.Calms n (s.endResets hit st cause) := by
  refine State.Calms.foldl ⟨fun p hp => ?_, h.rest⟩ fun _ _ h => h.launchEnded
  have hs := h.stop p hp
  unfold State.part Map.get at hs ⊢
  rw [Map.get?_map fun e => by split <;> rfl]
  cases hm : Map.get? s.parts p with
  | none => rfl
  | some v =>
    rw [hm] at hs
    rw [Option.map_some]
    dsimp only
    split
    · exact hs
    · exact hs

theorem State.Calms.endWorld {w cause cell epoch} (h : u.Calms n s) : u.Calms n (s.endWorld w cause cell epoch) := by
  unfold State.endWorld
  split
  · exact h
  · refine .ite h ?_
    dsimp only
    refine State.Calms.update (State.Calms.endResets (State.Calms.foldl (State.Calms.setWorld (State.Calms.foldl (State.Calms.update
      (State.Calms.foldl ?_ fun _ _ h => h.foldl fun _ _ h => h.finishNode)) fun _ _ h => ?_)) fun _ _ h => h.endLaunch))
    · have h' : u.Calms n (if cause = Cause.integ.code then s.revoke w epoch else s) := .ite h.revoke h
      split
      · exact h'.finishNode
      · exact h'
    · split
      · exact h.finishNode
      · exact h

/-! ### Lines, ranges and machine checks (R138, R275) -/

theorem State.Calms.stampWrite {w line} (h : u.Calms n s) : u.Calms n (s.stampWrite w line) := by
  unfold State.stampWrite
  split
  · exact h
  · exact h.update.setWorld

theorem State.Calms.foldRead {w line} (h : u.Calms n s) (e : s.foldRead w line = some t) : u.Calms n t := by
  unfold State.foldRead at e
  split at e
  · cases e; exact h
  · dsimp only at e
    split at e
    · cases e; exact h.setWorld
    · split at e
      · cases e; exact h.setWorld
      · cases e

theorem State.Calms.countLine {line fill} (h : u.Calms n s) : u.Calms n (s.countLine line fill) := .ite h.update h.update

theorem State.Calms.evictLine {line} (h : u.Calms n s) : u.Calms n (s.evictLine line) := by
  unfold State.evictLine
  split
  · exact h
  · dsimp only
    split
    · apply State.Calms.meter
      split
      · exact h.update.countLine.stampWrite
      · exact h.update.countLine
    · split
      · exact h.update.countLine.stampWrite
      · exact h.update.countLine

theorem State.Calms.endUncached (h : u.Calms n s) : u.Calms n s.endUncached := h.foldl fun _ _ h => h.evictLine

theorem State.Calms.endContext {p ctx} (h : u.Calms n s) : u.Calms n (s.endContext p ctx) := by
  unfold State.endContext
  exact ((h.foldl fun _ _ h => h.evictLine).foldl fun _ _ h => h.update).onPart

theorem State.Calms.scrubCells {p} (h : u.Calms n s) : u.Calms n (s.scrubCells p) :=
  h.foldl fun _ _ h => h.setCell fun _ => .inl rfl

theorem State.Calms.machineCheck {p ctx} (h : u.Calms n s) : u.Calms n (s.machineCheck p ctx) :=
  State.Calms.ite h (.ite h.secondary
    (((h.hyperAdd.signal.foldl fun _ _ h => .ite h.secondary h).foldl fun _ _ h => .ite
      (h.endLaunch.foldl fun _ _ h => h.scrubCells) h.endLaunch).endContext))

/-! ### Accesses of a cell (R138, R341) -/

theorem State.Calms.placeLine {p line tag ctx} (h : u.Calms n s) : u.Calms n (s.placeLine p line tag ctx) := by
  unfold State.placeLine
  dsimp only
  split
  · split
    · exact h.update
    · refine State.Calms.update ?_
      split
      · exact h.update.evictLine
      · exact h.update
  · refine .ite h.update ?_
    split
    · exact h.stampWrite
    · exact h

theorem State.Calms.touchLine {p ctx w cls line write spec} (h : u.Calms n s)
    (e : s.touchLine p ctx w cls line write spec = some t) : u.Calms n t := by
  unfold State.touchLine at e
  dsimp only at e
  split at e
  · cases e; exact h
  · split at e
    · cases e; exact h.update
    · obtain ⟨v, hv, rfl⟩ := Option.map_eq_some_iff.1 e
      have h' : u.Calms n v := by
        split at hv
        · exact h.countLine.foldRead hv
        · cases hv; exact h.countLine
      exact (State.Calms.ite h' h'.meter.meter).placeLine

theorem State.Calms.touchFor {p ctx w cls pa write spec} (h : u.Calms n s) : u.Calms n (s.touchFor p ctx w cls pa write spec) := by
  unfold State.touchFor
  refine .ite h ?_
  refine .ite h.endWorld ?_
  refine .ite h.machineCheck ?_
  split
  · exact h.touchLine ‹_›
  · exact h.endWorld

theorem State.Calms.touch {m cls pa write spec} (h : u.Calms n s) : u.Calms n (s.touch m cls pa write spec) := by
  have hc : u.Calms n (s.countAccess (cellPort m) pa) := .ite h.update h
  exact .ite hc.touchFor.countCell hc.touchFor

theorem State.Calms.sendRemote {l va waits op} (h : u.Calms n s) : u.Calms n (s.sendRemote n l va waits op) :=
  h.onSelf.meter.sendFlit

theorem State.Calms.postRemote {cls pa op} (h : u.Calms n s) : u.Calms n (s.postRemote n cls pa op) := .ite h h.sendRemote

theorem State.Calms.writeCells {l} (h : u.Calms n s) : u.Calms n (s.writeCells n l) := by
  unfold State.writeCells
  refine h.foldl fun s e h => ?_
  dsimp only
  split
  · exact h.update
  · exact h.update.onSelf

theorem State.Calms.performWb {e} (h : u.Calms n s) : u.Calms n (s.performWb n e) := by
  unfold State.performWb
  split
  · exact ((h.foldl fun _ _ h => h.postRemote.touch).writeCells).endUncached
  · exact h.update

theorem State.Calms.performOldest (h : u.Calms n s) : u.Calms n (s.performOldest n) := by
  unfold State.performOldest
  split
  · exact h
  · exact h.onSelf.performWb

theorem State.Calms.drain (h : u.Calms n s) : u.Calms n (s.drain n) := h.foldl fun _ _ h => h.performOldest

/-! ### Passes (R117, R280) -/

theorem State.Calms.loseThread {p thread} (h : u.Calms n s) : u.Calms n (s.loseThread n p thread) := by
  unfold State.loseThread
  exact h.meterLost.countCell.onSelf

theorem State.Calms.takeClasses {elems used cycles} (h : u.Calms n s) : u.Calms n (s.takeClasses elems used cycles).2 := h.update

theorem State.Calms.contribute (h : u.Calms n s) : u.Calms n (s.contribute n) := by
  unfold State.contribute
  exact h.update.flushCell.onSelf.onPart

theorem State.Calms.samplePass {m p b} (h : u.Calms n s) : u.Calms n (s.samplePass m p b) := by
  unfold State.samplePass
  dsimp only
  split
  · exact h
  · exact .ite h.takeClasses.takeClasses.update.trace h

theorem State.Calms.abandonPass {p} (h : u.Calms n s) : u.Calms n (s.abandonPass n p) :=
  ((h.foldl fun _ _ h => h.loseThread).onSelf).samplePass

/-! ### Streams that land (R117) -/

theorem State.Calms.endStream {st x} (h : u.Calms n s) : u.Calms n (s.endStream n st x) := h.endHolds.onSelf.settleGens

theorem State.Calms.cutStream {st x} (h : u.Calms n s) : u.Calms n (s.cutStream n st x) := h.loseFetched.onSelf.endStream

theorem State.Calms.flushRange {pa len} (h : u.Calms n s) : u.Calms n (s.flushRange pa len) := h.foldl fun _ _ h => h.evictLine

theorem State.Calms.stampRange {pa len} (h : u.Calms n s) : u.Calms n (s.stampRange pa len) := by
  unfold State.stampRange
  refine h.foldl fun _ _ h => ?_
  split
  · exact h.stampWrite
  · exact h

theorem State.Calms.foldRange {pa len} (h : u.Calms n s) : u.Calms n (s.foldRange pa len) := by
  unfold State.foldRange
  refine h.foldl fun _ _ h => ?_
  split
  · split
    · exact h.foldRead ‹_›
    · exact h.endWorld
  · exact h

theorem State.Calms.dropLeaf {w e} (h : u.Calms n s) : u.Calms n (s.dropLeaf w e) := .ite h.onWorld h.onWorld.update

theorem State.Calms.zeroPart {e r} (h : u.Calms n s) : u.Calms n (s.zeroPart e r) := h.flushRange.foldRange.update.stampRange

theorem State.Calms.sealingFails {w r} (h : u.Calms n s) : u.Calms n (s.sealingFails w r) := by
  unfold State.sealingFails
  split
  · exact h
  · split
    · exact h
    · exact ((h.foldl fun _ _ h => h.foldl fun _ _ h => .ite h
        (.ite h.zeroPart h.flushRange.foldRange.dropLeaf)).onWorld).finishNode

theorem State.Calms.writeChunk {m w va l} (h : u.Calms n s) : u.Calms n (s.writeChunk m w va l) :=
  h.foldl fun _ _ h => .ite h h.touch.update.update

theorem State.Calms.sealDone {w} (h : u.Calms n s) : u.Calms n (s.sealDone w) := by
  unfold State.sealDone
  split
  · exact h
  · split
    · exact h
    · exact h.setWorld.settleGens.finishNode

theorem State.Calms.sunsealChunk {m l} (h : u.Calms n s) : u.Calms n (s.sunsealChunk m l).1 := by
  unfold State.sunsealChunk
  dsimp only
  split
  · exact h
  · split
    · exact h
    · split
      · exact .ite h.writeChunk.onWorld.sealDone h.writeChunk.onWorld
      · exact h.sealingFails

theorem State.Calms.vaStore {va l} (h : u.Calms n s) : u.Calms n (s.vaStore n va l) :=
  State.Calms.ite h.postRemote.touch.update.endUncached h

theorem State.Calms.putElem {c scr b v e} (h : u.Calms n s) : u.Calms n (s.putElem n c scr b v e) :=
  (State.Calms.ite h.onSelf h.vaStore).foldl fun _ _ h => .ite h.onSelf h.vaStore

theorem State.Calms.landElem {c x} (h : u.Calms n s) (e : s.landElem n c x = some t) : u.Calms n t := by
  unfold State.landElem at e
  split at e
  · cases e; exact h.putElem
  · split at e
    · cases e; exact h.putElem
    · cases e; exact h.putElem
    · obtain ⟨_, _, rfl⟩ := Option.map_eq_some_iff.1 e
      exact h.onSelf
    · cases e; exact h

theorem State.Calms.landed {st x k} (h : u.Calms n s) : u.Calms n (s.landed n st x k) :=
  State.Calms.ite h.onSelf.countCell.endStream (.ite h.onSelf.countCell.cutStream h.onSelf.countCell)

theorem State.Calms.landNext {st x} (h : u.Calms n s) : u.Calms n (s.landNext n st x) := by
  unfold State.landNext
  dsimp only
  split
  · exact h
  · split
    · exact .ite h.cutStream (.ite h.sunsealChunk.landed h.sunsealChunk.cutStream)
    · exact .ite h h.onSelf
    · refine .ite h ?_
      split
      · exact h
      · exact .ite (h.landElem ‹_›) (((h.landElem ‹_›)).landed)

theorem State.Calms.landAll {st k} (h : u.Calms n s) : u.Calms n (s.landAll n st k) := by
  induction k generalizing s with
  | zero => exact h
  | succ k ih =>
    unfold State.landAll
    split
    · exact h
    · exact .ite h (ih h.landNext)

theorem State.Calms.landStores (h : u.Calms n s) : u.Calms n (s.landStores n) := h.foldl fun _ _ h => .ite h.landAll h

/-! ### A pre-empted cell (R117) -/

theorem State.Calms.preemptCell {reason} (h : u.Calms n s) : u.Calms n (s.preemptCell reason n) :=
  State.Calms.ite h (.ite h.drain (State.Calms.ite ((h.drain.onSelf.foldl fun _ _ h => h.abandonPass).onSelf).landStores
    ((((((((h.drain.onSelf.foldl fun _ _ h => h.abandonPass).onSelf).landStores).loseMacs).loseStreams).onSelf).contribute)
      |>.dropHolders).trace))

theorem State.flushCell_onlyLogs (s : State) (n : Nat) : OnlyLogs s (s.flushCell n) :=
  (s.onPart_onlyLogs _ _).trans (OnlyLogs.foldl (fun s _ => s.countEvent_onlyLogs _ _ _) _ _)

/-- A contribution to the window leaves a cell but for the start of its class totals. -/
theorem State.cell_contribute_self (s : State) (n : Nat) :
    (s.contribute n).cell n = { s.cell n with classFrom := s.timebase } := by
  unfold State.contribute
  dsimp only
  rw [State.onPart_eq, State.cell_setPart, State.onCell_eq, State.cell_setCell_self, (State.flushCell_onlyLogs _ n).cell_eq]
  rfl

theorem State.cell_dropHolders (s : State) (n : Nat) (b : Bool) (m : Nat) : (s.dropHolders n b).cell m = s.cell m := rfl

/-- A cell that has been told to save idles, or begins to write its image. -/
theorem State.rests_preemptCell (s : State) (reason n : Nat) : ((s.preemptCell reason n).cell n).Rests := by
  unfold State.preemptCell
  split_ifs with h1
  · exact .inl h1
  · dsimp only
    split_ifs with h2 h3
    · exact .inl h2
    · exact .inl h3
    · rw [(State.trace_onlyLogs _ _ _ _ _ _).cell_eq]
      rw [State.cell_dropHolders, State.cell_contribute_self, State.onCell_eq, State.cell_setCell_self]
      exact .inr ⟨_, rfl⟩

/-- The cells of a list are told to save one after the other: no partition is stopped, and a cell that rests stays at rest. -/
theorem State.preemptCells_effect (reason : Nat) (l : List Nat) (s : State) :
    (∀ p, (s.part p).stop = none → ((l.foldl (State.preemptCell · reason) s).part p).stop = none)
    ∧ ∀ m, m ∈ l ∨ (s.cell m).Rests → ((l.foldl (State.preemptCell · reason) s).cell m).Rests := by
  induction l generalizing s with
  | nil => exact ⟨fun _ => id, fun m hm => hm.resolve_left List.not_mem_nil⟩
  | cons n l ih =>
    have hc : s.Calms n (s.preemptCell reason n) := (State.Calms.refl s).preemptCell
    obtain ⟨hstop, hrest⟩ := ih (s.preemptCell reason n)
    refine ⟨fun p hp => hstop p (hc.stop p hp), fun m hm => hrest m ?_⟩
    by_cases hn : m = n
    · exact .inr (hn ▸ s.rests_preemptCell reason n)
    · obtain hl | hr := hm
      · exact .inl (List.mem_of_ne_of_mem hn hl)
      · exact .inr (hc.rest m hn hr)
end

end Sys2Proof.Machine
end

