-- ==== Sys2Proof/Proofs/Scheduling.lean ====
section
/-! The schedule of launches: fault records, quanta, pre-emption, saved cells and watchdogs, the scrubs of partitions, and the
starts and ends of passes (R76 to R81, R92, R99, R109, R115 to R119, R219). -/

namespace Sys2Proof.Machine

/-- The same change of every partition of a list. -/
def State.onParts (s : State) (l : List Nat) (f : Part → Part) : State := l.foldl (fun s p => s.onPart p f) s

section
variable {s : State} {p id reason cell k : Nat} {l : Launch}

/-- A change that makes no difference the second time reaches each partition of the list, and no other. -/
theorem State.part_onParts {f : Part → Part} (hf : ∀ v, f (f v) = f v) (l : List Nat) (s : State) (r : Nat) :
    (s.onParts l f).part r = if r ∈ l then f (s.part r) else s.part r := by
  unfold State.onParts
  induction l generalizing s with
  | nil => rfl
  | cons p l ih =>
    rw [List.foldl_cons, ih, State.onPart_eq]
    by_cases hp : r = p
    · subst hp
      simp [hf]
    · simp [State.part_setPart_of_ne s _ hp, hp]

theorem State.onParts_frame (s : State) (l : List Nat) (f : Part → Part) :
    s.onParts l f = { s with parts := (s.onParts l f).parts } := by
  unfold State.onParts
  induction l generalizing s with
  | nil => rfl
  | cons p l ih =>
    rw [List.foldl_cons, ih]
    rfl

/-! ### Fault records and quanta (R79, R81, R99) -/

theorem faultRecordPost_effect {f : FaultRec} (hf : s.faults[k]? = some f) (hp : f.posted = false) (hen : s.fring.en = true)
    (hfirst : ∀ y ∈ s.faults.take k, y.posted = true) (hroom : (s.fring.tail - s.fring.head).toNat < 2 ^ s.fring.logsize) :
    Completes (.faultRecordPost k) s fun t => t.faults = s.faults.set k { f with posted := true }
      ∧ t.fring = { s.fring with tail := s.fring.tail + 1 } ∧ t.out = s.out ++ [.msix 0 8] := by
  have hall : ((s.faults.take k).any fun x => !x.posted) = false := by
    simpa using hfirst
  unfold Completes
  rw [exec_faultRecordPost]
  unfold execFaultRecordPost
  rw [hf]
  dsimp only
  rw [if_neg (by simpa only [hp, hen, hall, Bool.not_true, Bool.or_false, Bool.false_or, decide_eq_true_eq, Nat.not_le] using hroom)]
  refine ⟨_, rfl, ?_⟩
  rw [State.devWrite_frame]
  exact ⟨rfl, rfl, rfl⟩

/-- The launch that runs on a partition, as the moves of the schedule look it up. -/
theorem State.bind_running (hr : (s.part p).running = some id) (hl : Map.get? s.launches id = some l) :
    ((s.part p).running.bind fun id => (Map.get? s.launches id).map fun l => (id, l)) = some (id, l) := by
  rw [hr, Option.bind_some, hl]
  rfl

theorem quantumExpiry_effect (hr : (s.part p).running = some id) (hl : Map.get? s.launches id = some l) (hst : l.st = .running)
    (hq : s.policy.quantumUs * 1000 ≤ l.held) (hw : l.wantPreempt = none) : Completes (.quantumExpiry p) s fun t =>
      t = if s.rival l = true then { s with launches := Map.put s.launches id { l with wantPreempt := some 0 } } else s := by
  unfold Completes
  rw [exec_quantumExpiry]
  unfold execQuantumExpiry
  rw [State.bind_running hr hl]
  dsimp only
  rw [if_pos ⟨hst, hq⟩]
  refine ⟨_, rfl, ?_⟩
  unfold State.quantumOver
  rw [hw]
  simp only [Option.isNone_none, and_true]

/-! ### Pre-emption (R116, R117) -/

/-- A partition whose launch is pre-empted: no longer stopped, its cells idle or saving. -/
def State.Quiet (s : State) (p : Nat) : Prop := (s.part p).stop = none ∧ ∀ n ∈ cellsOfPart p, (s.cell n).Rests

/-- A stopped partition whose context is pre-empted is no longer stopped, and its debugger will be told (R288). -/
def Part.endStop (ctx : Nat) (v : Part) : Part :=
  if v.stop.isNone then v
  else { v with stop := none, ctxs := v.ctxs.map fun e => if e.1 = ctx then (e.1, { e.2 with preemptedNote := true }) else e }

theorem Part.stop_endStop (ctx : Nat) (v : Part) : (v.endStop ctx).stop = none := by
  unfold Part.endStop
  split
  · next hnone => exact Option.isNone_iff_eq_none.1 hnone
  · rfl

/-- One partition of a launch that is pre-empted, of the context ctx. -/
def State.preemptPart (s : State) (reason ctx p : Nat) : State :=
  let s := s.onPart p (Part.endStop ctx)
  ((cellsOfPart p).foldl (State.preemptCell · reason) s).countEvent p 7 1

/-- The partition of a pre-empted launch becomes quiet, and those that were so stay so. -/
theorem State.quiet_preemptPart (s : State) (reason ctx p r : Nat) (h : r = p ∨ s.Quiet r) :
    (s.preemptPart reason ctx p).Quiet r := by
  unfold State.preemptPart
  dsimp only
  obtain ⟨hstop, hrest⟩ := State.preemptCells_effect reason (cellsOfPart p) (s.onPart p (Part.endStop ctx))
  refine ⟨(State.stop_countEvent _ _ _ _ _).trans (hstop r ?_), fun n hn => ?_⟩
  · by_cases hr : r = p
    · subst hr
      rw [State.onPart_eq, State.part_setPart_self]
      exact Part.stop_endStop ctx _
    · rw [State.onPart_eq, State.part_setPart_of_ne s _ hr]
      exact (h.resolve_left hr).1
  · rw [(State.countEvent_onlyLogs _ _ _ _).cell_eq]
    exact hrest n (h.imp (fun hr : r = p => hr ▸ hn) fun hq => hq.2 n hn)

theorem State.quiet_preemptParts (reason ctx : Nat) (l : List Nat) (s : State) (r : Nat) (h : r ∈ l ∨ s.Quiet r) :
    (l.foldl (State.preemptPart · reason ctx) s).Quiet r := by
  induction l generalizing s with
  | nil => exact h.resolve_left List.not_mem_nil
  | cons p l ih =>
    refine ih _ ?_
    by_cases hp : r = p
    · exact .inr (s.quiet_preemptPart reason ctx p r (.inl hp))
    · exact h.imp (List.mem_of_ne_of_mem hp) fun hq => s.quiet_preemptPart reason ctx p r (.inr hq)

theorem State.preemptLaunch_of_get? (h : Map.get? s.launches id = some l) (reason : Nat) : s.preemptLaunch id reason =
    l.parts.foldl (State.preemptPart · reason l.ctx)
      { s with launches := Map.put s.launches id { l with wantPreempt := none } } := by
  unfold State.preemptLaunch
  rw [h]
  rfl

theorem preemptRequest_effect (hr : (s.part p).running = some id) (hl : Map.get? s.launches id = some l) (hst : l.st = .running)
    (hw : l.wantPreempt = some reason) (hs : ∀ p ∈ l.parts, ∀ n ∈ cellsOfPart p, ∀ h, (s.cell n).run ≠ .saving h) :
    Completes (.preemptRequest p reason) s fun t => ∀ p ∈ l.parts, t.Quiet p := by
  have hnone : (l.parts.all fun p => (cellsOfPart p).all fun n => match (s.cell n).run with
      | .saving _ => false
      | _ => true) = true := by
    refine List.all_eq_true.2 fun p hp => List.all_eq_true.2 fun n hn => ?_
    split
    · next h e => exact absurd e (hs p hp n hn h)
    · rfl
  unfold Completes
  rw [exec_preemptRequest]
  unfold execPreemptRequest
  rw [State.bind_running hr hl]
  dsimp only
  rw [if_pos ⟨hst, hw, hnone⟩]
  refine ⟨_, rfl, fun r hr => ?_⟩
  rw [State.preemptLaunch_of_get? hl]
  exact State.quiet_preemptParts reason l.ctx l.parts _ r (.inl hr)

/-! ### Saved cells and watchdogs (R92, R118, R119) -/

/-- A partition that a saved launch has left. -/
def Part.leave (id : Nat) (v : Part) : Part := { v with running := none, lastLaunch := some id }

/-- With the last image the launch is pre-empted, and frees its partitions. -/
theorem cellSaveComplete_effect {h all : Bool} {images : Map Cell} (hrun : (s.cell cell).run = .saving h)
    (hid : (s.cell cell).ident.launch = id) (hl : Map.get? s.launches id = some l)
    (hi : Map.put l.images cell { s.cell cell with run := if h then .halted else .running } = images)
    (ha : (l.parts.all fun p => (cellsOfPart p).all fun n => (Map.get? images n).isSome) = all) :
    Completes (.cellSaveComplete cell) s fun t => t.cell cell = (s.cell cell).leftover
      ∧ (∃ l', Map.get? t.launches id = some l' ∧ l'.images = images ∧ l'.st = (if all = true then .preempted else l.st))
      ∧ SameMemory s t ∧ (all = true → ∀ p ∈ l.parts, (t.part p).running = none ∧ (t.part p).lastLaunch = some id) := by
  unfold Completes
  rw [exec_cellSaveComplete]
  unfold execCellSaveComplete
  dsimp only
  rw [hid, hrun, hl]
  dsimp only
  rw [hi, ha]
  cases all with
  | true =>
    refine ⟨State.onParts _ l.parts (Part.leave id), rfl, ?_,
      ⟨{ l with images := images, st := .preempted, started := [], held := 0 }, ?_, rfl, rfl⟩, ?_, fun _ p hp => ?_⟩
    · rw [State.onParts_frame]
      exact State.cell_setCell_self s cell _
    · rw [State.onParts_frame]
      exact Map.get?_put_self _ _ _
    · rw [State.onParts_frame]
      exact ⟨fun _ => rfl, fun _ => rfl⟩
    · rw [State.part_onParts (f := Part.leave id) fun _ => rfl, if_pos hp]
      exact ⟨rfl, rfl⟩
  | false =>
    exact ⟨_, rfl, State.cell_setCell_self s cell _, ⟨{ l with images := images }, Map.get?_put_self _ _ _, rfl, rfl⟩,
      ⟨fun _ => rfl, fun _ => rfl⟩, fun h => absurd h (by decide)⟩

/-- A partition that waits for the reset of a launch that the watchdog ended. -/
def Part.toReset (e : Ending) (v : Part) : Part := { v with st := .resetting, resetOf := some e }

theorem watchdogExpiry_effect (hl : Map.get? s.launches id = some l) (hst : l.st = .running ∨ l.st = .starting)
    (hb : l.budget ≤ l.used) : Completes (.watchdogExpiry id) s fun t => Map.get? t.launches id = none
      ∧ ∀ p ∈ l.parts, (t.part p).st = .resetting ∧ (t.part p).resetOf = some l.ending := by
  unfold Completes
  rw [exec_watchdogExpiry]
  unfold execWatchdogExpiry
  rw [hl]
  dsimp only
  rw [if_neg (by simp [hst, hb])]
  refine ⟨(s.discardLaunch id).onParts l.parts (Part.toReset l.ending), rfl, ?_,
    fun p hp => ?_⟩
  · rw [State.onParts_frame, State.launches_discardLaunch]
    exact Map.get?_erase_self _ _
  · rw [State.part_onParts (f := Part.toReset l.ending) fun _ => rfl, if_pos hp]
    exact ⟨rfl, rfl⟩

/-! ### Scrubs of partitions (R76, R78, R80) -/

/-- What a scrub leaves of a cell: its breakpoints. -/
def Cell.scrubbed (c : Cell) : Cell := { Cell.reset with bps := c.bps }

theorem State.shortScrub_cell (s : State) (p n : Nat) (hn : n ∈ cellsOfPart p) :
    ((s.shortScrub p).cell n).run = .idle ∧ ((s.shortScrub p).cell n).scratch = [] := by
  unfold State.shortScrub
  dsimp only
  generalize (List.map _ _).foldl State.evictLine s = u
  change (((State.onCells _ (cellsOfPart p) Cell.scrubbed).onPart p _).cell n).run = .idle ∧
    (((State.onCells _ (cellsOfPart p) Cell.scrubbed).onPart p _).cell n).scratch = []
  rw [State.onPart_eq, State.cell_setPart, State.cell_onCells (f := Cell.scrubbed) fun _ => rfl, if_pos hn]
  exact ⟨rfl, rfl⟩

/-- The pseudo-channels that a full scrub zeroes besides hold no cell and no partition. -/
theorem State.fullScrub_frame (s : State) (p : Nat) :
    (s.fullScrub p).cells = (s.shortScrub p).cells ∧ (s.fullScrub p).parts = (s.shortScrub p).parts
      ∧ (s.fullScrub p).timebase = (s.shortScrub p).timebase := by
  unfold State.fullScrub
  generalize s.shortScrub p = u
  induction hbmRanges s.pod.self p generalizing u with
  | nil => exact ⟨rfl, rfl, rfl⟩
  | cons b r ih => exact ih (u.zeroRange b (2 ^ 34))

/-- A write-back meters its bytes, and changes nothing else of a partition. -/
theorem State.gen_evictLine (s : State) (line p : Nat) : ((s.evictLine line).part p).gen = (s.part p).gen := by
  have hmeter (u : State) (e : LineTag) (i : Nat) (hu : u.parts = s.parts) :
      ((if e.dirty = true then u.meter e.part i 64 else u).part p).gen = (s.part p).gen := by
    have hp : (u.part p).gen = (s.part p).gen := by unfold State.part; rw [hu]
    split
    · exact (State.part_onPart_of_keeps Part.gen (f := fun v => { v with committed := meterAdd v.committed i 64 }) u e.part
        (fun _ => rfl) p).trans hp
    · exact hp
  unfold State.evictLine
  split
  · rfl
  · refine hmeter _ _ _ ?_
    split
    · rw [State.parts_stampWrite, State.parts_countLine]
    · rw [State.parts_countLine]

theorem State.gen_evictLines (l : List Nat) (s : State) (p : Nat) :
    ((l.foldl State.evictLine s).part p).gen = (s.part p).gen := by
  induction l generalizing s with
  | nil => rfl
  | cons line l ih => exact (ih _).trans (s.gen_evictLine line p)

theorem State.gen_shortScrub (s : State) (p r : Nat) : ((s.shortScrub p).part r).gen = (s.part r).gen := by
  unfold State.shortScrub
  dsimp only
  refine (State.part_onPart_of_keeps Part.gen (f := fun v => { v with lastWorld := none, lastLaunch := none }) _ p
    (fun _ => rfl) r).trans ?_
  change ((State.onCells _ (cellsOfPart p) Cell.scrubbed).part r).gen = _
  rw [State.part_onCells]
  exact s.gen_evictLines _ r

/-- A partition that has become ready runs what waits for it. -/
theorem State.readyState_cases (s : State) (p : Nat) : s.readyState p = .ready ∨ s.readyState p = .running := by
  unfold State.readyState
  split
  · exact .inr rfl
  · exact .inl rfl

/-- What the scrub at the end of a partition's occupation leaves. -/
theorem State.scrub_effect (s : State) (p : Nat) :
    let t := if (s.part p).lastVf = (s.part p).vf then s.shortScrub p else s.fullScrub p
    t.timebase = s.timebase ∧ (t.part p).vf = (s.part p).vf
      ∧ ∀ n ∈ cellsOfPart p, (t.cell n).run = .idle ∧ (t.cell n).scratch = [] := by
  have hsheds : s.Sheds (s.shortScrub p) := (State.Sheds.refl s).shortScrub
  have htime : (s.shortScrub p).timebase = s.timebase := by rw [hsheds.frame]
  obtain ⟨hcells, hparts, hfull⟩ := s.fullScrub_frame p
  dsimp only
  split
  · exact ⟨htime, hsheds.owner p, s.shortScrub_cell p⟩
  · refine ⟨hfull.trans htime, ?_, fun n hn => ?_⟩
    · unfold State.part
      rw [hparts]
      exact hsheds.owner p
    · unfold State.cell
      rw [hcells]
      exact s.shortScrub_cell p n hn

theorem partitionScrubComplete_scrubbing (h : (s.part p).st = .scrubbing) : Completes (.partitionScrubComplete p) s fun t =>
    ((t.part p).st = .ready ∨ (t.part p).st = .running) ∧ (t.part p).lastScrub = s.timebase ∧ (t.part p).lastVf = (s.part p).vf
      ∧ ∀ n ∈ cellsOfPart p, (t.cell n).run = .idle ∧ (t.cell n).scratch = [] := by
  unfold Completes
  rw [exec_partitionScrubComplete]
  unfold execPartitionScrubComplete
  dsimp only
  rw [h]
  dsimp only
  obtain ⟨htime, hvf, hcells⟩ := s.scrub_effect p
  generalize (if (s.part p).lastVf = (s.part p).vf then s.shortScrub p else s.fullScrub p) = u at htime hvf hcells ⊢
  refine ⟨_, rfl, ?_⟩
  rw [State.onPart_eq, State.part_setPart_self]
  exact ⟨u.readyState_cases p, htime, hvf, hcells⟩

theorem State.Sends.part {u : State} (h : s.Sends u) (p : Nat) : u.part p = s.part p := by rw [h]; rfl

theorem State.part_launchEnded (s : State) (e : Ending) (st : Status) (cause detail : Nat) (p : Nat) :
    (s.launchEnded e st cause detail).part p = s.part p := by
  unfold State.launchEnded
  split
  · rfl
  · split
    · unfold State.podPart State.podSettle
      split
      · rfl
      · split <;> rfl
    · exact ((State.Sends.refl s).sendFlit).part p

theorem partitionScrubComplete_resetting (h : (s.part p).st = .resetting) : Completes (.partitionScrubComplete p) s fun t =>
    ((t.part p).st = .ready ∨ (t.part p).st = .running) ∧ (t.part p).lastScrub = s.timebase ∧ (t.part p).resetOf = none := by
  unfold Completes
  rw [exec_partitionScrubComplete]
  unfold execPartitionScrubComplete
  dsimp only
  rw [h]
  dsimp only
  generalize ht : (s.shortScrub p).onPart p _ = t
  have hready : ((t.part p).st = .ready ∨ (t.part p).st = .running) ∧ (t.part p).lastScrub = s.timebase
      ∧ (t.part p).resetOf = none := by
    rw [← ht, State.onPart_eq, State.part_setPart_self]
    exact ⟨s.readyState_cases p, rfl, rfl⟩
  split
  · exact ⟨t, rfl, hready⟩
  · split
    · exact ⟨t, rfl, hready⟩
    · exact ⟨_, rfl, by rw [State.part_launchEnded]; exact hready⟩

theorem partitionScrubComplete_destroying (h : (s.part p).st = .destroying) : Completes (.partitionScrubComplete p) s fun t =>
    (t.part p).st = .unowned ∧ (t.part p).vf = 0 ∧ (t.part p).ways = [] ∧ (t.part p).gen = (s.part p).gen := by
  unfold Completes
  rw [exec_partitionScrubComplete]
  unfold execPartitionScrubComplete
  dsimp only
  rw [h]
  dsimp only
  refine ⟨_, rfl, ?_⟩
  rw [State.onPart_eq, State.part_setPart_self]
  exact ⟨rfl, rfl, rfl, s.gen_shortScrub p p⟩

/-! ### Passes (R109, R219) -/

theorem State.sameMemory_setCell (s : State) (n : Nat) (c : Cell) : SameMemory s (s.setCell n c) :=
  ⟨fun _ => rfl, fun _ => rfl⟩

theorem blockChoice_starts {b : Nat} {m : Image} (hrun : (s.cell cell).enginesRun = true) (hst : (s.cell cell).phase.st = .running)
    (hp : ∀ x ∈ (s.cell cell).fabric.passes, x.issuedAll = true) (hc : (s.cell cell).choice = some b)
    (hm : Map.get? (s.cell cell).bound b = some m) (hd : (s.cell cell).cacheHas m.ident = true ∨ s.blocksOk cell = true) :
    Completes (.blockChoice cell) s fun t =>
      t.cell cell = (s.cell cell).startPass (s.cell cell).eligibles b m s.timebase ∧ SameMemory s t := by
  unfold Completes
  rw [exec_blockChoice]
  unfold execBlockChoice
  dsimp only
  rw [if_neg (by simpa [hrun, hst] using hp), hc]
  refine ⟨_, rfl, ?_⟩
  unfold State.startBlock
  dsimp only
  rw [hm]
  dsimp only
  split
  · exact ⟨State.cell_setCell_self s cell _, s.sameMemory_setCell cell _⟩
  · next hn =>
    rw [if_neg (by simp [hd.resolve_left hn])]
    exact ⟨State.cell_setCell_self (s.countCell cell 8 1) cell _, ⟨fun _ => rfl, fun _ => rfl⟩⟩

theorem blockChoice_settles (hrun : (s.cell cell).enginesRun = true) (hst : (s.cell cell).phase.st = .running)
    (hp : ∀ x ∈ (s.cell cell).fabric.passes, x.issuedAll = true) (hc : (s.cell cell).choice = none) :
    Completes (.blockChoice cell) s fun t => t = s.settlePhase cell := by
  unfold Completes
  rw [exec_blockChoice]
  unfold execBlockChoice
  dsimp only
  rw [if_neg (by simpa [hrun, hst] using hp), hc]
  exact ⟨_, rfl, rfl⟩

theorem State.cell_countCell (s : State) (n i k m : Nat) : (s.countCell n i k).cell m = s.cell m := rfl

/-- A phase that settles leaves fabric and sequencer, and is done once each of its threads is parked. -/
theorem State.settlePhase_effect (s : State) (n : Nat) : ((s.settlePhase n).cell n).fabric = (s.cell n).fabric
    ∧ ((s.settlePhase n).cell n).seq = (s.cell n).seq
    ∧ ((s.cell n).phase.st = .running → (s.cell n).fabric.passes = [] → (s.cell n).fabric.sq = [] → (s.cell n).phase.unparked = [] →
      ((s.settlePhase n).cell n).phase.st = .done) := by
  unfold State.settlePhase
  dsimp only
  split_ifs with hbusy hdone hstuck
  · exact ⟨rfl, rfl, fun hst hp hq _ => absurd hbusy (by simp [hst, hp, hq])⟩
  · rw [State.cell_setCell_self]
    exact ⟨rfl, rfl, fun _ _ _ _ => rfl⟩
  · rw [State.cell_countCell, State.cell_setCell_self]
    exact ⟨rfl, rfl, fun _ _ _ hu => absurd hu (by simpa using hdone)⟩
  · exact ⟨rfl, rfl, fun _ _ _ hu => absurd hu (by simpa using hdone)⟩

theorem State.cell_samplePass (s : State) (n : Nat) (x : Pass) (b : Bool) (m : Nat) :
    (s.samplePass n x b).cell m = s.cell m := by
  unfold State.samplePass
  dsimp only
  split
  · rfl
  · split
    · exact (State.trace_onlyLogs _ _ _ _ _ _).cell_eq m
    · rfl

/-- The last pass of a cell whose commits have performed ends. -/
theorem State.closePass_effect {x : Pass} (hp : (s.cell cell).fabric.passes = [x]) (hq : (s.cell cell).fabric.sq = []) :
    ((s.closePass cell x).cell cell).fabric.passes = [] ∧ ((s.closePass cell x).cell cell).fabric.sq = []
      ∧ ((s.closePass cell x).cell cell).seq = (s.cell cell).seq
      ∧ ((s.cell cell).phase.st = .running → (s.cell cell).phase.unparked = [] →
        ((s.closePass cell x).cell cell).phase.st = .done) := by
  have hclose : s.closePass cell x = s.finishPass cell x := if_neg (by simp [hq])
  rw [hclose]
  unfold State.finishPass
  dsimp only
  generalize hu : (State.onCell _ cell fun c => c.removePass x).samplePass cell x false = u
  have hcell : u.cell cell = ({ s.cell cell with classFrom := s.timebase } : Cell).removePass x := by
    rw [← hu, State.cell_samplePass, State.onCell_eq, State.cell_setCell_self, State.cell_contribute_self]
    rfl
  have hpasses : (u.cell cell).fabric.passes = [] := by
    rw [hcell]
    change (s.cell cell).fabric.passes.filter _ = []
    rw [hp]
    simp
  have hsq : (u.cell cell).fabric.sq = [] := by
    rw [hcell]
    change (s.cell cell).fabric.sq.filter _ = []
    rw [hq]
    rfl
  have hkept : (u.cell cell).seq = (s.cell cell).seq ∧ (u.cell cell).phase = (s.cell cell).phase := by
    rw [hcell]
    exact ⟨rfl, rfl⟩
  obtain ⟨hseq, hphase⟩ := hkept
  obtain ⟨hfabric, hsettled, hdone⟩ := u.settlePhase_effect cell
  rw [hphase] at hdone
  rw [hfabric]
  exact ⟨hpasses, hsq, hsettled.trans hseq, fun hst hun => hdone hst hpasses hsq hun⟩

theorem passEnd_effect {x : Pass} (hrun : (s.cell cell).enginesRun = true) (hst : (s.cell cell).phase.st = .running)
    (hp : (s.cell cell).fabric.passes = [x]) (hq : (s.cell cell).fabric.sq = []) (hx : (s.cell cell).fabric.allPassed x = true)
    (ht : x.image.together = false) (hf : x.inFlight = []) : Completes (.passEnd cell) s fun t =>
      (t.cell cell).fabric.passes = [] ∧ (t.cell cell).fabric.sq = [] ∧ (t.cell cell).seq = (s.cell cell).seq
        ∧ ((s.cell cell).phase.unparked = [] → (t.cell cell).phase.st = .done) := by
  have hself : (s.onCell cell Cell.drainQueue).cell cell = s.cell cell := by
    rw [State.onCell_eq, State.cell_setCell_self]
    unfold Cell.drainQueue
    rw [hq]
    rfl
  unfold Completes
  rw [exec_passEnd]
  unfold execPassEnd
  dsimp only
  rw [if_neg (by simp [hrun, hst]), hself, hp]
  dsimp only
  rw [if_neg (by simp [hx]), if_pos (by simp [ht]), if_pos (by simp [hf])]
  obtain ⟨hpasses, hsq, hseq, hdone⟩ := State.closePass_effect (s := s.onCell cell Cell.drainQueue) (cell := cell) (x := x)
    (by rw [hself, hp]) (by rw [hself, hq])
  rw [hself] at hseq hdone
  exact ⟨_, rfl, hpasses, hsq, hseq, hdone hst⟩
end

/-- Settles O52: each move of the schedule has its effect where its condition holds; of a launch that is pre-empted, every cell
idles or saves, since no work that it drains or discards takes another cell from its rest. -/
theorem schedulingAndScrubs : Obligations.SchedulingAndScrubs := by
  unfold Obligations.SchedulingAndScrubs
  intro s k p id cell reason b l f h m x
  refine ⟨faultRecordPost_effect, ?_, ?_, fun hrun hid hl => cellSaveComplete_effect hrun hid hl rfl rfl, watchdogExpiry_effect,
    partitionScrubComplete_scrubbing, partitionScrubComplete_resetting, partitionScrubComplete_destroying, ?_, ?_, ?_⟩
  · exact fun ⟨hr, hl, hst⟩ => quantumExpiry_effect hr hl hst
  · exact fun ⟨hr, hl, hst⟩ => preemptRequest_effect hr hl hst
  · exact fun ⟨hrun, hst⟩ => blockChoice_starts hrun hst
  · exact fun ⟨hrun, hst⟩ => blockChoice_settles hrun hst
  · exact fun ⟨hrun, hst⟩ => passEnd_effect hrun hst

end Sys2Proof.Machine
end

