-- ==== Sys2Proof/Proofs/Phases.lean ====
section
/-! The phase instructions of the sequencer: the start of a phase and its live slots, its end by `BKILL`, and the bindings of its
blocks (R107 to R109, R228, R377, R378). -/

namespace Sys2Proof.Machine

section
variable {s : State} {c : Cell}

/-! ### Threads and events -/

theorem getLsbD_threadSet (n : Nat) {k : Nat} (hk : k < 4096) : (threadSet n).getLsbD k = decide (k < n) := by
  rw [threadSet, BitVec.getLsbD_ofNat, Nat.testBit_two_pow_sub_one]
  simp [hk]

theorem getLsbD_bitOn (v : BitVec 4096) (i : Nat) {k : Nat} (hk : k < 4096) :
    (bitOn v i).getLsbD k = (v.getLsbD k || decide (i = k)) := by
  rw [bitOn, BitVec.getLsbD_or, BitVec.getLsbD_ofNat, Nat.testBit_two_pow]
  simp [hk]

theorem Cell.lineSet_pulse (c : Cell) {n : Nat} (hn : n < 32) : (c.pulse n).lineSet n = true := by
  unfold Cell.lineSet Cell.pulse
  rw [BitVec.getLsbD_or, BitVec.getLsbD_ofNat, Nat.testBit_two_pow_self]
  simp [hn]

/-! ### A cell that runs with no store buffered -/

theorem State.release_of_quiet (h : s.quiet) : s.release s.focus.cell = s := by
  have hwb : (s.cell s.focus.cell).seq.wb = [] := h.empty
  unfold State.release State.drain
  rw [hwb]
  rfl

theorem State.settle_of_quiet (h : s.quiet) (f : Cell → Cell) : s.settle f = s.setCell s.focus.cell (f s.cur) := if_neg h.runs

/-- The cell in focus takes the place of the old one and retires: its sequencer moves on, and neither memory nor another cell
changes. -/
theorem State.retire_effect (s u : State) (d : Cell) (hf : u.focus = s.focus) (hm : SameMemory s u)
    (hc : ∀ m, u.cell m = s.cell m) (hd : d.seq = s.cur.seq) :
    let t := u.setCur (d.retire false)
    t.cur = d.retire false ∧ t.cur.seq = { s.cur.seq with pc := s.nextPc } ∧ SameMemory s t
      ∧ ∀ m, m ≠ s.focus.cell → t.cell m = s.cell m := by
  dsimp only
  rw [State.setCur_eq, State.cur_setCell_focus, Cell.retire_seq, hd]
  exact ⟨rfl, rfl, hm, fun m hne => (u.cell_setCell_of_ne _ (hf ▸ hne)).trans (hc m)⟩

/-! ### Live slots (R228, R229) -/

theorem Cell.liveSlot_setLiveSlot_self {i k : Nat} {l : List W32} (hl : l.length = 1 + c.ident.tw) (hk : k < 64) :
    (c.setLiveSlot i k l).liveSlot i k = l := by
  have hwritten : ((c.setLiveSlot i k l).writtenMask i).getLsbD k = true := by
    change (Map.get 0 (Map.set 0 c.written i _) i).getLsbD k = true
    rw [Map.get_set_self, BitVec.getLsbD_or, BitVec.getLsbD_ofNat, Nat.testBit_two_pow_self]
    simp [hk]
  rw [Cell.liveSlot, if_pos hwritten]
  change Map.getList 0 (Map.setList 0 c.lvs (c.lvsIndex i k 0) (l.take (1 + c.ident.tw))) (c.lvsIndex i k 0) (1 + c.ident.tw) = l
  rw [← hl, List.take_length, Map.getList_setList]

/-- The words of two slots of a phase do not overlap. -/
theorem Cell.lvsIndex_disjoint {i k j r : Nat} (hne : i ≠ j ∨ k ≠ r) (hk : k ≤ c.phase.lmax) (hr : r ≤ c.phase.lmax) :
    c.lvsIndex j r 0 + (1 + c.ident.tw) ≤ c.lvsIndex i k 0 ∨ c.lvsIndex i k 0 + (1 + c.ident.tw) ≤ c.lvsIndex j r 0 := by
  have hbefore (a b : Nat) (h : a < b) : a * (1 + c.ident.tw) + 0 + (1 + c.ident.tw) ≤ b * (1 + c.ident.tw) + 0 := by
    have := Nat.mul_le_mul_right (1 + c.ident.tw) (Nat.succ_le_of_lt h)
    rw [Nat.succ_mul] at this
    omega
  have hplace (a b p q : Nat) (hp : p ≤ c.phase.lmax) (h : a < b) : a * (c.phase.lmax + 1) + p < b * (c.phase.lmax + 1) + q := by
    have := Nat.mul_le_mul_right (c.phase.lmax + 1) (Nat.succ_le_of_lt h)
    rw [Nat.succ_mul] at this
    omega
  unfold Cell.lvsIndex
  rcases Nat.lt_trichotomy i j with h | h | h
  · exact .inr (hbefore _ _ (hplace i j k r hk h))
  · subst h
    rcases Nat.lt_or_gt_of_ne (hne.resolve_left fun h => h rfl) with h | h
    · exact .inr (hbefore _ _ (by omega))
    · exact .inl (hbefore _ _ (by omega))
  · exact .inl (hbefore _ _ (hplace j i r k hr h))

theorem Cell.liveSlot_setLiveSlot_of_ne {i k j r : Nat} (l : List W32) (hne : i ≠ j ∨ k ≠ r) (hk : k ≤ c.phase.lmax)
    (hr : r ≤ c.phase.lmax) : (c.setLiveSlot i k l).liveSlot j r = c.liveSlot j r := by
  have hmask : ((c.setLiveSlot i k l).writtenMask j).getLsbD r = (c.writtenMask j).getLsbD r := by
    change (Map.get 0 (Map.set 0 c.written i (c.writtenMask i ||| BitVec.ofNat 64 (2 ^ k))) j).getLsbD r = _
    rw [Map.get_set]
    split
    · next h =>
      subst h
      rw [BitVec.getLsbD_or, BitVec.getLsbD_ofNat, Nat.testBit_two_pow, Cell.writtenMask]
      simp [hne.resolve_left fun h => h rfl]
    · rfl
  have hwords : Map.getList 0 (c.setLiveSlot i k l).lvs (c.lvsIndex j r 0) (1 + c.ident.tw)
      = Map.getList 0 c.lvs (c.lvsIndex j r 0) (1 + c.ident.tw) := by
    refine Map.getList_setList_of_disjoint 0 _ _ _ _ _ ?_
    have := Cell.lvsIndex_disjoint (c := c) hne hk hr
    rw [List.length_take]
    omega
  unfold Cell.liveSlot
  rw [hmask]
  exact if_congr Iff.rfl hwords rfl

/-- The slots 0 and 1 of the first n threads, as `BRUN` writes them. -/
def Cell.seeded (c : Cell) (base : Word) (n : Nat) : Cell := (List.range n).foldl (fun c i =>
  (c.setLiveSlot i 0 (BitVec.ofNat 32 i :: List.replicate c.ident.tw 0)).setLiveSlot i 1
    (base.setWidth 32 :: List.replicate c.ident.tw 0)) c

theorem Cell.seeded_succ (c : Cell) (base : Word) (n : Nat) : c.seeded base (n + 1) =
    ((c.seeded base n).setLiveSlot n 0 (BitVec.ofNat 32 n :: List.replicate (c.seeded base n).ident.tw 0)).setLiveSlot n 1
      (base.setWidth 32 :: List.replicate (c.seeded base n).ident.tw 0) := by
  unfold Cell.seeded
  rw [List.range_succ, List.foldl_append]
  rfl

theorem Cell.seeded_frame (c : Cell) (base : Word) (n : Nat) :
    c.seeded base n = { c with lvs := (c.seeded base n).lvs, written := (c.seeded base n).written } := by
  induction n with
  | zero => rfl
  | succ n ih =>
    rw [Cell.seeded_succ, ih]
    rfl

theorem Cell.liveSlot_seeded (c : Cell) (base : Word) {n k : Nat} (hl : 1 ≤ c.phase.lmax) (hk : k < n) :
    (c.seeded base n).liveSlot k 0 = BitVec.ofNat 32 k :: List.replicate c.ident.tw 0
      ∧ (c.seeded base n).liveSlot k 1 = base.setWidth 32 :: List.replicate c.ident.tw 0 := by
  induction n with
  | zero => omega
  | succ n ih =>
    have hframe : (c.seeded base n).phase = c.phase ∧ (c.seeded base n).ident = c.ident := by
      rw [Cell.seeded_frame]
      exact ⟨rfl, rfl⟩
    obtain ⟨hphase, hident⟩ := hframe
    rw [Cell.seeded_succ, hident]
    generalize c.seeded base n = d at ih hphase hident ⊢
    have hlmax : 1 ≤ d.phase.lmax := hphase ▸ hl
    by_cases hkn : k = n
    · subst hkn
      refine ⟨?_, Cell.liveSlot_setLiveSlot_self ?_ (by omega)⟩
      · rw [Cell.liveSlot_setLiveSlot_of_ne (c := d.setLiveSlot k 0 _) _ (.inr (by omega)) hlmax (Nat.zero_le _)]
        exact Cell.liveSlot_setLiveSlot_self (by simp [hident, Nat.add_comm]) (by omega)
      · change _ = 1 + d.ident.tw
        simp [hident, Nat.add_comm]
    · have hother (r : Nat) (hr : r ≤ d.phase.lmax) (l l' : List W32) :
          ((d.setLiveSlot n 0 l).setLiveSlot n 1 l').liveSlot k r = d.liveSlot k r := by
        rw [Cell.liveSlot_setLiveSlot_of_ne (c := d.setLiveSlot n 0 l) l' (.inl (Ne.symm hkn)) hlmax hr,
          Cell.liveSlot_setLiveSlot_of_ne l (.inl (Ne.symm hkn)) (by omega) hr]
      rw [hother 0 (by omega), hother 1 hlmax]
      exact ih (by omega)

/-! ### `BRUN` (R107 to R109, R377) -/

theorem flagEntry_eq (w : Word) : flagEntry w = w.toNat % 64 := by
  simp [flagEntry]

theorem flagLmax_eq (w : Word) : flagLmax w = w.toNat / 64 % 64 := by
  simp [flagLmax, BitVec.extractLsb'_toNat, Nat.shiftRight_eq_div_pow]

theorem lmax_of_brunOk {n flags : Word} {tw : Nat} (h : brunOk n flags tw = true) : 1 ≤ flagLmax flags := by
  have : flagLmax flags ≠ 0 := by
    simp only [brunOk, flagsOk, Bool.and_eq_true, bne_iff_ne] at h
    tauto
  omega

theorem Cell.brunFails_eq_none {flags : Word} (hst : c.phase.st = .idle)
    (hentry : (Map.get? c.bound (flags.toNat % 64)).isSome = true)
    (hslots : ∀ e ∈ c.bound, e.2.slotAbove (flags.toNat / 64 % 64) = false) : c.brunFails flags = none := by
  unfold Cell.brunFails
  rw [flagEntry_eq, flagLmax_eq, if_neg (fun h => h hst), if_neg]
  rw [Bool.or_eq_true, not_or, List.any_eq_true]
  refine ⟨by simp [Option.isSome_iff_ne_none.1 hentry], ?_⟩
  rintro ⟨e, he, habove⟩
  exact absurd habove (by simp [hslots e he])

/-- The phase that `BRUN` starts. -/
def Phase.started (n flags : Word) : Phase :=
  { Phase.reset with
    st := if n.toNat = 0 then .done else .running
    n := n.toNat, entry := flagEntry flags, lmax := flagLmax flags
    gap := if flagGap flags = 0 then 8 else flagGap flags
    passmax := flagPassmax flags
    wait := Map.set 0 [] (flagEntry flags) (threadSet n.toNat)
    lastBlock := tabulate n.toNat fun i => (i, flagEntry flags) }

/-- The cell at the start of a phase, before its live slots are written. -/
def Cell.entered (c : Cell) (n flags : Word) : Cell :=
  { c with phase := .started n flags, errDone := c.errDone + c.phase.errs, fabric := c.fabric.abandoned, written := [] }

theorem Cell.startPhase_eq (c : Cell) (n base flags : Word) : c.startPhase n base flags =
    if n.toNat = 0 then ((c.entered n flags).seeded base n.toNat).pulse 18 else (c.entered n flags).seeded base n.toNat := rfl

/-- A phase has started: its threads wait at the entry block, with their live slots written; without a thread it is done. -/
structure Cell.Starts (c d : Cell) (n base flags : Word) : Prop where
  phase : d.phase = .started n flags
  event : n = 0 → d.lineSet 18 = true
  slots : ∀ k, k < n.toNat → d.liveSlot k 0 = BitVec.ofNat 32 k :: List.replicate c.ident.tw 0
    ∧ d.liveSlot k 1 = base.setWidth 32 :: List.replicate c.ident.tw 0
  frame : d.seq = c.seq ∧ d.scratch = c.scratch

theorem Cell.startPhase_starts (c : Cell) (n base flags : Word) (hl : 1 ≤ flagLmax flags) :
    c.Starts (c.startPhase n base flags) n base flags := by
  have hslots (k : Nat) (hk : k < n.toNat) := Cell.liveSlot_seeded (c.entered n flags) base hl hk
  have hframe := Cell.seeded_frame (c.entered n flags) base n.toNat
  rw [Cell.startPhase_eq]
  generalize (c.entered n flags).seeded base n.toNat = d at hslots hframe
  have hphase : d.phase = .started n flags := by rw [hframe]; rfl
  have hkept : d.seq = c.seq ∧ d.scratch = c.scratch := by rw [hframe]; exact ⟨rfl, rfl⟩
  split
  · exact ⟨hphase, fun _ => d.lineSet_pulse (by omega), hslots, hkept⟩
  · next hn => exact ⟨hphase, fun h => absurd (by rw [h]; rfl) hn, hslots, hkept⟩

theorem Phase.waitOf_started (n flags : Word) {k : Nat} (hk : k < 4096) :
    ((Phase.started n flags).waitOf (flags.toNat % 64)).getLsbD k = decide (k < n.toNat) := by
  unfold Phase.waitOf Phase.started
  rw [← flagEntry_eq, Map.get_set_self, getLsbD_threadSet _ hk]

theorem execBrun_of_fits {x y z : Reg} (hq : s.quiet) (hok : brunOk (s.cur.reg x) (s.cur.reg z) s.cur.ident.tw = true)
    (hbound : s.cur.brunFails (s.cur.reg z) = none) :
    execBrun x y z none s = .next (s.setCur ((s.cur.startPhase (s.cur.reg x) (s.cur.reg y) (s.cur.reg z)).retire false)) := by
  unfold execBrun
  dsimp only
  rw [State.release_of_quiet hq, if_neg (by simp [hok, Cell.mayArm]), hbound]
  dsimp only
  rw [State.settle_of_quiet hq, State.setCur_eq]

theorem brun_starts {x y z : Reg} (hq : s.quiet) (hst : s.cur.phase.st = .idle)
    (hok : brunOk (s.cur.reg x) (s.cur.reg z) s.cur.ident.tw = true)
    (hentry : (Map.get? s.cur.bound ((s.cur.reg z).toNat % 64)).isSome = true)
    (hslots : ∀ e ∈ s.cur.bound, e.2.slotAbove ((s.cur.reg z).toNat / 64 % 64) = false) :
    Completes (.brun x y z none) s fun t =>
      t.cur.phase.n = (s.cur.reg x).toNat ∧ t.cur.phase.st = (if s.cur.reg x = 0 then .done else .running)
      ∧ (s.cur.reg x = 0 → t.cur.lineSet 18 = true)
      ∧ (∀ k, k < 4096 → ((t.cur.phase.waitOf ((s.cur.reg z).toNat % 64)).getLsbD k = decide (k < (s.cur.reg x).toNat)))
      ∧ (∀ k, k < (s.cur.reg x).toNat → (t.cur.liveSlot k 0).head? = some (BitVec.ofNat 32 k)
          ∧ (t.cur.liveSlot k 1).head? = some ((s.cur.reg y).setWidth 32))
      ∧ t.cur.seq = { s.cur.seq with pc := s.nextPc } ∧ t.cur.scratch = s.cur.scratch ∧ SameMemory s t
      ∧ ∀ m, m ≠ s.focus.cell → t.cell m = s.cell m := by
  obtain ⟨hphase, hevent, hslot, hseq, hscratch⟩ :=
    s.cur.startPhase_starts (s.cur.reg x) (s.cur.reg y) (s.cur.reg z) (lmax_of_brunOk hok)
  refine ⟨_, execBrun_of_fits hq hok (Cell.brunFails_eq_none hst hentry hslots), ?_⟩
  generalize s.cur.startPhase _ _ _ = d at *
  obtain ⟨hcur, hpc, hmem, hcells⟩ := State.retire_effect s s d rfl (SameMemory.refl s) (fun _ => rfl) hseq
  rw [hcur] at hpc ⊢
  rw [Cell.retire_phase, hphase]
  refine ⟨rfl, ?_, hevent, fun k hk => Phase.waitOf_started _ _ hk, fun k hk => ?_, hpc, hscratch, hmem, hcells⟩
  · exact if_congr (by rw [← BitVec.toNat_inj]; rfl) rfl rfl
  · obtain ⟨h0, h1⟩ := hslot k hk
    exact ⟨congrArg List.head? h0, congrArg List.head? h1⟩

/-! ### `BWAIT` and `BSTAT` (R109, R378) -/

theorem bwait_running {x : Reg} (hst : s.cur.phase.st = .running) : exec (.bwait x) s = .next s := by
  rw [exec_bwait]
  unfold execBwait
  dsimp only
  rw [hst]

theorem bwait_idle {x : Reg} (hst : s.cur.phase.st = .idle) : Completes (.bwait x) s fun t => Writes s t x 0 s.nextPc := by
  unfold Completes
  rw [exec_bwait]
  unfold execBwait
  dsimp only
  rw [hst]
  exact ⟨_, rfl, Writes.of_setReg s x 0⟩

theorem bwait_done {x : Reg} (hst : s.cur.phase.st = .done) : Completes (.bwait x) s fun t =>
    RegWrite s.cur t.cur x (BitVec.ofNat 64 s.cur.phase.errs) ∧ t.cur.seq.pc = s.nextPc ∧ OnlyRegs s.cur.seq t.cur.seq
      ∧ t.cur = { s.cur with seq := t.cur.seq, phase := { s.cur.phase with st := .idle } } ∧ OnlyCur s t := by
  unfold Completes
  rw [exec_bwait]
  unfold execBwait
  dsimp only
  rw [hst]
  refine ⟨_, rfl, ?_⟩
  obtain ⟨hregs, hshadows⟩ := RegWrite.setReg (s.cur.withPhase fun p => { p with st := .idle }) x
    (BitVec.ofNat 64 s.cur.phase.errs) false
  rw [State.setCur_eq, State.cur_setCell_focus]
  refine ⟨⟨hregs, hshadows⟩, by simp [State.nextPc, instrBytes], ?_, ?_, OnlyCur.setCur s _⟩
  · rw [Cell.setReg_frame]
    rfl
  · rw [Cell.setReg_frame]
    rfl

theorem bstat_reads {x y : Reg} (hi : (s.cur.reg y).toNat ≤ 4095) : Completes (.bstat x y) s fun t =>
    Writes s t x ((Map.get 0 s.cur.phase.errWord (s.cur.reg y).toNat).setWidth 64) s.nextPc := by
  unfold Completes
  rw [exec_bstat]
  unfold execBstat
  dsimp only
  rw [if_neg (by omega)]
  exact ⟨_, rfl, Writes.of_setReg s x _⟩

theorem bstat_traps {x y : Reg} (hi : 4095 < (s.cur.reg y).toNat) (hh : s.handlerReady) :
    Completes (.bstat x y) s fun t => Traps s t .combo 0 s.word := by
  unfold Completes
  rw [exec_bstat]
  unfold execBstat
  dsimp only
  rw [if_pos hi]
  exact trapNow_traps s false .combo 0 hh

/-! ### `BKILL` (R109, R378) -/

theorem Phase.parkAll_cons (p : Phase) (i : Nat) (l : List Nat) (block : Nat → Nat) (err : Option (BitVec 16 × Cause)) :
    p.parkAll (i :: l) block err = (p.park i (block i) err).parkAll l block err := rfl

/-- Parking without an error leaves the error count. -/
theorem Phase.parkAll_frame (p : Phase) (l : List Nat) (block : Nat → Nat) : p.parkAll l block none =
    { p with parked := (p.parkAll l block none).parked, faultPending := (p.parkAll l block none).faultPending
             errWord := (p.parkAll l block none).errWord } := by
  induction l generalizing p with
  | nil => rfl
  | cons i l ih =>
    rw [Phase.parkAll_cons, ih]
    rfl

theorem Phase.parked_parkAll (p : Phase) (l : List Nat) (block : Nat → Nat) (err : Option (BitVec 16 × Cause)) {k : Nat}
    (hk : k < 4096) : (p.parkAll l block err).parked.getLsbD k = (p.parked.getLsbD k || decide (k ∈ l)) := by
  induction l generalizing p with
  | nil => simp [Phase.parkAll]
  | cons i l ih =>
    rw [Phase.parkAll_cons, ih]
    change ((bitOn p.parked i).getLsbD k || _) = _
    rw [getLsbD_bitOn _ _ hk, Bool.or_assoc]
    simp [eq_comm]

/-- Once its unparked threads have parked, a phase has none. -/
theorem Phase.unparked_parkAll (p : Phase) (block : Nat → Nat) (hn : p.n ≤ 4096) :
    (p.parkAll p.unparked block none).unparked = [] := by
  have hsize : (p.parkAll p.unparked block none).n = p.n := by rw [Phase.parkAll_frame]
  refine List.filter_eq_nil_iff.2 fun k hk => ?_
  rw [hsize, List.mem_range] at hk
  rw [Phase.parked_parkAll _ _ _ _ (by omega), Phase.unparked]
  simp [hk]

theorem Cell.killPhase_effect (c : Cell) (hn : c.phase.n ≤ 4096) :
    c.killPhase.phase.st = .done ∧ c.killPhase.phase.unparked = [] ∧ c.killPhase.phase.errs = c.phase.errs
      ∧ c.killPhase.fabric.passes = [] ∧ c.killPhase.fabric.links = [] ∧ c.killPhase.fabric.sq = []
      ∧ c.killPhase.lineSet 18 = true ∧ c.killPhase.seq = c.seq := by
  refine ⟨rfl, Phase.unparked_parkAll c.phase _ hn, ?_, rfl, rfl, rfl, Cell.lineSet_pulse _ (by omega), rfl⟩
  change (c.phase.parkAll _ _ none).errs = _
  rw [Phase.parkAll_frame]

theorem bkill_of_not_running (hst : s.cur.phase.st ≠ .running) : exec .bkill s = .next (s.withPc s.nextPc) := by
  rw [exec_bkill]
  unfold execBkill
  dsimp only
  rw [if_pos hst]
  rfl

theorem bkill_of_running (hst : s.cur.phase.st = .running) (hn : s.cur.phase.n ≤ 4096) : Completes .bkill s fun t =>
    t.cur.phase.st = .done ∧ t.cur.phase.unparked = [] ∧ t.cur.phase.errs = s.cur.phase.errs ∧ t.cur.fabric.passes = []
      ∧ t.cur.fabric.links = [] ∧ t.cur.fabric.sq = [] ∧ t.cur.lineSet 18 = true
      ∧ t.cur.seq = { s.cur.seq with pc := s.nextPc } ∧ SameMemory s t ∧ ∀ m, m ≠ s.focus.cell → t.cell m = s.cell m := by
  unfold Completes
  rw [exec_bkill]
  unfold execBkill
  dsimp only
  rw [if_neg (fun h => h hst)]
  refine ⟨_, rfl, ?_⟩
  obtain ⟨hdone, hparked, herrs, hpasses, hlinks, hsq, hevent, hseq⟩ := s.cur.killPhase_effect hn
  obtain ⟨hcur, hpc, hrest⟩ := State.retire_effect s ((s.meterLost (partOfCell s.focus.cell) 3 s.cur.fabric.lostOps).countCell
    s.focus.cell 2 s.cur.fabric.inFlight.length) _ rfl ⟨fun _ => rfl, fun _ => rfl⟩ (fun _ => rfl) hseq
  rw [hcur] at hpc ⊢
  exact ⟨hdone, hparked, herrs, hpasses, hlinks, hsq, hevent, hpc, hrest⟩

/-! ### `BCFG` (R59, R226, R378) -/

theorem bcfg_unbinds {x y : Reg} (hst : s.cur.phase.st ≠ .running) (hb : (s.cur.reg x).toNat < 64)
    (hy : (s.cur.reg y).toNat = 2 ^ 63) :
    exec (.bcfg x y) s = .next (s.cellStep fun c => { c with bound := Map.erase c.bound (s.cur.reg x).toNat }) := by
  have hword : s.cur.reg y = 0x8000000000000000 := BitVec.eq_of_toNat_eq hy
  rw [exec_bcfg]
  unfold execBcfg
  dsimp only
  rw [hword, if_neg (by simpa [hst] using Nat.le_of_lt_succ hb), if_pos (by decide)]
  rfl

theorem Cell.cacheLoad_frame (c : Cell) (m : Image) : c.cacheLoad m = { c with cache := (c.cacheLoad m).cache } := by
  unfold Cell.cacheLoad
  split <;> rfl

theorem Cell.cacheHas_cacheLoad (c : Cell) (m : Image) : (c.cacheLoad m).cacheHas m.ident = true := by
  unfold Cell.cacheLoad
  split
  · assumption
  · simp [Cell.cacheHas]

theorem bcfg_binds {x y : Reg} {pk : Package} {bytes : List Byte} {m : Image} (hst : s.cur.phase.st ≠ .running)
    (hb : (s.cur.reg x).toNat < 64) (hy : (s.cur.reg y).toNat < 2 ^ 32)
    (hpk : s.ownPackage s.cur ((s.cur.reg y).setWidth 32) = some pk)
    (hbytes : pk.blocks[(s.cur.reg y).toNat % 2 ^ 16]? = some bytes) (hok : pk.blocksOk = true)
    (hparse : parseImage ((s.cur.reg y).setWidth 32) bytes = some m) (himage : m.ok s.cur.ident.tw = true)
    (hblock : m.block = (s.cur.reg x).toNat) : Completes (.bcfg x y) s fun t =>
      t.cur.bound = Map.put s.cur.bound (s.cur.reg x).toNat m ∧ t.cur.cacheHas m.ident = true
        ∧ t.cur.seq = { s.cur.seq with pc := s.nextPc } ∧ SameMemory s t := by
  have hzero : (s.cur.reg y).extractLsb' 32 31 = 0 := by
    apply BitVec.eq_of_toNat_eq
    rw [BitVec.extractLsb'_toNat, Nat.shiftRight_eq_div_pow, Nat.div_eq_of_lt hy]
    rfl
  have hindex : (((s.cur.reg y).setWidth 32 : W32).extractLsb' 0 16).toNat = (s.cur.reg y).toNat % 2 ^ 16 := by
    rw [BitVec.extractLsb'_toNat, BitVec.toNat_setWidth, Nat.mod_eq_of_lt hy, Nat.shiftRight_zero]
  have hsign : (s.cur.reg y).msb = false := BitVec.msb_eq_false_iff_two_mul_lt.2 (by omega)
  unfold Completes
  rw [exec_bcfg]
  unfold execBcfg
  dsimp only
  rw [if_neg (by simpa [hst, hzero] using Nat.le_of_lt_succ hb), if_neg (by simp [hsign]), hpk]
  dsimp only
  rw [hindex, hbytes]
  dsimp only
  rw [if_neg (by simp [hok]), hparse]
  dsimp only
  rw [if_pos (by simp [himage, hblock])]
  refine ⟨_, rfl, ?_⟩
  have hframe := Cell.cacheLoad_frame { s.cur with bound := Map.put s.cur.bound (s.cur.reg x).toNat m } m
  have hcache := Cell.cacheHas_cacheLoad { s.cur with bound := Map.put s.cur.bound (s.cur.reg x).toNat m } m
  generalize Cell.cacheLoad _ m = d at hframe hcache ⊢
  obtain ⟨hcur, hpc, hmem, -⟩ := State.retire_effect s s d rfl (SameMemory.refl s) (fun _ => rfl) (by rw [hframe])
  rw [hcur] at hpc ⊢
  exact ⟨by rw [Cell.retire_bound, hframe], hcache, hpc, hmem⟩

end

/-- Settles O30: each phase instruction, clause by clause; the live slots of a started phase hold since the words of two slots
within LMAX do not overlap. -/
theorem phaseInstructions : Obligations.PhaseInstructions := by
  unfold Obligations.PhaseInstructions
  intro s x y z
  refine ⟨?_, bwait_running, bwait_idle, bwait_done, bstat_reads, bstat_traps, bkill_of_not_running, bkill_of_running,
    bcfg_unbinds, fun pk bytes m => bcfg_binds⟩
  exact fun hq hst hok ⟨hentry, hslots⟩ _ => brun_starts hq hst hok hentry hslots

end Sys2Proof.Machine
end

