-- ==== Sys2Proof/Proofs/Loads.lean ====
section
/-! Loads of NORM and FE pages: what the write buffer forwards, what the L1 gives, and what a read of memory leaves (R138, R341). -/

namespace Sys2Proof.Machine

section
variable {s u : State} {n size : Nat} {l : Loc}

/-! ### What the write buffer forwards (R341) -/

theorem tabulate_some_getD {b : List Byte} (hb : b.length = size) : (tabulate size fun i => some (b.getD i 0)) = b.map some := by
  subst hb
  apply List.ext_getElem
  · simp [tabulate]
  · intro i h _
    have hi : i < b.length := by simpa [tabulate] using h
    simp [tabulate, hi]

/-- A buffer that holds every byte of a range forwards them. -/
theorem Cell.forward_of_held {c : Cell} {a : Nat} {b : List Byte} (hb : b.length = size)
    (h : ∀ i, i < size → wbByte c.seq.wb (a + i) = some (b.getD i 0)) : c.forward a size = (some b, true) := by
  have hbytes : (tabulate size fun i => wbByte c.seq.wb (a + i)) = b.map some := by
    rw [← tabulate_some_getD hb]
    exact List.map_congr_left fun i hi => h i (List.mem_range.1 hi)
  unfold Cell.forward
  simp [hbytes]

/-- A buffer that holds no byte of a range forwards nothing, and nothing of it overlaps the range. -/
theorem Cell.forward_of_free {c : Cell} {a : Nat} (hpos : 0 < size) (h : ∀ i, i < size → wbByte c.seq.wb (a + i) = none) :
    c.forward a size = (none, false) := by
  have hbytes : (tabulate size fun i => wbByte c.seq.wb (a + i)) = List.replicate size none :=
    List.eq_replicate_iff.2 ⟨by simp [tabulate], fun x hx => by
      obtain ⟨i, hi, rfl⟩ := List.mem_map.1 hx
      exact h i (List.mem_range.1 hi)⟩
  unfold Cell.forward
  simp [hbytes, Nat.pos_iff_ne_zero.1 hpos]

/-! ### A line enters the L1 (R138) -/

/-- A fill changes the L1 of its cell, which then holds the line's bytes of memory. -/
theorem State.l1Fill_eq (s : State) (n line : Nat) : ∃ L, Map.get? L line = some (s.lineBytes line)
    ∧ s.l1Fill n line = State.setCell { s with free := s.free + 1 } n { s.cell n with l1 := L } :=
  ⟨_, Map.get?_put_self _ _ _, rfl⟩

/-- A fill of the L1 of the cell in focus keeps to the frame of an access. -/
theorem OnlyAccess.l1Fill (h : OnlyAccess s u) (line : Nat) : OnlyAccess s (u.l1Fill s.focus.cell line)
    ∧ (u.l1Fill s.focus.cell line).cur.seq = u.cur.seq
    ∧ Map.get? (u.l1Fill s.focus.cell line).cur.l1 line = some (u.lineBytes line) := by
  rw [← h.focus]
  obtain ⟨L, hline, heq⟩ := u.l1Fill_eq u.focus.cell line
  have hcur : (u.l1Fill u.focus.cell line).cur = { u.cur with l1 := L } := by
    rw [heq]
    exact State.cell_setCell_self _ _ _
  rw [hcur]
  refine ⟨{ focus := h.focus, others := fun m hm => ?_, cell := ?_, worlds := h.worlds }, rfl, hline⟩
  · rw [heq, h.focus]
    exact (State.cell_setCell_of_ne _ _ hm).trans (h.others m hm)
  · rw [hcur]
    exact congrArg (fun c : Cell => { c with l1 := L }) h.cell

/-! ### The three sources of a load (R138, R341) -/

theorem State.readLoc_eq_readNorm (h : l.cls = .norm ∨ l.cls = .fe) : s.readLoc n l size = s.readNorm n l size := by
  rcases h with h | h <;> simp only [State.readLoc, h]

theorem State.readNorm_of_held {b : List Byte} (hb : b.length = size)
    (h : ∀ i, i < size → wbByte (s.cell n).seq.wb (l.pa + i) = some (b.getD i 0)) : s.readNorm n l size = (s, leNat b) := by
  unfold State.readNorm
  rw [Cell.forward_of_held hb h]

theorem State.readNorm_of_cached {line : List Byte} (hpos : 0 < size)
    (h : ∀ i, i < size → wbByte (s.cell n).seq.wb (l.pa + i) = none) (hl : Map.get? (s.cell n).l1 (l.pa / 64) = some line) :
    s.readNorm n l size = (s, leAt line (l.pa % 64) size) := by
  unfold State.readNorm
  rw [Cell.forward_of_free hpos h]
  simp [hl]

/-- Past the write buffer and the L1 a load of a ready line reads memory, after a touch of the line that changes tags and
counters alone, and fills the L1 from a NORM page. -/
theorem State.readNorm_of_missed (hpos : 0 < size) (h : ∀ i, i < size → wbByte (s.cell n).seq.wb (l.pa + i) = none)
    (hl : Map.get? (s.cell n).l1 (l.pa / 64) = none) (hready : s.lineReady l.pa) (hm : paModule l.pa = s.pod.self) :
    ∃ u, OnlyAccess s u ∧ u.cur = s.cur ∧ u.mem = s.mem ∧ u.hostMem = s.hostMem
      ∧ s.readNorm n l size = (if l.cls = .norm then u.l1Fill n (l.pa / 64) else u, leNat (readBytes s.mem l.pa size)) := by
  obtain ⟨L, F, htouch⟩ := s.touch_ready n l.cls l.pa false false hready hm
  refine ⟨State.countCell { s with lines := L, flows := F } n 11 1, ⟨rfl, fun _ _ => rfl, rfl, rfl, rfl, rfl, rfl⟩, rfl, rfl, rfl, ?_⟩
  unfold State.readNorm
  rw [Cell.forward_of_free hpos h]
  simp only [Bool.false_eq_true, if_false, hl, htouch]
  rfl

/-- What such a load of the cell in focus leaves. -/
theorem State.readNorm_missed_effect (hpos : 0 < size) (h : ∀ i, i < size → wbByte s.cur.seq.wb (l.pa + i) = none)
    (hl : Map.get? s.cur.l1 (l.pa / 64) = none) (hready : s.lineReady l.pa) (hm : paModule l.pa = s.pod.self) :
    let r := s.readNorm s.focus.cell l size
    r.2 = leNat (readBytes s.mem l.pa size) ∧ SameMemory s r.1 ∧ OnlyAccess s r.1 ∧ r.1.cur.seq = s.cur.seq
      ∧ Map.get? r.1.cur.l1 (l.pa / 64) = (if l.cls = .norm then some (readBytes s.mem (64 * (l.pa / 64)) 64) else none) := by
  obtain ⟨u, haccess, hcur, hmem, hhost, heq⟩ := State.readNorm_of_missed hpos h hl hready hm
  have hsame : SameMemory s u := ⟨fun a => by rw [hmem], fun a => by rw [hhost]⟩
  dsimp only
  rw [heq]
  refine ⟨rfl, ?_⟩
  dsimp only
  split
  · obtain ⟨hfill, hseq, hline⟩ := haccess.l1Fill (l.pa / 64)
    rw [State.lineBytes, hmem] at hline
    exact ⟨hsame, hfill, by rw [hseq, hcur], hline⟩
  · exact ⟨hsame, haccess, by rw [hcur], by rw [hcur]; exact hl⟩

end

/-- Settles O6, source by source: the write buffer, the L1, memory. -/
theorem loadedValues : Obligations.LoadedValues := by
  unfold Obligations.LoadedValues
  intro s l size hcls
  dsimp only
  rw [State.readLoc_eq_readNorm hcls]
  refine ⟨fun b hheld hb => ?_, fun hfree hpos => ⟨fun line hline => ?_, fun hl hready hm => ?_⟩⟩
  · rw [State.readNorm_of_held hb hheld]
    exact ⟨rfl, rfl⟩
  · rw [State.readNorm_of_cached hpos hfree hline]
    exact ⟨rfl, rfl⟩
  · exact State.readNorm_missed_effect hpos hfree hl hready hm

end Sys2Proof.Machine
end

