-- ==== Sys2Proof/Proofs/MapGone.lean ====
section
/-! A world without a map stays without one, and a dispatched node stays dispatched, whatever ends, is written back or is touched
meanwhile (R44, R89, R138, R148, R168, R271, R275). -/

namespace Sys2Proof.Machine

/-- World w is there without a map, and node n of a queue is dispatched. -/
structure State.MapGone (s : State) (w fn q n : Nat) : Prop where
  node : Dispatches s fn q n
  gone : ∃ v, s.world? w = some v ∧ v.kv = none

section
variable {s t : State} {w fn q n : Nat}

/-- It reads the functions and the worlds alone. -/
theorem State.MapGone.update {boot timebase clock lastVf hyper fring faults parts launches nextLaunch lodge policy pod mem hostMem
    owners opdBacked full stamps lines flows retired quarantined cxl0 cxl1 cxlDown reloading cells out agenda free focus}
    (h : s.MapGone w fn q n) : ({ s with
      boot, timebase, clock, lastVf, hyper, fring, faults, parts, launches, nextLaunch, lodge, policy, pod, mem, hostMem, owners
      opdBacked, full, stamps, lines, flows, retired, quarantined, cxl0, cxl1, cxlDown, reloading, cells, out, agenda, free
      focus } : State).MapGone w fn q n :=
  ⟨h.node, h.gone⟩

theorem State.MapGone.of_onlyLogs (h : s.MapGone w fn q n) (e : OnlyLogs s t) : t.MapGone w fn q n := by
  rw [e]; exact h.update

theorem State.MapGone.ite {c : Prop} {_ : Decidable c} (hs : s.MapGone w fn q n) (ht : t.MapGone w fn q n) :
    (if c then s else t).MapGone w fn q n := by
  split
  · exact hs
  · exact ht

theorem State.MapGone.foldl {α : Type} {f : State → α → State} {l : List α} (h : s.MapGone w fn q n)
    (hf : ∀ s a, s.MapGone w fn q n → (f s a).MapGone w fn q n) : (l.foldl f s).MapGone w fn q n := by
  induction l generalizing s with
  | nil => exact h
  | cons a l ih => exact ih (hf s a h)

theorem State.MapGone.setWorld {x v'} (h : s.MapGone w fn q n) (hk : ∀ v, s.world? x = some v → v.kv = none → v'.kv = none) :
    (s.setWorld x v').MapGone w fn q n := by
  obtain ⟨v, hv, hkv⟩ := h.gone
  refine ⟨h.node, ?_⟩
  by_cases hx : w = x
  · subst hx; exact ⟨v', s.world?_setWorld_self w v', hk v hv hkv⟩
  · exact ⟨v, (s.world?_setWorld_of_ne v' hx).trans hv, hkv⟩

theorem State.MapGone.onWorld {x} {f : World → World} (h : s.MapGone w fn q n)
    (hf : ∀ v : World, v.kv = none → (f v).kv = none) : (s.onWorld x f).MapGone w fn q n := by
  unfold State.onWorld
  split
  · exact h
  · next v hv => exact h.setWorld fun y hy hk => by cases hv.symm.trans hy; exact hf v hk

theorem State.MapGone.finishNode {f k m r} (h : s.MapGone w fn q n) : (s.finishNode f k m r).MapGone w fn q n :=
  ⟨State.dispatches_finishNode h.node f k m r, h.gone⟩

/-! ### Counters, meters and flits -/

theorem State.MapGone.onPart {p f} (h : s.MapGone w fn q n) : (s.onPart p f).MapGone w fn q n := h.update

theorem State.MapGone.onCell {k f} (h : s.MapGone w fn q n) : (s.onCell k f).MapGone w fn q n := h.update

theorem State.MapGone.onPod {f} (h : s.MapGone w fn q n) : (s.onPod f).MapGone w fn q n := h.update

theorem State.MapGone.signal {f vec} (h : s.MapGone w fn q n) : (s.signal f vec).MapGone w fn q n := h.update

theorem State.MapGone.meter {p i k} (h : s.MapGone w fn q n) : (s.meter p i k).MapGone w fn q n := h.onPart

theorem State.MapGone.meterLost {p i k} (h : s.MapGone w fn q n) : (s.meterLost p i k).MapGone w fn q n := h.onPart

theorem State.MapGone.devWrite {f a l} (h : s.MapGone w fn q n) : (s.devWrite f a l).MapGone w fn q n :=
  h.of_onlyLogs (State.devWrite_onlyLogs f l s a)

theorem State.MapGone.countEvent {p i k} (h : s.MapGone w fn q n) : (s.countEvent p i k).MapGone w fn q n :=
  h.of_onlyLogs (s.countEvent_onlyLogs p i k)

theorem State.MapGone.hyperAdd {i k} (h : s.MapGone w fn q n) : (s.hyperAdd i k).MapGone w fn q n :=
  h.of_onlyLogs (s.hyperAdd_onlyLogs i k)

theorem State.MapGone.secondary {p ctx cell cause} (h : s.MapGone w fn q n) : (s.secondary p ctx cell cause).MapGone w fn q n :=
  h.of_onlyLogs (s.traceOf_onlyLogs _ _ _ _ _ _)

theorem State.MapGone.flushCell {k} (h : s.MapGone w fn q n) : (s.flushCell k).MapGone w fn q n :=
  h.of_onlyLogs (s.flushCell_onlyLogs k)

theorem State.MapGone.countLine {line fill} (h : s.MapGone w fn q n) : (s.countLine line fill).MapGone w fn q n :=
  .ite h.update h.update

theorem State.MapGone.sendFlit {f} (h : s.MapGone w fn q n) : (s.sendFlit f).MapGone w fn q n := by
  unfold State.sendFlit
  split
  · exact h.update
  · exact h.onPod

/-! ### Ends of launches (R92, R106) -/

theorem State.MapGone.podPart {m st cause detail} (h : s.MapGone w fn q n) : (s.podPart m st cause detail).MapGone w fn q n := by
  unfold State.podPart State.podSettle
  split
  · exact h.onPod
  · exact .ite h.onPod.onPod.finishNode h.onPod

theorem State.MapGone.launchEnded {e st cause detail} (h : s.MapGone w fn q n) :
    (s.launchEnded e st cause detail).MapGone w fn q n := by
  unfold State.launchEnded
  split
  · exact h.finishNode
  · exact .ite h.podPart h.sendFlit

theorem State.MapGone.loseMacs {p c} (h : s.MapGone w fn q n) : (s.loseMacs p c).MapGone w fn q n := by
  unfold State.loseMacs
  refine h.foldl fun _ _ h => ?_
  split
  · exact h.meterLost
  · exact h.meterLost
  · exact h

theorem State.MapGone.loseStreams {c} (h : s.MapGone w fn q n) : (s.loseStreams c).MapGone w fn q n :=
  h.foldl fun _ _ h => h.foldl fun _ _ h => h.foldl fun _ _ h => h.meterLost

theorem State.MapGone.loseWork {p c} (h : s.MapGone w fn q n) : (s.loseWork p c).MapGone w fn q n :=
  h.meterLost.loseMacs.loseStreams

/-- Holds end on the pages of a map, if there is one (R168). -/
theorem State.MapGone.endHolds {x snap} (h : s.MapGone w fn q n) : (s.endHolds x snap).MapGone w fn q n := by
  unfold State.endHolds
  split
  · exact h
  · exact h.onWorld fun v hv => by simp only [hv, Option.map_none]

theorem State.MapGone.settleGens {x} (h : s.MapGone w fn q n) : (s.settleGens x).MapGone w fn q n := h.onWorld fun _ => id

theorem State.MapGone.dropCell {k c} (h : s.MapGone w fn q n) : ((s.setCell k c).dropHolders k true).MapGone w fn q n := h.update

theorem State.MapGone.discardPart {p} (h : s.MapGone w fn q n) : (s.discardPart p).MapGone w fn q n :=
  h.foldl fun _ _ h => .ite h (h.loseWork.onPart.flushCell.foldl fun _ _ h => h.endHolds).dropCell.settleGens

theorem State.MapGone.settlePart {p} (h : s.MapGone w fn q n) : (s.settlePart p).MapGone w fn q n := .ite h.onPart h

theorem State.MapGone.loseLaunch {id l} (h : s.MapGone w fn q n) : (s.loseLaunch id l).MapGone w fn q n :=
  ((h.foldl fun _ _ h => .ite h.discardPart.onPart h).foldl fun _ _ h => h.meterLost).foldl
    fun _ _ h => h.loseWork.foldl fun _ _ h => h.endHolds

theorem State.MapGone.discardLaunch {id} (h : s.MapGone w fn q n) : (s.discardLaunch id).MapGone w fn q n := by
  cases hl : Map.get? s.launches id with
  | none => unfold State.discardLaunch; rw [hl]; exact h
  | some l =>
    rw [State.discardLaunch_of_get? hl]
    exact (h.loseLaunch.update.foldl fun _ _ h => h.settlePart).settleGens

theorem State.MapGone.endLaunch {id st cause} (h : s.MapGone w fn q n) : (s.endLaunch id st cause).MapGone w fn q n := by
  unfold State.endLaunch
  split
  · exact h
  · exact h.discardLaunch.launchEnded

/-! ### Ends of worlds (R44, R271) -/

theorem State.MapGone.endResets {hit st cause} (h : s.MapGone w fn q n) : (s.endResets hit st cause).MapGone w fn q n :=
  h.update.foldl fun _ _ h => h.launchEnded

theorem State.MapGone.endedRest {x cause parts} (h : s.MapGone w fn q n) : (s.endedRest x cause parts).MapGone w fn q n :=
  (h.foldl fun _ _ h => h.endLaunch).endResets.update

theorem State.MapGone.revoke {x e} (h : s.MapGone w fn q n) : (s.revoke x e).MapGone w fn q n := by
  unfold State.revoke
  split
  · exact h
  · exact (h.foldl fun _ _ h => .ite h.devWrite.devWrite h).update

theorem State.MapGone.endWorld {x cause cell epoch} (h : s.MapGone w fn q n) :
    (s.endWorld x cause cell epoch).MapGone w fn q n := by
  unfold State.endWorld
  split
  · exact h
  · refine .ite h (State.MapGone.endedRest (State.MapGone.setWorld ?_ fun v hv hk => by rw [hv]; exact hk))
    refine State.MapGone.foldl (State.MapGone.update (State.MapGone.foldl ?_ fun _ _ h => h.foldl fun _ _ h => h.finishNode))
      fun _ _ h => ?_
    · have hr : (if cause = Cause.integ.code then s.revoke x epoch else s).MapGone w fn q n := .ite h.revoke h
      split
      · exact hr.finishNode
      · exact hr
    · split
      · exact h.finishNode
      · exact h

/-! ### Lines and stamps (R138, R148) -/

theorem State.MapGone.stampWrite {x line} (h : s.MapGone w fn q n) : (s.stampWrite x line).MapGone w fn q n := by
  unfold State.stampWrite
  split
  · exact h
  · next v hv => exact h.update.setWorld fun y hy hk => by cases hv.symm.trans hy; exact hk

theorem State.MapGone.foldRead {x line} (h : s.MapGone w fn q n) (e : s.foldRead x line = some t) : t.MapGone w fn q n := by
  unfold State.foldRead at e
  split at e
  · cases e; exact h
  · next v hv =>
    have hk (sl ep term) : (s.setWorld x (v.addHash sl ep true term)).MapGone w fn q n :=
      h.setWorld fun y hy hk => by cases hv.symm.trans hy; exact hk
    dsimp only at e
    split at e
    · cases e; exact hk _ _ _
    · split at e
      · cases e; exact hk _ _ _
      · cases e

theorem State.MapGone.evictLine {line} (h : s.MapGone w fn q n) : (s.evictLine line).MapGone w fn q n := by
  have hc : (({ s with lines := Map.erase s.lines line } : State).countLine line false).MapGone w fn q n := h.update.countLine
  unfold State.evictLine
  split
  · exact h
  · dsimp only
    split
    · apply State.MapGone.meter
      split
      · exact hc.stampWrite
      · exact hc
    · split
      · exact hc.stampWrite
      · exact hc

theorem State.MapGone.endUncached (h : s.MapGone w fn q n) : s.endUncached.MapGone w fn q n := h.foldl fun _ _ h => h.evictLine

/-! ### Contexts that end (R275) -/

theorem State.MapGone.endContext {p ctx} (h : s.MapGone w fn q n) : (s.endContext p ctx).MapGone w fn q n := by
  unfold State.endContext
  exact ((h.foldl fun _ _ h => h.evictLine).foldl fun _ _ h => h.update).onPart

theorem State.MapGone.scrubCells {p} (h : s.MapGone w fn q n) : (s.scrubCells p).MapGone w fn q n := h.foldl fun _ _ h => h.onCell

theorem State.MapGone.machineCheck {p ctx} (h : s.MapGone w fn q n) : (s.machineCheck p ctx).MapGone w fn q n :=
  .ite h (.ite h.secondary ((h.hyperAdd.signal.foldl fun _ _ h => .ite h.secondary h).foldl fun _ _ h =>
    .ite (h.endLaunch.foldl fun _ _ h => h.scrubCells) h.endLaunch).endContext)

/-! ### Accesses of a unit (R138, R157) -/

theorem State.MapGone.placeLine {p line tag ctx} (h : s.MapGone w fn q n) : (s.placeLine p line tag ctx).MapGone w fn q n := by
  unfold State.placeLine
  dsimp only
  split
  · split
    · exact h.update
    · refine State.MapGone.update ?_
      split
      · exact h.update.evictLine
      · exact h.update
  · refine .ite h.update ?_
    split
    · exact h.stampWrite
    · exact h

theorem State.MapGone.touchLine {p ctx x cls line write spec} (h : s.MapGone w fn q n)
    (e : s.touchLine p ctx x cls line write spec = some t) : t.MapGone w fn q n := by
  unfold State.touchLine at e
  dsimp only at e
  split at e
  · cases e; exact h
  · split at e
    · cases e; exact h.update
    · obtain ⟨v, hv, rfl⟩ := Option.map_eq_some_iff.1 e
      have h' : v.MapGone w fn q n := by
        split at hv
        · exact h.countLine.foldRead hv
        · cases hv; exact h.countLine
      exact (State.MapGone.ite h' h'.meter.meter).placeLine

theorem State.MapGone.touchFor {p ctx x cls pa write spec} (h : s.MapGone w fn q n) :
    (s.touchFor p ctx x cls pa write spec).MapGone w fn q n := by
  unfold State.touchFor
  refine .ite h (.ite h.endWorld (.ite h.machineCheck ?_))
  split
  · exact h.touchLine ‹_›
  · exact h.endWorld

theorem State.MapGone.touchAs {p ctx x cls pa write spec} (h : s.MapGone w fn q n) :
    (s.touchAs p ctx x cls pa write spec).MapGone w fn q n :=
  .ite h.touchFor.countEvent h.touchFor

theorem State.MapGone.touchRange {p ctx x va len write spec} (h : s.MapGone w fn q n) :
    (s.touchRange p ctx x va len write spec).MapGone w fn q n := by
  refine h.foldl fun s a h => State.MapGone.touchAs ?_
  obtain ⟨F, hF⟩ := s.countAccess_eq unitPort (s.paOf x a)
  rw [hF]
  exact h.update

theorem State.vaPut_frame (l : List Byte) (s : State) (w va : Nat) : ∃ M, s.vaPut w va l = { s with mem := M } := by
  induction l generalizing s va with
  | nil => exact ⟨s.mem, rfl⟩
  | cons b r ih =>
    obtain ⟨M, hM⟩ := ih { s with mem := writeMem s.mem (s.paOf w va) [b] } (va + 1)
    exact ⟨M, hM⟩

theorem State.MapGone.unitWrite {p ctx x va l} (h : s.MapGone w fn q n) : (s.unitWrite p ctx x va l).MapGone w fn q n := by
  obtain ⟨M, hM⟩ := (s.touchRange p ctx x va l.length true false).vaPut_frame l x va
  unfold State.unitWrite
  rw [hM]
  exact h.touchRange.update.endUncached

/-- The node of a command that has taken the map away completes with its status (R86, R381). -/
theorem State.MapGone.kvComplete {k : KvReq} {st : Status} (h : s.MapGone w fn q n) (hsrc : k.src = .node fn q n)
    (hst : st ≠ .short) (r : Nat) : (∃ v, (s.kvComplete w k st r).world? w = some v ∧ v.kv = none)
      ∧ Finishes (s.kvComplete w k st r) fn q n st := by
  have hw : (if s.normRange w k.addr.toNat 64 true then
      s.unitWrite k.part k.ctx w (k.addr.toNat + 32) (leBytes 1 st.code ++ leBytes 3 0 ++ leBytes 4 r) else s).MapGone w fn q n :=
    .ite h.unitWrite h
  unfold State.kvComplete
  rw [hsrc]
  dsimp only
  rw [if_neg hst]
  exact ⟨hw.finishNode.gone, State.finishStatus_finishes hw.node st 0⟩
end

end Sys2Proof.Machine
end

