-- ==== Sys2Proof/Proofs/KvMap.lean ====
section
/-! Map commands (R153 to R168, R379 to R381): how the Espalier reads a record that lies in one resident or uncached line and
writes its status there, and what KVMAP, MAPCREATE, MAPDESTROY and the oldest command of a world do. -/

namespace Sys2Proof.Machine

/-- What a unit's access within ready lines changes: the Commons tags, the flows' counters and memory. -/
def State.touched (s : State) (L : Map LineTag) (F : Map Nat) (M : List Host.Cell) : State :=
  { s with lines := L, flows := F, mem := M }

section
variable {s t : State} {w a fn q n p : Nat} {b l : List Byte} {v : World} {m : KvMap} {k : KvReq} {rest : List KvReq}

/-! ### A line that is ready stays ready (R138) -/

theorem State.misses_of_ready {pa : Nat} (h : s.lineReady pa) : s.misses pa = false := by
  unfold State.misses
  rcases h.1 with hc | hl
  · rw [cached_line] at hc; rw [hc, Bool.and_false, Bool.false_and]
  · rw [Option.isNone_eq_false_iff.2 hl, Bool.and_false]

theorem State.lineReady_of_sameLine {pa pa' : Nat} (h : s.lineReady pa) (e : pa' / 64 = pa / 64) : s.lineReady pa' := by
  unfold State.lineReady State.opdTagged
  rw [e]
  exact h

/-- A hit on a ready line changes its tag, which stays clear of OPD and in its way. -/
theorem State.touchLine_ready {pa : Nat} (h : s.lineReady pa) (p ctx x : Nat) (cls : PageClass) (write spec : Bool) :
    ∃ L, s.touchLine p ctx x cls (pa / 64) write spec = some { s with lines := L }
      ∧ ({ s with lines := L } : State).lineReady pa := by
  obtain ⟨hc, hopd, hway⟩ := h
  unfold State.touchLine
  dsimp only
  split
  · exact ⟨s.lines, rfl, hc, hopd, hway⟩
  · next hnc =>
    obtain ⟨g, hg⟩ := Option.isSome_iff_exists.1 (hc.resolve_left (by simpa using hnc))
    unfold State.opdTagged at hopd
    rw [hg] at hopd ⊢
    refine ⟨_, rfl, .inr (by rw [Map.get?_put_self]; rfl), ?_, fun e he => ?_⟩
    · unfold State.opdTagged
      rw [Map.get?_put_self]
      exact hopd
    · obtain rfl | he := (Map.mem_insert _ _ _ _).1 he
      · exact hway (pa / 64, g) (Map.mem_of_get? hg)
      · exact hway e (List.mem_of_mem_filter he)

theorem State.touchAs_keepsReady {pa : Nat} (h : s.lineReady pa) (hm : paModule pa = s.pod.self) (p ctx x : Nat) (cls : PageClass)
    (write spec : Bool) : ∃ L, s.touchAs p ctx x cls pa write spec = { s with lines := L }
      ∧ ({ s with lines := L } : State).lineReady pa := by
  obtain ⟨L, hL, hr⟩ := State.touchLine_ready h p ctx x cls write spec
  refine ⟨L, ?_, hr⟩
  unfold State.touchAs State.touchFor
  rw [if_neg (not_not.2 hm), h.2.1, Bool.and_false, if_neg Bool.false_ne_true, s.portDown_of_ready pa h,
    if_neg Bool.false_ne_true, hL]
  dsimp only
  rw [State.misses_of_ready h, Bool.and_false, Bool.false_and, Bool.false_and, if_neg Bool.false_ne_true]

/-! ### Accesses within one line -/

theorem lineStarts_within {va len : Nat} (hpos : 0 < len) (h : va % 64 + len ≤ 64) : lineStarts va len = [va] := by
  unfold lineStarts
  rw [if_neg (by omega), show (va + len - 1) / 64 - va / 64 + 1 = 1 by omega]
  change [max va ((va / 64 + 0) * 64)] = [va]
  rw [max_eq_left (by omega)]

theorem State.touchRange_ready {va len : Nat} (hpos : 0 < len) (hlen : va % 64 + len ≤ 64) (h : s.lineReady (s.paOf w va))
    (hm : paModule (s.paOf w va) = s.pod.self) (p ctx : Nat) (write spec : Bool) :
    ∃ L F, s.touchRange p ctx w va len write spec = s.touched L F s.mem ∧ (s.touched L F s.mem).lineReady (s.paOf w va) := by
  obtain ⟨F, hF⟩ := s.countAccess_eq unitPort (s.paOf w va)
  obtain ⟨L, hL, hr⟩ := State.touchAs_keepsReady (s := { s with flows := F }) h hm p ctx w .norm write spec
  refine ⟨L, F, ?_, hr⟩
  unfold State.touchRange
  rw [lineStarts_within hpos hlen]
  change (s.countAccess unitPort (s.paOf w va)).touchAs p ctx w .norm (s.paOf w va) write spec = _
  rw [hF, hL]
  rfl

/-- The record at an address of a world lies in one line of this module, which is ready. -/
structure State.RecordReady (s : State) (w a : Nat) : Prop where
  aligned : a % 64 = 0
  line    : s.lineReady (s.paOf w a)
  near    : paModule (s.paOf w a) = s.pod.self
  start   : s.paOf w a % 64 = 0
  status  : s.paOf w (a + 32) = s.paOf w a + 32

/-- It reads the Commons, the pod and the pages of the world alone. -/
theorem State.RecordReady.congr (h : s.RecordReady w a) (hl : t.lines = s.lines) (hp : t.pod = s.pod)
    (hpa : ∀ va, t.paOf w va = s.paOf w va) : t.RecordReady w a := by
  obtain ⟨ha, ⟨hc, hopd, hway⟩, hm, h0, h32⟩ := h
  refine ⟨ha, ?_, by rwa [hpa, hp], by rwa [hpa], by rwa [hpa, hpa]⟩
  unfold State.lineReady State.opdTagged
  rw [hpa, hl]
  exact ⟨hc, hopd, hway⟩

/-- The Espalier reads the record, and its line stays ready (R157). -/
theorem State.RecordReady.unitRead (h : s.RecordReady w a) (p ctx : Nat) :
    ∃ L F, s.unitRead p ctx w a 64 = (s.touched L F s.mem, s.vaBytes w a 64) ∧ (s.touched L F s.mem).RecordReady w a := by
  obtain ⟨ha, hl, hm, h0, h32⟩ := h
  obtain ⟨L, F, hL, hr⟩ := State.touchRange_ready (len := 64) (by omega) (by omega) hl hm p ctx false false
  refine ⟨L, F, ?_, ha, hr, hm, h0, h32⟩
  unfold State.unitRead
  rw [hL]
  rfl

/-- What the Espalier writes to the record touches its line and memory alone (R157, R381). -/
theorem State.RecordReady.unitWrite (h : s.RecordReady w a) (p ctx : Nat) {l : List Byte} (hpos : 0 < l.length)
    (hlen : l.length ≤ 32) : ∃ L F M, s.unitWrite p ctx w (a + 32) l = s.touched L F M := by
  obtain ⟨ha, hl, hm, h0, h32⟩ := h
  have hline : s.paOf w (a + 32) / 64 = s.paOf w a / 64 := by rw [h32]; omega
  have hnear : paModule (s.paOf w (a + 32)) = s.pod.self := by
    rw [← hm, h32]; unfold paModule; omega
  obtain ⟨L, F, hL, hr⟩ := State.touchRange_ready hpos (by omega) (State.lineReady_of_sameLine hl hline) hnear p ctx true false
  obtain ⟨M, hM⟩ := State.vaPut_frame l (s.touched L F s.mem) w (a + 32)
  refine ⟨L, F, M, ?_⟩
  unfold State.unitWrite
  rw [hL, hM]
  exact State.endUncached_ready (s.touched L F M) _ hr

/-- The last step of a command: its issuer learns of it (R86, R381). -/
def State.tellIssuer (s : State) (k : KvReq) (st : Status) (r : Nat) : State :=
  match k.src with
  | .cell c id => s.onOwner c id fun x => ({ x with kvm := x.kvm.tail } : Cell).pulseDone 20
  | .node f g i => s.finishStatus f g i st (if st = .short then r else 0)

/-- A command completes: the write of its status touches the record's line and memory alone, and its issuer is told. -/
theorem State.RecordReady.kvComplete (h : s.RecordReady w k.addr.toNat) (st : Status) (r : Nat) :
    ∃ L F M, s.kvComplete w k st r = (s.touched L F M).tellIssuer k st r := by
  obtain ⟨L, F, M, hw⟩ := h.unitWrite k.part k.ctx (l := leBytes 1 st.code ++ leBytes 3 0 ++ leBytes 4 r) (by simp) (by simp)
  unfold State.kvComplete
  by_cases hn : s.normRange w k.addr.toNat 64 true = true
  · rw [if_pos hn, hw]; exact ⟨L, F, M, rfl⟩
  · rw [if_neg hn]; exact ⟨s.lines, s.flows, s.mem, rfl⟩

/-! ### The record is in the world's memory whatever waits in its queue -/

theorem State.paOf_congr {x : World} (hv : s.world? w = some v) (hx : t.world? w = some x) (hl : x.leaves = v.leaves) (va : Nat) :
    t.paOf w va = s.paOf w va := by
  unfold State.paOf World.leafAt
  rw [hx, hv]
  dsimp only
  rw [hl]

theorem State.translate_setQueue (hv : s.world? w = some v) (kind : Access) (size : Nat) (va : Word) :
    (s.setWorld w { v with kvq := rest }).translate w kind size va = s.translate w kind size va := by
  unfold State.translate
  rw [State.world?_setWorld_self, hv]
  rfl

theorem State.normRange_setQueue (hv : s.world? w = some v) (va len : Nat) (write : Bool) :
    (s.setWorld w { v with kvq := rest }).normRange w va len write = s.normRange w va len write := by
  unfold State.normRange
  simp only [State.translate_setQueue hv]
  rfl

/-- The record at an address of a world holds these bytes, and can be read and written. -/
structure State.HoldsRecord (s : State) (w a : Nat) (l : List Byte) : Prop where
  norm  : s.normRange w a 64 true = true
  bytes : s.vaBytes w a 64 = l
  ready : s.RecordReady w a

theorem State.HoldsRecord.setQueue (h : s.HoldsRecord w a l) (hv : s.world? w = some v) (rest : List KvReq) :
    (s.setWorld w { v with kvq := rest }).HoldsRecord w a l := by
  have hpa := State.paOf_congr hv (s.world?_setWorld_self w { v with kvq := rest }) rfl
  refine ⟨(State.normRange_setQueue hv _ _ _).trans h.norm, ?_, h.ready.congr rfl rfl hpa⟩
  rw [← h.bytes]
  unfold State.vaBytes
  simp only [hpa]
  rfl

/-! ### KVMAP (R157, R158) -/

/-- A KVMAP node is dispatched, and names a context of partition p and world w (R88, R157). -/
structure KvNode (s : State) (fn q n : Nat) (b : List Byte) (p w : Nat) (v : World) : Prop where
  node  : Dispatched s fn q n 0x03 b
  zeros : kvNodeOk b = true
  ctx   : s.ctxWorld fn (leAt b 17 1) = some (p, w)
  world : s.world? w = some v

theorem kvmap_effect (h : KvNode s fn q n b p w v) (hop : leAt b 16 1 ≤ 8) (hnew : ∀ e ∈ v.kvq, e.src ≠ .node fn q n) :
    Completes (.kvmap fn q n) s fun t => t = s.setWorld w { v with
      kvq := v.kvq ++ [{ src := .node fn q n, op := some (leAt b 16 1), addr := BitVec.ofNat 64 (leAt b 24 8), part := p
                         ctx := leAt b 17 1 }] } := by
  obtain ⟨hd, hok, hc, hv⟩ := h
  have hq : (v.kvq.any fun r => r.src == .node fn q n) = false := List.any_eq_false.2 fun e he => by simpa using hnew e he
  refine ⟨_, ?_, rfl⟩
  rw [exec_kvmap]
  unfold execKvmap kvNodeOp
  rw [hd.withNode]
  dsimp only
  rw [if_neg (by omega), hok, if_neg (by simpa using hop), hc]
  unfold State.onWorld
  dsimp only
  rw [hv]
  dsimp only
  rw [hq, if_neg Bool.false_ne_true]

/-! ### The oldest command (R157, R158, R381) -/

/-- A list of no bytes is not that of KVAPP, whose list has an entry at least (R160, R380). -/
theorem KvRec.op_ne_kvapp {r : KvRec} (hf : r.fieldsOk = true) (hb : r.listBytes = 0) : r.op ≠ 1 := fun h => by
  unfold KvRec.fieldsOk at hf
  unfold KvRec.listBytes at hb
  rw [h] at hf hb
  simp at hf hb
  omega

/-- A command with a record l that passes the checks of the record and the handles on a map, names no list, and whose operation
copies no page and writes no list. -/
structure KvReq.Plain (k : KvReq) (l : List Byte) (m : KvMap) : Prop where
  op      : k.op = some (kvRecOf l).op
  zeros   : kvZeros l = true
  fields  : (kvRecOf l).fieldsOk = true
  noList  : (kvRecOf l).listBytes = 0
  handles : (kvRecOf l).handlesOk m.smax [] = true
  copies  : ((kvRecOf l).perform m []).copies = []
  writes  : ((kvRecOf l).perform m []).writes = []

/-- What the operation of a record without a list does to a map. -/
def kvDoneOf (l : List Byte) (m : KvMap) : KvDone := (kvRecOf l).perform m []

/-- Such a command sets the map of its operation and completes. -/
theorem KvReq.Plain.kvRun (h : k.Plain l m) (hm : v.kv = some m) (s : State) (w : Nat) :
    s.kvRun w v k l = (s.onWorld w fun v => { v with kv := some (kvDoneOf l m).map }).kvComplete w k (kvDoneOf l m).status
      (kvDoneOf l m).result := by
  obtain ⟨hop, hz, hf, hb, hh, hcopies, hwrites⟩ := h
  have happ := KvRec.op_ne_kvapp hf hb
  unfold State.kvRun kvDoneOf
  simp [hop, hz, hf, hb, happ, hm, hh, hcopies, hwrites]

theorem State.world?_onOwner (s : State) (c id : Nat) (f : Cell → Cell) : (s.onOwner c id f).world? w = s.world? w := by
  unfold State.onOwner
  split
  · rfl
  · split
    · rfl
    · split <;> rfl

theorem State.cell_onOwner {c id : Nat} (hrun : (s.cell c).run ≠ .idle) (hid : (s.cell c).ident.launch = id) (f : Cell → Cell) :
    (s.onOwner c id f).cell c = f (s.cell c) := by
  unfold State.onOwner
  rw [if_pos ⟨hrun, hid⟩]
  exact s.cell_setCell_self c _

/-- A world whose oldest map command has been performed. -/
def World.performed (v : World) (rest : List KvReq) (d : KvDone) : World := { v with kvq := rest, kv := some d.map }

/-- The Espalier takes the oldest command, reads its record, sets the map of its operation and completes it. -/
theorem KvReq.Plain.execMapCommandExecute (h : k.Plain l m) (hv : s.world? w = some v) (hq : v.kvq = k :: rest)
    (hrec : s.HoldsRecord w k.addr.toNat l) (hm : v.kv = some m) :
    ∃ L F M, execMapCommandExecute w s = .next (((s.setWorld w (v.performed rest (kvDoneOf l m))).touched L F M).tellIssuer k
      (kvDoneOf l m).status (kvDoneOf l m).result) := by
  have hqueue := s.world?_setWorld_self w { v with kvq := rest }
  have hset := s.world?_setWorld_self w (v.performed rest (kvDoneOf l m))
  have hrec' := hrec.setQueue hv rest
  obtain ⟨L, F, hread, hready⟩ := hrec'.ready.unitRead k.part k.ctx
  have hdone : ((s.setWorld w (v.performed rest (kvDoneOf l m))).touched L F s.mem).RecordReady w k.addr.toNat :=
    hready.congr rfl rfl (State.paOf_congr hqueue hset rfl)
  obtain ⟨L', F', M, hcomplete⟩ := hdone.kvComplete (kvDoneOf l m).status (kvDoneOf l m).result
  refine ⟨L', F', M, ?_⟩
  have honWorld : ((s.setWorld w { v with kvq := rest }).touched L F s.mem).onWorld w
      (fun v => { v with kv := some (kvDoneOf l m).map }) = (s.setWorld w (v.performed rest (kvDoneOf l m))).touched L F s.mem := by
    unfold State.onWorld
    rw [show State.world? ((s.setWorld w { v with kvq := rest }).touched L F s.mem) w = _ from hqueue]
    exact congrArg (State.touched · L F s.mem) (s.setWorld_setWorld w _ _)
  unfold Machine.execMapCommandExecute
  rw [hv]
  dsimp only
  rw [hq]
  dsimp only
  rw [hrec'.norm, if_pos rfl, hread, hrec'.bytes]
  dsimp only
  rw [h.kvRun hm]
  exact congrArg _ ((congrArg (State.kvComplete · w k _ _) honWorld).trans hcomplete)

theorem mapCommandExecute_effect {cell launch : Nat} (h : k.Plain l m) (hv : s.world? w = some v) (hq : v.kvq = k :: rest)
    (hsrc : k.src = .cell cell launch) (hrec : s.HoldsRecord w k.addr.toNat l) (hm : v.kv = some m) :
    Completes (.mapCommandExecute w) s fun t =>
      (∃ v', t.world? w = some v' ∧ v'.kv = some (kvDoneOf l m).map) ∧ (∃ v', t.world? w = some v' ∧ v'.kvq = rest)
      ∧ ((s.cell cell).run ≠ .idle → (s.cell cell).ident.launch = launch → (t.cell cell).kvm = (s.cell cell).kvm.tail) := by
  obtain ⟨L, F, M, e⟩ := h.execMapCommandExecute hv hq hrec hm
  unfold State.tellIssuer at e
  rw [hsrc] at e
  obtain ⟨u, hu⟩ : ∃ u, u = (s.setWorld w (v.performed rest (kvDoneOf l m))).touched L F M := ⟨_, rfl⟩
  have hw : u.world? w = some (v.performed rest (kvDoneOf l m)) := by rw [hu]; exact s.world?_setWorld_self w _
  have hcell : u.cell cell = s.cell cell := by rw [hu]; rfl
  rw [← hu] at e
  refine ⟨_, (exec_mapCommandExecute s w).trans e, ⟨_, (State.world?_onOwner _ _ _ _).trans hw, rfl⟩,
    ⟨_, (State.world?_onOwner _ _ _ _).trans hw, rfl⟩, fun hrun hid => ?_⟩
  rw [State.cell_onOwner (by rwa [hcell]) (by rwa [hcell]), hcell]
  rfl

/-! ### Nodes that make and end maps (R153, R157, R158) -/

/-- The command of a KVMAP node on a world without waiting commands, with its record read. -/
theorem KvNode.mapNode {op : Nat} (h : KvNode s fn q n b p w v) (hop : leAt b 16 1 = op) (hq : v.kvq = [])
    (hrec : s.HoldsRecord w (BitVec.ofNat 64 (leAt b 24 8)).toNat l)
    (f : State → Nat → World → KvReq → List Byte → State) :
    ∃ L F k, k.src = .node fn q n ∧ (s.touched L F s.mem).RecordReady w k.addr.toNat
      ∧ s.mapNode fn q n op f = .next (f (s.touched L F s.mem) w v k l) := by
  obtain ⟨hd, hok, hc, hv⟩ := h
  obtain ⟨L, F, hread, hready⟩ := hrec.ready.unitRead p (leAt b 17 1)
  refine ⟨L, F, { src := .node fn q n, op := some op, addr := BitVec.ofNat 64 (leAt b 24 8), part := p, ctx := leAt b 17 1 }, rfl,
    hready, ?_⟩
  unfold State.mapNode kvNodeOp
  rw [hd.withNode]
  dsimp only
  rw [if_neg (not_not.2 hop), hok, if_neg (by decide), hc]
  dsimp only
  rw [hv]
  dsimp only
  rw [hq, if_neg (by decide), hrec.norm, if_pos rfl, hread, hrec.bytes]

/-! ### MAPCREATE (R153 to R155) -/

/-- The search for a free page reads the owner table, the retired groups and the pod alone. -/
theorem State.firstFree_congr (hown : t.owners = s.owners) (hret : t.retired = s.retired) (unit k c e : Nat) :
    t.firstFree unit k c e = s.firstFree unit k c e := by
  induction k generalizing c with
  | zero => rfl
  | succ k ih =>
    unfold State.firstFree
    simp only [hown, hret, ih]

theorem State.freeUnit_congr (hown : t.owners = s.owners) (hret : t.retired = s.retired) (hpod : t.pod = s.pod) (p unit : Nat) :
    t.freeUnit p unit = s.freeUnit p unit := by
  unfold State.freeUnit
  simp only [State.firstFree_congr hown hret, hown, hret, hpod]

/-- What the Commons and the flows hold does not hinder the taking of pages. A variable stands for the search of a free page,
which the kernel would evaluate. -/
theorem State.takeRuns_touched (p : Nat) (o : Owner) (L : Map LineTag) (F : Map Nat) (M : List Host.Cell) (k m : Nat) :
    ∀ (s : State) (x : State × List (Nat × Nat)), s.takeRuns p o k m = some x → (s.touched L F M).takeRuns p o k m ≠ none := by
  have hcongr (s : State) (c : Nat) : (s.touched L F M).freeUnit p c = s.freeUnit p c :=
    State.freeUnit_congr (s := s) (t := s.touched L F M) rfl rfl rfl p c
  revert hcongr
  obtain ⟨f, hf⟩ : ∃ f, f = State.freeUnit := ⟨_, rfl⟩
  delta State.takeRuns State.takeRuns._f
  rw [← hf]
  intro hcongr
  induction k generalizing m with
  | zero =>
    intro s x h
    change (if m = 0 then some (s, []) else none) = some x at h
    change (if m = 0 then some (s.touched L F M, []) else none) ≠ none
    split at h
    · next hm => rw [if_pos hm]; exact Option.some_ne_none _
    · cases h
  | succ k ih =>
    intro s x h
    dsimp only at h ⊢
    rw [hcongr]
    split at h
    · next hm => rw [if_pos hm]; exact Option.some_ne_none _
    next hm =>
    rw [if_neg hm]
    split at h
    · cases h
    split at h
    · cases h
    next hx =>
    split
    · next hn => exact absurd hn (ih _ _ _ hx)
    · exact Option.some_ne_none _

theorem State.takeBytes_touched {o : Owner} {m : Nat} (L : Map LineTag) (F : Map Nat) (M : List Host.Cell)
    (h : (s.takeBytes p o m).isSome = true) : ((s.touched L F M).takeBytes p o m).isSome = true := by
  obtain ⟨x, hx⟩ := Option.isSome_iff_exists.1 h
  exact Option.isSome_iff_ne_none.2 (State.takeRuns_touched p o L F M _ m s x hx)

/-- Only the stamps of lines and the hashes of their worlds differ. -/
def OnlyStamps (s t : State) : Prop := t = { s with stamps := t.stamps, worlds := t.worlds }

theorem OnlyStamps.trans {u : State} (h : OnlyStamps s t) (h' : OnlyStamps t u) : OnlyStamps s u := Eq.trans h' (by rw [h])

theorem OnlyStamps.foldl {α : Type} {f : State → α → State} (hf : ∀ s a, OnlyStamps s (f s a)) (l : List α) (s : State) :
    OnlyStamps s (l.foldl f s) := by
  induction l generalizing s with
  | nil => rfl
  | cons a l ih => exact (hf s a).trans (ih _)

theorem State.stampRange_onlyStamps (s : State) (pa len : Nat) : OnlyStamps s (s.stampRange pa len) := by
  unfold State.stampRange
  refine OnlyStamps.foldl (fun s line => ?_) _ s
  split
  · unfold State.stampWrite
    split
    · rfl
    · rfl
  · rfl

theorem State.dispatches_congr (h : Dispatches s fn q n) (e : t.funcs = s.funcs) : Dispatches t fn q n := by
  unfold Dispatches State.queue State.func
  rw [e]
  exact h

/-- With its metadata taken and stamped, the map is made and the node completes; the stamps and hashes leave the record's line,
the node and the world's pages as they were (R148, R154). -/
theorem State.RecordReady.makeMap {u : State} (h : s.RecordReady w k.addr.toNat) (hd : Dispatches s fn q n)
    (hv : s.world? w = some v) (hsrc : k.src = .node fn q n) (hframe : u = { s with owners := u.owners })
    (pages : List (Nat × Nat)) (m : KvMap) :
    let t := ((pages.foldl (fun s c => s.stampRange c.1 c.2) u).onWorld w fun v => { v with kv := some m }).kvComplete w k .ok 0
    (∃ v', t.world? w = some v' ∧ v'.kv = some m) ∧ Finishes t fn q n .ok := by
  have hstamps : OnlyStamps u (pages.foldl (fun s c => s.stampRange c.1 c.2) u) :=
    OnlyStamps.foldl (fun s c => s.stampRange_onlyStamps c.1 c.2) pages u
  obtain ⟨v', hv', hleaves, -⟩ := ((State.Keeps.refl u).foldl (l := pages) (f := fun s c => s.stampRange c.1 c.2)
    fun _ _ h => h.stampRange).worlds w v (by rw [hframe]; exact hv)
  generalize pages.foldl (fun s c => s.stampRange c.1 c.2) u = x at hstamps hv'
  have hset := x.world?_setWorld_self w { v' with kv := some m }
  have hdone : (x.setWorld w { v' with kv := some m }).RecordReady w k.addr.toNat := by
    refine h.congr ?_ ?_ (State.paOf_congr hv hset hleaves)
    · change x.lines = _; rw [hstamps, hframe]
    · change x.pod = _; rw [hstamps, hframe]
  have hnode : Dispatches x fn q n := State.dispatches_congr hd (by rw [hstamps, hframe])
  obtain ⟨L, F, M, hcomplete⟩ := hdone.kvComplete .ok 0
  unfold State.onWorld
  rw [hv']
  dsimp only
  rw [hcomplete]
  unfold State.tellIssuer
  rw [hsrc]
  exact ⟨⟨_, hset, rfl⟩, State.finishStatus_finishes hnode .ok 0⟩

/-- A record for MAPCREATE that passes the checks of the record (R153, R157). -/
structure KvRec.Creates (r : KvRec) : Prop where
  op       : r.op = 0x10
  flags    : r.flags = 0
  handle   : r.handle = 0
  list     : r.list = 0
  geometry : r.geometryOk = true

theorem mapcreate_effect (h : KvNode s fn q n b p w v) (hop : leAt b 16 1 = 0x10) (hq : v.kvq = [])
    (hrec : s.HoldsRecord w (BitVec.ofNat 64 (leAt b 24 8)).toNat l) (hr : (kvRecOf l).Creates) (hz : kvZeros l = true)
    (hkv : v.kv = none) (hpool : s.normRange w (kvRecOf l).hash ((kvRecOf l).count * 16384 * (kvRecOf l).units) true = true)
    (hroom : (s.takeBytes v.home (.kvMeta w) (pageBytes * kvMetaPages (kvRecOf l))).isSome = true) :
    Completes (.mapcreate fn q n) s fun t =>
      (∃ v', t.world? w = some v' ∧ v'.kv = some (kvRecOf l).newMap) ∧ Finishes t fn q n .ok := by
  obtain ⟨hop10, hflags, hhandle, hlist, hgeo⟩ := hr
  unfold Completes
  rw [exec_mapcreate]
  unfold execMapcreate
  obtain ⟨L, F, k, hsrc, hready, e⟩ := h.mapNode hop hq hrec _
  rw [e]
  dsimp only
  rw [if_neg (by simp [hop10, hz, hflags, hhandle, hlist, hgeo]), hkv, if_neg (by decide),
    show (s.touched L F s.mem).normRange w (kvRecOf l).hash ((kvRecOf l).count * 16384 * (kvRecOf l).units) true = true from hpool,
    if_neg (by decide)]
  have htake := State.takeBytes_touched L F s.mem hroom
  -- A variable stands for the taking of bytes: the kernel would evaluate it.
  obtain ⟨take, ht⟩ : ∃ take, take = State.takeBytes := ⟨_, rfl⟩
  rw [← ht] at htake ⊢
  obtain ⟨⟨u, pages⟩, hu⟩ := Option.isSome_iff_exists.1 htake
  have hframe : u = { s.touched L F s.mem with owners := u.owners } := State.takeBytes_frame (ht ▸ hu)
  rw [hu]
  dsimp only
  exact ⟨_, rfl, hready.makeMap h.node.dispatches h.world hsrc hframe pages _⟩

theorem mapdestroy_effect (h : KvNode s fn q n b p w v) (hop : leAt b 16 1 = 0x11) (hq : v.kvq = [])
    (hrec : s.HoldsRecord w (BitVec.ofNat 64 (leAt b 24 8)).toNat ((0x11 : Byte) :: List.replicate 63 0))
    (hkv : v.kv = some m) (hholds : ∀ e ∈ m.holds, e.2 = 0) :
    Completes (.mapdestroy fn q n) s fun t => (∃ v', t.world? w = some v' ∧ v'.kv = none) ∧ Finishes t fn q n .ok := by
  obtain ⟨L, F, k, hsrc, hready, e⟩ := h.mapNode hop hq hrec _
  refine ⟨_, (exec_mapdestroy s fn q n).trans e, ?_⟩
  dsimp only
  rw [if_neg (by decide), hkv]
  dsimp only
  rw [if_neg (by simpa using hholds)]
  have hfree := (State.Wanes.refl (s.touched L F s.mem)).foldl
    (l := (s.touched L F s.mem).owners.filter fun o => o.owner == .kvMeta w)
    (f := fun s o => (s.foldRange o.base o.len).freeRange o.base o.len) fun _ _ h => h.foldRange.freeRange
  obtain ⟨v', hv', -⟩ := hfree.worlds w v h.world
  refine State.MapGone.kvComplete ⟨State.dispatches_onWorld (hfree.nodes fn q n h.node.dispatches), ?_⟩ hsrc (by decide) 0
  unfold State.onWorld
  rw [hv']
  exact ⟨_, State.world?_setWorld_self _ _ _, rfl⟩
end

/-- Settles O49: the record's line is ready, so that reading it and writing its status change neither the map nor the node; where
MAPDESTROY has freed the map's metadata, `State.MapGone` holds whatever the last write meets. -/
theorem mapCommandsPerform : Obligations.MapCommandsPerform := by
  unfold Obligations.MapCommandsPerform
  intro s fn q n p w cell launch b l v m k rest
  dsimp only
  refine ⟨?_, ?_, ?_, ?_⟩
  · rintro ⟨hd, hok, hc, hv⟩ hop hnew
    exact kvmap_effect ⟨hd, hok, hc, hv⟩ hop hnew
  · rintro hv hq hsrc hop ⟨ha, hnorm, hbytes, hline, hnear, hstart, hstatus⟩ hm hz hf hb hh hcopies hwrites
    exact mapCommandExecute_effect ⟨hop, hz, hf, hb, hh, hcopies, hwrites⟩ hv hq hsrc
      ⟨hnorm, hbytes, ha, hline, hnear, hstart, hstatus⟩ hm
  · rintro ⟨hd, hok, hc, hv⟩ hop hq ⟨ha, hnorm, hbytes, hline, hnear, hstart, hstatus⟩ hrec ⟨hflags, hhandle, hlist, hz⟩ hgeo
      hkv hpool hroom
    exact mapcreate_effect ⟨hd, hok, hc, hv⟩ hop hq ⟨hnorm, hbytes, ha, hline, hnear, hstart, hstatus⟩
      ⟨hrec, hflags, hhandle, hlist, hgeo⟩ hz hkv hpool hroom
  · rintro ⟨hd, hok, hc, hv⟩ hop hq ⟨ha, hnorm, hbytes, hline, hnear, hstart, hstatus⟩ hkv hholds rfl
    exact mapdestroy_effect ⟨hd, hok, hc, hv⟩ hop hq ⟨hnorm, hbytes, ha, hline, hnear, hstart, hstatus⟩ hkv hholds

end Sys2Proof.Machine
end

