-- ==== Sys2Proof/Proofs/Rounding.lean ====
section
/-! Rounding gives a value that an IEEE format holds its own code, and no value a code outside the format (R199, R200). -/

namespace Sys2Proof.Machine

/-! ### Magnitudes -/

section
variable {P : Nat} {B : Int} {r : Rnd} {neg : Bool} {m t k : Nat} {e : Int}

/-- A significand whose unit is already the one of its precision is not rounded. -/
theorem roundMag_of_fits (hm : m ≠ 0) (he : max (Nat.log2 m + e) (1 - B) - (P - 1 : Nat) = e) :
    roundMag P B r neg m e = (max (Nat.log2 m + e + B) 1 - 1).toNat * 2 ^ (P - 1) + m := by
  unfold roundMag
  rw [if_neg hm]
  simp [he]

theorem roundMag_subnormal (ht : t < 2 ^ (P - 1)) : roundMag P B r neg t (1 - B - (P - 1 : Nat)) = t := by
  by_cases h0 : t = 0
  · exact (if_pos h0).trans h0.symm
  · have hl : Nat.log2 t < P - 1 := (Nat.log2_lt h0).2 ht
    have htop : (max (Nat.log2 t + (1 - B - (P - 1 : Nat)) + B) 1 - 1).toNat = 0 := by omega
    rw [roundMag_of_fits h0 (by omega), htop, Nat.zero_mul, Nat.zero_add]

theorem roundMag_normal (ht : t < 2 ^ (P - 1)) (hk : k ≠ 0) :
    roundMag P B r neg (t + 2 ^ (P - 1)) (k - B - (P - 1 : Nat)) = k * 2 ^ (P - 1) + t := by
  have h0 : t + 2 ^ (P - 1) ≠ 0 := (Nat.add_pos_right t (Nat.two_pow_pos _)).ne'
  have hl : Nat.log2 (t + 2 ^ (P - 1)) = P - 1 :=
    (Nat.log2_eq_iff h0).2 ⟨Nat.le_add_left _ _, by rw [pow_succ]; omega⟩
  have htop : (max ((P - 1 : Nat) + (k - B - (P - 1 : Nat)) + B) 1 - 1).toNat = k - 1 := by omega
  rw [roundMag_of_fits h0 (by rw [hl]; omega), hl, htop]
  obtain ⟨j, rfl⟩ := Nat.exists_eq_succ_of_ne_zero hk
  rw [Nat.succ_sub_one, Nat.succ_mul]
  omega
end

/-! ### Codes of a format -/

section
variable {f : FFmt} {r : Rnd} {neg : Bool} {n : Nat}

theorem FFmt.signed_lt (hw : f.w ≠ 0) (h : n < 2 ^ (f.w - 1)) : f.signed neg n < 2 ^ f.w := by
  have hpow : 2 ^ f.w = 2 ^ (f.w - 1) + 2 ^ (f.w - 1) := by rw [← mul_two, ← pow_succ, Nat.sub_add_cancel (by omega)]
  unfold FFmt.signed
  split <;> omega

/-- A code is its sign and its magnitude. -/
theorem FFmt.signed_split (hw : f.w ≠ 0) (h : n < 2 ^ f.w) :
    f.signed (n / 2 ^ (f.w - 1) % 2 == 1) (n % 2 ^ (f.w - 1)) = n := by
  have hpow : 2 ^ f.w = 2 ^ (f.w - 1) * 2 := by rw [← pow_succ, Nat.sub_add_cancel (by omega)]
  have hdiv : n / 2 ^ (f.w - 1) < 2 := Nat.div_lt_of_lt_mul (hpow ▸ h)
  have hsplit := Nat.div_add_mod n (2 ^ (f.w - 1))
  unfold FFmt.signed
  obtain h0 | h1 := Nat.le_one_iff_eq_zero_or_eq_one.1 (Nat.lt_succ_iff.1 hdiv)
  · rw [h0, Nat.mul_zero] at hsplit
    rw [h0]
    exact hsplit
  · rw [h1, Nat.mul_one] at hsplit
    rw [h1]
    exact hsplit

theorem FFmt.round_magVal (h : n < f.infCode) : f.round r (magVal f.p f.b neg n) = f.signed neg n := by
  have ht : n % 2 ^ (f.p - 1) < 2 ^ (f.p - 1) := Nat.mod_lt _ (Nat.two_pow_pos _)
  unfold magVal
  by_cases hk : n / 2 ^ (f.p - 1) = 0
  · have hn : n % 2 ^ (f.p - 1) = n := by simpa [hk] using Nat.div_add_mod n (2 ^ (f.p - 1))
    simp only [FFmt.round, hk, if_true, roundMag_subnormal ht]
    rw [hn, if_pos h]
  · simp only [FFmt.round, hk, if_false, roundMag_normal ht hk]
    rw [Nat.div_add_mod', if_pos h]

theorem FFmt.round_val (hw : f.w ≠ 0) (h : n < 2 ^ f.w) (hn : f.val n ≠ .nan) : f.round r (f.val n) = n := by
  refine Eq.trans ?_ (FFmt.signed_split hw h)
  unfold FFmt.val at hn ⊢
  dsimp only at hn ⊢
  by_cases hnan : f.infCode < n % 2 ^ (f.w - 1)
  · exact absurd (if_pos hnan) hn
  · rw [if_neg hnan]
    by_cases hinf : n % 2 ^ (f.w - 1) = f.infCode
    · rw [if_pos hinf, hinf]
      rfl
    · rw [if_neg hinf]
      exact FFmt.round_magVal (by omega)

theorem FFmt.infCode_add (hp : f.p ≠ 0) (hw : f.p ≤ f.w) : f.infCode + 2 ^ (f.p - 1) = 2 ^ (f.w - 1) := by
  have hexp : f.w - 1 = f.w - f.p + (f.p - 1) := by omega
  rw [hexp, pow_add, FFmt.infCode, Nat.sub_mul, Nat.one_mul,
    Nat.sub_add_cancel (Nat.le_mul_of_pos_left _ (Nat.two_pow_pos _))]

/-- Overflow gives the infinity or the code below it. -/
theorem FFmt.round_lt (hp : 2 ≤ f.p) (hw : f.p ≤ f.w) (v : Val) : f.round r v < 2 ^ f.w := by
  have hw0 : f.w ≠ 0 := by omega
  have hinf := f.infCode_add (by omega) hw
  have hpos := Nat.two_pow_pos (f.p - 1)
  cases v with
  | nan =>
    have hquiet : 2 ^ (f.p - 2) < 2 ^ (f.p - 1) := Nat.pow_lt_pow_right (by omega) (by omega)
    have htop : 2 ^ (f.w - 1) ≤ 2 ^ f.w := Nat.pow_le_pow_right (by omega) (by omega)
    change f.infCode + 2 ^ (f.p - 2) < 2 ^ f.w
    omega
  | inf s => exact FFmt.signed_lt hw0 (by omega)
  | fin s m e =>
    unfold FFmt.round
    dsimp only
    split
    · exact FFmt.signed_lt hw0 (by omega)
    · refine FFmt.signed_lt hw0 ?_
      split <;> omega
end

/-- Settles O16: a code's magnitude needs no rounding (`FFmt.round_magVal`), and in each of the three formats the infinity and the
canonical NaN lie below the sign bit. -/
theorem roundingKeepsWhatTheFormatHolds : Obligations.RoundingKeepsWhatTheFormatHolds := by
  unfold Obligations.RoundingKeepsWhatTheFormatHolds
  intro f r hf
  have hshape : 2 ≤ f.p ∧ f.p ≤ f.w := by
    rcases hf with rfl | rfl | rfl
    · decide
    · decide
    · decide
  obtain ⟨hp, hw⟩ := hshape
  exact ⟨fun n h hn => FFmt.round_val (by omega) h hn, rfl, FFmt.round_lt hp hw⟩

end Sys2Proof.Machine
end

