-- ==== Sys2Proof/Proofs/Arbour.lean ====
section
/-! One step of the Arbour: what the completion of an operation leaves, what the back half takes of its FIFO, and what a product
makes of a row of its A FIFO (R207 to R211, R249 to R257, R370 to R372). -/

namespace Sys2Proof.Machine

/-! ### Tiles (R249) -/

/-- Element (r, k) of tile t. -/
def Cell.tileElem (c : Cell) (t r k : Nat) : W32 := Map.get 0 c.tiles (tileKey t r k)

/-- Of a cell only its tiles and the record of the tiles written differ. -/
def OnlyTiles (c d : Cell) : Prop := d = { c with tiles := d.tiles, tileWritten := d.tileWritten }

section
variable {c d : Cell} {t r r' k : Nat} {f : Nat → List W32} {l : List W32}

@[simp] theorem Cell.length_tileRow (c : Cell) (t r : Nat) : (c.tileRow t r).length = 96 := Map.length_getList _ _ _ _

theorem Cell.getElem_tileRow (h : k < (c.tileRow t r).length) : (c.tileRow t r)[k] = c.tileElem t r k := by
  have hk : k < 96 := by simpa using h
  have hget := Map.getD_getList 0 c.tiles (tileKey t r 0) 96 k hk
  rw [List.getD_eq_getElem _ _ (by simpa using hk)] at hget
  refine hget.trans ?_
  unfold Cell.tileElem
  congr 1

theorem Cell.tileElem_setTileRow (c : Cell) (t t' : Nat) (hl : l.length = 96) (hr : r < 128) (hr' : r' < 128) (hk : k < 96) :
    (c.setTileRow t r l).tileElem t' r' k = if t' = t ∧ r' = r then l.getD k 0 else c.tileElem t' r' k := by
  refine (Map.get_setList 0 l c.tiles (tileKey t r 0) (tileKey t' r' k)).trans ?_
  unfold Cell.tileElem tileKey
  rw [hl]
  by_cases h : t' = t ∧ r' = r
  · obtain ⟨rfl, rfl⟩ := h
    rw [if_pos (by omega), if_pos ⟨rfl, rfl⟩]
    congr 1
    omega
  · rw [if_neg (by omega), if_neg h]

theorem OnlyTiles.refl (c : Cell) : OnlyTiles c c := rfl

theorem OnlyTiles.seq (h : OnlyTiles c d) : d.seq = c.seq := by
  unfold OnlyTiles at h
  rw [h]

theorem OnlyTiles.setTileRow (h : OnlyTiles c d) (t r : Nat) (l : List W32) : OnlyTiles c (d.setTileRow t r l) := by
  unfold OnlyTiles at h ⊢
  rw [h]
  rfl

theorem OnlyTiles.mapTile (h : OnlyTiles c d) (t : Nat) (f : Nat → List W32) : OnlyTiles c (d.mapTile t f) :=
  List.foldlRecOn _ _ h fun _ h r _ => h.setTileRow t r (f r)

/-- Each row of the tile is the row given, and other tiles are as before. -/
theorem Cell.tileElem_mapTile (c : Cell) (t t' : Nat) (hf : ∀ r, (f r).length = 96) (hr : r < 128) (hk : k < 96) :
    (c.mapTile t f).tileElem t' r k = if t' = t then (f r).getD k 0 else c.tileElem t' r k := by
  have hrows : ∀ m ≤ 128, ((List.range m).foldl (fun c r => c.setTileRow t r (f r)) c).tileElem t' r k
      = if t' = t ∧ r < m then (f r).getD k 0 else c.tileElem t' r k := by
    intro m hm
    induction m with
    | zero => exact (if_neg (by omega)).symm
    | succ m ih =>
      rw [List.range_succ, List.foldl_append, List.foldl_cons, List.foldl_nil,
        Cell.tileElem_setTileRow _ _ _ (hf m) (by omega) hr hk, ih (by omega)]
      by_cases hrow : t' = t ∧ r = m
      · obtain ⟨ht, rfl⟩ := hrow
        rw [if_pos ⟨ht, rfl⟩, if_pos ⟨ht, by omega⟩]
      · rw [if_neg hrow]
        exact if_congr (by omega) rfl rfl
  refine (hrows 128 le_rfl).trans (if_congr ?_ rfl rfl)
  simp [hr]

theorem Cell.tileElem_map_tileRow (c : Cell) (t : Nat) (g : W32 → W32) (hk : k < 96) :
    ((c.tileRow t r).map g).getD k 0 = g (c.tileElem t r k) := by
  rw [List.getD_eq_getElem _ _ (by simpa using hk), List.getElem_map, Cell.getElem_tileRow]
end

/-! ### What the completed operations do to the tiles (R370) -/

section
variable {c : Cell} {o : ArbOp} {t r k : Nat}

theorem Cell.doAclr_onlyTiles (c : Cell) (o : ArbOp) : OnlyTiles c (c.doAclr o) :=
  List.foldlRecOn _ _ (.refl c) fun _ h _ _ => h.mapTile _ _

theorem Cell.doAscale_onlyTiles (c : Cell) (o : ArbOp) : OnlyTiles c (c.doAscale o) :=
  (List.foldlRecOn (motive := OnlyTiles c) _ _ (.refl c) fun _ h _ _ => h.mapTile _ _).mapTile _ _

theorem Cell.doAcpy_onlyTiles (c : Cell) (o : ArbOp) : OnlyTiles c (c.doAcpy o) := by
  unfold Cell.doAcpy
  split
  · exact .refl c
  · exact List.foldlRecOn _ _ (.refl c) fun _ h _ _ => h.mapTile _ _

theorem Cell.tileElem_doAclr (c : Cell) (htw : o.tw = 0) (hr : r < 128) (hk : k < 96) :
    (c.doAclr o).tileElem t r k = if t = o.tile then 0 else c.tileElem t r k := by
  have heq : c.doAclr o = c.mapTile o.tile fun _ => List.replicate 96 0 := by
    simp [Cell.doAclr, htw]
  rw [heq, Cell.tileElem_mapTile _ _ _ (fun _ => List.length_replicate) hr hk]
  refine if_congr Iff.rfl ?_ rfl
  rw [List.getD_replicate _ hk]

theorem Cell.tileElem_doAscale (c : Cell) (hf : o.ftans = []) (hr : r < 128) (hk : k < 96) :
    (c.doAscale o).tileElem t r k
      = if t = o.tile then f32Mul (c.tileElem o.tile r k) (o.ctl.setWidth 32) else c.tileElem t r k := by
  have heq : c.doAscale o = c.mapTile o.tile fun r => (c.tileRow o.tile r).map fun e => f32Mul e (o.ctl.setWidth 32) := by
    unfold Cell.doAscale
    rw [hf]
    rfl
  rw [heq, Cell.tileElem_mapTile _ _ _ (fun _ => by simp) hr hk]
  exact if_congr Iff.rfl (c.tileElem_map_tileRow _ _ hk) rfl

theorem Cell.tileElem_doAcpy (c : Cell) (htw : o.tw = 0) (hr : r < 128) (hk : k < 96) :
    (c.doAcpy o).tileElem t r k = if t = o.tile then c.tileElem o.tile2 r k else c.tileElem t r k := by
  by_cases hsame : o.tile = o.tile2
  · have heq : c.doAcpy o = c := if_pos hsame
    rw [heq, ← hsame]
    split
    · next ht => rw [ht]
    · rfl
  · have heq : c.doAcpy o = c.mapTile o.tile fun r => c.tileRow o.tile2 r := by
      simp [Cell.doAcpy, hsame, htw]
    rw [heq, Cell.tileElem_mapTile _ _ _ (fun _ => by simp) hr hk]
    refine if_congr Iff.rfl ?_ rfl
    rw [List.getD_eq_getElem _ _ (by simpa using hk), Cell.getElem_tileRow]
end

/-! ### Completion of the operation at the head (R255, R370) -/

section
variable {s : State} {n : Nat} {o : ArbOp} {rest : List ArbOp} {c d : Cell}

theorem Cell.enginesRun_of_runs (h : c.run = .running ∨ c.run = .halted) : c.enginesRun = true := by
  unfold Cell.enginesRun
  rcases h with h | h
  · rw [h]; rfl
  · rw [h]; rfl

/-- The engines of cell n run, and o stands at the head of its queue. -/
structure State.ArbHead (s : State) (n : Nat) (o : ArbOp) (rest : List ArbOp) : Prop where
  runs  : (s.cell n).enginesRun = true
  queue : (s.cell n).arb.queue = o :: rest

/-- A cell whose head operation has had its effect: the queue goes on with the rest and `e16` pulses. -/
def Cell.arbDone (d : Cell) (rest : List ArbOp) : Cell := ({ d with arb := { d.arb with queue := rest } } : Cell).pulse 16

/-- The operation at the head of cell n has completed, of which the cell holds P: the queue goes on with the rest, `e16` pulses,
and sequencer, memory and the other cells are as before. -/
def State.ArbDone (s u : State) (n : Nat) (rest : List ArbOp) (P : Cell → Prop) : Prop :=
  (u.cell n).arb.queue = rest ∧ (u.cell n).lineSet 16 = true ∧ P (u.cell n) ∧ (u.cell n).seq = (s.cell n).seq ∧ SameMemory s u
    ∧ ∀ m, m ≠ n → u.cell m = s.cell m

theorem State.ArbDone.of_cells {u : State} {P : Cell → Prop} (hcell : ∀ m, u.cell m = (s.setCell n (d.arbDone rest)).cell m)
    (hmem : SameMemory s u) (hseq : d.seq = (s.cell n).seq) (hP : P (d.arbDone rest)) : s.ArbDone u n rest P := by
  unfold State.ArbDone
  rw [(hcell n).trans (State.cell_setCell_self s n _)]
  exact ⟨rfl, Cell.lineSet_pulse _ (by omega), hP, hseq, hmem, fun m hm => (hcell m).trans (State.cell_setCell_of_ne s _ hm)⟩

/-- The effect of the operation at the head is the whole change of its cell, but for the queue and the event. -/
theorem arbourOpComplete_effect {P : Cell → Prop} (h : s.ArbHead n o rest) (hfin : (s.cell n).finishArb o = some d)
    (hseq : d.seq = (s.cell n).seq) (hP : P (d.arbDone rest)) :
    Completes (.arbourOpComplete n) s fun u => s.ArbDone u n rest P := by
  unfold Completes
  rw [exec_arbourOpComplete]
  unfold execArbourOpComplete
  dsimp only
  rw [h.queue]
  dsimp only
  rw [hfin, h.runs]
  dsimp only
  rw [if_neg (by decide)]
  split
  · exact ⟨_, rfl, .of_cells (fun _ => rfl) ⟨fun _ => rfl, fun _ => rfl⟩ hseq hP⟩
  · exact ⟨_, rfl, .of_cells (fun _ => rfl) ⟨fun _ => rfl, fun _ => rfl⟩ hseq hP⟩

/-- An operation that gives its tile the elements g and leaves the other tiles. -/
theorem arbourTileOp_effect {g : Nat → Nat → W32} (h : s.ArbHead n o rest) (hfin : (s.cell n).finishArb o = some d)
    (honly : OnlyTiles (s.cell n) d)
    (helem : ∀ t r k, r < 128 → k < 96 → d.tileElem t r k = if t = o.tile then g r k else (s.cell n).tileElem t r k) :
    Completes (.arbourOpComplete n) s fun u => s.ArbDone u n rest fun x =>
      (∀ r k, r < 128 → k < 96 → x.tileElem o.tile r k = g r k)
      ∧ ∀ t r k, t ≠ o.tile → r < 128 → k < 96 → x.tileElem t r k = (s.cell n).tileElem t r k :=
  arbourOpComplete_effect h hfin honly.seq
    ⟨fun r k hr hk => (helem o.tile r k hr hk).trans (if_pos rfl),
      fun t r k ht hr hk => (helem t r k hr hk).trans (if_neg ht)⟩

theorem Cell.finishArb_product (hk : o.kind = .mma) (hm : o.rows = ctlM o.ctl) : c.finishArb o = some c := by
  simp [Cell.finishArb, hk, ArbOp.rowsDone, hm]

theorem Cell.finishArb_atob (hk : o.kind = .atob) (hback : c.arb.back = none) : c.finishArb o = some (c.doAtob o) := by
  simp [Cell.finishArb, hk, hback]

theorem Cell.finishArb_bdrop (hk : o.kind = .bdrop) (hlen : o.ctl.toNat ≤ (c.fifo o.aFifo).slots.length)
    (hall : ∀ x ∈ (c.fifo o.aFifo).slots, x.present = true) : c.finishArb o = some (c.doBdrop o) := by
  unfold Cell.finishArb
  rw [hk]
  refine if_pos ⟨?_, List.all_eq_true.2 fun x hx => hall x (List.mem_of_mem_take hx)⟩
  rw [List.length_take, Nat.min_eq_left hlen]
end

/-! ### FIFOs and the back half (R250, R372, R435) -/

section
variable {s : State} {n q : Nat} {o : ArbOp} {rest : List ArbOp} {c : Cell} {taken left : List FifoSlot}

@[simp] theorem Cell.fifo_setFifo_self (c : Cell) (q : Nat) (f : Fifo) : (c.setFifo q f).fifo q = f := Map.get_set_self _ _ _ _

theorem bdrop_effect (h : s.ArbHead n o rest) (hk : o.kind = .bdrop) (ha : o.aFifo < 2)
    (hlen : o.ctl.toNat ≤ ((s.cell n).fifo o.aFifo).slots.length)
    (hall : ∀ x ∈ ((s.cell n).fifo o.aFifo).slots, x.present = true) :
    Completes (.arbourOpComplete n) s fun u => s.ArbDone u n rest fun d =>
      (d.fifo o.aFifo).slots = ((s.cell n).fifo o.aFifo).slots.drop o.ctl.toNat ∧ d.arb.front = (s.cell n).arb.front := by
  have hdo : (s.cell n).doBdrop o = (s.cell n).setFifo o.aFifo
      { (s.cell n).fifo o.aFifo with slots := ((s.cell n).fifo o.aFifo).slots.drop o.ctl.toNat } := if_neg (by omega)
  exact arbourOpComplete_effect h ((Cell.finishArb_bdrop hk hlen hall).trans (congrArg some hdo)) rfl
    ⟨congrArg Fifo.slots (Cell.fifo_setFifo_self _ _ _), rfl⟩

/-- Acquiring empties the L1 at most. -/
theorem Cell.acquireSlots_frame (c : Cell) (l : List FifoSlot) : c.acquireSlots l = { c with l1 := (c.acquireSlots l).l1 } := by
  unfold Cell.acquireSlots
  refine List.foldlRecOn (motive := fun d : Cell => d = { c with l1 := d.l1 }) _ _ rfl fun d h x _ => ?_
  rw [h]
  cases x.origin with
  | none => rfl
  | some e =>
    dsimp only
    unfold Cell.acquire
    split <;> rfl

theorem Cell.loadB_effect (c : Cell) (q : Nat) (taken left : List FifoSlot) :
    ((c.loadB q taken left).fifo q).slots = left
    ∧ (c.loadB q taken left).arb.back.map (·.slots) = some (taken.filter fun x => !x.marker)
    ∧ (c.loadB q taken left).tiles = c.tiles ∧ (c.loadB q taken left).seq = c.seq := by
  unfold Cell.loadB
  dsimp only
  rw [Cell.acquireSlots_frame]
  exact ⟨congrArg Fifo.slots (Cell.fifo_setFifo_self c q _), rfl, rfl, rfl⟩

theorem arbourBLoad_effect (hrun : (s.cell n).enginesRun = true) (hq : loadFifo (s.cell n).arb.queue = some q)
    (hback : (s.cell n).arb.back = none) (hfree : backFree (s.cell n).arb.queue = true)
    (htake : takeB 96 ((s.cell n).fifo q).slots = some (taken, left)) :
    Completes (.arbourBLoad n q) s fun u =>
      ((u.cell n).fifo q).slots = left ∧ (u.cell n).arb.back.map (·.slots) = some (taken.filter fun x => !x.marker)
      ∧ (u.cell n).tiles = (s.cell n).tiles ∧ (u.cell n).seq = (s.cell n).seq := by
  unfold Completes
  rw [exec_arbourBLoad]
  unfold execArbourBLoad
  dsimp only
  rw [hrun, hq, hback, hfree, htake, if_neg (by simp)]
  refine ⟨_, rfl, ?_⟩
  rw [State.cell_setCell_self]
  exact Cell.loadB_effect _ q taken left
end

/-! ### A row of a product (R207 to R209, R253, R255) -/

section
variable {s : State} {n i k : Nat} {o : ArbOp} {b : BHalf} {x : FifoSlot} {tail : List FifoSlot} {rest : List ArbOp} {c : Cell}

theorem accElem_tabulate (w : Word) (A B : Nat → GroupVals) (m : Nat) (e : W32) :
    accElem w (tabulate m A) (tabulate m B) e
      = accStore w ((List.range m).foldl (fun v j => f32Add v (groupSum (A j) (B j))) (accStart w e)) := by
  unfold accElem tabulate
  rw [List.zip_map', List.foldl_map]

theorem Cell.length_accRow (c : Cell) (w : Word) (a : List GroupVals) (cols : List (List GroupVals)) (t r : Nat)
    (h : cols.length = 96) : (accRow w a cols (c.tileRow t r)).length = 96 := by
  unfold accRow
  rw [List.length_map, List.length_zip, Cell.length_tileRow, h, Nat.min_self]

theorem Cell.getD_accRow {w : Word} {a g : List GroupVals} {cols : List (List GroupVals)} {t r : Nat} (hk : k < 96)
    (hg : cols[k]? = some g) : (accRow w a cols (c.tileRow t r)).getD k 0 = accElem w a g (c.tileElem t r k) := by
  obtain ⟨hcols, rfl⟩ := List.getElem?_eq_some_iff.1 hg
  have hlen : k < ((c.tileRow t r).zip cols).length := by
    rw [List.length_zip, Cell.length_tileRow]
    omega
  unfold accRow
  rw [List.getD_eq_getElem _ _ (by rwa [List.length_map]), List.getElem_map, List.getElem_zip, Cell.getElem_tileRow]

/-- Without tangents a product writes one row of its tile. -/
theorem Cell.accumulate_of_tw_zero (c : Cell) (htw : o.tw = 0) (r : Nat) (x : FifoSlot) (b : BHalf) :
    c.accumulate o r x [] b = c.setTileRow o.tile r (accRow o.ctl (tabulate 4 (x.group (ctlClass o.ctl) (ctlAovr o.ctl)))
      (b.columns (ctlClass o.ctl) (ctlBovr o.ctl)) (c.tileRow o.tile r)) := by
  unfold Cell.accumulate
  rw [htw]
  rfl

/-- An `MMA` without tangents that holds B half b, and at the head of its A FIFO a row x of its class with no tangent row behind. -/
structure Cell.MeetsRow (c : Cell) (o : ArbOp) (b : BHalf) (x : FifoSlot) (tail : List FifoSlot) : Prop where
  kind      : o.kind = .mma
  tw        : o.tw = 0
  taken     : o.bTaken = 1
  started   : o.started = true
  front     : c.arb.front = some b
  more      : o.rows < ctlM o.ctl
  room      : o.rows < 128
  columns   : ∀ y ∈ b.slots, y.present = true ∧ y.badCode (ctlClass o.ctl) (ctlBovr o.ctl) = none
  width     : b.slots.length = 96
  slots     : (c.fifo o.aFifo).slots = x :: tail
  present   : x.present = true
  unmarked  : x.marker = false
  primal    : x.tangent = false
  untangent : ∀ y ∈ tail, y.tangent = false
  code      : x.badCode (ctlClass o.ctl) (ctlAovr o.ctl) = none

/-- The row's slot leaves its FIFO, its operation counts it and the tile takes it. -/
theorem State.consumeRow_effect (h : (s.cell n).MeetsRow o b x tail) :
    ∃ (c : Cell) (o' : ArbOp), (s.consumeRow n i o b).cell n = (c.accumulate o o.rows x [] b).setOp i o'
      ∧ o'.rows = o.rows + 1 ∧ c.tiles = (s.cell n).tiles ∧ (c.fifo o.aFifo).slots = tail
      ∧ c.arb.queue.length = (s.cell n).arb.queue.length := by
  have hts : tail.takeWhile (fun y => y.tangent) = [] := by
    cases tail with
    | nil => rfl
    | cons y r => exact List.takeWhile_cons_of_neg (by simp [h.untangent y])
  have hcols : (b.slots.findSome? fun y => y.badCode (ctlClass o.ctl) (ctlBovr o.ctl)) = none :=
    List.findSome?_eq_none_iff.2 fun y hy => (h.columns y hy).2
  unfold State.consumeRow
  dsimp only
  rw [h.slots]
  dsimp only
  rw [if_neg (by simp [h.present]), if_neg (by simp [h.unmarked]), if_neg (by simp [h.primal]), if_neg h.room.ne, hts]
  dsimp only [Cell.eat]
  rw [if_neg (by simp), h.code, hcols]
  dsimp only
  rw [State.cell_setCell_self]
  refine ⟨_, _, rfl, rfl, ?_, ?_, ?_⟩
  all_goals unfold Cell.setOp; dsimp only; rw [Cell.acquireSlots_frame]
  · rfl
  · exact congrArg Fifo.slots (Cell.fifo_setFifo_self _ _ _)
  · exact List.length_set

theorem activeOp_of_started (hp : o.isProduct = true) (hs : o.started = true) (hd : o.rowsDone = false) :
    activeOp (o :: rest) = some (0, o) := by
  unfold activeOp
  rw [List.takeWhile_cons_of_neg (by simp [hd])]
  dsimp only [List.length_nil, List.getElem?_cons_zero]
  rw [if_pos (by simp [hp, hs])]

/-- An `MMA` takes one B at most. -/
theorem ArbOp.wantsB_of_taken (hk : o.kind = .mma) (ht : o.bTaken = 1) : o.wantsB = false := by
  have hneeds : o.bNeeds ≤ 1 := by
    unfold ArbOp.bNeeds
    rw [hk]
    split
    · omega
    · exact le_rfl
  unfold ArbOp.wantsB
  rw [ht, decide_eq_false (by omega), Bool.false_and]

/-- A product in flight that holds its B consumes. -/
theorem arbourRowConsume_consumes (ho : s.ArbHead n o rest) (h : (s.cell n).MeetsRow o b x tail) :
    exec (.arbourRowConsume n) s = .next ((s.setCell n (s.cell n)).consumeRow n 0 o b) := by
  have hactive : activeOp (o :: rest) = some (0, o) :=
    activeOp_of_started (by rw [ArbOp.isProduct, h.kind]; rfl) h.started (by simp [ArbOp.rowsDone, h.kind, h.more.ne])
  have hset : (s.cell n).setOp 0 o = s.cell n := by
    unfold Cell.setOp
    rw [ho.queue, List.set_cons_zero, ← ho.queue]
  rw [exec_arbourRowConsume]
  unfold execArbourRowConsume
  dsimp only
  rw [ho.queue, hactive]
  dsimp only
  rw [ho.runs, if_neg (by decide), ArbOp.wantsB_of_taken h.kind h.taken, if_neg Bool.false_ne_true, if_pos h.started, h.front]
  dsimp only
  rw [if_pos (List.all_eq_true.2 fun y hy => (h.columns y hy).1), hset]

/-- What a cell holds once row x is in the tile: the row's elements, the other elements, the FIFOs and the count of rows. -/
theorem Cell.accumulate_effect {d : Cell} {o' : ArbOp} (hd : d = (c.accumulate o o.rows x [] b).setOp 0 o') (htw : o.tw = 0)
    (hr : o.rows < 128) (hlen : b.slots.length = 96) (hq : c.arb.queue ≠ []) :
    (∀ k y, k < 96 → b.slots[k]? = some y → d.tileElem o.tile o.rows k
      = accElem o.ctl (tabulate 4 (x.group (ctlClass o.ctl) (ctlAovr o.ctl)))
          (tabulate 4 (y.group (ctlClass o.ctl) (ctlBovr o.ctl))) (c.tileElem o.tile o.rows k))
    ∧ (∀ t r k, k < 96 → r < 128 → (t ≠ o.tile ∨ r ≠ o.rows) → d.tileElem t r k = c.tileElem t r k)
    ∧ d.fifos = c.fifos ∧ d.arb.queue.head?.map (·.rows) = some o'.rows := by
  have hcols : (b.columns (ctlClass o.ctl) (ctlBovr o.ctl)).length = 96 := by
    unfold BHalf.columns
    rw [List.length_map, hlen]
  rw [Cell.accumulate_of_tw_zero _ htw] at hd
  subst hd
  have helem (t r k) (h : r < 128) (hk : k < 96) := Cell.tileElem_setTileRow c o.tile t
    (c.length_accRow o.ctl (tabulate 4 (x.group (ctlClass o.ctl) (ctlAovr o.ctl))) _ o.tile o.rows hcols) hr h hk
  refine ⟨fun k y hk hy => ?_, fun t r k hk h hne => ?_, rfl, ?_⟩
  · have hg : (b.columns (ctlClass o.ctl) (ctlBovr o.ctl))[k]?
        = some (tabulate 4 (y.group (ctlClass o.ctl) (ctlBovr o.ctl))) := by
      unfold BHalf.columns
      rw [List.getElem?_map, hy]
      rfl
    exact (helem o.tile o.rows k hr hk).trans ((if_pos ⟨rfl, rfl⟩).trans (Cell.getD_accRow hk hg))
  · exact (helem t r k h hk).trans (if_neg fun e => hne.elim (· e.1) (· e.2))
  · obtain ⟨p, l, hpl⟩ := List.exists_cons_of_ne_nil hq
    change ((c.arb.queue.set 0 o').head?.map (·.rows)) = _
    rw [hpl]
    rfl

theorem mmaRow_effect (ho : s.ArbHead n o rest) (h : (s.cell n).MeetsRow o b x tail) :
    Completes (.arbourRowConsume n) s fun u =>
      (∀ k y, k < 96 → b.slots[k]? = some y → (u.cell n).tileElem o.tile o.rows k
        = accElem o.ctl (tabulate 4 (x.group (ctlClass o.ctl) (ctlAovr o.ctl)))
            (tabulate 4 (y.group (ctlClass o.ctl) (ctlBovr o.ctl))) ((s.cell n).tileElem o.tile o.rows k))
      ∧ (∀ t r k, k < 96 → r < 128 → (t ≠ o.tile ∨ r ≠ o.rows) → (u.cell n).tileElem t r k = (s.cell n).tileElem t r k)
      ∧ ((u.cell n).fifo o.aFifo).slots = tail ∧ (u.cell n).arb.queue.head?.map (·.rows) = some (o.rows + 1) := by
  obtain ⟨c, o', hcell, hrows, htiles, hfifo, hqueue⟩ := State.consumeRow_effect (s := s.setCell n (s.cell n)) (i := 0)
    (by rwa [State.cell_setCell_self])
  rw [State.cell_setCell_self] at htiles hqueue
  have hne : c.arb.queue ≠ [] := by
    rw [← List.length_pos_iff, hqueue, ho.queue]
    exact Nat.succ_pos _
  have helem (t r k) : c.tileElem t r k = (s.cell n).tileElem t r k := congrArg (Map.get 0 · (tileKey t r k)) htiles
  obtain ⟨hrow, hothers, hfifos, hcount⟩ := Cell.accumulate_effect hcell h.tw h.room h.width hne
  simp only [helem] at hrow hothers
  refine ⟨_, arbourRowConsume_consumes ho h, hrow, hothers, ?_, hcount.trans (congrArg some hrows)⟩
  refine Eq.trans ?_ hfifo
  unfold Cell.fifo
  rw [hfifos]

/-! ### Errors (R257, R275) -/

/-- A residue error is a machine check of the context that runs on the cell, as a poisoned read of it is. -/
theorem exec_arbourResidueError_eq (ho : s.ArbHead n o rest) (hs : o.started = true) :
    exec (.arbourResidueError n) s = exec (.cxlPoisonRead (partOfCell n) (s.cell n).ident.ctx) s := by
  rw [exec_arbourResidueError]
  unfold execArbourResidueError
  dsimp only
  rw [ho.queue, ho.runs, List.any_cons, hs, Bool.true_or, Bool.and_true, if_pos rfl]
  rfl
end

/-- Settles O26, clause by clause: the completion of the operation at the head with what it does to the tiles, the FIFO or the back
half, the loading of the back half, a row of a product, and the machine check of a residue error. -/
theorem arbourOperationsPerform : Obligations.ArbourOperationsPerform := by
  unfold Obligations.ArbourOperationsPerform
  intro s n o rest
  dsimp only
  intro hrun hq htw hf
  have ho : s.ArbHead n o rest := ⟨Cell.enginesRun_of_runs hrun, hq⟩
  refine ⟨fun hk => ?_, fun hk => ?_, fun hk => ?_, fun hk hm => ?_, fun hk hback => ?_, ?_, ?_, ?_, fun hs hctx hreset => ?_⟩
  · exact arbourTileOp_effect ho (by rw [Cell.finishArb, hk]) ((s.cell n).doAclr_onlyTiles o)
      fun t r k => (s.cell n).tileElem_doAclr htw
  · exact arbourTileOp_effect ho (by rw [Cell.finishArb, hk]) ((s.cell n).doAscale_onlyTiles o)
      fun t r k => (s.cell n).tileElem_doAscale hf
  · exact arbourTileOp_effect ho (by rw [Cell.finishArb, hk]) ((s.cell n).doAcpy_onlyTiles o)
      fun t r k => (s.cell n).tileElem_doAcpy htw
  · exact arbourOpComplete_effect (P := fun d => d.tiles = (s.cell n).tiles) ho (Cell.finishArb_product hk hm) rfl rfl
  · exact arbourOpComplete_effect (P := fun d => d.tiles = (s.cell n).tiles ∧ d.arb.back = some ((s.cell n).atobHalf o)) ho
      (Cell.finishArb_atob hk hback) rfl ⟨rfl, rfl⟩
  · exact bdrop_effect ho
  · exact fun q taken left => arbourBLoad_effect ho.runs
  · intro b x tail hk ht hs hfront hm hr hb hlen hslots hpresent hmarker hprimal htail ha
    obtain ⟨u, hexec, hrow, hframe⟩ :=
      mmaRow_effect ho ⟨hk, htw, ht, hs, hfront, hm, hr, hb, hlen, hslots, hpresent, hmarker, hprimal, htail, ha⟩
    exact ⟨u, hexec, fun k y hk hy => (hrow k y hk hy).trans (accElem_tabulate _ _ _ 4 _), hframe⟩
  · obtain ⟨u, hexec, hgone, hout⟩ := cxlPoisonRead_effect (s := s) (p := partOfCell n) (ctx := (s.cell n).ident.ctx)
    exact ⟨u, (exec_arbourResidueError_eq ho hs).trans hexec, hgone (by simp [hreset]), hout hctx hreset⟩

end Sys2Proof.Machine
end

