-- ==== Sys2Proof/Proofs/ControlRegisters.lean ====
section
/-! The control registers: what `CTLRD` gives, what a write, a set and a clear leave, and which accesses trap (R236, R237,
R351). -/

namespace Sys2Proof.Machine

section
variable {s : State} {d a : Reg} {n : BitVec 9} {f : Word → Word}

/-! ### Reads (R236) -/

theorem ctlrd_reads {v : Word} (hassigned : ctlAssigned n = true) (hv : s.ctlRead s.cur n.toNat = v) :
    Completes (.ctlrd d n) s fun t => Writes s t d v s.nextPc := by
  unfold Completes
  rw [exec_ctlrd, execCtlrd, if_neg (by simp [hassigned]), hv]
  exact writeResult_completes s d v

/-! ### `kphase` (R237) -/

/-- The code of a phase state in `kphase`. -/
def PhaseState.code : PhaseState → Nat
  | .idle => 0
  | .running => 1
  | .done => 2

theorem PhaseState.code_lt (st : PhaseState) : st.code < 3 := by
  cases st <;> decide

/-- `kphase` holds its four fields one above the other. -/
theorem Phase.toNat_word (p : Phase) : p.word.toNat =
    p.errs % 8192 * 2 ^ 29 + p.unparked.length % 8192 * 2 ^ 16 + p.n % 8192 * 8 + p.st.code := by
  have hword : p.word = BitVec.ofNat 64
      (p.errs % 8192 * 2 ^ 29 + p.unparked.length % 8192 * 2 ^ 16 + p.n % 8192 * 8 + p.st.code) := by
    unfold Phase.word
    cases p.st <;> rfl
  have hcode := p.st.code_lt
  rw [hword, BitVec.toNat_ofNat]
  omega

/-- A field of a word, told by its number. -/
theorem extractLsb'_eq_ofNat {v : Word} {start len m : Nat} (h : v.toNat / 2 ^ start % 2 ^ len = m % 2 ^ len) :
    v.extractLsb' start len = BitVec.ofNat len m := by
  apply BitVec.eq_of_toNat_eq
  rw [BitVec.extractLsb'_toNat, Nat.shiftRight_eq_div_pow, h, BitVec.toNat_ofNat]

/-- R237, field by field; the bits between the fields are zero. -/
theorem Phase.word_fields (p : Phase) :
    p.word.extractLsb' 0 2 = BitVec.ofNat 2 p.st.code ∧ p.word.getLsbD 2 = false
      ∧ p.word.extractLsb' 3 13 = BitVec.ofNat 13 p.n ∧ p.word.extractLsb' 16 13 = BitVec.ofNat 13 p.unparked.length
      ∧ p.word.extractLsb' 29 13 = BitVec.ofNat 13 p.errs ∧ p.word.extractLsb' 42 22 = BitVec.ofNat 22 0 := by
  have hcode := p.st.code_lt
  have hword := p.toNat_word
  have hreserved : p.word.toNat / 2 ^ 2 % 2 = 0 := by omega
  refine ⟨extractLsb'_eq_ofNat (by omega), ?_, extractLsb'_eq_ofNat (by omega), extractLsb'_eq_ofNat (by omega),
    extractLsb'_eq_ofNat (by omega), extractLsb'_eq_ofNat (by omega)⟩
  rw [BitVec.getLsbD, Nat.testBit_eq_decide_div_mod_eq, hreserved]
  rfl

/-! ### Writes, sets and clears (R351) -/

theorem ctlChange_writable (hassigned : ctlAssigned n = true) (hwritable : ctlWritable n.toNat = true) :
    ctlChange s n f = .next (s.onCur fun c => (c.ctlWrite n.toNat (f (s.ctlRead c n.toNat))).retire false) := by
  rw [ctlChange, if_neg (by simp [hassigned]), if_neg (by simp [hwritable])]

/-- Control register n is a field of the sequencer, which `get` reads and `set` writes. -/
structure CtlField (n : BitVec 9) (get : Seq → Word) (set : Seq → Word → Seq) : Prop where
  assigned : ctlAssigned n = true
  writable : ctlWritable n.toNat = true
  read     : ∀ (s : State) (c : Cell), s.ctlRead c n.toNat = get c.seq
  write    : ∀ (c : Cell) (v : Word), c.ctlWrite n.toNat v = c.withSeq fun q => set q v
  pc       : ∀ (q : Seq) (v : Word), (set q v).pc = q.pc

section
variable {get : Seq → Word} {set : Seq → Word → Seq}

/-- A change of a field of the sequencer retires with the field changed and nothing else. -/
theorem CtlField.change (h : CtlField n get set) :
    ctlChange s n f = .next (s.seqStep fun q => set q (f (get q))) := by
  have hcell (c : Cell) : (c.withSeq fun q => set q (f (get c.seq))).retire false
      = c.withSeq fun q => { set q (f (get q)) with pc := q.pc + 4 } := by
    simp only [Cell.retire, Cell.advance, Cell.withSeq, h.pc]
    rfl
  rw [ctlChange_writable h.assigned h.writable, State.seqStep]
  simp only [State.onCur_eq, h.read, h.write, hcell]

theorem CtlField.writes (h : CtlField n get set) (s : State) (a : Reg) :
    exec (.ctlwr a n) s = .next (s.seqStep fun q => set q (s.cur.reg a))
      ∧ exec (.ctlset a n) s = .next (s.seqStep fun q => set q (get q ||| s.cur.reg a))
      ∧ exec (.ctlclr a n) s = .next (s.seqStep fun q => set q (get q &&& ~~~s.cur.reg a)) := by
  rw [exec_ctlwr, exec_ctlset, exec_ctlclr]
  exact ⟨h.change, h.change, h.change⟩

end

/-! The registers that can be written, by their numbers. -/

theorem ctlField_kvec : CtlField (BitVec.ofNat 9 0x010) (·.kvec) (fun q v => { q with kvec := v &&& ~~~3 }) :=
  ⟨rfl, rfl, fun _ _ => rfl, fun _ _ => rfl, fun _ _ => rfl⟩
theorem ctlField_kfpc : CtlField (BitVec.ofNat 9 0x011) (·.kfpc) (fun q v => { q with kfpc := v }) :=
  ⟨rfl, rfl, fun _ _ => rfl, fun _ _ => rfl, fun _ _ => rfl⟩
theorem ctlField_kfcause : CtlField (BitVec.ofNat 9 0x012) (·.kfcause) (fun q v => { q with kfcause := v }) :=
  ⟨rfl, rfl, fun _ _ => rfl, fun _ _ => rfl, fun _ _ => rfl⟩
theorem ctlField_kfaddr : CtlField (BitVec.ofNat 9 0x013) (·.kfaddr) (fun q v => { q with kfaddr := v }) :=
  ⟨rfl, rfl, fun _ _ => rfl, fun _ _ => rfl, fun _ _ => rfl⟩
theorem ctlField_kfinfo : CtlField (BitVec.ofNat 9 0x014) (·.kfinfo) (fun q v => { q with kfinfo := v &&& 0x80FFFF00FFFFFFFF }) :=
  ⟨rfl, rfl, fun _ _ => rfl, fun _ _ => rfl, fun _ _ => rfl⟩
theorem ctlField_kdesc : CtlField (BitVec.ofNat 9 0x020) (·.kdesc) (fun q v => { q with kdesc := v }) :=
  ⟨rfl, rfl, fun _ _ => rfl, fun _ _ => rfl, fun _ _ => rfl⟩
theorem ctlField_kdbase : CtlField (BitVec.ofNat 9 0x021) (·.kdbase) (fun q v => { q with kdbase := v }) :=
  ⟨rfl, rfl, fun _ _ => rfl, fun _ _ => rfl, fun _ _ => rfl⟩
theorem ctlField_ktstride : CtlField (BitVec.ofNat 9 0x022) (·.ktstride) (fun q v => { q with ktstride := v }) :=
  ⟨rfl, rfl, fun _ _ => rfl, fun _ _ => rfl, fun _ _ => rfl⟩

/-! ### Traps (R236) -/

theorem ctlAssigned_eq_false (h : n.toNat ∉ assignedCtl) : ctlAssigned n = false := by
  rw [ctlAssigned, List.contains_eq_mem, decide_eq_false h]

theorem ctlChange_traps_ill (hready : s.handlerReady) (hn : ctlAssigned n = false) :
    ∃ t, ctlChange s n f = .next t ∧ Traps s t .ill 0 s.word := by
  rw [ctlChange, if_pos (by simp [hn])]
  exact trapNow_traps s false .ill 0 hready

theorem ctlChange_traps_perm (hready : s.handlerReady) (hn : ctlAssigned n = true) (hread : ctlWritable n.toNat = false) :
    ∃ t, ctlChange s n f = .next t ∧ Traps s t .perm 0 s.word := by
  rw [ctlChange, if_neg (by simp [hn]), if_pos (by simp [hread])]
  exact trapNow_traps s false .perm 0 hready

/-- A trap that every change of a register takes is the trap of its write, its set and its clear. -/
theorem ctlChanges_trap {cause : Cause} (h : ∀ f, ∃ t, ctlChange s n f = .next t ∧ Traps s t cause 0 s.word) (a : Reg) :
    Completes (.ctlwr a n) s (Traps s · cause 0 s.word) ∧ Completes (.ctlset a n) s (Traps s · cause 0 s.word)
      ∧ Completes (.ctlclr a n) s (Traps s · cause 0 s.word) := by
  unfold Completes
  rw [exec_ctlwr, exec_ctlset, exec_ctlclr]
  exact ⟨h _, h _, h _⟩

theorem ctlrd_traps_ill (hready : s.handlerReady) (hn : ctlAssigned n = false) :
    Completes (.ctlrd d n) s fun t => Traps s t .ill 0 s.word := by
  unfold Completes
  rw [exec_ctlrd, execCtlrd, if_pos (by simp [hn])]
  exact trapNow_traps s false .ill 0 hready

end

/-- Settles O17: a read gives the register's value by the table of `State.ctlRead`, `kphase` field by field; each register that
can be written is a field of the sequencer (`CtlField`), whose write, set and clear change it alone. -/
theorem controlRegistersReadAndWrite : Obligations.ControlRegistersReadAndWrite := by
  unfold Obligations.ControlRegistersReadAndWrite
  refine ⟨fun s d => ?_, fun s a => ?_⟩
  · have hepoch (v : World) (hw : s.world? s.cur.ident.world = some v) :
        s.ctlRead s.cur 0x031 = BitVec.ofNat 64 v.epoch := by
      simp [State.ctlRead, hw]
    obtain ⟨hstatus, hfields⟩ := s.cur.phase.word_fields
    refine ⟨ctlrd_reads rfl rfl, ctlrd_reads rfl rfl, ctlrd_reads rfl rfl, ctlrd_reads rfl rfl, ctlrd_reads rfl rfl,
      ctlrd_reads rfl rfl, ctlrd_reads rfl rfl, ctlrd_reads rfl rfl, ctlrd_reads rfl rfl, ctlrd_reads rfl rfl,
      ctlrd_reads rfl rfl, ctlrd_reads rfl rfl, ctlrd_reads rfl rfl, ctlrd_reads rfl rfl, ctlrd_reads rfl rfl,
      ctlrd_reads rfl rfl, ctlrd_reads rfl rfl, ctlrd_reads rfl rfl, fun v hw => ctlrd_reads rfl (hepoch v hw),
      s.cur.phase.word, ctlrd_reads rfl rfl, hstatus.trans (by cases s.cur.phase.st <;> rfl), hfields⟩
  · exact ⟨ctlField_kvec.writes s a, ctlField_kfpc.writes s a, ctlField_kfcause.writes s a, ctlField_kfaddr.writes s a,
      ctlField_kfinfo.writes s a, ctlField_kdesc.writes s a, ctlField_kdbase.writes s a, ctlField_ktstride.writes s a⟩

/-- Settles O18: the two lists are the assigned numbers, and those of the first are the ones that cannot be written. -/
theorem controlRegisterTraps : Obligations.ControlRegisterTraps := by
  unfold Obligations.ControlRegisterTraps
  intro s d a n hready readOnly readWrite traps
  have hlists : ∀ k ∈ assignedCtl, k ∈ readOnly ++ readWrite := by decide
  have hreadOnly : ∀ k ∈ readOnly, assignedCtl.contains k = true ∧ ctlWritable k = false := by decide
  refine ⟨fun hn => ?_, fun hn => ?_⟩
  · have hill := ctlAssigned_eq_false fun h => hn (hlists _ h)
    exact ⟨ctlrd_traps_ill hready hill, ctlChanges_trap (fun _ => ctlChange_traps_ill hready hill) a⟩
  · obtain ⟨hassigned, hread⟩ := hreadOnly _ hn
    exact ctlChanges_trap (fun _ => ctlChange_traps_perm hready hassigned hread) a

end Sys2Proof.Machine
end

