-- ==== Sys2Proof/Proofs/Turns.lean ====
section
/-! What a turn of the schedule runs: the sequencer's boundary and fetch, a site's record, an event, and nothing scheduled
(R219, R266, R303, R324). -/

namespace Sys2Proof.Machine

section
variable {s : State} {c : Cell} {m : Move} {rest : List Move} {n site out : Nat} {i : Instr}

/-! ### The fetch (R303, R324) -/

theorem instrOf_of_ok {w : W32} (h : decode w = .ok i) : instrOf w = i := by
  rw [instrOf, h]

theorem instrOf_of_error {w : W32} {e : DecodeError} (h : decode w = .error e) : instrOf w = .illegalInstructionWord w := by
  rw [instrOf, h]

theorem Cell.fetch_inside (h : c.inCode c.seq.pc = true) : c.fetch = some (instrOf (c.codeWord c.seq.pc)) := if_pos h

theorem Cell.fetch_outside (h : c.inCode c.seq.pc = false) : c.fetch = none := if_neg (by simp [h])

/-! ### One turn of a running sequencer (R266, R324) -/

theorem State.runSeq_due (hrun : s.cur.run = .running) (hdue : s.cur.reportDue = true) :
    s.runSeq = exec (.asyncReportDelivery s.focus.cell) s :=
  (if_neg fun h => h hrun).trans (if_pos hdue)

theorem State.runSeq_inside (hrun : s.cur.run = .running) (hdue : s.cur.reportDue = false)
    (hpc : s.cur.inCode s.cur.seq.pc = true) : s.runSeq = exec (instrOf s.word) s := by
  refine (if_neg fun h => h hrun).trans ((if_neg (Bool.eq_false_iff.1 hdue)).trans ?_)
  rw [show (s.cell s.focus.cell).fetch = some (instrOf s.word) from Cell.fetch_inside hpc]

theorem State.runSeq_outside (hrun : s.cur.run = .running) (hdue : s.cur.reportDue = false)
    (hpc : s.cur.inCode s.cur.seq.pc = false) : s.runSeq = .next (s.takeTrap s.focus.cell .perm s.cur.seq.pc 0) := by
  refine (if_neg fun h => h hrun).trans ((if_neg (Bool.eq_false_iff.1 hdue)).trans ?_)
  rw [show (s.cell s.focus.cell).fetch = none from Cell.fetch_outside hpc]
  rfl

/-! ### One turn of a site (R219) -/

theorem Cell.siteInstr_of_record {p : Pass} {x : SiteRec} (hp : c.fabric.passAt site = some p) (hx : p.rec? site = some x)
    (hi : decodeElem (encRec x.op x.r) = .ok i) : c.siteInstr site = some i := by
  simp [Cell.siteInstr, hp, hx, hi]

theorem State.runSite_of_siteInstr (h : s.cur.siteInstr s.focus.site = some i) : s.runSite = exec i s := by
  rw [State.runSite, h]

/-! ### The schedule (log 1) -/

/-- The state in which the turn of a cell, site and output runs: the rest of the schedule waits. -/
def State.turn (s : State) (rest : List Move) (n site out : Nat) : State :=
  { s with agenda := rest, focus := { cell := n, site := site, out := out } }

theorem step_scheduled (h : s.agenda = m :: rest) : step s = ({ s with agenda := rest } : State).runMove m := by
  rw [step, h]

theorem step_seq (h : s.agenda = .seq n :: rest) : step s = (s.turn rest n 0 0).runSeq := step_scheduled h

theorem step_fire (h : s.agenda = .fire n site :: rest) : step s = (s.turn rest n site 0).runSite := step_scheduled h

theorem step_route (h : s.agenda = .route n site out :: rest) : step s = exec .elemRoute (s.turn rest n site out) :=
  step_scheduled h

theorem step_event (h : s.agenda = .event i :: rest) (hi : fetchedKind i = false) :
    step s = exec i { s with agenda := rest } :=
  (step_scheduled h).trans (if_neg (Bool.eq_false_iff.1 hi))

theorem step_unscheduled (h : s.agenda = []) (hrun : s.cur.run = .running) : step s = s.runSeq := by
  rw [step, h]
  exact if_pos hrun

end

/-- Settles O57: a turn is its move on the state with the cell in focus (`step_seq` and its companions), and there the report, the
word at the pc or the record of the site decides. -/
theorem stepRunsTheScheduledInstruction : Obligations.StepRunsTheScheduledInstruction := by
  unfold Obligations.StepRunsTheScheduledInstruction
  intro s n site d rest i
  refine ⟨fun hseq (hrun : (s.turn rest n 0 0).cur.run = .running) => ?_, fun hnone hrun hdue hpc hi => ?_,
    fun p x hfire hp hx hi => ?_, step_route, step_event⟩
  · rw [step_seq hseq]
    refine ⟨fun hdue hpc => ⟨fun hi => ?_, fun e he => ?_⟩, State.runSeq_outside hrun, State.runSeq_due hrun⟩
    · rw [State.runSeq_inside hrun hdue hpc]
      exact congrArg (exec · _) (instrOf_of_ok hi)
    · rw [State.runSeq_inside hrun hdue hpc]
      exact congrArg (exec · _) (instrOf_of_error he)
  · rw [step_unscheduled hnone hrun, State.runSeq_inside hrun hdue hpc, instrOf_of_ok hi]
  · rw [step_fire hfire]
    exact State.runSite_of_siteInstr (Cell.siteInstr_of_record hp hx hi)

end Sys2Proof.Machine
end

