-- ==== Sys2Proof/Proofs/Arming.lean ====
section
/-! Deferred forms: what arming a command on a gate term leaves of the cell, and the instructions that do it (R261, R315,
R360). -/

namespace Sys2Proof.Machine

section
variable {s : State} {w x y z : Reg}

/-! ### The term of a deferred form (R315) -/

theorem Cell.gateOf_eq (c : Cell) (w : Reg) : c.gateOf w = (c.reg w).toNat % 16 := by
  simp [Cell.gateOf]

/-- The state in which the command a stands armed on the term that s[w] names, and the instruction has retired. -/
def State.armStep (s : State) (w : Reg) (a : Armed) : State :=
  s.cellStep fun c => c.arm ((s.cur.reg w).toNat % 16) a s.word

theorem State.armStep_eq (s : State) (w : Reg) (a : Armed) :
    s.setCur ((s.cur.arm (s.cur.gateOf w) a (s.cur.instrWord false)).retire false) = s.armStep w a := by
  rw [Cell.gateOf_eq]
  rfl

/-- The cell in focus runs with no store buffered, and the term that s[w] names holds nothing. -/
structure State.MayArm (s : State) (w : Reg) : Prop where
  quiet : s.quiet
  free  : (s.cur.gate ((s.cur.reg w).toNat % 16)).armed = none

theorem Cell.mayArm_of_free {c : Cell} (h : (c.gate ((c.reg w).toNat % 16)).armed = none) : c.mayArm (some w) = true := by
  unfold Cell.mayArm
  dsimp only
  rw [Cell.gateOf_eq, h]
  rfl

theorem State.MayArm.mayArm (h : s.MayArm w) : s.cur.mayArm (some w) = true := Cell.mayArm_of_free h.free

/-! ### Barriers, events and phases (R374 to R377) -/

theorem barrive_arms {b : BitVec 5} (h : s.MayArm w) :
    exec (.barrive b (some w)) s = .next (s.armStep w (.barrive b.toNat)) := by
  rw [exec_barrive]
  unfold execBarrive
  dsimp only
  rw [State.release_of_quiet h.quiet, h.mayArm, if_neg (by decide), State.settle_of_quiet h.quiet]
  exact congrArg _ (s.armStep_eq w _)

theorem bexpect_arms {b : BitVec 5} (h : s.MayArm w) :
    exec (.bexpect b y (some w)) s = .next (s.armStep w (.bexpect b.toNat (s.cur.reg y))) := by
  rw [exec_bexpect]
  unfold execBexpect
  dsimp only
  rw [h.mayArm, if_neg (by decide)]
  exact congrArg _ (s.armStep_eq w _)

theorem evfire_arms {e : BitVec 3} (h : s.MayArm w) :
    exec (.evfire e (some w)) s = .next (s.armStep w (.evfire (24 + e.toNat))) := by
  rw [exec_evfire]
  unfold execEvfire
  dsimp only
  rw [h.mayArm, if_neg (by decide)]
  exact congrArg _ (s.armStep_eq w _)

theorem brun_arms (h : s.MayArm w) (hok : brunOk (s.cur.reg x) (s.cur.reg z) s.cur.ident.tw = true) :
    exec (.brun x y z (some w)) s = .next (s.armStep w (.brun (s.cur.reg x) (s.cur.reg y) (s.cur.reg z))) := by
  rw [exec_brun]
  unfold execBrun
  dsimp only
  rw [State.release_of_quiet h.quiet, hok, h.mayArm, if_neg (by decide), State.settle_of_quiet h.quiet]
  exact congrArg _ (s.armStep_eq w _)

/-! ### Map commands (R379) -/

theorem kvmOp_arms {op : Nat} {l : Loc} (h : s.MayArm w) (hl : s.access s.focus.cell .kvRecord 64 (s.cur.reg x) none = .ok l)
    (hcls : l.cls = .norm) : kvmOp s op x (some w) = .next (s.armStep w (.kvm op (s.cur.reg x))) := by
  unfold kvmOp
  dsimp only
  rw [State.release_of_quiet h.quiet, if_neg h.quiet.runs, h.mayArm, if_neg (by decide), hl]
  refine (if_neg fun hne => hne hcls).trans ?_
  exact congrArg _ (s.armStep_eq w _)

/-! ### Sessions (R383, R384) -/

theorem sopen_arms (h : s.MayArm w) (hok : sopenOperands (s.cur.reg y) (s.cur.reg z) = true) :
    exec (.sopen x y z (some w)) s = .next (s.armStep w (.sopen (s.cur.reg x) (s.cur.reg y) (s.cur.reg z))) := by
  rw [exec_sopen]
  unfold execSopen
  dsimp only
  rw [hok, h.mayArm, if_neg (by decide), State.release_of_quiet h.quiet, if_neg h.quiet.runs]
  exact congrArg _ (s.armStep_eq w _)

theorem sseal_arms {sa : Nat} (h : s.MayArm w) (hok : ssealOperands (s.cur.reg x) (s.cur.reg y) (s.cur.reg z) = true)
    (hchk : ssealCheck (s.cur.reg x) (s.cur.reg y) (s.cur.reg z) = .ok sa) :
    exec (.sseal x y z (some w)) s = .next (s.armStep w (.sseal (s.cur.reg x) (s.cur.reg y) (s.cur.reg z))) := by
  rw [exec_sseal]
  unfold execSseal
  dsimp only
  rw [hok, h.mayArm, if_neg (by decide), State.release_of_quiet h.quiet, if_neg h.quiet.runs, hchk]
  exact congrArg _ (s.armStep_eq w _)

/-! ### Collectives and bank commands (R387, R390) -/

theorem collOp_arms {op : Nat} {k : CollCmd} (h : s.MayArm w) (hk : s.collCheck s.focus.cell op (s.cur.reg x) = .ok k) :
    collOp s op x (some w) = .next (s.armStep w (.coll op k.record)) := by
  unfold collOp
  dsimp only
  rw [h.mayArm, if_neg (by decide), State.release_of_quiet h.quiet, if_neg h.quiet.runs, hk]
  exact congrArg _ (s.armStep_eq w _)

theorem bankOp_arms {red : Bool} {k : BankCmd} (h : s.MayArm w)
    (hk : (if red then s.bkredCheck s.focus.cell (s.cur.reg x) (s.cur.reg y) (s.cur.reg z)
      else s.bkopCheck s.focus.cell (s.cur.reg x) (s.cur.reg y) (s.cur.reg z)) = .ok k) :
    bankOp s red x y z (some w) = .next (s.armStep w
      (if red then .bkred (s.cur.reg x) (s.cur.reg y) (s.cur.reg z) else .bkop (s.cur.reg x) (s.cur.reg y) (s.cur.reg z))) := by
  unfold bankOp
  dsimp only
  rw [h.mayArm, if_neg (by decide), State.release_of_quiet h.quiet, if_neg h.quiet.runs, hk]
  exact congrArg _ (s.armStep_eq w _)

end

/-- Settles O28: each deferred form passes its own checks at arming and ends in `State.armStep`. -/
theorem deferredFormsAreArmed : Obligations.DeferredFormsAreArmed := by
  unfold Obligations.DeferredFormsAreArmed
  intro s w x y z b e c g arms kvm coll hquiet hfree
  have h : s.MayArm w := ⟨hquiet, hfree⟩
  have hkvm (i : Instr) (op : Nat) (hi : exec i s = kvmOp s op x (some w)) : kvm i op :=
    fun _ hl hcls => hi.trans (kvmOp_arms h hl hcls)
  have hcoll (i : Instr) (op : Nat) (hi : exec i s = collOp s op x (some w)) : coll i op :=
    fun _ hk => hi.trans (collOp_arms h hk)
  exact ⟨barrive_arms h, bexpect_arms h, evfire_arms h, brun_arms h, hkvm _ 0 rfl, hkvm _ 1 rfl, hkvm _ 2 rfl, hkvm _ 3 rfl,
    hkvm _ 4 rfl, hkvm _ 5 rfl, hkvm _ 6 rfl, hkvm _ 7 rfl, hkvm _ 8 rfl, sopen_arms h, fun _ => sseal_arms h,
    hcoll _ 0 rfl, hcoll _ 1 rfl, hcoll _ 2 rfl, fun _ => bankOp_arms (red := false) h, fun _ => bankOp_arms (red := true) h⟩

end Sys2Proof.Machine
end

