-- ==== Sys2Proof/Proofs/ArbourIssue.lean ====
section
/-! The issue of Arbour operations: an operation whose operands pass joins the queue, waits for a place in it, or is armed (R255,
R360, R368 to R373). -/

namespace Sys2Proof.Machine

section
variable {s : State} {w : Reg}

/-- What an Arbour instruction, with or without a gate operand, does with the operation o: it joins a queue of fewer than eight,
a full queue holds the sequencer, and a deferred form is armed on the free term that s[w] names. -/
def State.ArbIssues (s : State) (w : Reg) (f : Option Reg → Host.Outcome State Fault Refusal) (o : ArbOp) : Prop :=
  (s.cur.arb.queue.length < 8 → f none = .next (s.cellStep fun c => c.queueArb o))
  ∧ (s.cur.arb.queue.length = 8 → f none = .next s)
  ∧ ((s.cur.gate ((s.cur.reg w).toNat % 16)).armed = none → f (some w) = .next (s.armStep w (.arb o)))

theorem arbIssue_issues {ok late : Bool} {o : ArbOp} (hok : ok = true) (hlate : late = false) (hword : o.word = s.word) :
    s.ArbIssues w (fun gate => arbIssue s false gate ok late o) o := by
  subst hok hlate
  unfold arbIssue
  refine ⟨fun hlt => ?_, fun hfull => ?_, fun hfree => ?_⟩
  · exact (if_neg (c := (!true || !s.cur.mayArm none) = true) nofun).trans (if_neg (by omega))
  · exact (if_neg (c := (!true || !s.cur.mayArm none) = true) nofun).trans (if_pos hfull.ge)
  · dsimp only
    rw [Cell.mayArm_of_free hfree, if_neg (by decide), if_neg nofun, hword]
    exact congrArg _ (s.armStep_eq w _)

theorem mwait_retires (h : s.cur.arb.queue = []) : exec .mwait s = .next (s.withPc s.nextPc) := by
  rw [exec_mwait]
  exact if_pos h

theorem mwait_waits (h : s.cur.arb.queue ≠ []) : exec .mwait s = .next s := by
  rw [exec_mwait]
  exact if_neg h

end

/-- Settles O25: each instruction issues a new operation once its operands pass, and `arbIssue_issues` says what comes of it. -/
theorem arbourOperationsQueue : Obligations.ArbourOperationsQueue := by
  unfold Obligations.ArbourOperationsQueue
  intro s t u q y w asel bsel c a b g op queues
  have hqueues (i : Option Reg → Instr) (o : ArbOp) (ok late : Bool)
      (hi : ∀ gate, exec (i gate) s = arbIssue s false gate ok late o) (hok : ok = true) (hlate : late = false) (hword : o.word = s.word) : queues i o := by
    have h : s.ArbIssues w (fun gate => exec (i gate) s) o := funext hi ▸ arbIssue_issues hok hlate hword
    exact h
  have htile (v : BitVec 3) : decide (v.toNat + 0 ≤ 7) = true := decide_eq_true (by omega)
  exact ⟨fun hok => hqueues _ _ _ _ (fun _ => rfl) hok rfl rfl,
    fun hok hrows => hqueues _ _ _ _ (fun _ => rfl) hok (decide_eq_false (Nat.not_lt.2 hrows)) rfl,
    hqueues _ _ _ _ (fun _ => rfl) (htile t) rfl rfl, hqueues _ _ _ _ (fun _ => rfl) (htile t) rfl rfl,
    hqueues _ _ _ _ (fun _ => rfl) (Bool.and_eq_true_iff.2 ⟨htile t, htile u⟩) rfl rfl,
    fun hok => hqueues _ _ _ _ (fun _ => rfl) hok rfl rfl,
    fun hle => hqueues _ _ _ _ (fun _ => rfl) (decide_eq_true hle) rfl rfl, mwait_retires, mwait_waits⟩

end Sys2Proof.Machine
end

