-- ==== Sys2Proof/Proofs/Barriers.lean ====
section
/-! Barriers and events of a cell: what lowering a barrier, a pulse, a clearing and a reading of events leave and give, and the
instructions that do it (R186, R247, R258 to R260, R374 to R376). -/

namespace Sys2Proof.Machine

/-! ### Bits of a set of numbers -/

theorem getLsbD_foldl_bits {n : Nat} {p : Nat → Prop} [DecidablePred p] (l : List Nat) (v : BitVec n) {k : Nat} (hk : k < n) :
    (l.foldl (fun v i => if p i then v ||| BitVec.ofNat n (2 ^ i) else v) v).getLsbD k
      = (v.getLsbD k || (decide (p k) && l.contains k)) := by
  induction l generalizing v with
  | nil => simp
  | cons i l ih =>
    rw [List.foldl_cons, ih, List.contains_cons]
    split
    · next hp =>
      rw [BitVec.getLsbD_or, BitVec.getLsbD_ofNat, Nat.testBit_two_pow]
      by_cases hik : k = i
      · subst hik
        simp [hk, hp]
      · simp [hk, Ne.symm hik, beq_eq_false_iff_ne.2 hik]
    · next hp =>
      by_cases hik : k = i
      · subst hik
        simp [hp]
      · simp [beq_eq_false_iff_ne.2 hik]

section
variable {s : State} {c d : Cell} {b k n : Nat} {v : Barrier}

/-! ### Barriers of a cell (R247) -/

@[simp] theorem Cell.barrier_setBarrier_self (c : Cell) (b : Nat) (v : Barrier) : (c.setBarrier b v).barrier b = v :=
  Map.get_set_self _ _ _ _

theorem Cell.barrier_setBarrier_of_ne (c : Cell) (v : Barrier) (h : k ≠ b) : (c.setBarrier b v).barrier k = c.barrier k :=
  Map.get_set_of_ne _ _ _ h

/-- Of a cell only the barriers, the event lines, the counters and the L1 differ. -/
def Cell.OnlyBarriers (c d : Cell) : Prop :=
  d = { c with barriers := d.barriers, lines := d.lines, counters := d.counters, l1 := d.l1 }

/-- Of its barriers only b differs. -/
structure Cell.OnlyBarrier (c d : Cell) (b : Nat) : Prop where
  cell   : c.OnlyBarriers d
  others : ∀ k, k ≠ b → d.barrier k = c.barrier k

theorem Cell.OnlyBarriers.refl (c : Cell) : c.OnlyBarriers c := rfl

/-- The fields of a cell that a change of its barriers and events leaves. -/
theorem Cell.OnlyBarriers.kept (h : c.OnlyBarriers d) :
    d.seq = c.seq ∧ d.streams = c.streams ∧ d.scratch = c.scratch ∧ d.fifos = c.fifos ∧ d.gates = c.gates := by
  unfold Cell.OnlyBarriers at h
  rw [h]
  exact ⟨rfl, rfl, rfl, rfl, rfl⟩

theorem Cell.OnlyBarriers.seq (h : c.OnlyBarriers d) : d.seq = c.seq := h.kept.1

theorem Cell.OnlyBarriers.acquire (h : c.OnlyBarriers d) (sc : Scope) : c.OnlyBarriers (d.acquire sc) := by
  unfold Cell.OnlyBarriers at h
  unfold Cell.acquire
  split
  · exact h
  · unfold Cell.OnlyBarriers
    rw [h]

theorem Cell.OnlyBarriers.pulse (h : c.OnlyBarriers d) (n : Nat) : c.OnlyBarriers (d.pulse n) := by
  unfold Cell.OnlyBarriers at h ⊢
  rw [h]
  rfl

theorem Cell.OnlyBarriers.pulseDone (c : Cell) (n : Nat) (sc : Scope) : c.OnlyBarriers (c.pulseDone n sc) :=
  ((Cell.OnlyBarriers.refl c).pulse n).acquire sc

theorem Cell.barrier_pulseDone (c : Cell) (n : Nat) (sc : Scope) (k : Nat) : (c.pulseDone n sc).barrier k = c.barrier k := by
  unfold Cell.pulseDone Cell.acquire
  split <;> rfl

theorem Cell.lineSet_pulseDone (c : Cell) (sc : Scope) (hn : n < 32) : (c.pulseDone n sc).lineSet n = true := by
  unfold Cell.pulseDone Cell.acquire
  split
  · exact c.lineSet_pulse hn
  · exact c.lineSet_pulse hn

theorem Cell.OnlyBarrier.setBarrier (c : Cell) (b : Nat) (v : Barrier) : c.OnlyBarrier (c.setBarrier b v) b :=
  ⟨rfl, fun _ => c.barrier_setBarrier_of_ne v⟩

theorem Cell.OnlyBarrier.pulseDone (h : c.OnlyBarrier d b) (n : Nat) (sc : Scope) : c.OnlyBarrier (d.pulseDone n sc) b :=
  ⟨(h.cell.pulse n).acquire sc, fun k hk => (d.barrier_pulseDone n sc k).trans (h.others k hk)⟩

/-- A barrier of which P or A has been lowered: complete if both are 0, and then its line pulses. -/
theorem Cell.barrierLowered_effect (c : Cell) (b : Nat) (v : Barrier) : c.OnlyBarrier (c.barrierLowered b v) b
    ∧ (c.barrierLowered b v).barrier b = (if v.p = 0 ∧ v.a = 0 then { v with complete := true } else v)
    ∧ ∀ n, v.line = some n → n < 32 → v.p = 0 ∧ v.a = 0 → (c.barrierLowered b v).lineSet n = true := by
  unfold Cell.barrierLowered
  split
  · have hset := Cell.OnlyBarrier.setBarrier c b { v with complete := true }
    have hself := c.barrier_setBarrier_self b { v with complete := true }
    generalize c.setBarrier b { v with complete := true } = d at hset hself ⊢
    dsimp only
    split
    · next n hline =>
      refine ⟨hset.pulseDone n v.scope, (d.barrier_pulseDone n v.scope b).trans hself, fun m hm hlt _ => ?_⟩
      obtain rfl : n = m := Option.some.inj (hline.symm.trans hm)
      exact d.lineSet_pulseDone v.scope hlt
    · next hline => exact ⟨hset, hself, fun m hm => absurd (hline.symm.trans hm) nofun⟩
  · next hn => exact ⟨.setBarrier c b v, c.barrier_setBarrier_self b v, fun _ _ _ h => absurd h hn⟩

/-- Landing lowers P of a barrier that is not complete. -/
theorem Cell.barrierLand_effect (c : Cell) (bar : Option Nat) (n : Nat) : c.OnlyBarriers (c.barrierLand bar n)
    ∧ ∀ b, bar = some b → (c.barrier b).complete = false → ((c.barrierLand bar n).barrier b).p = (c.barrier b).p - n := by
  unfold Cell.barrierLand
  cases bar with
  | none => exact ⟨rfl, nofun⟩
  | some b =>
    dsimp only
    split
    · next h =>
      refine ⟨rfl, fun k hk hopen => ?_⟩
      obtain rfl := Option.some.inj hk
      rw [h.resolve_right (by simp [hopen]), Nat.sub_zero]
    · obtain ⟨honly, hbar, -⟩ := c.barrierLowered_effect b { c.barrier b with p := (c.barrier b).p - n }
      refine ⟨honly.cell, fun k hk _ => ?_⟩
      obtain rfl := Option.some.inj hk
      rw [hbar]
      split <;> rfl

/-! ### Barrier instructions (R374) -/

/-- The instruction retires; of the cell in focus only barrier b, its event line with the counters and the L1 may differ, and
nothing else of the module. -/
def State.OnlyBarrier (s t : State) (b : Nat) : Prop :=
  t.cur = { s.cur with seq := { s.cur.seq with pc := s.nextPc }, barriers := t.cur.barriers
                       lines := t.cur.lines, counters := t.cur.counters, l1 := t.cur.l1 }
    ∧ (∀ k, k ≠ b → t.cur.barrier k = s.cur.barrier k) ∧ SameMemory s t ∧ ∀ m, m ≠ s.focus.cell → t.cell m = s.cell m

theorem State.OnlyBarrier.retire (h : s.cur.OnlyBarrier d b) : s.OnlyBarrier (s.setCur (d.retire false)) b := by
  obtain ⟨hcell, hothers⟩ := h
  obtain ⟨hcur, -, hmem, hcells⟩ := State.retire_effect s s d rfl (SameMemory.refl s) (fun _ => rfl) hcell.seq
  unfold State.OnlyBarrier
  rw [hcur]
  refine ⟨?_, hothers, hmem, hcells⟩
  unfold Cell.OnlyBarriers at hcell
  rw [hcell]
  rfl

theorem binit_writes {b : BitVec 5} {y z : Reg} (ha : 1 ≤ (s.cur.reg y).toNat ∧ (s.cur.reg y).toNat ≤ 65535)
    (hl : (s.cur.reg z).toNat = 0 ∨ 24 ≤ (s.cur.reg z).toNat ∧ (s.cur.reg z).toNat ≤ 31)
    (hbusy : s.cur.barrierBusy b.toNat = false) : Completes (.binit b y z) s fun t =>
      s.OnlyBarrier t b.toNat
      ∧ t.cur.barrier b.toNat = { p := 0, a := (s.cur.reg y).toNat, complete := false, scope := .cell
                                  line := if (s.cur.reg z).toNat = 0 then none else some (s.cur.reg z).toNat }
      ∧ t.cur.lines = s.cur.lines ∧ t.cur.counters = s.cur.counters ∧ t.cur.l1 = s.cur.l1 := by
  unfold Completes
  rw [exec_binit]
  unfold execBinit
  dsimp only
  rw [if_neg (by simpa [ha, or_iff_not_imp_left] using hl), hbusy, if_neg nofun]
  refine ⟨_, rfl, .retire (.setBarrier _ _ _), ?_⟩
  rw [State.setCur_eq, State.cur_setCell_focus]
  exact ⟨Cell.barrier_setBarrier_self _ _ _, rfl, rfl, rfl⟩

theorem barrive_arrives {b : BitVec 5} (hq : s.quiet) (hopen : (s.cur.barrier b.toNat).complete = false)
    (ha : 1 ≤ (s.cur.barrier b.toNat).a) : Completes (.barrive b none) s fun t =>
      s.OnlyBarrier t b.toNat
      ∧ t.cur.barrier b.toNat = { s.cur.barrier b.toNat with
          a := (s.cur.barrier b.toNat).a - 1
          complete := decide ((s.cur.barrier b.toNat).a = 1 ∧ (s.cur.barrier b.toNat).p = 0) }
      ∧ ∀ n, (s.cur.barrier b.toNat).line = some n → n < 32 → (s.cur.barrier b.toNat).a = 1 → (s.cur.barrier b.toNat).p = 0 →
        t.cur.lineSet n = true := by
  have hmay : s.cur.mayArrive b.toNat = true := by
    simp [Cell.mayArrive, hopen]
    omega
  obtain ⟨honly, hbar, hline⟩ := s.cur.barrierLowered_effect b.toNat
    { s.cur.barrier b.toNat with a := (s.cur.barrier b.toNat).a - 1 }
  unfold Completes
  rw [exec_barrive]
  unfold execBarrive
  dsimp only
  rw [State.release_of_quiet hq, if_neg (by simp [Cell.mayArm]), hmay, if_pos rfl, State.settle_of_quiet hq]
  refine ⟨_, rfl, .retire honly, ?_⟩
  rw [State.cur_setCell_focus]
  refine ⟨Eq.trans hbar ?_, fun n hn hlt h1 h0 => hline n hn hlt ⟨h0, by simp [h1]⟩⟩
  generalize s.cur.barrier b.toNat = v at hopen ha ⊢
  dsimp only
  split
  · next h => simp [h, show v.a = 1 by omega]
  · next h => rw [hopen, decide_eq_false (by omega)]

theorem barrive_traps {b : BitVec 5} (hq : s.quiet) (hh : s.handlerReady)
    (hv : (s.cur.barrier b.toNat).complete = true ∨ (s.cur.barrier b.toNat).a = 0) :
    Completes (.barrive b none) s fun t => Traps s t .barrier 0 s.word := by
  have hmay : s.cur.mayArrive b.toNat = false := by
    rcases hv with h | h <;> simp [Cell.mayArrive, h]
  unfold Completes
  rw [exec_barrive]
  unfold execBarrive
  dsimp only
  rw [State.release_of_quiet hq, if_neg (by simp [Cell.mayArm]), hmay, if_neg nofun]
  exact trapNow_traps s false .barrier 0 hh

theorem Cell.expectOk_iff (c : Cell) (b : Nat) (n : Word) :
    c.expectOk b n = true ↔ n = 0 ∨ (c.barrier b).complete = false ∧ (c.barrier b).p + n.toNat < 2 ^ 56 := by
  rw [Cell.expectOk, Bool.or_eq_true, beq_iff_eq, Cell.barrierMayAdd, Bool.and_eq_true, Bool.not_eq_true', decide_eq_true_iff]
  exact or_congr_right (and_congr_right fun _ => by omega)

theorem bexpect_adds {b : BitVec 5} {y : Reg} (hopen : (s.cur.barrier b.toNat).complete = false)
    (hp : (s.cur.barrier b.toNat).p + (s.cur.reg y).toNat < 2 ^ 56) : Completes (.bexpect b y none) s fun t =>
      s.OnlyBarrier t b.toNat
      ∧ t.cur.barrier b.toNat = { s.cur.barrier b.toNat with
          p := (s.cur.barrier b.toNat).p + (s.cur.reg y).toNat, scope := (t.cur.barrier b.toNat).scope } := by
  have hexpect : s.cur.expectOk b.toNat (s.cur.reg y) = true := (Cell.expectOk_iff _ _ _).2 (.inr ⟨hopen, hp⟩)
  unfold Completes
  rw [exec_bexpect]
  unfold execBexpect
  dsimp only
  rw [if_neg (by simp [Cell.mayArm]), hexpect, if_pos rfl]
  refine ⟨_, rfl, .retire (.setBarrier _ _ _), ?_⟩
  rw [State.setCur_eq, State.cur_setCell_focus]
  have hself : ((s.cur.barrierAdd (some b.toNat) (s.cur.reg y).toNat).retire false).barrier b.toNat
      = { s.cur.barrier b.toNat with p := (s.cur.barrier b.toNat).p + (s.cur.reg y).toNat
                                     scope := widerScope (s.cur.barrier b.toNat).scope .part } :=
    Cell.barrier_setBarrier_self _ _ _
  rw [hself]

theorem bexpect_traps {b : BitVec 5} {y : Reg} (hh : s.handlerReady) (hy : s.cur.reg y ≠ 0)
    (hv : (s.cur.barrier b.toNat).complete = true ∨ 2 ^ 56 ≤ (s.cur.barrier b.toNat).p + (s.cur.reg y).toNat) :
    Completes (.bexpect b y none) s fun t => Traps s t .barrier 0 s.word := by
  have hexpect : s.cur.expectOk b.toNat (s.cur.reg y) = false := by
    rw [Bool.eq_false_iff, Ne, Cell.expectOk_iff, not_or, not_and]
    exact ⟨hy, fun hopen => Nat.not_lt.2 (hv.resolve_left (by simp [hopen]))⟩
  unfold Completes
  rw [exec_bexpect]
  unfold execBexpect
  dsimp only
  rw [if_neg (by simp [Cell.mayArm]), hexpect, if_neg nofun]
  exact trapNow_traps s false .barrier 0 hh

/-! ### Waits and tests (R178, R186, R374) -/

/-- An acquire of the cell in focus empties its L1, unless its scope is CELL. -/
theorem State.acquire_focus (s : State) (sc : Scope) :
    s.acquire s.focus.cell sc = if sc = .cell then s else s.setCell s.focus.cell { s.cur with l1 := [] } := by
  cases sc <;> rfl

theorem State.acquire_retire (s : State) (sc : Scope) : (s.acquire s.focus.cell sc).onCur (fun c => c.retire false)
    = if sc = .cell then s.withPc s.nextPc else s.cellStep fun c => { c with l1 := [] } := by
  rw [State.acquire_focus]
  split
  · rfl
  · rw [State.onCur_eq, State.setCell_focus, State.cur_setCell_focus, State.setCell_setCell]
    rfl

theorem bwaitb_retires {b : BitVec 5} (h : (s.cur.barrier b.toNat).complete = true) :
    exec (.bwaitb b) s = .next (if (s.cur.barrier b.toNat).scope = .cell then s.withPc s.nextPc
      else s.cellStep fun c => { c with l1 := [] }) := by
  rw [exec_bwaitb]
  unfold execBwaitb
  rw [if_pos h, State.acquire_retire]

theorem bwaitb_waits {b : BitVec 5} (h : (s.cur.barrier b.toNat).complete = false) : exec (.bwaitb b) s = .next s := by
  rw [exec_bwaitb]
  exact if_neg (by simp [h])

/-- The cell in focus takes a result in a register and retires, with its L1 emptied or not. -/
theorem State.writeWithL1_effect (s : State) (l : Map (List Byte)) (x : Reg) (r : Word) :
    let t := s.setCur ((({ s.cur with l1 := l } : Cell).setReg x r).retire false)
    RegWrite s.cur t.cur x r ∧ t.cur.seq.pc = s.nextPc ∧ OnlyRegs s.cur.seq t.cur.seq
      ∧ t.cur = { s.cur with seq := t.cur.seq, l1 := l } ∧ OnlyCur s t := by
  have hframe := Cell.setReg_frame { s.cur with l1 := l } x r
  obtain ⟨hregs, hshadows⟩ := RegWrite.setReg ({ s.cur with l1 := l } : Cell) x r false
  dsimp only
  rw [State.setCur_eq, State.cur_setCell_focus]
  refine ⟨⟨hregs, hshadows⟩, by simp [State.nextPc, instrBytes], ?_, ?_, OnlyCur.setCur s _⟩
  · rw [hframe]
    rfl
  · rw [hframe]
    rfl

theorem State.acquireIf_onCur (s : State) (p : Bool) (sc : Scope) (f : Cell → Cell) :
    (if p then s.acquire s.focus.cell sc else s).onCur f
      = s.setCur (f { s.cur with l1 := if p = true ∧ sc ≠ .cell then [] else s.cur.l1 }) := by
  rw [State.acquire_focus]
  by_cases hsc : sc = .cell
  · simp [hsc]
  · cases p
    · simp
    · simp [hsc]

theorem btest_reads {x : Reg} {b : BitVec 5} : Completes (.btest x b) s fun t =>
    RegWrite s.cur t.cur x (if (s.cur.barrier b.toNat).complete then 1 else 0) ∧ t.cur.seq.pc = s.nextPc
      ∧ OnlyRegs s.cur.seq t.cur.seq
      ∧ t.cur = { s.cur with seq := t.cur.seq
                             l1 := if (s.cur.barrier b.toNat).complete = true ∧ (s.cur.barrier b.toNat).scope ≠ .cell then []
                               else s.cur.l1 }
      ∧ OnlyCur s t := by
  unfold Completes
  rw [exec_btest]
  unfold execBtest
  dsimp only
  rw [State.acquireIf_onCur]
  exact ⟨_, rfl, s.writeWithL1_effect _ x (flagWord 64 _)⟩

/-! ### Events and counters (R258, R259) -/

theorem Cell.lineSet_pulse_eq (c : Cell) (l : Nat) (hn : n < 32) : (c.pulse l).lineSet n = (c.lineSet n || n == l) := by
  unfold Cell.lineSet Cell.pulse
  rw [BitVec.getLsbD_or, BitVec.getLsbD_ofNat, Nat.testBit_two_pow, decide_eq_true hn, Bool.true_and, Bool.beq_comm]
  rfl

/-- The counters of which p holds count anew. -/
theorem get?_map_count {p : Nat → Counter → Prop} [∀ k v, Decidable (p k v)] (f : Counter → Nat) (m : Map Counter) (k : Nat) :
    Map.get? (m.map fun e => (e.1, if p e.1 e.2 then { e.2 with count := f e.2 } else e.2)) k
      = (Map.get? m k).map fun v => { v with count := if p k v then f v else v.count } := by
  refine Eq.trans (Map.get?_map ?_ m k) (congrArg (Option.map · _) (funext fun v => ?_))
  · exact fun _ => rfl
  · dsimp only
    split <;> rfl

theorem Cell.counter_pulse (c : Cell) (l k : Nat) : Map.get? (c.pulse l).counters k = (Map.get? c.counters k).map fun v =>
    { v with count := if v.line = l then min 65535 (v.count + 1) else v.count } :=
  get?_map_count (p := fun _ v => v.line = l) (fun v => min 65535 (v.count + 1)) c.counters k

theorem Cell.lineSet_clearEvents (c : Cell) (w : Word) (hn : n < 32) :
    (c.clearEvents w).lineSet n = (c.lineSet n && !w.getLsbD n) := by
  unfold Cell.lineSet Cell.clearEvents
  simp [hn]

theorem Cell.counter_clearEvents (c : Cell) (w : Word) (k : Nat) :
    Map.get? (c.clearEvents w).counters k = (Map.get? c.counters k).map fun v =>
      { v with count := if w.getLsbD (32 + k) then 0 else v.count } :=
  get?_map_count (p := fun k _ => w.getLsbD (32 + k) = true) (fun _ => 0) c.counters k

theorem Cell.reached_iff (c : Cell) (k : Nat) :
    c.reached k = true ↔ ∃ v, Map.get? c.counters k = some v ∧ v.threshold ≤ v.count := by
  unfold Cell.reached
  split
  · next v h => simp [h]
  · next h => simp [h]

theorem Cell.getLsbD_reachedBits (c : Cell) (hk : k < 16) : c.reachedBits.getLsbD k = c.reached k := by
  unfold Cell.reachedBits
  rw [getLsbD_foldl_bits _ _ hk]
  simp [hk]

/-! ### Operands of the event instructions (R260, R375) -/

/-- A word with its bits 15:5 and 63:32 clear passes the mask of `EVSET` for counters. -/
theorem and_counterMask_eq_zero {v : Word} (hlow : v.extractLsb' 5 11 = 0) (hhigh : v.extractLsb' 32 32 = 0) :
    v &&& ~~~(0xFFFF001F : Word) = 0 := by
  have hmask : ∀ i < 64, i < 5 ∨ 16 ≤ i ∧ i < 32 → (0xFFFF001F : Word).getLsbD i = true := by decide
  refine BitVec.eq_of_getLsbD_eq fun i hi => ?_
  have hbit (start len : Nat) (h : v.extractLsb' start len = 0) (hs : start ≤ i) (hl : i < start + len) :
      v.getLsbD i = false := by
    have := congrArg (·.getLsbD (i - start)) h
    simpa [BitVec.getLsbD_extractLsb', show i - start < len by omega, show start + (i - start) = i by omega] using this
  rw [BitVec.getLsbD_and, BitVec.getLsbD_not]
  by_cases hclear : 5 ≤ i ∧ i < 16 ∨ 32 ≤ i
  · rw [hclear.elim (fun h => hbit 5 11 hlow h.1 h.2) (fun h => hbit 32 32 hhigh h hi)]
    simp
  · rw [hmask i hi (by omega)]
    simp

theorem gateWordOk_of_codes {u : Word} (hhigh : u.extractLsb' 48 16 = 0)
    (hcodes : ∀ j, j < 8 → (u.extractLsb' (6 * j) 6).toNat < 48 ∨ u.extractLsb' (6 * j) 6 = 63) : gateWordOk u = true := by
  unfold gateWordOk gateCodes tabulate
  rw [hhigh, Bool.and_eq_true, List.all_eq_true]
  refine ⟨rfl, fun k hk => ?_⟩
  obtain ⟨j, hj, rfl⟩ := List.mem_map.1 hk
  have hcode : u.toNat / 2 ^ (6 * j) % 64 = (u.extractLsb' (6 * j) 6).toNat := by
    rw [BitVec.extractLsb'_toNat, Nat.shiftRight_eq_div_pow]
  rw [hcode, Bool.or_eq_true]
  exact (hcodes j (List.mem_range.1 hj)).imp (fun h => decide_eq_true h) fun h => by rw [h]; rfl

/-! ### Event instructions (R375, R376) -/

theorem evsetTerm_writes {g : BitVec 4} {y z : Reg} (hlo : gateWordOk (s.cur.reg y) = true)
    (hhi : gateWordOk (s.cur.reg z) = true) (hfree : (s.cur.gate g.toNat).armed = none) : exec (.evsetTerm g y z) s = .next (s.cellStep fun c =>
      { c with gates := Map.put c.gates g.toNat { lo := s.cur.reg y, hi := s.cur.reg z, armed := none } }) := by
  rw [exec_evsetTerm]
  unfold execEvsetTerm
  dsimp only
  rw [hlo, hhi, hfree]
  rfl

theorem evsetCounter_writes {i : BitVec 4} {y : Reg} (hlow : (s.cur.reg y).extractLsb' 5 11 = 0)
    (hhigh : (s.cur.reg y).extractLsb' 32 32 = 0) (ht : (s.cur.reg y).extractLsb' 16 16 ≠ 0) :
    exec (.evsetCounter i y) s = .next (s.cellStep fun c => { c with
      counters := Map.put c.counters i.toNat
        { line := (s.cur.reg y).toNat % 32, threshold := (s.cur.reg y).toNat / 2 ^ 16, count := 0 } }) := by
  have hmask := and_counterMask_eq_zero hlow hhigh
  have ht0 : ((s.cur.reg y).extractLsb' 16 16).toNat ≠ 0 := fun h => ht (BitVec.eq_of_toNat_eq h)
  have hup := congrArg BitVec.toNat hhigh
  have hline : ((s.cur.reg y).extractLsb' 0 5).toNat = (s.cur.reg y).toNat % 32 := by simp
  have hthreshold : ((s.cur.reg y).extractLsb' 16 16).toNat = (s.cur.reg y).toNat / 2 ^ 16 := by
    rw [BitVec.extractLsb'_toNat, Nat.shiftRight_eq_div_pow] at hup ⊢
    have hz : (0 : BitVec 32).toNat = 0 := rfl
    omega
  rw [exec_evsetCounter]
  unfold execEvsetCounter
  dsimp only
  rw [hmask, if_neg (by simpa using ht0), hline, hthreshold]
  rfl

theorem evsetTimer_writes {y : Reg} (hy : (s.cur.reg y).toNat ≤ 1000000) : exec (.evsetTimer y) s = .next (s.cellStep fun c =>
    { c with timer := if s.cur.reg y = 0 then none else some (1000 * (s.cur.reg y).toNat, 0) }) := by
  have hzero : s.cur.reg y = 0 ↔ (s.cur.reg y).toNat = 0 := BitVec.toNat_eq
  rw [exec_evsetTimer]
  unfold execEvsetTimer
  dsimp only
  rw [if_neg (by omega)]
  simp only [hzero]
  rfl

theorem evclr_clears {x : Reg} (hx : (s.cur.reg x).extractLsb' 48 16 = 0) : Completes (.evclr x) s fun t =>
    (∀ n, n < 32 → t.cur.lineSet n = (s.cur.lineSet n && !(s.cur.reg x).getLsbD n))
      ∧ (∀ k v, Map.get? s.cur.counters k = some v → k < 16 →
        Map.get? t.cur.counters k = some { v with count := if (s.cur.reg x).getLsbD (32 + k) then 0 else v.count })
      ∧ t.cur = { s.cur with seq := { s.cur.seq with pc := s.nextPc }, lines := t.cur.lines, counters := t.cur.counters }
      ∧ OnlyCur s t := by
  unfold Completes
  rw [exec_evclr]
  unfold execEvclr
  dsimp only
  rw [hx, if_neg (by simp)]
  refine ⟨_, rfl, ?_⟩
  rw [State.setCur_eq, State.cur_setCell_focus]
  refine ⟨fun n hn => Cell.lineSet_clearEvents _ _ hn, fun k v hv _ => ?_, rfl, OnlyCur.setCur s _⟩
  exact (Cell.counter_clearEvents _ _ k).trans (congrArg _ hv)

theorem evfire_pulses {e : BitVec 3} : Completes (.evfire e none) s fun t =>
    (∀ n, n < 32 → t.cur.lineSet n = (s.cur.lineSet n || n == 24 + e.toNat))
      ∧ (∀ k v, Map.get? s.cur.counters k = some v → Map.get? t.cur.counters k =
        some { v with count := if v.line = 24 + e.toNat then min 65535 (v.count + 1) else v.count })
      ∧ t.cur = { s.cur with seq := { s.cur.seq with pc := s.nextPc }, lines := t.cur.lines, counters := t.cur.counters }
      ∧ OnlyCur s t := by
  unfold Completes
  rw [exec_evfire]
  unfold execEvfire
  dsimp only
  rw [if_neg (by simp [Cell.mayArm])]
  refine ⟨_, rfl, ?_⟩
  rw [State.setCur_eq, State.cur_setCell_focus]
  refine ⟨fun n hn => Cell.lineSet_pulse_eq _ _ hn, fun k v hv => ?_, rfl, OnlyCur.setCur s _⟩
  exact (Cell.counter_pulse _ _ k).trans (congrArg _ hv)

/-- The word that `EVREAD` gives: the lines, the reached flags above them, and zeros. -/
def Cell.eventWord (c : Cell) : Word := (0#16 ++ c.reachedBits ++ c.lines : BitVec (16 + 16 + 32))

theorem Cell.getLsbD_eventWord (c : Cell) (i : Nat) : c.eventWord.getLsbD i =
    if i < 32 then c.lines.getLsbD i else if i < 48 then c.reachedBits.getLsbD (i - 32) else false := by
  unfold Cell.eventWord
  refine (BitVec.getLsbD_append (x := 0#16 ++ c.reachedBits) (y := c.lines)).trans ?_
  rw [BitVec.getLsbD_append, BitVec.getLsbD_zero]
  split
  · rfl
  · exact if_congr (by omega) rfl rfl

theorem Cell.eventWord_lines (c : Cell) : c.eventWord.extractLsb' 0 32 = c.lines :=
  BitVec.eq_of_getLsbD_eq fun i hi => by simp [Cell.getLsbD_eventWord, hi]

theorem Cell.eventWord_reached (c : Cell) (hk : k < 16) : c.eventWord.getLsbD (32 + k) = c.reached k := by
  rw [Cell.getLsbD_eventWord, if_neg (by omega), if_pos (by omega), Nat.add_sub_cancel_left, Cell.getLsbD_reachedBits _ hk]

theorem Cell.eventWord_high (c : Cell) : c.eventWord.extractLsb' 48 16 = 0 :=
  BitVec.eq_of_getLsbD_eq fun i hi => by simp [Cell.getLsbD_eventWord]; omega

theorem evread_reads {x : Reg} : ∃ r : Word, (Completes (.evread x) s fun t => Writes s t x r s.nextPc)
    ∧ r.extractLsb' 0 32 = s.cur.lines
    ∧ (∀ k, k < 16 → (r.getLsbD (32 + k) = true ↔ ∃ v, Map.get? s.cur.counters k = some v ∧ v.threshold ≤ v.count))
    ∧ r.extractLsb' 48 16 = 0 := by
  refine ⟨s.cur.eventWord, ⟨_, rfl, Writes.of_setReg s x _⟩, s.cur.eventWord_lines, fun k hk => ?_, s.cur.eventWord_high⟩
  rw [s.cur.eventWord_reached hk, Cell.reached_iff]

end

/-- Settles O27: lowering a barrier is `Cell.barrierLowered_effect`, an acquire `State.acquire_focus`, and the lines and counters
after a pulse or a clearing are read bit by bit and key by key. -/
theorem barrierAndEventInstructions : Obligations.BarrierAndEventInstructions := by
  unfold Obligations.BarrierAndEventInstructions
  refine ⟨fun s b x y z => ?_, fun s g i e x y z => ?_⟩
  · exact ⟨fun ha ha' hl hbusy => binit_writes ⟨ha, ha'⟩ hl hbusy, barrive_arrives, barrive_traps, bexpect_adds, bexpect_traps,
      bwaitb_retires, bwaitb_waits, btest_reads⟩
  · exact ⟨fun ⟨hlo, hlo'⟩ ⟨hhi, hhi'⟩ => evsetTerm_writes (gateWordOk_of_codes hlo hlo') (gateWordOk_of_codes hhi hhi'),
      evsetCounter_writes, evsetTimer_writes, evclr_clears, evfire_pulses, evread_reads⟩

end Sys2Proof.Machine
end

