-- ==== Sys2Proof/Proofs/GateTerms.lean ====
section
/-! Gate terms: whose turn it is, what a firing consumes, the firing of an armed `EVFIRE`, and the event timer (R259 to R261). -/

namespace Sys2Proof.Machine

section
variable {s : State} {c : Cell} {v : Gate} {g n line : Nat} {free : Bool} {word : W32}

/-! ### The turn (R261) -/

theorem Cell.mayFire_of_evfire (ht : c.trueProducts (c.gate g) ≠ []) (ha : (c.gate g).armed = some (.evfire line, word)) :
    c.mayFire free g = true := by
  unfold Cell.mayFire
  dsimp only
  rw [ha]
  simp [Cell.canAccept, ht]

theorem Cell.trueProducts_of_mayFire (h : c.mayFire free g = true) : c.trueProducts (c.gate g) ≠ [] := by
  unfold Cell.mayFire at h
  dsimp only at h
  split at h
  · cases h
  · simp at h
    exact h.1

/-- A new cycle begins with term 0: the lowest term that may fire has the turn. -/
theorem Cell.nextTerm_of_lowest (hscan : c.gateScan = none) (hg : g < 16) (hmay : c.mayFire free g = true)
    (hlow : ∀ j, j < g → c.mayFire free j = false) : c.nextTerm free = some g := by
  unfold Cell.nextTerm
  rw [hscan]
  dsimp only
  rw [List.find?_range_eq_some.2 ⟨by simp [hmay], List.mem_range.2 hg, fun j hj => by simp [hlow j hj]⟩]

/-- The turn is only ever that of a term that may fire. -/
theorem Cell.mayFire_of_nextTerm (h : c.nextTerm free = some g) : c.mayFire free g = true := by
  unfold Cell.nextTerm at h
  dsimp only at h
  split at h
  · next hfound =>
    obtain rfl := Option.some.inj h
    have hmay := List.find?_some hfound
    simp only [Bool.and_eq_true] at hmay
    exact hmay.2
  · exact List.find?_some h

/-! ### What a firing consumes (R261) -/

theorem Cell.lineSet_consumeInputs (c : Cell) (v : Gate) {k : Nat} (hk : k < 32) :
    (c.consumeInputs v).lineSet k = (c.lineSet k && !(c.trueProducts v).flatten.contains k) := by
  have hbits := getLsbD_foldl_bits (p := (· < 32)) (c.trueProducts v).flatten.dedup (0 : W32) hk
  unfold Cell.lineSet Cell.consumeInputs
  dsimp only
  rw [BitVec.getLsbD_and, BitVec.getLsbD_not, hbits]
  simp [hk]

theorem Cell.counter_consumeInputs (c : Cell) (v : Gate) (k : Nat) :
    Map.get? (c.consumeInputs v).counters k = (Map.get? c.counters k).map fun u =>
      { u with count := u.count - if (c.trueProducts v).flatten.contains (32 + k) then u.threshold else 0 } := by
  refine (get?_map_count (p := fun k _ => (c.trueProducts v).flatten.dedup.contains (32 + k) = true)
    (fun u => u.count - u.threshold) c.counters k).trans (congrArg (Option.map · _) (funext fun u => ?_))
  simp only [List.contains_iff_mem, List.mem_dedup]
  congr 1
  split <;> rfl

@[simp] theorem Cell.gate_setGate_self (c : Cell) (g : Nat) (v : Gate) : (c.setGate g v).gate g = v := Map.get_put_self _ _ _ _

/-! ### The firing (R261) -/

/-- The cell after an `EVFIRE` on a line has fired from term g. -/
def Cell.fired (c : Cell) (g line : Nat) : Cell :=
  ((((c.consumeInputs (c.gate g)).disarm g).pulse line).scanned g)

theorem gateTermFire_evfire (hrun : (s.cell n).enginesRun = true) (hturn : (s.cell n).nextTerm s.lodgeFree = some g)
    (ha : ((s.cell n).gate g).armed = some (.evfire line, word)) :
    exec (.gateTermFire n g) s = .next (s.setCell n ((s.cell n).fired g line)) := by
  rw [exec_gateTermFire]
  unfold execGateTermFire
  dsimp only
  rw [hrun, hturn, if_neg (by simp), ha]
  simp [State.startArmed, Cell.fired]

theorem gateTermFire_not_true (h : (s.cell n).trueProducts ((s.cell n).gate g) = []) : exec (.gateTermFire n g) s = .next s := by
  have hturn : (s.cell n).nextTerm s.lodgeFree ≠ some g := fun hn => Cell.trueProducts_of_mayFire (Cell.mayFire_of_nextTerm hn) h
  rw [exec_gateTermFire]
  unfold execGateTermFire
  dsimp only
  rw [if_pos (by simp [hturn])]

/-- Noting how far the terms have come changes `gateScan` alone. -/
theorem Cell.scanned_frame (c : Cell) (g : Nat) : c.scanned g = { c with gateScan := (c.scanned g).gateScan } := by
  unfold Cell.scanned
  split <;> rfl

theorem Cell.fired_effect (c : Cell) (g : Nat) (hl : line < 32) :
    (c.fired g line).gate g = { c.gate g with armed := none } ∧ (c.fired g line).lineSet line = true
    ∧ (∀ k, k < 32 → k ≠ line → (c.fired g line).lineSet k = (c.lineSet k && !(c.trueProducts (c.gate g)).flatten.contains k))
    ∧ (∀ k u, Map.get? c.counters k = some u → u.line ≠ line → Map.get? (c.fired g line).counters k =
        some { u with count := u.count - if (c.trueProducts (c.gate g)).flatten.contains (32 + k) then u.threshold else 0 })
    ∧ (c.fired g line).seq = c.seq := by
  unfold Cell.fired
  rw [Cell.scanned_frame]
  refine ⟨Cell.gate_setGate_self _ _ _, Cell.lineSet_pulse _ hl, fun k hk hne => ?_, fun k u hu hne => ?_, rfl⟩
  · refine (Cell.lineSet_pulse_eq ((c.consumeInputs (c.gate g)).disarm g) line hk).trans ?_
    rw [beq_eq_false_iff_ne.2 hne, Bool.or_false]
    exact c.lineSet_consumeInputs (c.gate g) hk
  · refine (Cell.counter_pulse ((c.consumeInputs (c.gate g)).disarm g) line k).trans ?_
    have hcount := c.counter_consumeInputs (c.gate g) k
    rw [hu] at hcount
    rw [show ((c.consumeInputs (c.gate g)).disarm g).counters = (c.consumeInputs (c.gate g)).counters from rfl, hcount]
    simp [hne]

theorem gateTermFire_effect (hrun : (s.cell n).enginesRun = true) (hturn : (s.cell n).nextTerm s.lodgeFree = some g)
    (ha : ((s.cell n).gate g).armed = some (.evfire line, word)) :
    Completes (.gateTermFire n g) s fun t =>
      t.cell n = (s.cell n).fired g line ∧ SameMemory s t ∧ ∀ m, m ≠ n → t.cell m = s.cell m :=
  ⟨_, gateTermFire_evfire hrun hturn ha, s.cell_setCell_self n _, s.sameMemory_setCell n _, fun _ => s.cell_setCell_of_ne _⟩

/-! ### The timer (R259) -/

theorem eventTimer_pulses {p t₀ : Nat} (hrun : (s.cell n).enginesRun = true) (ht : (s.cell n).timer = some (p, t₀))
    (hp : p ≤ t₀) : Completes (.eventTimer n) s fun t =>
      (t.cell n).lineSet 23 = true ∧ (t.cell n).timer = some (p, t₀ - p) ∧ (t.cell n).seq = (s.cell n).seq
        ∧ ∀ m, m ≠ n → t.cell m = s.cell m := by
  unfold Completes
  rw [exec_eventTimer]
  unfold execEventTimer
  dsimp only
  rw [ht]
  dsimp only
  rw [hrun, if_pos (by simpa using hp)]
  refine ⟨_, rfl, ?_⟩
  rw [State.cell_setCell_self]
  exact ⟨Cell.lineSet_pulse _ (by omega), rfl, rfl, fun _ => s.cell_setCell_of_ne _⟩

end

/-- Settles O29: the turn is `Cell.nextTerm`, and what the firing leaves is `Cell.fired_effect`. -/
theorem termsFireAndTheTimerPulses : Obligations.TermsFireAndTheTimerPulses := by
  unfold Obligations.TermsFireAndTheTimerPulses
  intro s n g line word c runs v
  refine ⟨fun hg hscan htrue hlow ha => ?_, fun hrun hturn ha _ hl => ?_, gateTermFire_not_true, fun p t₀ hrun ht hp => ?_⟩
  · exact Cell.nextTerm_of_lowest hscan hg (Cell.mayFire_of_evfire htrue ha) hlow
  · obtain ⟨t, hexec, hcell, hrest⟩ := gateTermFire_effect (Cell.enginesRun_of_runs hrun) hturn ha
    obtain ⟨hgate, hline, hlines, hcounters, hseq⟩ := c.fired_effect g hl
    refine ⟨t, hexec, ?_⟩
    beta_reduce
    rw [hcell]
    exact ⟨hgate, hline, hlines, hcounters, hseq, hrest⟩
  · exact eventTimer_pulses (Cell.enginesRun_of_runs hrun) ht hp

end Sys2Proof.Machine
end

