-- ==== Sys2Proof/Proofs/Streams.lean ====
section
/-! The start of a stream command, its end, and the instructions that wait for it and cancel it (R246, R260, R364 to R366). -/

namespace Sys2Proof.Machine

section
variable {s t : State} {c d : Cell} {n st g : Nat} {x : StreamSt} {w : Reg} {gate : Option Reg} {term : Option Nat} {word : W32}
  {k cmd cmd' : StreamCmd} {bar : Option Nat} {ctl : Word}

/-! ### A step that ends in one changed cell -/

/-- The step from s to t leaves cell n as d, every other cell and every byte as they were, and the focus. -/
structure State.CellBecomes (s t : State) (n : Nat) (d : Cell) : Prop where
  cell   : t.cell n = d
  others : ∀ m, m ≠ n → t.cell m = s.cell m
  memory : SameMemory s t
  focus  : t.focus = s.focus

theorem State.CellBecomes.refl (s : State) (n : Nat) : s.CellBecomes s n (s.cell n) := ⟨rfl, fun _ _ => rfl, .refl s, rfl⟩

theorem State.CellBecomes.onCell (h : s.CellBecomes t n d) (f : Cell → Cell) : s.CellBecomes (t.onCell n f) n (f d) where
  cell := by rw [State.onCell_eq, State.cell_setCell_self, h.cell]
  others m hm := by rw [State.onCell_eq, State.cell_setCell_of_ne _ _ hm, h.others m hm]
  memory := h.memory
  focus := h.focus

theorem State.CellBecomes.onWorld (h : s.CellBecomes t n d) (w : Nat) (f : World → World) :
    s.CellBecomes (t.onWorld w f) n d := by
  unfold State.onWorld
  split
  · exact h
  · exact ⟨h.cell, h.others, h.memory, h.focus⟩

theorem State.CellBecomes.countCell (h : s.CellBecomes t n d) (m i k : Nat) : s.CellBecomes (t.countCell m i k) n d :=
  ⟨h.cell, h.others, h.memory, h.focus⟩

theorem State.CellBecomes.endHolds (h : s.CellBecomes t n d) (w : Nat) (snap : Option KvSnap) :
    s.CellBecomes (t.endHolds w snap) n d := by
  unfold State.endHolds
  split
  · exact h
  · exact h.onWorld _ _

theorem State.CellBecomes.takeHolds (h : s.CellBecomes t n d) (w : Nat) (snap : Option KvSnap) :
    s.CellBecomes (t.takeHolds w snap) n d := by
  unfold State.takeHolds
  split
  · exact h
  · exact h.onWorld _ _

theorem State.CellBecomes.settleGens (h : s.CellBecomes t n d) (w : Nat) : s.CellBecomes (t.settleGens w) n d := h.onWorld _ _

theorem State.CellBecomes.onCur (h : s.CellBecomes t s.focus.cell d) (f : Cell → Cell) :
    s.CellBecomes (t.onCur f) s.focus.cell (f d) := by
  have heq : t.onCur f = t.onCell s.focus.cell f := by rw [State.onCur_eq, State.cur, h.focus]; rfl
  rw [heq]
  exact h.onCell f

theorem State.CellBecomes.cur (h : s.CellBecomes t s.focus.cell d) : t.cur = d := by
  rw [State.cur, h.focus, h.cell]

/-! ### The end of a stream (R185, R264, R366) -/

/-- The cell after the end of stream st, whose scope is sc. -/
def Cell.streamEnded (c : Cell) (st : Nat) (sc : Scope) : Cell :=
  ({ c with streams := Map.erase c.streams st, lastScopes := Map.put c.lastScopes st sc } : Cell).pulseDone st sc

theorem State.CellBecomes.endStream (h : s.CellBecomes t n d) (st : Nat) (x : StreamSt) :
    s.CellBecomes (t.endStream n st x) n (d.streamEnded st x.cmd.scope) :=
  (((h.endHolds _ _).onCell _).settleGens _)

/-- The end of a stream frees its identifier and pulses its line; of the rest, lines, counters, L1 and last scopes may change. -/
theorem Cell.streamEnded_effect (c : Cell) {st : Nat} (sc : Scope) (hst : st < 32) :
    Map.get? (c.streamEnded st sc).streams st = none ∧ (c.streamEnded st sc).lineSet st = true
      ∧ (c.streamEnded st sc).seq = c.seq ∧ (c.streamEnded st sc).scratch = c.scratch
      ∧ ∀ b, (c.streamEnded st sc).barrier b = c.barrier b := by
  obtain ⟨hseq, hstreams, hscratch, -⟩ := (Cell.OnlyBarriers.pulseDone
    { c with streams := Map.erase c.streams st, lastScopes := Map.put c.lastScopes st sc } st sc).kept
  exact ⟨(congrArg (Map.get? · st) hstreams).trans (Map.get?_erase_self _ _), Cell.lineSet_pulseDone _ sc hst, hseq, hscratch,
    Cell.barrier_pulseDone _ st sc⟩

/-! ### The start of a stream (R246, R364) -/

/-- The instruction has started stream st with command k, waiting on a term or issued at once: the identifier is busy, the bytes
join the barrier, and nothing else of the cell but the serial number, nor of the module's cells and memory, changes. -/
def State.StreamStarts (s t : State) (st : Nat) (term : Option Nat) (k : StreamCmd) : Prop :=
  Map.get? t.cur.streams st = some { cmd := { k with serial := s.cur.nextSerial }, armed := term, issued := 0, inflight := []
                                     landed := 0, rows := [], cancelled := false }
    ∧ (∀ j, j ≠ st → Map.get? t.cur.streams j = Map.get? s.cur.streams j)
    ∧ (∀ b, (t.cur.barrier b).p = (s.cur.barrier b).p + if k.bar = some b then k.bytesTo k.count else 0)
    ∧ (∀ g, term = some g → ∃ w, (t.cur.gate g).armed = some (.stream st, w))
    ∧ t.cur = { s.cur with seq := { s.cur.seq with pc := s.nextPc }, streams := t.cur.streams, nextSerial := s.cur.nextSerial + 1
                           barriers := t.cur.barriers, gates := t.cur.gates }
    ∧ SameMemory s t ∧ ∀ m, m ≠ s.focus.cell → t.cell m = s.cell m

theorem Cell.barrierAdd_effect (c : Cell) (bar : Option Nat) (m : Nat) (sc : Scope) :
    c.barrierAdd bar m sc = { c with barriers := (c.barrierAdd bar m sc).barriers }
      ∧ ∀ b, ((c.barrierAdd bar m sc).barrier b).p = (c.barrier b).p + if bar = some b then m else 0 := by
  cases bar with
  | none => exact ⟨rfl, fun b => by simp [Cell.barrierAdd]⟩
  | some a =>
    refine ⟨rfl, fun b => ?_⟩
    unfold Cell.barrierAdd
    by_cases hb : b = a
    · subst hb
      simp
    · simp [Cell.barrier_setBarrier_of_ne _ _ hb, Ne.symm hb]

theorem Cell.startStream_effect (c : Cell) (st : Nat) (term : Option Nat) (word : W32) (k : StreamCmd) :
    let d := c.startStream st term word k
    d.streams = Map.put c.streams st { cmd := { k with serial := c.nextSerial }, armed := term, issued := 0, inflight := []
                                       landed := 0, rows := [], cancelled := false }
      ∧ (∀ b, (d.barrier b).p = (c.barrier b).p + if k.bar = some b then k.bytesTo k.count else 0)
      ∧ (∀ g, term = some g → (d.gate g).armed = some (.stream st, word))
      ∧ d = { c with streams := d.streams, nextSerial := c.nextSerial + 1, barriers := d.barriers, gates := d.gates } := by
  obtain ⟨hframe, hbar⟩ := c.barrierAdd_effect k.bar (k.bytesTo k.count) k.scope
  have heq : c.startStream st term word k =
      let d := c.barrierAdd k.bar (k.bytesTo k.count) k.scope
      let d : Cell := { d with
        streams := Map.put d.streams st { cmd := { k with serial := c.nextSerial }, armed := term, issued := 0, inflight := []
                                          landed := 0, rows := [], cancelled := false }
        nextSerial := d.nextSerial + 1 }
      match term with
      | none => d
      | some g => d.arm g (.stream st) word := rfl
  rw [heq]
  generalize c.barrierAdd k.bar (k.bytesTo k.count) k.scope = d at hframe hbar
  have hstreams : d.streams = c.streams := by rw [hframe]
  have hserial : d.nextSerial = c.nextSerial := by rw [hframe]
  cases term with
  | none => exact ⟨congrArg (Map.put · st _) hstreams, hbar, nofun, by rw [hframe]⟩
  | some g =>
    refine ⟨congrArg (Map.put · st _) hstreams, hbar, fun h hg => ?_, ?_⟩
    · obtain rfl := Option.some.inj hg
      exact congrArg Gate.armed (Cell.gate_setGate_self _ _ _)
    · rw [hframe]
      rfl

theorem State.CellBecomes.streamStarts
    (h : s.CellBecomes t s.focus.cell ((s.cur.startStream st term word k).retire false)) : s.StreamStarts t st term k := by
  obtain ⟨hstreams, hbar, hgate, hframe⟩ := s.cur.startStream_effect st term word k
  unfold State.StreamStarts
  rw [h.cur]
  generalize s.cur.startStream st term word k = d at hstreams hbar hgate hframe ⊢
  rw [Cell.retire_streams, hstreams]
  refine ⟨Map.get?_put_self _ _ _, fun j hj => Map.get?_put_of_ne _ _ hj, hbar, fun g hg => ⟨word, hgate g hg⟩, ?_, h.memory,
    h.others⟩
  rw [← hstreams, hframe]
  rfl

/-! ### Stream instructions (R359, R364, R365) -/

theorem streamCtlOk_of (h : ctl.extractLsb' 16 48 = 0) (h4 : ctl.getLsbD 4 = false)
    (hbar : ctl.getLsbD 10 = true → ctl.extractLsb' 5 5 = 0) : streamCtlOk ctl = true := by
  unfold streamCtlOk
  rw [h, h4]
  cases h10 : ctl.getLsbD 10 with
  | false => rfl
  | true =>
    rw [hbar h10]
    rfl

theorem streamId_eq (ctl : Word) : (ctl.extractLsb' 0 4).toNat = ctl.toNat % 16 := by simp

theorem Cell.mayArm_of_terms (h : ∀ g, gate.map (fun w => (c.reg w).toNat % 16) = some g → (c.gate g).armed = none) :
    c.mayArm gate = true := by
  cases gate with
  | none => rfl
  | some w => exact Cell.mayArm_of_free (h _ rfl)

theorem Cell.map_gateOf (c : Cell) (gate : Option Reg) : gate.map c.gateOf = gate.map fun w => (c.reg w).toNat % 16 :=
  congrArg (gate.map ·) (funext c.gateOf_eq)

theorem State.startsStream (h : s.CellBecomes t s.focus.cell s.cur) :
    s.StreamStarts (t.onCur fun c => (c.startStream st (gate.map c.gateOf) word k).retire false) st
      (gate.map fun w => (s.cur.reg w).toNat % 16) k := by
  rw [← Cell.map_gateOf]
  exact (h.onCur _).streamStarts

/-- The record and the list entry address of a stream command, as the instruction reads them. -/
structure State.ReadsStream (s : State) (op : StreamOp) (ctl z : Word) (record : List Byte) (list : Option Word) : Prop where
  record : s.readRecord s.focus.cell (ctl.getLsbD 15) z 64 64 = .ok record
  list   : if op.listed then
      ∃ l, s.readRecord s.focus.cell (ctl.getLsbD 15) (z + 64) 8 8 = .ok l ∧ list = some (BitVec.ofNat 64 (leNat l))
    else list = none

theorem streamOp_starts {op : StreamOp} {x y z : Reg} {record : List Byte} {list : Option Word}
    (hctl : streamCtlOk (s.cur.reg x) = true) (hq : s.quiet) (hst : Map.get? s.cur.streams ((s.cur.reg x).toNat % 16) = none)
    (harm : s.cur.mayArm gate = true) (hr : s.ReadsStream op (s.cur.reg x) (s.cur.reg z) record list)
    (hcmd : streamCmdOf s.cur op 0 (s.cur.reg x) (s.cur.reg y) record list = some cmd) (hsides : sidesOk cmd 0 = true)
    (hchk : s.streamChecks s.focus.cell cmd = .ok cmd') :
    ∃ t, streamOp s false op x y z gate = .next t
      ∧ s.StreamStarts t ((s.cur.reg x).toNat % 16) (gate.map fun w => (s.cur.reg w).toNat % 16) cmd' := by
  have hlist : (if op.listed then
      (s.readRecord s.focus.cell ((s.cur.reg x).getLsbD 15) (s.cur.reg z + 64) 8 8).andThen fun l =>
        .ok (some (BitVec.ofNat 64 (leNat l)))
      else .ok none : Chk (Option Word)) = .ok list := by
    have hl := hr.list
    split at hl
    · next hop =>
      obtain ⟨l, hread, rfl⟩ := hl
      rw [if_pos hop, hread]
      rfl
    · next hop => rw [if_neg hop, hl]
  unfold streamOp
  dsimp only
  rw [hctl, harm, if_neg (by decide), streamId_eq, hst, if_neg (by decide), State.release_of_quiet hq, if_neg hq.runs, hr.record,
    hlist]
  dsimp only [Chk.andThen]
  rw [show s.cur.dualT false = 0 from rfl, hcmd]
  dsimp only
  rw [hsides, if_pos rfl, hchk]
  exact ⟨_, rfl, State.startsStream ((State.CellBecomes.refl s _).takeHolds _ _)⟩

theorem streamOp_waits {op : StreamOp} {x y z : Reg} (hctl : streamCtlOk (s.cur.reg x) = true) (harm : s.cur.mayArm gate = true)
    (hst : (Map.get? s.cur.streams ((s.cur.reg x).toNat % 16)).isSome = true) : streamOp s false op x y z gate = .next s := by
  unfold streamOp
  dsimp only
  rw [hctl, harm, if_neg (by decide), streamId_eq, hst, if_pos rfl]

/-! ### `SUNSEAL` (R365) -/

/-- The operands of a `SUNSEAL` pass, its identifier and term are free, and its range is readable. -/
structure State.Unseals (s : State) (x y z : Reg) (gate : Option Reg) : Prop where
  ctl    : streamCtlOk (s.cur.reg x) = true
  zero   : (s.cur.reg x).extractLsb' 11 5 = 0
  chunks : 1 ≤ (s.cur.reg z).toNat ∧ (s.cur.reg z).toNat ≤ 4096
  quiet  : s.quiet
  free   : Map.get? s.cur.streams ((s.cur.reg x).toNat % 16) = none
  arm    : s.cur.mayArm gate = true
  range  : ∃ l, s.unsealRange s.focus.cell (s.cur.reg y) (s.cur.reg z).toNat = .ok l

/-- The barrier that a control word names. -/
def streamBar (ctl : Word) : Option Nat := if ctl.getLsbD 10 then none else some ((ctl.toNat / 32) % 32)

theorem streamBar_eq (ctl : Word) : (if ctl.getLsbD 10 then none else some (ctl.extractLsb' 5 5).toNat) = streamBar ctl := by
  unfold streamBar
  rw [BitVec.extractLsb'_toNat, Nat.shiftRight_eq_div_pow]

theorem any_sealing_iff (o : Option World) :
    (o.any fun v => v.st == .sealing) = true ↔ ∃ v, o = some v ∧ v.st = .sealing := by
  cases o <;> simp

theorem sunseal_outside {x y z : Reg} (h : s.Unseals x y z none)
    (hs : ¬ ∃ v, s.world? s.cur.ident.world = some v ∧ v.st = .sealing) :
    exec (.sunseal x y z none) s = .next (s.cellStep fun c => c.pulse ((s.cur.reg x).toNat % 16)) := by
  have hany : ((s.world? s.cur.ident.world).any fun v => v.st == .sealing) = false :=
    Bool.eq_false_iff.2 fun h => hs ((any_sealing_iff _).1 h)
  obtain ⟨l, hl⟩ := h.range
  rw [exec_sunseal]
  unfold execSunseal
  dsimp only
  rw [h.ctl, h.zero, if_neg (by simp [h.chunks, Cell.mayArm]), streamId_eq, h.free, if_neg (by decide),
    State.release_of_quiet h.quiet, if_neg h.quiet.runs, hl]
  dsimp only [Chk.andThen]
  rw [hany]
  rfl

theorem sunseal_starts {x y z : Reg} (h : s.Unseals x y z gate)
    (hs : ∃ v, s.world? s.cur.ident.world = some v ∧ v.st = .sealing)
    (hbar : s.cur.barOk (streamBar (s.cur.reg x)) (65536 * (s.cur.reg z).toNat) = true) :
    Completes (.sunseal x y z gate) s fun t => s.StreamStarts t ((s.cur.reg x).toNat % 16)
      (gate.map fun w => (s.cur.reg w).toNat % 16)
      (unsealCmd s.cur (streamBar (s.cur.reg x)) (s.cur.reg y) (s.cur.reg z).toNat) := by
  have hany : ((s.world? s.cur.ident.world).any fun v => v.st == .sealing) = true :=
    (any_sealing_iff _).2 hs
  obtain ⟨l, hl⟩ := h.range
  unfold Completes
  rw [exec_sunseal]
  unfold execSunseal
  dsimp only
  rw [h.ctl, h.zero, if_neg (by simp [h.chunks, h.arm]), streamId_eq, h.free, if_neg (by decide), State.release_of_quiet h.quiet,
    if_neg h.quiet.runs, hl, streamBar_eq]
  dsimp only [Chk.andThen]
  rw [hany, hbar]
  exact ⟨_, rfl, State.startsStream (State.CellBecomes.refl s _)⟩

/-! ### Waiting and cancelling (R366) -/

theorem swait_retires {b : BitVec 4} (h : Map.get? s.cur.streams b.toNat = none) :
    exec (.swait b) s = .next (if Map.get .cell s.cur.lastScopes b.toNat = .cell then s.withPc s.nextPc
      else s.cellStep fun c => { c with l1 := [] }) := by
  rw [exec_swait]
  unfold execSwait
  rw [h, if_neg (by decide), State.acquire_retire]

theorem swait_waits {b : BitVec 4} (h : Map.get? s.cur.streams b.toNat = some x) : exec (.swait b) s = .next s := by
  rw [exec_swait]
  exact if_pos (by rw [h]; rfl)

theorem scancel_idle {b : BitVec 4} (h : Map.get? s.cur.streams b.toNat = none) :
    exec (.scancel b) s = .next (s.withPc s.nextPc) := by
  have hcancel : s.cancelStream s.focus.cell b.toNat = s := by
    unfold State.cancelStream
    rw [show Map.get? (s.cell s.focus.cell).streams b.toNat = none from h]
  rw [exec_scancel]
  unfold execScancel
  dsimp only
  rw [hcancel, h]
  rfl

/-- A cancelled stream that is gone: the sequencer moves on. -/
theorem scancel_retires {b : BitVec 4} {d : Cell} (h : s.CellBecomes (s.cancelStream s.focus.cell b.toNat) s.focus.cell d)
    (hgone : Map.get? d.streams b.toNat = none) :
    Completes (.scancel b) s fun t => s.CellBecomes t s.focus.cell (d.retire false) := by
  unfold Completes
  rw [exec_scancel]
  unfold execScancel
  dsimp only
  rw [h.cur, hgone, if_neg (by decide)]
  exact ⟨_, rfl, h.onCur _⟩

/-- The cell after the cancelling of stream st, armed on term g. -/
def Cell.disarmStream (c : Cell) (st g : Nat) (x : StreamSt) : Cell :=
  { (c.disarm g).barrierLand x.cmd.bar (x.cmd.bytesTo x.cmd.count) with streams := Map.erase c.streams st }

theorem Cell.disarmStream_effect (c : Cell) (st g : Nat) (x : StreamSt) :
    Map.get? (c.disarmStream st g x).streams st = none ∧ ((c.disarmStream st g x).gate g).armed = none
      ∧ (c.disarmStream st g x).seq = c.seq
      ∧ ∀ b, x.cmd.bar = some b → (c.barrier b).complete = false →
        ((c.disarmStream st g x).barrier b).p = (c.barrier b).p - x.cmd.bytesTo x.cmd.count := by
  obtain ⟨honly, hbar⟩ := (c.disarm g).barrierLand_effect x.cmd.bar (x.cmd.bytesTo x.cmd.count)
  obtain ⟨hseq, -, -, -, hgates⟩ := honly.kept
  refine ⟨Map.get?_erase_self _ _, ?_, hseq, hbar⟩
  exact congrArg Gate.armed ((congrArg (Map.get Gate.reset · g) hgates).trans (Cell.gate_setGate_self _ _ _))

theorem scancel_armed {b : BitVec 4} (h : Map.get? s.cur.streams b.toNat = some x) (hg : x.armed = some g) :
    Completes (.scancel b) s fun t =>
      Map.get? t.cur.streams b.toNat = none ∧ (t.cur.gate g).armed = none ∧ t.cur.seq = { s.cur.seq with pc := s.nextPc }
      ∧ ∀ b, x.cmd.bar = some b → (s.cur.barrier b).complete = false →
          (t.cur.barrier b).p = (s.cur.barrier b).p - x.cmd.bytesTo x.cmd.count := by
  have hcancel : s.CellBecomes (s.cancelStream s.focus.cell b.toNat) s.focus.cell (s.cur.disarmStream b.toNat g x) := by
    unfold State.cancelStream
    rw [show Map.get? (s.cell s.focus.cell).streams b.toNat = some x from h]
    dsimp only
    rw [hg]
    exact (((State.CellBecomes.refl s _).endHolds _ _).onCell _).settleGens _
  obtain ⟨hgone, hgate, hseq, hbar⟩ := s.cur.disarmStream_effect b.toNat g x
  obtain ⟨t, hexec, ht⟩ := scancel_retires hcancel hgone
  refine ⟨t, hexec, ?_⟩
  beta_reduce
  rw [ht.cur, Cell.retire_seq, hseq]
  exact ⟨hgone, hgate, rfl, hbar⟩

/-- The end of a stream closes at most a slot of a FIFO. -/
theorem Cell.closeFill_seq (c : Cell) (x : StreamSt) : (c.closeFill x).seq = c.seq := by
  unfold Cell.closeFill
  split
  · split
    · split <;> rfl
    · rfl
  · rfl

/-- The cell after the early end of stream st, which has nothing in flight and feeds no port. -/
def Cell.cutDrained (c : Cell) (st : Nat) (x : StreamSt) : Cell :=
  ((c.closeFill x).barrierLand x.cmd.bar (x.cmd.bytesTo x.cmd.count - x.cmd.bytesTo x.landed)).streamEnded st x.cmd.scope

theorem Cell.cutDrained_effect (c : Cell) {st : Nat} (x : StreamSt) (hst : st < 32) :
    Map.get? (c.cutDrained st x).streams st = none ∧ (c.cutDrained st x).lineSet st = true ∧ (c.cutDrained st x).seq = c.seq := by
  unfold Cell.cutDrained
  obtain ⟨hgone, hline, hseq, -⟩ := Cell.streamEnded_effect
    ((c.closeFill x).barrierLand x.cmd.bar (x.cmd.bytesTo x.cmd.count - x.cmd.bytesTo x.landed)) x.cmd.scope hst
  obtain ⟨honly, -⟩ := (c.closeFill x).barrierLand_effect x.cmd.bar (x.cmd.bytesTo x.cmd.count - x.cmd.bytesTo x.landed)
  exact ⟨hgone, hline, hseq.trans (honly.seq.trans (c.closeFill_seq x))⟩

theorem scancel_drained {b : BitVec 4} (h : Map.get? s.cur.streams b.toNat = some x) (harm : x.armed = none)
    (hport : x.cmd.toPort = false) (hfly : x.inflight = []) :
    Completes (.scancel b) s fun t =>
      Map.get? t.cur.streams b.toNat = none ∧ t.cur.lineSet b.toNat = true ∧ t.cur.seq = { s.cur.seq with pc := s.nextPc } := by
  have hdrained : x.drained = true := by
    unfold StreamSt.drained
    rw [hport, hfly]
    rfl
  have hcancel : s.CellBecomes (s.cancelStream s.focus.cell b.toNat) s.focus.cell (s.cur.cutDrained b.toNat x) := by
    unfold State.cancelStream
    rw [show Map.get? (s.cell s.focus.cell).streams b.toNat = some x from h]
    dsimp only
    rw [harm]
    dsimp only
    rw [hdrained, if_pos rfl]
    unfold State.cutStream
    dsimp only
    rw [hport, hfly]
    exact ((State.CellBecomes.refl s _).onCell _).endStream _ _
  obtain ⟨hgone, hline, hseq⟩ := s.cur.cutDrained_effect (st := b.toNat) x (by omega)
  obtain ⟨t, hexec, ht⟩ := scancel_retires hcancel hgone
  refine ⟨t, hexec, ?_⟩
  beta_reduce
  rw [ht.cur, Cell.retire_seq, hseq]
  exact ⟨hgone, hline, rfl⟩

theorem scancel_inFlight {b : BitVec 4} (h : Map.get? s.cur.streams b.toNat = some x) (harm : x.armed = none)
    (hport : x.cmd.toPort = false) (hfly : x.inflight ≠ []) :
    exec (.scancel b) s = .next (s.onCur fun c => c.setStream b.toNat { x with cancelled := true }) := by
  have hdrained : x.drained = false := by
    unfold StreamSt.drained
    rw [hport, if_neg (by decide)]
    simpa using hfly
  have hcancel : s.cancelStream s.focus.cell b.toNat = s.onCur fun c => c.setStream b.toNat { x with cancelled := true } := by
    unfold State.cancelStream
    rw [show Map.get? (s.cell s.focus.cell).streams b.toNat = some x from h]
    dsimp only
    rw [harm]
    dsimp only
    rw [hdrained]
    rfl
  rw [exec_scancel]
  unfold execScancel
  dsimp only
  rw [hcancel, if_pos]
  rw [State.onCur_eq, State.cur_setCell_focus]
  exact congrArg Option.isSome (Map.get?_put_self _ _ _)

end

/-- Settles O23: a command starts by `Cell.startStream_effect`, `SWAIT` acquires by `State.acquire_retire`, and `SCANCEL` meets an
idle identifier, an armed stream, a drained one or one in flight. -/
theorem streamsStartWaitAndCancel : Obligations.StreamsStartWaitAndCancel := by
  unfold Obligations.StreamsStartWaitAndCancel
  refine ⟨fun s x y z gate record list cmd cmd' => ?_, fun s b x => ?_⟩
  · intro n c ctl st term idle ctlOk started starts chunks bar sealing
    have hstarts (i : Instr) (op : StreamOp) (hi : exec i s = streamOp s false op x y z gate) : starts i op := by
      refine ⟨fun ⟨hhigh, h4, hbar⟩ hq ⟨hidle, harm⟩ hrecord hlist hcmd hsides hchk => ?_, fun ⟨hhigh, h4, hbar⟩ harm hbusy => ?_⟩
      · obtain ⟨t, hexec, ht⟩ := streamOp_starts (streamCtlOk_of hhigh h4 hbar) hq hidle (Cell.mayArm_of_terms harm)
          ⟨hrecord, hlist⟩ hcmd hsides hchk
        exact ⟨t, hi.trans hexec, ht⟩
      · exact hi.trans (streamOp_waits (streamCtlOk_of hhigh h4 hbar) (Cell.mayArm_of_terms harm) hbusy)
    refine ⟨hstarts _ _ rfl, hstarts _ _ rfl, hstarts _ _ rfl, hstarts _ _ rfl, hstarts _ _ rfl, hstarts _ _ rfl, ?_⟩
    intro ⟨hhigh, h4, hbar⟩ hzero hlow hmost hq ⟨hidle, harm⟩ hrange
    have h : s.Unseals x y z gate :=
      ⟨streamCtlOk_of hhigh h4 hbar, hzero, ⟨hlow, hmost⟩, hq, hidle, Cell.mayArm_of_terms harm, hrange⟩
    refine ⟨fun hout hgate => ?_, fun hsealing hok => ?_⟩
    · subst hgate
      exact sunseal_outside h hout
    · obtain ⟨t, hexec, ht⟩ := sunseal_starts h hsealing hok
      exact ⟨t, hexec, _, ht, rfl, rfl, rfl, rfl⟩
  · exact ⟨swait_retires, swait_waits, scancel_idle, fun h _ hport => ⟨fun _ => scancel_armed h,
      fun harm => scancel_drained h harm hport, fun harm => scancel_inFlight h harm hport⟩⟩

end Sys2Proof.Machine
end

