-- ==== Sys2Proof/Proofs/StreamMoves.lean ====
section
/-! One element of a stream: its request, its landing in scratch, and the refetch of slots that pre-emption emptied (R238, R246,
R247, R437). -/

namespace Sys2Proof.Machine

section
variable {s t : State} {c d : Cell} {n st q i a : Nat} {x : StreamSt} {e f : Fetched} {r : List Fetched} {k cmd : StreamCmd}
  {row : Option Nat}

theorem Cell.not_idle_of_runs (h : c.run = .running ∨ c.run = .halted) : c.run ≠ .idle := by
  rcases h with h | h
  · exact h ▸ nofun
  · exact h ▸ nofun

/-! ### What the source gives (R242) -/

theorem State.fetchElem_cost (h : s.fetchElem n k i row = some f) : f.cost = [] := by
  unfold State.fetchElem at h
  dsimp only at h
  split at h
  · cases h; rfl
  · split at h
    · cases h; rfl
    · split at h
      · cases h; rfl
      · cases h; rfl
      · cases h; rfl
      · split at h
        · cases h
        · cases h; rfl
      · obtain ⟨_, -, rfl⟩ := Option.map_eq_some_iff.1 h
        rfl
      · cases h

theorem State.fetchElem_stfill {v : W32} (hop : k.op = .stfill) (ho : k.other = .value v) (h : s.fetchElem n k i row = some f) :
    f.bits = v := by
  unfold State.fetchElem at h
  rw [hop, ho] at h
  cases h
  rfl

/-! ### A request (R238) -/

/-- A `STOUT` source gives up its token; only the fabric changes. -/
theorem Cell.takeStout_frame (c : Cell) (k : StreamCmd) (i : Nat) :
    c.takeStout k i = { c with fabric := (c.takeStout k i).fabric } := by
  unfold Cell.takeStout
  split
  · split <;> rfl
  · rfl

/-- The cell after the request of the next element f of stream st, whose command goes by no list. -/
def Cell.requested (c : Cell) (st : Nat) (x : StreamSt) (f : Fetched) : Cell :=
  (({ c with served := Map.put c.served (st % 2) st } : Cell).takeStout x.cmd x.issued).setStream st
    { x with issued := x.issued + 1, inflight := x.inflight ++ [f] }

theorem Cell.requested_effect (c : Cell) (st : Nat) (x : StreamSt) (f : Fetched) :
    Map.get? (c.requested st x f).streams st = some { x with issued := x.issued + 1, inflight := x.inflight ++ [f] }
      ∧ (c.requested st x f).seq = c.seq ∧ (c.requested st x f).scratch = c.scratch := by
  unfold Cell.requested
  rw [Cell.takeStout_frame]
  exact ⟨Map.get?_put_self _ _ _, rfl, rfl⟩

/-- A running stream that its next request finds ready, with nothing to read outside the cell. -/
structure State.Requesting (s : State) (n st : Nat) (x : StreamSt) (f : Fetched) : Prop where
  runs   : (s.cell n).run = .running ∨ (s.cell n).run = .halted
  busy   : Map.get? (s.cell n).streams st = some x
  issued : x.armed = none ∧ x.cancelled = false ∧ x.issued < x.cmd.count
  list   : x.cmd.list = none
  mapped : s.lostPage n x.cmd x.issued none = none
  near   : s.srcPlaces n x.cmd x.issued none = []
  turn   : s.nextStream n (st % 2) = some st
  elem   : s.fetchElem n x.cmd x.issued none = some f

theorem streamRequestIssue_requests (h : s.Requesting n st x f) :
    Completes (.streamRequestIssue n st) s fun t => s.CellBecomes t n ((s.cell n).requested st x f) := by
  obtain ⟨harm, hgoes, hmore⟩ := h.issued
  have hplace : s.listPlace n x = none := by
    unfold State.listPlace
    dsimp only
    rw [h.list]
    split <;> rfl
  have hentry : s.listEntry n x x.issued = none := by
    unfold State.listEntry
    rw [h.list]
    rfl
  have hcost : ({ f with cost := s.placeCosts n [] } : Fetched) = f := by
    rw [show s.placeCosts n [] = [] from rfl, ← State.fetchElem_cost h.elem]
  have hrun := Cell.not_idle_of_runs h.runs
  unfold Completes
  rw [exec_streamRequestIssue]
  unfold execStreamRequestIssue
  dsimp only
  rw [h.busy]
  dsimp only
  rw [if_neg (by simpa [Cell.enginesRun_of_runs h.runs, harm, hgoes] using hmore), hplace]
  dsimp only
  rw [hentry]
  dsimp only [Option.map, Option.filter]
  rw [h.mapped, h.elem]
  dsimp only
  rw [h.turn, if_neg (fun h => h rfl), h.near]
  refine ⟨_, rfl, ?_⟩
  change s.CellBecomes
    (s.onCell n fun c => if c.run = .idle then c else c.requested st x { f with cost := s.placeCosts n [] }) _ _
  rw [hcost, State.onCell_eq, if_neg hrun]
  exact (State.CellBecomes.refl s n).onCell fun c => c.requested st x f

/-! ### A landing in scratch (R246) -/

theorem StreamCmd.bytesTo_word (hop : k.op = .scopy) (hhalf : k.half = 8) (htan : k.shape.tan = false) (m : Nat) :
    k.bytesTo m = 4 * m := by
  unfold StreamCmd.bytesTo
  rw [hop, hhalf, htan, if_neg nofun, if_neg nofun]
  omega

theorem getD_leBytes_word (v : W32) {j : Nat} (hj : j < 4) : (leBytes 4 v.toNat).getD j 0 = v.extractLsb' (8 * j) 8 := by
  rw [leBytes_eq_tabulate]
  unfold tabulate
  rw [List.getD_eq_getElem _ _ (by simpa using hj), List.getElem_map, List.getElem_range]
  apply BitVec.eq_of_toNat_eq
  rw [BitVec.extractLsb'_toNat, Nat.shiftRight_eq_div_pow, pow_mul, BitVec.toNat_ofNat]
  rfl

theorem Cell.get_scratchWrite_word (c : Cell) (a j : Nat) (v : W32) : Map.get 0 (c.scratchWrite a (leBytes 4 v.toNat)).scratch j
    = if a ≤ j ∧ j < a + 4 then v.extractLsb' (8 * (j - a)) 8 else Map.get 0 c.scratch j := by
  refine (Map.get_setList 0 (leBytes 4 v.toNat) c.scratch a j).trans ?_
  rw [length_leBytes]
  split
  · next h => exact getD_leBytes_word v (by omega)
  · rfl

/-- A copy into scratch of elements of 32 bits without tangents. -/
structure StreamCmd.CopiesWords (k : StreamCmd) (sa : Nat) : Prop where
  op    : k.op = .scopy
  other : k.other = .scratch sa
  half  : k.half = 8
  tan   : k.shape.tan = false

theorem State.landElem_word {sa : Nat} (h : k.CopiesWords sa) :
    s.landElem n k e = some (s.onCell n fun c => c.scratchWrite (sa + 4 * e.idx) (leBytes 4 e.bits.toNat)) := by
  have haddr : (k.contig2 sa e.idx / 2).toNat = sa + 4 * e.idx := by
    unfold StreamCmd.contig2
    rw [h.half]
    omega
  have hplanes : k.planes = 0 := by
    unfold StreamCmd.planes
    rw [h.tan]
    rfl
  unfold State.landElem
  rw [h.op, h.other]
  dsimp only [StreamOp.shapedDst]
  unfold State.putElem
  dsimp only
  rw [haddr, hplanes, h.half]
  rfl

theorem Cell.streamAhead_scratch {sa : Nat} (h : x.cmd.other = .scratch sa) : c.streamAhead x = false := by
  unfold Cell.streamAhead
  rw [h, List.any_eq_false]
  intro y _
  cases y.2.cmd.other <;> simp

/-- The cell after an element at address a of stream st, its oldest in flight, has landed in scratch. -/
def Cell.landedWord (c : Cell) (st a : Nat) (x : StreamSt) (e : Fetched) (r : List Fetched) : Cell :=
  ((c.scratchWrite a (leBytes 4 e.bits.toNat)).setStream st
    { x with inflight := r, landed := x.landed + 1 }).barrierLand x.cmd.bar 4

theorem Cell.landedWord_effect (c : Cell) (st a : Nat) (x : StreamSt) (e : Fetched) (r : List Fetched) :
    (∀ j, Map.get 0 (c.landedWord st a x e r).scratch j =
        if a ≤ j ∧ j < a + 4 then e.bits.extractLsb' (8 * (j - a)) 8 else Map.get 0 c.scratch j)
      ∧ Map.get? (c.landedWord st a x e r).streams st = some { x with inflight := r, landed := x.landed + 1 }
      ∧ (∀ b, x.cmd.bar = some b → (c.barrier b).complete = false →
        ((c.landedWord st a x e r).barrier b).p = (c.barrier b).p - 4)
      ∧ (c.landedWord st a x e r).seq = c.seq := by
  obtain ⟨honly, hbar⟩ := ((c.scratchWrite a (leBytes 4 e.bits.toNat)).setStream st
    { x with inflight := r, landed := x.landed + 1 }).barrierLand_effect x.cmd.bar 4
  obtain ⟨hseq, hstreams, hscratch, -⟩ := honly.kept
  refine ⟨fun j => ?_, ?_, hbar, hseq⟩
  · exact (congrArg (Map.get 0 · j) hscratch).trans (c.get_scratchWrite_word a j e.bits)
  · exact (congrArg (Map.get? · st) hstreams).trans (Map.get?_put_self _ _ _)

/-- A running stream whose oldest element in flight, on a page that is mapped, lands next. -/
structure State.Landing (s : State) (n st : Nat) (x : StreamSt) (e : Fetched) (r : List Fetched) : Prop where
  runs   : (s.cell n).run = .running ∨ (s.cell n).run = .halted
  busy   : Map.get? (s.cell n).streams st = some x
  goes   : x.armed = none ∧ x.cancelled = false
  flies  : x.inflight = e :: r
  mapped : s.lostPage n x.cmd e.idx e.row = none
  more   : x.landed < x.cmd.count

theorem streamElementLand_word {sa : Nat} (h : s.Landing n st x e r) (hk : x.cmd.CopiesWords sa) :
    Completes (.streamElementLand n st) s fun t =>
      let d := (s.cell n).landedWord st (sa + 4 * e.idx) x e r
      s.CellBecomes t n (if x.landed + 1 = x.cmd.count then d.streamEnded st x.cmd.scope else d) := by
  obtain ⟨harm, hgoes⟩ := h.goes
  have hbytes : x.cmd.bytesTo (x.landed + 1) - x.cmd.bytesTo x.landed = 4 := by
    rw [StreamCmd.bytesTo_word hk.op hk.half hk.tan, StreamCmd.bytesTo_word hk.op hk.half hk.tan]
    omega
  have hrun := Cell.not_idle_of_runs h.runs
  unfold Completes
  rw [exec_streamElementLand]
  unfold execStreamElementLand
  dsimp only
  rw [h.busy]
  dsimp only
  rw [if_neg (by simp [Cell.enginesRun_of_runs h.runs, harm]), h.flies]
  dsimp only [List.head?, Option.bind]
  rw [h.mapped]
  refine ⟨_, rfl, ?_⟩
  unfold State.landNext
  dsimp only
  rw [h.flies, hk.op, hk.other]
  dsimp only
  rw [Cell.streamAhead_scratch hk.other, if_neg nofun, State.landElem_word hk]
  dsimp only
  rw [if_neg (by rw [State.onCell_eq, State.cell_setCell_self]; exact hrun)]
  unfold State.landed
  dsimp only
  rw [hbytes]
  have hland := (((State.CellBecomes.refl s n).onCell
    fun c => c.scratchWrite (sa + 4 * e.idx) (leBytes 4 e.bits.toNat)).onCell
    fun c => (c.setStream st { x with inflight := r, landed := x.landed + 1 }).barrierLand x.cmd.bar 4).countCell n 13 4
  split
  · exact hland.endStream st _
  · rw [if_neg (by simp [hgoes])]
    exact hland

/-! ### A refetch (R437) -/

theorem State.touchSources_near {first : Nat} {rows : List (Option Nat)}
    (h : ∀ j r, rows[j]? = some r → s.srcPlaces n cmd (first + j) r = []) : s.touchSources n cmd first rows = s := by
  unfold State.touchSources
  refine List.foldlRecOn (motive := (· = s)) _ _ rfl fun t ht y hy => ?_
  subst ht
  rw [h y.2 y.1 (List.mem_zipIdx_iff_getElem?.1 hy)]
  rfl

theorem fifoRefetch_effect {first : Nat} {rows : List (Option Nat)}
    (hrun : (s.cell n).run = .running ∨ (s.cell n).run = .halted) (hfront : (s.cell n).arb.hole q = none)
    (hhole : ((s.cell n).fifo q).hole = some (i, cmd, first, rows))
    (hnear : ∀ j r, rows[j]? = some r → s.srcPlaces n cmd (first + j) r = []) :
    Completes (.fifoRefetch n q) s fun t =>
      ((t.cell n).fifo q).slots = replaceSlots ((s.cell n).fifo q).slots (s.refetched n cmd first rows) i
        ∧ (∀ b, cmd.bar = some b → ((s.cell n).barrier b).complete = false →
          ((t.cell n).barrier b).p = ((s.cell n).barrier b).p - (cmd.bytesTo (first + rows.length) - cmd.bytesTo first))
        ∧ (t.cell n).seq = (s.cell n).seq ∧ ∀ m, m ≠ n → t.cell m = s.cell m := by
  unfold Completes
  rw [exec_fifoRefetch]
  unfold execFifoRefetch
  dsimp only
  rw [Cell.enginesRun_of_runs hrun, if_neg (by decide), hfront, hhole]
  dsimp only
  rw [State.touchSources_near hnear, State.onCell_eq, if_neg (Cell.not_idle_of_runs hrun)]
  refine ⟨_, rfl, ?_⟩
  rw [State.cell_setCell_self]
  obtain ⟨honly, hbar⟩ := ((s.cell n).setFifo q { (s.cell n).fifo q with
    slots := replaceSlots ((s.cell n).fifo q).slots (s.refetched n cmd first rows) i }).barrierLand_effect cmd.bar
      (cmd.bytesTo (first + rows.length) - cmd.bytesTo first)
  obtain ⟨hseq, -, -, hfifos, -⟩ := honly.kept
  refine ⟨?_, hbar, hseq, fun m hm => s.cell_setCell_of_ne _ hm⟩
  exact congrArg Fifo.slots ((congrArg (Map.get Fifo.reset · q) hfifos).trans (Cell.fifo_setFifo_self _ _ _))

end

/-- Settles O24: a request ends in `Cell.requested`, a landing in `Cell.landedWord`, and with the last element in the end of the
stream. -/
theorem streamsMoveTheirElements : Obligations.StreamsMoveTheirElements := by
  unfold Obligations.StreamsMoveTheirElements
  intro s n st q x e r sa c runs a
  refine ⟨fun hrun hbusy harm hgoes hmore hlist hmapped hnear hturn f hf =>
      ⟨fun v hop ho => State.fetchElem_stfill hop ho hf, ?_⟩,
    fun hrun hst hbusy harm hgoes hfly hop hother hhalf htan _ hmapped hmore => ?_,
    fun i cmd first rows hrun hfront hhole hnear => fifoRefetch_effect hrun hfront hhole hnear⟩
  · obtain ⟨t, hexec, ht⟩ := streamRequestIssue_requests
      (s := s) (n := n) ⟨hrun, hbusy, ⟨harm, hgoes, hmore⟩, hlist, hmapped, hnear, hturn, hf⟩
    obtain ⟨hstream, hseq, hscratch⟩ := c.requested_effect st x f
    refine ⟨t, hexec, ?_⟩
    beta_reduce
    rw [ht.cell]
    exact ⟨hstream, ht.memory, hseq, hscratch, ht.others⟩
  · obtain ⟨t, hexec, ht⟩ := streamElementLand_word
      (s := s) (n := n) ⟨hrun, hbusy, ⟨harm, hgoes⟩, hfly, hmapped, hmore⟩ ⟨hop, hother, hhalf, htan⟩
    obtain ⟨hscratch, hstream, hbar, hseq⟩ := c.landedWord_effect st a x e r
    refine ⟨t, hexec, ?_⟩
    beta_reduce
    rw [ht.cell]
    split
    · next hlast =>
      obtain ⟨hgone, hline, hseq', hscratch', hbar'⟩ :=
        (c.landedWord st a x e r).streamEnded_effect x.cmd.scope (st := st) (by omega)
      exact ⟨fun j => (congrArg (Map.get 0 · j) hscratch').trans (hscratch j), fun hlt => absurd hlast (by omega),
        fun _ => ⟨hgone, hline⟩, fun b hb hopen => (congrArg Barrier.p (hbar' b)).trans (hbar b hb hopen), ht.memory,
        hseq'.trans hseq, ht.others⟩
    · next hmid => exact ⟨hscratch, fun _ => hstream, fun hlast => absurd hlast hmid, hbar, ht.memory, hseq, ht.others⟩

end Sys2Proof.Machine
end

