-- ==== Sys2Proof/Proofs/Traps.lean ====
section
/-! Traps and waiting reports: the entry to the handler, and the end of a launch that has none (R266 to R268). -/

namespace Sys2Proof.Machine

section
variable {s : State} {n : Nat} {cause : Cause} {addr : Word} {w : W32} {r : Report} {rest : List Report} {l : Launch}

/-! ### The entry to the handler (R266, R267) -/

theorem State.takeTrap_traps (h : s.handlerReady) : Traps s (s.takeTrap s.focus.cell cause addr w) cause addr w := by
  obtain ⟨hkvec, hidle⟩ := h
  have hready : ¬ ((s.cell s.focus.cell).seq.kvec = 0 ∨ (s.cell s.focus.cell).seq.handlerActive = true) :=
    not_or.2 ⟨hkvec, Bool.eq_false_iff.1 hidle⟩
  unfold State.takeTrap
  rw [if_neg hready]
  refine ⟨OnlyCur.setCur _ _, ?_⟩
  rw [State.cur_setCell_focus]
  unfold EntersHandler Cell.enterHandler
  rw [kfinfoOf_precise]
  rfl

/-- The cell in its handler for the oldest report, which waits no longer. -/
def Cell.delivered (c : Cell) (r : Report) (rest : List Report) : Cell :=
  (c.withSeq fun q => { q with reports := rest }).enterHandler c.seq.pc r.cause r.addr r.info

theorem State.deliverReport_enters (hr : (s.cell n).seq.reports = r :: rest) (hkvec : (s.cell n).seq.kvec ≠ 0)
    (hidle : (s.cell n).seq.handlerActive = false) : s.deliverReport n = s.setCell n ((s.cell n).delivered r rest) := by
  unfold State.deliverReport
  dsimp only
  rw [hr]
  dsimp only
  rw [if_neg (Bool.eq_false_iff.1 hidle), if_neg hkvec]
  rfl

/-- A report waits while the handler runs. -/
theorem State.deliverReport_waits (h : (s.cell n).seq.handlerActive = true) : s.deliverReport n = s := by
  unfold State.deliverReport
  dsimp only
  split
  · rfl
  · rw [if_pos h]

theorem exec_asyncReportDelivery_running (h : (s.cell n).run = .running) :
    exec (.asyncReportDelivery n) s = .next (s.deliverReport n) := by
  rw [exec_asyncReportDelivery, execAsyncReportDelivery, if_pos h]

/-! ### The end of the launch (R268) -/

theorem State.takeTrap_ends (h : s.cur.seq.kvec = 0 ∨ s.cur.seq.handlerActive = true) :
    s.takeTrap s.focus.cell cause addr w = s.endLaunchOf s.focus.cell cause := if_pos h

/-- A launch ends with status ERROR once the errors of its other cells are recorded in the Belvedere. -/
theorem State.endLaunchOf_of_get? (h : Map.get? s.launches (s.cell n).ident.launch = some l) (cause : Cause) :
    ∃ u, s.Sheds u ∧ s.Wanes u ∧ s.endLaunchOf n cause = u.endLaunch (s.cell n).ident.launch .error cause.code := by
  unfold State.endLaunchOf
  dsimp only
  rw [h]
  refine ⟨_, (State.Sheds.refl s).foldl fun u m hu => ?_, (State.Wanes.refl s).foldl fun u m hu => ?_, rfl⟩ <;> split
  · exact hu
  · exact hu.secondary
  · exact hu
  · exact hu.secondary

/-- A dispatched node has the result it finishes with. -/
theorem State.finishNode_result {fn q k : Nat} (h : Dispatches s fn q k) (x : NodeResult) :
    ∃ g, ((s.finishNode fn q k x).queue fn q).graph = some g ∧ Map.get? g.results k = some x := by
  obtain ⟨g, hg, hst⟩ := h
  refine ⟨g.put k x, by rw [State.graph_finishNode, hg]; rfl, ?_⟩
  unfold Graph.put
  rw [hst]
  exact Map.get?_put_self _ _ _

/-- The end of a launch of this module alone completes its node with the status and the cause. -/
theorem State.endLaunch_result {id : Nat} (hl : Map.get? s.launches id = some l) (hpod : l.pod = none)
    (hd : Dispatches s l.fn l.q l.node) (st : Status) (cause : Nat) :
    ∃ g, ((s.endLaunch id st cause).queue l.fn l.q).graph = some g
      ∧ Map.get? g.results l.node = some { status := st, cause := cause, detail := 0 } := by
  have hfinish : s.endLaunch id st cause
      = (s.discardLaunch id).finishNode l.fn l.q l.node { status := st, cause := cause, detail := 0 } := by
    unfold State.endLaunch State.launchEnded
    rw [hl]
    dsimp only [Launch.ending]
    rw [hpod]
  rw [hfinish]
  exact State.finishNode_result ((State.Wanes.refl s).discardLaunch.nodes _ _ _ hd) _

theorem State.endLaunchOf_effect (hl : Map.get? s.launches (s.cell n).ident.launch = some l) (hpod : l.pod = none)
    (cause : Cause) : Map.get? (s.endLaunchOf n cause).launches (s.cell n).ident.launch = none
      ∧ (Dispatches s l.fn l.q l.node → ∃ g, ((s.endLaunchOf n cause).queue l.fn l.q).graph = some g
        ∧ Map.get? g.results l.node = some { status := .error, cause := cause.code, detail := 0 }) := by
  obtain ⟨u, hsheds, hwanes, hend⟩ := State.endLaunchOf_of_get? hl cause
  rw [hend]
  refine ⟨?_, fun hd => ?_⟩
  · rw [State.launches_endLaunch]
    exact Map.get?_erase_self _ _
  · rw [← hsheds.launches] at hl
    exact State.endLaunch_result hl hpod (hwanes.nodes _ _ _ hd) _ _

end

/-- Settles O21: a trap and a report enter the handler that is ready (`State.takeTrap_traps`, `State.deliverReport_enters`), and
without one the launch ends (`State.endLaunchOf_effect`). -/
theorem trapsAndReportsEnterTheHandler : Obligations.TrapsAndReportsEnterTheHandler := by
  unfold Obligations.TrapsAndReportsEnterTheHandler
  intro s w n r rest
  refine ⟨fun hready => ⟨_, exec_illegalInstructionWord s w, State.takeTrap_traps hready⟩,
    fun hrun hr => ⟨fun hkvec hidle => ?_, fun hactive => ?_⟩, fun hnone l hl hpod => ?_⟩
  · rw [exec_asyncReportDelivery_running hrun, State.deliverReport_enters hr hkvec hidle]
    rfl
  · rw [exec_asyncReportDelivery_running hrun, State.deliverReport_waits hactive]
  · obtain ⟨hgone, hresult⟩ := State.endLaunchOf_effect hl hpod .ill
    refine ⟨_, exec_illegalInstructionWord s w, ?_⟩
    rw [State.takeTrap_ends hnone]
    refine ⟨hgone, fun g hg hst => ?_⟩
    obtain ⟨g', hg', hres⟩ := hresult ⟨g, hg, hst⟩
    exact ⟨g', _, hg', hres, rfl, rfl⟩

end Sys2Proof.Machine
end

