-- ==== Sys2Proof/Proofs/Integer.lean ====
section
/-! The integer instructions: each function of the model is the operation on words that the table of R328 names, and a count
is told by what it counts. -/

namespace Sys2Proof.Machine

/-! ### The model's functions as operations on words (R328) -/

theorem ltS_eq_slt (a b : Word) : ltS a b = a.slt b := rfl
theorem ltU_eq_ult (a b : Word) : ltU a b = a.ult b := rfl
theorem flagWord_eq (b : Bool) : flagWord 64 b = if b then 1 else 0 := rfl

theorem shiftAmount_eq (b : Word) : shiftAmount b = b.toNat % 64 := by
  simp [shiftAmount, BitVec.extractLsb'_toNat]

theorem mulHighU_eq (a b : Word) : mulHighU a b = (a.zeroExtend 128 * b.zeroExtend 128).extractLsb' 64 64 := by
  have hprod : a.toNat * b.toNat < 2 ^ 128 := lt_of_lt_of_eq (Nat.mul_lt_mul'' a.isLt b.isLt) (by norm_num)
  have ha : a.toNat % 2 ^ 128 = a.toNat := Nat.mod_eq_of_lt (by omega)
  have hb : b.toNat % 2 ^ 128 = b.toNat := Nat.mod_eq_of_lt (by omega)
  apply BitVec.eq_of_toNat_eq
  unfold mulHighU
  rw [BitVec.toNat_ofNat, BitVec.extractLsb'_toNat, BitVec.toNat_mul, BitVec.toNat_setWidth, BitVec.toNat_setWidth,
    ha, hb, Nat.mod_eq_of_lt hprod, Nat.shiftRight_eq_div_pow]

theorem mulHighS_eq (a b : Word) : mulHighS a b = (a.signExtend 128 * b.signExtend 128).extractLsb' 64 64 := by
  have hprod : ((a.signExtend 128 * b.signExtend 128).toNat : Int) = (a.toInt * b.toInt) % 2 ^ 128 := by
    have h : a.signExtend 128 * b.signExtend 128 = BitVec.ofInt 128 (a.toInt * b.toInt) := by
      rw [BitVec.ofInt_mul]; rfl
    rw [h, BitVec.toNat_ofInt]
    omega
  apply BitVec.eq_of_toNat_eq
  unfold mulHighS
  rw [BitVec.toNat_ofInt, BitVec.extractLsb'_toNat, Nat.shiftRight_eq_div_pow]
  generalize (a.signExtend 128 * b.signExtend 128).toNat = p at *
  generalize a.toInt * b.toInt = z at *
  omega

theorem divS_eq (a b : Word) : divS a b = if b = 0 then BitVec.allOnes 64 else a.sdiv b := by
  unfold divS
  congr 1
  exact BitVec.eq_of_toInt_eq (by rw [BitVec.toInt_ofInt, BitVec.toInt_sdiv])

theorem divU_eq (a b : Word) : divU a b = if b = 0 then BitVec.allOnes 64 else a.udiv b := by
  unfold divU
  congr 1
  apply BitVec.eq_of_toNat_eq
  rw [BitVec.toNat_ofNat, BitVec.udiv_eq, BitVec.toNat_udiv]
  exact Nat.mod_eq_of_lt (Nat.lt_of_le_of_lt (Nat.div_le_self _ _) a.isLt)

theorem remS_eq (a b : Word) : remS a b = if b = 0 then a else a.srem b := by
  unfold remS
  congr 1
  exact BitVec.eq_of_toInt_eq (by rw [BitVec.toInt_ofInt, BitVec.toInt_srem, ← BitVec.toInt_srem, BitVec.toInt_bmod_cancel])

theorem remU_eq (a b : Word) : remU a b = if b = 0 then a else a.umod b := by
  unfold remU
  congr 1
  apply BitVec.eq_of_toNat_eq
  rw [BitVec.toNat_ofNat, BitVec.umod_eq, BitVec.toNat_umod]
  exact Nat.mod_eq_of_lt (Nat.lt_of_le_of_lt (Nat.mod_le _ _) a.isLt)

/-! ### Completion -/

section
variable {s : State} {d a b : Reg} {i : Instr}

/-- An instruction completes as its meaning does. -/
theorem Completes.of_exec {o : Host.Outcome State Fault Refusal} {P : State → Prop} (hi : exec i s = o)
    (h : ∃ t, o = .next t ∧ P t) : Completes i s P := by
  subst hi
  exact h

theorem opr_gives {f : Word → Word → Word} {v : Word} (hi : exec i s = opr s d a b f) (h : f (s.cur.reg a) (s.cur.reg b) = v) :
    Completes i s fun t => Writes s t d v s.nextPc := .of_exec hi (opr_completes s d a b f v h)

theorem opi_gives {f : Word → Word} {v : Word} (hi : exec i s = opi s d a f) (h : f (s.cur.reg a) = v) :
    Completes i s fun t => Writes s t d v s.nextPc := .of_exec hi (opi_completes s d a f v h)

/-- A single-word `SEL` writes the one or the other (R328, R329). -/
theorem sel_gives : Completes (.sel d a b) s fun t =>
    Writes s t d (if s.cur.reg b ≠ 0 then s.cur.reg a else s.cur.reg d) s.nextPc :=
  .of_exec (exec_sel s d a b) ⟨_, rfl, Writes.of_setReg s d _⟩

end

/-! ### Counts -/

/-- The length of the run of indices below n on which f is false: it ends at the first one on which f is true, or at n. -/
theorem takeWhile_range_run (n : Nat) (f : Nat → Bool) :
    let k := ((List.range n).takeWhile fun i => !f i).length
    k ≤ n ∧ (∀ i < k, f i = false) ∧ (k < n → f k = true) := by
  have hk : ((List.range n).takeWhile fun i => !f i).length = (List.range n).findIdx f := by
    rw [List.takeWhile_eq_take_findIdx_not, List.length_take]
    simp only [Bool.not_not]
    exact Nat.min_eq_left (List.findIdx_le_length)
  dsimp only
  rw [hk]
  have hle : (List.range n).findIdx f ≤ n := by simpa using List.findIdx_le_length (xs := List.range n) (p := f)
  refine ⟨hle, fun i hi => ?_, fun hlt => ?_⟩
  · simpa using List.not_of_lt_findIdx hi
  · have hat := List.findIdx_getElem (xs := List.range n) (p := f) (w := by simpa using hlt)
    rwa [List.getElem_range] at hat

theorem popCount_eq_card (x : Word) : popCount x = (Finset.univ.filter fun i : Fin 64 => x.getLsbD i = true).card := by
  unfold popCount
  rw [← List.map_coe_finRange_eq_range, List.filter_map, List.length_map,
    ← List.toFinset_card_of_nodup ((List.nodup_finRange 64).filter _), List.toFinset_filter, List.toFinset_finRange]
  rfl

theorem clz_counts (x : Word) :
    leadingZeros x ≤ 64 ∧ (∀ i < leadingZeros x, x.getMsbD i = false) ∧ (leadingZeros x < 64 → x.getMsbD (leadingZeros x) = true) :=
  takeWhile_range_run 64 x.getMsbD

theorem ctz_counts (x : Word) :
    trailingZeros x ≤ 64 ∧ (∀ i < trailingZeros x, x.getLsbD i = false)
      ∧ (trailingZeros x < 64 → x.getLsbD (trailingZeros x) = true) := takeWhile_range_run 64 x.getLsbD

/-! ### Constants (R331) -/

theorem lui_value (h : BitVec 2) (i : BitVec 16) :
    immZ i <<< halfShift h = BitVec.ofNat 64 (i.toNat * 2 ^ (16 * h.toNat)) := by
  apply BitVec.eq_of_toNat_eq
  have hi : i.toNat % 2 ^ 64 = i.toNat := Nat.mod_eq_of_lt (by omega)
  rw [BitVec.toNat_shiftLeft, BitVec.toNat_ofNat, immZ, BitVec.toNat_setWidth, hi, Nat.shiftLeft_eq]
  rfl

theorem getLsbD_setHalf (v : Word) (h : BitVec 2) (i : BitVec 16) {k : Nat} (hk : k < 64) :
    (setHalf v h i).getLsbD k = if 16 * h.toNat ≤ k ∧ k < 16 * h.toNat + 16 then i.getLsbD (k - 16 * h.toNat) else v.getLsbD k := by
  have hmask : (0xFFFF : Word) = (BitVec.allOnes 16).setWidth 64 := by decide
  have hone : (BitVec.allOnes 16).getLsbD (k - 16 * h.toNat) = decide (k - 16 * h.toNat < 16) := BitVec.getLsbD_allOnes
  unfold setHalf immZ halfShift
  rw [hmask]
  simp only [BitVec.getLsbD_or, BitVec.getLsbD_and, BitVec.getLsbD_not, BitVec.getLsbD_shiftLeft, BitVec.getLsbD_setWidth, hone]
  by_cases hin : 16 * h.toNat ≤ k ∧ k < 16 * h.toNat + 16
  · rw [if_pos hin]
    simp [hk, show ¬ k < 16 * h.toNat by omega, show k - 16 * h.toNat < 16 by omega, show k - 16 * h.toNat < 64 by omega]
  · rw [if_neg hin]
    rcases Nat.lt_or_ge k (16 * h.toNat) with hlow | hhigh
    · simp [hk, hlow]
    · have hzero : i.getLsbD (k - 16 * h.toNat) = false := BitVec.getLsbD_of_ge _ _ (by omega)
      simp [hk, hzero, show ¬ k - 16 * h.toNat < 16 by omega]

/-! ### Obligations -/

/-- Settles O1: each instruction is `opr` of its function, which is the word operation of the table. -/
theorem integerAndLogicResults : Obligations.IntegerAndLogicResults := by
  unfold Obligations.IntegerAndLogicResults
  refine ⟨fun s d a b => ?_, fun s d a b => ?_⟩
  · exact ⟨opr_gives (exec_add s d a b) rfl, opr_gives (exec_sub s d a b) rfl, opr_gives (exec_mul s d a b) rfl,
      opr_gives (exec_mulh s d a b) (mulHighS_eq _ _), opr_gives (exec_mulhn s d a b) (mulHighU_eq _ _),
      opr_gives (exec_div s d a b) (divS_eq _ _), opr_gives (exec_divn s d a b) (divU_eq _ _),
      opr_gives (exec_rem s d a b) (remS_eq _ _), opr_gives (exec_remn s d a b) (remU_eq _ _)⟩
  · have hsh := shiftAmount_eq (s.cur.reg b)
    exact ⟨opr_gives (exec_and s d a b) rfl, opr_gives (exec_or s d a b) rfl, opr_gives (exec_xor s d a b) rfl,
      opr_gives (exec_andn s d a b) rfl, opr_gives (exec_shl s d a b) (congrArg _ hsh), opr_gives (exec_shr s d a b) (congrArg _ hsh),
      opr_gives (exec_sha s d a b) (congrArg _ hsh), opr_gives (exec_rot s d a b) (congrArg _ hsh), sel_gives⟩

/-- Settles O2: comparisons are `slt`, `ult` and equality, counts by `takeWhile_range_run` and `popCount_eq_card`, and `MOVK`
bit by bit (`getLsbD_setHalf`). -/
theorem comparisonAndImmediateResults : Obligations.ComparisonAndImmediateResults := by
  unfold Obligations.ComparisonAndImmediateResults
  refine ⟨fun s d a b => ?_, fun s d a i n h => ?_⟩
  · obtain ⟨hclz, hzeros, hone⟩ := clz_counts (s.cur.reg a)
    obtain ⟨hctz, hzeros', hone'⟩ := ctz_counts (s.cur.reg a)
    exact ⟨opr_gives (exec_min s d a b) rfl, opr_gives (exec_max s d a b) rfl, opr_gives (exec_minn s d a b) rfl,
      opr_gives (exec_maxn s d a b) rfl, opr_gives (exec_slt s d a b) (flagWord_eq _), opr_gives (exec_sltn s d a b) (flagWord_eq _),
      opr_gives (exec_seq s d a b) (by simp [flagWord_eq]), ⟨_, hclz, hzeros, hone, opi_gives (exec_clz s d a) rfl⟩,
      ⟨_, hctz, hzeros', hone', opi_gives (exec_ctz s d a) rfl⟩,
      opi_gives (exec_popc s d a) (congrArg _ (popCount_eq_card _))⟩
  · exact ⟨opi_gives (exec_addi s d a i) rfl, opi_gives (exec_andi s d a i) rfl, opi_gives (exec_ori s d a i) rfl,
      opi_gives (exec_xori s d a i) rfl, opi_gives (exec_slti s d a i) (flagWord_eq _), opi_gives (exec_sltni s d a i) (flagWord_eq _),
      opi_gives (exec_shlImmediate s d a n) rfl, opi_gives (exec_shrImmediate s d a n) rfl, opi_gives (exec_shaImmediate s d a n) rfl,
      opi_gives (exec_rotImmediate s d a n) rfl,
      .of_exec (exec_lui s d h i) (lui_value h i ▸ writeResult_completes s d _),
      _, opi_gives (exec_movk s d h i) rfl, fun k hk => getLsbD_setHalf _ _ _ hk⟩

end Sys2Proof.Machine
end

