-- ==== Sys2Proof/Proofs/Branches.lean ====
section
/-! Branches, jumps and calls: where a transfer goes, and the trap of one whose target is bad (R332 to R335). -/

namespace Sys2Proof.Machine

section
variable {s : State} {a b : Reg} {i : Instr} {t : Word} {link : Cell → Cell} {taken : Bool} {o : BitVec 16}

/-! ### Targets -/

theorem shiftLeft_two (x : Word) : x <<< 2 = 4 * x := by
  apply BitVec.eq_of_toNat_eq
  rw [BitVec.toNat_shiftLeft, BitVec.toNat_mul, Nat.shiftLeft_eq, Nat.mul_comm]
  rfl

theorem branchTarget_eq (pc : Word) (o : BitVec 16) : branchTarget pc o = pc + 4 * o.signExtend 64 := by
  rw [branchTarget, shiftLeft_two]

theorem jumpTarget_eq (pc : Word) (o : BitVec 26) : jumpTarget pc o = pc + 4 * o.signExtend 64 := by
  rw [jumpTarget, shiftLeft_two]

theorem jmp_transfers (j : BitVec 26) : exec (.jmp j) s = jumpTo s (s.cur.seq.pc + 4 * j.signExtend 64) id := by
  rw [exec_jmp, execJmp, jumpTarget_eq]

theorem call_transfers (j : BitVec 26) : exec (.call j) s = jumpTo s (s.cur.seq.pc + 4 * j.signExtend 64) Cell.linkReturn := by
  rw [exec_call, execCall, jumpTarget_eq]

/-- The condition of `BNE` in the words of R332. -/
theorem bne_branches : exec (.bne a b o) s = branchIf s (decide (s.cur.reg a ≠ s.cur.reg b)) o := by
  rw [exec_bne, execBne, bne, decide_not]
  rfl

/-! ### Good targets (R332 to R334) -/

/-- A transfer that writes nothing but the pc. -/
theorem jumpTo_id (ha : t.toNat % 4 = 0) (hc : s.cur.inCode t = true) : jumpTo s t id = .next (s.withPc t) :=
  jumpTo_of_good s t id ha hc

/-- A transfer that writes a register. -/
theorem jumpTo_writes {d : Reg} {v : Word} (ha : t.toNat % 4 = 0) (hc : s.cur.inCode t = true)
    (hlink : link s.cur = s.cur.setReg d v) : ∃ u, jumpTo s t link = .next u ∧ Writes s u d v t :=
  ⟨_, jumpTo_of_good s t link ha hc, hlink ▸ Writes.of_setReg_pc s d v t⟩

/-- A branch goes to its target when its condition holds, else to the next word. -/
theorem branch_goes (hi : exec i s = branchIf s taken o) :
    let target := s.cur.seq.pc + 4 * o.signExtend 64
    (taken = true → target.toNat % 4 = 0 → s.cur.inCode target = true → exec i s = .next (s.withPc target))
      ∧ (taken = false → exec i s = .next (s.withPc s.nextPc)) := by
  rw [hi]
  refine ⟨fun ht ha hc => ?_, fun hf => ?_⟩
  · rw [branchIf, if_pos ht, branchTarget_eq, jumpTo_id ha hc]
  · rw [branchIf, hf]
    rfl

theorem dbnz_taken (ht : s.cur.reg a - 1 ≠ 0) :
    exec (.dbnz a o) s = jumpTo s (s.cur.seq.pc + 4 * o.signExtend 64) fun c => c.setReg a (s.cur.reg a - 1) := by
  rw [exec_dbnz, execDbnz, if_pos ht, branchTarget_eq]

theorem dbnz_falls (hz : s.cur.reg a - 1 = 0) : Completes (.dbnz a o) s fun t => Writes s t a 0 s.nextPc := by
  refine .of_exec (exec_dbnz s a o) ?_
  rw [execDbnz, if_neg (not_not.2 hz), hz]
  exact writeResult_completes s a 0

/-! ### Bad targets (R335) -/

/-- A transfer to a bad target traps, whatever it would have written. -/
theorem transfer_refuses (h : s.handlerReady) (hi : exec i s = jumpTo s t link) :
    (t.toNat % 4 ≠ 0 → Completes i s fun u => Traps s u .align t (s.cur.codeWord s.cur.seq.pc))
      ∧ (t.toNat % 4 = 0 → s.cur.inCode t = false → Completes i s fun u => Traps s u .perm t (s.cur.codeWord s.cur.seq.pc)) :=
  ⟨fun ha => .of_exec (hi.trans (jumpTo_of_unaligned s t link ha)) (trapNow_traps s false .align t h),
    fun ha hc => .of_exec (hi.trans (jumpTo_of_outside s t link ha hc)) (trapNow_traps s false .perm t h)⟩

/-- A branch whose condition holds is a transfer. -/
theorem branchIf_taken (hi : exec i s = branchIf s taken o) (ht : taken = true) :
    exec i s = jumpTo s (s.cur.seq.pc + 4 * o.signExtend 64) id := by
  rw [hi, branchIf, if_pos ht, branchTarget_eq]

end

/-- Settles O3: a branch by `branch_goes`, a jump by `jumpTo_id`, and what writes a register by `jumpTo_writes`. -/
theorem branchesAndJumpsGoToTheirTargets : Obligations.BranchesAndJumpsGoToTheirTargets := by
  unfold Obligations.BranchesAndJumpsGoToTheirTargets
  refine ⟨fun s a b o => ?_, fun s a o => ?_⟩
  · exact ⟨branch_goes (exec_beq s a b o), branch_goes bne_branches, branch_goes (exec_blt s a b o),
      branch_goes (exec_bge s a b o), branch_goes (exec_bltn s a b o), branch_goes (exec_bgen s a b o),
      fun ht ha hc => .of_exec (dbnz_taken ht) (jumpTo_writes ha hc rfl), dbnz_falls⟩
  · exact ⟨fun ⟨ha, hc⟩ => (jmp_transfers o).trans (jumpTo_id ha hc), fun ⟨ha, hc⟩ => .of_exec (call_transfers o) (jumpTo_writes ha hc rfl),
      fun ⟨ha, hc⟩ => (exec_jr s a).trans (jumpTo_id ha hc), fun ⟨ha, hc⟩ => .of_exec (exec_jrLink s a) (jumpTo_writes ha hc rfl)⟩

/-- Settles O4: every taken transfer is `jumpTo`, which checks its target before it links (`transfer_refuses`). -/
theorem badTargetsTrapBeforeAnyWrite : Obligations.BadTargetsTrapBeforeAnyWrite := by
  unfold Obligations.BadTargetsTrapBeforeAnyWrite
  intro s a b o j hready
  exact ⟨fun h => transfer_refuses hready (branchIf_taken (exec_beq s a b o) (beq_iff_eq.2 h)),
    fun h => transfer_refuses hready (branchIf_taken bne_branches (decide_eq_true h)),
    fun h => transfer_refuses hready (branchIf_taken (exec_blt s a b o) h),
    fun h => transfer_refuses hready (branchIf_taken (exec_bge s a b o) (by rw [ltS_eq_slt, h]; rfl)),
    fun h => transfer_refuses hready (branchIf_taken (exec_bltn s a b o) h),
    fun h => transfer_refuses hready (branchIf_taken (exec_bgen s a b o) (by rw [ltU_eq_ult, h]; rfl)),
    fun h => transfer_refuses hready (dbnz_taken h), transfer_refuses hready (jmp_transfers j), transfer_refuses hready (call_transfers j),
    transfer_refuses hready (exec_jr s a), transfer_refuses hready (exec_jrLink s a)⟩

end Sys2Proof.Machine
end

