-- ==== Sys2Proof/Proofs/Floats.lean ====
section
/-! The floating-point instructions: comparisons by the order of two values, minima, roundings, and the tangents of dual pairs
(R201, R211, R212, R316, R348 to R350). -/

namespace Sys2Proof.Machine

/-! ### Plain results (R348, R349) -/

section
variable (s : State) (d a b : Reg) (r : Rnd) (w : Bool)

theorem fpoAdd_plain (neg : Bool) : fpoAdd s false d a b r w neg = writeResult s d (BitVec.ofNat 64
    (if neg then (fmtOf w).sub r (inFmt (fmtOf w) (s.cur.reg a)) (inFmt (fmtOf w) (s.cur.reg b))
      else (fmtOf w).add r (inFmt (fmtOf w) (s.cur.reg a)) (inFmt (fmtOf w) (s.cur.reg b)))) := rfl
theorem fpoMul_plain : fpoMul s false d a b r w
    = writeResult s d (BitVec.ofNat 64 ((fmtOf w).mul r (inFmt (fmtOf w) (s.cur.reg a)) (inFmt (fmtOf w) (s.cur.reg b)))) := rfl
theorem fpoFma_plain : fpoFma s false d a b r w = writeResult s d (BitVec.ofNat 64
    ((fmtOf w).fma r (inFmt (fmtOf w) (s.cur.reg a)) (inFmt (fmtOf w) (s.cur.reg b)) (inFmt (fmtOf w) (s.cur.reg d)))) := rfl
theorem fpoMinMax_plain (isMax : Bool) : fpoMinMax s false d a b w isMax
    = writeResult s d (BitVec.ofNat 64 ((fmtOf w).minMax isMax (inFmt (fmtOf w) (s.cur.reg a)) (inFmt (fmtOf w) (s.cur.reg b)))) := rfl
theorem fpoCmp_plain (k : Cond) : fpoCmp s false d a b k w = writeResult s d (BitVec.ofNat 64
    (if condHolds k (((fmtOf w).val (inFmt (fmtOf w) (s.cur.reg a))).order ((fmtOf w).val (inFmt (fmtOf w) (s.cur.reg b))))
      then 1 else 0)) := rfl
theorem fpoSqrt_plain : fpoSqrt s false d a r w
    = writeResult s d (BitVec.ofNat 64 ((fmtOf w).sqrt r (inFmt (fmtOf w) (s.cur.reg a)))) := rfl
theorem fpoRcp_plain : fpoRcp s false d a r w
    = writeResult s d (BitVec.ofNat 64 ((fmtOf w).rcp r (inFmt (fmtOf w) (s.cur.reg a)))) := rfl
theorem fpoCvt_plain (k : Cvk) : fpoCvt s false d a k r w = writeResult s d (BitVec.ofNat 64 (fcvtBits k r w (s.cur.reg a))) := rfl

variable {s d} in
theorem writeResult_gives {i : Instr} {v n : Nat} (hi : exec i s = writeResult s d (BitVec.ofNat 64 v)) (hv : v = n) :
    Completes i s fun t => Writes s t d (BitVec.ofNat 64 n) s.nextPc := .of_exec hi (hv ▸ writeResult_completes s d _)

end

/-! ### The order of values (R201) -/

/-- The order of two values the other way round. -/
def Ordered.swap : Ordered → Ordered
  | .lt => .gt
  | .gt => .lt
  | o => o

theorem intOrder_swap (x y : Int) : intOrder y x = (intOrder x y).swap := by
  unfold intOrder
  rcases Int.lt_trichotomy x y with h | h | h
  · rw [if_neg (by omega), if_neg (by omega), if_pos h]
    rfl
  · subst h
    rw [if_neg (by omega), if_pos rfl]
    rfl
  · rw [if_pos h, if_neg (by omega), if_neg (by omega)]
    rfl

theorem Val.order_swap (x y : Val) : y.order x = (x.order y).swap := by
  cases x with
  | nan => cases y <;> rfl
  | inf s =>
    cases y with
    | nan => rfl
    | inf t => cases s <;> cases t <;> rfl
    | fin t n f => cases s <;> rfl
  | fin s m e =>
    cases y with
    | nan => rfl
    | inf t => cases t <;> rfl
    | fin t n f =>
      simp only [Val.order]
      rw [Int.min_comm f e]
      exact intOrder_swap _ _

section
variable {x y : Val} {isMax : Bool}

theorem Val.isNan_of_ne (h : x ≠ .nan) : x.isNan = false := by
  cases x with
  | nan => exact absurd rfl h
  | inf s => rfl
  | fin s m e => rfl

theorem minMaxPick_numbers (hx : x ≠ .nan) (hy : y ≠ .nan) :
    minMaxPick isMax x y = some (if isMax then !x.below y else !y.below x) := by
  rw [minMaxPick, Val.isNan_of_ne hx, Val.isNan_of_ne hy]

theorem minMaxPick_second (hy : y ≠ .nan) : minMaxPick isMax .nan y = some false := by
  rw [minMaxPick, Val.isNan_of_ne hy]
  rfl

theorem minMaxPick_first (hx : x ≠ .nan) : minMaxPick isMax x .nan = some true := by
  rw [minMaxPick, Val.isNan_of_ne hx]
  rfl

/-- What `FMIN` and `FMAX` ask of the order. -/
theorem Val.below_eq (x y : Val) : x.below y = (x.order y == .lt || (x.order y == .eq && x.sign && !y.sign)) := by
  unfold Val.below
  cases x.order y <;> rfl

end

/-! ### `FMIN` and `FMAX` (R201) -/

theorem FFmt.minMax_some {f : FFmt} {isMax t : Bool} {x y : Nat} (h : minMaxPick isMax (f.val x) (f.val y) = some t) :
    f.minMax isMax x y = if t then x else y := by
  rw [FFmt.minMax, h]
  cases t <;> rfl

theorem FFmt.minMax_none {f : FFmt} {isMax : Bool} {x y : Nat} (h : minMaxPick isMax (f.val x) (f.val y) = none) :
    f.minMax isMax x y = f.nanCode := by
  rw [FFmt.minMax, h]

section
variable {f : FFmt} {x y : Nat}

/-- The two results for two numbers, by their order and their signs. -/
theorem FFmt.minMax_numbers (hx : f.val x ≠ .nan) (hy : f.val y ≠ .nan) :
    ((f.val x).order (f.val y) = .lt → f.minMax false x y = x ∧ f.minMax true x y = y)
    ∧ ((f.val x).order (f.val y) = .gt → f.minMax false x y = y ∧ f.minMax true x y = x)
    ∧ ((f.val x).order (f.val y) = .eq →
        f.minMax false x y = (if (f.val y).sign && !(f.val x).sign then y else x)
        ∧ f.minMax true x y = (if (f.val x).sign && !(f.val y).sign then y else x)) := by
  have hmin := FFmt.minMax_some (minMaxPick_numbers (isMax := false) hx hy)
  have hmax := FFmt.minMax_some (minMaxPick_numbers (isMax := true) hx hy)
  rw [hmin, hmax, Val.below_eq, Val.below_eq, Val.order_swap (f.val x)]
  refine ⟨fun ho => ?_, fun ho => ?_, fun ho => ?_⟩ <;> rw [ho]
  · exact ⟨rfl, rfl⟩
  · exact ⟨rfl, rfl⟩
  · cases (f.val x).sign <;> cases (f.val y).sign <;> exact ⟨rfl, rfl⟩

end

/-- The canonical NaN of each width (R199). -/
theorem nanCode_fmtOf (w : Bool) : (fmtOf w).nanCode = if w then 0x7FF8000000000000 else 0x7FC00000 := by
  cases w
  · norm_num [fmtOf, FFmt.nanCode, FFmt.infCode, f32F]
  · norm_num [fmtOf, FFmt.nanCode, FFmt.infCode, f64F]

/-- Settles O14: `FCMP` by the table of `condHolds`, `FMIN` and `FMAX` by `FFmt.minMax_numbers` and, with a NaN, by
`minMaxPick`. -/
theorem floatComparisonsAndMinima : Obligations.FloatComparisonsAndMinima := by
  unfold Obligations.FloatComparisonsAndMinima
  intro s d a b w f bits x y order gives
  have hcmp {k : Cond} {n : Nat} (h : (if condHolds k order then 1 else 0) = n) : gives (.fcmp d a b k w) n :=
    writeResult_gives ((exec_fcmp s d a b k w).trans (fpoCmp_plain s d a b w k)) h
  have hmin {n : Nat} (h : f.minMax false x y = n) : gives (.fmin d a b w) n :=
    writeResult_gives ((exec_fmin s d a b w).trans (fpoMinMax_plain s d a b w false)) h
  have hmax {n : Nat} (h : f.minMax true x y = n) : gives (.fmax d a b w) n :=
    writeResult_gives ((exec_fmax s d a b w).trans (fpoMinMax_plain s d a b w true)) h
  have hcode : f.nanCode = if w then 0x7FF8000000000000 else 0x7FC00000 := nanCode_fmtOf w
  refine ⟨hcmp (by simp [condHolds]), hcmp (by simp [condHolds]), hcmp (by simp [condHolds]), hcmp (by simp [condHolds]),
    hcmp (by simp [condHolds]), hcmp (by simp [condHolds]), hcmp (by simp [condHolds]), hcmp (by simp [condHolds]),
    fun hx hy => ?_, fun hx hy => ?_, fun hx hy => ?_, fun hx hy => ?_⟩
  · obtain ⟨hlt, hgt, heq⟩ := FFmt.minMax_numbers hx hy
    refine ⟨fun ho => ⟨hmin (hlt ho).1, hmax (hlt ho).2⟩, fun ho => ⟨hmin (hgt ho).1, hmax (hgt ho).2⟩, fun ho hs => ?_,
      fun ho hsx hsy => ?_, fun ho hsx hsy => ?_⟩ <;> obtain ⟨hemin, hemax⟩ := heq ho
    · rw [hs, Bool.and_not_self] at hemin hemax
      exact ⟨hmin hemin, hmax hemax⟩
    · rw [hsx, hsy] at hemin hemax
      exact ⟨hmin hemin, hmax hemax⟩
    · rw [hsx, hsy] at hemin hemax
      exact ⟨hmin hemin, hmax hemax⟩
  · have hpick {isMax : Bool} : f.minMax isMax x y = y := FFmt.minMax_some (hx ▸ minMaxPick_second hy)
    exact ⟨hmin hpick, hmax hpick⟩
  · have hpick {isMax : Bool} : f.minMax isMax x y = x := FFmt.minMax_some (hy ▸ minMaxPick_first hx)
    exact ⟨hmin hpick, hmax hpick⟩
  · have hpick {isMax : Bool} : f.minMax isMax x y = f.nanCode := FFmt.minMax_none (by rw [hx, hy]; rfl)
    rw [← hcode]
    exact ⟨hmin hpick, hmax hpick⟩

/-- Settles O15: each instruction writes what its operation of the format rounds. -/
theorem floatResultsAreRoundedOnce : Obligations.FloatResultsAreRoundedOnce := by
  unfold Obligations.FloatResultsAreRoundedOnce
  intro s d a b r w f val gives int x
  have hcvt {k : Cvk} {n : Nat} (h : fcvtBits k r w x = n) : gives (.fcvt d a k r w) n :=
    writeResult_gives ((exec_fcvt s d a k r w).trans (fpoCvt_plain s d a r w k)) h
  exact ⟨writeResult_gives ((exec_fadd s d a b r w).trans (fpoAdd_plain s d a b r w false)) rfl,
    writeResult_gives ((exec_fsub s d a b r w).trans (fpoAdd_plain s d a b r w true)) rfl,
    writeResult_gives ((exec_fmul s d a b r w).trans (fpoMul_plain s d a b r w)) rfl,
    writeResult_gives ((exec_ffma s d a b r w).trans (fpoFma_plain s d a b r w)) rfl,
    writeResult_gives ((exec_frcp s d a r w).trans (fpoRcp_plain s d a r w)) rfl,
    writeResult_gives ((exec_fsqrt s d a r w).trans (fpoSqrt_plain s d a r w)) rfl,
    hcvt rfl, hcvt rfl, hcvt rfl, hcvt rfl, hcvt rfl, hcvt rfl, hcvt rfl, hcvt rfl⟩

/-! ### Dual pairs (R211, R212, R316, R325) -/

/-- A dual instruction of the cell in focus writes a register with its tangents and moves past both words. -/
structure DualWrites (s t : State) (d : Reg) (v : Word) (tan : Nat → Word) : Prop where
  only    : OnlyCur s t
  cell    : OnlySeq s.cur t.cur
  seq     : OnlyRegs s.cur.seq t.cur.seq
  pc      : t.cur.seq.pc = s.nextPc 8
  regs    : ∀ q, t.cur.reg q = if q = d ∧ d ≠ 0 then v else s.cur.reg q
  shadows : ∀ q i, 1 ≤ i ∧ i ≤ 4 → t.cur.shadow q i =
    if q = d ∧ d ≠ 0 ∧ i ≤ s.cur.ident.tw then tan i else s.cur.shadow q i

section
variable {s : State} {d a b : Reg} {v : Word} {tan : Nat → Word} {g : DualForm} {o : Host.Outcome State Fault Refusal}

theorem getD_tabulate_pred {n i : Nat} (f : Nat → Word) (h : 1 ≤ i ∧ i ≤ n) : (tabulate n fun k => f (k + 1)).getD (i - 1) 0 = f i := by
  have hlt : i - 1 < n := by omega
  simp [tabulate, hlt, Nat.sub_add_cancel h.1]

theorem DualWrites.of_setRegDual (hw : s.cur.ident.tw ≤ 4) :
    DualWrites s (s.setCur ((s.cur.setRegDual d v (tabulate s.cur.ident.tw fun k => tan (k + 1))).retire true)) d v tan := by
  have hlen : (tabulate s.cur.ident.tw fun k => tan (k + 1)).length = s.cur.ident.tw := by simp [tabulate]
  have hiff {q : Reg} {P : Prop} : (q = d ∧ q ≠ 0 ∧ P) ↔ (q = d ∧ d ≠ 0 ∧ P) :=
    ⟨fun ⟨hq, h0, hp⟩ => ⟨hq, hq ▸ h0, hp⟩, fun ⟨hq, h0, hp⟩ => ⟨hq, hq ▸ h0, hp⟩⟩
  refine ⟨OnlyCur.setCur _ _, ?_, ?_, ?_, fun q => ?_, fun q i hi => ?_⟩ <;> rw [State.setCur_eq, State.cur_setCell_focus]
  · rw [Cell.setRegDual_frame]
    rfl
  · rw [Cell.setRegDual_frame]
    rfl
  · rw [Cell.retire_seq, Cell.setRegDual_frame]
    rfl
  · rw [Cell.retire_reg, Cell.reg_setRegDual]
    have := hiff (q := q) (P := True)
    simp only [and_true] at this
    simp only [this]
  · rw [Cell.retire_shadow, Cell.shadow_setRegDual _ _ _ _ _ _ hi (hlen.trans_le hw), hlen]
    simp only [hiff]
    split
    · next h => exact getD_tabulate_pred tan ⟨hi.1, h.2.2⟩
    · rfl

/-- A dual pair has the meaning of its second word (R316). -/
theorem exec_dual_second (h : (if s.cur.inCode (s.cur.seq.pc + 4) then decodeDual (s.cur.codeWord (s.cur.seq.pc + 4)) else none)
    = some g) : exec .dual s = runDual g s := by
  rw [exec_dual]
  unfold execDual
  dsimp only
  rw [h]

/-- The first word of a pair traps where the second has no dual form. -/
theorem dual_traps (h : (if s.cur.inCode (s.cur.seq.pc + 4) then decodeDual (s.cur.codeWord (s.cur.seq.pc + 4)) else none)
    = none) (hready : s.handlerReady) : Completes .dual s fun t => Traps s t .ill 0 s.word := by
  refine .of_exec (o := trapNow s false .ill) ?_ (trapNow_traps s false .ill 0 hready)
  rw [exec_dual]
  unfold execDual
  dsimp only
  rw [h]

theorem fpoWrite_dual {n : Nat} {f : Nat → Nat} (h1 : 1 ≤ s.cur.ident.tw) (h4 : s.cur.ident.tw ≤ 4) :
    ∃ t, fpoWrite s true d n f = .next t ∧ DualWrites s t d (BitVec.ofNat 64 n) fun i => BitVec.ofNat 64 (f i) := by
  refine ⟨_, rfl, ?_⟩
  have ht : ¬ s.cur.dualT true = 0 := Nat.ne_of_gt h1
  dsimp only
  rw [State.onCur_eq, if_neg ht]
  exact DualWrites.of_setRegDual (tan := fun i => BitVec.ofNat 64 (f i)) h4

theorem selReg_dual (h1 : 1 ≤ s.cur.ident.tw) (h4 : s.cur.ident.tw ≤ 4) (hb : s.cur.reg b ≠ 0) :
    ∃ t, selReg s true d a b = .next t ∧ DualWrites s t d (s.cur.reg a) (s.cur.shadow a) := by
  refine ⟨_, ?_, DualWrites.of_setRegDual h4⟩
  have ht : ¬ s.cur.dualT true = 0 := Nat.ne_of_gt h1
  unfold selReg
  dsimp only
  rw [if_neg ht, if_pos hb, if_pos hb]
  rfl

end

/-- Settles O22: the second word's meaning (`exec_dual_second`) writes its result with the tangents (`fpoWrite_dual`,
`selReg_dual`). -/
theorem dualPairsCarryTangents : Obligations.DualPairsCarryTangents := by
  unfold Obligations.DualPairsCarryTangents
  intro s d a b r w k f num x y x' y' next second gives h1 h4
  have hgives {g : DualForm} {v : Word} {tan : Nat → Word} (h : ∃ t, runDual g s = .next t ∧ DualWrites s t d v tan) :
      gives g v tan := fun hg => .of_exec (exec_dual_second hg) <| by
    obtain ⟨t, ht, hw⟩ := h
    exact ⟨t, ht, hw.only, hw.cell, hw.seq, hw.pc, hw.regs, hw.shadows⟩
  have hcmp : BitVec.ofNat 64 (if condHolds k ((f.val x).order (f.val y)) then 1 else 0)
      = flagWord 64 (condHolds k ((f.val x).order (f.val y))) := by
    rw [flagWord_eq]
    split <;> rfl
  refine ⟨hgives (fpoWrite_dual (n := f.add r x y) (f := fun i => f.add .rne (x' i) (y' i)) h1 h4),
    hgives (fpoWrite_dual (n := f.sub r x y) (f := fun i => f.sub .rne (x' i) (y' i)) h1 h4),
    hgives (fpoWrite_dual (n := f.mul r x y) (f := fun i => f.fma .rne (x' i) y (f.mul .rne x (y' i))) h1 h4), ?_,
    fun hb => hgives (selReg_dual h1 h4 hb), fun h hready => dual_traps h hready⟩
  rw [← hcmp]
  exact hgives (fpoWrite_dual (f := fun _ => 0) h1 h4)

end Sys2Proof.Machine
end

