-- ==== Sys2Proof/Proofs/Accesses.lean ====
section
/-! The shared steps of the sequencer's memory instructions: checks in their order, places of this module, the end of an
operation, a touch of a ready line, and the bytes of a value (R137, R138, R336, R341). -/

namespace Sys2Proof.Machine

section
variable {s u : State} {n size : Nat} {k : Access} {va : Word} {sc : Option Scope} {l : Loc} {word : W32} {kind : Nat}

/-! ### Checks (R336) -/

theorem State.withChk_ok {α : Type} {r : Chk α} {a : α} {f : α → Host.Outcome State Fault Refusal} (h : r = .ok a) :
    s.withChk n word kind r f = f a := by
  subst h
  rfl

theorem State.withChk_trap {α : Type} {r : Chk α} {c : Cause} {addr : Word} {f : α → Host.Outcome State Fault Refusal}
    (h : r = .trap c addr) : s.withChk n word kind r f = .next (s.takeTrap n c addr word) := by
  subst h
  rfl

/-- An access on this module waits for no answer. -/
theorem State.withReply_near {op : RemoteOp} {f : State → Host.Outcome State Fault Refusal} (h : paModule l.pa = s.pod.self) :
    s.withReply n l va word op f = f s := by
  have hfar : ([(l, va.toNat)].map fun x => (x.1, x.2, op)).filter (fun x => paModule x.1.pa != s.pod.self) = [] := by
    simp [h]
  unfold State.withReply State.withReplies State.remoteTurn
  dsimp only
  rw [hfar]

/-- An address with a bit above 57 set is refused, whatever the size. -/
theorem State.access_high (hsc : s.scopeOk (s.cell n).ident.vf sc = true) (h : 2 ^ 58 ≤ va.toNat) :
    s.access n k size va sc = .trap .perm va := by
  have hhigh : (va.extractLsb' 58 6 == 0) = false := by
    rw [beq_eq_false_iff_ne]
    intro he
    have hnat := congrArg BitVec.toNat he
    rw [BitVec.extractLsb'_toNat, Nat.shiftRight_eq_div_pow] at hnat
    have hz : (0 : BitVec 6).toNat = 0 := rfl
    omega
  unfold State.access
  simp only [hsc, hhigh]
  rfl

/-- An address that is no multiple of the size is refused after that. -/
theorem State.access_unaligned (hsc : s.scopeOk (s.cell n).ident.vf sc = true) (hlow : va.toNat < 2 ^ 58) (h : va.toNat % size ≠ 0) :
    s.access n k size va sc = .trap .align va := by
  have hzero : (va.extractLsb' 58 6 == 0) = true := by
    rw [beq_iff_eq]
    apply BitVec.eq_of_toNat_eq
    rw [BitVec.extractLsb'_toNat, Nat.shiftRight_eq_div_pow, Nat.div_eq_of_lt hlow]
    rfl
  have halign : (va.toNat % size == 0) = false := beq_eq_false_iff_ne.2 h
  unfold State.access
  simp only [hsc, hzero, halign]
  rfl

/-! ### The end of an operation -/

theorem State.settle_running (h : s.cur.run ≠ .idle) (f : Cell → Cell) : s.settle f = s.onCur f := if_neg h

/-- An operation ends with a result in a register. -/
theorem State.settle_writes (h : s.cur.run ≠ .idle) (d : Reg) (v : Word) :
    Writes s (s.settle fun c => (c.setReg d v).retire false) d v s.nextPc := by
  rw [State.settle_running h]
  exact Writes.of_setReg s d v

/-- With no store buffered there is nothing to drain. -/
theorem State.drain_of_empty (h : (s.cell n).seq.wb = []) : s.drain n = s := by
  unfold State.drain
  rw [h]
  rfl

theorem State.drain_of_quiet (h : s.quiet) : s.drain s.focus.cell = s := State.drain_of_empty h.empty

/-- An acquire leaves memory, and of the cells the L1 of its own. -/
theorem State.acquire_l1 {c : Scope} (h : c ≠ .cell) : ((s.acquire n c).cell n).l1 = [] := by
  cases c with
  | cell => exact absurd rfl h
  | part => exact congrArg Cell.l1 (State.cell_setCell_self _ _ _)
  | dev => exact congrArg Cell.l1 (State.cell_setCell_self _ _ _)
  | pod => exact congrArg Cell.l1 (State.cell_setCell_self _ _ _)

/-! ### A touch of a ready line (R137, R138) -/

/-- A touch of a ready line for a cell changes tags and the flows' counters, and leaves the line ready. -/
theorem State.touch_keepsReady {cls : PageClass} {pa : Nat} (h : s.lineReady pa) (hm : paModule pa = s.pod.self) (w sp : Bool) :
    ∃ L F, s.touch n cls pa w sp = s.touched L F s.mem ∧ (s.touched L F s.mem).lineReady pa := by
  obtain ⟨F, hF⟩ := s.countAccess_eq (cellPort n) pa
  obtain ⟨L, hL, hr⟩ := State.touchLine_ready (s := { s with flows := F }) h (partOfCell n) (s.cell n).ident.ctx
    (s.cell n).ident.world cls w sp
  refine ⟨L, F, ?_, hr⟩
  unfold State.touch State.touchFor
  dsimp only
  rw [hF, if_neg (not_not.2 hm), show ({ s with flows := F } : State).opdTagged pa = false from h.2.1, Bool.and_false,
    if_neg Bool.false_ne_true, State.portDown_of_ready { s with flows := F } pa h, if_neg Bool.false_ne_true, hL]
  dsimp only
  rw [State.misses_of_ready h, Bool.and_false, Bool.false_and, if_neg Bool.false_ne_true]
  rfl

/-- With no line in a slice's buffer the end of an operation moves none. -/
theorem State.endUncached_of_ways (h : ∀ e ∈ s.lines, e.2.way ≠ bufferWay) : s.endUncached = s := by
  have hnone : (s.lines.filter fun e => e.2.way == bufferWay) = [] := List.filter_eq_nil_iff.2 fun e he => by simpa using h e he
  unfold State.endUncached
  rw [hnone]
  rfl

end

/-! ### The bytes of a value (R3) -/

theorem getD_leBytes_eq_extract (v : Word) {n i : Nat} (h : i < n) : (leBytes n v.toNat).getD i 0 = v.extractLsb' (8 * i) 8 := by
  have hget : (leBytes n v.toNat).getD i 0 = BitVec.ofNat 8 (v.toNat / 256 ^ i) := by
    simp [leBytes_eq_tabulate, tabulate, h]
  rw [hget]
  apply BitVec.eq_of_toNat_eq
  rw [BitVec.extractLsb'_toNat, BitVec.toNat_ofNat, Nat.shiftRight_eq_div_pow, pow_mul]
  rfl

/-- The entries of a store, byte by byte. -/
theorem mapIdx_leBytes (pa n : Nat) (v : Word) : ((leBytes n v.toNat).mapIdx fun i b => (pa + i, b))
    = (List.range n).map fun i => (pa + i, v.extractLsb' (8 * i) 8) := by
  apply List.ext_getElem
  · simp
  · intro i h _
    have hi : i < n := by simpa using h
    have hbyte := getD_leBytes_eq_extract v hi
    rw [List.getD_eq_getElem _ _ (by simpa using hi)] at hbyte
    simp [hbyte]

end Sys2Proof.Machine
end

