-- ==== Sys2Proof/Proofs/SequencerMemory.lean ====
section
/-! Loads, stores and scratch, ordered accesses and fences of the sequencer (R336 to R343). -/

namespace Sys2Proof.Machine

section
variable {s : State} {d a b : Reg} {o : BitVec 16} {l : Loc} {size : Nat} {sgn : Bool} {i : Instr} {c : Scope} {dbl : Bool}

/-! ### Loads (R336, R337) -/

/-- A load that passes writes what the read gives, in the state that the read leaves. -/
theorem load_gives {ext : Nat → Word} (hi : exec i s = loadOp s false d a o size sgn) (hext : ext = extend size sgn)
    (hp : Passes s .load size (s.cur.addr a o) none l) (hrun : (s.readLoc s.focus.cell l size).1.cur.run ≠ .idle) :
    Completes i s fun t => Writes (s.readLoc s.focus.cell l size).1 t d (ext (s.readLoc s.focus.cell l size).2)
      (s.readLoc s.focus.cell l size).1.nextPc := by
  refine .of_exec hi ⟨_, ?_, State.settle_writes hrun d _⟩
  unfold loadOp
  rw [State.withChk_ok hp.checks, State.withReply_near hp.near, hext]

theorem extend_double : extend 8 true = BitVec.ofNat 64 := funext fun _ => BitVec.signExtend_eq _

theorem load_refuses (hi : exec i s = loadOp s false d a o size sgn) (hready : s.handlerReady) :
    (2 ^ 58 ≤ (s.cur.addr a o).toNat → Completes i s fun t => Traps s t .perm (s.cur.addr a o) s.word)
      ∧ ((s.cur.addr a o).toNat < 2 ^ 58 → (s.cur.addr a o).toNat % size ≠ 0 →
          Completes i s fun t => Traps s t .align (s.cur.addr a o) s.word) :=
  ⟨fun h => .of_exec (hi.trans (State.withChk_trap (State.access_high rfl h))) (trapNow_traps s false .perm _ hready),
    fun hlow h => .of_exec (hi.trans (State.withChk_trap (State.access_unaligned rfl hlow h))) (trapNow_traps s false .align _ hready)⟩

/-! ### Stores (R336, R338) -/

theorem storeEntry_norm (hl : l.cls = .norm) (size : Nat) (v : Word) (c : Scope) : storeEntry l size v c
    = .bytes ((List.range size).map fun i => (l.pa + i, v.extractLsb' (8 * i) 8)) c := by
  unfold storeEntry
  rw [hl, ← mapIdx_leBytes]

/-- A store that passes stands behind every earlier one, and has retired. -/
theorem store_enters (hi : exec i s = storeOp s false d a o size) (hp : Passes s .store size (s.cur.addr a o) none l)
    (hl : l.cls = .norm) (hroom : s.cur.seq.wb.length < 16) (hrun : s.cur.run ≠ .idle) :
    exec i s = .next (s.onCur fun c => c.withSeq fun q => { q with
      wb := q.wb ++ [.bytes ((List.range size).map fun i => (l.pa + i, (s.cur.reg d).extractLsb' (8 * i) 8)) .cell], pc := q.pc + 4 }) := by
  have hfree : ¬ (s.cell s.focus.cell).seq.wb.length ≥ 16 := Nat.not_le.2 hroom
  have hbuffer (e : WbEntry) : s.buffer s.focus.cell e = s.onCur fun c => c.withSeq fun q => { q with wb := q.wb ++ [e] } := by
    unfold State.buffer
    rw [if_neg hfree]
    rfl
  rw [hi]
  unfold storeOp
  rw [State.withChk_ok hp.checks, storeEntry_norm hl, hbuffer, State.settle_running]
  · simp only [State.onCur_eq, State.setCell_focus, State.cur_setCell_focus, State.setCell_setCell]
    rfl
  · rw [State.onCur_eq, State.cur_setCell_focus]
    exact hrun

theorem store_refuses (hi : exec i s = storeOp s false d a o size) (hready : s.handlerReady) :
    (2 ^ 58 ≤ (s.cur.addr a o).toNat → Completes i s fun t => Traps s t .perm (s.cur.addr a o) s.word)
      ∧ ((s.cur.addr a o).toNat < 2 ^ 58 → (s.cur.addr a o).toNat % size ≠ 0 →
          Completes i s fun t => Traps s t .align (s.cur.addr a o) s.word) :=
  ⟨fun h => .of_exec (hi.trans (State.withChk_trap (State.access_high rfl h))) (trapNow_traps s false .perm _ hready),
    fun hlow h => .of_exec (hi.trans (State.withChk_trap (State.access_unaligned rfl hlow h))) (trapNow_traps s false .align _ hready)⟩

/-! ### The oldest store performs (R341) -/

/-- What a cell's stores change beside memory: its own L1. -/
structure State.OnlyL1 (s t : State) (n : Nat) : Prop where
  cell    : t.cell n = { s.cell n with l1 := (t.cell n).l1 }
  others  : ∀ m, m ≠ n → t.cell m = s.cell m
  hostMem : t.hostMem = s.hostMem
  lines   : t.lines = s.lines

theorem State.OnlyL1.refl (s : State) (n : Nat) : s.OnlyL1 s n := ⟨rfl, fun _ _ => rfl, rfl, rfl⟩

theorem Cell.l1Update_frame (x : Cell) (pa : Nat) (v : Byte) : x.l1Update pa v = { x with l1 := (x.l1Update pa v).l1 } := by
  unfold Cell.l1Update
  split <;> rfl

/-- One byte of a store. -/
theorem State.OnlyL1.writeByte {n : Nat} {u : State} (h : s.OnlyL1 u n) (pa : Nat) (v : Byte) : s.OnlyL1 (u.writeCells n [(pa, v)]) n := by
  unfold State.writeCells
  simp only [List.foldl_cons, List.foldl_nil]
  split
  · exact ⟨h.cell, h.others, h.hostMem, h.lines⟩
  · refine ⟨?_, fun m hm => (State.cell_setCell_of_ne _ _ hm).trans (h.others m hm), h.hostMem, h.lines⟩
    rw [State.onCell_eq, State.cell_setCell_self, Cell.l1Update_frame]
    exact congrArg (fun x : Cell => { x with l1 := ((u.cell n).l1Update pa v).l1 }) h.cell

theorem State.writeCells_cons (u : State) (n : Nat) (e : Nat × Byte) (r : List (Nat × Byte)) :
    u.writeCells n (e :: r) = (u.writeCells n [e]).writeCells n r := rfl

theorem State.OnlyL1.writeCells {n : Nat} (r : List (Nat × Byte)) {u : State} (h : s.OnlyL1 u n) : s.OnlyL1 (u.writeCells n r) n := by
  induction r generalizing u with
  | nil => exact h
  | cons e r ih =>
    rw [State.writeCells_cons]
    exact ih (h.writeByte e.1 e.2)

theorem State.mem_writeCells (bytes : List Byte) (u : State) (n pa : Nat) :
    (u.writeCells n (bytes.mapIdx fun i v => (pa + i, v))).mem = writeMem u.mem pa bytes := by
  induction bytes generalizing u pa with
  | nil => rfl
  | cons v r ih =>
    have hone : (u.writeCells n [(pa, v)]).mem = Map.set 0 u.mem pa v := by
      unfold State.writeCells
      simp only [List.foldl_cons, List.foldl_nil]
      split <;> rfl
    have hrest : (fun i v => (pa + (i + 1), v) : Nat → Byte → Nat × Byte) = fun i v => (pa + 1 + i, v) := by
      funext i v
      rw [Nat.add_assoc, Nat.add_comm 1]
    rw [List.mapIdx_cons, State.writeCells_cons, hrest, ih, Nat.add_zero, hone]
    rfl

section
variable {n pa : Nat} {bytes : List Byte} {cells : List (Nat × Byte)}

/-- The bytes of a store that lie in one line touch that line alone. -/
theorem dedup_lines {line : Nat} (hne : cells ≠ []) (h : ∀ e ∈ cells, e.1 / 64 = line) :
    (cells.map fun e => e.1 / 64).dedup = [line] := by
  have hsame : (cells.map fun e => e.1 / 64) = List.replicate cells.length line :=
    List.eq_replicate_iff.2 ⟨by simp, fun x hx => by
      obtain ⟨e, he, rfl⟩ := List.mem_map.1 hx
      exact h e he⟩
  rw [hsame, List.replicate_dedup (by simpa using hne)]

/-- A store of one ready line of this module performs by a touch of the line and its bytes. -/
theorem State.performWb_oneLine (hne : cells ≠ []) (h : ∀ e ∈ cells, e.1 / 64 = pa / 64) (hm : ∀ e ∈ cells, paModule e.1 = s.pod.self) :
    s.performWb n (.bytes cells c) = ((s.touch n .norm (64 * (pa / 64)) true false).writeCells n cells).endUncached := by
  have hmine : (cells.filter fun e => e.1 / 64 == pa / 64) = cells := List.filter_eq_self.2 fun e he => by simpa using h e he
  have hhead : paModule (cells.headD (0, 0)).1 = s.pod.self := by
    cases cells with
    | nil => exact absurd rfl hne
    | cons e r => exact hm e List.mem_cons_self
  unfold State.performWb
  dsimp only
  rw [dedup_lines hne h, List.foldl_cons, List.foldl_nil, hmine, State.postRemote, if_pos hhead]

theorem mem_storeBytes {e : Nat × Byte} (he : e ∈ bytes.mapIdx fun i v => (pa + i, v)) : pa ≤ e.1 ∧ e.1 < pa + bytes.length := by
  obtain ⟨i, hi, rfl⟩ := List.mem_mapIdx.1 he
  dsimp only
  omega

/-- A store within one ready line writes its bytes, and of its cell the L1 alone may change. -/
theorem State.performWb_bytes (hpos : 0 < bytes.length) (hline : pa % 64 + bytes.length ≤ 64) (hready : s.lineReady pa)
    (hm : paModule pa = s.pod.self) :
    let t := s.performWb n (.bytes (bytes.mapIdx fun i v => (pa + i, v)) c)
    t.mem = writeMem s.mem pa bytes ∧ t.hostMem = s.hostMem ∧ t.cell n = { s.cell n with l1 := (t.cell n).l1 }
      ∧ ∀ m, m ≠ n → t.cell m = s.cell m := by
  have hne : (bytes.mapIdx fun i v => (pa + i, v)) ≠ [] := by simpa [← List.length_pos_iff] using hpos
  have hstart : 64 * (pa / 64) / 64 = pa / 64 := by omega
  have hmod (x : Nat) (hx : pa / 64 * 64 ≤ x ∧ x < pa + bytes.length) : paModule x = s.pod.self := by
    rw [← hm]
    unfold paModule
    omega
  obtain ⟨L, F, htouch, hends⟩ := State.touch_keepsReady (n := n) (cls := .norm) (State.lineReady_of_sameLine hready hstart)
    (hmod _ (by omega)) true false
  obtain ⟨hcell, hothers, hhost, hlines⟩ := (State.OnlyL1.refl (s.touched L F s.mem) n).writeCells (bytes.mapIdx fun i v => (pa + i, v))
  have hstays : ((s.touched L F s.mem).writeCells n (bytes.mapIdx fun i v => (pa + i, v))).endUncached
      = (s.touched L F s.mem).writeCells n (bytes.mapIdx fun i v => (pa + i, v)) :=
    State.endUncached_of_ways fun e he => hends.2.2 e (hlines ▸ he)
  have hperform : s.performWb n (.bytes (bytes.mapIdx fun i v => (pa + i, v)) c)
      = (s.touched L F s.mem).writeCells n (bytes.mapIdx fun i v => (pa + i, v)) := by
    rw [State.performWb_oneLine (pa := pa) hne (fun e he => by have := mem_storeBytes he; omega)
      (fun e he => hmod _ (by have := mem_storeBytes he; omega)), htouch, hstays]
  rw [hperform]
  exact ⟨State.mem_writeCells _ _ _ _, hhost, hcell, hothers⟩

/-- The oldest store of a cell performs: its bytes are written, and the entry leaves the buffer. -/
theorem State.performOldest_bytes {rest : List WbEntry} (hwb : (s.cell n).seq.wb = .bytes (bytes.mapIdx fun i v => (pa + i, v)) c :: rest)
    (hpos : 0 < bytes.length) (hline : pa % 64 + bytes.length ≤ 64) (hready : s.lineReady pa) (hm : paModule pa = s.pod.self) :
    let t := s.performOldest n
    t.mem = writeMem s.mem pa bytes ∧ t.hostMem = s.hostMem ∧ (t.cell n).seq = { (s.cell n).seq with wb := rest }
      ∧ ∀ m, m ≠ n → t.cell m = s.cell m := by
  obtain ⟨hmem, hhost, hcell, hothers⟩ := State.performWb_bytes (n := n) (c := c) (s := s.onCell n fun x => x.withSeq fun q => { q with wb := rest })
    hpos hline hready hm
  dsimp only
  unfold State.performOldest
  rw [hwb]
  refine ⟨hmem, hhost, (congrArg Cell.seq hcell).trans ?_, fun m hne => (hothers m hne).trans (s.cell_setCell_of_ne _ hne)⟩
  exact congrArg Cell.seq (s.cell_setCell_self n _)

theorem writeBufferPerform_runs (hrun : (s.cell n).run = .running ∨ (s.cell n).run = .halted) :
    exec (.writeBufferPerform n) s = .next (s.performOldest n) := by
  rw [exec_writeBufferPerform]
  unfold execWriteBufferPerform
  rcases hrun with h | h <;> rw [h]

end

end

/-! ### Scratch (R339) -/

section
variable {s : State} {d a b : Reg} {o : BitVec 16} {l : Loc} {c : Scope} {dbl : Bool}

theorem scratchChk_high {sa : Word} (h : 0x100000 ≤ sa.toNat) : scratchChk sa = .trap .perm sa := if_pos h

theorem scratchChk_unaligned {sa : Word} (hlow : sa.toNat < 0x100000) (h : sa.toNat % 8 ≠ 0) : scratchChk sa = .trap .align sa := by
  rw [scratchChk, if_neg (Nat.not_le.2 hlow), if_pos h]

theorem scratchChk_ok {sa : Word} (hlow : sa.toNat < 0x100000) (h : sa.toNat % 8 = 0) : scratchChk sa = .ok sa.toNat := by
  rw [scratchChk, if_neg (Nat.not_le.2 hlow), if_neg (not_not.2 h)]

/-- `LDS` and `STS` take a trap of their address. -/
theorem scratch_refuses {cause : Cause} (hready : s.handlerReady) (h : scratchChk (s.cur.addr a o) = .trap cause (s.cur.addr a o)) :
    (Completes (.lds d a o) s fun t => Traps s t cause (s.cur.addr a o) s.word)
      ∧ Completes (.sts d a o) s fun t => Traps s t cause (s.cur.addr a o) s.word :=
  ⟨.of_exec ((exec_lds s d a o).trans (State.withChk_trap h)) (trapNow_traps s false cause _ hready),
    .of_exec ((exec_sts s d a o).trans (State.withChk_trap h)) (trapNow_traps s false cause _ hready)⟩

theorem lds_reads (h : scratchChk (s.cur.addr a o) = .ok (s.cur.addr a o).toNat) :
    Completes (.lds d a o) s fun t => Writes s t d (BitVec.ofNat 64 (leNat (s.cur.scratchRead (s.cur.addr a o).toNat 8))) s.nextPc :=
  .of_exec ((exec_lds s d a o).trans (State.withChk_ok h)) ⟨_, rfl, Writes.of_setReg s d _⟩

theorem sts_writes (h : scratchChk (s.cur.addr a o) = .ok (s.cur.addr a o).toNat) : Completes (.sts d a o) s fun t =>
    OnlyCur s t ∧ t.cur = { s.cur with scratch := t.cur.scratch, seq := { s.cur.seq with pc := s.nextPc } }
    ∧ ∀ x, Map.get 0 t.cur.scratch x = if (s.cur.addr a o).toNat ≤ x ∧ x < (s.cur.addr a o).toNat + 8
        then (s.cur.reg d).extractLsb' (8 * (x - (s.cur.addr a o).toNat)) 8 else Map.get 0 s.cur.scratch x := by
  refine .of_exec ((exec_sts s d a o).trans (State.withChk_ok h)) ⟨_, rfl, OnlyCur.setCur s _, ?_, fun x => ?_⟩ <;>
    rw [State.onCur_eq, State.cur_setCell_focus]
  · rfl
  · refine (Map.get_setList 0 (leBytes 8 (s.cur.reg d).toNat) s.cur.scratch _ x).trans ?_
    rw [length_leBytes]
    split
    · next h => exact getD_leBytes_eq_extract _ (by omega)
    · rfl

/-! ### Ordered accesses (R342) -/

/-- The state that `LDAQ` ends in, and what it has read. -/
def State.readAcquired (s : State) (c : Scope) (l : Loc) (size : Nat) : State × Nat := (s.acquire s.focus.cell c).readLoc s.focus.cell l size

theorem ldaq_gives (hp : Passes s .load (sizeOf dbl) (s.cur.reg a) (some c) l)
    (hrun : ((s.readAcquired c l (sizeOf dbl)).1.acquire s.focus.cell c).cur.run ≠ .idle) :
    Completes (.ldaq d a c dbl) s fun t =>
      Writes ((s.readAcquired c l (sizeOf dbl)).1.acquire s.focus.cell c) t d (extend (sizeOf dbl) true (s.readAcquired c l (sizeOf dbl)).2)
        ((s.readAcquired c l (sizeOf dbl)).1.acquire s.focus.cell c).nextPc := by
  refine .of_exec (exec_ldaq s d a c dbl) ⟨_, ?_, State.settle_writes hrun d _⟩
  unfold execLdaq
  rw [State.withChk_ok hp.checks, State.withReply_near hp.near]
  rfl

theorem extend_sizeOf (v : Nat) : extend (sizeOf dbl) true v = if dbl then BitVec.ofNat 64 v else (BitVec.ofNat 32 v).signExtend 64 := by
  cases dbl with
  | false => rfl
  | true => exact congrFun extend_double v

/-- After the acquire nothing of the cell hides memory. -/
theorem State.readAcquired_memory {size : Nat} (hpos : 0 < size) (hc : c ≠ .cell) (hl : l.cls = .norm) (hwb : s.cur.seq.wb = [])
    (hready : s.lineReady l.pa) (hm : paModule l.pa = s.pod.self) :
    (s.readAcquired c l size).2 = leNat (readBytes s.mem l.pa size) := by
  have hacq : s.acquire s.focus.cell c = s.setCell s.focus.cell { s.cur with l1 := [] } := by rw [State.acquire_focus, if_neg hc]
  have hcur : (s.acquire s.focus.cell c).cur = { s.cur with l1 := [] } := by rw [hacq, State.cur_setCell_focus]
  have hfree (i : Nat) (_ : i < size) : wbByte (s.acquire s.focus.cell c).cur.seq.wb (l.pa + i) = none := by
    rw [hcur, show ({ s.cur with l1 := [] } : Cell).seq.wb = [] from hwb]
    rfl
  have hread := State.readNorm_missed_effect (s := s.acquire s.focus.cell c) hpos hfree (by rw [hcur]; rfl) (by rw [hacq]; exact hready)
    (by rw [hacq]; exact hm)
  have hfocus : (s.acquire s.focus.cell c).focus = s.focus := by rw [hacq, State.setCell_focus]
  obtain ⟨hval, -⟩ := hread
  unfold State.readAcquired
  rw [State.readLoc_eq_readNorm (.inl hl)]
  rw [hfocus] at hval
  rw [hval, hacq, State.setCell_mem]

/-- With no earlier store `STRL` enters the buffer alone, and retires. -/
theorem strl_enters (hp : Passes s .store (sizeOf dbl) (s.cur.reg a) (some c) l) (hl : l.cls = .norm) (hq : s.quiet) :
    exec (.strl a b c dbl) s = .next (s.onCur fun x => x.withSeq fun q => { q with
      wb := [.bytes ((List.range (sizeOf dbl)).map fun i => (l.pa + i, (s.cur.reg b).extractLsb' (8 * i) 8)) c], pc := q.pc + 4 }) := by
  have hwb : (s.cell s.focus.cell).seq.wb = [] := hq.empty
  have hbuffer (e : WbEntry) : s.buffer s.focus.cell e = s.onCur fun c => c.withSeq fun q => { q with wb := [e] } := by
    unfold State.buffer
    dsimp only
    rw [hwb, if_neg (by decide), State.onCell_eq]
    simp only [Cell.withSeq, hwb, List.nil_append]
    rfl
  rw [exec_strl]
  unfold execStrl
  rw [State.withChk_ok hp.checks, storeEntry_norm hl, State.drain_of_quiet hq, hbuffer, State.settle_running]
  · simp only [State.onCur_eq, State.setCell_focus, State.cur_setCell_focus, State.setCell_setCell]
    rfl
  · rw [State.onCur_eq, State.cur_setCell_focus]
    exact hq.runs

/-! ### Fences (R172, R343, R391) -/

/-- The scope policy of R172 in the words of its policy bits. -/
theorem State.scopeOk_some (s : State) (c : Scope) : s.scopeOk s.cur.ident.vf (some c) = match c with
    | .cell | .part => true
    | .dev => s.policy.scopeWord.getLsbD (s.cur.ident.vf - 1)
    | .pod => s.policy.scopeWord.getLsbD (16 + s.cur.ident.vf - 1) := by
  cases c <;> rfl

/-- What the order of a fence leaves, before it retires. -/
def State.fenced (s : State) (k : FenceKind) (c : Scope) : State :=
  match k with
  | .acquire => s.acquire s.focus.cell c
  | .release => s.drain s.focus.cell
  | .full => (s.drain s.focus.cell).acquire s.focus.cell c

theorem fence_retires {k : FenceKind} (hscope : s.scopeOk s.cur.ident.vf (some c) = true) (hwait : s.cur.fenceWaits k c = false)
    (hrun : (s.fenced k c).cur.run ≠ .idle) : exec (.fence k c) s = .next ((s.fenced k c).onCur fun x => x.retire false) := by
  rw [exec_fence]
  unfold execFence
  dsimp only
  rw [hscope, if_neg nofun, hwait, if_neg nofun, ← State.settle_running hrun]
  rfl

theorem fence_waits {k : FenceKind} (hscope : s.scopeOk s.cur.ident.vf (some c) = true) (hwait : s.cur.fenceWaits k c = true) :
    exec (.fence k c) s = .next s := by
  rw [exec_fence]
  unfold execFence
  dsimp only
  rw [hscope, if_neg nofun, hwait, if_pos rfl]

theorem fence_refused {k : FenceKind} (hscope : s.scopeOk s.cur.ident.vf (some c) = false) (hready : s.handlerReady) :
    Completes (.fence k c) s fun t => Traps s t .scope 0 s.word := by
  refine .of_exec ((exec_fence s k c).trans ?_) (trapNow_traps s false .scope 0 hready)
  unfold execFence
  dsimp only
  rw [hscope, Bool.not_false, if_pos rfl]

/-- An acquire or full fence waits for a bank command of CELL scope, whatever its own. -/
theorem Cell.fenceWaits_of_cell {k : FenceKind} (hk : k ≠ .release) (x : Cell) (h : (x.bank.any fun b => b.scope == .cell) = true) :
    x.fenceWaits k c = true := by
  obtain ⟨b, hb, hcell⟩ := List.any_eq_true.1 h
  have hwide : decide (scopeRank b.scope ≤ scopeRank c) = true := by
    rw [beq_iff_eq.1 hcell]
    exact decide_eq_true (Nat.zero_le _)
  unfold Cell.fenceWaits
  rw [bne_iff_ne.2 hk, Bool.true_and]
  exact List.any_eq_true.2 ⟨b, hb, hwide⟩

theorem Cell.fenceWaits_of_idle {k : FenceKind} {x : Cell} (h : x.bank = []) : x.fenceWaits k c = false := by
  unfold Cell.fenceWaits
  rw [h]
  exact Bool.and_false _

end

/-- Settles O5: `load_gives` for each size and extension. -/
theorem loadsWriteWhatTheyRead : Obligations.LoadsWriteWhatTheyRead := by
  unfold Obligations.LoadsWriteWhatTheyRead
  intro s d a o l
  exact ⟨load_gives (exec_ldb s d a o) rfl, load_gives (exec_ldh s d a o) rfl, load_gives (exec_ldw s d a o) rfl,
    load_gives (exec_ldd s d a o) extend_double.symm, load_gives (exec_ldbn s d a o) rfl, load_gives (exec_ldhn s d a o) rfl,
    load_gives (exec_ldwn s d a o) rfl⟩

/-- Settles O7: `store_enters` for each size, and the oldest entry by `State.performOldest_bytes`. -/
theorem storesAreBufferedAndPerform : Obligations.StoresAreBufferedAndPerform := by
  unfold Obligations.StoresAreBufferedAndPerform
  refine ⟨fun s d a o l => ?_, fun s n pa bytes sc rest => ?_⟩
  · exact ⟨store_enters (exec_stb s d a o), store_enters (exec_sth s d a o), store_enters (exec_stw s d a o),
      store_enters (exec_std s d a o)⟩
  · intro cells hrun hwb hpos hline hready hm
    obtain ⟨hmem, hhost, hseq, hothers⟩ := State.performOldest_bytes hwb hpos hline hready hm
    refine .of_exec (writeBufferPerform_runs hrun) ⟨_, rfl, fun x => ?_, fun x => ?_, hseq, hothers⟩
    · rw [hmem, readMem_writeMem]
    · rw [hhost]

/-- Settles O8: the first two checks of `State.access`. -/
theorem badAddressesTrapInOrder : Obligations.BadAddressesTrapInOrder := by
  unfold Obligations.BadAddressesTrapInOrder
  intro s d a o hready
  exact ⟨load_refuses (exec_ldb s d a o) hready, load_refuses (exec_ldh s d a o) hready, load_refuses (exec_ldw s d a o) hready,
    load_refuses (exec_ldd s d a o) hready, load_refuses (exec_ldbn s d a o) hready, load_refuses (exec_ldhn s d a o) hready,
    load_refuses (exec_ldwn s d a o) hready, store_refuses (exec_stb s d a o) hready, store_refuses (exec_sth s d a o) hready,
    store_refuses (exec_stw s d a o) hready, store_refuses (exec_std s d a o) hready⟩

/-- Settles O9: the checks of `scratchChk`, and the eight bytes by `lds_reads` and `sts_writes`. -/
theorem scratchLoadsAndStores : Obligations.ScratchLoadsAndStores := by
  unfold Obligations.ScratchLoadsAndStores
  intro s d a o
  exact ⟨fun h hready => scratch_refuses hready (scratchChk_high h),
    fun hlow h hready => scratch_refuses hready (scratchChk_unaligned hlow h),
    fun hlow h => ⟨lds_reads (scratchChk_ok hlow h), sts_writes (scratchChk_ok hlow h)⟩⟩

/-- Settles O10: `ldaq_gives`, whose value is memory's by `State.readAcquired_memory`, and `strl_enters`. -/
theorem acquireLoadsAndReleaseStores : Obligations.AcquireLoadsAndReleaseStores := by
  unfold Obligations.AcquireLoadsAndReleaseStores
  intro s d a b c dbl l n va size r u v
  have hsize : 0 < size := by cases dbl <;> decide
  refine ⟨fun hp hrun => ?_, fun hc => State.acquire_l1 hc, fun hc hl hwb hready hm => State.readAcquired_memory hsize hc hl hwb hready hm,
    strl_enters⟩
  have hvalue := extend_sizeOf (dbl := dbl) r.2
  rw [← hvalue]
  exact ldaq_gives hp hrun

/-- Settles O11: a fence retires past what its order leaves, waits, or traps. -/
theorem fencesOrderAndRetire : Obligations.FencesOrderAndRetire := by
  unfold Obligations.FencesOrderAndRetire
  intro s c allowed acquired
  have hallowed : s.scopeOk s.cur.ident.vf (some c) = allowed := s.scopeOk_some c
  have hacquired : s.acquire s.focus.cell c = acquired := s.acquire_focus c
  refine ⟨fun hok hq hbank => ?_, fun hok hbank => ?_, fun hno hready k => ?_⟩
  · have hrun : acquired.cur.run ≠ .idle := by
      rw [← hacquired, State.acquire_focus]
      split
      · exact hq.runs
      · rw [State.cur_setCell_focus]
        exact hq.runs
    have hacquire : s.fenced .acquire c = acquired := hacquired
    have hfull : s.fenced .full c = acquired := by
      rw [← hacquired, State.fenced, State.drain_of_quiet hq]
    refine ⟨?_, ?_, ?_⟩
    · rw [fence_retires (hallowed.trans hok) (Cell.fenceWaits_of_idle hbank) (hacquire ▸ hrun), hacquire]
      rfl
    · rw [fence_retires (hallowed.trans hok) (Cell.fenceWaits_of_idle hbank) (by rw [State.fenced, State.drain_of_quiet hq]; exact hq.runs),
        State.fenced, State.drain_of_quiet hq]
      rfl
    · rw [fence_retires (hallowed.trans hok) (Cell.fenceWaits_of_idle hbank) (hfull ▸ hrun), hfull]
      rfl
  · exact ⟨fence_waits (hallowed.trans hok) (Cell.fenceWaits_of_cell (by decide) _ hbank),
      fence_waits (hallowed.trans hok) (Cell.fenceWaits_of_cell (by decide) _ hbank)⟩
  · exact fence_refused (hallowed.trans hno) hready

end Sys2Proof.Machine
end

