-- ==== Sys2Proof/Proofs/Atomics.lean ====
section
/-! Atomics and full-empty words: the change at the bank, the register that takes the old value, and what a fill leaves alone
(R139 to R141, R344 to R347). -/

namespace Sys2Proof.Machine

/-- A cell with another L1. -/
def Cell.withL1 (x : Cell) (L : Map (List Byte)) : Cell := { x with l1 := L }

section
variable {s u : State} {d a b : Reg} {c : Scope} {l : Loc} {dbl sgn : Bool} {ord : Order} {pa size op : Nat} {i : Instr}

/-! ### The change at the bank (R139, R344) -/

/-- A change at the bank writes the new value over the old one, which it returns, and the cell's L1 gives up the line. -/
theorem State.bankRmw_ready {n : Nat} {writes : Nat → Bool} {f : Nat → Nat} (h : s.lineReady pa) (hm : paModule pa = s.pod.self) :
    ∃ L F, s.bankRmw n pa size writes f
      = ((s.touched L F (writeMem s.mem pa (leBytes size (f (leNat (readBytes s.mem pa size)))))).setCell n
          ((s.cell n).withL1 (Map.erase (s.cell n).l1 (pa / 64))), leNat (readBytes s.mem pa size)) := by
  obtain ⟨L, F, htouch, hends⟩ := State.touch_keepsReady (n := n) (cls := .norm) h hm (writes (s.load pa size)) false
  refine ⟨L, F, ?_⟩
  unfold State.bankRmw
  dsimp only
  rw [htouch, State.endUncached_of_ways (s := (s.touched L F s.mem).store pa _) hends.2.2]
  rfl

/-- An access of ready lines touches tags, counters and memory alone. -/
theorem OnlyAccess.touched (s : State) (L : Map LineTag) (F : Map Nat) (M : List Host.Cell) : OnlyAccess s (s.touched L F M) :=
  ⟨rfl, fun _ _ => rfl, rfl, rfl, rfl, rfl, rfl⟩

/-! ### The end of an access -/

theorem State.acquireIf_settle (h : s.cur.run ≠ .idle) (p : Bool) (sc : Scope) (f : Cell → Cell) :
    (if p then s.acquire s.focus.cell sc else s).settle f
      = s.setCur (f (s.cur.withL1 (if p = true ∧ sc ≠ .cell then [] else s.cur.l1))) := by
  have hrun : (if p then s.acquire s.focus.cell sc else s).cur.run ≠ .idle := by
    rw [State.acquire_focus]
    by_cases hsc : sc = .cell
    · simpa [hsc] using h
    · cases p
      · simpa using h
      · simpa [hsc] using h
  rw [State.settle_running hrun, State.acquireIf_onCur]
  rfl

/-- The same where the cell in focus has just been changed. -/
theorem State.acquireIf_settle_setCell (s : State) {x : Cell} (h : x.run ≠ .idle) (p : Bool) (sc : Scope) (f : Cell → Cell) :
    (if p then (s.setCell s.focus.cell x).acquire s.focus.cell sc else s.setCell s.focus.cell x).settle f
      = s.setCur (f (x.withL1 (if p = true ∧ sc ≠ .cell then [] else x.l1))) := by
  have hcur : (s.setCell s.focus.cell x).cur = x := State.cur_setCell_focus s x
  have hsettle := State.acquireIf_settle (s := s.setCell s.focus.cell x) (by rw [hcur]; exact h) p sc f
  rw [hcur, State.setCur_eq, State.setCell_focus, State.setCell_setCell] at hsettle
  exact hsettle

/-- The cell in focus ends an access with a result in a register and some L1. -/
theorem OnlyAccess.retires (h : OnlyAccess s u) {x : Cell} {L : Map (List Byte)} (hx : x = s.cur.withL1 L) (v : Word) :
    let t := u.setCur ((x.setReg d v).retire false)
    RegWrite s.cur t.cur d v ∧ t.cur.seq.pc = s.nextPc ∧ OnlyRegs s.cur.seq t.cur.seq ∧ OnlyAccess s t ∧ t.cur.l1 = L := by
  subst hx
  have hframe := Cell.setReg_frame (s.cur.withL1 L) d v
  obtain ⟨hregs, hshadows⟩ := RegWrite.setReg (s.cur.withL1 L) d v false
  have hcur : (u.setCur (((s.cur.withL1 L).setReg d v).retire false)).cur
      = ((s.cur.withL1 L).setReg d v).retire false := by
    rw [State.setCur_eq, State.cur_setCell_focus]
  dsimp only
  rw [hcur]
  refine ⟨⟨hregs, hshadows⟩, by simp [State.nextPc, instrBytes, Cell.withL1], ?_, ⟨h.focus, fun n hn => ?_, ?_, h.worlds⟩, ?_⟩
  · rw [hframe]
    rfl
  · rw [State.setCur_eq, h.focus]
    exact (State.cell_setCell_of_ne _ _ hn).trans (h.others n hn)
  · rw [hcur, hframe]
    rfl
  · rw [hframe]
    rfl

/-! ### Atomics (R344, R345) -/

/-- The old value that an atomic finds. -/
def State.oldValue (s : State) (l : Loc) (dbl : Bool) : Nat := leNat (readBytes s.mem l.pa (sizeOf dbl))

/-- What an atomic leaves: the bytes of a value in memory, a result in a register, and no line of its own in the L1. -/
structure AtomicEffect (s t : State) (d : Reg) (pa size : Nat) (new result : Word) : Prop where
  stored : ∀ x, readMem t.mem x = if pa ≤ x ∧ x < pa + size then new.extractLsb' (8 * (x - pa)) 8 else readMem s.mem x
  host   : ∀ x, readMem t.hostMem x = readMem s.hostMem x
  reg    : RegWrite s.cur t.cur d result
  pc     : t.cur.seq.pc = s.nextPc
  seq    : OnlyRegs s.cur.seq t.cur.seq
  access : OnlyAccess s t
  l1     : Map.get? t.cur.l1 (pa / 64) = none

theorem readMem_writeMem_word (m : List Host.Cell) (pa n x : Nat) (v : Word) : readMem (writeMem m pa (leBytes n v.toNat)) x
    = if pa ≤ x ∧ x < pa + n then v.extractLsb' (8 * (x - pa)) 8 else readMem m x := by
  rw [readMem_writeMem, length_leBytes]
  split
  · next h => exact getD_leBytes_eq_extract v (by omega)
  · rfl

/-- The L1 of a cell after its own atomic at a place. -/
def Cell.l1AfterAtomic (x : Cell) (pa : Nat) (o : Order) (c : Scope) : Map (List Byte) :=
  if Sys2Proof.Machine.Order.acquires o = true ∧ c ≠ .cell then [] else Map.erase x.l1 (pa / 64)

theorem Cell.get?_l1AfterAtomic (x : Cell) (pa : Nat) (o : Order) (c : Scope) : Map.get? (x.l1AfterAtomic pa o c) (pa / 64) = none := by
  unfold Cell.l1AfterAtomic
  split
  · rfl
  · exact Map.get?_erase_self _ _

/-- An atomic that passes stores the new value, writes the old one and ends with its acquire. -/
theorem atomicOp_passes (hp : Passes s .atomic (sizeOf dbl) (s.cur.reg a) (some c) l) (hq : s.quiet) (hready : s.lineReady l.pa) :
    ∃ L F, atomicOp s op sgn d a b c ord dbl = .next ((s.touched L F (writeMem s.mem l.pa (leBytes (sizeOf dbl)
        (atomicBits dbl op (BitVec.ofNat 64 (s.oldValue l dbl)) (s.cur.reg b) (s.cur.reg d))))).setCur
      (((s.cur.withL1 (s.cur.l1AfterAtomic l.pa ord c)).setReg d (extend (sizeOf dbl) (sgn || dbl) (s.oldValue l dbl))).retire
        false)) := by
  obtain ⟨L, F, hbank⟩ := State.bankRmw_ready (n := s.focus.cell) (size := sizeOf dbl) (writes := atomicWrites dbl op (s.cur.reg d))
    (f := fun m => atomicBits dbl op (BitVec.ofNat 64 m) (s.cur.reg b) (s.cur.reg d)) hready hp.near
  refine ⟨L, F, ?_⟩
  unfold atomicOp
  dsimp only
  rw [State.withChk_ok hp.checks, State.drain_of_quiet hq, ite_self, State.withReply_near hp.near, hbank]
  exact congrArg Host.Outcome.next (State.acquireIf_settle_setCell (s.touched L F _)
    (x := s.cur.withL1 (Map.erase s.cur.l1 (l.pa / 64))) hq.runs _ c _)

theorem atomicOp_effect {new result : Word} (hp : Passes s .atomic (sizeOf dbl) (s.cur.reg a) (some c) l) (hq : s.quiet)
    (hready : s.lineReady l.pa) (hnew : atomicBits dbl op (BitVec.ofNat 64 (s.oldValue l dbl)) (s.cur.reg b) (s.cur.reg d) = new.toNat)
    (hresult : extend (sizeOf dbl) (sgn || dbl) (s.oldValue l dbl) = result) :
    ∃ t, atomicOp s op sgn d a b c ord dbl = .next t ∧ AtomicEffect s t d l.pa (sizeOf dbl) new result := by
  obtain ⟨L, F, heq⟩ := atomicOp_passes (op := op) (sgn := sgn) (d := d) (b := b) (ord := ord) hp hq hready
  rw [hnew, hresult] at heq
  obtain ⟨hreg, hpc, hseq, haccess, hl1⟩ := (OnlyAccess.touched s L F (writeMem s.mem l.pa (leBytes (sizeOf dbl) new.toNat))).retires
    (d := d) (L := s.cur.l1AfterAtomic l.pa ord c) rfl result
  exact ⟨_, heq, fun x => readMem_writeMem_word _ _ _ _ _, fun _ => rfl, hreg, hpc, hseq, haccess,
    (congrArg (Map.get? · (l.pa / 64)) hl1).trans (s.cur.get?_l1AfterAtomic l.pa ord c)⟩

/-! ### The table of R344 -/

theorem setWidth_ofNat_word (m : Nat) : (BitVec.ofNat 64 m).setWidth 32 = BitVec.ofNat 32 m := by
  apply BitVec.eq_of_toNat_eq
  rw [BitVec.toNat_setWidth, BitVec.toNat_ofNat, BitVec.toNat_ofNat]
  omega

theorem toNat_setWidth_word (v : W32) : (v.setWidth 64).toNat = v.toNat := by
  rw [BitVec.toNat_setWidth]
  have := v.isLt
  omega

theorem setWidth_word_ofNat {m : Nat} (h : m < 2 ^ 32) : (BitVec.ofNat 32 m).setWidth 64 = BitVec.ofNat 64 m := by
  apply BitVec.eq_of_toNat_eq
  rw [toNat_setWidth_word, BitVec.toNat_ofNat, BitVec.toNat_ofNat]
  omega

theorem State.oldValue_word_lt (s : State) (l : Loc) : s.oldValue l false < 2 ^ 32 := by
  have := leNat_lt (readBytes s.mem l.pa 4)
  rw [length_readBytes] at this
  exact this

/-- The value that an atomic of a word gives its register. -/
theorem extend_oldValue_word (s : State) (l : Loc) : extend 4 (sgn || false) (s.oldValue l false)
    = if sgn then (BitVec.ofNat 32 (s.oldValue l false)).signExtend 64 else (BitVec.ofNat 32 (s.oldValue l false)).setWidth 64 := by
  cases sgn with
  | true => rfl
  | false => exact (setWidth_word_ofNat (s.oldValue_word_lt l)).symm

/-- `AFADD` adds the two f32 words. -/
theorem atomicBits_fadd (m : Nat) (v cmp : Word) :
    atomicBits false 10 (BitVec.ofNat 64 m) v cmp = (f32Add (BitVec.ofNat 32 m) (v.setWidth 32)).toNat := by
  change (bankFadd ((BitVec.ofNat 64 m).setWidth 32) (v.setWidth 32)).toNat = _
  unfold bankFadd
  rw [setWidth_ofNat_word, BitVec.setWidth_eq, BitVec.setWidth_eq, BitVec.setWidth_eq]

/-- Both sizes of an atomic whose row of the table is f. -/
theorem atomic_gives {i : Bool → Instr} {f : (w : Nat) → BitVec w → BitVec w → BitVec w → BitVec w}
    (hi : ∀ w, exec (i w) s = atomicOp s op sgn d a b c ord w) (hf : ∀ w (m v x : BitVec w), atomicNew w bankFadd op m v x = f w m v x) :
    (Passes s .atomic 8 (s.cur.reg a) (some c) l → s.quiet → s.lineReady l.pa → Completes (i true) s fun t =>
      AtomicEffect s t d l.pa 8 (f 64 (BitVec.ofNat 64 (s.oldValue l true)) (s.cur.reg b) (s.cur.reg d)) (BitVec.ofNat 64 (s.oldValue l true)))
    ∧ (Passes s .atomic 4 (s.cur.reg a) (some c) l → s.quiet → s.lineReady l.pa → Completes (i false) s fun t =>
      AtomicEffect s t d l.pa 4
        ((f 32 (BitVec.ofNat 32 (s.oldValue l false)) ((s.cur.reg b).setWidth 32) ((s.cur.reg d).setWidth 32)).setWidth 64)
        (if sgn then (BitVec.ofNat 32 (s.oldValue l false)).signExtend 64 else (BitVec.ofNat 32 (s.oldValue l false)).setWidth 64)) := by
  refine ⟨fun hp hq hready => .of_exec (hi true) (atomicOp_effect (dbl := true) hp hq hready ?_ ?_),
    fun hp hq hready => .of_exec (hi false) (atomicOp_effect (dbl := false) hp hq hready ?_ (extend_oldValue_word s l))⟩
  · rw [← hf]
    rfl
  · rw [Bool.or_true]
    exact congrFun extend_double _
  · rw [toNat_setWidth_word, ← hf, ← setWidth_ofNat_word]
    rfl

end

/-- Settles O12: each atomic is `atomicOp` of its row of `atomicNew` (`atomic_gives`). -/
theorem atomicsReplaceAndReturnTheOldValue : Obligations.AtomicsReplaceAndReturnTheOldValue := by
  unfold Obligations.AtomicsReplaceAndReturnTheOldValue
  intro s d a b c o l va cmp v effect m64 m32 both
  have hunfold {i : Instr} {size : Nat} {new result : Word} (h : Passes s .atomic size va (some c) l → s.quiet → s.lineReady l.pa →
      Completes i s fun t => AtomicEffect s t d l.pa size new result) : effect i size new result := fun hp hq hready => by
    obtain ⟨t, ht, he⟩ := h hp hq hready
    exact ⟨t, ht, he.stored, he.host, he.reg, he.pc, he.seq, he.access, he.l1⟩
  have hboth {i : Bool → Instr} {op : Nat} {sgn : Bool} {f : (w : Nat) → BitVec w → BitVec w → BitVec w → BitVec w}
      (hi : ∀ w, exec (i w) s = atomicOp s op sgn d a b c o w)
      (hf : ∀ w (m v x : BitVec w), atomicNew w bankFadd op m v x = f w m v x) : both i sgn f :=
    (atomic_gives hi hf).imp hunfold hunfold
  have hafadd : effect (.afadd d a b c o) 4 ((f32Add m32 (v.setWidth 32)).setWidth 64) (m32.setWidth 64) :=
    hunfold fun hp hq hready => .of_exec (exec_afadd s d a b c o) (atomicOp_effect (dbl := false) hp hq hready
      (by rw [toNat_setWidth_word]; exact atomicBits_fadd _ _ _) (extend_oldValue_word s l))
  clear_value effect both
  refine ⟨hboth (exec_aadd s d a b c o) fun _ _ _ _ => rfl, hboth (exec_amin s d a b c o) fun _ m v _ => ?_,
    hboth (exec_amax s d a b c o) fun _ m v _ => ?_, hboth (exec_aminn s d a b c o) fun _ m v _ => ?_,
    hboth (exec_amaxn s d a b c o) fun _ m v _ => ?_, hboth (exec_aand s d a b c o) fun _ _ _ _ => rfl,
    hboth (exec_aor s d a b c o) fun _ _ _ _ => rfl, hboth (exec_axor s d a b c o) fun _ _ _ _ => rfl,
    hboth (exec_axchg s d a b c o) fun _ _ _ _ => rfl, hboth (exec_acas s d a b c o) fun _ _ _ _ => rfl, hafadd⟩
  · simp [atomicNew, BitVec.slt]
  · simp [atomicNew, BitVec.slt]
  · simp [atomicNew, BitVec.ult]
  · simp [atomicNew, BitVec.ult]

end Sys2Proof.Machine
end

