-- ==== Sys2Proof/Proofs/FullEmpty.lean ====
section
/-! Full-empty words: what `LDFE`, `FEPEEK` and `STFE` leave, and what a fill leaves alone (R140, R141, R346, R347). -/

namespace Sys2Proof.Machine

section
variable {s t u : State} {d a b : Reg} {c : Scope} {l : Loc} {pa : Nat} {v : W32} {i : Instr}

/-! ### Reads (R346, R347) -/

/-- Of the module the cell in focus takes another sequencer and another L1. -/
theorem OnlyAccess.setCur (h : OnlyAccess s u) {x : Cell} (hx : x = { s.cur with seq := x.seq, l1 := x.l1 }) :
    OnlyAccess s (u.setCur x) ∧ (u.setCur x).cur = x := by
  have hcur : (u.setCur x).cur = x := by rw [State.setCur_eq, State.cur_setCell_focus]
  refine ⟨⟨h.focus, fun n hn => ?_, hcur.symm ▸ hx, h.worlds⟩, hcur⟩
  rw [State.setCur_eq, h.focus]
  exact (State.cell_setCell_of_ne _ _ hn).trans (h.others n hn)

/-- What a read of a full-empty word leaves: a result in a register. -/
structure ReadsWord (s t : State) (d : Reg) (r : Word) : Prop where
  reg    : RegWrite s.cur t.cur d r
  pc     : t.cur.seq.pc = s.nextPc
  memory : SameMemory s t
  access : OnlyAccess s t

/-- The change with which `LDFE` ends. -/
def Cell.endWait (x : Cell) (d : Reg) (r : Word) : Cell := ((x.withSeq fun q => { q with deferral := none }).setReg d r).retire false

theorem Cell.endWait_frame (x : Cell) (L : Map (List Byte)) (d : Reg) (r : Word) :
    (x.withL1 L).endWait d r = { x with seq := ((x.withL1 L).endWait d r).seq, l1 := L } := by
  unfold Cell.endWait
  rw [Cell.setReg_frame]
  rfl

/-- `LDFE` of a value ends with its acquire. -/
theorem ldfe_ends (h : s.cur.run ≠ .idle) (L : Map LineTag) (F : Map Nat) (r : W32) :
    ReadsWord s ((s.touched L F s.mem).endLdfe s.focus.cell d c r) d (r.setWidth 64)
      ∧ ((s.touched L F s.mem).endLdfe s.focus.cell d c r).cur.seq.deferral = none
      ∧ (c ≠ .cell → ((s.touched L F s.mem).endLdfe s.focus.cell d c r).cur.l1 = []) := by
  have heq : (s.touched L F s.mem).endLdfe s.focus.cell d c r = (s.touched L F s.mem).setCur
      ((s.cur.withL1 (if true = true ∧ c ≠ .cell then [] else s.cur.l1)).endWait d (r.setWidth 64)) :=
    State.acquireIf_settle (s := s.touched L F s.mem) h true c fun x => x.endWait d (r.setWidth 64)
  obtain ⟨haccess, hcur⟩ := (OnlyAccess.touched s L F s.mem).setCur (x :=
    (s.cur.withL1 (if true = true ∧ c ≠ .cell then [] else s.cur.l1)).endWait d (r.setWidth 64)) (by rw [Cell.endWait_frame])
  obtain ⟨hregs, hshadows⟩ := RegWrite.setReg ((s.cur.withL1 (if true = true ∧ c ≠ .cell then [] else s.cur.l1)).withSeq
    fun q => { q with deferral := none }) d (r.setWidth 64) false
  rw [heq]
  refine ⟨⟨⟨by rw [hcur]; exact hregs, by rw [hcur]; exact hshadows⟩, ?_, ⟨fun _ => rfl, fun _ => rfl⟩, haccess⟩, ?_, fun hc => ?_⟩
  · rw [hcur]
    simp [State.nextPc, instrBytes, Cell.withL1, Cell.endWait]
  · rw [hcur]
    simp [Cell.endWait]
  · rw [hcur, Cell.endWait_frame]
    exact if_pos ⟨rfl, hc⟩

theorem Seq.filled_of_none {q : Seq} (h : q.deferral = none) : q.filled pa = none := by
  unfold Seq.filled
  rw [h]
  rfl

theorem Seq.filled_of_some {q : Seq} {x : Option W32} (h : q.deferral = some (pa, x)) : q.filled pa = x := by
  unfold Seq.filled
  rw [h]
  exact if_pos rfl

/-- `LDFE` returns what filled the word that it waits for. -/
theorem ldfe_filled {r : W32} (hp : Passes s .feRead 4 (s.cur.reg a) (some c) l) (h : s.cur.seq.deferral = some (l.pa, some r)) :
    exec (.ldfe d a c) s = .next (s.endLdfe s.focus.cell d c r) := by
  rw [exec_ldfe]
  unfold execLdfe
  rw [State.withChk_ok hp.checks, State.withReply_near hp.near, Seq.filled_of_some h]

/-- It goes on waiting while nothing has. -/
theorem ldfe_waits (hp : Passes s .feRead 4 (s.cur.reg a) (some c) l) (h : s.cur.seq.deferral = some (l.pa, none)) :
    exec (.ldfe d a c) s = .next s := by
  rw [exec_ldfe]
  unfold execLdfe
  rw [State.withChk_ok hp.checks, State.withReply_near hp.near, Seq.filled_of_some h]
  exact if_pos h

/-- `LDFE` of a ready word that it has not asked for: a full one ends it, an empty one takes a deferral entry that is free. -/
theorem ldfe_asks (hp : Passes s .feRead 4 (s.cur.reg a) (some c) l) (hready : s.lineReady l.pa) (h : s.cur.seq.deferral = none) :
    ∃ L F, (Map.get false s.full l.pa = true → exec (.ldfe d a c) s = .next ((s.touched L F s.mem).endLdfe s.focus.cell d c
          (BitVec.ofNat 32 (leNat (readBytes s.mem l.pa 4)))))
      ∧ (¬ Map.get false s.full l.pa = true → s.deferralFree l.pa = true → exec (.ldfe d a c) s
          = .next (((s.touched L F s.mem).countCell s.focus.cell 9 1).settle fun x =>
              x.withSeq fun q => { q with deferral := some (l.pa, none) })) := by
  obtain ⟨L, F, htouch, -⟩ := State.touch_keepsReady (n := s.focus.cell) (cls := .fe) hready hp.near false false
  have hnone : ¬ s.cur.seq.deferral = some (l.pa, none) := by
    rw [h]
    nofun
  rw [exec_ldfe]
  unfold execLdfe
  dsimp only
  rw [State.withChk_ok hp.checks, State.withReply_near hp.near, Seq.filled_of_none h, htouch]
  dsimp only
  rw [if_neg hnone]
  refine ⟨L, F, fun hfull => if_pos hfull, fun hempty hfree => (if_neg hempty).trans (if_neg ?_)⟩
  rw [show (s.touched L F s.mem).deferralFree l.pa = true from hfree]
  exact Bool.false_ne_true

/-- `FEPEEK` touches a ready word and ends with what it finds, with an acquire for a full word. -/
theorem fepeek_reads (hp : Passes s .feRead 4 (s.cur.reg a) (some c) l) (hrun : s.cur.run ≠ .idle) (hready : s.lineReady l.pa) :
    ∃ t, exec (.fepeek d a c) s = .next t ∧ ReadsWord s t d (if Map.get false s.full l.pa = true
      then BitVec.ofNat 64 (2 ^ 32 + leNat (readBytes s.mem l.pa 4)) else 0) := by
  obtain ⟨L, F, htouch, -⟩ := State.touch_keepsReady (n := s.focus.cell) (cls := .fe) hready hp.near false false
  have hends (L1 : Map (List Byte)) (r : Word) : ReadsWord s ((s.touched L F s.mem).setCur
      (((s.cur.withL1 L1).setReg d r).retire false)) d r := by
    obtain ⟨hreg, hpc, -, haccess, -⟩ := (OnlyAccess.touched s L F s.mem).retires (d := d) (L := L1) rfl r
    exact ⟨hreg, hpc, ⟨fun _ => rfl, fun _ => rfl⟩, haccess⟩
  rw [exec_fepeek]
  unfold execFepeek
  dsimp only
  rw [State.withChk_ok hp.checks, State.withReply_near hp.near, htouch]
  have hfull : (s.touched L F s.mem).isFull l.pa = Map.get false s.full l.pa := rfl
  rw [hfull]
  split
  · exact ⟨_, congrArg Host.Outcome.next (State.acquireIf_settle (s := s.touched L F s.mem) hrun true c _), hends _ _⟩
  · exact ⟨_, congrArg Host.Outcome.next (State.acquireIf_settle (s := s.touched L F s.mem) hrun false c _), hends _ _⟩

/-! ### Fills (R140, R141) -/

/-- Answers go out: only what partitions count, the pod and the outputs differ. -/
def State.Answers (u s : State) : Prop := s = { u with parts := s.parts, pod := s.pod, out := s.out }

theorem State.Answers.meter {p k n : Nat} (h : u.Answers s) : u.Answers (s.meter p k n) := h ▸ rfl

theorem State.Answers.sendFlit {f : Flit} (h : u.Answers s) : u.Answers (s.sendFlit f) := by
  unfold State.sendFlit
  split
  · exact h ▸ rfl
  · exact h ▸ rfl

theorem State.Answers.answerRemote {dest cell : Nat} {data : List Byte} {refused : Bool} (h : u.Answers s) :
    u.Answers (s.answerRemote dest cell pa data refused) := by
  unfold State.answerRemote
  refine State.Answers.sendFlit ?_
  split
  · exact h
  · exact h.meter

theorem State.Answers.foldl {α : Type} {f : State → α → State} {x : List α} (h : u.Answers s)
    (hf : ∀ s a, u.Answers s → u.Answers (f s a)) : u.Answers (x.foldl f s) := by
  induction x generalizing s with
  | nil => exact h
  | cons a x ih => exact ih (hf s a h)

/-- What a fill of a word with a value leaves alone: memory, presence bits and tags; the cell in focus is woken. -/
structure State.Wakes (s t : State) (pa : Nat) (v : W32) : Prop where
  cur    : t.cur = s.cur.wake pa v
  memory : t.mem = s.mem
  full   : t.full = s.full
  lines  : t.lines = s.lines

theorem Cell.wake_reset (pa : Nat) (v : W32) : Cell.reset.wake pa v = Cell.reset := rfl

theorem State.cell_mapCells (s : State) (f : Cell → Cell) (hf : f Cell.reset = Cell.reset) (n : Nat) :
    Map.get Cell.reset (s.cells.map fun e => (e.1, f e.2)) n = f (Map.get Cell.reset s.cells n) := by
  unfold Map.get
  rw [Map.get?_mapValues]
  cases Map.get? s.cells n with
  | none => exact hf.symm
  | some x => rfl

theorem State.wake_wakes (s : State) (pa : Nat) : s.Wakes (s.wake pa) pa (BitVec.ofNat 32 (s.load pa 4)) := by
  have h : ∃ L p, State.Answers { s with
      cells := s.cells.map fun e => (e.1, e.2.wake pa (BitVec.ofNat 32 (s.load pa 4))), launches := L, pod := p } (s.wake pa) :=
    ⟨_, _, State.Answers.foldl rfl fun _ _ h => h.answerRemote⟩
  obtain ⟨L, p, h⟩ := h
  rw [h]
  exact ⟨State.cell_mapCells s (Cell.wake · pa (BitVec.ofNat 32 (s.load pa 4))) rfl _, rfl, rfl, rfl⟩

/-- The value as the word that a fill stores. -/
theorem extract_setWidth_word (v : Word) {k : Nat} (h : k < 4) :
    ((v.setWidth 32).setWidth 64).extractLsb' (8 * k) 8 = v.extractLsb' (8 * k) 8 := by
  ext j hj
  have : 8 * k + j < 32 := by omega
  simp [this]
  omega

/-- A fill of a ready empty word stores it, sets it full and wakes the cell in focus; a full word stays as it is. -/
theorem State.fillWord_ready {n : Nat} (h : s.lineReady pa) (hm : paModule pa = s.pod.self) :
    (Map.get false s.full pa = true → ∃ L F, s.fillWord n pa v = (s.touched L F s.mem, false))
    ∧ (¬ Map.get false s.full pa = true → ∃ t r, s.fillWord n pa v = (t, true) ∧ t.cur = s.cur.wake pa r
        ∧ t.mem = writeMem s.mem pa (leBytes 4 v.toNat) ∧ t.full = Map.set false s.full pa true) := by
  obtain ⟨L, F, htouch, hends⟩ := State.touch_keepsReady (n := n) (cls := .fe) h hm true false
  unfold State.fillWord
  rw [htouch]
  refine ⟨fun hfull => ⟨L, F, (if_pos hfull).trans ?_⟩, fun hempty => ?_⟩
  · rw [State.endUncached_of_ways hends.2.2]
  · have hw := (((s.touched L F s.mem).store pa (leBytes 4 v.toNat)).setFull pa true).wake_wakes pa
    refine ⟨_, _, (if_neg hempty).trans ?_, hw.cur, hw.memory, hw.full⟩
    rw [State.endUncached_of_ways (hw.lines ▸ hends.2.2)]

/-- `STFE` with nothing buffered fills its word at once. -/
theorem stfe_passes (hp : Passes s .feWrite 4 (s.cur.reg a) (some c) l) (hq : s.quiet) {ok : Bool}
    (h : s.fillWord s.focus.cell l.pa ((s.cur.reg b).setWidth 32) = (t, ok)) (hrun : t.cur.run ≠ .idle) :
    exec (.stfe a b c) s = if ok then .next (t.onCur fun x => x.retire false) else trapNow t false .fedup (t.cur.reg a) := by
  rw [exec_stfe]
  unfold execStfe
  dsimp only
  rw [State.withChk_ok hp.checks, State.drain_of_quiet hq, State.withReply_near hp.near, h]
  exact if_neg hrun

end

/-- Settles O13: reads by what the word and the cell's deferral hold (`ldfe_filled`, `ldfe_waits`, `ldfe_asks`, `fepeek_reads`),
fills by the presence bit (`State.fillWord_ready`). -/
theorem fullEmptyOperations : Obligations.FullEmptyOperations := by
  unfold Obligations.FullEmptyOperations
  intro s d a b c l va v m full reads writes
  have hword : ((BitVec.ofNat 32 m).setWidth 64 : Word) = BitVec.ofNat 64 m := setWidth_word_ofNat (s.oldValue_word_lt l)
  refine ⟨fun ⟨hp, hq, hready⟩ hfull hdef => ?_, fun ⟨hp, hq, hready⟩ hempty hdef hfree => ?_, fun ⟨hp, _, _⟩ hdef => ldfe_waits hp hdef,
    fun u ⟨hp, hq, _⟩ hdef => ?_, fun ⟨hp, hq, hready⟩ hfull => ?_, fun ⟨hp, hq, hready⟩ hempty => ?_,
    fun ⟨hp, hq, hready⟩ hempty => ?_, fun ⟨hp, hq, hready⟩ hfull hhandler => ?_⟩
  · obtain ⟨L, F, hexec, -⟩ := ldfe_asks (d := d) hp hready hdef
    obtain ⟨hr, hdeferral, hl1⟩ := ldfe_ends (d := d) (c := c) hq.runs L F (BitVec.ofNat 32 m)
    exact ⟨_, hexec hfull, hword ▸ hr.reg, hr.pc, hdeferral, hr.memory, hr.access, hl1⟩
  · obtain ⟨L, F, -, hexec⟩ := ldfe_asks (d := d) hp hready hdef
    refine ⟨_, hexec hempty hfree, ?_⟩
    rw [State.settle_running (s := (s.touched L F s.mem).countCell s.focus.cell 9 1) hq.runs, State.onCur_eq]
    exact ⟨congrArg Cell.seq (State.cur_setCell_focus _ _), ⟨fun _ => rfl, fun _ => rfl⟩, rfl⟩
  · obtain ⟨hr, hdeferral, -⟩ := ldfe_ends (d := d) (c := c) hq.runs s.lines s.flows u
    exact ⟨_, ldfe_filled hp hdef, hr.reg, hr.pc, hdeferral, hr.memory⟩
  · obtain ⟨t, hexec, hr⟩ := fepeek_reads (d := d) hp hq.runs hready
    rw [if_pos hfull] at hr
    exact ⟨t, hexec, hr.reg, hr.pc, hr.memory, hr.access⟩
  · obtain ⟨t, hexec, hr⟩ := fepeek_reads (d := d) hp hq.runs hready
    rw [if_neg hempty] at hr
    exact ⟨t, hexec, hr.reg, hr.pc, hr.memory, hr.access⟩
  · obtain ⟨t, r, hfill, hcur, hmem, hset⟩ := (State.fillWord_ready (v := (s.cur.reg b).setWidth 32) hready hp.near).2 hempty
    refine ⟨_, stfe_passes hp hq hfill (hcur ▸ hq.runs), ?_⟩
    have hbyte (k : Nat) (hk : k < 4) := extract_setWidth_word v hk
    have hstored (x : Nat) := readMem_writeMem_word s.mem l.pa 4 x (((s.cur.reg b).setWidth 32).setWidth 64)
    rw [toNat_setWidth_word, ← hmem] at hstored
    have hend : (t.onCur fun x => x.retire false).cur = (s.cur.wake l.pa r).retire false := by
      rw [State.onCur_eq, State.cur_setCell_focus, hcur]
    refine ⟨fun x => (hstored x).trans ?_, fun x => ?_, ⟨fun k => by rw [hend]; rfl, fun k j => by rw [hend]; rfl⟩, by rw [hend]; rfl⟩
    · split
      · next h => exact hbyte (x - l.pa) (by omega)
      · rfl
    · rw [show (t.onCur fun x => x.retire false).full = Map.set false s.full l.pa true from hset, Map.get_set]
  · obtain ⟨L, F, hfill⟩ := (State.fillWord_ready (v := (s.cur.reg b).setWidth 32) hready hp.near).1 hfull
    obtain ⟨t, hexec, ht⟩ := trapNow_traps (s.touched L F s.mem) false .fedup va hhandler
    refine ⟨t, (stfe_passes hp hq hfill hq.runs).trans hexec, ht.cell, ht.only.memory, ?_⟩
    rw [ht.only.rest]
    rfl

end Sys2Proof.Machine
end

