-- ==== Sys2Proof/Proofs/SystemInstructions.lean ====
section
/-! `SNOP`, `TRAP`, `WAITEV`, `YIELD` and `KRET` (R352 to R355). -/

namespace Sys2Proof.Machine

section
variable {s : State} {a : Reg}

theorem State.onCur_retire (s : State) : (s.onCur fun c => c.retire false) = s.withPc s.nextPc := rfl

theorem getLsbD_of_ne_zero {n : Nat} {x : BitVec n} (h : x ≠ 0) : ∃ k, k < n ∧ x.getLsbD k = true := by
  by_contra hnone
  refine h (BitVec.eq_of_getLsbD_eq fun k hk => ?_)
  rw [BitVec.ofNat_eq_ofNat, BitVec.getLsbD_zero]
  exact Bool.eq_false_iff.2 fun hbit => hnone ⟨k, hk, hbit⟩

theorem and_ne_zero_iff {n : Nat} (x y : BitVec n) : x &&& y ≠ 0 ↔ ∃ k, k < n ∧ x.getLsbD k = true ∧ y.getLsbD k = true := by
  refine ⟨fun h => ?_, fun ⟨k, _, hx, hy⟩ hz => ?_⟩
  · obtain ⟨k, hk, hbit⟩ := getLsbD_of_ne_zero h
    rw [BitVec.getLsbD_and, Bool.and_eq_true] at hbit
    exact ⟨k, hk, hbit⟩
  · have hbit := congrArg (BitVec.getLsbD · k) hz
    simp [hx, hy] at hbit

/-! ### `WAITEV` (R353) -/

/-- A bit of a word that names a line which is set, or a counter that has reached its threshold. -/
def Cell.EventNamed (c : Cell) (w : Word) : Prop :=
  (∃ k, k < 32 ∧ w.getLsbD k = true ∧ c.lines.getLsbD k = true)
    ∨ ∃ i v, i < 16 ∧ w.getLsbD (32 + i) = true ∧ Map.get? c.counters i = some v ∧ v.threshold ≤ v.count

theorem Cell.eventNamed_iff (c : Cell) (w : Word) :
    c.EventNamed w ↔ c.lines &&& w.setWidth 32 ≠ 0 ∨ c.reachedBits &&& w.extractLsb' 32 16 ≠ 0 := by
  refine or_congr ?_ ?_
  · rw [and_ne_zero_iff]
    exact exists_congr fun k => and_congr_right fun hk => by simp [hk, and_comm]
  · rw [and_ne_zero_iff]
    refine ⟨fun ⟨k, v, hk, hw, hv⟩ => ⟨k, hk, ?_, by simpa [hk] using hw⟩, fun ⟨k, hk, hc, hw⟩ => ?_⟩
    · rw [Cell.getLsbD_reachedBits c hk]
      exact (c.reached_iff k).2 ⟨v, hv⟩
    · rw [Cell.getLsbD_reachedBits c hk, c.reached_iff] at hc
      obtain ⟨v, hv⟩ := hc
      exact ⟨k, v, hk, by simpa [hk] using hw, hv⟩

/-- A bit above 47 is set. -/
theorem high_bits_iff (w : Word) : (w.extractLsb' 48 16 != 0) = true ↔ ∃ k, 48 ≤ k ∧ k < 64 ∧ w.getLsbD k = true := by
  rw [bne_iff_ne]
  refine ⟨fun h => ?_, fun ⟨k, hlow, hhigh, hbit⟩ hz => ?_⟩
  · obtain ⟨k, hk, hbit⟩ := getLsbD_of_ne_zero h
    exact ⟨48 + k, by omega, by omega, by simpa [hk] using hbit⟩
  · have hzero := congrArg (BitVec.getLsbD · (k - 48)) hz
    rw [BitVec.getLsbD_extractLsb', Nat.add_sub_cancel' hlow, hbit] at hzero
    simp [show k - 48 < 16 by omega] at hzero

theorem waitev_traps (h : ∃ k, 48 ≤ k ∧ k < 64 ∧ (s.cur.reg a).getLsbD k = true) :
    exec (.waitev a) s = trapNow s false .combo := by
  rw [exec_waitev]
  exact if_pos ((high_bits_iff _).2 h)

theorem waitev_looks (h : ¬ ∃ k, 48 ≤ k ∧ k < 64 ∧ (s.cur.reg a).getLsbD k = true) : exec (.waitev a) s
    = if s.cur.reg a = 0 ∨ s.cur.lines &&& (s.cur.reg a).setWidth 32 ≠ 0
        ∨ s.cur.reachedBits &&& (s.cur.reg a).extractLsb' 32 16 ≠ 0 then .next (s.withPc s.nextPc) else .next s := by
  rw [exec_waitev]
  exact if_neg (mt (high_bits_iff _).1 h)

/-! ### `YIELD` (R354) -/

/-- The marks of a launch stay while a cell of it has neither halted nor yielded. -/
theorem State.settleYield_of_waiting {id : Nat} {l : Launch} {m : Nat} (hm : m ∈ l.parts.flatMap cellsOfPart)
    (hrun : (s.cell m).run.hasHalted = false) (hmark : (s.cell m).seq.yielded = false) : s.settleYield id l = s := by
  refine if_neg fun ⟨_, hall⟩ => ?_
  have := List.all_eq_true.1 hall m hm
  simp [hrun, hmark] at this

/-- `YIELD` marks the cell, and no more while another cell of its launch has neither halted nor yielded. -/
theorem yield_waits {l : Launch} {m : Nat} (hl : Map.get? s.launches s.cur.ident.launch = some l)
    (hm : m ∈ l.parts.flatMap cellsOfPart) (hne : m ≠ s.focus.cell) (hrun : (s.cell m).run.hasHalted = false)
    (hmark : (s.cell m).seq.yielded = false) : exec .yield s = .next (s.seqStep fun q => { q with yielded := true }) := by
  have hcell : (s.seqStep fun q => { q with yielded := true }).cell m = s.cell m := by
    rw [State.seqStep, State.onCur_eq, State.cell_setCell_of_ne _ _ hne]
  have hlaunch : (s.seqStep fun q => { q with yielded := true }).cur.ident.launch = s.cur.ident.launch := by
    rw [State.seqStep, State.onCur_eq, State.cur_setCell_focus]
    rfl
  have hyield : exec .yield s = match Map.get? s.launches (s.seqStep fun q => { q with yielded := true }).cur.ident.launch with
      | none => .next (s.seqStep fun q => { q with yielded := true })
      | some l => .next ((s.seqStep fun q => { q with yielded := true }).settleYield
          (s.seqStep fun q => { q with yielded := true }).cur.ident.launch l) := exec_yield s
  rw [hyield, hlaunch, hl]
  exact congrArg Host.Outcome.next (State.settleYield_of_waiting hm (by rw [hcell]; exact hrun) (by rw [hcell]; exact hmark))

end

/-- Settles O19: `WAITEV` by the bits of its word, `YIELD` by the cell that has not yielded, `KRET` by handler_active. -/
theorem systemInstructions : Obligations.SystemInstructions := by
  unfold Obligations.SystemInstructions
  intro s a code w named high
  have hnamed : named ↔ _ := s.cur.eventNamed_iff w
  refine ⟨exec_snop s, fun h => .of_exec (exec_trap s code) (trapNow_traps s false .soft 0 h), fun hlow h => ?_, fun hlow hn hz => ?_,
    fun hhigh h => .of_exec (waitev_traps hhigh) (trapNow_traps s false .combo 0 h), fun l m hl hm hne hrun hmark => ?_,
    fun hactive halign hcode => ?_, fun hactive hkvec => ?_⟩
  · rw [hnamed] at h
    exact (waitev_looks hlow).trans (if_pos h.symm)
  · rw [hnamed] at hn
    exact (waitev_looks hlow).trans (if_neg fun h => h.elim hz hn)
  · exact yield_waits hl hm hne hrun hmark
  · rw [exec_kret]
    unfold execKret
    simp only [hactive, halign, hcode]
    rfl
  · refine .of_exec (exec_kret s) ?_
    unfold execKret
    simp only [hactive]
    exact trapNow_traps s false .ill 0 ⟨hkvec, hactive⟩

end Sys2Proof.Machine
end

