-- ==== Sys2Proof/Proofs/HaltAndBreak.lean ====
section
/-! `HALT` with the end of a launch and the marks of `YIELD`, and `BREAK` (R106, R115, R263, R288, R352, R354, R356). -/

namespace Sys2Proof.Machine

section
variable {s t u : State} {n id : Nat} {c d : Cell} {l : Launch}

/-! ### A step that halts a cell -/

/-- The steps from s to t leave cell n as d, every other cell and every launch as they were, and no node undone. -/
structure State.Winds (s t : State) (n : Nat) (d : Cell) : Prop where
  cell     : t.cell n = d
  others   : ∀ m, m ≠ n → t.cell m = s.cell m
  focus    : t.focus = s.focus
  launches : t.launches = s.launches
  nodes    : ∀ fn q k, Dispatches s fn q k → Dispatches t fn q k

theorem State.Winds.refl (s : State) (n : Nat) : s.Winds s n (s.cell n) := ⟨rfl, fun _ _ => rfl, rfl, rfl, fun _ _ _ => id⟩

theorem State.Winds.onCell (h : s.Winds t n d) (f : Cell → Cell) : s.Winds (t.onCell n f) n (f d) where
  cell := by rw [State.onCell_eq, State.cell_setCell_self, h.cell]
  others m hm := by rw [State.onCell_eq, State.cell_setCell_of_ne _ _ hm, h.others m hm]
  focus := h.focus
  launches := h.launches
  nodes fn q k hd := (State.Wanes.refl t).onCell.nodes fn q k (h.nodes fn q k hd)

/-- A step that touches neither cells nor launches. -/
theorem State.Winds.keeps (h : s.Winds t n d) (hcells : u.cells = t.cells) (hlaunches : u.launches = t.launches)
    (hfocus : u.focus = t.focus) (hwanes : t.Wanes u) : s.Winds u n d where
  cell := (congrArg (Map.get Cell.reset · n) hcells).trans h.cell
  others m hm := (congrArg (Map.get Cell.reset · m) hcells).trans (h.others m hm)
  focus := hfocus.trans h.focus
  launches := hlaunches.trans h.launches
  nodes fn q k hd := hwanes.nodes fn q k (h.nodes fn q k hd)

theorem State.Winds.onWorld (h : s.Winds t n d) (w : Nat) (f : World → World) (hw : t.Wanes (t.onWorld w f)) :
    s.Winds (t.onWorld w f) n d := by
  refine h.keeps ?_ ?_ ?_ hw <;> unfold State.onWorld <;> split <;> rfl

theorem State.Winds.settleGens (h : s.Winds t n d) (w : Nat) : s.Winds (t.settleGens w) n d :=
  h.onWorld w _ (State.Wanes.refl t).settleGens

theorem State.Winds.endHolds (h : s.Winds t n d) (w : Nat) (snap : Option KvSnap) : s.Winds (t.endHolds w snap) n d := by
  have hw : t.Wanes (t.endHolds w snap) := (State.Wanes.refl t).endHolds
  unfold State.endHolds at hw ⊢
  split at hw
  · exact h
  · exact h.onWorld w _ hw

/-- A contribution starts the cell's class totals anew. -/
theorem State.contribute_winds (s : State) (n : Nat) :
    s.Winds (s.contribute n) n { s.cell n with classFrom := s.timebase } := by
  have hflush : s.Winds (State.flushCell { s with free := s.free + 4 } n) n (s.cell n) := by
    have hlogs := State.flushCell_onlyLogs { s with free := s.free + 4 } n
    refine (State.Winds.refl s n).keeps ?_ ?_ ?_ (State.Wanes.refl s).update.flushCell
    · rw [hlogs]
    · rw [hlogs]
    · rw [hlogs]
  have htime : (State.flushCell { s with free := s.free + 4 } n).timebase = s.timebase := by
    rw [State.flushCell_onlyLogs { s with free := s.free + 4 } n]
  have hcell := hflush.onCell fun c => { c with classFrom := (State.flushCell { s with free := s.free + 4 } n).timebase }
  rw [htime] at hcell
  unfold State.contribute
  dsimp only
  exact hcell.keeps rfl rfl rfl (State.Wanes.refl _).onPart

/-! ### Armed streams (R356, R366) -/

/-- What the cancelling of armed streams leaves of a cell; the streams that are left are streams of it. -/
structure Cell.Disarms (c d : Cell) : Prop where
  seq     : d.seq = c.seq
  ident   : d.ident = c.ident
  scratch : d.scratch = c.scratch
  tiles   : d.tiles = c.tiles
  streams : d.streams ⊆ c.streams

theorem Cell.Disarms.refl (c : Cell) : c.Disarms c := ⟨rfl, rfl, rfl, rfl, fun _ => id⟩

theorem Cell.Disarms.disarmStream (h : c.Disarms d) (st g : Nat) (x : StreamSt) : c.Disarms (d.disarmStream st g x) := by
  obtain ⟨hland, -⟩ := (d.disarm g).barrierLand_effect x.cmd.bar (x.cmd.bytesTo x.cmd.count)
  unfold Cell.disarmStream
  rw [hland]
  exact ⟨h.seq, h.ident, h.scratch, h.tiles, fun e he => h.streams (List.mem_filter.1 he).1⟩

theorem Map.fst_ne_of_get?_none {α : Type} {m : Map α} {k : Nat} (h : Map.get? m k = none) {e : Nat × α} (he : e ∈ m) : e.1 ≠ k := by
  induction m with
  | nil => exact absurd he List.not_mem_nil
  | cons x m ih =>
    rw [Map.get?] at h
    split at h
    · cases h
    · next hx =>
      rcases List.mem_cons.1 he with rfl | he
      · exact hx
      · exact ih h he

/-- The cancelling of a stream that is armed, or gone. -/
theorem State.Winds.cancelStream (h : s.Winds t n d) (harmed : ∀ e ∈ d.streams, e.2.armed.isSome = true) (st : Nat) :
    ∃ d', s.Winds (t.cancelStream n st) n d' ∧ d.Disarms d' ∧ ∀ e ∈ d'.streams, e.1 ≠ st := by
  unfold State.cancelStream
  rw [h.cell]
  cases hst : Map.get? d.streams st with
  | none =>
    refine ⟨d, h, .refl d, fun e he heq => ?_⟩
    exact Map.fst_ne_of_get?_none hst he heq
  | some x =>
    obtain ⟨g, hg⟩ := Option.isSome_iff_exists.1 (harmed _ (Map.mem_of_get? hst))
    dsimp only
    rw [hg]
    refine ⟨d.disarmStream st g x, ((h.endHolds _ _).onCell fun c =>
      { (c.disarm g).barrierLand x.cmd.bar (x.cmd.bytesTo x.cmd.count) with streams := Map.erase c.streams st }).settleGens _,
      (Cell.Disarms.refl d).disarmStream st g x, fun e he => ?_⟩
    simpa using (List.mem_filter.1 he).2

theorem State.Winds.cancelStreams (h : s.Winds t n d) (harmed : ∀ e ∈ d.streams, e.2.armed.isSome = true) (L : Map StreamSt) :
    ∃ d', s.Winds (L.foldl (fun s e => s.cancelStream n e.1) t) n d' ∧ d.Disarms d' ∧ ∀ e ∈ d'.streams, ∀ x ∈ L, e.1 ≠ x.1 := by
  induction L generalizing t d with
  | nil => exact ⟨d, h, .refl d, fun _ _ _ hx => absurd hx List.not_mem_nil⟩
  | cons x L ih =>
    obtain ⟨d1, h1, hd1, hne1⟩ := h.cancelStream harmed x.1
    obtain ⟨d2, h2, hd2, hne2⟩ := ih h1 fun e he => harmed e (hd1.streams he)
    refine ⟨d2, h2, ⟨hd2.seq.trans hd1.seq, hd2.ident.trans hd1.ident, hd2.scratch.trans hd1.scratch, hd2.tiles.trans hd1.tiles,
      fun e he => hd1.streams (hd2.streams he)⟩, fun e he y hy => ?_⟩
    rcases List.mem_cons.1 hy with rfl | hy
    · exact hne1 e (hd2.streams he)
    · exact hne2 e he y hy

/-! ### The cell that halts (R356) -/

/-- A cell that has halted, as against the cell before: nothing armed, no pins, registers, scratch and tiles as before. -/
structure Cell.Halts (c d : Cell) (next : Word) : Prop where
  run     : d.run = .halted
  seq     : d.seq = { c.seq with pc := next }
  ident   : d.ident = c.ident
  streams : d.streams = []
  pins    : d.pins = []
  gates   : ∀ e ∈ d.gates, e.2.armed = none
  scratch : d.scratch = c.scratch
  tiles   : d.tiles = c.tiles

/-- What `HALT` waits for is over. -/
def Cell.Settled (c : Cell) : Prop :=
  c.phase.st ≠ .running ∧ (∀ e ∈ c.streams, e.2.armed.isSome = true) ∧ c.arb.queue = [] ∧ c.kvm = [] ∧ c.coll = none
    ∧ c.bank = [] ∧ c.fabric.sq = []

theorem Cell.mayHalt_iff (c : Cell) : c.mayHalt = true ↔ c.Settled := by
  simp [Cell.mayHalt, Cell.Settled, and_assoc]

/-- The state in which a cell has halted, before its launch is looked at. -/
def State.halting (s : State) : State :=
  ((((s.contribute s.focus.cell).cancelArmed s.focus.cell).onCell s.focus.cell fun c =>
    ({ c with pins := [], run := .halted } : Cell).retire false).settleGens s.cur.ident.world)

theorem halt_waits (hwb : s.cur.seq.wb = []) (h : ¬ s.cur.Settled) : exec .halt s = .next s := by
  rw [exec_halt]
  unfold execHalt
  dsimp only
  rw [State.drain_of_empty hwb]
  exact if_pos (Or.inr (by simpa using mt s.cur.mayHalt_iff.1 h))

theorem halt_goes (hrun : s.cur.run = .running) (hwb : s.cur.seq.wb = []) (h : s.cur.Settled) :
    exec .halt s = .next (s.halting.settleLaunch s.focus.cell) := by
  rw [exec_halt]
  unfold execHalt
  dsimp only
  rw [State.drain_of_empty hwb]
  exact if_neg (by simp [hrun, s.cur.mayHalt_iff.2 h])

/-- A cell that has no term armed. -/
def Cell.unarmed (c : Cell) : Cell := { c with gates := c.gates.map fun e => (e.1, { e.2 with armed := none }) }

theorem Cell.gates_unarmed (c : Cell) : ∀ e ∈ c.unarmed.gates, e.2.armed = none := fun e he => by
  obtain ⟨x, -, rfl⟩ := List.mem_map.1 he
  rfl

theorem State.cancelArmed_eq (s : State) (n : Nat) : s.cancelArmed n
    = ((s.cell n).streams.foldl (fun s e => s.cancelStream n e.1) s).onCell n Cell.unarmed := rfl

/-- The last change of a cell that halts. -/
def Cell.endRun (c : Cell) : Cell := ({ c with pins := [], run := .halted } : Cell).retire false

theorem Cell.Disarms.halts (h : c.Disarms d) (hstreams : d.streams = []) :
    c.Halts d.unarmed.endRun (c.seq.pc + BitVec.ofNat 64 4) where
  run := rfl
  seq := by rw [← h.seq]; rfl
  ident := h.ident
  streams := hstreams
  pins := rfl
  gates := d.gates_unarmed
  scratch := h.scratch
  tiles := h.tiles

theorem State.halting_effect (s : State) (harmed : ∀ e ∈ s.cur.streams, e.2.armed.isSome = true) :
    ∃ d, s.Winds s.halting s.focus.cell d ∧ s.cur.Halts d s.nextPc := by
  have hcontribute := s.contribute_winds s.focus.cell
  obtain ⟨d, hd, hdis, hne⟩ := hcontribute.cancelStreams harmed s.cur.streams
  have hstreams : d.streams = [] := List.eq_nil_iff_forall_not_mem.2 fun e he => hne e he e (hdis.streams he) rfl
  have hbase : s.cur.Disarms d := ⟨hdis.seq, hdis.ident, hdis.scratch, hdis.tiles, hdis.streams⟩
  refine ⟨d.unarmed.endRun, ?_, hbase.halts hstreams⟩
  unfold State.halting
  rw [State.cancelArmed_eq, hcontribute.cell]
  exact ((hd.onCell _).onCell Cell.endRun).settleGens _

/-! ### The launch of a cell that halts (R106, R354) -/

theorem State.settleLaunch_of_running (hl : Map.get? s.launches (s.cell n).ident.launch = some l) {m : Nat}
    (hm : m ∈ l.parts.flatMap cellsOfPart) (hrun : (s.cell m).run.hasHalted = false) :
    s.settleLaunch n = s.settleYield (s.cell n).ident.launch l := by
  unfold State.settleLaunch
  dsimp only
  rw [hl]
  refine if_neg fun ⟨_, hall⟩ => ?_
  have := List.all_eq_true.1 hall m hm
  simp [hrun] at this

/-- A cell without the mark of `YIELD`. -/
def Cell.unmarked (c : Cell) : Cell := c.withSeq fun q => { q with yielded := false }

theorem Cell.unmarked_unmarked (c : Cell) : c.unmarked.unmarked = c.unmarked := rfl

/-- Once every cell has halted or yielded no cell of the launch is marked, and nothing else of a cell differs. -/
theorem State.settleYield_of_all (hst : l.st = .running)
    (hall : ∀ m ∈ l.parts.flatMap cellsOfPart, (s.cell m).run.hasHalted = true ∨ (s.cell m).seq.yielded = true) :
    (s.settleYield id l).focus = s.focus ∧ ∀ m, (s.settleYield id l).cell m = if m ∈ l.parts.flatMap cellsOfPart
      then (s.cell m).unmarked else s.cell m := by
  have hclear : s.settleYield id l
      = (s.onCells (l.parts.flatMap cellsOfPart) Cell.unmarked).quantumOver id l :=
    if_pos ⟨hst, List.all_eq_true.2 fun m hm => by simpa using hall m hm⟩
  have hquantum (u : State) : (u.quantumOver id l).cells = u.cells ∧ (u.quantumOver id l).focus = u.focus := by
    unfold State.quantumOver
    split
    · exact ⟨rfl, rfl⟩
    · exact ⟨rfl, rfl⟩
  rw [hclear]
  refine ⟨(hquantum _).2.trans (by rw [State.onCells_frame]), fun m => ?_⟩
  refine (congrArg (Map.get Cell.reset · m) (hquantum _).1).trans ?_
  exact State.cell_onCells Cell.unmarked_unmarked _ s m

theorem State.settleLaunch_of_halted (hl : Map.get? s.launches (s.cell n).ident.launch = some l) (hst : l.st = .running)
    (hall : ∀ m ∈ l.parts.flatMap cellsOfPart, (s.cell m).run.hasHalted = true) :
    s.settleLaunch n = s.completeLaunch (s.cell n).ident.launch l := by
  unfold State.settleLaunch
  dsimp only
  rw [hl]
  exact if_pos ⟨hst, List.all_eq_true.2 hall⟩

/-- What a launch leaves in a cell. -/
def Cell.vacated (c : Cell) : Cell := { c.leftover with fifos := c.fifos }

theorem Cell.vacated_vacated (c : Cell) : c.vacated.vacated = c.vacated := rfl

/-- A partition whose launch has ended. -/
def State.vacatePart (s : State) (l : Launch) (p : Nat) : State :=
  ((s.onCells (cellsOfPart p) Cell.vacated).meter p 8 l.cycles).onPart p fun v => { v with running := none, lastLaunch := none }

theorem State.run_vacateParts (parts : List Nat) (s : State) {m : Nat}
    (h : m ∈ parts.flatMap cellsOfPart ∨ (s.cell m).run = .idle) :
    ((parts.foldl (State.vacatePart · l) s).cell m).run = .idle := by
  induction parts generalizing s with
  | nil => exact h.resolve_left List.not_mem_nil
  | cons p parts ih =>
    rw [List.foldl_cons]
    refine ih (s.vacatePart l p) ?_
    have hcell : (s.vacatePart l p).cell m = if m ∈ cellsOfPart p then (s.cell m).vacated else s.cell m := by
      rw [State.vacatePart, State.onPart_eq, State.cell_setPart, State.meter, State.onPart_eq, State.cell_setPart,
        State.cell_onCells Cell.vacated_vacated]
    rw [hcell]
    by_cases hm : m ∈ cellsOfPart p
    · rw [if_pos hm]
      exact .inr rfl
    · rw [if_neg hm]
      refine h.imp_left fun h => ?_
      rw [List.flatMap_cons, List.mem_append] at h
      exact h.resolve_left hm

theorem State.Wanes.vacatePart {p : Nat} (h : u.Wanes s) : u.Wanes (s.vacatePart l p) := by
  unfold State.vacatePart
  rw [State.onCells_frame]
  exact h.update.meter.onPart

theorem State.settlePart_frame (s : State) (p : Nat) :
    (s.settlePart p).cells = s.cells ∧ (s.settlePart p).launches = s.launches := by
  unfold State.settlePart
  split
  · exact ⟨rfl, rfl⟩
  · exact ⟨rfl, rfl⟩

theorem State.settleParts_frame (parts : List Nat) (s : State) :
    (parts.foldl State.settlePart s).cells = s.cells ∧ (parts.foldl State.settlePart s).launches = s.launches := by
  induction parts generalizing s with
  | nil => exact ⟨rfl, rfl⟩
  | cons p parts ih =>
    obtain ⟨hcells, hlaunches⟩ := s.settlePart_frame p
    obtain ⟨hcells', hlaunches'⟩ := ih (s.settlePart p)
    exact ⟨hcells'.trans hcells, hlaunches'.trans hlaunches⟩

/-- The state in which a launch that has completed is gone, before its node is told. -/
def State.withoutLaunch (s : State) (id : Nat) (l : Launch) : State :=
  let u := l.parts.foldl (State.vacatePart · l) s
  l.parts.foldl State.settlePart { u with launches := Map.erase u.launches id }

/-- A launch of this module alone ends: its node is told OK. -/
theorem State.completeLaunch_eq (s : State) (id : Nat) (hpod : l.pod = none) : ∃ errs, s.completeLaunch id l
    = (s.withoutLaunch id l).finishNode l.fn l.q l.node { status := .ok, cause := 0, detail := errs } := by
  refine ⟨min (2 ^ 32 - 1) (s.erroredThreads l), ?_⟩
  have hend (u : State) (d : Nat) : u.launchEnded l.ending .ok 0 d
      = u.finishNode l.fn l.q l.node { status := .ok, cause := 0, detail := d } := by
    unfold State.launchEnded Launch.ending
    dsimp only
    rw [hpod]
  exact hend _ _

theorem State.withoutLaunch_effect (s : State) (id : Nat) (l : Launch) :
    Map.get? (s.withoutLaunch id l).launches id = none
      ∧ (∀ m ∈ l.parts.flatMap cellsOfPart, ((s.withoutLaunch id l).cell m).run = .idle) ∧ s.Wanes (s.withoutLaunch id l) := by
  unfold State.withoutLaunch
  dsimp only
  refine ⟨?_, fun m hm => ?_, State.Wanes.foldl ?_ fun _ _ h => h.settlePart⟩
  · rw [(State.settleParts_frame _ _).2]
    exact Map.get?_erase_self _ _
  · unfold State.cell
    rw [(State.settleParts_frame _ _).1]
    exact State.run_vacateParts _ _ (.inl hm)
  · exact (State.Wanes.foldl (.refl s) fun _ _ h => h.vacatePart).update

end

/-- A cell settles or waits, and its launch goes on, expires its quantum or ends. -/
theorem halt_effect (s : State) (l : Launch) (hrun : s.cur.run = .running) (hwb : s.cur.seq.wb = []) (hsettled : s.cur.Settled)
    (hl : Map.get? s.launches s.cur.ident.launch = some l) :
    ∃ u d, exec .halt s = .next (u.settleLaunch s.focus.cell) ∧ s.Winds u s.focus.cell d ∧ s.cur.Halts d s.nextPc
      ∧ (u.cell s.focus.cell).ident.launch = s.cur.ident.launch ∧ Map.get? u.launches s.cur.ident.launch = some l := by
  obtain ⟨d, hwinds, hhalts⟩ := s.halting_effect hsettled.2.1
  exact ⟨s.halting, d, halt_goes hrun hwb hsettled, hwinds, hhalts, by rw [hwinds.cell, hhalts.ident], by rw [hwinds.launches, hl]⟩

/-! ### Breaks (R263, R288, R352) -/

theorem Cell.freeze_frame (c : Cell) : c.freeze = { c with run := c.freeze.run } := by
  unfold Cell.freeze
  split <;> rfl

theorem Cell.freeze_running {c : Cell} (h : c.run = .running) : c.freeze.run = .stopped false := by
  unfold Cell.freeze
  rw [h]

theorem Cell.freeze_halted {c : Cell} (h : c.run = .halted) : c.freeze.run = .stopped true := by
  unfold Cell.freeze
  rw [h]

theorem State.attached_iff (s : State) (c : Cell) : s.attached c = true
    ↔ ∃ x, Map.get? (s.part c.ident.part).ctxs c.ident.ctx = some x ∧ x.attached = true := by
  unfold State.attached
  rw [Option.any_eq_true]

theorem State.focus_beginStop {s : State} {p : Nat} (h : (s.part p).stop = none) (n bp link ordinal : Nat) :
    (s.beginStop p n bp link ordinal).focus = s.focus := by
  obtain ⟨x, hx⟩ := State.beginStop_of_none h n bp link ordinal
  rw [hx, State.trace_onlyLogs, State.onCells_frame]
  rfl

theorem State.pending_onPart {f : Part → Part} (s : State) (q p : Nat)
    (hf : ∀ v, (f v).pending = v.pending := by exact fun _ => rfl) :
    ((s.onPart q f).part p).pending = (s.part p).pending := State.part_onPart_of_keeps Part.pending s q hf p

theorem State.pending_countEvent (s : State) (q i n p : Nat) : ((s.countEvent q i n).part p).pending = (s.part p).pending := by
  unfold State.countEvent
  dsimp only
  rw [apply_ite (State.part · p), State.signal, State.part_emit, ite_self]
  exact s.pending_onPart q p

/-- A trace record, made or lost, leaves what cells have yet to contribute. -/
theorem State.pending_trace (s : State) (q kind n flags : Nat) (x : List Byte) (p : Nat) :
    ((s.trace q kind n flags x).part p).pending = (s.part p).pending := by
  unfold State.trace State.traceOf
  dsimp only
  split
  · exact s.pending_countEvent q 15 1 p
  · split_ifs
    · exact s.pending_countEvent q 15 1 p
    · refine (State.pending_onPart _ q p).trans ?_
      rw [State.devWrite_frame]
      rfl

/-- Settles O20: `HALT` by what the cell waits for and what the other cells of its launch have done, `BREAK` by the debugger. -/
theorem haltAndBreak : Obligations.HaltAndBreak := by
  unfold Obligations.HaltAndBreak
  constructor
  · intro s n c settled hrun hwb
    refine ⟨halt_waits hwb, fun l hsettled hl hst => ?_⟩
    obtain ⟨u, d, hexec, hwinds, hhalts, hident, hul⟩ := halt_effect s l hrun hwb hsettled hl
    have hlaunch : Map.get? u.launches (u.cell n).ident.launch = some l := by rw [hident]; exact hul
    refine ⟨fun m hm hne hmrun hmark => ?_, fun m hm hne hmrun hall => ?_, fun hall hpod => ?_⟩
    · have hcellm : u.cell m = s.cell m := hwinds.others m hne
      have hsettle : u.settleLaunch n = u := (State.settleLaunch_of_running hlaunch hm (by rw [hcellm]; exact hmrun)).trans
        (State.settleYield_of_waiting hm (by rw [hcellm]; exact hmrun) (by rw [hcellm]; exact hmark))
      have hcur : u.cur = d := by rw [State.cur, hwinds.focus, hwinds.cell]
      refine ⟨u, hsettle ▸ hexec, ?_⟩
      beta_reduce
      rw [hcur]
      exact ⟨hhalts.run, hhalts.seq, hhalts.streams, hhalts.pins, hhalts.gates, hhalts.scratch, hhalts.tiles, hwinds.others⟩
    · have hdone (k : Nat) (hk : k ∈ l.parts.flatMap cellsOfPart) : (u.cell k).run.hasHalted = true ∨ (u.cell k).seq.yielded = true := by
        by_cases hkn : k = n
        · rw [hkn, hwinds.cell, hhalts.run]
          exact .inl rfl
        · rw [hwinds.others k hkn]
          exact hall k hk hkn
      obtain ⟨hfocus, hcells⟩ := State.settleYield_of_all (id := s.cur.ident.launch) hst hdone
      have hsettle := State.settleLaunch_of_running hlaunch hm (by rw [hwinds.others m hne]; exact hmrun)
      rw [hident] at hsettle
      rw [hsettle] at hexec
      refine ⟨_, hexec, ?_, fun k hk hkn => ?_⟩
      · rw [State.cur, hfocus, hwinds.focus, hcells, hwinds.cell]
        split
        · exact hhalts.run
        · exact hhalts.run
      · rw [hcells, if_pos hk, hwinds.others k hkn]
        rfl
    · have hdone (k : Nat) (hk : k ∈ l.parts.flatMap cellsOfPart) : (u.cell k).run.hasHalted = true := by
        by_cases hkn : k = n
        · rw [hkn, hwinds.cell, hhalts.run]
          rfl
        · rw [hwinds.others k hkn]
          exact hall k hk hkn
      obtain ⟨errs, heq⟩ := u.completeLaunch_eq s.cur.ident.launch hpod
      obtain ⟨hgone, hidle, hwanes⟩ := u.withoutLaunch_effect s.cur.ident.launch l
      have hsettle := State.settleLaunch_of_halted hlaunch hst hdone
      rw [hident, heq] at hsettle
      rw [hsettle] at hexec
      refine ⟨_, hexec, hgone, hidle, fun g hg hnode => ?_⟩
      obtain ⟨g', hg', hresult⟩ := State.finishNode_result (hwanes.nodes _ _ _ (hwinds.nodes _ _ _ ⟨g, hg, hnode⟩))
        { status := .ok, cause := 0, detail := errs }
      exact ⟨g', _, hg', hresult, rfl⟩
  · intro s n p debugged
    have hdebugged : s.attached s.cur = true ↔ debugged := s.attached_iff s.cur
    have hbrk : exec .brk s = if s.attached s.cur ∧ s.starts p then .next s
        else if s.attached s.cur then .next ((s.withPc s.nextPc).beginStop p n 0xFF 0 0)
        else .next (((s.withPc s.nextPc).countCell n 6 1).trace p 7 n 0 (leBytes 8 s.cur.seq.pc.toNat)) := exec_brk s
    refine ⟨fun hd hs => ?_, fun hd hs hstop => ?_, fun hd => ?_⟩
    · rw [hbrk, if_pos ⟨hdebugged.2 hd, hs⟩]
    · rw [← hdebugged] at hd
      obtain ⟨hnumber, hcells, -⟩ := State.beginStop_effect (s := s.withPc s.nextPc) hstop n 0xFF 0 0
      have hself : (s.withPc s.nextPc).cell n = s.cur.withSeq fun q => { q with pc := s.nextPc } := State.cell_setCell_self _ _ _
      have hrun (m : Nat) : ((s.withPc s.nextPc).cell m).run = (s.cell m).run := by
        by_cases hmn : m = n
        · rw [hmn, hself]
          rfl
        · exact congrArg Cell.run (State.cell_setCell_of_ne _ _ hmn)
      refine ⟨_, hbrk.trans ((if_neg (by simp [hs])).trans (if_pos hd)), hnumber, ?_, fun m hm => ?_⟩
      · rw [State.cur, State.focus_beginStop (s := s.withPc s.nextPc) hstop, hcells, apply_ite Cell.seq, Cell.freeze_frame, ite_self]
        exact congrArg Cell.seq hself
      · rw [hcells, if_pos hm]
        refine ⟨fun h => Cell.freeze_running ((hrun m).trans h), fun h => Cell.freeze_halted ((hrun m).trans h), fun hmn => ?_⟩
        rw [show (s.withPc s.nextPc).cell m = s.cell m from State.cell_setCell_of_ne _ _ hmn]
        exact (s.cell m).freeze_frame
    · rw [← hdebugged] at hd
      refine ⟨_, hbrk.trans ((if_neg (by simp [hd])).trans (if_neg hd)), ?_, ?_⟩
      · rw [State.trace_onlyLogs]
        rfl
      · rw [State.pending_trace, State.countCell, State.onPart_eq, State.part_setPart_self]
        exact Map.get_set_self (0 : Nat) (s.part p).pending (16 * cellIndex n + 6)
          (Map.get 0 (s.part p).pending (16 * cellIndex n + 6) + 1)

end Sys2Proof.Machine
end

