-- ==== Sys2Proof/Proofs/Layouts.lean ====
section
/-! The layouts of words and records: an encoding is a word exactly when the word's fields are its operands (R302, R309 to R322,
R358). -/

namespace Sys2Proof

section
variable {w : W32} {r : BitVec 64}

/-! ### Fields -/

/-- Two fields side by side make a word exactly when they are its two parts. -/
theorem append_eq_iff {m n : Nat} {x : BitVec m} {y : BitVec n} {v : BitVec (m + n)} :
    x ++ y = v ↔ x = v.extractLsb' n m ∧ y = v.extractLsb' 0 n := by
  refine ⟨fun h => ?_, fun ⟨hx, hy⟩ => ?_⟩
  · subst h
    exact ⟨BitVec.extractLsb'_append_eq_left.symm, BitVec.extractLsb'_append_eq_right.symm⟩
  · subst hx hy
    exact (BitVec.extractLsb'_append_extractLsb'_eq_extractLsb' (Nat.zero_add n).symm).trans BitVec.extractLsb'_eq_self

theorem extractLsb'_extractLsb' {k s n t m : Nat} {v : BitVec k} (h : s + n ≤ m) :
    (v.extractLsb' t m).extractLsb' s n = v.extractLsb' (t + s) n := by
  ext j hj
  have : s + j < m := by omega
  simp [this, Nat.add_assoc]

/-! ### Forms (R302, R358) -/

theorem encA_eq_iff {m : BitVec 6} {d a b : Reg} {f : BitVec 11} : encA m d a b f = w
    ↔ fMajor w = m ∧ fX w = d ∧ fY w = a ∧ fZ w = b ∧ w.extractLsb' 0 11 = f := by
  change (m ++ d ++ a ++ b ++ f : BitVec (6 + 5 + 5 + 5 + 11)) = w ↔ _
  rw [append_eq_iff, append_eq_iff, append_eq_iff, append_eq_iff]
  simp [fMajor, fX, fY, fZ, extractLsb'_extractLsb', and_assoc, eq_comm]

theorem encI_eq_iff {m : BitVec 6} {d a : Reg} {j : BitVec 16} : encI m d a j = w
    ↔ fMajor w = m ∧ fX w = d ∧ fY w = a ∧ fImm w = j := by
  change (m ++ d ++ a ++ j : BitVec (6 + 5 + 5 + 16)) = w ↔ _
  rw [append_eq_iff, append_eq_iff, append_eq_iff]
  simp [fMajor, fX, fY, fImm, extractLsb'_extractLsb', and_assoc, eq_comm]

theorem encJ_eq_iff {m : BitVec 6} {o : BitVec 26} : encJ m o = w ↔ fMajor w = m ∧ fOff26 w = o :=
  append_eq_iff.trans (and_congr eq_comm eq_comm)

theorem encE_eq_iff {m : BitVec 6} {x y z u : Reg} {def_ : BitVec 1} {op : BitVec 5} : encE m x y z u def_ op = w
    ↔ fMajor w = m ∧ fX w = x ∧ fY w = y ∧ fZ w = z ∧ fW w = u ∧ w.extractLsb' 5 1 = def_ ∧ op5 w = op := by
  change (m ++ x ++ y ++ z ++ u ++ def_ ++ op : BitVec (6 + 5 + 5 + 5 + 5 + 1 + 5)) = w ↔ _
  rw [append_eq_iff, append_eq_iff, append_eq_iff, append_eq_iff, append_eq_iff, append_eq_iff]
  simp [fMajor, fX, fY, fZ, fW, op5, extractLsb'_extractLsb', and_assoc, eq_comm]

theorem bit_eq_one_iff (b : BitVec 1) : b = 1 ↔ boolOf b = true := by simp [boolOf]

theorem bit_eq_zero_iff (b : BitVec 1) : b = 0 ↔ boolOf b = false := by
  revert b
  decide

/-- A word of form E with a gate: bit 5 tells whether the w field names one (R315). -/
theorem encG_eq_iff {m : BitVec 6} {x y z : Reg} {g : Option Reg} {op : BitVec 5} : encG m x y z g op = w
    ↔ fMajor w = m ∧ fX w = x ∧ fY w = y ∧ fZ w = z ∧ gateField w = some g ∧ op5 w = op := by
  have hgate : gateField w = some g ↔ fW w = g.getD 0 ∧ w.extractLsb' 5 1 = bitOf g.isSome := by
    unfold gateField
    cases g with
    | none =>
      rw [show bitOf (none : Option Reg).isSome = 0 from rfl, bit_eq_zero_iff]
      cases boolOf (w.extractLsb' 5 1) <;> simp
    | some u =>
      rw [show bitOf (some u).isSome = 1 from rfl, bit_eq_one_iff]
      cases boolOf (w.extractLsb' 5 1) <;> simp
  rw [hgate, and_assoc]
  cases g with
  | none => exact encE_eq_iff
  | some u => exact encE_eq_iff

/-! ### Codes -/

theorem Scope.eq_toBits_iff {b : BitVec 2} {c : Scope} : b = c.toBits ↔ Scope.ofBits b = c := by
  revert b; cases c <;> decide

theorem Order.eq_toBits_iff {b : BitVec 2} {c : Order} : b = c.toBits ↔ Order.ofBits b = c := by
  revert b; cases c <;> decide

theorem Rnd.eq_toBits_iff {b : BitVec 2} {c : Rnd} : b = c.toBits ↔ Rnd.ofBits b = c := by
  revert b; cases c <;> decide

theorem FenceKind.eq_toBits_iff {b : BitVec 2} {c : FenceKind} : b = c.toBits ↔ b ≠ 3#2 ∧ FenceKind.ofBits b = c := by
  revert b; cases c <;> decide

theorem Cond.eq_toBits_iff {b : BitVec 3} {c : Cond} : b = c.toBits ↔ Cond.ofBits b = c := by
  revert b; cases c <;> decide

theorem Cvk.eq_toBits_iff {b : BitVec 3} {c : Cvk} : b = c.toBits ↔ Cvk.ofBits b = c := by
  revert b; cases c <;> decide

theorem Src.eq_toBits_iff {b : BitVec 3} {c : Src} : b = c.toBits ↔ Src.ofBits b = c := by
  revert b; cases c <;> decide

theorem ElTy.eq_toBits_iff {b : BitVec 3} {c : ElTy} : b = c.toBits ↔ ElTy.ofBits b = c := by
  revert b; cases c <;> decide

theorem eq_bitOf_iff {b : BitVec 1} {v : Bool} : b = bitOf v ↔ boolOf b = v := by
  revert b; cases v <;> decide

/-! ### Function fields (R309, R310, R312) -/

theorem eq_atomFn_iff {c : Scope} {o : Order} {dbl : Bool} {op : BitVec 4} : w.extractLsb' 0 11 = atomFn c o dbl op
    ↔ w.extractLsb' 9 2 = 0 ∧ Scope.ofBits (w.extractLsb' 7 2) = c ∧ Order.ofBits (w.extractLsb' 5 2) = o
      ∧ boolOf (w.extractLsb' 4 1) = dbl ∧ w.extractLsb' 0 4 = op := by
  rw [eq_comm]
  change (0#2 ++ c.toBits ++ o.toBits ++ bitOf dbl ++ op : BitVec (2 + 2 + 2 + 1 + 4)) = _ ↔ _
  rw [append_eq_iff, append_eq_iff, append_eq_iff, append_eq_iff, ← Scope.eq_toBits_iff, ← Order.eq_toBits_iff, ← eq_bitOf_iff]
  simp [extractLsb'_extractLsb', and_assoc, eq_comm]

theorem eq_fpoFn_iff {cc : BitVec 3} {rb : BitVec 2} {wd : Bool} {op : BitVec 4} : w.extractLsb' 0 11 = fpoFn cc rb wd op
    ↔ w.extractLsb' 10 1 = 0 ∧ w.extractLsb' 7 3 = cc ∧ w.extractLsb' 5 2 = rb ∧ boolOf (w.extractLsb' 4 1) = wd
      ∧ w.extractLsb' 0 4 = op := by
  rw [eq_comm]
  change (0#1 ++ cc ++ rb ++ bitOf wd ++ op : BitVec (1 + 3 + 2 + 1 + 4)) = _ ↔ _
  rw [append_eq_iff, append_eq_iff, append_eq_iff, append_eq_iff, ← eq_bitOf_iff]
  simp [extractLsb'_extractLsb', and_assoc, eq_comm]

theorem eq_ordFn_iff {fk size kind : BitVec 2} {c : Scope} : w.extractLsb' 0 11 = ordFn fk c size kind
    ↔ w.extractLsb' 8 3 = 0 ∧ w.extractLsb' 6 2 = fk ∧ Scope.ofBits (w.extractLsb' 4 2) = c ∧ w.extractLsb' 2 2 = size
      ∧ w.extractLsb' 0 2 = kind := by
  rw [eq_comm]
  change (0#3 ++ fk ++ c.toBits ++ size ++ kind : BitVec (3 + 2 + 2 + 2 + 2)) = _ ↔ _
  rw [append_eq_iff, append_eq_iff, append_eq_iff, append_eq_iff, ← Scope.eq_toBits_iff]
  simp [extractLsb'_extractLsb', and_assoc, eq_comm]

/-- The function field in two parts. -/
theorem extract_eq_iff {k m n : Nat} {x : BitVec k} {f : BitVec (m + n)} : x.extractLsb' 0 (m + n) = f
    ↔ x.extractLsb' n m = f.extractLsb' n m ∧ x.extractLsb' 0 n = f.extractLsb' 0 n := by
  refine ⟨fun h => ?_, fun ⟨hhi, hlo⟩ => ?_⟩
  · subst h
    rw [extractLsb'_extractLsb' (by omega), extractLsb'_extractLsb' (by omega)]
    simp
  · rw [← append_eq_iff.2 ⟨hhi, hlo⟩]
    exact (BitVec.extractLsb'_append_extractLsb'_eq_extractLsb' (Nat.zero_add n).symm).symm

theorem eq_sizeCode_iff {dbl : Bool} : w.extractLsb' 2 2 = sizeCode dbl
    ↔ boolOf (w.extractLsb' 3 1) = true ∧ boolOf (w.extractLsb' 2 1) = dbl := by
  have hcode : sizeCode dbl = (1#1 ++ bitOf dbl : BitVec (1 + 1)) := by cases dbl <;> rfl
  rw [hcode, eq_comm, ← bit_eq_one_iff, ← eq_bitOf_iff]
  refine append_eq_iff.trans ?_
  simp [extractLsb'_extractLsb', eq_comm]

theorem oprFn_iff {f : BitVec 11} : w.extractLsb' 0 11 = f ↔ fW w = f.extractLsb' 6 5 ∧ fSub w = f.extractLsb' 0 6 :=
  extract_eq_iff (m := 5) (n := 6)

theorem jrFn_iff {f : BitVec 11} : w.extractLsb' 0 11 = f
    ↔ w.extractLsb' 1 10 = f.extractLsb' 1 10 ∧ w.extractLsb' 0 1 = f.extractLsb' 0 1 := extract_eq_iff (m := 10) (n := 1)

theorem sysFn_iff {f : BitVec 11} : w.extractLsb' 0 11 = f
    ↔ w.extractLsb' 4 7 = f.extractLsb' 4 7 ∧ w.extractLsb' 0 4 = f.extractLsb' 0 4 := extract_eq_iff (m := 7) (n := 4)

theorem trapFn_iff {c : BitVec 7} : w.extractLsb' 0 11 = (c ++ 1#4 : BitVec (7 + 4)) ↔ w.extractLsb' 4 7 = c ∧ w.extractLsb' 0 4 = 1 := by
  rw [eq_comm]
  refine append_eq_iff.trans ?_
  simp [extractLsb'_extractLsb', eq_comm]

theorem ctlFn_iff {n : BitVec 9} {k : BitVec 2} : w.extractLsb' 0 11 = (n ++ k : BitVec (9 + 2))
    ↔ w.extractLsb' 2 9 = n ∧ w.extractLsb' 0 2 = k := by
  rw [eq_comm]
  refine append_eq_iff.trans ?_
  simp [extractLsb'_extractLsb', eq_comm]

theorem femFn_iff {c : Scope} {k : BitVec 2} : w.extractLsb' 0 11 = (0#7 ++ c.toBits ++ k : BitVec (7 + 2 + 2))
    ↔ w.extractLsb' 4 7 = 0 ∧ Scope.ofBits (w.extractLsb' 2 2) = c ∧ w.extractLsb' 0 2 = k := by
  rw [eq_comm, ← Scope.eq_toBits_iff]
  change (0#7 ++ c.toBits ++ k : BitVec (7 + 2 + 2)) = _ ↔ _
  rw [append_eq_iff, append_eq_iff]
  simp [extractLsb'_extractLsb', and_assoc, eq_comm]

theorem shiFn_iff {k : BitVec 2} {n : BitVec 6} : fImm w = (k ++ 0#8 ++ n : BitVec (2 + 8 + 6))
    ↔ w.extractLsb' 14 2 = k ∧ w.extractLsb' 6 8 = 0 ∧ fSub w = n := by
  rw [eq_comm, fImm]
  change (k ++ 0#8 ++ n : BitVec (2 + 8 + 6)) = _ ↔ _
  rw [append_eq_iff, append_eq_iff]
  simp [fSub, extractLsb'_extractLsb', and_assoc, eq_comm]

theorem halfFn_iff {k : BitVec 2} : fY w = (0#3 ++ k : BitVec (3 + 2)) ↔ w.extractLsb' 18 3 = 0 ∧ w.extractLsb' 16 2 = k := by
  rw [eq_comm, fY]
  refine append_eq_iff.trans ?_
  simp [extractLsb'_extractLsb', eq_comm]

theorem eventReg_iff {x : Reg} {e : BitVec 3} : x = (3#2 ++ e : BitVec (2 + 3)) ↔ x.extractLsb' 3 2 = 3 ∧ x.extractLsb' 0 3 = e := by
  rw [eq_comm]
  exact append_eq_iff.trans (and_congr eq_comm eq_comm)

/-! ### Records (R317) -/

theorem encRec_eq_iff {op : BitVec 7} {e : ElemRec} : encRec op e = r ↔ recOpcode r = op ∧ recOf r = e := by
  obtain ⟨d, a, b, c, ty, v, l, j, sw, lk⟩ := e
  change (bitOf d ++ op ++ a.toBits ++ b.toBits ++ c.toBits ++ ty.toBits ++ v ++ l ++ j ++ sw ++ lk
    : BitVec (1 + 7 + 3 + 3 + 3 + 3 + 2 + 2 + 8 + 16 + 16)) = r ↔ _
  rw [append_eq_iff, append_eq_iff, append_eq_iff, append_eq_iff, append_eq_iff, append_eq_iff, append_eq_iff, append_eq_iff,
    append_eq_iff, append_eq_iff]
  simp only [extractLsb'_extractLsb', recOpcode, recOf, ElemRec.mk.injEq, and_assoc, Nat.reduceAdd, Nat.reduceLeDiff,
    eq_comm (a := bitOf d), eq_comm (a := Src.toBits _), eq_comm (a := ElTy.toBits ty), eq_bitOf_iff, Src.eq_toBits_iff, ElTy.eq_toBits_iff]
  constructor
  · rintro ⟨hd, rfl, ha, hb, hc, hty, rfl, rfl, rfl, rfl, rfl⟩
    exact ⟨rfl, hd, ha, hb, hc, hty, rfl, rfl, rfl, rfl, rfl⟩
  · rintro ⟨rfl, hd, ha, hb, hc, hty, rfl, rfl, rfl, rfl, rfl⟩
    exact ⟨hd, rfl, ha, hb, hc, hty, rfl, rfl, rfl, rfl, rfl⟩

/-! ### Resources (R358) -/

theorem eq_tileReg_iff {x : Reg} {t : BitVec 3} : x = tileReg t ↔ isTile x = true ∧ tileOf x = t := by
  rw [eq_comm]
  exact append_eq_iff.trans (and_congr (eq_comm.trans beq_iff_eq.symm) eq_comm)

theorem eq_sixteenReg_iff {x : Reg} {t : BitVec 4} : x = sixteenReg t ↔ isSixteen x = true ∧ sixteenOf x = t := by
  rw [eq_comm]
  exact append_eq_iff.trans (and_congr (eq_comm.trans beq_iff_eq.symm) eq_comm)

theorem eq_fifoReg_iff {x : Reg} {t : BitVec 2} : x = fifoReg t ↔ isFifo x = true ∧ fifoOf x = t := by
  rw [eq_comm]
  exact append_eq_iff.trans (and_congr (eq_comm.trans beq_iff_eq.symm) eq_comm)

theorem eq_fifoSel_iff {y : Reg} {b a : Bool} : y = fifoSel b a
    ↔ y.extractLsb' 2 3 = 0 ∧ boolOf (y.extractLsb' 1 1) = b ∧ boolOf (y.extractLsb' 0 1) = a := by
  rw [eq_comm]
  change (0#3 ++ bitOf b ++ bitOf a : BitVec (3 + 1 + 1)) = y ↔ _
  rw [append_eq_iff, append_eq_iff, ← eq_bitOf_iff, ← eq_bitOf_iff]
  simp [extractLsb'_extractLsb', and_assoc, eq_comm]

end
end Sys2Proof
end

