-- ==== Sys2Proof/Proofs/Decoding.lean ====
section
/-! The word of an instruction decodes to it, and the record of an element operation (R302 to R322). -/

namespace Sys2Proof

section
variable {w : W32} {i : Instr}

/-! ### Groups (R304) -/

theorem ne_zero_of_major {m : BitVec 6} (hm : fMajor w = m) (h : m ≠ 0) : w ≠ 0 := by
  rintro rfl
  exact h hm.symm

theorem decode_opr (hm : fMajor w = 0x00) (h : w ≠ 0) : decode w = decodeOpr w := by
  rw [decode, if_neg h, hm]
  rfl

theorem decode_shi (hm : fMajor w = 0x05) : decode w = decodeShi w := by
  rw [decode, if_neg (ne_zero_of_major hm (by decide)), hm]
  rfl

theorem decode_ord (hm : fMajor w = 0x2d) : decode w = decodeOrd w := by
  rw [decode, if_neg (ne_zero_of_major hm (by decide)), hm]
  rfl

theorem decode_atom (hm : fMajor w = 0x2e) : decode w = decodeAtom w := by
  rw [decode, if_neg (ne_zero_of_major hm (by decide)), hm]
  rfl

theorem decode_fem (hm : fMajor w = 0x2f) : decode w = decodeFem w := by
  rw [decode, if_neg (ne_zero_of_major hm (by decide)), hm]
  rfl

theorem decode_fpo (hm : fMajor w = 0x30) : decode w = decodeFpo w := by
  rw [decode, if_neg (ne_zero_of_major hm (by decide)), hm]
  rfl

theorem decode_ctl (hm : fMajor w = 0x31) : decode w = decodeCtl w := by
  rw [decode, if_neg (ne_zero_of_major hm (by decide)), hm]
  rfl

theorem decode_sys (hm : fMajor w = 0x32) : decode w = decodeSys w := by
  rw [decode, if_neg (ne_zero_of_major hm (by decide)), hm]
  rfl

theorem decode_strm (hm : fMajor w = 0x33) : decode w = decodeStrm w := by
  rw [decode, if_neg (ne_zero_of_major hm (by decide)), hm]
  rfl

theorem decode_mxop (hm : fMajor w = 0x34) : decode w = decodeMxop w := by
  rw [decode, if_neg (ne_zero_of_major hm (by decide)), hm]
  rfl

theorem decode_bar (hm : fMajor w = 0x35) : decode w = decodeBar w := by
  rw [decode, if_neg (ne_zero_of_major hm (by decide)), hm]
  rfl

theorem decode_evx (hm : fMajor w = 0x36) : decode w = decodeEvx w := by
  rw [decode, if_neg (ne_zero_of_major hm (by decide)), hm]
  rfl

theorem decode_phase (hm : fMajor w = 0x37) : decode w = decodePhase w := by
  rw [decode, if_neg (ne_zero_of_major hm (by decide)), hm]
  rfl

theorem decode_kvm (hm : fMajor w = 0x38) : decode w = decodeKvm w := by
  rw [decode, if_neg (ne_zero_of_major hm (by decide)), hm]
  rfl

theorem decode_sess (hm : fMajor w = 0x39) : decode w = decodeSess w := by
  rw [decode, if_neg (ne_zero_of_major hm (by decide)), hm]
  rfl

theorem decode_coll (hm : fMajor w = 0x3a) : decode w = decodeColl w := by
  rw [decode, if_neg (ne_zero_of_major hm (by decide)), hm]
  rfl

theorem decode_bank (hm : fMajor w = 0x3b) : decode w = decodeBank w := by
  rw [decode, if_neg (ne_zero_of_major hm (by decide)), hm]
  rfl

theorem decode_wset (hm : fMajor w = 0x3c) : decode w = decodeWset w := by
  rw [decode, if_neg (ne_zero_of_major hm (by decide)), hm]
  rfl

theorem ne_zero_of_sub {op : BitVec 6} (h : fSub w = op) (hop : op ≠ 0) : w ≠ 0 := by
  rintro rfl
  exact hop h.symm

/-! ### Gates (R315) -/

theorem withGate_eq_ok_iff {k : Option Reg → Instr} : withGate w k = .ok i ↔ ∃ g, gateField w = some g ∧ k g = i := by
  unfold withGate gateField need
  cases boolOf (w.extractLsb' 5 1) with
  | true => simp
  | false => cases fW w == 0 <;> simp

theorem withGate_of_gate {k : Option Reg → Instr} {g : Option Reg} (h : gateField w = some g) : withGate w k = .ok (k g) :=
  withGate_eq_ok_iff.2 ⟨g, h, rfl⟩

theorem notDeferred_eq_ok_iff {j : Instr} : notDeferred w j = .ok i ↔ w.extractLsb' 5 1 = 0 ∧ fW w = 0 ∧ j = i := by
  unfold notDeferred need
  rw [bit_eq_zero_iff]
  cases boolOf (w.extractLsb' 5 1) <;> cases h : fW w == 0 <;> simp_all

theorem notDeferred_of_plain {j : Instr} (hbit : w.extractLsb' 5 1 = 0) (hw : fW w = 0) : notDeferred w j = .ok j :=
  notDeferred_eq_ok_iff.2 ⟨hbit, hw, rfl⟩

end

/-- The word of a well-formed instruction decodes to it. -/
theorem decode_of_encode {i : Instr} {w : W32} (hwf : i.wellFormed = true) (h : encode i = some w) : decode w = .ok i := by
  cases i with
  | addi d a j | andi d a j | ori d a j | xori d a j | slti d a j | sltni d a j | beq d a j | bne d a j | blt d a j | bge d a j
  | bltn d a j | bgen d a j | ldb d a j | ldh d a j | ldw d a j | ldd d a j | ldbn d a j | ldhn d a j | ldwn d a j | lds d a j
  | stb d a j | sth d a j | stw d a j | std d a j | sts d a j =>
    obtain ⟨hm, rfl, rfl, rfl⟩ := encI_eq_iff.1 (Option.some.inj h)
    rw [decode, if_neg (ne_zero_of_major hm (by decide)), hm]
    rfl
  | aadd d a b c o dbl | amin d a b c o dbl | amax d a b c o dbl | aminn d a b c o dbl | amaxn d a b c o dbl | aand d a b c o dbl
  | aor d a b c o dbl | axor d a b c o dbl | axchg d a b c o dbl | acas d a b c o dbl =>
    obtain ⟨hm, rfl, rfl, rfl, hfn⟩ := encA_eq_iff.1 (Option.some.inj h)
    obtain ⟨htop, rfl, rfl, rfl, hop⟩ := eq_atomFn_iff.1 hfn
    rw [decode_atom hm]
    simp [decodeAtom, need, htop, hop]
  | add d a b =>
    obtain ⟨hm, rfl, rfl, rfl, hfn⟩ := encA_eq_iff.1 (Option.some.inj h)
    obtain ⟨hw, hop⟩ := oprFn_iff.1 hfn
    have hne : w ≠ 0 := by
      rintro rfl
      exact absurd hwf (by decide)
    rw [decode_opr hm hne]
    simp [decodeOpr, need, hw, hop]
  | sub d a b | mul d a b | mulh d a b | mulhn d a b | div d a b | divn d a b | rem d a b | remn d a b | and d a b | or d a b
  | xor d a b | andn d a b | shl d a b | shr d a b | sha d a b | rot d a b | min d a b | max d a b | minn d a b | maxn d a b
  | slt d a b | sltn d a b | seq d a b | sel d a b =>
    obtain ⟨hm, rfl, rfl, rfl, hfn⟩ := encA_eq_iff.1 (Option.some.inj h)
    obtain ⟨hw, hop⟩ := oprFn_iff.1 hfn
    rw [decode_opr hm (ne_zero_of_sub hop (by decide))]
    simp [decodeOpr, need, hw, hop]
  | clz d a | ctz d a | popc d a =>
    obtain ⟨hm, rfl, rfl, hz, hfn⟩ := encA_eq_iff.1 (Option.some.inj h)
    obtain ⟨hw, hop⟩ := oprFn_iff.1 hfn
    rw [decode_opr hm (ne_zero_of_sub hop (by decide))]
    simp [decodeOpr, need, hw, hop, hz]
  | shlImmediate d a n | shrImmediate d a n | shaImmediate d a n | rotImmediate d a n =>
    obtain ⟨hm, rfl, rfl, hfn⟩ := encI_eq_iff.1 (Option.some.inj h)
    obtain ⟨hkind, hzero, rfl⟩ := shiFn_iff.1 hfn
    rw [decode_shi hm]
    simp [decodeShi, need, hkind, hzero]
  | lui d k j | movk d k j =>
    obtain ⟨hm, rfl, hy, rfl⟩ := encI_eq_iff.1 (Option.some.inj h)
    obtain ⟨hzero, rfl⟩ := halfFn_iff.1 hy
    rw [decode, if_neg (ne_zero_of_major hm (by decide)), hm]
    simp [need, hzero]
  | dbnz a o =>
    obtain ⟨hm, rfl, hy, rfl⟩ := encI_eq_iff.1 (Option.some.inj h)
    rw [decode, if_neg (ne_zero_of_major hm (by decide)), hm]
    simp [need, hy]
  | jmp o | call o =>
    obtain ⟨hm, rfl⟩ := encJ_eq_iff.1 (Option.some.inj h)
    rw [decode, if_neg (ne_zero_of_major hm (by decide)), hm]
    rfl
  | dual =>
    obtain ⟨hm, ho⟩ := encJ_eq_iff.1 (Option.some.inj h)
    rw [decode, if_neg (ne_zero_of_major hm (by decide)), hm]
    simp [need, ho]
  | jr a | jrLink a =>
    obtain ⟨hm, hx, rfl, hz, hfn⟩ := encA_eq_iff.1 (Option.some.inj h)
    obtain ⟨hzero, hlink⟩ := jrFn_iff.1 hfn
    rw [decode, if_neg (ne_zero_of_major hm (by decide)), hm]
    simp [need, hx, hz, hzero, hlink, boolOf]
  | ldaq d a c dbl =>
    obtain ⟨hm, rfl, rfl, hz, hfn⟩ := encA_eq_iff.1 (Option.some.inj h)
    obtain ⟨htop, hfk, rfl, hsize, hkind⟩ := eq_ordFn_iff.1 hfn
    obtain ⟨hok, rfl⟩ := eq_sizeCode_iff.1 hsize
    rw [decode_ord hm]
    simp [decodeOrd, need, hz, htop, hfk, hok, hkind]
  | strl a b c dbl =>
    obtain ⟨hm, hx, rfl, rfl, hfn⟩ := encA_eq_iff.1 (Option.some.inj h)
    obtain ⟨htop, hfk, rfl, hsize, hkind⟩ := eq_ordFn_iff.1 hfn
    obtain ⟨hok, rfl⟩ := eq_sizeCode_iff.1 hsize
    rw [decode_ord hm]
    simp [decodeOrd, need, hx, htop, hfk, hok, hkind]
  | fence k c =>
    obtain ⟨hm, hx, hy, hz, hfn⟩ := encA_eq_iff.1 (Option.some.inj h)
    obtain ⟨htop, hfk, rfl, hsize, hkind⟩ := eq_ordFn_iff.1 hfn
    obtain ⟨hok, rfl⟩ := FenceKind.eq_toBits_iff.1 hfk
    rw [decode_ord hm]
    simp [decodeOrd, need, hx, hy, hz, htop, hok, hsize, hkind]
  | afadd d a b c o =>
    obtain ⟨hm, rfl, rfl, rfl, hfn⟩ := encA_eq_iff.1 (Option.some.inj h)
    obtain ⟨htop, rfl, rfl, hdbl, hop⟩ := eq_atomFn_iff.1 hfn
    rw [decode_atom hm]
    simp [decodeAtom, need, htop, hop, hdbl]
  | ldfe d a c | fepeek d a c =>
    obtain ⟨hm, rfl, rfl, hz, hfn⟩ := encA_eq_iff.1 (Option.some.inj h)
    obtain ⟨htop, rfl, hop⟩ := femFn_iff.1 hfn
    rw [decode_fem hm]
    simp [decodeFem, need, hz, htop, hop]
  | stfe a b c =>
    obtain ⟨hm, hx, rfl, rfl, hfn⟩ := encA_eq_iff.1 (Option.some.inj h)
    obtain ⟨htop, rfl, hop⟩ := femFn_iff.1 hfn
    rw [decode_fem hm]
    simp [decodeFem, need, hx, htop, hop]
  | fadd d a b r v | fsub d a b r v | fmul d a b r v | ffma d a b r v =>
    obtain ⟨hm, rfl, rfl, rfl, hfn⟩ := encA_eq_iff.1 (Option.some.inj h)
    obtain ⟨htop, hcc, hr, rfl, hop⟩ := eq_fpoFn_iff.1 hfn
    obtain rfl := Rnd.eq_toBits_iff.1 hr
    rw [decode_fpo hm]
    simp [decodeFpo, need, htop, hcc, hop]
  | fmin d a b v | fmax d a b v =>
    obtain ⟨hm, rfl, rfl, rfl, hfn⟩ := encA_eq_iff.1 (Option.some.inj h)
    obtain ⟨htop, hcc, hr, rfl, hop⟩ := eq_fpoFn_iff.1 hfn
    rw [decode_fpo hm]
    simp [decodeFpo, need, htop, hcc, hr, hop]
  | fcmp d a b c v =>
    obtain ⟨hm, rfl, rfl, rfl, hfn⟩ := encA_eq_iff.1 (Option.some.inj h)
    obtain ⟨htop, hcc, hr, rfl, hop⟩ := eq_fpoFn_iff.1 hfn
    obtain rfl := Cond.eq_toBits_iff.1 hcc
    rw [decode_fpo hm]
    simp [decodeFpo, need, htop, hr, hop]
  | fcvt d a k r v =>
    obtain ⟨hm, rfl, rfl, hz, hfn⟩ := encA_eq_iff.1 (Option.some.inj h)
    obtain ⟨htop, hcc, hr, rfl, hop⟩ := eq_fpoFn_iff.1 hfn
    obtain rfl := Cvk.eq_toBits_iff.1 hcc
    obtain rfl := Rnd.eq_toBits_iff.1 hr
    have hok : fcvtOk _ _ _ = true := hwf
    rw [decode_fpo hm]
    simp [decodeFpo, need, htop, hz, hop, hok]
  | fsqrt d a r v | frcp d a r v =>
    obtain ⟨hm, rfl, rfl, hz, hfn⟩ := encA_eq_iff.1 (Option.some.inj h)
    obtain ⟨htop, hcc, hr, rfl, hop⟩ := eq_fpoFn_iff.1 hfn
    obtain rfl := Rnd.eq_toBits_iff.1 hr
    rw [decode_fpo hm]
    simp [decodeFpo, need, htop, hcc, hz, hop]
  | ctlrd d n =>
    obtain ⟨hm, rfl, hy, hz, hfn⟩ := encA_eq_iff.1 (Option.some.inj h)
    obtain ⟨rfl, hop⟩ := ctlFn_iff.1 hfn
    have hok : ctlAssigned _ = true := hwf
    rw [decode_ctl hm]
    simp [decodeCtl, need, hy, hz, hop, hok]
  | ctlwr a n | ctlset a n | ctlclr a n =>
    obtain ⟨hm, hx, rfl, hz, hfn⟩ := encA_eq_iff.1 (Option.some.inj h)
    obtain ⟨rfl, hop⟩ := ctlFn_iff.1 hfn
    have hok : ctlAssigned _ = true := hwf
    rw [decode_ctl hm]
    simp [decodeCtl, need, hx, hz, hop, hok]
  | snop | yield | kret | brk | halt =>
    obtain ⟨hm, hx, hy, hz, hfn⟩ := encA_eq_iff.1 (Option.some.inj h)
    obtain ⟨hcode, hop⟩ := sysFn_iff.1 hfn
    rw [decode_sys hm]
    simp [decodeSys, need, hx, hy, hz, hcode, hop]
  | waitev a =>
    obtain ⟨hm, hx, rfl, hz, hfn⟩ := encA_eq_iff.1 (Option.some.inj h)
    obtain ⟨hcode, hop⟩ := sysFn_iff.1 hfn
    rw [decode_sys hm]
    simp [decodeSys, need, hx, hz, hcode, hop]
  | trap c =>
    obtain ⟨hm, hx, hy, hz, hfn⟩ := encA_eq_iff.1 (Option.some.inj h)
    obtain ⟨rfl, hop⟩ := trapFn_iff.1 hfn
    rw [decode_sys hm]
    simp [decodeSys, need, hx, hy, hz, hop]
  | scopy x y z g | sfeed x y z g | sdrain x y z g | sgath x y z g | sscat x y z g | sunseal x y z g | stfill x y z g =>
    obtain ⟨hm, rfl, rfl, rfl, hg, hop⟩ := encG_eq_iff.1 (Option.some.inj h)
    rw [decode_strm hm]
    simp [decodeStrm, hop, withGate_of_gate hg]
  | swait k | scancel k =>
    obtain ⟨hm, hx, hy, hz, hw, hbit, hop⟩ := encE_eq_iff.1 (Option.some.inj h)
    obtain ⟨hres, rfl⟩ := eq_sixteenReg_iff.1 hx
    rw [decode_strm hm]
    simp [decodeStrm, need, hop, hres, hy, hz, notDeferred_of_plain hbit hw]
  | mma t bs as z g | mmag t bs as z g =>
    obtain ⟨hm, hx, hy, rfl, hg, hop⟩ := encG_eq_iff.1 (Option.some.inj h)
    obtain ⟨hres, rfl⟩ := eq_tileReg_iff.1 hx
    obtain ⟨hres2, rfl, rfl⟩ := eq_fifoSel_iff.1 hy
    rw [decode_mxop hm]
    simp [decodeMxop, need, hop, hres, hres2, withGate_of_gate hg]
  | aclr t g =>
    obtain ⟨hm, hx, hy, hz, hg, hop⟩ := encG_eq_iff.1 (Option.some.inj h)
    obtain ⟨hres, rfl⟩ := eq_tileReg_iff.1 hx
    rw [decode_mxop hm]
    simp [decodeMxop, need, hop, hres, hy, hz, withGate_of_gate hg]
  | ascale t y g | atob t y g =>
    obtain ⟨hm, hx, rfl, hz, hg, hop⟩ := encG_eq_iff.1 (Option.some.inj h)
    obtain ⟨hres, rfl⟩ := eq_tileReg_iff.1 hx
    rw [decode_mxop hm]
    simp [decodeMxop, need, hop, hres, hz, withGate_of_gate hg]
  | acpy t u g =>
    obtain ⟨hm, hx, hy, hz, hg, hop⟩ := encG_eq_iff.1 (Option.some.inj h)
    obtain ⟨hres, rfl⟩ := eq_tileReg_iff.1 hx
    obtain ⟨hres2, rfl⟩ := eq_tileReg_iff.1 hy
    rw [decode_mxop hm]
    simp [decodeMxop, need, hop, hres, hres2, hz, withGate_of_gate hg]
  | mwait =>
    obtain ⟨hm, hx, hy, hz, hw, hbit, hop⟩ := encE_eq_iff.1 (Option.some.inj h)
    rw [decode_mxop hm]
    simp [decodeMxop, need, hop, hx, hy, hz, notDeferred_of_plain hbit hw]
  | bdrop q y g =>
    obtain ⟨hm, hx, rfl, hz, hg, hop⟩ := encG_eq_iff.1 (Option.some.inj h)
    obtain ⟨hres, rfl⟩ := eq_fifoReg_iff.1 hx
    rw [decode_mxop hm]
    simp [decodeMxop, need, hop, hres, hz, withGate_of_gate hg]
  | binit b y z =>
    obtain ⟨hm, rfl, rfl, rfl, hw, hbit, hop⟩ := encE_eq_iff.1 (Option.some.inj h)
    rw [decode_bar hm]
    simp [decodeBar, hop, notDeferred_of_plain hbit hw]
  | barrive b g =>
    obtain ⟨hm, rfl, hy, hz, hg, hop⟩ := encG_eq_iff.1 (Option.some.inj h)
    rw [decode_bar hm]
    simp [decodeBar, need, hop, hy, hz, withGate_of_gate hg]
  | bexpect b y g =>
    obtain ⟨hm, rfl, rfl, hz, hg, hop⟩ := encG_eq_iff.1 (Option.some.inj h)
    rw [decode_bar hm]
    simp [decodeBar, need, hop, hz, withGate_of_gate hg]
  | bwaitb b =>
    obtain ⟨hm, rfl, hy, hz, hw, hbit, hop⟩ := encE_eq_iff.1 (Option.some.inj h)
    rw [decode_bar hm]
    simp [decodeBar, need, hop, hy, hz, notDeferred_of_plain hbit hw]
  | btest x b =>
    obtain ⟨hm, rfl, rfl, hz, hw, hbit, hop⟩ := encE_eq_iff.1 (Option.some.inj h)
    rw [decode_bar hm]
    simp [decodeBar, need, hop, hz, notDeferred_of_plain hbit hw]
  | evsetTerm t y z =>
    obtain ⟨hm, hx, rfl, rfl, hw, hbit, hop⟩ := encE_eq_iff.1 (Option.some.inj h)
    obtain ⟨hres, rfl⟩ := eq_sixteenReg_iff.1 hx
    rw [decode_evx hm]
    simp [decodeEvx, need, hop, hres, hw, hbit, boolOf]
  | evsetCounter c y =>
    obtain ⟨hm, hx, rfl, hz, hw, hbit, hop⟩ := encE_eq_iff.1 (Option.some.inj h)
    obtain ⟨hres, rfl⟩ := eq_sixteenReg_iff.1 hx
    rw [decode_evx hm]
    simp [decodeEvx, need, hop, hres, hz, hw, hbit, boolOf]
  | evsetTimer y =>
    obtain ⟨hm, hx, rfl, hz, hw, hbit, hop⟩ := encE_eq_iff.1 (Option.some.inj h)
    rw [decode_evx hm]
    simp [decodeEvx, need, hop, hx, hz, hw, hbit, boolOf]
  | evclr x | evread x =>
    obtain ⟨hm, rfl, hy, hz, hw, hbit, hop⟩ := encE_eq_iff.1 (Option.some.inj h)
    rw [decode_evx hm]
    simp [decodeEvx, need, hop, hy, hz, notDeferred_of_plain hbit hw]
  | evfire e g =>
    obtain ⟨hm, hx, hy, hz, hg, hop⟩ := encG_eq_iff.1 (Option.some.inj h)
    obtain ⟨hres, rfl⟩ := eventReg_iff.1 hx
    rw [decode_evx hm]
    simp [decodeEvx, need, hop, hres, hy, hz, withGate_of_gate hg]
  | brun x y z g =>
    obtain ⟨hm, rfl, rfl, rfl, hg, hop⟩ := encG_eq_iff.1 (Option.some.inj h)
    rw [decode_phase hm]
    simp [decodePhase, hop, withGate_of_gate hg]
  | bwait x =>
    obtain ⟨hm, rfl, hy, hz, hw, hbit, hop⟩ := encE_eq_iff.1 (Option.some.inj h)
    rw [decode_phase hm]
    simp [decodePhase, need, hop, hy, hz, notDeferred_of_plain hbit hw]
  | bcfg x y | bstat x y =>
    obtain ⟨hm, rfl, rfl, hz, hw, hbit, hop⟩ := encE_eq_iff.1 (Option.some.inj h)
    rw [decode_phase hm]
    simp [decodePhase, need, hop, hz, notDeferred_of_plain hbit hw]
  | bkill =>
    obtain ⟨hm, hx, hy, hz, hw, hbit, hop⟩ := encE_eq_iff.1 (Option.some.inj h)
    rw [decode_phase hm]
    simp [decodePhase, need, hop, hx, hy, hz, notDeferred_of_plain hbit hw]
  | kvalloc x g | kvapp x g | kvfork x g | kvrel x g | kvlook x g | kvdraft x g | kvswap x g | kvpfx x g | kvdrop x g =>
    obtain ⟨hm, rfl, hy, hz, hg, hop⟩ := encG_eq_iff.1 (Option.some.inj h)
    rw [decode_kvm hm]
    simp [decodeKvm, need, hop, hy, hz, withGate_of_gate hg]
  | sopen x y z g | sseal x y z g =>
    obtain ⟨hm, rfl, rfl, rfl, hg, hop⟩ := encG_eq_iff.1 (Option.some.inj h)
    rw [decode_sess hm]
    simp [decodeSess, hop, withGate_of_gate hg]
  | smeter =>
    obtain ⟨hm, hx, hy, hz, hw, hbit, hop⟩ := encE_eq_iff.1 (Option.some.inj h)
    rw [decode_sess hm]
    simp [decodeSess, need, hop, hx, hy, hz, notDeferred_of_plain hbit hw]
  | sepoch x =>
    obtain ⟨hm, rfl, hy, hz, hw, hbit, hop⟩ := encE_eq_iff.1 (Option.some.inj h)
    rw [decode_sess hm]
    simp [decodeSess, need, hop, hy, hz, notDeferred_of_plain hbit hw]
  | car x g | cbc x g | cag x g =>
    obtain ⟨hm, rfl, hy, hz, hg, hop⟩ := encG_eq_iff.1 (Option.some.inj h)
    rw [decode_coll hm]
    simp [decodeColl, need, hop, hy, hz, withGate_of_gate hg]
  | cwait x =>
    obtain ⟨hm, rfl, hy, hz, hw, hbit, hop⟩ := encE_eq_iff.1 (Option.some.inj h)
    rw [decode_coll hm]
    simp [decodeColl, need, hop, hy, hz, notDeferred_of_plain hbit hw]
  | bkop x y z g | bkred x y z g =>
    obtain ⟨hm, rfl, rfl, rfl, hg, hop⟩ := encG_eq_iff.1 (Option.some.inj h)
    rw [decode_bank hm]
    simp [decodeBank, hop, withGate_of_gate hg]
  | wpin x y | wgen x y =>
    obtain ⟨hm, rfl, rfl, hz, hw, hbit, hop⟩ := encE_eq_iff.1 (Option.some.inj h)
    rw [decode_wset hm]
    simp [decodeWset, need, hop, hz, notDeferred_of_plain hbit hw]
  | wunpin x =>
    obtain ⟨hm, rfl, hy, hz, hw, hbit, hop⟩ := encE_eq_iff.1 (Option.some.inj h)
    rw [decode_wset hm]
    simp [decodeWset, need, hop, hy, hz, notDeferred_of_plain hbit hw]
  | _ => exact nomatch h

/-- The record of an element operation decodes to it. -/
theorem decodeElem_of_encode {i : Instr} {r : BitVec 64} (h : encodeElem i = some r) : decodeElem r = .ok i := by
  obtain ⟨⟨op, e⟩, hfields, hrec⟩ := Option.map_eq_some_iff.1 h
  obtain ⟨hop, rfl⟩ := encRec_eq_iff.1 hrec
  unfold Instr.elemFields at hfields
  unfold decodeElem
  rw [hop]
  split at hfields <;> cases hfields <;> rfl

/-- Settles O55: by the instruction's layout (`decode_of_encode`, `decodeElem_of_encode`). -/
theorem encodedInstructionsDecodeToThemselves : Obligations.EncodedInstructionsDecodeToThemselves := by
  unfold Obligations.EncodedInstructionsDecodeToThemselves
  exact ⟨fun _ _ => decode_of_encode, fun _ _ => decodeElem_of_encode⟩

end Sys2Proof
end

