-- ==== Sys2Proof/Proofs/Encoding.lean ====
section
/-! A word or record that decodes is the encoding of what it decodes to, and the second word of a dual pair reads as the plain
instruction (R303, R316). -/

namespace Sys2Proof

/-- The word is the encoding of the instruction, which is well formed. -/
def Encodes (i : Instr) (w : W32) : Prop := encode i = some w ∧ i.wellFormed = true

section
variable {w : W32} {r : BitVec 64} {i j : Instr} {m : BitVec 6} {d a b x y z : Reg}

theorem need_eq_ok_iff {c : Bool} {e : DecodeError} {k : Except DecodeError Instr} :
    need c e k = .ok i ↔ c = true ∧ k = .ok i := by
  unfold need
  cases c <;> simp

theorem eq_ofNat_of_toNat {n k : Nat} {v : BitVec n} (h : v.toNat = k) : v = BitVec.ofNat n k := by
  rw [← h, BitVec.ofNat_toNat, BitVec.setWidth_eq]

theorem eq_zero_of_beq {n : Nat} {v : BitVec n} (h : (v == 0) = true) : v = 0 := beq_iff_eq.1 h

theorem two_zero {n k : Nat} {u : BitVec n} {v : BitVec k} (h : (u == 0 && v == 0) = true) : u = 0 ∧ v = 0 := by
  simpa using h

theorem three_zero {u v t : Reg} (h : (u == 0 && v == 0 && t == 0) = true) : u = 0 ∧ v = 0 ∧ t = 0 := by
  simpa [and_assoc] using h

theorem toNat_eq_three {v : BitVec 2} (h0 : v.toNat ≠ 0) (h1 : v.toNat ≠ 1) (h2 : v.toNat ≠ 2) : v.toNat = 3 := by
  have := v.isLt
  omega

/-! ### Forms A, I and J (R308 to R314) -/

/-- The function field of OPR from its two parts. -/
theorem oprFn_of_sub {op : Nat} (hop : (fSub w).toNat = op) (hw : (fW w == 0) = true) :
    w.extractLsb' 0 11 = BitVec.ofNat 11 op := by
  have hlt : op < 64 := hop ▸ (fSub w).isLt
  refine oprFn_iff.2 ⟨(eq_zero_of_beq hw).trans ?_, (eq_ofNat_of_toNat hop).trans ?_⟩
  · apply BitVec.eq_of_toNat_eq
    simp [Nat.shiftRight_eq_div_pow]
    omega
  · apply BitVec.eq_of_toNat_eq
    simp

theorem decodeOpr_sound (hm : fMajor w = 0x00) (hne : w ≠ 0) (h : decodeOpr w = .ok i) : Encodes i w := by
  have henc {op : Nat} (hop : (fSub w).toNat = op) (hw : (fW w == 0) = true) :
      encA 0x00 (fX w) (fY w) (fZ w) (BitVec.ofNat 11 op) = w := encA_eq_iff.2 ⟨hm, rfl, rfl, rfl, oprFn_of_sub hop hw⟩
  unfold decodeOpr at h
  dsimp only at h
  split at h
  case h_1 hop =>
    obtain ⟨hw, hi⟩ := need_eq_ok_iff.1 h
    cases hi
    have hregs : (fX w == 0 && fY w == 0 && fZ w == 0) = false := by
      refine Bool.eq_false_iff.2 fun hzero => hne ?_
      obtain ⟨hx, hy, hz⟩ := three_zero hzero
      rw [← henc hop hw, hx, hy, hz]
      rfl
    exact ⟨congrArg some (henc hop hw), congrArg Bool.not hregs⟩
  case h_25 hop | h_26 hop | h_27 hop =>
    obtain ⟨hw, h⟩ := need_eq_ok_iff.1 h
    obtain ⟨hz, hi⟩ := need_eq_ok_iff.1 h
    cases hi
    exact ⟨congrArg some (encA_eq_iff.2 ⟨hm, rfl, rfl, eq_zero_of_beq hz, oprFn_of_sub hop hw⟩), rfl⟩
  case h_29 => cases h
  all_goals
    obtain ⟨hw, hi⟩ := need_eq_ok_iff.1 h
    cases hi
    exact ⟨congrArg some (henc ‹_› hw), rfl⟩

theorem decodeShi_sound (hm : fMajor w = 0x05) (h : decodeShi w = .ok i) : Encodes i w := by
  obtain ⟨hzero, h⟩ := need_eq_ok_iff.1 h
  have henc {k : Nat} (hk : (w.extractLsb' 14 2).toNat = k) :
      encI 0x05 (fX w) (fY w) (BitVec.ofNat 2 k ++ 0#8 ++ fSub w : BitVec (2 + 8 + 6)) = w :=
    encI_eq_iff.2 ⟨hm, rfl, rfl, shiFn_iff.2 ⟨eq_ofNat_of_toNat hk, eq_zero_of_beq hzero, rfl⟩⟩
  split at h
  case h_4 h0 h1 h2 =>
    have hk : (w.extractLsb' 14 2).toNat = 3 := toNat_eq_three h0 h1 h2
    cases h
    exact ⟨congrArg some (henc hk), rfl⟩
  all_goals
    cases h
    exact ⟨congrArg some (henc ‹_›), rfl⟩

theorem decodeOrd_sound (hm : fMajor w = 0x2d) (h : decodeOrd w = .ok i) : Encodes i w := by
  unfold decodeOrd at h
  dsimp only at h
  split at h
  · next hop =>
    obtain ⟨hsize, h⟩ := need_eq_ok_iff.1 h
    obtain ⟨hzero, h⟩ := need_eq_ok_iff.1 h
    obtain ⟨hz, hi⟩ := need_eq_ok_iff.1 h
    obtain ⟨htop, hfk⟩ := two_zero hzero
    cases hi
    exact ⟨congrArg some (encA_eq_iff.2 ⟨hm, rfl, rfl, eq_zero_of_beq hz,
      eq_ordFn_iff.2 ⟨htop, hfk, rfl, eq_sizeCode_iff.2 ⟨hsize, rfl⟩, eq_ofNat_of_toNat hop⟩⟩), rfl⟩
  · next hop =>
    obtain ⟨hsize, h⟩ := need_eq_ok_iff.1 h
    obtain ⟨hzero, h⟩ := need_eq_ok_iff.1 h
    obtain ⟨hx, hi⟩ := need_eq_ok_iff.1 h
    obtain ⟨htop, hfk⟩ := two_zero hzero
    cases hi
    exact ⟨congrArg some (encA_eq_iff.2 ⟨hm, eq_zero_of_beq hx, rfl, rfl,
      eq_ordFn_iff.2 ⟨htop, hfk, rfl, eq_sizeCode_iff.2 ⟨hsize, rfl⟩, eq_ofNat_of_toNat hop⟩⟩), rfl⟩
  · next hop =>
    obtain ⟨hkind, h⟩ := need_eq_ok_iff.1 h
    obtain ⟨hzero, h⟩ := need_eq_ok_iff.1 h
    obtain ⟨hregs, hi⟩ := need_eq_ok_iff.1 h
    obtain ⟨htop, hsize⟩ := two_zero hzero
    obtain ⟨hx, hy, hz⟩ := three_zero hregs
    cases hi
    exact ⟨congrArg some (encA_eq_iff.2 ⟨hm, hx, hy, hz, eq_ordFn_iff.2 ⟨htop,
      FenceKind.eq_toBits_iff.2 ⟨bne_iff_ne.1 hkind, rfl⟩, rfl, hsize, eq_ofNat_of_toNat hop⟩⟩), rfl⟩
  · cases h

theorem decodeAtom_sound (hm : fMajor w = 0x2e) (h : decodeAtom w = .ok i) : Encodes i w := by
  unfold decodeAtom at h
  dsimp only at h
  split at h
  case h_11 hop =>
    obtain ⟨hword, h⟩ := need_eq_ok_iff.1 h
    obtain ⟨htop, hi⟩ := need_eq_ok_iff.1 h
    cases hi
    exact ⟨congrArg some (encA_eq_iff.2 ⟨hm, rfl, rfl, rfl, eq_atomFn_iff.2 ⟨eq_zero_of_beq htop, rfl, rfl,
      by simpa using hword, eq_ofNat_of_toNat hop⟩⟩), rfl⟩
  case h_12 => cases h
  all_goals
    obtain ⟨htop, hi⟩ := need_eq_ok_iff.1 h
    cases hi
    exact ⟨congrArg some (encA_eq_iff.2 ⟨hm, rfl, rfl, rfl, eq_atomFn_iff.2 ⟨eq_zero_of_beq htop, rfl, rfl, rfl,
      eq_ofNat_of_toNat ‹_›⟩⟩), rfl⟩

theorem decodeFem_sound (hm : fMajor w = 0x2f) (h : decodeFem w = .ok i) : Encodes i w := by
  unfold decodeFem at h
  dsimp only at h
  split at h
  case h_2 hop =>
    obtain ⟨htop, h⟩ := need_eq_ok_iff.1 h
    obtain ⟨hx, hi⟩ := need_eq_ok_iff.1 h
    cases hi
    exact ⟨congrArg some (encA_eq_iff.2 ⟨hm, eq_zero_of_beq hx, rfl, rfl,
      femFn_iff.2 ⟨eq_zero_of_beq htop, rfl, eq_ofNat_of_toNat hop⟩⟩), rfl⟩
  case h_4 => cases h
  all_goals
    obtain ⟨htop, h⟩ := need_eq_ok_iff.1 h
    obtain ⟨hz, hi⟩ := need_eq_ok_iff.1 h
    cases hi
    exact ⟨congrArg some (encA_eq_iff.2 ⟨hm, rfl, rfl, eq_zero_of_beq hz,
      femFn_iff.2 ⟨eq_zero_of_beq htop, rfl, eq_ofNat_of_toNat ‹_›⟩⟩), rfl⟩

theorem decodeFpo_sound (hm : fMajor w = 0x30) (h : decodeFpo w = .ok i) : Encodes i w := by
  unfold decodeFpo at h
  dsimp only at h
  split at h
  case h_5 hop | h_6 hop =>
    obtain ⟨hzero, hi⟩ := need_eq_ok_iff.1 h
    obtain ⟨htop, hcc, hr⟩ : w.extractLsb' 10 1 = 0 ∧ w.extractLsb' 7 3 = 0 ∧ w.extractLsb' 5 2 = 0 := by
      simpa [and_assoc] using hzero
    cases hi
    exact ⟨congrArg some (encA_eq_iff.2 ⟨hm, rfl, rfl, rfl, eq_fpoFn_iff.2 ⟨htop, hcc, hr, rfl, eq_ofNat_of_toNat hop⟩⟩), rfl⟩
  case h_7 hop =>
    obtain ⟨hzero, hi⟩ := need_eq_ok_iff.1 h
    obtain ⟨htop, hr⟩ := two_zero hzero
    cases hi
    exact ⟨congrArg some (encA_eq_iff.2 ⟨hm, rfl, rfl, rfl,
      eq_fpoFn_iff.2 ⟨htop, Cond.eq_toBits_iff.2 rfl, hr, rfl, eq_ofNat_of_toNat hop⟩⟩), rfl⟩
  case h_8 hop =>
    obtain ⟨htop, h⟩ := need_eq_ok_iff.1 h
    obtain ⟨hok, h⟩ := need_eq_ok_iff.1 h
    obtain ⟨hz, hi⟩ := need_eq_ok_iff.1 h
    cases hi
    exact ⟨congrArg some (encA_eq_iff.2 ⟨hm, rfl, rfl, eq_zero_of_beq hz, eq_fpoFn_iff.2 ⟨eq_zero_of_beq htop,
      Cvk.eq_toBits_iff.2 rfl, Rnd.eq_toBits_iff.2 rfl, rfl, eq_ofNat_of_toNat hop⟩⟩), hok⟩
  case h_9 hop | h_10 hop =>
    obtain ⟨hzero, h⟩ := need_eq_ok_iff.1 h
    obtain ⟨hz, hi⟩ := need_eq_ok_iff.1 h
    obtain ⟨htop, hcc⟩ := two_zero hzero
    cases hi
    exact ⟨congrArg some (encA_eq_iff.2 ⟨hm, rfl, rfl, eq_zero_of_beq hz,
      eq_fpoFn_iff.2 ⟨htop, hcc, Rnd.eq_toBits_iff.2 rfl, rfl, eq_ofNat_of_toNat hop⟩⟩), rfl⟩
  case h_11 => cases h
  all_goals
    obtain ⟨hzero, hi⟩ := need_eq_ok_iff.1 h
    obtain ⟨htop, hcc⟩ := two_zero hzero
    cases hi
    exact ⟨congrArg some (encA_eq_iff.2 ⟨hm, rfl, rfl, rfl,
      eq_fpoFn_iff.2 ⟨htop, hcc, Rnd.eq_toBits_iff.2 rfl, rfl, eq_ofNat_of_toNat ‹_›⟩⟩), rfl⟩

theorem decodeCtl_sound (hm : fMajor w = 0x31) (h : decodeCtl w = .ok i) : Encodes i w := by
  unfold decodeCtl at h
  dsimp only at h
  split at h
  case h_1 hop =>
    obtain ⟨hok, h⟩ := need_eq_ok_iff.1 h
    obtain ⟨hregs, hi⟩ := need_eq_ok_iff.1 h
    obtain ⟨hy, hz⟩ := two_zero hregs
    cases hi
    exact ⟨congrArg some (encA_eq_iff.2 ⟨hm, rfl, hy, hz, ctlFn_iff.2 ⟨rfl, eq_ofNat_of_toNat hop⟩⟩), hok⟩
  case h_2 hop | h_3 hop =>
    obtain ⟨hok, h⟩ := need_eq_ok_iff.1 h
    obtain ⟨hregs, hi⟩ := need_eq_ok_iff.1 h
    obtain ⟨hx, hz⟩ := two_zero hregs
    cases hi
    exact ⟨congrArg some (encA_eq_iff.2 ⟨hm, hx, rfl, hz, ctlFn_iff.2 ⟨rfl, eq_ofNat_of_toNat hop⟩⟩), hok⟩
  case h_4 h0 h1 h2 =>
    have hop : (w.extractLsb' 0 2).toNat = 3 := toNat_eq_three h0 h1 h2
    obtain ⟨hok, h⟩ := need_eq_ok_iff.1 h
    obtain ⟨hregs, hi⟩ := need_eq_ok_iff.1 h
    obtain ⟨hx, hz⟩ := two_zero hregs
    cases hi
    exact ⟨congrArg some (encA_eq_iff.2 ⟨hm, hx, rfl, hz, ctlFn_iff.2 ⟨rfl, eq_ofNat_of_toNat hop⟩⟩), hok⟩

theorem decodeSys_sound (hm : fMajor w = 0x32) (h : decodeSys w = .ok i) : Encodes i w := by
  unfold decodeSys at h
  dsimp only at h
  split at h
  case h_2 hop =>
    obtain ⟨hregs, hi⟩ := need_eq_ok_iff.1 h
    obtain ⟨hx, hy, hz⟩ := three_zero hregs
    cases hi
    exact ⟨congrArg some (encA_eq_iff.2 ⟨hm, hx, hy, hz, trapFn_iff.2 ⟨rfl, eq_ofNat_of_toNat hop⟩⟩), rfl⟩
  case h_3 hop =>
    obtain ⟨hcode, h⟩ := need_eq_ok_iff.1 h
    obtain ⟨hregs, hi⟩ := need_eq_ok_iff.1 h
    obtain ⟨hx, hz⟩ := two_zero hregs
    cases hi
    exact ⟨congrArg some (encA_eq_iff.2 ⟨hm, hx, rfl, hz, sysFn_iff.2 ⟨eq_zero_of_beq hcode, eq_ofNat_of_toNat hop⟩⟩), rfl⟩
  case h_8 => cases h
  all_goals
    obtain ⟨hcode, h⟩ := need_eq_ok_iff.1 h
    obtain ⟨hregs, hi⟩ := need_eq_ok_iff.1 h
    obtain ⟨hx, hy, hz⟩ := three_zero hregs
    cases hi
    exact ⟨congrArg some (encA_eq_iff.2 ⟨hm, hx, hy, hz, sysFn_iff.2 ⟨eq_zero_of_beq hcode, eq_ofNat_of_toNat ‹_›⟩⟩), rfl⟩

/-! ### Form E (R358) -/

/-- An operation with a gate operand, whose word has its other fields. -/
theorem encodes_gated {k : Option Reg → Instr} {op : Nat} (h : withGate w k = .ok i) (hm : fMajor w = m) (hx : fX w = x)
    (hy : fY w = y) (hz : fZ w = z) (hop : (op5 w).toNat = op)
    (henc : ∀ g, encode (k g) = some (encG m x y z g (BitVec.ofNat 5 op))) (hwf : ∀ g, (k g).wellFormed = true) : Encodes i w := by
  obtain ⟨g, hg, rfl⟩ := withGate_eq_ok_iff.1 h
  exact ⟨(henc g).trans (congrArg some (encG_eq_iff.2 ⟨hm, hx, hy, hz, hg, eq_ofNat_of_toNat hop⟩)), hwf g⟩

/-- An operation that cannot be deferred. -/
theorem encodes_plain {op : Nat} (h : notDeferred w j = .ok i) (hm : fMajor w = m) (hx : fX w = x)
    (hy : fY w = y) (hz : fZ w = z) (hop : (op5 w).toNat = op)
    (henc : encode j = some (encE m x y z 0 0 (BitVec.ofNat 5 op))) (hwf : j.wellFormed = true) : Encodes i w := by
  obtain ⟨hbit, hw, rfl⟩ := notDeferred_eq_ok_iff.1 h
  exact ⟨henc.trans (congrArg some (encE_eq_iff.2 ⟨hm, hx, hy, hz, hw, hbit, eq_ofNat_of_toNat hop⟩)), hwf⟩

theorem decodeStrm_sound (hm : fMajor w = 0x33) (h : decodeStrm w = .ok i) : Encodes i w := by
  unfold decodeStrm at h
  dsimp only at h
  split at h
  case h_6 hop | h_7 hop =>
    obtain ⟨hx, h⟩ := need_eq_ok_iff.1 h
    obtain ⟨hregs, h⟩ := need_eq_ok_iff.1 h
    obtain ⟨hy, hz⟩ := two_zero hregs
    exact encodes_plain h hm (eq_sixteenReg_iff.2 ⟨hx, rfl⟩) hy hz hop rfl rfl
  case h_10 => cases h
  all_goals exact encodes_gated h hm rfl rfl rfl ‹_› (fun _ => rfl) fun _ => rfl

theorem decodeMxop_sound (hm : fMajor w = 0x34) (h : decodeMxop w = .ok i) : Encodes i w := by
  unfold decodeMxop at h
  dsimp only at h
  split at h
  case h_1 hop | h_2 hop =>
    obtain ⟨hfields, h⟩ := need_eq_ok_iff.1 h
    obtain ⟨hx, hy⟩ := Bool.and_eq_true_iff.1 hfields
    exact encodes_gated h hm (eq_tileReg_iff.2 ⟨hx, rfl⟩) (eq_fifoSel_iff.2 ⟨eq_zero_of_beq hy, rfl, rfl⟩) rfl hop
      (fun _ => rfl) fun _ => rfl
  case h_3 hop =>
    obtain ⟨hx, h⟩ := need_eq_ok_iff.1 h
    obtain ⟨hregs, h⟩ := need_eq_ok_iff.1 h
    obtain ⟨hy, hz⟩ := two_zero hregs
    exact encodes_gated h hm (eq_tileReg_iff.2 ⟨hx, rfl⟩) hy hz hop (fun _ => rfl) fun _ => rfl
  case h_4 hop | h_5 hop =>
    obtain ⟨hx, h⟩ := need_eq_ok_iff.1 h
    obtain ⟨hz, h⟩ := need_eq_ok_iff.1 h
    exact encodes_gated h hm (eq_tileReg_iff.2 ⟨hx, rfl⟩) rfl (eq_zero_of_beq hz) hop (fun _ => rfl) fun _ => rfl
  case h_6 hop =>
    obtain ⟨hfields, h⟩ := need_eq_ok_iff.1 h
    obtain ⟨hx, hy⟩ := Bool.and_eq_true_iff.1 hfields
    obtain ⟨hz, h⟩ := need_eq_ok_iff.1 h
    exact encodes_gated h hm (eq_tileReg_iff.2 ⟨hx, rfl⟩) (eq_tileReg_iff.2 ⟨hy, rfl⟩) (eq_zero_of_beq hz) hop (fun _ => rfl)
      fun _ => rfl
  case h_7 hop =>
    obtain ⟨hregs, h⟩ := need_eq_ok_iff.1 h
    obtain ⟨hx, hy, hz⟩ := three_zero hregs
    exact encodes_plain h hm hx hy hz hop rfl rfl
  case h_8 hop =>
    obtain ⟨hx, h⟩ := need_eq_ok_iff.1 h
    obtain ⟨hz, h⟩ := need_eq_ok_iff.1 h
    exact encodes_gated h hm (eq_fifoReg_iff.2 ⟨hx, rfl⟩) rfl (eq_zero_of_beq hz) hop (fun _ => rfl) fun _ => rfl
  case h_9 => cases h

theorem decodeBar_sound (hm : fMajor w = 0x35) (h : decodeBar w = .ok i) : Encodes i w := by
  unfold decodeBar at h
  dsimp only at h
  split at h
  case h_1 hop => exact encodes_plain h hm rfl rfl rfl hop rfl rfl
  case h_2 hop =>
    obtain ⟨hregs, h⟩ := need_eq_ok_iff.1 h
    obtain ⟨hy, hz⟩ := two_zero hregs
    exact encodes_gated h hm rfl hy hz hop (fun _ => rfl) fun _ => rfl
  case h_3 hop =>
    obtain ⟨hz, h⟩ := need_eq_ok_iff.1 h
    exact encodes_gated h hm rfl rfl (eq_zero_of_beq hz) hop (fun _ => rfl) fun _ => rfl
  case h_4 hop =>
    obtain ⟨hregs, h⟩ := need_eq_ok_iff.1 h
    obtain ⟨hy, hz⟩ := two_zero hregs
    exact encodes_plain h hm rfl hy hz hop rfl rfl
  case h_5 hop =>
    obtain ⟨hz, h⟩ := need_eq_ok_iff.1 h
    exact encodes_plain h hm rfl rfl (eq_zero_of_beq hz) hop rfl rfl
  case h_6 => cases h

theorem decodeEvx_sound (hm : fMajor w = 0x36) (h : decodeEvx w = .ok i) : Encodes i w := by
  unfold decodeEvx at h
  dsimp only at h
  split at h
  case h_1 hop =>
    obtain ⟨hbit, h⟩ := need_eq_ok_iff.1 h
    have hbit : w.extractLsb' 5 1 = 0 := (bit_eq_zero_iff _).2 (by simpa using hbit)
    split at h
    · next hw =>
      obtain ⟨hx, hi⟩ := need_eq_ok_iff.1 h
      cases hi
      exact ⟨congrArg some (encE_eq_iff.2 ⟨hm, eq_sixteenReg_iff.2 ⟨hx, rfl⟩, rfl, rfl, eq_ofNat_of_toNat hw, hbit,
        eq_ofNat_of_toNat hop⟩), rfl⟩
    · next hw =>
      obtain ⟨hx, h⟩ := need_eq_ok_iff.1 h
      obtain ⟨hz, hi⟩ := need_eq_ok_iff.1 h
      cases hi
      exact ⟨congrArg some (encE_eq_iff.2 ⟨hm, eq_sixteenReg_iff.2 ⟨hx, rfl⟩, rfl, eq_zero_of_beq hz, eq_ofNat_of_toNat hw, hbit,
        eq_ofNat_of_toNat hop⟩), rfl⟩
    · next hw =>
      obtain ⟨hx, h⟩ := need_eq_ok_iff.1 h
      obtain ⟨hz, hi⟩ := need_eq_ok_iff.1 h
      cases hi
      exact ⟨congrArg some (encE_eq_iff.2 ⟨hm, beq_iff_eq.1 hx, rfl, eq_zero_of_beq hz, eq_ofNat_of_toNat hw, hbit,
        eq_ofNat_of_toNat hop⟩), rfl⟩
    · cases h
  case h_2 hop | h_4 hop =>
    obtain ⟨hregs, h⟩ := need_eq_ok_iff.1 h
    obtain ⟨hy, hz⟩ := two_zero hregs
    exact encodes_plain h hm rfl hy hz hop rfl rfl
  case h_3 hop =>
    obtain ⟨hx, h⟩ := need_eq_ok_iff.1 h
    obtain ⟨hregs, h⟩ := need_eq_ok_iff.1 h
    obtain ⟨hy, hz⟩ := two_zero hregs
    exact encodes_gated h hm (eventReg_iff.2 ⟨beq_iff_eq.1 hx, rfl⟩) hy hz hop (fun _ => rfl) fun _ => rfl
  case h_5 => cases h

theorem decodePhase_sound (hm : fMajor w = 0x37) (h : decodePhase w = .ok i) : Encodes i w := by
  unfold decodePhase at h
  dsimp only at h
  split at h
  case h_1 hop => exact encodes_gated h hm rfl rfl rfl hop (fun _ => rfl) fun _ => rfl
  case h_2 hop =>
    obtain ⟨hregs, h⟩ := need_eq_ok_iff.1 h
    obtain ⟨hy, hz⟩ := two_zero hregs
    exact encodes_plain h hm rfl hy hz hop rfl rfl
  case h_3 hop | h_4 hop =>
    obtain ⟨hz, h⟩ := need_eq_ok_iff.1 h
    exact encodes_plain h hm rfl rfl (eq_zero_of_beq hz) hop rfl rfl
  case h_5 hop =>
    obtain ⟨hregs, h⟩ := need_eq_ok_iff.1 h
    obtain ⟨hx, hy, hz⟩ := three_zero hregs
    exact encodes_plain h hm hx hy hz hop rfl rfl
  case h_6 => cases h

theorem decodeKvm_sound (hm : fMajor w = 0x38) (h : decodeKvm w = .ok i) : Encodes i w := by
  unfold decodeKvm at h
  dsimp only at h
  split at h
  case h_10 => cases h
  all_goals
    obtain ⟨hregs, h⟩ := need_eq_ok_iff.1 h
    obtain ⟨hy, hz⟩ := two_zero hregs
    exact encodes_gated h hm rfl hy hz ‹_› (fun _ => rfl) fun _ => rfl

theorem decodeSess_sound (hm : fMajor w = 0x39) (h : decodeSess w = .ok i) : Encodes i w := by
  unfold decodeSess at h
  dsimp only at h
  split at h
  case h_1 hop | h_2 hop => exact encodes_gated h hm rfl rfl rfl hop (fun _ => rfl) fun _ => rfl
  case h_3 hop =>
    obtain ⟨hregs, h⟩ := need_eq_ok_iff.1 h
    obtain ⟨hx, hy, hz⟩ := three_zero hregs
    exact encodes_plain h hm hx hy hz hop rfl rfl
  case h_4 hop =>
    obtain ⟨hregs, h⟩ := need_eq_ok_iff.1 h
    obtain ⟨hy, hz⟩ := two_zero hregs
    exact encodes_plain h hm rfl hy hz hop rfl rfl
  case h_5 => cases h

theorem decodeColl_sound (hm : fMajor w = 0x3a) (h : decodeColl w = .ok i) : Encodes i w := by
  unfold decodeColl at h
  dsimp only at h
  split at h
  case h_4 hop =>
    obtain ⟨hregs, h⟩ := need_eq_ok_iff.1 h
    obtain ⟨hy, hz⟩ := two_zero hregs
    exact encodes_plain h hm rfl hy hz hop rfl rfl
  case h_5 => cases h
  all_goals
    obtain ⟨hregs, h⟩ := need_eq_ok_iff.1 h
    obtain ⟨hy, hz⟩ := two_zero hregs
    exact encodes_gated h hm rfl hy hz ‹_› (fun _ => rfl) fun _ => rfl

theorem decodeBank_sound (hm : fMajor w = 0x3b) (h : decodeBank w = .ok i) : Encodes i w := by
  unfold decodeBank at h
  split at h
  case h_1 hop | h_2 hop => exact encodes_gated h hm rfl rfl rfl hop (fun _ => rfl) fun _ => rfl
  case h_3 => cases h

theorem decodeWset_sound (hm : fMajor w = 0x3c) (h : decodeWset w = .ok i) : Encodes i w := by
  unfold decodeWset at h
  dsimp only at h
  split at h
  case h_1 hop | h_3 hop =>
    obtain ⟨hz, h⟩ := need_eq_ok_iff.1 h
    exact encodes_plain h hm rfl rfl (eq_zero_of_beq hz) hop rfl rfl
  case h_2 hop =>
    obtain ⟨hregs, h⟩ := need_eq_ok_iff.1 h
    obtain ⟨hy, hz⟩ := two_zero hregs
    exact encodes_plain h hm rfl hy hz hop rfl rfl
  case h_4 => cases h

/-! ### Words (R303) -/

theorem decodeJr_sound (hm : fMajor w = 0x19) (h : (need (w.extractLsb' 1 10 == 0) .nonZeroField <|
    need (fX w == 0 && fZ w == 0) .unusedRegister <| .ok (if boolOf (w.extractLsb' 0 1) then .jrLink (fY w) else .jr (fY w))) = .ok i) :
    Encodes i w := by
  obtain ⟨hzero, h⟩ := need_eq_ok_iff.1 h
  obtain ⟨hregs, hi⟩ := need_eq_ok_iff.1 h
  obtain ⟨hx, hz⟩ := two_zero hregs
  split at hi
  · next hlink =>
    cases hi
    exact ⟨congrArg some (encA_eq_iff.2 ⟨hm, hx, rfl, hz, jrFn_iff.2 ⟨eq_zero_of_beq hzero, (bit_eq_one_iff _).2 hlink⟩⟩), rfl⟩
  · next hlink =>
    cases hi
    exact ⟨congrArg some (encA_eq_iff.2 ⟨hm, hx, rfl, hz, jrFn_iff.2 ⟨eq_zero_of_beq hzero,
      (bit_eq_zero_iff _).2 (Bool.eq_false_iff.2 hlink)⟩⟩), rfl⟩

/-- A word that is not refused is the word of its instruction. -/
theorem decode_sound (h : decode w = .ok i) : Encodes i w := by
  unfold decode at h
  split at h
  · cases h
  · next hne =>
    split at h
    case h_1 hm => exact decodeOpr_sound (eq_ofNat_of_toNat hm) hne h
    case h_6 hm => exact decodeShi_sound (eq_ofNat_of_toNat hm) h
    case h_9 hm | h_10 hm =>
      obtain ⟨hzero, hi⟩ := need_eq_ok_iff.1 h
      cases hi
      exact ⟨congrArg some (encI_eq_iff.2 ⟨eq_ofNat_of_toNat hm, rfl, halfFn_iff.2 ⟨eq_zero_of_beq hzero, rfl⟩, rfl⟩), rfl⟩
    case h_17 hm =>
      obtain ⟨hy, hi⟩ := need_eq_ok_iff.1 h
      cases hi
      exact ⟨congrArg some (encI_eq_iff.2 ⟨eq_ofNat_of_toNat hm, rfl, eq_zero_of_beq hy, rfl⟩), rfl⟩
    case h_18 hm | h_19 hm =>
      cases h
      exact ⟨congrArg some (encJ_eq_iff.2 ⟨eq_ofNat_of_toNat hm, rfl⟩), rfl⟩
    case h_20 hm => exact decodeJr_sound (eq_ofNat_of_toNat hm) h
    case h_34 hm => exact decodeOrd_sound (eq_ofNat_of_toNat hm) h
    case h_35 hm => exact decodeAtom_sound (eq_ofNat_of_toNat hm) h
    case h_36 hm => exact decodeFem_sound (eq_ofNat_of_toNat hm) h
    case h_37 hm => exact decodeFpo_sound (eq_ofNat_of_toNat hm) h
    case h_38 hm => exact decodeCtl_sound (eq_ofNat_of_toNat hm) h
    case h_39 hm => exact decodeSys_sound (eq_ofNat_of_toNat hm) h
    case h_40 hm => exact decodeStrm_sound (eq_ofNat_of_toNat hm) h
    case h_41 hm => exact decodeMxop_sound (eq_ofNat_of_toNat hm) h
    case h_42 hm => exact decodeBar_sound (eq_ofNat_of_toNat hm) h
    case h_43 hm => exact decodeEvx_sound (eq_ofNat_of_toNat hm) h
    case h_44 hm => exact decodePhase_sound (eq_ofNat_of_toNat hm) h
    case h_45 hm => exact decodeKvm_sound (eq_ofNat_of_toNat hm) h
    case h_46 hm => exact decodeSess_sound (eq_ofNat_of_toNat hm) h
    case h_47 hm => exact decodeColl_sound (eq_ofNat_of_toNat hm) h
    case h_48 hm => exact decodeBank_sound (eq_ofNat_of_toNat hm) h
    case h_49 hm => exact decodeWset_sound (eq_ofNat_of_toNat hm) h
    case h_50 hm =>
      obtain ⟨ho, hi⟩ := need_eq_ok_iff.1 h
      cases hi
      exact ⟨congrArg some (encJ_eq_iff.2 ⟨eq_ofNat_of_toNat hm, eq_zero_of_beq ho⟩), rfl⟩
    case h_51 => cases h
    all_goals
      cases h
      exact ⟨congrArg some (encI_eq_iff.2 ⟨eq_ofNat_of_toNat ‹_›, rfl, rfl, rfl⟩), rfl⟩

/-! ### Records (R317) -/

theorem decodeElem_sound (h : decodeElem r = .ok i) : encodeElem i = some r ∨ i = .elemRoute ∧ r.extractLsb' 32 32 = 0 := by
  have henc {op : Nat} (hop : (recOpcode r).toNat = op) : some (encRec (BitVec.ofNat 7 op) (recOf r)) = some r :=
    congrArg some (encRec_eq_iff.2 ⟨eq_ofNat_of_toNat hop, rfl⟩)
  unfold decodeElem at h
  dsimp only at h
  split at h
  case h_1 =>
    obtain ⟨hzero, hroute⟩ := need_eq_ok_iff.1 h
    cases hroute
    exact .inr ⟨rfl, eq_zero_of_beq hzero⟩
  all_goals cases h
  all_goals exact .inl (henc ‹_›)

/-! ### Dual pairs (R316) -/

theorem dualOfScalar_plain {f : DualForm} (h : dualOfScalar i = some f) : f.plain = i ∧ i.hasDual = true := by
  unfold dualOfScalar at h
  split at h <;> cases h <;> exact ⟨rfl, rfl⟩

/-- The plain instruction of a dual form is what its word decodes to. -/
theorem decode_of_decodeDual {f : DualForm} (h : decodeDual w = some f) : decode w = .ok f.plain ∧ f.plain.hasDual = true := by
  unfold decodeDual at h
  dsimp only at h
  split at h
  case h_1 hm =>
    split at h
    · next i hi =>
      split at h
      · cases h
      · next hne =>
        obtain ⟨rfl, hdual⟩ := dualOfScalar_plain h
        exact ⟨(decode_opr (eq_ofNat_of_toNat hm) hne).trans hi, hdual⟩
    · cases h
  case h_2 hm =>
    split at h
    · next i hi =>
      obtain ⟨rfl, hdual⟩ := dualOfScalar_plain h
      exact ⟨(decode_fpo (eq_ofNat_of_toNat hm)).trans hi, hdual⟩
    · cases h
  case h_3 hm | h_4 hm | h_5 hm | h_6 hm =>
    cases h
    have hmajor := eq_ofNat_of_toNat hm
    rw [decode, if_neg (ne_zero_of_major hmajor (by decide)), hmajor]
    exact ⟨rfl, rfl⟩
  case h_7 hm =>
    rw [decode_strm (eq_ofNat_of_toNat hm)]
    split at h
    case h_6 => cases h
    all_goals
      obtain ⟨g, hg, rfl⟩ := Option.map_eq_some_iff.1 h
      exact ⟨by simp [decodeStrm, *, withGate_of_gate hg, DualForm.plain], rfl⟩
  case h_8 hm =>
    rw [decode_mxop (eq_ofNat_of_toNat hm)]
    split at h
    · cases h
    · next htile =>
      have htile : isTile (fX w) = true := by simpa using htile
      split at h
      case h_7 => cases h
      all_goals
        split at h
        case isFalse => cases h
        obtain ⟨g, hg, rfl⟩ := Option.map_eq_some_iff.1 h
        exact ⟨by simp_all [decodeMxop, need, withGate_of_gate hg, DualForm.plain], rfl⟩
  case h_9 => cases h

/-- An instruction with a dual form is read from the second word of a pair. -/
theorem decodeDual_of_decode (h : decode w = .ok i) (hdual : i.hasDual = true) : ∃ f, decodeDual w = some f ∧ f.plain = i := by
  have henc := (decode_sound h).1
  have hfpo (hm : fMajor w = 0x30) {f : DualForm} (hf : dualOfScalar i = some f) : decodeDual w = some f := by
    rw [decode_fpo hm] at h
    simp [decodeDual, hm, h, hf]
  cases i with
  | fadd d a b r v | fsub d a b r v | fmul d a b r v | ffma d a b r v | fmin d a b v | fmax d a b v | fcmp d a b c v | fcvt d a k r v
  | fsqrt d a r v | frcp d a r v => exact ⟨_, hfpo (encA_eq_iff.1 (Option.some.inj henc)).1 rfl, rfl⟩
  | sel d a b =>
    obtain ⟨hm, -, -, -, hfn⟩ := encA_eq_iff.1 (Option.some.inj henc)
    have hne : ¬ w = 0#32 := ne_zero_of_sub (oprFn_iff.1 hfn).2 (by decide)
    rw [decode_opr hm hne] at h
    exact ⟨.sel d a b, by simp [decodeDual, hm, h, hne, dualOfScalar], rfl⟩
  | ldw d a o | ldd d a o | stw d a o | std d a o =>
    obtain ⟨hm, rfl, rfl, rfl⟩ := encI_eq_iff.1 (Option.some.inj henc)
    rw [decodeDual, hm]
    exact ⟨_, rfl, rfl⟩
  | scopy x y z g | sfeed x y z g | sdrain x y z g | sgath x y z g | sscat x y z g =>
    obtain ⟨hm, rfl, rfl, rfl, hg, hop⟩ := encG_eq_iff.1 (Option.some.inj henc)
    rw [decodeDual, hm]
    simp [hop, hg, DualForm.plain]
  | mma t bs as z g | mmag t bs as z g =>
    obtain ⟨hm, hx, hy, rfl, hg, hop⟩ := encG_eq_iff.1 (Option.some.inj henc)
    obtain ⟨htile, rfl⟩ := eq_tileReg_iff.1 hx
    obtain ⟨hzero, rfl, rfl⟩ := eq_fifoSel_iff.1 hy
    rw [decodeDual, hm]
    simp [hop, hg, htile, hzero, DualForm.plain]
  | aclr t g =>
    obtain ⟨hm, hx, hy, hz, hg, hop⟩ := encG_eq_iff.1 (Option.some.inj henc)
    obtain ⟨htile, rfl⟩ := eq_tileReg_iff.1 hx
    rw [decodeDual, hm]
    simp [hop, hg, htile, hy, hz, DualForm.plain]
  | ascale t y g | atob t y g =>
    obtain ⟨hm, hx, rfl, hz, hg, hop⟩ := encG_eq_iff.1 (Option.some.inj henc)
    obtain ⟨htile, rfl⟩ := eq_tileReg_iff.1 hx
    rw [decodeDual, hm]
    simp [hop, hg, htile, hz, DualForm.plain]
  | acpy t u g =>
    obtain ⟨hm, hx, hy, hz, hg, hop⟩ := encG_eq_iff.1 (Option.some.inj henc)
    obtain ⟨htile, rfl⟩ := eq_tileReg_iff.1 hx
    obtain ⟨htile2, rfl⟩ := eq_tileReg_iff.1 hy
    rw [decodeDual, hm]
    simp [hop, hg, htile, htile2, hz, DualForm.plain]
  | _ => exact nomatch hdual

end

/-- Settles O56: group by group of the decoder (`decode_sound`, `decodeElem_sound`), and for dual pairs both ways. -/
theorem decodedWordsEncodeToThemselves : Obligations.DecodedWordsEncodeToThemselves := by
  unfold Obligations.DecodedWordsEncodeToThemselves
  refine ⟨fun _ _ => decode_sound, fun _ _ => decodeElem_sound, fun w i => ⟨?_, fun ⟨h, hdual⟩ => decodeDual_of_decode h hdual⟩⟩
  rintro ⟨f, hf, rfl⟩
  exact decode_of_decodeDual hf

/-- Settles O54: each word and record is a literal, which the decoder evaluates. -/
theorem wordsDecodeAsTheSpecWritesThem : Obligations.WordsDecodeAsTheSpecWritesThem := by
  unfold Obligations.WordsDecodeAsTheSpecWritesThem
  exact ⟨rfl, rfl, rfl, rfl, rfl, rfl, rfl, rfl, rfl, rfl, rfl, rfl, rfl, rfl, rfl, rfl, rfl, rfl, rfl, rfl, rfl, rfl, rfl, rfl, rfl,
    rfl, rfl, rfl, rfl, rfl, rfl, rfl, rfl, rfl, rfl, rfl, rfl, rfl, rfl, rfl, rfl, rfl, rfl⟩

end Sys2Proof
end

