-- ==== Sys2Proof/Proofs/Elements.lean ====
section
/-! SUPPORT. The firing of a site, said once: what taking inputs and writing outputs do to links and leave alone, what the steps
of an ALU element and of a reduction do on data tokens, and the lanes of a word. -/

namespace Sys2Proof.Machine

/-! ### Links (R214, R217) -/

/-- Of a cell only what its links hold and the counts of its breakpoints may differ. -/
def Cell.OnlyLinks (c c' : Cell) : Prop := c' = { c with fabric := { c.fabric with links := c'.fabric.links }, bps := c'.bps }

/-- Of a cell only its fabric and the counts of its breakpoints may differ. -/
def Cell.OnlyFabric (c c' : Cell) : Prop := c' = { c with fabric := c'.fabric, bps := c'.bps }

theorem Cell.OnlyLinks.refl (c : Cell) : c.OnlyLinks c := rfl

theorem Cell.OnlyLinks.trans {c d e : Cell} (h : c.OnlyLinks d) (g : d.OnlyLinks e) : c.OnlyLinks e := by
  unfold Cell.OnlyLinks at *
  rw [g, h]

theorem Cell.OnlyLinks.fabric {c d : Cell} (h : c.OnlyLinks d) : c.OnlyFabric d := by
  unfold Cell.OnlyLinks at h
  unfold Cell.OnlyFabric
  rw [h]

theorem Cell.OnlyFabric.trans {c d e : Cell} (h : c.OnlyFabric d) (g : d.OnlyFabric e) : c.OnlyFabric e := by
  unfold Cell.OnlyFabric at *
  rw [g, h]

theorem Cell.OnlyFabric.withFabric (c : Cell) (f : Fabric → Fabric) : c.OnlyFabric (c.withFabric f) := rfl

theorem Cell.OnlyLinks.setLink (c : Cell) (l : Nat) (v : Link) : c.OnlyLinks (c.setLink l v) := rfl

theorem Cell.link_setLink (c : Cell) (l m : Nat) (v : Link) : (c.setLink l v).link m = if m = l then v else c.link m :=
  Map.get_set ..

theorem Cell.OnlyLinks.takeHead (c : Cell) (p : Pass) (l u : Nat) : c.OnlyLinks (c.takeHead p l u) := .setLink ..

/-- Every consumer on a list of links takes its head, one after another. -/
theorem Cell.OnlyLinks.foldl {α : Type} (f : Cell → α → Cell) (h : ∀ (c : Cell) x, c.OnlyLinks (f c x)) (l : List α) (c : Cell) :
    c.OnlyLinks (l.foldl f c) := by
  induction l generalizing c with
  | nil => exact .refl c
  | cons x l ih => exact (h c x).trans (ih _)

theorem At.take_onlyLinks (a : At) (c : Cell) : c.OnlyLinks (a.take c) := .foldl _ (fun _ _ => .takeHead ..) _ _

theorem Cell.emit_onlyLinks (c : Cell) (p : Pass) (site d : Nat) (t : Tok) : c.OnlyLinks (c.emit p site d t) := by
  unfold Cell.emit
  dsimp only
  split <;> split <;> rfl

theorem At.write_onlyLinks (a : At) (c : Cell) (l : List Nat) (t : Tok) : c.OnlyLinks (a.write c l t) :=
  .foldl _ (fun _ _ => Cell.emit_onlyLinks ..) _ _

/-- A token that has a reader stands at the end of its link. -/
theorem Cell.emit_last (c : Cell) (p : Pass) (site d : Nat) (t : Tok) (h : p.image.users (linkOf site d) ≠ []) :
    ((c.emit p site d t).link (linkOf site d)).q.getLast? = some t := by
  unfold Cell.emit
  rw [if_neg (by simpa using h), Cell.link_setLink, if_pos rfl]
  simp

/-- A token on another link leaves a link as it is. -/
theorem Cell.emit_link_of_ne (c : Cell) (p : Pass) (site d : Nat) (t : Tok) {m : Nat} (h : m ≠ linkOf site d) :
    (c.emit p site d t).link m = c.link m := by
  unfold Cell.emit
  dsimp only
  split
  · split <;> rfl
  · rw [Cell.link_setLink, if_neg h]
    split <;> rfl

theorem At.write_keeps_last (a : At) (l : List Nat) (t : Tok) (m : Nat) (hm : a.p.image.users m ≠ []) (c : Cell)
    (h : (c.link m).q.getLast? = some t) : ((a.write c l t).link m).q.getLast? = some t := by
  unfold At.write
  induction l generalizing c with
  | nil => exact h
  | cons d l ih =>
    refine ih _ ?_
    by_cases hd : m = linkOf a.site d
    · subst hd
      exact Cell.emit_last _ _ _ _ _ hm
    · rw [Cell.emit_link_of_ne _ _ _ _ _ hd]
      exact h

/-- A token written to several outputs stands at the end of each that has a reader. -/
theorem At.write_last (a : At) (l : List Nat) (t : Tok) (c : Cell) {d : Nat} (hd : d ∈ l)
    (h : a.p.image.users (linkOf a.site d) ≠ []) : ((a.write c l t).link (linkOf a.site d)).q.getLast? = some t := by
  obtain ⟨l₁, l₂, rfl⟩ := List.append_of_mem hd
  unfold At.write
  rw [List.foldl_append, List.foldl_cons]
  exact a.write_keeps_last l₂ t _ h _ (Cell.emit_last _ _ _ _ _ h)

/-! ### A site that fires -/

/-- The record of the site in focus is the one asked for. -/
theorem State.atSite_eq (h : State.atSite s op r = some a) :
    a.n = s.focus.cell ∧ a.site = s.focus.site ∧ a.x.op = op ∧ a.x.r = r := by
  unfold State.atSite at h
  dsimp only at h
  split at h
  · cases h
  · obtain ⟨p, -, rfl⟩ := Option.map_eq_some_iff.mp h
    exact ⟨rfl, rfl, rfl, rfl⟩

/-- A site that fires does what its operation does with data tokens. -/
theorem Fires.fireSite {mark : At → Tok → List Nat → State} {data : At → List (Nat × Tok) → State} (h : Fires s op r a ts) :
    fireSite s op r mark data = .next (data a ts) := by
  unfold Machine.fireSite
  simp only [h.site, h.view]

/-- A cell whose outputs all end in a token of a value. -/
theorem At.write_emits (s : State) (a : At) (ha : a.n = s.focus.cell) (c d : Cell) (thread : Nat) (v : W32) (tans : List W32)
    (hd : d.fabric.links = (a.write c a.outs (a.tok .data thread v tans)).fabric.links) :
    Emits (s.setCell a.n d) a thread v tans := by
  intro o ho hu
  refine ⟨a.tok .data thread v tans, ?_, rfl, rfl, rfl, rfl, rfl, rfl⟩
  rw [ha, State.cur_setCell_focus]
  unfold Cell.link
  rw [hd]
  exact a.write_last _ _ _ ho hu

/-- The site in focus emits a value where its outputs end in it and the rest of the cell is as before. -/
theorem At.write_yields (s : State) (a : At) (ha : a.n = s.focus.cell) (c d : Cell) (thread : Nat) (v : W32) (tans : List W32)
    (hd : d.fabric.links = (a.write c a.outs (a.tok .data thread v tans)).fabric.links) (hc : s.cur.OnlyFabric d) :
    Yields s (s.setCell a.n d) a thread v tans where
  token := a.write_emits s ha c d thread v tans hd
  cell := by rw [ha, State.cur_setCell_focus]; exact hc
  only := by rw [ha]; exact .setCur s d

theorem At.tans_eq (h : a.x.r = r) (tw : Nat) (f : Nat → W32) :
    At.tans a tw f = if r.d = true ∧ r.ty = .f32 then tabulate tw f else List.replicate tw 0 := by
  simp [At.tans, h]

/-- An ALU element that fires emits its result with its tangents (R217, R231). -/
theorem Fires.aluStep {f : AluIn → W32} {g : AluIn → W32 → Nat → W32} (h : Fires s op r a ts) :
    ∃ t, aluStep s op r f g = .next t ∧ Yields s t a (a.input ts).thread (f (a.input ts))
      (if r.d = true ∧ r.ty = .f32 then tabulate s.cur.ident.tw (g (a.input ts) (f (a.input ts)))
        else List.replicate s.cur.ident.tw 0) := by
  obtain ⟨hn, -, -, hr⟩ := State.atSite_eq h.site
  have hcell : s.cell a.n = s.cur := by rw [hn]; rfl
  refine ⟨_, h.fireSite, ?_⟩
  rw [← a.tans_eq hr]
  unfold State.aluFire
  rw [hcell]
  simp only [h.room, h.clean, Bool.not_true, Bool.false_eq_true, if_false]
  exact a.write_yields s hn _ _ _ _ _ rfl
    ((((a.take_onlyLinks _).trans (a.write_onlyLinks _ _ _)).fabric).trans (.withFabric ..))

/-- An element whose operation has this result completes with it. -/
theorem Fires.gives {i : ElemRec → Instr} {f : AluIn → W32} {g : AluIn → W32 → Nat → W32} {v : W32} {tan : Nat → W32}
    (h : Fires s op r a ts) (hi : exec (i r) s = Machine.aluStep s op r f g) (hv : f (a.input ts) = v)
    (ht : r.d = true ∧ r.ty = .f32 → g (a.input ts) v = tan) :
    Completes (i r) s fun t => Yields s t a (a.input ts).thread v
      (if r.d = true ∧ r.ty = .f32 then tabulate s.cur.ident.tw tan else List.replicate s.cur.ident.tw 0) := by
  subst hv
  obtain ⟨t, ht', hy⟩ := h.aluStep (f := f) (g := g)
  refine .of_exec hi ⟨t, ht', ?_⟩
  split at hy
  next hd => rwa [if_pos hd, ← ht hd]
  next hd => rwa [if_neg hd]

theorem tabulate_const {α : Type} (n : Nat) (x : α) : (tabulate n fun _ => x) = List.replicate n x := by
  simp [tabulate]

/-- An element whose tangents are zero completes with its result and zeros. -/
theorem Fires.word {i : ElemRec → Instr} {f : AluIn → W32} {v : W32} (h : Fires s op r a ts)
    (hi : exec (i r) s = Machine.aluStep s op r f noTan) (hv : f (a.input ts) = v) :
    Completes (i r) s fun t => Yields s t a (a.input ts).thread v (List.replicate s.cur.ident.tw 0) := by
  have := h.gives hi hv fun _ => rfl
  rwa [show noTan (a.input ts) v = fun _ => 0 from rfl, tabulate_const, ite_self] at this

end Sys2Proof.Machine
end

