-- ==== Sys2Proof/Proofs/ElementMoves.lean ====
section
/-! RULE. The moves of the Trellis (R397). -/

namespace Sys2Proof.Machine

/-- Settles O33: a move gives the operand that it passes, by the step of an ALU element. -/
theorem elementMoves : Obligations.ElementMoves := by
  intro s r a ts
  exact ⟨fun h => h.gives (exec_elemMov s r) rfl fun _ => rfl,
    fun h => h.gives (exec_elemConst s r) rfl fun _ => rfl,
    fun h => h.gives (exec_elemTid s r) rfl fun _ => rfl,
    fun ha h => h.gives (exec_elemSel s r) (if_pos ha) fun _ => funext fun _ => if_pos ha,
    fun ha h => h.gives (exec_elemSel s r) (if_neg (not_not_intro ha)) fun _ => funext fun _ => if_neg (not_not_intro ha)⟩

end Sys2Proof.Machine
end

