-- ==== Sys2Proof/Proofs/ElementIntegers.lean ====
section
/-! RULE. The lanes of a word, and the integer operations of the Trellis on them (R398 to R400). -/

namespace Sys2Proof.Machine

/-! ### The lanes of a word -/

theorem lanes_foldr_lt (w : Nat) (l : List Nat) : l.foldr (fun x r => x % 2 ^ w + 2 ^ w * r) 0 < 2 ^ (w * l.length) := by
  induction l with
  | nil => simp
  | cons x l ih =>
    have hx := Nat.mod_lt x (Nat.two_pow_pos w)
    rw [List.foldr_cons, List.length_cons, Nat.mul_succ, Nat.pow_add]
    calc x % 2 ^ w + 2 ^ w * l.foldr (fun x r => x % 2 ^ w + 2 ^ w * r) 0
        < 2 ^ w * (l.foldr (fun x r => x % 2 ^ w + 2 ^ w * r) 0 + 1) := by rw [Nat.mul_succ]; omega
      _ ≤ 2 ^ w * 2 ^ (w * l.length) := Nat.mul_le_mul_left _ ih
      _ = 2 ^ (w * l.length) * 2 ^ w := Nat.mul_comm ..

/-- The digits of a number put together from lanes are the lanes. -/
theorem lanes_foldr_digit (w : Nat) (l : List Nat) (k : Nat) :
    l.foldr (fun x r => x % 2 ^ w + 2 ^ w * r) 0 / 2 ^ (w * k) % 2 ^ w = l.getD k 0 % 2 ^ w := by
  have hpos := Nat.two_pow_pos w
  induction l generalizing k with
  | nil => simp
  | cons x l ih =>
    cases k with
    | zero => simp [Nat.add_mod]
    | succ k =>
      rw [List.foldr_cons, Nat.mul_succ, Nat.add_comm (w * k), Nat.pow_add, ← Nat.div_div_eq_div_mul,
        Nat.add_mul_div_left _ _ hpos, Nat.div_eq_of_lt (Nat.mod_lt x hpos), Nat.zero_add, ih]
      rfl

theorem laneBits_mul (ty : ElTy) : laneBits ty * (32 / laneBits ty) = 32 := by cases ty <;> rfl

theorem laneBits_pos (ty : ElTy) : 0 < laneBits ty := by cases ty <;> decide

/-- Lane k of a word made lane by lane is the operation on the lanes k. -/
theorem laneAt_laneMap (ty : ElTy) (f : Nat → Nat → Nat → Nat) (a b c : W32) {k : Nat} (hk : k < 32 / laneBits ty) :
    laneAt (laneBits ty) (laneMap ty f a b c) k
      = f (laneAt (laneBits ty) a k) (laneAt (laneBits ty) b k) (laneAt (laneBits ty) c k) % 2 ^ laneBits ty := by
  have hlt := lanes_foldr_lt (laneBits ty) (tabulate (32 / laneBits ty) fun i =>
    f (laneAt (laneBits ty) a i) (laneAt (laneBits ty) b i) (laneAt (laneBits ty) c i))
  rw [show (tabulate _ _ : List Nat).length = 32 / laneBits ty by simp [tabulate], laneBits_mul] at hlt
  rw [laneAt, laneMap, ofLanes, BitVec.toNat_ofNat, Nat.mod_eq_of_lt hlt, lanes_foldr_digit]
  simp [tabulate, List.getD, hk]

theorem laneAt_lt (w : Nat) (v : W32) (k : Nat) : laneAt w v k < 2 ^ w := Nat.mod_lt _ (Nat.two_pow_pos w)

/-- A lane as an integer. -/
theorem laneInt_eq (ty : ElTy) {n : Nat} (hn : n < 2 ^ laneBits ty) :
    laneInt ty n = if laneSigned ty = true ∧ 2 ^ (laneBits ty - 1) ≤ n then (n : Int) - 2 ^ laneBits ty else n := by
  unfold laneInt signedOf
  rw [Nat.mod_eq_of_lt hn]
  by_cases hs : laneSigned ty = true
  · by_cases hb : n < 2 ^ (laneBits ty - 1)
    · rw [if_pos hs, if_pos hb, if_neg (by omega)]
    · rw [if_pos hs, if_neg hb, if_pos ⟨hs, by omega⟩, Nat.cast_pow]
      rfl
  · rw [if_neg hs, if_neg fun h => hs h.1]

/-- The exact result of a lane, wrapped, is a lane. -/
theorem reduceLane_lt (ty : ElTy) (sat : Bool) (x : Int) : reduceLane ty sat x < 2 ^ laneBits ty := by
  unfold reduceLane
  dsimp only
  rw [Int.toNat_lt (Int.emod_nonneg _ (by positivity))]
  exact_mod_cast Int.emod_lt_of_pos _ (by positivity)

/-- A lane of an integer operation is its exact result, reduced. -/
theorem laneAt_intMap (ty : ElTy) (sat : Bool) (f : Int → Int → Int → Int) (a b c : W32) {k : Nat} (hk : k < 32 / laneBits ty) :
    laneAt (laneBits ty) (intMap ty sat f a b c) k = reduceLane ty sat (f (laneInt ty (laneAt (laneBits ty) a k))
      (laneInt ty (laneAt (laneBits ty) b k)) (laneInt ty (laneAt (laneBits ty) c k))) := by
  rw [intMap, laneAt_laneMap _ _ _ _ _ hk]
  exact Nat.mod_eq_of_lt (reduceLane_lt ..)

/-- A lane that already fits is kept by wrapping. -/
theorem reduceLane_laneInt (ty : ElTy) {n : Nat} (hn : n < 2 ^ laneBits ty) : reduceLane ty false (laneInt ty n) = n := by
  have hcast : ((2 ^ laneBits ty : Nat) : Int) = 2 ^ laneBits ty := by norm_cast
  unfold reduceLane
  simp only [Bool.false_eq_true, if_false]
  have hmod : (n : Int) % 2 ^ laneBits ty = n := Int.emod_eq_of_lt (by omega) (by omega)
  rw [laneInt_eq ty hn]
  split
  · rw [Int.sub_emod_right, hmod]
    exact Int.toNat_natCast n
  · rw [hmod]
    exact Int.toNat_natCast n

theorem laneInt_inj (ty : ElTy) {p q : Nat} (hp : p < 2 ^ laneBits ty) (hq : q < 2 ^ laneBits ty) :
    laneInt ty p = laneInt ty q ↔ p = q :=
  ⟨fun h => by rw [← reduceLane_laneInt ty hp, h, reduceLane_laneInt ty hq], fun h => by rw [h]⟩

theorem bitVec2_cases : ∀ l : BitVec 2, l = 0 ∨ l = 1 ∨ l = 2 ∨ l = 3 := by decide

/-- The lesser and the greater of two lanes is one of them. -/
theorem reduceLane_min (ty : ElTy) {p q : Nat} (hp : p < 2 ^ laneBits ty) (hq : q < 2 ^ laneBits ty) :
    reduceLane ty false (min (laneInt ty p) (laneInt ty q)) = if laneInt ty p ≤ laneInt ty q then p else q := by
  rw [min_def, apply_ite (reduceLane ty false), reduceLane_laneInt _ hp, reduceLane_laneInt _ hq]

theorem reduceLane_max (ty : ElTy) {p q : Nat} (hp : p < 2 ^ laneBits ty) (hq : q < 2 ^ laneBits ty) :
    reduceLane ty false (max (laneInt ty p) (laneInt ty q)) = if laneInt ty p ≤ laneInt ty q then q else p := by
  rw [max_def, apply_ite (reduceLane ty false), reduceLane_laneInt _ hp, reduceLane_laneInt _ hq]

theorem laneZeros_le (w n : Nat) : laneZeros w n ≤ w := by
  unfold laneZeros
  split <;> omega

/-- The one bits of a lane, counted one after another. -/
theorem onesOf_eq (w n : Nat) : onesOf w n = ((List.range w).filter fun i => n.testBit i).length := by
  unfold onesOf
  induction w with
  | zero => rfl
  | succ w ih =>
    rw [List.range_succ, List.foldl_append, ih, List.filter_append, List.length_append]
    by_cases h : n / 2 ^ w % 2 = 1
    · simp [Nat.testBit, Nat.shiftRight_eq_div_pow, h]
    · simp [Nat.testBit, Nat.shiftRight_eq_div_pow, h]
      omega

theorem onesOf_le (w n : Nat) : onesOf w n ≤ w := by
  rw [onesOf_eq]
  exact (List.length_filter_le ..).trans_eq List.length_range

/-! ### Operations on lanes -/

/-- An element whose operation computes these lanes completes with them and with zero tangents. -/
theorem Fires.lanes {i : ElemRec → Instr} {g : AluIn → W32} {f : Nat → Nat → Nat → Nat} (h : Fires s op r a ts)
    (hi : exec (i r) s = Machine.aluStep s op r g noTan)
    (hv : ∀ k, k < 32 / laneBits r.ty → laneAt (laneBits r.ty) (g (a.input ts)) k = f (laneAt (laneBits r.ty) (a.input ts).a.v k)
      (laneAt (laneBits r.ty) (a.input ts).b.v k) (laneAt (laneBits r.ty) (a.input ts).c.v k)) :
    Completes (i r) s fun t => ∃ v, Yields s t a (a.input ts).thread v (List.replicate s.cur.ident.tw 0)
      ∧ ∀ k, k < 32 / laneBits r.ty → laneAt (laneBits r.ty) v k = f (laneAt (laneBits r.ty) (a.input ts).a.v k)
        (laneAt (laneBits r.ty) (a.input ts).b.v k) (laneAt (laneBits r.ty) (a.input ts).c.v k) := by
  obtain ⟨t, ht, hy⟩ := h.word hi rfl
  exact ⟨t, ht, _, hy, hv⟩

/-- The integer of a lane, its range and its wrapping, as the spec writes them out (R398). -/
theorem reduceLane_eq (r : ElemRec) (x : Int) : reduceLane r.ty (r.var == 1) x
    = ((if r.var = 1 then max (if laneSigned r.ty then -(2 ^ (laneBits r.ty - 1)) else 0)
        (min (if laneSigned r.ty then 2 ^ (laneBits r.ty - 1) - 1 else 2 ^ laneBits r.ty - 1) x) else x)
      % 2 ^ laneBits r.ty).toNat := by
  simp [reduceLane]

/-- The order of two integers holds of a condition as the condition of the integers does. -/
theorem condHolds_intOrder (c : Cond) (x y : Int) : condHolds c (intOrder x y) =
    match c with
    | .eq => decide (x = y) | .ne => decide (x ≠ y) | .lt => decide (x < y) | .le => decide (x ≤ y)
    | .gt => decide (y < x) | .ge => decide (y ≤ x) | .un => false | .ord => true := by
  unfold intOrder
  cases c <;> simp only [condHolds] <;> grind

/-- The conditions of `CMP` without its variant bit, and with it (R320). -/
theorem elemCond_low (r : ElemRec) (hv : r.var = 0) :
    elemCond r = match r.lvl with | 0 => .eq | 1 => .ne | 2 => .lt | _ => .le := by
  unfold elemCond
  rw [hv]
  generalize r.lvl = l
  revert l
  decide

theorem elemCond_high (r : ElemRec) (hv : r.var = 1) :
    elemCond r = match r.lvl with | 0 => .gt | 1 => .ge | 2 => .un | _ => .ord := by
  unfold elemCond
  rw [hv]
  generalize r.lvl = l
  revert l
  decide

/-- The bits of a word that a 64-bit count selects of it, all 32 at most. -/
theorem bitField_unsigned (r : ElemRec) (ht : r.ty = .n32) (v p n : W32) :
    bitField r v p n = BitVec.ofNat 32 (v.toNat / 2 ^ (p.toNat % 32) % 2 ^ min 32 (n.toNat % 64)) := by
  simp only [bitField, laneInt, laneSigned, ht, Bool.false_eq_true, if_false]
  rw [BitVec.ofInt_natCast]
  norm_cast

theorem bitField_signed (r : ElemRec) (ht : r.ty = .i32) (v p n : W32) :
    bitField r v p n = let n := min 32 (n.toNat % 64)
        let v := (v.toInt / 2 ^ (p.toNat % 32) % 2 ^ n).toNat
        BitVec.ofInt 32 (if n ≠ 0 ∧ 2 ^ (n - 1) ≤ v then (v : Int) - 2 ^ n else v) := by
  have hint : laneInt .i32 v.toNat = v.toInt := by
    rw [laneInt, BitVec.toInt_eq_toNat_cond]
    simp only [laneSigned, laneBits, if_true, signedOf]
    have := v.isLt
    grind
  have hlt (n : Nat) : (v.toInt / 2 ^ (p.toNat % 32) % 2 ^ n).toNat < 2 ^ n := by
    rw [Int.toNat_lt (Int.emod_nonneg _ (by positivity))]
    exact_mod_cast Int.emod_lt_of_pos _ (by positivity)
  simp only [bitField, ht, hint, laneSigned, if_true, signedOf, Nat.mod_eq_of_lt (hlt _)]
  congr 1
  have hfield := hlt (min 32 (n.toNat % 64))
  by_cases h0 : min 32 (n.toNat % 64) = 0
  · rw [h0] at hfield ⊢
    simp at hfield ⊢
  · simp only [h0, ne_eq, not_false_eq_true, true_and, Nat.cast_pow, Nat.cast_ofNat]
    split <;> split <;> omega

/-- Settles O34: each operation computes its lanes one by one, and its tangents are zero. -/
theorem elementIntegerResults : Obligations.ElementIntegerResults := by
  intro s r a ts x w signed int lo hi wrap fit zeros lane lanes word
  have hint : ∀ v k, int (lane v k) = laneInt r.ty (lane v k) := fun v k => (laneInt_eq r.ty (laneAt_lt w v k)).symm
  have hfit : ∀ n, fit n = reduceLane r.ty (r.var == 1) n := fun n => (reduceLane_eq r n).symm
  have rule {i : ElemRec → Instr} {op : BitVec 7} {f : Nat → Nat → Nat → Nat} {g : AluIn → W32}
      (hi : exec (i r) s = aluStep s op r g noTan) (hv : ∀ k, k < 32 / w →
        lane (g x) k = f (lane x.a.v k) (lane x.b.v k) (lane x.c.v k)) : lanes i op f := fun h => h.lanes hi hv
  clear_value lanes
  have fits (F : Int → Int → Int → Int) (p q z : W32) (k : Nat) (hk : k < 32 / w) :
      lane (intMap r.ty (r.var == 1) F p q z) k = fit (F (int (lane p k)) (int (lane q k)) (int (lane z k))) := by
    rw [hfit, hint, hint, hint]
    exact laneAt_intMap _ _ _ _ _ _ hk
  have raw (F : Nat → Nat → Nat → Nat) (p q z : W32) (k : Nat) (hk : k < 32 / w)
      (hF : F (lane p k) (lane q k) (lane z k) < 2 ^ w) :
      lane (laneMap r.ty F p q z) k = F (lane p k) (lane q k) (lane z k) :=
    (laneAt_laneMap _ _ _ _ _ hk).trans (Nat.mod_eq_of_lt hF)
  have cmps (k : Nat) (hk : k < 32 / w) : lane (laneCmp r x.a.v x.b.v) k
      = if condHolds (elemCond r) (intOrder (int (lane x.a.v k)) (int (lane x.b.v k))) then 1 else 0 := by
    rw [hint, hint]
    refine raw (fun p q _ => if condHolds (elemCond r) (intOrder (laneInt r.ty p) (laneInt r.ty q)) then 1 else 0) _ _ 0 k hk ?_
    have : 1 < 2 ^ w := Nat.one_lt_two_pow (laneBits_pos r.ty).ne'
    split <;> omega
  refine ⟨?add, ?sub,
    ?mul, ?mulhi,
    ?mad, ?min,
    ?max, ?abs,
    ?neg, fun h => h.word (exec_elemAnd s r) rfl,
    fun h => h.word (exec_elemOr s r) rfl, fun h => h.word (exec_elemXor s r) rfl,
    ?shl, ?shr,
    ?sha, ?clz,
    ?popc, fun ht h => h.word (exec_elemBfx s r) (bitField_unsigned r ht ..),
    fun ht h => h.word (exec_elemBfx s r) (bitField_signed r ht ..), fun hv => ?cmp,
    fun hv => ?cmpHigh⟩
  case add => exact rule (exec_elemAdd s r) fun _ => fits (fun p q _ => p + q) _ _ _ _
  case sub => exact rule (exec_elemSub s r) fun _ => fits (fun p q _ => p - q) _ _ _ _
  case mul => exact rule (exec_elemMul s r) fun _ => fits (fun p q _ => p * q) _ _ _ _
  case mad => exact rule (exec_elemMad s r) fun _ => fits (fun p q z => p * q + z) _ _ _ _
  case abs => exact rule (exec_elemAbs s r) fun _ => fits (fun p _ _ => p.natAbs) _ _ _ _
  case neg => exact rule (exec_elemNeg s r) fun _ => fits (fun p _ _ => -p) _ _ _ _
  case mulhi =>
    refine rule (exec_elemMulhi s r) fun k hk => ?_
    rw [hint, hint]
    exact laneAt_intMap _ _ _ _ _ _ hk
  case min =>
    refine rule (exec_elemMin s r) fun k hk => ?_
    rw [hint, hint]
    exact (laneAt_intMap _ _ _ _ _ _ hk).trans (reduceLane_min _ (laneAt_lt ..) (laneAt_lt ..))
  case max =>
    refine rule (exec_elemMax s r) fun k hk => ?_
    rw [hint, hint]
    exact (laneAt_intMap _ _ _ _ _ _ hk).trans (reduceLane_max _ (laneAt_lt ..) (laneAt_lt ..))
  case shl =>
    refine rule (exec_elemShl s r) fun k hk => ?_
    rw [hint, hfit]
    exact raw (fun p q _ => reduceLane r.ty (r.var == 1) (laneInt r.ty p * 2 ^ (q % w))) _ _ 0 _ hk (reduceLane_lt ..)
  case shr =>
    refine rule (exec_elemShr s r) fun k hk => ?_
    exact raw (fun p q _ => p / 2 ^ (q % w)) _ _ 0 _ hk ((Nat.div_le_self ..).trans_lt (laneAt_lt ..))
  case sha =>
    refine rule (exec_elemSha s r) fun k hk => ?_
    rw [hint]
    exact raw (fun p q _ => reduceLane r.ty false (laneInt r.ty p / 2 ^ (q % w))) _ _ 0 _ hk (reduceLane_lt ..)
  case clz =>
    refine rule (exec_elemClz s r) fun k hk => ?_
    exact raw (fun p _ _ => laneZeros w p) _ 0 0 _ hk ((laneZeros_le ..).trans_lt Nat.lt_two_pow_self)
  case popc =>
    refine rule (exec_elemPopc s r) fun k hk => ?_
    rw [← onesOf_eq]
    exact raw (fun p _ _ => onesOf w p) _ 0 0 _ hk ((onesOf_le ..).trans_lt Nat.lt_two_pow_self)
  case cmp =>
    refine rule (exec_elemCmp s r) fun k hk => ?_
    have heq : int (lane x.a.v k) = int (lane x.b.v k) ↔ lane x.a.v k = lane x.b.v k := by
      rw [hint, hint]
      exact laneInt_inj r.ty (laneAt_lt ..) (laneAt_lt ..)
    rw [cmps k hk, elemCond_low r hv, condHolds_intOrder]
    rcases bitVec2_cases r.lvl with h | h | h | h <;> simp [h, heq]
  case cmpHigh =>
    refine rule (exec_elemCmp s r) fun k hk => ?_
    rw [cmps k hk, elemCond_high r hv, condHolds_intOrder]
    rcases bitVec2_cases r.lvl with h | h | h | h <;> simp [h]

end Sys2Proof.Machine
end

