-- ==== Sys2Proof/Proofs/ElementFloats.lean ====
section
/-! RULE. The floating operations of the Trellis in f32 and in the two lanes of bf16 (R401, R402), with the tangents of R212. -/

namespace Sys2Proof.Machine

/-! ### One lane and two -/

/-- A lane of 32 bits is the word. -/
theorem laneMap_f32 (f : Nat → Nat → Nat → Nat) (a b c : W32) :
    laneMap .f32 f a b c = BitVec.ofNat 32 (f a.toNat b.toNat c.toNat) := by
  have hlane (v : W32) : laneAt 32 v 0 = v.toNat := by
    simp only [laneAt, Nat.mul_zero, Nat.pow_zero, Nat.div_one]
    exact Nat.mod_eq_of_lt v.isLt
  apply BitVec.eq_of_toNat_eq
  rw [← hlane, BitVec.toNat_ofNat, ← hlane a, ← hlane b, ← hlane c]
  exact laneAt_laneMap .f32 f a b c (by decide)

/-- In f32 a floating operation rounds its one value once. -/
theorem floatMap_f32 (r : ElemRec) (ht : r.ty = .f32) (f : Val → Val → Val → Val) (a b c : W32) :
    floatMap r f a b c = f32Of (elemRnd r) (f (f32Val a) (f32Val b) (f32Val c)) := by
  unfold floatMap
  rw [ht, laneMap_f32]
  rfl

/-- A rounded value is a code of its format. -/
theorem bf16_round_lt (m : Rnd) (v : Val) : bf16F.round m v < 2 ^ 16 := by
  have hinf : bf16F.infCode = 32640 := rfl
  have hsign (s : Bool) (n : Nat) (hn : n ≤ 32640) : bf16F.signed s n < 2 ^ 16 := by
    have : (if s then 2 ^ (bf16F.w - 1) else 0) ≤ 32768 := by cases s <;> decide
    unfold FFmt.signed
    omega
  cases v with
  | nan => exact (by decide : bf16F.nanCode < 2 ^ 16)
  | inf s => exact hsign s _ hinf.le
  | fin s k e =>
    rw [FFmt.round]
    split
    · exact hsign _ _ (by omega)
    · refine hsign _ _ ?_
      split <;> omega

/-- A lane of bf16 is its one value, rounded once. -/
theorem laneAt_floatMap (r : ElemRec) (ht : r.ty = .bf16x2) (f : Val → Val → Val → Val) (a b c : W32) {k : Nat} (hk : k < 2) :
    laneAt 16 (floatMap r f a b c) k = bf16F.round (elemRnd r)
      (f (bf16F.val (laneAt 16 a k)) (bf16F.val (laneAt 16 b k)) (bf16F.val (laneAt 16 c k))) := by
  unfold floatMap
  rw [ht]
  exact (laneAt_laneMap .bf16x2 _ a b c hk).trans (Nat.mod_eq_of_lt (bf16_round_lt ..))

/-! ### Minima and maxima -/

theorem minMax_match (f : FFmt) (isMax : Bool) (x y : Nat) : (match minMaxPick isMax (f.val x) (f.val y) with
    | none => f.nanCode
    | some t => if t then x else y) = f.minMax isMax x y := by
  unfold FFmt.minMax
  rcases minMaxPick isMax (f.val x) (f.val y) with _ | _ | _ <;> rfl

theorem Val.order_nan_left (y : Val) : Val.nan.order y = .un := by cases y <;> rfl

theorem Val.order_nan_right (x : Val) : x.order .nan = .un := by cases x <;> rfl

/-- Two numbers are ordered. -/
theorem Val.order_ne_un {x y : Val} (hx : x ≠ .nan) (hy : y ≠ .nan) : x.order y ≠ .un := by
  have hint (a b : Int) : intOrder a b ≠ .un := by
    unfold intOrder
    split
    · decide
    · split <;> decide
  cases x with
  | nan => exact absurd rfl hx
  | inf s =>
    cases y with
    | nan => exact absurd rfl hy
    | inf t => cases s <;> cases t <;> decide
    | fin t n f => cases s <;> exact Ordered.noConfusion
  | fin s m e =>
    cases y with
    | nan => exact absurd rfl hy
    | inf t => cases t <;> exact Ordered.noConfusion
    | fin t n f => exact hint _ _

/-- A number equals itself. -/
theorem Val.order_self {x : Val} (hx : x ≠ .nan) : x.order x = .eq := by
  have hswap := Val.order_swap x x
  have hun := Val.order_ne_un hx hx
  cases h : x.order x <;> rw [h] at hswap hun <;> simp_all [Ordered.swap]

/-- The first value comes before the second one: it is less, or it is −0 and the other is +0 (R201). -/
def Val.before (p q : Val) : Prop := p.order q = .lt ∨ (p.order q = .eq ∧ p.sign = true ∧ q.sign = false)

theorem Val.below_iff (x y : Val) : x.below y = true ↔ x.before y := by
  rw [Val.below_eq, Val.before]
  simp [and_assoc]

theorem Val.before_asymm {x y : Val} (h : x.before y) : ¬ y.before x := by
  unfold Val.before at *
  rw [Val.order_swap x y]
  rcases h with h | ⟨h, hx, hy⟩
  · simp [h, Ordered.swap]
  · simp [h, Ordered.swap, hx]

theorem Val.before_numbers {x y : Val} (h : x.before y) : x ≠ .nan ∧ y ≠ .nan := by
  unfold Val.before at h
  constructor <;> rintro rfl
  · simp [Val.order_nan_left] at h
  · simp [Val.order_nan_right] at h

/-- What a minimum or a maximum prefers. -/
def Val.better (isMax : Bool) (p q : Val) : Prop := if isMax then q.before p else p.before q

theorem Val.better_numbers {isMax : Bool} {x y : Val} (h : Val.better isMax x y) : x ≠ .nan ∧ y ≠ .nan := by
  cases isMax
  · exact Val.before_numbers h
  · exact (Val.before_numbers h).symm

/-- A preferred first value is picked. -/
theorem minMaxPick_of_better {isMax : Bool} {x y : Val} (h : Val.better isMax x y) : minMaxPick isMax x y = some true := by
  obtain ⟨hx, hy⟩ := Val.better_numbers h
  rw [minMaxPick_numbers hx hy]
  cases isMax <;> simpa [← Bool.not_eq_true, Val.below_iff] using Val.before_asymm h

/-- A preferred second value is picked. -/
theorem minMaxPick_of_better_second {isMax : Bool} {x y : Val} (h : Val.better isMax y x) : minMaxPick isMax x y = some false := by
  obtain ⟨hy, hx⟩ := Val.better_numbers h
  rw [minMaxPick_numbers hx hy]
  cases isMax <;> simpa [Val.below_iff, Val.better] using h

/-- The code that a minimum or a maximum gives: the preferred operand, the number beside a NaN, the canonical NaN for two. -/
theorem FFmt.minMax_picks (f : FFmt) (isMax : Bool) (p q : Nat) :
    (f.val p = .nan → f.val q = .nan → f.minMax isMax p q = f.nanCode)
    ∧ (f.val p = .nan → f.val q ≠ .nan → f.minMax isMax p q = q) ∧ (f.val p ≠ .nan → f.val q = .nan → f.minMax isMax p q = p)
    ∧ (f.val p ≠ .nan → f.val q ≠ .nan → f.minMax isMax p q = p ∨ f.minMax isMax p q = q)
    ∧ (Val.better isMax (f.val p) (f.val q) → f.minMax isMax p q = p)
    ∧ (Val.better isMax (f.val q) (f.val p) → f.minMax isMax p q = q) := by
  refine ⟨fun hp hq => FFmt.minMax_none ?_, fun hp hq => FFmt.minMax_some (hp ▸ minMaxPick_second hq),
    fun hp hq => FFmt.minMax_some (hq ▸ minMaxPick_first hp), fun hp hq => ?_,
    fun h => FFmt.minMax_some (minMaxPick_of_better h), fun h => FFmt.minMax_some (minMaxPick_of_better_second h)⟩
  · rw [hp, hq]
    rfl
  · rw [FFmt.minMax_some (minMaxPick_numbers hp hq)]
    exact ite_eq_or_eq ..

/-- The tangent that a minimum or a maximum passes is the one of the operand that it gives, and the first one's where the values are
equal or both are NaN (R212, log 17). -/
theorem FFmt.minMaxTan_eq (f : FFmt) (isMax : Bool) (p q : Nat) : f.minMaxTan isMax p q
    = decide ((f.val p).order (f.val q) = .eq ∨ f.val q = .nan ∨ (f.val p ≠ .nan ∧ f.minMax isMax p q = p)) := by
  unfold FFmt.minMaxTan
  split
  next _ h => simp [h]
  next hpick hne =>
    have hq : f.val q = .nan := by
      by_contra hq
      by_cases hp : f.val p = .nan
      · simp [hp, minMaxPick_second hq] at hpick
      · simp [minMaxPick_numbers hp hq] at hpick
    simp [hq]
  next t hpick hne =>
    have hw := FFmt.minMax_some hpick
    by_cases hq : f.val q = .nan
    · have hp : f.val p ≠ .nan := fun hp => by simp [hp, hq, minMaxPick, Val.isNan] at hpick
      rw [hq, minMaxPick_first hp] at hpick
      cases hpick
      simp [hq]
    by_cases hp : f.val p = .nan
    · rw [hp, minMaxPick_second hq] at hpick
      cases hpick
      simp [hp, hq, Val.order_nan_left]
    cases t
    · have hpq : q ≠ p := fun h => hne (by rw [h]; exact Val.order_self hp)
      simp [hw, hq, hpq]
      exact hne
    · simp [hw, hp]

theorem FFmt.minMax_cases (f : FFmt) (isMax : Bool) (p q : Nat) :
    f.minMax isMax p q = f.nanCode ∨ f.minMax isMax p q = p ∨ f.minMax isMax p q = q := by
  unfold FFmt.minMax
  split
  · exact .inl rfl
  · exact .inr (.inl rfl)
  · exact .inr (.inr rfl)

/-- The word that a minimum or a maximum gives in f32. -/
theorem toNat_floatMinMax_f32 (r : ElemRec) (ht : r.ty = .f32) (isMax : Bool) (a b : W32) :
    (floatMinMax r isMax a b).toNat = f32F.minMax isMax a.toNat b.toNat := by
  unfold floatMinMax
  rw [ht, laneMap_f32, BitVec.toNat_ofNat]
  refine (congrArg (· % 2 ^ 32) (minMax_match f32F isMax a.toNat b.toNat)).trans ?_
  refine Nat.mod_eq_of_lt ?_
  rcases f32F.minMax_cases isMax a.toNat b.toNat with h | h | h <;> rw [h]
  · decide
  · exact a.isLt
  · exact b.isLt

/-- A lane of a minimum or a maximum in bf16. -/
theorem laneAt_floatMinMax (r : ElemRec) (ht : r.ty = .bf16x2) (isMax : Bool) (a b : W32) {k : Nat} (hk : k < 2) :
    laneAt 16 (floatMinMax r isMax a b) k = bf16F.minMax isMax (laneAt 16 a k) (laneAt 16 b k) := by
  unfold floatMinMax
  rw [ht]
  refine (laneAt_laneMap .bf16x2 _ a b 0 hk).trans ?_
  refine (congrArg (· % 2 ^ 16) (minMax_match bf16F isMax (laneAt 16 a k) (laneAt 16 b k))).trans ?_
  refine Nat.mod_eq_of_lt ?_
  rcases bf16F.minMax_cases isMax (laneAt 16 a k) (laneAt 16 b k) with h | h | h <;> rw [h]
  · decide
  · exact laneAt_lt ..
  · exact laneAt_lt ..

/-! ### Signs -/

theorem floatAbs_f32 (r : ElemRec) (ht : r.ty = .f32) (a : W32) : floatAbs r a = a &&& 0x7FFFFFFF := by
  unfold floatAbs
  rw [ht, laneMap_f32]
  apply BitVec.eq_of_toNat_eq
  rw [BitVec.toNat_and, show (0x7FFFFFFF : W32).toNat = 2 ^ 31 - 1 from rfl, Nat.and_two_pow_sub_one_eq_mod, BitVec.toNat_ofNat]
  exact Nat.mod_eq_of_lt ((Nat.mod_le ..).trans_lt a.isLt)

theorem floatNeg_f32 (r : ElemRec) (ht : r.ty = .f32) (a : W32) : floatNeg r a = a ^^^ 0x80000000 := by
  unfold floatNeg
  rw [ht, laneMap_f32]
  apply BitVec.eq_of_getLsbD_eq
  intro i hi
  rw [BitVec.getLsbD_xor, show (0x80000000 : W32) = BitVec.ofNat 32 (2 ^ 31) from rfl, BitVec.getLsbD_ofNat, BitVec.getLsbD_ofNat,
    show laneBits .f32 = 32 from rfl, Nat.testBit_mod_two_pow, Nat.testBit_two_pow, Nat.add_comm, BitVec.getLsbD]
  rcases Nat.lt_or_ge i 31 with h | h
  · rw [Nat.testBit_two_pow_add_gt h]
    simp [hi, show ¬ 31 = i by omega]
  · obtain rfl : i = 31 := by omega
    rw [Nat.testBit_two_pow_add_eq]
    simp

/-- The tangent of a minimum or a maximum in f32, told by the value that it gives. -/
theorem picksFirst_tan (r : ElemRec) (ht : r.ty = .f32) (isMax : Bool) (a b ta tb : W32) :
    (if picksFirst isMax a b then ta else tb) = if (f32Val a).order (f32Val b) = .eq ∨ f32Val b = .nan then ta
      else if f32Val a = .nan ∨ floatMinMax r isMax a b ≠ a then tb else ta := by
  have hw : floatMinMax r isMax a b = a ↔ f32F.minMax isMax a.toNat b.toNat = a.toNat := by
    rw [← toNat_floatMinMax_f32 r ht, BitVec.toNat_inj]
  simp only [ne_eq, hw]
  unfold picksFirst f32Val
  simp only [FFmt.minMaxTan_eq, decide_eq_true_eq]
  split_ifs <;> tauto

/-- Of two values that differ, the tangent is the picked one's. -/
theorem picksFirst_of_pick {isMax t : Bool} {a b : W32} (ho : (f32Val a).order (f32Val b) ≠ .eq)
    (hp : minMaxPick isMax (f32Val a) (f32Val b) = some t) : picksFirst isMax a b = t := by
  unfold picksFirst FFmt.minMaxTan
  split
  next h => exact absurd h ho
  next hn _ => exact absurd (hp.symm.trans hn) nofun
  next u hu _ => exact Option.some.inj (hu.symm.trans hp)

/-- In f32 the preferred first operand is the result, with its tangent. -/
theorem floatMinMax_first (r : ElemRec) {isMax : Bool} {a b : W32} (h : Val.better isMax (f32Val a) (f32Val b)) :
    (r.ty = .f32 → floatMinMax r isMax a b = a)
    ∧ ((f32Val a).order (f32Val b) ≠ .eq → picksFirst isMax a b = true) :=
  ⟨fun ht => BitVec.eq_of_toNat_eq ((toNat_floatMinMax_f32 r ht ..).trans (FFmt.minMax_some (minMaxPick_of_better h))),
    fun ho => picksFirst_of_pick ho (minMaxPick_of_better h)⟩

/-- In f32 the preferred second operand is the result, with its tangent. -/
theorem floatMinMax_second (r : ElemRec) {isMax : Bool} {a b : W32} (h : Val.better isMax (f32Val b) (f32Val a)) :
    (r.ty = .f32 → floatMinMax r isMax a b = b)
    ∧ ((f32Val a).order (f32Val b) ≠ .eq → picksFirst isMax a b = false) :=
  ⟨fun ht => BitVec.eq_of_toNat_eq ((toNat_floatMinMax_f32 r ht ..).trans (FFmt.minMax_some (minMaxPick_of_better_second h))),
    fun ho => picksFirst_of_pick ho (minMaxPick_of_better_second h)⟩

/-- The lanes of an operation on the codes of bf16. -/
theorem laneAt_laneMap_bf16 (f : Nat → Nat → Nat → Nat) (a b c : W32) {k : Nat} (hk : k < 2)
    (h : f (laneAt 16 a k) (laneAt 16 b k) (laneAt 16 c k) < 2 ^ 16) :
    laneAt 16 (laneMap .bf16x2 f a b c) k = f (laneAt 16 a k) (laneAt 16 b k) (laneAt 16 c k) :=
  (laneAt_laneMap .bf16x2 f a b c hk).trans (Nat.mod_eq_of_lt h)

theorem laneAt_floatAbs (r : ElemRec) (ht : r.ty = .bf16x2) (a : W32) {k : Nat} (hk : k < 2) :
    laneAt 16 (floatAbs r a) k = laneAt 16 a k % 2 ^ 15 := by
  have hlt := laneAt_lt 16 a k
  unfold floatAbs
  rw [ht, show laneBits .bf16x2 - 1 = 15 from rfl]
  exact laneAt_laneMap_bf16 _ a 0 0 hk (by omega)

theorem laneAt_floatNeg (r : ElemRec) (ht : r.ty = .bf16x2) (a : W32) {k : Nat} (hk : k < 2) :
    laneAt 16 (floatNeg r a) k = if laneAt 16 a k < 2 ^ 15 then laneAt 16 a k + 2 ^ 15 else laneAt 16 a k - 2 ^ 15 := by
  have hlt := laneAt_lt 16 a k
  unfold floatNeg
  rw [ht, show laneBits .bf16x2 = 16 from rfl, show 16 - 1 = 15 from rfl]
  refine (laneAt_laneMap_bf16 _ a 0 0 hk (by omega)).trans ?_
  split <;> omega

theorem laneAt_floatCmp (r : ElemRec) (ht : r.ty = .bf16x2) (a b : W32) {k : Nat} (hk : k < 2) : laneAt 16 (floatCmp r a b) k
    = if condHolds (elemCond r) ((bf16F.val (laneAt 16 a k)).order (bf16F.val (laneAt 16 b k))) then 1 else 0 := by
  unfold floatCmp
  rw [ht]
  refine laneAt_laneMap_bf16 (fun p q _ => if condHolds (elemCond r) ((bf16F.val p).order (bf16F.val q)) then 1 else 0)
    a b 0 hk ?_
  split <;> decide

theorem floatCmp_f32 (r : ElemRec) (ht : r.ty = .f32) (a b : W32) :
    floatCmp r a b = if condHolds (elemCond r) ((f32Val a).order (f32Val b)) then 1 else 0 := by
  unfold floatCmp
  rw [ht, laneMap_f32]
  exact apply_ite (BitVec.ofNat 32) ..

/-- Settles O35: in f32 one value rounded once, in bf16 lane by lane; the tangents follow the operation of the result. -/
theorem elementFloatResults : Obligations.ElementFloatResults := by
  intro s r a ts x tw m tans av bv cv A B C a' b' c' gives lane halves codes order below pick picks
  have gs {i : ElemRec → Instr} {op : BitVec 7} {v : W32} {f : Nat → W32} {g : AluIn → W32} {g' : AluIn → W32 → Nat → W32}
      (hi : exec (i r) s = aluStep s op r g g') (hv : r.ty = .f32 → g x = v) (ht : g' x v = f) : gives i op v f :=
    fun hty h => h.gives hi (hv hty) fun _ => ht
  have hs {i : ElemRec → Instr} {op : BitVec 7} {f : Val → Val → Val → Val} {g : AluIn → W32} {g' : AluIn → W32 → Nat → W32}
      (hi : exec (i r) s = aluStep s op r g g') (hv : r.ty = .bf16x2 → ∀ k, k < 2 → lane (g x) k =
        bf16F.round m (f (bf16F.val (lane av k)) (bf16F.val (lane bv k)) (bf16F.val (lane cv k)))) : halves i op f := by
    intro hty h
    obtain ⟨t, ht, hy⟩ := h.gives hi rfl fun _ => rfl
    rw [if_neg (by simp [hty])] at hy
    exact ⟨t, ht, _, hy, hv hty⟩
  have cs {i : ElemRec → Instr} {op : BitVec 7} {f : Nat → Nat → Nat} {g : AluIn → W32} {g' : AluIn → W32 → Nat → W32}
      (hi : exec (i r) s = aluStep s op r g g') (hv : r.ty = .bf16x2 → ∀ k, k < 2 → lane (g x) k = f (lane av k) (lane bv k)) :
      codes i op f := by
    intro hty h
    obtain ⟨t, ht, hy⟩ := h.gives hi rfl fun _ => rfl
    rw [if_neg (by simp [hty])] at hy
    exact ⟨t, ht, _, hy, hv hty⟩
  have ps {i : ElemRec → Instr} {op : BitVec 7} (isMax : Bool) (hi : exec (i r) s = aluStep s op r
      (fun x => floatMinMax r isMax x.a.v x.b.v) fun x _ k => if picksFirst isMax x.a.v x.b.v then x.a.tan k else x.b.tan k) :
      picks i op (Val.better isMax) := by
    intro h
    obtain ⟨t, ht, hy⟩ := h.gives hi rfl fun _ => rfl
    refine ⟨fun hty => ⟨t, ht, floatMinMax r isMax av bv, ?_, ?_⟩, fun hty => ⟨t, ht, floatMinMax r isMax av bv, ?_, fun k hk => ?_⟩⟩
    · exact funext (fun k => picksFirst_tan r hty isMax av bv (a' k) (b' k)) ▸ hy
    · rw [toNat_floatMinMax_f32 r hty]
      exact FFmt.minMax_picks ..
    · rwa [if_neg (by simp [hty])] at hy
    · rw [show lane _ k = _ from laneAt_floatMinMax r hty isMax av bv hk]
      exact FFmt.minMax_picks ..
  clear_value gives halves codes
  refine ⟨?_, ?_, cs (exec_elemFabs s r) fun hty k hk => laneAt_floatAbs r hty _ hk,
    cs (exec_elemFneg s r) fun hty k hk => laneAt_floatNeg r hty _ hk,
    cs (exec_elemFcmp s r) fun hty k hk => laneAt_floatCmp r hty _ _ hk,
    gs (exec_elemFadd s r) (fun hty => floatMap_f32 r hty ..) rfl, gs (exec_elemFsub s r) (fun hty => floatMap_f32 r hty ..) rfl,
    gs (exec_elemFmul s r) (fun hty => floatMap_f32 r hty ..) rfl, gs (exec_elemFma s r) (fun hty => floatMap_f32 r hty ..) rfl,
    ?_, ?_, gs (exec_elemFabs s r) (fun hty => floatAbs_f32 r hty _) rfl, gs (exec_elemFneg s r) (fun hty => floatNeg_f32 r hty _) rfl,
    gs (exec_elemFcmp s r) (fun hty => floatCmp_f32 r hty ..) rfl, gs (exec_elemRcp s r) (fun _ => rfl) rfl, gs (exec_elemSqrt s r) (fun _ => rfl) rfl,
    gs (exec_elemRsq s r) (fun _ => rfl) rfl, gs (exec_elemExp2 s r) (fun _ => rfl) rfl,
    gs (exec_elemLog2 s r) (fun _ => rfl) rfl, gs (exec_elemTanh s r) (fun _ => rfl) rfl,
    gs (exec_elemSin s r) (fun _ => rfl) rfl, gs (exec_elemCos s r) (fun _ => rfl) rfl, ?_⟩
  · exact ps false (exec_elemFmin s r)
  · exact ps true (exec_elemFmax s r)
  · intro ho
    have hne : order ≠ .eq := by rw [ho]; decide
    obtain ⟨hv, ht⟩ := floatMinMax_first r (isMax := false) (a := av) (b := bv) (.inl ho)
    obtain ⟨hv', ht'⟩ := floatMinMax_second r (isMax := true) (a := av) (b := bv) (.inl ho)
    exact ⟨gs (exec_elemFmin s r) hv (funext fun _ => if_pos (ht hne)),
      gs (exec_elemFmax s r) hv' (funext fun _ => if_neg (Bool.eq_false_iff.mp (ht' hne)))⟩
  · intro ho
    have hne : order ≠ .eq := by rw [ho]; decide
    have hlt : B.order A = .lt := by rw [Val.order_swap A B, show A.order B = .gt from ho]; rfl
    obtain ⟨hv, ht⟩ := floatMinMax_second r (isMax := false) (a := av) (b := bv) (.inl hlt)
    obtain ⟨hv', ht'⟩ := floatMinMax_first r (isMax := true) (a := av) (b := bv) (.inl hlt)
    exact ⟨gs (exec_elemFmin s r) hv (funext fun _ => if_neg (Bool.eq_false_iff.mp (ht hne))),
      gs (exec_elemFmax s r) hv' (funext fun _ => if_pos (ht' hne))⟩
  · exact ⟨hs (exec_elemFadd s r) fun hty k hk => laneAt_floatMap r hty _ _ _ _ hk,
      hs (exec_elemFsub s r) fun hty k hk => laneAt_floatMap r hty _ _ _ _ hk,
      hs (exec_elemFmul s r) fun hty k hk => laneAt_floatMap r hty _ _ _ _ hk,
      hs (exec_elemFma s r) fun hty k hk => laneAt_floatMap r hty _ _ _ _ hk⟩

end Sys2Proof.Machine
end

