-- ==== Sys2Proof/Proofs/ElementConversions.lean ====
section
/-! RULE. The conversions of the Trellis (R403 to R405). -/

namespace Sys2Proof.Machine

theorem elemConvert_f32 (r : ElemRec) (ht : r.ty = .f32) (a : W32) :
    elemConvert r a = BitVec.ofNat 32 (encodeFmt r.imm8 (elemRnd r) (r.lvl == 1) (f32Val a)) := by
  unfold elemConvert
  rw [ht]

theorem elemConvert_bf16 (r : ElemRec) (ht : r.ty = .bf16x2) (a : W32) : elemConvert r a = a <<< 16 := by
  unfold elemConvert
  rw [ht]

/-- Lane 0 of a word is its low bits. -/
theorem laneAt_zero (w : Nat) (a : W32) : laneAt w a 0 = (a.setWidth w).toNat := by
  simp [laneAt]

/-- A lane of an integer type reads as its low bits do. -/
theorem laneInt_signed (ty : ElTy) (hs : laneSigned ty = true) (x : BitVec (laneBits ty)) : laneInt ty x.toNat = x.toInt := by
  have hw : 2 ^ laneBits ty = 2 * 2 ^ (laneBits ty - 1) := (mul_pow_sub_one (laneBits_pos ty).ne' 2).symm
  rw [laneInt_eq ty x.isLt, BitVec.toInt_eq_toNat_cond]
  simp only [hs, true_and]
  split <;> split <;> push_cast <;> omega

theorem laneInt_unsigned (ty : ElTy) (hs : laneSigned ty = false) (n : Nat) : laneInt ty n = n := by
  simp [laneInt, hs]

/-- An integer lane converts as the number of its low bits. -/
theorem elemConvert_integer (r : ElemRec) (hf : r.ty ≠ .f32) (hb : r.ty ≠ .bf16x2) (a : W32) :
    elemConvert r a = f32Of (elemRnd r) (intVal (laneInt r.ty (a.setWidth (laneBits r.ty)).toNat)) := by
  rw [← laneAt_zero]
  unfold elemConvert
  split
  next h => exact absurd h hf
  next h => exact absurd h hb
  next => rfl

theorem elemConvert_signed (r : ElemRec) (hf : r.ty ≠ .f32) (hb : r.ty ≠ .bf16x2) (hs : laneSigned r.ty = true) (a : W32) :
    elemConvert r a = f32Of (elemRnd r) (intVal (a.setWidth (laneBits r.ty)).toInt) := by
  rw [elemConvert_integer r hf hb, laneInt_signed _ hs]

theorem elemConvert_unsigned (r : ElemRec) (hf : r.ty ≠ .f32) (hb : r.ty ≠ .bf16x2) (hs : laneSigned r.ty = false) (a : W32) :
    elemConvert r a = f32Of (elemRnd r) (intVal ((a.setWidth (laneBits r.ty)).toNat : Int)) := by
  rw [elemConvert_integer r hf hb, laneInt_unsigned _ hs]

/-- Settles O36: a conversion is the table's by its type, and the tangents pass between floating formats alone. -/
theorem elementConversions : Obligations.ElementConversions := by
  intro s r a ts x tw av bv m bits tans gives
  have gs {i : ElemRec → Instr} {op : BitVec 7} {v : W32} {f : Nat → W32} {g : AluIn → W32} {g' : AluIn → W32 → Nat → W32}
      (hi : exec (i r) s = aluStep s op r g g') (hv : g x = v) (ht : r.ty = .f32 → g' x v = f) : gives i op v f :=
    fun h => h.gives hi hv fun hd => ht hd.2
  clear_value gives
  have int {v : W32} (hf : r.ty ≠ .f32) (hv : elemConvert r av = v) : gives .elemCvt 0x38 v fun _ => 0 :=
    gs (exec_elemCvt s r) hv fun h => absurd h hf
  refine ⟨fun ht => gs (exec_elemCvt s r) (elemConvert_f32 r ht av) fun _ => funext fun k => ?_,
    fun ht => int (by simp [ht]) ?_, fun ht => int (by simp [ht]) ?_, fun ht => int (by simp [ht]) (elemConvert_bf16 r ht av),
    fun ht => int (by simp [ht]) ?_, fun ht => int (by simp [ht]) ?_, fun ht => int (by simp [ht]) ?_,
    gs (exec_elemPack s r) rfl fun _ => rfl, gs (exec_elemUnpk s r) rfl fun _ => rfl,
    gs (exec_elemQnt s r) rfl fun _ => rfl, gs (exec_elemDqnt s r) rfl fun _ => rfl⟩
  · by_cases hi : fmtFamily r.imm8 = .integer <;> simp [convertPasses, ht, hi]
  · rw [elemConvert_signed r (by simp [ht]) (by simp [ht]) (by simp [ht, laneSigned]), ht]
    exact congrArg (fun v : W32 => f32Of m (intVal v.toInt)) (BitVec.setWidth_eq av)
  · rw [elemConvert_unsigned r (by simp [ht]) (by simp [ht]) (by simp [ht, laneSigned]), ht]
    exact congrArg (fun v : W32 => f32Of m (intVal v.toNat)) (BitVec.setWidth_eq av)
  · rw [elemConvert_signed r (by simp [ht]) (by simp [ht]) (by simp [ht, laneSigned]), ht]
    rfl
  · rw [elemConvert_signed r (by simp [ht]) (by simp [ht]) (by simp [ht, laneSigned]), ht]
    rfl
  · rw [elemConvert_unsigned r (by simp [ht]) (by simp [ht]) (by simp [ht, laneSigned]), ht]
    rfl

end Sys2Proof.Machine
end

