-- ==== Sys2Proof/Proofs/ElementReductions.lean ====
section
/-! RULE. Reductions, level markers and routes of the Trellis (R406, R407, R216). -/

namespace Sys2Proof.Machine

/-! ### The carry of a site -/

theorem Cell.carry_setCarry (c : Cell) (site : Nat) (v : Carry) : (c.setCarry site v).carry site = v := Map.get_set_self ..

theorem Cell.OnlyLinks.carry {c d : Cell} (h : c.OnlyLinks d) (site : Nat) : d.carry site = c.carry site := by
  unfold Cell.OnlyLinks at h
  rw [h]
  rfl

/-- Taking its inputs changes of a cell the links alone. -/
theorem At.take_bps (a : At) (c : Cell) : (a.take c).bps = c.bps := by
  unfold At.take
  generalize linksIn a.site a.x.aluCodes = l
  induction l generalizing c with
  | nil => rfl
  | cons k l ih => exact ih _

theorem At.take_fabric (a : At) (c : Cell) : a.take c = { c with fabric := (a.take c).fabric } := by
  have h := a.take_onlyLinks c
  unfold Cell.OnlyLinks at h
  rw [a.take_bps] at h
  rw [h]

theorem Cell.setCarry_fabric {c d : Cell} (h : d = { c with fabric := d.fabric }) (site : Nat) (v : Carry) :
    d.setCarry site v = { c with fabric := (d.setCarry site v).fabric } := by
  unfold Cell.setCarry Cell.withFabric
  rw [h]

/-- The carry after a token: the first one from an empty carry, else the step from the old one. -/
def Carry.next (old : Carry) (first : Opnd → Opnd) (step : Opnd → Opnd → Opnd) (x : Opnd) : Opnd :=
  if old.empty then first x else step { v := old.val, t := old.tans } x

/-- A reduction that fires takes its token into the carry (R406). -/
theorem Fires.redStep {first : Opnd → Opnd} {step : Opnd → Opnd → Opnd} {i : ElemRec → Instr} {value : W32} (h : Fires s op r a ts)
    (hi : exec (i r) s = Machine.redStep s op r first step)
    (hv : ((s.cur.carry a.site).next first step (a.input ts).a).v = value) :
    Completes (i r) s fun t =>
      (t.cur.carry a.site).val = value ∧ (t.cur.carry a.site).empty = false ∧ (t.cur.carry a.site).thread = (a.input ts).thread
      ∧ t.cur = { s.cur with fabric := t.cur.fabric } ∧ OnlyCur s t := by
  obtain ⟨hn, -, -, -⟩ := State.atSite_eq h.site
  refine .of_exec hi ⟨_, h.fireSite, ?_⟩
  simp only [State.redTake, h.clean, Bool.false_eq_true, if_false, hn, State.onCell_eq, State.cur_setCell_focus, Cell.carry_setCarry]
  refine ⟨hv, trivial, trivial, ?_, .setCur ..⟩
  exact Cell.setCarry_fabric (a.take_fabric _) ..

/-! ### Maxima and minima of a reduction -/

theorem redBeats_f32 {ty : ElTy} (ht : ty = .f32) {isMax t : Bool} {c v : W32}
    (h : minMaxPick isMax (f32Val c) (f32Val v) = some t) : redBeats ty isMax c v = !t := by
  unfold redBeats
  rw [if_pos ht, h]

/-- A greater value replaces the carry of a maximum alone. -/
theorem redBeats_of_before {ty : ElTy} (ht : ty = .f32) {c v : W32} (h : (f32Val c).before (f32Val v)) :
    redBeats ty true c v = true ∧ redBeats ty false c v = false :=
  ⟨redBeats_f32 ht (minMaxPick_of_better_second (isMax := true) h), redBeats_f32 ht (minMaxPick_of_better (isMax := false) h)⟩

/-- A smaller value replaces the carry of a minimum alone. -/
theorem redBeats_of_after {ty : ElTy} (ht : ty = .f32) {c v : W32} (h : (f32Val v).before (f32Val c)) :
    redBeats ty true c v = false ∧ redBeats ty false c v = true :=
  ⟨redBeats_f32 ht (minMaxPick_of_better (isMax := true) h), redBeats_f32 ht (minMaxPick_of_better_second (isMax := false) h)⟩

/-- A number replaces a NaN. -/
theorem redBeats_nan_carry {ty : ElTy} (ht : ty = .f32) (isMax : Bool) {c v : W32} (hc : f32Val c = .nan) (hv : f32Val v ≠ .nan) :
    redBeats ty isMax c v = true :=
  redBeats_f32 ht (t := false) (by rw [hc, minMaxPick_second hv])

/-- A NaN replaces nothing. -/
theorem redBeats_nan {ty : ElTy} (ht : ty = .f32) (isMax : Bool) {c v : W32} (hv : f32Val v = .nan) :
    redBeats ty isMax c v = false := by
  by_cases hc : f32Val c = .nan
  · unfold redBeats
    rw [if_pos ht, hv, hc]
    rfl
  · exact redBeats_f32 ht (t := true) (by rw [hv, minMaxPick_first hc])

/-- An equal value of the same sign replaces nothing. -/
theorem redBeats_equal {ty : ElTy} (ht : ty = .f32) (isMax : Bool) {c v : W32} (h : (f32Val c).order (f32Val v) = .eq)
    (hs : (f32Val c).sign = (f32Val v).sign) : redBeats ty isMax c v = false := by
  have hc : f32Val c ≠ .nan := fun hc => by simp [hc, Val.order_nan_left] at h
  have hv : f32Val v ≠ .nan := fun hv => by simp [hv, Val.order_nan_right] at h
  refine redBeats_f32 ht (t := true) ?_
  rw [minMaxPick_numbers hc hv, Val.below_eq, Val.below_eq, Val.order_swap (f32Val c), h, hs]
  cases isMax <;> cases (f32Val v).sign <;> rfl

theorem redBeats_i32 (isMax : Bool) (c v : W32) :
    redBeats .i32 isMax c v = if isMax then decide (c.toInt < v.toInt) else decide (v.toInt < c.toInt) := by
  have hint (x : W32) : laneInt .i32 x.toNat = x.toInt := laneInt_signed .i32 rfl x
  rw [redBeats, if_neg (by decide), hint, hint]

theorem redBeats_n32 (isMax : Bool) (c v : W32) :
    redBeats .n32 isMax c v = if isMax then decide (c.toNat < v.toNat) else decide (v.toNat < c.toNat) := by
  rw [redBeats, if_neg (by decide), laneInt_unsigned _ rfl, laneInt_unsigned _ rfl]
  simp only [Int.ofNat_lt]

/-- Of two values that an integer type or the order of f32 tells apart, the greater one replaces the carry of a maximum and the
smaller one that of a minimum. -/
theorem redBeats_of_larger {ty : ElTy} (ht : ty = .f32 ∨ ty = .i32 ∨ ty = .n32) {c v : W32}
    (h : if ty = .f32 then (f32Val c).order (f32Val v) = .lt else if ty = .i32 then c.toInt < v.toInt else c.toNat < v.toNat) :
    redBeats ty true c v = true ∧ redBeats ty false c v = false := by
  rcases ht with rfl | rfl | rfl
  · exact redBeats_of_before rfl (.inl h)
  · have h : c.toInt < v.toInt := h
    simp [redBeats_i32, h, h.le]
  · have h : c.toNat < v.toNat := h
    simp only [redBeats_n32, if_true, Bool.false_eq_true, if_false, decide_eq_true h, decide_eq_false h.not_gt, and_self]

theorem redBeats_of_smaller {ty : ElTy} (ht : ty = .f32 ∨ ty = .i32 ∨ ty = .n32) {c v : W32}
    (h : if ty = .f32 then (f32Val c).order (f32Val v) = .gt else if ty = .i32 then v.toInt < c.toInt else v.toNat < c.toNat) :
    redBeats ty true c v = false ∧ redBeats ty false c v = true := by
  rcases ht with rfl | rfl | rfl
  · have h : (f32Val c).order (f32Val v) = .gt := h
    exact redBeats_of_after rfl (.inl (by rw [Val.order_swap (f32Val c), h]; rfl))
  · have h : v.toInt < c.toInt := h
    simp [redBeats_i32, h, h.le]
  · have h : v.toNat < c.toNat := h
    simp only [redBeats_n32, if_true, Bool.false_eq_true, if_false, decide_eq_true h, decide_eq_false h.not_gt, and_self]

theorem redBeats_self {ty : ElTy} (ht : ty = .i32 ∨ ty = .n32) (isMax : Bool) (c : W32) : redBeats ty isMax c c = false := by
  rcases ht with rfl | rfl <;> simp [redBeats_i32, redBeats_n32]

/-! ### Level markers and routes -/

theorem Cell.OnlyFabric.countOp (c : Cell) (thread n : Nat) : c.OnlyFabric (c.countOp thread n) := rfl

theorem Cell.OnlyFabric.pendLevel (c : Cell) (site level thread : Nat) : c.OnlyFabric (c.pendLevel site level thread) := rfl

/-- `LVL` passes its token and owes a marker for one that is not zero (R407). -/
theorem elemLvl_passes (h : Fires s 0x44 r a ts) (he : (s.cur.carry a.site).empty = true) :
    Completes (.elemLvl r) s fun t => Yields s t a (a.input ts).thread (a.input ts).a.v (List.replicate s.cur.ident.tw 0)
      ∧ ((a.input ts).a.v = 0 → (t.cur.carry a.site).empty = true)
      ∧ ((a.input ts).a.v ≠ 0 → (t.cur.carry a.site).empty = false ∧ (t.cur.carry a.site).val = r.lvl.setWidth 32) := by
  obtain ⟨hn, -, -, hr⟩ := State.atSite_eq h.site
  have hexec : exec (.elemLvl r) s = .next (s.lvlTake a ts) := by
    rw [exec_elemLvl]
    unfold execElemLvl
    rw [h.site]
    dsimp only
    rw [if_pos he, h.fireSite]
  have hcell : s.cell a.n = s.cur := by rw [hn]; rfl
  have hlinks : s.cur.OnlyLinks _ := (a.take_onlyLinks s.cur).trans (a.write_onlyLinks _ a.outs
    (a.tok .data (a.input ts).thread (a.input ts).a.v (List.replicate s.cur.ident.tw 0)))
  refine ⟨_, hexec, ?_⟩
  simp only [State.lvlTake, hcell, h.room, h.clean, Bool.not_true, Bool.false_eq_true, if_false]
  refine ⟨a.write_yields s hn (a.take s.cur) _ _ _ _ ?_ ?_, fun hv => ?_, fun hv => ?_⟩
  · split <;> rfl
  · split
    · exact hlinks.fabric.trans (.countOp ..)
    · exact (hlinks.fabric.trans (.countOp ..)).trans (.pendLevel ..)
  · rw [if_pos hv, hn, State.cur_setCell_focus]
    exact (congrArg Carry.empty (hlinks.carry a.site)).trans he
  · rw [if_neg hv, hn, State.cur_setCell_focus, Cell.pendLevel, Cell.pendLevels]
    simp [Cell.carry_setCarry, hr]

/-- A route passes the head of its input unchanged (R216). -/
theorem elemRoute_passes {p : Pass} {y : SiteRec} {d k l : Nat} {tok : Tok} (hd : s.focus.out = d)
    (heng : s.cur.enginesRun = true) (hphase : s.cur.phase.st = .running) (hp : s.cur.fabric.passAt s.focus.site = some p)
    (hy : p.rec? s.focus.site = some y) (hroute : y.routes.find? (fun e => e.1 == d) = some (d, k))
    (hl : inLink s.focus.site k = some l) (hhead : s.cur.linkHead p l (useRoute s.focus.site d) = some tok)
    (hkind : tok.kind = .data) (hroom : s.cur.room y s.focus.site d = true)
    (husers : p.image.users (linkOf s.focus.site d) ≠ []) :
    Completes .elemRoute s fun t => (t.cur.link (linkOf s.focus.site d)).q.getLast? = some tok
      ∧ t.cur = { s.cur with fabric := t.cur.fabric, bps := t.cur.bps } ∧ OnlyCur s t := by
  subst hd
  have hexec : exec .elemRoute s = .next (s.setCur
      ((s.cur.takeHead p l (useRoute s.focus.site s.focus.out)).emit p s.focus.site s.focus.out tok)) := by
    rw [exec_elemRoute]
    simp only [execElemRoute, hp, hy, Option.bind_some, Option.map_some, State.atSite, heng, hphase, Bool.not_true, bne_self_eq_false,
      Bool.or_self, Bool.false_eq_true, if_false, hroute, hl, hhead, hkind, hroom, if_true]
  refine ⟨_, hexec, ?_, ?_, .setCur ..⟩
  · rw [State.setCur_eq, State.cur_setCell_focus]
    exact Cell.emit_last _ _ _ _ _ husers
  · rw [State.setCur_eq, State.cur_setCell_focus]
    exact ((Cell.OnlyLinks.takeHead ..).trans (Cell.emit_onlyLinks ..)).fabric

/-- Settles O37: the carry after a token, by whether the token beats it. -/
theorem reductionsMarkersAndRoutes : Obligations.ReductionsMarkersAndRoutes := by
  intro s r a ts x v old reduces ov nv larger smaller
  have rs {i : ElemRec → Instr} {op : BitVec 7} {value : W32} {first : Opnd → Opnd} {step : Opnd → Opnd → Opnd}
      (hi : exec (i r) s = redStep s op r first step) (hv : (old.next first step x.a).v = value) : reduces i op value :=
    fun h => h.redStep hi hv
  have keeps (he : old.empty = false) :
      (redBeats r.ty true old.val v = true → reduces .elemRmax 0x41 v)
      ∧ (redBeats r.ty true old.val v = false → reduces .elemRmax 0x41 old.val)
      ∧ (redBeats r.ty false old.val v = true → reduces .elemRmin 0x42 v)
      ∧ (redBeats r.ty false old.val v = false → reduces .elemRmin 0x42 old.val) := by
    have hmax := rs (exec_elemRmax s r) rfl
    have hmin := rs (exec_elemRmin s r) rfl
    simp only [Carry.next, he, Bool.false_eq_true, if_false] at hmax hmin
    refine ⟨fun h => ?_, fun h => ?_, fun h => ?_, fun h => ?_⟩
    · rwa [if_pos h] at hmax
    · rwa [if_neg (Bool.eq_false_iff.mp h)] at hmax
    · rwa [if_pos h] at hmin
    · rwa [if_neg (Bool.eq_false_iff.mp h)] at hmin
  clear_value reduces
  refine ⟨fun he => ⟨rs (exec_elemRsum s r) ?_, rs (exec_elemRmax s r) ?_, rs (exec_elemRmin s r) ?_, rs (exec_elemRcnt s r) ?_⟩,
    fun he => ⟨rs (exec_elemRsum s r) ?_, rs (exec_elemRcnt s r) ?_⟩, fun he ht => ?_, fun he ht heq => ?_, fun he ht => ?_,
    fun he h => elemLvl_passes h he,
    fun p y d k l tok hd heng hphase hp hy hr hl hh hk hroom hu => elemRoute_passes hd heng hphase hp hy hr hl hh hk hroom hu⟩
  · simp [Carry.next, he, x, v]
  · simp [Carry.next, he, x, v]
  · simp [Carry.next, he, x, v]
  · simp [Carry.next, he, x, v]
  · simp [Carry.next, he, x, v, redSum]
  · simp [Carry.next, he, x, v]
  · obtain ⟨maxNew, maxOld, minNew, minOld⟩ := keeps he
    refine ⟨fun h => ?_, fun h => ?_, fun h => ?_, fun h => ?_⟩
    · exact maxNew (redBeats_of_larger ht h).1
    · exact maxOld (redBeats_of_smaller ht h).1
    · exact minNew (redBeats_of_smaller ht h).2
    · exact minOld (redBeats_of_larger ht h).2
  · obtain ⟨-, maxOld, -, minOld⟩ := keeps he
    rw [heq] at maxOld minOld
    exact ⟨maxOld (redBeats_self ht ..), minOld (redBeats_self ht ..)⟩
  · obtain ⟨maxNew, maxOld, minNew, minOld⟩ := keeps he
    refine ⟨fun ho hn => ⟨maxNew (redBeats_nan_carry ht _ ho hn), minNew (redBeats_nan_carry ht _ ho hn)⟩,
      fun hn => ⟨maxOld (redBeats_nan ht _ hn), minOld (redBeats_nan ht _ hn)⟩,
      fun ho hs => ⟨maxOld (redBeats_equal ht _ ho hs), minOld (redBeats_equal ht _ ho hs)⟩, fun ho hs hs' => ?_, fun ho hs hs' => ?_⟩
    · obtain ⟨hmax, hmin⟩ := redBeats_of_before ht (c := old.val) (v := v) (.inr ⟨ho, hs, hs'⟩)
      exact ⟨maxNew hmax, minOld hmin⟩
    · obtain ⟨hmax, hmin⟩ := redBeats_of_after ht (c := old.val) (v := v) (.inr ⟨by rw [Val.order_swap ov, ho]; rfl, hs', hs⟩)
      exact ⟨maxOld hmax, minNew hmin⟩


end Sys2Proof.Machine
end

