-- ==== Sys2Proof/Proofs/EdgeNodes.lean ====
section
/-! SUPPORT. The edge nodes, said once: a node that reads and one that stores go on where they fire, an entry stands behind the
queue, and a result stands on the outputs (R232, R410). -/

namespace Sys2Proof.Machine

section
variable {s : State} {op : BitVec 7} {r : ElemRec} {a : At} {ts : List (Nat × Tok)}

/-- Each output ends in a token of a value. -/
theorem Emits.of_last {t : State} {thread : Nat} {v : W32} {tans : List W32}
    (h : ∀ o ∈ a.outs, a.p.image.users (linkOf a.site o) ≠ [] →
      (t.cur.link (linkOf a.site o)).q.getLast? = some (a.tok .data thread v tans)) : Emits t a thread v tans :=
  fun o ho hu => ⟨_, h o ho hu, rfl, rfl, rfl, rfl, rfl, rfl⟩

theorem Fires.site_focus (h : Fires s op r a ts) : a.n = s.focus.cell := (State.atSite_eq h.site).1

theorem Fires.rec_eq (h : Fires s op r a ts) : a.x.r = r := (State.atSite_eq h.site).2.2.2

theorem Fires.cell_eq (h : Fires s op r a ts) : s.cell a.n = s.cur := by
  rw [h.site_focus]
  rfl

/-- A site fires in a cell whose engines run. -/
theorem State.atSite_runs (h : s.atSite op r = some a) : s.cur.run ≠ .idle := by
  unfold State.atSite at h
  dsimp only at h
  split at h
  · cases h
  next hr =>
    intro hi
    exact hr (by simp [Cell.enginesRun, hi])

/-- A node that reads goes on where it fires. -/
theorem Fires.readNode {k : At → AluIn → State} (h : Fires s op r a ts) : Machine.readNode s op r k = .next (k a (a.input ts)) := by
  unfold Machine.readNode
  rw [h.fireSite, h.room, h.clean]
  rfl

/-- A node with an entry goes on where it fires and its entry fits the queue. -/
theorem Fires.storeNode {weight : Cell → At → Nat} {k : At → AluIn → State} (h : Fires s op r a ts)
    (hw : s.cur.fabric.sqUsed + weight s.cur a ≤ 2048) : Machine.storeNode s op r weight k = .next (k a (a.input ts)) := by
  unfold Machine.storeNode
  rw [h.fireSite, h.room, h.clean]
  simp only [Bool.not_true, Bool.false_eq_true, if_false, decide_eq_false (Nat.not_lt.mpr hw)]

theorem Fires.reads {i : Instr} {k : At → AluIn → State} {t : State} {P : State → Prop} (h : Fires s op r a ts)
    (hi : exec i s = Machine.readNode s op r k) (hk : k a (a.input ts) = t) (ht : P t) : Completes i s P :=
  .of_exec hi ⟨t, hk ▸ h.readNode, ht⟩

theorem Fires.stores {i : Instr} {weight : Cell → At → Nat} {k : At → AluIn → State} {t : State} {P : State → Prop}
    (h : Fires s op r a ts) (hi : exec i s = Machine.storeNode s op r weight k)
    (hw : s.cur.fabric.sqUsed + weight s.cur a ≤ 2048) (hk : k a (a.input ts) = t) (ht : P t) : Completes i s P :=
  .of_exec hi ⟨t, hk ▸ h.storeNode hw, ht⟩

/-- An entry stands behind the queue and its token at the end of the outputs; the rest of the cell is as before (R232). -/
theorem State.enqueue_effect (ha : a.n = s.focus.cell) (thread : Nat) (k : SqKind) (tok : Tok) :
    (s.enqueue a thread k tok).cur.fabric.sq = s.cur.fabric.sq
        ++ [{ pass := a.p.id, thread := thread, ring := a.ring, kind := k, cone := a.inCone }]
      ∧ (∀ d ∈ a.outs, a.p.image.users (linkOf a.site d) ≠ [] →
          ((s.enqueue a thread k tok).cur.link (linkOf a.site d)).q.getLast? = some tok)
      ∧ s.cur.OnlyFabric (s.enqueue a thread k tok).cur ∧ OnlyCur s (s.enqueue a thread k tok) := by
  have hcell : s.cell a.n = s.cur := by rw [ha]; rfl
  unfold State.enqueue
  rw [State.onCell_eq, hcell, ha, State.cur_setCell_focus]
  dsimp only
  generalize hc : (a.take s.cur).withFabric _ = c
  have htake := a.take_onlyLinks s.cur
  have hwrite := a.write_onlyLinks c a.outs tok
  refine ⟨?_, fun d hd hu => a.write_last _ _ _ hd hu, ?_, .setCur ..⟩
  · rw [hwrite, ← hc]
    show (a.take s.cur).fabric.sq ++ _ = _
    rw [htake]
  · exact (htake.fabric.trans (hc ▸ .withFabric ..)).trans hwrite.fabric

/-- A node's entry and its token of a value. -/
theorem Fires.enqueue (h : Fires s op r a ts) (thread : Nat) (k : SqKind) (v : W32) (tans : List W32) :
    Queues s (s.enqueue a thread k (a.tok .data thread v tans)) a thread k v tans := by
  obtain ⟨hsq, hlast, hframe, honly⟩ := State.enqueue_effect h.site_focus thread k (a.tok .data thread v tans)
  exact ⟨hsq, .of_last hlast, hframe, honly⟩

/-- A result stands on the outputs of a site in a cell that runs, and the links of the cell change alone. -/
theorem State.nodeResult_effect (ha : a.n = s.focus.cell) (hrun : s.cur.run ≠ .idle) (thread : Nat) (v : W32) (tans : List W32) :
    Emits (s.nodeResult a thread v tans) a thread v (if tans = [] then List.replicate s.cur.ident.tw 0 else tans)
      ∧ s.cur.OnlyLinks (s.nodeResult a thread v tans).cur ∧ OnlyCur s (s.nodeResult a thread v tans) := by
  have hcell : s.cell a.n = s.cur := by rw [ha]; rfl
  unfold State.nodeResult
  rw [hcell, if_neg hrun, State.onCell_eq, hcell]
  refine ⟨a.write_emits s ha _ _ _ _ _ rfl, ?_, ?_⟩
  · rw [ha, State.cur_setCell_focus]
    exact (a.take_onlyLinks _).trans (a.write_onlyLinks ..)
  · rw [ha]
    exact .setCur ..

theorem Fires.nodeResult (h : Fires s op r a ts) (thread : Nat) (v : W32) (tans : List W32) :
    Yields s (s.nodeResult a thread v tans) a thread v (if tans = [] then List.replicate s.cur.ident.tw 0 else tans) := by
  obtain ⟨hemits, hlinks, honly⟩ := State.nodeResult_effect h.site_focus (State.atSite_runs h.site) thread v tans
  exact ⟨hemits, hlinks.fabric, honly⟩

/-- T tangents where D is set on `f32`, else none. -/
theorem Fires.dualT_eq (h : Fires s op r a ts) (c : Cell) : a.dualT c = if r.d = true ∧ r.ty = .f32 then c.ident.tw else 0 := by
  simp [At.dualT, h.rec_eq]

theorem tabulate_zero {α : Type} (f : Nat → α) : tabulate 0 f = [] := rfl

/-- The tangents of a result: those of its planes where D is set on `f32`, else zeros. -/
theorem planes_or_zeros {d : Prop} [Decidable d] (tw : Nat) (f : Nat → W32) :
    (if tabulate (if d then tw else 0) f = [] then List.replicate tw 0 else tabulate (if d then tw else 0) f)
      = if d then tabulate tw f else List.replicate tw 0 := by
  by_cases hd : d
  · simp only [if_pos hd]
    cases tw with
    | zero => rfl
    | succ n => exact if_neg (by simp [tabulate])
  · simp only [if_neg hd, tabulate_zero, if_true]

/-- An entry of weight 1 fits a queue that is not full. -/
theorem Fabric.sqFits_one {f : Fabric} {k : SqKind} (hk : k.weight = 1) (h : f.sqUsed < 2048) : f.sqFits k = true := by
  simp only [Fabric.sqFits, hk, decide_eq_true_eq]
  exact h

theorem State.cur_onCell {n : Nat} (hn : n = s.focus.cell) (f : Cell → Cell) : (s.onCell n f).cur = f s.cur := by
  subst hn
  exact State.cur_setCell_focus ..

/-- A poisoned token changes of the cell the links alone. -/
theorem State.passPoison_onlyLinks (ha : a.n = s.focus.cell) (thread : Nat) : s.cur.OnlyLinks (s.passPoison a thread).cur := by
  unfold State.passPoison State.takeFree
  dsimp only
  rw [State.cur_onCell (s := { s with free := s.free + 1 }) ha]
  exact a.write_onlyLinks ..

/-- A token that reports why it is poisoned: the report stands behind the others, and of the module only the fabric of the cell
differs (R233). -/
theorem Fires.poisonAt (h : Fires s op r a ts) (thread : Nat) (watch : Bool) (cause : Cause) (addr : Nat) (detail : BitVec 16) :
    (s.poisonAt a thread watch cause addr detail).cur.fabric.poison = s.cur.fabric.poison ++
        [{ pass := a.p.id, thread := thread, watch := watch, cause := cause, addr := addr, ring := a.ring, detail := detail
           cone := a.inCone }]
      ∧ (s.poisonAt a thread watch cause addr detail).cur.seq = s.cur.seq
      ∧ SameMemory s (s.poisonAt a thread watch cause addr detail) := by
  unfold State.poisonAt
  dsimp only
  generalize hu : s.onCell a.n _ = u
  have hucur : u.cur = (a.take s.cur).withFabric fun f => { f with poison := f.poison ++
      [{ pass := a.p.id, thread := thread, watch := watch, cause := cause, addr := addr, ring := a.ring, detail := detail
         cone := a.inCone }] } := by rw [← hu, State.cur_onCell h.site_focus]
  have huf : a.n = u.focus.cell := by rw [← hu]; exact h.site_focus
  have hum : SameMemory s u := by rw [← hu]; exact .refl s
  rw [State.passPoison_onlyLinks huf, hucur]
  refine ⟨?_, ?_, hum⟩
  · show (a.take s.cur).fabric.poison ++ _ = _
    rw [a.take_onlyLinks s.cur]
  · show (a.take s.cur).seq = _
    rw [a.take_onlyLinks s.cur]

end

end Sys2Proof.Machine
end

