-- ==== Sys2Proof/Proofs/EdgeIssues.lean ====
section
/-! SUPPORT. The issue of the ports of a block: they issue together, and each port's token stands at the end of its outputs
(R230, R409, R418). -/

namespace Sys2Proof.Machine

section
variable {s t : State} {a b : At} {c d : Cell} {i n : Nat}

/-! ### The links of different sites -/

theorem linkOf_ne {site site' o o' : Nat} (h : site ≠ site') (ho : o < 4) (ho' : o' < 4) : linkOf site o ≠ linkOf site' o' := by
  unfold linkOf
  omega

theorem At.outs_lt (a : At) {o : Nat} (ho : o ∈ a.outs) : o < 4 := by
  have := (List.mem_filter.mp ho).1
  simpa using this

/-- What a site writes leaves the links of another site. -/
theorem At.write_link_of_ne (b : At) (l : List Nat) (t : Tok) {m : Nat} (hm : ∀ o ∈ l, m ≠ linkOf b.site o) (c : Cell) :
    (b.write c l t).link m = c.link m := by
  unfold At.write
  induction l generalizing c with
  | nil => rfl
  | cons o l ih =>
    rw [List.foldl_cons, ih (fun x hx => hm x (List.mem_cons_of_mem _ hx)), Cell.emit_link_of_ne _ _ _ _ _ (hm o List.mem_cons_self)]

/-- Ports that write one after another, each a token of its own: each token with a reader stands at the end of its link. -/
theorem ports_last {l : List At} {f : Cell → At → Cell} {T : At → Tok} (good : Cell → Prop)
    (hgood : ∀ b ∈ l, ∀ c, good c → good (f c b))
    (hlinks : ∀ b ∈ l, ∀ c, good c → (f c b).fabric.links = (b.write c b.outs (T b)).fabric.links)
    (hsite : ∀ b ∈ l, ∀ b' ∈ l, b.site = b'.site → b = b') (hc : good c) {o : Nat} (hb : b ∈ l) (ho : o ∈ b.outs)
    (hu : b.p.image.users (linkOf b.site o) ≠ []) :
    ((l.foldl f c).link (linkOf b.site o)).q.getLast? = some (T b) := by
  have hlink : ∀ b' ∈ l, ∀ c, good c → ∀ m, (f c b').link m = (b'.write c b'.outs (T b')).link m := fun b' hb' c hc m => by
    unfold Cell.link
    rw [hlinks b' hb' c hc]
  have hkeep : ∀ (l₂ : List At) (d : Cell), (∀ b' ∈ l₂, b' ∈ l) → good d →
      (d.link (linkOf b.site o)).q.getLast? = some (T b) → ((l₂.foldl f d).link (linkOf b.site o)).q.getLast? = some (T b) := by
    intro l₂
    induction l₂ with
    | nil => exact fun _ _ _ h => h
    | cons b' l₂ ih =>
      intro d hsub hd h
      have hb' := hsub b' List.mem_cons_self
      refine ih _ (fun x hx => hsub x (List.mem_cons_of_mem _ hx)) (hgood b' hb' d hd) ?_
      rw [hlink b' hb' d hd]
      by_cases hs : b.site = b'.site
      · obtain rfl := hsite b hb b' hb' hs
        exact b.write_keeps_last _ _ _ hu _ h
      · rw [b'.write_link_of_ne _ _ (fun o' ho' => linkOf_ne hs (b.outs_lt ho) (b'.outs_lt ho'))]
        exact h
  have hall : ∀ (l₁ : List At) (d : Cell), (∀ b' ∈ l₁, b' ∈ l) → good d → good (l₁.foldl f d) := by
    intro l₁
    induction l₁ with
    | nil => exact fun _ _ h => h
    | cons b' l₁ ih =>
      exact fun d hsub hd => ih _ (fun x hx => hsub x (List.mem_cons_of_mem _ hx)) (hgood b' (hsub b' List.mem_cons_self) d hd)
  obtain ⟨l₁, l₂, hl⟩ := List.append_of_mem hb
  have hsub₁ : ∀ b' ∈ l₁, b' ∈ l := fun b' hb' => hl ▸ List.mem_append_left _ hb'
  have hsub₂ : ∀ b' ∈ l₂, b' ∈ l := fun b' hb' => hl ▸ List.mem_append_right _ (List.mem_cons_of_mem _ hb')
  have hgood₁ := hall l₁ c hsub₁ hc
  rw [hl, List.foldl_append, List.foldl_cons]
  refine hkeep l₂ _ hsub₂ (hgood b hb _ hgood₁) ?_
  rw [hlink b hb _ hgood₁]
  exact b.write_last _ _ _ ho hu

/-! ### The ports of a block -/

theorem At.mem_ports_tail (h : b ∈ a.ports.tail) : b.n = a.n ∧ b.p = a.p ∧ b.site ≠ a.site ∧ a.p.rec? b.site = some b.x := by
  obtain ⟨q, hq, hx⟩ := List.mem_filterMap.mp h
  obtain ⟨x, hrec, rfl⟩ := Option.map_eq_some_iff.mp hx
  have hne := (List.mem_filter.mp hq).2
  exact ⟨rfl, rfl, by simpa using hne, hrec⟩

theorem At.mem_ports_frame (h : b ∈ a.ports) : b.n = a.n ∧ b.p = a.p := by
  rcases List.mem_cons.mp h with rfl | h
  · exact ⟨rfl, rfl⟩
  · obtain ⟨hn, hp, -⟩ := At.mem_ports_tail h
    exact ⟨hn, hp⟩

/-- A site is one port of its block at most. -/
theorem At.ports_site {b' : At} (hb : b ∈ a.ports) (hb' : b' ∈ a.ports) (h : b.site = b'.site) : b = b' := by
  rcases List.mem_cons.mp hb with rfl | hb <;> rcases List.mem_cons.mp hb' with rfl | hb'
  · rfl
  · exact absurd h.symm (At.mem_ports_tail hb').2.2.1
  · exact absurd h (At.mem_ports_tail hb).2.2.1
  · obtain ⟨hn, hp, -, hx⟩ := At.mem_ports_tail hb
    obtain ⟨hn', hp', -, hx'⟩ := At.mem_ports_tail hb'
    rw [h, hx'] at hx
    obtain ⟨n, site, p, x⟩ := b
    obtain ⟨n', site', p', x'⟩ := b'
    dsimp only at *
    rw [hn, hn', hp, hp', h, Option.some.inj hx]

/-! ### A `LIN` port -/

/-- A `LIN` port puts its live slot on its outputs. -/
def At.issueLin (b : At) (i : Nat) (c : Cell) : Cell :=
  let l := c.liveSlot i (b.x.r.imm8.toNat % 64)
  b.write c b.outs (b.tok .data i (l.headD 0) (b.tans c.ident.tw fun k => l.tail.getD k 0))

theorem At.issueLin_onlyLinks (b : At) (i : Nat) (c : Cell) : c.OnlyLinks (b.issueLin i c) := b.write_onlyLinks ..

theorem State.issuePort_lin (hop : b.x.op = 0x50) (s : State) (i : Nat) : s.issuePort b i = s.onCell b.n (b.issueLin i) := by
  unfold State.issuePort At.isStin
  rw [hop]
  rfl

/-- `LIN` ports that issue one after another change of their cell what they write alone. -/
theorem State.CellBecomes.issueLins {l : List At} (h : s.CellBecomes t n d) (hl : ∀ b ∈ l, b.n = n ∧ b.x.op = 0x50) :
    s.CellBecomes (l.foldl (fun s b => s.issuePort b i) t) n (l.foldl (fun c b => b.issueLin i c) d) := by
  induction l generalizing t d with
  | nil => exact h
  | cons b l ih =>
    obtain ⟨hn, hop⟩ := hl b List.mem_cons_self
    rw [List.foldl_cons, List.foldl_cons, State.issuePort_lin hop, hn]
    exact ih (h.onCell _) fun x hx => hl x (List.mem_cons_of_mem _ hx)

theorem At.issueLins_onlyLinks (l : List At) (i : Nat) (c : Cell) : c.OnlyLinks (l.foldl (fun c b => b.issueLin i c) c) :=
  .foldl _ (fun c b => b.issueLin_onlyLinks i c) l c

/-- `LIN` ports leave the links of another site. -/
theorem At.issueLins_link_of_ne {l : List At} {m : Nat} (hm : ∀ b ∈ l, ∀ o ∈ b.outs, m ≠ linkOf b.site o) (i : Nat) (c : Cell) :
    (l.foldl (fun c b => b.issueLin i c) c).link m = c.link m := by
  induction l generalizing c with
  | nil => rfl
  | cons b l ih =>
    rw [List.foldl_cons, ih (fun x hx => hm x (List.mem_cons_of_mem _ hx))]
    exact b.write_link_of_ne _ _ (hm b List.mem_cons_self) c

/-- The live slots and the identity of a cell whose links alone change. -/
theorem Cell.OnlyLinks.liveSlot (h : c.OnlyLinks d) (i k : Nat) : d.liveSlot i k = c.liveSlot i k ∧ d.ident = c.ident := by
  rw [h]
  exact ⟨rfl, rfl⟩

/-! ### The issue of a block -/

/-- No marker waits on a port that can issue. -/
theorem At.carry_of_mayIssue {data : Bool} (h : b.mayIssue c data = true) : (c.carry b.site).empty = true := by
  unfold At.mayIssue at h
  simp only [Bool.and_eq_true] at h
  exact h.1.2

/-- A site whose ports can all issue issues its next thread together. -/
theorem issueStep_token {op : BitVec 7} {r : ElemRec} (h : s.atSite op r = some a)
    (hports : ∀ b ∈ a.ports, b.mayIssue s.cur true = true) (hi : a.p.threads[a.issued]? = some i) :
    issueStep s op r = .next (s.issueToken a i) := by
  have hcarry := At.carry_of_mayIssue (hports a List.mem_cons_self)
  unfold issueStep
  rw [h]
  simp only [hcarry, hi, Option.isSome_some, List.all_eq_true.mpr hports, Bool.not_true, Bool.false_eq_true, if_false]

/-- A site whose ports can all issue issues the pass-end once its pass has no more thread. -/
theorem issueStep_end {op : BitVec 7} {r : ElemRec} (h : s.atSite op r = some a)
    (hports : ∀ b ∈ a.ports, b.mayIssue s.cur false = true) (hi : a.p.threads[a.issued]? = none) :
    issueStep s op r = .next (s.issuePassEnd a) := by
  have hcarry := At.carry_of_mayIssue (hports a List.mem_cons_self)
  unfold issueStep
  rw [h]
  simp only [hcarry, hi, Option.isSome_none, List.all_eq_true.mpr hports, Bool.not_true, Bool.false_eq_true, if_false]

end

end Sys2Proof.Machine
end

