-- ==== Sys2Proof/Proofs/EdgePorts.lean ====
section
/-! RULE. The ports of tiles, FIFOs and streams, the barrier node and the control nodes (R416 to R421). -/

namespace Sys2Proof.Machine

/-! ### The commit of a thread alone (R232) -/

theorem Cell.drainQueue_empty {c : Cell} (h : c.fabric.sq = []) : c.drainQueue = c := by
  unfold Cell.drainQueue
  rw [h]
  rfl

/-- A thread that leaves a pass by which it holds nothing in the queue leaves the queue empty. -/
theorem Cell.leavePass_sq {c : Cell} (h : c.fabric.sq = []) (p : Pass) (thread : Nat) : (c.leavePass p thread).fabric.sq = [] := by
  show (c.fabric.sq.filter _ : List SqEntry) = []
  rw [h]
  rfl

theorem Cell.sendOn_fabric (c : Cell) (thread block ring : Nat) (next : Option Nat) (err : Option (Nat × Cause × Nat)) :
    (c.sendOn thread block ring next err).1.fabric = c.fabric := by
  unfold Cell.sendOn
  split
  · rfl
  · rfl
  · split <;> rfl

/-- A thread without fills settles none. -/
theorem State.settleFills_none {s : State} {n : Nat} (h : (s.cell n).fabric.specFills = []) (thread : Nat) :
    s.CellBecomes (s.settleFills n thread) n (s.cell n) := by
  have hkeep : (s.cell n).withFabric (fun f => { f with specFills := f.specFills.filter fun e => e.1 != thread }) = s.cell n := by
    have hfilter : (s.cell n).fabric.specFills.filter (fun e => e.1 != thread) = (s.cell n).fabric.specFills := by
      rw [h]
      rfl
    unfold Cell.withFabric
    dsimp only
    rw [hfilter]
  unfold State.settleFills
  rw [h, List.filter_nil, List.foldl_nil]
  exact hkeep ▸ (State.CellBecomes.refl s n).onCell _

theorem State.CellBecomes.meter {s t : State} {n : Nat} {d : Cell} (h : s.CellBecomes t n d) (p i k : Nat) :
    s.CellBecomes (t.meter p i k) n d := ⟨h.cell, h.others, h.memory, h.focus⟩

theorem State.CellBecomes.trans {s t u : State} {n : Nat} {d e : Cell} (h : s.CellBecomes t n d) (g : t.CellBecomes u n e) :
    s.CellBecomes u n e where
  cell := g.cell
  others m hm := (g.others m hm).trans (h.others m hm)
  memory := ⟨fun a => (g.memory.1 a).trans (h.memory.1 a), fun a => (g.memory.2 a).trans (h.memory.2 a)⟩
  focus := g.focus.trans h.focus

theorem State.CellBecomes.setCell {s t : State} {n : Nat} {d : Cell} (h : s.CellBecomes t n d) (c : Cell) :
    s.CellBecomes (t.setCell n c) n c := h.onCell fun _ => c

/-- Where the queue and the fills of a cell are empty a thread commits by leaving its pass alone. -/
theorem State.commitThread_alone {s : State} {n : Nat} (p : Pass) (x : SiteRec) (ring thread : Nat) (v : W32)
    (hsq : (s.cell n).fabric.sq = []) (hfills : (s.cell n).fabric.specFills = [])
    (hfifo : ∀ q, q < 2 → ((s.cell n).fifo q).used ((s.cell n).fillTan q) ≤ 512) (hrun : (s.cell n).run ≠ .idle) :
    ∃ t, s.commitThread n p x ring thread v = some t
      ∧ s.CellBecomes t n (((s.cell n).leavePass p thread).sendOn thread p.image.block ring (nextOf p x v) none).1 := by
  have hrows : (s.cell n).rowsFit [] = true := by
    simpa [Cell.rowsFit, Cell.fifoFits] using hfifo
  have hdrain := (State.CellBecomes.refl s n).onCell Cell.drainQueue
  rw [Cell.drainQueue_empty hsq] at hdrain
  have hes : commitOrder ((s.cell n).fabric.entriesOf p thread) = [] := by
    rw [Fabric.entriesOf, hsq]
    rfl
  unfold State.commitThread
  dsimp only
  generalize hu : s.onCell n Cell.drainQueue = u at hdrain
  rw [hdrain.cell, hes, hrows, if_neg (by simp [Cell.markHolds, hsq])]
  have hall : u.performAll n [] = (u, none, []) := rfl
  rw [hall, hdrain.cell, if_neg hrun]
  dsimp only
  have hmeter := hdrain.meter (partOfCell n) 3 (Map.get 0 (s.cell n).fabric.opsDone thread)
  have hsettle := State.settleFills_none (by rw [hmeter.cell, hfills]) thread
  rw [hmeter.cell] at hsettle
  have hbecomes := hmeter.trans hsettle
  rw [hbecomes.cell]
  generalize (u.meter _ 3 _).settleFills n thread = w at hbecomes
  generalize hd : ((s.cell n).leavePass p thread).sendOn thread p.image.block ring (nextOf p x v) none = d
  have hempty : d.1.drainQueue = d.1 := by
    refine Cell.drainQueue_empty ?_
    rw [← hd, Cell.sendOn_fabric]
    exact Cell.leavePass_sq hsq p thread
  obtain ⟨c, bad⟩ := d
  refine ⟨_, rfl, ?_⟩
  dsimp only at hempty ⊢
  rw [hempty]
  split
  · exact (hbecomes.setCell c).countCell ..
  · exact hbecomes.setCell c

/-- A pass that stands first under its number has one more thread gone, and no other has the number. -/
theorem Fabric.find_setPass {f : Fabric} {p q : Pass} (h : f.passes.find? (fun x => x.id == p.id) = some p) (hq : q.id = p.id) :
    (f.setPass q).passes.find? (fun x => x.id == p.id) = some q := by
  show (f.passes.map fun x => if x.id = q.id then q else x).find? (fun x => x.id == p.id) = some q
  have hkey : ∀ x : Pass, (fun x => x.id == p.id) (if x.id = q.id then q else x) = (x.id == p.id) := by
    intro x
    by_cases hx : x.id = q.id
    · simp [hx, hq]
    · simp [hx]
  have hid : p.id = q.id := hq.symm
  rw [List.find?_map, show ((fun x : Pass => x.id == p.id) ∘ fun x => if x.id = q.id then q else x) = fun x => x.id == p.id from
    funext hkey, h]
  simp [hid]

/-- A thread that leaves its pass is gone from it. -/
theorem Cell.leavePass_gone {c : Cell} {p : Pass} (h : c.fabric.passes.find? (fun x => x.id == p.id) = some p) (thread : Nat) :
    (c.leavePass p thread).fabric.passes.find? (fun x => x.id == p.id) = some { p with gone := thread :: p.gone } := by
  unfold Cell.leavePass Cell.withFabric
  dsimp only
  rw [h, Option.getD_some]
  exact Fabric.find_setPass h rfl

theorem Cell.leavePass_kept (c : Cell) (p : Pass) (thread : Nat) : (c.leavePass p thread).phase = c.phase
    ∧ (c.leavePass p thread).bound = c.bound ∧ (c.leavePass p thread).seq = c.seq ∧ (c.leavePass p thread).scratch = c.scratch :=
  ⟨rfl, rfl, rfl, rfl⟩

/-- A thread goes on to a bound block and waits there. -/
theorem Cell.sendOn_bound {c : Cell} {b : Nat} (hb : (Map.get? c.bound b).isSome = true) (thread block ring : Nat) :
    (c.sendOn thread block ring (some b) none).1 = c.withPhase fun p => p.enqueue b thread := by
  unfold Cell.sendOn
  dsimp only
  rw [if_pos hb]

theorem Phase.waitOf_enqueue (p : Phase) (b : Nat) {i : Nat} (hi : i < 4096) : ((p.enqueue b i).waitOf b).getLsbD i = true := by
  show (Map.get 0 (Map.set 0 p.wait b _) b).getLsbD i = true
  rw [Map.get_set_self, getLsbD_bitOn _ _ hi]
  simp

theorem Phase.parked_park (p : Phase) (block : Nat) (err : Option (BitVec 16 × Cause)) {i : Nat} (hi : i < 4096) :
    (p.park i block err).parked.getLsbD i = true := by
  show (bitOn p.parked i).getLsbD i = true
  rw [getLsbD_bitOn _ _ hi]
  simp

theorem Phase.errWord_park (p : Phase) (i block : Nat) :
    Map.get 0 (p.park i block none).errWord i = BitVec.ofNat 32 (block % 64 * 256) := by
  show Map.get 0 (Map.put p.errWord i (errWordOf 0 block 0)) i = _
  rw [Map.get_put_self]
  apply BitVec.eq_of_toNat_eq
  have hlt := Nat.mod_lt block (show 0 < 64 by decide)
  unfold errWordOf
  simp only [BitVec.toNat_append, BitVec.toNat_ofNat, Nat.shiftLeft_eq, Nat.zero_mod, Nat.or_zero, Nat.reducePow,
    show BitVec.toNat (0 : BitVec 16) = 0 from rfl, Nat.zero_mul, Nat.zero_or]
  omega

/-- The control node of a cell whose thread is alone: the thread leaves its pass and goes on (R232, R421). -/
theorem Fires.controlStep {s : State} {op : BitVec 7} {r : ElemRec} {a : At} {ts : List (Nat × Tok)} (h : Fires s op r a ts)
    (htogether : a.p.image.together = false) (hsq : s.cur.fabric.sq = []) (hfills : s.cur.fabric.specFills = [])
    (hfifo : ∀ q, q < 2 → (s.cur.fifo q).used (s.cur.fillTan q) ≤ 512) :
    ∃ t, Machine.controlStep s op r = .next t ∧ s.CellBecomes t s.focus.cell
      (((a.take s.cur).leavePass a.p (a.input ts).thread).sendOn (a.input ts).thread a.p.image.block a.ring
        (nextOf a.p a.x (a.input ts).a.v) none).1 := by
  have htake := (State.CellBecomes.refl s a.n).onCell a.take
  rw [h.cell_eq] at htake
  have hlinks := a.take_onlyLinks s.cur
  obtain ⟨t, ht, hbecomes⟩ := State.commitThread_alone (s := s.onCell a.n a.take) (n := a.n) a.p a.x a.ring (a.input ts).thread
    (a.input ts).a.v (by rw [htake.cell, hlinks]; exact hsq) (by rw [htake.cell, hlinks]; exact hfills)
    (by rw [htake.cell, hlinks]; exact hfifo) (by rw [htake.cell, hlinks]; exact State.atSite_runs h.site)
  rw [htake.cell] at hbecomes
  refine ⟨t, ?_, h.site_focus ▸ htake.trans hbecomes⟩
  unfold Machine.controlStep
  rw [h.fireSite]
  simp only [htogether, h.clean, ht, Bool.false_eq_true, if_false, Option.getD_some]

/-! ### A `STIN` port (R418) -/

/-- The cell after a `STIN` port has taken the next token of its stream. -/
def At.issueStin (b : At) (i : Nat) (k : StinItem) (rest : List StinItem) (c : Cell) : Cell :=
  let c := c.withFabric fun f => { f with
    stin := Map.set [] f.stin b.ring rest, stinKept := f.stinKept ++ [(b.p.id, b.ring, k)] }
  let c := b.write c b.outs (b.tok .data i k.word (b.tans c.ident.tw fun j => k.tans.getD j 0))
  (c.pendLevels b.site k.levels i).acquire k.scope

theorem State.issuePort_stin {s : State} {b : At} {i : Nat} {k : StinItem} {rest : List StinItem} (hop : b.x.op = 0x6B)
    (hstin : Map.get [] (s.cell b.n).fabric.stin b.ring = k :: rest) (hcut : k.mode = .cut) :
    s.issuePort b i = (s.onCell b.n (b.issueStin i k rest)).onCell b.n fun c => c.barrierLand k.bar k.bytes := by
  unfold State.issuePort At.isStin
  rw [hop, hstin]
  dsimp only
  unfold State.landItem
  rw [hcut]
  rfl

theorem Cell.pendLevels_frame (c : Cell) (site : Nat) (levels : List Nat) (thread : Nat) :
    c.pendLevels site levels thread = { c with fabric := { c.fabric with carry := (c.pendLevels site levels thread).fabric.carry } } := by
  unfold Cell.pendLevels
  split <;> rfl

theorem Cell.acquire_frame (c : Cell) (sc : Scope) : c.acquire sc = { c with l1 := (c.acquire sc).l1 } := by
  unfold Cell.acquire
  split <;> rfl

/-- What a port that takes a token leaves: its links end in the token, its stream has given it, and the sequencer is as before. -/
theorem At.issueStin_effect (b : At) (i : Nat) (k : StinItem) (rest : List StinItem) (c : Cell) :
    (∃ d, (b.issueStin i k rest c).fabric.links
      = (b.write d b.outs (b.tok .data i k.word (b.tans c.ident.tw fun j => k.tans.getD j 0))).fabric.links)
    ∧ Map.get [] (b.issueStin i k rest c).fabric.stin b.ring = rest
    ∧ (b.issueStin i k rest c).fabric.stinKept = c.fabric.stinKept ++ [(b.p.id, b.ring, k)]
    ∧ (b.issueStin i k rest c).seq = c.seq := by
  unfold At.issueStin
  dsimp only
  generalize hd : c.withFabric _ = d
  have hident : d.ident = c.ident := by rw [← hd]; rfl
  have hstin : Map.get [] d.fabric.stin b.ring = rest := by rw [← hd]; exact Map.get_set_self ..
  have hkept : d.fabric.stinKept = c.fabric.stinKept ++ [(b.p.id, b.ring, k)] := by rw [← hd]; rfl
  have hseq : d.seq = c.seq := by rw [← hd]; rfl
  rw [Cell.acquire_frame, Cell.pendLevels_frame, hident]
  have hwrite := b.write_onlyLinks d b.outs (b.tok .data i k.word (b.tans c.ident.tw fun j => k.tans.getD j 0))
  refine ⟨⟨d, rfl⟩, ?_, ?_, ?_⟩
  · rw [← hstin, hwrite]
  · rw [← hkept, hwrite]
  · rw [← hseq, hwrite]

/-- A `STIN` port whose block can issue gives its next token, whose bytes count in their barrier alone where its stream has been
cancelled (R366, R418). -/
theorem elemStin_issues {s : State} {r : ElemRec} {a : At} {i : Nat} {k : StinItem} {rest : List StinItem}
    (h : s.atSite 0x6B r = some a) (hports : ∀ b ∈ a.ports, b.mayIssue s.cur true = true)
    (htail : ∀ b ∈ a.ports.tail, b.x.op = 0x50) (hi : a.p.threads[a.issued]? = some i)
    (hstin : Map.get [] s.cur.fabric.stin a.ring = k :: rest) (hcut : k.mode = .cut) :
    Completes (.elemStin r) s fun t => Emits t a i k.word (a.tans s.cur.ident.tw fun j => k.tans.getD j 0)
      ∧ Map.get [] t.cur.fabric.stin a.ring = rest ∧ t.cur.fabric.stinKept = s.cur.fabric.stinKept ++ [(a.p.id, a.ring, k)]
      ∧ t.cur.seq = s.cur.seq ∧ SameMemory s t := by
  obtain ⟨hn, -, hop, -⟩ := State.atSite_eq h
  have hcell : s.cell a.n = s.cur := by rw [hn]; rfl
  refine .of_exec ((exec_elemStin s r).trans (issueStep_token h hports hi)) ⟨_, rfl, ?_⟩
  have hcount := (State.CellBecomes.refl s a.n).onCell a.countIssue
  rw [hcell] at hcount
  have hissued : ((s.onCell a.n a.countIssue).issuePort a i) = _ := State.issuePort_stin hop
    (by rw [hcount.cell]; exact hstin) hcut
  have hfirst := (hcount.onCell (a.issueStin i k rest)).onCell fun c => c.barrierLand k.bar k.bytes
  rw [← hissued] at hfirst
  have hall := (hfirst.issueLins (l := a.ports.tail) (i := i)
    fun b hb => ⟨(At.mem_ports_tail hb).1, htail b hb⟩).countCell a.n 1 1
  have hbecomes : s.CellBecomes (s.issueToken a i) a.n _ := hall
  rw [hn] at hbecomes
  rw [hbecomes.cur]
  generalize hc : a.countIssue s.cur = c at hbecomes
  obtain ⟨⟨d, hlinks⟩, hstin', hkept, hseq⟩ := a.issueStin_effect i k rest c
  generalize a.issueStin i k rest c = c₁ at hlinks hstin' hkept hseq hbecomes
  have hland : (c₁.barrierLand k.bar k.bytes).fabric = c₁.fabric ∧ (c₁.barrierLand k.bar k.bytes).seq = c₁.seq := by
    have honly := (c₁.barrierLand_effect k.bar k.bytes).1
    refine ⟨?_, honly.seq⟩
    unfold Cell.OnlyBarriers at honly
    rw [honly]
  generalize c₁.barrierLand k.bar k.bytes = c₂ at hland hbecomes
  obtain ⟨hfabric, hseq'⟩ := hland
  have hlins := At.issueLins_onlyLinks a.ports.tail i c₂
  have hident : c.ident = s.cur.ident := by rw [← hc]; rfl
  refine ⟨Emits.of_last fun o ho hu => ?_, ?_, ?_, ?_, hbecomes.memory⟩
  · rw [hbecomes.cur, At.issueLins_link_of_ne (fun b hb o' ho' =>
      linkOf_ne (At.mem_ports_tail hb).2.2.1.symm (a.outs_lt ho) (b.outs_lt ho'))]
    unfold Cell.link
    rw [hfabric, hlinks, hident]
    exact a.write_last _ _ _ ho hu
  · rw [hlins, hfabric]
    exact hstin'
  · rw [hlins, hfabric]
    exact hkept.trans (by rw [← hc]; rfl)
  · rw [hlins, hseq', hseq, ← hc]
    rfl

/-! ### Engine ports -/

section
variable {s : State} {r : ElemRec} {a : At} {ts : List (Nat × Tok)}

theorem Fires.tileTop_eq {op : BitVec 7} (h : Fires s op r a ts) (c : Cell) :
    a.tileTop c = r.imm8.toNat % 8 + if r.d = true ∧ r.ty = .f32 then c.ident.tw else 0 := by
  rw [At.tileTop, h.dualT_eq, h.rec_eq]

theorem elemAcrd_yields (h : Fires s 0x68 r a ts) (hidx : (a.input ts).a.v.toNat < 12288)
    (hfree : s.cur.tileNamed (r.imm8.toNat % 8) (a.tileTop s.cur) = false) :
    Completes (.elemAcrd r) s fun t => Yields s t a (a.input ts).thread
      (Map.get 0 s.cur.tiles (tileKey (r.imm8.toNat % 8) 0 (a.input ts).a.v.toNat))
      (if r.d = true ∧ r.ty = .f32 then tabulate s.cur.ident.tw fun k =>
        Map.get 0 s.cur.tiles (tileKey (r.imm8.toNat % 8 + k + 1) 0 (a.input ts).a.v.toNat)
        else List.replicate s.cur.ident.tw 0) := by
  refine h.reads (exec_elemAcrd s r) ((if_neg (Nat.not_le.mpr hidx)).trans (if_neg (by simp [hfree]))) ?_
  rw [← planes_or_zeros, ← h.dualT_eq]
  exact h.nodeResult ..

theorem elemAcwr_queues (h : Fires s 0x69 r a ts) (hfits : s.cur.fabric.sqUsed < 2048) (hidx : (a.input ts).a.v.toNat < 12288)
    (hfree : s.cur.tileNamed (r.imm8.toNat % 8) (a.tileTop s.cur) = false) :
    Completes (.elemAcwr r) s fun t => Queues s t a (a.input ts).thread (.acwr (r.imm8.toNat % 8) (a.input ts).a.v.toNat
      ((a.input ts).b.v :: tabulate (a.dualT s.cur) (a.input ts).b.tan)) 0 (List.replicate s.cur.ident.tw 0) :=
  h.stores (exec_elemAcwr s r) hfits ((if_neg (Nat.not_le.mpr hidx)).trans (if_neg (by simp [hfree]))) (h.enqueue ..)

theorem elemAfpush_queues (h : Fires s 0x6A r a ts) (hfits : s.cur.fabric.sqUsed < 2048) :
    Completes (.elemAfpush r) s fun t => Queues s t a (a.input ts).thread (.afpush a.site (r.imm8.toNat % 2) (afDesc r.ty)
      (if r.d then 4 * s.cur.ident.tw else 0) (a.input ts).a.v) 0 (List.replicate s.cur.ident.tw 0) := by
  refine .of_exec (exec_elemAfpush s r) ⟨_, h.fireSite, ?_⟩
  simp only [h.room, h.clean, Fabric.sqFits_one (k := .afpush ..) rfl hfits, Bool.not_true, Bool.false_eq_true, if_false]
  exact h.enqueue ..

theorem elemStout_queues (h : Fires s 0x6C r a ts) (hfits : s.cur.fabric.sqUsed < 2048)
    (hroom : s.cur.stoutUsed a.ring + (if r.d then s.cur.ident.tw else 0) < 4096) :
    Completes (.elemStout r) s fun t => Queues s t a (a.input ts).thread (.stout a.ring ((a.input ts).a.v ::
      if r.d then a.tans s.cur.ident.tw (a.input ts).a.tan else [])) 0 (List.replicate s.cur.ident.tw 0) := by
  refine h.stores (exec_elemStout s r) hfits (if_pos ?_) (h.enqueue ..)
  have hlen : (a.tans s.cur.ident.tw (a.input ts).a.tan).length = s.cur.ident.tw := by
    unfold At.tans
    split <;> simp [tabulate]
  rw [decide_eq_true_eq, List.length_cons, apply_ite List.length, hlen, List.length_nil]
  exact hroom

theorem elemBarv_queues (h : Fires s 0x7A r a ts) (hfits : s.cur.fabric.sqUsed < 2048) :
    Completes (.elemBarv r) s fun t => Queues s t a (a.input ts).thread (.barv (r.imm8.toNat % 32)) (a.input ts).a.v (a.input ts).a.t :=
  h.stores (exec_elemBarv s r) hfits rfl (h.enqueue ..)

theorem elemTrapx_passes (h : Fires s 0x7B r a ts) (hv : (a.input ts).a.v = 0) :
    Completes (.elemTrapx r) s fun t => Yields s t a (a.input ts).thread 0 (a.input ts).a.t := by
  refine h.reads (exec_elemTrapx s r) (if_neg (not_not_intro hv)) ?_
  rw [State.onCell_eq, h.cell_eq, ← hv]
  exact a.write_yields s h.site_focus _ _ _ _ _ rfl ((a.take_onlyLinks _).trans (a.write_onlyLinks ..)).fabric

end

/-- `NEXT` names the successor entry that its value selects; an entry of 0x3FF names none (R223, R421). -/
theorem nextOf_next {p : Pass} {x : SiteRec} {r : ElemRec} {v : W32} {b : Nat} (hop : x.op = 0x78) (hr : x.r = r)
    (hk : (p.image.succ.getD (if v = 0 then r.imm8.toNat % 16 else r.imm8.toNat / 16) 0x3FF).toNat = b) (hb : b < 64) :
    nextOf p x v = some b := by
  unfold nextOf
  rw [hop, hr, if_neg (by decide)]
  dsimp only
  rw [if_neg, hk]
  intro he
  rw [he] at hk
  exact absurd hk (by rw [show ((0x3FF : BitVec _).toNat) = 1023 from rfl]; omega)

/-- Settles O39: each port does what its node step does where it fires. -/
theorem portsAndControlNodes : Obligations.PortsAndControlNodes := by
  intro s r a ts c x zeros fires tile idx queues alone dual planes tans entry b
  refine ⟨fun h hidx hfree => elemAcrd_yields h hidx (h.tileTop_eq _ ▸ hfree), fun h hidx hfree hfits => ?_,
    fun h hfits => elemAfpush_queues h hfits, fun h hd hroom hfits => ?_, fun h hd hroom hfits => ?_,
    fun h hfits => elemBarv_queues h hfits, fun i k rest h hports htail hi hstin hcut => ?_, fun h hal hb hbound hth => ?_,
    fun h hal hth => ?_, fun h hv => elemTrapx_passes h hv,
    fun h hv => h.reads (exec_elemTrapx s r) (if_pos hv) (h.poisonAt ..)⟩
  · have := elemAcwr_queues h hfits hidx (h.tileTop_eq _ ▸ hfree)
    rwa [h.dualT_eq] at this
  · have := elemStout_queues h hfits (by simpa [hd] using hroom)
    rwa [if_neg (by simp [hd])] at this
  · have := elemStout_queues h hfits (by simpa [hd] using hroom)
    rwa [if_pos hd, a.tans_eq h.rec_eq] at this
  · have := elemStin_issues h hports htail hi hstin hcut
    rwa [a.tans_eq (State.atSite_eq h).2.2.2] at this
  · obtain ⟨htogether, hsq, -, hgone, -, hfills, hpass, hfifo, -⟩ := hal
    obtain ⟨t, ht, hbecomes⟩ := h.controlStep htogether hsq hfills hfifo
    refine .of_exec (exec_elemNext s r) ⟨t, ht, ?_⟩
    have hlinks := a.take_onlyLinks s.cur
    rw [hbecomes.cur, nextOf_next (State.atSite_eq h.site).2.2.1 h.rec_eq rfl hb]
    generalize a.take s.cur = d at hlinks
    obtain ⟨hphase, hbound', hseq, hscratch⟩ := d.leavePass_kept a.p (a.input ts).thread
    have hleft := Cell.leavePass_gone (c := d) (p := a.p) (by rw [hlinks]; exact hpass) (a.input ts).thread
    rw [hgone] at hleft
    rw [Cell.sendOn_bound (by rw [hbound', hlinks]; exact hbound)]
    refine ⟨Phase.waitOf_enqueue _ _ hth, ?_, ⟨_, hleft, rfl⟩, ?_, ?_, hbecomes.memory⟩
    · exact (congrArg Phase.parked hphase).trans (by rw [hlinks])
    · exact hseq.trans (by rw [hlinks])
    · exact hscratch.trans (by rw [hlinks])
  · obtain ⟨htogether, hsq, -, hgone, -, hfills, hpass, hfifo, -⟩ := hal
    obtain ⟨t, ht, hbecomes⟩ := h.controlStep htogether hsq hfills hfifo
    refine .of_exec (exec_elemPark s r) ⟨t, ht, ?_⟩
    have hlinks := a.take_onlyLinks s.cur
    rw [hbecomes.cur, show nextOf a.p a.x (a.input ts).a.v = none from if_pos (State.atSite_eq h.site).2.2.1]
    generalize a.take s.cur = d at hlinks
    obtain ⟨hphase, -, hseq, -⟩ := d.leavePass_kept a.p (a.input ts).thread
    have hleft := Cell.leavePass_gone (c := d) (p := a.p) (by rw [hlinks]; exact hpass) (a.input ts).thread
    rw [hgone] at hleft
    refine ⟨Phase.parked_park _ _ _ hth, ?_, Phase.errWord_park .., ⟨_, hleft, rfl⟩, hseq.trans (by rw [hlinks]), hbecomes.memory⟩
    exact (congrArg Phase.errs hphase).trans (by rw [hlinks])

end Sys2Proof.Machine
end

