-- ==== Sys2Proof/Proofs/LiveSlots.lean ====
section
/-! RULE. The `LIN` ports of a block: their next thread with its live slots, and the pass-end with the choice of the next block
(R230, R409). -/

namespace Sys2Proof.Machine

section
variable {s : State} {r : ElemRec} {a b : At} {i : Nat}

/-! ### The next thread -/

/-- Every `LIN` port of a block gives the live slot of the thread that issues. -/
theorem elemLin_issues (h : s.atSite 0x50 r = some a) (hports : ∀ b ∈ a.ports, b.x.op = 0x50 ∧ b.mayIssue s.cur true = true)
    (hi : a.p.threads[a.issued]? = some i) : Completes (.elemLin r) s fun t =>
      (∀ b ∈ a.ports, Emits t b i ((s.cur.liveSlot i (b.x.r.imm8.toNat % 64)).headD 0)
        (if b.x.r.d = true ∧ b.x.r.ty = .f32 then
            tabulate s.cur.ident.tw fun k => (s.cur.liveSlot i (b.x.r.imm8.toNat % 64)).tail.getD k 0
          else List.replicate s.cur.ident.tw 0))
      ∧ t.cur = { s.cur with fabric := t.cur.fabric, bps := t.cur.bps } ∧ SameMemory s t := by
  obtain ⟨hn, -⟩ := State.atSite_eq h
  have hcell : s.cell a.n = s.cur := by rw [hn]; rfl
  refine .of_exec ((exec_elemLin s r).trans (issueStep_token h (fun b hb => (hports b hb).2) hi)) ⟨_, rfl, ?_⟩
  have hcount := (State.CellBecomes.refl s a.n).onCell a.countIssue
  rw [hcell] at hcount
  have hall := (hcount.issueLins (l := a.ports) (i := i)
    fun b hb => ⟨(At.mem_ports_frame hb).1, (hports b hb).1⟩).countCell a.n 1 1
  have hbecomes : s.CellBecomes (s.issueToken a i) a.n _ := hall
  rw [hn] at hbecomes
  rw [hbecomes.cur]
  have hframe : s.cur.OnlyFabric (a.countIssue s.cur) := .withFabric ..
  have hslot : ∀ k, (a.countIssue s.cur).liveSlot i k = s.cur.liveSlot i k := fun _ => rfl
  have hident : (a.countIssue s.cur).ident = s.cur.ident := rfl
  generalize a.countIssue s.cur = c at hbecomes hframe hslot hident
  refine ⟨fun b hb => ?_, hframe.trans (At.issueLins_onlyLinks a.ports i c).fabric, hbecomes.memory⟩
  rw [← b.tans_eq rfl]
  refine Emits.of_last fun o ho hu => ?_
  rw [hbecomes.cur]
  refine ports_last (T := fun b => b.tok .data i ((s.cur.liveSlot i (b.x.r.imm8.toNat % 64)).headD 0)
    (b.tans s.cur.ident.tw fun k => (s.cur.liveSlot i (b.x.r.imm8.toNat % 64)).tail.getD k 0)) c.OnlyLinks
    (fun b _ d hd => hd.trans (b.issueLin_onlyLinks i d)) (fun b _ d hd => ?_) (fun b hb b' hb' => At.ports_site hb hb') (.refl c)
    hb ho hu
  obtain ⟨hslot', hident'⟩ := hd.liveSlot i (b.x.r.imm8.toNat % 64)
  unfold At.issueLin
  dsimp only
  rw [hslot', hident', hslot, hident]

/-! ### The pass-end -/

/-- A port that has passed the pass-end on. -/
def At.endPort (a : At) (v : W32) (c : Cell) (b : At) : Cell :=
  b.close (b.write c b.outs (b.tok .passEnd (a.p.threads.getLastD 0) v []))

theorem At.close_frame (b : At) (c : Cell) : c.OnlyFabric (b.close c) := rfl

theorem At.endPort_frame (a : At) (v : W32) (c : Cell) (b : At) : c.OnlyFabric (a.endPort v c b) :=
  (b.write_onlyLinks c _ _).fabric.trans (b.close_frame _)

theorem At.endPorts_frame (a : At) (v : W32) (l : List At) (c : Cell) : c.OnlyFabric (l.foldl (a.endPort v) c) := by
  induction l generalizing c with
  | nil => rfl
  | cons b l ih => exact (a.endPort_frame v c b).trans (ih _)

/-- A port that passes the pass-end on enters the era after its pass; the era of another site stays. -/
theorem At.endPort_era (a : At) (v : W32) (c : Cell) (b : At) (k : Nat) :
    Map.get 0 (a.endPort v c b).fabric.era k = if k = b.site then b.p.id + 1 else Map.get 0 c.fabric.era k := by
  have hera : (a.endPort v c b).fabric.era = Map.put c.fabric.era b.site (b.p.id + 1) := by
    show Map.put (b.write c b.outs (b.tok .passEnd (a.p.threads.getLastD 0) v [])).fabric.era b.site (b.p.id + 1) = _
    rw [b.write_onlyLinks]
  rw [hera]
  split
  next hk => rw [hk, Map.get_put_self]
  next hk => exact Map.get_put_of_ne _ _ _ hk

/-- The era of every port is the one after its pass. -/
theorem At.endPorts_era (a : At) (v : W32) {l : List At} (hl : ∀ b ∈ l, b.p = a.p) {k : Nat} (c : Cell)
    (h : (∃ b ∈ l, b.site = k) ∨ Map.get 0 c.fabric.era k = a.p.id + 1) :
    Map.get 0 (l.foldl (a.endPort v) c).fabric.era k = a.p.id + 1 := by
  induction l generalizing c with
  | nil => simpa using h
  | cons b l ih =>
    refine ih (fun x hx => hl x (List.mem_cons_of_mem _ hx)) _ ?_
    rw [At.endPort_era, hl b List.mem_cons_self]
    rcases h with ⟨x, hx, rfl⟩ | h
    · rcases List.mem_cons.mp hx with rfl | hx
      · exact .inr (if_pos rfl)
      · exact .inl ⟨x, hx, rfl⟩
    · right
      split
      · rfl
      · exact h

/-- Every port that has passed the pass-end on ends in it. -/
theorem At.issueEnd_effect (a : At) (c : Cell) : c.OnlyFabric (a.issueEnd c)
    ∧ (∀ b ∈ a.ports, Map.get 0 (a.issueEnd c).fabric.era b.site = a.p.id + 1)
    ∧ ∀ b ∈ a.ports, ∀ o ∈ b.outs, b.p.image.users (linkOf b.site o) ≠ [] →
        ((a.issueEnd c).link (linkOf b.site o)).q.getLast?
          = some (b.tok .passEnd (a.p.threads.getLastD 0) (BitVec.ofNat 32 (c.choice.getD 0)) []) := by
  have hframe : c.OnlyFabric (a.countIssue c) := .withFabric ..
  refine ⟨hframe.trans (a.endPorts_frame _ a.ports _), fun b hb => a.endPorts_era _
    (fun b hb => (At.mem_ports_frame hb).2) _ (.inl ⟨b, hb, rfl⟩), fun b hb o ho hu => ?_⟩
  exact ports_last (f := a.endPort (BitVec.ofNat 32 (c.choice.getD 0)))
    (T := fun b => b.tok .passEnd (a.p.threads.getLastD 0) (BitVec.ofNat 32 (c.choice.getD 0)) []) (fun _ => True)
    (fun _ _ _ _ => trivial) (fun _ _ _ _ => rfl) (fun b hb b' hb' => At.ports_site hb hb') trivial hb ho hu

theorem Closes.of_last {t : State} {next : W32} {thread : Nat} {tans : List W32}
    (h : ∀ o ∈ b.outs, b.p.image.users (linkOf b.site o) ≠ [] →
      (t.cur.link (linkOf b.site o)).q.getLast? = some (b.tok .passEnd thread next tans)) : Closes t b next :=
  fun o ho hu => ⟨_, h o ho hu, rfl, rfl, rfl⟩

/-- After its last thread a block passes the pass-end on, with no next block to name. -/
theorem elemLin_ends (h : s.atSite 0x50 r = some a) (hports : ∀ b ∈ a.ports, b.mayIssue s.cur false = true)
    (hi : a.p.threads[a.issued]? = none) (hc : s.cur.choice = none) : Completes (.elemLin r) s fun t =>
      (∀ b ∈ a.ports, Map.get 0 t.cur.fabric.era b.site = a.p.id + 1 ∧ Closes t b 0)
      ∧ t.cur = { s.cur with fabric := t.cur.fabric, bps := t.cur.bps } ∧ OnlyCur s t := by
  obtain ⟨hn, -⟩ := State.atSite_eq h
  have hcell : s.cell a.n = s.cur := by rw [hn]; rfl
  obtain ⟨hframe, hera, hlast⟩ := a.issueEnd_effect s.cur
  rw [hc] at hlast
  refine .of_exec ((exec_elemLin s r).trans (issueStep_end h hports hi)) ⟨s.setCur (a.issueEnd s.cur), ?_, ?_, ?_, .setCur ..⟩
  · unfold State.issuePassEnd
    dsimp only
    rw [hcell, hc, hn]
    rfl
  · rw [State.setCur_eq, State.cur_setCell_focus]
    exact fun b hb => ⟨hera b hb, Closes.of_last fun o ho hu => by
      rw [State.cur_setCell_focus]
      exact hlast b hb o ho hu⟩
  · rw [State.setCur_eq, State.cur_setCell_focus]
    exact hframe

/-- Where a block that is bound is chosen, the pass-end names it and its pass starts at once. -/
theorem elemLin_starts {k : Nat} {m : Image} (h : s.atSite 0x50 r = some a)
    (hports : ∀ b ∈ a.ports, b.mayIssue s.cur false = true) (hi : a.p.threads[a.issued]? = none) (hc : s.cur.choice = some k)
    (hm : Map.get? s.cur.bound k = some m) (hcache : s.cur.cacheHas m.ident = true) : Completes (.elemLin r) s fun t =>
      (∀ b ∈ a.ports, Map.get 0 t.cur.fabric.era b.site = a.p.id + 1 ∧ Closes t b (BitVec.ofNat 32 k))
      ∧ (∃ q, t.cur.fabric.passes.getLast? = some q ∧ q.image = m ∧ q.start = s.timebase) ∧ OnlyCur s t := by
  obtain ⟨hn, -⟩ := State.atSite_eq h
  have hcell : s.cell a.n = s.cur := by rw [hn]; rfl
  obtain ⟨hframe, hera, hlast⟩ := a.issueEnd_effect s.cur
  rw [hc] at hlast
  generalize hd : a.issueEnd s.cur = d at hframe hera hlast
  have hkept : d.bound = s.cur.bound ∧ d.cache = s.cur.cache := by
    rw [hframe]
    exact ⟨rfl, rfl⟩
  obtain ⟨hbound, hcached⟩ := hkept
  have hcache' : d.cacheHas m.ident = true := by
    unfold Cell.cacheHas
    rw [hcached]
    exact hcache
  have hstart : s.issuePassEnd a = s.setCur (d.startPass d.eligibles k m s.timebase) := by
    unfold State.issuePassEnd State.startBlock
    dsimp only
    rw [hcell, hc, hn, hd]
    dsimp only
    rw [State.cell_setCell_self, hbound, hm]
    dsimp only
    rw [if_pos hcache', State.setCell_setCell]
    rfl
  have hpass : (d.startPass d.eligibles k m s.timebase).fabric = { d.fabric with
      passes := d.fabric.passes ++ [newPass d.phase.nextPass m (d.phase.passThreads k m.gate) s.timebase] } := by
    unfold Cell.startPass Cell.cacheLoad
    rw [if_pos hcache']
  generalize d.startPass d.eligibles k m s.timebase = e at hstart hpass
  refine .of_exec ((exec_elemLin s r).trans (issueStep_end h hports hi)) ⟨_, rfl, ?_⟩
  rw [hstart]
  refine ⟨fun b hb => ⟨?_, Closes.of_last (thread := a.p.threads.getLastD 0) (tans := []) fun o ho hu => ?_⟩,
    ⟨newPass d.phase.nextPass m (d.phase.passThreads k m.gate) s.timebase, ?_,
    rfl, rfl⟩, .setCur ..⟩
  · rw [State.setCur_eq, State.cur_setCell_focus, hpass]
    exact hera b hb
  · rw [State.setCur_eq, State.cur_setCell_focus]
    unfold Cell.link
    rw [hpass]
    exact hlast b hb o ho hu
  · rw [State.setCur_eq, State.cur_setCell_focus, hpass]
    exact List.getLast?_concat ..

end

end Sys2Proof.Machine
end

