-- ==== Sys2Proof/Proofs/NodeLoads.lean ====
section
/-! SUPPORT. The speculative loads of memory nodes on this module (R138, R235, R411): a load gives what memory holds where no line
of the L1 disagrees with memory, and leaves memory, the sequencer and every line that was ready as they were. -/

namespace Sys2Proof.Machine

section
variable {s t u : State} {n pa thread : Nat} {l : Loc}

/-! ### A touch of one ready line leaves every ready line ready (R137, R138) -/

/-- A hit on a ready line changes that line's tag alone, which keeps its way and stays clear of OPD. -/
theorem State.touchLine_keepsAll (h : s.lineReady pa) (p ctx x : Nat) (cls : PageClass) (write spec : Bool) :
    ∃ L, s.touchLine p ctx x cls (pa / 64) write spec = some { s with lines := L }
      ∧ ∀ pa', s.lineReady pa' → ({ s with lines := L } : State).lineReady pa' := by
  obtain ⟨hc, hopd, hway⟩ := h
  unfold State.touchLine
  dsimp only
  split
  · exact ⟨s.lines, rfl, fun _ h => h⟩
  next hnc =>
    obtain ⟨g, hg⟩ := Option.isSome_iff_exists.1 (hc.resolve_left (by simpa using hnc))
    unfold State.opdTagged at hopd
    rw [hg] at hopd ⊢
    refine ⟨_, rfl, fun pa' ⟨hc', hopd', hway'⟩ => ⟨hc'.imp id fun h => ?_, ?_, fun e he => ?_⟩⟩
    · rw [Map.get?_put]
      split
      · rfl
      · exact h
    · unfold State.opdTagged at hopd' ⊢
      rw [Map.get?_put]
      split
      · exact hopd
      · exact hopd'
    · obtain rfl | he := (Map.mem_insert _ _ _ _).1 he
      · exact hway (pa / 64, g) (Map.mem_of_get? hg)
      · exact hway e (List.mem_of_mem_filter he)

theorem State.touch_keepsAll {cls : PageClass} (h : s.lineReady pa) (hm : paModule pa = s.pod.self) (w sp : Bool) :
    ∃ L F, s.touch n cls pa w sp = s.touched L F s.mem ∧ ∀ pa', s.lineReady pa' → (s.touched L F s.mem).lineReady pa' := by
  obtain ⟨F, hF⟩ := s.countAccess_eq (cellPort n) pa
  obtain ⟨L, hL, hr⟩ := State.touchLine_keepsAll (s := { s with flows := F }) h (partOfCell n) (s.cell n).ident.ctx
    (s.cell n).ident.world cls w sp
  refine ⟨L, F, ?_, hr⟩
  unfold State.touch State.touchFor
  dsimp only
  rw [hF, if_neg (not_not.2 hm), show ({ s with flows := F } : State).opdTagged pa = false from h.2.1, Bool.and_false,
    if_neg Bool.false_ne_true, State.portDown_of_ready { s with flows := F } pa h, if_neg Bool.false_ne_true, hL]
  dsimp only
  rw [State.misses_of_ready h, Bool.and_false, Bool.false_and, if_neg Bool.false_ne_true]
  rfl

/-! ### The frame of a node's loads -/

/-- Of the module only tags, counters and the L1 and the fills of cell n may differ, and every line that was ready is. -/
structure State.Fetches (s u : State) (n : Nat) : Prop where
  cell  : u.cell n = { s.cell n with
    l1 := (u.cell n).l1, fabric := { (s.cell n).fabric with specFills := (u.cell n).fabric.specFills } }
  mem   : u.mem = s.mem
  host  : u.hostMem = s.hostMem
  focus : u.focus = s.focus
  pod   : u.pod = s.pod
  ready : ∀ pa, s.lineReady pa → u.lineReady pa

theorem State.Fetches.refl (s : State) (n : Nat) : s.Fetches s n := ⟨rfl, rfl, rfl, rfl, rfl, fun _ h => h⟩

theorem State.Fetches.trans (h : s.Fetches t n) (g : t.Fetches u n) : s.Fetches u n where
  cell := by
    have := g.cell
    rw [h.cell] at this
    exact this
  mem := g.mem.trans h.mem
  host := g.host.trans h.host
  focus := g.focus.trans h.focus
  pod := g.pod.trans h.pod
  ready pa hp := g.ready pa (h.ready pa hp)

theorem State.Fetches.sameMemory (h : s.Fetches u n) : SameMemory s u := ⟨fun _ => by rw [h.mem], fun _ => by rw [h.host]⟩

theorem State.Fetches.touch {cls : PageClass} (h : s.lineReady pa) (hm : paModule pa = s.pod.self) (w sp : Bool) :
    s.Fetches (s.touch n cls pa w sp) n := by
  obtain ⟨L, F, heq, hr⟩ := State.touch_keepsAll (n := n) (cls := cls) h hm w sp
  rw [heq]
  exact ⟨rfl, rfl, rfl, rfl, rfl, hr⟩

/-- A change of the cell's L1 and fills alone. -/
theorem State.Fetches.setCell {c : Cell} (hc : c = { s.cell n with
    l1 := c.l1, fabric := { (s.cell n).fabric with specFills := c.fabric.specFills } }) : s.Fetches (s.setCell n c) n where
  cell := by rw [State.cell_setCell_self]; exact hc
  mem := rfl
  host := rfl
  focus := rfl
  pod := rfl
  ready _ h := h

theorem State.Fetches.acquire (s : State) (n : Nat) (sc : Scope) : s.Fetches (s.acquire n sc) n := by
  have hset : s.Fetches (s.onCell n fun c => c.acquire sc) n := by
    refine .setCell ?_
    unfold Cell.acquire
    split <;> rfl
  cases sc with
  | cell => exact .refl s n
  | part => exact hset
  | dev => exact hset
  | pod => exact hset

theorem State.Fetches.l1Fill (s : State) (n line : Nat) : s.Fetches (s.l1Fill n line) n := by
  obtain ⟨L, -, heq⟩ := s.l1Fill_eq n line
  rw [heq]
  exact (State.Fetches.mk rfl rfl rfl rfl rfl (fun _ h => h) : s.Fetches { s with free := s.free + 1 } n).trans (.setCell rfl)

/-! ### Lines of the L1 that agree with memory -/

/-- Every line of the cell's L1 holds what memory holds. -/
def State.l1Agrees (s : State) (n : Nat) : Prop := ∀ e ∈ (s.cell n).l1, e.2 = s.lineBytes e.1

theorem State.l1Agrees_acquire {sc : Scope} (h : sc ≠ .cell) (s : State) (n : Nat) : (s.acquire n sc).l1Agrees n := by
  unfold State.l1Agrees
  rw [State.acquire_l1 h]
  exact nofun

theorem State.lineBytes_of_mem (h : u.mem = s.mem) (line : Nat) : u.lineBytes line = s.lineBytes line := by
  unfold State.lineBytes
  rw [h]

theorem State.l1Agrees_l1Fill (h : s.l1Agrees n) (line : Nat) : (s.l1Fill n line).l1Agrees n := by
  intro e he
  rw [State.lineBytes_of_mem (State.Fetches.l1Fill s n line).mem]
  unfold State.l1Fill State.takeFree at he
  dsimp only at he
  rw [State.onCell_eq, State.cell_setCell_self] at he
  obtain rfl | he := (Map.mem_insert _ _ _ _).1 he
  · rfl
  have he := List.mem_of_mem_filter he
  split at he
  · exact h e (List.mem_of_mem_eraseIdx he)
  · exact h e he

theorem readBytes_getElem? (m : List Host.Cell) (a n i : Nat) : (readBytes m a n)[i]? = if i < n then some (readMem m (a + i)) else none := by
  split
  next h =>
    have hlen : i < (readBytes m a n).length := by rwa [length_readBytes]
    rw [List.getElem?_eq_getElem hlen]
    exact congrArg some ((List.getElem_eq_getD 0).trans (Map.getD_getList 0 m a n i h))
  next h => exact List.getElem?_eq_none (by rw [length_readBytes]; omega)

/-- Some bytes within a range of memory. -/
theorem readBytes_drop_take (m : List Host.Cell) (a : Nat) {n o k : Nat} (h : o + k ≤ n) :
    ((readBytes m a n).drop o).take k = readBytes m (a + o) k := by
  apply List.ext_getElem?
  intro i
  rw [List.getElem?_take, List.getElem?_drop, readBytes_getElem?, readBytes_getElem?, Nat.add_assoc]
  split
  · rw [if_pos (by omega)]
  · rfl

/-- The bytes of a word within a line of memory. -/
theorem State.leAt_lineBytes {k : Nat} (s : State) (h : pa % 64 + k ≤ 64) :
    leAt (s.lineBytes (pa / 64)) (pa % 64) k = leNat (readBytes s.mem pa k) := by
  unfold leAt State.lineBytes
  rw [readBytes_drop_take _ _ h, Nat.div_add_mod]

/-! ### A thread's load -/

/-- A load of a ready word gives what memory holds, where the L1 agrees with memory or does not hold its line. -/
theorem State.threadLoad_near (thread : Nat) (hready : s.lineReady l.pa) (hm : paModule l.pa = s.pod.self)
    (hl : Map.get? (s.cell n).l1 (l.pa / 64) = none ∨ (s.l1Agrees n ∧ l.pa % 4 = 0)) :
    ∃ u, s.threadLoad n thread l = (u, BitVec.ofNat 32 (leNat (readBytes s.mem l.pa 4))) ∧ s.Fetches u n
      ∧ (s.l1Agrees n → u.l1Agrees n) := by
  cases hline : Map.get? (s.cell n).l1 (l.pa / 64) with
  | some line =>
    obtain ⟨hagrees, halign⟩ := hl.resolve_left (by simp [hline])
    refine ⟨s, ?_, .refl s n, id⟩
    unfold State.threadLoad
    rw [hline, ← s.leAt_lineBytes (pa := l.pa) (k := 4) (by omega), ← hagrees _ (Map.mem_of_get? hline)]
  | none =>
    have htouch := State.Fetches.touch (n := n) (cls := l.cls) hready hm false true
    obtain ⟨L, F, hu, -⟩ := State.touch_keepsAll (n := n) (cls := l.cls) hready hm false true
    rw [hu] at htouch
    let w := (s.touched L F s.mem).onCell n fun c => c.withFabric fun f => { f with specFills := f.specFills ++ s.fillsOf n thread l.pa }
    have hfills : s.Fetches w n := htouch.trans (.setCell rfl)
    have hw : s.l1Agrees n → w.l1Agrees n := fun h e he => by
      have hl1 : (w.cell n).l1 = (s.cell n).l1 := by
        show ((State.setCell _ n _).cell n).l1 = _
        rw [State.cell_setCell_self]
        rfl
      rw [hl1] at he
      exact h e he
    refine ⟨if l.cls = .norm then w.l1Fill n (l.pa / 64) else w, ?_, ?_, ?_⟩
    · unfold State.threadLoad
      rw [hline]
      dsimp only
      rw [if_pos hm, hu, State.load, htouch.mem]
    · split
      · exact hfills.trans (.l1Fill ..)
      · exact hfills
    · split
      · exact fun h => State.l1Agrees_l1Fill (hw h) _
      · exact hw

/-! ### Nodes without a check that fails or a place that is far -/

section
variable {a : At} {op : RemoteOp} {k : State → State} {x : Nat} {vas : List Word}

theorem State.nodeChk_ok {α : Type} {r : Chk α} {v : α} {f : α → State} (h : r = .ok v) :
    s.nodeChk a x vas r f = f v := by
  rw [h]
  rfl

/-- Loads on this module wait for no answer. -/
theorem State.nodeReply_near {ls : List (Loc × Nat)} (h : ∀ p ∈ ls, paModule p.1.pa = s.pod.self) :
    s.nodeReply a x ls op k = k s := by
  have hfar : (ls.map fun x => (x.1, x.2, op)).filter (fun x => paModule x.1.pa != s.pod.self) = [] := by
    rw [List.filter_eq_nil_iff]
    intro p hp
    obtain ⟨q, hq, rfl⟩ := List.mem_map.mp hp
    simp [h q hq]
  unfold State.nodeReply State.remoteTurn
  dsimp only
  rw [hfar]

/-- Checks that all pass give their places in order. -/
theorem Chk.foldl_ok {α β : Type} {chk : α → Chk β} {f : Nat → α} {g : Nat → β} (l : List Nat) (acc : List β)
    (h : ∀ k ∈ l, chk (f k) = .ok (g k)) :
    (l.map f).foldl (fun (r : Chk (List β)) v => r.andThen fun ls => (chk v).andThen fun x => .ok (ls ++ [x])) (.ok acc)
      = .ok (acc ++ l.map g) := by
  induction l generalizing acc with
  | nil => simp
  | cons k l ih =>
    rw [List.map_cons, List.foldl_cons, h k List.mem_cons_self]
    exact (ih (acc ++ [g k]) fun x hx => h x (List.mem_cons_of_mem _ hx)).trans (by simp)

/-- The places of a node with tangent planes: the primal, then a place for each plane (R411). -/
theorem State.nodeLocs_planes {ac : Access} {w : Bool} {va : Word} {sc : Option Scope} {l : Loc} {ls : Nat → Loc}
    (hpos : 0 < a.dualT (s.cell a.n)) (hl : s.access a.n (.dual w) 4 va sc = .ok l) (hs : (s.cell a.n).seq.ktstride ≠ 0)
    (hal : (s.cell a.n).seq.ktstride.toNat % 64 = 0)
    (hk : ∀ k, k < a.dualT (s.cell a.n) →
      s.access a.n (.tangent w) 4 (va + BitVec.ofNat 64 (k + 1) * (s.cell a.n).seq.ktstride) sc = .ok (ls k)) :
    s.nodeLocs a ac w va sc = .ok (l :: tabulate (a.dualT (s.cell a.n)) ls) := by
  unfold State.nodeLocs
  dsimp only
  rw [if_neg (by omega), hl]
  have hneed : Chk.need ((s.cell a.n).seq.ktstride != 0 && (s.cell a.n).seq.ktstride.toNat % 64 == 0) .combo 0 = .ok () :=
    if_pos (by rw [Bool.and_eq_true, bne_iff_ne, beq_iff_eq]; exact ⟨hs, hal⟩)
  rw [Chk.andThen, hneed]
  exact Chk.foldl_ok (List.range (a.dualT (s.cell a.n))) [l] fun k h => hk k (List.mem_range.mp h)

theorem State.nodeLocs_plain {ac : Access} {w : Bool} {va : Word} {sc : Option Scope} {l : Loc}
    (hzero : a.dualT (s.cell a.n) = 0) (hl : s.access a.n ac 4 va sc = .ok l) : s.nodeLocs a ac w va sc = .ok [l] := by
  unfold State.nodeLocs
  dsimp only
  rw [if_pos hzero, hl]
  rfl

/-- What a node loads from a list of places, one after another: the state and the words. -/
def State.loadAll (s : State) (n thread : Nat) (ls : List Loc) (acc : List W32) : State × List W32 :=
  ls.foldl (fun (y : State × List W32) l => ((y.1.threadLoad n thread l).1, y.2 ++ [(y.1.threadLoad n thread l).2])) (s, acc)

/-- Loads that hit the L1 change nothing. -/
theorem State.loadAll_hits {n thread : Nat} {ls : List Loc} {word : Loc → W32} (acc : List W32)
    (h : ∀ l ∈ ls, s.threadLoad n thread l = (s, word l)) : s.loadAll n thread ls acc = (s, acc ++ ls.map word) := by
  induction ls generalizing acc with
  | nil => simp [State.loadAll]
  | cons l ls ih =>
    unfold State.loadAll
    rw [List.foldl_cons, h l List.mem_cons_self]
    exact (ih (acc ++ [word l]) fun x hx => h x (List.mem_cons_of_mem _ hx)).trans (by simp)

/-- Loads of ready words past an L1 that agrees with memory give what memory holds. -/
theorem State.loadAll_near {n : Nat} (thread : Nat) {ls : List Loc} (acc : List W32) (hagrees : s.l1Agrees n)
    (h : ∀ l ∈ ls, s.lineReady l.pa ∧ paModule l.pa = s.pod.self ∧ l.pa % 4 = 0) :
    ∃ u, s.loadAll n thread ls acc = (u, acc ++ ls.map fun l => BitVec.ofNat 32 (leNat (readBytes s.mem l.pa 4)))
      ∧ s.Fetches u n := by
  induction ls generalizing s acc with
  | nil => exact ⟨s, by simp [State.loadAll], .refl s n⟩
  | cons l ls ih =>
    obtain ⟨hready, hm, halign⟩ := h l List.mem_cons_self
    obtain ⟨u, hu, hfetch, hagrees'⟩ := State.threadLoad_near (n := n) thread hready hm (.inr ⟨hagrees, halign⟩)
    obtain ⟨w, hw, hfetch'⟩ := ih (s := u) (acc ++ [BitVec.ofNat 32 (leNat (readBytes s.mem l.pa 4))]) (hagrees' hagrees) fun x hx => by
      obtain ⟨hr, hm', ha⟩ := h x (List.mem_cons_of_mem _ hx)
      exact ⟨hfetch.ready _ hr, by rw [hfetch.pod]; exact hm', ha⟩
    refine ⟨w, ?_, hfetch.trans hfetch'⟩
    unfold State.loadAll at hw ⊢
    rw [List.foldl_cons, hu, hw, hfetch.mem]
    simp

end

end

end Sys2Proof.Machine
end

