-- ==== Sys2Proof/Proofs/MemoryNodes.lean ====
section
/-! RULE. The memory nodes of the ring (R410 to R414). -/

namespace Sys2Proof.Machine

section
variable {s u : State} {op : BitVec 7} {r : ElemRec} {a : At} {ts : List (Nat × Tok)} {l : Loc} {sc : Option Scope} {ls : List Loc}

/-! ### Loads -/

/-- The acquire of a scoped node. -/
def State.acquireOpt (s : State) (n : Nat) : Option Scope → State
  | some c => s.acquire n c
  | none => s

theorem State.Fetches.acquireOpt (s : State) (n : Nat) (sc : Option Scope) : s.Fetches (s.acquireOpt n sc) n := by
  cases sc with
  | none => exact .refl s n
  | some c => exact .acquire s n c

theorem State.threadLoad_hit {n thread : Nat} {line : List Byte} (h : Map.get? (s.cell n).l1 (l.pa / 64) = some line) :
    s.threadLoad n thread l = (s, BitVec.ofNat 32 (leAt line (l.pa % 64) 4)) := by
  unfold State.threadLoad
  rw [h]

/-- A load node whose places pass and are near acquires, loads and gives its result. -/
theorem Fires.loadNode (h : Fires s op r a ts) (hlocs : s.nodeLocs a .load false (a.va (a.input ts)) sc = .ok ls)
    (hnear : ∀ l ∈ ls, paModule l.pa = s.pod.self) {ws : List W32}
    (hload : (s.acquireOpt a.n sc).loadAll a.n (a.input ts).thread ls [] = (u, ws)) :
    Machine.loadNode s op r sc
      = .next ((u.acquireOpt a.n sc).nodeResult a (a.input ts).thread (ws.headD 0) ws.tail) := by
  unfold Machine.loadNode
  rw [h.readNode]
  dsimp only
  rw [State.nodeChk_ok hlocs, State.nodeReply_near fun p hp => hnear _ (List.of_mem_zip hp).1]
  have hpair := congrArg (fun y : State × List W32 =>
    (y.1.acquireOpt a.n sc).nodeResult a (a.input ts).thread (y.2.headD 0) y.2.tail) hload
  refine congrArg _ (Eq.trans ?_ hpair)
  cases sc <;> rfl

/-- What a node that has loaded leaves: its result on the outputs, and memory and the sequencer as before. -/
theorem Fires.loaded (h : Fires s op r a ts) (hf : s.Fetches u a.n) (thread : Nat) (v : W32) (tans : List W32) :
    Emits (u.nodeResult a thread v tans) a thread v (if tans = [] then List.replicate s.cur.ident.tw 0 else tans)
      ∧ SameMemory s (u.nodeResult a thread v tans) ∧ (u.nodeResult a thread v tans).cur.seq = s.cur.seq
      ∧ (u.nodeResult a thread v tans).cur.l1 = u.cur.l1 := by
  have hfocus : a.n = u.focus.cell := by rw [hf.focus, h.site_focus]
  have hcell : u.cell a.n = u.cur := by rw [hfocus]; rfl
  have hframe := hf.cell
  rw [hcell, h.cell_eq] at hframe
  have hrun : u.cur.run = s.cur.run := by rw [hframe]
  have hident : u.cur.ident = s.cur.ident := by rw [hframe]
  have hseq : u.cur.seq = s.cur.seq := by rw [hframe]
  obtain ⟨hemits, hlinks, honly⟩ := State.nodeResult_effect hfocus (by rw [hrun]; exact State.atSite_runs h.site) thread v tans
  rw [hident] at hemits
  obtain ⟨hmem, hhost⟩ := hf.sameMemory
  refine ⟨hemits, ⟨fun b => (honly.memory.1 b).trans (hmem b), fun b => (honly.memory.2 b).trans (hhost b)⟩, ?_, ?_⟩
  · rw [← hseq, hlinks]
  · rw [hlinks]

theorem State.loadAll_one (s : State) (n thread : Nat) (l : Loc) :
    s.loadAll n thread [l] [] = ((s.threadLoad n thread l).1, [(s.threadLoad n thread l).2]) := rfl

theorem Fires.va_eq (h : Fires s op r a ts) : a.va (a.input ts)
    = (if r.srcB = .imm then r.imm8.zeroExtend 32 else (a.input ts).b.v) ++ (a.input ts).a.v := by
  unfold At.va
  rw [h.rec_eq]

/-- A load that hits the L1 gives its word. -/
theorem elemLd_hits {line : List Byte} (h : Fires s 0x58 r a ts) (hz : a.dualT s.cur = 0)
    (hl : s.access a.n .load 4 (a.va (a.input ts)) none = .ok l) (hline : Map.get? s.cur.l1 (l.pa / 64) = some line)
    (hm : paModule l.pa = s.pod.self) : Completes (.elemLd r) s fun t =>
      Yields s t a (a.input ts).thread (BitVec.ofNat 32 (leAt line (l.pa % 64) 4)) (List.replicate s.cur.ident.tw 0) := by
  rw [← h.cell_eq] at hz hline
  have hall : s.loadAll a.n (a.input ts).thread [l] [] = (s, [BitVec.ofNat 32 (leAt line (l.pa % 64) 4)]) := by
    rw [State.loadAll_one, State.threadLoad_hit hline]
  exact .of_exec ((exec_elemLd s r).trans (h.loadNode (State.nodeLocs_plain hz hl) (by simpa using hm) hall))
    ⟨_, rfl, h.nodeResult ..⟩

theorem map_tabulate {α β : Type} (n : Nat) (f : Nat → α) (g : α → β) : (tabulate n f).map g = tabulate n fun k => g (f k) := by
  simp [tabulate]

theorem tabulate_congr {α : Type} {n : Nat} {f g : Nat → α} (h : ∀ k, k < n → f k = g k) : tabulate n f = tabulate n g :=
  List.map_congr_left fun k hk => h k (List.mem_range.mp hk)

theorem mem_tabulate {α : Type} {n : Nat} {f : Nat → α} {x : α} (h : x ∈ tabulate n f) : ∃ k, k < n ∧ f k = x := by
  obtain ⟨k, hk, rfl⟩ := List.mem_map.mp h
  exact ⟨k, List.mem_range.mp hk, rfl⟩

theorem tabulate_ne_nil {α : Type} {n : Nat} (f : Nat → α) (h : 0 < n) : tabulate n f ≠ [] := by
  simp only [tabulate, ne_eq, List.map_eq_nil_iff, List.range_eq_nil]
  omega

/-- A load in the dual form whose places all hit the L1 gives its word and those of its planes. -/
theorem elemLd_dualHits {places : Nat → Loc} {line : List Byte} {lines : Nat → List Byte} (h : Fires s 0x58 r a ts)
    (hpos : 0 < a.dualT s.cur)
    (hlocs : s.nodeLocs a .load false (a.va (a.input ts)) none = .ok (l :: tabulate (a.dualT s.cur) places))
    (hnear : ∀ p ∈ l :: tabulate (a.dualT s.cur) places, paModule p.pa = s.pod.self)
    (hline : Map.get? s.cur.l1 (l.pa / 64) = some line)
    (hlines : ∀ k, k < a.dualT s.cur → Map.get? s.cur.l1 ((places k).pa / 64) = some (lines k)) :
    Completes (.elemLd r) s fun t => Yields s t a (a.input ts).thread (BitVec.ofNat 32 (leAt line (l.pa % 64) 4))
      (tabulate (a.dualT s.cur) fun k => BitVec.ofNat 32 (leAt (lines k) ((places k).pa % 64) 4)) := by
  have hfirst := State.threadLoad_hit (thread := (a.input ts).thread) (h.cell_eq ▸ hline)
  have hrest := fun k hk => State.threadLoad_hit (thread := (a.input ts).thread) (h.cell_eq ▸ hlines k hk)
  have hall : s.loadAll a.n (a.input ts).thread (l :: tabulate (a.dualT s.cur) places) []
      = (s, BitVec.ofNat 32 (leAt line (l.pa % 64) 4)
          :: tabulate (a.dualT s.cur) fun k => BitVec.ofNat 32 (leAt (lines k) ((places k).pa % 64) 4)) := by
    rw [State.loadAll_hits (word := fun p => (s.threadLoad a.n (a.input ts).thread p).2) [] fun p hp => ?_, List.nil_append,
      List.map_cons, map_tabulate, hfirst, tabulate_congr fun k hk => by rw [hrest k hk]]
    rcases List.mem_cons.mp hp with rfl | hp
    · rw [hfirst]
    · obtain ⟨k, hk, rfl⟩ := mem_tabulate hp
      rw [hrest k hk]
  refine .of_exec ((exec_elemLd s r).trans (h.loadNode hlocs hnear hall)) ⟨_, rfl, ?_⟩
  have hy := h.nodeResult (a.input ts).thread (BitVec.ofNat 32 (leAt line (l.pa % 64) 4))
    (tabulate (a.dualT s.cur) fun k => BitVec.ofNat 32 (leAt (lines k) ((places k).pa % 64) 4))
  rwa [if_neg (tabulate_ne_nil _ hpos)] at hy

/-- A load past the L1 gives what memory holds. -/
theorem elemLd_misses (h : Fires s 0x58 r a ts) (hz : a.dualT s.cur = 0)
    (hl : s.access a.n .load 4 (a.va (a.input ts)) none = .ok l) (hready : s.lineReady l.pa) (hm : paModule l.pa = s.pod.self)
    (hmiss : Map.get? s.cur.l1 (l.pa / 64) = none) : Completes (.elemLd r) s fun t =>
      Emits t a (a.input ts).thread (BitVec.ofNat 32 (leNat (readBytes s.mem l.pa 4))) (List.replicate s.cur.ident.tw 0)
      ∧ SameMemory s t ∧ t.cur.seq = s.cur.seq := by
  rw [← h.cell_eq] at hz hmiss
  obtain ⟨u, hu, hfetch, -⟩ := State.threadLoad_near (n := a.n) (a.input ts).thread hready hm (.inl hmiss)
  have hall : (s.acquireOpt a.n none).loadAll a.n (a.input ts).thread [l] []
      = (u, [BitVec.ofNat 32 (leNat (readBytes s.mem l.pa 4))]) := by
    rw [State.acquireOpt, State.loadAll_one, hu]
  obtain ⟨hemits, hmem, hseq, -⟩ := h.loaded hfetch (a.input ts).thread (BitVec.ofNat 32 (leNat (readBytes s.mem l.pa 4))) []
  exact .of_exec ((exec_elemLd s r).trans (h.loadNode (State.nodeLocs_plain hz hl) (by simpa using hm) hall))
    ⟨_, rfl, hemits, hmem, hseq⟩

/-- An acquire load leaves the L1 empty behind what it gives. -/
theorem elemLdaq_gives {w : W32} {ws : List W32} (h : Fires s 0x5A r a ts) (hsc : Scope.ofBits r.var ≠ .cell)
    (hlocs : s.nodeLocs a .load false (a.va (a.input ts)) (some (Scope.ofBits r.var)) = .ok ls)
    (hnear : ∀ p ∈ ls, paModule p.pa = s.pod.self)
    (hload : (s.acquire a.n (Scope.ofBits r.var)).loadAll a.n (a.input ts).thread ls [] = (u, w :: ws))
    (hfetch : (s.acquire a.n (Scope.ofBits r.var)).Fetches u a.n) : Completes (.elemLdaq r) s fun t =>
      Emits t a (a.input ts).thread w (if ws = [] then List.replicate s.cur.ident.tw 0 else ws)
      ∧ SameMemory s t ∧ t.cur.l1 = [] ∧ t.cur.seq = s.cur.seq := by
  have hend := State.Fetches.acquire u a.n (Scope.ofBits r.var)
  have hall := ((State.Fetches.acquire s a.n (Scope.ofBits r.var)).trans hfetch).trans hend
  obtain ⟨hemits, hmem, hseq, hl1⟩ := h.loaded hall (a.input ts).thread w ws
  refine .of_exec ((exec_elemLdaq s r).trans (h.loadNode hlocs hnear hload)) ⟨_, rfl, hemits, hmem, hl1.trans ?_, hseq⟩
  rw [State.cur, hall.focus, ← h.site_focus]
  exact State.acquire_l1 hsc

/-- An acquire load gives what memory holds. -/
theorem elemLdaq_reads (h : Fires s 0x5A r a ts) (hsc : Scope.ofBits r.var ≠ .cell) (hz : a.dualT s.cur = 0)
    (hl : s.access a.n .load 4 (a.va (a.input ts)) (some (Scope.ofBits r.var)) = .ok l) (hready : s.lineReady l.pa)
    (hm : paModule l.pa = s.pod.self) : Completes (.elemLdaq r) s fun t =>
      Emits t a (a.input ts).thread (BitVec.ofNat 32 (leNat (readBytes s.mem l.pa 4))) (List.replicate s.cur.ident.tw 0)
      ∧ SameMemory s t ∧ t.cur.l1 = [] ∧ t.cur.seq = s.cur.seq := by
  rw [← h.cell_eq] at hz
  have hacq := State.Fetches.acquire s a.n (Scope.ofBits r.var)
  obtain ⟨u, hu, hfetch, -⟩ := State.threadLoad_near (s := s.acquire a.n (Scope.ofBits r.var)) (n := a.n) (a.input ts).thread
    (hacq.ready _ hready) (by rw [hacq.pod]; exact hm) (.inl (by rw [State.acquire_l1 hsc]; rfl))
  rw [hacq.mem] at hu
  exact elemLdaq_gives h hsc (State.nodeLocs_plain hz hl) (by simpa using hm) (by rw [State.loadAll_one, hu]) hfetch

/-- An acquire load in the dual form gives what memory holds at its places. -/
theorem elemLdaq_dualReads {places : Nat → Loc} (h : Fires s 0x5A r a ts) (hsc : Scope.ofBits r.var ≠ .cell)
    (hpos : 0 < a.dualT s.cur)
    (hlocs : s.nodeLocs a .load false (a.va (a.input ts)) (some (Scope.ofBits r.var)) = .ok (l :: tabulate (a.dualT s.cur) places))
    (hall : ∀ p ∈ l :: tabulate (a.dualT s.cur) places, paModule p.pa = s.pod.self ∧ s.lineReady p.pa ∧ p.pa % 4 = 0) :
    Completes (.elemLdaq r) s fun t => Emits t a (a.input ts).thread (BitVec.ofNat 32 (leNat (readBytes s.mem l.pa 4)))
        (tabulate (a.dualT s.cur) fun k => BitVec.ofNat 32 (leNat (readBytes s.mem (places k).pa 4)))
      ∧ SameMemory s t ∧ t.cur.l1 = [] ∧ t.cur.seq = s.cur.seq := by
  have hacq := State.Fetches.acquire s a.n (Scope.ofBits r.var)
  obtain ⟨u, hu, hfetch⟩ := State.loadAll_near (a.input ts).thread [] (State.l1Agrees_acquire hsc s a.n)
    fun p hp => ⟨hacq.ready _ (hall p hp).2.1, by rw [hacq.pod]; exact (hall p hp).1, (hall p hp).2.2⟩
  rw [List.nil_append, hacq.mem, List.map_cons, map_tabulate] at hu
  have hgives := elemLdaq_gives h hsc hlocs (fun p hp => (hall p hp).1) hu hfetch
  rwa [if_neg (tabulate_ne_nil _ hpos)] at hgives

/-- `LDFE` gives a full word past the L1. -/
theorem elemLdfe_reads (h : Fires s 0x5D r a ts)
    (hl : s.access a.n .feRead 4 (a.va (a.input ts)) (some (Scope.ofBits r.var)) = .ok l)
    (hfull : Map.get false s.full l.pa = true) (hready : s.lineReady l.pa) (hm : paModule l.pa = s.pod.self)
    (hmiss : Map.get? s.cur.l1 (l.pa / 64) = none) : Completes (.elemLdfe r) s fun t =>
      Emits t a (a.input ts).thread (BitVec.ofNat 32 (leNat (readBytes s.mem l.pa 4))) (List.replicate s.cur.ident.tw 0)
      ∧ SameMemory s t ∧ t.cur.seq = s.cur.seq := by
  rw [← h.cell_eq] at hmiss
  have hscope : a.scope = Scope.ofBits r.var := by rw [At.scope, h.rec_eq]
  obtain ⟨u, hu, hfetch, -⟩ := State.threadLoad_near (n := a.n) (a.input ts).thread hready hm (.inl hmiss)
  obtain ⟨hemits, hmem, hseq, -⟩ := h.loaded (hfetch.trans (.acquire u a.n a.scope)) (a.input ts).thread
    (BitVec.ofNat 32 (leNat (readBytes s.mem l.pa 4))) []
  refine h.reads (exec_elemLdfe s r) ?_ ⟨hemits, hmem, hseq⟩
  dsimp only
  rw [State.nodeChk_ok (hscope ▸ hl), State.nodeReply_near (by simpa using hm)]
  rw [State.isFull, hfull, if_pos rfl, hu]

end

end Sys2Proof.Machine
end

