-- ==== Sys2Proof/Proofs/EdgeStores.lean ====
section
/-! RULE. The memory nodes that store, the live-out, and the prefetch (R409, R412 to R414); with them the edge nodes of the ring. -/

namespace Sys2Proof.Machine

section
variable {s : State} {op : BitVec 7} {r : ElemRec} {a : At} {ts : List (Nat × Tok)} {l : Loc} {sc : Option Scope}

theorem Cell.OnlyFabric.seq {c d : Cell} (h : c.OnlyFabric d) : d.seq = c.seq := by
  unfold Cell.OnlyFabric at h
  rw [h]

theorem Fires.scope_eq (h : Fires s op r a ts) : a.scope = Scope.ofBits r.var := by rw [At.scope, h.rec_eq]

theorem elemLout_queues (h : Fires s 0x51 r a ts) (hatm : ts.head?.bind (fun t => t.2.atm) = none)
    (hfits : s.cur.fabric.sqUsed < 2048) : Completes (.elemLout r) s fun t =>
      Queues s t a (a.input ts).thread (.lout (r.imm8.toNat % 64) (a.input ts).a.v (a.tans s.cur.ident.tw (a.input ts).a.tan) none) 0
        (List.replicate s.cur.ident.tw 0) := by
  refine .of_exec (exec_elemLout s r) ⟨_, h.fireSite, ?_⟩
  simp only [h.room, h.clean, hatm, Fabric.sqFits_one (k := .lout ..) rfl hfits, Bool.not_true, Bool.false_eq_true, if_false]
  exact h.enqueue ..

/-- A store node whose places pass queues its words for them. -/
theorem Fires.wordStore {i : Instr} {ls : List Loc} (h : Fires s op r a ts) (hi : exec i s = Machine.wordStore s op r sc)
    (hlocs : s.nodeLocs a .store true (a.va (a.input ts)) sc = .ok ls)
    (hfits : s.cur.fabric.sqUsed + (1 + a.dualT s.cur) ≤ 2048) : Completes i s fun t =>
      Queues s t a (a.input ts).thread (.store (ls.map (·.pa)) ((a.input ts).c.v :: tabulate (a.dualT s.cur) (a.input ts).c.tan) sc) 0
        (List.replicate s.cur.ident.tw 0) :=
  h.stores hi hfits (State.nodeChk_ok hlocs) (h.enqueue ..)

theorem elemStfe_queues (h : Fires s 0x5E r a ts) (hfits : s.cur.fabric.sqUsed < 2048)
    (hl : s.access a.n .feWrite 4 (a.va (a.input ts)) (some (Scope.ofBits r.var)) = .ok l) : Completes (.elemStfe r) s fun t =>
      Queues s t a (a.input ts).thread (.stfe l.pa (a.va (a.input ts)).toNat (a.input ts).c.v (Scope.ofBits r.var)) 0
        (List.replicate s.cur.ident.tw 0) := by
  rw [← h.scope_eq] at hl ⊢
  exact h.stores (exec_elemStfe s r) hfits (State.nodeChk_ok hl) (h.enqueue ..)

theorem elemBkadd_queues (h : Fires s 0x6D r a ts) (hfits : s.cur.fabric.sqUsed < 2048)
    (hl : s.access a.n .atomic 4 (a.va (a.input ts)) (some (Scope.ofBits r.var)) = .ok l) : Completes (.elemBkadd r) s fun t =>
      Queues s t a (a.input ts).thread (.bkadd l.pa (r.ty == .f32) (a.input ts).c.v) 0 (List.replicate s.cur.ident.tw 0) := by
  rw [← h.scope_eq] at hl
  exact h.stores (exec_elemBkadd s r) hfits (State.nodeChk_ok hl) (h.enqueue ..)

/-- `ATM` queues its operation and gives a token that stands for the old value (R413). -/
theorem elemAtm_queues (h : Fires s 0x5C r a ts) (hfits : s.cur.fabric.sqUsed < 2048)
    (hl : s.access a.n .atomic 4 (a.va (a.input ts)) (some (Scope.ofBits r.var)) = .ok l) : Completes (.elemAtm r) s fun t =>
      t.cur.fabric.sq = s.cur.fabric.sq ++ [{ pass := a.p.id, thread := (a.input ts).thread, ring := a.ring
                                              kind := .atm l.pa (r.imm8.setWidth 4) (a.input ts).c.v (Order.ofBits r.lvl)
                                                (Scope.ofBits r.var)
                                              cone := a.inCone }]
      ∧ (∀ d ∈ a.outs, a.p.image.users (linkOf a.site d) ≠ [] → ∃ k, (t.cur.link (linkOf a.site d)).q.getLast? = some k
          ∧ k.kind = .data ∧ k.thread = (a.input ts).thread ∧ k.atm = some a.ring)
      ∧ SameMemory s t ∧ t.cur.seq = s.cur.seq := by
  rw [← h.scope_eq] at hl ⊢
  have heffect := State.enqueue_effect (s := { s with free := s.free + 1 }) (a := a) h.site_focus (a.input ts).thread
    (.atm l.pa (r.imm8.setWidth 4) (a.input ts).c.v (Order.ofBits r.lvl) a.scope)
    { a.zeroTok s.cur (a.input ts).thread with value := BitVec.ofNat 32 (Config.freeNat s.free), atm := some a.ring }
  obtain ⟨hsq, hlast, hframe, honly⟩ := heffect
  refine h.stores (exec_elemAtm s r) hfits (State.nodeChk_ok hl) ⟨hsq, fun d hd hu => ⟨_, hlast d hd hu, rfl, rfl, rfl⟩, honly.memory, ?_⟩
  exact hframe.seq

/-- A scratch address of a node below 0x10_0000 that is a multiple of 4 passes (R414). -/
theorem nodeScratch_ok {v : W32} (hlt : v.toNat < 0x100000) (hal : v.toNat % 4 = 0) : nodeScratch v = .ok v.toNat := by
  unfold nodeScratch
  rw [if_neg (by omega), if_neg (by omega)]

theorem elemLds_yields (h : Fires s 0x5F r a ts) (hlt : (a.input ts).a.v.toNat < 0x100000) (hal : (a.input ts).a.v.toNat % 4 = 0) :
    Completes (.elemLds r) s fun t => Yields s t a (a.input ts).thread
      (BitVec.ofNat 32 (leNat (s.cur.scratchRead (a.input ts).a.v.toNat 4))) (List.replicate s.cur.ident.tw 0) :=
  h.reads (exec_elemLds s r) (State.nodeChk_ok (nodeScratch_ok hlt hal)) (h.nodeResult ..)

theorem elemSts_queues (h : Fires s 0x60 r a ts) (hfits : s.cur.fabric.sqUsed < 2048)
    (hlt : (a.input ts).a.v.toNat < 0x100000) (hal : (a.input ts).a.v.toNat % 4 = 0) :
    Completes (.elemSts r) s fun t => Queues s t a (a.input ts).thread (.sts (a.input ts).a.v.toNat (a.input ts).b.v) 0
      (List.replicate s.cur.ident.tw 0) :=
  h.stores (exec_elemSts s r) hfits (State.nodeChk_ok (nodeScratch_ok hlt hal)) (h.enqueue ..)

/-- `PFT` of a page that is not there takes its input alone. -/
theorem elemPft_takes (h : Fires s 0x61 r a ts) (hl : ∃ p, s.access a.n .load 4 (a.va (a.input ts)) none = .hold p) :
    Completes (.elemPft r) s fun t => t = s.setCur (a.take s.cur) ∧ SameMemory s t := by
  obtain ⟨p, hl⟩ := hl
  refine .of_exec (exec_elemPft s r) ⟨_, h.fireSite, ?_⟩
  have htake : s.onCell a.n a.take = s.setCur (a.take s.cur) := by
    rw [State.onCell_eq, h.cell_eq, h.site_focus]
    rfl
  dsimp only
  rw [h.clean, hl, htake]
  exact ⟨rfl, fun _ => rfl, fun _ => rfl⟩

/-- `PFT` fills the L1 with a NORM line that is ready. -/
theorem elemPft_fills (h : Fires s 0x61 r a ts) (hl : s.access a.n .load 4 (a.va (a.input ts)) none = .ok l) (hc : l.cls = .norm)
    (hready : s.lineReady l.pa) (hm : paModule l.pa = s.pod.self) : Completes (.elemPft r) s fun t =>
      Map.get? t.cur.l1 (l.pa / 64) = some (readBytes s.mem (64 * (l.pa / 64)) 64)
      ∧ SameMemory s t ∧ t.cur.fabric = (a.take s.cur).fabric := by
  refine .of_exec (exec_elemPft s r) ⟨_, h.fireSite, ?_⟩
  dsimp only
  rw [h.clean, hl, if_neg Bool.false_ne_true]
  dsimp only
  rw [if_pos ⟨hc, hm⟩]
  have hcell : (s.onCell a.n a.take).cell a.n = a.take s.cur := by
    rw [State.onCell_eq, State.cell_setCell_self, h.cell_eq]
  have hfocus : (s.onCell a.n a.take).focus = s.focus := rfl
  have hmem : (s.onCell a.n a.take).mem = s.mem := rfl
  have hhost : (s.onCell a.n a.take).hostMem = s.hostMem := rfl
  obtain ⟨L, F, htouch, -⟩ := State.touch_keepsAll (s := s.onCell a.n a.take) (n := a.n) (cls := .norm) hready hm false true
  rw [htouch]
  generalize s.onCell a.n a.take = u at hcell hfocus hmem hhost
  have hrun : ((u.touched L F u.mem).cell a.n).run ≠ .idle := by
    show (u.cell a.n).run ≠ .idle
    rw [hcell, a.take_onlyLinks s.cur]
    exact State.atSite_runs h.site
  rw [if_neg hrun]
  obtain ⟨K, hline, heq⟩ := (u.touched L F u.mem).l1Fill_eq a.n (l.pa / 64)
  have hcur : ((u.touched L F u.mem).l1Fill a.n (l.pa / 64)).cur = { a.take s.cur with l1 := K } := by
    rw [heq, ← hcell, h.site_focus, ← hfocus]
    exact State.cell_setCell_self ..
  rw [hcur]
  refine ⟨?_, ?_, rfl⟩
  · rw [← hmem]
    exact hline
  · rw [heq]
    exact ⟨fun b => congrArg (readMem · b) hmem, fun b => congrArg (readMem · b) hhost⟩

end

/-- Settles O38: each node does what its step does where it fires and its checks pass. -/
theorem liveSlotAndMemoryNodes : Obligations.LiveSlotAndMemoryNodes := by
  intro s r a ts l line ls lines n c x zeros hi va fires fits scopeArg sa word hit near stored queues dual planes places every both
  have hn (op : BitVec 7) (h : fires op) : a.n = n := h.site_focus
  have hva (op : BitVec 7) (h : fires op) : a.va (a.input ts) = va := h.va_eq
  have hplanes (op : BitVec 7) (h : fires op) : a.dualT s.cur = planes := h.dualT_eq _
  have hlocs (op : BitVec 7) (h : fires op) (ac : Access) (w : Bool) (sc : Option Scope) (hp : places w sc) :
      s.nodeLocs a ac w (a.va (a.input ts)) sc = .ok (l :: tabulate (a.dualT s.cur) ls) := by
    obtain ⟨hpos, hl, hs, hal, hk⟩ := hp
    rw [← hplanes op h] at hpos hk
    rw [← hva op h, ← hn op h] at hl hk
    rw [← h.cell_eq] at hpos hk ⊢
    exact State.nodeLocs_planes hpos hl (h.cell_eq ▸ hs) (h.cell_eq ▸ hal) (h.cell_eq ▸ hk)
  have hevery (op : BitVec 7) (h : fires op) {P : Loc → Prop} (he : every P) : ∀ p ∈ l :: tabulate (a.dualT s.cur) ls, P p := by
    intro p hp
    rcases List.mem_cons.mp hp with rfl | hp
    · exact he.1
    · obtain ⟨k, hk, rfl⟩ := mem_tabulate hp
      exact he.2 k (hplanes op h ▸ hk)
  have single (op : BitVec 7) (h : fires op) (hz : planes = 0) (ac : Access) (w : Bool) (sc : Option Scope)
      (hl : s.access n ac 4 va sc = .ok l) : s.nodeLocs a ac w (a.va (a.input ts)) sc = .ok [l] := by
    rw [← hplanes op h, ← h.cell_eq] at hz
    rw [← hva op h, ← hn op h] at hl
    exact State.nodeLocs_plain hz hl
  have store {op : BitVec 7} {i : ElemRec → Instr} {sc : Option Scope} (hi : exec (i r) s = wordStore s op r sc) (h : fires op)
      (hz : planes = 0) (hl : s.access n .store 4 va sc = .ok l) : queues i (.store [l.pa] [x.c.v] sc) := fun hfits => by
    have hq := h.wordStore hi (single op h hz .store true sc hl) (by rw [hplanes op h, hz]; exact hfits)
    rwa [hplanes op h, hz] at hq
  have storeDual {op : BitVec 7} {i : ElemRec → Instr} {sc : Option Scope} (hi : exec (i r) s = wordStore s op r sc) (h : fires op) :
      both i sc := fun hp hfits => by
    have hq := h.wordStore hi (hlocs op h .store true sc hp) (by
      rw [hplanes op h, ← Nat.add_assoc, Nat.add_right_comm]
      exact hfits)
    rwa [List.map_cons, map_tabulate, hplanes op h] at hq
  have hat {op : BitVec 7} (h : fires op) {ac : Access} {sc : Option Scope} (hl : s.access n ac 4 va sc = .ok l) :
      s.access a.n ac 4 (a.va (a.input ts)) sc = .ok l := by rw [hva op h, hn op h]; exact hl
  refine ⟨fun i h hports hi => elemLin_issues h hports hi, fun h hports hi => ⟨fun hc => elemLin_ends h hports hi hc,
      fun k m hc hm hcache => elemLin_starts h hports hi hc hm hcache⟩, fun h hatm hfits => ?lout, fun h hz hl => ⟨?hit, ?miss⟩,
    fun h hp hnear hhit hlines => ?dualLd, fun h hp hsc hall => ?dualLdaq, fun h hz hl hsc hready hm => ?ldaq,
    fun h hl hfull _ hnear => elemLdfe_reads h (hat h hl) hfull hnear.1 hnear.2.1 hnear.2.2,
    fun h hz hl => store (exec_elemSt s r) h hz hl, fun h hz hl => store (exec_elemStrl s r) h hz hl,
    fun h => storeDual (exec_elemSt s r) h, fun h => storeDual (exec_elemStrl s r) h, fun h hl hfits => ?stfe,
    fun h hl hfits => ?bkadd, fun h hl hfits => elemAtm_queues h hfits (hat h hl),
    fun h hlt hal => elemLds_yields h hlt hal, fun h hlt hal hfits => elemSts_queues h hfits hlt hal,
    fun h hhold => elemPft_takes h (by rwa [hva _ h, hn _ h]), fun h hl hc hready hm => elemPft_fills h (hat h hl) hc hready hm⟩
  case lout =>
    have hq := elemLout_queues h hatm hfits
    rwa [a.tans_eq h.rec_eq] at hq
  case hit => exact fun hhit hm => elemLd_hits h ((hplanes _ h).trans hz) (hat h hl) hhit hm
  case miss =>
    exact fun hnear => elemLd_misses h ((hplanes _ h).trans hz) (hat h hl) hnear.1 hnear.2.1 hnear.2.2
  case dualLd =>
    have hpos : 0 < a.dualT s.cur := by
      rw [hplanes _ h]
      exact hp.1
    have hy := elemLd_dualHits h hpos (hlocs _ h .load false none hp) (hevery _ h hnear) hhit
      fun k hk => hlines k (hplanes _ h ▸ hk)
    rwa [hplanes _ h] at hy
  case dualLdaq =>
    have hpos : 0 < a.dualT s.cur := by
      rw [hplanes _ h]
      exact hp.1
    have hy := elemLdaq_dualReads h hsc hpos (hlocs _ h .load false scopeArg hp) (hevery _ h hall)
    rwa [hplanes _ h] at hy
  case ldaq => exact elemLdaq_reads h hsc ((hplanes _ h).trans hz) (hat h hl) hready hm
  case stfe =>
    have hq := elemStfe_queues h hfits (hat h hl)
    rwa [hva _ h] at hq
  case bkadd =>
    have hq := elemBkadd_queues h hfits (hat h hl)
    rwa [beq_eq_decide] at hq

end Sys2Proof.Machine
end

