-- ==== Sys2Proof/Proofs/Collectives.lean ====
section
/-! RULE. The issue and the completion of collectives, `CWAIT`, and bank commands (R387 to R391). -/

namespace Sys2Proof.Machine

section
variable {s : State} {n op : Nat} {x y z : Reg} {k : CollCmd} {i : Instr}

/-! ### Checks in sequence -/

theorem Chk.andThen_eq_ok {α β : Type} {r : Chk α} {f : α → Chk β} {b : β} (h : r.andThen f = .ok b) :
    ∃ a, r = .ok a ∧ f a = .ok b := by
  cases r with
  | ok a => exact ⟨a, rfl, h⟩
  | trap c a => cases h
  | hold va => cases h
  | endWorld c => cases h

/-! ### The issue of a collective (R387, R388) -/

/-- What the checks of a collective hand to the relay: the operation, and the contribution that scratch holds now. -/
theorem State.collCheckRec_ok {l : List Byte} (h : s.collCheckRec n op l = .ok k) :
    k.op = op ∧ k.record = l
      ∧ (collFlags l % 2 = 1 → k.src = (s.cell n).scratchRead (collSrc l).toNat (collBytes l)) := by
  unfold State.collCheckRec at h
  obtain ⟨-, -, h⟩ := Chk.andThen_eq_ok h
  obtain ⟨-, -, h⟩ := Chk.andThen_eq_ok h
  obtain ⟨src, -, h⟩ := Chk.andThen_eq_ok h
  obtain ⟨dst, -, h⟩ := Chk.andThen_eq_ok h
  obtain rfl := Chk.ok.inj h
  exact ⟨rfl, rfl, fun hscr => if_pos (beq_iff_eq.2 hscr)⟩

theorem State.collCheck_ok {a : Word} (h : s.collCheck n op a = .ok k) : k.op = op
    ∧ (collFlags k.record % 2 = 1 → k.src = (s.cell n).scratchRead (collSrc k.record).toNat (collBytes k.record)) := by
  unfold State.collCheck at h
  obtain ⟨-, -, h⟩ := Chk.andThen_eq_ok h
  obtain ⟨-, -, h⟩ := Chk.andThen_eq_ok h
  obtain ⟨-, -, h⟩ := Chk.andThen_eq_ok h
  obtain ⟨hop, hrec, hsrc⟩ := State.collCheckRec_ok h
  rw [hrec]
  exact ⟨hop, hsrc⟩

/-- A collective whose contribution lies in scratch becomes the cell's, and the instruction retires. -/
theorem collOp_issues (hq : s.quiet) (hfree : s.cur.coll = none) (hk : s.collCheck s.focus.cell op (s.cur.reg x) = .ok k)
    (hscr : collFlags k.record % 2 = 1) : collOp s op x none = .next (s.cellStep fun c =>
      { c with coll := some { k with refused := s.tagHeld s.focus.cell c.ident (collTag k.record) } }) := by
  have hissue : s.issueColl s.focus.cell k = s.setCur { s.cur with
      coll := some { k with refused := s.tagHeld s.focus.cell s.cur.ident (collTag k.record) } } := by
    unfold State.issueColl
    dsimp only
    rw [if_pos hscr]
    exact if_neg hq.runs
  unfold collOp
  dsimp only
  rw [if_neg (c := (!s.cur.mayArm none) = true) nofun, State.release_of_quiet hq, if_neg hq.runs, State.withChk_ok hk, hfree]
  refine (if_neg (by simp)).trans (congrArg _ ?_)
  rw [hissue, State.settle_running (by rw [State.setCur_eq, State.cur_setCell_focus]; exact hq.runs)]
  rw [State.onCur_eq, State.setCur_eq, State.setCell_focus, State.cur_setCell_focus, State.setCell_setCell]
  rfl

theorem coll_completes (hi : exec i s = collOp s op x none) (hq : s.quiet) (hfree : s.cur.coll = none)
    (hk : s.collCheck s.focus.cell op (s.cur.reg x) = .ok k) (hscr : collFlags k.record % 2 = 1) : Completes i s fun t =>
      t.cur = { s.cur with
        seq := { s.cur.seq with pc := s.nextPc }
        coll := some { k with refused := s.tagHeld s.focus.cell s.cur.ident (collTag k.record) } }
      ∧ OnlyCur s t ∧ k.op = op ∧ k.src = s.cur.scratchRead (collSrc k.record).toNat (collBytes k.record) := by
  obtain ⟨hop, hsrc⟩ := State.collCheck_ok hk
  refine Completes.of_exec hi ⟨_, collOp_issues hq hfree hk hscr, ?_, OnlyCur.setCur _ _, hop, hsrc hscr⟩
  unfold State.cellStep
  rw [State.onCur_eq, State.cur_setCell_focus]
  rfl

/-! ### `CWAIT` (R388, R389) -/

theorem cwait_waits (h : s.cur.coll.isSome = true) : exec (.cwait x) s = .next s := by
  rw [exec_cwait]
  exact if_pos h

theorem cwait_reads (h : s.cur.coll = none) : Completes (.cwait x) s fun t =>
    RegWrite s.cur t.cur x (match s.cur.collStatus with | some st => BitVec.ofNat 64 st.code | none => 0)
    ∧ t.cur.seq.pc = s.nextPc ∧ t.cur.l1 = [] ∧ SameMemory s t := by
  refine Completes.of_exec (exec_cwait s x) ?_
  unfold execCwait
  dsimp only
  rw [h]
  refine ⟨_, if_neg Bool.false_ne_true, ?_⟩
  rw [State.acquire_focus, if_neg (by decide)]
  rw [State.onCur_eq, State.setCell_focus, State.cur_setCell_focus, State.setCell_setCell]
  have hval : BitVec.ofNat 64 ((s.cur.collStatus.map Status.code).getD 0)
      = (match s.cur.collStatus with | some st => BitVec.ofNat 64 st.code | none => 0) := by
    cases s.cur.collStatus <;> rfl
  rw [hval]
  obtain ⟨hreg, hpc, -, haccess, hl1⟩ := (OnlyAccess.touched s s.lines s.flows s.mem).retires (x := s.cur.withL1 []) rfl
    (d := x) (match s.cur.collStatus with | some st => BitVec.ofNat 64 st.code | none => 0)
  exact ⟨hreg, hpc, hl1, .refl s⟩

/-! ### The issue of a bank command (R390, R391) -/

theorem bankOp_queues {red : Bool} {b : BankCmd} (hq : s.quiet) (hroom : s.cur.bank.length < 16)
    (hb : (if red then s.bkredCheck s.focus.cell (s.cur.reg x) (s.cur.reg y) (s.cur.reg z)
      else s.bkopCheck s.focus.cell (s.cur.reg x) (s.cur.reg y) (s.cur.reg z)) = .ok b) :
    bankOp s red x y z none = .next (s.cellStep fun c => { c with bank := c.bank ++ [b] }) := by
  unfold bankOp
  dsimp only
  rw [if_neg (c := (!s.cur.mayArm none) = true) nofun, State.release_of_quiet hq, if_neg hq.runs, State.withChk_ok hb]
  exact if_neg (by omega)

/-! ### The completion of a collective (R388, R389) -/

/-- What is done to the cell that runs a launch, is done to the cell of that launch. -/
theorem State.onOwner_running (h : (s.cell n).run ≠ .idle) (f : Cell → Cell) :
    s.onOwner n (s.cell n).ident.launch f = s.onCell n f := if_pos ⟨h, rfl⟩

/-- The collective that a cell runs is the first that can complete. -/
theorem State.collLaunch_running {parts : List RelayPart} (hk : (s.cell n).coll = some k)
    (hdone : (k.refused || (s.collReady k parts && (!k.destScr || ((s.cell n).run != .idle
      && (s.cell n).ident.launch == (s.cell n).ident.launch)))) = true) :
    s.collLaunch n parts = some ((s.cell n).ident.launch, k) := by
  unfold State.collLaunch State.collPending
  rw [hk]
  exact List.find?_cons_of_pos hdone

/-- The cell n after a collective that ends with a status. -/
def Cell.collDone (c : Cell) (st : Status) : Cell := ({ c with coll := none, collStatus := some st } : Cell).pulseDone 21

theorem Cell.collDone_effect (c : Cell) (st : Status) : (c.collDone st).coll = none ∧ (c.collDone st).collStatus = some st
    ∧ (c.collDone st).lineSet 21 = true ∧ (c.collDone st).seq = c.seq ∧ (c.collDone st).scratch = c.scratch := by
  have hframe := Cell.OnlyBarriers.pulseDone { c with coll := none, collStatus := some st } 21 .part
  refine ⟨?_, ?_, Cell.lineSet_pulseDone _ _ (by decide), hframe.kept.1, hframe.kept.2.2.1⟩ <;>
  · unfold Cell.collDone
    unfold Cell.OnlyBarriers at hframe
    rw [hframe]

theorem collectiveComplete_refused {parts : List RelayPart} (hk : (s.cell n).coll = some k) (hrun : (s.cell n).run ≠ .idle)
    (href : k.refused = true) : exec (.collectiveComplete n parts) s = .next (s.onCell n fun c => c.collDone .busy) := by
  rw [exec_collectiveComplete]
  unfold execCollectiveComplete
  rw [State.collLaunch_running hk (by rw [href]; rfl)]
  dsimp only
  rw [if_pos href, State.onOwner_running hrun]
  rfl

/-- The reduction of the contributions to a collective. -/
def State.collReduced (s : State) (k : CollCmd) (parts : List RelayPart) : List Byte :=
  collResult k.op (collRoot k.record) (collOpByte k.record / 16) (collOpByte k.record % 16) (s.collInputs k parts)

theorem collectiveComplete_alone {parts : List RelayPart} (hk : (s.cell n).coll = some k) (hrun : (s.cell n).run ≠ .idle)
    (href : k.refused = false) (hothers : s.collOthers k = []) (hscr : k.destScr = true) :
    exec (.collectiveComplete n parts) s = .next (((s.meter (partOfCell n) 6 0).onCell n fun c =>
      c.scratchWrite k.destAddr (s.collReduced k parts)).onCell n fun c => c.collDone .ok) := by
  have hready : s.collReady k parts = true := by
    unfold State.collReady
    rw [hothers]
    rfl
  have hothers' : (s.meter (partOfCell n) 6 0).collOthers k = [] := hothers
  rw [exec_collectiveComplete]
  unfold execCollectiveComplete
  rw [State.collLaunch_running hk (by rw [hready, bne_iff_ne.2 hrun]; simp)]
  dsimp only
  rw [href, if_neg Bool.false_ne_true]
  have hwrite : (s.meter (partOfCell n) 6 0).collWrite n (s.cell n).ident.launch k (s.collReduced k parts)
      = (s.meter (partOfCell n) 6 0).onCell n fun c => c.scratchWrite k.destAddr (s.collReduced k parts) :=
    (if_pos hscr).trans (State.onOwner_running (s := s.meter (partOfCell n) 6 0) hrun _)
  have hdone := State.onOwner_running (s := (s.meter (partOfCell n) 6 0).onCell n fun c =>
    c.scratchWrite k.destAddr (s.collReduced k parts)) (n := n)
      (by rw [State.onCell_eq, State.cell_setCell_self]; exact hrun) fun c => c.collDone .ok
  rw [State.onCell_eq, State.cell_setCell_self] at hdone
  have hlost : (parts.any fun p => p.lost && ([] : List Nat).contains p.module) = false := by simp
  have hagree : (parts.all fun p => !([] : List Nat).contains p.module || relayAgrees p k) = true := by simp
  simp only [hothers, hothers', List.isEmpty_nil, if_true, hlost, hagree, Bool.not_true, Bool.false_eq_true, if_false]
  exact congrArg Host.Outcome.next
    ((congrArg (State.onOwner · n (s.cell n).ident.launch fun c => c.collDone .ok) hwrite).trans hdone)

/-! ### The last line of a bank command (R390, R391) -/

/-- What a `BKRED` whose lines are all read gives. -/
def BankCmd.result (k : BankCmd) : Nat := foldFirst (redCombine k.ty k.op) (k.parts.map fun (e : Nat × Word) => e.2.toNat)

/-- A cell whose only bank command k has performed its last line. -/
def Cell.bankDone (c : Cell) (k : BankCmd) : Cell :=
  ({ (if k.red then c.scratchWrite k.dest (leBytes 8 k.result) else c : Cell) with bank := [] } : Cell).pulseDone 22 k.scope

theorem Cell.bankDone_effect (c : Cell) (k : BankCmd) : (c.bankDone k).bank = [] ∧ (c.bankDone k).lineSet 22 = true
    ∧ (c.bankDone k).seq = c.seq
    ∧ (c.bankDone k).scratch = if k.red then Map.setList 0 c.scratch k.dest (leBytes 8 k.result) else c.scratch := by
  unfold Cell.bankDone
  generalize hd : (if k.red then c.scratchWrite k.dest (leBytes 8 k.result) else c) = d
  have hframe := Cell.OnlyBarriers.pulseDone { d with bank := [] } 22 k.scope
  refine ⟨?_, Cell.lineSet_pulseDone _ _ (by decide), hframe.kept.1.trans ?_, hframe.kept.2.2.1.trans ?_⟩
  · unfold Cell.OnlyBarriers at hframe
    rw [hframe]
  · subst hd
    split <;> rfl
  · subst hd
    split <;> rfl

/-- A bank command whose only line is performed leaves the cell, its line pulses, and a `BKRED` has its result in scratch. -/
theorem bankOperation_last {b b' : BankCmd} {t : State} {ws : List (Nat × W32)} (hrun : (s.cell n).run = .running)
    (hbank : (s.cell n).bank = [b]) (hlines : b.lines = [(0, ws)]) (hstep : s.takeFree.2.bankStep n b 0 ws = (t, b'))
    (hdone : b'.lines = []) (ht : (t.cell n).run = .running) :
    Completes (.bankOperation n) s fun u => u.cell n = (t.cell n).bankDone b' ∧ u.mem = t.mem ∧ u.hostMem = t.hostMem := by
  suffices hexec : exec (.bankOperation n) s = .next (t.onCell n fun c => c.bankDone b') from
    ⟨_, hexec, t.cell_setCell_self n _, rfl, rfl⟩
  have hpick : b.lines.getD (s.takeFree.1 % b.lines.length) (0, []) = (0, ws) := by
    rw [hlines, List.length_singleton, Nat.mod_one]
    rfl
  rw [exec_bankOperation]
  unfold execBankOperation
  dsimp only
  rw [hbank]
  dsimp only
  rw [if_neg (by simp [hrun]), hpick]
  dsimp only
  rw [hstep]
  dsimp only
  rw [if_neg (by simp [ht]), hdone]
  rfl

/-- The bytes of the number that a list of bytes writes are the list's, and zeros behind them. -/
theorem getD_leBytes_leNat (l : List Byte) {m j : Nat} (hj : j < m) : (leBytes m (leNat l)).getD j 0 = l.getD j 0 := by
  induction m generalizing l j with
  | zero => omega
  | succ m ih =>
    cases l with
    | nil =>
      cases j with
      | zero => rfl
      | succ j => exact ih [] (by omega)
    | cons b l =>
      have hb := b.isLt
      cases j with
      | zero =>
        apply BitVec.eq_of_toNat_eq
        change (b.toNat + 256 * leNat l) % 2 ^ 8 = b.toNat
        omega
      | succ j =>
        change (leBytes m ((b.toNat + 256 * leNat l) / 256)).getD j 0 = l.getD j 0
        rw [show (b.toNat + 256 * leNat l) / 256 = leNat l by omega]
        exact ih l (by omega)

theorem getD_readBytes (m : List Host.Cell) (a : Nat) {len j : Nat} :
    (readBytes m a len).getD j 0 = if j < len then readMem m (a + j) else 0 := by
  rw [List.getD_eq_getElem?_getD, readBytes_getElem?]
  split <;> rfl

section
variable {b : BankCmd} {pa : Nat} {v : W32}

/-- The only line of a `BKRED` of one unsigned word gives that word. -/
theorem State.bankStep_red (hred : b.red = true) (hty : b.ty = 1) (hlines : b.lines = [(0, [(pa, v)])]) (hparts : b.parts = [])
    (hr : s.lineReady pa) (hm : paModule pa = s.pod.self) : ∃ L, s.bankStep n b 0 [(pa, v)] = (s.touched L s.flows s.mem,
      { b with lines := [], parts := [(0, BitVec.ofNat 64 (leNat (readBytes s.mem pa 4)))] }) := by
  obtain ⟨L, htouch, -⟩ := State.touchAs_keepsReady hr hm (s.cell n).ident.part (s.cell n).ident.ctx (s.cell n).ident.world .norm
    false false
  refine ⟨L, ?_⟩
  have hturn : s.remoteTurn n [({ pa := pa, cls := .norm }, s.vaOf n pa, .load (4 * [(pa, v)].length))] = (s, .go) := by
    unfold State.remoteTurn
    rw [List.filter_cons_of_neg (by simp [hm])]
    rfl
  unfold State.bankStep
  dsimp only
  rw [if_pos hred, hturn]
  dsimp only
  rw [htouch, hty, hlines, hparts]
  rfl

/-- A word of a `BKOP` that adds is stored over the old one. -/
theorem State.bankStep_add (hred : b.red = false) (hop : b.op = 0) (hlines : b.lines = [(0, [(pa, v)])])
    (hr : s.lineReady pa) (hm : paModule pa = s.pod.self) : ∃ L F, s.bankStep n b 0 [(pa, v)] =
      ((s.touched L F (writeMem s.mem pa (leBytes 4 (BitVec.ofNat 32 (leNat (readBytes s.mem pa 4)) + v).toNat))).setCell n
        ((s.cell n).withL1 (Map.erase (s.cell n).l1 (pa / 64))), { b with lines := [] }) := by
  obtain ⟨L, F, hrmw⟩ := State.bankRmw_ready (n := n) (size := 4) (writes := fun _ => true)
    (f := fun m => (atomicNew 32 f32Add b.op (BitVec.ofNat 32 m) v 0).toNat) hr hm
  refine ⟨L, F, ?_⟩
  unfold State.bankStep
  dsimp only
  rw [if_neg (by simp [hred])]
  unfold State.postRemote
  rw [if_pos hm, hrmw, hop, hlines]
  rfl

theorem bankOperation_reduces (hrun : (s.cell n).run = .running) (hbank : (s.cell n).bank = [b]) (hred : b.red = true)
    (hty : b.ty = 1) (hlines : b.lines = [(0, [(pa, v)])]) (hparts : b.parts = []) (hr : s.lineReady pa)
    (hm : paModule pa = s.pod.self) : Completes (.bankOperation n) s fun t =>
      (t.cell n).bank = [] ∧ (t.cell n).lineSet 22 = true ∧ SameMemory s t ∧ (t.cell n).seq = (s.cell n).seq
      ∧ ∀ j, Map.get 0 (t.cell n).scratch j = if b.dest ≤ j ∧ j < b.dest + 8
          then (if j < b.dest + 4 then readMem s.mem (pa + (j - b.dest)) else 0) else Map.get 0 (s.cell n).scratch j := by
  obtain ⟨L, hstep⟩ := State.bankStep_red (s := s.takeFree.2) (n := n) hred hty hlines hparts hr hm
  obtain ⟨u, hexec, hcell, hmem, hhost⟩ := bankOperation_last hrun hbank hlines hstep rfl hrun
  obtain ⟨hnone, hline, hseq, hscratch⟩ := Cell.bankDone_effect (s.cell n)
    { b with lines := [], parts := [(0, BitVec.ofNat 64 (leNat (readBytes s.mem pa 4)))] }
  rw [if_pos hred] at hscratch
  have hresult : BankCmd.result { b with lines := [], parts := [(0, BitVec.ofNat 64 (leNat (readBytes s.mem pa 4)))] }
      = leNat (readBytes s.mem pa 4) := by
    have hlt := leNat_lt (readBytes s.mem pa 4)
    rw [length_readBytes] at hlt
    exact (BitVec.toNat_ofNat _ 64).trans (Nat.mod_eq_of_lt (by omega))
  rw [hresult] at hscratch
  dsimp only at hscratch
  refine ⟨u, hexec, ?_⟩
  beta_reduce
  rw [hcell]
  refine ⟨hnone, hline, ⟨fun a => congrArg (readMem · a) hmem, fun a => congrArg (readMem · a) hhost⟩, hseq, fun j => ?_⟩
  refine (congrArg (Map.get 0 · j) hscratch).trans ?_
  rw [Map.get_setList, length_leBytes]
  split
  · rw [getD_leBytes_leNat _ (by omega), getD_readBytes]
    exact if_congr (by omega) rfl rfl
  · rfl

theorem bankOperation_adds (hrun : (s.cell n).run = .running) (hbank : (s.cell n).bank = [b]) (hred : b.red = false)
    (hop : b.op = 0) (hlines : b.lines = [(0, [(pa, v)])]) (hr : s.lineReady pa) (hm : paModule pa = s.pod.self) :
    Completes (.bankOperation n) s fun t =>
      (t.cell n).bank = [] ∧ (t.cell n).lineSet 22 = true ∧ (t.cell n).seq = (s.cell n).seq
      ∧ leNat (readBytes t.mem pa 4) = (leNat (readBytes s.mem pa 4) + v.toNat) % 2 ^ 32
      ∧ ∀ a, a < pa ∨ pa + 4 ≤ a → readMem t.mem a = readMem s.mem a := by
  obtain ⟨L, F, hstep⟩ := State.bankStep_add (s := s.takeFree.2) (n := n) hred hop hlines hr hm
  obtain ⟨u, hexec, hcell, hmem, -⟩ := bankOperation_last hrun hbank hlines hstep rfl
    (by rw [State.cell_setCell_self]; exact hrun)
  refine ⟨u, hexec, ?_⟩
  beta_reduce
  rw [hcell, State.cell_setCell_self, hmem]
  obtain ⟨hnone, hline, hseq, -⟩ := Cell.bankDone_effect ((s.cell n).withL1 (Map.erase (s.cell n).l1 (pa / 64)))
    { b with lines := [] }
  refine ⟨hnone, hline, hseq, ?_, fun a ha => readMem_writeMem_of_not_mem _ _ _ _ (by rwa [length_leBytes])⟩
  have hread := readBytes_writeMem s.mem pa (leBytes 4 (BitVec.ofNat 32 (leNat (readBytes s.mem pa 4)) + v).toNat)
  rw [length_leBytes] at hread
  refine (congrArg leNat hread).trans ?_
  rw [leNat_leBytes, BitVec.toNat_add, BitVec.toNat_ofNat]
  omega

end

end

/-- Settles O32: the issue (`collOp_issues`, `bankOp_queues`), the wait (`cwait_reads`) and the completion of a collective, and the
last line of a bank command (`bankOperation_last`). -/
theorem collectivesAndBankCommands : Obligations.CollectivesAndBankCommands := by
  unfold Obligations.CollectivesAndBankCommands
  refine ⟨fun s x y z => ?_, fun s n parts k b pa v => ⟨fun hk hrun href => ?refused, fun hk hrun href hothers hscr => ?alone,
    fun hrun hbank hred hty hlines hparts hr hm => bankOperation_reduces hrun hbank hred hty hlines hparts hr hm,
    fun hrun hbank hred hop hlines hr hm => bankOperation_adds hrun hbank hred hop hlines hr hm⟩⟩
  · exact ⟨fun _ hq hfree hk hscr => coll_completes (exec_car s x none) hq hfree hk hscr,
      fun _ hq hfree hk hscr => coll_completes (exec_cbc s x none) hq hfree hk hscr,
      fun _ hq hfree hk hscr => coll_completes (exec_cag s x none) hq hfree hk hscr,
      cwait_waits, cwait_reads,
      fun _ hq hroom hb => (exec_bkop s x y z none).trans (bankOp_queues (red := false) hq hroom hb),
      fun _ hq hroom hb => (exec_bkred s x y z none).trans (bankOp_queues (red := true) hq hroom hb)⟩
  case refused =>
    obtain ⟨hnone, hstatus, hline, hseq, -⟩ := (s.cell n).collDone_effect .busy
    refine ⟨_, collectiveComplete_refused hk hrun href, ?_⟩
    beta_reduce
    rw [State.onCell_eq, State.cell_setCell_self]
    exact ⟨hnone, hstatus, hline, hseq, .refl s⟩
  case alone =>
    obtain ⟨hnone, hstatus, hline, hseq, hscratch⟩ :=
      ((s.cell n).scratchWrite k.destAddr (s.collReduced k parts)).collDone_effect .ok
    have hbecomes := (((State.CellBecomes.refl s n).meter (partOfCell n) 6 0).onCell fun c =>
      c.scratchWrite k.destAddr (s.collReduced k parts)).onCell fun c => c.collDone .ok
    refine ⟨_, collectiveComplete_alone hk hrun href hothers hscr, ?_⟩
    beta_reduce
    rw [hbecomes.cell]
    exact ⟨hnone, hstatus, hline, hscratch, hseq, hbecomes.memory⟩

end Sys2Proof.Machine
end

