-- ==== Sys2Proof/Proofs/Focus.lean ====
section
/-! FRAME. No access of a unit, not even one that ends a launch, a context or a world, moves the focus (R137, R138, R148, R271,
R275). -/

namespace Sys2Proof.Machine

/-- The focus stands where it stood in u. -/
structure State.SameFocus (u s : State) : Prop where
  focus : s.focus = u.focus

section
variable {s t u : State} {p n w line : Nat}

/-! ### Sequences of steps -/

theorem State.SameFocus.refl (s : State) : s.SameFocus s := ⟨rfl⟩

theorem State.SameFocus.update {boot timebase clock funcs lastVf hyper fring faults parts launches nextLaunch worlds lodge policy pod
    mem hostMem owners opdBacked full stamps lines flows retired quarantined cxl0 cxl1 cxlDown reloading cells out agenda free}
    (h : u.SameFocus s) : u.SameFocus { s with
      boot, timebase, clock, funcs, lastVf, hyper, fring, faults, parts, launches, nextLaunch, worlds, lodge, policy, pod, mem
      hostMem, owners, opdBacked, full, stamps, lines, flows, retired, quarantined, cxl0, cxl1, cxlDown, reloading, cells, out
      agenda, free } := ⟨h.focus⟩

theorem State.SameFocus.of_onlyLogs (h : u.SameFocus s) (e : OnlyLogs s t) : u.SameFocus t := by
  rw [e]; exact h.update

theorem State.SameFocus.ite {c : Prop} {_ : Decidable c} (hs : u.SameFocus s) (ht : u.SameFocus t) :
    u.SameFocus (if c then s else t) := by
  split
  · exact hs
  · exact ht

theorem State.SameFocus.foldl {α : Type} {f : State → α → State} {l : List α} (h : u.SameFocus s)
    (hf : ∀ s a, u.SameFocus s → u.SameFocus (f s a)) : u.SameFocus (l.foldl f s) := by
  induction l generalizing s with
  | nil => exact h
  | cons a l ih => exact ih (hf s a h)

/-! ### Parts of the state, counters and flits -/

theorem State.SameFocus.onPart {f} (h : u.SameFocus s) : u.SameFocus (s.onPart p f) := h.update

theorem State.SameFocus.onCell {f} (h : u.SameFocus s) : u.SameFocus (s.onCell n f) := h.update

theorem State.SameFocus.onPod {f} (h : u.SameFocus s) : u.SameFocus (s.onPod f) := h.update

theorem State.SameFocus.setWorld {v} (h : u.SameFocus s) : u.SameFocus (s.setWorld w v) := h.update

theorem State.SameFocus.onWorld {f} (h : u.SameFocus s) : u.SameFocus (s.onWorld w f) := by
  unfold State.onWorld
  split
  · exact h
  · exact h.setWorld

theorem State.SameFocus.finishNode {f q k r} (h : u.SameFocus s) : u.SameFocus (s.finishNode f q k r) := h.update

theorem State.SameFocus.meter {i k} (h : u.SameFocus s) : u.SameFocus (s.meter p i k) := h.onPart

theorem State.SameFocus.meterLost {i k} (h : u.SameFocus s) : u.SameFocus (s.meterLost p i k) := h.onPart

theorem State.SameFocus.devWrite {f a l} (h : u.SameFocus s) : u.SameFocus (s.devWrite f a l) :=
  h.of_onlyLogs (State.devWrite_onlyLogs f l s a)

theorem State.SameFocus.secondary {ctx cell cause} (h : u.SameFocus s) : u.SameFocus (s.secondary p ctx cell cause) :=
  h.of_onlyLogs (s.traceOf_onlyLogs _ _ _ _ _ _)

theorem State.SameFocus.flushCell (h : u.SameFocus s) : u.SameFocus (s.flushCell n) :=
  h.of_onlyLogs (s.flushCell_onlyLogs n)

theorem State.SameFocus.countLine {fill} (h : u.SameFocus s) : u.SameFocus (s.countLine line fill) := .ite h.update h.update

theorem State.SameFocus.sendFlit {f} (h : u.SameFocus s) : u.SameFocus (s.sendFlit f) := by
  unfold State.sendFlit
  split
  · exact h.update
  · exact h.onPod

/-! ### Ends of launches (R92, R106) -/

theorem State.SameFocus.launchEnded {e st cause detail} (h : u.SameFocus s) : u.SameFocus (s.launchEnded e st cause detail) := by
  unfold State.launchEnded
  split
  · exact h.finishNode
  · refine .ite ?_ h.sendFlit
    unfold State.podPart State.podSettle
    split
    · exact h.onPod
    · exact .ite h.onPod.onPod.finishNode h.onPod

theorem State.SameFocus.endHolds {snap} (h : u.SameFocus s) : u.SameFocus (s.endHolds w snap) := by
  unfold State.endHolds
  split
  · exact h
  · exact h.onWorld

theorem State.SameFocus.loseMacs {c} (h : u.SameFocus s) : u.SameFocus (s.loseMacs p c) := by
  unfold State.loseMacs
  refine h.foldl fun _ _ h => ?_
  split
  · exact h.meterLost
  · exact h.meterLost
  · exact h

theorem State.SameFocus.loseWork {c} (h : u.SameFocus s) : u.SameFocus (s.loseWork p c) :=
  h.meterLost.loseMacs.foldl fun _ _ h => h.foldl fun _ _ h => h.foldl fun _ _ h => h.meterLost

theorem State.SameFocus.dropCell {c} (h : u.SameFocus s) : u.SameFocus ((s.setCell n c).dropHolders n true) := h.update

theorem State.SameFocus.discardPart (h : u.SameFocus s) : u.SameFocus (s.discardPart p) :=
  h.foldl fun _ _ h => .ite h (h.loseWork.onPart.flushCell.foldl fun _ _ h => h.endHolds).dropCell.onWorld

theorem State.SameFocus.loseLaunch {l} (h : u.SameFocus s) : u.SameFocus (s.loseLaunch n l) :=
  ((h.foldl fun _ _ h => .ite h.discardPart.onPart h).foldl fun _ _ h => h.meterLost).foldl
    fun _ _ h => h.loseWork.foldl fun _ _ h => h.endHolds

theorem State.SameFocus.discardLaunch (h : u.SameFocus s) : u.SameFocus (s.discardLaunch n) := by
  cases hl : Map.get? s.launches n with
  | none => unfold State.discardLaunch; rw [hl]; exact h
  | some l =>
    rw [State.discardLaunch_of_get? hl]
    exact (h.loseLaunch.update.foldl fun _ _ h => .ite h.onPart h).onWorld

theorem State.SameFocus.endLaunch {st cause} (h : u.SameFocus s) : u.SameFocus (s.endLaunch n st cause) := by
  unfold State.endLaunch
  split
  · exact h
  · exact h.discardLaunch.launchEnded

/-! ### Ends of worlds (R44, R271) -/

theorem State.SameFocus.endedRest {cause parts} (h : u.SameFocus s) : u.SameFocus (s.endedRest w cause parts) :=
  ((h.foldl fun _ _ h => h.endLaunch).update.foldl fun _ _ h => h.launchEnded).update

theorem State.SameFocus.revoke {e} (h : u.SameFocus s) : u.SameFocus (s.revoke w e) := by
  unfold State.revoke
  split
  · exact h
  · exact (h.foldl fun _ _ h => .ite h.devWrite.devWrite h).update

theorem State.SameFocus.endWorld {cause cell epoch} (h : u.SameFocus s) : u.SameFocus (s.endWorld w cause cell epoch) := by
  have hrevoked : u.SameFocus (if cause = Cause.integ.code then s.revoke w epoch else s) := .ite h.revoke h
  unfold State.endWorld
  split
  · exact h
  · refine .ite h (State.SameFocus.endedRest (State.SameFocus.setWorld (State.SameFocus.foldl (State.SameFocus.update
      (State.SameFocus.foldl ?_ fun _ _ h => h.foldl fun _ _ h => h.finishNode)) fun _ _ h => ?_)))
    · split
      · exact hrevoked.finishNode
      · exact hrevoked
    · split
      · exact h.finishNode
      · exact h

/-! ### Lines, stamps and contexts (R138, R148, R275) -/

theorem State.SameFocus.stampWrite (h : u.SameFocus s) : u.SameFocus (s.stampWrite w line) := by
  unfold State.stampWrite
  split
  · exact h
  · exact h.update

theorem State.SameFocus.foldRead (h : u.SameFocus s) (e : s.foldRead w line = some t) : u.SameFocus t := by
  unfold State.foldRead at e
  split at e
  · cases e; exact h
  · dsimp only at e
    split at e
    · cases e; exact h.setWorld
    · split at e
      · cases e; exact h.setWorld
      · cases e

theorem State.SameFocus.evictLine (h : u.SameFocus s) : u.SameFocus (s.evictLine line) := by
  have hcounted : u.SameFocus (({ s with lines := Map.erase s.lines line } : State).countLine line false) := h.update.countLine
  unfold State.evictLine
  split
  · exact h
  · dsimp only
    have hstamped (e : Option Nat) : u.SameFocus (match e with
        | some w => (({ s with lines := Map.erase s.lines line } : State).countLine line false).stampWrite w line
        | none => ({ s with lines := Map.erase s.lines line } : State).countLine line false) := by
      split
      · exact hcounted.stampWrite
      · exact hcounted
    exact .ite (hstamped _).meter (hstamped _)

theorem State.SameFocus.endContext {ctx} (h : u.SameFocus s) : u.SameFocus (s.endContext p ctx) := by
  unfold State.endContext
  exact ((h.foldl fun _ _ h => h.evictLine).foldl fun _ _ h => h.update).onPart

theorem State.SameFocus.machineCheck {ctx} (h : u.SameFocus s) : u.SameFocus (s.machineCheck p ctx) :=
  .ite h (.ite h.secondary (((h.of_onlyLogs (s.hyperAdd_onlyLogs 8 1)).update.foldl fun _ _ h => .ite h.secondary h).foldl
    fun _ _ h => .ite (h.endLaunch.foldl fun _ _ h => h.foldl fun _ _ h => h.onCell) h.endLaunch).endContext)

/-! ### Accesses of a unit (R138, R157) -/

theorem State.SameFocus.placeLine {tag ctx} (h : u.SameFocus s) : u.SameFocus (s.placeLine p line tag ctx) := by
  unfold State.placeLine
  dsimp only
  split
  · split
    · exact h.update
    · refine State.SameFocus.update ?_
      split
      · exact h.update.evictLine
      · exact h.update
  · refine .ite h.update ?_
    split
    · exact h.stampWrite
    · exact h

theorem State.SameFocus.touchLine {ctx cls write spec} (h : u.SameFocus s)
    (e : s.touchLine p ctx w cls line write spec = some t) : u.SameFocus t := by
  unfold State.touchLine at e
  dsimp only at e
  split at e
  · cases e; exact h
  · split at e
    · cases e; exact h.update
    · obtain ⟨v, hv, rfl⟩ := Option.map_eq_some_iff.1 e
      have hread : u.SameFocus v := by
        split at hv
        · exact h.countLine.foldRead hv
        · cases hv; exact h.countLine
      exact (State.SameFocus.ite hread hread.meter.meter).placeLine

theorem State.SameFocus.touchFor {ctx cls pa write spec} (h : u.SameFocus s) :
    u.SameFocus (s.touchFor p ctx w cls pa write spec) := by
  unfold State.touchFor
  refine .ite h (.ite h.endWorld (.ite h.machineCheck ?_))
  split
  · exact h.touchLine ‹_›
  · exact h.endWorld

theorem State.SameFocus.touchRange {ctx va len write spec} (h : u.SameFocus s) :
    u.SameFocus (s.touchRange p ctx w va len write spec) := by
  refine h.foldl fun s a h => ?_
  obtain ⟨F, hF⟩ := s.countAccess_eq unitPort (s.paOf w a)
  rw [hF]
  exact .ite (h.update.touchFor.of_onlyLogs (State.countEvent_onlyLogs _ _ _ _)) h.update.touchFor

theorem State.unitRead_focus (s : State) (p ctx w va len : Nat) : (s.unitRead p ctx w va len).1.focus = s.focus :=
  (State.SameFocus.refl s).touchRange.focus

end

end Sys2Proof.Machine
end

