-- ==== Sys2Proof/Proofs/MapAndWeightInstructions.lean ====
section
/-! RULE. The issue of map commands, `SMETER`, `SEPOCH` and the weight-set pins (R379, R386, R392). -/

namespace Sys2Proof.Machine

section
variable {s : State} {x y : Reg} {v : World} {l : Loc} {i : Instr} {op : Nat}

/-! ### Map commands (R379) -/

/-- The command that an instruction of the group queues. -/
def State.kvmRequest (s : State) (op : Nat) (addr : Word) : KvReq :=
  { src := .cell s.focus.cell s.cur.ident.launch, op := some op, addr := addr, part := s.cur.ident.part, ctx := s.cur.ident.ctx }

theorem kvmOp_issues (hq : s.quiet) (hl : s.access s.focus.cell .kvRecord 64 (s.cur.reg x) none = .ok l) (hcls : l.cls = .norm) :
    kvmOp s op x none = .next ((s.issueKvm s.focus.cell op (s.cur.reg x)).onCur fun c => c.retire false) := by
  unfold kvmOp
  dsimp only
  rw [State.release_of_quiet hq, if_neg hq.runs, if_neg (c := (!s.cur.mayArm none) = true) nofun, State.withChk_ok hl]
  exact if_neg fun hne => hne hcls

theorem kvm_completes (hi : exec i s = kvmOp s op x none) (hv : s.world? s.cur.ident.world = some v) (hq : s.quiet)
    (hl : s.access s.focus.cell .kvRecord 64 (s.cur.reg x) none = .ok l) (hcls : l.cls = .norm) : Completes i s fun t =>
      (∃ u, t.world? s.cur.ident.world = some u ∧ u.kvq = v.kvq ++ [s.kvmRequest op (s.cur.reg x)])
      ∧ t.cur = { s.cur with
          seq := { s.cur.seq with pc := s.nextPc }
          kvm := s.cur.kvm ++ [{ op := op, addr := s.cur.reg x }] }
      ∧ SameMemory s t ∧ ∀ m, m ≠ s.focus.cell → t.cell m = s.cell m := by
  have hbecomes : s.CellBecomes ((s.issueKvm s.focus.cell op (s.cur.reg x)).onCur fun c => c.retire false) s.focus.cell
      (({ s.cur with kvm := s.cur.kvm ++ [{ op := op, addr := s.cur.reg x }] } : Cell).retire false) :=
    (((State.CellBecomes.refl s _).onCell fun c =>
      { c with kvm := c.kvm ++ [{ op := op, addr := s.cur.reg x }] }).onWorld _ _).onCur fun c => c.retire false
  have hworld := State.world?_onWorld
    (s := s.onCell s.focus.cell fun c => { c with kvm := c.kvm ++ [{ op := op, addr := s.cur.reg x }] })
    (f := fun v => { v with kvq := v.kvq ++ [s.kvmRequest op (s.cur.reg x)] }) hv
  exact Completes.of_exec hi ⟨_, kvmOp_issues hq hl hcls, ⟨_, hworld, rfl⟩, hbecomes.cur, hbecomes.memory, hbecomes.others⟩

/-! ### `SMETER` and `SEPOCH` (R386) -/

theorem smeter_counts : Completes .smeter s fun t =>
    t.cur.seq = { s.cur.seq with pc := s.nextPc } ∧ t.cur.lineSet 19 = true
    ∧ (10 ≤ (s.part (partOfCell s.focus.cell)).committed.length →
      (t.part (partOfCell s.focus.cell)).committed.getD 9 0
        = min (2 ^ 64 - 1) ((s.part (partOfCell s.focus.cell)).committed.getD 9 0 + 1)) := by
  have hbecomes : s.CellBecomes ((s.meter (partOfCell s.focus.cell) 9 1).onCur fun c => (c.pulseDone 19).retire false) s.focus.cell
      ((s.cur.pulseDone 19).retire false) := ((State.CellBecomes.refl s _).meter _ _ _).onCur _
  refine Completes.of_exec (exec_smeter s) ⟨_, rfl, ?_, ?_, fun hlen => ?_⟩
  · rw [hbecomes.cur, Cell.retire_seq, (Cell.OnlyBarriers.pulseDone s.cur 19 .part).seq]
    rfl
  · rw [hbecomes.cur]
    exact s.cur.lineSet_pulseDone .part (by decide)
  · have hpart : ((s.meter (partOfCell s.focus.cell) 9 1).onCur fun c => (c.pulseDone 19).retire false).part
        (partOfCell s.focus.cell) = _ := State.part_setPart_self s (partOfCell s.focus.cell) _
    rw [hpart]
    unfold meterAdd
    rw [List.getD_eq_getElem?_getD, List.getElem?_set_self (by omega)]
    rfl

theorem sepoch_reads (hv : s.world? s.cur.ident.world = some v) : Completes (.sepoch x) s fun t =>
    RegWrite s.cur t.cur x (match v.clean with | some e => BitVec.ofNat 64 e | none => BitVec.allOnes 64)
    ∧ t.cur.seq.pc = s.nextPc ∧ t.cur.lineSet 19 = true ∧ SameMemory s t := by
  have hclean : s.cleanEpoch s.cur.ident.world = (match v.clean with | some e => BitVec.ofNat 64 e | none => BitVec.allOnes 64) := by
    unfold State.cleanEpoch
    rw [hv]
    rfl
  refine Completes.of_exec (exec_sepoch s x) ⟨_, rfl, ?_⟩
  rw [State.onCur_eq, State.cur_setCell_focus, hclean]
  generalize (match v.clean with | some e => BitVec.ofNat 64 e | none => BitVec.allOnes 64) = e
  have hframe := Cell.OnlyBarriers.pulseDone (s.cur.setReg x e) 19 .part
  refine ⟨?_, ?_, (s.cur.setReg x e).lineSet_pulseDone .part (by decide), .refl s⟩
  · unfold Cell.OnlyBarriers at hframe
    rw [hframe]
    obtain ⟨hregs, hshadows⟩ := RegWrite.setReg s.cur x e false
    exact ⟨hregs, hshadows⟩
  · rw [Cell.retire_seq, hframe.seq, Cell.setReg_frame]
    rfl

/-! ### Weight sets (R392) -/

theorem genWord_currentGen (hv : s.world? s.cur.ident.world = some v) (set : Word) :
    genWord (s.currentGen s.cur.ident.world set) = if Map.get? v.current set.toNat = none then (0x8000000000000002 : Word)
      else BitVec.ofNat 64 (Map.get 0 v.current set.toNat) := by
  unfold State.currentGen
  rw [hv, Option.bind_some]
  unfold Map.get
  cases Map.get? v.current set.toNat <;> rfl

theorem wgen_writes (hset : (s.cur.reg y).toNat ≤ 15) : Completes (.wgen x y) s fun t =>
    Writes s t x (genWord (s.currentGen s.cur.ident.world (s.cur.reg y))) s.nextPc :=
  Completes.of_exec (exec_wgen s x y) ⟨_, if_neg (by simpa using hset), Writes.of_setReg s x _⟩

/-- A cell with other pins. -/
def Cell.withPins (c : Cell) (l : List (Nat × Nat)) : Cell := { c with pins := l }

/-- The pin that `WPIN` adds for a set: none where the set has no current generation. -/
def World.newPin (v : World) (set : Nat) : List (Nat × Nat) :=
  if Map.get? v.current set = none then [] else [(set, Map.get 0 v.current set)]

theorem wpin_effect (hv : s.world? s.cur.ident.world = some v) (hset : (s.cur.reg y).toNat ≤ 15)
    (hnone : ∀ p ∈ s.cur.pins, p.1 ≠ (s.cur.reg y).toNat) : exec (.wpin x y) s
      = .next (s.setCur (((s.cur.withPins (s.cur.pins ++ v.newPin (s.cur.reg y).toNat)).setReg x
          (genWord (s.currentGen s.cur.ident.world (s.cur.reg y)))).retire false)) := by
  have hfree : s.cur.hasPin (s.cur.reg y) = false := by
    unfold Cell.hasPin
    simpa using hnone
  rw [exec_wpin]
  unfold execWpin
  dsimp only
  rw [if_neg (by simpa [hfree] using hset)]
  unfold State.currentGen World.newPin Map.get
  rw [hv, Option.bind_some]
  cases Map.get? v.current (s.cur.reg y).toNat with
  | none =>
    rw [if_pos rfl, List.append_nil]
    rfl
  | some g => rfl

theorem wpin_holds (hv : s.world? s.cur.ident.world = some v) (hset : (s.cur.reg y).toNat ≤ 15)
    (hnone : ∀ p ∈ s.cur.pins, p.1 ≠ (s.cur.reg y).toNat) : Completes (.wpin x y) s fun t =>
      RegWrite s.cur t.cur x (genWord (s.currentGen s.cur.ident.world (s.cur.reg y))) ∧ t.cur.seq.pc = s.nextPc
      ∧ OnlyRegs s.cur.seq t.cur.seq ∧ OnlyCur s t ∧ t.cur = { s.cur with seq := t.cur.seq, pins := t.cur.pins }
      ∧ t.cur.pins = s.cur.pins ++ v.newPin (s.cur.reg y).toNat := by
  refine ⟨_, wpin_effect hv hset hnone, ?_⟩
  beta_reduce
  rw [State.setCur_eq, State.cur_setCell_focus]
  generalize genWord (s.currentGen s.cur.ident.world (s.cur.reg y)) = g
  generalize s.cur.pins ++ v.newPin (s.cur.reg y).toNat = pins
  have hframe := Cell.setReg_frame (s.cur.withPins pins) x g
  obtain ⟨hregs, hshadows⟩ := RegWrite.setReg (s.cur.withPins pins) x g false
  refine ⟨⟨hregs, hshadows⟩, ?_, ?_, OnlyCur.setCur s _, ?_, ?_⟩ <;>
  · rw [hframe]
    rfl

theorem wunpin_frees (hset : (s.cur.reg x).toNat ≤ 15) (hpin : ∃ p ∈ s.cur.pins, p.1 = (s.cur.reg x).toNat) :
    Completes (.wunpin x) s fun t =>
      t.cur = { s.cur with
        seq := { s.cur.seq with pc := s.nextPc }
        pins := s.cur.pins.filter fun p => p.1 != (s.cur.reg x).toNat }
      ∧ SameMemory s t := by
  have hheld : s.cur.hasPin (s.cur.reg x) = true := by
    unfold Cell.hasPin
    simpa using hpin
  have hbecomes := (((State.CellBecomes.refl s s.focus.cell).setCell ((s.cur.withPins (s.cur.pins.filter
    fun p => p.1 != (s.cur.reg x).toNat)).retire false))).settleGens s.cur.ident.world
  exact Completes.of_exec (exec_wunpin s x) ⟨_, if_neg (by simpa [hheld] using hset), hbecomes.cur, hbecomes.memory⟩

end

end Sys2Proof.Machine
end

