-- ==== Sys2Proof/Proofs/SessionInstructions.lean ====
section
/-! RULE. `SOPEN` and `SSEAL`: the status word that each ends with, and the session after it (R383 to R385); with them the map
commands, meters and weight pins. -/

namespace Sys2Proof.Machine

section
variable {s t u : State} {x y z : Reg} {v : World} {q : Session} {c d : Cell} {w h n sa : Nat} {st : Status} {detail : Nat}

/-! ### The status word (R385) -/

/-- The cell in focus has taken a status word at sa, its line has pulsed, and its sequencer has moved on. -/
def State.StatusWord (u t : State) (sa : Nat) (st : Status) (detail : Nat) : Prop :=
  t.cur.lineSet 19 = true ∧ t.cur.seq = { u.cur.seq with pc := u.nextPc }
    ∧ t.cur.scratchRead sa 8 = leBytes 4 st.code ++ leBytes 4 detail

theorem State.StatusWord.of_cur (hword : u.StatusWord t sa st detail) (hcur : u.cur = s.cur) : s.StatusWord t sa st detail := by
  unfold State.StatusWord State.nextPc at hword ⊢
  rwa [hcur] at hword

/-- A status word is eight bytes of scratch; beside it only lines, counters and the L1 change. -/
theorem Cell.sessStatus_effect (c : Cell) (sa : Nat) (st : Status) (detail : Nat) :
    (c.sessStatus sa st detail).lineSet 19 = true ∧ (c.sessStatus sa st detail).seq = c.seq
    ∧ (c.sessStatus sa st detail).run = c.run
    ∧ (c.sessStatus sa st detail).scratch = Map.setList 0 c.scratch sa (leBytes 4 st.code ++ leBytes 4 detail) := by
  have hframe := Cell.OnlyBarriers.pulseDone (c.scratchWrite sa (leBytes 4 st.code ++ leBytes 4 detail)) 19 .part
  refine ⟨Cell.lineSet_pulseDone _ _ (by decide), hframe.seq, ?_, hframe.kept.2.2.1⟩
  unfold Cell.sessStatus
  unfold Cell.OnlyBarriers at hframe
  rw [hframe]
  rfl

/-- The end of a session command: where the cell in focus has become d and then takes its status word. -/
theorem State.CellBecomes.answers (hb : u.CellBecomes t u.focus.cell (d.sessStatus sa st detail)) (hrun : d.run ≠ .idle)
    (hseq : d.seq = u.cur.seq) :
    u.StatusWord (t.settle fun c => c.retire false) sa st detail ∧ SameMemory u (t.settle fun c => c.retire false)
    ∧ (t.settle fun c => c.retire false).worlds = t.worlds
    ∧ (t.settle fun c => c.retire false).cur.scratch = Map.setList 0 d.scratch sa (leBytes 4 st.code ++ leBytes 4 detail) := by
  obtain ⟨hline, hseq', hrun', hscratch⟩ := d.sessStatus_effect sa st detail
  have hcur := hb.cur
  rw [State.settle_running (by rw [hcur, hrun']; exact hrun)]
  have hend := (hb.onCur fun c => c.retire false).cur
  refine ⟨⟨?_, ?_, ?_⟩, hb.memory, rfl, ?_⟩
  · rw [hend]
    exact hline
  · rw [hend, Cell.retire_seq, hseq', hseq]
    rfl
  · rw [hend]
    have hread := Map.getList_setList 0 d.scratch sa (leBytes 4 st.code ++ leBytes 4 detail)
    rw [List.length_append, length_leBytes, length_leBytes, ← hscratch] at hread
    exact hread
  · rw [hend]
    exact hscratch

/-! ### Sessions (R60, R65) -/

theorem State.openSession?_iff : s.openSession? w h = some (v, q)
    ↔ s.world? w = some v ∧ Map.get? v.sessions h = some q ∧ q.keys.isSome = true := by
  unfold State.openSession?
  rw [Option.bind_eq_some_iff]
  constructor
  · rintro ⟨v', hv, hopen⟩
    obtain ⟨q', hq, hkeys⟩ := Option.bind_eq_some_iff.1 hopen
    split at hkeys
    · next hsome =>
      cases hkeys
      exact ⟨hv, hq, hsome⟩
    · cases hkeys
  · rintro ⟨hv, hq, hkeys⟩
    refine ⟨v, hv, ?_⟩
    rw [hq, Option.bind_some]
    exact if_pos hkeys

/-- A session that keeps its keys stays open as it is set. -/
theorem State.openSession?_setSession {p : Session} (hv : s.world? w = some v) (hkeys : p.keys.isSome = true) :
    (s.setSession w h p).openSession? w h = some ({ v with sessions := Map.put v.sessions h p }, p) :=
  State.openSession?_iff.2 ⟨State.world?_onWorld hv, Map.get?_put_self _ _ _, hkeys⟩

theorem State.openSession?_congr (hw : t.worlds = s.worlds) : t.openSession? w h = s.openSession? w h := by
  unfold State.openSession? State.world?
  rw [hw]

theorem State.lockWait_of_lt (hlock : s.timebase < q.lock) : s.lockWait q = some ((q.lock - s.timebase + 999) / 1000) :=
  if_pos hlock

theorem State.lockWait_of_le (hlock : q.lock ≤ s.timebase) : s.lockWait q = none := if_neg (by omega)

/-- The end of a command that has set its session, put a plaintext in scratch and answers with a status word. -/
theorem State.setSession_answers {p : Session} {a : Nat} {l : List Byte} (hn : n = u.focus.cell) (hv : u.world? w = some v)
    (hkeys : p.keys.isSome = true) (hrun : u.cur.run ≠ .idle) :
    let t := ((u.setSession w h p).onCell n fun c => (c.scratchWrite a l).sessStatus sa st detail).settle fun c => c.retire false
    u.StatusWord t sa st detail ∧ SameMemory u t
    ∧ t.openSession? w h = some ({ v with sessions := Map.put v.sessions h p }, p)
    ∧ t.cur.scratch = Map.setList 0 (Map.setList 0 u.cur.scratch a l) sa (leBytes 4 st.code ++ leBytes 4 detail) := by
  subst hn
  have hbecomes := ((State.CellBecomes.refl u u.focus.cell).onWorld w fun v =>
    { v with sessions := Map.put v.sessions h p }).onCell fun c => (c.scratchWrite a l).sessStatus sa st detail
  obtain ⟨hword, hmem, hworlds, hscratch⟩ := hbecomes.answers hrun rfl
  exact ⟨hword, hmem, (State.openSession?_congr hworlds).trans (State.openSession?_setSession (s := u) hv hkeys), hscratch⟩

/-- A command that its session cannot take answers with a status word alone. -/
theorem State.sessStatus_answers (hn : n = u.focus.cell) (hrun : u.cur.run ≠ .idle) :
    let t := (u.onCell n fun c => c.sessStatus sa st detail).settle fun c => c.retire false
    u.StatusWord t sa st detail ∧ t.worlds = u.worlds ∧ SameMemory u t := by
  subst hn
  have hbecomes := (State.CellBecomes.refl u u.focus.cell).onCell fun c => c.sessStatus sa st detail
  obtain ⟨hword, hmem, hworlds, -⟩ := hbecomes.answers hrun rfl
  exact ⟨hword, hworlds, hmem⟩

/-! ### `SOPEN` (R383) -/

theorem sopen_runs (hq : s.quiet) (hfree : s.lodgeFree = true) (hops : sopenOperands (s.cur.reg y) (s.cur.reg z) = true)
    (hchk : s.sopenCheck s.focus.cell (s.cur.reg x) (s.cur.reg z) = .ok sa) : exec (.sopen x y z none) s
      = .next ((s.sopenRun s.focus.cell (s.cur.reg x) (s.cur.reg y) sa).settle fun c => c.retire false) := by
  rw [exec_sopen]
  unfold execSopen
  dsimp only
  rw [hops, if_neg (c := (!true || !s.cur.mayArm none) = true) nofun, State.release_of_quiet hq, if_neg hq.runs,
    State.withChk_ok hchk, hfree]
  exact if_neg nofun

/-- The record of a `SOPEN`, as the Lodge reads it, and the state after. -/
def State.sopenRecord (s : State) (n : Nat) (a : Word) : State × List Byte :=
  let i := (s.cell n).ident
  s.unitRead i.part i.ctx i.world a.toNat (48 + leNat (s.vaBytes i.world (a.toNat + 16) 4))

theorem toNat_field (a : Word) (i k : Nat) : (a.extractLsb' i k).toNat = a.toNat / 2 ^ i % 2 ^ k := by
  rw [BitVec.extractLsb'_toNat, Nat.shiftRight_eq_div_pow]

theorem State.sopenRun_busy {a b : Word} {got : State × List Byte} (hgot : s.sopenRecord n a = got)
    (hrun : (got.1.cell n).run ≠ .idle)
    (hopen : got.1.openSession? (s.cell n).ident.world (b.toNat / 2 ^ 32 % 2 ^ 16) = some (v, q))
    (hlock : got.1.timebase < q.lock) : s.sopenRun n a b sa = got.1.onCell n fun c =>
      c.sessStatus sa .busy ((q.lock - got.1.timebase + 999) / 1000) := by
  subst hgot
  have hwait := State.lockWait_of_lt hlock
  rw [← toNat_field] at hopen
  unfold State.sopenRecord at hrun hopen hwait ⊢
  unfold State.sopenRun
  dsimp only at hrun hopen hwait ⊢
  rw [if_neg hrun, hopen]
  dsimp only
  rw [hwait]

theorem State.sopenRun_free {a b : Word} {got : State × List Byte} (hgot : s.sopenRecord n a = got)
    (hrun : (got.1.cell n).run ≠ .idle)
    (hopen : got.1.openSession? (s.cell n).ident.world (b.toNat / 2 ^ 32 % 2 ^ 16) = some (v, q))
    (hlock : q.lock ≤ got.1.timebase) :
    let r := sopenLodge v (got.1.takeLock q).1 got.2 (0x100000 - b.toNat % 2 ^ 20)
    s.sopenRun n a b sa
      = ((got.1.takeLock q).2.setSession (s.cell n).ident.world (b.toNat / 2 ^ 32 % 2 ^ 16) r.2.2).onCell n fun c =>
        (c.scratchWrite (b.toNat % 2 ^ 20) r.2.1).sessStatus sa r.1 r.2.1.length := by
  subst hgot
  have hwait := State.lockWait_of_le hlock
  have hdest : b.toNat % 2 ^ 20 = (b.extractLsb' 0 20).toNat := by rw [toNat_field, pow_zero, Nat.div_one]
  rw [← toNat_field] at hopen ⊢
  rw [hdest]
  unfold State.sopenRecord at hrun hopen hwait ⊢
  unfold State.sopenRun
  dsimp only at hrun hopen hwait ⊢
  rw [if_neg hrun, hopen]
  dsimp only
  rw [hwait]

/-- What the Lodge answers to a fresh record that fits, and opens to o. -/
theorem sopenLodge_fresh {record : List Byte} {room : Nat} {o : Option (List Byte)} (hheld : v.held = false)
    (hfresh : q.reqCtr < leAt record 8 8) (hlast : leAt record 8 8 < 2 ^ 63) (hpos : 1 ≤ leAt record 16 4)
    (hroom : leAt record 16 4 ≤ room) (hmax : leAt record 16 4 ≤ 1048576)
    (ho : gcmOpen (requestKey (q.keys.getD [])) (2 ^ 64 + leAt record 8 8) (record.take 32)
      ((record.drop 32).take (leAt record 16 4)) (BitVec.ofNat 128 (leAt record (32 + leAt record 16 4) 16)) = o) :
    sopenLodge v q record room = o.elim (.tag, [], q) fun p => (.ok, p, { q with reqCtr := leAt record 8 8 }) := by
  unfold sopenLodge
  dsimp only
  rw [if_neg (by simp [hheld]), if_neg (by omega), if_neg (by omega), if_neg (by omega), ho]
  cases o <;> rfl

theorem State.length_unitRead (s : State) (p ctx w va len : Nat) : (s.unitRead p ctx w va len).2.length = len := by
  unfold State.unitRead State.vaBytes tabulate
  rw [List.length_map, List.length_range]

theorem length_of_gcmOpen {key nonce : Nat} {aad body p : List Byte} {tag : BitVec 128}
    (h : gcmOpen key nonce aad body tag = some p) : p.length = body.length := by
  unfold gcmOpen at h
  split at h
  · cases h
    exact List.length_mapIdx
  · cases h

/-- A `SOPEN` that passes its checks at a session that is open; its record has been read, and with it the state is `got`. -/
structure State.Opens (s : State) (x y z : Reg) (sa : Nat) (got : State × List Byte) (v : World) (q : Session) : Prop where
  quiet    : s.quiet
  free     : s.lodgeFree = true
  operands : sopenOperands (s.cur.reg y) (s.cur.reg z) = true
  check    : s.sopenCheck s.focus.cell (s.cur.reg x) (s.cur.reg z) = .ok sa
  record   : s.sopenRecord s.focus.cell (s.cur.reg x) = got
  runs     : got.1.cur.run ≠ .idle
  session  : got.1.openSession? s.cur.ident.world ((s.cur.reg y).toNat / 2 ^ 32 % 2 ^ 16) = some (v, q)

section
variable {got : State × List Byte}

theorem State.Opens.cell_eq (h : s.Opens x y z sa got v q) : s.focus.cell = got.1.focus.cell := by
  rw [← h.record]
  exact congrArg Focus.cell (s.unitRead_focus _ _ _ _ _).symm

theorem State.Opens.busy (h : s.Opens x y z sa got v q) (hlock : got.1.timebase < q.lock) : Completes (.sopen x y z none) s fun t =>
    got.1.StatusWord t sa .busy ((q.lock - got.1.timebase + 999) / 1000) ∧ t.worlds = got.1.worlds ∧ SameMemory got.1 t := by
  have hrun : (got.1.cell s.focus.cell).run ≠ .idle := h.cell_eq ▸ h.runs
  have hexec := sopen_runs h.quiet h.free h.operands h.check
  rw [State.sopenRun_busy h.record hrun h.session hlock] at hexec
  exact ⟨_, hexec, State.sessStatus_answers h.cell_eq h.runs⟩

/-- The record of a `SOPEN` is fresh, and its plaintext fits in scratch beside the status word. -/
structure State.Fresh (got : State × List Byte) (v : World) (q : Session) (sa dest len ctr : Nat) : Prop where
  held   : v.held = false
  fresh  : q.reqCtr < ctr
  last   : ctr < 2 ^ 63
  pos    : 1 ≤ len
  room   : dest + len ≤ 0x100000
  beside : sa + 8 ≤ dest ∨ dest + len ≤ sa
  ctr_eq : leAt got.2 8 8 = ctr
  len_eq : leAt got.2 16 4 = len
  size   : 32 + len ≤ got.2.length

/-- What the Lodge's answer to a fresh record does to scratch: the status word lies beside the plaintext. -/
theorem scratchRead_beside {sa dest len : Nat} {l : List Byte}
    (hscratch : c.scratch = Map.setList 0 (Map.setList 0 d.scratch dest l) sa (leBytes 4 st.code ++ leBytes 4 detail))
    (hbeside : sa + 8 ≤ dest ∨ dest + len ≤ sa) :
    c.scratchRead dest len = Map.getList 0 (Map.setList 0 d.scratch dest l) dest len := by
  unfold Cell.scratchRead
  rw [hscratch]
  exact Map.getList_setList_of_disjoint 0 _ sa dest len _ (by rw [List.length_append, length_leBytes, length_leBytes]; omega)

/-- A fresh record whose tag agrees (`o` is its plaintext) or does not (`o` is none). -/
theorem State.Opens.runs_fresh {dest len ctr : Nat} {o : Option (List Byte)} (h : s.Opens x y z sa got v q)
    (hlock : q.lock ≤ got.1.timebase) (hdest : (s.cur.reg y).toNat % 2 ^ 20 = dest) (hf : State.Fresh got v q sa dest len ctr)
    (ho : gcmOpen (requestKey (q.keys.getD [])) (2 ^ 64 + ctr) (got.2.take 32) ((got.2.drop 32).take len)
      (BitVec.ofNat 128 (leAt got.2 (32 + len) 16)) = o) :
    let r : Status × List Byte × Session := o.elim (.tag, [], (got.1.takeLock q).1)
      fun p => (.ok, p, { (got.1.takeLock q).1 with reqCtr := ctr })
    Completes (.sopen x y z none) s fun t => got.1.StatusWord t sa r.1 r.2.1.length
      ∧ (t.openSession? s.cur.ident.world ((s.cur.reg y).toNat / 2 ^ 32 % 2 ^ 16)).map (·.2) = some r.2.2
      ∧ t.cur.scratchRead dest len = Map.getList 0 (Map.setList 0 got.1.cur.scratch dest r.2.1) dest len := by
  obtain ⟨hheld, hfresh, hlast, hpos, hroom, hbeside, rfl, rfl, -⟩ := hf
  have hrun : (got.1.cell s.focus.cell).run ≠ .idle := h.cell_eq ▸ h.runs
  obtain ⟨hv, -, hkeys⟩ := State.openSession?_iff.1 h.session
  have hexec := sopen_runs h.quiet h.free h.operands h.check
  rw [State.sopenRun_free h.record hrun h.session hlock, hdest] at hexec
  rw [sopenLodge_fresh (q := (got.1.takeLock q).1) hheld hfresh hlast hpos (by omega) (by omega) ho] at hexec
  intro r
  have hkept : r.2.2.keys.isSome = true := by
    cases o <;> exact hkeys
  obtain ⟨hword, -, hopen, hscratch⟩ := State.setSession_answers (u := (got.1.takeLock q).2) (st := r.1) (sa := sa)
    (detail := r.2.1.length) (h := (s.cur.reg y).toNat / 2 ^ 32 % 2 ^ 16) (a := dest) (l := r.2.1) h.cell_eq hv hkept h.runs
  exact ⟨_, hexec, hword, congrArg (Option.map (·.2)) hopen, scratchRead_beside (d := got.1.cur) hscratch hbeside⟩

end

/-! ### `SSEAL` (R384) -/

/-- A `SSEAL` that passes its checks. -/
structure State.Seals (s : State) (x y z : Reg) (sa : Nat) : Prop where
  quiet    : s.quiet
  free     : s.lodgeFree = true
  operands : ssealOperands (s.cur.reg x) (s.cur.reg y) (s.cur.reg z) = true
  check    : ssealCheck (s.cur.reg x) (s.cur.reg y) (s.cur.reg z) = .ok sa

theorem State.Seals.runs (h : s.Seals x y z sa) : exec (.sseal x y z none) s
    = .next ((s.ssealRun s.focus.cell (s.cur.reg x) (s.cur.reg y) sa).settle fun c => c.retire false) := by
  rw [exec_sseal]
  unfold execSseal
  dsimp only
  rw [h.operands, if_neg (c := (!true || !s.cur.mayArm none) = true) nofun, State.release_of_quiet h.quiet, if_neg h.quiet.runs,
    State.withChk_ok h.check, h.free]
  exact if_neg nofun

theorem ssealHandle_eq (a : Word) : ssealHandle a = a.toNat / 2 ^ 32 % 2 ^ 16 := toNat_field a 32 16

theorem ssealMode_eq (a : Word) : ssealMode a = a.toNat / 2 ^ 48 % 4 := toNat_field a 48 2

theorem ssealLen_eq (a : Word) : ssealLen a = a.toNat % 2 ^ 21 := by
  unfold ssealLen
  rw [toNat_field, pow_zero, Nat.div_one]

theorem State.Seals.closed (h : s.Seals x y z sa)
    (hnone : s.openSession? s.cur.ident.world ((s.cur.reg x).toNat / 2 ^ 32 % 2 ^ 16) = none) :
    Completes (.sseal x y z none) s fun t => s.StatusWord t sa .closed 0 ∧ SameMemory s t := by
  have hrun : s.ssealRun s.focus.cell (s.cur.reg x) (s.cur.reg y) sa
      = s.onCell s.focus.cell fun c => c.sessStatus sa .closed 0 := by
    rw [← ssealHandle_eq] at hnone
    unfold State.ssealRun
    dsimp only
    rw [show s.openSession? (s.cell s.focus.cell).ident.world (ssealHandle (s.cur.reg x)) = none from hnone]
  obtain ⟨hword, -, hmem⟩ := State.sessStatus_answers (u := s) (sa := sa) (st := .closed) (detail := 0) rfl h.quiet.runs
  exact ⟨_, h.runs.trans (by rw [hrun]), hword, hmem⟩

theorem State.Seals.busy (h : s.Seals x y z sa)
    (hopen : s.openSession? s.cur.ident.world ((s.cur.reg x).toNat / 2 ^ 32 % 2 ^ 16) = some (v, q)) (hlock : s.timebase < q.lock) :
    Completes (.sseal x y z none) s fun t =>
      s.StatusWord t sa .busy ((q.lock - s.timebase + 999) / 1000) ∧ t.worlds = s.worlds ∧ SameMemory s t := by
  have hrun : s.ssealRun s.focus.cell (s.cur.reg x) (s.cur.reg y) sa
      = s.onCell s.focus.cell fun c => c.sessStatus sa .busy ((q.lock - s.timebase + 999) / 1000) := by
    rw [← ssealHandle_eq] at hopen
    unfold State.ssealRun
    dsimp only
    rw [show s.openSession? (s.cell s.focus.cell).ident.world (ssealHandle (s.cur.reg x)) = some (v, q) from hopen]
    dsimp only
    rw [State.lockWait_of_lt hlock]
  exact ⟨_, h.runs.trans (by rw [hrun]), State.sessStatus_answers rfl h.quiet.runs⟩

/-- The Lodge takes a reply of a session that is free and fits its slots; the session is q once its lock is taken. -/
structure State.TakesReply (s : State) (x y : Reg) (v : World) (q : Session) : Prop where
  session : s.openSession? s.cur.ident.world ((s.cur.reg x).toNat / 2 ^ 32 % 2 ^ 16) = some (v, q)
  unlocked : q.lock ≤ s.timebase
  held    : v.held = false
  fits    : (s.cur.scratchRead (s.cur.reg y).toNat ((s.cur.reg x).toNat % 2 ^ 21)).length + 48 ≤ q.slotSize

/-- The session that a reply finds: its lock is taken, and the host's count of consumed slots is read. -/
def State.sealSession (s : State) (v : World) (q : Session) : Session :=
  { (s.takeLock q).1 with consumed := (s.takeLock q).2.ringConsumed v.vf (s.takeLock q).1 }

/-- The record of a reply. -/
def State.sealRecord (s : State) (x y : Reg) (v : World) (q : Session) : List Byte :=
  sealReply (s.sealSession v q) (ssealMode (s.cur.reg x)) v.epoch (s.cur.scratchRead (s.cur.reg y).toNat (ssealLen (s.cur.reg x)))

/-- What a reply of either mode leaves beside its status word: the state and the session. -/
def State.sealed (s : State) (x y : Reg) (v : World) (q : Session) : State × Session :=
  if ssealMode (s.cur.reg x) = 0 then (s.takeLock q).2.ringWrite v.vf (s.sealSession v q) (s.sealRecord x y v q)
  else ((s.takeLock q).2, { s.sealSession v q with held := q.held ++ [(v.epoch, s.sealRecord x y v q)] })

theorem State.TakesReply.ssealRun (h : s.TakesReply x y v q)
    (hok : ssealStatus v (s.sealSession v q) (s.cur.scratchRead (s.cur.reg y).toNat (ssealLen (s.cur.reg x))).length
      (ssealMode (s.cur.reg x)) = .ok) :
    s.ssealRun s.focus.cell (s.cur.reg x) (s.cur.reg y) sa
      = ((s.sealed x y v q).1.setSession s.cur.ident.world ((s.cur.reg x).toNat / 2 ^ 32 % 2 ^ 16)
          { (s.sealed x y v q).2 with repCtr := (s.sealed x y v q).2.repCtr + 1 }).onCell s.focus.cell
            fun c => c.sessStatus sa .ok (((s.sealed x y v q).2.repCtr + 1) % 2 ^ 32) := by
  have hopen := h.session
  rw [← ssealHandle_eq] at hopen ⊢
  unfold State.ssealRun
  dsimp only
  rw [show s.openSession? (s.cell s.focus.cell).ident.world (ssealHandle (s.cur.reg x)) = some (v, q) from hopen]
  dsimp only
  rw [State.lockWait_of_le h.unlocked]
  exact (if_neg (not_not.2 hok)).trans rfl

theorem State.TakesReply.status (h : s.TakesReply x y v q)
    (hprompt : ssealMode (s.cur.reg x) = 0 →
      (v.bundle.map (·.floor)).getD 0 ≠ 1 ∧ q.produced - s.ringConsumed v.vf q < q.slots)
    (hcertified : ssealMode (s.cur.reg x) = 1 → q.held.length < 64) :
    ssealStatus v (s.sealSession v q) (s.cur.scratchRead (s.cur.reg y).toNat (ssealLen (s.cur.reg x))).length
      (ssealMode (s.cur.reg x)) = .ok := by
  have hfits := h.fits
  rw [← ssealLen_eq] at hfits
  have hslots : (s.sealSession v q).slotSize = q.slotSize := rfl
  have hconsumed : (s.sealSession v q).consumed = s.ringConsumed v.vf q := rfl
  unfold ssealStatus
  rw [if_neg (by simp [h.held]), if_neg fun hm => (hprompt hm.1).1 hm.2, if_neg (by omega),
    if_neg fun hm => ?_, if_neg fun hm => ?_]
  · have := hcertified hm.1
    exact absurd (show 64 ≤ q.held.length from hm.2) (by omega)
  · have := (hprompt hm.1).2
    have hfull : q.slots ≤ q.produced - (s.sealSession v q).consumed := hm.2
    omega

/-- The end of a `SSEAL` whose reply is taken. -/
theorem State.Seals.takes {u : State} {p : Session} (h : s.Seals x y z sa) (ht : s.TakesReply x y v q)
    (hok : ssealStatus v (s.sealSession v q) (s.cur.scratchRead (s.cur.reg y).toNat (ssealLen (s.cur.reg x))).length
      (ssealMode (s.cur.reg x)) = .ok)
    (hsealed : s.sealed x y v q = (u, p)) (hcells : u.cells = s.cells) (hfocus : u.focus = s.focus) (hworlds : u.worlds = s.worlds)
    (hrep : p.repCtr = q.repCtr) (hkeys : p.keys = q.keys) : Completes (.sseal x y z none) s fun t =>
      s.StatusWord t sa .ok ((q.repCtr + 1) % 2 ^ 32) ∧ SameMemory u t
      ∧ ∃ v', t.openSession? s.cur.ident.world ((s.cur.reg x).toNat / 2 ^ 32 % 2 ^ 16)
        = some (v', { p with repCtr := q.repCtr + 1 }) := by
  have hcur : u.cur = s.cur := by
    unfold State.cur State.cell
    rw [hcells, hfocus]
  obtain ⟨hv, -, hopen⟩ := State.openSession?_iff.1 ht.session
  have hv' : u.world? s.cur.ident.world = some v := by
    unfold State.world?
    rw [hworlds]
    exact hv
  obtain ⟨hword, hmem, hset, -⟩ := State.setSession_answers (u := u) (sa := sa) (st := .ok) (detail := (q.repCtr + 1) % 2 ^ 32)
    (h := (s.cur.reg x).toNat / 2 ^ 32 % 2 ^ 16) (p := { p with repCtr := q.repCtr + 1 }) (a := 0) (l := [])
    (congrArg Focus.cell hfocus.symm) hv' (by rw [hkeys]; exact hopen) (by rw [hcur]; exact h.quiet.runs)
  have hexec := h.runs
  rw [ht.ssealRun hok, hsealed, hrep] at hexec
  exact ⟨_, hexec, hword.of_cur hcur, hmem, _, hset⟩

theorem State.Seals.certified (h : s.Seals x y z sa) (ht : s.TakesReply x y v q) (hmode : (s.cur.reg x).toNat / 2 ^ 48 % 4 = 1)
    (hroom : q.held.length < 64) : Completes (.sseal x y z none) s fun t =>
      s.StatusWord t sa .ok ((q.repCtr + 1) % 2 ^ 32) ∧ SameMemory s t
      ∧ ∃ u p, t.openSession? s.cur.ident.world ((s.cur.reg x).toNat / 2 ^ 32 % 2 ^ 16) = some (u, p)
        ∧ p.repCtr = q.repCtr + 1 ∧ p.produced = q.produced ∧ p.held.length = q.held.length + 1 := by
  rw [← ssealMode_eq] at hmode
  obtain ⟨t, hexec, hword, hmem, v', hopen⟩ := h.takes ht (ht.status (fun h0 => absurd h0 (by omega)) fun _ => hroom)
    (if_neg (by omega)) rfl rfl rfl rfl rfl
  exact ⟨t, hexec, hword, hmem, v', _, hopen, rfl, rfl, List.length_append⟩

theorem State.Seals.prompt (h : s.Seals x y z sa) (ht : s.TakesReply x y v q) (hmode : (s.cur.reg x).toNat / 2 ^ 48 % 4 = 0)
    (hfloor : (v.bundle.map (·.floor)).getD 0 ≠ 1) (hroom : q.produced - s.ringConsumed v.vf q < q.slots) :
    Completes (.sseal x y z none) s fun t =>
      s.StatusWord t sa .ok ((q.repCtr + 1) % 2 ^ 32)
      ∧ ∃ u p, t.openSession? s.cur.ident.world ((s.cur.reg x).toNat / 2 ^ 32 % 2 ^ 16) = some (u, p)
        ∧ p.repCtr = q.repCtr + 1 ∧ p.produced = q.produced + 1 ∧ p.held = q.held := by
  rw [← ssealMode_eq] at hmode
  have hframe (u : State) (k : Session) (l : List Byte) : (u.ringWrite v.vf k l).1.cells = u.cells
      ∧ (u.ringWrite v.vf k l).1.focus = u.focus ∧ (u.ringWrite v.vf k l).1.worlds = u.worlds := by
    unfold State.ringWrite
    dsimp only
    rw [State.devWrite_frame, State.devWrite_frame]
    exact ⟨rfl, rfl, rfl⟩
  obtain ⟨hcells, hfocus, hworlds⟩ := hframe (s.takeLock q).2 (s.sealSession v q) (s.sealRecord x y v q)
  obtain ⟨t, hexec, hword, -, v', hopen⟩ := h.takes ht (ht.status (fun _ => ⟨hfloor, hroom⟩) fun h1 => absurd h1 (by omega))
    (if_pos hmode) hcells hfocus hworlds rfl rfl
  exact ⟨t, hexec, hword, v', _, hopen, rfl, rfl, rfl⟩

end

/-- Settles O31: the issue of map commands (`kvm_completes`), `SOPEN` (`State.Opens`) and `SSEAL` (`State.Seals`) by what the session
allows, the meters, and the weight pins. -/
theorem mapSessionAndWeightInstructions : Obligations.MapSessionAndWeightInstructions := by
  unfold Obligations.MapSessionAndWeightInstructions
  intro s x y z v l q sa n c w rx ry rz set current request kvm word len got dest h ctr key body opened sh plain seals hv
  have hkvm (i : Instr) (op : Nat) (hi : exec i s = kvmOp s op x none) : kvm i op :=
    fun hq hl hcls => kvm_completes hi hv hq hl hcls
  have hgen : genWord (s.currentGen s.cur.ident.world (s.cur.reg y)) = current := genWord_currentGen hv (s.cur.reg y)
  have hopens (hq : s.quiet) (hfree : s.lodgeFree = true) (hops : sopenOperands ry rz = true) (hchk : s.sopenCheck n rx rz = .ok sa)
      (hrun : got.1.cur.run ≠ .idle) (hopen : got.1.openSession? w h = some (v, q)) : s.Opens x y z sa got v q :=
    ⟨hq, hfree, hops, hchk, rfl, hrun, hopen⟩
  refine ⟨hkvm _ 0 rfl, hkvm _ 1 rfl, hkvm _ 2 rfl, hkvm _ 3 rfl, hkvm _ 4 rfl, hkvm _ 5 rfl, hkvm _ 6 rfl, hkvm _ 7 rfl,
    hkvm _ 8 rfl, fun hq hfree hops hchk hrun hopen hlock hheld hfresh hlast hlen hpos hroom hbeside => ?opens,
    fun hq hfree hops hchk hrun hopen hlock => (hopens hq hfree hops hchk hrun hopen).busy hlock,
    fun hq hfree hops hchk hopen hlock => (State.Seals.mk hq hfree hops hchk).busy hopen hlock,
    fun hs hmode hroom => ?certified, fun hs hmode hfloor hroom => ?prompt,
    fun hq hfree hops hchk hnone => (State.Seals.mk hq hfree hops hchk).closed hnone,
    smeter_counts, sepoch_reads hv, fun hset => hgen ▸ wgen_writes hset, fun hset hnone => ?pins,
    fun hset hpin => wunpin_frees hset hpin⟩
  case opens =>
    have hsize : got.2.length = 48 + len := State.length_unitRead s _ _ _ _ _
    have hf : State.Fresh got v q sa dest len ctr :=
      ⟨hheld, hfresh, hlast, hpos, hroom, hbeside, rfl, hlen, by omega⟩
    have hdest : (s.cur.reg y).toNat % 2 ^ 20 = dest := rfl
    have ho : gcmOpen (requestKey (q.keys.getD [])) (2 ^ 64 + ctr) (got.2.take 32) ((got.2.drop 32).take len)
      (BitVec.ofNat 128 (leAt got.2 (32 + len) 16)) = opened := rfl
    obtain ⟨t, hexec, hword, hset, hread⟩ := (hopens hq hfree hops hchk hrun hopen).runs_fresh hlock hdest hf ho
    refine ⟨t, hexec, fun p hp => ?_, fun hp => ?_⟩
    · rw [hp] at hword hset hread
      have hplain : p.length = len := by
        have hbody := length_of_gcmOpen (ho.trans hp)
        rw [List.length_take, List.length_drop, hsize] at hbody
        omega
      refine ⟨hplain ▸ hword, ⟨_, Nat.le_add_right _ _, hset⟩, hread.trans ?_⟩
      rw [← hplain]
      exact Map.getList_setList 0 _ _ p
    · rw [hp] at hword hread
      exact ⟨hword, hread⟩
  case certified =>
    obtain ⟨hq, hfree, hops, hchk, hopen, hlock, hheld, hfits⟩ := hs
    exact (State.Seals.mk hq hfree hops hchk).certified ⟨hopen, hlock, hheld, hfits⟩ hmode hroom
  case prompt =>
    obtain ⟨hq, hfree, hops, hchk, hopen, hlock, hheld, hfits⟩ := hs
    exact (State.Seals.mk hq hfree hops hchk).prompt ⟨hopen, hlock, hheld, hfits⟩ hmode hfloor hroom
  case pins =>
    have hpin := wpin_holds (x := x) hv hset hnone
    rwa [hgen] at hpin

end Sys2Proof.Machine
end
